-- ==== Sys2Proof/Word.lean ====
section
/-!
DEFINITION. Word types of the Skelah 62 (R8, R28): 64-bit words, 512-bit lines, bytes, and the sparse map from
natural-number keys used wherever the machine holds many like things.
-/

namespace Sys2Proof

/-- A 64-bit word (x registers, code addresses, counters). -/
abbrev Word := BitVec 64

/-- A 512-bit line (v registers, the bits of a c register, one memory line). -/
abbrev Line := BitVec 512

/-- One byte. -/
abbrev Byte := BitVec 8

/-- A sparse map: key and value pairs, keys strictly rising, no entry equal to the value an unlisted key has. -/
abbrev SMap (α : Type) := List (Nat × α)

end Sys2Proof
end

