-- ==== Sys2Proof/Syntax.lean ====
section
/-!
DEFINITION. The instructions of the Skelah 62 and the events of its other agents: one constructor of `Instr` for each
row of the opcode table. Operand fields are typed (R90, R95, R96); immediates whose range a form restricts are checked
by WellFormed.
-/

namespace Sys2Proof

/-! ## Operand types -/

/-- x0 … x31 (R9). -/
abbrev XReg := Fin 32
/-- v0 … v31 (R9). -/
abbrev VReg := Fin 32
/-- c0 … c15 (R9). -/
abbrev CReg := Fin 16
/-- p0 … p7 (R9). -/
abbrev PReg := Fin 8
/-- t0 … t7 (R9). -/
abbrev TReg := Fin 8
/-- The narrow accumulator slots a0 … a7 (R19). -/
abbrev NAcc := Fin 8
/-- The wide accumulator slots a8 … a11, counted from 0 (R19). -/
abbrev WAcc := Fin 4
/-- First register of an x pair, at most x30 (R96). -/
abbrev XPair := Fin 31
/-- First register of an x quad, at most x28 (R96). -/
abbrev XQuad := Fin 29
/-- First register of a c pair, at most c14 (R96). -/
abbrev CPair := Fin 15
/-- A 32-bit immediate (R94). -/
abbrev Imm := BitVec 32
/-- A scope code 0 … 10 (R94, form SC). -/
abbrev ScopeCode := Fin 11

/-- The fields every instruction carries (R88): guard, switch marker and hints. -/
structure Ctl where
  /-- guard predicate index GP -/
  gp  : Fin 8
  /-- guard negate GN -/
  gn  : Bool
  /-- switch marker S -/
  s   : Bool
  /-- minimum core cycles before the next issue, DLY -/
  dly : Fin 8
  /-- operand reuse RU -/
  ru  : Fin 4
  /-- YLD -/
  yld : Bool
  /-- fetch-stop FS -/
  fs  : Bool
  deriving DecidableEq, Repr

/-- The element types Ti, codes 0x0 … 0x7 (R95). -/
inductive IType where
  | s8 | s16 | s32 | s64 | z8 | z16 | z32 | z64
  deriving DecidableEq, Repr

/-- The element types Tf, codes 0x8 … 0xA (R95). -/
inductive FType where
  | f32 | bf16 | f16
  deriving DecidableEq, Repr

/-- The element types Tv, codes 0x0 … 0xA (R95). -/
inductive VType where
  | int (t : IType)
  | flt (t : FType)
  deriving DecidableEq, Repr

/-- All sixteen element types, Ta (R95). -/
inductive EType where
  | s8 | s16 | s32 | s64 | z8 | z16 | z32 | z64 | f32 | bf16 | f16 | e4m3 | e5m2 | e2m1 | s4 | e3m5
  deriving DecidableEq, Repr

/-- The packing modes of a coordinate register (R37). -/
inductive Pack where
  /-- one 64-bit coordinate -/
  | one
  /-- two 32-bit coordinates -/
  | two
  /-- four 16-bit coordinates -/
  | four
  deriving DecidableEq, Repr

/-- The rounding modes RM of R12. -/
inductive RMode where
  | rne | rtz | rdn | rup | rna
  deriving DecidableEq, Repr

/-- The rounding selector of form RO (R94): `frm` or a mode of its own. -/
inductive RSel where
  | frm
  | mode (r : RMode)
  deriving DecidableEq, Repr

/-- The conditions of an integer compare (R90). -/
inductive ICond where
  | eq | ne | lt | le | gt | ge
  deriving DecidableEq, Repr

/-- The conditions of a floating-point compare (R90). -/
inductive FCond where
  | eq | ne | lt | le | gt | ge | ord | uno
  deriving DecidableEq, Repr

/-- The conditions of a bit test or a capability equality (R98). -/
inductive EqCond where
  | eq | ne
  deriving DecidableEq, Repr

/-- The predicate logic of `setp` (R117). -/
inductive PLogic where
  | and | or | xor | andn | orn | xnor
  deriving DecidableEq, Repr

/-- The three forms of `li` (R113). -/
inductive LiForm where
  | sext
  | zext
  | upper (a : XReg)
  deriving DecidableEq, Repr

/-- The operations of `amo` (R90, R145). -/
inductive AmoOp where
  | add | and | or | xor | min | max | swap
  deriving DecidableEq, Repr

/-- The kinds of `vred` (R162). -/
inductive RedKind where
  | sum | min | max
  deriving DecidableEq, Repr

/-- The block lengths of `mmb` (R101). -/
inductive BlkLen where
  | b8 | b16 | b32
  deriving DecidableEq, Repr

/-- The levels of `pref` (R150). -/
inductive PrefLevel where
  | l1 | l2 | stash
  deriving DecidableEq, Repr

/-- The special registers that `sysrd` may read (R17, R224, R243). -/
inductive SReg where
  | frm | fflags | lc | ls | le
  | actid | coreid | teamid | stage | gx | gy | gz
  | tcause | tiaddr | tfva | taux | tstate | cwrem | fltcnt
  | wtlim | clflags | defocc | cmptno | calldepth
  deriving DecidableEq, Repr

/-- The special registers that `syswr` may write (R17, R224, R243). -/
inductive WReg where
  | frm | fflags | lc | ls | le | wtlim
  deriving DecidableEq, Repr

/-- The selecting predicate of form SEL (R94). -/
structure PSel where
  p   : PReg
  neg : Bool
  deriving DecidableEq, Repr

/-- A memory operand with displacements (R74, R37): the capability in A, the coordinate register and packing in B,
the displacements in IMM. -/
structure MemOp where
  c    : CReg
  x    : XReg
  pack : Pack
  disp : Imm
  deriving DecidableEq, Repr

/-- A memory operand whose instruction gives IMM another use: every displacement is 0 (R37). -/
structure MemReg where
  c    : CReg
  x    : XReg
  pack : Pack
  deriving DecidableEq, Repr

/-- The options of `bstage` (R191). -/
structure StageOpts where
  /-- count into the Sluice at C[15] -/
  slu : Bool
  /-- check the capability's hints -/
  hnt : Bool
  /-- 0: coordinate 0 runs along k -/
  kax : Bool
  /-- k-elements supplied, minus one -/
  kn  : Fin 64
  deriving DecidableEq, Repr

/-- The number by which an event names a core, slot, line, partition, world, team, grid, … -/
abbrev Num := Nat

/-! ## Instructions and events -/

/-- One constructor per row of the opcode table. The instruction forms of R97 … R102 come first in the table's order,
each beginning with its control fields; then the events of the machine's own agents and last those from outside, with
the numbers that say where they happen. -/
inductive Instr where
  /-- `add` of two registers (R108). -/
  | addReg (g : Ctl) (t : IType) (d a b : XReg)
  /-- `add` of a register and an immediate (R108). -/
  | addImm (g : Ctl) (t : IType) (d a : XReg) (imm : Imm)
  /-- `sub` of two registers (R108). -/
  | subReg (g : Ctl) (t : IType) (d a b : XReg)
  /-- `sub` of a register and an immediate (R108). -/
  | subImm (g : Ctl) (t : IType) (d a : XReg) (imm : Imm)
  /-- `mul` of two registers (R108). -/
  | mulReg (g : Ctl) (t : IType) (d a b : XReg)
  /-- `mul` of a register and an immediate (R108). -/
  | mulImm (g : Ctl) (t : IType) (d a : XReg) (imm : Imm)
  /-- `mulh` of two registers (R108). -/
  | mulhReg (g : Ctl) (t : IType) (d a b : XReg)
  /-- `mulh` of a register and an immediate (R108). -/
  | mulhImm (g : Ctl) (t : IType) (d a : XReg) (imm : Imm)
  /-- `div` of two registers (R109). -/
  | divReg (g : Ctl) (t : IType) (d a b : XReg)
  /-- `div` of a register and an immediate (R109). -/
  | divImm (g : Ctl) (t : IType) (d a : XReg) (imm : Imm)
  /-- `rem` of two registers (R109). -/
  | remReg (g : Ctl) (t : IType) (d a b : XReg)
  /-- `rem` of a register and an immediate (R109). -/
  | remImm (g : Ctl) (t : IType) (d a : XReg) (imm : Imm)
  /-- `and` of two registers (R108). -/
  | andReg (g : Ctl) (t : IType) (d a b : XReg)
  /-- `and` of a register and an immediate (R108). -/
  | andImm (g : Ctl) (t : IType) (d a : XReg) (imm : Imm)
  /-- `or` of two registers (R108). -/
  | orReg (g : Ctl) (t : IType) (d a b : XReg)
  /-- `or` of a register and an immediate (R108). -/
  | orImm (g : Ctl) (t : IType) (d a : XReg) (imm : Imm)
  /-- `xor` of two registers (R108). -/
  | xorReg (g : Ctl) (t : IType) (d a b : XReg)
  /-- `xor` of a register and an immediate (R108). -/
  | xorImm (g : Ctl) (t : IType) (d a : XReg) (imm : Imm)
  /-- `shl` by a register amount (R110). -/
  | shlReg (g : Ctl) (t : IType) (d a b : XReg)
  /-- `shl` by an immediate amount (R110). -/
  | shlImm (g : Ctl) (t : IType) (d a : XReg) (n : Fin 64)
  /-- `shr` by a register amount (R110). -/
  | shrReg (g : Ctl) (t : IType) (d a b : XReg)
  /-- `shr` by an immediate amount (R110). -/
  | shrImm (g : Ctl) (t : IType) (d a : XReg) (n : Fin 64)
  /-- `sar` by a register amount (R110). -/
  | sarReg (g : Ctl) (t : IType) (d a b : XReg)
  /-- `sar` by an immediate amount (R110). -/
  | sarImm (g : Ctl) (t : IType) (d a : XReg) (n : Fin 64)
  /-- `min` of two registers (R108). -/
  | minReg (g : Ctl) (t : IType) (d a b : XReg)
  /-- `min` of a register and an immediate (R108). -/
  | minImm (g : Ctl) (t : IType) (d a : XReg) (imm : Imm)
  /-- `max` of two registers (R108). -/
  | maxReg (g : Ctl) (t : IType) (d a b : XReg)
  /-- `max` of a register and an immediate (R108). -/
  | maxImm (g : Ctl) (t : IType) (d a : XReg) (imm : Imm)
  /-- `sel` (R112). -/
  | sel (g : Ctl) (d a b : XReg) (p : PSel)
  /-- `mov` x from x (R114). -/
  | movXX (g : Ctl) (d a : XReg)
  /-- `li` (R113). -/
  | li (g : Ctl) (f : LiForm) (d : XReg) (imm : Imm)
  /-- `clz` (R111). -/
  | clz (g : Ctl) (t : IType) (d a : XReg)
  /-- `popc` (R111). -/
  | popc (g : Ctl) (t : IType) (d a : XReg)
  /-- `mov` x from a vector lane (R114). -/
  | movXFromLane (g : Ctl) (t : IType) (d : XReg) (a : VReg) (lane : Fin 64)
  /-- `mov` vector lane from x (R114). -/
  | movLaneFromX (g : Ctl) (t : IType) (d : VReg) (a : XReg) (lane : Fin 64)
  /-- `mov` v broadcast from x (R114). -/
  | movBroadcast (g : Ctl) (t : IType) (d : VReg) (a : XReg)
  /-- `mov` x from p (R114). -/
  | movXFromP (g : Ctl) (d : XReg) (a : PReg)
  /-- `mov` p from x (R114). -/
  | movPFromX (g : Ctl) (d : PReg) (a : XReg)
  /-- `mov` v from v (R114). -/
  | movVV (g : Ctl) (d a : VReg)
  /-- `mov` p from p (R114). -/
  | movPP (g : Ctl) (d a : PReg)
  /-- `setp` compare (R116). -/
  | setpCompare (g : Ctl) (t : IType) (k : ICond) (d : PReg) (a b : XReg)
  /-- `setp` compare with immediate (R116). -/
  | setpCompareImm (g : Ctl) (t : IType) (k : ICond) (d : PReg) (a : XReg) (imm : Imm)
  /-- `setp` predicate logic (R117). -/
  | setpLogic (g : Ctl) (k : PLogic) (d a b : PReg)
  /-- `setp` bit test (R116). -/
  | setpBitTest (g : Ctl) (k : EqCond) (d : PReg) (a : XReg) (mask : Imm)
  /-- `setp` capability equality (R116). -/
  | setpCapEqual (g : Ctl) (k : EqCond) (d : PReg) (a b : CReg)
  /-- `br` (R118). -/
  | br (g : Ctl) (off : Imm)
  /-- `br` on register (R118). -/
  | brOnRegister (g : Ctl) (onZero : Bool) (a : XReg) (off : Imm)
  /-- `bx` (R119, R120). -/
  | bx (g : Ctl) (a : XReg)
  /-- `call` (R118). -/
  | call (g : Ctl) (d : XReg) (off : Imm)
  /-- `call` indirect (R119, R120). -/
  | callIndirect (g : Ctl) (d a : XReg)
  /-- `callh` (R119, R120). -/
  | callh (g : Ctl) (d a : XReg)
  /-- `ret` (R119, R120). -/
  | ret (g : Ctl) (a : XReg)
  /-- `loop` counted by a register (R124). -/
  | loopRegister (g : Ctl) (a : XReg) (dist : Imm)
  /-- `loop` with an immediate count (R124). -/
  | loopImmediate (g : Ctl) (count dist : BitVec 16)
  /-- `cslice` with offsets and counts in a quad (R129). -/
  | csliceRegister (g : Ctl) (d a : CReg) (b : XQuad)
  /-- `cslice` with immediate counts (R129). -/
  | csliceImmediate (g : Ctl) (d a : CReg) (b : XReg) (n : Imm)
  /-- `cstep` by a register factor (R130). -/
  | cstepRegister (g : Ctl) (d a : CReg) (b : XReg) (k : Fin 4)
  /-- `cstep` by an immediate factor (R130). -/
  | cstepImmediate (g : Ctl) (d a : CReg) (k : Fin 4) (f : BitVec 30)
  /-- `ctrans` (R131). -/
  | ctrans (g : Ctl) (d a : CReg) (pi : BitVec 8)
  /-- `cfix` at a register value (R132). -/
  | cfixRegister (g : Ctl) (d a : CReg) (b : XReg) (k : Fin 4)
  /-- `cfix` at an immediate value (R132). -/
  | cfixImmediate (g : Ctl) (d a : CReg) (k : Fin 4) (o : BitVec 30)
  /-- `cperm` (R133). -/
  | cperm (g : Ctl) (d a : CReg) (imm : Imm)
  /-- `cseal` (R134). -/
  | cseal (g : Ctl) (d a b : CReg) (t : BitVec 16)
  /-- `cunseal` (R134). -/
  | cunseal (g : Ctl) (d a b : CReg) (t : BitVec 16)
  /-- `cget` to x (R135). -/
  | cgetX (g : Ctl) (d : XReg) (a : CReg) (fld : BitVec 8)
  /-- `cget` to p (R135). -/
  | cgetP (g : Ctl) (d : PReg) (a : CReg) (fld : BitVec 8)
  /-- `cmov` (R136). -/
  | cmov (g : Ctl) (d a : CReg)
  /-- `cld` (R142). -/
  | cld (g : Ctl) (d : CReg) (m : MemOp)
  /-- `cst` (R142). -/
  | cst (g : Ctl) (d : CReg) (m : MemOp)
  /-- `ld` (R140). -/
  | ld (g : Ctl) (t : IType) (d : XReg) (m : MemOp)
  /-- `st` (R140). -/
  | st (g : Ctl) (t : IType) (d : XReg) (m : MemOp)
  /-- `ld.acq` (R141). -/
  | ldAcq (g : Ctl) (t : IType) (d : XReg) (m : MemReg) (sc : ScopeCode)
  /-- `st.rel` (R141). -/
  | stRel (g : Ctl) (t : IType) (d : XReg) (m : MemReg) (sc : ScopeCode)
  /-- `vld` (R143). -/
  | vld (g : Ctl) (t : EType) (d : VReg) (m : MemOp)
  /-- `vst` (R143). -/
  | vst (g : Ctl) (t : EType) (d : VReg) (m : MemOp)
  /-- `vgth` (R144). -/
  | vgth (g : Ctl) (t : VType) (d : VReg) (a : CReg) (b : VReg)
  /-- `vsct` (R144). -/
  | vsct (g : Ctl) (t : VType) (d : VReg) (a : CReg) (b : VReg)
  /-- `amo` (R145). -/
  | amo (g : Ctl) (t : IType) (k : AmoOp) (d : XReg) (m : MemOp)
  /-- `cas` (R146). -/
  | cas (g : Ctl) (t : IType) (d : XPair) (m : MemOp)
  /-- `cas` on capability lines (R146). -/
  | casCapability (g : Ctl) (d : CPair) (m : MemOp)
  /-- `fence` (R148). -/
  | fence (g : Ctl) (sc : ScopeCode)
  /-- `slock` (R149). -/
  | slock (g : Ctl) (d : XReg) (m : MemOp)
  /-- `sunlock` (R149). -/
  | sunlock (g : Ctl) (m : MemOp)
  /-- `pref` (R150). -/
  | pref (g : Ctl) (l : PrefLevel) (m : MemOp)
  /-- Integer `vadd`, vector and vector (R154). -/
  | vaddIntVv (g : Ctl) (t : IType) (d a b : VReg)
  /-- Integer `vadd`, vector and x (R154). -/
  | vaddIntVx (g : Ctl) (t : IType) (d a : VReg) (b : XReg)
  /-- Integer `vsub`, vector and vector (R154). -/
  | vsubIntVv (g : Ctl) (t : IType) (d a b : VReg)
  /-- Integer `vsub`, vector and x (R154). -/
  | vsubIntVx (g : Ctl) (t : IType) (d a : VReg) (b : XReg)
  /-- Integer `vmul`, vector and vector (R154). -/
  | vmulIntVv (g : Ctl) (t : IType) (d a b : VReg)
  /-- Integer `vmul`, vector and x (R154). -/
  | vmulIntVx (g : Ctl) (t : IType) (d a : VReg) (b : XReg)
  /-- Integer `vmin`, vector and vector (R154). -/
  | vminIntVv (g : Ctl) (t : IType) (d a b : VReg)
  /-- Integer `vmin`, vector and x (R154). -/
  | vminIntVx (g : Ctl) (t : IType) (d a : VReg) (b : XReg)
  /-- Integer `vmax`, vector and vector (R154). -/
  | vmaxIntVv (g : Ctl) (t : IType) (d a b : VReg)
  /-- Integer `vmax`, vector and x (R154). -/
  | vmaxIntVx (g : Ctl) (t : IType) (d a : VReg) (b : XReg)
  /-- Float `vadd`, vector and vector (R155). -/
  | vaddFloatVv (g : Ctl) (t : FType) (d a b : VReg) (r : RSel)
  /-- Float `vadd`, vector and x (R155). -/
  | vaddFloatVx (g : Ctl) (t : FType) (d a : VReg) (b : XReg) (r : RSel)
  /-- Float `vsub`, vector and vector (R155). -/
  | vsubFloatVv (g : Ctl) (t : FType) (d a b : VReg) (r : RSel)
  /-- Float `vsub`, vector and x (R155). -/
  | vsubFloatVx (g : Ctl) (t : FType) (d a : VReg) (b : XReg) (r : RSel)
  /-- Float `vmul`, vector and vector (R155). -/
  | vmulFloatVv (g : Ctl) (t : FType) (d a b : VReg) (r : RSel)
  /-- Float `vmul`, vector and x (R155). -/
  | vmulFloatVx (g : Ctl) (t : FType) (d a : VReg) (b : XReg) (r : RSel)
  /-- Float `vmin`, vector and vector (R157). -/
  | vminFloatVv (g : Ctl) (t : FType) (d a b : VReg)
  /-- Float `vmin`, vector and x (R157). -/
  | vminFloatVx (g : Ctl) (t : FType) (d a : VReg) (b : XReg)
  /-- Float `vmax`, vector and vector (R157). -/
  | vmaxFloatVv (g : Ctl) (t : FType) (d a b : VReg)
  /-- Float `vmax`, vector and x (R157). -/
  | vmaxFloatVx (g : Ctl) (t : FType) (d a : VReg) (b : XReg)
  /-- `vfma`, vector and vector (R156). -/
  | vfmaVv (g : Ctl) (t : FType) (d a b : VReg) (r : RSel)
  /-- `vfma`, vector and x (R156). -/
  | vfmaVx (g : Ctl) (t : FType) (d a : VReg) (b : XReg) (r : RSel)
  /-- Integer `vabs` (R154). -/
  | vabsInt (g : Ctl) (t : IType) (d a : VReg)
  /-- Float `vabs` (R158). -/
  | vabsFloat (g : Ctl) (t : FType) (d a : VReg)
  /-- Integer `vneg` (R154). -/
  | vnegInt (g : Ctl) (t : IType) (d a : VReg)
  /-- Float `vneg` (R158). -/
  | vnegFloat (g : Ctl) (t : FType) (d a : VReg)
  /-- `vcvt` (R159 … R161). -/
  | vcvt (g : Ctl) (td ts : EType) (d a : VReg) (r : RSel)
  /-- Integer `vred` (R162). -/
  | vredInt (g : Ctl) (t : IType) (k : RedKind) (d a : VReg)
  /-- Float `vred` (R162). -/
  | vredFloat (g : Ctl) (t : FType) (k : RedKind) (d a : VReg) (r : RSel)
  /-- `vperm` by lane indices (R163). -/
  | vpermRegister (g : Ctl) (t : VType) (d a b : VReg)
  /-- `vperm` by an immediate pattern (R164). -/
  | vpermImmediate (g : Ctl) (t : VType) (d a : VReg) (imm : Imm)
  /-- `vsel` (R165). -/
  | vsel (g : Ctl) (t : VType) (d a b : VReg) (p : PSel)
  /-- Integer `vsetp`, vector and vector (R166). -/
  | vsetpIntVv (g : Ctl) (t : IType) (k : ICond) (d : PReg) (a b : VReg)
  /-- Integer `vsetp`, vector and x (R166). -/
  | vsetpIntVx (g : Ctl) (t : IType) (k : ICond) (d : PReg) (a : VReg) (b : XReg)
  /-- Float `vsetp`, vector and vector (R166). -/
  | vsetpFloatVv (g : Ctl) (t : FType) (k : FCond) (d : PReg) (a b : VReg)
  /-- Float `vsetp`, vector and x (R166). -/
  | vsetpFloatVx (g : Ctl) (t : FType) (k : FCond) (d : PReg) (a : VReg) (b : XReg)
  /-- Integer `vargmax` (R167). -/
  | vargmaxInt (g : Ctl) (t : IType) (d : XReg) (a : VReg)
  /-- Float `vargmax` (R167). -/
  | vargmaxFloat (g : Ctl) (t : FType) (d : XReg) (a : VReg)
  /-- `vrng` (R168). -/
  | vrng (g : Ctl) (t : VType) (d : VReg) (a b : XReg)
  /-- Integer `vadd` with an immediate element (R154). -/
  | vaddIntVi (g : Ctl) (t : IType) (d a : VReg) (imm : Imm)
  /-- Integer `vsub` with an immediate element (R154). -/
  | vsubIntVi (g : Ctl) (t : IType) (d a : VReg) (imm : Imm)
  /-- Integer `vmul` with an immediate element (R154). -/
  | vmulIntVi (g : Ctl) (t : IType) (d a : VReg) (imm : Imm)
  /-- Integer `vmin` with an immediate element (R154). -/
  | vminIntVi (g : Ctl) (t : IType) (d a : VReg) (imm : Imm)
  /-- Integer `vmax` with an immediate element (R154). -/
  | vmaxIntVi (g : Ctl) (t : IType) (d a : VReg) (imm : Imm)
  /-- `tset` (R173). -/
  | tset (g : Ctl) (d : TReg) (a : XReg)
  /-- `mchain` (R176). -/
  | mchain (g : Ctl)
  /-- `mend` (R176). -/
  | mend (g : Ctl)
  /-- `mmf` (R177, R179). -/
  | mmf (g : Ctl) (d : NAcc) (a b : TReg)
  /-- `mmi` into a narrow slot (R177, R179). -/
  | mmiNarrow (g : Ctl) (d : NAcc) (a b : TReg)
  /-- `mmi` into a wide slot (R177, R179). -/
  | mmiWide (g : Ctl) (d : WAcc) (a b : TReg)
  /-- `mmb` (R177, R179). -/
  | mmb (g : Ctl) (d : NAcc) (a b : TReg) (la lb : BlkLen)
  /-- `mscacc` (R177, R179). -/
  | mscacc (g : Ctl) (d : WAcc) (a : NAcc) (b : VReg)
  /-- `macld` from a narrow slot (R180). -/
  | macldNarrow (g : Ctl) (d : VReg) (a : NAcc) (grp : Fin 64)
  /-- `macld` from a wide slot (R180). -/
  | macldWide (g : Ctl) (d : VReg) (a : WAcc) (grp : Fin 64)
  /-- `mzero` of a narrow slot (R181). -/
  | mzeroNarrow (g : Ctl) (d : NAcc)
  /-- `mzero` of a wide slot (R181). -/
  | mzeroWide (g : Ctl) (d : WAcc)
  /-- Event: the engine of a core commits its oldest instruction (R63). -/
  | engineInstructionCommit (core : Num)
  /-- Event: the chain completion a slot of the core is owed returns (R171). -/
  | chainCompletion (core : Num)
  /-- `bcopy` by a template (R185 … R187). -/
  | bcopyTemplate (g : Ctl) (d : XReg) (a b : CReg) (tmpl : Imm)
  /-- `bcopy` over the common shape (R188). -/
  | bcopyCommonShape (g : Ctl) (d : XReg) (a b : CReg)
  /-- `bstage` (R191, R192). -/
  | bstage (g : Ctl) (d : XReg) (a : TReg) (b : CReg) (o : StageOpts)
  /-- `bres` (R190). -/
  | bres (g : Ctl) (d : XReg) (a : CReg)
  /-- Event: the Barge of a core takes up and carries out its next entry (R183). -/
  | bargeExecute (core : Num)
  /-- Event: the Barge instruction carried out last returns its status, count or fault (R184). -/
  | bargeCompletion (core : Num)
  /-- `sinit` (R195). -/
  | sinit (g : Ctl) (d : XReg) (m : MemOp)
  /-- `sarm` with a byte count in x (R195). -/
  | sarmRegister (g : Ctl) (d : XReg) (m : MemOp)
  /-- `sarm` with an immediate byte count (R195). -/
  | sarmImmediate (g : Ctl) (m : MemReg) (n : Imm)
  /-- `sarrive` (R195). -/
  | sarrive (g : Ctl) (m : MemOp)
  /-- `sarrive` with bytes (R195). -/
  | sarriveBytes (g : Ctl) (d : XReg) (m : MemOp)
  /-- Event: the home of a Sluice applies the oldest operation the slot has sent (R195). -/
  | sluiceOperationApply (core : Num) (slot : Num)
  /-- Blocking `swait` (R197). -/
  | swaitBlocking (g : Ctl) (d : XReg) (m : MemOp)
  /-- Polling `swait` (R197). -/
  | swaitPoll (g : Ctl) (d : XReg) (m : MemOp)
  /-- `wait` for an x register (R198). -/
  | waitX (g : Ctl) (d : XReg)
  /-- `wait` for a v register (R198). -/
  | waitV (g : Ctl) (d : VReg)
  /-- `wait` for a c register (R198). -/
  | waitC (g : Ctl) (d : CReg)
  /-- `spawn` (R207). -/
  | spawn (g : Ctl) (d : XReg) (m : MemOp)
  /-- `launch` (R208). -/
  | launch (g : Ctl) (d : XReg) (m : MemOp)
  /-- `rdec` by an immediate amount (R211). -/
  | rdecImmediate (g : Ctl) (m : MemReg) (n : Imm)
  /-- `rdec` by a register amount (R211). -/
  | rdecRegister (g : Ctl) (d : XReg) (m : MemReg)
  /-- `fork` (R209). -/
  | fork (g : Ctl) (d : XReg) (a : CReg)
  /-- `fork` with revisions (R210). -/
  | forkWithRevisions (g : Ctl) (d : XReg) (a b : CReg)
  /-- `commit` (R201). -/
  | commit (g : Ctl)
  /-- `retire` (R204). -/
  | retire (g : Ctl)
  /-- `bpush` of an x register (R213). -/
  | bpushX (g : Ctl) (d : XReg) (m : MemOp)
  /-- `bpush` of a v register (R213). -/
  | bpushV (g : Ctl) (d : VReg) (m : MemOp)
  /-- `bpop` to an x register (R214). -/
  | bpopX (g : Ctl) (d : XReg) (m : MemOp)
  /-- `bpop` to a v register (R214). -/
  | bpopV (g : Ctl) (d : VReg) (m : MemOp)
  /-- Event: the push or pop a slot holds at a Basin is served (R215). -/
  | basinHeldOperation (core : Num) (slot : Num)
  /-- `ccall` (R216, R217). -/
  | ccall (g : Ctl) (a b : CReg)
  /-- `cret` (R218). -/
  | cret (g : Ctl)
  /-- `publish` (R220). -/
  | publish (g : Ctl) (d a : CReg) (b : XReg)
  /-- `trap` (R221). -/
  | trap (g : Ctl) (code : Imm)
  /-- `tret.resume` (R222, R235). -/
  | tretResume (g : Ctl)
  /-- `tret.skip` (R222, R235). -/
  | tretSkip (g : Ctl)
  /-- `tret.end` (R222, R235). -/
  | tretEnd (g : Ctl)
  /-- `sysrd` (R223). -/
  | sysrd (g : Ctl) (d : XReg) (s : SReg)
  /-- `syswr` from x (R223). -/
  | syswrRegister (g : Ctl) (s : WReg) (a : XReg)
  /-- `syswr` of an immediate (R223). -/
  | syswrImmediate (g : Ctl) (s : WReg) (imm : Imm)
  /-- `ctr` to x (R226). -/
  | ctrX (g : Ctl) (d a : XReg)
  /-- `ctr` to v (R226). -/
  | ctrV (g : Ctl) (d : VReg) (a : XReg)
  /-- Event: an owed result of a slot performs and returns (R24). -/
  | owedValueReturn (core : Num) (slot : Num) (idx : Num)
  /-- Event: a park ends and its values land (R22). -/
  | parkEnd (core : Num) (slot : Num)
  /-- Event: a core cycle: the core chooses the slot that issues (R259). -/
  | issueSlotChoice (core : Num)
  /-- Event: a handled fault is delivered (R232). -/
  | trapEntry (core : Num) (slot : Num)
  /-- Event: a terminal fault ends the activation (R234). -/
  | terminalFault (core : Num) (slot : Num)
  /-- Event: the commit window of an activation expires (R203). -/
  | commitWindowExpiry (core : Num) (slot : Num)
  /-- Event: the wait timer of a slot expires (R197, R215). -/
  | waitTimerExpiry (core : Num) (slot : Num)
  /-- Event: the scheduler requests pre-emption of a slot (R238). -/
  | preemptionRequest (core : Num) (slot : Num)
  /-- Event: a pre-empted activation is discarded (R239). -/
  | activationDiscard (core : Num) (slot : Num)
  /-- Event: an uncorrectable error takes a core out of service (R241). -/
  | machineCheck (core : Num)
  /-- Event: a free slot starts the record it takes (R257). -/
  | activationStart (core : Num) (slot : Num)
  /-- Event: a push a full ready ring holds is made (R255). -/
  | heldRingPush (team : Num) (teamCore : Num)
  /-- Event: the grid at the head of a partition's queue is admitted (R251). -/
  | gridAdmission (p : Num)
  /-- Event: a waiting team is placed on rows (R264). -/
  | teamPlacement (team : Num)
  /-- Event: the quantum of a resident team ends (R264). -/
  | quantumExpiry (team : Num)
  /-- Event: the grace of a team being swapped out ends (R264). -/
  | swapGraceExpiry (team : Num)
  /-- Event: a quiet team is written to its swap area (R264). -/
  | teamSwapOut (team : Num)
  /-- Event: a swapped-out team is placed again (R265). -/
  | teamSwapIn (team : Num)
  /-- Event: the Weir of a team runs (R261). -/
  | weirRun (team : Num)
  /-- Event: a finished grid releases its leases and fires its completion (R263). -/
  | gridCompletion (grid : Num)
  /-- Event: a revision whose join conditions hold is merged or dropped (R274). -/
  | junctionMerge (rev : Num)
  /-- Event: the Junction resets a revision after a discard (R275). -/
  | revisionDiscardReset (rev : Num)
  /-- Event: a translation buffer is refilled (R333). -/
  | tlbRefill (cluster : Num) (page : Num)
  /-- Event: an invalidation is done (R336). -/
  | invalidationComplete (p : Num)
  /-- Event: a code page is hashed and verified or refused (R359). -/
  | pageVerification (world : Num) (obj : Num) (page : Num)
  /-- Event: the Dredger visits one line (R349). -/
  | dredgerSweepVisit (world : Num) (line : Num)
  /-- Event: the recorded activations of a revocation are pre-empted (R348). -/
  | revocationPreemptTimeout (world : Num)
  /-- Event: a revocation completes (R348). -/
  | revocationComplete (world : Num)
  /-- Event: the Sieve refreshes the outside copies of a world's counters (R228). -/
  | counterRefresh (world : Num)
  /-- Event: the home receives a queued write of a slot and updates the sharers (R314). -/
  | writeUpdate (core : Num) (slot : Num) (idx : Num)
  /-- Event: a sharer's reply to a write-update reaches the home (R316). -/
  | updateReply (line : Num) (core : Num)
  /-- Event: the home commits a write whose replies are all in (R314). -/
  | homeCommit (line : Num)
  /-- Event: two quiet sibling regions merge (R316). -/
  | regionMerge (slice : Num) (region : Num)
  /-- Event: a slice frees its least recently used directory entry (R315). -/
  | directoryEntryEviction (slice : Num)
  /-- Event: an L1 or stash evicts a line and tells the home (R317). -/
  | evictionNotice (line : Num) (core : Num)
  /-- Event: a stash fill makes the stash owner of a line (R318). -/
  | stashFill (line : Num) (cluster : Num)
  /-- Event: another agent's access to an owned line is forwarded to the stash (R318). -/
  | stashForwardedAccess (line : Num)
  /-- Event: a proxy load requests a line (R321). -/
  | readShared (line : Num)
  /-- Event: a proxy write requests ownership of a copy it holds (R321). -/
  | upgrade (line : Num)
  /-- Event: a proxy write requests a line it does not hold (R321). -/
  | readExclusive (line : Num)
  /-- Event: the home asks the proxy for a modified or exclusive line (R321). -/
  | snoopRead (line : Num)
  /-- Event: the home invalidates the proxy's copy (R321). -/
  | snoopInvalidate (line : Num)
  /-- Event: an invalidation reaches the other die's proxy (R312). -/
  | proxyInvalidation (line : Num)
  /-- Event: a proxy writes a line back to its home (R322). -/
  | writeBack (line : Num)
  /-- Event: every destination has acknowledged a flush round (R310). -/
  | flushRoundComplete (core : Num)
  /-- Event: the ownership lease of a partition runs out (R366). -/
  | ownershipLeaseExpiry (p : Num)
  /-- Event: a command-ring entry is taken (R367). -/
  | launchCommand (p : Num)
  /-- Event: a completion entry is written (R370). -/
  | completionEntry (p : Num)
  /-- Event: a store's acknowledgement reaches its slot (R299). -/
  | storeAcknowledgement (core : Num) (slot : Num) (idx : Num)
  /-- Event: a write-update reaches a sharer (R314). -/
  | updateReceipt (line : Num) (core : Num)
  /-- Event: the proxy's answer to a snoop or invalidation reaches the home (R322). -/
  | snoopAnswer (line : Num)
  /-- Event: a grant reaches the proxy (R321). -/
  | grant (line : Num)
  /-- Event: the home's acknowledgement of an eviction reaches the cache (R317). -/
  | evictionAcknowledgement (line : Num) (core : Num)
  /-- Event: the flushing read of a host-scope release completes (R311). -/
  | hostFlushComplete (core : Num) (slot : Num)
  /-- Event: the fetch of a slot's next instruction completes (R123). -/
  | fetchComplete (core : Num) (slot : Num)
  /-- Event: the monitor writes GO in a partition's PRST (R242). -/
  | prst (p : Num)
  /-- Event: a partition reset is done; the lists say what failed its test (R242). -/
  | partitionResetDone (p : Num) (badCores badSlices : List Num)
  /-- Event: the device kernel writes RESREPLY (R334). -/
  | resreply (p val : Num)
  /-- Event: the device kernel writes INVCTL (R336). -/
  | invctl (p val : Num)
  /-- Event: the device kernel writes REVCTL (R348). -/
  | revctl (p val : Num)
  /-- Event: the home recalls the host's copy of a line (R323). -/
  | backInvalidation (line : Num)
  /-- Event: the host reads or writes bytes of device memory on a selective IDE stream (0 … 31), a CXL IDE stream
  (32 … 63) or on none (64 and above) (R311, R340, R363). -/
  | hostAccess (stream line : Num) (write : Bool) (bytes : List Byte)
  /-- Event: a peer package reads or writes bytes of device memory, in a run of a world on a path (R309, R340); a
  65th byte of a write is the line's tag (R45). -/
  | peerAccess (path world line : Num) (write : Bool) (bytes : List Byte)
  /-- Event: a flush marker of a core arrives on a path (R310). -/
  | flushMarker (core : Num) (path : Num)
  /-- Event: a fabric run arrives on a path: 256 times its flits, 0 for the run that the path sends again, plus its world;
  `good` says that its tag verifies (R364). -/
  | fabricRun (path run : Num) (good : Bool)
  /-- Event: a world and port pair is re-keyed after a failed tag (R364). -/
  | fabricRekey (port : Num) (world : Num)
  /-- Event: a fabric path fails (R310). -/
  | pathFailure (path : Num)
  /-- Event: firmware gates a cache way pair or a scratchpad bank (R292): unit 0 … 511 a core (idx 0 … 3 an L1 way pair,
  16 … 31 a scratchpad bank), 512 … 639 an L2 slice (idx 0 … 7 a way pair). -/
  | powerGate (unit : Num) (idx : Num)
  /-- Event: a gated unit wakes (R293). -/
  | unitWake (unit : Num) (idx : Num)
  /-- Event: firmware sets the clocks to `scale` thousandths of the nominal, or stops a core for heat with scale 0 and
  lets it go on otherwise (R376). -/
  | clockChange (scale : Num) (core : Num)
  /-- Event: a master writes OWN (R366). -/
  | own (p : Num) (master : Num) (val : Num)
  /-- Event: a master writes RTAIL (R368). -/
  | rtail (p : Num) (master : Num) (val : Num)
  /-- Event: a master writes RSYNC (R368). -/
  | rsync (p : Num) (master : Num) (val : Num)
  /-- Event: the security core installs a ring key (R368). -/
  | ringKeyInstall (p : Num) (key : Num)
  /-- Event: a master moves a ring (R369). -/
  | ringRelocate (p : Num) (master : Num) (reg : Num) (val : Num)
  /-- Event: a master writes CQHEAD (R370). -/
  | cqhead (p : Num) (master : Num) (val : Num)
  /-- Event: a control-block register without behaviour of its own is written (R365); writer 0 … 255 is a master, 256 + w
  the device kernel of world w, 1024 the security monitor. Partition 32 + n stands for fabric port n, whose longest run the
  monitor sets (R364). -/
  | registerWrite (p : Num) (writer : Num) (off : Num) (val : Num)
  /-- Event: the monitor creates a world (R352); `cfg` holds its line of the world table (R338), and above it the
  physical address of its root block (bits [575:512]) and the virtual addresses of its fault log (bits [639:576]) and of
the block (bits [703:640]). -/
  | worldCreate (world cfg : Num) (policy : List Byte)
  /-- Event: the monitor destroys a world (R341). -/
  | worldDestroy (world : Num)
  /-- Event: a compartment is made invalid (R342). -/
  | compartmentDestroy (world : Num) (cmpt : Num)
  /-- Event: a firmware bundle is fetched and verified (R372). -/
  | bundleFetch (addr : Num) (len : Num)
  /-- Event: a firmware slot on trial runs out of time (R372). -/
  | trialExpiry
  /-- Event: a verifier asks for attestation evidence (R373), for a world or, with 0xFE, for the device alone. -/
  | attestationRequest (world : Num) (nonce : List Byte)
  /-- Event: a power-on (R374). -/
  | coldStart
  /-- Event: a reset through the management port (R374). -/
  | warmStart
  /-- Event: a step of a start fails: its number, for a reset through the management port, and 8 more for a power-on
  (R375). -/
  | startFailure (step : Num)
  /-- Event: the host snoops a host line cached on the device (R323). -/
  | hostSnoop (line : Num)
  /-- Event: a bit of a line becomes uncorrectable (R47); one of a core's system area is a machine check (R241, R242). -/
  | uncorrectableMemoryError (line : Num)
  /-- Event: the bundle on trial completes remote attestation (R372). -/
  | remoteAttestationComplete
  /-- Event: the keys of an IDE stream are installed (R363). -/
  | ideStreamKeyInstall (stream : Num) (world : Num) (key : Num)
  /-- Event: the monitor gives a chunk to a world (R341). -/
  | chunkOwnerChange (chunk : Num) (world : Num)
  /-- Event: a partition changes its owner; `entry` is its new line of the partition table (R339). -/
  | partitionOwnerChange (p : Num) (entry : Num)
  /-- Event: a compartment-table entry is made valid (R342). -/
  | compartmentCreate (world cmpt entry : Num) (priv : Bool)
  /-- Event: the host resets the PCIe link (R374). -/
  | hostLinkReset
  deriving DecidableEq, Repr

end Sys2Proof
end

