-- ==== Sys2Proof/WellFormed.lean ====
section
/-!
DEFINITION. The checks an instruction term must pass to have an encoding: the guard rule of R91 and the ranges that the
immediate forms of R94 and the instruction chapters set. Every other range is already in the operand types.
-/

namespace Sys2Proof

/-- Width in bits of an integer type (R95). -/
def IType.width : IType → Nat
  | .s8 => 8 | .z8 => 8 | .s16 => 16 | .z16 => 16 | .s32 => 32 | .z32 => 32 | .s64 => 64 | .z64 => 64

/-- Whether an integer type is signed (R95). -/
def IType.signed : IType → Bool
  | .s8 => true | .s16 => true | .s32 => true | .s64 => true
  | .z8 => false | .z16 => false | .z32 => false | .z64 => false

/-- Width in bits of a float type of Tf (R95). -/
def FType.width : FType → Nat
  | .f32 => 32 | .bf16 => 16 | .f16 => 16

/-- Width in bits of a type of Tv (R95). -/
def VType.width : VType → Nat
  | .int t => t.width
  | .flt t => t.width

/-- An assigned format code of R30. -/
def fmtAssigned (f : Nat) : Bool :=
  f ≤ 0x09 || (0x10 ≤ f && f ≤ 0x16) || f == 0x20 || f == 0x21

/-- No guard: GP = GN = 0, as R91 asks of the opcodes that forbid one. -/
def Ctl.noGuard (g : Ctl) : Bool := g.gp == 0 && g.gn == false

/-- Form CPM with the restrictions of R133. -/
def cpmOk (imm : Imm) : Bool :=
  let v := imm.toNat
  let f := v / 2 ^ 20 % 256
  let fmt := v / 2 ^ 28 % 2 == 1
  let hints := v / 2 ^ 29 % 2 == 1
  v / 2 ^ 30 == 0 && !(fmt && hints) && (!fmt || fmtAssigned f) && (fmt || hints || f == 0)

/-- The selectors of the x form of `cget` (R135). -/
def cgetXOk (s : BitVec 8) : Bool := s.toNat ≤ 0x13 || (0x20 ≤ s.toNat && s.toNat ≤ 0x27)

/-- The selectors of the p form of `cget` (R135). -/
def cgetPOk (s : BitVec 8) : Bool := s.toNat ≤ 0x03 || (0x10 ≤ s.toNat && s.toNat ≤ 0x1D)

/-- Form VI (R94): an immediate element at the width of its type. -/
def viOk (t : IType) (imm : Imm) : Bool :=
  let v := imm.toNat
  match t with
  | .s8 => v < 2 ^ 7 || 2 ^ 32 - 2 ^ 7 ≤ v
  | .s16 => v < 2 ^ 15 || 2 ^ 32 - 2 ^ 15 ≤ v
  | .z8 => v < 2 ^ 8
  | .z16 => v < 2 ^ 16
  | .s32 => true
  | .s64 => true
  | .z32 => true
  | .z64 => true

/-- The pattern of the immediate `vperm` (R164), for elements of width `w`. -/
def vpermOk (w : Nat) (imm : Imm) : Bool :=
  let v := imm.toNat
  let kind := v % 16
  let m := v / 256 % 256
  v / 16 % 16 == 0 && v / 65536 == 0 && kind ≤ 4 && ((kind == 0 || kind == 3 || kind == 4) || m < 512 / w)

/-- Whether a type is one of 0x0 … 0xA. -/
def EType.isV : EType → Bool
  | .e4m3 => false | .e5m2 => false | .e2m1 => false | .s4 => false | .e3m5 => false
  | .s8 => true | .s16 => true | .s32 => true | .s64 => true | .z8 => true | .z16 => true | .z32 => true
  | .z64 => true | .f32 => true | .bf16 => true | .f16 => true

/-- Whether a type is one of f32, bf16 and f16. -/
def EType.isF (t : EType) : Bool := t == .f32 || t == .bf16 || t == .f16

/-- Whether a type is one of e4m3, e5m2 and e2m1. -/
def EType.isSmallF (t : EType) : Bool := t == .e4m3 || t == .e5m2 || t == .e2m1

/-- The conversions of R159: destination, source. -/
def vcvtOk (td ts : EType) : Bool :=
  (ts.isV && td.isV) || (ts.isF && td.isSmallF) || (ts == .f32 && td == .e3m5) || (ts.isSmallF && td.isF)
    || (ts == .e3m5 && td == .f32) || (ts == .s8 && td == .s4) || (ts == .s4 && td == .s8)

/-- The term has an encoding: R91 for the opcodes that forbid a guard, and the value ranges of R94, R110, R114, R124,
R133 … R135, R154, R159, R164 and R211. Constructors not named have no restriction beyond their operand types. -/
def WellFormed : Instr → Bool
  | .shlImm _ t _ _ n => n.val < t.width
  | .shrImm _ t _ _ n => n.val < t.width
  | .sarImm _ t _ _ n => n.val < t.width
  | .movXFromLane _ t _ _ l => l.val < 512 / t.width
  | .movLaneFromX _ t _ _ l => l.val < 512 / t.width
  | .loopRegister g _ d => g.noGuard && d.toNat != 0
  | .loopImmediate g _ d => g.noGuard && d.toNat != 0
  | .cperm _ _ _ imm => cpmOk imm
  | .cseal _ _ _ _ t => 0x10 ≤ t.toNat
  | .cunseal _ _ _ _ t => 0x10 ≤ t.toNat
  | .cgetX _ _ _ s => cgetXOk s
  | .cgetP _ _ _ s => cgetPOk s
  | .vcvt _ td ts _ _ _ => vcvtOk td ts
  | .vpermImmediate _ t _ _ imm => vpermOk t.width imm
  | .vaddIntVi _ t _ _ imm => viOk t imm
  | .vsubIntVi _ t _ _ imm => viOk t imm
  | .vmulIntVi _ t _ _ imm => viOk t imm
  | .vminIntVi _ t _ _ imm => viOk t imm
  | .vmaxIntVi _ t _ _ imm => viOk t imm
  | .mchain g => g.noGuard
  | .mend g => g.noGuard
  | .rdecImmediate _ _ n => n.toNat != 0
  | .commit g => g.noGuard
  | .retire g => g.noGuard
  | .cret g => g.noGuard
  | .tretResume g => g.noGuard
  | .tretSkip g => g.noGuard
  | .tretEnd g => g.noGuard
  | _ => true

end Sys2Proof
end

