-- ==== Sys2Proof/Decode.lean ====
section
/-!
DEFINITION. The 96-bit instruction word (R87, R88), its decoder in the check order of R89, and the encoder, both
written from the tables R90 … R102.
-/

namespace Sys2Proof

/-- The check of R89 that an encoding fails, in the order of its steps. -/
inductive DecodeError where
  /-- step 1: OP is unassigned (R104) -/
  | opUnassigned
  /-- step 2: bits [63:60] are not zero -/
  | reservedBits
  /-- step 3: SUB is unassigned for the opcode -/
  | subUnassigned
  /-- step 4: the opcode forbids a guard (R91) -/
  | guardForbidden
  /-- step 5, field D -/
  | badD
  /-- step 5, field A -/
  | badA
  /-- step 5, field B -/
  | badB
  /-- step 6: the immediate breaks its form (R94) -/
  | badImm
  deriving DecidableEq, Repr

/-- The fields of the instruction word (R88), each as a number below its width's bound. -/
structure Fields where
  op  : Nat
  sub : Nat
  s   : Nat
  gp  : Nat
  gn  : Nat
  dly : Nat
  ru  : Nat
  yld : Nat
  fs  : Nat
  d   : Nat
  a   : Nat
  b   : Nat
  top : Nat
  imm : Nat
  deriving DecidableEq, Repr

/-- Cuts a 96-bit word into its fields (R88). -/
def Fields.ofWord (w : Nat) : Fields :=
  { op := w % 2 ^ 8, sub := w / 2 ^ 8 % 2 ^ 4, s := w / 2 ^ 12 % 2, gp := w / 2 ^ 13 % 2 ^ 3, gn := w / 2 ^ 16 % 2,
    dly := w / 2 ^ 17 % 2 ^ 3, ru := w / 2 ^ 20 % 2 ^ 2, yld := w / 2 ^ 22 % 2, fs := w / 2 ^ 23 % 2,
    d := w / 2 ^ 24 % 2 ^ 12, a := w / 2 ^ 36 % 2 ^ 12, b := w / 2 ^ 48 % 2 ^ 12, top := w / 2 ^ 60 % 2 ^ 4,
    imm := w / 2 ^ 64 % 2 ^ 32 }

/-- Puts the fields together (R88). -/
def Fields.toWord (f : Fields) : Nat :=
  f.op + 2 ^ 8 * f.sub + 2 ^ 12 * f.s + 2 ^ 13 * f.gp + 2 ^ 16 * f.gn + 2 ^ 17 * f.dly + 2 ^ 20 * f.ru
    + 2 ^ 22 * f.yld + 2 ^ 23 * f.fs + 2 ^ 24 * f.d + 2 ^ 36 * f.a + 2 ^ 48 * f.b + 2 ^ 60 * f.top + 2 ^ 64 * f.imm

/-- Reads a one-bit field. -/
def bit (n : Nat) : Bool := n % 2 == 1

/-- The control fields of a word whose reserved bits are zero (R89 step 2). -/
def ctl (f : Fields) : Except DecodeError Ctl :=
  if f.top = 0 then
    .ok { gp := Fin.ofNat 8 f.gp, gn := bit f.gn, s := bit f.s, dly := Fin.ofNat 8 f.dly, ru := Fin.ofNat 4 f.ru,
          yld := bit f.yld, fs := bit f.fs }
  else .error .reservedBits

/-! ## SUB (R95 and the opcode map) -/

/-- SUB must be zero. -/
def sub0 (f : Fields) : Except DecodeError Unit := if f.sub = 0 then .ok () else .error .subUnassigned

/-- The set Ti. -/
def iType : Nat → Except DecodeError IType
  | 0 => .ok .s8 | 1 => .ok .s16 | 2 => .ok .s32 | 3 => .ok .s64
  | 4 => .ok .z8 | 5 => .ok .z16 | 6 => .ok .z32 | 7 => .ok .z64
  | _ => .error .subUnassigned

/-- The code of a type of Ti. -/
def IType.code : IType → Nat
  | .s8 => 0 | .s16 => 1 | .s32 => 2 | .s64 => 3 | .z8 => 4 | .z16 => 5 | .z32 => 6 | .z64 => 7

/-- The set Tf. -/
def fType : Nat → Except DecodeError FType
  | 8 => .ok .f32 | 9 => .ok .bf16 | 10 => .ok .f16
  | _ => .error .subUnassigned

/-- The code of a type of Tf. -/
def FType.code : FType → Nat
  | .f32 => 8 | .bf16 => 9 | .f16 => 10

/-- The set Tv. -/
def vType : Nat → Except DecodeError VType
  | 0 => .ok (.int .s8) | 1 => .ok (.int .s16) | 2 => .ok (.int .s32) | 3 => .ok (.int .s64)
  | 4 => .ok (.int .z8) | 5 => .ok (.int .z16) | 6 => .ok (.int .z32) | 7 => .ok (.int .z64)
  | 8 => .ok (.flt .f32) | 9 => .ok (.flt .bf16) | 10 => .ok (.flt .f16)
  | _ => .error .subUnassigned

/-- The code of a type of Tv. -/
def VType.code : VType → Nat
  | .int t => t.code
  | .flt t => t.code

/-- The set Ta. -/
def eType : Nat → Except DecodeError EType
  | 0 => .ok .s8 | 1 => .ok .s16 | 2 => .ok .s32 | 3 => .ok .s64
  | 4 => .ok .z8 | 5 => .ok .z16 | 6 => .ok .z32 | 7 => .ok .z64
  | 8 => .ok .f32 | 9 => .ok .bf16 | 10 => .ok .f16 | 11 => .ok .e4m3
  | 12 => .ok .e5m2 | 13 => .ok .e2m1 | 14 => .ok .s4 | 15 => .ok .e3m5
  | _ => .error .subUnassigned

/-- The code of a type of Ta. -/
def EType.code : EType → Nat
  | .s8 => 0 | .s16 => 1 | .s32 => 2 | .s64 => 3 | .z8 => 4 | .z16 => 5 | .z32 => 6 | .z64 => 7
  | .f32 => 8 | .bf16 => 9 | .f16 => 10 | .e4m3 => 11 | .e5m2 => 12 | .e2m1 => 13 | .s4 => 14 | .e3m5 => 15

/-- SUB of predicate logic (R117). -/
def pLogicOf : Nat → Except DecodeError PLogic
  | 0 => .ok .and | 1 => .ok .or | 2 => .ok .xor | 3 => .ok .andn | 4 => .ok .orn | 5 => .ok .xnor
  | _ => .error .subUnassigned

/-- The code of a predicate logic. -/
def PLogic.code : PLogic → Nat
  | .and => 0 | .or => 1 | .xor => 2 | .andn => 3 | .orn => 4 | .xnor => 5

/-- SUB of `br` on register: 0 when nonzero, 1 when zero. -/
def boolOf : Nat → Except DecodeError Bool
  | 0 => .ok false | 1 => .ok true
  | _ => .error .subUnassigned

/-- A scope code 0 … 10, in SUB of `fence` or in IMM of form SC. -/
def scopeOf (e : DecodeError) (n : Nat) : Except DecodeError ScopeCode :=
  if h : n < 11 then .ok ⟨n, h⟩ else .error e

/-- SUB of `pref`. -/
def prefOf : Nat → Except DecodeError PrefLevel
  | 0 => .ok .l1 | 1 => .ok .l2 | 2 => .ok .stash
  | _ => .error .subUnassigned

/-- The code of a prefetch level. -/
def PrefLevel.code : PrefLevel → Nat
  | .l1 => 0 | .l2 => 1 | .stash => 2

/-- One block length of `mmb`. -/
def blkLen : Nat → Except DecodeError BlkLen
  | 0 => .ok .b8 | 1 => .ok .b16 | 2 => .ok .b32
  | _ => .error .subUnassigned

/-- The code of a block length. -/
def BlkLen.code : BlkLen → Nat
  | .b8 => 0 | .b16 => 1 | .b32 => 2

/-- SUB of `mmb`: A's block length in [1:0], B's in [3:2]. -/
def blkOf (n : Nat) : Except DecodeError (BlkLen × BlkLen) := do
  let la ← blkLen (n % 4)
  let lb ← blkLen (n / 4)
  pure (la, lb)

/-- SUB of `tret`. -/
def tretOf : Nat → Except DecodeError (Ctl → Instr)
  | 0 => .ok .tretResume | 1 => .ok .tretSkip | 2 => .ok .tretEnd
  | _ => .error .subUnassigned

/-- SUB of `li` (R113): 0, 1 or 2. -/
def liSub (n : Nat) : Except DecodeError (Fin 3) := if h : n < 3 then .ok ⟨n, h⟩ else .error .subUnassigned

/-- Step 4 of R89, for the opcodes that forbid a guard. -/
def guardFree (g : Ctl) : Except DecodeError Unit := if g.noGuard then .ok () else .error .guardForbidden

/-! ## Operand fields (R90, R96) -/

/-- A field the opcode does not use holds 0x000. -/
def none0 (e : DecodeError) (n : Nat) : Except DecodeError Unit := if n = 0 then .ok () else .error e

/-- A register of class `cls` with an index below `lim`, and the modifier. -/
def regMod (e : DecodeError) (cls lim n : Nat) : Except DecodeError (Fin lim × Nat) :=
  if h : n / 512 = cls ∧ n % 64 < lim then .ok (⟨n % 64, h.2⟩, n / 64 % 8) else .error e

/-- A register of class `cls` with an index below `lim` and modifier 0. -/
def reg (e : DecodeError) (cls lim n : Nat) : Except DecodeError (Fin lim) :=
  if h : n / 64 = 8 * cls ∧ n % 64 < lim then .ok ⟨n % 64, h.2⟩ else .error e

/-- A wide accumulator slot a8 … a11. -/
def wide (e : DecodeError) (n : Nat) : Except DecodeError WAcc :=
  if h : n / 64 = 48 ∧ 8 ≤ n % 64 ∧ n % 64 - 8 < 4 then .ok ⟨n % 64 - 8, h.2.2⟩ else .error e

/-- The field of a register. -/
def regCode (cls idx : Nat) : Nat := 512 * cls + idx

/-- The field of a register with a modifier. -/
def modCode (cls m idx : Nat) : Nat := 512 * cls + 64 * m + idx

/-- The condition modifier of an integer compare. -/
def iCondOf (e : DecodeError) : Nat → Except DecodeError ICond
  | 0 => .ok .eq | 1 => .ok .ne | 2 => .ok .lt | 3 => .ok .le | 4 => .ok .gt | 5 => .ok .ge
  | _ => .error e

/-- The code of an integer condition. -/
def ICond.code : ICond → Nat
  | .eq => 0 | .ne => 1 | .lt => 2 | .le => 3 | .gt => 4 | .ge => 5

/-- The condition modifier of a float compare. -/
def fCondOf (e : DecodeError) : Nat → Except DecodeError FCond
  | 0 => .ok .eq | 1 => .ok .ne | 2 => .ok .lt | 3 => .ok .le | 4 => .ok .gt | 5 => .ok .ge | 6 => .ok .ord
  | 7 => .ok .uno
  | _ => .error e

/-- The code of a float condition. -/
def FCond.code : FCond → Nat
  | .eq => 0 | .ne => 1 | .lt => 2 | .le => 3 | .gt => 4 | .ge => 5 | .ord => 6 | .uno => 7

/-- The condition modifier of a bit test or capability equality. -/
def eqCondOf (e : DecodeError) : Nat → Except DecodeError EqCond
  | 0 => .ok .eq | 1 => .ok .ne
  | _ => .error e

/-- The code of an equality condition. -/
def EqCond.code : EqCond → Nat
  | .eq => 0 | .ne => 1

/-- The operation modifier of `amo`. -/
def amoOf (e : DecodeError) : Nat → Except DecodeError AmoOp
  | 0 => .ok .add | 1 => .ok .and | 2 => .ok .or | 3 => .ok .xor | 4 => .ok .min | 5 => .ok .max | 6 => .ok .swap
  | _ => .error e

/-- The code of an `amo` operation. -/
def AmoOp.code : AmoOp → Nat
  | .add => 0 | .and => 1 | .or => 2 | .xor => 3 | .min => 4 | .max => 5 | .swap => 6

/-- The kind modifier of `vred`. -/
def redOf (e : DecodeError) : Nat → Except DecodeError RedKind
  | 0 => .ok .sum | 1 => .ok .min | 2 => .ok .max
  | _ => .error e

/-- The code of a reduction kind. -/
def RedKind.code : RedKind → Nat
  | .sum => 0 | .min => 1 | .max => 2

/-- The packing modifier of a coordinate register (R37). -/
def packOf (e : DecodeError) : Nat → Except DecodeError Pack
  | 0 => .ok .one | 1 => .ok .two | 2 => .ok .four
  | _ => .error e

/-- The code of a packing mode. -/
def Pack.code : Pack → Nat
  | .one => 0 | .two => 1 | .four => 2

/-- The class-7 index of a readable special register (R17, R224, R243). -/
def SReg.code : SReg → Nat
  | .frm => 0 | .fflags => 1 | .lc => 2 | .ls => 3 | .le => 4
  | .actid => 8 | .coreid => 9 | .teamid => 10 | .stage => 11 | .gx => 12 | .gy => 13 | .gz => 14
  | .tcause => 32 | .tiaddr => 33 | .tfva => 34 | .taux => 35 | .tstate => 36 | .cwrem => 37 | .fltcnt => 38
  | .wtlim => 40 | .clflags => 41 | .defocc => 42 | .cmptno => 43 | .calldepth => 44

/-- The special register an index names for reading. -/
def sregAt : Nat → Option SReg
  | 0 => some .frm | 1 => some .fflags | 2 => some .lc | 3 => some .ls | 4 => some .le
  | 8 => some .actid | 9 => some .coreid | 10 => some .teamid | 11 => some .stage | 12 => some .gx | 13 => some .gy
  | 14 => some .gz | 32 => some .tcause | 33 => some .tiaddr | 34 => some .tfva | 35 => some .taux
  | 36 => some .tstate | 37 => some .cwrem | 38 => some .fltcnt | 40 => some .wtlim | 41 => some .clflags
  | 42 => some .defocc | 43 => some .cmptno | 44 => some .calldepth
  | _ => none

/-- The class-7 index of a writable special register. -/
def WReg.code : WReg → Nat
  | .frm => 0 | .fflags => 1 | .lc => 2 | .ls => 3 | .le => 4 | .wtlim => 40

/-- The special register an index names for writing. -/
def wregAt : Nat → Option WReg
  | 0 => some .frm | 1 => some .fflags | 2 => some .lc | 3 => some .ls | 4 => some .le | 40 => some .wtlim
  | _ => none

/-- A readable special register; any other class-7 index fails step 5 by R17. -/
def sregOf (e : DecodeError) (n : Nat) : Except DecodeError SReg :=
  if n / 64 = 56 then match sregAt (n % 64) with
    | some r => .ok r
    | none => .error e
  else .error e

/-- A writable special register; any other class-7 index fails step 5 by R17. -/
def wregOf (e : DecodeError) (n : Nat) : Except DecodeError WReg :=
  if n / 64 = 56 then match wregAt (n % 64) with
    | some r => .ok r
    | none => .error e
  else .error e

/-- A memory operand with displacements (R74, R94 form DISP). -/
def memOp (f : Fields) : Except DecodeError MemOp := do
  let c ← reg .badA 3 16 f.a
  let (x, m) ← regMod .badB 1 32 f.b
  let p ← packOf .badB m
  pure { c := c, x := x, pack := p, disp := BitVec.ofNat 32 f.imm }

/-- A memory operand without displacements. -/
def memReg (f : Fields) : Except DecodeError MemReg := do
  let c ← reg .badA 3 16 f.a
  let (x, m) ← regMod .badB 1 32 f.b
  let p ← packOf .badB m
  pure { c := c, x := x, pack := p }

/-- The A field of `li`: x in SUB 2, 0x000 otherwise (R113). -/
def liForm (h : Fin 3) (a : Nat) : Except DecodeError LiForm :=
  if h.val = 2 then do
    let r ← reg .badA 1 32 a
    pure (.upper r)
  else do
    none0 .badA a
    pure (if h.val = 0 then .sext else .zext)

/-- SUB of a form of `li`. -/
def LiForm.subCode : LiForm → Nat
  | .sext => 0 | .zext => 1 | .upper _ => 2

/-- The A field of a form of `li`. -/
def LiForm.aCode : LiForm → Nat
  | .sext => 0 | .zext => 0 | .upper a => regCode 1 a.val

/-! ## Immediate forms (R94) -/

/-- The 32 bits of IMM. -/
def immW (f : Fields) : Imm := BitVec.ofNat 32 f.imm

/-- Form Z. -/
def immZ (f : Fields) : Except DecodeError Unit := if f.imm = 0 then .ok () else .error .badImm

/-- An immediate that must pass a test. -/
def immIf (p : Imm → Bool) (f : Fields) : Except DecodeError Imm :=
  if p (immW f) then .ok (immW f) else .error .badImm

/-- A number below `n` that fills the immediate and passes a test. -/
def immFin (n : Nat) (p : Nat → Bool) (f : Fields) : Except DecodeError (Fin n) :=
  if h : f.imm < n then if p f.imm then .ok ⟨f.imm, h⟩ else .error .badImm else .error .badImm

/-- Form SH with the limit of R110. -/
def immSH (t : IType) (f : Fields) : Except DecodeError (Fin 64) := immFin 64 (fun n => n < t.width) f

/-- Form LN. -/
def immLN (t : IType) (f : Fields) : Except DecodeError (Fin 64) := immFin 64 (fun n => n < 512 / t.width) f

/-- Form G. -/
def immG (f : Fields) : Except DecodeError (Fin 64) := immFin 64 (fun _ => true) f

/-- Form KC. -/
def immKC (f : Fields) : Except DecodeError (Fin 4) := immFin 4 (fun _ => true) f

/-- Form KV: the coordinate and the factor or value. -/
def immKV (f : Fields) : Fin 4 × BitVec 30 := (Fin.ofNat 4 f.imm, BitVec.ofNat 30 (f.imm / 4))

/-- Form LX. -/
def immLX (f : Fields) : Except DecodeError Imm := immIf (fun i => i.toNat != 0) f

/-- The amount of `rdec`, not 0 (R211). -/
def immNZ (f : Fields) : Except DecodeError Imm := immIf (fun i => i.toNat != 0) f

/-- Form LI: the iteration count and the distance, which is not 0. -/
def immLI (f : Fields) : Except DecodeError (BitVec 16 × BitVec 16) :=
  if f.imm % 65536 = 0 then .error .badImm
  else .ok (BitVec.ofNat 16 (f.imm / 65536), BitVec.ofNat 16 f.imm)

/-- Form CPM. -/
def immCPM (f : Fields) : Except DecodeError Imm := immIf cpmOk f

/-- Form VI. -/
def immVI (t : IType) (f : Fields) : Except DecodeError Imm := immIf (viOk t) f

/-- The pattern of the immediate `vperm`. -/
def immVP (t : VType) (f : Fields) : Except DecodeError Imm := immIf (vpermOk t.width) f

/-- Form PI. -/
def immPI (f : Fields) : Except DecodeError (BitVec 8) :=
  if f.imm < 256 then .ok (BitVec.ofNat 8 f.imm) else .error .badImm

/-- Form FLD with the selectors of R135. -/
def immFLD (p : BitVec 8 → Bool) (f : Fields) : Except DecodeError (BitVec 8) :=
  if f.imm < 256 then if p (BitVec.ofNat 8 f.imm) then .ok (BitVec.ofNat 8 f.imm) else .error .badImm
  else .error .badImm

/-- Form T16 with the limit of R134. -/
def immT16 (f : Fields) : Except DecodeError (BitVec 16) :=
  if 0x10 ≤ f.imm ∧ f.imm < 65536 then .ok (BitVec.ofNat 16 f.imm) else .error .badImm

/-- Form SEL. -/
def immSEL (f : Fields) : Except DecodeError PSel :=
  if f.imm < 16 then .ok { p := Fin.ofNat 8 f.imm, neg := bit (f.imm / 8) } else .error .badImm

/-- The code of a selecting predicate. -/
def PSel.code (p : PSel) : Nat := p.p.val + 8 * p.neg.toNat

/-- The rounding selector of form RO. -/
def roOf : Nat → Except DecodeError RSel
  | 0 => .ok .frm
  | 8 => .ok (.mode .rne) | 9 => .ok (.mode .rtz) | 10 => .ok (.mode .rdn) | 11 => .ok (.mode .rup)
  | 12 => .ok (.mode .rna)
  | _ => .error .badImm

/-- The code of a rounding selector. -/
def RSel.code : RSel → Nat
  | .frm => 0
  | .mode .rne => 8 | .mode .rtz => 9 | .mode .rdn => 10 | .mode .rup => 11 | .mode .rna => 12

/-- Form CV with the pairs of R159. -/
def immCV (td : EType) (f : Fields) : Except DecodeError (EType × RSel) := do
  let r ← roOf (f.imm % 16)
  if f.imm < 256 then
    match eType (f.imm / 16) with
    | .ok ts => if vcvtOk td ts then .ok (ts, r) else .error .badImm
    | .error _ => .error .badImm
  else .error .badImm

/-- The options of `bstage` (R191). -/
def immBS (f : Fields) : Except DecodeError StageOpts :=
  if f.imm < 512 then
    .ok { slu := bit (f.imm / 256), hnt := bit (f.imm / 128), kax := bit (f.imm / 64), kn := Fin.ofNat 64 f.imm }
  else .error .badImm

/-- The code of the options of `bstage`. -/
def StageOpts.code (o : StageOpts) : Nat :=
  o.kn.val + 64 * o.kax.toNat + 128 * o.hnt.toNat + 256 * o.slu.toNat

/-! ## The opcode map -/

/-- The rows of R97. -/
def decodeScalar (f : Fields) : Except DecodeError Instr :=
  match f.op with
  | 0x00 => do
    let g ← ctl f; let t ← iType f.sub; let d ← reg .badD 1 32 f.d; let a ← reg .badA 1 32 f.a
    let b ← reg .badB 1 32 f.b; immZ f; pure (.addReg g t d a b)
  | 0x01 => do
    let g ← ctl f; let t ← iType f.sub; let d ← reg .badD 1 32 f.d; let a ← reg .badA 1 32 f.a; none0 .badB f.b
    let imm := immW f; pure (.addImm g t d a imm)
  | 0x02 => do
    let g ← ctl f; let t ← iType f.sub; let d ← reg .badD 1 32 f.d; let a ← reg .badA 1 32 f.a
    let b ← reg .badB 1 32 f.b; immZ f; pure (.subReg g t d a b)
  | 0x03 => do
    let g ← ctl f; let t ← iType f.sub; let d ← reg .badD 1 32 f.d; let a ← reg .badA 1 32 f.a; none0 .badB f.b
    let imm := immW f; pure (.subImm g t d a imm)
  | 0x04 => do
    let g ← ctl f; let t ← iType f.sub; let d ← reg .badD 1 32 f.d; let a ← reg .badA 1 32 f.a
    let b ← reg .badB 1 32 f.b; immZ f; pure (.mulReg g t d a b)
  | 0x05 => do
    let g ← ctl f; let t ← iType f.sub; let d ← reg .badD 1 32 f.d; let a ← reg .badA 1 32 f.a; none0 .badB f.b
    let imm := immW f; pure (.mulImm g t d a imm)
  | 0x06 => do
    let g ← ctl f; let t ← iType f.sub; let d ← reg .badD 1 32 f.d; let a ← reg .badA 1 32 f.a
    let b ← reg .badB 1 32 f.b; immZ f; pure (.mulhReg g t d a b)
  | 0x07 => do
    let g ← ctl f; let t ← iType f.sub; let d ← reg .badD 1 32 f.d; let a ← reg .badA 1 32 f.a; none0 .badB f.b
    let imm := immW f; pure (.mulhImm g t d a imm)
  | 0x08 => do
    let g ← ctl f; let t ← iType f.sub; let d ← reg .badD 1 32 f.d; let a ← reg .badA 1 32 f.a
    let b ← reg .badB 1 32 f.b; immZ f; pure (.divReg g t d a b)
  | 0x09 => do
    let g ← ctl f; let t ← iType f.sub; let d ← reg .badD 1 32 f.d; let a ← reg .badA 1 32 f.a; none0 .badB f.b
    let imm := immW f; pure (.divImm g t d a imm)
  | 0x0A => do
    let g ← ctl f; let t ← iType f.sub; let d ← reg .badD 1 32 f.d; let a ← reg .badA 1 32 f.a
    let b ← reg .badB 1 32 f.b; immZ f; pure (.remReg g t d a b)
  | 0x0B => do
    let g ← ctl f; let t ← iType f.sub; let d ← reg .badD 1 32 f.d; let a ← reg .badA 1 32 f.a; none0 .badB f.b
    let imm := immW f; pure (.remImm g t d a imm)
  | 0x0C => do
    let g ← ctl f; let t ← iType f.sub; let d ← reg .badD 1 32 f.d; let a ← reg .badA 1 32 f.a
    let b ← reg .badB 1 32 f.b; immZ f; pure (.andReg g t d a b)
  | 0x0D => do
    let g ← ctl f; let t ← iType f.sub; let d ← reg .badD 1 32 f.d; let a ← reg .badA 1 32 f.a; none0 .badB f.b
    let imm := immW f; pure (.andImm g t d a imm)
  | 0x0E => do
    let g ← ctl f; let t ← iType f.sub; let d ← reg .badD 1 32 f.d; let a ← reg .badA 1 32 f.a
    let b ← reg .badB 1 32 f.b; immZ f; pure (.orReg g t d a b)
  | 0x0F => do
    let g ← ctl f; let t ← iType f.sub; let d ← reg .badD 1 32 f.d; let a ← reg .badA 1 32 f.a; none0 .badB f.b
    let imm := immW f; pure (.orImm g t d a imm)
  | 0x10 => do
    let g ← ctl f; let t ← iType f.sub; let d ← reg .badD 1 32 f.d; let a ← reg .badA 1 32 f.a
    let b ← reg .badB 1 32 f.b; immZ f; pure (.xorReg g t d a b)
  | 0x11 => do
    let g ← ctl f; let t ← iType f.sub; let d ← reg .badD 1 32 f.d; let a ← reg .badA 1 32 f.a; none0 .badB f.b
    let imm := immW f; pure (.xorImm g t d a imm)
  | 0x12 => do
    let g ← ctl f; let t ← iType f.sub; let d ← reg .badD 1 32 f.d; let a ← reg .badA 1 32 f.a
    let b ← reg .badB 1 32 f.b; immZ f; pure (.shlReg g t d a b)
  | 0x13 => do
    let g ← ctl f; let t ← iType f.sub; let d ← reg .badD 1 32 f.d; let a ← reg .badA 1 32 f.a; none0 .badB f.b
    let n ← immSH t f; pure (.shlImm g t d a n)
  | 0x14 => do
    let g ← ctl f; let t ← iType f.sub; let d ← reg .badD 1 32 f.d; let a ← reg .badA 1 32 f.a
    let b ← reg .badB 1 32 f.b; immZ f; pure (.shrReg g t d a b)
  | 0x15 => do
    let g ← ctl f; let t ← iType f.sub; let d ← reg .badD 1 32 f.d; let a ← reg .badA 1 32 f.a; none0 .badB f.b
    let n ← immSH t f; pure (.shrImm g t d a n)
  | 0x16 => do
    let g ← ctl f; let t ← iType f.sub; let d ← reg .badD 1 32 f.d; let a ← reg .badA 1 32 f.a
    let b ← reg .badB 1 32 f.b; immZ f; pure (.sarReg g t d a b)
  | 0x17 => do
    let g ← ctl f; let t ← iType f.sub; let d ← reg .badD 1 32 f.d; let a ← reg .badA 1 32 f.a; none0 .badB f.b
    let n ← immSH t f; pure (.sarImm g t d a n)
  | 0x18 => do
    let g ← ctl f; let t ← iType f.sub; let d ← reg .badD 1 32 f.d; let a ← reg .badA 1 32 f.a
    let b ← reg .badB 1 32 f.b; immZ f; pure (.minReg g t d a b)
  | 0x19 => do
    let g ← ctl f; let t ← iType f.sub; let d ← reg .badD 1 32 f.d; let a ← reg .badA 1 32 f.a; none0 .badB f.b
    let imm := immW f; pure (.minImm g t d a imm)
  | 0x1A => do
    let g ← ctl f; let t ← iType f.sub; let d ← reg .badD 1 32 f.d; let a ← reg .badA 1 32 f.a
    let b ← reg .badB 1 32 f.b; immZ f; pure (.maxReg g t d a b)
  | 0x1B => do
    let g ← ctl f; let t ← iType f.sub; let d ← reg .badD 1 32 f.d; let a ← reg .badA 1 32 f.a; none0 .badB f.b
    let imm := immW f; pure (.maxImm g t d a imm)
  | 0x1C => do
    let g ← ctl f; sub0 f; let d ← reg .badD 1 32 f.d; let a ← reg .badA 1 32 f.a; let b ← reg .badB 1 32 f.b
    let p ← immSEL f; pure (.sel g d a b p)
  | 0x1D => do
    let g ← ctl f; sub0 f; let d ← reg .badD 1 32 f.d; let a ← reg .badA 1 32 f.a; none0 .badB f.b; immZ f
    pure (.movXX g d a)
  | 0x1E => do
    let g ← ctl f; let h ← liSub f.sub; let d ← reg .badD 1 32 f.d; let k ← liForm h f.a; none0 .badB f.b
    pure (.li g k d (immW f))
  | 0x1F => do
    let g ← ctl f; let t ← iType f.sub; let d ← reg .badD 1 32 f.d; let a ← reg .badA 1 32 f.a; none0 .badB f.b
    immZ f; pure (.clz g t d a)
  | 0x20 => do
    let g ← ctl f; let t ← iType f.sub; let d ← reg .badD 1 32 f.d; let a ← reg .badA 1 32 f.a; none0 .badB f.b
    immZ f; pure (.popc g t d a)
  | 0x21 => do
    let g ← ctl f; let t ← iType f.sub; let d ← reg .badD 1 32 f.d; let a ← reg .badA 2 32 f.a; none0 .badB f.b
    let lane ← immLN t f; pure (.movXFromLane g t d a lane)
  | 0x22 => do
    let g ← ctl f; let t ← iType f.sub; let d ← reg .badD 2 32 f.d; let a ← reg .badA 1 32 f.a; none0 .badB f.b
    let lane ← immLN t f; pure (.movLaneFromX g t d a lane)
  | 0x23 => do
    let g ← ctl f; let t ← iType f.sub; let d ← reg .badD 2 32 f.d; let a ← reg .badA 1 32 f.a; none0 .badB f.b
    immZ f; pure (.movBroadcast g t d a)
  | 0x24 => do
    let g ← ctl f; sub0 f; let d ← reg .badD 1 32 f.d; let a ← reg .badA 4 8 f.a; none0 .badB f.b; immZ f
    pure (.movXFromP g d a)
  | 0x25 => do
    let g ← ctl f; sub0 f; let d ← reg .badD 4 8 f.d; let a ← reg .badA 1 32 f.a; none0 .badB f.b; immZ f
    pure (.movPFromX g d a)
  | 0x26 => do
    let g ← ctl f; sub0 f; let d ← reg .badD 2 32 f.d; let a ← reg .badA 2 32 f.a; none0 .badB f.b; immZ f
    pure (.movVV g d a)
  | 0x27 => do
    let g ← ctl f; sub0 f; let d ← reg .badD 4 8 f.d; let a ← reg .badA 4 8 f.a; none0 .badB f.b; immZ f
    pure (.movPP g d a)
  | _ => .error .opUnassigned

/-- The rows of R98. -/
def decodeControl (f : Fields) : Except DecodeError Instr :=
  match f.op with
  | 0x30 => do
    let g ← ctl f; let t ← iType f.sub; let (d, m) ← regMod .badD 4 8 f.d; let k ← iCondOf .badD m
    let a ← reg .badA 1 32 f.a; let b ← reg .badB 1 32 f.b; immZ f; pure (.setpCompare g t k d a b)
  | 0x31 => do
    let g ← ctl f; let t ← iType f.sub; let (d, m) ← regMod .badD 4 8 f.d; let k ← iCondOf .badD m
    let a ← reg .badA 1 32 f.a; none0 .badB f.b; let imm := immW f; pure (.setpCompareImm g t k d a imm)
  | 0x32 => do
    let g ← ctl f; let k ← pLogicOf f.sub; let d ← reg .badD 4 8 f.d; let a ← reg .badA 4 8 f.a
    let b ← reg .badB 4 8 f.b; immZ f; pure (.setpLogic g k d a b)
  | 0x33 => do
    let g ← ctl f; sub0 f; let (d, m) ← regMod .badD 4 8 f.d; let k ← eqCondOf .badD m; let a ← reg .badA 1 32 f.a
    none0 .badB f.b; let mask := immW f; pure (.setpBitTest g k d a mask)
  | 0x34 => do
    let g ← ctl f; sub0 f; let (d, m) ← regMod .badD 4 8 f.d; let k ← eqCondOf .badD m; let a ← reg .badA 3 16 f.a
    let b ← reg .badB 3 16 f.b; immZ f; pure (.setpCapEqual g k d a b)
  | 0x35 => do
    let g ← ctl f; sub0 f; none0 .badD f.d; none0 .badA f.a; none0 .badB f.b; let off := immW f; pure (.br g off)
  | 0x36 => do
    let g ← ctl f; let onZero ← boolOf f.sub; none0 .badD f.d; let a ← reg .badA 1 32 f.a; none0 .badB f.b
    let off := immW f; pure (.brOnRegister g onZero a off)
  | 0x37 => do
    let g ← ctl f; sub0 f; none0 .badD f.d; let a ← reg .badA 1 32 f.a; none0 .badB f.b; immZ f; pure (.bx g a)
  | 0x38 => do
    let g ← ctl f; sub0 f; let d ← reg .badD 1 32 f.d; none0 .badA f.a; none0 .badB f.b; let off := immW f
    pure (.call g d off)
  | 0x39 => do
    let g ← ctl f; sub0 f; let d ← reg .badD 1 32 f.d; let a ← reg .badA 1 32 f.a; none0 .badB f.b; immZ f
    pure (.callIndirect g d a)
  | 0x3A => do
    let g ← ctl f; sub0 f; let d ← reg .badD 1 32 f.d; let a ← reg .badA 1 32 f.a; none0 .badB f.b; immZ f
    pure (.callh g d a)
  | 0x3B => do
    let g ← ctl f; sub0 f; none0 .badD f.d; let a ← reg .badA 1 32 f.a; none0 .badB f.b; immZ f; pure (.ret g a)
  | 0x3C => do
    let g ← ctl f; sub0 f; guardFree g; none0 .badD f.d; let a ← reg .badA 1 32 f.a; none0 .badB f.b
    let dist ← immLX f; pure (.loopRegister g a dist)
  | 0x3D => do
    let g ← ctl f; sub0 f; guardFree g; none0 .badD f.d; none0 .badA f.a; none0 .badB f.b
    let (count, dist) ← immLI f; pure (.loopImmediate g count dist)
  | _ => .error .opUnassigned

/-- The rows of R99. -/
def decodeMemory (f : Fields) : Except DecodeError Instr :=
  match f.op with
  | 0x40 => do
    let g ← ctl f; sub0 f; let d ← reg .badD 3 16 f.d; let a ← reg .badA 3 16 f.a; let b ← reg .badB 1 29 f.b
    immZ f; pure (.csliceRegister g d a b)
  | 0x41 => do
    let g ← ctl f; sub0 f; let d ← reg .badD 3 16 f.d; let a ← reg .badA 3 16 f.a; let b ← reg .badB 1 32 f.b
    let n := immW f; pure (.csliceImmediate g d a b n)
  | 0x42 => do
    let g ← ctl f; sub0 f; let d ← reg .badD 3 16 f.d; let a ← reg .badA 3 16 f.a; let b ← reg .badB 1 32 f.b
    let k ← immKC f; pure (.cstepRegister g d a b k)
  | 0x43 => do
    let g ← ctl f; sub0 f; let d ← reg .badD 3 16 f.d; let a ← reg .badA 3 16 f.a; none0 .badB f.b
    let (k, f) := immKV f; pure (.cstepImmediate g d a k f)
  | 0x44 => do
    let g ← ctl f; sub0 f; let d ← reg .badD 3 16 f.d; let a ← reg .badA 3 16 f.a; none0 .badB f.b; let pi ← immPI f
    pure (.ctrans g d a pi)
  | 0x45 => do
    let g ← ctl f; sub0 f; let d ← reg .badD 3 16 f.d; let a ← reg .badA 3 16 f.a; let b ← reg .badB 1 32 f.b
    let k ← immKC f; pure (.cfixRegister g d a b k)
  | 0x46 => do
    let g ← ctl f; sub0 f; let d ← reg .badD 3 16 f.d; let a ← reg .badA 3 16 f.a; none0 .badB f.b
    let (k, o) := immKV f; pure (.cfixImmediate g d a k o)
  | 0x47 => do
    let g ← ctl f; sub0 f; let d ← reg .badD 3 16 f.d; let a ← reg .badA 3 16 f.a; none0 .badB f.b
    let imm ← immCPM f; pure (.cperm g d a imm)
  | 0x48 => do
    let g ← ctl f; sub0 f; let d ← reg .badD 3 16 f.d; let a ← reg .badA 3 16 f.a; let b ← reg .badB 3 16 f.b
    let t ← immT16 f; pure (.cseal g d a b t)
  | 0x49 => do
    let g ← ctl f; sub0 f; let d ← reg .badD 3 16 f.d; let a ← reg .badA 3 16 f.a; let b ← reg .badB 3 16 f.b
    let t ← immT16 f; pure (.cunseal g d a b t)
  | 0x4A => do
    let g ← ctl f; sub0 f; let d ← reg .badD 1 32 f.d; let a ← reg .badA 3 16 f.a; none0 .badB f.b
    let fld ← immFLD cgetXOk f; pure (.cgetX g d a fld)
  | 0x4B => do
    let g ← ctl f; sub0 f; let d ← reg .badD 4 8 f.d; let a ← reg .badA 3 16 f.a; none0 .badB f.b
    let fld ← immFLD cgetPOk f; pure (.cgetP g d a fld)
  | 0x4C => do
    let g ← ctl f; sub0 f; let d ← reg .badD 3 16 f.d; let a ← reg .badA 3 16 f.a; none0 .badB f.b; immZ f
    pure (.cmov g d a)
  | 0x4D => do
    let g ← ctl f; sub0 f; let d ← reg .badD 3 16 f.d; let m ← memOp f; pure (.cld g d m)
  | 0x4E => do
    let g ← ctl f; sub0 f; let d ← reg .badD 3 16 f.d; let m ← memOp f; pure (.cst g d m)
  | 0x4F => do
    let g ← ctl f; let t ← iType f.sub; let d ← reg .badD 1 32 f.d; let m ← memOp f; pure (.ld g t d m)
  | 0x50 => do
    let g ← ctl f; let t ← iType f.sub; let d ← reg .badD 1 32 f.d; let m ← memOp f; pure (.st g t d m)
  | 0x51 => do
    let g ← ctl f; let t ← iType f.sub; let d ← reg .badD 1 32 f.d; let m ← memReg f; let sc ← scopeOf .badImm f.imm
    pure (.ldAcq g t d m sc)
  | 0x52 => do
    let g ← ctl f; let t ← iType f.sub; let d ← reg .badD 1 32 f.d; let m ← memReg f; let sc ← scopeOf .badImm f.imm
    pure (.stRel g t d m sc)
  | 0x53 => do
    let g ← ctl f; let t ← eType f.sub; let d ← reg .badD 2 32 f.d; let m ← memOp f; pure (.vld g t d m)
  | 0x54 => do
    let g ← ctl f; let t ← eType f.sub; let d ← reg .badD 2 32 f.d; let m ← memOp f; pure (.vst g t d m)
  | 0x55 => do
    let g ← ctl f; let t ← vType f.sub; let d ← reg .badD 2 32 f.d; let a ← reg .badA 3 16 f.a
    let b ← reg .badB 2 32 f.b; immZ f; pure (.vgth g t d a b)
  | 0x56 => do
    let g ← ctl f; let t ← vType f.sub; let d ← reg .badD 2 32 f.d; let a ← reg .badA 3 16 f.a
    let b ← reg .badB 2 32 f.b; immZ f; pure (.vsct g t d a b)
  | 0x57 => do
    let g ← ctl f; let t ← iType f.sub; let (d, m) ← regMod .badD 1 32 f.d; let k ← amoOf .badD m; let m ← memOp f
    pure (.amo g t k d m)
  | 0x58 => do
    let g ← ctl f; let t ← iType f.sub; let d ← reg .badD 1 31 f.d; let m ← memOp f; pure (.cas g t d m)
  | 0x59 => do
    let g ← ctl f; sub0 f; let d ← reg .badD 3 15 f.d; let m ← memOp f; pure (.casCapability g d m)
  | 0x5A => do
    let g ← ctl f; let sc ← scopeOf .subUnassigned f.sub; none0 .badD f.d; none0 .badA f.a; none0 .badB f.b; immZ f
    pure (.fence g sc)
  | 0x5B => do
    let g ← ctl f; sub0 f; let d ← reg .badD 1 32 f.d; let m ← memOp f; pure (.slock g d m)
  | 0x5C => do
    let g ← ctl f; sub0 f; none0 .badD f.d; let m ← memOp f; pure (.sunlock g m)
  | 0x5D => do
    let g ← ctl f; let l ← prefOf f.sub; none0 .badD f.d; let m ← memOp f; pure (.pref g l m)
  | _ => .error .opUnassigned

/-- The rows of R100. -/
def decodeVector (f : Fields) : Except DecodeError Instr :=
  match f.op with
  | 0x60 => do
    let g ← ctl f; let t ← iType f.sub; let d ← reg .badD 2 32 f.d; let a ← reg .badA 2 32 f.a
    let b ← reg .badB 2 32 f.b; immZ f; pure (.vaddIntVv g t d a b)
  | 0x61 => do
    let g ← ctl f; let t ← iType f.sub; let d ← reg .badD 2 32 f.d; let a ← reg .badA 2 32 f.a
    let b ← reg .badB 1 32 f.b; immZ f; pure (.vaddIntVx g t d a b)
  | 0x62 => do
    let g ← ctl f; let t ← iType f.sub; let d ← reg .badD 2 32 f.d; let a ← reg .badA 2 32 f.a
    let b ← reg .badB 2 32 f.b; immZ f; pure (.vsubIntVv g t d a b)
  | 0x63 => do
    let g ← ctl f; let t ← iType f.sub; let d ← reg .badD 2 32 f.d; let a ← reg .badA 2 32 f.a
    let b ← reg .badB 1 32 f.b; immZ f; pure (.vsubIntVx g t d a b)
  | 0x64 => do
    let g ← ctl f; let t ← iType f.sub; let d ← reg .badD 2 32 f.d; let a ← reg .badA 2 32 f.a
    let b ← reg .badB 2 32 f.b; immZ f; pure (.vmulIntVv g t d a b)
  | 0x65 => do
    let g ← ctl f; let t ← iType f.sub; let d ← reg .badD 2 32 f.d; let a ← reg .badA 2 32 f.a
    let b ← reg .badB 1 32 f.b; immZ f; pure (.vmulIntVx g t d a b)
  | 0x66 => do
    let g ← ctl f; let t ← iType f.sub; let d ← reg .badD 2 32 f.d; let a ← reg .badA 2 32 f.a
    let b ← reg .badB 2 32 f.b; immZ f; pure (.vminIntVv g t d a b)
  | 0x67 => do
    let g ← ctl f; let t ← iType f.sub; let d ← reg .badD 2 32 f.d; let a ← reg .badA 2 32 f.a
    let b ← reg .badB 1 32 f.b; immZ f; pure (.vminIntVx g t d a b)
  | 0x68 => do
    let g ← ctl f; let t ← iType f.sub; let d ← reg .badD 2 32 f.d; let a ← reg .badA 2 32 f.a
    let b ← reg .badB 2 32 f.b; immZ f; pure (.vmaxIntVv g t d a b)
  | 0x69 => do
    let g ← ctl f; let t ← iType f.sub; let d ← reg .badD 2 32 f.d; let a ← reg .badA 2 32 f.a
    let b ← reg .badB 1 32 f.b; immZ f; pure (.vmaxIntVx g t d a b)
  | 0x6A => do
    let g ← ctl f; let t ← fType f.sub; let d ← reg .badD 2 32 f.d; let a ← reg .badA 2 32 f.a
    let b ← reg .badB 2 32 f.b; let r ← roOf f.imm; pure (.vaddFloatVv g t d a b r)
  | 0x6B => do
    let g ← ctl f; let t ← fType f.sub; let d ← reg .badD 2 32 f.d; let a ← reg .badA 2 32 f.a
    let b ← reg .badB 1 32 f.b; let r ← roOf f.imm; pure (.vaddFloatVx g t d a b r)
  | 0x6C => do
    let g ← ctl f; let t ← fType f.sub; let d ← reg .badD 2 32 f.d; let a ← reg .badA 2 32 f.a
    let b ← reg .badB 2 32 f.b; let r ← roOf f.imm; pure (.vsubFloatVv g t d a b r)
  | 0x6D => do
    let g ← ctl f; let t ← fType f.sub; let d ← reg .badD 2 32 f.d; let a ← reg .badA 2 32 f.a
    let b ← reg .badB 1 32 f.b; let r ← roOf f.imm; pure (.vsubFloatVx g t d a b r)
  | 0x6E => do
    let g ← ctl f; let t ← fType f.sub; let d ← reg .badD 2 32 f.d; let a ← reg .badA 2 32 f.a
    let b ← reg .badB 2 32 f.b; let r ← roOf f.imm; pure (.vmulFloatVv g t d a b r)
  | 0x6F => do
    let g ← ctl f; let t ← fType f.sub; let d ← reg .badD 2 32 f.d; let a ← reg .badA 2 32 f.a
    let b ← reg .badB 1 32 f.b; let r ← roOf f.imm; pure (.vmulFloatVx g t d a b r)
  | 0x70 => do
    let g ← ctl f; let t ← fType f.sub; let d ← reg .badD 2 32 f.d; let a ← reg .badA 2 32 f.a
    let b ← reg .badB 2 32 f.b; immZ f; pure (.vminFloatVv g t d a b)
  | 0x71 => do
    let g ← ctl f; let t ← fType f.sub; let d ← reg .badD 2 32 f.d; let a ← reg .badA 2 32 f.a
    let b ← reg .badB 1 32 f.b; immZ f; pure (.vminFloatVx g t d a b)
  | 0x72 => do
    let g ← ctl f; let t ← fType f.sub; let d ← reg .badD 2 32 f.d; let a ← reg .badA 2 32 f.a
    let b ← reg .badB 2 32 f.b; immZ f; pure (.vmaxFloatVv g t d a b)
  | 0x73 => do
    let g ← ctl f; let t ← fType f.sub; let d ← reg .badD 2 32 f.d; let a ← reg .badA 2 32 f.a
    let b ← reg .badB 1 32 f.b; immZ f; pure (.vmaxFloatVx g t d a b)
  | 0x74 => do
    let g ← ctl f; let t ← fType f.sub; let d ← reg .badD 2 32 f.d; let a ← reg .badA 2 32 f.a
    let b ← reg .badB 2 32 f.b; let r ← roOf f.imm; pure (.vfmaVv g t d a b r)
  | 0x75 => do
    let g ← ctl f; let t ← fType f.sub; let d ← reg .badD 2 32 f.d; let a ← reg .badA 2 32 f.a
    let b ← reg .badB 1 32 f.b; let r ← roOf f.imm; pure (.vfmaVx g t d a b r)
  | 0x76 => do
    let g ← ctl f; let t ← iType f.sub; let d ← reg .badD 2 32 f.d; let a ← reg .badA 2 32 f.a; none0 .badB f.b
    immZ f; pure (.vabsInt g t d a)
  | 0x77 => do
    let g ← ctl f; let t ← fType f.sub; let d ← reg .badD 2 32 f.d; let a ← reg .badA 2 32 f.a; none0 .badB f.b
    immZ f; pure (.vabsFloat g t d a)
  | 0x78 => do
    let g ← ctl f; let t ← iType f.sub; let d ← reg .badD 2 32 f.d; let a ← reg .badA 2 32 f.a; none0 .badB f.b
    immZ f; pure (.vnegInt g t d a)
  | 0x79 => do
    let g ← ctl f; let t ← fType f.sub; let d ← reg .badD 2 32 f.d; let a ← reg .badA 2 32 f.a; none0 .badB f.b
    immZ f; pure (.vnegFloat g t d a)
  | 0x7A => do
    let g ← ctl f; let td ← eType f.sub; let d ← reg .badD 2 32 f.d; let a ← reg .badA 2 32 f.a; none0 .badB f.b
    let (ts, r) ← immCV td f; pure (.vcvt g td ts d a r)
  | 0x7B => do
    let g ← ctl f; let t ← iType f.sub; let d ← reg .badD 2 32 f.d; let (a, m) ← regMod .badA 2 32 f.a
    let k ← redOf .badA m; none0 .badB f.b; immZ f; pure (.vredInt g t k d a)
  | 0x7C => do
    let g ← ctl f; let t ← fType f.sub; let d ← reg .badD 2 32 f.d; let (a, m) ← regMod .badA 2 32 f.a
    let k ← redOf .badA m; none0 .badB f.b; let r ← roOf f.imm; pure (.vredFloat g t k d a r)
  | 0x7D => do
    let g ← ctl f; let t ← vType f.sub; let d ← reg .badD 2 32 f.d; let a ← reg .badA 2 32 f.a
    let b ← reg .badB 2 32 f.b; immZ f; pure (.vpermRegister g t d a b)
  | 0x7E => do
    let g ← ctl f; let t ← vType f.sub; let d ← reg .badD 2 32 f.d; let a ← reg .badA 2 32 f.a; none0 .badB f.b
    let imm ← immVP t f; pure (.vpermImmediate g t d a imm)
  | 0x7F => do
    let g ← ctl f; let t ← vType f.sub; let d ← reg .badD 2 32 f.d; let a ← reg .badA 2 32 f.a
    let b ← reg .badB 2 32 f.b; let p ← immSEL f; pure (.vsel g t d a b p)
  | 0x80 => do
    let g ← ctl f; let t ← iType f.sub; let (d, m) ← regMod .badD 4 8 f.d; let k ← iCondOf .badD m
    let a ← reg .badA 2 32 f.a; let b ← reg .badB 2 32 f.b; immZ f; pure (.vsetpIntVv g t k d a b)
  | 0x81 => do
    let g ← ctl f; let t ← iType f.sub; let (d, m) ← regMod .badD 4 8 f.d; let k ← iCondOf .badD m
    let a ← reg .badA 2 32 f.a; let b ← reg .badB 1 32 f.b; immZ f; pure (.vsetpIntVx g t k d a b)
  | 0x82 => do
    let g ← ctl f; let t ← fType f.sub; let (d, m) ← regMod .badD 4 8 f.d; let k ← fCondOf .badD m
    let a ← reg .badA 2 32 f.a; let b ← reg .badB 2 32 f.b; immZ f; pure (.vsetpFloatVv g t k d a b)
  | 0x83 => do
    let g ← ctl f; let t ← fType f.sub; let (d, m) ← regMod .badD 4 8 f.d; let k ← fCondOf .badD m
    let a ← reg .badA 2 32 f.a; let b ← reg .badB 1 32 f.b; immZ f; pure (.vsetpFloatVx g t k d a b)
  | 0x84 => do
    let g ← ctl f; let t ← iType f.sub; let d ← reg .badD 1 32 f.d; let a ← reg .badA 2 32 f.a; none0 .badB f.b
    immZ f; pure (.vargmaxInt g t d a)
  | 0x85 => do
    let g ← ctl f; let t ← fType f.sub; let d ← reg .badD 1 32 f.d; let a ← reg .badA 2 32 f.a; none0 .badB f.b
    immZ f; pure (.vargmaxFloat g t d a)
  | 0x86 => do
    let g ← ctl f; let t ← vType f.sub; let d ← reg .badD 2 32 f.d; let a ← reg .badA 1 32 f.a
    let b ← reg .badB 1 32 f.b; immZ f; pure (.vrng g t d a b)
  | 0x87 => do
    let g ← ctl f; let t ← iType f.sub; let d ← reg .badD 2 32 f.d; let a ← reg .badA 2 32 f.a; none0 .badB f.b
    let imm ← immVI t f; pure (.vaddIntVi g t d a imm)
  | 0x88 => do
    let g ← ctl f; let t ← iType f.sub; let d ← reg .badD 2 32 f.d; let a ← reg .badA 2 32 f.a; none0 .badB f.b
    let imm ← immVI t f; pure (.vsubIntVi g t d a imm)
  | 0x89 => do
    let g ← ctl f; let t ← iType f.sub; let d ← reg .badD 2 32 f.d; let a ← reg .badA 2 32 f.a; none0 .badB f.b
    let imm ← immVI t f; pure (.vmulIntVi g t d a imm)
  | 0x8A => do
    let g ← ctl f; let t ← iType f.sub; let d ← reg .badD 2 32 f.d; let a ← reg .badA 2 32 f.a; none0 .badB f.b
    let imm ← immVI t f; pure (.vminIntVi g t d a imm)
  | 0x8B => do
    let g ← ctl f; let t ← iType f.sub; let d ← reg .badD 2 32 f.d; let a ← reg .badA 2 32 f.a; none0 .badB f.b
    let imm ← immVI t f; pure (.vmaxIntVi g t d a imm)
  | _ => .error .opUnassigned

/-- The rows of R101. -/
def decodeEngine (f : Fields) : Except DecodeError Instr :=
  match f.op with
  | 0x90 => do
    let g ← ctl f; sub0 f; let d ← reg .badD 5 8 f.d; let a ← reg .badA 1 32 f.a; none0 .badB f.b; immZ f
    pure (.tset g d a)
  | 0x91 => do
    let g ← ctl f; sub0 f; guardFree g; none0 .badD f.d; none0 .badA f.a; none0 .badB f.b; immZ f; pure (.mchain g)
  | 0x92 => do
    let g ← ctl f; sub0 f; guardFree g; none0 .badD f.d; none0 .badA f.a; none0 .badB f.b; immZ f; pure (.mend g)
  | 0x93 => do
    let g ← ctl f; sub0 f; let d ← reg .badD 6 8 f.d; let a ← reg .badA 5 8 f.a; let b ← reg .badB 5 8 f.b; immZ f
    pure (.mmf g d a b)
  | 0x94 => do
    let g ← ctl f; sub0 f; let d ← reg .badD 6 8 f.d; let a ← reg .badA 5 8 f.a; let b ← reg .badB 5 8 f.b; immZ f
    pure (.mmiNarrow g d a b)
  | 0x95 => do
    let g ← ctl f; sub0 f; let d ← wide .badD f.d; let a ← reg .badA 5 8 f.a; let b ← reg .badB 5 8 f.b; immZ f
    pure (.mmiWide g d a b)
  | 0x96 => do
    let g ← ctl f; let (la, lb) ← blkOf f.sub; let d ← reg .badD 6 8 f.d; let a ← reg .badA 5 8 f.a
    let b ← reg .badB 5 8 f.b; immZ f; pure (.mmb g d a b la lb)
  | 0x97 => do
    let g ← ctl f; sub0 f; let d ← wide .badD f.d; let a ← reg .badA 6 8 f.a; let b ← reg .badB 2 32 f.b; immZ f
    pure (.mscacc g d a b)
  | 0x98 => do
    let g ← ctl f; sub0 f; let d ← reg .badD 2 32 f.d; let a ← reg .badA 6 8 f.a; none0 .badB f.b; let grp ← immG f
    pure (.macldNarrow g d a grp)
  | 0x99 => do
    let g ← ctl f; sub0 f; let d ← reg .badD 2 32 f.d; let a ← wide .badA f.a; none0 .badB f.b; let grp ← immG f
    pure (.macldWide g d a grp)
  | 0x9A => do
    let g ← ctl f; sub0 f; let d ← reg .badD 6 8 f.d; none0 .badA f.a; none0 .badB f.b; immZ f
    pure (.mzeroNarrow g d)
  | 0x9B => do
    let g ← ctl f; sub0 f; let d ← wide .badD f.d; none0 .badA f.a; none0 .badB f.b; immZ f; pure (.mzeroWide g d)
  | 0xA0 => do
    let g ← ctl f; sub0 f; let d ← reg .badD 1 32 f.d; let a ← reg .badA 3 16 f.a; let b ← reg .badB 3 16 f.b
    let tmpl := immW f; pure (.bcopyTemplate g d a b tmpl)
  | 0xA1 => do
    let g ← ctl f; sub0 f; let d ← reg .badD 1 32 f.d; let a ← reg .badA 3 16 f.a; let b ← reg .badB 3 16 f.b
    immZ f; pure (.bcopyCommonShape g d a b)
  | 0xA2 => do
    let g ← ctl f; sub0 f; let d ← reg .badD 1 32 f.d; let a ← reg .badA 5 8 f.a; let b ← reg .badB 3 16 f.b
    let o ← immBS f; pure (.bstage g d a b o)
  | 0xA3 => do
    let g ← ctl f; sub0 f; let d ← reg .badD 1 32 f.d; let a ← reg .badA 3 16 f.a; none0 .badB f.b; immZ f
    pure (.bres g d a)
  | 0xA4 => do
    let g ← ctl f; sub0 f; let d ← reg .badD 1 32 f.d; let m ← memOp f; pure (.sinit g d m)
  | 0xA5 => do
    let g ← ctl f; sub0 f; let d ← reg .badD 1 32 f.d; let m ← memOp f; pure (.sarmRegister g d m)
  | 0xA6 => do
    let g ← ctl f; sub0 f; none0 .badD f.d; let m ← memReg f; let n := immW f; pure (.sarmImmediate g m n)
  | 0xA7 => do
    let g ← ctl f; sub0 f; none0 .badD f.d; let m ← memOp f; pure (.sarrive g m)
  | 0xA8 => do
    let g ← ctl f; sub0 f; let d ← reg .badD 1 32 f.d; let m ← memOp f; pure (.sarriveBytes g d m)
  | 0xA9 => do
    let g ← ctl f; sub0 f; let d ← reg .badD 1 32 f.d; let m ← memOp f; pure (.swaitBlocking g d m)
  | 0xAA => do
    let g ← ctl f; sub0 f; let d ← reg .badD 1 32 f.d; let m ← memOp f; pure (.swaitPoll g d m)
  | 0xAB => do
    let g ← ctl f; sub0 f; let d ← reg .badD 1 32 f.d; none0 .badA f.a; none0 .badB f.b; immZ f; pure (.waitX g d)
  | 0xAC => do
    let g ← ctl f; sub0 f; let d ← reg .badD 2 32 f.d; none0 .badA f.a; none0 .badB f.b; immZ f; pure (.waitV g d)
  | 0xAD => do
    let g ← ctl f; sub0 f; let d ← reg .badD 3 16 f.d; none0 .badA f.a; none0 .badB f.b; immZ f; pure (.waitC g d)
  | _ => .error .opUnassigned

/-- The rows of R102. -/
def decodeTask (f : Fields) : Except DecodeError Instr :=
  match f.op with
  | 0xB0 => do
    let g ← ctl f; sub0 f; let d ← reg .badD 1 32 f.d; let m ← memOp f; pure (.spawn g d m)
  | 0xB1 => do
    let g ← ctl f; sub0 f; let d ← reg .badD 1 32 f.d; let m ← memOp f; pure (.launch g d m)
  | 0xB2 => do
    let g ← ctl f; sub0 f; none0 .badD f.d; let m ← memReg f; let n ← immNZ f; pure (.rdecImmediate g m n)
  | 0xB3 => do
    let g ← ctl f; sub0 f; let d ← reg .badD 1 32 f.d; let m ← memReg f; immZ f; pure (.rdecRegister g d m)
  | 0xB4 => do
    let g ← ctl f; sub0 f; let d ← reg .badD 1 32 f.d; let a ← reg .badA 3 16 f.a; none0 .badB f.b; immZ f
    pure (.fork g d a)
  | 0xB5 => do
    let g ← ctl f; sub0 f; let d ← reg .badD 1 32 f.d; let a ← reg .badA 3 16 f.a; let b ← reg .badB 3 16 f.b
    immZ f; pure (.forkWithRevisions g d a b)
  | 0xB6 => do
    let g ← ctl f; sub0 f; guardFree g; none0 .badD f.d; none0 .badA f.a; none0 .badB f.b; immZ f; pure (.commit g)
  | 0xB7 => do
    let g ← ctl f; sub0 f; guardFree g; none0 .badD f.d; none0 .badA f.a; none0 .badB f.b; immZ f; pure (.retire g)
  | 0xB8 => do
    let g ← ctl f; sub0 f; let d ← reg .badD 1 32 f.d; let m ← memOp f; pure (.bpushX g d m)
  | 0xB9 => do
    let g ← ctl f; sub0 f; let d ← reg .badD 2 32 f.d; let m ← memOp f; pure (.bpushV g d m)
  | 0xBA => do
    let g ← ctl f; sub0 f; let d ← reg .badD 1 32 f.d; let m ← memOp f; pure (.bpopX g d m)
  | 0xBB => do
    let g ← ctl f; sub0 f; let d ← reg .badD 2 32 f.d; let m ← memOp f; pure (.bpopV g d m)
  | 0xBC => do
    let g ← ctl f; sub0 f; none0 .badD f.d; let a ← reg .badA 3 16 f.a; let b ← reg .badB 3 16 f.b; immZ f
    pure (.ccall g a b)
  | 0xBD => do
    let g ← ctl f; sub0 f; guardFree g; none0 .badD f.d; none0 .badA f.a; none0 .badB f.b; immZ f; pure (.cret g)
  | 0xBE => do
    let g ← ctl f; sub0 f; let d ← reg .badD 3 16 f.d; let a ← reg .badA 3 16 f.a; let b ← reg .badB 1 32 f.b
    immZ f; pure (.publish g d a b)
  | 0xBF => do
    let g ← ctl f; sub0 f; none0 .badD f.d; none0 .badA f.a; none0 .badB f.b; let code := immW f; pure (.trap g code)
  | 0xC0 => do
    let g ← ctl f
    let k ← tretOf f.sub
    guardFree g; none0 .badD f.d; none0 .badA f.a; none0 .badB f.b; immZ f
    pure (k g)
  | 0xC1 => do
    let g ← ctl f; sub0 f; let d ← reg .badD 1 32 f.d; let s ← sregOf .badA f.a; none0 .badB f.b; immZ f
    pure (.sysrd g d s)
  | 0xC2 => do
    let g ← ctl f; sub0 f; let s ← wregOf .badD f.d; let a ← reg .badA 1 32 f.a; none0 .badB f.b; immZ f
    pure (.syswrRegister g s a)
  | 0xC3 => do
    let g ← ctl f; sub0 f; let s ← wregOf .badD f.d; none0 .badA f.a; none0 .badB f.b; let imm := immW f
    pure (.syswrImmediate g s imm)
  | 0xC4 => do
    let g ← ctl f; sub0 f; let d ← reg .badD 1 32 f.d; let a ← reg .badA 1 32 f.a; none0 .badB f.b; immZ f
    pure (.ctrX g d a)
  | 0xC5 => do
    let g ← ctl f; sub0 f; let d ← reg .badD 2 32 f.d; let a ← reg .badA 1 32 f.a; none0 .badB f.b; immZ f
    pure (.ctrV g d a)
  | _ => .error .opUnassigned

/-- Decodes the fields, in the order of R89. -/
def decodeFields (f : Fields) : Except DecodeError Instr :=
  if f.op < 0x28 then decodeScalar f
  else if f.op < 0x40 then decodeControl f
  else if f.op < 0x60 then decodeMemory f
  else if f.op < 0x90 then decodeVector f
  else if f.op < 0xB0 then decodeEngine f
  else decodeTask f

/-- Decodes a 96-bit word. -/
def decode (w : BitVec 96) : Except DecodeError Instr := decodeFields (Fields.ofWord w.toNat)

/-- The word of twelve bytes, the lowest address first (R87: three little-endian 32-bit words). -/
def wordOfBytes (bs : List Byte) : BitVec 96 :=
  BitVec.ofNat 96 (bs.foldr (fun b n => b.toNat + 256 * n) 0)

/-- The twelve bytes of a word, the lowest address first (R87). -/
def bytesOfWord (w : BitVec 96) : List Byte :=
  (List.range 12).map fun j => BitVec.ofNat 8 (w.toNat / 2 ^ (8 * j))

/-! ## The encoder -/

/-- The fields of an instruction whose control fields are `g`. -/
def Fields.mk' (op sub : Nat) (g : Ctl) (d a b imm : Nat) : Fields :=
  { op := op, sub := sub, s := g.s.toNat, gp := g.gp.val, gn := g.gn.toNat, dly := g.dly.val, ru := g.ru.val,
    yld := g.yld.toNat, fs := g.fs.toNat, d := d, a := a, b := b, top := 0, imm := imm }

/-- The fields of an instruction; an event of another agent has no encoding. -/
def encodeFields : Instr → Option Fields
  | .addReg g t d a b => some (Fields.mk' 0x00 t.code g (regCode 1 d.val) (regCode 1 a.val) (regCode 1 b.val) 0)
  | .addImm g t d a imm => some (Fields.mk' 0x01 t.code g (regCode 1 d.val) (regCode 1 a.val) 0 imm.toNat)
  | .subReg g t d a b => some (Fields.mk' 0x02 t.code g (regCode 1 d.val) (regCode 1 a.val) (regCode 1 b.val) 0)
  | .subImm g t d a imm => some (Fields.mk' 0x03 t.code g (regCode 1 d.val) (regCode 1 a.val) 0 imm.toNat)
  | .mulReg g t d a b => some (Fields.mk' 0x04 t.code g (regCode 1 d.val) (regCode 1 a.val) (regCode 1 b.val) 0)
  | .mulImm g t d a imm => some (Fields.mk' 0x05 t.code g (regCode 1 d.val) (regCode 1 a.val) 0 imm.toNat)
  | .mulhReg g t d a b => some (Fields.mk' 0x06 t.code g (regCode 1 d.val) (regCode 1 a.val) (regCode 1 b.val) 0)
  | .mulhImm g t d a imm => some (Fields.mk' 0x07 t.code g (regCode 1 d.val) (regCode 1 a.val) 0 imm.toNat)
  | .divReg g t d a b => some (Fields.mk' 0x08 t.code g (regCode 1 d.val) (regCode 1 a.val) (regCode 1 b.val) 0)
  | .divImm g t d a imm => some (Fields.mk' 0x09 t.code g (regCode 1 d.val) (regCode 1 a.val) 0 imm.toNat)
  | .remReg g t d a b => some (Fields.mk' 0x0A t.code g (regCode 1 d.val) (regCode 1 a.val) (regCode 1 b.val) 0)
  | .remImm g t d a imm => some (Fields.mk' 0x0B t.code g (regCode 1 d.val) (regCode 1 a.val) 0 imm.toNat)
  | .andReg g t d a b => some (Fields.mk' 0x0C t.code g (regCode 1 d.val) (regCode 1 a.val) (regCode 1 b.val) 0)
  | .andImm g t d a imm => some (Fields.mk' 0x0D t.code g (regCode 1 d.val) (regCode 1 a.val) 0 imm.toNat)
  | .orReg g t d a b => some (Fields.mk' 0x0E t.code g (regCode 1 d.val) (regCode 1 a.val) (regCode 1 b.val) 0)
  | .orImm g t d a imm => some (Fields.mk' 0x0F t.code g (regCode 1 d.val) (regCode 1 a.val) 0 imm.toNat)
  | .xorReg g t d a b => some (Fields.mk' 0x10 t.code g (regCode 1 d.val) (regCode 1 a.val) (regCode 1 b.val) 0)
  | .xorImm g t d a imm => some (Fields.mk' 0x11 t.code g (regCode 1 d.val) (regCode 1 a.val) 0 imm.toNat)
  | .shlReg g t d a b => some (Fields.mk' 0x12 t.code g (regCode 1 d.val) (regCode 1 a.val) (regCode 1 b.val) 0)
  | .shlImm g t d a n => some (Fields.mk' 0x13 t.code g (regCode 1 d.val) (regCode 1 a.val) 0 n.val)
  | .shrReg g t d a b => some (Fields.mk' 0x14 t.code g (regCode 1 d.val) (regCode 1 a.val) (regCode 1 b.val) 0)
  | .shrImm g t d a n => some (Fields.mk' 0x15 t.code g (regCode 1 d.val) (regCode 1 a.val) 0 n.val)
  | .sarReg g t d a b => some (Fields.mk' 0x16 t.code g (regCode 1 d.val) (regCode 1 a.val) (regCode 1 b.val) 0)
  | .sarImm g t d a n => some (Fields.mk' 0x17 t.code g (regCode 1 d.val) (regCode 1 a.val) 0 n.val)
  | .minReg g t d a b => some (Fields.mk' 0x18 t.code g (regCode 1 d.val) (regCode 1 a.val) (regCode 1 b.val) 0)
  | .minImm g t d a imm => some (Fields.mk' 0x19 t.code g (regCode 1 d.val) (regCode 1 a.val) 0 imm.toNat)
  | .maxReg g t d a b => some (Fields.mk' 0x1A t.code g (regCode 1 d.val) (regCode 1 a.val) (regCode 1 b.val) 0)
  | .maxImm g t d a imm => some (Fields.mk' 0x1B t.code g (regCode 1 d.val) (regCode 1 a.val) 0 imm.toNat)
  | .sel g d a b p => some (Fields.mk' 0x1C 0 g (regCode 1 d.val) (regCode 1 a.val) (regCode 1 b.val) p.code)
  | .movXX g d a => some (Fields.mk' 0x1D 0 g (regCode 1 d.val) (regCode 1 a.val) 0 0)
  | .li g k d imm => some (Fields.mk' 0x1E k.subCode g (regCode 1 d.val) k.aCode 0 imm.toNat)
  | .clz g t d a => some (Fields.mk' 0x1F t.code g (regCode 1 d.val) (regCode 1 a.val) 0 0)
  | .popc g t d a => some (Fields.mk' 0x20 t.code g (regCode 1 d.val) (regCode 1 a.val) 0 0)
  | .movXFromLane g t d a lane => some (Fields.mk' 0x21 t.code g (regCode 1 d.val) (regCode 2 a.val) 0 lane.val)
  | .movLaneFromX g t d a lane => some (Fields.mk' 0x22 t.code g (regCode 2 d.val) (regCode 1 a.val) 0 lane.val)
  | .movBroadcast g t d a => some (Fields.mk' 0x23 t.code g (regCode 2 d.val) (regCode 1 a.val) 0 0)
  | .movXFromP g d a => some (Fields.mk' 0x24 0 g (regCode 1 d.val) (regCode 4 a.val) 0 0)
  | .movPFromX g d a => some (Fields.mk' 0x25 0 g (regCode 4 d.val) (regCode 1 a.val) 0 0)
  | .movVV g d a => some (Fields.mk' 0x26 0 g (regCode 2 d.val) (regCode 2 a.val) 0 0)
  | .movPP g d a => some (Fields.mk' 0x27 0 g (regCode 4 d.val) (regCode 4 a.val) 0 0)
  | .setpCompare g t k d a b => some (Fields.mk' 0x30 t.code g (modCode 4 k.code d.val) (regCode 1 a.val) (regCode 1 b.val) 0)
  | .setpCompareImm g t k d a imm => some (Fields.mk' 0x31 t.code g (modCode 4 k.code d.val) (regCode 1 a.val) 0 imm.toNat)
  | .setpLogic g k d a b => some (Fields.mk' 0x32 k.code g (regCode 4 d.val) (regCode 4 a.val) (regCode 4 b.val) 0)
  | .setpBitTest g k d a mask => some (Fields.mk' 0x33 0 g (modCode 4 k.code d.val) (regCode 1 a.val) 0 mask.toNat)
  | .setpCapEqual g k d a b => some (Fields.mk' 0x34 0 g (modCode 4 k.code d.val) (regCode 3 a.val) (regCode 3 b.val) 0)
  | .br g off => some (Fields.mk' 0x35 0 g 0 0 0 off.toNat)
  | .brOnRegister g onZero a off => some (Fields.mk' 0x36 onZero.toNat g 0 (regCode 1 a.val) 0 off.toNat)
  | .bx g a => some (Fields.mk' 0x37 0 g 0 (regCode 1 a.val) 0 0)
  | .call g d off => some (Fields.mk' 0x38 0 g (regCode 1 d.val) 0 0 off.toNat)
  | .callIndirect g d a => some (Fields.mk' 0x39 0 g (regCode 1 d.val) (regCode 1 a.val) 0 0)
  | .callh g d a => some (Fields.mk' 0x3A 0 g (regCode 1 d.val) (regCode 1 a.val) 0 0)
  | .ret g a => some (Fields.mk' 0x3B 0 g 0 (regCode 1 a.val) 0 0)
  | .loopRegister g a dist => some (Fields.mk' 0x3C 0 g 0 (regCode 1 a.val) 0 dist.toNat)
  | .loopImmediate g count dist => some (Fields.mk' 0x3D 0 g 0 0 0 (dist.toNat + 65536 * count.toNat))
  | .csliceRegister g d a b => some (Fields.mk' 0x40 0 g (regCode 3 d.val) (regCode 3 a.val) (regCode 1 b.val) 0)
  | .csliceImmediate g d a b n => some (Fields.mk' 0x41 0 g (regCode 3 d.val) (regCode 3 a.val) (regCode 1 b.val) n.toNat)
  | .cstepRegister g d a b k => some (Fields.mk' 0x42 0 g (regCode 3 d.val) (regCode 3 a.val) (regCode 1 b.val) k.val)
  | .cstepImmediate g d a k f => some (Fields.mk' 0x43 0 g (regCode 3 d.val) (regCode 3 a.val) 0 (k.val + 4 * f.toNat))
  | .ctrans g d a pi => some (Fields.mk' 0x44 0 g (regCode 3 d.val) (regCode 3 a.val) 0 pi.toNat)
  | .cfixRegister g d a b k => some (Fields.mk' 0x45 0 g (regCode 3 d.val) (regCode 3 a.val) (regCode 1 b.val) k.val)
  | .cfixImmediate g d a k o => some (Fields.mk' 0x46 0 g (regCode 3 d.val) (regCode 3 a.val) 0 (k.val + 4 * o.toNat))
  | .cperm g d a imm => some (Fields.mk' 0x47 0 g (regCode 3 d.val) (regCode 3 a.val) 0 imm.toNat)
  | .cseal g d a b t => some (Fields.mk' 0x48 0 g (regCode 3 d.val) (regCode 3 a.val) (regCode 3 b.val) t.toNat)
  | .cunseal g d a b t => some (Fields.mk' 0x49 0 g (regCode 3 d.val) (regCode 3 a.val) (regCode 3 b.val) t.toNat)
  | .cgetX g d a fld => some (Fields.mk' 0x4A 0 g (regCode 1 d.val) (regCode 3 a.val) 0 fld.toNat)
  | .cgetP g d a fld => some (Fields.mk' 0x4B 0 g (regCode 4 d.val) (regCode 3 a.val) 0 fld.toNat)
  | .cmov g d a => some (Fields.mk' 0x4C 0 g (regCode 3 d.val) (regCode 3 a.val) 0 0)
  | .cld g d m => some (Fields.mk' 0x4D 0 g (regCode 3 d.val) (regCode 3 m.c.val) (modCode 1 m.pack.code m.x.val) m.disp.toNat)
  | .cst g d m => some (Fields.mk' 0x4E 0 g (regCode 3 d.val) (regCode 3 m.c.val) (modCode 1 m.pack.code m.x.val) m.disp.toNat)
  | .ld g t d m => some (Fields.mk' 0x4F t.code g (regCode 1 d.val) (regCode 3 m.c.val) (modCode 1 m.pack.code m.x.val) m.disp.toNat)
  | .st g t d m => some (Fields.mk' 0x50 t.code g (regCode 1 d.val) (regCode 3 m.c.val) (modCode 1 m.pack.code m.x.val) m.disp.toNat)
  | .ldAcq g t d m sc => some (Fields.mk' 0x51 t.code g (regCode 1 d.val) (regCode 3 m.c.val) (modCode 1 m.pack.code m.x.val) sc.val)
  | .stRel g t d m sc => some (Fields.mk' 0x52 t.code g (regCode 1 d.val) (regCode 3 m.c.val) (modCode 1 m.pack.code m.x.val) sc.val)
  | .vld g t d m => some (Fields.mk' 0x53 t.code g (regCode 2 d.val) (regCode 3 m.c.val) (modCode 1 m.pack.code m.x.val) m.disp.toNat)
  | .vst g t d m => some (Fields.mk' 0x54 t.code g (regCode 2 d.val) (regCode 3 m.c.val) (modCode 1 m.pack.code m.x.val) m.disp.toNat)
  | .vgth g t d a b => some (Fields.mk' 0x55 t.code g (regCode 2 d.val) (regCode 3 a.val) (regCode 2 b.val) 0)
  | .vsct g t d a b => some (Fields.mk' 0x56 t.code g (regCode 2 d.val) (regCode 3 a.val) (regCode 2 b.val) 0)
  | .amo g t k d m => some (Fields.mk' 0x57 t.code g (modCode 1 k.code d.val) (regCode 3 m.c.val) (modCode 1 m.pack.code m.x.val) m.disp.toNat)
  | .cas g t d m => some (Fields.mk' 0x58 t.code g (regCode 1 d.val) (regCode 3 m.c.val) (modCode 1 m.pack.code m.x.val) m.disp.toNat)
  | .casCapability g d m => some (Fields.mk' 0x59 0 g (regCode 3 d.val) (regCode 3 m.c.val) (modCode 1 m.pack.code m.x.val) m.disp.toNat)
  | .fence g sc => some (Fields.mk' 0x5A sc.val g 0 0 0 0)
  | .slock g d m => some (Fields.mk' 0x5B 0 g (regCode 1 d.val) (regCode 3 m.c.val) (modCode 1 m.pack.code m.x.val) m.disp.toNat)
  | .sunlock g m => some (Fields.mk' 0x5C 0 g 0 (regCode 3 m.c.val) (modCode 1 m.pack.code m.x.val) m.disp.toNat)
  | .pref g l m => some (Fields.mk' 0x5D l.code g 0 (regCode 3 m.c.val) (modCode 1 m.pack.code m.x.val) m.disp.toNat)
  | .vaddIntVv g t d a b => some (Fields.mk' 0x60 t.code g (regCode 2 d.val) (regCode 2 a.val) (regCode 2 b.val) 0)
  | .vaddIntVx g t d a b => some (Fields.mk' 0x61 t.code g (regCode 2 d.val) (regCode 2 a.val) (regCode 1 b.val) 0)
  | .vsubIntVv g t d a b => some (Fields.mk' 0x62 t.code g (regCode 2 d.val) (regCode 2 a.val) (regCode 2 b.val) 0)
  | .vsubIntVx g t d a b => some (Fields.mk' 0x63 t.code g (regCode 2 d.val) (regCode 2 a.val) (regCode 1 b.val) 0)
  | .vmulIntVv g t d a b => some (Fields.mk' 0x64 t.code g (regCode 2 d.val) (regCode 2 a.val) (regCode 2 b.val) 0)
  | .vmulIntVx g t d a b => some (Fields.mk' 0x65 t.code g (regCode 2 d.val) (regCode 2 a.val) (regCode 1 b.val) 0)
  | .vminIntVv g t d a b => some (Fields.mk' 0x66 t.code g (regCode 2 d.val) (regCode 2 a.val) (regCode 2 b.val) 0)
  | .vminIntVx g t d a b => some (Fields.mk' 0x67 t.code g (regCode 2 d.val) (regCode 2 a.val) (regCode 1 b.val) 0)
  | .vmaxIntVv g t d a b => some (Fields.mk' 0x68 t.code g (regCode 2 d.val) (regCode 2 a.val) (regCode 2 b.val) 0)
  | .vmaxIntVx g t d a b => some (Fields.mk' 0x69 t.code g (regCode 2 d.val) (regCode 2 a.val) (regCode 1 b.val) 0)
  | .vaddFloatVv g t d a b r => some (Fields.mk' 0x6A t.code g (regCode 2 d.val) (regCode 2 a.val) (regCode 2 b.val) r.code)
  | .vaddFloatVx g t d a b r => some (Fields.mk' 0x6B t.code g (regCode 2 d.val) (regCode 2 a.val) (regCode 1 b.val) r.code)
  | .vsubFloatVv g t d a b r => some (Fields.mk' 0x6C t.code g (regCode 2 d.val) (regCode 2 a.val) (regCode 2 b.val) r.code)
  | .vsubFloatVx g t d a b r => some (Fields.mk' 0x6D t.code g (regCode 2 d.val) (regCode 2 a.val) (regCode 1 b.val) r.code)
  | .vmulFloatVv g t d a b r => some (Fields.mk' 0x6E t.code g (regCode 2 d.val) (regCode 2 a.val) (regCode 2 b.val) r.code)
  | .vmulFloatVx g t d a b r => some (Fields.mk' 0x6F t.code g (regCode 2 d.val) (regCode 2 a.val) (regCode 1 b.val) r.code)
  | .vminFloatVv g t d a b => some (Fields.mk' 0x70 t.code g (regCode 2 d.val) (regCode 2 a.val) (regCode 2 b.val) 0)
  | .vminFloatVx g t d a b => some (Fields.mk' 0x71 t.code g (regCode 2 d.val) (regCode 2 a.val) (regCode 1 b.val) 0)
  | .vmaxFloatVv g t d a b => some (Fields.mk' 0x72 t.code g (regCode 2 d.val) (regCode 2 a.val) (regCode 2 b.val) 0)
  | .vmaxFloatVx g t d a b => some (Fields.mk' 0x73 t.code g (regCode 2 d.val) (regCode 2 a.val) (regCode 1 b.val) 0)
  | .vfmaVv g t d a b r => some (Fields.mk' 0x74 t.code g (regCode 2 d.val) (regCode 2 a.val) (regCode 2 b.val) r.code)
  | .vfmaVx g t d a b r => some (Fields.mk' 0x75 t.code g (regCode 2 d.val) (regCode 2 a.val) (regCode 1 b.val) r.code)
  | .vabsInt g t d a => some (Fields.mk' 0x76 t.code g (regCode 2 d.val) (regCode 2 a.val) 0 0)
  | .vabsFloat g t d a => some (Fields.mk' 0x77 t.code g (regCode 2 d.val) (regCode 2 a.val) 0 0)
  | .vnegInt g t d a => some (Fields.mk' 0x78 t.code g (regCode 2 d.val) (regCode 2 a.val) 0 0)
  | .vnegFloat g t d a => some (Fields.mk' 0x79 t.code g (regCode 2 d.val) (regCode 2 a.val) 0 0)
  | .vcvt g td ts d a r => some (Fields.mk' 0x7A td.code g (regCode 2 d.val) (regCode 2 a.val) 0 (r.code + 16 * ts.code))
  | .vredInt g t k d a => some (Fields.mk' 0x7B t.code g (regCode 2 d.val) (modCode 2 k.code a.val) 0 0)
  | .vredFloat g t k d a r => some (Fields.mk' 0x7C t.code g (regCode 2 d.val) (modCode 2 k.code a.val) 0 r.code)
  | .vpermRegister g t d a b => some (Fields.mk' 0x7D t.code g (regCode 2 d.val) (regCode 2 a.val) (regCode 2 b.val) 0)
  | .vpermImmediate g t d a imm => some (Fields.mk' 0x7E t.code g (regCode 2 d.val) (regCode 2 a.val) 0 imm.toNat)
  | .vsel g t d a b p => some (Fields.mk' 0x7F t.code g (regCode 2 d.val) (regCode 2 a.val) (regCode 2 b.val) p.code)
  | .vsetpIntVv g t k d a b => some (Fields.mk' 0x80 t.code g (modCode 4 k.code d.val) (regCode 2 a.val) (regCode 2 b.val) 0)
  | .vsetpIntVx g t k d a b => some (Fields.mk' 0x81 t.code g (modCode 4 k.code d.val) (regCode 2 a.val) (regCode 1 b.val) 0)
  | .vsetpFloatVv g t k d a b => some (Fields.mk' 0x82 t.code g (modCode 4 k.code d.val) (regCode 2 a.val) (regCode 2 b.val) 0)
  | .vsetpFloatVx g t k d a b => some (Fields.mk' 0x83 t.code g (modCode 4 k.code d.val) (regCode 2 a.val) (regCode 1 b.val) 0)
  | .vargmaxInt g t d a => some (Fields.mk' 0x84 t.code g (regCode 1 d.val) (regCode 2 a.val) 0 0)
  | .vargmaxFloat g t d a => some (Fields.mk' 0x85 t.code g (regCode 1 d.val) (regCode 2 a.val) 0 0)
  | .vrng g t d a b => some (Fields.mk' 0x86 t.code g (regCode 2 d.val) (regCode 1 a.val) (regCode 1 b.val) 0)
  | .vaddIntVi g t d a imm => some (Fields.mk' 0x87 t.code g (regCode 2 d.val) (regCode 2 a.val) 0 imm.toNat)
  | .vsubIntVi g t d a imm => some (Fields.mk' 0x88 t.code g (regCode 2 d.val) (regCode 2 a.val) 0 imm.toNat)
  | .vmulIntVi g t d a imm => some (Fields.mk' 0x89 t.code g (regCode 2 d.val) (regCode 2 a.val) 0 imm.toNat)
  | .vminIntVi g t d a imm => some (Fields.mk' 0x8A t.code g (regCode 2 d.val) (regCode 2 a.val) 0 imm.toNat)
  | .vmaxIntVi g t d a imm => some (Fields.mk' 0x8B t.code g (regCode 2 d.val) (regCode 2 a.val) 0 imm.toNat)
  | .tset g d a => some (Fields.mk' 0x90 0 g (regCode 5 d.val) (regCode 1 a.val) 0 0)
  | .mchain g => some (Fields.mk' 0x91 0 g 0 0 0 0)
  | .mend g => some (Fields.mk' 0x92 0 g 0 0 0 0)
  | .mmf g d a b => some (Fields.mk' 0x93 0 g (regCode 6 d.val) (regCode 5 a.val) (regCode 5 b.val) 0)
  | .mmiNarrow g d a b => some (Fields.mk' 0x94 0 g (regCode 6 d.val) (regCode 5 a.val) (regCode 5 b.val) 0)
  | .mmiWide g d a b => some (Fields.mk' 0x95 0 g (regCode 6 (d.val + 8)) (regCode 5 a.val) (regCode 5 b.val) 0)
  | .mmb g d a b la lb => some (Fields.mk' 0x96 (la.code + 4 * lb.code) g (regCode 6 d.val) (regCode 5 a.val) (regCode 5 b.val) 0)
  | .mscacc g d a b => some (Fields.mk' 0x97 0 g (regCode 6 (d.val + 8)) (regCode 6 a.val) (regCode 2 b.val) 0)
  | .macldNarrow g d a grp => some (Fields.mk' 0x98 0 g (regCode 2 d.val) (regCode 6 a.val) 0 grp.val)
  | .macldWide g d a grp => some (Fields.mk' 0x99 0 g (regCode 2 d.val) (regCode 6 (a.val + 8)) 0 grp.val)
  | .mzeroNarrow g d => some (Fields.mk' 0x9A 0 g (regCode 6 d.val) 0 0 0)
  | .mzeroWide g d => some (Fields.mk' 0x9B 0 g (regCode 6 (d.val + 8)) 0 0 0)
  | .bcopyTemplate g d a b tmpl => some (Fields.mk' 0xA0 0 g (regCode 1 d.val) (regCode 3 a.val) (regCode 3 b.val) tmpl.toNat)
  | .bcopyCommonShape g d a b => some (Fields.mk' 0xA1 0 g (regCode 1 d.val) (regCode 3 a.val) (regCode 3 b.val) 0)
  | .bstage g d a b o => some (Fields.mk' 0xA2 0 g (regCode 1 d.val) (regCode 5 a.val) (regCode 3 b.val) o.code)
  | .bres g d a => some (Fields.mk' 0xA3 0 g (regCode 1 d.val) (regCode 3 a.val) 0 0)
  | .sinit g d m => some (Fields.mk' 0xA4 0 g (regCode 1 d.val) (regCode 3 m.c.val) (modCode 1 m.pack.code m.x.val) m.disp.toNat)
  | .sarmRegister g d m => some (Fields.mk' 0xA5 0 g (regCode 1 d.val) (regCode 3 m.c.val) (modCode 1 m.pack.code m.x.val) m.disp.toNat)
  | .sarmImmediate g m n => some (Fields.mk' 0xA6 0 g 0 (regCode 3 m.c.val) (modCode 1 m.pack.code m.x.val) n.toNat)
  | .sarrive g m => some (Fields.mk' 0xA7 0 g 0 (regCode 3 m.c.val) (modCode 1 m.pack.code m.x.val) m.disp.toNat)
  | .sarriveBytes g d m => some (Fields.mk' 0xA8 0 g (regCode 1 d.val) (regCode 3 m.c.val) (modCode 1 m.pack.code m.x.val) m.disp.toNat)
  | .swaitBlocking g d m => some (Fields.mk' 0xA9 0 g (regCode 1 d.val) (regCode 3 m.c.val) (modCode 1 m.pack.code m.x.val) m.disp.toNat)
  | .swaitPoll g d m => some (Fields.mk' 0xAA 0 g (regCode 1 d.val) (regCode 3 m.c.val) (modCode 1 m.pack.code m.x.val) m.disp.toNat)
  | .waitX g d => some (Fields.mk' 0xAB 0 g (regCode 1 d.val) 0 0 0)
  | .waitV g d => some (Fields.mk' 0xAC 0 g (regCode 2 d.val) 0 0 0)
  | .waitC g d => some (Fields.mk' 0xAD 0 g (regCode 3 d.val) 0 0 0)
  | .spawn g d m => some (Fields.mk' 0xB0 0 g (regCode 1 d.val) (regCode 3 m.c.val) (modCode 1 m.pack.code m.x.val) m.disp.toNat)
  | .launch g d m => some (Fields.mk' 0xB1 0 g (regCode 1 d.val) (regCode 3 m.c.val) (modCode 1 m.pack.code m.x.val) m.disp.toNat)
  | .rdecImmediate g m n => some (Fields.mk' 0xB2 0 g 0 (regCode 3 m.c.val) (modCode 1 m.pack.code m.x.val) n.toNat)
  | .rdecRegister g d m => some (Fields.mk' 0xB3 0 g (regCode 1 d.val) (regCode 3 m.c.val) (modCode 1 m.pack.code m.x.val) 0)
  | .fork g d a => some (Fields.mk' 0xB4 0 g (regCode 1 d.val) (regCode 3 a.val) 0 0)
  | .forkWithRevisions g d a b => some (Fields.mk' 0xB5 0 g (regCode 1 d.val) (regCode 3 a.val) (regCode 3 b.val) 0)
  | .commit g => some (Fields.mk' 0xB6 0 g 0 0 0 0)
  | .retire g => some (Fields.mk' 0xB7 0 g 0 0 0 0)
  | .bpushX g d m => some (Fields.mk' 0xB8 0 g (regCode 1 d.val) (regCode 3 m.c.val) (modCode 1 m.pack.code m.x.val) m.disp.toNat)
  | .bpushV g d m => some (Fields.mk' 0xB9 0 g (regCode 2 d.val) (regCode 3 m.c.val) (modCode 1 m.pack.code m.x.val) m.disp.toNat)
  | .bpopX g d m => some (Fields.mk' 0xBA 0 g (regCode 1 d.val) (regCode 3 m.c.val) (modCode 1 m.pack.code m.x.val) m.disp.toNat)
  | .bpopV g d m => some (Fields.mk' 0xBB 0 g (regCode 2 d.val) (regCode 3 m.c.val) (modCode 1 m.pack.code m.x.val) m.disp.toNat)
  | .ccall g a b => some (Fields.mk' 0xBC 0 g 0 (regCode 3 a.val) (regCode 3 b.val) 0)
  | .cret g => some (Fields.mk' 0xBD 0 g 0 0 0 0)
  | .publish g d a b => some (Fields.mk' 0xBE 0 g (regCode 3 d.val) (regCode 3 a.val) (regCode 1 b.val) 0)
  | .trap g code => some (Fields.mk' 0xBF 0 g 0 0 0 code.toNat)
  | .tretResume g => some (Fields.mk' 0xC0 0 g 0 0 0 0)
  | .tretSkip g => some (Fields.mk' 0xC0 1 g 0 0 0 0)
  | .tretEnd g => some (Fields.mk' 0xC0 2 g 0 0 0 0)
  | .sysrd g d s => some (Fields.mk' 0xC1 0 g (regCode 1 d.val) (regCode 7 s.code) 0 0)
  | .syswrRegister g s a => some (Fields.mk' 0xC2 0 g (regCode 7 s.code) (regCode 1 a.val) 0 0)
  | .syswrImmediate g s imm => some (Fields.mk' 0xC3 0 g (regCode 7 s.code) 0 0 imm.toNat)
  | .ctrX g d a => some (Fields.mk' 0xC4 0 g (regCode 1 d.val) (regCode 1 a.val) 0 0)
  | .ctrV g d a => some (Fields.mk' 0xC5 0 g (regCode 2 d.val) (regCode 1 a.val) 0 0)
  | .engineInstructionCommit _ => none
  | .chainCompletion _ => none
  | .bargeExecute _ => none
  | .bargeCompletion _ => none
  | .sluiceOperationApply _ _ => none
  | .basinHeldOperation _ _ => none
  | .owedValueReturn _ _ _ => none
  | .parkEnd _ _ => none
  | .issueSlotChoice _ => none
  | .trapEntry _ _ => none
  | .terminalFault _ _ => none
  | .commitWindowExpiry _ _ => none
  | .waitTimerExpiry _ _ => none
  | .preemptionRequest _ _ => none
  | .activationDiscard _ _ => none
  | .machineCheck _ => none
  | .prst _ => none
  | .partitionResetDone _ _ _ => none
  | .activationStart _ _ => none
  | .heldRingPush _ _ => none
  | .gridAdmission _ => none
  | .resreply _ _ => none
  | .teamPlacement _ => none
  | .quantumExpiry _ => none
  | .swapGraceExpiry _ => none
  | .teamSwapOut _ => none
  | .teamSwapIn _ => none
  | .weirRun _ => none
  | .gridCompletion _ => none
  | .junctionMerge _ => none
  | .revisionDiscardReset _ => none
  | .tlbRefill _ _ => none
  | .invctl _ _ => none
  | .invalidationComplete _ => none
  | .pageVerification _ _ _ => none
  | .revctl _ _ => none
  | .dredgerSweepVisit _ _ => none
  | .revocationPreemptTimeout _ => none
  | .revocationComplete _ => none
  | .counterRefresh _ => none
  | .writeUpdate _ _ _ => none
  | .updateReply _ _ => none
  | .homeCommit _ => none
  | .regionMerge _ _ => none
  | .directoryEntryEviction _ => none
  | .evictionNotice _ _ => none
  | .stashFill _ _ => none
  | .stashForwardedAccess _ => none
  | .readShared _ => none
  | .upgrade _ => none
  | .readExclusive _ => none
  | .snoopRead _ => none
  | .snoopInvalidate _ => none
  | .proxyInvalidation _ => none
  | .writeBack _ => none
  | .backInvalidation _ => none
  | .hostAccess _ _ _ _ => none
  | .peerAccess _ _ _ _ _ => none
  | .flushMarker _ _ => none
  | .flushRoundComplete _ => none
  | .fabricRun _ _ _ => none
  | .fabricRekey _ _ => none
  | .pathFailure _ => none
  | .powerGate _ _ => none
  | .unitWake _ _ => none
  | .clockChange _ _ => none
  | .own _ _ _ => none
  | .ownershipLeaseExpiry _ => none
  | .rtail _ _ _ => none
  | .launchCommand _ => none
  | .rsync _ _ _ => none
  | .ringKeyInstall _ _ => none
  | .ringRelocate _ _ _ _ => none
  | .cqhead _ _ _ => none
  | .completionEntry _ => none
  | .registerWrite _ _ _ _ => none
  | .worldCreate _ _ _ => none
  | .worldDestroy _ => none
  | .compartmentDestroy _ _ => none
  | .bundleFetch _ _ => none
  | .trialExpiry => none
  | .attestationRequest _ _ => none
  | .coldStart => none
  | .warmStart => none
  | .startFailure _ => none
  | .storeAcknowledgement _ _ _ => none
  | .updateReceipt _ _ => none
  | .snoopAnswer _ => none
  | .grant _ => none
  | .evictionAcknowledgement _ _ => none
  | .hostSnoop _ => none
  | .hostFlushComplete _ _ => none
  | .uncorrectableMemoryError _ => none
  | .remoteAttestationComplete => none
  | .ideStreamKeyInstall _ _ _ => none
  | .chunkOwnerChange _ _ => none
  | .partitionOwnerChange _ _ => none
  | .compartmentCreate _ _ _ _ => none
  | .hostLinkReset => none
  | .fetchComplete _ _ => none

/-- The word of an instruction (R87, R88). -/
def encode (i : Instr) : Option (BitVec 96) := (encodeFields i).map fun f => BitVec.ofNat 96 f.toWord

/-- The instruction the decoder reads from a word of `nbits` bits, bit 0 the least significant bit of the first word;
the bits the table leaves out are zero. -/
def decodeTableWord (nbits w : Nat) : Option Instr :=
  if nbits ≤ 96 then (decode (BitVec.ofNat 96 (w % 2 ^ nbits))).toOption else none

end Sys2Proof
end

