-- ==== Sys2Proof/Machine/Map.lean ====
section
/-!
DEFINITION. Sparse maps: reading, writing and their canonical form (keys strictly rising, no entry equal to the value
an unlisted key has).
-/

namespace Sys2Proof

variable {α : Type}

/-- The value at a key; `d` where none is listed. -/
def SMap.look (d : α) : SMap α → Nat → α
  | [], _ => d
  | (k, v) :: t, i => if k = i then v else SMap.look d t i

/-- The map without a key. -/
def SMap.erase : SMap α → Nat → SMap α
  | [], _ => []
  | (k, v) :: t, i => if k = i then SMap.erase t i else (k, v) :: SMap.erase t i

/-- Inserts an entry before the first larger key. -/
def SMap.ins : SMap α → Nat → α → SMap α
  | [], i, x => [(i, x)]
  | (k, v) :: t, i, x => if i < k then (i, x) :: (k, v) :: t else (k, v) :: SMap.ins t i x

/-- Writes the value at a key; writing `d` removes the entry. -/
def SMap.put [DecidableEq α] (d : α) (m : SMap α) (i : Nat) (x : α) : SMap α :=
  if x = d then m.erase i else (m.erase i).ins i x

/-- Changes the value at a key. -/
def SMap.upd [DecidableEq α] (d : α) (m : SMap α) (i : Nat) (f : α → α) : SMap α := m.put d i (f (m.look d i))

/-- The keys listed. -/
def SMap.keys (m : SMap α) : List Nat := m.map (·.1)

/-- The canonical form: keys strictly rising above `lo`, no entry equal to `d`. -/
def SMap.wfFrom [DecidableEq α] (d : α) : Option Nat → SMap α → Bool
  | _, [] => true
  | lo, (k, v) :: t => (match lo with | none => true | some l => decide (l < k)) && decide (v ≠ d) && SMap.wfFrom d (some k) t

/-- The canonical form. -/
def SMap.wf [DecidableEq α] (d : α) (m : SMap α) : Bool := SMap.wfFrom d none m

end Sys2Proof
end

