-- ==== Sys2Proof/Config.lean ====
section
/-!
DEFINITION. What the spec leaves to the implementation or to keys outside the device: constants without a body, so that
no proof can see them. The numbers that the spec fixes stand in the definitions that use them.
-/

namespace Sys2Proof.Config

/-- The set of an L2 slice in which a line of memory is looked up, modulo 1,024: the spec gives the slices 1,024 sets
and no index (R289, DESIGN CHOICE, log entry 9). -/
opaque sliceSet : Nat → Nat

/-- The way at which an L2 slice begins to look for a line to replace, modulo 16: the spec gives no replacement rule for
the slices' sets (R289, DESIGN CHOICE, log entry 9). -/
opaque sliceVictim : Nat → Nat

/-- Which of several elements that no rule orders performs next (R301, DESIGN CHOICE, log entry 70). -/
opaque elemOrder : Nat → Nat

/-- Paths of a fabric port beyond its first: the spec gives the ports adaptive paths and no number (R310, R364, DESIGN
CHOICE, log entry 79). -/
opaque morePaths : Nat → Nat

/-- Verification and tag functions whose keys the spec does not give: AES-256-GCM over the bytes with key number and
nonce (R364, R367). -/
opaque gcmTag : Nat → Nat → List Byte → BitVec 128

/-- Whether both signatures over the bytes verify (R352, R371). -/
opaque signaturesOk : List Byte → Bool

/-- The signature of attestation evidence (R373). -/
opaque evidenceSignature : List Byte → List Byte

/-- The device hash of this silicon revision (R358). -/
opaque deviceHash : BitVec 256

/-- The stage of the kernel that an entry record describes: R250 compares it, and R355 gives the record no field for
it (DESIGN CHOICE, log entry 59). -/
opaque kernelStage : BitVec 512 → Nat

/-- The temperature of the die at a start, in kelvin: an input of the machine (R374; DESIGN CHOICE, log entry 37). -/
opaque dieTemp : Nat → Nat

/-- The owner byte of a 2 MiB chunk in a peer's memory, which the peer's firewall holds (R340): outside this package
(DESIGN CHOICE, log entry 49). -/
opaque peerOwner : Nat → Nat

end Sys2Proof.Config
end

