-- ==== Sys2Proof/Machine/State.lean ====
section
/-!
DEFINITION. The state of the Skelah 62, as plain data: the slots' registers (R8 … R17), the cores' shared state
(R18 … R21), the work in flight, memory with its tags, the structures of the scheduler, the Junction, the worlds, the
host interface and the start. Values that many things share a kind of are held in sparse maps.
-/

namespace Sys2Proof.Machine

/-- A capability register or a memory line with its tag (R28). -/
structure CapReg where
  bits : Line
  tag  : Bool
  deriving DecidableEq, Repr

/-- A register that can be owed (R23). -/
inductive RegRef where
  | x (r : Nat)
  | v (r : Nat)
  | c (r : Nat)
  deriving DecidableEq, Repr

/-- Four effective coordinates (R37). -/
structure Coords where
  k0 : Int
  k1 : Int
  k2 : Int
  k3 : Int
  deriving DecidableEq, Repr

/-- What a fault record holds (R230). -/
structure FaultInfo where
  cause  : Nat
  icause : Nat
  mode   : Nat
  agent  : Nat
  bpos   : Nat
  fva    : Nat
  iaddr  : Word
  aux    : Word
  prog   : Word
  time   : Word
  at_    : Coords
  /-- KIND 0 copy whose resume record is in the resume area (R232) -/
  resume : Bool
  deriving DecidableEq, Repr

/-- One element that a check has admitted: its virtual byte address, nibble, size in bits and coordinates. -/
structure Elem where
  va     : Nat
  nib    : Nat
  bits   : Nat
  coords : Coords
  deriving DecidableEq, Repr

/-- The operations on a Sluice line (R195). -/
inductive SluiceOp where
  | init (n : Nat)
  | arm (n : Nat)
  | arrive (n : Nat)
  | count (n : Nat)
  deriving DecidableEq, Repr

/-- A Barge template (R185), as it was read or composed. -/
structure Level where
  count : Nat
  ddlt  : Int
  sdlt  : Int
  dk    : Nat
  sk    : Nat
  deriving DecidableEq, Repr

/-- A template copy: start coordinates and levels, innermost first (R185). -/
structure Template where
  dst    : Coords
  sst    : Coords
  slu    : Bool
  levels : List Level
  deriving DecidableEq, Repr

/-- What a Barge instruction does (R186, R190, R192). -/
inductive BargeWork where
  /-- a copy: destination, source, Sluice, template -/
  | copy (dst src slu : CapReg) (t : Template)
  /-- a resumption whose record is read when it executes, by the kind of access that reads it -/
  | resume (rec : CapReg) (own : Bool)
  /-- staging: tile image, source, Sluice, options -/
  | stage (tile : Word) (src slu : CapReg) (o : StageOpts)
  deriving DecidableEq, Repr

/-- A class-1 operation as captured at its issue (R24, R235). -/
inductive Flight where
  /-- a value already fixed -/
  | ready (v : CapReg)
  | load (t : IType) (e : Elem)
  /-- element width, the guarded elements by position, those that have not been read, the values read, by position, the
  fault of the lowest position that met one, and whether `tret` performs the load again, in element order (R235) -/
  | vload (w : Nat) (all es : List (Nat × Elem)) (got : List (Nat × Nat)) (bad : Option FaultInfo) (again : Bool)
  | cload (e : Elem)
  | amo (t : IType) (k : AmoOp) (opnd : Word) (e : Elem)
  | cas (t : IType) (expect new : Word) (e : Elem)
  /-- the capability form of `cas`; `again` when `tret` performs it again, with the first check of R43 (R235) -/
  | ccas (expect new : CapReg) (e : Elem) (again : Bool)
  | slock (e : Elem)
  | poll (flips : Nat) (e : Elem)
  | publish (src : CapReg) (len : Nat)
  | ctr (kind unit n : Nat) (vec : Bool)
  /-- the status of Barge instruction number `n` -/
  | barge (n : Nat) (w : BargeWork)
  /-- the completion of engine instruction number `n`, or its drained value -/
  | engine (n : Nat)
  /-- the completion of chain number `c` -/
  | chain (c : Nat)
  deriving DecidableEq, Repr

/-- What an operation returned: a value with the flags it raises, or the fault it carries. -/
inductive Res where
  | val (v : CapReg) (flags : Nat)
  | fault (f : FaultInfo)
  deriving DecidableEq, Repr

/-- One owed result (R24) or owed completion (R171). -/
structure Owed where
  /-- the register it lands in; none for a completion, or when the owing was cancelled or replaced -/
  dest   : Option RegRef
  /-- false when the owing was cancelled or replaced: its value is dropped, its flags and its fault are kept -/
  live   : Bool
  /-- the bits of the destination it writes (R25) -/
  mask   : Line
  flight : Flight
  res    : Option Res
  /-- it holds the slot's later accesses until it has performed (R304) -/
  acq    : Bool
  seq    : Nat
  iaddr  : Word
  dfield : Nat
  deriving DecidableEq, Repr

/-- A deferred effect with the operands it read at issue (R199, R200). -/
inductive DeferOp where
  | mem (f : Flight)
  | cst (v auth : CapReg) (e : Elem)
  | sluice (o : SluiceOp) (e : Elem)
  /-- the count of Barge instruction number `n`, or of a `bres` that may count nothing -/
  | count (n : Nat)
  | rdec (amount : Nat) (e : Elem)
  | spawn (rec : CapReg) (k : Coords)
  | launch (rec : CapReg) (k : Coords)
  | fork (rec : CapReg) (idx : Nat) (revs : Option CapReg)
  | push (basin : CapReg) (k0 : Int) (v : Line)
  | pop (basin : CapReg) (k0 : Int) (vec : Bool)
  deriving DecidableEq, Repr

/-- An entry of the deferred-effect buffer (R200). -/
structure Defer where
  op     : DeferOp
  dest   : Option RegRef
  /-- the destination was written after the deferral: its result is discarded (R147) -/
  stale  : Bool
  iaddr  : Word
  dfield : Nat
  deriving DecidableEq, Repr

/-- What a queued write does. -/
inductive OutOp where
  /-- a data element -/
  | data (e : Elem) (v : Word)
  /-- a capability line -/
  | line (e : Elem) (v : CapReg)
  /-- a Sluice operation -/
  | sluice (e : Elem) (o : SluiceOp)
  deriving DecidableEq, Repr

/-- Where a line is and how it is kept. -/
inductive PKind where
  /-- device memory with a home slice -/
  | dev
  | host
  | peer
  /-- a scratchpad through the window -/
  | win
  /-- the counter aperture -/
  | ctr
  /-- the mint aperture -/
  | mint
  deriving DecidableEq, Repr

/-- The place of an element. -/
structure Place where
  kind     : PKind
  key      : Nat
  va       : Nat
  untagged : Bool
  stash    : Bool
  home     : Nat
  deriving DecidableEq, Repr

/-- A write in the slot's store queue, or sent and not yet fully acknowledged (R299). -/
structure Out where
  op    : OutOp
  /-- release scope of `st.rel` -/
  rel   : Option Nat
  seq   : Nat
  actid : Word
  iaddr : Word
  place : Place
  /-- position in its instruction's element order -/
  idx   : Nat
  /-- scope level reached at the home: 0 queued, 1 left the queue, 2 die, 3 package, 4 every scope -/
  lvl   : Nat
  /-- level whose acknowledgement has reached the slot -/
  got   : Nat
  stamp : Nat
  deriving DecidableEq, Repr

/-- A Basin operation held at its home (R215). -/
structure BasinOp where
  push  : Bool
  vec   : Bool
  basin : CapReg
  k0    : Int
  val   : Line
  reg   : Nat
  iaddr : Word
  dfield : Nat
  deriving DecidableEq, Repr

/-- Why a slot does not issue although it is not parked (R259): the instruction is issued again when the reason has
gone. -/
inductive Hold where
  | engine
  | barge
  | chain
  /-- a release or fence at a scope that waits for acknowledgements, with the stamp of its first issue -/
  | release (sc stamp : Nat)
  | waitReg (r : RegRef)
  | swait (e : Elem) (flips : Nat)
  | basin (o : BasinOp) (g : Ctl)
  /-- `commit` has effects to apply (R201) -/
  | commit
  /-- a `commit` whose next effect is a release that waits for acknowledgements (R201), with the stamp of its first try -/
  | applying (stamp : Nat)
  /-- the end of the activation waits for what is on its way (R204), with the stamp of its first issue (R305) -/
  | finish (stamp : Nat)
  | template
  deriving DecidableEq, Repr

/-- Whether a slot issues. -/
inductive Stop where
  | run
  /-- the park that ends a sequence, or one before `ccall`, `cret` or `retire` (R22) -/
  | park
  | hold (h : Hold)
  /-- a handled fault waits for its delivery (R232) -/
  | trap (f : FaultInfo)
  /-- a terminal fault waits for owed values to return (R234) -/
  | terminal (f : FaultInfo)
  deriving DecidableEq, Repr

/-- Trap state kept apart from the frame (R232). -/
structure TrapState where
  obj   : Nat
  cmpt  : Nat
  mode  : Nat
  bpos  : Nat
  aux   : Nat
  redo  : Option Owed
  deriving DecidableEq, Repr

/-- One frame of the trusted stack (R344). -/
structure CallFrame where
  ret    : Word
  cmpt   : Nat
  frm    : Word
  fflags : Word
  lc     : Word
  ls     : Word
  le     : Word
  /-- x8 … x31 -/
  xs     : List Word
  /-- c2 … c15 -/
  cs     : List CapReg
  deriving DecidableEq, Repr

/-- A record: its data line and its capability lines with tags (R249). -/
structure Rec where
  data : Line
  caps : List CapReg
  deriving DecidableEq, Repr

/-- A pool entry: the record, the revision its activation holds, whether the fork that made that revision made the
record, and whether an activation has taken it. -/
structure PoolEntry where
  record : Rec
  rev   : Option Nat
  child : Bool
  taken : Bool
  /-- its dependence count has still to be registered (R255) -/
  dep   : Bool
  /-- start number of the activation that was discarded; 0 for a record that none was started from (R266) -/
  turn  : Nat := 0
  deriving DecidableEq, Repr

/-- One activation slot (R8) with everything that belongs to its activation. -/
structure Slot where
  active : Bool
  x : SMap Word
  v : SMap Line
  c : SMap CapReg
  p : SMap (BitVec 16)
  frm : Word
  fflags : Word
  lc : Word
  ls : Word
  le : Word
  actid : Word
  teamid : Word
  stage : Word
  gx : Word
  gy : Word
  gz : Word
  /-- program counter, a byte offset that may lie outside the object (R105, R106) -/
  pc : Int
  obj : Nat
  cmpt : Nat
  world : Nat
  part : Nat
  grid : Nat
  team : Nat
  tcore : Nat
  pool : Nat
  entry : PoolEntry
  rev : Option Nat
  forks : Nat
  /-- cycle of the issue of `commit` -/
  committed : Option Nat
  handler : Bool
  trap : Option TrapState
  tcause : Word
  tiaddr : Word
  tfva : Word
  taux : Word
  fltcnt : Word
  preempt : Bool
  stack : List CallFrame
  deferred : List Defer
  /-- position in the buffer of the effect `commit` applies next (R202) -/
  applied : Nat
  owed : List Owed
  out : List Out
  seq : Nat
  /-- streams that carry a write to host memory later than their last flushing read (R311) -/
  hostDirty : List Nat
  /-- the capabilities a `ccall` that waits read at its issue (R217) -/
  callee : Option (CapReg × CapReg)
  /-- arrival number of the Basin operation that its home holds (R215) -/
  arrived : Option Nat
  /-- cycle in which the running wait timer expires -/
  timer : Option Nat
  readySince : Nat
  /-- no issue before this cycle (DLY, R109, R153, R257) -/
  notBefore : Nat
  stop : Stop
  /-- the fetch of the next instruction has completed (R123) -/
  fetched : Bool
  deriving DecidableEq, Repr

/-- Format tag of a narrow accumulator slot (R19). -/
inductive AccTag where
  | fp32 | int32 | block
  deriving DecidableEq, Repr

/-- What an engine instruction does, with what it captured at issue (R169). -/
inductive EngineWork where
  | mmf (d : Nat) (ta tb : Word)
  | mmi (d : Nat) (ta tb : Word)
  | mmb (d : Nat) (ta tb : Word) (len : Nat)
  | mscacc (d a : Nat) (scales : Line)
  | macld (a grp : Nat)
  | mzero (d : Nat)
  deriving DecidableEq, Repr

/-- An engine instruction that has not committed. -/
structure EngineOp where
  num   : Nat
  slot  : Nat
  work  : EngineWork
  /-- number of the Barge instruction issued last before it, for the interlock of R172 -/
  after : Nat
  /-- number of its chain -/
  chain : Option Nat
  deriving DecidableEq, Repr

/-- A Barge instruction in the queue (R21). -/
structure BargeOp where
  num   : Nat
  slot  : Nat
  work  : BargeWork
  iaddr : Word
  dfield : Nat
  /-- its Sluice count is deferred to `commit` (R196) -/
  defer : Bool
  /-- number of the engine instruction issued last before it -/
  after : Nat
  seq   : Nat
  /-- the element it begins with: not 0 for a resumption -/
  first : Nat
  /-- the element it is at -/
  pos   : Nat
  /-- the elements that a staging has read -/
  got   : List Nat
  deriving DecidableEq, Repr

/-- A Barge instruction that has been carried out and has not yet returned (R184). -/
structure BargeDone where
  num   : Nat
  slot  : Nat
  res   : Res
  /-- the Sluice and the bytes it counts into it -/
  count : Option (CapReg × Nat)
  defer : Bool
  /-- number drawn at its end: stores committed before have lower ones (R305) -/
  stamp : Nat
  deriving DecidableEq, Repr

/-- A Sluice count that waits for `commit` (R196): Barge instruction, slot, Sluice capability, bytes. -/
structure BargeCount where
  num   : Nat
  slot  : Nat
  slu   : CapReg
  bytes : Nat
  deriving DecidableEq, Repr

/-- The plane engine of a core (R18, R19). -/
structure Engine where
  t     : SMap Word
  /-- cells, keyed 1024·slot + 32·row + column -/
  acc   : SMap Word
  tags  : SMap AccTag
  /-- narrow slots that are not fresh (R175) -/
  used  : SMap Bool
  /-- the slot whose chain is open -/
  chain : Option Nat
  queue : List EngineOp
  /-- chains opened so far -/
  chains : Nat
  /-- flags of the committed instructions of chains whose completion has not returned, by chain number -/
  cflags : SMap Nat
  /-- number of the last instruction -/
  num   : Nat
  /-- world, grid and team of the activation that last issued an engine instruction -/
  owner : Option Nat
  deriving DecidableEq, Repr

/-- A way of an L1 that holds a line, most recently used first in its set (R287). -/
structure L1Line where
  va  : Nat
  key : Nat
  /-- false for a pinned line that was invalidated: it keeps its way and its pin (R315) -/
  valid : Bool
  way : Nat
  pin : Option Nat
  deriving DecidableEq, Repr

/-- An entry of a stash (R285): its line, whether it has been written, and its place among the entries of the banks. -/
structure StashLine where
  va  : Nat
  key : Nat
  written : Bool
  loc : Nat
  deriving DecidableEq, Repr

/-- One core. -/
structure Core where
  slots   : SMap Slot
  engine  : Engine
  barge   : List BargeOp
  bdone   : List BargeDone
  bnum    : Nat
  counts  : List BargeCount
  l1      : SMap (List L1Line)
  /-- stash entries, most recently used first -/
  stash   : List StashLine
  /-- eviction notices sent and not yet acknowledged, oldest first: line key, and whether the home has received it -/
  notices : List (Nat × Bool)
  /-- lines of verified code pages in the instruction cache, most recently used first: key and contents (R287) -/
  icache  : List (Nat × Line)
  /-- first-level translation buffer: first page and pages of an entry, most recent first (R333) -/
  tlb     : List (Nat × Nat)
  wtlim   : Word
  /-- activations started (R15) -/
  started : Nat
  oos     : Bool
  /-- team served, and the team-relative number of the core -/
  team    : Option Nat
  tcore   : Nat
  /-- its clock is stopped for heat, since the cycle given (R376) -/
  stopped : Option Nat
  /-- cycles lost while the clock was stopped -/
  lost    : Nat
  lastTick : Nat
  lastSlot : Nat
  yielded : Option Nat
  /-- L1 way pairs (0 … 3) and scratchpad banks (16 + bank) that are power-gated (R292) -/
  gated   : List Nat
  deriving DecidableEq, Repr

/-- States of a line in a proxy slice (R319). -/
inductive Moesi where
  | I | S | E | O | M
  deriving DecidableEq, Repr

/-- What a core answers to an update (R314, R316). -/
inductive Reply where
  | applied | gone | none
  deriving DecidableEq, Repr

/-- A write that a home is applying (R314). -/
structure Pend where
  core  : Nat
  slot  : Nat
  seq   : Nat
  idx   : Nat
  /-- applied at the proxy, which stands in for the home (R319) -/
  proxy : Bool
  op    : OutOp
  /-- the die-scope acknowledgement also means package scope (R300) -/
  whole : Bool
  /-- cores the update has not reached -/
  sent  : List Nat
  /-- cores that hold the new bytes unreadable -/
  held  : List Nat
  /-- replies on their way -/
  replies : List (Nat × Reply)
  deriving DecidableEq, Repr

/-- A message from a home to the other die's proxy, or the answer awaited. -/
inductive Snoop where
  | read | inval | invAck
  deriving DecidableEq, Repr

/-- A request a proxy has sent and whose grant has not come. -/
inductive PReq where
  | shared | upgrade | exclusive
  deriving DecidableEq, Repr

/-- Coherence state of one device line (R313 … R323). -/
structure LineCoh where
  /-- home slice, known from the first access that reached it -/
  slice : Nat
  proxy : Moesi
  home  : Moesi
  /-- the proxy's copy -/
  pcopy : CapReg
  /-- a WriteBack sent by the proxy and not yet received by the home -/
  wback : Option CapReg
  /-- a WriteBack received and not yet acknowledged -/
  wbAck : Bool
  pend  : Option Pend
  req   : Option PReq
  snoop : Option Snoop
  /-- writes whose package acknowledgement waits for the invalidation: core, slot, seq, commit stamp; slot 4 and the
  instruction's number for a write of the Barge -/
  inval : List (Nat × Nat × Nat × Nat)
  host  : Moesi
  /-- core whose stash owns the line -/
  owner : Option Nat
  deriving DecidableEq, Repr

/-- A directory entry of a home slice: 2^k lines from `base` on (R315). -/
structure Region where
  base  : Nat
  k     : Nat
  used  : Nat
  split : Nat
  deriving DecidableEq, Repr

/-- One L2 slice. -/
structure Slice where
  /-- priority bit (R320) -/
  prio : Bool
  dir  : List Region
  oos    : Bool
  gated : List Nat
  /-- lines held, as one more than the line key, by 16 times the set and the way (R289) -/
  ways  : SMap Nat
  /-- replacements made: each takes a free value -/
  draws : Nat
  deriving DecidableEq, Repr

/-- A dependence-counter line (R254). -/
structure Counter where
  count : Word
  rv    : Bool
  rslot : Nat
  deriving DecidableEq, Repr

/-- The structures of one team-relative core (R253). -/
structure TCore where
  ring  : List Nat
  /-- near end first -/
  deque : List Nat
  pool  : SMap PoolEntry
  ctr   : SMap Counter
  /-- counters whose push a full ring holds -/
  held  : List Nat
  /-- records the scheduler has still to place here -/
  feed  : List Rec
  deriving DecidableEq, Repr

/-- Where a team stands (R264). -/
inductive TeamSt where
  | waiting (since : Nat)
  | resident (since : Nat)
  /-- being swapped out since a cycle; true once the grace has ended -/
  | leaving (since : Nat) (late : Bool)
  | done
  deriving DecidableEq, Repr

/-- A team (R248). -/
structure Team where
  grid    : Nat
  index   : Nat
  cores   : Nat
  st      : TeamSt
  /-- package-wide row numbers, in team order -/
  rows    : List Nat
  /-- stage each row serves, and the resident cycle at which it began to serve it -/
  stages  : SMap Nat
  served  : SMap Nat
  /-- resident cycles before the present residence -/
  resid   : Nat
  weirAt  : Nat
  /-- cycle at which the clock of one of its cores stopped, while one is stopped (R376) -/
  frozen  : Option Nat
  tc      : SMap TCore
  stageQ  : SMap (List PoolEntry)
  /-- Basin registered for a stage, with the team core whose pop registered it (R260) -/
  basins  : SMap (CapReg × Int × Nat)
  /-- saved named and system areas: team core, offset, byte; and tagged lines -/
  saved   : List (Nat × Nat × Byte)
  savedTags : List (Nat × Nat)
  /-- saved nibbles with an uncorrectable error: team core, nibble offset (R47) -/
  savedErr : List (Nat × Nat)
  swapped : Bool
  pins    : Nat
  deriving DecidableEq, Repr

/-- Where a grid stands (R251). -/
inductive GridSt where
  | queued
  | waiting (missing : List Nat)
  | live
  | done
  deriving DecidableEq, Repr

/-- A leased 4 KiB page: the leaf as it stood with its level, the page's frame, and for a stripe granule of another
member that member's package number (R331, R334). -/
structure Lease where
  leaf  : Word
  level : Nat
  frame : Nat
  peer  : Option Nat
  deriving DecidableEq, Repr

/-- A grid (R247). -/
structure Grid where
  part   : Nat
  world  : Nat
  record : Rec
  sluice : CapReg
  st     : GridSt
  order  : Nat
  /-- command-ring sequence number, or none for a device `launch` -/
  seq    : Option Word
  leases : SMap Lease
  teams  : List Nat
  begun  : Bool
  named  : Nat
  /-- streams that carry writes to host memory of its ended activations (R263, R311) -/
  dirty  : List Nat
  deriving DecidableEq, Repr

/-- A compartment-table entry (R342). -/
structure Cmpt where
  valid : Bool
  /-- the number has been used: it is never used again while the world lives -/
  used  : Bool
  priv  : Bool
  hnd   : Word
  deriving DecidableEq, Repr

/-- A code object (R354 … R361). -/
structure CodeObj where
  base    : Nat
  tlen    : Nat
  cap     : CapReg
  hashes  : List (BitVec 256)
  entries : List Line
  cmpt    : Nat
  quarantined : Bool
  verified : SMap Bool
  deriving DecidableEq, Repr

/-- A revocation in progress (R348). -/
structure Revocation where
  /-- cycle of the publication -/
  at_   : Nat
  /-- number drawn at the publication: queued stores with a lower stamp came before -/
  stamp : Nat
  /-- recorded activations: slot key and actid -/
  acts  : List (Nat × Word)
  /-- for each of them the number of the owed result and the position of the deferred effect that come next: what has a
  lower one passed its checks before the publication -/
  marks : List (Nat × Nat)
  /-- by sweeping agent: lines still to visit are those at or above the number -/
  sweep : SMap Nat
  deriving DecidableEq, Repr

/-- A world (R338). -/
structure World where
  live   : Bool
  troot  : Nat
  gtb    : Nat
  flog   : Nat
  /-- physical address of the policy line; 0 for no policy -/
  pol    : Nat
  /-- physical address of the compartment table -/
  ctb    : Nat
  /-- partitions that the world drives -/
  pmask  : Nat
  policy : Option Line
  ncm    : Nat
  cmpts  : SMap Cmpt
  objs   : SMap CodeObj
  nextObj : Nat
  rev    : Option Revocation
  epoch  : Nat
  roots  : Nat
  /-- a grid of the world has been submitted -/
  begun  : Bool
  /-- the view of the root block that the device kernel is handed (R345) -/
  rootView : CapReg
  /-- residency queue: pages asked for (R334) -/
  resq   : List Nat
  /-- outside copies of counters, keyed like the counters (R228) -/
  copies : SMap Word
  period : Nat
  dying  : Bool
  deriving DecidableEq, Repr

/-- A command-ring state (R368). -/
inductive RingSt where
  | run | gap | rekey
  deriving DecidableEq, Repr

/-- A partition with its control block (R339, R365). -/
structure Part where
  wid    : Nat
  /-- world that drove the partition since its last reset; 0xFE for none, 256 more than the number of a destroyed world -/
  lastWid : Nat
  cl     : Nat
  sl     : Nat
  ifs    : Nat
  fl     : Nat
  queue  : List Nat
  mid    : Nat
  gen    : Nat
  lease  : Nat
  leaseAt : Nat
  rbase  : Nat
  rsize  : Nat
  rtail  : Word
  rhead  : Word
  expseq : Word
  rst    : RingSt
  rkey   : Nat
  cqbase : Nat
  cqsize : Nat
  cqtail : Word
  cqhead : Word
  cqwait : List (BitVec 128)
  grant  : Word
  gcount : Word
  resreply : Word
  invgo  : Bool
  invall : Bool
  invva  : Nat
  invsts : Nat
  prstgo : Bool
  fco    : Nat
  fsl    : Nat
  slset  : SMap (BitVec 128)
  stripe : SMap (BitVec 128)
  deriving DecidableEq, Repr

/-- An entry of a revision's spill area (R269). -/
structure RevEntry where
  ridx  : Nat
  laddr : Nat
  anc   : CapReg
  child : CapReg
  /-- nibbles of the copies with an uncorrectable error (R47, R139): ancestor's, child's -/
  aerr  : List Nat
  cerr  : List Nat
  deriving DecidableEq, Repr

/-- States of a revision (R269). -/
inductive RevSt where
  | live | ended | merged
  deriving DecidableEq, Repr

/-- A revision (R267 … R275). -/
structure Revision where
  world  : Nat
  team   : Nat
  grid   : Nat
  parent : Option Nat
  /-- core, slot and actid of the forking activation -/
  forker : Nat × Nat × Word
  fidx   : Nat
  order  : Nat
  faddr  : Word
  spill  : CapReg
  list   : Line
  /-- every region of the list, with its merge type -/
  regions : List (CapReg × Nat)
  entries : List RevEntry
  /-- places reserved by issued stores: slot key, seq, line -/
  reserved : List (Nat × Nat × Nat)
  st     : RevSt
  broken : Bool
  baddr  : Nat
  /-- activations that hold it and have not ended -/
  holders : Nat
  /-- join counters to decrement after the merge: core, index -/
  joins  : List (Nat × Nat)
  /-- an activation that holds it was discarded, and the child copies are to be reset (R275) -/
  resets : Bool
  deriving DecidableEq, Repr

/-- A bundle slot (R371, R372). -/
structure Bundle where
  valid   : Bool
  version : Nat
  minbump : Bool
  /-- hash of the whole bundle, and of each component as its header gives it (R371) -/
  hash    : BitVec 256
  parts   : List (BitVec 256)
  pending : Bool
  /-- consecutive failed starts of the slot (R375) -/
  fails   : Nat
  deriving DecidableEq, Repr

/-- Firmware, trust and start (R371 … R376). -/
structure Firmware where
  slotA  : Bundle
  slotB  : Bundle
  /-- active slot: false A, true B -/
  active : Bool
  minver : Nat
  /-- a trial is running -/
  trial  : Bool
  starts : Nat
  succeeded : Bool
  cold   : Bool
  sram   : BitVec 256
  /-- die temperature at the stored GDDR7 training, in kelvin (R374 step 3) -/
  trained : Nat
  /-- the host has reset the link since the last equalization (R374 step 4) -/
  linkReset : Bool
  evidence : List Byte
  clock  : Nat
  deriving DecidableEq, Repr

/-- A flush round of the package (R310). -/
structure Round where
  num   : Nat
  core  : Nat
  slot  : Nat
  world : Nat
  paths : List Nat
  got   : List Nat
  done  : Bool
  deriving DecidableEq, Repr

/-- Ports: IDE streams, fabric keys and paths (R363, R364). -/
structure Ports where
  /-- the world that an IDE stream is bound to -/
  streams : SMap (Option Nat)
  skeys   : SMap Nat
  /-- key number of a world and port pair, keyed 256·port + world -/
  fkeys   : SMap Nat
  /-- pairs whose key has failed and has not been replaced, keyed alike -/
  stale   : SMap Bool
  /-- flits of the runs of a path that are to be sent again, in order, keyed 256·path + world -/
  resend  : SMap (List Nat)
  /-- flits delivered, keyed alike -/
  delivered : SMap Nat
  /-- the longest run of a port, in flits, as the monitor set it; 0 where it has not -/
  rl      : SMap Nat
  /-- failed paths -/
  failed  : List Nat
  rounds  : List Round
  nround  : Nat
  deriving DecidableEq, Repr

structure State where
  /-- core cycles since the device start -/
  now    : Nat
  /-- slot of the instruction being issued, 4·core + slot -/
  cur    : Nat
  /-- an instruction of slot `cur` issues in the next step -/
  issuing : Bool
  /-- agents' events that the outside has scheduled, first first -/
  script : List Instr
  /-- numbers drawn so far for free values, stamps and identities -/
  fresh  : Nat
  cores  : SMap Core
  /-- memory bytes by key (Machine/Mem.lean says how a place becomes a key) -/
  mem    : List Host.Cell
  /-- lines whose tag is set, by line key -/
  tags   : SMap Bool
  /-- nibbles with an uncorrectable error, by nibble key -/
  poison : SMap Bool
  coh    : SMap LineCoh
  slices : SMap Slice
  /-- owner byte of each 2 MiB chunk (R340) -/
  owners : SMap Nat
  /-- code frames: world and object of each 4 KiB frame (R357) -/
  frames : SMap Nat
  /-- second-level translation buffers by cluster (R333) -/
  tlb2   : SMap (List (Nat × Nat))
  /-- scheduler trace records that the outside may read: world, class, rounded time (R353) -/
  trace  : List (Nat × Nat × Nat)
  /-- first-touch records: cluster plus one, by world and page (R290) -/
  touch  : SMap Nat
  perf   : SMap Word
  parts  : SMap Part
  worlds : SMap World
  grids  : SMap Grid
  teams  : SMap Team
  revs   : SMap Revision
  fw     : Firmware
  ports  : Ports
  /-- the number by which stripe sets name this package (R331) -/
  pkg    : Nat
  /-- answer of the last host or peer read -/
  reply  : List Byte
  /-- the last outside access or control-block write completed with an unsupported-request status (R340, R365) -/
  unsupported : Bool
  deriving DecidableEq, Repr

/-- A stop outside the machine's own behaviour. -/
inductive Fault where
  /-- Raised by `step` alone, when the script of outside events holds an instruction: an instruction issues only from
  memory. Safe: no instruction of a program is affected. -/
  | scriptedInstruction
  deriving DecidableEq, Repr

/-- A refusal of the model. -/
inductive Refusal where
  /-- Raised by `exec` for an instruction that has no meaning yet. Safe: the run stops. -/
  | notModelled (mnemonic : String)
  deriving DecidableEq, Repr

/-! ## Reset (R16, R20, R46, R374) -/

/-- The null capability (R10, R28). -/
def CapReg.null : CapReg := { bits := 0, tag := false }

/-- Coordinates (0, 0, 0, 0). -/
def Coords.zero : Coords := { k0 := 0, k1 := 0, k2 := 0, k3 := 0 }

/-- An empty record. -/
def Rec.empty : Rec := { data := 0, caps := [] }

/-- An empty pool entry. -/
def PoolEntry.empty : PoolEntry := { record := Rec.empty, rev := none, child := false, taken := false, dep := false }

/-- A slot without an activation: every register zero. -/
def Slot.reset : Slot :=
  { active := false, x := [], v := [], c := [], p := [], frm := 0, fflags := 0, lc := 0, ls := 0, le := 0,
    actid := 0, teamid := 0, stage := 0, gx := 0, gy := 0, gz := 0, pc := 0, obj := 0, cmpt := 0, world := 0xFE,
    part := 0, grid := 0, team := 0, tcore := 0, pool := 0, entry := PoolEntry.empty, rev := none, forks := 0,
    committed := none, handler := false, trap := none, tcause := 0, tiaddr := 0, tfva := 0, taux := 0, fltcnt := 0,
    preempt := false, stack := [], deferred := [], applied := 0, owed := [], out := [], seq := 0, hostDirty := [],
    callee := none, arrived := none, timer := none,
    readySince := 0, notBefore := 0, stop := .run, fetched := false }

/-- The plane engine at device reset (R20). -/
def Engine.reset : Engine :=
  { t := [], acc := [], tags := [], used := [], chain := none, queue := [], chains := 0, cflags := [], num := 0,
    owner := none }

/-- A core at device reset. -/
def Core.reset : Core :=
  { slots := [], engine := Engine.reset, barge := [], bdone := [], bnum := 0, counts := [], l1 := [], stash := [], icache := [],
    notices := [], tlb := [], wtlim := 0x100000, started := 0, oos := false, team := none, tcore := 0,
    stopped := none, lost := 0, lastTick := 0, lastSlot := 3, yielded := none, gated := [] }

/-- A line that no cache holds. -/
def LineCoh.reset : LineCoh :=
  { slice := 0, proxy := .I, home := .I, pcopy := CapReg.null, wback := none, wbAck := false, pend := none, req := none,
    snoop := none, inval := [], host := .I, owner := none }

/-- A slice at device reset. -/
def Slice.reset : Slice := { prio := false, dir := [], oos := false, gated := [], ways := [], draws := 0 }

/-- A counter line at reset. -/
def Counter.reset : Counter := { count := 0, rv := false, rslot := 0 }

/-- A team core's structures, empty. -/
def TCore.reset : TCore := { ring := [], deque := [], pool := [], ctr := [], held := [], feed := [] }

/-- No team. -/
def Team.reset : Team :=
  { grid := 0, index := 0, cores := 0, st := .done, rows := [], stages := [], served := [], resid := 0, weirAt := 0, frozen := none,
    tc := [], stageQ := [], basins := [], saved := [], savedTags := [], savedErr := [], swapped := false, pins := 0 }

/-- No grid. -/
def Grid.reset : Grid :=
  { part := 0, world := 0xFE, record := Rec.empty, sluice := CapReg.null, st := .done, order := 0, seq := none,
    leases := [], teams := [], begun := false, named := 0, dirty := [] }

/-- A compartment-table entry that does not exist. -/
def Cmpt.reset : Cmpt := { valid := false, used := false, priv := false, hnd := 0 }

/-- No code object. -/
def CodeObj.reset : CodeObj :=
  { base := 0, tlen := 0, cap := CapReg.null, hashes := [], entries := [], cmpt := 0, quarantined := false,
    verified := [] }

/-- A world that does not exist. -/
def World.reset : World :=
  { live := false, troot := 0, gtb := 0, flog := 0, pol := 0, ctb := 0, pmask := 0, policy := none, ncm := 0, cmpts := [],
    objs := [], nextObj := 1, rev := none, epoch := 0, roots := 0, begun := false, rootView := CapReg.null, resq := [], copies := [], period := 0, dying := false }

/-- A partition at device reset: owned by world 0xFE. -/
def Part.reset : Part :=
  { wid := 0xFE, lastWid := 0xFE, cl := 0, sl := 0, ifs := 0, fl := 0, queue := [], mid := 0, gen := 0, lease := 0, leaseAt := 0,
    rbase := 0, rsize := 16, rtail := 0, rhead := 0, expseq := 0, rst := .run, rkey := 0, cqbase := 0, cqsize := 16,
    cqtail := 0, cqhead := 0, cqwait := [], grant := 0, gcount := 0, resreply := 0, invgo := false,
    invall := false, invva := 0, invsts := 0, prstgo := false, fco := 0, fsl := 0, slset := [], stripe := [] }

/-- No revision. -/
def Revision.reset : Revision :=
  { world := 0xFE, team := 0, grid := 0, parent := none, forker := (0, 0, 0), fidx := 0, order := 0, faddr := 0,
    spill := CapReg.null, list := 0, regions := [], entries := [], reserved := [], st := .merged, broken := false,
    baddr := 0, holders := 0, joins := [], resets := false }

/-- An empty bundle slot. -/
def Bundle.reset : Bundle :=
  { valid := false, version := 0, minbump := false, hash := 0, parts := [], pending := false, fails := 0 }

/-- Firmware state of a device whose slot A holds a valid bundle and whose last start was cold and succeeded. -/
def Firmware.reset : Firmware :=
  { slotA := { Bundle.reset with valid := true, parts := [0, 0, 0] }, slotB := Bundle.reset,
    active := false, minver := 0, trial := false, starts := 1, succeeded := true, cold := true, sram := 0, trained := 300,
    linkReset := false, evidence := [], clock := 1000 }

/-- Ports with no stream, key or round. -/
def Ports.reset : Ports :=
  { streams := [], skeys := [], fkeys := [], stale := [], resend := [], delivered := [], rl := [], failed := [], rounds := [], nround := 0 }

/-- The machine right after a start: no activation, memory with nothing listed and no tag, every counter zero, every
partition with world 0xFE (R374 step 5), and every chunk without an owner but the first, which holds the world table and
is the monitor's (R338; DEDUCED, log entry 25). -/
def State.reset : State :=
  { now := 0, cur := 0, issuing := false, script := [], fresh := 0, cores := [], mem := [], tags := [], poison := [],
    coh := [], slices := [], owners := [(0, 0xFF)], frames := [], tlb2 := [], trace := [], touch := [], perf := [], parts := [], worlds := [],
    grids := [], teams := [], revs := [], fw := Firmware.reset, ports := Ports.reset, pkg := 0, reply := [], unsupported := false }

end Sys2Proof.Machine
end

