-- ==== Sys2Proof/Machine/Caps.lean ====
section
/-!
DEFINITION. The capability line (R28), its fields, the invariants of R29, the check of R38 and the derivations of R40.
-/

namespace Sys2Proof.Machine

/-- Bits `hi` … `lo` of a number, as a number. -/
def bitsOf (n lo w : Nat) : Nat := n / 2 ^ lo % 2 ^ w

/-- The low `w` bits of a number, read as two's complement. -/
def signedOf (w n : Nat) : Int :=
  let m := n % 2 ^ w
  if m < 2 ^ (w - 1) then (m : Int) else (m : Int) - 2 ^ w

/-- The two's-complement bits of an integer at width `w`, as a number. -/
def unsignedOf (w : Nat) (z : Int) : Nat := (z % (2 ^ w : Int)).toNat

/-- The fields of a capability line (R28). -/
structure CapF where
  base : Nat
  ext0 : Nat
  ext1 : Nat
  ext2 : Nat
  ext3 : Nat
  sd0  : Int
  sd1  : Int
  sd2  : Int
  sd3  : Int
  fmt  : Nat
  rank : Nat
  perm : Nat
  life : Nat
  gen  : Nat
  seal_ : Nat
  cmpt : Nat
  hlay : Nat
  hswz : Nat
  /-- the reserved bits [511:446] -/
  rsv  : Nat
  deriving DecidableEq, Repr

/-- Reads the fields of a line (R28). -/
def CapF.ofBits (l : Line) : CapF :=
  let n := l.toNat
  { base := bitsOf n 0 64, ext0 := bitsOf n 64 32, ext1 := bitsOf n 96 32, ext2 := bitsOf n 128 32,
    ext3 := bitsOf n 160 32, sd0 := signedOf 40 (bitsOf n 192 40), sd1 := signedOf 40 (bitsOf n 232 40),
    sd2 := signedOf 40 (bitsOf n 272 40), sd3 := signedOf 40 (bitsOf n 312 40), fmt := bitsOf n 352 8,
    rank := bitsOf n 360 3, perm := bitsOf n 363 16, life := bitsOf n 379 3, gen := bitsOf n 382 24,
    seal_ := bitsOf n 406 16, cmpt := bitsOf n 422 16, hlay := bitsOf n 438 3, hswz := bitsOf n 441 5,
    rsv := bitsOf n 446 66 }

/-- The line of the fields (R28). -/
def CapF.toBits (c : CapF) : Line :=
  BitVec.ofNat 512 <|
    c.base % 2 ^ 64 + 2 ^ 64 * (c.ext0 % 2 ^ 32) + 2 ^ 96 * (c.ext1 % 2 ^ 32) + 2 ^ 128 * (c.ext2 % 2 ^ 32)
    + 2 ^ 160 * (c.ext3 % 2 ^ 32) + 2 ^ 192 * unsignedOf 40 c.sd0 + 2 ^ 232 * unsignedOf 40 c.sd1
    + 2 ^ 272 * unsignedOf 40 c.sd2 + 2 ^ 312 * unsignedOf 40 c.sd3 + 2 ^ 352 * (c.fmt % 2 ^ 8)
    + 2 ^ 360 * (c.rank % 2 ^ 3) + 2 ^ 363 * (c.perm % 2 ^ 16) + 2 ^ 379 * (c.life % 2 ^ 3)
    + 2 ^ 382 * (c.gen % 2 ^ 24) + 2 ^ 406 * (c.seal_ % 2 ^ 16) + 2 ^ 422 * (c.cmpt % 2 ^ 16)
    + 2 ^ 438 * (c.hlay % 2 ^ 3) + 2 ^ 441 * (c.hswz % 2 ^ 5) + 2 ^ 446 * (c.rsv % 2 ^ 66)

/-- A tagged capability with the given fields. -/
def CapF.reg (c : CapF) : CapReg := { bits := c.toBits, tag := true }

/-- What a geometric derivation writes: an empty view may lie outside the address space, and then has no tag, which R29
never lets hardware set (R41, R129; DESIGN CHOICE, log entry 82). -/
def CapF.derived (c : CapF) : CapReg := { bits := c.toBits, tag := decide (c.base < 2 ^ 57) }

/-- The fields of a capability register. -/
def CapReg.f (c : CapReg) : CapF := CapF.ofBits c.bits

/-- Extent of coordinate `i`. -/
def CapF.ext (c : CapF) : Nat → Nat
  | 0 => c.ext0 | 1 => c.ext1 | 2 => c.ext2 | _ => c.ext3

/-- Stride of coordinate `i`. -/
def CapF.sd (c : CapF) : Nat → Int
  | 0 => c.sd0 | 1 => c.sd1 | 2 => c.sd2 | _ => c.sd3

/-- Coordinate `i`. -/
def Coords.get (k : Coords) : Nat → Int
  | 0 => k.k0 | 1 => k.k1 | 2 => k.k2 | _ => k.k3

/-- Coordinates by position. -/
def Coords.of (f : Nat → Int) : Coords := { k0 := f 0, k1 := f 1, k2 := f 2, k3 := f 3 }

/-- Replaces all extents and strides. -/
def CapF.withShape (c : CapF) (e : Nat → Nat) (d : Nat → Int) : CapF :=
  { c with ext0 := e 0, ext1 := e 1, ext2 := e 2, ext3 := e 3, sd0 := d 0, sd1 := d 1, sd2 := d 2, sd3 := d 3 }

/-- The permissions of R32, by bit. -/
def permLD : Nat := 0
/-- data stores -/
def permST : Nat := 1
/-- capability loads -/
def permLC : Nat := 2
/-- capability stores -/
def permSC : Nat := 3
/-- geometric derivation -/
def permSL : Nat := 4
/-- instruction fetch -/
def permEX : Nat := 5
/-- `ccall` -/
def permCL : Nat := 6
/-- sealing -/
def permSE : Nat := 7
/-- unsealing -/
def permUS : Nat := 8
/-- Barge copies -/
def permCP : Nat := 9
/-- atomics -/
def permAT : Nat := 10
/-- may be kept in shared memory -/
def permGL : Nat := 11
/-- plane staging -/
def permPL : Nat := 12
/-- revisioned regions -/
def permMG : Nat := 13

/-- Holds permission `n`. -/
def CapF.has (c : CapF) (n : Nat) : Bool := c.perm / 2 ^ n % 2 == 1

/-- Holds every permission of a list. -/
def CapF.hasAll (c : CapF) (ps : List Nat) : Bool := ps.all c.has

/-- A permission mask from a list. -/
def permMask (ps : List Nat) : Nat := ps.foldl (fun m n => m ||| 2 ^ n) 0

/-- Element size in bits of a format code (R30); 8 for a code that is not assigned. -/
def fmtBits (f : Nat) : Nat :=
  match f with
  | 0x00 => 8 | 0x01 => 8 | 0x02 => 16 | 0x03 => 32 | 0x04 => 64
  | 0x05 => 8 | 0x06 => 16 | 0x07 => 32 | 0x08 => 64 | 0x09 => 4
  | 0x10 => 32 | 0x11 => 16 | 0x12 => 16 | 0x13 => 8 | 0x14 => 8 | 0x15 => 4 | 0x16 => 8
  | 0x20 => 512 | 0x21 => 32
  | _ => 8

/-- A data format (R30). -/
def fmtIsData (f : Nat) : Bool := f ≤ 0x09 || (0x10 ≤ f && f ≤ 0x16)

/-- Kind of a format: 0 data, 1 capability, 2 code, 3 unassigned (R30). -/
def fmtKind (f : Nat) : Nat := if fmtIsData f then 0 else if f == 0x20 then 1 else if f == 0x21 then 2 else 3

/-- The byte length of an element, a 4-bit one counted as one byte (R29). -/
def fmtBytes (f : Nat) : Nat := if fmtBits f = 4 then 1 else fmtBits f / 8

/-- R34: a capability of lifetime compartment is used only by its compartment. -/
def CapF.usableBy (c : CapF) (cmpt : Nat) : Bool := c.life != 2 || c.cmpt == cmpt

/-- The element offset e of R38. -/
def CapF.offset (c : CapF) (k : Coords) : Int :=
  k.k0 * c.sd0 + k.k1 * c.sd1 + k.k2 * c.sd2 + k.k3 * c.sd3

/-- Coordinates inside the extents (R38). -/
def CapF.inBounds (c : CapF) (k : Coords) : Bool :=
  (0 ≤ k.k0 && k.k0 < c.ext0) && (0 ≤ k.k1 && k.k1 < c.ext1) && (0 ≤ k.k2 && k.k2 < c.ext2)
    && (0 ≤ k.k3 && k.k3 < c.ext3)

/-- The element at coordinates, by the address formula of R38. -/
def CapF.elem (c : CapF) (k : Coords) : Elem :=
  let e := c.offset k
  let sz := fmtBits c.fmt
  if sz = 4 then
    { va := ((c.base : Int) + e / 2).toNat, nib := (e % 2).toNat, bits := 4, coords := k }
  else
    { va := ((c.base : Int) + e * (sz / 8 : Nat)).toNat, nib := 0, bits := sz, coords := k }

/-- The check of R38, in its order: the element, or the cause. `ok` says which formats the instruction accepts. -/
def check (c : CapReg) (cmpt : Nat) (perm : List Nat) (ok : Nat → Bool) (k : Coords) : Except Nat Elem :=
  let f := c.f
  if !c.tag then .error 0x10
  else if !f.inBounds k then .error 0x11
  else if !f.hasAll perm then .error 0x12
  else if !ok f.fmt then .error 0x12
  else if !f.usableBy cmpt then .error 0x12
  else if f.seal_ != 0 then .error 0x14
  else .ok (f.elem k)

/-- A data format of element size `w` (R137). -/
def fmtOfWidth (w : Nat) (f : Nat) : Bool := fmtIsData f && fmtBits f == w

/-- The format of capability lines. -/
def fmtIsLine (f : Nat) : Bool := f == 0x20

/-- Packed coordinates of a coordinate register (R37). -/
def unpack (p : Pack) (x : Word) : Coords :=
  let n := x.toNat
  match p with
  | .one => { k0 := n, k1 := 0, k2 := 0, k3 := 0 }
  | .two => { k0 := bitsOf n 0 32, k1 := bitsOf n 32 32, k2 := 0, k3 := 0 }
  | .four => { k0 := bitsOf n 0 16, k1 := bitsOf n 16 16, k2 := bitsOf n 32 16, k3 := bitsOf n 48 16 }

/-- Displacements of an immediate (R37). -/
def displ (p : Pack) (imm : Imm) : Coords :=
  let n := imm.toNat
  match p with
  | .one => { k0 := signedOf 32 n, k1 := 0, k2 := 0, k3 := 0 }
  | .two => { k0 := signedOf 16 (bitsOf n 0 16), k1 := signedOf 16 (bitsOf n 16 16), k2 := 0, k3 := 0 }
  | .four =>
    { k0 := signedOf 8 (bitsOf n 0 8), k1 := signedOf 8 (bitsOf n 8 8), k2 := signedOf 8 (bitsOf n 16 8),
      k3 := signedOf 8 (bitsOf n 24 8) }

/-- Sum of coordinates. -/
def Coords.add (a b : Coords) : Coords :=
  { k0 := a.k0 + b.k0, k1 := a.k1 + b.k1, k2 := a.k2 + b.k2, k3 := a.k3 + b.k3 }

/-- Coordinates with `i` added to coordinate 0. -/
def Coords.shift (k : Coords) (i : Nat) : Coords := { k with k0 := k.k0 + (i : Int) }

/-! ## Derivations (R40, R128 … R133) -/

/-- The source checks of a geometric derivation (R40): the cause, if one fails. -/
def srcCheck (c : CapReg) (cmpt : Nat) : Option Nat :=
  let f := c.f
  if !c.tag then some 0x10
  else if !f.has permSL || !f.usableBy cmpt then some 0x12
  else if f.seal_ != 0 then some 0x14
  else none

/-- The source checks of `cperm` (R128): tag, R34, seal. -/
def srcCheckPerm (c : CapReg) (cmpt : Nat) : Option Nat :=
  let f := c.f
  if !c.tag then some 0x10
  else if !f.usableBy cmpt then some 0x12
  else if f.seal_ != 0 then some 0x14
  else none

/-- Slice (R129): offsets and counts by coordinate. -/
def CapF.slice (c : CapF) (o n : Nat → Nat) : Except Nat CapF :=
  let bad := (List.range 4).any fun i =>
    if i < c.rank then decide (o i + n i > c.ext i) else o i != 0 || n i != 1
  let e : Int := (o 0 : Int) * c.sd0 + (o 1 : Int) * c.sd1 + (o 2 : Int) * c.sd2 + (o 3 : Int) * c.sd3
  let sz := fmtBits c.fmt
  if bad then .error 0x13
  else if sz = 4 && e % 2 != 0 then .error 0x13
  else .ok { c with base := unsignedOf 64 ((c.base : Int) + e * (sz : Int) / 8), ext0 := n 0, ext1 := n 1, ext2 := n 2,
                    ext3 := n 3 }

/-- Step (R130). -/
def CapF.step (c : CapF) (k factor : Nat) : Except Nat CapF :=
  let sd := (factor : Int) * c.sd k
  if factor = 0 || c.rank ≤ k || sd < -(2 ^ 39) || 2 ^ 39 ≤ sd then .error 0x13
  else .ok (c.withShape (fun i => if i = k then (c.ext k + factor - 1) / factor else c.ext i)
                        (fun i => if i = k then sd else c.sd i))

/-- Transpose (R131). -/
def CapF.trans (c : CapF) (pi : Nat → Nat) : Except Nat CapF :=
  let inside := (List.range 4).all fun i => if i < c.rank then decide (pi i < c.rank) else pi i == i
  let inj := (List.range 4).all fun i => (List.range 4).all fun j =>
    i == j || !(decide (i < c.rank) && decide (j < c.rank)) || pi i != pi j
  if inside && inj then
    .ok (c.withShape (fun i => if i < c.rank then c.ext (pi i) else c.ext i)
                     (fun i => if i < c.rank then c.sd (pi i) else c.sd i))
  else .error 0x13

/-- Fix (R132). -/
def CapF.fix (c : CapF) (k o : Nat) : Except Nat CapF :=
  let sz := fmtBits c.fmt
  let e : Int := (o : Int) * c.sd k
  if c.rank ≤ k || c.ext k ≤ o || c.rank = 1 || (sz = 4 && e % 2 != 0) then .error 0x13
  else
    let c' := c.withShape (fun i => if i < k then c.ext i else if i < 3 then c.ext (i + 1) else 1)
                          (fun i => if i < k then c.sd i else if i < 3 then c.sd (i + 1) else 0)
    .ok { c' with base := unsignedOf 64 ((c.base : Int) + e * (sz : Int) / 8), rank := c.rank - 1 }

/-- `cperm` (R133), after its source checks. -/
def CapF.restrict (c : CapF) (imm : Imm) : Except Nat CapF :=
  let v := imm.toNat
  let c1 := { c with perm := c.perm &&& bitsOf v 0 16 }
  let l := bitsOf v 16 3
  let lifeBad := bitsOf v 19 1 == 1 && (decide (l > c.life) || l == 4 || c.life == 4 || l == 6 || l == 7)
  let c2 := if bitsOf v 19 1 == 1 then { c1 with life := l } else c1
  let f := bitsOf v 20 8
  let fmtBad := bitsOf v 28 1 == 1
    && (f == 0x20 || f == 0x21 || c.fmt == 0x20 || c.fmt == 0x21 || fmtBits f != fmtBits c.fmt)
  let c3 := if bitsOf v 28 1 == 1 then { c2 with fmt := f } else c2
  if lifeBad then .error 0x13
  else if fmtBad then .error 0x13
  else if bitsOf v 29 1 == 1 then .ok { c3 with hlay := bitsOf v 20 3, hswz := bitsOf v 23 5 }
  else .ok c3

/-- The footprint of R252: the lowest and the highest byte, none when some extent is 0. -/
def CapF.footprint (c : CapF) : Option (Nat × Nat) :=
  if c.ext0 = 0 || c.ext1 = 0 || c.ext2 = 0 || c.ext3 = 0 then none
  else
    let lo (i : Nat) : Int := min 0 (((c.ext i : Int) - 1) * c.sd i)
    let hi (i : Nat) : Int := max 0 (((c.ext i : Int) - 1) * c.sd i)
    let emin := lo 0 + lo 1 + lo 2 + lo 3
    let emax := hi 0 + hi 1 + hi 2 + hi 3
    let sz := fmtBits c.fmt
    let b : Int := c.base
    if sz = 4 then some ((b + emin / 2).toNat, (b + emax / 2).toNat)
    else some ((b + emin * (sz / 8 : Nat)).toNat, (b + (emax + 1) * (sz / 8 : Nat) - 1).toNat)

/-- The rank of a lifetime for the capability-store rule: heap ranks with world (R43). -/
def lifeRank (l : Nat) : Nat := if l = 4 then 3 else l

end Sys2Proof.Machine
end

