-- ==== Sys2Proof/Machine/Mem.lean ====
section
/-!
DEFINITION. Memory: the places a byte can be, the one list of bytes that holds them all, the tag of each line (R45) and
the nibbles with an uncorrectable error (R47, R139).
-/

namespace Sys2Proof.Machine

/-- A place outside the cores' registers: an address space and an offset in it. -/
inductive Space where
  /-- device memory, by physical address (R330) -/
  | dev
  /-- host memory, by host physical address -/
  | host
  /-- memory of a peer package -/
  | peer (pkg : Nat)
  /-- the scratchpad of a core (R278) -/
  | spad (core : Nat)
  /-- the mint aperture of a world (R347) -/
  | mint (world : Nat)
  deriving DecidableEq, Repr

/-- The number of a space. -/
def Space.num : Space → Nat
  | .dev => 0
  | .host => 1
  | .peer p => 16 + p % 256
  | .spad c => 512 + c % 512
  | .mint w => 1024 + w % 256

/-- The key of a byte. -/
def memKey (sp : Space) (off : Nat) : Nat := sp.num * 2 ^ 64 + off % 2 ^ 64

/-- What a byte that nothing has written reads as: the spec gives none for power-on, and gives zeros for chunks handed
to a world (R341), named areas (R280) and woken banks (R292); the model reads zero everywhere (DESIGN CHOICE, log entry 3). -/
def memDefault : Byte := 0

/-- Memory is the sparse map of its bytes. -/
abbrev Memory := List Host.Cell

/-- The canonical form of memory. -/
def Memory.wf (m : Memory) : Bool := SMap.wf memDefault m

/-- Reads one byte. -/
def Memory.get (m : Memory) (k : Nat) : Byte := SMap.look memDefault m k

/-- Writes one byte. -/
def Memory.set (m : Memory) (k : Nat) (b : Byte) : Memory := SMap.put memDefault m k b

/-- Writes bytes from a key on. -/
def Memory.setBytes (m : Memory) (k : Nat) : List Byte → Memory
  | [] => m
  | b :: bs => (m.set k b).setBytes (k + 1) bs

/-- Reads `n` bytes from a key on, lowest first. -/
def Memory.getBytes (m : Memory) (k n : Nat) : List Byte := (List.range n).map fun j => m.get (k + j)

/-- The number that bytes spell, lowest first (R5: little-endian). -/
def leNum (bs : List Byte) : Nat := bs.foldr (fun b n => b.toNat + 256 * n) 0

/-- `n` bytes of a number, lowest first. -/
def leBytes (n v : Nat) : List Byte := (List.range n).map fun j => BitVec.ofNat 8 (v / 2 ^ (8 * j))

/-- Reads a number of `n` bytes. -/
def Memory.num (m : Memory) (k n : Nat) : Nat := leNum (m.getBytes k n)

/-- The key of the line of a key. -/
def lineKey (k : Nat) : Nat := k / 64

/-- One byte of memory. -/
def State.byte (s : State) (k : Nat) : Byte := Memory.get s.mem k

/-- The tag of the line that holds a key. -/
def State.tagAt (s : State) (k : Nat) : Bool := SMap.look false s.tags (lineKey k)

/-- The line that holds a key, with its tag (R6 `Mem.line`). -/
def State.lineAt (s : State) (k : Nat) : CapReg :=
  { bits := BitVec.ofNat 512 (Memory.num s.mem (64 * lineKey k) 64), tag := s.tagAt k }

/-- Whether one of `n` nibbles from a nibble key on has an uncorrectable error. -/
def State.poisoned (s : State) (k n : Nat) : Bool := (List.range n).any fun j => SMap.look false s.poison (k + j)

/-- Removes the errors of `n` nibbles (R139: written parts replace theirs). -/
def clearPoison (p : SMap Bool) (k n : Nat) : SMap Bool :=
  if p = [] then [] else (List.range n).foldl (fun q j => SMap.put false q (k + j) false) p

/-- Writes bytes of one line as data: the line's tag clears (R44). -/
def State.putData (s : State) (k : Nat) (bs : List Byte) : State :=
  { s with mem := Memory.setBytes s.mem k bs, tags := SMap.put false s.tags (lineKey k) false,
           poison := clearPoison s.poison (2 * k) (2 * bs.length) }

/-- Writes a whole line with its tag. -/
def State.putLine (s : State) (k : Nat) (v : CapReg) : State :=
  { s with mem := Memory.setBytes s.mem (64 * lineKey k) (leBytes 64 v.bits.toNat),
           tags := SMap.put false s.tags (lineKey k) v.tag,
           poison := clearPoison s.poison (128 * lineKey k) 128 }

/-- Moves a line between copies: errors stay where they are. -/
def State.moveLine (s : State) (lk : Nat) (v : CapReg) : State :=
  { s with mem := Memory.setBytes s.mem (64 * lk) (leBytes 64 v.bits.toNat), tags := SMap.put false s.tags lk v.tag }

/-- Writes one nibble as data (R301): the other nibble of the byte keeps its value. -/
def State.putNibble (s : State) (k nib : Nat) (v : Nat) : State :=
  let b := (s.byte k).toNat
  let b' := if nib = 0 then b / 16 * 16 + v % 16 else b % 16 + 16 * (v % 16)
  { s with mem := Memory.set s.mem k (BitVec.ofNat 8 b'), tags := SMap.put false s.tags (lineKey k) false,
           poison := clearPoison s.poison (2 * k + nib) 1 }

/-- Clears a byte range and its tags without writing back, as a bulk clear does (R46, R280, R341). -/
def State.zeroRange (s : State) (k n : Nat) : State :=
  { s with mem := s.mem.filter (fun c => !(decide (k ≤ c.1) && decide (c.1 < k + n))),
           tags := s.tags.filter (fun c => !(decide (lineKey k ≤ c.1) && decide (64 * c.1 < k + n))),
           poison := s.poison.filter (fun c => !(decide (2 * k ≤ c.1) && decide (c.1 < 2 * (k + n)))) }

/-- The part of a number of `bits` bits that an element's place holds. -/
def State.elemAt (s : State) (k nib bits : Nat) : Nat :=
  if bits = 4 then (s.byte k).toNat / 16 ^ nib % 16 else Memory.num s.mem k (bits / 8)

/-- Writes an element as data. -/
def State.putElem (s : State) (k nib bits v : Nat) : State :=
  if bits = 4 then s.putNibble k nib v else s.putData k (leBytes (bits / 8) v)

/-- An element meets an uncorrectable error. -/
def State.elemPoisoned (s : State) (k nib bits : Nat) : Bool :=
  if bits = 4 then s.poisoned (2 * k + nib) 1 else s.poisoned (2 * k) (bits / 4)

end Sys2Proof.Machine
end

