-- ==== Sys2Proof/Machine/Operands.lean ====
section
/-!
DEFINITION. Operands: slots and cores of the state, register reads and writes (R8 … R11), guards (R91), coordinates
(R37), and the integer helpers of R107.
-/

namespace Sys2Proof.Machine

/-! ## Parts of the state -/

/-- Core `c`. -/
def State.coreAt (s : State) (c : Nat) : Core := SMap.look Core.reset s.cores c

/-- Replaces core `c`. -/
def State.setCore (s : State) (c : Nat) (k : Core) : State := { s with cores := SMap.put Core.reset s.cores c k }

/-- Changes core `c`. -/
def State.updCore (s : State) (c : Nat) (f : Core → Core) : State := s.setCore c (f (s.coreAt c))

/-- The slot with key 4·core + slot. -/
def State.slotAt (s : State) (k : Nat) : Slot := SMap.look Slot.reset (s.coreAt (k / 4)).slots (k % 4)

/-- Replaces a slot. -/
def State.setSlot (s : State) (k : Nat) (sl : Slot) : State :=
  s.updCore (k / 4) fun c => { c with slots := SMap.put Slot.reset c.slots (k % 4) sl }

/-- Changes a slot. -/
def State.updSlot (s : State) (k : Nat) (f : Slot → Slot) : State := s.setSlot k (f (s.slotAt k))

/-- The slot that issues. -/
def State.sl (s : State) : Slot := s.slotAt s.cur

/-- The core of the slot that issues. -/
def State.core (s : State) : Core := s.coreAt (s.cur / 4)

/-- Changes the slot that issues. -/
def State.updSl (s : State) (f : Slot → Slot) : State := s.updSlot s.cur f

/-- Changes the core of the slot that issues. -/
def State.updMyCore (s : State) (f : Core → Core) : State := s.updCore (s.cur / 4) f

/-- World `w`. -/
def State.worldAt (s : State) (w : Nat) : World := SMap.look World.reset s.worlds w
/-- Changes a world. -/
def State.updWorld (s : State) (w : Nat) (f : World → World) : State :=
  { s with worlds := SMap.upd World.reset s.worlds w f }
/-- Partition `p`. -/
def State.partAt (s : State) (p : Nat) : Part := SMap.look Part.reset s.parts p
/-- Changes a partition. -/
def State.updPart (s : State) (p : Nat) (f : Part → Part) : State := { s with parts := SMap.upd Part.reset s.parts p f }
/-- Grid `g`. -/
def State.gridAt (s : State) (g : Nat) : Grid := SMap.look Grid.reset s.grids g
/-- Changes a grid. -/
def State.updGrid (s : State) (g : Nat) (f : Grid → Grid) : State := { s with grids := SMap.upd Grid.reset s.grids g f }
/-- Team `t`. -/
def State.teamAt (s : State) (t : Nat) : Team := SMap.look Team.reset s.teams t
/-- Changes a team. -/
def State.updTeam (s : State) (t : Nat) (f : Team → Team) : State := { s with teams := SMap.upd Team.reset s.teams t f }
/-- Revision `r`. -/
def State.revAt (s : State) (r : Nat) : Revision := SMap.look Revision.reset s.revs r
/-- Changes a revision. -/
def State.updRev (s : State) (r : Nat) (f : Revision → Revision) : State :=
  { s with revs := SMap.upd Revision.reset s.revs r f }
/-- Coherence state of a device line. -/
def State.cohAt (s : State) (l : Nat) : LineCoh := SMap.look LineCoh.reset s.coh l
/-- Changes the coherence state of a line. -/
def State.updCoh (s : State) (l : Nat) (f : LineCoh → LineCoh) : State :=
  { s with coh := SMap.upd LineCoh.reset s.coh l f }
/-- Slice `n`. -/
def State.sliceAt (s : State) (n : Nat) : Slice := SMap.look Slice.reset s.slices n
/-- Changes a slice. -/
def State.updSlice (s : State) (n : Nat) (f : Slice → Slice) : State :=
  { s with slices := SMap.upd Slice.reset s.slices n f }
/-- Team-relative core `c` of a team. -/
def Team.core (t : Team) (c : Nat) : TCore := SMap.look TCore.reset t.tc c
/-- Changes a team-relative core. -/
def State.updTC (s : State) (t c : Nat) (f : TCore → TCore) : State :=
  s.updTeam t fun x => { x with tc := SMap.upd TCore.reset x.tc c f }

/-- The cycle in which a core's clock stands: the present one unless the clock is stopped (R376). -/
def State.coreNow (s : State) (core : Nat) : Nat := (s.coreAt core).stopped.getD s.now

/-- The commit window of a slot has expired (R203, R240). -/
def State.expired (s : State) (key : Nat) : Bool :=
  match (s.slotAt key).committed with
  | some c => decide (c + 65536 ≤ s.coreNow (key / 4))
  | none => false

/-- What wins over every fault and issue of a slot (R237 rows 2 and 3): a pre-emption that is requested of an uncommitted
activation, and a commit window that has expired. -/
def State.overtaken (s : State) (key : Nat) : Bool :=
  let sl := s.slotAt key
  (sl.preempt && sl.committed.isNone) || s.expired key

/-- Puts an event before the outside's next one, in place of it: two that fall into one cycle change places. -/
def State.swapHead (s : State) (i : Instr) : State := { s with script := i :: s.script.tail }

/-- An outside write completes: with an unsupported-request status where it was dropped (R340, R365). -/
def State.answered (s : State) (ok : Bool) : State := { s with unsupported := !ok }

/-- The device takes more than a fetch over the management port: some slot holds a bundle that may boot (R375). -/
def State.accepts (s : State) : Bool :=
  let ok (b : Bundle) : Bool := b.valid && decide (s.fw.minver ≤ b.version)
  ok s.fw.slotA || ok s.fw.slotB

/-- A number no one has drawn yet, and the state that has drawn it. -/
def State.draw (s : State) : Nat × State := (s.fresh, { s with fresh := s.fresh + 1 })

/-! ## Registers (R8, R10, R24) -/

/-- Reads an x register; x0 reads zero. -/
def Slot.xr (sl : Slot) (r : XReg) : Word := if r = 0 then 0 else SMap.look 0 sl.x r.val

/-- Reads a v register. -/
def Slot.vr (sl : Slot) (r : VReg) : Line := SMap.look 0 sl.v r.val

/-- Reads a c register; c0 is the null capability. -/
def Slot.cr (sl : Slot) (r : CReg) : CapReg := if r = 0 then CapReg.null else SMap.look CapReg.null sl.c r.val

/-- Reads a p register; p0 reads all ones. -/
def Slot.pr (sl : Slot) (r : PReg) : BitVec 16 := if r = 0 then 0xFFFF else SMap.look 0 sl.p r.val

/-- An owed entry that names a register loses it: nothing waits for it any more and its value is dropped; its flags and
its fault stay (R10, R24 rules 6 and 7; DEDUCED, log entry 55). -/
def Owed.drop (r : RegRef) (o : Owed) : Owed :=
  if o.dest = some r then { o with dest := none, live := false } else o

/-- A deferred result whose destination is written is discarded on return (R147). -/
def Defer.drop (r : RegRef) (d : Defer) : Defer := if d.dest = some r then { d with stale := true } else d

/-- A write of a register cancels its owing (R24 rule 6). -/
def Slot.cancel (sl : Slot) (r : RegRef) : Slot :=
  { sl with owed := sl.owed.map (Owed.drop r), deferred := sl.deferred.map (Defer.drop r) }

/-- Writes an x register as a class-0 result; a write of x0 is discarded. -/
def Slot.setX (sl : Slot) (r : XReg) (w : Word) : Slot :=
  if r = 0 then sl else { sl.cancel (.x r.val) with x := SMap.put 0 sl.x r.val w }

/-- Writes a v register as a class-0 result. -/
def Slot.setV (sl : Slot) (r : VReg) (l : Line) : Slot :=
  { sl.cancel (.v r.val) with v := SMap.put 0 sl.v r.val l }

/-- Writes a c register as a class-0 result; a write of c0 is discarded. -/
def Slot.setC (sl : Slot) (r : CReg) (c : CapReg) : Slot :=
  if r = 0 then sl else { sl.cancel (.c r.val) with c := SMap.put CapReg.null sl.c r.val c }

/-- Writes a p register; a write of p0 is discarded. -/
def Slot.setP (sl : Slot) (r : PReg) (b : BitVec 16) : Slot :=
  if r = 0 then sl else { sl with p := SMap.put 0 sl.p r.val b }

/-- Adds flags to the slot's `fflags` (R13). -/
def Slot.orFlags (sl : Slot) (f : Nat) : Slot := { sl with fflags := sl.fflags ||| BitVec.ofNat 64 (f % 32) }

/-- Bit `i` of a predicate. -/
def pbit (b : BitVec 16) (i : Nat) : Bool := b.toNat / 2 ^ i % 2 == 1

/-- The scalar guard (R91): bit 0 of P[GP], negated when GN is 1. -/
def Slot.guard (sl : Slot) (g : Ctl) : Bool := pbit (sl.pr g.gp) 0 != g.gn

/-- The guard of bit `j` of a vector instruction's predicate (R91). -/
def Slot.bitGuard (sl : Slot) (g : Ctl) (j : Nat) : Bool := pbit (sl.pr g.gp) j != g.gn

/-- The guard of element `i` at width `w` (R11, R151). -/
def Slot.laneGuard (sl : Slot) (g : Ctl) (w i : Nat) : Bool := sl.bitGuard g (i * w / 32)

/-- A selecting predicate at bit `j` (R112, R165). -/
def Slot.selBit (sl : Slot) (p : PSel) (j : Nat) : Bool := pbit (sl.pr p.p) j != p.neg

/-- The code address of an offset in the current object (R105, R106): object number above, offset below. -/
def Slot.codeAddr (sl : Slot) (off : Int) : Word := BitVec.ofNat 64 (sl.obj * 2 ^ 32 + unsignedOf 32 off)

/-- The code address of the instruction that issues. -/
def Slot.here (sl : Slot) : Word := sl.codeAddr sl.pc

/-- The effective coordinates of a memory operand (R37). -/
def Slot.coords (sl : Slot) (m : MemOp) : Coords := (unpack m.pack (sl.xr m.x)).add (displ m.pack m.disp)

/-- The effective coordinates of a memory operand without displacements. -/
def Slot.coordsR (sl : Slot) (m : MemReg) : Coords := unpack m.pack (sl.xr m.x)

/-! ## Integer helpers (R107) -/

/-- `val(z)`: the low bits of a value read by the type's signedness. -/
def val (t : IType) (z : Nat) : Int := if t.signed then signedOf t.width z else ((z % 2 ^ t.width : Nat) : Int)

/-- `uval(z)`. -/
def uval (t : IType) (z : Nat) : Nat := z % 2 ^ t.width

/-- `ext(r)`: narrowed to the width, then extended to 64 bits. -/
def ext (t : IType) (r : Int) : Word :=
  if t.signed then BitVec.ofInt 64 (signedOf t.width (unsignedOf t.width r))
  else BitVec.ofNat 64 (unsignedOf t.width r)

/-- `imm`: IMM extended by form SX (R94). -/
def immSX (t : IType) (i : Imm) : Word :=
  if t.signed then BitVec.ofInt 64 (signedOf 32 i.toNat) else BitVec.ofNat 64 i.toNat

/-! ## Vector elements (R11) -/

/-- Element `i` of width `w`. -/
def lane (w i : Nat) (l : Line) : Nat := l.toNat / 2 ^ (w * i) % 2 ^ w

/-- The line whose `n` elements of width `w` are given; positions above are zero. -/
def lanes (w n : Nat) (f : Nat → Nat) : Line :=
  BitVec.ofNat 512 ((List.range n).foldr (fun i acc => acc + 2 ^ (w * i) * (f i % 2 ^ w)) 0)

/-- Replaces one element. -/
def setLane (w i v : Nat) (l : Line) : Line :=
  lanes w (512 / w) fun j => if j = i then v else lane w j l

/-- Width of a type of Ta, 4 for s4 and e2m1 (R137). -/
def eWidth : EType → Nat
  | .s8 => 8 | .s16 => 16 | .s32 => 32 | .s64 => 64 | .z8 => 8 | .z16 => 16 | .z32 => 32 | .z64 => 64
  | .f32 => 32 | .bf16 => 16 | .f16 => 16 | .e4m3 => 8 | .e5m2 => 8 | .e2m1 => 4 | .s4 => 4 | .e3m5 => 8

/-- An operand field: class, modifier, register (R90). -/
def dField (cls mod_ r : Nat) : Nat := 512 * cls + 64 * mod_ + r

/-! ## Identity (R2, R15) -/

/-- A stripe set's line in the control block (R365): member count, and the package number of member k. -/
def State.stripeSet (s : State) (part n : Nat) : Nat × (Nat → Nat) :=
  let v := (SMap.look 0 (s.partAt part).stripe n).toNat
  (bitsOf v 0 4, fun k => bitsOf v (64 + 8 * k) 8)

/-- The index of this package among the members of a stripe set. -/
def State.memberOf (s : State) (part n : Nat) : Option Nat :=
  let st := s.stripeSet part n
  (List.range (min 8 st.1)).find? fun k => st.2 k == s.pkg

/-- The member index of this package in the lowest-numbered stripe set of a partition that lists it, 0 when none does
(R15; DESIGN CHOICE, log entry 76). -/
def State.memberIndex (s : State) (part : Nat) : Nat := ((List.range 16).findSome? (s.memberOf part)).getD 0

/-- `coreid` (R15): member index above the package-wide core number. -/
def State.coreid (s : State) (core part : Nat) : Word := BitVec.ofNat 64 (s.memberIndex part % 8 * 512 + core % 512)

/-- The cluster, quadrant, die and row of a core (R2). -/
def clusterOf (core : Nat) : Nat := core / 16
/-- the quadrant -/
def quadOf (core : Nat) : Nat := core / 64
/-- the die -/
def dieOf (core : Nat) : Nat := core / 256
/-- the package-wide row -/
def rowOf (core : Nat) : Nat := core / 4

/-- The live OR of the `fflags` of a cluster's 64 slots (R13, R224). -/
def State.clFlags (s : State) (cluster : Nat) : Word :=
  (List.range 64).foldl (fun w j => w ||| (s.slotAt (64 * cluster + j)).fflags) 0

end Sys2Proof.Machine
end

