-- ==== Sys2Proof/Machine/Flags.lean ====
section
/-!
DEFINITION. Flags and conditions: the floating-point flag bits of R13, the conditions of compares (R116, R166), and
the predicates compares and logic write (R116, R117).
-/

namespace Sys2Proof.Machine

/-- NX, inexact (R13). -/
def flagNX : Nat := 1
/-- UF, underflow. -/
def flagUF : Nat := 2
/-- OF, overflow. -/
def flagOF : Nat := 4
/-- DZ, division by zero. -/
def flagDZ : Nat := 8
/-- NV, invalid operation. -/
def flagNV : Nat := 16

/-- An integer condition (R90, R116). -/
def iHolds (k : ICond) (a b : Int) : Bool :=
  match k with
  | .eq => decide (a = b)
  | .ne => decide (a ≠ b)
  | .lt => decide (a < b)
  | .le => decide (a ≤ b)
  | .gt => decide (a > b)
  | .ge => decide (a ≥ b)

/-- An equality condition (R116). -/
def eqHolds (k : EqCond) (same : Bool) : Bool :=
  match k with
  | .eq => same
  | .ne => !same

/-- Sixteen bits alike (R116). -/
def allBits (t : Bool) : BitVec 16 := if t then 0xFFFF else 0x0000

/-- Predicate logic (R117). -/
def pApply (k : PLogic) (a b : BitVec 16) : BitVec 16 :=
  match k with
  | .and => a &&& b
  | .or => a ||| b
  | .xor => a ^^^ b
  | .andn => a &&& ~~~b
  | .orn => a ||| ~~~b
  | .xnor => ~~~(a ^^^ b)

/-- A predicate from its bits. -/
def predOf (f : Nat → Bool) : BitVec 16 :=
  BitVec.ofNat 16 ((List.range 16).foldl (fun n j => n + (f j).toNat * 2 ^ j) 0)

/-- Reserved bits of `frm` read zero and ignore writes; a reserved mode is refused (R12). -/
def frmOf (w : Word) : Option Word := if w.toNat % 8 ≤ 4 then some (BitVec.ofNat 64 (w.toNat % 8)) else none

/-- Reserved bits of `fflags` read zero and ignore writes (R13). -/
def fflagsOf (w : Word) : Word := BitVec.ofNat 64 (w.toNat % 32)

/-- The mode held by `frm` (R12); it never holds a reserved mode. -/
def modeOf (w : Word) : RMode :=
  match w.toNat % 8 with
  | 0 => .rne
  | 1 => .rtz
  | 2 => .rdn
  | 3 => .rup
  | _ => .rna

/-- The rounding mode an instruction takes (R155). -/
def Slot.rmode (sl : Slot) : RSel → RMode
  | .frm => modeOf sl.frm
  | .mode r => r

end Sys2Proof.Machine
end

