-- ==== Sys2Proof/Machine/Teams.lean ====
section
/-!
DEFINITION. Records (R249), counters of the Sieve (R227), dependence counters, ready rings, pools and deques
(R253 … R256), and where a team's cores stand (R248).
-/

namespace Sys2Proof.Machine

/-! ## Fields of a record's data line (R249) -/

/-- Scalar argument `i`. -/
def Rec.arg (r : Rec) (i : Nat) : Word := BitVec.ofNat 64 (bitsOf r.data.toNat (256 + 64 * i) 64)
/-- gx, or DX of a launch record -/
def Rec.gx (r : Rec) : Nat := bitsOf r.data.toNat 160 32
/-- gy, or DY -/
def Rec.gy (r : Rec) : Nat := bitsOf r.data.toNat 192 32
/-- gz, or DZ -/
def Rec.gz (r : Rec) : Nat := bitsOf r.data.toNat 224 32
/-- team index -/
def Rec.team (r : Rec) : Nat := bitsOf r.data.toNat 144 16
/-- block width -/
def Rec.bx (r : Rec) : Nat := bitsOf r.data.toNat 120 8
/-- block height -/
def Rec.by_ (r : Rec) : Nat := bitsOf r.data.toNat 128 8
/-- block depth -/
def Rec.bz (r : Rec) : Nat := bitsOf r.data.toNat 136 8
/-- dependence count -/
def Rec.depn (r : Rec) : Nat := bitsOf r.data.toNat 104 16
/-- counter the record waits on -/
def Rec.didx (r : Rec) : Nat := bitsOf r.data.toNat 98 6
/-- join counter index -/
def Rec.jidx (r : Rec) : Nat := bitsOf r.data.toNat 92 6
/-- team core of the join counter -/
def Rec.jcore (r : Rec) : Nat := bitsOf r.data.toNat 88 4
/-- the record names a join counter -/
def Rec.jv (r : Rec) : Bool := bitsOf r.data.toNat 87 1 == 1
/-- counter window base -/
def Rec.cwb (r : Rec) : Nat := bitsOf r.data.toNat 81 6
/-- completion mode -/
def Rec.cmode (r : Rec) : Nat := bitsOf r.data.toNat 79 2
/-- capability arguments -/
def Rec.ncap (r : Rec) : Nat := bitsOf r.data.toNat 76 3
/-- placement core -/
def Rec.plc (r : Rec) : Nat := bitsOf r.data.toNat 72 4
/-- stage -/
def Rec.stg (r : Rec) : Nat := bitsOf r.data.toNat 69 3
/-- priority -/
def Rec.prio (r : Rec) : Nat := bitsOf r.data.toNat 67 2
/-- code address of the kernel entry -/
def Rec.code (r : Rec) : Nat := bitsOf r.data.toNat 0 64

/-- Capability line `j` of a record, 1 … 4; a missing line gives the null capability (R16). -/
def Rec.cap (r : Rec) (j : Nat) : CapReg := r.caps.getD (j - 1) CapReg.null

/-! ## Counters (R227) -/

/-- The key of a counter: kind, unit, number. -/
def perfKey (kind unit n : Nat) : Nat := kind * 2 ^ 20 + unit * 2 ^ 10 + n

/-- Adds to a counter, modulo 2^64. -/
def State.count (s : State) (kind unit n by_ : Nat) : State :=
  { s with perf := SMap.upd 0 s.perf (perfKey kind unit n) fun w => w + BitVec.ofNat 64 by_ }

/-- The value of a counter; counter 0 of a core is the cycles since the start less those its clock stood still. -/
def State.counter (s : State) (kind unit n : Nat) : Word :=
  if kind = 0 ∧ n = 0 then BitVec.ofNat 64 (s.coreNow unit - (s.coreAt unit).lost)
  else SMap.look 0 s.perf (perfKey kind unit n)

/-- Whether R227 assigns a counter number. -/
def counterAssigned (kind n : Nat) : Bool :=
  match kind with
  | 0 => n ≤ 6
  | 1 => n ≤ 2
  | 2 => n ≤ 3
  | _ => n ≤ 3

/-- Units of a kind (R226). -/
def counterUnits (kind : Nat) : Nat :=
  match kind with
  | 0 => 512
  | 1 => 32
  | 2 => 128
  | _ => 32

/-! ## Team cores (R248) -/

/-- The package-wide core number of team-relative core `c`. -/
def Team.coreNo (t : Team) (c : Nat) : Nat := 4 * t.rows.getD (c / 4) 0 + c % 4

/-- A team holds rows. -/
def Team.isResident (t : Team) : Bool :=
  match t.st with
  | .resident _ => true
  | .leaving _ _ => true
  | _ => false

/-- Cluster whose counters count a team core's operations (R227). -/
def Team.clusterNo (t : Team) : Nat := t.rows.getD 0 0 / 4

/-- The stage a row of the team serves. -/
def Team.stageOf (t : Team) (row : Nat) : Nat := SMap.look 0 t.stages row

/-- Rows of the team. -/
def Team.nrows (t : Team) : Nat := t.cores / 4

/-- A row does not serve when it holds a core that is out of service: such a core counts as serving no stage (R242). -/
def State.rowServes (s : State) (t : Team) (c stage : Nat) : Bool :=
  t.stageOf (c / 4) == stage && !(t.isResident && (s.coreAt (t.coreNo c)).oos)

/-- The core R260 sends a record of a stage to: core `c` itself, else the same column of the next row that serves it. -/
def State.routeCore (s : State) (t : Team) (c stage : Nat) : Option Nat :=
  ((List.range t.nrows).map fun i => 4 * ((c / 4 + i) % t.nrows) + c % 4).find? fun c' => s.rowServes t c' stage

/-- A free pool slot of a team core, the lowest (R253). -/
def TCore.freeSlot (tc : TCore) : Option Nat := (List.range 48).find? fun k => !(tc.pool.keys.contains k)

/-- Puts an entry into a pool slot. -/
def TCore.setPool (tc : TCore) (k : Nat) (e : PoolEntry) : TCore :=
  { tc with pool := SMap.ins (tc.pool.erase k) k e }

/-- The entry in a pool slot. -/
def TCore.poolAt (tc : TCore) (k : Nat) : PoolEntry := SMap.look PoolEntry.empty tc.pool k

/-- Frees a pool slot. -/
def TCore.freePool (tc : TCore) (k : Nat) : TCore := { tc with pool := tc.pool.erase k }

/-- Counter `n` of a team core. -/
def TCore.counter (tc : TCore) (n : Nat) : Counter := SMap.look Counter.reset tc.ctr n

/-- Changes a counter. -/
def TCore.updCtr (tc : TCore) (n : Nat) (f : Counter → Counter) : TCore :=
  { tc with ctr := SMap.upd Counter.reset tc.ctr n f }

/-- Pushes a pool slot onto a ready ring (64 entries, first in, first out), counting it (R227). -/
def State.ringPush (s : State) (t c slot : Nat) : State :=
  (s.updTC t c fun x => { x with ring := x.ring ++ [slot] }).count 1 (s.teamAt t).clusterNo 0 1

/-- The ring of a team core has room. -/
def TCore.ringRoom (tc : TCore) : Bool := decide (tc.ring.length < 64)

/-- Inserts a number into a rising list, once. -/
def insertRising (n : Nat) : List Nat → List Nat
  | [] => [n]
  | m :: t => if n = m then m :: t else if n < m then n :: m :: t else m :: insertRising n t

/-- The bytes of a dependence-counter line (R254). -/
def Counter.line (k : Counter) : Line :=
  BitVec.ofNat 512 (k.count.toNat + 2 ^ 64 * k.rslot + 2 ^ 72 * k.rv.toNat)

/-- Places a record whose stage decides its core (R260): with no serving row it waits in the stage queue, which holds
64; none when the pool, the ring or the queue is full. -/
def State.placeReady (s : State) (t c : Nat) (e : PoolEntry) : Option State :=
  let tm := s.teamAt t
  match s.routeCore tm c e.record.stg with
  | some c' =>
    let tc := tm.core c'
    match tc.freeSlot with
    | some k => if tc.ringRoom then some ((s.updTC t c' fun x => x.setPool k e).ringPush t c' k) else none
    | none => none
  | none =>
    let q := SMap.look [] tm.stageQ e.record.stg
    if q.length < 64 then some (s.updTeam t fun x => { x with stageQ := SMap.put [] x.stageQ e.record.stg (q ++ [e]) })
    else none

/-- A counter that has reached 0 while a record waits pushes it, or holds the push while the ring is full or the team
is swapped out (R255, R265). A record of a core that is out of service goes where R260 sends it (R242). -/
def State.wake (s : State) (t c n : Nat) : State :=
  let tc := (s.teamAt t).core c
  let k := tc.counter n
  if !k.rv then s
  else if !(s.teamAt t).isResident then s.updTC t c fun x => { x with held := insertRising n x.held }
  else if (s.coreAt ((s.teamAt t).coreNo c)).oos then
    let s1 := s.updTC t c fun x => (x.updCtr n fun y => { y with rv := false }).freePool k.rslot
    (s1.placeReady t c (tc.poolAt k.rslot)).getD (s.updTC t c fun x => { x with held := insertRising n x.held })
  else if tc.ringRoom then (s.updTC t c fun x => x.updCtr n fun y => { y with rv := false }).ringPush t c k.rslot
  else s.updTC t c fun x => { x with held := insertRising n x.held }

/-- Decrements a dependence counter (R211). -/
def State.decCounter (s : State) (t c n amount part : Nat) : State :=
  let old := (((s.teamAt t).core c).counter n).count.toNat
  if old = 0 then s.count 3 part 2 1
  else
    let s1 := s.updTC t c fun x => x.updCtr n fun y => { y with count := BitVec.ofNat 64 (old - amount) }
    if old ≤ amount then s1.wake t c n else s1

/-- Increments a dependence counter (R255, R256). -/
def State.incCounter (s : State) (t c n amount : Nat) : State :=
  s.updTC t c fun x => x.updCtr n fun y => { y with count := y.count + BitVec.ofNat 64 amount }

/-- Places a record that a program or the scheduler gives a team at a core (R255, R260): one whose dependences are still
to be registered takes a counter of the core that gets it; none when there is no room or the counter has a record. -/
def State.placeNew (s : State) (t c : Nat) (e : PoolEntry) : Option State :=
  let tm := s.teamAt t
  match s.routeCore tm c e.record.stg with
  | none => s.placeReady t c e
  | some c' =>
    if e.dep then
      let tc := tm.core c'
      let n := e.record.didx
      match tc.freeSlot with
      | some k =>
        if (tc.counter n).rv then none
        else some (s.updTC t c' fun x => (x.setPool k { e with dep := false }).updCtr n fun y =>
          { count := y.count + BitVec.ofNat 64 e.record.depn, rv := true, rslot := k })
      | none => none
    else s.placeReady t c e

/-- Routes the entries of a list by R260 until one finds no room. -/
def State.placeAll (s : State) (t c : Nat) : List PoolEntry → State × List PoolEntry
  | [] => (s, [])
  | e :: es =>
    match s.placeNew t c e with
    | some s' => s'.placeAll t c es
    | none => (s, e :: es)

end Sys2Proof.Machine
end

