-- ==== Sys2Proof/Machine/Translate.lean ====
section
/-!
DEFINITION. Who makes an access, the walk of the page tables (R326 … R331), leases (R334, R335), the home of a line
(R289, R290), the firewall (R340), the local window and the apertures (R282, R283, R253, R347): step 3 of R138.
-/

namespace Sys2Proof.Machine

/-- On whose behalf an access is made: the slot, and what its activation belongs to. -/
structure Who where
  key     : Nat
  world   : Nat
  part    : Nat
  grid    : Nat
  team    : Nat
  rev     : Option Nat
  handler : Bool
  deriving DecidableEq, Repr

/-- The core of an access. -/
def Who.core (w : Who) : Nat := w.key / 4

/-- A slot's activation as the maker of an access. -/
def State.who (s : State) (key : Nat) : Who :=
  let sl := s.slotAt key
  { key := key, world := sl.world, part := sl.part, grid := sl.grid, team := sl.team, rev := sl.rev,
    handler := sl.handler }

/-- The kinds of access that the window tells apart (R283, with loads and stores as R138 groups them). -/
inductive AKind where
  /-- a load or a capability load -/
  | load
  /-- a store or a capability store -/
  | store
  /-- an element of a vector load or a gather -/
  | vload
  /-- an element of a vector store or a scatter -/
  | vstore
  /-- an observation of a Sluice -/
  | observe
  /-- an atomic, or a Sluice or Basin operation that writes -/
  | atomic
  /-- a Barge copy or staging -/
  | copy
  /-- a read of `bres` -/
  | resume
  deriving DecidableEq, Repr

/-- An access that writes. -/
def AKind.writes : AKind → Bool
  | .load => false
  | .vload => false
  | .observe => false
  | .resume => false
  | .store => true
  | .vstore => true
  | .atomic => true
  | .copy => false

/-! ## The current contents of a device line -/

/-- The line that a home access would find now: a write-back under way, a proxy's sole copy, or memory (R319, R322). -/
def State.lineNow (s : State) (k : Nat) : CapReg :=
  let c := s.cohAt (lineKey k)
  match c.wback with
  | some l => l
  | none =>
    match c.proxy with
    | .M => c.pcopy
    | .E => c.pcopy
    | .O => c.pcopy
    | .I => s.lineAt k
    | .S => s.lineAt k

/-- A number of `n` bytes at a device physical address, inside one line. -/
def State.devNum (s : State) (addr n : Nat) : Nat :=
  bitsOf (s.lineNow (memKey .dev addr)).bits.toNat (8 * (addr % 64)) (8 * n)

/-- The lowest-numbered partition of a world. -/
def State.partOf (s : State) (world : Nat) : Nat := ((s.parts.find? fun p => p.2.wid == world).map (·.1)).getD 0

/-! ## The walk -/

/-- Backed device memory (R330). -/
def backed (addr : Nat) : Bool := decide (addr < 2 ^ 37) && decide (addr % 2 ^ 36 < 0xFF8000000)

/-- Size of a leaf in 4 KiB frames, by level. -/
def leafFrames (level : Nat) : Nat := if level = 1 then 1 else 512

/-- A leaf is acceptable (R328, R329) for an address. -/
def State.leafOk (s : State) (part level va leaf : Nat) : Bool :=
  let span := bitsOf leaf 59 2
  let tgt := bitsOf leaf 57 2
  let plm := bitsOf leaf 53 2
  let pfn := bitsOf leaf 0 39
  let u := leafFrames level
  let g := if span = 1 then 16 else 256
  let i := bitsOf va (12 + 9 * (level - 1)) 9
  span != 3 && tgt != 3
    && !(decide (tgt < 2) && plm == 3)
    && !(decide (tgt < 2) && plm == 0 && bitsOf leaf 50 3 != 0)
    && !(span == 2 && level == 1)
    && (span == 0 || (pfn % u == 0 && pfn / u % g == i % g))
    && (tgt != 0 || (backed (pfn * 4096) && backed ((pfn + va / 4096 % u) * 4096)))
    && (tgt != 2 || (let st := s.stripeSet part (bitsOf leaf 42 4)
                     decide (1 ≤ st.1) && decide (st.1 ≤ 8) && decide (bitsOf leaf 39 3 < st.1)))

/-- The world that owns a chunk (R340). -/
def State.chunkOwner (s : State) (addr : Nat) : Nat := SMap.look 0xFE s.owners (addr / 2 ^ 21)

/-- The walk from a table of a level on (R326, R328): the leaf, its level and the address of its entry, or the cause: the
firewall refuses a table of another owner (R340). -/
def State.walkFrom (s : State) (world part va : Nat) : Nat → Nat → Except Nat (Nat × Nat × Nat)
  | 0, _ => .error 0x20
  | l + 1, table =>
    let addr := table + 8 * bitsOf va (12 + 9 * l) 9
    if !backed table then .error 0x20
    else if s.chunkOwner table != world then .error 0x22
    else
      let e := s.devNum addr 8
      if bitsOf e 63 1 = 0 then .error 0x20
      else if bitsOf e 62 1 = 0 then
        if l = 0 || bitsOf e 39 23 != 0 then .error 0x20 else s.walkFrom world part va l (bitsOf e 0 39 * 4096)
      else if 2 ≤ l then .error 0x20
      else if s.leafOk part (l + 1) va e then .ok (e, l + 1, addr) else .error 0x20

/-- The walk of a world's tables for an address, as a partition of the world makes it; entries that would map the local
window are not read (R326). -/
def State.walk (s : State) (world part va : Nat) : Except Nat (Nat × Nat × Nat) :=
  if 0x01FFFFFFFFFC0000 ≤ va then .error 0x20 else s.walkFrom world part va 5 (s.worldAt world).troot

/-- A walk yields a leaf. -/
def State.walks (s : State) (world part va : Nat) : Bool :=
  match s.walk world part va with
  | .ok _ => true
  | .error _ => false

/-- The lease that a leaf gives for the page of an address (R329 … R331, R334). -/
def State.leaseOf (s : State) (part va leaf level : Nat) : Lease :=
  let pfn := bitsOf leaf 0 39
  let i := va / 4096 % leafFrames level
  let w := BitVec.ofNat 64 leaf
  if bitsOf leaf 57 2 = 2 then
    let st := s.stripeSet part (bitsOf leaf 42 4)
    let j := bitsOf leaf 39 3 + i
    let m := j % st.1
    { leaf := w, level := level, frame := pfn + j / st.1, peer := if st.2 m = s.pkg then none else some (st.2 m) }
  else { leaf := w, level := level, frame := pfn + i, peer := none }

/-- The kind of memory that a lease gives, and the key of an address of its page (R330, R331). -/
def Lease.at_ (l : Lease) (va : Nat) : PKind × Nat :=
  let phys := l.frame * 4096 + va % 4096
  match bitsOf l.leaf.toNat 57 2, l.peer with
  | 1, _ => (.host, memKey .host phys)
  | 2, some p => (.peer, memKey (.peer p) phys)
  | _, _ => (.dev, memKey .dev phys)

/-- Sets A in a leaf entry (R332): in every copy of its line, whose errors stay (R47). -/
def State.markAccessed (s : State) (addr : Nat) : State :=
  let e := s.devNum addr 8
  if bitsOf e 61 1 = 1 then s
  else
    let k := memKey .dev addr
    let l := s.lineNow k
    let l' : CapReg := { bits := l.bits ||| BitVec.ofNat 512 (2 ^ (8 * (addr % 64) + 61)), tag := false }
    let c := s.cohAt (lineKey k)
    let home := s.moveLine (lineKey k) l'
    let proxied (t : State) : State := t.updCoh (lineKey k) fun x => { x with pcopy := l' }
    if c.wback.isSome then s.updCoh (lineKey k) fun x => { x with wback := some l' }
    else match c.proxy with
      | .M => proxied s
      | .O => proxied home
      | .E => proxied home
      | .S => proxied home
      | .I => home

/-! ## Homes -/

/-- The slices of a mask, rising. -/
def slicesOf (mask : Nat) : List Nat := (List.range 128).filter fun k => mask / 2 ^ k % 2 == 1

/-- The hashed home of a line over a slice set of a partition (R290). -/
def State.hashedHome (s : State) (part set_ va : Nat) : Option Nat :=
  let n := va / 64 % 2 ^ 51
  let h := (bitsOf n 0 16 ^^^ bitsOf n 16 16) ^^^ (bitsOf n 32 16 ^^^ bitsOf n 48 3)
  let l := slicesOf (SMap.look 0 (s.partAt part).slset set_).toNat
  if l = [] then none else l[h % l.length]?

/-- Key of the first-touch record of a page. -/
def touchKey (world va : Nat) : Nat := world % 256 * 2 ^ 45 + va / 4096 % 2 ^ 45

/-- The home of a line of a page (R290); a core's cluster stands for a record that its access would make. -/
def State.homeOf (s : State) (w : Who) (va leaf : Nat) : Option Nat :=
  match bitsOf leaf 53 2 with
  | 0 => s.hashedHome w.part (bitsOf leaf 46 4) va
  | 1 => some (bitsOf leaf 46 7)
  | _ =>
    let c := SMap.look 0 s.touch (touchKey w.world va)
    some (4 * (if c = 0 then clusterOf w.core else c - 1) + va / 64 % 4)

/-- The page of a leaf takes its home from its first access (R290, R327). -/
def firstTouch (leaf : Nat) : Bool := decide (bitsOf leaf 57 2 < 2) && bitsOf leaf 53 2 == 2

/-- The first access to reach a first-touch page decides its cluster (R290). -/
def State.noteTouch (s : State) (world cluster va leaf : Nat) : State :=
  if firstTouch leaf ∧ SMap.look 0 s.touch (touchKey world va) = 0 then
    { s with touch := SMap.put 0 s.touch (touchKey world va) (cluster + 1) }
  else s

/-! ## Places -/

/-- Base of the counter aperture (R346 … R347: the compartment-0 roots). -/
def counterBase : Nat := 0x01FFFFFFFFBC0000
/-- Base of the mint aperture. -/
def mintBase : Nat := 0x01FFFFFFFFBB8000

/-- A spill area of a revision that has not been merged or dropped covers an address of a world (R269). -/
def State.inSpill (s : State) (world va : Nat) : Bool :=
  s.revs.any fun r =>
    r.2.world == world && r.2.st != .merged
      && (match r.2.spill.f.footprint with
          | some (lo, hi) => decide (lo ≤ va) && decide (va ≤ hi)
          | none => false)

/-- A line of memory lies in the spill area of a revision that has not been merged or dropped (R269). -/
def State.spillLine (s : State) (lk : Nat) : Bool :=
  s.revs.any fun r => r.2.st != .merged
    && (match r.2.spill.f.footprint with
        | some (lo, hi) => (s.gridAt r.2.grid).leases.any fun l =>
            let va := 4096 * l.1 + 64 * (lk % 64)
            lineKey (l.2.at_ va).2 == lk && decide (lo < va + 64) && decide (va ≤ hi)
        | none => false)

/-- The owner of a chunk of a peer's memory, as its firewall has it: outside this package (R340; DESIGN CHOICE, log
entry 49). -/
def peerOwner (key : Nat) : Nat := Config.peerOwner (key / 2 ^ 21)

/-- The place that a lease gives an address: its home (R289, R290, R331), which no slice out of service is (R242), and the
firewall (R340). -/
def State.placeRaw (s : State) (w : Who) (va : Nat) (l : Lease) : Except Nat Place :=
  let leaf := l.leaf.toNat
  let (kind, key) := l.at_ va
  let slice (home : Option Nat) (untagged stash : Bool) : Except Nat Place :=
    match home with
    | none => .error 0x22
    | some h =>
      if kind == .dev && s.chunkOwner key != w.world then .error 0x22
      else if bitsOf (s.partAt w.part).sl h 1 == 0 || (s.sliceAt h).oos then .error 0x22
      else .ok { kind := kind, key := key, va := va, untagged := untagged, stash := stash, home := h }
  if kind = .peer then .ok { kind := .peer, key := key, va := va, untagged := false, stash := false, home := 0 }
  else match bitsOf leaf 57 2 with
    | 0 => slice (s.homeOf w va leaf) (bitsOf leaf 55 1 == 1) (bitsOf leaf 56 1 == 1)
    | 1 => slice (s.homeOf w va leaf) true false
    | _ => slice (s.hashedHome w.part 0 va) false false

/-- The place of an access: code frames are not written (R357), and a spill area is the Junction's (R269). -/
def State.placeOf (s : State) (w : Who) (k : AKind) (wr : Bool) (va : Nat) (l : Lease) : Except Nat Place :=
  match s.placeRaw w va l with
  | .error c => .error c
  | .ok p =>
    if (wr || k.writes) && SMap.look 0 s.frames (p.key / 4096) != 0 then .error 0x22
    else if s.inSpill w.world va then .error 0x22
    else .ok p

/-- Size of the named area of the team that a core serves (R278). -/
def State.namedSize (s : State) (grid : Nat) : Nat := (s.gridAt grid).named

/-- The window's area check (R283). -/
def State.windowOk (s : State) (w : Who) (k : AKind) (o : Nat) : Bool :=
  let frame := 0x31000 + 0xD80 * (w.key % 4)
  let res := 0x3E600 + 0x200 * (w.key % 4)
  let own (a n : Nat) : Bool := decide (a ≤ o) && decide (o < a + n)
  decide (o < s.namedSize w.grid)
    || (own frame 0xD80 && w.handler && (k == .load || k == .store))
    || (own res 0x200 && (k == .load || k == .store || k == .resume))

/-- Step 3 of R138 for one element: the place, or the cause. `wr` says that a copy writes. -/
def State.xlate (s : State) (w : Who) (k : AKind) (wr : Bool) (va : Nat) : Except Nat Place :=
  if 0x01FFFFFFFFFC0000 ≤ va then
    let o := va - 0x01FFFFFFFFFC0000
    if s.windowOk w k o then
      .ok { kind := .win, key := memKey (.spad w.core) o, va := va, untagged := false, stash := false, home := 0 }
    else .error 0x22
  else if counterBase ≤ va then
    if k.writes || wr then .error 0x22
    else .ok { kind := .ctr, key := va - counterBase, va := va, untagged := true, stash := false, home := 0 }
  else if mintBase ≤ va then
    match s.hashedHome (s.partOf w.world) 0 va with
    | some h => .ok { kind := .mint, key := memKey (.mint w.world) (va - mintBase), va := va, untagged := false,
                      stash := false, home := h }
    | none => .error 0x22
  else
    match SMap.look none ((s.gridAt w.grid).leases.map fun x => (x.1, some x.2)) (va / 4096) with
    | some l => s.placeOf w k wr va l
    | none => match s.walk w.world w.part va with
      | .ok _ => .error 0x21
      | .error c => .error c

/-- The access reaches its page: a first-touch record is made (R290). -/
def State.touchPage (s : State) (w : Who) (va : Nat) : State :=
  match SMap.look none ((s.gridAt w.grid).leases.map fun x => (x.1, some x.2)) (va / 4096) with
  | some l => s.noteTouch w.world (clusterOf w.core) va l.leaf.toNat
  | none => s

end Sys2Proof.Machine
end

