-- ==== Sys2Proof/Machine/Lines.lean ====
section
/-!
DEFINITION. Copies of device lines: the L1s and stashes (R285, R287), the directories (R315), the lines in the slices
(R289), and the transitions that make a line readable or writable for a core (R318 … R323). The bytes of a line are held once: at the home, or in the
proxy when it has the current copy.
-/

namespace Sys2Proof.Machine

/-- One write, as it changes a line. -/
inductive WOp where
  /-- an element at a byte key: nibble, bits, value (R44) -/
  | data (k nib bits v : Nat)
  /-- a line with its tag (R43) -/
  | line (v : CapReg)
  deriving DecidableEq, Repr

/-- The line after a write. -/
def WOp.apply (w : WOp) (l : CapReg) : CapReg :=
  match w with
  | .data k nib bits v =>
    let pos := 8 * (k % 64) + 4 * nib
    let n := l.bits.toNat
    { bits := BitVec.ofNat 512 (n - bitsOf n pos bits * 2 ^ pos + v % 2 ^ bits * 2 ^ pos), tag := false }
  | .line v => v

/-- A write to the memory bytes of the line of a key. -/
def State.memWrite (s : State) (k : Nat) (w : WOp) : State :=
  match w with
  | .data k' nib bits v => s.putElem k' nib bits v
  | .line v => s.putLine k v

/-! ## L1s, stashes and eviction notices -/

/-- A core's L1 holds a line. -/
def Core.inL1 (c : Core) (lk : Nat) : Bool := c.l1.any fun x => x.2.any fun l => l.key == lk && l.valid

/-- A core's stash holds a line. -/
def Core.inStash (c : Core) (lk : Nat) : Bool := c.stash.any fun x => x.key == lk

/-- A core holds a line. -/
def Core.holds (c : Core) (lk : Nat) : Bool := c.inL1 lk || c.inStash lk

/-- The cores of a die that hold a line. -/
def State.holders (s : State) (die lk : Nat) : List Nat :=
  (s.cores.filter fun x => dieOf x.1 == die && x.2.holds lk).map (·.1)

/-- A line invalidated in its way: a pinned line keeps the way and its pin (R315). -/
def L1Line.drop (l : L1Line) : Option L1Line := if l.pin.isSome then some { l with valid := false } else none

/-- Invalidates the L1 lines that a test names. -/
def Core.dropL1 (c : Core) (sel : L1Line → Bool) : Core :=
  { c with l1 := c.l1.keys.foldl (fun m i => SMap.put [] m i ((SMap.look [] m i).filterMap fun l =>
      if sel l then l.drop else some l)) c.l1 }

/-- Invalidates a line's L1 copies on a die. -/
def State.dropDie (s : State) (die lk : Nat) : State :=
  (s.holders die lk).foldl (fun t c => t.updCore c fun x => x.dropL1 (·.key == lk)) s

/-- Removes the stash entries that a test names; their lines have no owner any more. -/
def State.dropStash (s : State) (core : Nat) (sel : StashLine → Bool) : State :=
  ((s.coreAt core).stash.filter sel).foldl (fun t e => t.updCoh e.key fun c => { c with owner := none })
    (s.updCore core fun c => { c with stash := c.stash.filter fun e => !sel e })

/-- The stash banks of a core (R278). -/
def State.stashBankList (s : State) (core : Nat) : List Nat :=
  match (s.coreAt core).team with
  | some t =>
    let g := (s.namedSize (s.teamAt t).grid + 0x3FFF) / 0x4000
    let p := max 4 g
    (List.range 11).filter fun b => decide (g ≤ b) && !(decide (p ≤ b) && decide (b < p + 4))
  | none => []

/-- The number of stash banks of a core. -/
def State.stashBanks (s : State) (core : Nat) : Nat := (s.stashBankList core).length

/-- Adds an eviction notice (R317). -/
def Core.notice (c : Core) (lk : Nat) : Core := { c with notices := c.notices ++ [(lk, false)] }

/-- The last unpinned line of a set. -/
def evictee (l : List L1Line) : Option L1Line := l.reverse.find? fun x => x.pin.isNone

/-- Fills a line into an L1 set, most recent first: into an empty way, whose pair wakes when it is gated (R293), or in
place of the least recently used unpinned line (R287). -/
def Core.fillL1 (c : Core) (va lk : Nat) : Core :=
  let set_ := va / 64 % 1024
  let l := SMap.look [] c.l1 set_
  let line (w : Nat) : L1Line := { va := va / 64 * 64, key := lk, valid := true, way := w, pin := none }
  match l.find? (fun x => x.key == lk) with
  | some x => { c with l1 := SMap.put [] c.l1 set_ ({ x with valid := true } :: l.filter fun y => y.key != lk) }
  | none =>
    match (List.range 8).find? fun w => l.all fun x => x.way != w with
    | some w => { c with l1 := SMap.put [] c.l1 set_ (line w :: l), gated := c.gated.filter (· != w / 2) }
    | none => match evictee l with
      | some e => { c with l1 := SMap.put [] c.l1 set_ (line e.way :: l.filter fun y => y != e) }.notice e.key
      | none => c

/-- The first notice of a line for which the home's receipt, or then the receipt of the acknowledgement, is due. -/
def stepNotice (lk : Nat) : List (Nat × Bool) → List (Nat × Bool)
  | [] => []
  | x :: t => if x.1 = lk then (if x.2 then t else (lk, true) :: t) else x :: stepNotice lk t

/-! ## Directories (R315, R316) -/

/-- The region of a slice's directory that holds a line. -/
def Slice.regionOf (d : Slice) (lk : Nat) : Option Region := d.dir.find? fun r => decide (r.base = lk / 2 ^ r.k * 2 ^ r.k)

/-- A line lies in a region. -/
def Region.has (r : Region) (lk : Nat) : Bool := decide (r.base = lk / 2 ^ r.k * 2 ^ r.k)

/-- A core's bit in the mask of a region (R315): it holds a line of it, or the home has not received its notice. -/
def Core.inRegion (c : Core) (r : Region) : Bool :=
  c.l1.any (fun x => x.2.any fun l => r.has l.key && l.valid) || c.stash.any (fun x => r.has x.key)
    || c.notices.any fun x => r.has x.1 && !x.2

/-- The mask of a region over the cores of a die. -/
def State.regionMask (s : State) (die : Nat) (r : Region) : List Nat :=
  (s.cores.filter fun x => dieOf x.1 == die && x.2.inRegion r).map (·.1)

/-- The slice that keeps the masks of a die for a home (R289, R319). -/
def sliceOn (die home : Nat) : Nat := if home / 64 = die then home else home ^^^ 64

/-- The least recently used region of a directory. -/
def oldestRegion : List Region → Option Region
  | [] => none
  | r :: t => match oldestRegion t with
    | none => some r
    | some q => if r.used ≤ q.used then some r else some q

/-- An uncommitted write of whose round nothing is on its way to or from cores any more. -/
def Pend.without (d : Pend) (cores : List Nat) : Pend :=
  { d with sent := d.sent.filter fun c => !cores.contains c, held := d.held.filter fun c => !cores.contains c,
           replies := d.replies.filter fun x => !cores.contains x.1 }

/-- Before a home has the acknowledgement of a region's invalidation, what it sent to the cores before has arrived, and
what they sent before: the updates and replies of uncommitted writes, and the notices (R313). -/
def State.flushRegion (s : State) (slice : Nat) (r : Region) : State :=
  let mask := s.regionMask (slice / 64) r
  let mine (c : LineCoh) (d : Pend) : Bool := (if d.proxy then c.slice ^^^ 64 else c.slice) == slice
  let s1 := (s.coh.filter fun x => r.has x.1 && (x.2.pend.any fun d => mine x.2 d)).foldl (fun t x =>
    (t.updCoh x.1 fun y => { y with pend := y.pend.map (·.without mask) }).count 2 slice 3
      (((x.2.pend.map (·.replies)).getD []).filter fun y => mask.contains y.1 && y.2 == .none).length) s
  mask.foldl (fun t c => t.updCore c fun x =>
    { x with notices := x.notices.map fun n => if r.has n.1 then (n.1, true) else n }) s1

/-- Frees the least recently used directory entry other than one to be kept: every copy in its region is invalidated,
stash entries with their write-back (R315), after what was under way for them (R313). -/
def State.freeRegion (s : State) (slice : Nat) (keep : Option Region) : State :=
  match oldestRegion ((s.sliceAt slice).dir.filter fun q => some q != keep) with
  | none => s
  | some r =>
    let s1 := (s.regionMask (slice / 64) r).foldl (fun t c =>
      (t.updCore c fun x => x.dropL1 fun l => r.has l.key).dropStash c fun e => r.has e.key) (s.flushRegion slice r)
    s1.updSlice slice fun d => { d with dir := d.dir.filter fun q => q != r }

/-- A fill reaches a directory (R315). -/
def State.noteFill (s : State) (slice lk : Nat) : State :=
  match (s.sliceAt slice).regionOf lk with
  | some r => s.updSlice slice fun d =>
      { d with dir := d.dir.map fun q => if q = r then { q with used := s.now } else q }
  | none =>
    let s1 := if 8192 ≤ (s.sliceAt slice).dir.length then s.freeRegion slice none else s
    s1.updSlice slice fun d =>
      { d with dir := d.dir ++ [{ base := lk / 1024 * 1024, k := 10, used := s.now, split := s.now }] }

/-- A NONE splits the region of a line into its halves, once a reply (R316); a full directory frees an entry first. -/
def State.splitRegion (s : State) (slice lk : Nat) : State :=
  match (s.sliceAt slice).regionOf lk with
  | none => s
  | some r =>
    if r.k = 0 then s
    else
      let a : Region := { base := r.base, k := r.k - 1, used := r.used, split := s.now }
      let b : Region := { base := r.base + 2 ^ (r.k - 1), k := r.k - 1, used := r.used, split := s.now }
      let s1 := if 8192 ≤ (s.sliceAt slice).dir.length then s.freeRegion slice (some r) else s
      (s1.updSlice slice fun d =>
        { d with dir := d.dir.flatMap fun q => if q = r then [a, b] else [q] }).count 2 slice 3 1

/-- What a core answers to an update for a line (R314 step 3, R316). -/
def Core.reply (c : Core) (lk : Nat) : Reply :=
  if c.holds lk then .applied else if c.notices.any fun x => x.1 == lk then .gone else .none

/-- A reply reaches the home (R316). -/
def State.takeReply (s : State) (slice lk : Nat) (r : Reply) : State :=
  match r with
  | .none => s.splitRegion slice lk
  | .applied => s
  | .gone => s

/-- The sharers that a write-update of a line is sent to (R314 step 2). -/
def State.sharersOf (s : State) (slice lk : Nat) : List Nat :=
  match (s.sliceAt slice).regionOf lk with
  | some r => s.regionMask (slice / 64) r
  | none => []

/-- Changes the coherence state of a line and records its home. -/
def State.updLine (s : State) (p : Place) (f : LineCoh → LineCoh) : State :=
  s.updCoh (lineKey p.key) fun c => { f c with slice := p.home }

/-- What the channel from a core to a home still carries for a line arrives: the reply, then the notices (R313). -/
def State.drainChannel (s : State) (slice lk core : Nat) : State :=
  let s1 : State := match (s.cohAt lk).pend with
    | some d => (d.replies.filter fun (x : Nat × Reply) => x.1 == core).foldl (fun t x => t.takeReply slice lk x.2)
        (s.updCoh lk fun c => { c with pend := some { d with replies := d.replies.filter fun (x : Nat × Reply) => x.1 != core } })
    | none => s
  s1.updCore core fun c => { c with notices := c.notices.map fun x => if x.1 = lk then (lk, true) else x }

/-- An update that is sent now follows the acknowledgements that its home has sent (R313). -/
def Core.acksArrive (c : Core) (lk : Nat) : Core := { c with notices := c.notices.filter fun n => !(n.1 == lk && n.2) }

/-- The update round of a write that is performed in one action: the update is counted once, whatever the mask, and every
sharer answers, its GONE after the notice that it tells of (R227, R313, R314, R316; DESIGN CHOICE, log entry 71). -/
def State.updateRound (s : State) (slice lk : Nat) : State :=
  (s.sharersOf slice lk).foldl (fun t c =>
    let u := t.updCore c fun x => x.acksArrive lk
    (u.drainChannel slice lk c).takeReply slice lk ((u.coreAt c).reply lk)) (s.count 2 slice 2 1)

/-! ## Lines in the L2 slices (R289) -/

/-- A slice holds a line. -/
def Slice.hasLine (d : Slice) (lk : Nat) : Bool := d.ways.any fun x => x.2 == lk + 1

/-- A slice holds a line no more. -/
def State.leaveSlice (s : State) (slice lk : Nat) : State :=
  if (s.sliceAt slice).hasLine lk then s.updSlice slice fun d => { d with ways := d.ways.filter fun x => x.2 != lk + 1 }
  else s

/-! ## Transitions (R321) -/

/-- The write-back under way reaches the home (R322). -/
def State.finishWriteBack (s : State) (lk : Nat) : State :=
  match (s.cohAt lk).wback with
  | some l => (s.moveLine lk l).updCoh lk fun c => { c with wback := none, wbAck := false, home := .I }
  | none => s

/-- snoop-read: the proxy supplies the line and keeps it, M as O and E as S. -/
def State.doSnoopRead (s : State) (lk : Nat) : State :=
  let c := s.cohAt lk
  match c.proxy with
  | .M => (s.moveLine lk c.pcopy).updCoh lk fun x => { x with proxy := .O, home := .O }
  | .E => s.updCoh lk fun x => { x with proxy := .S, home := .S }
  | .I => s
  | .S => s
  | .O => s

/-- snoop-invalidate: the proxy returns the line if dirty; every copy on its die goes. -/
def State.doSnoopInval (s : State) (lk : Nat) : State :=
  let c := s.cohAt lk
  let s1 := match c.proxy with
    | .M => s.moveLine lk c.pcopy
    | .O => s.moveLine lk c.pcopy
    | .I => s
    | .S => s
    | .E => s
  ((s1.dropDie (1 - c.slice / 64) lk).leaveSlice (c.slice ^^^ 64) lk).updCoh lk fun x =>
    { x with proxy := .I, home := .I, pcopy := CapReg.null }

/-- The writes whose package acknowledgement an invalidation gives (R299, R312). -/
def State.ackInvalidated (s : State) (lk : Nat) : State :=
  let l := (s.cohAt lk).inval
  let s1 := (l.filter fun x => decide (x.2.1 < 4)).foldl (fun t x => t.updSlot (4 * x.1 + x.2.1) fun sl =>
    { sl with out := sl.out.map fun o =>
      if o.seq = x.2.2.1 ∧ lineKey o.place.key = lk ∧ o.lvl = 2 then { o with lvl := 3 } else o }) s
  s1.updCoh lk fun c => { c with inval := [] }

/-- An invalidation reaches the proxy: its copies go, and the home has the acknowledgement (R312, R321). -/
def State.doInvalidate (s : State) (lk : Nat) : State :=
  ((s.doSnoopInval lk).ackInvalidated lk).updCoh lk fun c => if c.snoop = some .invAck then { c with snoop := none } else c

/-- A write has committed on its home's die: the invalidation of the other die's proxy copy leaves at once (R312). True
when there is one to wait for. -/
def State.tellProxy (s : State) (lk core slot seq : Nat) : State × Bool :=
  let c := s.cohAt lk
  if c.proxy = .S ∧ c.owner = none then
    let (st, s1) := s.draw
    (s1.updCoh lk fun x => { x with home := .I, snoop := some .invAck, inval := x.inval ++ [(core, slot, seq, st)] }, true)
  else (s, false)

/-- The host's copy is recalled where a proxy's would be snooped, a modified one before a read, any before a write
(R323). -/
def State.recallHost (s : State) (lk : Nat) (wr : Bool) : State :=
  if wr ∨ (s.cohAt lk).host = .M then s.updCoh lk fun x => { x with host := .I } else s

/-- ReadShared and its grant: E when no core of the home's die and no host holds the line as the request comes, else S; a
modified copy of the host is recalled first, and the grant is S all the same (DESIGN CHOICE, log entry 93). -/
def State.doReadShared (s : State) (lk : Nat) : State :=
  let c := s.cohAt lk
  if c.proxy = .I then
    let s1 := s.recallHost lk false
    let sole := (s1.holders (c.slice / 64) lk).isEmpty && c.host == .I && c.owner.isNone && c.pend.isNone
    let st : Moesi := if sole then .E else .S
    s1.updCoh lk fun x => { x with proxy := st, home := st, pcopy := s1.lineAt (64 * lk) }
  else s

/-- Upgrade or ReadExclusive and its grant: an invalidation on its way arrives first (R313); home-die copies and the
host's copy go; the proxy has the line alone, taken whole from the home when the home records it I. -/
def State.doOwn (s : State) (lk : Nat) : State :=
  let s0 := if (s.cohAt lk).snoop = some .invAck then s.doInvalidate lk else s
  let c := s0.cohAt lk
  match c.proxy with
  | .M => s0
  | .E => s0.updCoh lk fun x => { x with proxy := .M, home := .M }
  | .I => (s0.dropDie (c.slice / 64) lk).updCoh lk fun x =>
      { x with proxy := .M, home := .M, host := .I, pcopy := s0.lineAt (64 * lk) }
  | .S => (s0.dropDie (c.slice / 64) lk).updCoh lk fun x => { x with proxy := .M, home := .M, host := .I }
  | .O => (s0.dropDie (c.slice / 64) lk).updCoh lk fun x => { x with proxy := .M, home := .M, host := .I }

/-- A proxy gives a line up: dirty, it is sent home with its tag and kept until acknowledged; clean, the home is told
(R321, R322). -/
def State.evictProxy (s : State) (lk : Nat) : State :=
  let c := s.cohAt lk
  let back : State := ((s.dropDie (1 - c.slice / 64) lk).leaveSlice (c.slice ^^^ 64) lk).updCoh lk fun x =>
    { x with wback := some c.pcopy, proxy := .I, pcopy := CapReg.null }
  match c.proxy with
  | .I => s
  | .M => back
  | .O => back
  | .E => s.doInvalidate lk
  | .S => s.doInvalidate lk

/-- What is under way for a line is finished: a write-back, a snoop. An invalidation of R312 stays under way, and the
proxy's copy may be read until it arrives. -/
def State.settle (s : State) (lk : Nat) : State :=
  let s1 := s.finishWriteBack lk
  match (s1.cohAt lk).snoop with
  | some .read => (s1.doSnoopRead lk).updCoh lk fun x => { x with snoop := none }
  | some .inval => (s1.doSnoopInval lk).updCoh lk fun x => { x with snoop := none }
  | some .invAck => s1
  | none => s1

/-- A line may not leave its slice: something is under way for it. -/
def LineCoh.busy (c : LineCoh) : Bool := c.pend.isSome || c.snoop.isSome || c.wback.isSome

/-- A line of host memory, by its key. -/
def isHostLine (lk : Nat) : Bool := lk / 2 ^ 58 == Space.host.num

/-- A line leaves a slice: a proxy slice gives it up; at its home it stays in memory, which the model keeps current; a
line of host memory is written back where the device holds it M, and the device holds it no more (R292, R323). -/
def State.evictLine (s : State) (slice lk : Nat) : State :=
  (if isHostLine lk then s.updCoh lk fun x => { x with home := .I }
   else if (s.cohAt lk).slice = slice then s else s.evictProxy lk).leaveSlice slice lk

/-- A line enters a slice: an empty way of its set, whose pair wakes when it is gated (R293), or the way of a line that
leaves. The set's index and the line to leave are free values (R289; DESIGN CHOICE, log entry 9). -/
def State.enterSlice (s : State) (slice lk : Nat) : State :=
  let d := s.sliceAt slice
  let set_ := Config.sliceSet lk % 1024
  let at_ (w : Nat) : Nat := SMap.look 0 d.ways (16 * set_ + w)
  let put (t : State) (w : Nat) : State := t.updSlice slice fun x =>
    { x with ways := SMap.put 0 x.ways (16 * set_ + w) (lk + 1), gated := x.gated.filter (· != w / 2) }
  match (List.range 16).find? fun w => at_ w == 0 with
  | some w => put s w
  | none =>
    let v := Config.sliceVictim (slice + 128 * d.draws)
    let s1 := s.updSlice slice fun x => { x with draws := x.draws + 1 }
    match ((List.range 16).map fun j => (v + j) % 16).find? fun w => !(s.cohAt (at_ w - 1)).busy with
    | some w => put (s1.evictLine slice (at_ w - 1)) w
    | none => s1

/-- An access reaches a slice: a hit, or a miss that fills the line (R227, R289). -/
def State.sliceAccess (s : State) (slice lk : Nat) : State :=
  if (s.sliceAt slice).hasLine lk then s.count 2 slice 0 1 else (s.count 2 slice 1 1).enterSlice slice lk

/-! ## Stashes (R285, R318) -/

/-- A stash takes a line as owner: every other copy goes. It fills from the proxy behind which it lies, when that holds
the line (R319), else from the home; what its channel still carries for the line arrives first (R313, R317). An empty
place of its banks takes the line, whose bank wakes when it is gated (R293), or the least recently used entry leaves. -/
def State.fillStash (s : State) (core : Nat) (p : Place) : State :=
  let lk := lineKey p.key
  let banks := s.stashBankList core
  let near := sliceOn (dieOf core) p.home
  let s0 := (s.drainChannel near lk core).sliceAccess (if (s.cohAt lk).proxy = .I then p.home else near) lk
  let s1 := ((s0.doInvalidate lk).dropDie 0 lk).dropDie 1 lk
  let s2 := s1.updCoh lk fun x => { x with owner := some core, host := .I }
  let l := (s2.coreAt core).stash
  let line (n : Nat) : StashLine := { va := p.va / 64 * 64, key := lk, written := false, loc := n }
  let s3 :=
    match (List.range (256 * banks.length)).find? fun n => l.all fun e => e.loc != n with
    | some n => s2.updCore core fun x =>
        { x with stash := line n :: x.stash, gated := x.gated.filter fun u => some u != (banks[n / 256]?).map (16 + ·) }
    | none => match l.getLast? with
      | some e => (s2.dropStash core fun y => y.key == e.key).updCore core fun x =>
          { x with stash := line e.loc :: x.stash }.notice e.key
      | none => s2
  s3.noteFill near lk

/-- A hit in a stash moves the entry to the front and marks a write. -/
def Core.useStash (c : Core) (lk : Nat) (wr : Bool) : Core :=
  match c.stash.find? (fun x => x.key == lk) with
  | some e => { c with stash := { e with written := e.written || wr } :: c.stash.filter fun x => x.key != lk }
  | none => c

/-- A line of a stash page is held by a stash of the core or may be: the core has stash banks and no stash owns it. -/
def State.stashes (s : State) (core : Nat) (p : Place) : Bool :=
  p.stash && (s.cohAt (lineKey p.key)).owner.isNone && decide (0 < s.stashBanks core)

/-- Lines of a stash page are kept out of the L1 of a core that has stash banks (R287): only an access or a level-2 `pref`
fetches one there, into the stash (R285). -/
def State.keepsOut (s : State) (core : Nat) (p : Place) : Bool := p.stash && decide (0 < s.stashBanks core)

/-- A line of a stash page that no stash owns enters the core's stash. -/
def State.enterStash (s : State) (core : Nat) (p : Place) : State := if s.stashes core p then s.fillStash core p else s

/-! ## Reading and writing a line -/

/-- The device takes part in the host's coherence for a host line (R323): a load gains E when the host has no copy, else
S; a write gains M. The line is held in the slice of its placement. -/
def State.hostLine (s : State) (p : Place) (wr : Bool) : State :=
  let c := s.cohAt (lineKey p.key)
  let st : Moesi := if wr then .M else if c.home = .I then (if c.host = .I then .E else .S) else c.home
  (s.updLine p fun x => { x with home := st, host := if wr then .I else x.host }).sliceAccess p.home (lineKey p.key)

/-- Makes a line readable for a core, by the transitions of R321, and fills its L1 (R287). -/
def State.makeReadable (s : State) (core : Nat) (p : Place) : State :=
  if p.kind = .host then s.hostLine p false
  else if p.kind = .mint then (s.updLine p id).sliceAccess p.home (lineKey p.key)
  else if p.kind ≠ .dev then s
  else
    let lk := lineKey p.key
    let s1 := ((s.updLine p id).settle lk).enterStash core p
    match (s1.cohAt lk).owner with
    | some k => (if k = core then s1 else s1.sliceAccess p.home lk).updCore k fun x => x.useStash lk false
    | none =>
      let near := decide (dieOf core = p.home / 64)
      let sl := sliceOn (dieOf core) p.home
      let s2 := if near then (s1.doSnoopRead lk).recallHost lk false
        else if (s1.cohAt lk).proxy = .I then (s1.sliceAccess p.home lk).doReadShared lk else s1
      let s3 := if (s2.coreAt core).inL1 lk then s2 else (s2.sliceAccess sl lk).drainChannel sl lk core
      (s3.updCore core fun x => x.fillL1 p.va lk).noteFill sl lk

/-- Makes a line writable at the place that stands in for its home (R318, R319, R321); `whole` removes a shared proxy
copy first (R300). The owning core's store uses its stash entry and nothing else (R285). -/
def State.makeWritable (s : State) (core : Nat) (p : Place) (whole : Bool) : State :=
  if p.kind = .host then s.hostLine p true
  else if p.kind = .mint then (s.updLine p id).sliceAccess p.home (lineKey p.key)
  else if p.kind ≠ .dev then s
  else
    let lk := lineKey p.key
    let s1 := ((s.updLine p id).settle lk).enterStash core p
    match (s1.cohAt lk).owner with
    | some k => (if k = core then s1 else s1.sliceAccess p.home lk).updCore k fun x => x.useStash lk true
    | none =>
      let s2 := (s1.updCoh lk fun x => { x with host := .I }).sliceAccess (sliceOn (dieOf core) p.home) lk
      if dieOf core = p.home / 64 then
        match (s2.cohAt lk).proxy with
        | .I => s2
        | .S => if whole then s2.doInvalidate lk else s2
        | .E => s2.doSnoopInval lk
        | .O => s2.doSnoopInval lk
        | .M => s2.doSnoopInval lk
      else s2.doOwn lk

/-- The die on which the write of a core to a line is applied: the proxy's only when it stands in for the home. -/
def State.atProxy (s : State) (core : Nat) (p : Place) : Bool :=
  p.kind == .dev && dieOf core != p.home / 64 && (s.cohAt (lineKey p.key)).owner.isNone

/-- The slice that applies a core's write to a device line (R314, R319). -/
def State.writeSlice (s : State) (core : Nat) (p : Place) : Nat := if s.atProxy core p then p.home ^^^ 64 else p.home

/-- The update round of a core's write to a device line; an owning stash has no sharers to tell (R318). -/
def State.roundOf (s : State) (core : Nat) (p : Place) : State :=
  if p.kind = .dev ∧ (s.cohAt (lineKey p.key)).owner = none then s.updateRound (s.writeSlice core p) (lineKey p.key) else s

/-- An agent that is no core of a cluster makes a line current at its home before it reads or writes it there: the host,
a peer, the Junction at a parent's memory, the scheduler, the monitor (R311, R321, R323). The copy of the host itself is
set after its access. -/
def State.outsideReady (s : State) (lk : Nat) (wr : Bool) : State :=
  let s1 := (s.settle lk).recallHost lk wr
  let c := s1.cohAt lk
  match c.owner with
  | some k => s1.updCore k fun x => x.useStash lk wr
  | none =>
    if wr then
      match c.proxy with
      | .I => s1
      | .S => s1.doInvalidate lk
      | .E => s1.doSnoopInval lk
      | .O => s1.doSnoopInval lk
      | .M => s1.doSnoopInval lk
    else s1.doSnoopRead lk

/-- The update round of such an agent's write: a line that no access has reached has no sharer, and no home that is
known (DESIGN CHOICE, log entry 71). -/
def State.homeRound (s : State) (lk : Nat) : State :=
  if s.coh.any (fun x => x.1 == lk) then s.updateRound (s.cohAt lk).slice lk else s

/-- Such an agent's write of a whole line, in one action (R314). -/
def State.homePut (s : State) (k : Nat) (v : CapReg) : State :=
  ((s.outsideReady (lineKey k) true).homeRound (lineKey k)).putLine k v

/-- The line that a core reads in memory (not through a revision), after `makeReadable`. -/
def State.rootLine (s : State) (core : Nat) (p : Place) : CapReg :=
  let lk := lineKey p.key
  let c := s.cohAt lk
  let l := if s.atProxy core p && c.proxy != .I then c.pcopy else s.lineAt p.key
  if p.untagged then { l with tag := false } else l

/-- Changes the bytes of a line at the place that stands in for its home, after `makeWritable`. -/
def State.rootWrite (s : State) (core : Nat) (p : Place) (w : WOp) : State :=
  if s.atProxy core p && (s.cohAt (lineKey p.key)).proxy == .M then
    let s1 := match w with
      | .data k nib bits _ => { s with poison := clearPoison s.poison (2 * k + nib) (bits / 4) }
      | .line _ => { s with poison := clearPoison s.poison (128 * lineKey p.key) 128 }
    s1.updCoh (lineKey p.key) fun c => { c with pcopy := w.apply c.pcopy }
  else s.memWrite p.key w

end Sys2Proof.Machine
end

