-- ==== Sys2Proof/Machine/Log.lean ====
section
/-!
DEFINITION. Fault records (R230), the fault logs (R351), and how the operator's copy is coarsened (R244, R245, R352).
-/

namespace Sys2Proof.Machine

/-- A fault with a cause and nothing else. -/
def FaultInfo.of (cause : Nat) : FaultInfo :=
  { cause := cause, icause := 0, mode := 0, agent := 0, bpos := 0, fva := 0, iaddr := 0, aux := 0, prog := 0,
    time := 0, at_ := Coords.zero, resume := false }

/-- A fault of a capability check: the cause and the coordinates that met it (R38). -/
def FaultInfo.atCoords (cause : Nat) (k : Coords) : FaultInfo := { FaultInfo.of cause with at_ := k }

/-- A fault of the check of R38: its coordinates, and the address of the element that they name in the view; coordinates
that name none have FVA 0 (R38, R230; DEDUCED, log entry 84). -/
def FaultInfo.ofCheck (c : CapReg) (cause : Nat) (k : Coords) : FaultInfo :=
  { FaultInfo.atCoords cause k with fva := if c.tag && c.f.inBounds k then (c.f.elem k).va else 0 }

/-- A fault of an element that has an address (R230). -/
def FaultInfo.atElem (cause : Nat) (e : Elem) : FaultInfo := { FaultInfo.of cause with at_ := e.coords, fva := e.va }

/-- The first line of a fault record (R230). -/
def FaultInfo.line (f : FaultInfo) : Line :=
  BitVec.ofNat 512 <|
    f.cause % 64 + 2 ^ 8 * (f.agent % 16) + 2 ^ 14 * (f.mode % 4) + 2 ^ 16 * (f.icause % 256)
    + 2 ^ 28 * (f.bpos % 8) + 2 ^ 192 * f.prog.toNat + 2 ^ 256 * f.aux.toNat + 2 ^ 320 * f.iaddr.toNat
    + 2 ^ 384 * (f.fva % 2 ^ 64) + 2 ^ 448 * f.time.toNat

/-- The second line of a fault record: four signed 64-bit coordinates (R230). -/
def FaultInfo.coordLine (f : FaultInfo) : Line :=
  BitVec.ofNat 512 <|
    unsignedOf 64 f.at_.k0 + 2 ^ 64 * unsignedOf 64 f.at_.k1 + 2 ^ 128 * unsignedOf 64 f.at_.k2
    + 2 ^ 192 * unsignedOf 64 f.at_.k3

/-- The cause word: the low 64 bits of the first line (R230). -/
def FaultInfo.word (f : FaultInfo) : Word := BitVec.ofNat 64 f.line.toNat

/-- Rounds a time down to the policy's resolution (R245). -/
def roundTime (tsr : Nat) (w : Word) : Word := BitVec.ofNat 64 (w.toNat / 2 ^ tsr * 2 ^ tsr)

/-- All ones, for a withheld 64-bit field. -/
def onesW : Word := BitVec.ofNat 64 (2 ^ 64 - 1)

/-- The coordinates, PROG, AUX and BPOS withheld (R245). -/
def FaultInfo.hideDetail (f : FaultInfo) : FaultInfo :=
  { f with at_ := { k0 := -1, k1 := -1, k2 := -1, k3 := -1 }, prog := onesW, aux := onesW, bpos := 7 }

/-- Every field withheld (R244, R245). -/
def FaultInfo.hideAll (f : FaultInfo) : FaultInfo :=
  { f.hideDetail with cause := 63, icause := 255, agent := 15, mode := 3, iaddr := onesW, fva := 2 ^ 64 - 1,
                      time := onesW }

/-- The operator's copy of a record under a policy (R245, R352). -/
def FaultInfo.coarsen (f : FaultInfo) (policy : Option Line) : FaultInfo :=
  match policy with
  | none => f.hideAll
  | some b =>
    let tsr := bitsOf b.toNat 418 6
    let g := { f with time := roundTime tsr f.time }
    match bitsOf b.toNat 415 3 with
    | 0 => g
    | 1 => { g.hideDetail with iaddr := BitVec.ofNat 64 (f.iaddr.toNat / 2 ^ 16 * 2 ^ 16), fva := f.fva / 2 ^ 12 * 2 ^ 12 }
    | 2 => { g.hideDetail with iaddr := BitVec.ofNat 64 (f.iaddr.toNat / 2 ^ 32 * 2 ^ 32), fva := f.fva / 2 ^ 21 * 2 ^ 21 }
    | 3 => { g.hideDetail with iaddr := onesW, fva := 2 ^ 64 - 1 }
    | _ => f.hideAll

/-- Appends an entry to the fault log at a physical address (R351): four lines, then COUNT + 1, each written at its home
with every other copy gone, as a release at package scope needs. -/
def State.logAt (s : State) (flog world : Nat) (f : FaultInfo) : State :=
  let k0 := memKey .dev flog
  let s0 := s.outsideReady (lineKey k0) true
  let n := Memory.num s0.mem k0 8
  let at_ (j : Nat) : Nat := k0 + 64 * (1 + 4 * (n % 256) + j)
  let head : Line := BitVec.ofNat 512 (world % 256 + 2 ^ 64 * n)
  let s1 := s0.homePut (at_ 0) { bits := head, tag := false }
  let s2 := s1.homePut (at_ 1) { bits := f.line, tag := false }
  let s3 := s2.homePut (at_ 2) { bits := f.coordLine, tag := false }
  let s4 := s3.homePut (at_ 3) CapReg.null
  (s4.homeRound (lineKey k0)).putData k0 (leBytes 8 (n + 1))

/-- Reports a terminal fault of a world: the exact record to the world's log, a coarsened copy to the operator's, which
is the log of world 0 (R244, R351). -/
def State.report (s : State) (world : Nat) (f : FaultInfo) : State :=
  let w := s.worldAt world
  let s1 := if w.live then s.logAt w.flog world f else s
  let o := s1.worldAt 0
  if o.live then s1.logAt o.flog world (f.coarsen w.policy) else s1

end Sys2Proof.Machine
end

