-- ==== Sys2Proof/Machine/Views.lean ====
section
/-!
DEFINITION. Revisions as views (R267 … R271): which revision an access reaches, entries with their ancestor and child
copies, and reading and writing one line as an activation sees it.
-/

namespace Sys2Proof.Machine

/-! ## Chains of revisions -/

/-- A revision revises the line at a line address (R267): a region with a merge type other than 0 covers it. -/
def Revision.revises (r : Revision) (la : Nat) : Bool :=
  r.regions.any fun x => x.2 != 0 && (match x.1.f.footprint with
    | some (lo, hi) => decide (lo / 64 * 64 ≤ la) && decide (la ≤ hi)
    | none => false)

/-- The index of the region that covers a line. -/
def Revision.regionOf (r : Revision) (la : Nat) : Nat :=
  r.regions.findIdx fun x => x.2 != 0 && (match x.1.f.footprint with
    | some (lo, hi) => decide (lo / 64 * 64 ≤ la) && decide (la ≤ hi)
    | none => false)

/-- The entry of a revision for a line. -/
def Revision.entryAt (r : Revision) (la : Nat) : Option RevEntry := r.entries.find? fun e => e.laddr == la

/-- The revision of a chain whose entry is the view of a line; none for memory (R267). The number bounds the chain. -/
def State.viewFrom (s : State) (la : Nat) : Nat → Option Nat → Option Nat
  | 0, _ => none
  | _, none => none
  | n + 1, some r => if ((s.revAt r).entryAt la).isSome then some r else s.viewFrom la n (s.revAt r).parent

/-- view(rev, line): the revision whose entry holds it. -/
def State.viewOf (s : State) (rev : Option Nat) (la : Nat) : Option Nat := s.viewFrom la (s.revs.length + 1) rev

/-- The revision of a chain that revises a line, where a write through the chain goes. -/
def State.targetFrom (s : State) (la : Nat) : Nat → Option Nat → Option Nat
  | 0, _ => none
  | _, none => none
  | n + 1, some r => if (s.revAt r).revises la then some r else s.targetFrom la n (s.revAt r).parent

/-- The view that a write targets (R270). -/
def State.targetOf (s : State) (rev : Option Nat) (la : Nat) : Option Nat := s.targetFrom la (s.revs.length + 1) rev

/-! ## The spill area (R269) -/

/-- Capacity of a spill area in entries. -/
def Revision.capacity (r : Revision) : Nat := (r.spill.f.ext0 - 64 * (r.regions.length + 2)) / 192

/-- The virtual address of a revision's header. -/
def Revision.headerAt (r : Revision) : Nat := r.spill.f.base

/-- The STATE code of a revision. -/
def Revision.stateCode (r : Revision) : Nat :=
  match r.st with
  | .merged => 2
  | .live => if r.broken then 3 else 0
  | .ended => if r.broken then 3 else 1

/-- The header line (R269). -/
def State.revHeader (s : State) (r : Revision) : Line :=
  BitVec.ofNat 512 <|
    r.baddr % 2 ^ 64 + 2 ^ 64 * r.faddr.toNat + 2 ^ 145 * r.stateCode + 2 ^ 152 * r.regions.length
    + 2 ^ 160 * r.capacity + 2 ^ 192 * r.entries.length + 2 ^ 224 * (r.fidx % 2 ^ 32)
    + 2 ^ 256 * (match r.parent with
        | some p => (s.revAt p).headerAt
        | none => 0)

/-- The Junction, acting for a revision's activations on the view of a parent. -/
def State.junctionWho (s : State) (y : Revision) (rev : Option Nat) : Who :=
  { key := 4 * y.forker.1 + y.forker.2.1, world := y.world, part := (s.gridAt y.grid).part, grid := y.grid, team := y.team,
    rev := rev, handler := false }

/-- The Junction writes one line of a revision's spill area, tag and all, where the lease puts it and the firewall lets
it (R269, R330, R335), never into a code frame (R357); it counts as an access of the forking core (R290). -/
def State.junctionPut (s : State) (y : Revision) (va : Nat) (v : CapReg) : State :=
  let w := s.junctionWho y none
  match (s.gridAt y.grid).leases.find? fun x => x.1 == va / 4096 with
  | some x =>
    (match s.placeRaw w va x.2 with
     | .ok p =>
       let t := s.touchPage w va
       if SMap.look 0 s.frames (p.key / 4096) != 0 then s
       else (match p.kind with
        | .dev => ((t.updLine p id).outsideReady (lineKey p.key) true).updateRound p.home (lineKey p.key) |>.putLine p.key
            (if p.untagged then { v with tag := false } else v)
        | .host => t.putLine p.key { v with tag := false }
        | .peer => if peerOwner p.key = w.world then t.putLine p.key v else t
        | .win => t
        | .ctr => t
        | .mint => t)
     | .error _ => s)
  | none => s

/-- Writes a revision's header into its spill area. -/
def State.syncHeader (s : State) (r : Nat) : State :=
  let v := s.revAt r
  s.junctionPut v v.headerAt { bits := s.revHeader v, tag := false }

/-- Writes the lines of entry `i` of a revision. -/
def State.syncEntry (s : State) (r i : Nat) : State :=
  let v := s.revAt r
  match v.entries[i]? with
  | none => s
  | some e =>
    let a := v.headerAt + 64 * (v.regions.length + 2) + 192 * i
    let h : Line := BitVec.ofNat 512 (e.laddr % 2 ^ 64 + 2 ^ 64 * e.ridx + 2 ^ 68)
    ((s.junctionPut v a { bits := h, tag := false }).junctionPut v (a + 64) e.anc).junctionPut v (a + 128) e.child

/-- A revision has room for one more entry, counting the reserved lines that have none yet (R270, R271). -/
def Revision.hasRoom (r : Revision) (la : Nat) : Bool :=
  let held := ((r.reserved.map (·.2.2)).eraseDups.filter fun l => (r.entryAt l).isNone && l != la).length
  decide (r.entries.length + held < r.capacity)

/-- The generation of the granule that holds an address (R346): the element at its place (R330), 0 where the table has no
translation or the firewall keeps it from the world (R340); none for an element with an uncorrectable error (R47). -/
def State.generation (s : State) (world part base : Nat) : Option Nat :=
  let g := (s.worldAt world).gtb + 4 * ((base - 2 ^ 56) / 1024)
  match s.walk world part g with
  | .error _ => some 0
  | .ok (leaf, lvl, _) =>
    let (kind, key) := (s.leaseOf part g leaf lvl).at_ g
    let near := match kind with
      | .dev => s.chunkOwner key == world
      | .peer => peerOwner key == world
      | _ => true
    if !near then some 0 else if s.poisoned (2 * key) 8 then none
    else some (bitsOf (s.lineNow key).bits.toNat (8 * (key % 64)) 24)

/-- A tagged capability of lifetime heap whose generation is stale (R42); one whose generation an error has lost passes
no check that would keep its tag (R47; DESIGN CHOICE, log entry 89). -/
def State.stale (s : State) (world part : Nat) (c : CapReg) : Bool :=
  c.tag && c.f.life == 4 && s.generation world part c.f.base != some c.f.gen

/-- A load of a capability meets an error in the generation table (R47, R346). -/
def State.genLost (s : State) (world part : Nat) (c : CapReg) : Bool :=
  c.tag && c.f.life == 4 && (s.generation world part c.f.base).isNone

/-- Whether a revocation is published for a world (R348). -/
def State.revoking (s : State) (world : Nat) : Bool := (s.worldAt world).rev.isSome

/-- Adds an entry whose copies are a line with its errors (R270, R47), checked as a load while a revocation is published
(R350). -/
def State.addEntry (s : State) (r la : Nat) (v0 : CapReg) (err : List Nat) : State :=
  let y := s.revAt r
  let v := if err != [] || (s.revoking y.world && s.stale y.world (s.gridAt y.grid).part v0) then { v0 with tag := false }
    else v0
  let s1 := s.updRev r fun x =>
    { x with entries := x.entries ++ [{ ridx := x.regionOf la, laddr := la, anc := v, child := v, aerr := err, cerr := err }] }
  (s1.syncEntry r ((s1.revAt r).entries.length - 1)).syncHeader r

/-- A revision whose entry cannot be made by another writer becomes broken (R271). -/
def State.breakRev (s : State) (r la : Nat) : State :=
  (s.updRev r fun x => if x.broken then x else { x with broken := true, baddr := la }).syncHeader r

/-- Live revisions that share a view about to change get entries first, parents before children (R270). -/
def State.shareEntries (s : State) (world : Nat) (target : Option Nat) (la : Nat) (cur : CapReg) (err : List Nat) :
    State :=
  s.revs.keys.foldl (fun t r =>
    let y := t.revAt r
    if y.world == world && y.st == .live && !y.broken && y.revises la && (y.entryAt la).isNone && t.viewOf y.parent la == target then
      if y.hasRoom la then t.addEntry r la cur err else t.breakRev r la
    else t) s

/-! ## Reading and writing a line as an activation sees it -/

/-- The team core whose counter lies at a line of the partition's counter aperture (R253): team, core, counter. The
newest team with the window has it. -/
def State.counterAt (s : State) (part line : Nat) : Option (Nat × Nat × Nat) :=
  let win := line / 1024
  (s.teams.reverse.find? fun x =>
    let g := s.gridAt x.2.grid
    g.part == part && g.record.cwb + x.2.index == win).map fun x => (x.1, line % 1024 / 64, line % 64)

/-- A line of all ones, which a refused read returns (R340). -/
def onesLine : CapReg := { bits := BitVec.ofNat 512 (2 ^ 512 - 1), tag := false }

/-- The line at a place, as its user reads it in memory. -/
def State.placeLine (s : State) (w : Who) (p : Place) : CapReg :=
  match p.kind with
  | .dev => s.rootLine w.core p
  | .ctr =>
    (match s.counterAt w.part (p.key / 64) with
     | some (t, c, n) => { bits := (((s.teamAt t).core c).counter n).line, tag := false }
     | none => CapReg.null)
  | .host => { s.lineAt p.key with tag := false }
  | .peer => if peerOwner p.key = w.world then s.lineAt p.key else onesLine
  | .win => s.lineAt p.key
  | .mint => s.lineAt p.key

/-- The line address of a place. -/
def Place.la (p : Place) : Nat := p.va / 64 * 64

/-- Lines that a revision can give a view of: those that a lease translates (R268, R335). -/
def Place.leased (p : Place) : Bool := p.kind == .dev || p.kind == .host || p.kind == .peer

/-- The entry that an access reads for a line: of the nearest revision of its chain that has one (R267). -/
def State.entryOf (s : State) (w : Who) (p : Place) : Option RevEntry :=
  if p.leased then (s.viewOf w.rev p.la).bind fun r => (s.revAt r).entryAt p.la else none

/-- The line as an activation sees it: its revision's view (R267), or memory. -/
def State.viewLine (s : State) (w : Who) (p : Place) : CapReg :=
  match s.entryOf w p with
  | some e => e.child
  | none => s.placeLine w p

/-- The nibbles of a line of memory with an error. -/
def State.lineErrors (s : State) (lk : Nat) : List Nat :=
  if s.poison = [] then [] else (List.range 128).filter fun j => SMap.look false s.poison (128 * lk + j)

/-- The nibbles of a line, as an activation sees it, with an error (R47). -/
def State.viewErrors (s : State) (w : Who) (p : Place) : List Nat :=
  if p.kind = .ctr then []
  else match s.entryOf w p with
    | some e => e.cerr
    | none => s.lineErrors (lineKey p.key)

/-- The nibbles of an element in its line. -/
def elemNibbles (key nib bits : Nat) : List Nat := (List.range (bits / 4)).map fun j => 2 * (key % 64) + nib + j

/-- The line has an error at the bits of an element (R47, R139). -/
def State.placePoisoned (s : State) (w : Who) (p : Place) (nib bits : Nat) : Bool :=
  (elemNibbles p.key nib bits).any (s.viewErrors w p).contains

/-- A write to host memory goes on the streams of its world, or on stream 0 (R311; DESIGN CHOICE, log entry 72). -/
def State.markHost (s : State) (w : Who) : State :=
  let l := (s.ports.streams.filter fun x => x.2 == some w.world).map (·.1)
  s.updSlot w.key fun sl => { sl with hostDirty := (if l = [] then [0] else l).foldl (fun t n => insertRising n t) sl.hostDirty }

/-- Writes a line that a place names, in memory: a peer's firewall drops the write of a world that does not own the
chunk (R340). -/
def State.placeWrite (s : State) (w : Who) (p : Place) (op : WOp) : State :=
  match p.kind with
  | .dev => s.rootWrite w.core p op
  | .ctr => s
  | .host => (s.markHost w).memWrite p.key (match op with
      | .data k nib bits v => .data k nib bits v
      | .line v => .line { v with tag := false })
  | .peer => if peerOwner p.key = w.world then s.memWrite p.key op else s
  | .win => s.memWrite p.key op
  | .mint => s.memWrite p.key op

/-- The errors that a write leaves of a line's: what it writes replaces its part (R139). -/
def WOp.errors (op : WOp) (err : List Nat) : List Nat :=
  match op with
  | .data k nib bits _ => err.filter fun j => !(elemNibbles k nib bits).contains j
  | .line _ => []

/-- Writes the child copy of a revision's entry. -/
def State.writeChild (s : State) (r la : Nat) (op : WOp) : State :=
  let s1 := s.updRev r fun x =>
    { x with entries := x.entries.map fun e =>
        if e.laddr = la then { e with child := op.apply e.child, cerr := op.errors e.cerr } else e }
  s1.syncEntry r ((s1.revAt r).entries.findIdx fun e => e.laddr == la)

/-- Before an access reads a line: a revision's entry needs nothing of memory. -/
def State.readyRead (s : State) (w : Who) (p : Place) : State :=
  if (s.entryOf w p).isSome then s else s.makeReadable w.core p

/-- Before an access writes a line: in memory it becomes writable; a write of a revision's view reads the line that its
new entry copies. `whole` is R300's. -/
def State.readyWrite (s : State) (w : Who) (p : Place) (whole : Bool) : State :=
  if p.leased && (s.targetOf w.rev p.la).isSome then s.readyRead w p else s.makeWritable w.core p whole

/-- A write of a line that is ready, as an activation makes it (R267, R270, R271), in one action with its update round
(R314): the entries of the revisions that share the view are made in the same action; none when its own revision's spill
area is full (cause 0x3A). -/
def State.writeNow (s : State) (w : Who) (p : Place) (op : WOp) : Option State :=
  if !p.leased then some (s.placeWrite w p op)
  else
    match s.targetOf w.rev p.la with
    | none =>
      let s1 := s.shareEntries w.world none p.la (s.placeLine w p) (s.lineErrors (lineKey p.key))
      some ((s1.roundOf w.core p).placeWrite w p op)
    | some t =>
      let wt : Who := { w with rev := some t }
      let cur := s.viewLine wt p
      let err := s.viewErrors wt p
      let own : Option State :=
        if ((s.revAt t).entryAt p.la).isSome then some s
        else if (s.revAt t).hasRoom p.la then some (s.addEntry t p.la cur err) else none
      own.map fun s1 => (s1.shareEntries w.world (some t) p.la cur err).writeChild t p.la op

/-- A write as an activation makes it. -/
def State.writeView (s : State) (w : Who) (p : Place) (op : WOp) (whole : Bool) : Option State :=
  (s.readyWrite w p whole).writeNow w p op

/-- A store reserves the place of the entry it will need (R270): none when the spill area is full. -/
def State.reserve (s : State) (w : Who) (seq : Nat) (p : Place) : Option State :=
  if !p.leased then some s
  else match s.targetOf w.rev p.la with
    | none => some s
    | some t =>
      let r := s.revAt t
      if (r.entryAt p.la).isSome then some s
      else if r.hasRoom p.la then some (s.updRev t fun x => { x with reserved := x.reserved ++ [(w.key, seq, p.la)] })
      else none

/-- An element of a store has performed: the reservation of its line ends; those of the instruction's other lines stay
(R270, R271). -/
def State.unreserve (s : State) (w : Who) (seq la : Nat) : State :=
  let mine (x : Nat × Nat × Nat) : Bool := x == (w.key, seq, la)
  s.revs.keys.foldl (fun t r =>
    if (t.revAt r).reserved.any mine then t.updRev r fun x => { x with reserved := x.reserved.filter fun y => !mine y }
    else t) s

/-- The bits of an element in a line. -/
def lineElem (l : CapReg) (va nib bits : Nat) : Nat := bitsOf l.bits.toNat (8 * (va % 64) + 4 * nib) bits

end Sys2Proof.Machine
end

