-- ==== Sys2Proof/Machine/Ops.lean ====
section
/-!
DEFINITION. The shared operations of issue: advancing past an instruction with the end-of-body test (R106, R125), the
park that ends a sequence (R22), landing owed values (R24, R26), raising a fault, TAKING AN EXCEPTION (R232), the return
from one (R235, R236), and ending an activation (R204, R234, R256).
-/

namespace Sys2Proof.Machine

/-- The outcome of a step. -/
abbrev Out3 := Host.Outcome State Fault Refusal

/-! ## Owing and landing -/

/-- The slot owes something (R22): a live owed result or completion. -/
def Slot.owes (sl : Slot) : Bool := sl.owed.any (·.live)

/-- Every live owed result has returned. -/
def Slot.allBack (sl : Slot) : Bool := sl.owed.all fun o => !o.live || o.res.isSome

/-- Appends an owed result; an earlier owing of the same register loses value and fault (R24 rules 1 and 7). -/
def Slot.owe (sl : Slot) (dest : Option RegRef) (mask : Line) (fl : Flight) (res : Option Res) (acq : Bool)
    (iaddr : Word) (dfield : Nat) : Slot :=
  let old := match dest with
    | some r => sl.owed.map (Owed.drop r)
    | none => sl.owed
  let stale := match dest with
    | some r => sl.deferred.map (Defer.drop r)
    | none => sl.deferred
  { sl with
    owed := old ++ [{ dest := dest, live := true, mask := mask, flight := fl, res := res, acq := acq, seq := sl.seq,
                      iaddr := iaddr, dfield := dfield }]
    deferred := stale, seq := sl.seq + 1 }

/-- All 512 bits. -/
def fullMask : Line := BitVec.ofNat 512 (2 ^ 512 - 1)

/-- Writes a landed value into a register without touching any owing; x0 and c0 discard it (R10, R25). -/
def Slot.landReg (sl : Slot) (r : RegRef) (mask : Line) (v : CapReg) : Slot :=
  match r with
  | .x n => if n = 0 then sl else { sl with x := SMap.put 0 sl.x n (v.bits.setWidth 64) }
  | .v n => { sl with v := SMap.put 0 sl.v n ((SMap.look 0 sl.v n &&& ~~~mask) ||| (v.bits &&& mask)) }
  | .c n => if n = 0 then sl else { sl with c := SMap.put CapReg.null sl.c n v }

/-- Lands one owed result that returned a value, with its flags (R24, R171); of a cancelled or replaced owing only the
flags. -/
def Slot.landOne (sl : Slot) (o : Owed) : Slot :=
  match o.res with
  | some (.val v fl) =>
    (match o.dest with
     | some r => sl.landReg r o.mask v
     | none => sl).orFlags fl
  | some (.fault _) => sl
  | none => sl

/-- Lands every returned value and forgets what has landed or faulted; values still in flight for registers that were
rewritten stay in flight (R24, R26). -/
def Slot.landAll (sl : Slot) : Slot :=
  let l := sl.owed.foldl Slot.landOne sl
  { l with owed := sl.owed.filter fun o => !o.live && o.res.isNone }

/-- The earliest carried fault, with its owed entry (R26); one of a cancelled or replaced owing that has returned too
(R24 rule 6). -/
def Slot.carried (sl : Slot) : Option (Owed × FaultInfo) :=
  sl.owed.findSome? fun o => match o.res with
    | some (.fault f) => some (o, f)
    | some (.val _ _) => none
    | none => none

/-! ## Advancing -/

/-- The end-of-body test (R125), at the instruction whose offset is `pc`, for an instruction that falls through. -/
def Slot.fall (sl : Slot) (at_ : Int) : Slot :=
  let le := sl.le.toNat
  if sl.lc ≠ 0 ∧ ((le % 2 ^ 32 : Nat) : Int) = at_ ∧ (le / 2 ^ 32 = 0 ∨ le / 2 ^ 32 = sl.obj) then
    let lc' := sl.lc - 1
    { sl with lc := lc', pc := if lc' ≠ 0 then ((sl.ls.toNat % 2 ^ 32 : Nat) : Int) else at_ + 12 }
  else { sl with pc := at_ + 12 }

/-- Parks a slot that owes something, counting the park (R22, R227). -/
def State.parkIfOwing (s : State) : State :=
  if s.sl.owes then (s.updSl fun sl => { sl with stop := .park }).count 0 (s.cur / 4) 2 1 else s

/-- What follows the issue of an instruction, after its effect and its transfer: counter 1, the choice state of R259,
DLY, a stall of the slot, and the park of S (R22, R92, R93, R109, R153, R227). -/
def State.issued (s : State) (g : Ctl) (stall : Nat) : State :=
  let core := s.cur / 4
  let s1 := s.count 0 core 1 1
  let s2 := s1.updMyCore fun c =>
    { c with lastSlot := s.cur % 4, yielded := if g.yld then some (s.cur % 4) else none }
  let s3 := s2.updSl fun sl =>
    { sl with stop := .run, timer := none, callee := none, arrived := none,
              notBefore := s.now + max g.dly.val (if stall = 0 then 0 else stall + 1) }
  if g.s then s3.parkIfOwing else s3

/-- The instruction is done and control falls through (R106, R125). -/
def State.done (s : State) (g : Ctl) : State := (s.updSl fun sl => sl.fall sl.pc).issued g 0

/-- As `done`, and the slot issues nothing for `n` further cycles (R109, R153). -/
def State.doneStall (s : State) (g : Ctl) (n : Nat) : State := (s.updSl fun sl => sl.fall sl.pc).issued g n

/-- The instruction is done and control goes to an offset of an object. -/
def State.jump (s : State) (g : Ctl) (obj : Nat) (pc : Int) : State :=
  (s.updSl fun sl => { sl with pc := pc, obj := obj, fetched := false }).issued g 0

/-- The instruction does not issue for a reason; it is issued again when the reason has gone (R259). -/
def State.hold (s : State) (h : Hold) : State := s.updSl fun sl => { sl with stop := .hold h }

/-- The park before the effect of `ccall`, `cret` or `retire` (R22): the instruction is issued again after it. -/
def State.parkFirst (s : State) : State := s.parkIfOwing

/-! ## Taking an exception -/

/-- Base of the local window (R282). -/
def LW : Nat := 0x01FFFFFFFFFC0000

/-- Scratchpad offset of a slot's trap frame (R281). -/
def frameOff (slot : Nat) : Nat := 0x31000 + 0xD80 * slot

/-- Scratchpad offset of a slot's resume area (R281). -/
def resumeOff (slot : Nat) : Nat := 0x3E600 + 0x200 * slot

/-- Key of line `j` of a slot's trap frame. -/
def frameKey (key j : Nat) : Nat := memKey (.spad (key / 4)) (frameOff (key % 4) + 64 * j)

/-- The line of eight x registers from `r` on; x0 is stored as 0 (R231). -/
def Slot.xLine (sl : Slot) (r : Nat) : Line :=
  lanes 64 8 fun i => if r + i = 0 then 0 else (SMap.look 0 sl.x (r + i)).toNat

/-- Line 53 of a trap frame (R231). -/
def Slot.lastLine (sl : Slot) : Line :=
  BitVec.ofNat 512 <|
    sl.here.toNat + 2 ^ 64 * sl.lc.toNat + 2 ^ 128 * sl.ls.toNat + 2 ^ 192 * sl.le.toNat + 2 ^ 256 * sl.frm.toNat
    + 2 ^ 320 * sl.fflags.toNat
    + 2 ^ 384 * ((List.range 7).foldl (fun n k => n + 2 ^ (16 * k) * (SMap.look 0 sl.p (k + 1)).toNat) 0)

/-- Line `j` of the frame that trap entry writes (R231). -/
def Slot.frameLine (sl : Slot) (f : FaultInfo) (j : Nat) : CapReg :=
  if j = 0 then { bits := f.line, tag := false }
  else if j = 1 then { bits := f.coordLine, tag := false }
  else if j < 6 then { bits := sl.xLine (8 * (j - 2)), tag := false }
  else if j < 38 then { bits := SMap.look 0 sl.v (j - 6), tag := false }
  else if j < 53 then SMap.look CapReg.null sl.c (j - 37)
  else { bits := sl.lastLine, tag := false }

/-- Writes the 54 lines of a slot's trap frame (R232 step 2). -/
def State.writeFrame (s : State) (key : Nat) (f : FaultInfo) : State :=
  (List.range 54).foldl (fun t j => t.putLine (frameKey key j) ((s.slotAt key).frameLine f j)) s

/-- A view of rank 1 in the local window, of lifetime activation (R232, R246). -/
def windowView (off fmt n : Nat) (perms : List Nat) (cmpt : Nat) : CapReg :=
  CapF.reg { base := LW + off, ext0 := n, ext1 := 1, ext2 := 1, ext3 := 1, sd0 := 1, sd1 := 0, sd2 := 0, sd3 := 0,
             fmt := fmt, rank := 1, perm := permMask perms, life := 0, gen := 0, seal_ := 0, cmpt := cmpt, hlay := 0,
             hswz := 0, rsv := 0 }

/-- The handler entry of the slot's compartment; 0 when there is none (R232, R343). -/
def State.handlerOf (s : State) (key : Nat) : Nat :=
  let sl := s.slotAt key
  (SMap.look Cmpt.reset (s.worldAt sl.world).cmpts sl.cmpt).hnd.toNat

/-- The registers with which a handler starts (R232 step 3, R127, R243). -/
def Slot.enterHandler (sl : Slot) (slot hnd : Nat) (f : FaultInfo) (redo : Option Owed) : Slot :=
  { sl with
    x := SMap.put 0 sl.x 1 f.word
    c := SMap.put CapReg.null
           (SMap.put CapReg.null
             (SMap.put CapReg.null sl.c 1 (windowView (frameOff slot) 0x08 432 [permLD, permST] sl.cmpt))
             2 (windowView (frameOff slot) 0x20 54 [permLC, permSC] sl.cmpt))
           3 (if f.resume then windowView (resumeOff slot) 0x20 8 [permLC, permSC] sl.cmpt else CapReg.null)
    lc := 0
    pc := ((hnd % 2 ^ 32 : Nat) : Int), obj := if hnd / 2 ^ 32 = 0 then sl.obj else hnd / 2 ^ 32
    handler := true
    trap := some { obj := sl.obj, cmpt := sl.cmpt, mode := f.mode, bpos := f.bpos, aux := f.aux.toNat, redo := redo }
    tcause := f.word, tiaddr := f.iaddr, tfva := BitVec.ofNat 64 f.fva, taux := f.aux
    fltcnt := sl.fltcnt + 1
    stop := .run, timer := none, callee := none, arrived := none, fetched := false }

/-- TAKES AN EXCEPTION (R232, steps 2 … 4): the record and the registers go into the slot's trap frame, x1 and c1 … c3
are set, and the handler of the current compartment is entered. Owed values have landed before. -/
def State.takeTrap (s : State) (key : Nat) (f : FaultInfo) (redo : Option Owed) : State :=
  let f' := { f with time := s.counter 0 (key / 4) 0 }
  (s.writeFrame key f').updSlot key fun sl => sl.enterHandler (key % 4) (s.handlerOf key) f' redo

/-- Causes that end the activation without a handler (R229 column E). -/
def causeIsTerminal (c : Nat) : Bool := c == 0x21 || c == 0x22 || c == 0x39 || c == 0x3F

/-- The fault ends the activation (R229, R233): a terminal cause, an unverified fetch from a quarantined object (mode 3
already), a slot in handler state, or a compartment without a handler. -/
def State.isTerminal (s : State) (key : Nat) (f : FaultInfo) : Bool :=
  causeIsTerminal f.cause || f.mode == 3 || (s.slotAt key).handler || s.handlerOf key == 0

/-- Delivers a fault to a slot that owes nothing live (R232, R233, R234): the handler is entered, or the activation
waits for its terminal end. -/
def State.deliver (s : State) (key : Nat) (f : FaultInfo) (redo : Option Owed) : State :=
  if s.isTerminal key f then s.updSlot key fun sl => { sl with stop := .terminal { f with mode := 3 }, timer := none }
  else s.takeTrap key f redo

/-- A fault of the slot that issues (R26): with nothing owed it is delivered in this step, otherwise the slot parks
first. Counter 1 counts the instruction, counter 2 the park. The YLD and DLY of an instruction that faults at issue
have no effect, as its S has none (DESIGN CHOICE, log entry 92). -/
def State.raise (s : State) (f1 : FaultInfo) : State :=
  let s1 := (s.count 0 (s.cur / 4) 1 1).updMyCore fun c => { c with lastSlot := s.cur % 4, yielded := none }
  if s1.sl.owes then
    (s1.updSl fun sl => { sl with stop := .trap f1, timer := none, callee := none, arrived := none }).count 0 (s.cur / 4) 2 1
  else s1.deliver s.cur f1 none

/-- A fault that the instruction about to issue meets at issue: the record names it (R230). -/
def State.faultNow (s : State) (f : FaultInfo) : State := s.raise { f with iaddr := s.sl.here }

/-- What a check of an instruction answers. -/
def State.orFault (s : State) {α : Type} (r : Except FaultInfo α) (f : α → State) : State :=
  match r with
  | .ok a => f a
  | .error e => s.faultNow e

/-- The park of a slot ends (R22, R24, R26): every owed value lands, or the earliest carried fault is delivered and the
others land without their faults. -/
def State.endPark (s : State) (key : Nat) : State :=
  let sl := s.slotAt key
  let s1 := s.setSlot key { sl.landAll with stop := .run, readySince := s.coreNow (key / 4) }
  match sl.carried with
  | some (o, f) => s1.deliver key { f with mode := if f.mode = 3 then 3 else 1, iaddr := o.iaddr,
                                           aux := BitVec.ofNat 64 o.dfield } (some o)
  | none => s1

/-! ## Ending an activation -/

/-- Registers the end of an activation with its revision, whose header says so (R267, R269, R274). -/
def State.leaveRev (s : State) (r : Nat) : State :=
  (s.updRev r fun v =>
    { v with holders := v.holders - 1,
             st := if v.holders ≤ 1 && v.st == .live then .ended else v.st }).syncHeader r

/-- Traces an event of a scheduler (R353): only of the classes that the world's policy enables, its time rounded. -/
def State.note (s : State) (world cls : Nat) : State :=
  match (s.worldAt world).policy with
  | some b =>
    if bitsOf b.toNat (407 + cls) 1 = 1 then
      { s with trace := s.trace ++ [(world, cls, (roundTime (bitsOf b.toNat 418 6) (BitVec.ofNat 64 s.now)).toNat)] }
    else s
  | none => s

/-- The join decrement of an activation or record that ended (R256): the Junction makes that of a child with revisions
after its merge. -/
def State.joinDone (s : State) (team part : Nat) (e : PoolEntry) : State :=
  let r := e.record
  if r.jv then
    match e.rev, e.child with
    | some v, true => s.updRev v fun x => { x with joins := x.joins ++ [(r.jcore, r.jidx)] }
    | _, _ => s.decCounter team r.jcore r.jidx 1 part
  else s

/-- The streams that carry writes of an ended activation to host memory wait for its grid's completion (R263, R311). -/
def State.leaveDirty (s : State) (sl : Slot) : State :=
  if sl.hostDirty = [] then s
  else s.updGrid sl.grid fun g => { g with dirty := sl.hostDirty.foldl (fun t n => insertRising n t) g.dirty }

/-- A slot that is free again: its flags stand until an activation starts (R13). -/
def Slot.freed (sl : Slot) : Slot := { Slot.reset with seq := sl.seq, fflags := sl.fflags }

/-- Ends an activation (R204 steps 3 and 4, R256): an open chain closes, the pool slot of an uncommitted activation is
freed, its join counter is decremented, its revision learns of it, and the slot is free. -/
def State.endActivation (s : State) (key : Nat) : State :=
  let sl := s.slotAt key
  let s1 := s.updCore (key / 4) fun c =>
    { c with engine := if c.engine.chain = some (key % 4) then { c.engine with chain := none } else c.engine
             counts := c.counts.filter fun x => x.slot != key % 4 }
  let s2 := if sl.committed.isNone then s1.updTC sl.team sl.tcore fun tc => tc.freePool sl.pool else s1
  let s3 := (s2.leaveDirty sl).joinDone sl.team sl.part { sl.entry with rev := sl.rev }
  let s4 := match sl.rev with
    | some v => s3.leaveRev v
    | none => s3
  s4.setSlot key (Slot.freed sl)

/-- Nothing of the slot is still on its way: every owed value has returned, no Barge instruction of it is incomplete, and
every store of it has been acknowledged at package scope (R204, R234, R256). -/
def State.quiet (s : State) (key : Nat) : Bool :=
  let sl := s.slotAt key
  let c := s.coreAt (key / 4)
  sl.owed.all (fun o => o.res.isSome) && sl.out.all (fun o => decide (3 ≤ o.got))
    && c.barge.all (fun b => b.slot != key % 4) && c.bdone.all (fun b => b.slot != key % 4)

/-- Every plain store committed on a die before a stamp has been acknowledged at package scope (R305). -/
def State.cumulative (s : State) (die stamp : Nat) : Bool :=
  s.coh.all fun c => c.2.inval.all fun x => !(dieOf x.1 == die && decide (x.2.2.2 < stamp))

/-- The decrement that the end of an activation makes may be made: a release at package scope (R256, R305). -/
def State.joinReady (s : State) (key stamp : Nat) : Bool :=
  !(s.slotAt key).entry.record.jv || s.cumulative (dieOf (key / 4)) stamp

/-- The terminal end of an activation (R234): owed values have returned and their faults are dropped; the record is
logged with MODE 3; the activation ends as `tret.end` would end it. -/
def State.endTerminal (s : State) (key : Nat) (f : FaultInfo) : State :=
  let w := (s.slotAt key).world
  (s.report w { f with mode := 3, time := s.counter 0 (key / 4) 0 }).endActivation key

/-! ## Returning from a handler (R235, R236) -/

/-- The bits of a frame line: one with an error has no tag (R47). -/
def State.frameAt (s : State) (key j : Nat) : CapReg :=
  let l := s.lineAt (frameKey key j)
  if s.lineErrors (lineKey (frameKey key j)) = [] then l else { l with tag := false }

/-- The registers that `tret` restores from the frame (R236), with control at the given place. -/
def Slot.restore (sl : Slot) (fr : Nat → CapReg) (obj : Nat) (pc : Int) (cmpt : Nat) : Slot :=
  let l53 := (fr 53).bits.toNat
  { sl with
    x := (List.range 31).foldl (fun m i => SMap.put 0 m (i + 1)
           (BitVec.ofNat 64 (lane 64 ((i + 1) % 8) (fr (2 + (i + 1) / 8)).bits))) sl.x
    v := (List.range 32).foldl (fun m i => SMap.put 0 m i (fr (6 + i)).bits) sl.v
    c := (List.range 15).foldl (fun m i => SMap.put CapReg.null m (i + 1) (fr (38 + i))) sl.c
    p := (List.range 7).foldl (fun m i => SMap.put 0 m (i + 1) (BitVec.ofNat 16 (bitsOf l53 (384 + 16 * i) 16))) sl.p
    lc := BitVec.ofNat 64 (bitsOf l53 64 64), ls := BitVec.ofNat 64 (bitsOf l53 128 64)
    le := BitVec.ofNat 64 (bitsOf l53 192 64), frm := BitVec.ofNat 64 (bitsOf l53 256 3)
    fflags := fflagsOf (BitVec.ofNat 64 (bitsOf l53 320 64))
    obj := obj, pc := pc, cmpt := cmpt, handler := false, trap := none }

/-- The checks of the frame values (R236): `frm`, `ls`, `le` as `syswr` checks them, and the resume point. -/
def frameOk (l53 : Nat) (t : TrapState) : Bool :=
  (frmOf (BitVec.ofNat 64 (bitsOf l53 256 64))).isSome && bitsOf l53 128 2 == 0 && bitsOf l53 192 2 == 0
    && bitsOf l53 0 2 == 0 && (bitsOf l53 32 32 == 0 || bitsOf l53 32 32 == t.obj)

end Sys2Proof.Machine
end

