-- ==== Sys2Proof/Machine/Control.lean ====
section
/-!
DEFINITION. Branches, calls, returns and the hardware loop (R118 … R127).
-/

namespace Sys2Proof.Machine

/-- A relative target: 12 · sx(IMM) from the instruction (R94 form OFF, R118). -/
def Slot.rel (sl : Slot) (off : Imm) : Int := sl.pc + 12 * signedOf 32 off.toNat

/-- The link of a call: the code address of the next instruction (R118, R120). -/
def Slot.link (sl : Slot) : Word := sl.codeAddr (sl.pc + 12)

/-- The checks of R119 on a code address: the cause, if one fails. -/
def State.targetCheck (s : State) (handle anyObj : Bool) (t : Word) : Option Nat :=
  let sl := s.sl
  let n := t.toNat / 2 ^ 32
  let objs := (s.worldAt sl.world).objs
  let away := n ≠ 0 ∧ n ≠ sl.obj
  if handle && n == 0 then some 0x3D
  else if !handle && !anyObj && decide away then some 0x3D
  else if away ∧ !objs.keys.contains n then some 0x3D
  else if (SMap.look CodeObj.reset objs (if n = 0 then sl.obj else n)).quarantined then some 0x3B
  else if t.toNat % 4 ≠ 0 then some 0x3D
  else none

/-- The transfer of R120 to a checked code address. -/
def State.goTo (s : State) (g : Ctl) (t : Word) : State :=
  s.jump g (if t.toNat / 2 ^ 32 = 0 then s.sl.obj else t.toNat / 2 ^ 32) ((t.toNat % 2 ^ 32 : Nat) : Int)

/-- An indirect transfer (R119, R120): checks, then the link where there is one, then control. -/
def indirect (g : Ctl) (handle anyObj : Bool) (d : Option XReg) (a : XReg) (s : State) : Out3 :=
  if s.sl.guard g then
    let t := s.sl.xr a
    match s.targetCheck handle anyObj t with
    | some c => .next (s.faultNow (FaultInfo.of c))
    | none =>
      let s1 := match d with
        | some r => s.updSl fun sl => sl.setX r sl.link
        | none => s
      .next (s1.goTo g t)
  else .next (s.done g)

/-- BR (R118) -/
def execBr (g : Ctl) (off : Imm) (s : State) : Out3 :=
  if s.sl.guard g then .next (s.jump g s.sl.obj (s.sl.rel off)) else .next (s.done g)

/-- BR_ON_REGISTER (R118) -/
def execBrOnRegister (g : Ctl) (onZero : Bool) (a : XReg) (off : Imm) (s : State) : Out3 :=
  if s.sl.guard g && ((s.sl.xr a == 0) == onZero) then .next (s.jump g s.sl.obj (s.sl.rel off)) else .next (s.done g)

/-- BX (R119, R120) -/
def execBx (g : Ctl) (a : XReg) (s : State) : Out3 := indirect g false false none a s

/-- CALL (R118) -/
def execCall (g : Ctl) (d : XReg) (off : Imm) (s : State) : Out3 :=
  if s.sl.guard g then
    .next ((s.updSl fun sl => sl.setX d sl.link).jump g s.sl.obj (s.sl.rel off))
  else .next (s.done g)

/-- CALL_INDIRECT (R119, R120) -/
def execCallIndirect (g : Ctl) (d a : XReg) (s : State) : Out3 := indirect g false false (some d) a s

/-- CALLH (R119, R120) -/
def execCallh (g : Ctl) (d a : XReg) (s : State) : Out3 := indirect g true true (some d) a s

/-- RET (R119, R120) -/
def execRet (g : Ctl) (a : XReg) (s : State) : Out3 := indirect g false true none a s

/-- The sum that `loop` writes (R124): an offset past 2^32 carries into the object number. -/
def Slot.loopAddr (sl : Slot) (off : Int) : Word := BitVec.ofInt 64 ((sl.obj : Int) * 2 ^ 32 + off)

/-- The effect of `loop` (R124) with a distance and a count. -/
def loopWith (g : Ctl) (d : Nat) (n : Word) (s : State) : Out3 :=
  let s1 := s.updSl fun sl =>
    { sl with ls := sl.loopAddr (sl.pc + 12), le := sl.loopAddr (sl.pc + 12 * (d : Int)), lc := n }
  if n = 0 then .next (s1.jump g s.sl.obj (s.sl.pc + 12 * (d : Int) + 12)) else .next (s1.done g)

/-- LOOP_REGISTER (R124) -/
def execLoopRegister (g : Ctl) (a : XReg) (d : Imm) (s : State) : Out3 := loopWith g d.toNat (s.sl.xr a) s

/-- LOOP_IMMEDIATE (R124) -/
def execLoopImmediate (g : Ctl) (n d : BitVec 16) (s : State) : Out3 := loopWith g d.toNat (n.setWidth 64) s

end Sys2Proof.Machine
end

