-- ==== Sys2Proof/Machine/Float.lean ====
section
/-!
DEFINITION. Floating-point values and exact arithmetic with one rounding (R50 … R56), comparison (R157, R166, R167) and
conversion (R161).
-/

namespace Sys2Proof.Machine

/-- What the largest exponent code of a format means (R50). -/
inductive FpKind where
  /-- infinities and NaNs -/
  | ieee
  /-- one NaN, M = 0b111, and no infinity (e4m3) -/
  | oneNan
  /-- numbers only (e2m1, e3m5) -/
  | numbers
  deriving DecidableEq, Repr

/-- A floating-point format (R50). -/
structure FpFmt where
  eBits : Nat
  mBits : Nat
  bias  : Nat
  sign  : Bool
  kind  : FpKind
  deriving DecidableEq, Repr

/-- f32 -/
def fpF32 : FpFmt := { eBits := 8, mBits := 23, bias := 127, sign := true, kind := .ieee }
/-- bf16 -/
def fpBf16 : FpFmt := { eBits := 8, mBits := 7, bias := 127, sign := true, kind := .ieee }
/-- f16 -/
def fpF16 : FpFmt := { eBits := 5, mBits := 10, bias := 15, sign := true, kind := .ieee }
/-- e5m2 -/
def fpE5m2 : FpFmt := { eBits := 5, mBits := 2, bias := 15, sign := true, kind := .ieee }
/-- e4m3 -/
def fpE4m3 : FpFmt := { eBits := 4, mBits := 3, bias := 7, sign := true, kind := .oneNan }
/-- e2m1 -/
def fpE2m1 : FpFmt := { eBits := 2, mBits := 1, bias := 1, sign := true, kind := .numbers }
/-- e3m5 -/
def fpE3m5 : FpFmt := { eBits := 3, mBits := 5, bias := 3, sign := false, kind := .numbers }

/-- The format of a type of Tf. -/
def fpOf : FType → FpFmt
  | .f32 => fpF32 | .bf16 => fpBf16 | .f16 => fpF16

/-- The floating-point format of a type of Ta, if it is one. -/
def fpOfE : EType → Option FpFmt
  | .f32 => some fpF32 | .bf16 => some fpBf16 | .f16 => some fpF16 | .e4m3 => some fpE4m3 | .e5m2 => some fpE5m2
  | .e2m1 => some fpE2m1 | .e3m5 => some fpE3m5
  | .s8 => none | .s16 => none | .s32 => none | .s64 => none | .z8 => none | .z16 => none | .z32 => none
  | .z64 => none | .s4 => none

/-- A value: NaN (signalling or not), infinity, or the dyadic number ± m · 2^e. -/
inductive FVal where
  | nan (signalling : Bool)
  | inf (neg : Bool)
  | fin (neg : Bool) (m : Nat) (e : Int)
  deriving DecidableEq, Repr

/-- The value of an element (R50, R51). -/
def FpFmt.value (f : FpFmt) (bits : Nat) : FVal :=
  let m := bits % 2 ^ f.mBits
  let e := bits / 2 ^ f.mBits % 2 ^ f.eBits
  let neg := f.sign && bits / 2 ^ (f.mBits + f.eBits) % 2 == 1
  let top := e = 2 ^ f.eBits - 1
  let num : FVal :=
    if e = 0 then .fin neg m (1 - (f.bias : Int) - f.mBits)
    else .fin neg (2 ^ f.mBits + m) ((e : Int) - f.bias - f.mBits)
  match f.kind with
  | .ieee => if top then (if m = 0 then .inf neg else .nan (m / 2 ^ (f.mBits - 1) == 0)) else num
  | .oneNan => if top ∧ m = 2 ^ f.mBits - 1 then .nan false else num
  | .numbers => num

/-- The sign position of a format. -/
def FpFmt.signBit (f : FpFmt) : Nat := 2 ^ (f.mBits + f.eBits)

/-- The canonical NaN (R52), or what a format without NaN delivers (R54). -/
def FpFmt.qnan (f : FpFmt) : Nat :=
  match f.kind with
  | .ieee => (2 ^ f.eBits - 1) * 2 ^ f.mBits + 2 ^ (f.mBits - 1)
  | .oneNan => 2 ^ (f.mBits + f.eBits) - 1
  | .numbers => 0

/-- The significand and quantum of the largest finite value (R50). -/
def FpFmt.largest (f : FpFmt) : Nat × Int :=
  match f.kind with
  | .ieee => (2 ^ (f.mBits + 1) - 1, (2 ^ f.eBits : Int) - 2 - f.bias - f.mBits)
  | .oneNan => (2 ^ (f.mBits + 1) - 2, (2 ^ f.eBits : Int) - 1 - f.bias - f.mBits)
  | .numbers => (2 ^ (f.mBits + 1) - 1, (2 ^ f.eBits : Int) - 1 - f.bias - f.mBits)

/-- The bits of ± k · 2^q, a value the format holds, with the quantum of its own exponent. -/
def FpFmt.bits (f : FpFmt) (neg : Bool) (k : Nat) (q : Int) : Nat :=
  let body := if k < 2 ^ f.mBits then k
    else (q + f.mBits + f.bias).toNat * 2 ^ f.mBits + (k - 2 ^ f.mBits)
  if f.sign && neg then f.signBit + body else body

/-- The largest finite value, of a sign. -/
def FpFmt.maxBits (f : FpFmt) (neg : Bool) : Nat := f.bits neg f.largest.1 f.largest.2

/-- Infinity, which the saturating formats read as the largest value (R54). -/
def FpFmt.infBits (f : FpFmt) (neg : Bool) : Nat :=
  match f.kind with
  | .ieee => (if neg then f.signBit else 0) + (2 ^ f.eBits - 1) * 2 ^ f.mBits
  | _ => f.maxBits neg

/-- Number of binary digits. -/
def digits (n : Nat) : Nat := if n = 0 then 0 else Nat.log2 n + 1

/-- Rounds m · 2^e to a multiple of 2^q in a mode: the multiple, and whether it is inexact (R53). -/
def roundQ (r : RMode) (neg : Bool) (m : Nat) (e q : Int) : Nat × Bool :=
  if q ≤ e then (m * 2 ^ (e - q).toNat, false)
  else
    let sh := (q - e).toNat
    let lo := m / 2 ^ sh
    let rest := m % 2 ^ sh
    let half := 2 ^ (sh - 1)
    let up : Bool := match r with
      | .rne => decide (half < rest) || (rest == half && lo % 2 == 1)
      | .rna => decide (half ≤ rest)
      | .rtz => false
      | .rdn => neg && rest != 0
      | .rup => !neg && rest != 0
    (if up then lo + 1 else lo, rest != 0)

/-- Whether an overflow in a mode goes to infinity (R54). -/
def overflowsToInf (r : RMode) (neg : Bool) : Bool :=
  match r with
  | .rne => true
  | .rna => true
  | .rtz => false
  | .rdn => neg
  | .rup => !neg

/-- `round` of the exact ± m · 2^e, m ≠ 0, in a format that has a sign or of a positive value: bits and flags
(R53 … R55). Tininess is judged on the value rounded to the format's precision with an unbounded exponent. -/
def FpFmt.roundFin (f : FpFmt) (r : RMode) (neg : Bool) (m : Nat) (e : Int) : Nat × Nat :=
  let p : Int := f.mBits
  let emin : Int := 1 - f.bias
  let ex := e + digits m - 1
  let qn := ex - p
  let q := max ex emin - p
  let (k0, inexact) := roundQ r neg m e q
  let (k, q) := if k0 = 2 ^ (f.mBits + 1) then (2 ^ f.mBits, q + 1) else (k0, q)
  let (kmax, qmax) := f.largest
  if q > qmax ∨ (q = qmax ∧ k > kmax) then
    (if overflowsToInf r neg then f.infBits neg else f.maxBits neg, flagOF + flagNX)
  else
    let kn := (roundQ r neg m e qn).1
    let tiny := ex < emin ∧ ¬ (ex = emin - 1 ∧ kn = 2 ^ (f.mBits + 1))
    (f.bits neg k q, if inexact then flagNX + (if tiny then flagUF else 0) else 0)

/-- Delivers a value in a format: R52 for NaNs, R54 for infinities and for e3m5, otherwise one rounding. -/
def FpFmt.deliver (f : FpFmt) (r : RMode) (v : FVal) : Nat × Nat :=
  match v with
  | .nan sig =>
    (match f.kind with
     | .numbers => (0, flagNV)
     | .oneNan => (f.qnan, if sig then flagNV else 0)
     | .ieee => (f.qnan, if sig then flagNV else 0))
  | .inf neg =>
    (match f.kind with
     | .ieee => (f.infBits neg, 0)
     | .oneNan => (f.maxBits neg, flagOF + flagNX)
     | .numbers => if neg && !f.sign then (0, flagNV) else (f.maxBits neg, flagOF + flagNX))
  | .fin neg m e =>
    if m = 0 then (f.bits neg 0 0, 0)
    else if neg && !f.sign then (0, flagNV)
    else f.roundFin r neg m e

/-- Negation of a value. -/
def fvNeg : FVal → FVal
  | .nan s => .nan s
  | .inf n => .inf !n
  | .fin n m e => .fin (!n) m e

/-- The exact product of two values that are not NaN and not 0 · ∞. -/
def fvMul (a b : FVal) : FVal :=
  match a, b with
  | .nan s, _ => .nan s
  | _, .nan s => .nan s
  | .inf n, .inf k => .inf (n != k)
  | .inf n, .fin k _ _ => .inf (n != k)
  | .fin n _ _, .inf k => .inf (n != k)
  | .fin n m e, .fin k m' e' => .fin (n != k) (m * m') (e + e')

/-- A zero. -/
def fvIsZero : FVal → Bool
  | .fin _ m _ => m == 0
  | _ => false

/-- An infinity. -/
def fvIsInf : FVal → Bool
  | .inf _ => true
  | _ => false

/-- A NaN. -/
def fvIsNan : FVal → Bool
  | .nan _ => true
  | _ => false

/-- A signalling NaN. -/
def fvIsSnan : FVal → Bool
  | .nan s => s
  | _ => false

/-- The sign of a value. -/
def fvSign : FVal → Bool
  | .nan _ => false
  | .inf n => n
  | .fin n _ _ => n

/-- The signed multiple of 2^e that a finite value is, for an exponent not above its own. -/
def fvScaled (e : Int) : FVal → Int
  | .fin n m e' => (if n then -1 else 1) * ((m * 2 ^ (e' - e).toNat : Nat) : Int)
  | _ => 0

/-- The exponent of a finite value. -/
def fvExp : FVal → Int
  | .fin _ _ e => e
  | _ => 0

/-- The rounded sum of two values that are not NaN (R53, R155): opposite infinities give the canonical NaN with NV, an
exact zero sum of opposite signs is +0, or −0 toward −∞. -/
def FpFmt.sum (f : FpFmt) (r : RMode) (a b : FVal) : Nat × Nat :=
  match fvIsInf a, fvIsInf b with
  | true, true => if fvSign a != fvSign b then (f.qnan, flagNV) else (f.infBits (fvSign a), 0)
  | true, false => (f.infBits (fvSign a), 0)
  | false, true => (f.infBits (fvSign b), 0)
  | false, false =>
    let e := min (fvExp a) (fvExp b)
    let z := fvScaled e a + fvScaled e b
    if z = 0 then
      let neg := if fvIsZero a && fvIsZero b && fvSign a == fvSign b then fvSign a else r == .rdn
      (f.bits neg 0 0, 0)
    else f.roundFin r (decide (z < 0)) z.natAbs e

/-- NV when some value is a signalling NaN. -/
def snanFlag (vs : List FVal) : Nat := if vs.any fvIsSnan then flagNV else 0

/-- `add` (R155) -/
def FpFmt.add (f : FpFmt) (r : RMode) (a b : Nat) : Nat × Nat :=
  let x := f.value a
  let y := f.value b
  if fvIsNan x || fvIsNan y then (f.qnan, snanFlag [x, y]) else f.sum r x y

/-- `sub` (R155) -/
def FpFmt.sub (f : FpFmt) (r : RMode) (a b : Nat) : Nat × Nat :=
  let x := f.value a
  let y := f.value b
  if fvIsNan x || fvIsNan y then (f.qnan, snanFlag [x, y]) else f.sum r x (fvNeg y)

/-- 0 · ∞ -/
def zeroTimesInf (x y : FVal) : Bool := (fvIsInf x && fvIsZero y) || (fvIsZero x && fvIsInf y)

/-- `mul` (R155) -/
def FpFmt.mul (f : FpFmt) (r : RMode) (a b : Nat) : Nat × Nat :=
  let x := f.value a
  let y := f.value b
  if zeroTimesInf x y then (f.qnan, flagNV)
  else if fvIsNan x || fvIsNan y then (f.qnan, snanFlag [x, y])
  else f.deliver r (fvMul x y)

/-- `fma` (R156): a · b + c with one rounding. -/
def FpFmt.fma (f : FpFmt) (r : RMode) (a b c : Nat) : Nat × Nat :=
  let x := f.value a
  let y := f.value b
  let z := f.value c
  if zeroTimesInf x y then (f.qnan, flagNV)
  else if fvIsNan x || fvIsNan y || fvIsNan z then (f.qnan, snanFlag [x, y, z])
  else f.sum r (fvMul x y) z

/-- The numeric order of two values that are not NaN, −0 equal to +0: whether the first is below, and whether equal. -/
def fvLt (a b : FVal) : Bool :=
  match a, b with
  | .inf n, .inf k => n && !k
  | .inf n, .fin _ _ _ => n
  | .fin _ _ _, .inf k => !k
  | .fin _ _ _, .fin _ _ _ => let e := min (fvExp a) (fvExp b); decide (fvScaled e a < fvScaled e b)
  | _, _ => false

/-- Numeric equality of two values that are not NaN. -/
def fvEq (a b : FVal) : Bool := !fvIsNan a && !fvIsNan b && !fvLt a b && !fvLt b a

/-- Float `vmin` and `vmax` (R157): the order is numeric with −0 below +0. -/
def FpFmt.pick (f : FpFmt) (larger : Bool) (a b : Nat) : Nat × Nat :=
  let x := f.value a
  let y := f.value b
  if fvIsNan x && fvIsNan y then (f.qnan, snanFlag [x, y])
  else if fvIsNan x then (b, snanFlag [x])
  else if fvIsNan y then (a, snanFlag [y])
  else
    let below := fvLt x y || (fvEq x y && fvSign x && !fvSign y)
    (if larger then (if below then b else a) else (if below then a else (if fvEq x y && fvSign x == fvSign y then a else b)), 0)

/-- Float `vabs` (R158). -/
def FpFmt.abs (f : FpFmt) (a : Nat) : Nat × Nat :=
  let x := f.value a
  if fvIsNan x then (f.qnan, snanFlag [x]) else (a % f.signBit, 0)

/-- Float `vneg` (R158). -/
def FpFmt.neg (f : FpFmt) (a : Nat) : Nat × Nat :=
  let x := f.value a
  if fvIsNan x then (f.qnan, snanFlag [x])
  else (if a / f.signBit % 2 = 1 then a % f.signBit else a % f.signBit + f.signBit, 0)

/-- A float condition (R166): truth and flags. eq, ne, ord and uno are quiet, the others signal on any NaN. -/
def fHolds (k : FCond) (x y : FVal) : Bool × Nat :=
  let un := fvIsNan x || fvIsNan y
  let quiet := snanFlag [x, y]
  let loud := if un then flagNV else 0
  match k with
  | .eq => (!un && fvEq x y, quiet)
  | .ne => (un || !fvEq x y, quiet)
  | .lt => (!un && fvLt x y, loud)
  | .le => (!un && !fvLt y x, loud)
  | .gt => (!un && fvLt y x, loud)
  | .ge => (!un && !fvLt x y, loud)
  | .ord => (!un, quiet)
  | .uno => (un, quiet)

/-- The range of an integer element of width `w` (R49). -/
def intRange (w : Nat) (signed : Bool) : Int × Int :=
  if signed then (-(2 ^ (w - 1)), 2 ^ (w - 1) - 1) else (0, 2 ^ w - 1)

/-- Clamps into a range. -/
def clampTo (r : Int × Int) (z : Int) : Int := max r.1 (min r.2 z)

/-- A float value to an integer of width `w` (R56): bits and flags. -/
def fvToInt (r : RMode) (w : Nat) (signed : Bool) (v : FVal) : Nat × Nat :=
  let rg := intRange w signed
  match v with
  | .nan _ => (0, flagNV)
  | .inf n => (unsignedOf w (if n then rg.1 else rg.2), flagNV)
  | .fin n m e =>
    let (k, inexact) := roundQ r n m e 0
    let z : Int := if n then -(k : Int) else k
    if z < rg.1 ∨ rg.2 < z then (unsignedOf w (clampTo rg z), flagNV)
    else (unsignedOf w z, if inexact then flagNX else 0)

/-- An integer to a float value. -/
def fvOfInt (z : Int) : FVal := .fin (decide (z < 0)) z.natAbs 0

/-- Signedness of an integer type of Ta, and none for a float type. -/
def eSigned : EType → Option Bool
  | .s8 => some true | .s16 => some true | .s32 => some true | .s64 => some true | .s4 => some true
  | .z8 => some false | .z16 => some false | .z32 => some false | .z64 => some false
  | .f32 => none | .bf16 => none | .f16 => none | .e4m3 => none | .e5m2 => none | .e2m1 => none | .e3m5 => none

/-- The integer an element of an integer type holds. -/
def eInt (w : Nat) (signed : Bool) (b : Nat) : Int := if signed then signedOf w b else ((b % 2 ^ w : Nat) : Int)

/-- `cv` (R161): converts one element, giving bits and flags. -/
def convert (r : RMode) (td ts : EType) (b : Nat) : Nat × Nat :=
  match eSigned ts, eSigned td, fpOfE ts, fpOfE td with
  | some ss, some ds, _, _ => (unsignedOf (eWidth td) (clampTo (intRange (eWidth td) ds) (eInt (eWidth ts) ss b)), 0)
  | some ss, none, _, some fd => fd.deliver r (fvOfInt (eInt (eWidth ts) ss b))
  | none, some ds, some fs, _ => fvToInt r (eWidth td) ds (fs.value b)
  | none, none, some fs, some fd =>
    if ts = td then (match fs.value b with
      | .nan sig => (fd.qnan, if sig then flagNV else 0)
      | _ => (b, 0))
    else fd.deliver r (fs.value b)
  | _, _, _, _ => (0, 0)

end Sys2Proof.Machine
end

