-- ==== Sys2Proof/Machine/Access.lean ====
section
/-!
DEFINITION. Performing accesses (R298 … R304): reading elements as an activation sees them, its own queued stores
included (R299), atomics and `cas` at their homes (R145, R146), capability loads and stores (R42, R43, R346, R347),
Sluice operations on a line (R194, R195), and the order in which a slot's accesses may perform.
-/

namespace Sys2Proof.Machine

/-! ## Order within an activation (R302 … R306) -/

/-- The elements of an operation in flight; none for one that is no memory access. -/
def Flight.elems : Flight → List Elem
  | .load _ e => [e]
  | .vload _ _ es _ _ _ => es.map (·.2)
  | .cload e => [e]
  | .amo _ _ _ e => [e]
  | .cas _ _ _ e => [e]
  | .ccas _ _ e _ => [e]
  | .poll _ e => [e]
  | .slock _ => []
  | .ready _ => []
  | .publish _ _ => []
  | .ctr _ _ _ _ => []
  | .barge _ _ => []
  | .engine _ => []
  | .chain _ => []

/-- The element whose line `slock` fills: it is no access (R298). -/
def Flight.pins : Flight → Option Elem
  | .slock e => some e
  | _ => none

/-- The virtual lines of an operation in flight. -/
def Flight.lines (f : Flight) : List Nat := f.elems.map fun e => e.va / 64

/-- It has not performed. -/
def Owed.open_ (o : Owed) : Bool := o.res.isNone

/-- An earlier acquire has not performed (R304). -/
def Slot.acquiring (sl : Slot) (seq : Nat) : Bool := sl.owed.any fun o => o.acq && o.open_ && decide (o.seq < seq)

/-- An earlier owed access of one of the lines has not performed (R302). -/
def Slot.lineBusy (sl : Slot) (seq : Nat) (ls : List Nat) : Bool :=
  sl.owed.any fun o => o.open_ && decide (o.seq < seq) && o.flight.lines.any fun l => ls.contains l

/-- The virtual line of a queued write. -/
def Out.la (o : Out) : Nat := o.place.va / 64

/-- The bits of memory that a queued write of an element covers: first bit and width; a line for another write. -/
def Out.span (o : Out) : Nat × Nat :=
  match o.op with
  | .data e _ => (8 * o.place.key + 4 * e.nib, e.bits)
  | .line _ _ => (512 * lineKey o.place.key, 512)
  | .sluice _ _ => (512 * lineKey o.place.key, 512)

/-- Two queued writes share a location. -/
def Out.overlaps (a b : Out) : Bool :=
  decide (a.span.1 < b.span.1 + b.span.2) && decide (b.span.1 < a.span.1 + a.span.2)

/-- An earlier element of the same instruction writes one of the same locations and is not yet committed on its die
(R143, R144). -/
def Slot.aliasBusy (sl : Slot) (o : Out) : Bool :=
  sl.out.any fun q => decide (q.lvl < 2) && q.seq == o.seq && decide (q.idx < o.idx) && q.overlaps o

/-- An earlier write of one of the lines is not yet committed on its die. -/
def Slot.outBusy (sl : Slot) (seq : Nat) (ls : List Nat) : Bool :=
  sl.out.any fun o => decide (o.lvl < 2) && decide (o.seq < seq) && ls.contains o.la

/-- An uncommitted write of a line is held unreadable by a core, or is applied at the other die's proxy, which answers
no snoop before its commit (R321), or, for a write or a stash that would own the line (R318), is there at all (R314). -/
def State.pending (s : State) (core : Nat) (wr : Bool) (p : Place) : Bool :=
  match (s.cohAt (lineKey p.key)).pend with
  | some d => wr || s.stashes core p || d.held.contains core || (d.proxy && dieOf core == p.home / 64)
  | none => false

/-- The acknowledgement level that a scope needs (R299). -/
def ackLevel (sc : Nat) : Nat := if sc ≤ 1 then 1 else if sc ≤ 5 then 2 else 3

/-- Every earlier access of the slot has been acknowledged at a scope (R304): writes by level, owed accesses by having
performed. -/
def Slot.acked (sl : Slot) (seq sc : Nat) : Bool :=
  sl.out.all (fun o => decide (seq ≤ o.seq) || decide (ackLevel sc ≤ o.got))
    && sl.owed.all fun o => decide (seq ≤ o.seq) || !o.open_ || o.flight.elems == []

/-- A release at a scope, issued with a sequence number and a stamp, may perform. -/
def State.releaseOk (s : State) (key seq sc stamp : Nat) : Bool :=
  (s.slotAt key).acked seq sc && (decide (sc < 6) || s.cumulative (dieOf (key / 4)) stamp)

/-! ## Generations and capability lines -/

/-- The owner compartment of the code object that holds an address (R347). -/
def State.codeOwner (s : State) (world a : Nat) : Nat :=
  match (s.worldAt world).objs.find? fun o => decide (o.2.base ≤ a) && decide (a < o.2.base + o.2.tlen) with
  | some o => o.2.cmpt
  | none => 0

/-- What a capability load returns for a line (R42, R347). -/
def State.loadedCap (s : State) (w : Who) (p : Place) (c : CapReg) : CapReg :=
  let f := c.f
  if p.kind == .mint && c.tag && f.life == 4 then
    { f with gen := (s.generation w.world w.part f.base).getD 0 }.reg
  else if p.kind == .mint && c.tag && f.seal_ == 0 && f.fmt == 0x21 && f.has permEX then
    { f with seal_ := 1, perm := permMask [permEX, permCL, permGL], life := 3,
             cmpt := s.codeOwner w.world f.base }.reg
  else if s.stale w.world w.part c then { c with tag := false }
  else c

/-- Steps 1, 3 and 4 of R43, which need no translation; `mint` skips 1 and 4 (R347). -/
def State.capValueIssue (s : State) (w : Who) (v auth : CapReg) (mint : Bool) : Option Nat :=
  if !v.tag then none
  else if !mint && v.f.life == 4 && s.revoking w.world && s.stale w.world w.part v then some 0x15
  else if lifeRank v.f.life < lifeRank auth.f.life then some 0x16
  else if !mint && decide (2 ≤ lifeRank auth.f.life) && !v.f.has permGL then some 0x16
  else none

/-- Steps 2 and 5 of R43: the destination carries no tags, or lies in a peer's memory that another world owns. -/
def capValuePlace (w : Who) (v : CapReg) (p : Place) (last : Bool) : Option Nat :=
  if !v.tag then none
  else if !last && p.untagged then some 0x16
  else if last && p.kind == .peer && peerOwner p.key != w.world then some 0x16
  else none

/-- All of R43 in its order, for a store whose place is known. -/
def State.capValue (s : State) (w : Who) (v auth : CapReg) (p : Place) : Option Nat :=
  let mint := p.kind == .mint
  if v.tag && !mint && v.f.life == 4 && s.revoking w.world && s.stale w.world w.part v then some 0x15
  else match capValuePlace w v p false with
    | some c => some c
    | none => match s.capValueIssue w v auth mint with
      | some c => some c
      | none => capValuePlace w v p true

/-! ## Reading -/

/-- The line with the slot's own earlier writes of it that no home has committed (R299). -/
def State.overlay (s : State) (w : Who) (seq : Nat) (p : Place) : CapReg :=
  ((s.slotAt w.key).out.filter fun o => decide (o.lvl < 2) && decide (o.seq < seq) && o.place.key / 64 == p.key / 64).foldl
    (fun l o => match o.op with
      | .data e v => (WOp.data (o.place.key) e.nib e.bits v.toNat).apply l
      | .line _ v => v
      | .sluice _ _ => l) (s.viewLine w p)

/-- One of the slot's own queued writes supplies a nibble of memory. -/
def State.covered (s : State) (w : Who) (seq : Nat) (nibble : Nat) : Bool :=
  (s.slotAt w.key).out.any fun o => decide (o.lvl < 2) && decide (o.seq < seq) && decide (o.span.1 ≤ 4 * nibble)
    && decide (4 * nibble < o.span.1 + o.span.2) && !(match o.op with
        | .sluice _ _ => true
        | .data _ _ => false
        | .line _ _ => false)

/-- An element meets an error: a nibble of it has one that no queued write of the slot's own replaces (R47, R139). -/
def State.readPoisoned (s : State) (w : Who) (seq : Nat) (p : Place) (nib bits : Nat) : Bool :=
  let err := s.viewErrors w p
  (elemNibbles p.key nib bits).any fun j => err.contains j && !s.covered w seq (128 * lineKey p.key + j)

/-- The slot's own queued writes supply every bit of an element: it is read from the store queue (R299, R314). -/
def State.fromQueue (s : State) (w : Who) (seq : Nat) (p : Place) (nib bits : Nat) : Bool :=
  (elemNibbles p.key nib bits).all fun j => s.covered w seq (128 * lineKey p.key + j)

/-- Before an access of the slot reads an element: a page is reached and its line made readable, unless the store queue
supplies it. -/
def State.readyElem (s : State) (w : Who) (seq : Nat) (e : Elem) (p : Place) : State :=
  if s.fromQueue w seq p e.nib e.bits then s else (s.touchPage w e.va).readyRead w p

/-- Reads one element: step 3 of R138, the error of R47, the value. -/
def State.readElem (s : State) (w : Who) (k : AKind) (seq : Nat) (e : Elem) : Except FaultInfo (State × Nat × Place) :=
  match s.xlate w k false e.va with
  | .error c => .error (FaultInfo.atElem c e)
  | .ok p =>
    let s1 := s.readyElem w seq e p
    if s1.readPoisoned w seq p e.nib e.bits then .error (FaultInfo.atElem 0x23 e)
    else .ok (s1, lineElem (s1.overlay w seq p) e.va e.nib e.bits, p)

/-- Reads one capability line (R42): an error in the generation that its check reads is met like one of the line (R47). -/
def State.readCap (s : State) (w : Who) (k : AKind) (seq : Nat) (e : Elem) : Except FaultInfo (State × CapReg) :=
  match s.readElem w k seq e with
  | .error f => .error f
  | .ok (s1, _, p) =>
    let c := s1.overlay w seq p
    if s1.genLost w.world w.part c then .error (FaultInfo.atElem 0x23 e) else .ok (s1, s1.loadedCap w p c)

/-! ## Atomics -/

/-- The result of an `amo` on an element (R145). -/
def amoResult (t : IType) (k : AmoOp) (old x : Nat) : Nat :=
  let w := t.width
  match k with
  | .add => unsignedOf w (val t old + val t x)
  | .and => uval t old &&& uval t x
  | .or => uval t old ||| uval t x
  | .xor => uval t old ^^^ uval t x
  | .min => unsignedOf w (min (val t old) (val t x))
  | .max => unsignedOf w (max (val t old) (val t x))
  | .swap => uval t x

/-- The fault of a write that finds its revision's spill area full (R271). -/
def spillFault (e : Elem) : FaultInfo := { FaultInfo.atElem 0x3A e with agent := 3 }

/-- One atomic action on an element at its home (R145, R146): `f` gives the new value, or none for no write; the
answer is the old value. -/
def State.atomicElem (s : State) (w : Who) (e : Elem) (f : Nat → Option Nat) : Except FaultInfo (State × Nat) :=
  match s.xlate w .atomic false e.va with
  | .error c => .error (FaultInfo.atElem c e)
  | .ok p =>
    let s1 := (s.touchPage w e.va).readyWrite w p true
    if s1.placePoisoned w p e.nib e.bits then .error (FaultInfo.atElem 0x23 e)
    else
      let old := lineElem (s1.viewLine w p) e.va e.nib e.bits
      match f old with
      | none => .ok (s1, old)
      | some v =>
        match s1.writeNow w p (.data p.key e.nib e.bits v) with
        | some s2 => .ok (s2, old)
        | none => .error (spillFault e)

/-- One atomic action on a whole line at its home, as data: `f` gives the new bits, or none for no write. -/
def State.atomicLine (s : State) (w : Who) (k : AKind) (e : Elem) (f : Line → Option Line) :
    Except FaultInfo (State × Line) :=
  match s.xlate w k false e.va with
  | .error c => .error (FaultInfo.atElem c e)
  | .ok p =>
    let s1 := (s.touchPage w e.va).readyWrite w p true
    let le : Elem := { e with va := e.va / 64 * 64, nib := 0, bits := 512 }
    if s1.placePoisoned w { p with key := 64 * lineKey p.key } 0 512 then .error (FaultInfo.atElem 0x23 le)
    else
      let old := (s1.viewLine w p).bits
      match f old with
      | none => .ok (s1, old)
      | some b =>
        match s1.writeNow w p (.line { bits := b, tag := false }) with
        | some s2 => .ok (s2, old)
        | none => .error (spillFault e)

/-- The checks of R43 that the capability form of `cas` makes where it performs: steps 2 and 5 (R138), and before them
step 1 where `tret` performs it again; steps 3 and 4 say again what they said at issue (R235). -/
def State.capValueAgain (s : State) (w : Who) (new : CapReg) (p : Place) (again : Bool) : Option Nat :=
  if again && new.tag && p.kind != .mint && new.f.life == 4 && s.revoking w.world && s.stale w.world w.part new then some 0x15
  else (capValuePlace w new p false).orElse fun _ => capValuePlace w new p true

/-- The capability form of `cas` (R146). -/
def State.atomicCap (s : State) (w : Who) (expect new : CapReg) (e : Elem) (again : Bool) : Except FaultInfo (State × CapReg) :=
  match s.xlate w .atomic false e.va with
  | .error c => .error (FaultInfo.atElem c e)
  | .ok p =>
    match s.capValueAgain w new p again with
    | some c => .error (FaultInfo.atElem c e)
    | none =>
      let s1 := (s.touchPage w e.va).readyWrite w p true
      if s1.placePoisoned w p 0 512 || s1.genLost w.world w.part (s1.viewLine w p) then .error (FaultInfo.atElem 0x23 e)
      else
        let old := s1.loadedCap w p (s1.viewLine w p)
        if old = expect then
          match s1.writeNow w p (.line new) with
          | some s2 => .ok (s2, old)
          | none => .error (spillFault e)
        else .ok (s1, old)

/-! ## Sluices (R194, R195) -/

/-- The fields of a Sluice line. -/
structure SluiceF where
  flips : Nat
  eb : Nat
  ab : Nat
  ea : Nat
  aa : Nat
  deriving DecidableEq, Repr

/-- Reads a Sluice line. -/
def SluiceF.of (l : Line) : SluiceF :=
  let n := l.toNat
  { flips := bitsOf n 32 32, eb := bitsOf n 64 64, ab := bitsOf n 128 64, ea := bitsOf n 192 64, aa := bitsOf n 256 64 }

/-- The line of a Sluice; PH is FLIPS mod 2. Every operation writes the whole line: reserved bits become 0 and PH
follows FLIPS, whatever the line held (DESIGN CHOICE, log entry 98). -/
def SluiceF.line (f : SluiceF) : Line :=
  BitVec.ofNat 512 (f.flips % 2 + 2 ^ 32 * (f.flips % 2 ^ 32) + 2 ^ 64 * (f.eb % 2 ^ 64) + 2 ^ 128 * (f.ab % 2 ^ 64)
    + 2 ^ 192 * (f.ea % 2 ^ 64) + 2 ^ 256 * (f.aa % 2 ^ 64))

/-- The flip that the home evaluates. -/
def SluiceF.flip (f : SluiceF) : SluiceF :=
  if f.ea ≤ f.aa ∧ f.eb ≤ f.ab then { f with flips := (f.flips + 1) % 2 ^ 32, aa := 0, ab := 0, eb := 0 } else f

/-- A Sluice operation on a line. -/
def SluiceOp.apply (o : SluiceOp) (l : Line) : Line :=
  let f := SluiceF.of l
  match o with
  | .init n => SluiceF.line { flips := 0, eb := 0, ab := 0, ea := n, aa := 0 }
  | .arm n => ({ f with eb := (f.eb + n) % 2 ^ 64 }.flip).line
  | .arrive n => ({ f with aa := f.aa + 1, ab := (f.ab + n) % 2 ^ 64 }.flip).line
  | .count n => ({ f with ab := (f.ab + n) % 2 ^ 64 }.flip).line

/-- Applies a Sluice operation at its home, as one atomic action on the line. -/
def State.applySluice (s : State) (w : Who) (o : SluiceOp) (e : Elem) : Except FaultInfo State :=
  (s.atomicLine w .atomic e fun l => some (o.apply l)).map (·.1)

/-- Bits [63:0] of the line of a Sluice operand (R197). -/
def sluiceWord (e : Elem) : Elem := { e with nib := 0, bits := 64 }

/-- A Sluice operation that releases (R197). -/
def SluiceOp.releases : SluiceOp → Bool
  | .arrive _ => true
  | .count _ => true
  | .init _ => false
  | .arm _ => false

/-! ## Pins (R149, R288) -/

/-- Pins of a team in use (R288). -/
def pinQuota (t : Team) : Nat := 256 * t.cores

/-- The L1 of a core may not hold a line: of other memory than the device's, kept out for the core's stash, or a stash's
own (R149, R287, R318). -/
def State.noL1 (s : State) (core : Nat) (p : Place) : Bool :=
  p.kind != .dev || s.keepsOut core p || (s.cohAt (lineKey p.key)).owner.isSome

/-- Performs `slock` (R149): the status and the new state; a window line is in no need of a check (R283, R298). The line
is filled where status 0 says so, and for no other status. The spec does not say which status answers when the quota is
exhausted and six ways are pinned too: the model answers 2 (DESIGN CHOICE, log entry 73). -/
def State.pinLine (s : State) (w : Who) (e : Elem) : Except FaultInfo (State × Nat) :=
  if LW ≤ e.va then .ok (s, 4)
  else match s.xlate w .load false e.va with
  | .error c => .error (FaultInfo.atElem c e)
  | .ok p =>
    let lk := lineKey p.key
    let set_ := e.va / 64 % 1024
    let ways (t : State) : List L1Line := SMap.look [] (t.coreAt w.core).l1 set_
    if s.noL1 w.core p then .ok (s, 4)
    else if (ways s).any fun x => x.key == lk && x.pin == some w.team then .ok (s, 1)
    else if pinQuota (s.teamAt w.team) ≤ (s.teamAt w.team).pins then .ok (s, 2)
    else if 6 ≤ ((ways s).filter fun x => x.pin.isSome).length then .ok (s, 3)
    else
      let s1 := (s.touchPage w e.va).makeReadable w.core p
      .ok ((s1.updCore w.core fun c => { c with
              l1 := SMap.put [] c.l1 set_ ((ways s1).map fun y => if y.key = lk then { y with pin := some w.team } else y) })
            |>.updTeam w.team fun t => { t with pins := t.pins + 1 }, 0)

/-- `sunlock` (R149). -/
def State.unpinLine (s : State) (w : Who) (lk va : Nat) : State :=
  let set_ := va / 64 % 1024
  let l := SMap.look [] (s.coreAt w.core).l1 set_
  if l.any fun x => x.key == lk && x.pin == some w.team then
    (s.updCore w.core fun c => { c with
      l1 := SMap.put [] c.l1 set_ (l.filterMap fun y =>
        if y.key = lk then (if y.valid then some { y with pin := none } else none) else some y) })
      |>.updTeam w.team fun t => { t with pins := t.pins - 1 }
  else s

/-! ## Performing what a slot is owed -/

/-- A capability register that carries a word. -/
def capOfWord (w : Word) : CapReg := { bits := w.setWidth 512, tag := false }

/-- The value of a vector load from the values read, by position. -/
def vloadValue (w : Nat) (got : List (Nat × Nat)) : CapReg :=
  { bits := lanes w (512 / w) fun i => ((got.find? fun y => y.1 == i).map (·.2)).getD 0, tag := false }

/-- The first element of a list, in its order, that step 3 of R138 refuses. -/
def State.firstRefused (s : State) (w : Who) (k : AKind) : List (Nat × Elem) → Option FaultInfo
  | [] => none
  | (_, e) :: t =>
    match s.xlate w k false e.va with
    | .error c => some (FaultInfo.atElem c e)
    | .ok _ => s.firstRefused w k t

/-- A vector load reads one of its elements (R139, R301): step 3 is made for every element before any is read (R143), the
element is a free choice, and an error at an element leaves only lower ones to read (DESIGN CHOICE, log entry 70). One
that is performed again goes in element order (R235). -/
def State.vloadStep (s : State) (w : Who) (seq : Nat) (wd : Nat) (all es : List (Nat × Elem)) (got : List (Nat × Nat))
    (bad : Option FaultInfo) (again : Bool) : Except FaultInfo (State × Flight) :=
  match s.firstRefused w .vload es with
  | some f => .error f
  | none =>
    let (n, s0) := s.draw
    let j := if again then 0 else Config.elemOrder n % max 1 es.length
    match es[j]? with
    | none => .ok (s0, .vload wd all es got bad again)
    | some (i, e) =>
      match s0.readElem w .vload seq e with
      | .error f => .ok (s0, .vload wd all (es.filter fun x => decide (x.1 < i)) got (some f) again)
      | .ok (s1, v, _) => .ok (s1, .vload wd all (es.eraseIdx j) (got ++ [(i, v)]) bad again)

/-- Performs a memory operation in flight other than a vector load; the value it returns (R140 … R149, R197). -/
def State.performMem (s : State) (w : Who) (seq : Nat) (f : Flight) : Except FaultInfo (State × CapReg) :=
  match f with
  | .load t e => (s.readElem w .load seq e).map fun x => (x.1, capOfWord (ext t (x.2.1 : Int)))
  | .vload _ _ _ _ _ _ => .ok (s, CapReg.null)
  | .cload e => s.readCap w .load seq e
  | .amo t k x e => (s.atomicElem w e fun old => some (amoResult t k old x.toNat)).map fun y =>
      (y.1, capOfWord (ext t (y.2 : Int)))
  | .cas t x y e => (s.atomicElem w e fun old => if old = uval t x.toNat then some (uval t y.toNat) else none).map fun z =>
      (z.1, capOfWord (ext t (z.2 : Int)))
  | .ccas x y e again => s.atomicCap w x y e again
  | .slock e => (s.pinLine w e).map fun y => (y.1, capOfWord (BitVec.ofNat 64 y.2))
  | .poll _ e => (s.readElem w .observe seq (sluiceWord e)).map fun x => (x.1, capOfWord (BitVec.ofNat 64 x.2.1))
  | .ready v => .ok (s, v)
  | .publish _ _ => .ok (s, CapReg.null)
  | .ctr _ _ _ _ => .ok (s, CapReg.null)
  | .barge _ _ => .ok (s, CapReg.null)
  | .engine _ => .ok (s, CapReg.null)
  | .chain _ => .ok (s, CapReg.null)

/-- The kind of access of an operation in flight. -/
def Flight.kind : Flight → AKind
  | .load _ _ => .load
  | .vload _ _ _ _ _ _ => .vload
  | .cload _ => .load
  | .amo _ _ _ _ => .atomic
  | .cas _ _ _ _ => .atomic
  | .ccas _ _ _ _ => .atomic
  | .poll _ _ => .observe
  | .slock _ => .load
  | .ready _ => .load
  | .publish _ _ => .load
  | .ctr _ _ _ _ => .load
  | .barge _ _ => .load
  | .engine _ => .load
  | .chain _ => .load

/-- An earlier Sluice operation of one of the lines has not been applied. -/
def Slot.sluiceBusy (sl : Slot) (seq : Nat) (ls : List Nat) : Bool :=
  sl.out.any fun o => decide (o.lvl < 2) && decide (o.seq < seq) && ls.contains o.la && (match o.op with
    | .sluice _ _ => true
    | .data _ _ => false
    | .line _ _ => false)

/-- The lines of elements may be reached now (R314): a read that the slot's store queue supplies waits for no commit. -/
def State.reachable (s : State) (w : Who) (seq : Nat) (k : AKind) (es : List Elem) : Bool :=
  let atomic := k == .atomic
  es.all fun e => match s.xlate w k false e.va with
    | .ok p => !s.pending w.core atomic p || (!atomic && s.fromQueue w seq p e.nib e.bits)
    | .error _ => true

/-- An access of a slot to elements may perform now (R302, R304, R314); an atomic waits for the slot's own writes of
its line, a load takes their bytes. -/
def State.mayPerform (s : State) (key seq : Nat) (k : AKind) (es : List Elem) : Bool :=
  let sl := s.slotAt key
  let ls := es.map fun e => e.va / 64
  !sl.acquiring seq && !sl.lineBusy seq ls && !(if k == .atomic then sl.outBusy seq ls else sl.sluiceBusy seq ls)
    && s.reachable (s.who key) seq k es

/-- A line that is filled without an access may be read by a core now (R314, R321). -/
def State.fillable (s : State) (w : Who) (e : Elem) : Bool :=
  match s.xlate w .load false e.va with
  | .ok p => !s.pending w.core false p
  | .error _ => true

/-- An owed access of a slot may perform now. -/
def State.canPerform (s : State) (key : Nat) (o : Owed) : Bool :=
  s.mayPerform key o.seq o.flight.kind o.flight.elems && o.flight.pins.all (s.fillable (s.who key))

end Sys2Proof.Machine
end

