-- ==== Sys2Proof/Machine/CapOps.lean ====
section
/-!
DEFINITION. Derivation and inspection of capabilities (R128 … R136).
-/

namespace Sys2Proof.Machine

/-- A derivation (R128): under its guard, the source checks, then the parameters, then C[D]; a failure faults at issue
and leaves C[D] unchanged. -/
def derive (g : Ctl) (d : CReg) (s : State) (f : Slot → Except Nat CapReg) : Out3 :=
  if s.sl.guard g then
    match f s.sl with
    | .ok c => .next ((s.updSl fun sl => sl.setC d c).done g)
    | .error c => .next (s.faultNow (FaultInfo.of c))
  else .next (s.done g)

/-- A geometric derivation of C[A] (R40, R128). -/
def geometric (a : CReg) (sl : Slot) (f : CapF → Except Nat CapF) : Except Nat CapReg :=
  match srcCheck (sl.cr a) sl.cmpt with
  | some c => .error c
  | none => (f (sl.cr a).f).map CapF.derived

/-- Packed offsets of the immediate `cslice` by rank (R129). -/
def sliceOffsets (z : Word) (rank : Nat) (i : Nat) : Nat :=
  let n := z.toNat
  match rank with
  | 1 => if i = 0 then n else 0
  | 2 => if i < 2 then bitsOf n (32 * i) 32 else 0
  | _ => if i < 4 then bitsOf n (16 * i) 16 else 0

/-- The x register `r + j` of a group (R96). -/
def Slot.xg (sl : Slot) (r j : Nat) : Word := sl.xr (Fin.ofNat 32 (r + j))

/-- CSLICE_REGISTER (R129) -/
def execCsliceRegister (g : Ctl) (d a : CReg) (b : XQuad) (s : State) : Out3 :=
  derive g d s fun sl => geometric a sl fun c =>
    let o (i : Nat) : Nat := if i < c.rank then bitsOf (sl.xg b.val (i / 2)).toNat (32 * (i % 2)) 32 else 0
    let n (i : Nat) : Nat := if i < c.rank then bitsOf (sl.xg b.val (2 + i / 2)).toNat (32 * (i % 2)) 32 else 1
    c.slice o n

/-- CSLICE_IMMEDIATE (R129) -/
def execCsliceImmediate (g : Ctl) (d a : CReg) (b : XReg) (n : Imm) (s : State) : Out3 :=
  derive g d s fun sl => geometric a sl fun c =>
    c.slice (sliceOffsets (sl.xr b) c.rank) fun i => bitsOf n.toNat (8 * i) 8

/-- CSTEP_REGISTER (R130) -/
def execCstepRegister (g : Ctl) (d a : CReg) (b : XReg) (k : Fin 4) (s : State) : Out3 :=
  derive g d s fun sl => geometric a sl fun c => c.step k.val (sl.xr b).toNat

/-- CSTEP_IMMEDIATE (R130) -/
def execCstepImmediate (g : Ctl) (d a : CReg) (k : Fin 4) (f : BitVec 30) (s : State) : Out3 :=
  derive g d s fun sl => geometric a sl fun c => c.step k.val f.toNat

/-- CTRANS (R131) -/
def execCtrans (g : Ctl) (d a : CReg) (pi : BitVec 8) (s : State) : Out3 :=
  derive g d s fun sl => geometric a sl fun c => c.trans fun i => bitsOf pi.toNat (2 * i) 2

/-- CFIX_REGISTER (R132) -/
def execCfixRegister (g : Ctl) (d a : CReg) (b : XReg) (k : Fin 4) (s : State) : Out3 :=
  derive g d s fun sl => geometric a sl fun c => c.fix k.val (sl.xr b).toNat

/-- CFIX_IMMEDIATE (R132) -/
def execCfixImmediate (g : Ctl) (d a : CReg) (k : Fin 4) (o : BitVec 30) (s : State) : Out3 :=
  derive g d s fun sl => geometric a sl fun c => c.fix k.val o.toNat

/-- CPERM (R133) -/
def execCperm (g : Ctl) (d a : CReg) (i : Imm) (s : State) : Out3 :=
  derive g d s fun sl =>
    match srcCheckPerm (sl.cr a) sl.cmpt with
    | some c => .error c
    | none => ((sl.cr a).f.restrict i).map CapF.reg

/-- The checks of a seal's authority that come before the format: R38 with the coordinates of R134. The authority's
format is checked in step 2 with its rank and stride, so step 1 admits any format that R31 lets a data instruction
use. -/
def sealAuthority (sl : Slot) (b : CReg) (t perm : Nat) : Option FaultInfo :=
  let au := (sl.cr b).f
  let k : Coords := { k0 := (t : Int) - au.base, k1 := 0, k2 := 0, k3 := 0 }
  match check (sl.cr b) sl.cmpt [perm] fmtIsData k with
  | .error c => some (FaultInfo.ofCheck (sl.cr b) c k)
  | .ok _ => if au.rank ≠ 1 ∨ au.fmt ≠ 0x00 ∨ au.sd0 ≠ 1 then some (FaultInfo.of 0x12) else none

/-- The checks of a seal's target: tag, R34, and the seal it must carry (R134 steps 3 … 5). -/
def sealTarget (sl : Slot) (a : CReg) (need : Nat) : Option FaultInfo :=
  let c := (sl.cr a).f
  if !(sl.cr a).tag then some (FaultInfo.of 0x10)
  else if !c.usableBy sl.cmpt then some (FaultInfo.of 0x12)
  else if c.seal_ ≠ need then some (FaultInfo.of 0x14)
  else none

/-- `cseal` and `cunseal` (R134): authority, target, then the new seal. -/
def sealWith (g : Ctl) (d a b : CReg) (t perm need new : Nat) (s : State) : Out3 :=
  if s.sl.guard g then
    match sealAuthority s.sl b t perm with
    | some f => .next (s.faultNow f)
    | none =>
      match sealTarget s.sl a need with
      | some f => .next (s.faultNow f)
      | none => .next ((s.updSl fun sl => sl.setC d { (sl.cr a).f with seal_ := new }.reg).done g)
  else .next (s.done g)

/-- CSEAL (R134) -/
def execCseal (g : Ctl) (d a b : CReg) (t : BitVec 16) (s : State) : Out3 :=
  sealWith g d a b t.toNat permSE 0 t.toNat s

/-- CUNSEAL (R134) -/
def execCunseal (g : Ctl) (d a b : CReg) (t : BitVec 16) (s : State) : Out3 :=
  sealWith g d a b t.toNat permUS t.toNat 0 s

/-- The fields `cget` reads into x (R135). -/
def cgetField (c : CapReg) (sel : Nat) : Word :=
  let f := c.f
  if 0x20 ≤ sel then BitVec.ofNat 64 (bitsOf c.bits.toNat (64 * (sel - 0x20)) 64)
  else match sel with
    | 0x00 => BitVec.ofNat 64 f.base
    | 0x01 => BitVec.ofNat 64 f.ext0
    | 0x02 => BitVec.ofNat 64 f.ext1
    | 0x03 => BitVec.ofNat 64 f.ext2
    | 0x04 => BitVec.ofNat 64 f.ext3
    | 0x05 => BitVec.ofInt 64 f.sd0
    | 0x06 => BitVec.ofInt 64 f.sd1
    | 0x07 => BitVec.ofInt 64 f.sd2
    | 0x08 => BitVec.ofInt 64 f.sd3
    | 0x09 => BitVec.ofNat 64 f.fmt
    | 0x0A => BitVec.ofNat 64 f.rank
    | 0x0B => BitVec.ofNat 64 f.perm
    | 0x0C => BitVec.ofNat 64 f.life
    | 0x0D => BitVec.ofNat 64 f.gen
    | 0x0E => BitVec.ofNat 64 f.seal_
    | 0x0F => BitVec.ofNat 64 f.cmpt
    | 0x10 => BitVec.ofNat 64 f.hlay
    | 0x11 => BitVec.ofNat 64 f.hswz
    | 0x12 => BitVec.ofNat 64 c.tag.toNat
    | _ => BitVec.ofNat 64 (min (f.ext0 * f.ext1 * f.ext2 * f.ext3) (2 ^ 64 - 1))

/-- The tests `cget` makes for p (R135). -/
def cgetTest (c : CapReg) (cmpt sel : Nat) : Bool :=
  let f := c.f
  if 0x10 ≤ sel then c.tag && f.has (sel - 0x10)
  else match sel with
    | 0x00 => c.tag
    | 0x01 => f.seal_ != 0
    | 0x02 => c.tag && f.seal_ == 0 && f.usableBy cmpt
    | _ => f.ext0 == 0 || f.ext1 == 0 || f.ext2 == 0 || f.ext3 == 0

/-- CGET_X (R135) -/
def execCgetX (g : Ctl) (d : XReg) (a : CReg) (sel : BitVec 8) (s : State) : Out3 :=
  .next ((if s.sl.guard g then s.updSl fun sl => sl.setX d (cgetField (sl.cr a) sel.toNat) else s).done g)

/-- CGET_P (R135) -/
def execCgetP (g : Ctl) (d : PReg) (a : CReg) (sel : BitVec 8) (s : State) : Out3 :=
  .next ((if s.sl.guard g then s.updSl fun sl => sl.setP d (allBits (cgetTest (sl.cr a) sl.cmpt sel.toNat))
          else s).done g)

/-- CMOV (R136) -/
def execCmov (g : Ctl) (d a : CReg) (s : State) : Out3 :=
  .next ((if s.sl.guard g then s.updSl fun sl => sl.setC d (sl.cr a) else s).done g)

end Sys2Proof.Machine
end

