-- ==== Sys2Proof/Machine/MemOps.lean ====
section
/-!
DEFINITION. Loads, stores, vector accesses, atomics, pins and prefetches at their issue (R137 … R150); deferral
(R147, R199, R200). What a slot is owed performs later (Machine/Return.lean), and so do its queued writes
(Machine/Coherence.lean).
-/

namespace Sys2Proof.Machine

/-! ## Issue-time checks -/

/-- The check of R38 by the issuing slot, as a fault (steps 1 and 2 of R138). -/
def Slot.checkAt (sl : Slot) (c : CapReg) (perm : List Nat) (ok : Nat → Bool) (k : Coords) : Except FaultInfo Elem :=
  match check c sl.cmpt perm ok k with
  | .ok e => .ok e
  | .error n => .error (FaultInfo.ofCheck c n k)

/-- A cause, if there is one, as a fault of an element. -/
def causeAt (o : Option Nat) (e : Elem) : Except FaultInfo Unit :=
  match o with
  | some c => .error (FaultInfo.atElem c e)
  | none => .ok ()

/-- Step 3 of R138 at issue. -/
def State.placeAt (s : State) (k : AKind) (e : Elem) : Except FaultInfo Place :=
  match s.xlate (s.who s.cur) k false e.va with
  | .ok p => .ok p
  | .error c => .error (FaultInfo.atElem c e)

/-- Runs `f` under the scalar guard; a false guard checks nothing and has no effect (R91). -/
def guarded (g : Ctl) (s : State) (f : State) : Out3 := .next (if s.sl.guard g then f else s.done g)

/-! ## Owing at issue -/

/-- Owes a result of an operation in flight. -/
def State.oweNow (s : State) (d : Option RegRef) (mask : Line) (f : Flight) (acq : Bool) (df : Nat) : State :=
  s.updSl fun sl => sl.owe d mask f none acq sl.here df

/-! ## Deferral (R199, R200) -/

/-- Takes an entry of the deferred-effect buffer, or raises cause 0x38. -/
def State.defer (s : State) (g : Ctl) (op : DeferOp) (d : Option RegRef) (df : Nat) : State :=
  if 8 ≤ s.sl.deferred.length then s.faultNow (FaultInfo.of 0x38)
  else (s.updSl fun sl =>
    { sl with deferred := sl.deferred ++ [{ op := op, dest := d, stale := false, iaddr := sl.here, dfield := df }] }).done g

/-- Deferred before `commit`, owed at issue after it (R147). -/
def State.deferOrOwe (s : State) (g : Ctl) (f : Flight) (d : RegRef) (df : Nat) : State :=
  if s.sl.committed.isNone then s.defer g (.mem f) (some d) df
  else (s.oweNow (some d) fullMask f false df).done g

/-! ## The store queue -/

/-- Puts the writes of one instruction into the slot's store queue (R299). -/
def State.enqueue (s : State) (rel : Option Nat) (ws : List (OutOp × Place)) : State :=
  let (stamp, s1) := s.draw
  s1.updSl fun sl =>
    { sl with
      out := sl.out ++ ws.zipIdx.map fun x =>
        { op := x.1.1, rel := rel, seq := sl.seq, actid := sl.actid, iaddr := sl.here, place := x.1.2, idx := x.2, lvl := 0, got := 0,
          stamp := stamp }
      seq := sl.seq + 1 }

/-- Checks the elements of a data store completely, one after another, and reserves what they need (R138, R271). -/
def State.checkStores (s : State) (k : AKind) (c : CapReg) (ok : Nat → Bool) :
    List (Coords × Word) → Except FaultInfo (State × List (OutOp × Place))
  | [] => .ok (s, [])
  | (co, v) :: t =>
    match s.sl.checkAt c [permST] ok co with
    | .error f => .error f
    | .ok e =>
      match s.placeAt k e with
      | .error f => .error f
      | .ok p =>
        match s.reserve (s.who s.cur) s.sl.seq p with
        | none => .error (spillFault e)
        | some s1 =>
          match s1.checkStores k c ok t with
          | .error f => .error f
          | .ok (s2, l) => .ok (s2, (.data e v, p) :: l)

/-- A data store of elements (R140, R143, R144). -/
def State.storeAll (s : State) (g : Ctl) (k : AKind) (rel : Option Nat) (c : CapReg) (ok : Nat → Bool) (es : List (Coords × Word)) :
    State :=
  match s.checkStores k c ok es with
  | .error f => s.faultNow f
  | .ok (s1, l) => (if l = [] then s1 else s1.enqueue rel l).done g

/-! ## Scalar loads and stores -/

/-- LD (R140) -/
def execLd (g : Ctl) (t : IType) (d : XReg) (m : MemOp) (s : State) : Out3 :=
  guarded g s <| s.orFault (s.sl.checkAt (s.sl.cr m.c) [permLD] (fmtOfWidth t.width) (s.sl.coords m)) fun e =>
    (s.oweNow (some (.x d.val)) fullMask (.load t e) false (dField 1 0 d.val)).done g

/-- LD_ACQ (R141) -/
def execLdAcq (g : Ctl) (t : IType) (d : XReg) (m : MemReg) (_sc : ScopeCode) (s : State) : Out3 :=
  guarded g s <| s.orFault (s.sl.checkAt (s.sl.cr m.c) [permLD] (fmtOfWidth t.width) (s.sl.coordsR m)) fun e =>
    (s.oweNow (some (.x d.val)) fullMask (.load t e) true (dField 1 0 d.val)).done g

/-- ST (R140) -/
def execSt (g : Ctl) (t : IType) (d : XReg) (m : MemOp) (s : State) : Out3 :=
  guarded g s <| s.storeAll g .store none (s.sl.cr m.c) (fmtOfWidth t.width)
    [(s.sl.coords m, BitVec.ofNat 64 (uval t (s.sl.xr d).toNat))]

/-! ## Capability lines -/

/-- CLD (R142) -/
def execCld (g : Ctl) (d : CReg) (m : MemOp) (s : State) : Out3 :=
  guarded g s <| s.orFault (s.sl.checkAt (s.sl.cr m.c) [permLC] fmtIsLine (s.sl.coords m)) fun e =>
    (s.oweNow (some (.c d.val)) fullMask (.cload e) false (dField 3 0 d.val)).done g

/-- CST (R142, R43, R147): the value checks come before the place in a spill area (R271; DESIGN CHOICE, log entry 95). -/
def execCst (g : Ctl) (d : CReg) (m : MemOp) (s : State) : Out3 :=
  guarded g s <|
    let auth := s.sl.cr m.c
    let v := s.sl.cr d
    let r : Except FaultInfo (Elem × Place) := do
      let e ← s.sl.checkAt auth [permSC] fmtIsLine (s.sl.coords m)
      let p ← s.placeAt .store e
      causeAt (s.capValue (s.who s.cur) v auth p) e
      return (e, p)
    s.orFault r fun (e, p) =>
      if s.sl.committed.isNone && auth.f.life == 5 then s.defer g (.cst v auth e) none (dField 3 0 d.val)
      else match s.reserve (s.who s.cur) s.sl.seq p with
        | none => s.faultNow (spillFault e)
        | some s1 => (s1.enqueue none [(.line e v, p)]).done g

/-! ## Vector accesses -/

/-- The positions whose lane guard is true. -/
def Slot.onLanes (sl : Slot) (g : Ctl) (w n : Nat) : List Nat := (List.range n).filter (sl.laneGuard g w)

/-- The mask of the lanes of a list, of width `w`. -/
def laneMask (w : Nat) (l : List Nat) : Line := lanes w (512 / w) fun i => if l.contains i then 2 ^ w - 1 else 0

/-- Checks the elements of a vector load in element order (R143). -/
def Slot.checkLoads (sl : Slot) (c : CapReg) (ok : Nat → Bool) : List (Nat × Coords) → Except FaultInfo (List (Nat × Elem))
  | [] => .ok []
  | (i, k) :: t =>
    match sl.checkAt c [permLD] ok k with
    | .error f => .error f
    | .ok e =>
      match sl.checkLoads c ok t with
      | .error f => .error f
      | .ok l => .ok ((i, e) :: l)

/-- A vector load of elements by position: with no guarded element nothing is owed (R25, R143), and `vgth` zeroes no
position above 15 then (R144; DEDUCED, log entry 94). -/
def State.loadAll (s : State) (g : Ctl) (w : Nat) (d : VReg) (c : CapReg) (es : List (Nat × Coords)) (top : Line) :
    State :=
  if es = [] then s.done g
  else s.orFault (s.sl.checkLoads c (fmtOfWidth w) es) fun l =>
    (s.oweNow (some (.v d.val)) (laneMask w (es.map (·.1)) ||| top) (.vload w l l [] none false) false (dField 2 0 d.val)).done g

/-- VLD (R143) -/
def execVld (g : Ctl) (t : EType) (d : VReg) (m : MemOp) (s : State) : Out3 :=
  let w := eWidth t
  .next (s.loadAll g w d (s.sl.cr m.c)
    ((s.sl.onLanes g w (512 / w)).map fun i => (i, (s.sl.coords m).shift i)) 0)

/-- VST (R143) -/
def execVst (g : Ctl) (t : EType) (d : VReg) (m : MemOp) (s : State) : Out3 :=
  let w := eWidth t
  .next (s.storeAll g .vstore none (s.sl.cr m.c) (fmtOfWidth w)
    ((s.sl.onLanes g w (512 / w)).map fun i =>
      ((s.sl.coords m).shift i, BitVec.ofNat 64 (lane w i (s.sl.vr d)))))

/-- Elements that a gather or scatter moves (R144). -/
def gatherCount (w : Nat) : Nat := if w = 64 then 8 else 16

/-- The coordinates of element `i` of a gather or scatter (R144). -/
def gatherCoords (w rank : Nat) (b : Line) (i : Nat) : Coords :=
  if w = 64 then
    unpack (if rank = 1 then .one else if rank = 2 then .two else .four) (BitVec.ofNat 64 (lane 64 i b))
  else
    let z := lane 32 i b
    if rank = 1 then { Coords.zero with k0 := z } else { Coords.zero with k0 := bitsOf z 0 16, k1 := bitsOf z 16 16 }

/-- The bits above position 15, which `vgth` zeroes at landing when w < 32 (R144). -/
def gatherTop (w : Nat) : Line :=
  if w < 32 then BitVec.ofNat 512 (2 ^ 512 - 2 ^ (16 * w)) else 0

/-- VGTH (R144) -/
def execVgth (g : Ctl) (t : VType) (d : VReg) (a : CReg) (b : VReg) (s : State) : Out3 :=
  let w := t.width
  let c := s.sl.cr a
  .next (s.loadAll g w d c
    ((s.sl.onLanes g w (gatherCount w)).map fun i => (i, gatherCoords w c.f.rank (s.sl.vr b) i)) (gatherTop w))

/-- VSCT (R144) -/
def execVsct (g : Ctl) (t : VType) (d : VReg) (a : CReg) (b : VReg) (s : State) : Out3 :=
  let w := t.width
  let c := s.sl.cr a
  .next (s.storeAll g .vstore none c (fmtOfWidth w)
    ((s.sl.onLanes g w (gatherCount w)).map fun i =>
      (gatherCoords w c.f.rank (s.sl.vr b) i, BitVec.ofNat 64 (lane w i (s.sl.vr d)))))

/-! ## Atomics (R145 … R147) -/

/-- The modifier code of an `amo` operation (R90). -/
def amoMod : AmoOp → Nat
  | .add => 0 | .and => 1 | .or => 2 | .xor => 3 | .min => 4 | .max => 5 | .swap => 6

/-- Before `commit` step 3 of R138 is made at issue too (R147). -/
def State.deferPlace (s : State) (e : Elem) : Except FaultInfo Unit :=
  if s.sl.committed.isNone then (s.placeAt .atomic e).map fun _ => () else .ok ()

/-- AMO (R145) -/
def execAmo (g : Ctl) (t : IType) (k : AmoOp) (d : XReg) (m : MemOp) (s : State) : Out3 :=
  guarded g s <|
    let r : Except FaultInfo Elem := do
      let e ← s.sl.checkAt (s.sl.cr m.c) [permLD, permST, permAT] (fmtOfWidth t.width) (s.sl.coords m)
      s.deferPlace e
      return e
    s.orFault r fun e => s.deferOrOwe g (.amo t k (s.sl.xr d) e) (.x d.val) (dField 1 (amoMod k) d.val)

/-- The x register `r` of a group, by number. -/
def Slot.xn (sl : Slot) (r : Nat) : Word := sl.xr (Fin.ofNat 32 r)

/-- The c register of a group, by number. -/
def Slot.cn (sl : Slot) (r : Nat) : CapReg := sl.cr (Fin.ofNat 16 r)

/-- CAS (R146) -/
def execCas (g : Ctl) (t : IType) (d : XPair) (m : MemOp) (s : State) : Out3 :=
  guarded g s <|
    let r : Except FaultInfo Elem := do
      let e ← s.sl.checkAt (s.sl.cr m.c) [permLD, permST, permAT] (fmtOfWidth t.width) (s.sl.coords m)
      s.deferPlace e
      return e
    s.orFault r fun e =>
      s.deferOrOwe g (.cas t (s.sl.xn d.val) (s.sl.xn (d.val + 1)) e) (.x d.val) (dField 1 0 d.val)

/-- CAS_CAPABILITY (R146): steps 1, 3 and 4 of R43 are checked at issue, and before `commit` all of them. -/
def execCasCapability (g : Ctl) (d : CPair) (m : MemOp) (s : State) : Out3 :=
  guarded g s <|
    let auth := s.sl.cr m.c
    let v := s.sl.cn (d.val + 1)
    let r : Except FaultInfo Elem := do
      let e ← s.sl.checkAt auth [permLD, permST, permLC, permSC, permAT] fmtIsLine (s.sl.coords m)
      let mint := decide (mintBase ≤ e.va) && decide (e.va < counterBase)
      if s.sl.committed.isNone then
        let p ← s.placeAt .atomic e
        causeAt (s.capValue (s.who s.cur) v auth p) e
      else
        causeAt (s.capValueIssue (s.who s.cur) v auth mint) e
      return e
    s.orFault r fun e => s.deferOrOwe g (.ccas (s.sl.cn d.val) v e false) (.c d.val) (dField 3 0 d.val)

/-! ## Pins and prefetches (R149, R150) -/

/-- SLOCK (R149) -/
def execSlock (g : Ctl) (d : XReg) (m : MemOp) (s : State) : Out3 :=
  guarded g s <| s.orFault (s.sl.checkAt (s.sl.cr m.c) [permLD] fmtIsData (s.sl.coords m)) fun e =>
    (s.oweNow (some (.x d.val)) fullMask (.slock e) false (dField 1 0 d.val)).done g

/-- SUNLOCK (R149): a page that step 3 of R138 refuses raises nothing, and the unpin is made at issue, whatever an
earlier `slock` that has not returned will do (DESIGN CHOICE, log entry 73). -/
def execSunlock (g : Ctl) (m : MemOp) (s : State) : Out3 :=
  guarded g s <| s.orFault (s.sl.checkAt (s.sl.cr m.c) [permLD] fmtIsData (s.sl.coords m)) fun e =>
    (match s.xlate (s.who s.cur) .load false e.va with
     | .ok p => s.unpinLine (s.who s.cur) (lineKey p.key) e.va
     | .error _ => s).done g

/-- A dropped prefetch is counted (R150, R227). -/
def State.dropPrefetch (s : State) : State := s.count 0 (s.cur / 4) 5 1

/-- A first-touch page without a record has no home for a prefetch (R337). -/
def State.noRecord (s : State) (w : Who) (va : Nat) : Bool :=
  match (s.gridAt w.grid).leases.find? fun x => x.1 == va / 4096 with
  | some x => firstTouch x.2.leaf.toNat && SMap.look 0 s.touch (touchKey w.world va) == 0
  | none => false

/-- The effect of a prefetch that is not dropped: a fill of the L1, of the home slice, or of the stash. A line that the L1
may not hold is not filled there, nor does level 0 fetch it into the stash (R285, R287); a line with an uncommitted write
is not filled (DESIGN CHOICE, log entry 75). -/
def State.prefetch (s : State) (l : PrefLevel) (w : Who) (p : Place) : State :=
  let lk := lineKey p.key
  match l with
  | .l1 => if s.noL1 w.core p || s.pending w.core false p then s else s.makeReadable w.core p
  | .l2 => (s.updLine p id).sliceAccess p.home lk
  | .stash =>
    if 0 < s.stashBanks w.core then
      if (s.cohAt lk).owner.isNone && (s.cohAt lk).pend.isNone then ((s.updLine p id).settle lk).fillStash w.core p else s
    else s.dropPrefetch

/-- PREF (R150, R337). The rule names no prefetch of lines that no cache of the core holds: one to an aperture is dropped and
counted, one to host memory that does not name the slice, or to a peer's, does nothing (DESIGN CHOICE, log entry 75). -/
def execPref (g : Ctl) (l : PrefLevel) (m : MemOp) (s : State) : Out3 :=
  guarded g s <|
    let w := s.who s.cur
    (match s.sl.checkAt (s.sl.cr m.c) [permLD] fmtIsData (s.sl.coords m) with
     | .error _ => s.dropPrefetch
     | .ok e =>
       match s.xlate w .load false e.va with
       | .error _ => s.dropPrefetch
       | .ok p =>
         match p.kind with
         | .dev => if s.noRecord w e.va then s.dropPrefetch else s.prefetch l w p
         | .host => if s.noRecord w e.va then s.dropPrefetch else match l with
           | .l1 => s
           | .l2 => s.makeReadable w.core p
           | .stash => s
         | .peer => s
         | .win => s.dropPrefetch
         | .ctr => s.dropPrefetch
         | .mint => s.dropPrefetch).done g

end Sys2Proof.Machine
end

