-- ==== Sys2Proof/Machine/Engine.lean ====
section
/-!
DEFINITION. The plane engine: tile registers (R18, R57, R58, R173, R174), accumulators (R19, R175), chains (R176), the
matrix forms (R61 … R68, R177 … R181) and the commit of its instructions (R63, R171, R172).
-/

namespace Sys2Proof.Machine

/-! ## Tiles -/

/-- The fields of a tile image (R18). -/
structure TileF where
  valid : Bool
  isB   : Bool
  fmt   : Nat
  np    : Nat
  nm    : Nat
  swz   : Nat
  off   : Nat
  deriving DecidableEq, Repr

/-- Reads a tile image. NP is held in five bits as the count itself (R18). -/
def TileF.of (w : Word) : TileF :=
  let n := w.toNat
  { valid := bitsOf n 63 1 == 1, isB := bitsOf n 62 1 == 1, fmt := bitsOf n 48 8, np := bitsOf n 43 5, nm := bitsOf n 37 5,
    swz := bitsOf n 32 5, off := bitsOf n 0 18 }

/-- The group-aligned formats of R58. -/
def groupFmt (f : Nat) : Bool := f == 0x13 || f == 0x14 || f == 0x11 || f == 0x12 || f == 0x10

/-- The integer-staged formats of R58. -/
def intFmt (f : Nat) : Bool := f == 0x09 || f == 0x01 || f == 0x05 || f == 0x02 || f == 0x15

/-- The plane counts a format accepts (R58). -/
def stageOk (f np : Nat) : Bool :=
  decide (np ≤ 16) && (match f with
    | 0x09 => decide (4 ≤ np)
    | 0x01 => decide (8 ≤ np)
    | 0x05 => decide (9 ≤ np)
    | 0x02 => decide (16 ≤ np)
    | 0x15 => decide (5 ≤ np)
    | _ => groupFmt f && decide (2 ≤ np))

/-- The first bank of the plane region of a core (R278). -/
def State.planeBank (s : State) (core : Nat) : Nat :=
  match (s.coreAt core).team with
  | some t => max 4 ((s.namedSize (s.teamAt t).grid + 0x3FFF) / 0x4000)
  | none => 4

/-- The first byte of a core's plane region. -/
def State.planeBase (s : State) (core : Nat) : Nat := 0x4000 * s.planeBank core

/-- Bytes of a tile: its planes, and the side table of a group-aligned format (R174). -/
def TileF.bytes (t : TileF) : Nat := 256 * t.np + (if groupFmt t.fmt then 256 else 0)

/-- The checks of `tset` on an image (R173). -/
def State.tileCheck (s : State) (core : Nat) (w : Word) : Option Nat :=
  let n := w.toNat
  let t := TileF.of w
  let b := s.planeBase core
  if bitsOf n 56 5 != 0 || bitsOf n 61 1 != 0 || bitsOf n 42 1 != 0 || bitsOf n 18 14 != 0 then some 0x31
  else if !t.valid then none
  else if !stageOk t.fmt t.np then some 0x01
  else if !(t.swz == 0 || (decide (8 ≤ t.swz) && decide (t.swz ≤ 16))) || t.off % 256 != 0 then some 0x31
  else if t.off < b ∨ b + 0x10000 < t.off + t.bytes then some 0x31
  else none

/-- The physical scratchpad byte of a logical one under a swizzle (R193). -/
def swizzle (swz l : Nat) : Nat := if swz = 0 then l else l ^^^ (l / 2 ^ swz % 4 * 64)

/-- A 64-bit row of a plane (R57). -/
def State.planeRow (s : State) (core : Nat) (t : TileF) (n r : Nat) : Nat :=
  Memory.num s.mem (memKey (.spad core) (swizzle t.swz (t.off + 256 * n + 8 * r))) 8

/-- The staged integer of line `r` and k-element `k` from the line's planes (R57). -/
def stagedQ (rows : List Nat) (k : Nat) : Int :=
  let np := rows.length
  ((List.range np).foldl (fun (a : Int) n =>
      a + (if rows.getD n 0 / 2 ^ k % 2 = 1 then (if n + 1 = np then -(2 ^ n : Int) else 2 ^ n) else 0)) 0)

/-- The 64 staged integers of a line of a tile. -/
def State.tileLine (s : State) (core : Nat) (t : TileF) (r : Nat) : List Int :=
  let rows := (List.range t.np).map fun n => s.planeRow core t n r
  (List.range 64).map (stagedQ rows)

/-- The side-table entry of a line and group: mark and exponent (R174). -/
def State.sideEntry (s : State) (core : Nat) (t : TileF) (m g : Nat) : Bool × Int :=
  let e := Memory.num s.mem (memKey (.spad core) (swizzle t.swz (t.off + 256 * t.np + 8 * m + 2 * g))) 2
  (bitsOf e 15 1 == 1, signedOf 9 e)

/-! ## Accumulators -/

/-- Cell key. -/
def cellKey (slot r c : Nat) : Nat := 1024 * slot + 32 * r + c

/-- A cell. -/
def Engine.cell (e : Engine) (slot r c : Nat) : Word := SMap.look 0 e.acc (cellKey slot r c)

/-- The tag of a narrow slot. -/
def Engine.tagOf (e : Engine) (d : Nat) : AccTag := SMap.look .fp32 e.tags d

/-- A narrow slot is fresh. -/
def Engine.fresh (e : Engine) (d : Nat) : Bool := !SMap.look false e.used d

/-- Sets a narrow slot's tag and clears fresh (R175). -/
def Engine.setTag (e : Engine) (d : Nat) (t : AccTag) : Engine :=
  { e with tags := SMap.put .fp32 e.tags d t, used := SMap.put false e.used d true }

/-- `mzero`'s effect on tag and fresh bit (R175). -/
def Engine.refresh (e : Engine) (d : Nat) : Engine :=
  { e with tags := SMap.put .fp32 e.tags d .fp32, used := SMap.put false e.used d false }

/-- Rewrites the 1,024 cells of a slot. -/
def Engine.setCells (e : Engine) (slot : Nat) (f : Nat → Nat → Word) : Engine :=
  let mine := ((List.range 1024).map fun i => (1024 * slot + i, f (i / 32) (i % 32))).filter fun x => x.2 != 0
  { e with acc := (e.acc.filter fun x => decide (x.1 < 1024 * slot)) ++ mine
                    ++ e.acc.filter fun x => decide (1024 * slot + 1024 ≤ x.1) }

/-- The engine invalidated and zeroed (R20); its queue is not touched. -/
def Engine.wiped (e : Engine) : Engine := { e with t := [], acc := [], tags := [], used := [] }

/-! ## What the forms compute (R61 … R68, R179) -/

/-- Sum of products of two lists over k-elements lo … lo + n − 1. -/
def dotRange (a b : List Int) (lo n : Nat) : Int :=
  (List.range n).foldl (fun acc i => acc + a.getD (lo + i) 0 * b.getD (lo + i) 0) 0

/-- The covered cells of a tile pair (R178). -/
def covers (ta tb : TileF) (r c : Nat) : Bool := decide (r ≤ ta.nm) && decide (c ≤ tb.nm)

/-- One FP32 cell of `mmf` (R62): value and flags, group by group. -/
def mmfCell (npa npb : Nat) (a b : List Int) (sa sb : Nat → Bool × Int) (acc : Nat) : Nat × Nat :=
  (List.range 4).foldl (fun st g =>
    if (sa g).1 || (sb g).1 then (fpF32.qnan, st.2 ||| flagNV)
    else
      let z := dotRange a b (16 * g) 16
      let (t, f1) := fpF32.deliver .rne
        (.fin (decide (z < 0)) z.natAbs ((sa g).2 - (npa : Int) + 2 + (sb g).2 - (npb : Int) + 2))
      let t := if z = 0 then 0 else t
      let (v, f2) := fpF32.add .rne st.1 t
      (v, st.2 ||| f1 ||| f2)) (acc, 0)

/-- Clamps a wide sum (R67): value and flags. -/
def wideSum (w z : Int) : Word × Nat :=
  let r := w + z
  let lo : Int := -(2 ^ 63)
  let hi : Int := 2 ^ 63 - 1
  if r < lo then (BitVec.ofInt 64 lo, flagOF) else if hi < r then (BitVec.ofInt 64 hi, flagOF) else (BitVec.ofInt 64 r, 0)

/-- The decoded scale of an e3m5 byte (R51, R66): significand and exponent. -/
def scaleOf (b : Nat) : Nat × Int :=
  if b / 32 = 0 then (b % 32, -7) else (32 + b % 32, (b / 32 : Nat) - 8)

/-- The term that `mscacc` adds (R66). -/
def scaleTerm (p : Int) (a b : Nat) : Int :=
  let (sa, ea) := scaleOf a
  let (sb, eb) := scaleOf b
  p * sa * sb * 2 ^ (ea + eb + 14).toNat

/-- The cells of a slot computed one by one, with the OR of their flags. -/
def Engine.mapCells (e : Engine) (slot : Nat) (f : Nat → Nat → Word × Nat) : Engine × Nat :=
  let res := (List.range 1024).map fun i => f (i / 32) (i % 32)
  (e.setCells slot fun r c => (res.getD (32 * r + c) (0, 0)).1, res.foldl (fun fl x => fl ||| x.2) 0)

/-- Lane values of `macld` (R180): value and flags. -/
def Engine.drain (e : Engine) (a grp : Nat) : Line × Nat :=
  let cell (l : Nat) : Word := e.cell a (grp / 2) (16 * (grp % 2) + l)
  if a < 8 then (lanes 32 16 fun l => (cell l).toNat % 2 ^ 32, 0)
  else
    let v (l : Nat) : Nat × Nat := fpF32.deliver .rne (.fin (decide ((cell l).toInt < 0)) (cell l).toInt.natAbs (-16))
    (lanes 32 16 fun l => (v l).1, (List.range 16).foldl (fun f l => f ||| (v l).2) 0)

/-- Executes an engine instruction on a core: the engine, the drained line, flags and plane cycles (R179, R182, R227). -/
def State.runEngine (s : State) (core : Nat) (w : EngineWork) : Engine × Line × Nat × Nat :=
  let e := (s.coreAt core).engine
  match w with
  | .mmf d ta tb =>
    let a := TileF.of ta
    let b := TileF.of tb
    let la := (List.range 32).map (s.tileLine core a)
    let lb := (List.range 32).map (s.tileLine core b)
    let r := e.mapCells d fun i j =>
      if covers a b i j then
        let x := mmfCell a.np b.np (la.getD i []) (lb.getD j []) (s.sideEntry core a i) (s.sideEntry core b j)
          (e.cell d i j).toNat
        (BitVec.ofNat 64 x.1, x.2)
      else (e.cell d i j, 0)
    (r.1, 0, r.2, a.np * b.np)
  | .mmi d ta tb =>
    let a := TileF.of ta
    let b := TileF.of tb
    let la := (List.range 32).map (s.tileLine core a)
    let lb := (List.range 32).map (s.tileLine core b)
    let r := e.mapCells d fun i j =>
      if covers a b i j then
        let z := dotRange (la.getD i []) (lb.getD j []) 0 64
        if d < 8 then (BitVec.ofNat 64 (unsignedOf 32 ((e.cell d i j).toNat + z)), 0)
        else wideSum (e.cell d i j).toInt (z * 2 ^ 16)
      else (e.cell d i j, 0)
    (r.1, 0, r.2, a.np * b.np)
  | .mmb d ta tb len =>
    let a := TileF.of ta
    let b := TileF.of tb
    let la := (List.range 32).map (s.tileLine core a)
    let lb := (List.range 32).map (s.tileLine core b)
    let e' := (List.range (64 / len)).foldl (fun (x : Engine) n => x.setCells (d + n) fun i j =>
      if covers a b i j then BitVec.ofNat 64 (unsignedOf 32 (dotRange (la.getD i []) (lb.getD j []) (len * n) len))
      else 0) e
    (e', 0, 0, a.np * b.np)
  | .mscacc d a scales =>
    let r := e.mapCells d fun i j =>
      wideSum (e.cell d i j).toInt
        (scaleTerm (signedOf 32 (e.cell a i j).toNat) (lane 8 i scales) (lane 8 (32 + j) scales))
    (r.1, 0, r.2, 4)
  | .macld a grp => let x := e.drain a grp; (e, x.1, x.2, 4)
  | .mzero d => (e.setCells d fun _ _ => 0, 0, 0, 2)

/-! ## Issue -/

/-- The team of the issuing slot claims the engine (R20 case 2). -/
def State.claimEngine (s : State) : State :=
  if s.core.engine.owner = some s.sl.team then s
  else s.updMyCore fun c => { c with engine := { c.engine.wiped with owner := some s.sl.team } }

/-- The tiles that an engine instruction reads. -/
def EngineWork.tiles : EngineWork → List TileF
  | .mmf _ a b => [TileF.of a, TileF.of b]
  | .mmi _ a b => [TileF.of a, TileF.of b]
  | .mmb _ a b _ => [TileF.of a, TileF.of b]
  | .mscacc _ _ _ => []
  | .macld _ _ => []
  | .mzero _ => []

/-- The planes and side tables of two tiles share a byte. -/
def TileF.overlaps (a b : TileF) : Bool := decide (a.off < b.off + b.bytes) && decide (b.off < a.off + a.bytes)

/-- A staging issued before an engine instruction has not been carried out and writes what the instruction reads
(R172). -/
def Core.interlocked (c : Core) (op : EngineOp) : Bool :=
  c.barge.any fun b => decide (b.num ≤ op.after) && (match b.work with
    | .stage t _ _ _ => op.work.tiles.any (TileF.of t).overlaps
    | .copy _ _ _ _ => false
    | .resume _ _ => false)

/-- The instructions that the engine has taken up (R21): the first once its interlock lets it begin, and inside a chain
those after it, which may begin before it commits (R63; DESIGN CHOICE, log entry 77). -/
def Core.engineTaken (c : Core) : Nat :=
  match c.engine.queue with
  | [] => 0
  | op :: t =>
    if c.interlocked op then 0
    else 1 + (t.takeWhile fun o => op.chain.isSome && o.chain == op.chain && !c.interlocked o).length

/-- The two entries of the queue are taken (R21). -/
def Core.engineFull (c : Core) : Bool := decide (2 + c.engineTaken ≤ c.engine.queue.length)

/-- The engine of the issuing slot's core. -/
def State.eng (s : State) : Engine := s.core.engine

/-- An engine instruction (R169, R170): another slot's chain keeps it out; a false guard has no effect. -/
def engineIssue (g : Ctl) (s : State) (f : State → State) : Out3 :=
  .next <|
    match s.eng.chain with
    | some k => if k ≠ s.cur % 4 then s.hold .chain else if s.sl.guard g then f s.claimEngine else s.done g
    | none => if s.sl.guard g then f s.claimEngine else s.done g

/-- One that enters the queue of two entries: a full queue stops the slot (R21). -/
def engineQueue (g : Ctl) (s : State) (f : State → State) : Out3 :=
  engineIssue g s fun t => if t.core.engineFull then t.hold .engine else f t

/-- Enters the queue, with the change of tags that happens at issue (R175), and owes what R171 says. -/
def State.enterEngine (s : State) (g : Ctl) (w : EngineWork) (d : Option RegRef) (df : Nat) (tag : Engine → Engine) :
    State :=
  let n := s.eng.num + 1
  let inChain := s.eng.chain.isSome
  let op : EngineOp := { num := n, slot := s.cur % 4, work := w, after := s.core.bnum,
                         chain := if inChain then some s.eng.chains else none }
  let s1 := s.updMyCore fun c => { c with engine := { tag c.engine with num := n, queue := c.engine.queue ++ [op] } }
  (match d with
   | some _ => s1.oweNow d fullMask (.engine n) false df
   | none => if inChain then s1 else s1.oweNow none fullMask (.engine n) false 0).done g

/-- A tile register. -/
def Engine.tile (e : Engine) (t : TReg) : Word := SMap.look 0 e.t t.val

/-- The tile and format checks of R177, steps 1 and 2. -/
def tilesOk (ta tb : Word) (ok : Nat → Bool) : Bool :=
  let a := TileF.of ta
  let b := TileF.of tb
  a.valid && !a.isB && b.valid && b.isB && ok a.fmt && ok b.fmt

/-- TSET (R173) -/
def execTset (g : Ctl) (d : TReg) (a : XReg) (s : State) : Out3 :=
  engineIssue g s fun t =>
    let w := t.sl.xr a
    match t.tileCheck (t.cur / 4) w with
    | some c => t.faultNow (FaultInfo.of c)
    | none => (t.updMyCore fun c => { c with engine := { c.engine with t := SMap.put 0 c.engine.t d.val w } }).done g

/-- MCHAIN (R176) -/
def execMchain (g : Ctl) (s : State) : Out3 :=
  engineIssue g s fun t =>
    if t.eng.chain.isSome then t.faultNow (FaultInfo.of 0x34)
    else (t.updMyCore fun c =>
      { c with engine := { c.engine with chain := some (t.cur % 4), chains := c.engine.chains + 1 } }).done g

/-- MEND (R171, R176) -/
def execMend (g : Ctl) (s : State) : Out3 :=
  engineIssue g s fun t =>
    if t.eng.chain.isNone then t.faultNow (FaultInfo.of 0x34)
    else
      let t1 := t.updMyCore fun c => { c with engine := { c.engine with chain := none } }
      (t1.oweNow none fullMask (.chain t.eng.chains) false 0).done g

/-- MMF (R177, R179) -/
def execMmf (g : Ctl) (d : NAcc) (a b : TReg) (s : State) : Out3 :=
  engineQueue g s fun t =>
    let ta := t.eng.tile a
    let tb := t.eng.tile b
    if !tilesOk ta tb groupFmt then t.faultNow (FaultInfo.of 0x31)
    else if !(t.eng.fresh d.val || t.eng.tagOf d.val == .fp32) then t.faultNow (FaultInfo.of 0x32)
    else t.enterEngine g (.mmf d.val ta tb) none 0 fun e => e.setTag d.val .fp32

/-- MMI_NARROW (R177, R179) -/
def execMmiNarrow (g : Ctl) (d : NAcc) (a b : TReg) (s : State) : Out3 :=
  engineQueue g s fun t =>
    let ta := t.eng.tile a
    let tb := t.eng.tile b
    if !tilesOk ta tb intFmt then t.faultNow (FaultInfo.of 0x31)
    else if !(t.eng.fresh d.val || t.eng.tagOf d.val == .int32) then t.faultNow (FaultInfo.of 0x32)
    else t.enterEngine g (.mmi d.val ta tb) none 0 fun e => e.setTag d.val .int32

/-- MMI_WIDE (R177, R179) -/
def execMmiWide (g : Ctl) (d : WAcc) (a b : TReg) (s : State) : Out3 :=
  engineQueue g s fun t =>
    let ta := t.eng.tile a
    let tb := t.eng.tile b
    if !tilesOk ta tb intFmt then t.faultNow (FaultInfo.of 0x31)
    else t.enterEngine g (.mmi (8 + d.val) ta tb) none 0 id

/-- A block length (R101). -/
def blkLen : BlkLen → Nat
  | .b8 => 8 | .b16 => 16 | .b32 => 32

/-- MMB (R177, R179) -/
def execMmb (g : Ctl) (d : NAcc) (a b : TReg) (la lb : BlkLen) (s : State) : Out3 :=
  engineQueue g s fun t =>
    let ta := t.eng.tile a
    let tb := t.eng.tile b
    let len := min (blkLen la) (blkLen lb)
    if !tilesOk ta tb (· == 0x15) then t.faultNow (FaultInfo.of 0x31)
    else if 8 < d.val + 64 / len then t.faultNow (FaultInfo.of 0x32)
    else t.enterEngine g (.mmb d.val ta tb len) none 0 fun e =>
      (List.range (64 / len)).foldl (fun x n => x.setTag (d.val + n) .block) e

/-- MSCACC (R177, R179) -/
def execMscacc (g : Ctl) (d : WAcc) (a : NAcc) (b : VReg) (s : State) : Out3 :=
  engineQueue g s fun t =>
    if t.eng.tagOf a.val != .block then t.faultNow (FaultInfo.of 0x32)
    else t.enterEngine g (.mscacc (8 + d.val) a.val (t.sl.vr b)) none 0 id

/-- MACLD_NARROW (R180) -/
def execMacldNarrow (g : Ctl) (d : VReg) (a : NAcc) (grp : Fin 64) (s : State) : Out3 :=
  engineQueue g s fun t =>
    t.enterEngine g (.macld a.val grp.val) (some (.v d.val)) (dField 2 0 d.val) id

/-- MACLD_WIDE (R180) -/
def execMacldWide (g : Ctl) (d : VReg) (a : WAcc) (grp : Fin 64) (s : State) : Out3 :=
  engineQueue g s fun t => t.enterEngine g (.macld (8 + a.val) grp.val) (some (.v d.val)) (dField 2 0 d.val) id

/-- MZERO_NARROW (R181) -/
def execMzeroNarrow (g : Ctl) (d : NAcc) (s : State) : Out3 :=
  engineQueue g s fun t => t.enterEngine g (.mzero d.val) none 0 fun e => e.refresh d.val

/-- MZERO_WIDE (R181) -/
def execMzeroWide (g : Ctl) (d : WAcc) (s : State) : Out3 :=
  engineQueue g s fun t => t.enterEngine g (.mzero (8 + d.val)) none 0 id

/-! ## Commit and completion -/

/-- Gives a slot's owed entries of an operation their result. -/
def Slot.returnTo (sl : Slot) (f : Flight → Bool) (r : Res) : Slot :=
  { sl with owed := sl.owed.map fun o => if o.open_ && f o.flight then { o with res := some r } else o }

/-- The engine instruction at the head of a core's queue commits (R63, R171). -/
def State.commitEngine (s : State) (core : Nat) (op : EngineOp) : State :=
  let (e, v, fl, cyc) := s.runEngine core op.work
  let s1 := (s.updCore core fun c => { c with engine := { e with
    queue := c.engine.queue.tail
    cflags := match op.chain, op.work with
      | some _, .macld _ _ => e.cflags
      | some n, _ => SMap.upd 0 e.cflags n (· ||| fl)
      | none, _ => e.cflags } }).count 0 core 3 cyc
  s1.updSlot (4 * core + op.slot) fun sl =>
    sl.returnTo (fun f => f == .engine op.num) (.val { bits := v, tag := false } fl)

/-- ENGINE_INSTRUCTION_COMMIT (R63) -/
def execEngineInstructionCommit (core : Nat) (s : State) : Out3 :=
  let c := s.coreAt core
  match c.engine.queue with
  | [] => .next s
  | op :: _ => .next (if c.interlocked op then s else s.commitEngine core op)

/-- The chain of an owed completion has committed whole (R171). -/
def Core.chainDone (c : Core) (n : Nat) : Bool := c.engine.queue.all fun o => o.chain != some n

/-- The slot of a core that is owed a chain completion which may return, with the chain's number. -/
def State.chainOwed (s : State) (core : Nat) : Option (Nat × Nat) :=
  (List.range 4).findSome? fun k => (s.slotAt (4 * core + k)).owed.findSome? fun o =>
    match o.flight, o.res with
    | .chain n, none => if (s.coreAt core).chainDone n then some (k, n) else none
    | _, _ => none

/-- CHAIN_COMPLETION (R171) -/
def execChainCompletion (core : Nat) (s : State) : Out3 :=
  match s.chainOwed core with
  | some (k, n) =>
    let fl := SMap.look 0 (s.coreAt core).engine.cflags n
    .next ((s.updSlot (4 * core + k) fun sl => sl.returnTo (fun f => f == .chain n) (.val CapReg.null fl)).updCore core
      fun c => { c with engine := { c.engine with cflags := SMap.put 0 c.engine.cflags n 0 } })
  | none => .next s

end Sys2Proof.Machine
end

