-- ==== Sys2Proof/Machine/Barge.lean ====
section
/-!
DEFINITION. The Barge: templates (R185), copies (R186 … R188), resume records (R189, R190), plane staging (R57 … R60,
R191 … R193), and the return of its status (R183, R184).
-/

namespace Sys2Proof.Machine

/-! ## Templates (R185) -/

/-- Signed 32-bit start coordinates at a bit of the header. -/
def startAt (n lo : Nat) : Coords :=
  Coords.of fun c => signedOf 32 (bitsOf n (lo + 32 * c) 32)

/-- A level from its 16 bytes; none for a nonzero reserved bit. -/
def levelOf (n : Nat) : Option Level :=
  if bitsOf n 100 28 != 0 then none
  else some { count := bitsOf n 0 32, ddlt := signedOf 32 (bitsOf n 32 32), sdlt := signedOf 32 (bitsOf n 64 32),
              dk := bitsOf n 96 2, sk := bitsOf n 98 2 }

/-- Levels l, l + 1, … of a template, `k` of them. -/
def levelsOf (n : Nat) : Nat → Nat → Option (List Level)
  | _, 0 => some []
  | l, k + 1 => do
    let x ← levelOf (bitsOf n (512 + 128 * l) 128)
    let r ← levelsOf n (l + 1) k
    return x :: r

/-- A template from its 256 bytes, as a number; none when R185 refuses it. -/
def templateOf (n : Nat) : Option Template :=
  let nl := bitsOf n 0 8
  if nl < 1 ∨ 12 < nl ∨ bitsOf n 9 55 ≠ 0 ∨ bitsOf n 320 192 ≠ 0 then none
  else (levelsOf n 0 nl).map fun l => { dst := startAt n 64, sst := startAt n 192, slu := bitsOf n 8 1 == 1, levels := l }

/-- The 128 bits of a level. -/
def Level.bits (l : Level) : Nat :=
  l.count % 2 ^ 32 + 2 ^ 32 * unsignedOf 32 l.ddlt + 2 ^ 64 * unsignedOf 32 l.sdlt + 2 ^ 96 * (l.dk % 4)
    + 2 ^ 98 * (l.sk % 4)

/-- The 2,048 bits of a template. -/
def Template.bits (t : Template) : Nat :=
  let starts (lo : Nat) (k : Coords) : Nat :=
    (List.range 4).foldl (fun a c => a + 2 ^ (lo + 32 * c) * unsignedOf 32 (k.get c)) 0
  t.levels.length + 2 ^ 8 * t.slu.toNat + starts 64 t.dst + starts 192 t.sst
    + (t.levels.zipIdx.foldl (fun a x => a + 2 ^ (512 + 128 * x.2) * x.1.bits) 0)

/-- The template of a common-shape copy (R188). -/
def commonShape (c : CapF) : Template :=
  { dst := Coords.zero, sst := Coords.zero, slu := false,
    levels := (List.range c.rank).map fun l => { count := c.ext l, ddlt := 1, sdlt := 1, dk := l, sk := l } }

/-- The number of tuples. -/
def Template.size (t : Template) : Nat := t.levels.foldl (fun n l => n * l.count) 1

/-- The position of a tuple, innermost first, in the order of R186. -/
def tuplePos : List Level → List Nat → Nat
  | [], _ => 0
  | l :: ls, i => i.headD 0 + l.count * tuplePos ls i.tail

/-- The tuple at a position. -/
def tupleAt : List Level → Nat → List Nat
  | [], _ => []
  | l :: ls, n => n % l.count :: tupleAt ls (n / l.count)

/-- A coordinate of a tuple: the start plus what the levels move it. -/
def moved (start : Coords) (k : Level → Nat) (dlt : Level → Int) (ls : List Level) (tup : List Nat) : Coords :=
  Coords.of fun c => start.get c + ((ls.zip tup).foldl (fun (a : Int) x =>
    a + (if k x.1 = c then (x.2 : Int) * dlt x.1 else 0)) 0)

/-! ## Operand checks -/

/-- The Sluice operand checks (R194) on C[15] for a count. -/
def sluiceCheck (c : CapReg) (cmpt : Nat) (perms : List Nat) (k : Coords) : Except FaultInfo Elem :=
  match check c cmpt perms fmtIsData k with
  | .error n => .error (FaultInfo.ofCheck c n k)
  | .ok e => if e.va % 64 ≠ 0 then .error (FaultInfo.atElem 0x36 e) else .ok e

/-- The checks of R187 on the two capabilities of a copy, destination first in each step. -/
def copyCheck (dst src : CapReg) (cmpt : Nat) : Option Nat :=
  let d := dst.f
  let s := src.f
  let lines := d.fmt == 0x20 && s.fmt == 0x20
  let perm (c : CapF) (p : Nat) : Bool :=
    c.has permCP && (!lines || c.has p) && c.fmt != 0x21 && c.usableBy cmpt
  if !dst.tag || !src.tag then some 0x10
  else if !perm d permSC || !perm s permLC then some 0x12
  else if d.seal_ != 0 || s.seal_ != 0 then some 0x14
  else if fmtKind d.fmt != fmtKind s.fmt || fmtBits d.fmt != fmtBits s.fmt then some 0x12
  else none

/-! ## Carrying out a copy -/

/-- A fault of one tuple: side (false source), cause, coordinates, address. -/
structure TupleFault where
  side  : Bool
  cause : Nat
  at_   : Coords
  fva   : Nat
  deriving DecidableEq, Repr

/-- An access to an element has to wait for a write that is being applied (R302, R314). -/
def State.elemPending (s : State) (w : Who) (k : AKind) (wr : Bool) (e : Elem) : Bool :=
  match s.xlate w k wr e.va with
  | .ok p => s.pending w.core wr p
  | .error _ => false

/-- A write of the Barge: one in memory on its home's die tells the other die's proxy, and has package scope once that
has answered (R299, R312). -/
def State.bargeWrite (s : State) (w : Who) (num : Nat) (p : Place) (op : WOp) (whole : Bool) : Option State :=
  (s.writeView w p op whole).map fun t =>
    if p.kind = .dev ∧ (s.targetOf w.rev p.la).isNone ∧ ¬ t.atProxy w.core p then (t.tellProxy (lineKey p.key) w.core 4 num).1
    else t

/-- Moves the element of one tuple (R186). -/
def State.moveElem (s : State) (w : Who) (num seq : Nat) (dst src : CapReg) (sc dc : Coords) : Except TupleFault State :=
  let d := dst.f
  let c := src.f
  if !c.inBounds sc then .error { side := false, cause := 0x11, at_ := sc, fva := 0 }
  else if !d.inBounds dc then .error { side := true, cause := 0x11, at_ := dc, fva := 0 }
  else
    let es := c.elem sc
    let ed := d.elem dc
    match s.xlate w .copy false es.va with
    | .error n => .error { side := false, cause := n, at_ := sc, fva := es.va }
    | .ok _ =>
      match s.xlate w .copy true ed.va with
      | .error n => .error { side := true, cause := n, at_ := dc, fva := ed.va }
      | .ok p =>
        let full : TupleFault := { side := true, cause := 0x3A, at_ := dc, fva := ed.va }
        if c.fmt = 0x20 then
          match s.readCap w .copy seq es with
          | .error f => .error { side := false, cause := f.cause, at_ := sc, fva := es.va }
          | .ok (s1, v) =>
            match s1.capValue w v dst p with
            | some n => .error { side := true, cause := n, at_ := dc, fva := ed.va }
            | none => ((s1.touchPage w ed.va).bargeWrite w num p (.line v) (s1.revoking w.world)).elim (.error full) .ok
        else
          match s.readElem w .copy seq es with
          | .error f => .error { side := false, cause := f.cause, at_ := sc, fva := es.va }
          | .ok (s1, v, _) =>
            ((s1.touchPage w ed.va).bargeWrite w num p (.data p.key ed.nib ed.bits v) false).elim (.error full) .ok

/-- Bytes of a number of elements (R186). -/
def copyBytes (fmt n : Nat) : Nat := (n * fmtBits fmt + 7) / 8

/-- Writes a line of the slot's resume area. -/
def State.putResume (s : State) (key j : Nat) (v : CapReg) : State :=
  s.putLine (memKey (.spad (key / 4)) (resumeOff (key % 4) + 64 * j)) v

/-- The header of a resume record (R189). -/
def resumeHeader (icause : Nat) (side : Bool) (kind elems : Nat) (iter : List Nat) : Line :=
  BitVec.ofNat 512 ((iter.zipIdx.foldl (fun a x => a + 2 ^ (32 * x.2) * (x.1 % 2 ^ 32)) 0)
    + 2 ^ 384 * (elems % 2 ^ 64) + 2 ^ 469 * kind + 2 ^ 471 * side.toNat + 2 ^ 472 * icause)

/-- Writes a resume record (R189, R192). -/
def State.writeResume (s : State) (key : Nat) (head : Line) (dst src slu : CapReg) (tmpl : Nat) : State :=
  let s1 := (((s.putResume key 0 { bits := head, tag := false }).putResume key 1 dst).putResume key 2 src).putResume key 3 slu
  (List.range 4).foldl (fun t j => t.putResume key (4 + j) { bits := BitVec.ofNat 512 (bitsOf tmpl (512 * j) 512), tag := false }) s1

/-- The fault that a tuple's, an element's or a count's fault becomes: terminal as it is (R138), else cause 0x30 (R184,
R189, R192); a full spill area is the Junction's (R271). -/
def partialFault (icause : Nat) (at_ : Coords) (fva prog : Nat) (resume : Bool) : FaultInfo :=
  if icause = 0x21 ∨ icause = 0x22 then { FaultInfo.of icause with agent := 1, at_ := at_, fva := fva }
  else { FaultInfo.of 0x30 with icause := icause, agent := if icause = 0x3A then 3 else 1, at_ := at_, fva := fva,
                                prog := BitVec.ofNat 64 prog, resume := resume }

/-- A status word: BYTES takes 48 bits (R184). -/
def statusRes (bytes : Nat) (mk nx : Bool) : Res :=
  .val { bits := BitVec.ofNat 512 (bytes % 2 ^ 48 + 2 ^ 61 * mk.toNat + 2 ^ 62 * nx.toNat), tag := false }
    (if nx then flagNX else 0)

/-- Changes the Barge instruction at the head of a core's queue. -/
def State.updHead (s : State) (core : Nat) (f : BargeOp → BargeOp) : State :=
  s.updCore core fun c => { c with barge := match c.barge with
    | [] => []
    | op :: t => f op :: t }

/-- The Barge instruction at the head has been carried out: its result, and the Sluice and bytes that it counts. -/
def State.bargeEnd (s : State) (core : Nat) (op : BargeOp) (r : Res) (n : Option (CapReg × Nat)) : State :=
  let defer := op.defer && n.any fun x => x.1.f.life != 0
  let (st, s1) := s.draw
  s1.updCore core fun c =>
    { c with barge := c.barge.tail
             bdone := c.bdone ++ [{ num := op.num, slot := op.slot, res := r, count := n, defer := defer, stamp := st }] }

/-- A copy moves the element of its next tuple (R186), or ends. ELEMS and PROG of a fault are the tuple's position in the
template, after `bres` too (DESIGN CHOICE, log entry 78). -/
def State.copyStep (s : State) (w : Who) (op : BargeOp) (dst src slu : CapReg) (t : Template) : State :=
  let bytes (n : Nat) : Nat := copyBytes src.f.fmt (n - op.first)
  let tup := tupleAt t.levels op.pos
  let sc := moved t.sst Level.sk Level.sdlt t.levels tup
  let dc := moved t.dst Level.dk Level.ddlt t.levels tup
  if t.size ≤ op.pos then
    s.bargeEnd w.core op (statusRes (bytes op.pos) false false) (if t.slu then some (slu, bytes op.pos) else none)
  else if s.elemPending w .copy false (src.f.elem sc) || s.elemPending w .copy true (dst.f.elem dc) then s
  else match s.moveElem w op.num op.seq dst src sc dc with
    | .ok s1 =>
      (s1.count 0 w.core 4 (bytes (op.pos + 1) - bytes op.pos)).updHead w.core fun x => { x with pos := op.pos + 1 }
    | .error x =>
      let head := resumeHeader x.cause x.side 0 op.pos tup
      let s1 := if x.cause = 0x21 ∨ x.cause = 0x22 then s
        else s.writeResume w.key head dst src (if t.slu then slu else CapReg.null) t.bits
      s1.bargeEnd w.core op (.fault (partialFault x.cause x.at_ x.fva op.pos true)) none

/-- Reads the eight lines of a resume record as capability loads (R190). -/
def State.readRecord (s : State) (w : Who) (seq : Nat) (rec_ : CapReg) : List Nat → Except FaultInfo (State × List CapReg)
  | [] => .ok (s, [])
  | j :: js =>
    match s.readCap w .resume seq (rec_.f.elem { Coords.zero with k0 := j }) with
    | .error f => .error f
    | .ok (s1, v) =>
      match s1.readRecord w seq rec_ js with
      | .error f => .error f
      | .ok (s2, l) => .ok (s2, v :: l)

/-- An element that nothing reads. -/
def noElem : Elem := { va := 0, nib := 0, bits := 8, coords := Coords.zero }

/-- A line of a resume record waits for a write that is being applied (R314). -/
def State.recordPending (s : State) (w : Who) (rec_ : CapReg) : Bool :=
  (List.range 8).any fun j => s.elemPending w .resume false (rec_.f.elem { Coords.zero with k0 := (j : Int) })

/-- A resumption reads its record and becomes the copy from the tuple ITER on, or ends (R190); what it meets is the Barge's
(R230; DEDUCED, log entry 96). -/
def State.resumeStep (s : State) (w : Who) (cmpt : Nat) (op : BargeOp) (rec_ : CapReg) : State :=
  if s.recordPending w rec_ then s
  else match s.readRecord w op.seq rec_ (List.range 8) with
  | .error f => s.bargeEnd w.core op (.fault { f with agent := 1 }) none
  | .ok (s1, l) =>
    let line (j : Nat) : CapReg := l.getD j CapReg.null
    let h := (line 0).bits.toNat
    let tn := (List.range 4).foldl (fun a j => a + 2 ^ (512 * j) * (line (4 + j)).bits.toNat) 0
    let bad (f : FaultInfo) : State := s1.bargeEnd w.core op (.fault { f with agent := 1 }) none
    if bitsOf h 469 2 ≠ 0 then bad (FaultInfo.of 0x37)
    else match templateOf tn with
      | none => bad (FaultInfo.of 0x37)
      | some t =>
        match copyCheck (line 1) (line 2) cmpt with
        | some c => bad (FaultInfo.of c)
        | none =>
          match if t.slu then sluiceCheck (line 3) cmpt [permAT, permLD, permST] Coords.zero else .ok noElem with
          | .error f => bad f
          | .ok _ =>
            let iter := (List.range t.levels.length).map fun k => bitsOf h (32 * k) 32
            if (t.levels.zip iter).any fun x => decide (x.1.count ≤ x.2) then
              s1.bargeEnd w.core op (statusRes 0 false false) (if t.slu then some (line 3, 0) else none)
            else
              let n := tuplePos t.levels iter
              s1.updHead w.core fun x => { x with work := .copy (line 1) (line 2) (line 3) t, first := n, pos := n }

/-! ## Staging -/

/-- The staged integer of an element of an integer-staged format (R51, R58). -/
def stageInt (fmt v : Nat) : Int :=
  match fmt with
  | 0x09 => signedOf 4 v
  | 0x01 => signedOf 8 v
  | 0x05 => (v % 256 : Nat)
  | 0x02 => signedOf 16 v
  | _ =>
    let m : Nat := match v % 8 with
      | 0 => 0 | 1 => 1 | 2 => 2 | 3 => 3 | 4 => 4 | 5 => 6 | 6 => 8 | _ => 12
    if v / 8 % 2 = 1 then -(Int.ofNat m) else Int.ofNat m

/-- The floating-point format of a group-aligned format code. -/
def fpOfCode (f : Nat) : FpFmt :=
  match f with
  | 0x10 => fpF32 | 0x11 => fpBf16 | 0x12 => fpF16 | 0x13 => fpE4m3 | _ => fpE5m2

/-- The unbiased exponent of a nonzero value (R50). -/
def expOf (f : FpFmt) : FVal → Option Int
  | .fin _ m e => if m = 0 then none else some (e + f.mBits)
  | .inf _ => none
  | .nan _ => none

/-- A staged group (R59): mark, exponent, integers, inexact. -/
structure SGroup where
  marked : Bool
  eg  : Int
  qs  : List Int
  inexact : Bool
  deriving DecidableEq, Repr

/-- Stages the elements of one group of a line (R59, R60). R59 gives the E_g of a marked group no value: the model stores
emin (DESIGN CHOICE, log entry 78). -/
def stageGroup (f : FpFmt) (np : Nat) (xs : List Nat) : SGroup :=
  let vs := xs.map f.value
  let emin : Int := 1 - f.bias
  if vs.any fun v => fvIsNan v || fvIsInf v then { marked := true, eg := emin, qs := xs.map fun _ => 0, inexact := false }
  else
    let es := vs.filterMap (expOf f)
    let eg := match es with
      | [] => emin
      | e :: t => t.foldl max e
    let q (v : FVal) : Int × Bool := match v with
      | .fin n m e =>
        let (k, ix) := roundQ .rne n m (e + np - 2 - eg) 0
        let z : Int := if n then -(k : Int) else k
        if z = 2 ^ (np - 1) then (2 ^ (np - 1) - 1, true) else (z, ix)
      | .inf _ => (0, false)
      | .nan _ => (0, false)
    { marked := false, eg := eg, qs := vs.map fun v => (q v).1, inexact := vs.any fun v => (q v).2 }

/-- The bits of plane `n` of a line's integers (R57). -/
def planeBits (qs : List Int) (n : Nat) : Nat :=
  qs.zipIdx.foldl (fun a x => a + (if x.1 / (2 ^ n : Int) % 2 = 1 then 2 ^ x.2 else 0)) 0

/-- Writes bytes of the plane region at a logical offset, under the tile's swizzle (R193). -/
def State.putPlane (s : State) (core : Nat) (t : TileF) (l n v : Nat) : State :=
  s.putData (memKey (.spad core) (swizzle t.swz l)) (leBytes n v)

/-- The coordinates of element `k` of line `r` of a staging (R191). -/
def stageCoords (kax : Bool) (r k : Nat) : Coords :=
  if kax then { Coords.zero with k0 := r, k1 := k } else { Coords.zero with k0 := k, k1 := r }

/-- Writes the planes and the side-table entries of line `r` (R57, R174, R192). -/
def State.putLineOf (s : State) (core : Nat) (t : TileF) (r : Nat) (qs : List Int) (gs : List SGroup) : State :=
  let s1 := (List.range t.np).foldl (fun x n => x.putPlane core t (t.off + 256 * n + 8 * r) 8 (planeBits qs n)) s
  if groupFmt t.fmt then
    s1.putPlane core t (t.off + 256 * t.np + 8 * r) 8
      (gs.zipIdx.foldl (fun a x => a + 2 ^ (16 * x.2) * (unsignedOf 9 x.1.eg + 2 ^ 15 * x.1.marked.toNat)) 0)
  else s1

/-- A staging has read every element: it writes its planes and ends (R192). -/
def State.stageEnd (s : State) (core : Nat) (op : BargeOp) (t : TileF) (slu : CapReg) (o : StageOpts) : State :=
  let kn := o.kn.val + 1
  let line (r : Nat) : List Nat :=
    (List.range 64).map fun k => if r ≤ t.nm ∧ k < kn then op.got.getD (kn * r + k) 0 else 0
  let groups (r : Nat) : List SGroup :=
    (List.range 4).map fun g => stageGroup (fpOfCode t.fmt) t.np ((line r).drop (16 * g) |>.take 16)
  let gf := groupFmt t.fmt
  let s1 := (List.range 32).foldl (fun x r =>
    let gs := if gf then groups r else []
    x.putLineOf core t r (if gf then gs.flatMap SGroup.qs else (line r).map (stageInt t.fmt)) gs) s
  let any (f : SGroup → Bool) : Bool := gf && (List.range 32).any fun r => (groups r).any f
  let n := ((t.nm + 1) * kn * fmtBits t.fmt + 7) / 8
  (s1.count 0 core 4 t.bytes).bargeEnd core op (statusRes n (any SGroup.marked) (any SGroup.inexact))
    (if o.slu then some (slu, n) else none)

/-- An uncommitted engine instruction issued before a staging has still to read what it writes (R172). -/
def Core.stagingWaits (c : Core) (op : BargeOp) (t : TileF) : Bool :=
  c.engine.queue.any fun e => decide (e.num ≤ op.after) && e.work.tiles.any t.overlaps

/-- A staging reads its next element, or writes its planes (R192). The rule gives the reads no order: the model reads k
fastest (DESIGN CHOICE, log entry 97). -/
def State.stageStep (s : State) (w : Who) (op : BargeOp) (tile : Word) (src slu : CapReg) (o : StageOpts) : State :=
  let t := TileF.of tile
  let kn := o.kn.val + 1
  let r := op.pos / kn
  let k := op.pos % kn
  let e := src.f.elem (stageCoords o.kax r k)
  if (t.nm + 1) * kn ≤ op.pos then
    if (s.coreAt w.core).stagingWaits op t then s else s.stageEnd w.core op t slu o
  else if s.elemPending w .copy false e then s
  else match s.readElem w .copy op.seq e with
    | .ok (s1, v, _) => s1.updHead w.core fun x => { x with pos := op.pos + 1, got := x.got ++ [v] }
    | .error f =>
      let head := resumeHeader f.cause false 1 0 [k, r]
      let s1 := if f.cause = 0x21 ∨ f.cause = 0x22 then s
        else s.writeResume w.key head CapReg.null src (if o.slu then slu else CapReg.null) 0
      s1.bargeEnd w.core op (.fault (partialFault f.cause f.at_ f.fva 0 false)) none

/-! ## Issue -/

/-- The Barge may begin an instruction: the slot's earlier accesses have performed (R183). -/
def State.bargeReady (s : State) (core : Nat) (op : BargeOp) : Bool := (s.slotAt (4 * core + op.slot)).acked op.seq 6

/-- The two entries of the queue are taken (R21): the instruction that the Barge may carry out has left them. -/
def State.bargeFull (s : State) (core : Nat) : Bool :=
  match (s.coreAt core).barge with
  | [] => false
  | op :: t => decide (2 ≤ t.length + if s.bargeReady core op then 0 else 1)

/-- The Barge instruction's count is deferred (R196). -/
def State.defersCount (s : State) (slu : CapReg) : Bool := s.sl.committed.isNone && slu.f.life != 0

/-- Enters the queue, with the deferred-effect entry it takes, if any (R200), and owes the status. -/
def State.enterBarge (s : State) (g : Ctl) (d : XReg) (work : BargeWork) (entry : Bool) : State :=
  if entry && decide (8 ≤ s.sl.deferred.length) then s.faultNow (FaultInfo.of 0x38)
  else
    let n := s.core.bnum + 1
    let df := dField 1 0 d.val
    let op : BargeOp := { num := n, slot := s.cur % 4, work := work, iaddr := s.sl.here, dfield := df, defer := entry,
                          after := s.eng.num, seq := s.sl.seq,
                          first := 0, pos := 0, got := [] }
    let s1 := s.updMyCore fun c => { c with bnum := n, barge := c.barge ++ [op] }
    let s2 := if entry then s1.updSl fun sl =>
        { sl with deferred := sl.deferred ++ [{ op := .count n, dest := none, stale := false, iaddr := sl.here, dfield := df }] }
      else s1
    (s2.oweNow (some (.x d.val)) fullMask (.barge n work) false df).done g

/-- A Barge instruction under its guard: a full queue stops the slot (R21). -/
def bargeIssue (g : Ctl) (s : State) (f : State → State) : Out3 :=
  guarded g s (if s.bargeFull (s.cur / 4) then s.hold .barge else f s)

/-- The line at which a template of the named area begins. -/
def templateElem (off : Nat) : Elem := { va := LW + off, nib := 0, bits := 512, coords := Coords.zero }

/-- Reads a template of the named area (R185); one with an uncorrectable error cannot be read (R47; the address that its
fault names is a DESIGN CHOICE, log entry 89). -/
def State.templateAt (s : State) (off : Nat) : Except FaultInfo Template :=
  let k := memKey (.spad (s.cur / 4)) off
  if off % 64 ≠ 0 ∨ s.namedSize s.sl.grid < off + 256 then .error (FaultInfo.of 0x35)
  else if s.poisoned (2 * k) 512 then .error (FaultInfo.atElem 0x23 (templateElem off))
  else match templateOf (Memory.num s.mem k 256) with
    | some t => .ok t
    | none => .error (FaultInfo.of 0x35)

/-- The operand checks of `bcopy` (R187). The rule names no coordinates for the check of C[15]: the model takes the first
element (DESIGN CHOICE, log entry 78). -/
def copyChecks (dst src slu : CapReg) (cmpt : Nat) (count : Bool) : Except FaultInfo Unit :=
  match copyCheck dst src cmpt with
  | some c => .error (FaultInfo.of c)
  | none => if count then (sluiceCheck slu cmpt [permAT, permLD, permST] Coords.zero).map fun _ => () else .ok ()

/-- BCOPY_TEMPLATE (R185 … R187). The template is checked before the capabilities: the rules give the two no order (DESIGN
CHOICE, log entry 78). -/
def execBcopyTemplate (g : Ctl) (d : XReg) (a b : CReg) (tmpl : Imm) (s : State) : Out3 :=
  bargeIssue g s fun t =>
    if !t.sl.acked t.sl.seq 6 then t.hold .template
    else t.orFault (t.templateAt tmpl.toNat) fun te =>
        let slu := t.sl.cr 15
        t.orFault (copyChecks (t.sl.cr a) (t.sl.cr b) slu t.sl.cmpt te.slu) fun _ =>
          t.enterBarge g d (.copy (t.sl.cr a) (t.sl.cr b) slu te) (te.slu && t.defersCount slu)

/-- BCOPY_COMMON_SHAPE (R188) -/
def execBcopyCommonShape (g : Ctl) (d : XReg) (a b : CReg) (s : State) : Out3 :=
  bargeIssue g s fun t =>
    t.orFault (copyChecks (t.sl.cr a) (t.sl.cr b) CapReg.null t.sl.cmpt false) fun _ =>
      t.enterBarge g d (.copy (t.sl.cr a) (t.sl.cr b) CapReg.null (commonShape (t.sl.cr b).f)) false

/-- The checks of `bstage` (R191). -/
def stageChecks (tile : Word) (c slu : CapReg) (cmpt : Nat) (o : StageOpts) : Except FaultInfo Unit :=
  let t := TileF.of tile
  let f := c.f
  let hint := (f.hlay == 1 && t.isB) || (f.hlay == 2 && !t.isB) || f.hswz != t.swz
  let co : Coords := if o.kax then { Coords.zero with k0 := t.nm, k1 := o.kn.val }
    else { Coords.zero with k0 := o.kn.val, k1 := t.nm }
  if !t.valid then .error (FaultInfo.of 0x31)
  else if o.hnt && hint then .error (FaultInfo.of 0x31)
  else match check c cmpt [permPL] fmtIsData co with
    | .error n => .error (FaultInfo.ofCheck c n co)
    | .ok _ =>
      if f.fmt ≠ t.fmt then .error (FaultInfo.ofCheck c 0x12 co)
      else if o.slu then (sluiceCheck slu cmpt [permAT, permLD, permST] Coords.zero).map fun _ => () else .ok ()

/-- BSTAGE (R191, R192) -/
def execBstage (g : Ctl) (d : XReg) (a : TReg) (b : CReg) (o : StageOpts) (s : State) : Out3 :=
  bargeIssue g s fun t =>
    let slu := t.sl.cr 15
    t.orFault (stageChecks (t.eng.tile a) (t.sl.cr b) slu t.sl.cmpt o) fun _ =>
      t.enterBarge g d (.stage (t.eng.tile a) (t.sl.cr b) slu o) (o.slu && t.defersCount slu)

/-- The issue checks of `bres` (R190). -/
def recordCheck (c : CapReg) (cmpt : Nat) : Except FaultInfo Unit :=
  (List.range 8).foldl (fun r (j : Nat) => match r with
    | .error f => .error f
    | .ok _ =>
      let k : Coords := { Coords.zero with k0 := (j : Int) }
      match check c cmpt [permLC] fmtIsLine k with
      | .error n => .error (FaultInfo.ofCheck c n k)
      | .ok _ => .ok ()) (.ok ())

/-- BRES (R190, R200) -/
def execBres (g : Ctl) (d : XReg) (a : CReg) (s : State) : Out3 :=
  bargeIssue g s fun t => t.orFault (recordCheck (t.sl.cr a) t.sl.cmpt) fun _ =>
    t.enterBarge g d (.resume (t.sl.cr a) false) t.sl.committed.isNone

/-! ## Execution and completion -/

/-- The next step of a Barge instruction. -/
def State.bargeStep (s : State) (w : Who) (cmpt : Nat) (op : BargeOp) : State :=
  match op.work with
  | .copy d c slu t => s.copyStep w op d c slu t
  | .resume r _ => s.resumeStep w cmpt op r
  | .stage t c slu o => s.stageStep w op t c slu o

/-- BARGE_EXECUTE (R183, R186, R192): the instruction at the head moves or reads one element, or ends. -/
def execBargeExecute (core : Nat) (s : State) : Out3 :=
  match (s.coreAt core).barge with
  | [] => .next s
  | op :: _ =>
    let key := 4 * core + op.slot
    .next (if s.bargeReady core op then s.bargeStep (s.who key) (s.slotAt key).cmpt op else s)

/-- A Barge result reaches the slot. -/
def Slot.bargeReturns (sl : Slot) (n : Nat) (r : Res) : Slot :=
  sl.returnTo (fun f => match f with
    | .barge k _ => k == n
    | _ => false) r

/-- Every write of a Barge instruction has been acknowledged at package scope (R183, R308). -/
def State.bargeAcked (s : State) (core num : Nat) : Bool :=
  s.coh.all fun c => c.2.inval.all fun x => !(x.1 == core && x.2.1 == 4 && x.2.2.1 == num)

/-- BARGE_COMPLETION (R184, R195 … R197, R308): once the writes have package scope the Sluice count is applied, as a
release (R304, R305), or kept for `commit`, and the status returns. -/
def execBargeCompletion (core : Nat) (s : State) : Out3 :=
  match (s.coreAt core).bdone with
  | [] => .next s
  | d :: _ =>
    let key := 4 * core + d.slot
    let s1 := s.updCore core fun c => { c with bdone := c.bdone.tail }
    let ret (t : State) (r : Res) : State := t.updSlot key fun sl => sl.bargeReturns d.num r
    if !s.bargeAcked core d.num then .next s
    else match d.count with
      | none => .next (ret s1 d.res)
      | some (slu, n) =>
        let e := slu.f.elem Coords.zero
        if d.defer then
          .next (ret (s1.updCore core fun c =>
            { c with counts := c.counts ++ [{ num := d.num, slot := d.slot, slu := slu, bytes := n }] }) d.res)
        else if !s.cumulative (dieOf core) d.stamp || s.elemPending (s.who key) .atomic true e then .next s
        else
          match s1.applySluice (s1.who key) (.count n) e with
          | .ok s2 => .next (ret s2 d.res)
          | .error f => .next (ret s1 (.fault (partialFault f.cause f.at_ f.fva 0 false)))

end Sys2Proof.Machine
end

