-- ==== Sys2Proof/Machine/Coherence.lean ====
section
/-!
DEFINITION. The steps of the coherence protocols (R299, R300, R312 … R323): a queued write leaves its slot, is sent to
the sharers, is committed at its home, and is acknowledged; region tracking; evictions; ownership between the dies; host
and peer accesses. An event whose conditions do not hold changes nothing.
-/

namespace Sys2Proof.Machine

/-! ## Queued writes -/

/-- The write that a queued entry makes. -/
def Out.wop (o : Out) : WOp :=
  match o.op with
  | .data e v => .data o.place.key e.nib e.bits v.toNat
  | .line _ v => .line v
  | .sluice _ _ => .line CapReg.null

/-- A queued entry is a Sluice operation. -/
def Out.isSluice (o : Out) : Bool :=
  match o.op with
  | .sluice _ _ => true
  | .data _ _ => false
  | .line _ _ => false

/-- The scope at which a queued entry is a release (R304). -/
def Out.relScope (o : Out) : Option Nat :=
  match o.op with
  | .sluice _ k => if k.releases then some 6 else o.rel
  | .data _ _ => o.rel
  | .line _ _ => o.rel

/-- A queued write may leave the slot (R302, R304). -/
def State.outReady (s : State) (key : Nat) (o : Out) : Bool :=
  let sl := s.slotAt key
  o.lvl == 0 && !sl.acquiring o.seq && !sl.lineBusy o.seq [o.la] && !sl.outBusy o.seq [o.la] && !sl.aliasBusy o
    && !(s.pending (key / 4) true o.place)
    && (match o.relScope with
        | some sc => s.releaseOk key o.seq sc o.stamp
        | none => true)

/-- Changes one queued write of a slot: its sequence number, place and operation name it. -/
def State.updOut (s : State) (key : Nat) (w : Out) (f : Out → Out) : State :=
  s.updSlot key fun sl => { sl with out := sl.out.map fun o =>
    if o.seq = w.seq ∧ o.idx = w.idx ∧ o.place.key = w.place.key ∧ o.op = w.op then f o else o }

/-- R300: the operations that are multi-copy atomic at package scope. -/
def State.wholeWrite (s : State) (w : Who) (o : Out) : Bool :=
  match o.op with
  | .line _ _ => s.revoking w.world || (o.rel.any fun sc => decide (6 ≤ sc))
  | .data _ _ => o.rel.any fun sc => decide (6 ≤ sc)
  | .sluice _ _ => true

/-- The writes of a slot that the firewall refuses where they arrive: since their issue the frame has become a code
object's (R357), the chunk another world's (R340), or the line a spill area's (R269). -/
def State.refusesOut (s : State) (key : Nat) (o : Out) : Bool :=
  let w := (s.slotAt key).world
  o.place.kind == .dev && (SMap.look 0 s.frames (o.place.key / 4096) != 0 || s.chunkOwner o.place.key != w
    || s.inSpill w o.place.va)

/-- The element of a queued write. -/
def OutOp.elem (o : OutOp) : Elem :=
  match o with
  | .data e _ => e
  | .line e _ => e
  | .sluice e _ => e

/-- A queued write that the firewall refuses is dropped, and the slot carries its fault to its next park (R138, R340;
DESIGN CHOICE, log entry 90). -/
def State.refuseOut (s : State) (key : Nat) (o : Out) : State :=
  ((s.unreserve (s.who key) o.seq o.place.la).updOut key o fun x => { x with lvl := 3 }).updSlot key fun sl =>
    if sl.actid = o.actid then
      sl.owe none fullMask (.ready CapReg.null) (some (.fault (FaultInfo.atElem 0x22 o.op.elem))) false o.iaddr 0
    else sl

/-- A queued write with the home that its page has when it arrives: a first-touch page may have taken it meanwhile
(R290). -/
def State.rehome (s : State) (w : Who) (p : Place) : Place :=
  match s.xlate w .store false p.va with
  | .ok q => { p with home := q.home }
  | .error _ => p

/-- Sends a write to its home (R314 steps 1 and 2): the update is counted once, whatever the mask (R227; log entry 71); an
owning stash has no sharers to tell (R318). A write of a revision's view, of the core's own stash (R285), of a scratchpad
or of memory with no home slice here performs at once. -/
def State.sendOut (s : State) (key : Nat) (o : Out) : State :=
  let w := s.who key
  let s0 := s.touchPage w o.place.va
  let p := s0.rehome w o.place
  let whole := s.wholeWrite w o
  let lk := lineKey p.key
  let done (t : State) (lvl : Nat) : State :=
    (t.unreserve w o.seq p.la).updOut key o fun x => { x with lvl := lvl, place := p }
  if s.refusesOut key o then s.refuseOut key o
  else if p.kind ≠ .dev ∨ (s0.targetOf w.rev p.la).isSome then
    done ((s0.writeView w p o.wop whole).getD s0) (if p.kind = .win ∨ p.kind = .mint then 4 else 3)
  else
    let s1 := s0.makeWritable w.core p whole
    if (s1.cohAt lk).owner = some w.core then done ((s1.writeNow w p o.wop).getD s1) 3
    else
      let slice := s1.writeSlice w.core p
      let sharers := if (s1.cohAt lk).owner = none then s1.sharersOf slice lk else []
      let d : Pend := { core := w.core, slot := key % 4, seq := o.seq, idx := o.idx, proxy := s1.atProxy w.core p, op := o.op,
                        whole := whole, sent := sharers, held := [], replies := [] }
      let s2 := sharers.foldl (fun t c => t.updCore c fun x => x.acksArrive lk) s1
      let s3 := if (s1.cohAt lk).owner = none then s2.count 2 slice 2 1 else s2
      (s3.updCoh lk fun c => { c with pend := some d }).updOut key o fun x => { x with lvl := 1, place := p }

/-- A write that may leave its slot is sent (R314). -/
def State.storeNow (s : State) (core slot idx : Nat) : State :=
  let key := 4 * core + slot
  match (s.slotAt key).out[idx]? with
  | none => s
  | some o => if o.isSluice || !s.outReady key o then s else s.sendOut key o

/-- The core's copy of the line takes the update, or it answers GONE or NONE (R314 step 3, R316). -/
def State.receiveUpdate (s : State) (lk core : Nat) (d : Pend) : State :=
  let r := (s.coreAt core).reply lk
  let held := if r = .applied then d.held ++ [core] else d.held
  s.updCoh lk fun x => { x with pend := some { d with sent := d.sent.filter (· != core), held := held,
                                                      replies := d.replies ++ [(core, r)] } }

/-- UPDATE_RECEIPT (R314, R316) -/
def execUpdateReceipt (line core : Nat) (s : State) : Out3 :=
  match (s.cohAt line).pend with
  | some d => .next (if d.sent.contains core then s.receiveUpdate line core d else s)
  | none => .next s

/-- UPDATE_REPLY (R316): GONE follows the notice that it tells of (R313). -/
def execUpdateReply (line core : Nat) (s : State) : Out3 :=
  let c := s.cohAt line
  match c.pend with
  | none => .next s
  | some d =>
    match d.replies.find? fun x => x.1 == core with
    | none => .next s
    | some x =>
      if x.2 = .gone ∧ (s.coreAt core).notices.any fun n => n.1 == line && !n.2 then .next s
      else .next ((s.updCoh line fun y => { y with pend := some { d with replies := d.replies.filter (· != x) } }).takeReply
        (if d.proxy then c.slice ^^^ 64 else c.slice) line x.2)

/-- The home commits a write whose replies are in (R314 step 4): the bytes change, entries of revisions that share the
view are made (R270), and the other die's proxy is told (R312); for R300's operations its copy goes first. A line that has
become a code object's takes nothing (R357), as one that is another world's by now (R340). -/
def State.commitWrite (s : State) (lk : Nat) (d : Pend) : State :=
  let key := 4 * d.core + d.slot
  let w := s.who key
  let free := s.updCoh lk fun x => { x with pend := none }
  match (s.slotAt key).out.find? fun o =>
      decide (o.seq = d.seq) && decide (o.idx = d.idx) && o.place.key / 64 == lk && o.op == d.op with
  | none => free
  | some o =>
    let p := o.place
    if s.refusesOut key o then free.refuseOut key o
    else
      let s1 := if d.whole && !d.proxy && (free.cohAt lk).proxy == .S then free.doInvalidate lk else free
      let s2 := s1.shareEntries w.world none p.la (s1.placeLine w p) (s1.lineErrors lk)
      let s3 := (s2.placeWrite w p o.wop).unreserve w o.seq p.la
      let (s4, waits) := if d.proxy then (s3, false) else s3.tellProxy lk d.core d.slot d.seq
      s4.updOut key o fun y => { y with lvl := if waits then 2 else 3 }

/-- The write that a home is applying to a line commits before what comes next: its updates arrive, its replies are back
(R314). -/
def State.finishPend (s : State) (lk : Nat) : State :=
  match (s.cohAt lk).pend with
  | none => s
  | some d =>
    let slice := if d.proxy then (s.cohAt lk).slice ^^^ 64 else (s.cohAt lk).slice
    let got := d.sent.foldl (fun t c => match (t.cohAt lk).pend with
      | some x => t.receiveUpdate lk c x
      | none => t) s
    let back := (d.sent ++ d.replies.map (·.1)).foldl (fun t c => t.drainChannel slice lk c) got
    match (back.cohAt lk).pend with
    | some x => back.commitWrite lk x
    | none => back

/-- HOME_COMMIT (R300, R314) -/
def execHomeCommit (line : Nat) (s : State) : Out3 :=
  match (s.cohAt line).pend with
  | some d => .next (if d.sent = [] ∧ d.replies = [] then s.commitWrite line d else s)
  | none => .next s

/-- PROXY_INVALIDATION (R312): the proxy's copies go, and the acknowledgement gives package scope. -/
def execProxyInvalidation (line : Nat) (s : State) : Out3 :=
  if (s.cohAt line).snoop = some .invAck then
    .next ((s.doInvalidate line).updCoh line fun c => { c with snoop := none })
  else .next s

/-- STORE_ACKNOWLEDGEMENT (R299): the level reached at the home reaches the slot; a write acknowledged at package scope
is forgotten. -/
def execStoreAcknowledgement (core slot idx : Nat) (s : State) : Out3 :=
  let key := 4 * core + slot
  match (s.slotAt key).out[idx]? with
  | none => .next s
  | some o =>
    if o.got < o.lvl then
      .next (s.updSlot key fun sl =>
        { sl with out := if 3 ≤ o.lvl then sl.out.eraseIdx idx
                         else sl.out.map fun x => if x = o then { o with got := o.lvl } else x })
    else .next s

/-! ## Regions and evictions -/

/-- The sibling of a region is a region of the same directory and both may merge (R316). -/
def State.canMerge (s : State) (slice : Nat) (a b : Region) : Bool :=
  a.k == b.k && decide (a.k < 10) && decide (a.base % 2 ^ (a.k + 1) = 0) && decide (b.base = a.base + 2 ^ a.k)
    && decide (a.split + 65536 ≤ s.now) && decide (b.split + 65536 ≤ s.now)
    && s.regionMask (slice / 64) a == s.regionMask (slice / 64) b
    && s.coh.all fun c => c.2.pend.isNone || !(a.has c.1 || b.has c.1)

/-- REGION_MERGE (R316): the region at the number merges with its sibling. -/
def execRegionMerge (slice region : Nat) (s : State) : Out3 :=
  let dir := (s.sliceAt slice).dir
  match dir[region]? with
  | none => .next s
  | some a =>
    match dir.find? fun b => s.canMerge slice a b with
    | some b => .next (s.updSlice slice fun d =>
        { d with dir := (d.dir.filter fun q => q != b).map fun q =>
            if q = a then { a with k := a.k + 1, used := max a.used b.used } else q })
    | none => .next s

/-- DIRECTORY_ENTRY_EVICTION (R315) -/
def execDirectoryEntryEviction (slice : Nat) (s : State) : Out3 :=
  if 8192 ≤ (s.sliceAt slice).dir.length then .next (s.freeRegion slice none) else .next s

/-- EVICTION_NOTICE (R317): an unpinned L1 line, or a stash entry, leaves the cache and the home is told. -/
def execEvictionNotice (line core : Nat) (s : State) : Out3 :=
  let c := s.coreAt core
  if c.inStash line then .next ((s.dropStash core fun e => e.key == line).updCore core fun x => x.notice line)
  else if c.l1.any fun x => x.2.any fun l => l.key == line && l.pin.isNone then
    .next (s.updCore core fun x => (x.dropL1 fun l => l.key == line).notice line)
  else .next s

/-- EVICTION_ACKNOWLEDGEMENT (R317): the home has received the oldest notice, and then its acknowledgement is back. In
the order of R313 the notice follows a reply sent before it, and the acknowledgement an update sent before it. -/
def execEvictionAcknowledgement (line core : Nat) (s : State) : Out3 :=
  let waits (acked : Bool) : Bool := match (s.cohAt line).pend with
    | some d => if acked then d.sent.contains core else d.replies.any fun x => x.1 == core && x.2 != .gone
    | none => false
  match (s.coreAt core).notices.find? fun x => x.1 == line with
  | some (_, b) => .next (if waits b then s else s.updCore core fun x => { x with notices := stepNotice line x.notices })
  | none => .next s

/-! ## Stashes (R285, R318) -/

/-- A core asks for a line of a stash page that no stash owns: a load of one of its slots has still to read it. -/
def State.asksStash (s : State) (line core : Nat) : Option Place :=
  (List.range 4).findSome? fun k =>
    let key := 4 * core + k
    ((s.slotAt key).owed.filter fun o => o.open_).findSome? fun o =>
      if !s.canPerform key o then none
      else o.flight.elems.findSome? fun e => match s.xlate (s.who key) o.flight.kind false e.va with
        | .ok p => if lineKey p.key == line && p.kind == .dev && s.stashes core p then some p else none
        | .error _ => none

/-- STASH_FILL (R318): the first core of a cluster that asks for a line of a stash page becomes its owner. -/
def execStashFill (line cluster : Nat) (s : State) : Out3 :=
  match ((List.range 16).map (16 * cluster + ·)).findSome? fun k => (s.asksStash line k).map fun p => (k, p) with
  | some (k, p) => .next (((s.touchPage (s.who (4 * k)) p.va).updLine p id).settle line |>.fillStash k p)
  | none => .next s

/-- STASH_FORWARDED_ACCESS (R318): the owner answers another agent's access, which uses its entry. -/
def execStashForwardedAccess (line : Nat) (s : State) : Out3 :=
  match (s.cohAt line).owner with
  | some k => .next (s.updCore k fun c => c.useStash line false)
  | none => .next s

/-! ## Ownership between the dies (R319 … R322) -/

/-- The home can take a request for the line: no snoop outstanding (R320), no write being applied (R314). -/
def LineCoh.free (c : LineCoh) : Bool := c.snoop.isNone && c.pend.isNone && c.owner.isNone

/-- READ_SHARED (R321) -/
def execReadShared (line : Nat) (s : State) : Out3 :=
  let c := s.cohAt line
  if c.proxy = .I ∧ c.req = none ∧ c.wback = none then .next (s.updCoh line fun x => { x with req := some .shared })
  else .next s

/-- The first write to a line that a core of the proxy's die may send: the one whose request the proxy makes (R321). -/
def State.proxyWrite (s : State) (line : Nat) : Option (Nat × Out) :=
  let die := 1 - (s.cohAt line).slice / 64
  s.cores.findSome? fun c => if dieOf c.1 != die then none else c.2.slots.findSome? fun x =>
    let key := 4 * c.1 + x.1
    (x.2.out.find? fun o => !o.isSluice && o.place.kind == .dev && lineKey o.place.key == line && s.outReady key o
      && ((s.targetOf (s.who key).rev o.place.la).isNone)).map fun o => (key, o)

/-- UPGRADE (R321): a write of the proxy's die needs the copy for itself. -/
def execUpgrade (line : Nat) (s : State) : Out3 :=
  let c := s.cohAt line
  if (c.proxy = .S ∨ c.proxy = .O) ∧ c.req = none ∧ (s.proxyWrite line).isSome then
    .next (s.updCoh line fun x => { x with req := some .upgrade })
  else .next s

/-- READ_EXCLUSIVE (R321) -/
def execReadExclusive (line : Nat) (s : State) : Out3 :=
  let c := s.cohAt line
  if c.proxy = .I ∧ c.req = none ∧ c.wback = none ∧ (s.proxyWrite line).isSome then
    .next (s.updCoh line fun x => { x with req := some .exclusive })
  else .next s

/-- The proxy slice takes a line that it holds now, if it has no way of it yet (R289, R319). -/
def State.enterProxy (s : State) (line : Nat) : State :=
  let c := s.cohAt line
  let d := c.slice ^^^ 64
  if c.proxy = .I ∨ (s.sliceAt d).hasLine line then s else s.enterSlice d line

/-- The home serves the proxy's request (R321); a grant of ownership comes with the write that asked for it, which the
proxy applies before it answers any snoop. -/
def State.grantNow (s : State) (line : Nat) : State :=
  let c := s.cohAt line
  let s1 := s.updCoh line fun x => { x with req := none }
  let own : State := match s.proxyWrite line with
    | some (key, o) => s1.sendOut key o
    | none => s1
  if !c.free then s
  else match c.req with
    | none => s
    | some .shared => (s1.sliceAccess c.slice line).doReadShared line |>.enterProxy line
    | some .upgrade => own
    | some .exclusive => own

/-- SNOOP_READ (R321) -/
def execSnoopRead (line : Nat) (s : State) : Out3 :=
  let c := s.cohAt line
  if c.free && (c.home == .M || c.home == .E) then .next (s.updCoh line fun x => { x with snoop := some .read })
  else .next s

/-- SNOOP_INVALIDATE (R321) -/
def execSnoopInvalidate (line : Nat) (s : State) : Out3 :=
  let c := s.cohAt line
  if c.free && (c.home == .M || c.home == .E || c.home == .O) then
    .next (s.updCoh line fun x => { x with snoop := some .inval })
  else .next s

/-- SNOOP_ANSWER (R321, R322): the write-back under way reaches the home before the answer and serves as its data. -/
def execSnoopAnswer (line : Nat) (s : State) : Out3 :=
  let c := s.cohAt line
  match c.snoop with
  | none => .next s
  | some k =>
    let s1 := s.finishWriteBack line
    let s2 := match k with
      | .read => s1.doSnoopRead line
      | .inval => s1.doSnoopInval line
      | .invAck => s1.doInvalidate line
    .next (s2.updCoh line fun x => { x with snoop := none })

/-- WRITE_BACK (R321, R322): a proxy evicts a line: dirty, it is sent home with its tag and kept until acknowledged;
clean, the home is told. The second step is the home's receipt. -/
def execWriteBack (line : Nat) (s : State) : Out3 :=
  let c := s.cohAt line
  .next (if c.wback.isSome then s.finishWriteBack line else if c.pend.isSome then s else s.evictProxy line)

/-! ## The host and peers (R311, R323) -/

/-- BACK_INVALIDATION (R323): the home recalls the host's copy. -/
def execBackInvalidation (line : Nat) (s : State) : Out3 := .next (s.updCoh line fun x => { x with host := .I })

/-- HOST_SNOOP (R323): a host line that the device holds M is written back and kept S. -/
def execHostSnoop (line : Nat) (s : State) : Out3 :=
  if (s.cohAt line).home = .M ∧ isHostLine line then .next (s.updCoh line fun x => { x with home := .S }) else .next s

/-- A lease of a world that backs a line of device memory: the partition, the page and the lease. -/
def State.backing (s : State) (world lk : Nat) : Option (Nat × Nat × Lease) :=
  (s.grids.filter fun g => g.2.world == world).findSome? fun g =>
    (g.2.leases.find? fun l => (l.2.at_ 0).1 == .dev && (l.2.at_ 0).2 / 4096 == lk / 64).map fun l => (g.2.part, l.1, l.2)

/-- The pages below a table of a level, from a page on, that a leaf maps to a frame of device memory, each with its leaf
and the leaf's level (R326 … R331). -/
def State.pagesFrom (s : State) (world part frame : Nat) : Nat → Nat → Nat → List (Nat × Nat × Nat)
  | 0, _, _ => []
  | l + 1, table, page =>
    if !backed table || s.chunkOwner table != world then []
    else (List.range 512).flatMap fun i =>
      let e := s.devNum (table + 8 * i) 8
      let at_ := page + i * 512 ^ l
      let j := frame - bitsOf e 0 39
      if bitsOf e 63 1 = 0 then []
      else if bitsOf e 62 1 = 0 then
        (if l = 0 || bitsOf e 39 23 != 0 then [] else s.pagesFrom world part frame l (bitsOf e 0 39 * 4096) at_)
      else if decide (2 ≤ l) || bitsOf e 57 2 != 0 || decide (frame < bitsOf e 0 39) || decide (512 ^ l ≤ j)
          || decide (LW / 4096 ≤ at_ + j) || !s.leafOk part (l + 1) (4096 * (at_ + j)) e then []
      else [(at_ + j, e, l + 1)]

/-- A page of a world's tables that maps a line of device memory, with the lease that it would give (R330). -/
def State.mapping (s : State) (world lk : Nat) : Option (Nat × Nat × Lease) :=
  let part := s.partOf world
  (s.pagesFrom world part (lk / 64) 5 (s.worldAt world).troot 0).head?.map fun x =>
    (part, x.1, s.leaseOf part (4096 * x.1) x.2.1 x.2.2)

/-- The virtual line of a world's leases that a physical line backs, if any: revisions name lines so. -/
def State.virtualOf (s : State) (world lk : Nat) : Option Nat :=
  (s.backing world lk).map fun x => 4096 * x.2.1 + 64 * (lk % 64)

/-- The lowest-numbered cluster owned by the partitions of a world (R290). -/
def State.firstCluster (s : State) (world : Nat) : Nat :=
  ((List.range 32).find? fun c => s.parts.any fun p => p.2.wid == world && bitsOf p.2.cl c 1 == 1).getD 0

/-- The access of an outside agent reaches its page, leased or mapped: a first-touch record is made (R290), and the line
has the home of its placement. -/
def State.outsideTouch (s : State) (world lk : Nat) : State :=
  match (s.backing world lk).orElse fun _ => s.mapping world lk with
  | some (part, page, l) =>
    let va := 4096 * page + 64 * (lk % 64)
    let s1 := s.noteTouch world (s.firstCluster world) va l.leaf.toNat
    let w : Who := { key := 0, world := world, part := part, grid := 0, team := 0, rev := none, handler := false }
    (match s1.placeRaw w va l with
     | .ok p => (s1.updLine p id).sliceAccess p.home lk
     | .error _ => s1)
  | none => s

/-- The firewall refuses an outside agent's access (R340), as it refuses code frames their writes (R357) and spill areas
every access (R269). The monitor, 0xFF, is refused nothing. -/
def State.outsideRefused (s : State) (world lk : Nat) (wr : Bool) : Bool :=
  world != 0xFF && (world == 0xFE || !backed (64 * lk) || s.chunkOwner (64 * lk) != world
    || (wr && SMap.look 0 s.frames (lk / 64) != 0) || s.spillLine lk)

/-- An outside agent of a world reads or writes bytes from a line on, with the line's tag as a 65th byte where the agent
carries tags, once a write that the home is applying to the line has committed (R314); a refused read returns all ones, a
refused write is dropped, and both complete with an unsupported-request status (R340). A write of bytes clears the tag (R44) and counts for revisions (R270). A line with an error gives its bits
as they are and no tag (R47; DESIGN CHOICE, log entry 89). -/
def State.outsideAccess (s : State) (world lk : Nat) (wr tagged : Bool) (bytes : List Byte) : State :=
  if s.outsideRefused world lk wr then
    { s.answered false with reply := if wr then s.reply else List.replicate 64 0xFF }
  else
    let s0 := ((s.finishPend lk).outsideTouch world lk).outsideReady lk wr
    let s1 := s0.answered true
    if wr then
      let bs := bytes.take 64
      let s2 := match s1.virtualOf world lk with
        | some la => s1.shareEntries world none la (s1.lineAt (64 * lk)) (s1.lineErrors lk)
        | none => s1
      let s3 := s2.homeRound lk
      if tagged ∧ bytes.length = 65 then
        s3.putLine (64 * lk) { bits := BitVec.ofNat 512 (leNum bs), tag := (bytes.getD 64 0).toNat % 2 == 1 }
      else if bs = [] then s3 else s3.putData (64 * lk) bs
    else { s1 with reply := Memory.getBytes s1.mem (64 * lk) 64 ++ if tagged then [if s1.tagAt (64 * lk) && s1.lineErrors lk == [] then 1 else 0] else [] }

/-- The world of a host access (R340, R363): the one its IDE stream is bound to, selective streams 0 … 31 and CXL streams
32 … 63; world 0 for an access that carries none, 64 and above. An access on a stream that is bound to no world is
refused. -/
def State.streamWorld (s : State) (stream : Nat) : Nat :=
  if 64 ≤ stream then 0 else (SMap.look none s.ports.streams stream).getD 0xFE

/-- The host accesses a line (R311, R323, R340): it keeps a copy of what a CXL stream gave it, in S, or M when it wrote,
but not of a line that a stash owns (R318); over plain PCIe its accesses are uncached. -/
def State.hostNow (s : State) (stream line : Nat) (write : Bool) (bytes : List Byte) : State :=
  let world := s.streamWorld stream
  let c := s.cohAt line
  let s1 := s.outsideAccess world line write false bytes
  let keeps := decide (32 ≤ stream) && decide (stream < 64) && !s.outsideRefused world line write && c.owner.isNone
  if !s.accepts then s
  else if keeps then s1.updCoh line fun x => { x with host := if write then .M else if c.host = .I then .S else c.host }
  else s1

/-- The key of a world and port pair (R364). -/
def pairKey (port world : Nat) : Nat := 256 * port + world % 256

/-- The key of a path and a world; the port of a path is its number modulo 2 (log entry 79). -/
def pathKey (path world : Nat) : Nat := 256 * path + world % 256

/-- Nothing of a world on a path is to be sent again (R364). -/
def State.pathClear (s : State) (path world : Nat) : Bool := SMap.look [] s.ports.resend (pathKey path world) == []

/-- A peer's run is authentic only where the pair has a key, and comes after what its path has still to send again. -/
def State.peerHeard (s : State) (path world : Nat) : Bool :=
  s.accepts && s.ports.fkeys.keys.contains (pairKey (path % 2) world) && s.pathClear path world

/-- A peer accesses a line (R309, R340). -/
def State.peerNow (s : State) (path world line : Nat) (write : Bool) (bytes : List Byte) : State :=
  if s.peerHeard path world then s.outsideAccess world line write true bytes else s

end Sys2Proof.Machine
end

