-- ==== Sys2Proof/Machine/Fence.lean ====
section
/-!
DEFINITION. Fences and releases that wait at issue (R141, R148, R304 … R306), flush rounds over the fabric (R310), the
flushing read of host scope (R311), and the runs of the fabric's paths (R364).
-/

namespace Sys2Proof.Machine

/-! ## Flush rounds -/

/-- The paths of a world that have not failed. -/
def State.pathsOf (s : State) (world : Nat) : List Nat :=
  (((s.ports.fkeys.keys.filter fun k => k % 256 == world).map (· / 256)).flatMap fun p =>
    (List.range (1 + Config.morePaths p)).map fun i => 2 * i + p).filter fun p => !s.ports.failed.contains p

/-- A stripe set of a partition has this package as a member, and another package too (R296, R331). -/
def State.stripePeers (s : State) (part n : Nat) : Bool :=
  let st := s.stripeSet part n
  (s.memberOf part n).isSome && (List.range (min 8 st.1)).any fun k => st.2 k != s.pkg

/-- A scope contains a device other than this package (R296, R310). -/
def State.hasPeers (s : State) (w : Who) (sc : Nat) : Bool :=
  s.pathsOf w.world != [] && (sc != 7 || (List.range 16).any (s.stripePeers w.part))

/-- A round belongs to a slot. -/
def Round.of (r : Round) (key : Nat) : Bool := r.core == key / 4 && r.slot == key % 4

/-- A slot has a round. -/
def State.hasRound (s : State) (key : Nat) : Bool := s.ports.rounds.any fun r => r.of key

/-- Forgets a slot's rounds. -/
def State.dropRounds (s : State) (key : Nat) : State :=
  { s with ports := { s.ports with rounds := s.ports.rounds.filter fun r => !r.of key } }

/-- Begins a round of a world for a slot, or for a grid that completes: a marker goes down every path. -/
def State.beginRound (s : State) (key world : Nat) : State :=
  { s with ports := { s.ports with
      nround := (s.ports.nround + 1) % 2 ^ 32
      rounds := s.ports.rounds ++ [{ num := s.ports.nround, core := key / 4, slot := key % 4, world := world,
                                     paths := s.pathsOf world, got := [], done := false }] } }

/-- FLUSH_MARKER (R310): the marker of a round arrives on a path, behind every run of its world that is to be sent again,
in a run that verifies. Round holders are cores, and from 512 on grids (log entry 79). -/
def execFlushMarker (core path : Nat) (s : State) : Out3 :=
  .next { s with ports := { s.ports with
    rounds := s.ports.rounds.map fun r =>
      if r.core = core ∧ r.paths.contains path ∧ ¬ r.got.contains path ∧ s.pathClear path r.world then
        { r with got := r.got ++ [path] } else r } }

/-- FLUSH_ROUND_COMPLETE (R310): rounds whose markers have come on every path of the present set are done. -/
def execFlushRoundComplete (core : Nat) (s : State) : Out3 :=
  .next { s with ports := { s.ports with
    rounds := s.ports.rounds.map fun r =>
      if r.core = core ∧ r.paths.all r.got.contains then { r with done := true } else r } }

/-- PATH_FAILURE (R310): the path leaves the set of every round under way, and the marker is sent again on the paths that
remain. -/
def execPathFailure (path : Nat) (s : State) : Out3 :=
  .next { s with ports := { s.ports with
    failed := insertRising path s.ports.failed
    rounds := s.ports.rounds.map fun r =>
      if r.paths.contains path then { r with paths := r.paths.filter (· != path), got := [] } else r } }

/-- The longest run of a port in flits: what the monitor set, else 64 (DESIGN CHOICE, log entry 79). -/
def State.runLimit (s : State) (port : Nat) : Nat :=
  let n := SMap.look 0 s.ports.rl port
  if n = 0 then 64 else n

/-- FABRIC_RUN (R364): a run of a world on a path, of as many flits as `run / 256` says; none stand for the run that the path has
to send again first. One whose tag verifies is delivered, unless a run of its path waits; one whose tag fails is discarded,
the pair's key is to be replaced, and with every later run of its path it waits to be sent again. Runs of the pair's other
paths are no part of that. -/
def execFabricRun (path run : Nat) (good : Bool) (s : State) : Out3 :=
  let world := run % 256
  let flits := run / 256
  let pair := pairKey (path % 2) world
  let k := pathKey path world
  let wait := SMap.look [] s.ports.resend k
  let stale := SMap.look false s.ports.stale pair
  if !s.ports.fkeys.keys.contains pair || decide (s.runLimit (path % 2) < flits) || s.ports.failed.contains path then .next s
  else if flits = 0 then
    match wait with
    | [] => .next s
    | n :: t =>
      if stale then .next s
      else if good then
        .next { s with ports := { s.ports with resend := SMap.put [] s.ports.resend k t
                                               delivered := SMap.upd 0 s.ports.delivered k (· + n) } }
      else .next { s with ports := { s.ports with stale := SMap.put false s.ports.stale pair true } }
  else if good && wait == [] then
    .next { s with ports := { s.ports with delivered := SMap.upd 0 s.ports.delivered k (· + flits) } }
  else
    .next { s with ports := { s.ports with resend := SMap.put [] s.ports.resend k (wait ++ [flits])
                                           stale := SMap.put false s.ports.stale pair (stale || !good) } }

/-- FABRIC_REKEY (R364): a new key for the pair, its first or the one after a failed tag. -/
def execFabricRekey (port world : Nat) (s : State) : Out3 :=
  let k := pairKey port world
  if !s.accepts || decide (2 ≤ port) || (s.ports.fkeys.keys.contains k && !SMap.look false s.ports.stale k) then .next s
  else
    let (key, s1) := s.draw
    .next { s1 with ports := { s1.ports with fkeys := SMap.put 0 s1.ports.fkeys k (key + 1)
                                             stale := SMap.put false s1.ports.stale k false } }

/-- What a release at a scope waits for before the flushing reads has come (R304, R310). -/
def State.roundReady (s : State) (key sc stamp : Nat) : Bool :=
  s.releaseOk key (s.slotAt key).seq (min sc 6) stamp
    && (decide (sc < 7) || !s.hasPeers (s.who key) sc || s.ports.rounds.any fun r => r.of key && r.done)

/-- The flushing read of one stream of a slot that waits at host scope completes; R310 comes first (R311). -/
def State.flushSlot (s : State) (key : Nat) : State :=
  match (s.slotAt key).stop with
  | .hold (.release sc st) =>
    if 9 ≤ sc ∧ s.roundReady key sc st then s.updSlot key fun x => { x with hostDirty := x.hostDirty.tail } else s
  | _ => s

/-! ## Waiting at issue -/

/-- The stamp of the first issue of the release or fence that issues, and the state that has it. -/
def State.stampOf (s : State) : Nat × State :=
  match s.sl.stop with
  | .hold (.release _ st) => (st, s)
  | .hold (.applying st) => (st, s)
  | _ => (s.dropRounds s.cur).draw

/-- What a release at a scope waits for has come (R304, R310, R311). -/
def State.scopeReady (s : State) (key sc stamp : Nat) : Bool :=
  s.roundReady key sc stamp && (decide (sc < 9) || (s.slotAt key).hostDirty == [])

/-- Stops the slot, starting its wait timer unless it runs (R197, R215, R310). -/
def State.holdTimed (s : State) (h : Hold) : State :=
  s.updSl fun sl => { sl with stop := .hold h, timer := some (sl.timer.getD (s.now + s.core.wtlim.toNat)) }

/-- Waits for a scope, or goes on: a wide scope begins its flush round once the earlier accesses are acknowledged, and the
wait timer runs while the slot waits on the round (R310). -/
def State.awaitScope (s : State) (sc : Nat) (f : State → State) : State :=
  let (st, s1) := s.stampOf
  if s1.scopeReady s1.cur sc st then f (s1.dropRounds s1.cur)
  else
    let w := s1.who s1.cur
    let wide := decide (7 ≤ sc) && s1.hasPeers w sc
    let s2 := if wide && s1.releaseOk s1.cur s1.sl.seq 6 st && !s1.hasRound s1.cur then s1.beginRound s1.cur w.world
      else s1
    if s2.ports.rounds.any fun r => r.of s2.cur && !r.done then s2.holdTimed (.release sc st)
    else (s2.updSl fun sl => { sl with timer := none }).hold (.release sc st)

/-- FENCE (R148, R306) -/
def execFence (g : Ctl) (sc : ScopeCode) (s : State) : Out3 :=
  guarded g s <| s.awaitScope sc.val fun t => t.done g

/-- ST_REL (R141, R304): up to package scope the store waits in the queue; beyond it, at issue. -/
def execStRel (g : Ctl) (t : IType) (d : XReg) (m : MemReg) (sc : ScopeCode) (s : State) : Out3 :=
  guarded g s <|
    let c := s.sl.cr m.c
    let es := [(s.sl.coordsR m, BitVec.ofNat 64 (uval t (s.sl.xr d).toNat))]
    if sc.val < 7 then s.storeAll g .store (some sc.val) c (fmtOfWidth t.width) es
    else match s.checkStores .store c (fmtOfWidth t.width) es with
      | .error f => s.faultNow f
      | .ok _ => s.awaitScope sc.val fun t' => t'.storeAll g .store (some 6) c (fmtOfWidth t.width) es

end Sys2Proof.Machine
end

