-- ==== Sys2Proof/Machine/Sluice.lean ====
section
/-!
DEFINITION. Sluices at their issue (R194 … R197), the application of a queued Sluice operation at its home (R195), and
`wait` (R198).
-/

namespace Sys2Proof.Machine

/-- A Sluice operation at issue: the operand checks, then the amount, then step 3 of R138, as a store makes it; before
`commit` it is deferred unless its Sluice has lifetime activation (R196). -/
def State.sluiceIssue (s : State) (g : Ctl) (c : CapReg) (k : Coords) (perms : List Nat) (amountOk : Bool)
    (o : SluiceOp) : State :=
  let r : Except FaultInfo (Elem × Place) := do
    let e ← sluiceCheck c s.sl.cmpt perms k
    causeAt (if amountOk then none else some 0x36) e
    let p ← s.placeAt .atomic e
    return (e, p)
  s.orFault r fun (e, p) =>
    if s.sl.committed.isNone && c.f.life != 0 then s.defer g (.sluice o e) none 0
    else match s.reserve (s.who s.cur) s.sl.seq p with
      | none => s.faultNow (spillFault e)
      | some s1 => (s1.enqueue none [(.sluice e o, p)]).done g

/-- The permissions of every Sluice operation but `sinit` (R195). -/
def sluicePerms : List Nat := [permAT, permLD, permST]

/-- SINIT (R195) -/
def execSinit (g : Ctl) (d : XReg) (m : MemOp) (s : State) : Out3 :=
  guarded g s <| s.sluiceIssue g (s.sl.cr m.c) (s.sl.coords m) [permST] (decide ((s.sl.xr d).toNat < 2 ^ 32))
    (.init (s.sl.xr d).toNat)

/-- SARM_REGISTER (R195) -/
def execSarmRegister (g : Ctl) (d : XReg) (m : MemOp) (s : State) : Out3 :=
  guarded g s <| s.sluiceIssue g (s.sl.cr m.c) (s.sl.coords m) sluicePerms true (.arm (s.sl.xr d).toNat)

/-- SARM_IMMEDIATE (R195) -/
def execSarmImmediate (g : Ctl) (m : MemReg) (n : Imm) (s : State) : Out3 :=
  guarded g s <| s.sluiceIssue g (s.sl.cr m.c) (s.sl.coordsR m) sluicePerms true (.arm n.toNat)

/-- SARRIVE (R195) -/
def execSarrive (g : Ctl) (m : MemOp) (s : State) : Out3 :=
  guarded g s <| s.sluiceIssue g (s.sl.cr m.c) (s.sl.coords m) sluicePerms true (.arrive 0)

/-- SARRIVE_BYTES (R195) -/
def execSarriveBytes (g : Ctl) (d : XReg) (m : MemOp) (s : State) : Out3 :=
  guarded g s <| s.sluiceIssue g (s.sl.cr m.c) (s.sl.coords m) sluicePerms true (.arrive (s.sl.xr d).toNat)

/-- Applies the Sluice operation of a queued entry at its home; one that meets an uncorrectable error leaves the line
(DEDUCED, log entry 22). -/
def State.applyOut (s : State) (key : Nat) (o : Out) : State :=
  match o.op with
  | .sluice e op =>
    let w := s.who key
    if s.refusesOut key o then s.refuseOut key o
    else
      let s1 := match s.applySluice w op e with
        | .ok t => t
        | .error _ => s
      (s1.unreserve w o.seq o.place.la).updOut key o fun x => { x with lvl := 3 }
  | .data _ _ => s
  | .line _ _ => s

/-- The oldest Sluice operation that a slot has sent and its home has not applied. -/
def Slot.sluiceOut (sl : Slot) : Option Out := sl.out.find? fun o => o.isSluice && o.lvl == 0

/-- That operation is applied where it may be (R195). -/
def State.sluiceNow (s : State) (core slot : Nat) : State :=
  let key := 4 * core + slot
  match (s.slotAt key).sluiceOut with
  | some o => if s.outReady key o then s.applyOut key o else s
  | none => s

/-! ## Waiting for a flip (R197) -/

/-- FLIPS of the low 64 bits of a Sluice line. -/
def flipsOf (w : Word) : Nat := bitsOf w.toNat 32 32

/-- The operand checks of `swait` (R194). -/
def Slot.swaitCheck (sl : Slot) (m : MemOp) : Except FaultInfo Elem := sluiceCheck (sl.cr m.c) sl.cmpt [permLD] (sl.coords m)

/-- What an observation of a Sluice by a slot gives now: none while it may not perform or sees no change. -/
def State.seesFlip (s : State) (key : Nat) (e : Elem) (flips : Nat) : Option (Except FaultInfo (State × Word)) :=
  let sl := s.slotAt key
  if !s.mayPerform key sl.seq .observe [e] then none
  else match s.readElem (s.who key) .observe sl.seq (sluiceWord e) with
    | .error f => some (.error f)
    | .ok (s1, v, _) => if bitsOf v 32 32 = flips then none else some (.ok (s1, BitVec.ofNat 64 v))

/-- One look of the blocking `swait`. -/
def State.observe (s : State) (g : Ctl) (d : XReg) (e : Elem) (flips : Nat) : State :=
  match s.seesFlip s.cur e flips with
  | none => s.holdTimed (.swait e flips)
  | some (.error f) => s.faultNow f
  | some (.ok (s1, v)) => (s1.updSl fun sl => sl.setX d v).done g

/-- SWAIT_BLOCKING (R197) -/
def execSwaitBlocking (g : Ctl) (d : XReg) (m : MemOp) (s : State) : Out3 :=
  guarded g s <|
    match s.sl.stop with
    | .hold (.swait e fl) => s.observe g d e fl
    | _ =>
      s.orFault (do let e ← s.sl.swaitCheck m; let _ ← s.placeAt .observe e; return e) fun e =>
        s.observe g d e (flipsOf (s.sl.xr d))

/-- SWAIT_POLL (R197): it holds the slot's later accesses until it has performed. -/
def execSwaitPoll (g : Ctl) (d : XReg) (m : MemOp) (s : State) : Out3 :=
  guarded g s <| s.orFault (s.sl.swaitCheck m) fun e =>
    (s.oweNow (some (.x d.val)) fullMask (.poll (flipsOf (s.sl.xr d)) e) true (dField 1 0 d.val)).done g

/-! ## `wait` (R198) -/

/-- Lands one register of a slot that has returned its value. -/
def Slot.landReturned (sl : Slot) (o : Owed) : Slot :=
  { sl.landOne o with owed := sl.owed.filter fun x => x != o }

/-- `wait` (R198, R24 rules 3 and 5, R26): it completes at once for a register not owed; a carried fault is delivered
at the park that trap entry makes, after the `wait`. -/
def waitFor (g : Ctl) (r : RegRef) (s : State) : Out3 :=
  guarded g s <|
    match s.sl.owed.find? fun o => o.live && o.dest == some r with
    | none => s.done g
    | some o =>
      match o.res with
      | none => s.hold (.waitReg r)
      | some (.val _ _) => (s.updSl fun sl => sl.landReturned o).done g
      | some (.fault _) =>
        let t := s.done g
        if t.sl.stop = .park then t else t.parkIfOwing

/-- WAIT_X (R198) -/
def execWaitX (g : Ctl) (d : XReg) (s : State) : Out3 := waitFor g (.x d.val) s

/-- WAIT_V (R198) -/
def execWaitV (g : Ctl) (d : VReg) (s : State) : Out3 := waitFor g (.v d.val) s

/-- WAIT_C (R198) -/
def execWaitC (g : Ctl) (d : CReg) (s : State) : Out3 := waitFor g (.c d.val) s

end Sys2Proof.Machine
end

