-- ==== Sys2Proof/Machine/Records.lean ====
section
/-!
DEFINITION. Reading records and revision lists (R206, R210), the metadata of kernels (R355), the checks of R250, leases
of footprints (R252), and the checks of a revision list (R210, R268, R272).
-/

namespace Sys2Proof.Machine

/-! ## Reading lines -/

/-- Reads lines as capability loads through a capability (R206). -/
def State.readLinesAt (s : State) (w : Who) (seq : Nat) (c : CapF) : List Coords → Except FaultInfo (State × List CapReg)
  | [] => .ok (s, [])
  | k :: ks =>
    match s.readCap w .load seq (c.elem k) with
    | .error f => .error f
    | .ok (s1, v) =>
      match s1.readLinesAt w seq c ks with
      | .error f => .error f
      | .ok (s2, l) => .ok (s2, v :: l)

/-- Coordinates of line `j` of a record whose line 0 is at `k` (R206). -/
def recordAt (k : Coords) (j : Nat) : Coords := k.shift j

/-- Reads a record of five lines. -/
def State.readRec (s : State) (w : Who) (seq : Nat) (c : CapReg) (k : Coords) : Except FaultInfo (State × Rec) :=
  (s.readLinesAt w seq c.f ((List.range 5).map (recordAt k))).map fun x =>
    (x.1, { data := (x.2.headD CapReg.null).bits, caps := x.2.tail })

/-- The issue check of a record capability (R206): LC, for lines 0 and 4. -/
def recordIssue (sl : Slot) (c : CapReg) (k : Coords) : Except FaultInfo Unit := do
  let _ ← sl.checkAt c [permLC] fmtIsLine (recordAt k 0)
  let _ ← sl.checkAt c [permLC] fmtIsLine (recordAt k 4)
  return ()

/-- The issue check of a revision list (R210): LC and MG, for lines 0 and 15. -/
def listIssue (sl : Slot) (c : CapReg) : Except FaultInfo Unit := do
  let _ ← sl.checkAt c [permLC, permMG] fmtIsLine (recordAt Coords.zero 0)
  let _ ← sl.checkAt c [permLC, permMG] fmtIsLine (recordAt Coords.zero 15)
  return ()

/-! ## Entry records (R355) -/

/-- KIND: 0 kernel, 1 routine. -/
def entKind (l : Line) : Nat := bitsOf l.toNat 0 1
/-- team rows -/
def entRows (l : Line) : Nat := bitsOf l.toNat 1 2 + 1
/-- scalar arguments -/
def entNs (l : Line) : Nat := bitsOf l.toNat 3 3
/-- capability arguments -/
def entNc (l : Line) : Nat := bitsOf l.toNat 6 3
/-- named total in bytes -/
def entNamed (l : Line) : Nat := 64 * bitsOf l.toNat 9 13
/-- entry offset -/
def entOff (l : Line) : Nat := bitsOf l.toNat 32 32
/-- CARG `i` -/
def entCarg (l : Line) (i : Nat) : Nat := bitsOf l.toNat (64 + 32 * i) 32
/-- name hash -/
def entName (l : Line) : Nat := bitsOf l.toNat 192 64

/-- A code object of a world. -/
def State.objAt (s : State) (world n : Nat) : CodeObj := SMap.look CodeObj.reset (s.worldAt world).objs n

/-- The kernel entry that a code address names (R250): its object and entry record. -/
def State.kernelAt (s : State) (world code : Nat) : Option (CodeObj × Line) :=
  let n := code / 2 ^ 32
  if (s.worldAt world).objs.keys.contains n then
    ((s.objAt world n).entries.find? fun l => entKind l == 0 && entOff l == code % 2 ^ 32).map fun l => (s.objAt world n, l)
  else none

/-! ## Grids (R247) -/

/-- A quotient rounded up; 0 for a zero divisor. -/
def ceilDiv (a b : Nat) : Nat := (a + b - 1) / b

/-- TX, TY, TZ of a launch record. -/
def Rec.tx (r : Rec) : Nat := ceilDiv r.gx r.bx
/-- TY -/
def Rec.ty (r : Rec) : Nat := ceilDiv r.gy r.by_
/-- TZ -/
def Rec.tz (r : Rec) : Nat := ceilDiv r.gz r.bz

/-- The number of teams of a launch record. -/
def Rec.nteams (r : Rec) : Nat := r.tx * r.ty * r.tz

/-- The grid box is empty. -/
def Rec.zeroSize (r : Rec) : Bool := r.gx == 0 || r.gy == 0 || r.gz == 0

/-! ## R250 -/

/-- The first check: reserved bits and the fields that are zero for the record's kind. -/
def Rec.fieldsOk (r : Rec) (launch : Bool) : Bool :=
  bitsOf r.data.toNat 64 3 == 0
    && (if launch then r.team == 0 && r.depn == 0 && r.plc == 0
        else r.bx == 0 && r.by_ == 0 && r.bz == 0 && r.cwb == 0 && r.cmode == 0 && r.prio == 0)

/-- A capability line satisfies a declaration: tagged, format, rank and the declared permissions. -/
def cargOk (c : CapReg) (d : Nat) : Bool :=
  let f := c.f
  c.tag && f.fmt == bitsOf d 0 8 && f.rank == bitsOf d 8 3 && f.perm &&& bitsOf d 11 16 == bitsOf d 11 16

/-- The completion Sluice of a launch record passes the operand checks of R194. -/
def Rec.sluiceOk (r : Rec) (cmpt : Nat) : Bool :=
  match sluiceCheck (r.cap (r.ncap + 1)) cmpt sluicePerms Coords.zero with
  | .ok _ => true
  | .error _ => false

/-- The checks of R250 for a record (R205 CODE; 0 when it passes). An activation record is held against the issuing
team's cores, index and grid. -/
def State.recordCode (s : State) (world cmpt : Nat) (launch : Bool) (cores team : Nat) (box r : Rec) : Nat :=
  if !r.fieldsOk launch then 2
  else match s.kernelAt world r.code with
    | none => 2
    | some (o, e) =>
      let n := if launch then 4 * entRows e else cores
      if o.quarantined then 5
      else if r.stg ≠ Config.kernelStage e % 8 then 2
      else if r.ncap ≠ entNc e then 2
      else if (List.range r.ncap).any fun i => !cargOk (r.cap (i + 1)) (entCarg e i) then 2
      else if n ≤ r.plc ∨ n ≤ r.jcore then 2
      else if launch then
        if r.bx = 0 ∨ r.by_ = 0 ∨ r.bz = 0 ∨ r.cmode = 3 ∨ 64 < r.cwb + r.nteams then 2
        else if r.cmode = 1 ∧ (r.ncap = 4 ∨ ¬ r.sluiceOk cmpt) then 2
        else 0
      else if r.team ≠ team ∨ box.gx ≤ r.gx ∨ box.gy ≤ r.gy ∨ box.gz ≤ r.gz then 2
      else 0

/-! ## Leases of footprints (R251, R252) -/

/-- The 4 KiB pages of a footprint; an address the device resolves itself (R345) needs no lease. -/
def CapF.pages (c : CapF) : List Nat :=
  match c.footprint with
  | none => []
  | some (lo, hi) => if mintBase ≤ lo then [] else (List.range (hi / 4096 - lo / 4096 + 1)).map (lo / 4096 + ·)

/-- A footprint lies within the leases of a grid. -/
def Grid.leaseCovers (g : Grid) (c : CapF) : Bool :=
  match c.footprint with
  | none => true
  | some (lo, hi) => (g.leases.filter fun x => decide (lo / 4096 ≤ x.1) && decide (x.1 ≤ hi / 4096)).length
      == hi / 4096 - lo / 4096 + 1

/-- A footprint lies within the leases of a grid, or in what the device resolves itself (R345). -/
def Grid.covers (g : Grid) (c : CapF) : Bool :=
  (match c.footprint with
   | none => true
   | some (lo, _) => decide (mintBase ≤ lo)) || g.leaseCovers c

/-! ## Revision lists (R210, R268) -/

/-- Merge types and the formats they accept (R272). -/
def mergeAccepts (mt fmt : Nat) : Bool :=
  let int := decide (1 ≤ fmt) && decide (fmt ≤ 9)
  let small := fmt == 0x10 || fmt == 0x11 || fmt == 0x12
  match mt with
  | 0 => true
  | 3 => int
  | 4 => int
  | 5 => fmt == 0x10
  | 6 => int || small
  | 7 => int || small
  | 11 => fmtIsData fmt && decide (8 ≤ fmtBits fmt)
  | _ => fmtIsData fmt

/-- Two byte ranges overlap. -/
def overlap (a b : Option (Nat × Nat)) : Bool :=
  match a, b with
  | some (l1, h1), some (l2, h2) => decide (l1 ≤ h2) && decide (l2 ≤ h1)
  | _, _ => false

/-- A revision list as read. -/
structure RevList where
  head : CapReg
  spill : CapReg
  regions : List (CapReg × Nat)
  deriving DecidableEq, Repr

/-- N of a revision list's first line. -/
def listN (l : Line) : Nat := bitsOf l.toNat 64 8

/-- The conditions of R210 on a revision list that has been read. -/
def RevList.shapeOk (l : RevList) : Bool :=
  let n := l.head.bits.toNat
  bitsOf n 72 440 == 0 && bitsOf n 56 8 == 0
    && l.regions.all (fun x => x.1.tag && x.1.f.has permMG && decide (x.2 ≤ 12) && mergeAccepts x.2 x.1.f.fmt)
    && l.spill.tag
    && (List.range l.regions.length).all fun i => (List.range i).all fun j =>
        match l.regions[i]?, l.regions[j]? with
        | some a, some b => !overlap a.1.f.footprint b.1.f.footprint
        | _, _ => true

/-- Regions that a revision revises. -/
def Revision.revised (r : Revision) : List CapF := (r.regions.filter fun x => x.2 != 0).map fun x => x.1.f

/-- The condition of R268 on a revised region: its shape, its lease, and an exact match with a parent's region. -/
def regionOk (g : Grid) (parent : List CapF) (c : CapF) : Bool :=
  c.rank == 1 && c.sd0 == 1 && c.base % 64 == 0 && c.ext0 * fmtBits c.fmt % 512 == 0 && g.leaseCovers c
    && parent.all fun p => !overlap c.footprint p.footprint || c.footprint == p.footprint

/-- The capacity of a spill area for `n` regions (R269). -/
def spillCapacity (c : CapF) (n : Nat) : Nat := (c.ext0 - 64 * (n + 2)) / 192

/-- The condition of R268 on the spill capability; `taken` holds the byte ranges it must be disjoint from. -/
def spillOk (g : Grid) (c : CapF) (n : Nat) (taken : List (Option (Nat × Nat))) : Bool :=
  c.fmt == 0 && c.rank == 1 && c.sd0 == 1 && c.has permLD && c.has permST && c.base % 64 == 0 && g.leaseCovers c
    && decide (1 ≤ spillCapacity c n) && taken.all fun r => !overlap c.footprint r

/-- All of R210 and R268 for a fork by an activation of a grid that holds a revision; `lines` are the byte ranges of the
revision list, which is the footprint of its capability (DEDUCED, log entry 36), and of the record's lines. -/
def State.listOk (s : State) (grid : Nat) (rev : Option Nat) (l : RevList) (lines : List (Option (Nat × Nat))) : Bool :=
  let g := s.gridAt grid
  let parent := match rev with
    | some r => (s.revAt r).revised
    | none => []
  let spills := (s.revs.filter fun x => x.2.st != .merged && x.2.world == g.world).map fun x => x.2.spill.f.footprint
  l.shapeOk && l.regions.all (fun x => x.2 == 0 || regionOk g parent x.1.f)
    && spillOk g l.spill.f l.regions.length
        (l.regions.map (fun x => x.1.f.footprint) ++ lines ++ parent.map CapF.footprint ++ spills)

/-- Reads a revision list through its capability: none when N is out of range (R210). -/
def State.readList (s : State) (w : Who) (seq : Nat) (c : CapReg) : Except FaultInfo (State × Option RevList) :=
  match s.readLinesAt w seq c.f [Coords.zero] with
  | .error f => .error f
  | .ok (s1, l0) =>
    let head := l0.headD CapReg.null
    let n := listN head.bits
    if n < 1 ∨ 14 < n then .ok (s1, none)
    else match s1.readLinesAt w seq c.f ((List.range (n + 1)).map fun j => recordAt Coords.zero (j + 1)) with
      | .error f => .error f
      | .ok (s2, ls) =>
        .ok (s2, some { head := head, spill := ls.headD CapReg.null,
                        regions := ls.tail.zipIdx.map fun x => (x.1, bitsOf head.bits.toNat (4 * x.2) 4) })

end Sys2Proof.Machine
end

