-- ==== Sys2Proof/Machine/Basin.lean ====
section
/-!
DEFINITION. Basins (R212 … R215): the checks at issue, one attempt at a push or pop at its home, and the order in which
held operations are served.
-/

namespace Sys2Proof.Machine

/-- The permissions of a Basin (R212). -/
def basinPerms : List Nat := [permLD, permST, permAT]

/-- The coordinates of element `n` of a Basin. -/
def basinAt (n : Int) : Coords := { Coords.zero with k0 := n }

/-- The whole line that begins at element `n` of a Basin. -/
def basinLine (c : CapF) (n : Int) : Elem := { c.elem (basinAt n) with bits := 512 }

/-- CAP of a Basin whose descriptor begins at coordinate k0, when it is whole and at least 1 (R212). -/
def basinCap (c : CapF) (k0 : Int) : Option Nat :=
  let n : Int := (c.ext0 : Int) - k0 - 8
  if n % 8 = 0 ∧ 8 ≤ n then some (n / 8).toNat else none

/-- The pages that hold a byte of the ring. -/
def basinPages (c : CapF) (k0 : Int) : List Elem :=
  let lo := (c.elem (basinAt (k0 + 8))).va
  let hi := (c.elem (basinAt ((c.ext0 : Int) - 1))).va + 7
  (List.range (hi / 4096 - lo / 4096 + 1)).map fun i =>
    { va := max lo ((lo / 4096 + i) * 4096), nib := 0, bits := 64, coords := basinAt (k0 + 8) }

/-- Step 3 of R138 for a list of elements. -/
def State.placesAt (s : State) (k : AKind) : List Elem → Except FaultInfo Unit
  | [] => .ok ()
  | e :: es =>
    match s.placeAt k e with
    | .error f => .error f
    | .ok _ => s.placesAt k es

/-- The checks of R212 at issue. -/
def State.basinCheck (s : State) (c : CapReg) (k : Coords) : Except FaultInfo Unit := do
  let e ← s.sl.checkAt c basinPerms (· == 0x08) k
  let f := c.f
  if f.rank ≠ 1 ∨ f.sd0 ≠ 1 then throw (FaultInfo.atElem 0x12 e)
  if (basinCap f k.k0).isNone ∨ e.va % 64 ≠ 0 then throw (FaultInfo.atElem 0x3E e)
  let _ ← s.placeAt .atomic e
  s.placesAt .atomic (basinPages f k.k0)

/-! ## Fields of a descriptor (R212) -/

/-- HEAD -/
def bHead (l : Line) : Nat := bitsOf l.toNat 0 64
/-- TAIL -/
def bTail (l : Line) : Nat := bitsOf l.toNat 64 64
/-- STG -/
def bStage (l : Line) : Nat := bitsOf l.toNat 128 3
/-- LWM -/
def bLwm (l : Line) : Nat := bitsOf l.toNat 256 32
/-- HWM -/
def bHwm (l : Line) : Nat := bitsOf l.toNat 288 32
/-- TAIL − HEAD modulo 2^64 -/
def bOcc (l : Line) : Nat := (bTail l + 2 ^ 64 - bHead l) % 2 ^ 64

/-- One attempt of an activation at its Basin operation, as one atomic action on the descriptor (R213 … R215): none when
the operation is held, else the state, the popped line and the descriptor. -/
def State.basinTry (s : State) (w : Who) (o : BasinOp) : Except FaultInfo (Option (State × Line × Line)) :=
  let c := o.basin.f
  let d := basinLine c o.k0
  let slot (cap n : Nat) : Elem := basinLine c (o.k0 + 8 + 8 * ((n % cap : Nat) : Int))
  match s.atomicLine w .atomic d fun _ => none with
  | .error f => .error f
  | .ok (s1, l) =>
    let cap := (basinCap c o.k0).getD 1
    if o.push then
      if bOcc l < cap then
        match s1.atomicLine w .atomic (slot cap (bTail l)) fun _ => some o.val with
        | .error f => .error f
        | .ok (s2, _) =>
          (s2.atomicLine w .atomic d fun x => some (setLane 64 1 (bTail x + 1) x)).map fun y => some (y.1, 0, l)
      else .ok none
    else if 0 < bOcc l then
      match s1.atomicLine w .atomic (slot cap (bHead l)) fun _ => none with
      | .error f => .error f
      | .ok (s2, e) =>
        (s2.atomicLine w .atomic d fun x => some (setLane 64 0 (bHead x + 1) x)).map fun y => some (y.1, e, l)
    else .ok none

/-! ## Order of held operations (R215) -/

/-- The Basin operation at the head of the deferred-effect buffer. -/
def Defer.basin (d : Defer) : Option BasinOp :=
  match d.op with
  | .push b k v => some { push := true, vec := false, basin := b, k0 := k, val := v, reg := 0, iaddr := d.iaddr,
                          dfield := d.dfield }
  | .pop b k vec => some { push := false, vec := vec, basin := b, k0 := k, val := 0, reg := 0, iaddr := d.iaddr,
                           dfield := d.dfield }
  | .mem _ => none
  | .cst _ _ _ => none
  | .sluice _ _ => none
  | .count _ => none
  | .rdec _ _ => none
  | .spawn _ _ => none
  | .launch _ _ => none
  | .fork _ _ _ => none

/-- The reason of a stop, `commit` for one that is none. -/
def Stop.holdOf : Stop → Hold
  | .hold h => h
  | .run => .commit
  | .park => .commit
  | .trap _ => .commit
  | .terminal _ => .commit

/-- The Basin operation that a slot holds at its home, with its arrival number. -/
def Slot.heldBasin (sl : Slot) : Option (BasinOp × Nat) :=
  match sl.arrived with
  | none => none
  | some n =>
    match sl.stop with
    | .hold (.basin o _) => some (o, n)
    | .hold .commit => (sl.deferred.head?.bind Defer.basin).map fun o => (o, n)
    | .hold _ => none
    | .run => none
    | .park => none
    | .trap _ => none
    | .terminal _ => none

/-- The key of an operation's descriptor, where its page has a place. -/
def State.basinKey (s : State) (w : Who) (o : BasinOp) : Option Nat :=
  match s.xlate w .atomic false (basinLine o.basin.f o.k0).va with
  | .ok p => some p.key
  | .error _ => none

/-- Another slot holds an operation of the same kind on the same Basin that reached the home earlier. -/
def State.basinBehind (s : State) (key : Nat) (o : BasinOp) (n : Nat) : Bool :=
  let k := s.basinKey (s.who key) o
  s.cores.any fun c => c.2.slots.any fun x =>
    match x.2.heldBasin with
    | some (q, m) => decide (m < n) && q.push == o.push && k.isSome && s.basinKey (s.who (4 * c.1 + x.1)) q == k
    | none => false

/-- A pop registers its Basin for the stage of its activation when the descriptor names that stage (R260). -/
def State.registerBasin (s : State) (o : BasinOp) (l : Line) : State :=
  if !o.push && decide (bStage l = s.sl.stage.toNat) then
    s.updTeam s.sl.team fun t =>
      { t with basins := SMap.put (CapReg.null, 0, 0) t.basins (bStage l) (o.basin, o.k0, s.sl.tcore) }
  else s

end Sys2Proof.Machine
end

