-- ==== Sys2Proof/Machine/Tasks.lean ====
section
/-!
DEFINITION. Deferred effects as they are applied (R199 … R202), the instructions that make them: `rdec`, `spawn`,
`launch`, both forms of `fork`, `bpush` and `bpop` (R205 … R215), and `commit` and `retire` (R201, R204).
-/

namespace Sys2Proof.Machine

/-- What applying an effect comes to. -/
inductive Applied where
  | done (s : State)
  /-- the target has not accepted it yet: why, and whether the wait timer runs -/
  | wait (s : State) (h : Hold) (timed : Bool)
  | fault (s : State) (f : FaultInfo)

/-- A status word of R205. -/
def statusWord (code val_ : Nat) : Word := BitVec.ofNat 64 (code + 2 ^ 8 * (val_ % 2 ^ 32))

/-- Owes a result from application onward (R147, R200); the other deferred effects keep their destinations. Of a result
whose destination was written before `commit` the value is discarded and a fault is kept (DEDUCED, log entry 55). -/
def State.oweApplied (s : State) (d : Defer) (f : Flight) (r : Option Res) : State :=
  if d.stale then
    match r with
    | some (.fault x) => s.updSl fun sl =>
        { sl with owed := sl.owed ++ [{ dest := none, live := false, mask := fullMask, flight := f, res := some (.fault x),
                                        acq := false, seq := sl.seq, iaddr := d.iaddr, dfield := d.dfield }]
                  seq := sl.seq + 1 }
    | some (.val _ _) => s
    | none => s
  else s.updSl fun sl => { sl.owe d.dest fullMask f r false d.iaddr d.dfield with deferred := sl.deferred }

/-- Owes a status word. -/
def State.oweStatus (s : State) (d : Defer) (code val_ : Nat) : State :=
  s.oweApplied d (.ready (capOfWord (statusWord code val_))) none

/-- An effect that releases at package scope (R207 … R213): it waits for the earlier accesses. -/
def State.whenReleased (s : State) (f : State → Applied) : Applied :=
  let (st, s1) := s.stampOf
  if s1.releaseOk s1.cur s1.sl.seq 6 st then f s1 else .wait s1 (.release 6 st) false

/-- An effect on an element, once it may perform (R302). -/
def State.whenFree (s : State) (e : Elem) (f : State → Applied) : Applied :=
  if s.mayPerform s.cur s.sl.seq .atomic [e] then f s else .wait s .commit false

/-- An effect that reads lines, once none of them waits for the commit of a write (R314). -/
def State.whenReadable (s : State) (es : List Elem) (f : State → Applied) : Applied :=
  if s.reachable (s.who s.cur) s.sl.seq .load es then f s else .wait s .commit false

/-- A deferred capability store has performed: where the line has a home here the other die's proxy is told, and its
acknowledgements come to the slot as those of every store (R299, R312). -/
def State.performed (s : State) (key : Nat) (op : OutOp) (p : Place) (iaddr : Word) : State :=
  let sl := s.slotAt key
  let (stamp, s1) := s.draw
  let (s2, waits) := if p.kind = .dev ∧ (s.targetOf sl.rev p.la).isNone then
      s1.tellProxy (lineKey p.key) (key / 4) (key % 4) sl.seq
    else (s1, false)
  s2.updSlot key fun x =>
    { x with
      out := x.out ++ [{ op := op, rel := none, seq := sl.seq, actid := sl.actid, iaddr := iaddr, place := p, idx := 0,
                         lvl := if waits then 2 else if p.kind = .win ∨ p.kind = .mint then 4 else 3, got := 0,
                         stamp := stamp }]
      seq := sl.seq + 1 }

/-! ## Records -/

/-- Adds an activation to those that hold the issuing activation's revision (R267). -/
def State.shareRev (s : State) : State :=
  match s.sl.rev with
  | some r => s.updRev r fun v => { v with holders := v.holders + 1 }
  | none => s

/-- The CODE of R250 for an activation record of the issuing activation. -/
def State.childCode (s : State) (r : Rec) : Nat :=
  let sl := s.sl
  let t := s.teamAt sl.team
  s.recordCode sl.world sl.cmpt false t.cores t.index (s.gridAt sl.grid).record r

/-- Applies `spawn` to the record it read (R205, R207, R255, R260). -/
def State.spawnRec (s : State) (d : Defer) (r : Rec) : State :=
  let code := s.childCode r
  let g := s.gridAt s.sl.grid
  let out := (List.range r.ncap).any fun i => (r.cap (i + 1)).tag && !g.covers (r.cap (i + 1)).f
  if code ≠ 0 then s.oweStatus d code 0
  else if out then s.oweStatus d 3 0
  else
    match s.placeNew s.sl.team r.plc { record := r, rev := s.sl.rev, child := false, taken := false,
                                       dep := decide (r.depn ≠ 0) } with
    | some s1 => s1.shareRev.oweStatus d 0 0
    | none => s.oweStatus d 1 0

/-- The counter windows of a launch record overlap those of a queued or live grid of the partition (R251). -/
def State.windowsOverlap (s : State) (part : Nat) (r : Rec) : Bool :=
  s.grids.any fun x =>
    let g := x.2
    let alive := match g.st with
      | .done => false
      | .queued => true
      | .waiting _ => true
      | .live => true
    g.part == part && alive && !r.zeroSize && !g.record.zeroSize
      && decide (r.cwb < g.record.cwb + g.record.nteams) && decide (g.record.cwb < r.cwb + r.nteams)

/-- Submits an accepted launch record to a partition's scheduler (R208, R251): none when there is no room. -/
def State.submit (s : State) (part world : Nat) (r : Rec) (seq : Option Word) : Option State :=
  if 64 ≤ (s.partAt part).queue.length ∨ s.windowsOverlap part r then none
  else
    let (n, s1) := s.draw
    let named := match s.kernelAt world r.code with
      | some k => k.1.entries.foldl (fun m l => max m (entNamed l)) 0
      | none => 0
    let g : Grid := { part := part, world := world, record := r, sluice := r.cap (r.ncap + 1), st := .queued, order := n,
                      seq := seq, leases := [], teams := [], begun := false, named := named, dirty := [] }
    some (((s1.updGrid (n + 1) fun _ => g).updPart part fun p => { p with queue := p.queue ++ [n + 1] }).updWorld world
      fun w => { w with begun := true })

/-- Applies `launch` to the record it read (R205, R208): the grid's completion releases what the launcher released
(R263). -/
def State.launchRec (s : State) (d : Defer) (r : Rec) : State :=
  let sl := s.sl
  let code := s.recordCode sl.world sl.cmpt true 0 0 Rec.empty r
  if code ≠ 0 then s.oweStatus d code 0
  else match s.submit sl.part sl.world r none with
    | some s1 => (s1.updGrid (s.fresh + 1) fun g => { g with dirty := sl.hostDirty }).oweStatus d 0 0
    | none => s.oweStatus d 1 0

/-- Pushes a child record onto the issuing core's fork deque, its join counter incremented in the same action (R209,
R256); none when the pool or the deque is full. -/
def State.forkPush (s : State) (r : Rec) (rev : Option Nat) (child : Bool) : Option State :=
  let sl := s.sl
  let tc := (s.teamAt sl.team).core sl.tcore
  match tc.freeSlot with
  | none => none
  | some k =>
    if 32 ≤ tc.deque.length then none
    else
      let s1 := s.updTC sl.team sl.tcore fun x =>
        { x.setPool k { record := r, rev := rev, child := child, taken := false, dep := false } with deque := k :: x.deque }
      let s2 := s1.count 1 (s1.teamAt sl.team).clusterNo 2 1
      some (if r.jv then s2.incCounter sl.team r.jcore r.jidx 1 else s2)

/-- Applies `fork` (0xB4) to the record it read. -/
def State.forkRec (s : State) (d : Defer) (idx : Nat) (r : Rec) : State :=
  let code := s.childCode r
  if code ≠ 0 then s.oweStatus d code idx
  else match s.forkPush r s.sl.rev false with
    | some s1 => s1.shareRev.oweStatus d 0 idx
    | none => s.oweStatus d 1 idx

/-- The Junction makes a revision (R267 … R269): its number, and its header, list and regions in the spill area. -/
def State.makeRevision (s : State) (d : Defer) (idx : Nat) (l : RevList) : Nat × State :=
  let (n, s1) := s.draw
  let sl := s.sl
  let y : Revision :=
    { world := sl.world, team := sl.team, grid := sl.grid, parent := sl.rev, forker := (s.cur / 4, s.cur % 4, sl.actid),
      fidx := idx, order := n, faddr := d.iaddr, spill := l.spill, list := l.head.bits, regions := l.regions, entries := [],
      reserved := [], st := .live, broken := false, baddr := 0, holders := 1, joins := [], resets := false }
  let s2 := s1.updRev (n + 1) fun _ => y
  let s3 := (s2.syncHeader (n + 1)).junctionPut y (y.headerAt + 64) { bits := l.head.bits, tag := false }
  (n + 1, l.regions.zipIdx.foldl (fun t x => t.junctionPut y (y.headerAt + 64 * (x.2 + 2)) x.1.1) s3)

/-- The byte range of line `j` that a capability reaches. -/
def lineRange (c : CapF) (j : Nat) : Option (Nat × Nat) :=
  let a := (c.elem (recordAt Coords.zero j)).va
  some (a, a + 63)

/-- The firewall refuses the Junction a page of a spill area: a code frame, or a chunk of another world (R340, R357). -/
def State.spillRefused (s : State) (c : CapF) : Option FaultInfo :=
  let sl := s.sl
  ((s.gridAt sl.grid).leases.filter fun x => c.pages.contains x.1).findSome? fun x =>
    match s.placeOf (s.who s.cur) .copy true (4096 * x.1) x.2 with
    | .ok _ => none
    | .error n => some { FaultInfo.of n with agent := 3, fva := max (4096 * x.1) c.base }

/-- Applies `fork` (0xB5) to the record and the revision list it read (R205, R210, R268); a spill area that the firewall
keeps from the Junction faults (R357). -/
def State.forkRevRec (s : State) (d : Defer) (idx : Nat) (rc lc : CapReg) (r : Rec) (l : Option RevList) :
    Except FaultInfo State :=
  let code := s.childCode r
  if code ≠ 0 then .ok (s.oweStatus d code idx)
  else match l with
    | none => .ok (s.oweStatus d 4 idx)
    | some l =>
      let lines := (List.range 5).map (lineRange rc.f) ++ [lc.f.footprint]
      if !s.listOk s.sl.grid s.sl.rev l lines then .ok (s.oweStatus d 4 idx)
      else match s.spillRefused l.spill.f with
        | some x => .error x
        | none =>
          let (y, s1) := s.makeRevision d idx l
          match s1.forkPush r (some y) true with
          | some s2 => .ok (s2.oweStatus d 0 idx)
          | none => .ok (s.oweStatus d 1 idx)

/-! ## Applying one effect -/

/-- The lines of a record that an effect reads (R206). -/
def recordElems (c : CapReg) (k : Coords) : List Elem := (List.range 5).map fun j => c.f.elem (recordAt k j)

/-- The lines of a revision list (R210). -/
def listElems (c : CapReg) : List Elem := (List.range 16).map fun j => c.f.elem (recordAt Coords.zero j)

/-- A Basin operation of an activation (R213 … R215): a push releases before it reaches the home; the wait timer runs
from its arrival on. -/
def State.applyBasin (s : State) (o : BasinOp) (h : Hold) (f : State → Line → State) : Applied :=
  let go (t : State) (n : Nat) : Applied :=
    let e := basinLine o.basin.f o.k0
    if !t.mayPerform t.cur t.sl.seq .atomic [e] || t.basinBehind t.cur o n then .wait t h true
    else match t.basinTry (t.who t.cur) o with
      | .error x => .fault t x
      | .ok none => .wait t h true
      | .ok (some (t1, v, l)) => .done (f (t1.registerBasin o l) v)
  let arrive (t : State) : Applied :=
    let (n, t1) := t.draw
    go (t1.updSl fun sl => { sl with arrived := some n }) n
  match s.sl.arrived with
  | some n => go s n
  | none => if o.push then s.whenReleased arrive else arrive s

/-- The value that a pop owes (R214). -/
def popValue (vec : Bool) (e : Line) : CapReg :=
  if vec then { bits := e, tag := false } else capOfWord (BitVec.ofNat 64 (lane 64 0 e))

/-- Applies the effect of an entry of the deferred-effect buffer, or of an instruction that issues after `commit`
(R199 … R202); `h` is the stop of a held Basin operation. -/
def State.applyDefer (s : State) (d : Defer) (h : Hold) : Applied :=
  let w := s.who s.cur
  match d.op with
  | .mem f =>
    if !s.mayPerform s.cur s.sl.seq .atomic f.elems then .wait s .commit false
    else match s.performMem w s.sl.seq f with
      | .ok (s1, v) => .done (s1.oweApplied d f (some (.val v 0)))
      | .error x => if x.cause = 0x3A then .fault s x else .done (s.oweApplied d f (some (.fault x)))
  | .cst v _ e => s.whenFree e fun t =>
      match t.xlate w .store false e.va with
      | .error c => .fault t (FaultInfo.atElem c e)
      | .ok p =>
        match (t.touchPage w e.va).writeView w p (.line v) (t.revoking w.world) with
        | none => .fault t (spillFault e)
        | some u => .done (u.performed s.cur (.line e v) p d.iaddr)
  | .sluice o e =>
    let go (t : State) : Applied := t.whenFree e fun u => match u.applySluice w o e with
      | .ok u1 => .done u1
      | .error x => .fault u x
    if o.releases then s.whenReleased go else go s
  | .count n =>
    let c := s.core
    if c.barge.any (fun b => b.num == n) || c.bdone.any (fun b => b.num == n) then .wait s .commit false
    else match c.counts.find? fun x => x.num == n with
      | none => .done s
      | some x => s.whenReleased fun t => t.whenFree (x.slu.f.elem Coords.zero) fun t =>
        match t.applySluice w (.count x.bytes) (x.slu.f.elem Coords.zero) with
        | .ok u => .done (u.updMyCore fun k => { k with counts := k.counts.filter fun y => y.num != n })
        | .error y => .fault t { y with agent := if y.cause = 0x3A then 3 else 1 }
  | .rdec amount e => s.whenReleased fun t =>
      match t.counterAt t.sl.part ((e.va - counterBase) / 64) with
      | some (tm, c, n) => .done (if amount = 0 then t else t.decCounter tm c n amount t.sl.part)
      | none => .done t
  | .spawn rc k => s.whenReleased fun t => t.whenReadable (recordElems rc k) fun t =>
      match t.readRec w t.sl.seq rc k with
      | .error x => .fault t x
      | .ok (u, r) => .done (u.spawnRec d r)
  | .launch rc k => s.whenReleased fun t => t.whenReadable (recordElems rc k) fun t =>
      match t.readRec w t.sl.seq rc k with
      | .error x => .fault t x
      | .ok (u, r) => .done (u.launchRec d r)
  | .fork rc idx none => s.whenReleased fun t => t.whenReadable (recordElems rc Coords.zero) fun t =>
      match t.readRec w t.sl.seq rc Coords.zero with
      | .error x => .fault t x
      | .ok (u, r) => .done (u.forkRec d idx r)
  | .fork rc idx (some lc) => s.whenReleased fun t => t.whenReadable (recordElems rc Coords.zero ++ listElems lc) fun t =>
      match t.readRec w t.sl.seq rc Coords.zero with
      | .error x => .fault t x
      | .ok (u, r) =>
        match u.readList w u.sl.seq lc with
        | .error x => .fault t x
        | .ok (v, l) => match v.forkRevRec d idx rc lc r l with
          | .ok z => .done z
          | .error x => .fault v x
  | .push b k v =>
      s.applyBasin { push := true, vec := false, basin := b, k0 := k, val := v, reg := 0, iaddr := d.iaddr,
                     dfield := d.dfield } h fun t _ => t
  | .pop b k vec =>
      s.applyBasin { push := false, vec := vec, basin := b, k0 := k, val := 0, reg := 0, iaddr := d.iaddr,
                     dfield := d.dfield } h fun t e => t.oweApplied d (.ready (popValue vec e)) none

/-! ## Issue: defer, or act after `commit` -/

/-- An instruction of R199 that issues with its checks passed: before `commit` it is deferred, after it acts. -/
def State.deferOrAct (s : State) (g : Ctl) (op : DeferOp) (dest : Option RegRef) (df : Nat) (h : Hold) : State :=
  if s.sl.committed.isNone then s.defer g op dest df
  else match s.applyDefer { op := op, dest := dest, stale := false, iaddr := s.sl.here, dfield := df } h with
    | .done t => t.done g
    | .wait t k timed => if timed then t.holdTimed k else t.hold k
    | .fault t f => t.faultNow f

/-- The checks of `rdec` at issue (R211). -/
def State.rdecCheck (s : State) (c : CapReg) (k : Coords) : Except FaultInfo Elem := do
  let e ← s.sl.checkAt c [permLD, permST, permAT] fmtIsData k
  if counterBase ≤ e.va ∧ e.va < LW ∧ (e.va - counterBase) % 64 = 0 then
    match s.counterAt s.sl.part ((e.va - counterBase) / 64) with
    | some (t, core, _) =>
      if core < (s.teamAt t).cores ∧ (s.gridAt (s.teamAt t).grid).st = .live then return e
      else throw (FaultInfo.atElem 0x3E e)
    | none => throw (FaultInfo.atElem 0x3E e)
  else throw (FaultInfo.atElem 0x3E e)

/-- `rdec` with an amount. -/
def rdecWith (g : Ctl) (m : MemReg) (n : Nat) (s : State) : Out3 :=
  guarded g s <| s.orFault (s.rdecCheck (s.sl.cr m.c) (s.sl.coordsR m)) fun e =>
    s.deferOrAct g (.rdec n e) none 0 .commit

/-- RDEC_IMMEDIATE (R211) -/
def execRdecImmediate (g : Ctl) (m : MemReg) (n : Imm) (s : State) : Out3 := rdecWith g m n.toNat s

/-- RDEC_REGISTER (R211) -/
def execRdecRegister (g : Ctl) (d : XReg) (m : MemReg) (s : State) : Out3 := rdecWith g m (s.sl.xr d).toNat s

/-- SPAWN (R205 … R207) -/
def execSpawn (g : Ctl) (d : XReg) (m : MemOp) (s : State) : Out3 :=
  guarded g s <| s.orFault (recordIssue s.sl (s.sl.cr m.c) (s.sl.coords m)) fun _ =>
    s.deferOrAct g (.spawn (s.sl.cr m.c) (s.sl.coords m)) (some (.x d.val)) (dField 1 0 d.val) .commit

/-- LAUNCH (R205, R206, R208) -/
def execLaunch (g : Ctl) (d : XReg) (m : MemOp) (s : State) : Out3 :=
  guarded g s <| s.orFault (recordIssue s.sl (s.sl.cr m.c) (s.sl.coords m)) fun _ =>
    s.deferOrAct g (.launch (s.sl.cr m.c) (s.sl.coords m)) (some (.x d.val)) (dField 1 0 d.val) .commit

/-- A `fork` whose issue checks pass takes its fork index when it issues (R209). -/
def State.forkIssue (s : State) (g : Ctl) (d : XReg) (rc : CapReg) (revs : Option CapReg) : State :=
  let op : DeferOp := .fork rc s.sl.forks revs
  let took (t : State) : State := t.updSl fun sl => { sl with forks := sl.forks + 1 }
  if s.sl.committed.isNone then
    if 8 ≤ s.sl.deferred.length then s.faultNow (FaultInfo.of 0x38)
    else (took s).defer g op (some (.x d.val)) (dField 1 0 d.val)
  else
    let e : Defer := { op := op, dest := some (.x d.val), stale := false, iaddr := s.sl.here, dfield := dField 1 0 d.val }
    match s.applyDefer e .commit with
    | .done t => (took t).done g
    | .wait t k _ => t.hold k
    | .fault t f => t.faultNow f

/-- FORK (R205, R206, R209) -/
def execFork (g : Ctl) (d : XReg) (a : CReg) (s : State) : Out3 :=
  guarded g s <| s.orFault (recordIssue s.sl (s.sl.cr a) Coords.zero) fun _ => s.forkIssue g d (s.sl.cr a) none

/-- FORK_WITH_REVISIONS (R205, R206, R209, R210) -/
def execForkWithRevisions (g : Ctl) (d : XReg) (a b : CReg) (s : State) : Out3 :=
  guarded g s <| s.orFault (do
      recordIssue s.sl (s.sl.cr a) Coords.zero
      listIssue s.sl (s.sl.cr b)) fun _ => s.forkIssue g d (s.sl.cr a) (some (s.sl.cr b))

/-! ## Basins -/

/-- A push or pop at issue (R212 … R215). -/
def State.basinIssue (s : State) (g : Ctl) (o : BasinOp) (op : DeferOp) (dest : Option RegRef) (k : Coords) : State :=
  s.orFault (s.basinCheck o.basin k) fun _ => s.deferOrAct g op dest o.dfield (.basin o g)

/-- A push of a value. -/
def pushWith (g : Ctl) (cls : Nat) (d : Nat) (m : MemOp) (v : Line) (s : State) : Out3 :=
  guarded g s <|
    let c := s.sl.cr m.c
    let k := s.sl.coords m
    s.basinIssue g { push := true, vec := false, basin := c, k0 := k.k0, val := v, reg := d, iaddr := s.sl.here,
                     dfield := dField cls 0 d } (.push c k.k0 v) none k

/-- BPUSH_X (R213) -/
def execBpushX (g : Ctl) (d : XReg) (m : MemOp) (s : State) : Out3 :=
  pushWith g 1 d.val m ((s.sl.xr d).setWidth 512) s

/-- BPUSH_V (R213) -/
def execBpushV (g : Ctl) (d : VReg) (m : MemOp) (s : State) : Out3 := pushWith g 2 d.val m (s.sl.vr d) s

/-- A pop into a register. -/
def popWith (g : Ctl) (r : RegRef) (cls d : Nat) (vec : Bool) (m : MemOp) (s : State) : Out3 :=
  guarded g s <|
    let c := s.sl.cr m.c
    let k := s.sl.coords m
    s.basinIssue g { push := false, vec := vec, basin := c, k0 := k.k0, val := 0, reg := d, iaddr := s.sl.here,
                     dfield := dField cls 0 d } (.pop c k.k0 vec) (some r) k

/-- BPOP_X (R214) -/
def execBpopX (g : Ctl) (d : XReg) (m : MemOp) (s : State) : Out3 := popWith g (.x d.val) 1 d.val false m s

/-- BPOP_V (R214) -/
def execBpopV (g : Ctl) (d : VReg) (m : MemOp) (s : State) : Out3 := popWith g (.v d.val) 2 d.val true m s

/-! ## `commit` and `retire` (R201, R202, R204) -/

/-- The activation is committed from the issue of its first `commit` on; its pool slot is freed (R201, R257). -/
def State.markCommit (s : State) : State :=
  if s.sl.committed.isSome then s
  else
    let sl := s.sl
    (s.updTC sl.team sl.tcore fun tc => tc.freePool sl.pool).updSl fun x =>
      { x with committed := some s.now, applied := 0, preempt := false }

/-- The effect at the head of the buffer has been accepted. -/
def State.headApplied (s : State) : State :=
  s.updSl fun sl => { sl with deferred := sl.deferred.tail, applied := sl.applied + 1, stop := .hold .commit, timer := none,
                              arrived := none }

/-- How a `commit` waits for what an effect of its buffer waits for. -/
def Hold.inCommit (h : Hold) : Hold :=
  match h with
  | .release _ st => .applying st
  | x => x

/-- The buffered effects in order, one in each step of the model; then what follows. A failed effect faults in MODE 2
(R202). -/
def State.runCommit (s : State) (k : State → State) : State :=
  match s.sl.deferred with
  | [] => k s
  | d :: rest =>
    match s.applyDefer d .commit with
    | .done t => if rest = [] then k t.headApplied else t.headApplied
    | .wait t h timed => if timed then t.holdTimed h else t.hold h.inCommit
    | .fault t f => t.raise { f with mode := 2, iaddr := d.iaddr, bpos := t.sl.applied }

/-- A slot in handler state whose interrupted `commit` failed does not go on with that buffer (R201: a second `commit`
has no effect). -/
def Slot.skipsBuffer (sl : Slot) : Bool :=
  sl.committed.isSome && sl.handler && (match sl.stop with
    | .hold _ => false
    | .run => true
    | .park => true
    | .trap _ => true
    | .terminal _ => true)

/-- COMMIT (R201, R202) -/
def execCommit (g : Ctl) (s : State) : Out3 :=
  .next (if s.sl.skipsBuffer then s.done g else s.markCommit.runCommit fun t => t.done g)

/-- The activation ends once nothing is owed and nothing of it is on its way (R204 steps 2 … 4), and its join decrement
may be made (R305). A fault that an owed result carries is delivered first, as at a park, also one whose register was
written since (R24 rule 6). -/
def State.finish (s : State) : State :=
  let (st, s1) := match s.sl.stop with
    | .hold (.finish st) => (st, s)
    | _ => s.draw
  if s.sl.owes then s.parkFirst
  else if s.quiet s.cur && s.sl.carried.isSome then s.endPark s.cur
  else if !(s.quiet s.cur && s.joinReady s.cur st) then s1.hold (.finish st)
  else
    let core := s.cur / 4
    ((s.count 0 core 1 1).updMyCore fun c => { c with lastSlot := s.cur % 4, yielded := none }).endActivation s.cur

/-- RETIRE (R204) -/
def execRetire (_g : Ctl) (s : State) : Out3 :=
  .next (if s.sl.skipsBuffer then (s.updSl fun sl => { sl with deferred := [] }).finish else s.markCommit.runCommit State.finish)

/-- BASIN_HELD_OPERATION (R215): the operation that a slot holds at its home is tried again. -/
def execBasinHeldOperation (core slot : Nat) (s : State) : Out3 :=
  let key := 4 * core + slot
  let sl := s.slotAt key
  match if s.overtaken key then none else sl.heldBasin with
  | none => .next s
  | some _ =>
    let s1 : State := { s with cur := key }
    let back (t : State) : State := { t with cur := s.cur }
    match sl.stop with
    | .hold (.basin o g) =>
      let dest : Option RegRef := if o.push then none else if o.vec then some (.v o.reg) else some (.x o.reg)
      let op : DeferOp := if o.push then .push o.basin o.k0 o.val else .pop o.basin o.k0 o.vec
      match s1.applyDefer { op := op, dest := dest, stale := false, iaddr := o.iaddr, dfield := o.dfield } sl.stop.holdOf with
      | .done t => .next (back (t.done g))
      | .wait _ _ _ => .next s
      | .fault t f => .next (back (t.faultNow f))
    | .hold .commit =>
      match sl.deferred with
      | [] => .next s
      | d :: _ =>
        match s1.applyDefer d .commit with
        | .done t => .next (back t.headApplied)
        | .wait _ _ _ => .next s
        | .fault t f => .next (back (t.raise { f with mode := 2, iaddr := d.iaddr, bpos := sl.applied }))
    | _ => .next s

end Sys2Proof.Machine
end

