-- ==== Sys2Proof/Machine/Calls.lean ====
section
/-!
DEFINITION. Capability calls (R216 … R219), `trap` (R221) and the returns from a handler (R222, R235, R236).
-/

namespace Sys2Proof.Machine

/-! ## `ccall` and `cret` -/

/-- The code object of a world that holds an address: its number and the object. -/
def State.objHolding (s : State) (world a : Nat) : Option (Nat × CodeObj) :=
  (s.worldAt world).objs.find? fun o => decide (o.2.base ≤ a) && decide (a < o.2.base + o.2.tlen)

/-- The checks of R216, in their order. A BASE that no object holds fails step 4 (DEDUCED, log entry 30). -/
def State.ccallCheck (s : State) (c : CapReg) : Option Nat :=
  let f := c.f
  if !c.tag then some 0x10
  else if f.seal_ ≠ 1 then some 0x14
  else if !(f.fmt == 0x21 && f.has permCL && f.has permEX) then some 0x12
  else match s.objHolding s.sl.world f.base with
    | none => some 0x3B
    | some (_, o) =>
      if o.quarantined then some 0x3B
      else if s.core.engine.chain = some (s.cur % 4) then some 0x34
      else if 8 ≤ s.sl.stack.length then some 0x17
      else none

/-- Writes x registers 8 … 31. -/
def Slot.setUpperX (sl : Slot) (f : Nat → Word) : Slot :=
  (List.range 24).foldl (fun t i => t.setX (Fin.ofNat 32 (8 + i)) (f i)) sl

/-- Writes c registers 2 … 15. -/
def Slot.setUpperC (sl : Slot) (f : Nat → CapReg) : Slot :=
  (List.range 14).foldl (fun t i => t.setC (Fin.ofNat 16 (2 + i)) (f i)) sl

/-- Zeroes v8 … v31 and p1 … p7 (R217, R218). -/
def Slot.zeroUpper (sl : Slot) : Slot :=
  { ((List.range 24).foldl (fun t i => t.setV (Fin.ofNat 32 (8 + i)) 0) sl) with p := [] }

/-- The frame that `ccall` saves (R217). -/
def Slot.callFrame (sl : Slot) : CallFrame :=
  { ret := sl.link, cmpt := sl.cmpt, frm := sl.frm, fflags := sl.fflags, lc := sl.lc, ls := sl.ls, le := sl.le
    xs := (List.range 24).map fun i => SMap.look 0 sl.x (8 + i)
    cs := (List.range 14).map fun i => SMap.look CapReg.null sl.c (2 + i) }

/-- The number that the current compartment of an activation takes when it is destroyed (R342; DEDUCED, log entry 26): no
capability has it, so that those of lifetime compartment pass R34 for no one. -/
def deadCmpt (c n : Nat) : Nat := if n = c then n + 65536 else n

/-- The number of a compartment that an activation enters: a call that parked may find it destroyed (R342). -/
def World.enters (w : World) (n : Nat) : Nat :=
  let c := SMap.look Cmpt.reset w.cmpts n
  if c.used && !c.valid then deadCmpt n n else n

/-- The slot as the callee finds it (R217). -/
def Slot.enterCallee (sl : Slot) (cmpt : Nat) (arg : CapReg) : Slot :=
  let t := ((sl.setUpperX fun _ => 0).setUpperC fun _ => CapReg.null).zeroUpper.setC 1 arg
  { t with stack := sl.callFrame :: sl.stack, frm := 0, fflags := 0, lc := 0, ls := 0, le := 0, cmpt := cmpt }

/-- The call itself, with the capabilities read at issue. -/
def State.callInto (s : State) (g : Ctl) (a b : CapReg) : State :=
  match s.objHolding s.sl.world a.f.base with
  | none => s.faultNow (FaultInfo.of 0x3B)
  | some (n, o) =>
    (s.updSl fun sl => sl.enterCallee ((s.worldAt s.sl.world).enters a.f.cmpt) b).jump g n ((a.f.base - o.base : Nat) : Int)

/-- CCALL (R216, R217): the checks are made and the operands read when it issues; it parks first while values are
owed. -/
def execCcall (g : Ctl) (a b : CReg) (s : State) : Out3 :=
  guarded g s <|
    match s.sl.callee with
    | some (x, y) => s.callInto g x y
    | none =>
      match s.ccallCheck (s.sl.cr a) with
      | some c => s.faultNow (FaultInfo.of c)
      | none =>
        if s.sl.owes then (s.updSl fun sl => { sl with callee := some (sl.cr a, sl.cr b) }).parkFirst
        else s.callInto g (s.sl.cr a) (s.sl.cr b)

/-- The slot with a frame popped (R218). -/
def Slot.popFrame (sl : Slot) (f : CallFrame) : Slot :=
  let t := ((sl.setUpperX fun i => f.xs.getD i 0).setUpperC fun i => f.cs.getD i CapReg.null).zeroUpper
  { t with stack := sl.stack.tail, frm := f.frm, fflags := f.fflags, lc := f.lc, ls := f.ls, le := f.le, cmpt := f.cmpt }

/-- CRET (R218) -/
def execCret (g : Ctl) (s : State) : Out3 :=
  .next <|
    match s.sl.stack with
    | [] => s.faultNow (FaultInfo.of 0x17)
    | f :: _ =>
      if s.sl.owes then s.parkFirst
      else (s.updSl fun sl => sl.popFrame f).jump g (f.ret.toNat / 2 ^ 32) ((f.ret.toNat % 2 ^ 32 : Nat) : Int)

/-! ## `trap` -/

/-- TRAP (R221) -/
def execTrap (g : Ctl) (code : Imm) (s : State) : Out3 :=
  guarded g s (s.faultNow { FaultInfo.of 0x3C with aux := code.setWidth 64 })

/-! ## Returning from a handler (R222, R235, R236) -/

/-- MODE of the frame's record (R230, R235). -/
def State.frameMode (s : State) : Nat := bitsOf (s.frameAt s.cur 0).bits.toNat 14 2

/-- The slot with the registers of the frame, at the resume point; owed values of restored registers are cancelled. -/
def State.restored (s : State) (t : TrapState) : State :=
  let fr := s.frameAt s.cur
  s.updSl fun sl =>
    { sl.restore fr t.obj ((bitsOf (fr 53).bits.toNat 0 32 : Nat) : Int) t.cmpt with
      owed := sl.owed.map fun o => if o.dest.isSome then { o with dest := none, live := false } else o
      fetched := false }

/-- A frame value that fails its check ends the activation as terminal with cause 0x01 (R236). -/
def State.badFrame (s : State) : State :=
  s.updSl fun sl => { sl with stop := .terminal { FaultInfo.of 0x01 with mode := 3, iaddr := sl.here }, timer := none }

/-- A return other than `tret.end`: outside a handler cause 0x02; the handler's stores to the frame perform first; the
frame is checked, and `f` goes on with the trap state. -/
def tretWith (s : State) (f : TrapState → State) : Out3 :=
  .next <|
    match s.sl.handler, s.sl.trap with
    | true, some t =>
      if !s.sl.acked s.sl.seq 6 then s.hold .template
      else if frameOk (s.frameAt s.cur 53).bits.toNat t then f t else s.badFrame
    | _, _ => s.faultNow (FaultInfo.of 0x02)

/-- Owes again what a trap state holds, and waits for it as at a park (R235). -/
def State.oweAgain (s : State) (o : Owed) (f : Flight) (r : Option Res) : State :=
  let t := s.updSl fun sl =>
    let e : Owed := { o with live := true, flight := f, res := r, seq := sl.seq }
    { sl with owed := sl.owed ++ [e], seq := sl.seq + 1 }
  if t.sl.stop = .park then t else t.parkIfOwing

/-- The Barge work that performs a faulted Barge instruction again (R235): a copy with a resume record goes on from it, a
staging and every other instruction begins again (DEDUCED, log entry 31). -/
def BargeWork.again (w : BargeWork) (r : Option Res) (slot cmpt : Nat) : BargeWork :=
  match w, r with
  | .stage t c u o, _ => .stage t c u o
  | w, some (.fault f) =>
    if f.resume then .resume (windowView (resumeOff slot) 0x20 8 [permLC] cmpt) true else w
  | w, _ => w

/-- The checks that performing a Barge instruction again makes (R191, R200), and whether it takes an entry. -/
def State.bargeAgainChecks (s : State) (w : BargeWork) : Except FaultInfo Bool :=
  let entry := match w with
    | .copy _ _ u t => t.slu && s.defersCount u
    | .resume _ _ => s.sl.committed.isNone
    | .stage _ _ u o => o.slu && s.defersCount u
  let full : Except FaultInfo Bool :=
    if entry && decide (8 ≤ s.sl.deferred.length) then .error (FaultInfo.of 0x38) else .ok entry
  match w with
  | .copy _ _ _ _ => full
  | .resume _ _ => full
  | .stage t c u o =>
    match stageChecks t c u s.sl.cmpt o with
    | .error f => .error f
    | .ok _ => full

/-- Enters a Barge instruction again, for an owed result. -/
def State.bargeAgain (s : State) (o : Owed) (w : BargeWork) : State :=
  let n := s.core.bnum + 1
  match s.bargeAgainChecks w with
  | .error f => s.oweAgain o (.barge n w) (some (.fault f))
  | .ok entry =>
    let op : BargeOp := { num := n, slot := s.cur % 4, work := w, iaddr := o.iaddr, dfield := o.dfield, defer := entry,
                          after := s.eng.num, seq := s.sl.seq, first := 0, pos := 0, got := [] }
    let s1 := s.updMyCore fun c => { c with bnum := n, barge := c.barge ++ [op] }
    let s2 := if entry then s1.updSl fun sl =>
        { sl with deferred := sl.deferred ++ [{ op := .count n, dest := none, stale := false, iaddr := o.iaddr,
                                                dfield := o.dfield }] }
      else s1
    s2.oweAgain o (.barge n w) none

/-- An operation in flight that `tret` performs again: a vector load reads all its elements, whatever it has read, and the
capability form of `cas` makes its value checks (R235). -/
def Flight.redo (f : Flight) : Flight :=
  match f with
  | .vload w all _ _ _ _ => .vload w all all [] none true
  | .ccas x y e _ => .ccas x y e true
  | f => f

/-- Resumes a fault of an owed result (R235). -/
def State.resumeCarried (s : State) (g : Ctl) (t : TrapState) : State :=
  match t.redo with
  | none => (s.restored t).issued g 0
  | some o =>
    match o.flight with
    | .barge _ w =>
      if s.bargeFull (s.cur / 4) then s.hold .barge
      else ((s.restored t).issued g 0).bargeAgain o (w.again o.res (s.cur % 4) t.cmpt)
    | f => ((s.restored t).issued g 0).oweAgain o f.redo none

/-- TRET_RESUME (R222, R235, R236) -/
def execTretResume (g : Ctl) (s : State) : Out3 :=
  tretWith s fun t => if s.frameMode = 1 then s.resumeCarried g t else (s.restored t).issued g 0

/-- TRET_SKIP (R222, R235, R236) -/
def execTretSkip (g : Ctl) (s : State) : Out3 :=
  tretWith s fun t =>
    let r := s.restored t
    (match s.frameMode with
     | 0 => r.updSl fun sl => sl.fall sl.pc
     | 2 => r.updSl fun sl => { sl with deferred := sl.deferred.tail, applied := sl.applied + 1 }
     | _ => r).issued g 0

/-- TRET_END (R222, R235): the buffer is dropped, and the activation ends as R204 gives. -/
def execTretEnd (_g : Ctl) (s : State) : Out3 :=
  .next (if s.sl.handler then (s.updSl fun sl => { sl with deferred := [] }).finish else s.faultNow (FaultInfo.of 0x02))

end Sys2Proof.Machine
end

