-- ==== Sys2Proof/Machine/Junction.lean ====
section
/-!
DEFINITION. The Junction: the element rules of R272, APPEND (R273), when a revision joins (R274), and its reset after a
discard (R275).
-/

namespace Sys2Proof.Machine

/-! ## R272 -/

/-- The formats that hold signed integers. -/
def fmtSigned (f : Nat) : Bool := (decide (1 ≤ f) && decide (f ≤ 4)) || f == 9

/-- An element read as an integer of its format. -/
def fmtInt (fmt w v : Nat) : Int := if fmtSigned fmt then signedOf w v else (v : Int)

/-- The floating-point format of a region that MAX and MIN accept. -/
def mergeFp (fmt : Nat) : FpFmt :=
  match fmt with
  | 0x10 => fpF32 | 0x11 => fpBf16 | _ => fpF16

/-- The result of R272 for an element whose child differs from its ancestor, by merge type. -/
def mergeElem (mt fmt w p c a : Nat) : Nat :=
  let fl := fmt == 0x10 || fmt == 0x11 || fmt == 0x12
  let z : Int := fmtInt fmt w p + fmtInt fmt w c - fmtInt fmt w a
  match mt with
  | 1 => c
  | 2 => if p ≠ a then p else c
  | 3 => unsignedOf w z
  | 4 => unsignedOf w (clampTo (intRange w (fmtSigned fmt)) z)
  | 5 => (fpF32.add .rne p (fpF32.sub .rne c a).1).1
  | 6 => if fl then ((mergeFp fmt).pick true p c).1 else unsignedOf w (max (fmtInt fmt w p) (fmtInt fmt w c))
  | 7 => if fl then ((mergeFp fmt).pick false p c).1 else unsignedOf w (min (fmtInt fmt w p) (fmtInt fmt w c))
  | 8 => p ||| c
  | 9 => p &&& c
  | 10 => (p ^^^ c) ^^^ a
  | 12 => c
  | _ => p

/-! ## Writes of a merge -/

/-- The revision of a chain whose view a merge's write changes: the nearest that revises the line and has, or can be
given, an entry; one with no room becomes broken and the write lands below it (R271). The number bounds the chain. -/
def State.mergeTarget (s : State) (w : Who) (p : Place) : Nat → Option Nat → State × Option Nat
  | 0, _ => (s, none)
  | _, none => (s, none)
  | n + 1, some t =>
    let r := s.revAt t
    let wt : Who := { w with rev := some t }
    if !r.revises p.la then s.mergeTarget w p n r.parent
    else if (r.entryAt p.la).isSome then (s, some t)
    else if r.hasRoom p.la then (s.addEntry t p.la (s.viewLine wt p) (s.viewErrors wt p), some t)
    else (s.breakRev t p.la).mergeTarget w p n r.parent

/-- The place of an address that the Junction writes: by the grid's lease (R335). -/
def State.junctionPlace (s : State) (w : Who) (va : Nat) : Option Place :=
  match (s.gridAt w.grid).leases.find? fun x => x.1 == va / 4096 with
  | some x => (match s.placeOf w .copy true va x.2 with
      | .ok p => some p
      | .error _ => none)
  | none => none

/-- Before the Junction reads a line of memory, which counts as an access of the forking core (R290). -/
def State.junctionReady (s : State) (w : Who) (p : Place) : State :=
  let s1 := s.touchPage w p.va
  if p.kind = .dev ∧ (s.entryOf w p).isNone then (s1.updLine p id).outsideReady (lineKey p.key) false else s1

/-- Marks the nibbles of an element as holding an uncorrectable error, in a revision's child copy or in memory. -/
def State.spoil (s : State) (t : Option Nat) (p : Place) (nib bits : Nat) : State :=
  let ns := elemNibbles p.key nib bits
  match t with
  | some t => s.updRev t fun x =>
      { x with entries := x.entries.map fun e => if e.laddr = p.la then { e with cerr := e.cerr ++ ns } else e }
  | none => { s with poison := ns.foldl (fun q j => SMap.put false q (128 * lineKey p.key + j) true) s.poison }

/-- One element of a merge: a write to the parent's view, unless it changes nothing (R270, R272). `bad` says that a value
it is made from has an uncorrectable error, which the element then takes (DESIGN CHOICE, log entry 83). -/
def State.mergeWrite (s : State) (y : Revision) (va nib bits v : Nat) (bad : Bool) : State :=
  let w := s.junctionWho y y.parent
  match s.junctionPlace w va with
  | none => s
  | some p =>
    let s0 := s.junctionReady w p
    let cur := s0.viewLine w p
    let err := s0.viewErrors w p
    if lineElem cur va nib bits = v ∧ bad = false then s
    else
      let (s1, t) := s0.mergeTarget w p (s.revs.length + 1) y.parent
      let s2 := s1.shareEntries w.world t p.la cur err
      let op : WOp := .data p.key nib bits v
      let s3 := match t with
        | some t => s2.writeChild t p.la op
        | none =>
          if p.kind = .dev then
            ((s2.outsideReady (lineKey p.key) true).updateRound p.home (lineKey p.key)).memWrite p.key op
          else s2.placeWrite w p op
      if bad then s3.spoil t p nib bits else s3

/-- Merges the line of one entry (R272). An element that the child never wrote keeps its error and P. -/
def State.mergeLine (s : State) (y : Revision) (e : RevEntry) (fmt mt : Nat) : State :=
  let w := s.junctionWho y y.parent
  match s.junctionPlace w e.laddr with
  | none => s
  | some p =>
    let s0 := s.junctionReady w p
    let cur := s0.viewLine w p
    let perr := s0.viewErrors w p
    let sz := fmtBits fmt
    let el (l : CapReg) (i : Nat) : Nat := bitsOf l.bits.toNat (sz * i) sz
    let hit (l : List Nat) (i : Nat) : Bool := l.any fun j => decide (sz * i ≤ 4 * j) && decide (4 * j < sz * (i + 1))
    if mt = 12 ∧ cur.bits ≠ e.anc.bits then s0
    else (List.range (512 / sz)).foldl (fun t i =>
      if hit e.cerr i || (el e.child i == el e.anc i && !hit e.aerr i) then t
      else t.mergeWrite y (e.laddr + sz * i / 8) (sz * i % 8 / 4) sz
        (mergeElem mt fmt sz (el cur i) (el e.child i) (el e.anc i))
        (mt != 1 && mt != 12 && (hit e.aerr i || hit perr i))) s0

/-- Merges an APPEND region by its cursor line (R273); one whose cursor has an error in a copy appends nothing. -/
def State.mergeAppend (s : State) (y : Nat) (r : Revision) (e : RevEntry) (c : CapF) : State :=
  let w := s.junctionWho r r.parent
  match s.junctionPlace w e.laddr, c.footprint with
  | some p, some (lo, hi) =>
    let s0 := s.junctionReady w p
    let cur := (s0.viewLine w p).bits.toNat
    let sz := fmtBits c.fmt / 8
    let ac := bitsOf e.anc.bits.toNat 0 64
    let cc := bitsOf e.child.bits.toNat 0 64
    let pc := bitsOf cur 0 64
    let n := cc - ac
    let cap := min (bitsOf cur 64 64) ((hi + 1 - lo - 64) / sz)
    let m := min n (cap - pc)
    let at_ (k : Nat) : Nat := lo + 64 + k * sz
    if (e.aerr ++ e.cerr ++ s0.viewErrors w p).any fun j => decide (j < 48) then s0
    else
      let s1 := (List.range m).foldl (fun t k =>
        let a := at_ (ac + k)
        match t.junctionPlace w a with
        | none => t
        | some q =>
          let wy : Who := { w with rev := some y }
          let t1 := t.junctionReady wy q
          t1.mergeWrite r (at_ (pc + k)) 0 (8 * sz) (lineElem (t1.viewLine wy q) a 0 (8 * sz))
            (t1.placePoisoned wy q 0 (8 * sz))) s0
      let s2 := s1.mergeWrite r lo 0 64 ((pc + m) % 2 ^ 64) false
      if m < n then s2.mergeWrite r (lo + 16) 0 8 (bitsOf cur 128 8 ||| 1) false else s2
  | _, _ => s

/-- Inserts an entry by its line address. -/
def insertEntry (e : RevEntry) : List RevEntry → List RevEntry
  | [] => [e]
  | x :: t => if e.laddr ≤ x.laddr then e :: x :: t else x :: insertEntry e t

/-- The entries in ascending line address (R274). -/
def Revision.sorted (r : Revision) : List RevEntry := r.entries.foldr insertEntry []

/-- Applies R272 and R273 to every entry of a revision. -/
def State.mergeEntries (s : State) (y : Nat) : State :=
  let r := s.revAt y
  r.sorted.foldl (fun t e =>
    match r.regions[e.ridx]? with
    | none => t
    | some (c, mt) =>
      if mt = 11 then
        if (c.f.footprint.map (·.1)) = some e.laddr then t.mergeAppend y r e c.f else t
      else t.mergeLine r e c.f.fmt mt) s

/-! ## R274 -/

/-- The activation that forked a revision has ended. -/
def State.forkerEnded (s : State) (r : Revision) : Bool :=
  let sl := s.slotAt (4 * r.forker.1 + r.forker.2.1)
  !(sl.active && sl.actid == r.forker.2.2)

/-- A revision comes before another in their parent's merge order. -/
def Revision.before (a b : Revision) : Bool := decide (a.fidx < b.fidx) || (a.fidx == b.fidx && decide (a.order < b.order))

/-- The conditions of R274 for a revision; a reset that a discard asked for comes first (R275). -/
def State.joinable (s : State) (y : Nat) : Bool :=
  let r := s.revAt y
  r.st == .ended && !r.resets && s.forkerEnded r
    && s.revs.all fun x => x.2.st == .merged
        || (!(x.2.parent == some y) && !(x.2.world == r.world && x.2.parent == r.parent && x.2.before r))

/-- No write of another agent to a line that the merge may write is under way. -/
def State.mergeQuiet (s : State) (y : Nat) : Bool :=
  let r := s.revAt y
  let w := s.junctionWho r r.parent
  r.regions.all fun x => (match x.1.f.footprint with
    | none => true
    | some (lo, hi) => s.coh.all fun c => c.2.pend.isNone
        || !((s.gridAt w.grid).leases.any fun l => decide (lo / 4096 ≤ l.1) && decide (l.1 ≤ hi / 4096)
              && (l.2.at_ 0).2 / 4096 == c.1 / 64))

/-- The record of a dropped broken revision (R274). -/
def Revision.dropRecord (r : Revision) (baddr now : Nat) : FaultInfo :=
  { FaultInfo.of 0x3A with mode := 3, agent := 3, iaddr := r.faddr, fva := baddr, aux := BitVec.ofNat 64 r.fidx,
                           prog := BitVec.ofNat 64 r.entries.length, time := BitVec.ofNat 64 now }

/-- Merges or drops a revision, then makes the join decrements that waited for it (R256, R274). -/
def State.join (s : State) (y : Nat) : State :=
  let r := s.revAt y
  let brokenParent := match r.parent with
    | some x => if (s.revAt x).broken then some (s.revAt x).baddr else none
    | none => none
  let s1 :=
    if r.broken then s.report r.world (r.dropRecord r.baddr s.now)
    else match brokenParent with
      | some b => s.report r.world (r.dropRecord b s.now)
      | none => s.mergeEntries y
  let s2 := (s1.updRev y fun x => { x with st := .merged }).syncHeader y
  r.joins.foldl (fun t j => t.decCounter r.team j.1 j.2 1 (t.gridAt r.grid).part) s2

/-- JUNCTION_MERGE (R274) -/
def execJunctionMerge (rev : Nat) (s : State) : Out3 := .next (if s.joinable rev && s.mergeQuiet rev then s.join rev else s)

/-- REVISION_DISCARD_RESET (R275): every child copy becomes its ancestor copy; the entries stay. -/
def execRevisionDiscardReset (rev : Nat) (s : State) : Out3 :=
  if !(s.revAt rev).resets then .next s
  else
    let s1 := s.updRev rev fun r =>
      { r with resets := false, entries := r.entries.map fun e => { e with child := e.anc, cerr := e.aerr } }
    .next ((List.range (s1.revAt rev).entries.length).foldl (fun t i => t.syncEntry rev i) s1)

end Sys2Proof.Machine
end

