-- ==== Sys2Proof/Machine/Sha3.lean ====
section
/-!
DEFINITION. SHA3-256 (R355 … R359), which the spec names as the hash of names, pages, devices and components. The function
itself is taken from its standard (PRESUMED, log entry 24): a sponge of 1,600 bits, held as one number whose bit
64·(x + 5·y) + z is bit z of column x and row y, with blocks of 136 bytes.
-/

namespace Sys2Proof.Machine

/-- Column `x` of row `y` of the sponge. -/
def plank (a x y : Nat) : Word := BitVec.ofNat 64 (bitsOf a (64 * (x % 5 + 5 * (y % 5))) 64)

/-- The sponge with given columns. -/
def sponge (f : Nat → Nat → Word) : Nat :=
  (List.range 25).foldr (fun i n => n + 2 ^ (64 * i) * (f (i % 5) (i / 5)).toNat) 0

/-- The parity of the five rows of a column. -/
def parity (a x : Nat) : Word := (List.range 5).foldl (fun w y => w ^^^ plank a x y) 0

/-- The first step of a round mixes the parities of the two neighbouring columns into each column. -/
def mixColumns (a : Nat) : Nat :=
  let p := (List.range 5).map (parity a)
  sponge fun x y => plank a x y ^^^ p.getD ((x + 4) % 5) 0 ^^^ (p.getD ((x + 1) % 5) 0).rotateLeft 1

/-- The places of the columns that turn, in the order in which the standard walks them from (1, 0), each with its turn:
the triangular numbers. -/
def turns : Nat → Nat → Nat → Nat → List ((Nat × Nat) × Nat)
  | 0, _, _, _ => []
  | n + 1, t, x, y => ((x, y), (t + 1) * (t + 2) / 2 % 64) :: turns n (t + 1) y ((2 * x + 3 * y) % 5)

/-- Each column turns, and column x of row y moves to column y of row 2·x + 3·y. -/
def turnColumns (a : Nat) : Nat :=
  let l := turns 24 0 1 0
  sponge fun x y =>
    let from_ := ((x + 3 * y) % 5, x)
    (plank a from_.1 from_.2).rotateLeft (((l.find? fun e => e.1 == from_).map (·.2)).getD 0)

/-- The only step that is not linear. -/
def mixRows (a : Nat) : Nat := sponge fun x y => plank a x y ^^^ (~~~plank a (x + 1) y &&& plank a (x + 2) y)

/-- The shift register of the round constants, x^8 + x^6 + x^5 + x^4 + 1, after `n` steps. -/
def constReg : Nat → Nat
  | 0 => 1
  | n + 1 => let r := 2 * constReg n; if 256 ≤ r then r ^^^ 0x171 else r

/-- The constant of round `i`: bits 2^j − 1. -/
def roundConst (i : Nat) : Nat :=
  (List.range 7).foldl (fun n j => n + constReg (7 * i + j) % 2 * 2 ^ (2 ^ j - 1)) 0

/-- The permutation: 24 rounds. -/
def permute (a : Nat) : Nat := (List.range 24).foldl (fun s i => mixRows (turnColumns (mixColumns s)) ^^^ roundConst i) a

/-- The sponge after a message: whole blocks, then what is left with the bits 0, 1, 1 behind it and a 1 at the end of the
block. The number bounds the blocks. -/
def soak : Nat → Nat → List Byte → Nat
  | 0, a, _ => a
  | n + 1, a, m =>
    if 136 ≤ m.length then soak n (permute (a ^^^ leNum (m.take 136))) (m.drop 136)
    else permute (a ^^^ (leNum m + 6 * 2 ^ (8 * m.length) + 2 ^ 1087))

/-- SHA3-256 of bytes, as the number its 32 bytes spell, lowest first. -/
def sha3 (m : List Byte) : BitVec 256 := BitVec.ofNat 256 (soak (m.length / 136 + 1) 0 m)

end Sys2Proof.Machine
end

