-- ==== Sys2Proof/Machine/Publish.lean ====
section
/-!
DEFINITION. `publish` (R220): its checks at issue, the image (R354, R355), the content checks (R356), and what a
`publish` that passes them does (R357).
-/

namespace Sys2Proof.Machine

/-- The checks of R220 at issue. -/
def publishCheck (c : CapReg) (cmpt : Nat) (n : Word) : Option Nat :=
  let f := c.f
  if !c.tag then some 0x10
  else if !(f.has permLD && f.fmt == 0 && f.rank == 1 && f.sd0 == 1 && f.usableBy cmpt) then some 0x12
  else if f.seal_ ≠ 0 then some 0x14
  else if n = 0 ∨ min f.ext0 (2 ^ 32 - 1) < n.toNat then some 0x11
  else none

/-- PUBLISH (R220) -/
def execPublish (g : Ctl) (d a : CReg) (b : XReg) (s : State) : Out3 :=
  guarded g s <|
    match publishCheck (s.sl.cr a) s.sl.cmpt (s.sl.xr b) with
    | some c => s.faultNow (FaultInfo.of c)
    | none =>
      (s.oweNow (some (.c d.val)) fullMask (.publish (s.sl.cr a) (s.sl.xr b).toNat) false (dField 3 0 d.val)).done g

/-! ## The image -/

/-- Reads `n` lines of the image from line `i` on. -/
def State.imageLines (s : State) (w : Who) (seq : Nat) (c : CapF) : Nat → Nat → Except FaultInfo (State × List Line)
  | _, 0 => .ok (s, [])
  | i, n + 1 =>
    match s.readElem w .load seq { va := c.base + 64 * i, nib := 0, bits := 512, coords := { Coords.zero with k0 := 64 * i } } with
    | .error f => .error f
    | .ok (s1, v, _) =>
      match s1.imageLines w seq c (i + 1) n with
      | .error f => .error f
      | .ok (s2, l) => .ok (s2, BitVec.ofNat 512 v :: l)

/-- MAGIC, VER and reserved bits of a header line (R354). -/
def headerOk (l : Line) : Bool := bitsOf l.toNat 64 32 == 0x4E554947 && bitsOf l.toNat 48 16 == 1 && bitsOf l.toNat 96 160 == 0

/-- NENT -/
def hdrNent (l : Line) : Nat := bitsOf l.toNat 32 16
/-- TLEN -/
def hdrTlen (l : Line) : Nat := bitsOf l.toNat 0 32
/-- DEVH -/
def hdrDevh (l : Line) : BitVec 256 := BitVec.ofNat 256 (bitsOf l.toNat 256 256)

/-- The header of an image: its last line with MAGIC, of the last 1,025 lines (log entry 32): its number and the lines
after it. No entry record that obeys R355 has MAGIC there. -/
def findHeader (ls : List Line) : Option (Nat × Line × List Line) :=
  let n := ls.length
  ((List.range (min n 1025)).map (n - 1 - ·)).findSome? fun i =>
    match ls.drop i with
    | l :: rest => if bitsOf l.toNat 64 32 = 0x4E554947 then some (i, l, rest) else none
    | [] => none

/-- An entry record obeys R355. -/
def entryOk (tlen : Nat) (l : Line) : Bool :=
  let n := l.toNat
  bitsOf n 256 256 == 0 && bitsOf n 22 10 == 0
    && entOff l % 4 == 0 && decide (entOff l < tlen)
    && (if entKind l = 1 then bitsOf n 1 31 == 0 && bitsOf n 64 128 == 0
        else decide (bitsOf n 9 13 ≤ 4096) && decide (entNc l ≤ 4) && decide (entNs l ≤ 4)
          && (List.range 4).all fun i =>
            if i < entNc l then bitsOf (entCarg l i) 27 5 == 0 else entCarg l i == 0)

/-- No two records share a name hash or an offset. -/
def entriesDistinct : List Line → Bool
  | [] => true
  | l :: ls => (ls.all fun m => entName m != entName l && entOff m != entOff l) && entriesDistinct ls

/-- The frames that hold a text byte, as the activation reaches them, each with its 64 KiB page: a frame is named by its
keys' quotient by 4,096, which its kind of memory is part of. -/
def State.textFrames (s : State) (w : Who) (base tlen : Nat) : List (Nat × Nat) :=
  (List.range ((tlen + 4095) / 4096)).filterMap fun i =>
    match s.xlate w .load false (base + 4096 * i) with
    | .ok p => some (p.key / 4096, i / 16)
    | .error _ => none

/-- The content checks of R356, in their order: the reason code, or none. -/
def State.imageReason (s : State) (w : Who) (c : CapF) (len : Nat) (h : Option (Nat × Line × List Line)) : Option Nat :=
  match h with
  | none => some 2
  | some (i, l, es) =>
    let tl := hdrTlen l
    if !headerOk l then some 2
    else if tl % 4 ≠ 0 ∨ tl < 4 ∨ 2 ^ 26 < tl ∨ hdrNent l < 1 ∨ 1024 < hdrNent l ∨ i * 64 ≠ (tl + 63) / 64 * 64
        ∨ len ≠ i * 64 + 64 * (1 + hdrNent l) then some 3
    else if hdrDevh l ≠ Config.deviceHash then some 4
    else if !(es.all (entryOk tl) && es.any fun e => entKind e == 0) then some 5
    else if !entriesDistinct es then some 6
    else if 2 ^ 32 ≤ (s.worldAt w.world).nextObj then some 7
    else if (s.textFrames w c.base tl).any fun f => SMap.look 0 s.frames f.1 != 0 then some 8
    else none

/-- Bytes of lines. -/
def lineBytes (ls : List Line) : List Byte := ls.flatMap fun l => leBytes 64 l.toNat

/-- The 64 KiB pages of a text. -/
def textPages (tlen : Nat) : Nat := (tlen + 65535) / 65536

/-- The hashes of a text's pages; the last takes only text bytes (R357 step 4). -/
def pageHashes (text : List Byte) (n : Nat) : List (BitVec 256) :=
  (List.range n).map fun i => sha3 (text.drop (65536 * i) |>.take 65536)

/-- The execute-only capability of a code object (R357). -/
def codeCap (base tlen cmpt : Nat) : CapReg :=
  CapF.reg { base := base, ext0 := tlen / 4, ext1 := 1, ext2 := 1, ext3 := 1, sd0 := 1, sd1 := 0, sd2 := 0, sd3 := 0,
             fmt := 0x21, rank := 1, perm := permMask [permEX, permGL], life := 3, gen := 0, seal_ := 0, cmpt := cmpt,
             hlay := 0, hswz := 0, rsv := 0 }

/-- The value of a code frame's mark: its world, object and 64 KiB page. -/
def frameMark (world obj page : Nat) : Nat := 1 + obj + 2 ^ 33 * page + 2 ^ 44 * world

/-- Makes the code object (R357 steps 2, 4, 5): its capability. -/
def State.makeObject (s : State) (w : Who) (cmpt base : Nat) (l : Line) (es ls : List Line) : State × CapReg :=
  let tl := hdrTlen l
  let n := (s.worldAt w.world).nextObj
  let cap := codeCap base tl cmpt
  let o : CodeObj :=
    { base := base, tlen := tl, cap := cap, hashes := pageHashes ((lineBytes ls).take tl) (textPages tl), entries := es,
      cmpt := cmpt, quarantined := false,
      verified := (List.range (textPages tl)).map fun i => (i, true) }
  let s1 := (s.textFrames w base tl).foldl (fun t f =>
    { t with frames := SMap.put 0 t.frames f.1 (frameMark w.world n f.2) }) s
  (s1.updWorld w.world fun x => { x with objs := SMap.put CodeObj.reset x.objs n o, nextObj := n + 1 }, cap)

/-- An untagged result with a reason code (R220, R356). -/
def reasonCap (r : Nat) : CapReg := { bits := BitVec.ofNat 512 r, tag := false }

/-- Every write to a frame that reached its home has been committed (R357 step 3). -/
def State.framesSettled (s : State) (fs : List Nat) : Bool := s.coh.all fun c => c.2.pend.isNone || !fs.contains (c.1 / 64)

/-- No Barge instruction that the slot issued before has still to be completed: its accesses are acknowledged (R357
step 1). -/
def State.bargeQuiet (s : State) (key seq : Nat) : Bool :=
  let c := s.coreAt (key / 4)
  let mine (n : Nat) : Bool := (s.slotAt key).owed.any fun o => decide (o.seq < seq) && (match o.flight with
    | .barge k _ => k == n
    | _ => false)
  c.barge.all (fun b => b.slot != key % 4 || !decide (b.seq ≤ seq)) && c.bdone.all fun b => b.slot != key % 4 || !mine b.num

/-- Performs a `publish` (R356, R357): none while it has to wait. -/
def State.doPublish (s : State) (key seq : Nat) (c : CapReg) (len : Nat) : Option (State × Res) :=
  let w := s.who key
  let sl := s.slotAt key
  let f := c.f
  if f.base % 65536 ≠ 0 then some (s, .val (reasonCap 1) 0)
  else if !(sl.acked seq 6 && s.bargeQuiet key seq) then none
  else match s.imageLines w seq f 0 (len / 64) with
    | .error x => some (s, .fault x)
    | .ok (s1, ls) =>
      let h := findHeader ls
      match s1.imageReason w f len h, h with
      | some r, _ => some (s1, .val (reasonCap r) 0)
      | none, none => some (s1, .val (reasonCap 2) 0)
      | none, some (_, l, es) =>
        if !s1.framesSettled ((s1.textFrames w f.base (hdrTlen l)).map (·.1)) then none
        else
          let (s2, cap) := s1.makeObject w sl.cmpt f.base l es ls
          some (s2, .val cap 0)

end Sys2Proof.Machine
end

