-- ==== Sys2Proof/Machine/Fetch.lean ====
section
/-!
DEFINITION. Instruction fetch (R87, R105, R106, R287, R359, R361), the verification of code pages (R359 … R361) and the
completion of a slot's fetch (R123).
-/

namespace Sys2Proof.Machine

/-- What a fetch comes to. -/
inductive Fetched where
  | bytes (b : List Byte)
  /-- its fault, and the leaf entries that its walks reached -/
  | fault (f : FaultInfo) (walked : List Nat)
  /-- a page that has not been verified holds a byte of the instruction -/
  | unverified
  deriving DecidableEq, Repr

/-- A word of code that a fetch reached: its bytes, the entry of its leaf (R332), and its line with the line's key. -/
structure CodeWord where
  bytes : List Byte
  entry : Nat
  key   : Nat
  line  : Line
  deriving DecidableEq, Repr

/-- The fault record of a fetch carries the target offset (R106, R230). -/
def fetchFault (f : FaultInfo) (pc : Int) : FaultInfo := { f with aux := BitVec.ofInt 64 pc }

/-- The check of R38 on the three words of an instruction (R87): their elements. -/
def fetchCheck (c : CapReg) (cmpt : Nat) (pc : Int) : List Nat → Except FaultInfo (List Elem)
  | [] => .ok []
  | j :: js =>
    let k : Coords := { Coords.zero with k0 := pc / 4 + (j : Int) }
    match check c cmpt [permEX] (· == 0x21) k with
    | .error n => .error (FaultInfo.ofCheck c n k)
    | .ok e =>
      match fetchCheck c cmpt pc js with
      | .error f => .error f
      | .ok l => .ok (e :: l)

/-- The agent of a partition that acts for a world. -/
def partWho (world part : Nat) : Who :=
  { key := 0, world := world, part := part, grid := 0, team := 0, rev := none, handler := false }

/-- A byte of code by the present page tables (R335, R340): its place and the entry of its leaf. -/
def State.codeByte (s : State) (w : Who) (va : Nat) : Except Nat (Place × Nat) :=
  match s.walk w.world w.part va with
  | .error c => .error c
  | .ok (leaf, lvl, addr) => (s.placeOf w .load false va (s.leaseOf w.part va leaf lvl)).map fun p => (p, addr)

/-- The line of code at a place. -/
def State.codeLine (s : State) (w : Who) (p : Place) : Line :=
  (if p.kind = .dev then s.lineNow p.key else s.placeLine w p).bits

/-- The instruction cache's copy of a line (R287). -/
def Core.cachedLine (c : Core) (lk : Nat) : Option Line := (c.icache.find? fun x => x.1 == lk).map (·.2)

/-- A word of code: out of the instruction cache that the core may use, or of memory. -/
def State.codeWord (s : State) (w : Who) (cache : List (Nat × Line)) (e : Elem) : Except Nat CodeWord :=
  match s.codeByte w e.va with
  | .error c => .error c
  | .ok (p, addr) =>
    let word (l : Line) : CodeWord :=
      { bytes := leBytes 4 (bitsOf l.toNat (8 * (p.key % 64)) 32), entry := addr, key := lineKey p.key, line := l }
    match cache.find? fun x => x.1 == lineKey p.key with
    | some x => .ok (word x.2)
    | none => if s.poisoned (2 * p.key) 8 then .error 0x23 else .ok (word (s.codeLine w p))

/-- Words of code, or the fault of the first that meets one, with its address and coordinates (R230). -/
def State.codeWords (s : State) (w : Who) (cache : List (Nat × Line)) : List Elem → Except FaultInfo (List CodeWord)
  | [] => .ok []
  | e :: es =>
    match s.codeWord w cache e with
    | .error c => .error (FaultInfo.atElem c e)
    | .ok x =>
      match s.codeWords w cache es with
      | .error f => .error f
      | .ok l => .ok (x :: l)

/-- The entries of the leaves that the walks for words of code reach, up to the first word that meets a fault (R332). -/
def State.reached (s : State) (w : Who) (cache : List (Nat × Line)) : List Elem → List Nat
  | [] => []
  | e :: es =>
    match s.walk w.world w.part e.va with
    | .error _ => []
    | .ok (_, _, addr) =>
      addr :: (match s.codeWord w cache e with
        | .error _ => []
        | .ok _ => s.reached w cache es)

/-- The text bytes of a 64 KiB page of an object. -/
def CodeObj.pageBytes (o : CodeObj) (page : Nat) : Nat := min 65536 (o.tlen - 65536 * page)

/-- The words of a page of an object. -/
def CodeObj.pageElems (o : CodeObj) (page : Nat) : List Elem :=
  (List.range (o.pageBytes page / 4)).map fun i => o.cap.f.elem { Coords.zero with k0 := ((16384 * page + i : Nat) : Int) }

/-- The pages that hold the bytes of the instruction at an offset. -/
def fetchPages (pc : Int) : List Nat := [pc.toNat / 65536, (pc.toNat + 11) / 65536]

/-- The fetch of the next instruction of a slot, with the words that it reaches. A page without its verified mark is read
whole for its verification, and what that reading meets is the fetch's fault (R359). -/
def State.fetchWith (s : State) (key : Nat) : Fetched × List CodeWord :=
  let sl := s.slotAt key
  let w := s.who key
  let o := s.objAt sl.world sl.obj
  match fetchCheck o.cap sl.cmpt sl.pc [0, 1, 2] with
  | .error f => (.fault (fetchFault f sl.pc) [], [])
  | .ok es =>
    let cache := (s.coreAt (key / 4)).icache
    match (fetchPages sl.pc).find? fun p => !SMap.look false o.verified p with
    | none =>
      (match s.codeWords w cache es with
       | .error f => (.fault (fetchFault f sl.pc) (s.reached w cache es), [])
       | .ok l => (.bytes (l.flatMap (·.bytes)), l))
    | some page =>
      if o.quarantined then (.fault (fetchFault { FaultInfo.of 0x3B with mode := 3 } sl.pc) [], [])
      else match s.codeWords w [] (o.pageElems page) with
        | .error f => (.fault (fetchFault f sl.pc) (s.reached w [] (o.pageElems page)), [])
        | .ok _ => (.unverified, [])

/-- Walks for a fetch set A in the leaves that they reach (R332). -/
def State.markEntries (s : State) (l : List Nat) : State := l.foldl State.markAccessed s

/-- Fetches set A in the leaves they walk (R332). -/
def State.markWalks (s : State) (l : List CodeWord) : State := s.markEntries (l.map (·.entry))

/-- A line enters the instruction cache, which holds 64 KiB (R287), most recently used first (DESIGN CHOICE, log entry
87). -/
def Core.fillCode (c : Core) (x : CodeWord) : Core :=
  { c with icache := ((x.key, x.line) :: c.icache.filter fun y => y.1 != x.key).take 1024 }

/-- What the fetch of an instruction leaves: accessed bits, and its lines in the core's instruction cache. -/
def State.fetchDone (s : State) (key : Nat) (l : List CodeWord) : State :=
  (s.markWalks l).updCore (key / 4) fun c => l.foldl Core.fillCode c

/-- Lines of a frame leave every instruction cache: its page is not verified any more (R287, R360). -/
def State.dropCode (s : State) (frame : Nat) : State :=
  s.cores.keys.foldl (fun t c =>
    if (t.coreAt c).icache.any fun x => x.1 / 64 == frame then
      t.updCore c fun x => { x with icache := x.icache.filter fun y => y.1 / 64 != frame }
    else t) s

/-- FETCH_COMPLETE (R123, R359): the fetch of the next instruction completes; one that needs a page without its
verified mark waits for the verification. -/
def execFetchComplete (core slot : Nat) (s : State) : Out3 :=
  let key := 4 * core + slot
  let sl := s.slotAt key
  .next (if sl.active && !sl.fetched && (s.fetchWith key).1 != .unverified then
      s.updSlot key fun x => { x with fetched := true }
    else s)

/-! ## Verification (R359 … R361) -/

/-- A slot's fetch waits for a page of an object. -/
def State.awaits (s : State) (world obj page key : Nat) : Bool :=
  let sl := s.slotAt key
  sl.active && !sl.fetched && sl.world == world && sl.obj == obj && (fetchPages sl.pc).contains page

/-- The slot for whose fetch a page is verified: its partition reads the page (R359). -/
def State.verifier (s : State) (world obj page : Nat) : Option Nat :=
  (s.cores.keys.flatMap fun c => (List.range 4).map (4 * c + ·)).find? (s.awaits world obj page)

/-- Quarantines an object and reports it once (R361). -/
def State.quarantine (s : State) (world obj page : Nat) : State :=
  (s.updWorld world fun w =>
    { w with objs := SMap.upd CodeObj.reset w.objs obj fun o => { o with quarantined := true } }).report world
    { FaultInfo.of 0x3B with mode := 3, iaddr := BitVec.ofNat 64 (obj * 2 ^ 32 + 65536 * page),
                             time := BitVec.ofNat 64 s.now }

/-- A page of an object passes its verification: its frames are code frames and it is marked (R357, R359). -/
def State.markVerified (s : State) (world obj page : Nat) (frames : List Nat) : State :=
  let s1 : State := frames.foldl (fun (t : State) f => { t with frames := SMap.put 0 t.frames f (frameMark world obj page) }) s
  s1.updWorld world fun x =>
    { x with objs := SMap.upd CodeObj.reset x.objs obj fun c => { c with verified := SMap.put false c.verified page true } }

/-- PAGE_VERIFICATION (R359, R361), for the fetches that wait for it: the page is read through its present translation,
hashed and compared, once every write that reached a home in its frames has been committed (R357 step 3). -/
def execPageVerification (world obj page : Nat) (s : State) : Out3 :=
  let o := s.objAt world obj
  match s.verifier world obj page with
  | none => .next s
  | some key =>
    if o.quarantined || SMap.look false o.verified page || o.pageBytes page == 0 then .next s
    else
      match s.codeWords (s.who key) [] (o.pageElems page) with
      | .error _ => .next s
      | .ok l =>
        let frames := (l.map fun x => x.key / 64).eraseDups
        if !s.framesSettled frames then .next s
        else
          let s1 := s.markWalks l
          .next (if sha3 (l.flatMap (·.bytes)) = o.hashes.getD page 0 then s1.markVerified world obj page frames
            else s1.quarantine world obj page)

end Sys2Proof.Machine
end

