-- ==== Sys2Proof/Machine/System.lean ====
section
/-!
DEFINITION. Special registers (R12, R13, R17, R126, R223 … R225, R243) and counters through the Sieve (R226 … R228).
-/

namespace Sys2Proof.Machine

/-! ## Special registers -/

/-- The current compartment of a slot is privileged (R225, R342); compartment 0 always is. -/
def State.privileged (s : State) (key : Nat) : Bool :=
  let sl := s.slotAt key
  sl.cmpt == 0 || (SMap.look Cmpt.reset (s.worldAt sl.world).cmpts sl.cmpt).priv

/-- Registers that only a privileged compartment may read (R224, R225, R243). -/
def sregPriv : SReg → Bool
  | .tcause => true | .tiaddr => true | .tfva => true | .taux => true | .tstate => true | .cwrem => true
  | .fltcnt => true | .wtlim => true | .clflags => true
  | .frm => false | .fflags => false | .lc => false | .ls => false | .le => false
  | .actid => false | .coreid => false | .teamid => false | .stage => false | .gx => false | .gy => false
  | .gz => false | .defocc => false | .cmptno => false | .calldepth => false

/-- Core cycles left in the commit window (R203, R243). -/
def State.cwrem (s : State) (sl : Slot) : Nat :=
  match sl.committed with
  | none => 65536
  | some c => 65536 - (s.now - c)

/-- The value of a special register of the slot that issues. -/
def State.sregValue (s : State) (r : SReg) : Word :=
  let sl := s.sl
  match r with
  | .frm => sl.frm
  | .fflags => sl.fflags
  | .lc => sl.lc
  | .ls => sl.ls
  | .le => sl.le
  | .actid => sl.actid
  | .coreid => s.coreid (s.cur / 4) s.sl.part
  | .teamid => sl.teamid
  | .stage => sl.stage
  | .gx => sl.gx
  | .gy => sl.gy
  | .gz => sl.gz
  | .tcause => sl.tcause
  | .tiaddr => sl.tiaddr
  | .tfva => sl.tfva
  | .taux => sl.taux
  | .tstate => BitVec.ofNat 64 (sl.handler.toNat + 2 * sl.committed.isSome.toNat + 4 * sl.preempt.toNat)
  | .cwrem => BitVec.ofNat 64 (s.cwrem sl)
  | .fltcnt => sl.fltcnt
  | .wtlim => s.core.wtlim
  | .clflags => s.clFlags (clusterOf (s.cur / 4))
  | .defocc => BitVec.ofNat 64 sl.deferred.length
  | .cmptno => BitVec.ofNat 64 (sl.cmpt % 65536)
  | .calldepth => BitVec.ofNat 64 sl.stack.length

/-- SYSRD (R223 … R225) -/
def execSysrd (g : Ctl) (d : XReg) (r : SReg) (s : State) : Out3 :=
  guarded g s <|
    if sregPriv r && !s.privileged s.cur then s.faultNow (FaultInfo.of 0x02)
    else (s.updSl fun sl => sl.setX d (s.sregValue r)).done g

/-- A write of a special register; none when the value is refused with cause 0x01 (R12, R13, R126, R224). -/
def State.writeSreg (s : State) (r : WReg) (v : Word) : Option State :=
  match r with
  | .frm => (frmOf v).map fun w => s.updSl fun sl => { sl with frm := w }
  | .fflags => some (s.updSl fun sl => { sl with fflags := fflagsOf v })
  | .lc => some (s.updSl fun sl => { sl with lc := v })
  | .ls => if v.toNat % 4 = 0 then some (s.updSl fun sl => { sl with ls := v }) else none
  | .le => if v.toNat % 4 = 0 then some (s.updSl fun sl => { sl with le := v }) else none
  | .wtlim =>
    if v = 0 ∨ 2 ^ 32 ≤ v.toNat then none else some (s.updMyCore fun c => { c with wtlim := v })

/-- `syswr` of a value (R223 … R225). -/
def syswrWith (g : Ctl) (r : WReg) (v : Word) (s : State) : Out3 :=
  guarded g s <|
    if r = .wtlim ∧ s.privileged s.cur = false then s.faultNow (FaultInfo.of 0x02)
    else match s.writeSreg r v with
      | some t => t.done g
      | none => s.faultNow (FaultInfo.of 0x01)

/-- SYSWR_REGISTER (R223) -/
def execSyswrRegister (g : Ctl) (r : WReg) (a : XReg) (s : State) : Out3 := syswrWith g r (s.sl.xr a) s

/-- SYSWR_IMMEDIATE (R223) -/
def execSyswrImmediate (g : Ctl) (r : WReg) (imm : Imm) (s : State) : Out3 := syswrWith g r (imm.setWidth 64) s

/-! ## Counters -/

/-- A partition owns a unit of a kind (R226, R339). -/
def Part.ownsUnit (p : Part) (num kind unit : Nat) : Bool :=
  match kind with
  | 0 => bitsOf p.cl (unit / 16) 1 == 1
  | 1 => bitsOf p.cl unit 1 == 1
  | 2 => bitsOf p.sl unit 1 == 1
  | _ => num == unit

/-- The world that a counter belongs to (R228); 0xFE for a unit that no partition owns. -/
def State.counterOwner (s : State) (kind unit : Nat) : Nat :=
  match s.parts.find? fun p => p.2.ownsUnit p.1 kind unit with
  | some p => p.2.wid
  | none => 0xFE

/-- The counter that a reader of a world receives (R228). -/
def State.counterFor (s : State) (world kind unit n : Nat) : Word :=
  let o := s.counterOwner kind unit
  if o = world then s.counter kind unit n
  else match (s.worldAt o).policy with
    | none => onesW
    | some _ => SMap.look 0 (s.worldAt o).copies (perfKey kind unit n)

/-- The value of `ctr`: one counter, or eight lanes of which an unassigned one is 0 (R226). -/
def State.ctrValue (s : State) (world kind unit n : Nat) (vec : Bool) : CapReg :=
  if vec then
    { bits := lanes 64 8 fun j => if counterAssigned kind (n + j) then (s.counterFor world kind unit (n + j)).toNat else 0
      tag := false }
  else capOfWord (s.counterFor world kind unit n)

/-- `ctr` (R226): the counters of the issuing core are read in the cycle of issue, others when the request reaches the
unit. -/
def ctrWith (g : Ctl) (r : RegRef) (cls d : Nat) (vec : Bool) (a : XReg) (s : State) : Out3 :=
  guarded g s <|
    let v := (s.sl.xr a).toNat
    let kind := bitsOf v 20 4
    let unit := bitsOf v 10 10
    let n := bitsOf v 0 10
    if 2 ^ 24 ≤ v ∨ 3 < kind ∨ counterUnits kind ≤ unit ∨ counterAssigned kind n = false then
      s.faultNow (FaultInfo.of 0x3E)
    else
      let f : Flight :=
        if kind = 0 ∧ unit = s.cur / 4 then .ready (s.ctrValue s.sl.world kind unit n vec) else .ctr kind unit n vec
      (s.oweNow (some r) fullMask f false (dField cls 0 d)).done g

/-- CTR_X (R226) -/
def execCtrX (g : Ctl) (d a : XReg) (s : State) : Out3 := ctrWith g (.x d.val) 1 d.val false a s

/-- CTR_V (R226) -/
def execCtrV (g : Ctl) (d : VReg) (a : XReg) (s : State) : Out3 := ctrWith g (.v d.val) 2 d.val true a s

/-- The quantization exponent of a kind under a policy (R352). -/
def policyQ (b : Line) (kind : Nat) : Nat := bitsOf b.toNat (424 + 6 * min kind 3) 6

/-- The period of R228. -/
def policyPeriod (b : Line) : Nat := max 1024 (bitsOf b.toNat 448 64)

/-- The value that a refresh stores (R228): the cycle counter as it stood at the first cycle of the period. -/
def State.shaped (s : State) (b : Line) (kind unit n : Nat) : Word :=
  let v := s.counter kind unit n
  let late := BitVec.ofNat 64 (s.now % policyPeriod b)
  let v' := if kind = 0 ∧ n = 0 then roundTime (bitsOf b.toNat 418 6) (if late ≤ v then v - late else 0) else v
  roundTime (policyQ b kind) v'

/-- The units of a kind that a world's partitions own. -/
def State.unitsOf (s : State) (world kind : Nat) : List Nat :=
  (List.range (counterUnits kind)).filter fun u => s.counterOwner kind u == world

/-- COUNTER_REFRESH (R228): at the first cycle of a period. -/
def execCounterRefresh (world : Nat) (s : State) : Out3 :=
  let w := s.worldAt world
  match w.policy with
  | none => .next s
  | some b =>
    let n := s.now / policyPeriod b
    if w.period = n then .next s
    else
      let keys := (List.range 4).flatMap fun kind =>
        (s.unitsOf world kind).flatMap fun u =>
          ((List.range 7).filter (counterAssigned kind)).map fun c => (kind, u, c)
      .next (s.updWorld world fun x =>
        { x with period := n
                 copies := keys.foldl (fun m k => SMap.put 0 m (perfKey k.1 k.2.1 k.2.2) (s.shaped b k.1 k.2.1 k.2.2)) x.copies })

end Sys2Proof.Machine
end

