-- ==== Sys2Proof/Machine/Return.lean ====
section
/-!
DEFINITION. How owed values return (R23, R24) and parks end (R22, R26).
-/

namespace Sys2Proof.Machine

/-- A result with nothing but a value. -/
def Res.plain : Res → Bool
  | .val _ fl => fl == 0
  | .fault _ => false

/-- Gives the owed entry at an index its result; a cancelled entry that has returned only a value is forgotten (R24). -/
def Slot.giveRes (sl : Slot) (idx : Nat) (o : Owed) (r : Res) : Slot :=
  { sl with owed := if o.live || !r.plain then sl.owed.set idx { o with res := some r } else sl.owed.eraseIdx idx }

/-- A memory operation performs and returns (R302, R304). -/
def State.returnMem (s : State) (key idx : Nat) (o : Owed) : State :=
  if s.canPerform key o then
    match s.performMem (s.who key) o.seq o.flight with
    | .ok (s1, v) => s1.updSlot key fun sl => sl.giveRes idx o (.val v 0)
    | .error f => s.updSlot key fun sl => sl.giveRes idx o (.fault f)
  else s

/-- A vector load performs its next element, and returns after its last (R139, R143). -/
def State.returnVload (s : State) (key idx : Nat) (o : Owed) (wd : Nat) (all es : List (Nat × Elem)) (got : List (Nat × Nat))
    (bad : Option FaultInfo) (again : Bool) : State :=
  if !s.canPerform key o then s
  else match s.vloadStep (s.who key) o.seq wd all es got bad again with
    | .error f => s.updSlot key fun sl => sl.giveRes idx o (.fault f)
    | .ok (s1, .vload _ _ [] got' none _) => s1.updSlot key fun sl => sl.giveRes idx o (.val (vloadValue wd got') 0)
    | .ok (s1, .vload _ _ [] _ (some f) _) => s1.updSlot key fun sl => sl.giveRes idx o (.fault f)
    | .ok (s1, fl) => s1.updSlot key fun sl => { sl with owed := sl.owed.set idx { o with flight := fl } }

/-- An owed result performs where its operation lets it. The Barge, the engine and chains return theirs by their own
events. -/
def State.returnOwed (s : State) (key idx : Nat) (o : Owed) : State :=
  match o.flight with
  | .ready v => s.updSlot key fun sl => sl.giveRes idx o (.val v 0)
  | .ctr kind unit n vec =>
    s.updSlot key fun sl => sl.giveRes idx o (.val (s.ctrValue (s.slotAt key).world kind unit n vec) 0)
  | .publish c len =>
    (match s.doPublish key o.seq c len with
     | some (s1, r) => s1.updSlot key fun sl => sl.giveRes idx o r
     | none => s)
  | .load _ _ => s.returnMem key idx o
  | .vload w all es got bad again => s.returnVload key idx o w all es got bad again
  | .cload _ => s.returnMem key idx o
  | .amo _ _ _ _ => s.returnMem key idx o
  | .cas _ _ _ _ => s.returnMem key idx o
  | .ccas _ _ _ _ => s.returnMem key idx o
  | .slock _ => s.returnMem key idx o
  | .poll _ _ => s.returnMem key idx o
  | .barge _ _ => s
  | .engine _ => s
  | .chain _ => s

/-- An owed value that may return does (R24). -/
def State.valueNow (s : State) (core slot idx : Nat) : State :=
  let key := 4 * core + slot
  match (s.slotAt key).owed[idx]? with
  | some o => if o.open_ then s.returnOwed key idx o else s
  | none => s

/-- PARK_END (R22, R24, R26): a commit window that has expired, or a requested pre-emption, comes first (R237). -/
def execParkEnd (core slot : Nat) (s : State) : Out3 :=
  let key := 4 * core + slot
  let sl := s.slotAt key
  .next (if sl.stop = .park ∧ sl.allBack ∧ ¬ s.overtaken key then s.endPark key else s)

end Sys2Proof.Machine
end

