-- ==== Sys2Proof/Machine/Slots.lean ====
section
/-!
DEFINITION. What happens to a slot: the choice of the slot that issues (R259), the delivery of faults (R232 … R234,
R237), the commit window (R203), wait timers (R197, R215, R310), pre-emption and discard (R238, R239, R275), and a
machine check (R241, R242).
-/

namespace Sys2Proof.Machine

/-! ## R259 -/

/-- The reason of a stop has gone, so the instruction may issue again. -/
def State.holdReady (s : State) (key : Nat) (h : Hold) : Bool :=
  let sl := s.slotAt key
  let c := s.coreAt (key / 4)
  match h with
  | .engine => !c.engineFull
  | .barge => !s.bargeFull (key / 4)
  | .chain => c.engine.chain.isNone || c.engine.chain == some (key % 4)
  | .release sc st =>
    s.scopeReady key sc st
      || (decide (7 ≤ sc) && s.releaseOk key sl.seq 6 st && s.hasPeers (s.who key) sc
            && !(s.ports.rounds.any fun r => r.of key))
  | .waitReg r => sl.owed.all fun o => !(o.live && o.dest == some r) || o.res.isSome
  | .swait e fl => (s.seesFlip key e fl).isSome
  | .basin _ _ => false
  | .applying st => s.scopeReady key 6 st
  | .commit =>
    (match sl.deferred with
     | [] => true
     | d :: _ =>
       match ({ s with cur := key } : State).applyDefer d .commit with
       | .done _ => true
       | .fault _ _ => true
       | .wait _ (.release _ _) _ => true
       | .wait _ _ timed => timed && sl.timer.isNone)
  | .finish st => s.quiet key && (sl.carried.isSome || s.joinReady key st)
  | .template => sl.acked sl.seq 6

/-- A slot is ready (R259): one whose commit window has expired, or whose pre-emption is requested, issues nothing (R203,
R238, R240). -/
def State.slotReady (s : State) (key : Nat) : Bool :=
  let sl := s.slotAt key
  sl.active && sl.fetched && decide (sl.notBefore ≤ s.now) && !s.overtaken key
    && (match sl.stop with
        | .run => true
        | .hold h => s.holdReady key h
        | .park => false
        | .trap _ => false
        | .terminal _ => false)

/-- The slots of a core, beginning with the first after the slot that issued last. -/
def slotOrder (last : Nat) : List Nat := (List.range 4).map fun i => (last + 1 + i) % 4

/-- The first of a list with the least time. -/
def earliest (f : Nat → Nat) : List Nat → Option Nat
  | [] => none
  | k :: ks =>
    match earliest f ks with
    | none => some k
    | some j => if f k ≤ f j then some k else some j

/-- The slot that the core issues from. -/
def State.chosenSlot (s : State) (core : Nat) : Option Nat :=
  let c := s.coreAt core
  let ready := (slotOrder c.lastSlot).filter fun k => s.slotReady (4 * core + k)
  let others := ready.filter fun k => c.yielded != some k
  earliest (fun k => (s.slotAt (4 * core + k)).readySince) (if others = [] then ready else others)

/-- The cycle in which a core acts next: each core chooses once in a cycle. -/
def State.tick (s : State) (core : Nat) : State :=
  let t := if (s.coreAt core).lastTick = s.now then s.now + 1 else s.now
  { s.updCore core fun c => { c with lastTick := t } with now := t }

/-- ISSUE_SLOT_CHOICE (R259): one cycle of a core, which issues from a ready slot. -/
def execIssueSlotChoice (core : Nat) (s : State) : Out3 :=
  let c := s.coreAt core
  let s1 := s.tick core
  if c.oos || c.stopped.isSome then .next s1
  else match s1.chosenSlot core with
    | some k => .next { s1 with cur := 4 * core + k, issuing := true }
    | none => .next (s1.updCore core fun x => { x with yielded := none })

/-! ## Delivery -/

/-- TRAP_ENTRY (R26, R232, R237): a commit window that has expired, or a requested pre-emption, comes first; every owed
value lands; an earlier fault that one carries is delivered in place of the fault that waits. -/
def execTrapEntry (core slot : Nat) (s : State) : Out3 :=
  let key := 4 * core + slot
  let sl := s.slotAt key
  match sl.stop with
  | .trap f =>
    if !sl.allBack || s.overtaken key then .next s
    else
      let s1 := s.setSlot key { sl.landAll with stop := .run, readySince := s.coreNow (key / 4) }
      match sl.carried with
      | some (o, c) => .next (s1.deliver key { c with mode := if c.mode = 3 then 3 else 1, iaddr := o.iaddr,
                                                      aux := BitVec.ofNat 64 o.dfield } (some o))
      | none => .next (s1.deliver key f none)
  | _ => .next s

/-- TERMINAL_FAULT (R234) -/
def execTerminalFault (core slot : Nat) (s : State) : Out3 :=
  let key := 4 * core + slot
  match (s.slotAt key).stop with
  | .terminal f => .next (if s.quiet key && s.joinReady key s.fresh then s.endTerminal key f else s)
  | _ => .next s

/-- The instruction at which the slot stands has issued and has not ended: a `commit` or `retire` that applies its buffer,
an operation that its home holds, a blocking `swait` (R197, R201, R204, R215). -/
def Slot.underWay (sl : Slot) : Bool :=
  match sl.stop with
  | .hold (.basin _ _) => true
  | .hold .commit => true
  | .hold (.applying _) => true
  | .hold (.finish _) => true
  | .hold (.swait _ _) => true
  | _ => false

/-- The instruction at which the slot stands has issued: it is under way, or it is a `commit` or `retire` of whose buffer an
effect failed, which counted when it failed (R202, R227). -/
def Slot.atIssued (sl : Slot) : Bool :=
  match sl.stop with
  | .trap f => f.mode == 2
  | _ => sl.underWay

/-- An instruction that ends with its slot before it is done is counted (R227). -/
def State.countUnderWay (s : State) (key : Nat) : State :=
  if (s.slotAt key).underWay then s.count 0 (key / 4) 1 1 else s

/-- COMMIT_WINDOW_EXPIRY (R203): no handler runs. The record names the first instruction that has not issued; one that has
issued and has not ended is counted (R227). -/
def execCommitWindowExpiry (core slot : Nat) (s : State) : Out3 :=
  let key := 4 * core + slot
  let sl := s.slotAt key
  let stays : Bool := match sl.stop with
    | .terminal _ => true
    | _ => false
  if stays || !s.expired key then .next s
  else
    let at_ : Word := if sl.atIssued then (sl.fall sl.pc).here else sl.here
    .next ((s.countUnderWay key).updSlot key fun x =>
      { x with stop := .terminal { FaultInfo.of 0x39 with mode := 3, iaddr := at_ }, timer := none, arrived := none })

/-- What a slot that issues for another event leaves as the slot that issues. -/
def State.asSlot (s : State) (key : Nat) (f : State → State) : State := { f { s with cur := key } with cur := s.cur }

/-- An expiry of a slot's wait timer: counter 6 (R227), no round is left waiting, and cause 0x33. -/
def State.timeOut (s : State) (key : Nat) (e : Option Elem) : State :=
  let f := match e with
    | some x => FaultInfo.atElem 0x33 x
    | none => FaultInfo.of 0x33
  ((s.count 0 (key / 4) 6 1).dropRounds key).asSlot key fun t => t.faultNow f

/-- WAIT_TIMER_EXPIRY, after a commit window that has expired and a requested pre-emption (R237) (R197, R202, R215, R310) -/
def execWaitTimerExpiry (core slot : Nat) (s : State) : Out3 :=
  let key := 4 * core + slot
  let sl := s.slotAt key
  match sl.timer with
  | none => .next s
  | some t =>
    if s.coreNow (key / 4) < t ∨ s.overtaken key = true then .next s
    else match sl.stop with
      | .hold (.swait e _) => .next (s.timeOut key (some e))
      | .hold (.basin o _) => .next (s.timeOut key (some (basinLine o.basin.f o.k0)))
      | .hold (.release _ _) => .next (s.timeOut key none)
      | .hold .commit =>
        (match sl.deferred.head? with
         | some d =>
           (match d.basin with
            | some o => .next ((s.count 0 (key / 4) 6 1).asSlot key fun t =>
                t.raise { FaultInfo.atElem 0x33 (basinLine o.basin.f o.k0) with
                  mode := 2, iaddr := d.iaddr, bpos := sl.applied })
            | none => .next s)
         | none => .next s)
      | _ => .next s

/-! ## Pre-emption -/

/-- Requests pre-emption of a slot; a committed activation refuses (R201, R238). -/
def State.requestPreempt (s : State) (key : Nat) : State :=
  s.updSlot key fun sl => if sl.active && sl.committed.isNone then { sl with preempt := true } else sl

/-- PREEMPTION_REQUEST (R238) -/
def execPreemptionRequest (core slot : Nat) (s : State) : Out3 := .next (s.requestPreempt (4 * core + slot))

/-- Completes one queued write of a slot at its home: plain stores of a discarded activation stand (R239). -/
def State.flushOut (s : State) (key : Nat) (o : Out) : State :=
  let lk := lineKey o.place.key
  let commitHere (t : State) : State := match (t.cohAt lk).pend with
    | some d => t.commitWrite lk d
    | none => t
  if o.lvl = 0 then
    if o.isSluice then s.applyOut key o else commitHere ((commitHere s).sendOut key o)
  else if o.lvl = 1 then commitHere s
  else s

/-- Completes every queued write of a slot, in order. -/
def State.flushOuts (s : State) (key : Nat) : State := (s.slotAt key).out.foldl (fun t o => t.flushOut key o) s

/-- A core without what a discarded slot had under way (R20 case 3, R239). -/
def Core.dropSlot (c : Core) (slot : Nat) : Core :=
  let e := if c.engine.chain = some slot then { c.engine.wiped with chain := none } else c.engine
  { c with engine := { e with queue := e.queue.filter fun o => o.slot != slot }
           barge := c.barge.filter fun o => o.slot != slot
           bdone := c.bdone.filter fun o => o.slot != slot
           counts := c.counts.filter fun o => o.slot != slot }

/-- A team is being swapped out. -/
def Team.isLeaving (t : Team) : Bool :=
  match t.st with
  | .leaving _ _ => true
  | .waiting _ => false
  | .resident _ => false
  | .done => false

/-- A record returns to its ring in the pool slot it kept: to the head; the records that a swap returns keep among
themselves the order in which they were started (R266). -/
def TCore.requeue (tc : TCore) (k turn : Nat) (e : PoolEntry) : TCore :=
  let earlier (j : Nat) : Bool := decide (0 < (tc.poolAt j).turn) && decide ((tc.poolAt j).turn < turn)
  { tc.setPool k { e with taken := false, turn := turn } with
    ring := tc.ring.takeWhile earlier ++ k :: tc.ring.dropWhile earlier }

/-- Discards an activation (R27, R239, R275): its writes complete, and its record returns to its ring. An instruction that
has issued and is not done counts (R227); the flags stand (R13). -/
def State.discard (s : State) (key : Nat) : State :=
  let sl := s.slotAt key
  let s1 := (((s.countUnderWay key).flushOuts key).updCore (key / 4) fun c => c.dropSlot (key % 4)).dropRounds key
  let s2 := s1.updTC sl.team sl.tcore fun tc =>
    tc.requeue sl.pool (if (s.teamAt sl.team).isLeaving then sl.actid.toNat / 4 + 1 else 0) sl.entry
  let s3 := match sl.rev with
    | some r => s2.updRev r fun v =>
        { v with resets := true, reserved := v.reserved.filter fun x => x.1 != key }
    | none => s2
  ((s3.count 3 sl.part 1 1).note sl.world 3).setSlot key (Slot.freed sl)

/-- ACTIVATION_DISCARD (R238, R239) -/
def execActivationDiscard (core slot : Nat) (s : State) : Out3 :=
  let key := 4 * core + slot
  let sl := s.slotAt key
  .next (if sl.active && sl.preempt && sl.committed.isNone then s.discard key else s)

/-! ## Machine check (R241, R242) -/

/-- The active slots of a core, by key. -/
def State.liveSlots (s : State) (core : Nat) : List Nat :=
  ((List.range 4).map (4 * core + ·)).filter fun k => (s.slotAt k).active

/-- Moves a pool record of a team core where R260 sends it; none where there is no room. -/
def State.rerouted (s : State) (t c k : Nat) : Option State :=
  let tc := (s.teamAt t).core c
  (s.updTC t c fun x =>
    { x.freePool k with ring := x.ring.filter (· != k), deque := x.deque.filter (· != k) }).placeReady t c (tc.poolAt k)

/-- Moves a pool record where there is room for it; else it stays, and moves later (R242, R262). -/
def State.reroute (s : State) (t c k : Nat) : State := (s.rerouted t c k).getD s

/-- Records that are to move from a team core: those of its ring that its row does not serve, and the deque's where the
core is out of service (R242, R262). -/
def State.strays (s : State) (t c : Nat) : List Nat :=
  let tm := s.teamAt t
  let tc := tm.core c
  (tc.ring ++ if (s.coreAt (tm.coreNo c)).oos then tc.deque.reverse else []).filter fun k =>
    !s.rowServes tm c (tc.poolAt k).record.stg

/-- The first of them for which there is room moves. -/
def State.moveStray (s : State) (t c : Nat) : Option State := (s.strays t c).findSome? (s.rerouted t c)

/-- The record of a pool slot is lost with its core's system area: it is reported once, and counts as ended (R242). -/
def State.loseRecord (s : State) (t c k : Nat) : State :=
  let g := s.gridAt (s.teamAt t).grid
  let e := ((s.teamAt t).core c).poolAt k
  let s1 := (s.report g.world { FaultInfo.of 0x3F with mode := 3, iaddr := BitVec.ofNat 64 e.record.code,
                                                        time := BitVec.ofNat 64 s.now }).updTC t c fun x => x.freePool k
  let s2 := s1.joinDone t g.part e
  match e.rev with
  | some r => s2.leaveRev r
  | none => s2

/-- The records of a team core are lost: its ring, deque and counters hold none any more (R242). -/
def State.loseRecords (s : State) (t c : Nat) : State :=
  let s1 := ((s.teamAt t).core c).pool.keys.foldl (fun u k => u.loseRecord t c k) s
  s1.updTC t c fun x => { x with ring := [], deque := [], held := [],
                                 ctr := x.ctr.keys.foldl (fun m n => SMap.upd Counter.reset m n fun y => { y with rv := false }) x.ctr }

/-- An activation becomes terminal with a machine check (R234, R241): TERMINAL_FAULT ends it when its owed values have
returned and its stores have performed. -/
def State.checkTerminal (s : State) (key : Nat) : State :=
  (s.countUnderWay key).updSlot key fun sl =>
    match sl.stop with
    | .terminal _ => sl
    | _ => { sl with stop := .terminal { FaultInfo.of 0x3F with mode := 3, iaddr := sl.here }, timer := none, arrived := none }

/-- A machine check (R241, R242): the core leaves service; uncommitted activations are discarded, committed ones end as
terminal, and its records move in ring order, or are lost with the system area. -/
def State.machineCheck (s : State) (core : Nat) (lost : Bool) : State :=
  if (s.coreAt core).oos then s
  else
    let s1 := (s.liveSlots core).foldl (fun t k =>
      if (t.slotAt k).committed.isNone then t.discard k else t.checkTerminal k) s
    let s2 := s1.updCore core fun c => { c with oos := true }
    match (s2.coreAt core).team with
    | none => s2
    | some t =>
      let c := (s2.coreAt core).tcore
      let tc := (s2.teamAt t).core c
      if lost then s2.loseRecords t c else (tc.ring ++ tc.deque.reverse).foldl (fun u k => u.reroute t c k) s2

/-- MACHINE_CHECK (R241, R242), of an error outside the system area -/
def execMachineCheck (core : Nat) (s : State) : Out3 := .next (s.machineCheck core false)

end Sys2Proof.Machine
end

