-- ==== Sys2Proof/Machine/Grids.lean ====
section
/-!
DEFINITION. The scheduler: admission of grids and leases (R251, R252, R279, R334), the records of a grid (R255), starting
activations (R257), and the completion of grids (R263, R370).
-/

namespace Sys2Proof.Machine

/-! ## Records of a grid (R255) -/

/-- An activation record that the scheduler builds from a launch record (R249); the join fields are kept. -/
def Rec.forActivation (r : Rec) (x y z team plc : Nat) : Rec :=
  let n := r.data.toNat
  { data := BitVec.ofNat 512 <|
      bitsOf n 256 256 * 2 ^ 256 + 2 ^ 224 * (z % 2 ^ 32) + 2 ^ 192 * (y % 2 ^ 32) + 2 ^ 160 * (x % 2 ^ 32)
      + 2 ^ 144 * (team % 2 ^ 16) + 2 ^ 92 * r.jidx + 2 ^ 88 * r.jcore + 2 ^ 87 * r.jv.toNat + 2 ^ 76 * r.ncap
      + 2 ^ 72 * (plc % 16) + 2 ^ 69 * r.stg + r.code
    caps := r.caps.take r.ncap }

/-- The coordinates of local order `l` of a team, where they lie inside the grid. -/
def Rec.cellAt (r : Rec) (team l : Nat) : Option (Nat × Nat × Nat) :=
  let x := team % r.tx * r.bx + l % r.bx
  let y := team / r.tx % r.ty * r.by_ + l / r.bx % r.by_
  let z := team / (r.tx * r.ty) * r.bz + l / (r.bx * r.by_)
  if x < r.gx ∧ y < r.gy ∧ z < r.gz then some (x, y, z) else none

/-- The records of a team core, in ascending local order. -/
def Rec.feed (r : Rec) (team cores c : Nat) : List Rec :=
  ((List.range (r.bx * r.by_ * r.bz)).filter fun l => l % cores == c).filterMap fun l =>
    (r.cellAt team l).map fun k => r.forActivation k.1 k.2.1 k.2.2 team c

/-- A team of a grid, waiting for its placement. -/
def newTeam (g : Nat) (r : Rec) (index cores now : Nat) : Team :=
  { Team.reset with
    grid := g, index := index, cores := cores, st := .waiting now
    tc := (List.range cores).foldl (fun m c => SMap.put TCore.reset m c { TCore.reset with feed := r.feed index cores c }) [] }

/-- Makes the teams of a grid. -/
def State.makeTeams (s : State) (g cores : Nat) : List Nat → State
  | [] => s
  | i :: is =>
    let (n, s1) := s.draw
    let s2 := (s1.updTeam (n + 1) fun _ => newTeam g (s1.gridAt g).record i cores s1.now).updGrid g fun x =>
      { x with teams := x.teams ++ [n + 1] }
    s2.makeTeams g cores is

/-! ## Completion (R263) -/

/-- The scheduler as the maker of an access: it counts as the first core of the world's lowest cluster (R290). -/
def State.schedWho (s : State) (world part g : Nat) : Who :=
  { partWho world part with key := 64 * s.firstCluster world, grid := g }

/-- The translation of an address for the scheduler: the grid's lease, else what the page tables would give (R335). -/
def State.schedLease (s : State) (w : Who) (va : Nat) : Option Lease :=
  match (s.gridAt w.grid).leases.find? fun x => x.1 == va / 4096 with
  | some x => some x.2
  | none => (match s.walk w.world w.part va with
      | .ok (leaf, lvl, _) => some (s.leaseOf w.part va leaf lvl)
      | .error _ => none)

/-- The place of an address that the scheduler reads or writes. -/
def State.schedPlace (s : State) (w : Who) (wr : Bool) (va : Nat) : Option Place :=
  (s.schedLease w va).bind fun l => (match s.placeOf w .load wr va l with
    | .ok p => some p
    | .error _ => none)

/-- The scheduler's access reaches its page (R290). -/
def State.schedTouch (s : State) (w : Who) (va : Nat) : State :=
  match s.schedLease w va with
  | some l => s.noteTouch w.world (clusterOf w.core) va l.leaf.toNat
  | none => s

/-- The scheduler's `sarrive` on a completion Sluice, one action with its update round (R263), behind a write of the line
that its home has still to commit (R314); a line with an error takes none (DESIGN CHOICE, log entry 85). -/
def State.schedArrive (s : State) (g : Nat) : State :=
  let x := s.gridAt g
  let w := s.schedWho x.world x.part g
  let e := x.sluice.f.elem Coords.zero
  match s.schedPlace w true e.va with
  | none => s
  | some p =>
    let s0 := (s.schedTouch w e.va).finishPend (lineKey p.key)
    let s1 := if p.kind = .dev then (s0.updLine p id).outsideReady (lineKey p.key) true else s0
    let err := s1.lineErrors (lineKey p.key)
    if err != [] then s
    else
      let cur := s1.lineAt p.key
      let s2 := s1.shareEntries w.world none p.la cur err
      let s3 := if p.kind = .dev then s2.updateRound p.home (lineKey p.key) else s2
      s3.memWrite p.key (.line { bits := (SluiceOp.arrive 0).apply cur.bits, tag := false })

/-- A host completion entry (R370). -/
def cqEntry (seq : Option Word) (result : Nat) : BitVec 128 :=
  match seq with
  | some q => BitVec.ofNat 128 (q.toNat + 2 ^ 64 * (result % 256))
  | none => BitVec.ofNat 128 (2 ^ 64 * (result % 256) + 2 ^ 72)

/-- Queues a completion entry of a partition. -/
def State.queueEntry (s : State) (part : Nat) (e : BitVec 128) : State :=
  s.updPart part fun p => { p with cqwait := p.cqwait ++ [e] }

/-- The cores of a resident team, by team-relative number. -/
def Team.coreList (t : Team) : List Nat := if t.rows = [] then [] else (List.range t.cores).map t.coreNo

/-- A way whose pin goes: an invalid line leaves with it. -/
def L1Line.unpin (l : L1Line) : Option L1Line := if l.valid then some { l with pin := none } else none

/-- Removes the pins of the L1 lines that a test names. -/
def Core.unpin (c : Core) (sel : L1Line → Bool) : Core :=
  { c with l1 := c.l1.keys.foldl (fun m i => SMap.put [] m i ((SMap.look [] m i).filterMap fun l =>
      if l.pin.isSome && sel l then l.unpin else some l)) c.l1 }

/-- Stash entries are written back and dropped, and their homes told (R285, R317). -/
def State.flushStash (s : State) (core : Nat) (sel : StashLine → Bool) : State :=
  ((s.coreAt core).stash.filter sel).foldl (fun t e => t.updCore core fun c => c.notice e.key) (s.dropStash core sel)

/-- A team leaves its cores: its stash entries are written back and dropped, its pins go (R264, R286, R288). -/
def State.leaveCores (s : State) (t : Nat) : State :=
  let s1 := (s.teamAt t).coreList.foldl (fun u c =>
    (u.flushStash c fun _ => true).updCore c fun x => { x.unpin (fun l => l.pin == some t) with team := none, tcore := 0 }) s
  s1.updTeam t fun x => { x with rows := [], pins := 0 }

/-- The completion of a grid is a release at host scope (R263, R370). -/
def Grid.hostRelease (g : Grid) : Bool := g.seq.isSome || g.record.cmode == 2

/-- A grid completes: leases and windows go, and its completion fires (R263, R370). -/
def State.completeGrid (s : State) (g result : Nat) : State :=
  let x := s.gridAt g
  let s0 := s.note x.world 0
  let s1 := if x.record.cmode = 1 then s0.schedArrive g else s0
  let s2 := if x.hostRelease then s1.queueEntry x.part (cqEntry x.seq result) else s1
  let s3 := x.teams.foldl (fun u t => (u.leaveCores t).updTeam t fun y => { y with st := .done, tc := [], stageQ := [] }) s2
  s3.updGrid g fun y => { y with st := .done, leases := [], dirty := [] }

/-- A grid that does not start: its record in the world's fault log, and its completion (R251, R279, R361). -/
def State.failGrid (s : State) (g cause result : Nat) : State :=
  let x := s.gridAt g
  (s.report x.world { FaultInfo.of cause with mode := 3, iaddr := BitVec.ofNat 64 x.record.code,
                                              time := BitVec.ofNat 64 s.now }).completeGrid g result

/-! ## Admission (R251, R334) -/

/-- The pages of every footprint of a launch record. -/
def Rec.pages (r : Rec) : List Nat :=
  let caps := (List.range (r.ncap + (if r.cmode = 1 then 1 else 0))).map fun i => r.cap (i + 1)
  (caps.flatMap fun c => if c.tag then c.f.pages else []).eraseDups

/-- The pages of a grid whose walk fails now. -/
def State.missing (s : State) (g : Nat) : List Nat :=
  let x := s.gridAt g
  x.record.pages.filter fun p => !s.walks x.world x.part (4096 * p)

/-- Takes the lease of a page, which sets A (R332, R334). -/
def State.takeLease (s : State) (g page : Nat) : State :=
  let x := s.gridAt g
  match s.walk x.world x.part (4096 * page) with
  | .ok (leaf, lvl, addr) =>
    (s.markAccessed addr).updGrid g fun y =>
      { y with leases := SMap.ins (y.leases.erase page) page (s.leaseOf x.part (4096 * page) leaf lvl) }
  | .error _ => s

/-- Posts a page to the residency queue of a world (R334). -/
def State.post (s : State) (world page : Nat) : State :=
  (s.updWorld world fun w => { w with resq := w.resq ++ [4096 * page] }).note world 4

/-- Every walk succeeds: the leases are taken and the teams made. Their counters begin reset. -/
def State.startGrid (s : State) (g : Nat) : State :=
  let x := s.gridAt g
  let cores := match s.kernelAt x.world x.record.code with
    | some k => 4 * entRows k.2
    | none => 4
  let s1 := x.record.pages.foldl (fun t p => t.takeLease g p) s
  (s1.updGrid g fun y => { y with st := .live }).makeTeams g cores (List.range x.record.nteams)

/-- Waits for pages, which are posted to the residency queue, or starts. -/
def State.awaitPages (s : State) (g : Nat) : State :=
  let m := s.missing g
  if m = [] then s.startGrid g
  else m.foldl (fun t p => t.post (s.gridAt g).world p) (s.updGrid g fun y => { y with st := .waiting m })

/-- Admits a grid that has left its queue. -/
def State.takeGrid (s : State) (g : Nat) : State :=
  let x := s.gridAt g
  let s1 := (s.count 3 x.part 0 1).note x.world 0
  if x.record.zeroSize then s1.completeGrid g 0x80
  else match s.kernelAt x.world x.record.code with
    | none => s1.failGrid g 0x3B 0x83
    | some k =>
      if k.1.quarantined then s1.failGrid g 0x3B 0x83
      else if 0x1C000 < x.named then s1.failGrid g 0x3E 0x82
      else s1.awaitPages g

/-- The grid that leaves a queue next: the first of the highest priority. -/
def State.nextGrid (s : State) : List Nat → Option Nat
  | [] => none
  | g :: gs =>
    match s.nextGrid gs with
    | none => some g
    | some h => if (s.gridAt h).record.prio ≤ (s.gridAt g).record.prio then some g else some h

/-- GRID_ADMISSION (R251) -/
def execGridAdmission (p : Nat) (s : State) : Out3 :=
  match s.nextGrid (s.partAt p).queue with
  | none => .next s
  | some g => .next ((s.updPart p fun x => { x with queue := x.queue.filter (· != g) }).takeGrid g)

/-- A residency reply reaches a waiting grid. -/
def State.replyTo (s : State) (g page : Nat) (nt : Bool) : State :=
  match (s.gridAt g).st with
  | .waiting m =>
    if !m.contains page then s
    else if nt then s.failGrid g 0x20 0x81
    else
      let x := s.gridAt g
      if !s.walks x.world x.part (4096 * page) then s.post x.world page
      else
        let m' := m.filter (· != page)
        if m' = [] then s.awaitPages g else s.updGrid g fun y => { y with st := .waiting m' }
  | .queued => s
  | .live => s
  | .done => s

/-- A control-block register that the device kernel of the partition's world writes (R365): another writer's write is
dropped. -/
def State.kernelWrite (s : State) (p writer : Nat) (f : State) : State :=
  if s.accepts && writer == 256 + (s.partAt p).wid then f.answered true else s.answered false

/-- A write of RESREPLY (R334): the answer goes to the grids of the partition that wait for the page. -/
def State.writeResreply (s : State) (p writer val : Nat) : State :=
  let page := bitsOf val 12 45
  let nt := bitsOf val 63 1 == 1
  let s1 := (s.updPart p fun x => { x with resreply := BitVec.ofNat 64 (bitsOf val 63 1 * 2 ^ 63 + page * 4096) }).updWorld
    (s.partAt p).wid fun w => { w with resq := w.resq.erase (4096 * page) }
  s.kernelWrite p writer ((s.grids.filter fun g => g.2.part == p).foldl (fun t g => t.replyTo g.1 page nt) s1)

/-- RESREPLY (R334): the write of the device kernel of the partition's world. -/
def execResreply (p val : Nat) (s : State) : Out3 := .next (s.writeResreply p (256 + (s.partAt p).wid) val)

/-! ## Starting activations (R16, R257) -/

/-- What a slot takes: the core that has the record, its pool slot, and whether it steals. -/
structure Take where
  core  : Nat
  pool  : Nat
  steal : Bool
  deriving DecidableEq, Repr

/-- A pool record is of a stage that the core's row serves. -/
def State.servesRec (s : State) (t : Team) (c own k : Nat) : Bool :=
  s.rowServes t c ((t.core own).poolAt k).record.stg

/-- The record that a free slot of a team core takes (R257): the first of its ring that its row serves, the near end of
its deque, or the oldest entry of the first other deque that has one. -/
def State.takes (s : State) (t : Team) (c : Nat) : Option Take :=
  let tc := t.core c
  let own (k : Nat) : Option Take := if s.servesRec t c c k then some { core := c, pool := k, steal := false } else none
  let stolen : Option Take :=
    match ((List.range (t.cores - 1)).map fun i => (c + 1 + i) % t.cores).find? fun v => (t.core v).deque != [] with
    | none => none
    | some v => (t.core v).deque.getLast?.bind fun k =>
        if s.servesRec t c v k && tc.freeSlot.isSome then some { core := v, pool := k, steal := true } else none
  (tc.ring.findSome? own).or ((tc.deque.head?.bind own).or stolen)

/-- The registers with which an activation starts (R16, R350). -/
def State.startSlot (s : State) (key t k : Nat) (e : PoolEntry) : Slot :=
  let tm := s.teamAt t
  let g := s.gridAt tm.grid
  let r := e.record
  let obj := r.code / 2 ^ 32
  let capOf (j : Nat) : CapReg := let c := r.cap j; if s.stale g.world g.part c then { c with tag := false } else c
  { Slot.reset with
    active := true
    x := (List.range 4).foldl (fun m i => SMap.put 0 m (i + 1) (r.arg i)) []
    c := (List.range r.ncap).foldl (fun m i => SMap.put CapReg.null m (i + 1) (capOf (i + 1))) []
    actid := BitVec.ofNat 64 ((s.coreAt (key / 4)).started % 2 ^ 62 * 4 + key % 4)
    teamid := BitVec.ofNat 64 tm.index, stage := BitVec.ofNat 64 r.stg
    gx := BitVec.ofNat 64 r.gx, gy := BitVec.ofNat 64 r.gy, gz := BitVec.ofNat 64 r.gz
    pc := ((r.code % 2 ^ 32 : Nat) : Int), obj := obj, cmpt := (s.objAt g.world obj).cmpt
    world := g.world, part := g.part, grid := tm.grid, team := t, tcore := (s.coreAt (key / 4)).tcore, pool := k
    entry := e, rev := e.rev, seq := (s.slotAt key).seq, readySince := s.coreNow (key / 4),
    notBefore := s.coreNow (key / 4) + 4 }

/-- Takes a record out of its ring or deque; a stolen one moves into a pool slot of the thief. -/
def State.takeRecord (s : State) (t c : Nat) (x : Take) : State × Nat :=
  let e := ((s.teamAt t).core x.core).poolAt x.pool
  if x.steal then
    let k := (((s.teamAt t).core c).freeSlot).getD 0
    let s1 := s.updTC t x.core fun y => { y.freePool x.pool with deque := y.deque.filter (· != x.pool) }
    ((s1.updTC t c fun y => y.setPool k { e with taken := true, turn := 0 }).count 1 (s1.teamAt t).clusterNo 1 1, k)
  else
    (s.updTC t c fun y => { y.setPool x.pool { e with taken := true, turn := 0 } with
      ring := y.ring.filter (· != x.pool), deque := y.deque.filter (· != x.pool) }, x.pool)

/-- What a slot may take now: its team, and the record. -/
def State.takeNow (s : State) (core slot : Nat) : Option (Nat × Take) :=
  let c := s.coreAt core
  c.team.bind fun t =>
    let tm := s.teamAt t
    let open_ := match tm.st with
      | .resident _ => true
      | .waiting _ => false
      | .leaving _ _ => false
      | .done => false
    let w := s.worldAt (s.gridAt tm.grid).world
    if (s.slotAt (4 * core + slot)).active || c.oos || !open_ || decide (4 ≤ slot) || !w.live || w.dying then none
    else (s.takes tm c.tcore).bind fun x =>
      let blocked := match ((tm.core x.core).poolAt x.pool).rev with
        | some r => (s.revAt r).resets
        | none => false
      if blocked then none else some (t, x)

/-- A free slot takes its record and starts the activation (R16, R257); a record of a quarantined object ends at once
(R361). -/
def State.startNow (s : State) (core slot : Nat) : State :=
  match s.takeNow core slot with
  | none => s
  | some (t, x) =>
    let key := 4 * core + slot
    let tm := s.teamAt t
    let c := (s.coreAt core).tcore
    let e := (tm.core x.core).poolAt x.pool
    let (s1, k) := s.takeRecord t c x
    let sl := s1.startSlot key t k { e with taken := true, turn := 0 }
    let s2 := ((s1.setSlot key sl).updCore core fun y => { y with started := y.started + 1 }).updGrid tm.grid fun y =>
      { y with begun := true }
    if (s2.objAt sl.world sl.obj).quarantined then
      s2.endTerminal key { FaultInfo.of 0x3B with iaddr := BitVec.ofNat 64 e.record.code }
    else s2

/-- The owner's pop that the outside has scheduled next, where it contends for the last entry that this slot would steal:
the two fall into one cycle (R257; DESIGN CHOICE, log entry 74). -/
def State.ownerPop (s : State) (core slot : Nat) : Option (Nat × Nat) :=
  match s.takeNow core slot, s.script.head? with
  | some (t, x), some (.activationStart c k) =>
    if x.steal && decide (((s.teamAt t).core x.core).deque.length = 1) && c == (s.teamAt t).coreNo x.core
        && s.takeNow c k == some (t, { x with steal := false }) then some (c, k) else none
  | _, _ => none

/-- ACTIVATION_START (R16, R257, R361): an owner's pop of the same entry in the same cycle comes first. -/
def execActivationStart (core slot : Nat) (s : State) : Out3 :=
  match s.ownerPop core slot with
  | some (c, k) => .next ((s.swapHead (.activationStart core slot)).startNow c k)
  | none => .next (s.startNow core slot)

/-- The lowest counter whose push is due, pushed (R255). -/
def State.pushHeld (s : State) (t c n : Nat) : State :=
  (s.updTC t c fun x => { x with held := x.held.filter (· != n) }).wake t c n

/-- Places the scheduler's next record for a team core (R255). -/
def State.placeFeed (s : State) (t c : Nat) : State :=
  match ((s.teamAt t).core c).feed with
  | [] => s
  | r :: rs =>
    match s.placeNew t c { record := r, rev := none, child := false, taken := false, dep := false } with
    | some s1 => s1.updTC t c fun x => { x with feed := rs }
    | none => s

/-- Places the oldest record of a stage queue that a row now serves and that has room, if there is one (R260). -/
def State.placeStage (s : State) (t : Nat) : Option State :=
  let tm := s.teamAt t
  tm.stageQ.findSome? fun q => match q.2 with
    | [] => none
    | e :: es =>
      if (s.routeCore tm e.record.plc q.1).isSome then
        (s.updTeam t fun x => { x with stageQ := SMap.put [] x.stageQ q.1 es }).placeNew t e.record.plc e
      else none

/-- The scheduler's next record for a team core has earlier ones of its stage before it, in the stage's queue although a
row serves the stage now: they come first (R255, R260). -/
def State.feedWaits (s : State) (t c : Nat) : Bool :=
  let tm := s.teamAt t
  match (tm.core c).feed with
  | [] => true
  | r :: _ => SMap.look [] tm.stageQ r.stg != [] && (s.routeCore tm c r.stg).isSome

/-- HELD_RING_PUSH (R255): a push that waits, then a record that has to move (R242, R262), then records of stage queues,
then the scheduler's records. -/
def execHeldRingPush (team tc : Nat) (s : State) : Out3 :=
  let t := s.teamAt team
  let c := t.core tc
  if !t.isResident then .next s
  else match c.held with
    | n :: _ => .next (if c.ringRoom then s.pushHeld team tc n else s)
    | [] => .next ((s.moveStray team tc).getD ((s.placeStage team).getD (if s.feedWaits team tc then s else s.placeFeed team tc)))

/-! ## Completion of a grid -/

/-- No record of a team remains, but those that wait on a counter with COUNT ≠ 0 (R263). -/
def Team.drained (t : Team) : Bool :=
  t.stageQ.all (fun q => q.2 == []) && t.tc.all fun x =>
    x.2.ring == [] && x.2.deque == [] && x.2.feed == [] && x.2.held == []
      && x.2.pool.all fun e => x.2.ctr.any fun k => k.2.rv && k.2.rslot == e.1 && k.2.count != 0

/-- No activation of a grid runs. -/
def State.gridIdle (s : State) (g : Nat) : Bool := s.cores.all fun c => c.2.slots.all fun x => !(x.2.active && x.2.grid == g)

/-- Every plain store has been acknowledged at package scope (R305). -/
def State.allPerformed (s : State) : Bool := s.cumulative 0 s.fresh && s.cumulative 1 s.fresh

/-- Nothing of a grid is left to run, and its stores have performed at package scope (R263). -/
def State.gridEnds (s : State) (g : Nat) : Bool :=
  let x := s.gridAt g
  x.st == .live && s.gridIdle g && x.teams.all (fun t => (s.teamAt t).drained)
    && s.revs.all (fun r => r.2.grid != g || r.2.st == .merged) && s.allPerformed

/-- The number by which the flush round of a grid's completion names its holder: above the slots' (log entry 79). -/
def gridHolder (g : Nat) : Nat := 4 * (512 + g)

/-- What a grid's completion at host scope waits for before its flushing reads has come: its round is done, where the world
has peers (R310). -/
def State.gridRound (s : State) (g : Nat) : Bool :=
  let x := s.gridAt g
  !s.hasPeers (partWho x.world x.part) 9 || s.ports.rounds.any fun r => r.of (gridHolder g) && r.done

/-- HOST_FLUSH_COMPLETE (R311): the flushing read of one stream completes, of a slot that waits at host scope, or of a grid
whose completion does, named by 512 and its number. -/
def execHostFlushComplete (core slot : Nat) (s : State) : Out3 :=
  let g := core - 512
  .next (if core < 512 then s.flushSlot (4 * core + slot)
    else if s.gridEnds g && (s.gridAt g).hostRelease && s.gridRound g then s.updGrid g fun x => { x with dirty := x.dirty.tail }
    else s)

/-- GRID_COMPLETION (R263): at host scope a flush round begins first, where the world has peers, and the flushing reads of
the streams that carry writes of the grid follow it (R310, R311). -/
def execGridCompletion (g : Nat) (s : State) : Out3 :=
  let x := s.gridAt g
  let key := gridHolder g
  .next (if !s.gridEnds g then s
    else if !x.hostRelease then s.completeGrid g 0x80
    else if !s.gridRound g then (if s.hasRound key then s else s.beginRound key x.world)
    else if x.dirty ≠ [] then s
    else (s.dropRounds key).completeGrid g 0x80)

end Sys2Proof.Machine
end

