-- ==== Sys2Proof/Machine/Rotate.lean ====
section
/-!
DEFINITION. Where teams are: placement, quanta, swap-out and swap-in (R264 … R266, R280), the Weir (R261, R262),
translation buffers and invalidation (R333, R336, R360).
-/

namespace Sys2Proof.Machine

/-! ## Rows -/

/-- The four cores of a package-wide row. -/
def rowCores (r : Nat) : List Nat := (List.range 4).map (4 * r + ·)

/-- A row is free: its cores serve no team and are in service (R242, R264). -/
def State.rowFree (s : State) (r : Nat) : Bool := (rowCores r).all fun c => (s.coreAt c).team.isNone && !(s.coreAt c).oos

/-- The rows of a cluster. -/
def clusterRows (c : Nat) : List Nat := (List.range 4).map (4 * c + ·)

/-- The clusters of a partition, rising. -/
def Part.clusters (p : Part) : List Nat := (List.range 32).filter fun c => bitsOf p.cl c 1 == 1

/-- The rows that R264 gives a team of `n` cores, if some cluster has them. -/
def State.rowsFor (s : State) (part n : Nat) : Option (List Nat) :=
  (s.partAt part).clusters.findSome? fun c =>
    let free := (clusterRows c).filter s.rowFree
    if n / 4 ≤ free.length then some (free.take (n / 4)) else none

/-- Some cluster has enough rows in service for a team of `n` cores, whoever holds them. -/
def State.everFits (s : State) (part n : Nat) : Bool :=
  (s.partAt part).clusters.any fun c =>
    decide (n / 4 ≤ ((clusterRows c).filter fun r => (rowCores r).all fun k => !(s.coreAt k).oos).length)

/-- The partition of a team. -/
def State.partOfTeam (s : State) (t : Nat) : Nat := (s.gridAt (s.teamAt t).grid).part

/-- The cycle since which a team waits for rows. -/
def Team.waits (t : Team) : Option Nat :=
  match t.st with
  | .waiting c => some c
  | .resident _ => none
  | .leaving _ _ => none
  | .done => none

/-- The effective priority of a team that has waited since a cycle (R264). -/
def State.effPrio (s : State) (t : Team) (since : Nat) : Nat :=
  min 3 ((s.gridAt t.grid).record.prio + (s.now - since) / 2 ^ 21)

/-- Team `a` stands before team `b` in the swap queue: priority, then waiting time, then number. -/
def State.teamBefore (s : State) (a b : Nat) : Bool :=
  match (s.teamAt a).waits, (s.teamAt b).waits with
  | some x, some y =>
    let p := s.effPrio (s.teamAt a) x
    let q := s.effPrio (s.teamAt b) y
    decide (q < p) || (p == q && (decide (x < y) || (x == y && decide (a < b))))
  | _, _ => false

/-- The waiting teams of a partition that some cluster can hold. -/
def State.waitingTeams (s : State) (part : Nat) : List Nat :=
  (s.teams.filter fun t => t.2.waits.isSome && (s.gridAt t.2.grid).part == part && s.everFits part t.2.cores).map (·.1)

/-- A waiting team is the next to be placed (R264, R266). -/
def State.isNext (s : State) (t : Nat) : Bool :=
  (s.teamAt t).waits.isSome && (s.waitingTeams (s.partOfTeam t)).all fun u => !s.teamBefore u t

/-- The cycle in which a team's clock stands: the present one unless the clock of one of its cores is stopped (R376). -/
def Team.clock (t : Team) (now : Nat) : Nat := t.frozen.getD now

/-- The resident cycles of a team so far. -/
def Team.cycles (t : Team) (now : Nat) : Nat :=
  match t.st with
  | .resident c => t.resid + (t.clock now - c)
  | .leaving c _ => t.resid + (t.clock now - c)
  | .waiting _ => t.resid
  | .done => t.resid

/-! ## Placement (R264, R265, R278, R280) -/

/-- Makes a core ready for a team: scratchpad zero, engine cleared (R20 case 4), stash empty. -/
def State.readyCore (s : State) (t c core : Nat) : State :=
  (s.zeroRange (memKey (.spad core) 0) 0x40000).updCore core fun x =>
    { x with engine := { x.engine.wiped with chain := none, queue := [], owner := none }, stash := [], team := some t,
             tcore := c, gated := x.gated.filter (· < 16) }

/-- A line of a team core's saved scratchpad, by its offset in lines. -/
def Team.savedLine (t : Team) (c line : Nat) : CapReg :=
  let at_ (o : Nat) : Byte := ((t.saved.find? fun x => x.1 == c && x.2.1 == o).map (·.2.2)).getD memDefault
  { bits := BitVec.ofNat 512 (leNum ((List.range 64).map fun j => at_ (64 * line + j))), tag := t.savedTags.contains (c, line) }

/-- The tags of a team's saved lines without those of stale heap capabilities (R348, R349). -/
def State.sweepSaved (s : State) (t : Nat) : State :=
  let tm := s.teamAt t
  let g := s.gridAt tm.grid
  s.updTeam t fun x => { x with savedTags := x.savedTags.filter fun y => !s.stale g.world g.part (tm.savedLine y.1 y.2) }

/-- Puts the saved scratchpad of a team core back, with its tags and its errors (R47, R280). -/
def State.restoreCore (s : State) (t c core : Nat) : State :=
  let tm := s.teamAt t
  let base := memKey (.spad core) 0
  let s1 := (tm.saved.filter fun x => x.1 == c).foldl (fun (u : State) x =>
    { u with mem := Memory.set u.mem (base + x.2.1) x.2.2 }) s
  let s2 := (tm.savedTags.filter fun x => x.1 == c).foldl (fun (u : State) x =>
    { u with tags := SMap.put false u.tags (lineKey base + x.2) true }) s1
  (tm.savedErr.filter fun x => x.1 == c).foldl (fun (u : State) x =>
    { u with poison := SMap.put false u.poison (2 * base + x.2) true }) s2

/-- Places a team on rows. A fresh team's rows serve stage 0 (R260); a swapped one keeps its stages. -/
def State.placeTeam (s : State) (t : Nat) (rows : List Nat) : State :=
  let g := s.gridAt (s.teamAt t).grid
  let s0 := if s.revoking g.world then s.sweepSaved t else s
  let s1 := s0.updTeam t fun x => { x with rows := rows, st := .resident s.now }
  let cores := (List.range (s1.teamAt t).cores).map fun c => (c, (s1.teamAt t).coreNo c)
  let s2 := cores.foldl (fun u x => (u.readyCore t x.1 x.2).restoreCore t x.1 x.2) s1
  let still := cores.any fun x => (s.coreAt x.2).stopped.isSome
  (s2.updTeam t fun x =>
    { x with saved := [], savedTags := [], savedErr := [], swapped := false, frozen := if still then some s.now else none }).note
    g.world 1

/-- Places a waiting team that is next, when rows are free for it. -/
def State.tryPlace (s : State) (t : Nat) : State :=
  if s.isNext t then
    match s.rowsFor (s.partOfTeam t) (s.teamAt t).cores with
    | some rows => s.placeTeam t rows
    | none => s
  else s

/-- TEAM_PLACEMENT (R264, R280) -/
def execTeamPlacement (team : Nat) (s : State) : Out3 := .next (if (s.teamAt team).swapped then s else s.tryPlace team)

/-- TEAM_SWAP_IN (R265, R280) -/
def execTeamSwapIn (team : Nat) (s : State) : Out3 := .next (if (s.teamAt team).swapped then s.tryPlace team else s)

/-! ## Swap-out (R264) -/

/-- QUANTUM_EXPIRY (R264): the quantum of a resident team ends while a team waits; its cores start nothing more. -/
def execQuantumExpiry (team : Nat) (s : State) : Out3 :=
  let t := s.teamAt team
  match t.st with
  | .resident c =>
    if c + 2 ^ 21 ≤ t.clock s.now ∧ s.waitingTeams (s.partOfTeam team) ≠ [] then
      .next (s.updTeam team fun x => { x with st := .leaving (t.clock s.now) false, resid := t.cycles s.now })
    else .next s
  | .waiting _ => .next s
  | .leaving _ _ => .next s
  | .done => .next s

/-- The active slots of a team's cores. -/
def State.teamSlots (s : State) (t : Nat) : List Nat := (s.teamAt t).coreList.flatMap s.liveSlots

/-- SWAP_GRACE_EXPIRY (R264): uncommitted activations are pre-empted 65,536 cycles after the swap-out began. -/
def execSwapGraceExpiry (team : Nat) (s : State) : Out3 :=
  match (s.teamAt team).st with
  | .leaving c false =>
    if c + 65536 ≤ (s.teamAt team).clock s.now then
      .next ((s.teamSlots team).foldl State.requestPreempt (s.updTeam team fun x => { x with st := .leaving c true }))
    else .next s
  | .leaving _ true => .next s
  | .resident _ => .next s
  | .waiting _ => .next s
  | .done => .next s

/-- Offsets of a scratchpad that a swap saves: the named area and the system area (R264, R280). -/
def savedOffset (named o : Nat) : Bool := decide (o < named) || decide (0x2C000 ≤ o)

/-- The bytes of a scratchpad to save for a team core. -/
def State.saveBytes (s : State) (named c core : Nat) : List (Nat × Nat × Byte) :=
  let base := memKey (.spad core) 0
  (s.mem.filter fun x => decide (base ≤ x.1) && decide (x.1 < base + 0x40000) && savedOffset named (x.1 - base)).map
    fun x => (c, x.1 - base, x.2)

/-- The tagged lines of a scratchpad to save for a team core. -/
def State.saveTags (s : State) (named c core : Nat) : List (Nat × Nat) :=
  let base := lineKey (memKey (.spad core) 0)
  (s.tags.filter fun x => decide (base ≤ x.1) && decide (x.1 < base + 0x1000) && savedOffset named (64 * (x.1 - base))).map
    fun x => (c, x.1 - base)

/-- The nibbles with an error of a scratchpad to save for a team core (R47). -/
def State.saveErrors (s : State) (named c core : Nat) : List (Nat × Nat) :=
  let base := 2 * memKey (.spad core) 0
  (s.poison.filter fun x => decide (base ≤ x.1) && decide (x.1 < base + 0x80000) && savedOffset named ((x.1 - base) / 2)).map
    fun x => (c, x.1 - base)

/-- TEAM_SWAP_OUT (R264): when no activation of the team runs, its state is saved and its rows are freed. -/
def execTeamSwapOut (team : Nat) (s : State) : Out3 :=
  let t := s.teamAt team
  match t.st with
  | .leaving _ _ =>
    if s.teamSlots team ≠ [] then .next s
    else
      let named := s.namedSize t.grid
      let cores := (List.range t.cores).map fun c => (c, t.coreNo c)
      let bytes := cores.flatMap fun x => s.saveBytes named x.1 x.2
      let tags := cores.flatMap fun x => s.saveTags named x.1 x.2
      let errs := cores.flatMap fun x => s.saveErrors named x.1 x.2
      .next (((s.leaveCores team).updTeam team fun x =>
        { x with st := .waiting s.now, resid := t.cycles s.now, swapped := true, saved := bytes, savedTags := tags
                 savedErr := errs, frozen := none }).note (s.gridAt t.grid).world 1)
  | .resident _ => .next s
  | .waiting _ => .next s
  | .done => .next s

/-! ## The Weir (R261, R262) -/

/-- The descriptor line of a stage's registered Basin, as memory holds it. -/
def State.basinDescriptor (s : State) (t : Team) (b : CapReg × Int × Nat) : Option Line :=
  let va := (basinLine b.1.f b.2.1).va
  if LW ≤ va then some (s.lineAt (memKey (.spad (t.coreNo b.2.2)) (va - LW))).bits
  else
    let g := s.gridAt t.grid
    match s.schedPlace (s.schedWho g.world g.part t.grid) false va with
    | some p => some (if p.kind = .dev then s.lineNow p.key else s.lineAt p.key).bits
    | none => none

/-- Rows of a team that serve a stage, rising. -/
def Team.rowsServing (t : Team) (st : Nat) : List Nat := (List.range t.nrows).filter fun r => t.stageOf r == st

/-- A stage as the Weir sees it. -/
structure WeirStage where
  stage : Nat
  rows  : Nat
  /-- occ − HWM of a high stage -/
  high  : Option Nat
  low   : Bool
  deriving DecidableEq, Repr

/-- Classifies a stage (R261). -/
def State.weirStage (s : State) (t : Team) (st : Nat) : WeirStage :=
  let n := (t.rowsServing st).length
  let none_ : WeirStage := { stage := st, rows := n, high := none, low := false }
  if t.basins.keys.contains st then
    match s.basinDescriptor t (SMap.look (CapReg.null, 0, 0) t.basins st) with
    | none => none_
    | some l =>
      if bHwm l ≤ bLwm l then none_
      else { none_ with high := if bHwm l ≤ bOcc l then some (bOcc l - bHwm l) else none
                        low := decide (bOcc l ≤ bLwm l) && decide (2 ≤ n) }
  else { none_ with low := decide (2 ≤ n) }

/-- The high stage with the largest excess, the lowest among equals; stages are listed rising. -/
def receiver : List WeirStage → Option (Nat × Nat)
  | [] => none
  | w :: ws =>
    match w.high, receiver ws with
    | some h, some (st, k) => if k ≤ h then some (w.stage, h) else some (st, k)
    | some h, none => some (w.stage, h)
    | none, r => r

/-- The low stage that serves most rows, the highest among equals; stages are listed rising. -/
def giver : List WeirStage → Option (Nat × Nat)
  | [] => none
  | w :: ws =>
    match w.low, giver ws with
    | true, some (st, k) => if k < w.rows then some (w.stage, w.rows) else some (st, k)
    | true, none => some (w.stage, w.rows)
    | false, r => r

/-- Records of a stage on the ring of a team core move where R260 sends them, in ring order (R262). -/
def State.rerouteStage (s : State) (t c st : Nat) : State :=
  ((((s.teamAt t).core c).ring).filter fun k => (((s.teamAt t).core c).poolAt k).record.stg == st).foldl
    (fun u k => u.reroute t c k) s

/-- Moves a row of a team from a stage to another (R262). -/
def State.moveRow (s : State) (t row from_ to_ : Nat) : State :=
  let now := (s.teamAt t).cycles s.now
  let s1 := s.updTeam t fun x =>
    { x with stages := SMap.put 0 x.stages row to_, served := SMap.put 0 x.served row now }
  ((rowCores row).foldl (fun u c => u.rerouteStage t c from_) s1).note (s.gridAt (s.teamAt t).grid).world 2

/-- WEIR_RUN (R261, R262) -/
def execWeirRun (team : Nat) (s : State) : Out3 :=
  let t := s.teamAt team
  if !t.isResident || decide (t.cycles s.now < t.weirAt + 4096) then .next s
  else
    let s1 := s.updTeam team fun x => { x with weirAt := x.weirAt + 4096 }
    let ws := (List.range 8).map (s.weirStage t)
    match receiver ws, giver ws with
    | some (to_, _), some (from_, _) =>
      (match (t.rowsServing from_).find? fun r => decide (SMap.look 0 t.served r + 16384 ≤ t.cycles s.now) with
       | some r => .next (s1.moveRow team r from_ to_)
       | none => .next s1)
    | _, _ => .next s1

/-! ## Translation buffers and invalidation -/

/-- What a buffer entry for a page of a lease covers: a 4 KiB page, a 2 MiB leaf or a whole span group (R329, R333). -/
def Lease.entry (l : Lease) (page : Nat) : Nat × Nat :=
  let n := leafFrames l.level * (match bitsOf l.leaf.toNat 59 2 with
    | 1 => 16
    | 2 => 256
    | _ => 1)
  (page / n * n, n)

/-- An entry enters a translation buffer of `n` entries, most recent first. -/
def refill (n : Nat) (e : Nat × Nat) (l : List (Nat × Nat)) : List (Nat × Nat) := (e :: l.filter (· != e)).take n

/-- The lease of a page that a core's team has (R335). -/
def State.leaseFor (s : State) (core page : Nat) : Option Lease :=
  (s.coreAt core).team.bind fun t => ((s.gridAt (s.teamAt t).grid).leases.find? fun x => x.1 == page).map (·.2)

/-- TLB_REFILL (R333): a miss of a cluster for a page is refilled from the lease records, into the cluster's buffer and
those of its cores whose team has the lease. Timing only. -/
def execTlbRefill (cluster page : Nat) (s : State) : Out3 :=
  let cores := (List.range 16).map (16 * cluster + ·)
  match cores.findSome? fun c => s.leaseFor c page with
  | none => .next s
  | some l =>
    let e := l.entry page
    let s1 : State := { s with tlb2 := SMap.upd [] s.tlb2 cluster (refill 4096 e) }
    .next (cores.foldl (fun t c =>
      if (t.leaseFor c page).isSome then t.updCore c fun x => { x with tlb := refill 64 e x.tlb } else t) s1)

/-- A write of INVCTL (R336): ignored while GO reads 1. -/
def State.writeInvctl (s : State) (p writer val : Nat) : State :=
  s.kernelWrite p writer (if (s.partAt p).invgo || bitsOf val 63 1 == 0 then s
    else s.updPart p fun x =>
      { x with invgo := true, invall := bitsOf val 62 1 == 1, invva := bitsOf val 12 45 * 4096, invsts := 0 })

/-- INVCTL (R336): the write of the device kernel of the partition's world. -/
def execInvctl (p val : Nat) (s : State) : Out3 := .next (s.writeInvctl p (256 + (s.partAt p).wid) val)

/-- Clears the verified marks of a world's code pages that a test picks by object and 64 KiB page, and lifts the write
protection of their frames; no instruction cache keeps their lines (R287, R360). -/
def State.unverify (s : State) (world : Nat) (f : CodeObj → Nat → Bool) : State :=
  let objs := (s.worldAt world).objs
  let hit (o : CodeObj) : List Nat := (List.range (textPages o.tlen)).filter (f o)
  let marks := objs.flatMap fun o => (hit o.2).map (frameMark world o.1)
  let s1 := s.updWorld world fun w =>
    { w with objs := w.objs.map fun o =>
        (o.1, { o.2 with verified := (hit o.2).foldl (fun m p => SMap.put false m p false) o.2.verified }) }
  let gone := (s1.frames.filter fun x => marks.contains x.2).map (·.1)
  gone.foldl State.dropCode { s1 with frames := s1.frames.filter fun x => !marks.contains x.2 }

/-- The cores of a world's partitions. -/
def State.coresOf (s : State) (world : Nat) : List Nat :=
  s.cores.keys.filter fun c => s.parts.any fun p => p.2.wid == world && bitsOf p.2.cl (c / 16) 1 == 1

/-- A buffer entry covers a page that a test picks. -/
def coversPage (f : Nat → Bool) (e : Nat × Nat) : Bool := (List.range e.2).any fun i => f (e.1 + i)

/-- Drops what a core holds of the pages that a test picks by page number (R285, R288, R333, R336). -/
def State.dropPages (s : State) (core : Nat) (f : Nat → Bool) : State :=
  let pins := ((s.coreAt core).l1.flatMap (·.2)).filterMap fun l => if f (l.va / 4096) then l.pin else none
  let s1 := pins.foldl (fun u t => u.updTeam t fun x => { x with pins := x.pins - 1 }) s
  (s1.flushStash core fun e => f (e.va / 4096)).updCore core fun x =>
    { x.unpin (fun l => f (l.va / 4096)) with tlb := x.tlb.filter fun e => !coversPage f e }

/-- What an invalidation removes (R336), of a code page every 4 KiB page of its 64 KiB (R360). -/
def State.invalidate (s : State) (world : Nat) (f : Nat → Bool) : State :=
  let cores := s.coresOf world
  let s1 := cores.foldl (fun u c => u.dropPages c f) s
  let s2 : State := { s1 with
    touch := s1.touch.filter fun x => !(x.1 / 2 ^ 45 == world && f (x.1 % 2 ^ 45))
    tlb2 := s1.tlb2.keys.foldl (fun m k => if s.parts.any fun p => p.2.wid == world && bitsOf p.2.cl k 1 == 1 then
        SMap.upd [] m k fun l => l.filter fun e => !coversPage f e else m) s1.tlb2 }
  s2.unverify world fun o p => (List.range 16).any fun i => f ((o.base + 65536 * p) / 4096 + i)

/-- A lease of a live grid of a world covers a page that a test picks. -/
def State.leased (s : State) (world : Nat) (f : Nat → Bool) : Bool :=
  s.grids.any fun g => g.2.world == world && g.2.st == .live && g.2.leases.any fun l => f l.1

/-- INVALIDATION_COMPLETE (R336) -/
def execInvalidationComplete (p : Nat) (s : State) : Out3 :=
  let x := s.partAt p
  if !x.invgo then .next s
  else
    let f (n : Nat) : Bool := x.invall || n == x.invva / 4096
    let stop (sts : Nat) (t : State) : State := t.updPart p fun y => { y with invgo := false, invsts := sts }
    .next (if s.leased x.wid f then stop 1 s else stop 0 (s.invalidate x.wid f))

end Sys2Proof.Machine
end

