-- ==== Sys2Proof/Machine/Owner.lean ====
section
/-!
DEFINITION. What the security monitor does: partition resets (R242), owners of chunks and partitions (R339 … R341),
worlds and their roots (R284, R338, R345, R352), compartments (R342), and errors of memory (R47).
-/

namespace Sys2Proof.Machine

/-! ## Dropping copies (R341 step 1) -/

/-- Finishes the writes under way to lines that a test picks: their slots get their acknowledgements. -/
def State.finishWrites (s : State) (f : Nat → Bool) : State :=
  (s.coh.keys.filter f).foldl (fun t k =>
    let u := match (t.cohAt k).pend with
      | some d => t.commitWrite k d
      | none => t
    u.ackInvalidated k) s

/-- Drops every copy of the lines that a test picks, writing nothing back. -/
def State.dropCopies (s : State) (f : Nat → Bool) : State :=
  let s1 := s.finishWrites f
  let s2 := s1.cores.keys.foldl (fun t c =>
    let pins := ((t.coreAt c).l1.flatMap (·.2)).filterMap fun l => if f l.key then l.pin else none
    let u := pins.foldl (fun u p => u.updTeam p fun x => { x with pins := x.pins - 1 }) t
    u.updCore c fun x =>
      { x with l1 := x.l1.keys.foldl (fun m i => SMap.put [] m i ((SMap.look [] m i).filter fun l => !f l.key)) x.l1
               stash := x.stash.filter fun e => !f e.key
               notices := x.notices.filter fun e => !f e.1
               icache := x.icache.filter fun e => !f e.1 }) s1
  let s3 := s2.slices.keys.foldl (fun t k => t.updSlice k fun d => { d with ways := d.ways.filter fun x => !f (x.2 - 1) }) s2
  { s3 with coh := s3.coh.filter fun x => !f x.1 }

/-! ## Partition reset (R242) -/

/-- A core belongs to a partition. -/
def Part.hasCore (p : Part) (c : Nat) : Bool := bitsOf p.cl (c / 16) 1 == 1

/-- A core after steps 1 … 3 of a reset: cycle counter 0 begins again. -/
def Core.wipe (c : Core) (now : Nat) : Core :=
  { Core.reset with oos := c.oos, stopped := c.stopped.map fun _ => now, lost := now, lastTick := c.lastTick }

/-- A counter of R227 belongs to a partition, by its key. -/
def Part.ownsCounter (p : Part) (num key : Nat) : Bool :=
  p.ownsUnit num (key / 2 ^ 20) (key / 2 ^ 10 % 2 ^ 10)

/-- Steps 1 … 3 of a reset of a partition. -/
def State.wipePartition (s : State) (n : Nat) : State :=
  let p := s.partAt n
  let cores := (List.range 512).filter p.hasCore
  let mine (c : LineCoh) : Bool := bitsOf p.sl c.slice 1 == 1 || bitsOf p.sl (c.slice ^^^ 64) 1 == 1
  let s1 : State := { s with coh := s.coh.filter fun x => !mine x.2 }
  let s2 := cores.foldl (fun t c => t.zeroRange (memKey (.spad c) 0) 0x40000) s1
  let s3 := cores.foldl (fun t c => t.updCore c fun x => x.wipe s.now) s2
  let s4 := (slicesOf p.sl).foldl (fun t k => t.updSlice k fun x => { Slice.reset with oos := x.oos }) s3
  let grids := (s4.grids.filter fun g => g.2.part == n).map (·.1)
  let s5 := grids.foldl (fun t g => t.updGrid g fun x => { x with st := .done, leases := [] }) s4
  let mineRound (r : Round) : Bool := if r.core < 512 then p.hasCore r.core else grids.contains (r.core - 512)
  { s5 with
    teams := s5.teams.map fun t => if grids.contains t.2.grid then
        (t.1, { t.2 with st := .done, rows := [], tc := [], stageQ := [], basins := [], pins := 0 }) else t
    revs := s5.revs.filter fun r => !grids.contains r.2.grid
    perf := s5.perf.filter fun x => !p.ownsCounter n x.1
    ports := { s5.ports with rounds := s5.ports.rounds.filter fun r => !mineRound r }
    parts := SMap.upd Part.reset s5.parts n fun x => { x with queue := [], prstgo := true } }

/-- A control-block register that the security monitor writes (R365): another writer's write is dropped. -/
def State.monitorWrite (s : State) (writer : Nat) (f : State) : State :=
  if s.accepts && writer == 1024 then f.answered true else s.answered false

/-- A write of PRST (R242): GO is dropped while a reset runs or a world owns the partition; otherwise steps 1 … 3 act. -/
def State.writePrst (s : State) (p writer val : Nat) : State :=
  let x := s.partAt p
  s.monitorWrite writer (if val % 2 = 0 ∨ x.prstgo = true ∨ x.wid ≠ 0xFE then s else s.wipePartition p)

/-- PRST (R242): the monitor writes GO. -/
def execPrst (p : Nat) (s : State) : Out3 := .next (s.writePrst p 1024 1)

/-- PARTITION_RESET_DONE (R242 step 4): what failed its test stays out of service, and is counted. -/
def execPartitionResetDone (p : Nat) (badCores badSlices : List Nat) (s : State) : Out3 :=
  let x := s.partAt p
  if !x.prstgo then .next s
  else
    let cores := (List.range 512).filter x.hasCore
    let slices := slicesOf x.sl
    let s1 := cores.foldl (fun t c => t.updCore c fun k => { k with oos := badCores.contains c }) s
    let s2 := slices.foldl (fun t k => t.updSlice k fun y => { y with oos := badSlices.contains k }) s1
    .next (s2.updPart p fun y =>
      { y with prstgo := false, lastWid := 0xFE, fco := (cores.filter badCores.contains).length
               fsl := (slices.filter badSlices.contains).length })

/-! ## Chunks and partitions -/

/-- Lines of a chunk. -/
def lineOfChunk (chunk lk : Nat) : Bool := lk / 2 ^ 15 == chunk

/-- Makes a chunk unreadable to its next owner (R341): copies dropped, bytes zero, tags clear; code pages in it are no
longer verified. -/
def State.scrub (s : State) (chunk : Nat) : State :=
  let s1 := (s.dropCopies (lineOfChunk chunk)).zeroRange (memKey .dev (chunk * 2 ^ 21)) (2 ^ 21)
  let marks := (s1.frames.filter fun f => f.1 / 512 == chunk).map (·.2)
  (marks.map (· / 2 ^ 44)).eraseDups.foldl (fun t w =>
    t.unverify w fun o p => marks.any fun m =>
      m / 2 ^ 44 == w && m / 2 ^ 33 % 2 ^ 11 == p && s1.objAt w (m % 2 ^ 33 - 1) == o) s1

/-- A chunk holds a live world's compartment table or its policy's body, which stay in monitor-owned memory (R342, R352). -/
def State.keepsTables (s : State) (chunk : Nat) : Bool :=
  s.worlds.any fun w => w.2.live &&
    ([w.2.ctb, w.2.ctb + 16 * w.2.ncm + 15] ++ if w.2.policy.isSome then [w.2.pol] else []).any fun a => a / 2 ^ 21 == chunk

/-- CHUNK_OWNER_CHANGE (R341): the unbacked chunks never have an owner (R330), chunk 0 holds the world table (R338;
DEDUCED, log entry 25), and a chunk with the tables of a live world stays the monitor's. -/
def execChunkOwnerChange (chunk world : Nat) (s : State) : Out3 :=
  .next (if !backed (chunk * 2 ^ 21) || chunk % 2 ^ 16 != chunk || chunk == 0 || s.keepsTables chunk then s
    else
      let s1 := s.scrub chunk
      { s1 with owners := SMap.put 0xFE s1.owners chunk (world % 256) })

/-- The masks of a partition-table entry are disjoint from every other partition's (R339). -/
def State.masksFree (s : State) (n entry : Nat) : Bool :=
  s.parts.all fun p => p.1 == n ||
    (p.2.cl &&& bitsOf entry 8 32 == 0 && p.2.sl &&& bitsOf entry 40 128 == 0
      && p.2.ifs &&& bitsOf entry 168 16 == 0 && p.2.fl &&& bitsOf entry 184 16 == 0)

/-! ## The monitor's tables (R338, R342) -/

/-- A world's line of the world table (R338). -/
def World.line (w : World) : Line :=
  BitVec.ofNat 512 <|
    w.troot % 2 ^ 64 + 2 ^ 64 * w.live.toNat + 2 ^ 80 * (w.pmask % 2 ^ 32) + 2 ^ 112 * (w.ncm % 2 ^ 16)
    + 2 ^ 128 * (w.ctb % 2 ^ 64) + 2 ^ 192 * (w.gtb % 2 ^ 64) + 2 ^ 256 * (w.flog % 2 ^ 64) + 2 ^ 448 * (w.pol % 2 ^ 64)

/-- The monitor writes a world's line of the world table, at 64 times its number (R338). -/
def State.syncWorld (s : State) (world : Nat) : State :=
  s.homePut (memKey .dev (64 * world)) { bits := (s.worldAt world).line, tag := false }

/-- A compartment-table entry (R342). -/
def Cmpt.entry (c : Cmpt) : Nat := c.valid.toNat + 2 * c.priv.toNat + 2 ^ 64 * c.hnd.toNat

/-- The monitor writes an entry of a world's compartment table (R342). -/
def State.syncCmpt (s : State) (world n : Nat) : State :=
  let w := s.worldAt world
  let k := memKey .dev (w.ctb + 16 * n)
  ((s.outsideReady (lineKey k) true).homeRound (lineKey k)).putData k (leBytes 16 (SMap.look Cmpt.reset w.cmpts n).entry)

/-- The partitions that a world drives, as PMASK names them (R338). -/
def State.partMask (s : State) (world : Nat) : Nat :=
  (List.range 32).foldl (fun m p => if (s.partAt p).wid = world then m + 2 ^ p else m) 0

/-- A world's PMASK follows its partitions (R338). -/
def State.syncMask (s : State) (world : Nat) : State :=
  if (s.worldAt world).live then
    (s.updWorld world fun w => { w with pmask := s.partMask world }).syncWorld world
  else s

/-- The owner and the masks of a partition-table entry may be set without a reset (R341): no world has driven the
partition since its last reset, or the same world has, with the same masks. -/
def Part.accepts (x : Part) (entry : Nat) : Bool :=
  x.lastWid == 0xFE || (x.lastWid == bitsOf entry 0 8 && x.cl == bitsOf entry 8 32 && x.sl == bitsOf entry 40 128
    && x.ifs == bitsOf entry 168 16 && x.fl == bitsOf entry 184 16)

/-- PARTITION_OWNER_CHANGE (R339): a partition of world 0xFE goes to a world, reset since another drove it (R341), or a
world gives it back. The entry carries the masks. -/
def execPartitionOwnerChange (p entry : Nat) (s : State) : Out3 :=
  let x := s.partAt p
  let w := bitsOf entry 0 8
  if 32 ≤ p then .next s
  else if w = 0xFE then .next ((s.updPart p fun y => { y with wid := 0xFE }).syncMask x.wid)
  else if x.wid != 0xFE || x.prstgo || !x.accepts entry || !s.masksFree p entry then .next s
  else .next ((s.updPart p fun y =>
    { y with wid := w, lastWid := w, cl := bitsOf entry 8 32, sl := bitsOf entry 40 128, ifs := bitsOf entry 168 16
             fl := bitsOf entry 184 16 }).syncMask w)

/-! ## Worlds -/

/-- A root capability of rank 1 with stride 1, of lifetime world and compartment 0 (R345). -/
def rootCap (base ext fmt : Nat) (perms : List Nat) : CapF :=
  { base := base, ext0 := ext, ext1 := 1, ext2 := 1, ext3 := 1, sd0 := 1, sd1 := 0, sd2 := 0, sd3 := 0, fmt := fmt,
    rank := 1, perm := permMask perms, life := 3, gen := 0, seal_ := 0, cmpt := 0, hlay := 0, hswz := 0, rsv := 0 }

/-- The permissions of the data roots (R345). -/
def dataPerms : List Nat := [permLD, permST, permLC, permSC, permSL, permCP, permAT, permGL, permPL, permMG]

/-- The permissions of the window capabilities (R284). -/
def windowPerms : List Nat := [permLD, permST, permLC, permSC, permSL, permCP, permAT]

/-- The data root. -/
def dataRoot : CapF :=
  { rootCap 0 (2 ^ 18) 0x00 dataPerms with ext1 := 2 ^ 18, ext2 := 2 ^ 20, rank := 3, sd1 := 2 ^ 18, sd2 := 2 ^ 36 }

/-- The root block's lines 0 … 11 (R284, R345): the window formats by their names (DEDUCED, log entry 33). -/
def rootBlock (logVa : Nat) : List CapF :=
  [ dataRoot,
    { dataRoot with base := 2 ^ 56, ext2 := 2 ^ 20 - 1, life := 4 },
    rootCap 0x10 0xFFF0 0x00 [permSE, permUS],
    rootCap counterBase 524288 0x08 [permLD, permST, permAT],
    rootCap mintBase 512 0x20 [permLC, permSC],
    rootCap LW 262144 0x00 windowPerms,
    rootCap LW 524288 0x09 windowPerms,
    rootCap LW 131072 0x06 windowPerms,
    rootCap LW 65536 0x07 windowPerms,
    rootCap LW 32768 0x08 windowPerms,
    rootCap LW 4096 0x20 windowPerms,
    rootCap logVa 8200 0x08 [permLD] ]

/-- Writes the root block of a world at a physical address: 16 lines, of which the last four are null (R345). -/
def State.writeRoots (s : State) (addr logVa : Nat) : State :=
  let lines := (rootBlock logVa).map CapF.reg ++ List.replicate 4 CapReg.null
  lines.zipIdx.foldl (fun t x => t.homePut (memKey .dev (addr + 64 * x.2)) x.1) s

/-- The view of the root block that the world's device kernel is handed (R345). -/
def rootView (va : Nat) : CapReg := (rootCap va 16 0x20 [permLC]).reg

/-- The body line of a policy, which comes first of its bytes (R352). -/
def policyBody (policy : List Byte) : Line := BitVec.ofNat 512 (leNum (policy.take 64))

/-- Backed memory of at most one chunk's length lies in chunks of an owner (R330, R340). -/
def State.liesIn (s : State) (owner addr len : Nat) : Bool :=
  [addr, addr + len - 1].all fun a => backed a && s.chunkOwner a == owner

/-- The addresses of a world's description are aligned as R29, R338, R342 and R345 need them, the compartment table and
the policy's body lie in monitor-owned memory behind the world table (R338, R342, R352), the root block in memory of the
world (R345), and a policy has an address, which 0 is not (R338); the monitor makes no other world (DESIGN CHOICE, log
entry 25). -/
def State.worldCfgOk (s : State) (world cfg : Nat) (policy : List Byte) : Bool :=
  let a (lo : Nat) : Nat := bitsOf cfg lo 64
  let ours (addr len : Nat) : Bool := decide (0x4000 ≤ addr) && s.liesIn 0xFF addr len
  a 448 % 64 == 0 && a 256 % 64 == 0 && a 192 % 4096 == 0 && a 128 % 16 == 0 && a 512 % 64 == 0
    && a 576 % 64 == 0 && decide (a 576 + 65600 ≤ 2 ^ 57) && a 640 % 64 == 0 && decide (a 640 + 1024 ≤ 2 ^ 57)
    && ours (a 128) (16 * (bitsOf cfg 112 16 + 1)) && (policy == [] || ours (a 448) 64) && s.liesIn world (a 512) 1024

/-- A new world, as the monitor describes it (R338, R342, R345, R352); no bytes mean no policy. -/
def newWorld (cfg pmask now : Nat) (policy : List Byte) : World :=
  { World.reset with
    live := true, troot := bitsOf cfg 0 64, gtb := bitsOf cfg 192 64, flog := bitsOf cfg 256 64
    pol := if policy = [] then 0 else bitsOf cfg 448 64, ctb := bitsOf cfg 128 64, pmask := pmask
    policy := if policy = [] then none else some (policyBody policy)
    ncm := bitsOf cfg 112 16
    cmpts := SMap.put Cmpt.reset [] 0 { valid := true, used := true, priv := true, hnd := 0 }
    roots := bitsOf cfg 512 64, rootView := rootView (bitsOf cfg 640 64)
    period := if policy = [] then 0 else now / policyPeriod (policyBody policy) }

/-- The monitor writes what describes a world: the policy's body, the compartment table, the root block and the world's
line (R338, R342, R345, R352). -/
def State.writeWorld (s : State) (world cfg : Nat) : State :=
  let w := s.worldAt world
  let s1 := match w.policy with
    | some b => s.homePut (memKey .dev w.pol) { bits := b, tag := false }
    | none => s
  let s2 := (s1.zeroRange (memKey .dev w.ctb) (16 * (w.ncm + 1))).syncCmpt world 0
  (s2.writeRoots w.roots (bitsOf cfg 576 64)).syncWorld world

/-- WORLD_CREATE (R338, R345, R352): refused while the world exists or when a signature of its policy fails. -/
def execWorldCreate (world cfg : Nat) (policy : List Byte) (s : State) : Out3 :=
  if 0xFE ≤ world || !s.fw.succeeded || (s.worldAt world).live || !s.worldCfgOk world cfg policy
      || (policy != [] && !Config.signaturesOk policy) then .next s
  else .next ((s.updWorld world fun _ => newWorld cfg (s.partMask world) s.now policy).writeWorld world cfg)

/-- The active slots of a world. -/
def State.worldSlots (s : State) (world : Nat) : List Nat :=
  (s.cores.keys.flatMap s.liveSlots).filter fun k => (s.slotAt k).world == world

/-- The chunks of a world. -/
def State.chunksOf (s : State) (world : Nat) : List Nat := (s.owners.filter fun x => x.2 == world).map (·.1)

/-- Steps 2 and 3 of a world's destruction (R341): its line of the world table is cleared, and its partitions, with those
that it gave back, are to be reset before any world gets them. -/
def State.endWorld (s : State) (world : Nat) : State :=
  let s1 := (s.chunksOf world).foldl (fun t c =>
    let u := t.scrub c
    { u with owners := SMap.put 0xFE u.owners c 0xFE })
    ((s.zeroRange (memKey (.mint world) 0) 0x8000).homePut (memKey .dev (64 * world)) CapReg.null)
  { s1 with
    parts := s1.parts.map fun p =>
      if p.2.wid = world then (p.1, { p.2 with wid := 0xFE, lastWid := 256 + world, queue := [] })
      else if p.2.lastWid = world then (p.1, { p.2 with lastWid := 256 + world }) else p
    grids := s1.grids.map fun g => if g.2.world = world then (g.1, { g.2 with st := .done, leases := [] }) else g
    worlds := SMap.erase s1.worlds world }

/-- WORLD_DESTROY (R341): pre-emption of every activation; once none is left, the event again ends the world. -/
def execWorldDestroy (world : Nat) (s : State) : Out3 :=
  if !(s.worldAt world).live then .next s
  else if (s.worldSlots world) = [] then .next (s.endWorld world)
  else .next (((s.worldSlots world).foldl State.requestPreempt s).updWorld world fun w => { w with dying := true })

/-! ## Compartments (R342) -/

/-- COMPARTMENT_CREATE (R342): a number is used once; the entry of compartment 0, which always exists, may take a
handler. -/
def execCompartmentCreate (world cmpt entry : Nat) (priv : Bool) (s : State) : Out3 :=
  let w := s.worldAt world
  let c := SMap.look Cmpt.reset w.cmpts cmpt
  if !w.live || decide (w.ncm < cmpt) || (c.used && cmpt != 0) then .next s
  else .next ((s.updWorld world fun x =>
    { x with cmpts := SMap.put Cmpt.reset x.cmpts cmpt
               { valid := true, used := true, priv := priv || cmpt == 0, hnd := BitVec.ofNat 64 entry } }).syncCmpt world cmpt)

/-- A slot after the destruction of a compartment. -/
def Slot.loseCmpt (sl : Slot) (c : Nat) : Slot :=
  { sl with cmpt := deadCmpt c sl.cmpt
            stack := sl.stack.map fun f => { f with cmpt := deadCmpt c f.cmpt }
            trap := sl.trap.map fun t => { t with cmpt := deadCmpt c t.cmpt } }

/-- COMPARTMENT_DESTROY (R342): V := 0, and its code objects are quarantined. -/
def execCompartmentDestroy (world cmpt : Nat) (s : State) : Out3 :=
  let w := s.worldAt world
  if cmpt = 0 ∨ (SMap.look Cmpt.reset w.cmpts cmpt).valid = false then .next s
  else
    let s1 := (s.updWorld world fun x =>
      { x with cmpts := SMap.upd Cmpt.reset x.cmpts cmpt fun c => { c with valid := false }
               objs := x.objs.map fun o => if o.2.cmpt = cmpt then (o.1, { o.2 with quarantined := true }) else o }).syncCmpt
      world cmpt
    .next ((s1.worldSlots world).foldl (fun t k => t.updSlot k fun sl => sl.loseCmpt cmpt) s1)

/-! ## Errors of memory -/

/-- The core whose system area a line belongs to (R278, R281). -/
def systemCore (line : Nat) : Option Nat :=
  let sp := 64 * line / 2 ^ 64
  if 512 ≤ sp ∧ sp < 1024 ∧ 0x2C000 ≤ 64 * line % 2 ^ 64 then some (sp - 512) else none

/-- An error in a line of a spill area reaches the copy that the line holds of an entry (R47, R269); the model keeps the
header lines itself (DESIGN CHOICE, log entry 89). -/
def State.spoilEntries (s : State) (line : Nat) : State :=
  { s with revs := s.revs.map fun r =>
      let y := r.2
      let hit (va : Nat) : Bool :=
        (s.gridAt y.grid).leases.any fun l => l.1 == va / 4096 && lineKey (l.2.at_ va).2 == line
      let a (i n : Nat) : Nat := y.headerAt + 64 * (y.regions.length + 2) + 192 * i + 64 * n
      let spoil (b : Bool) (err : List Nat) : List Nat := if b then List.range 128 else err
      if y.st == .merged then r
      else (r.1, { y with entries := y.entries.zipIdx.map fun e =>
        { e.1 with aerr := spoil (hit (a e.2 1)) e.1.aerr, cerr := spoil (hit (a e.2 2)) e.1.cerr } }) }

/-- UNCORRECTABLE_MEMORY_ERROR (R47); an error in a system area is a machine check that loses its records (R241, R242). -/
def execUncorrectableMemoryError (line : Nat) (s : State) : Out3 :=
  .next (match systemCore line with
    | some c => s.machineCheck c true
    | none => { s.spoilEntries line with
        poison := (List.range 128).foldl (fun p j => SMap.put false p (128 * line + j) true) s.poison })

end Sys2Proof.Machine
end

