-- ==== Sys2Proof/Machine/Revoke.lean ====
section
/-!
DEFINITION. Revocation (R348 … R350): publication, the drain, the Dredger's visits, and completion.
-/

namespace Sys2Proof.Machine

/-- A revocation is published for a world (R348 step 1). -/
def State.publishRevocation (s : State) (w : Nat) : State :=
  let (n, s1) := s.draw
  let slots := s.worldSlots w
  let r : Revocation :=
    { at_ := s.now, stamp := n, acts := slots.map fun k => (k, (s.slotAt k).actid)
      marks := slots.map fun k => ((s.slotAt k).seq, (s.slotAt k).applied + (s.slotAt k).deferred.length), sweep := [] }
  (s1.updWorld w fun x => { x with rev := some r }).note w 5

/-- A write of REVCTL (R348): the world of the partition publishes a revocation; ignored while one is published. -/
def State.writeRevctl (s : State) (p writer val : Nat) : State :=
  let w := (s.partAt p).wid
  s.kernelWrite p writer (if s.revoking w || bitsOf val 63 1 == 0 || !(s.worldAt w).live then s else s.publishRevocation w)

/-- REVCTL (R348): the write of the device kernel of the partition's world. -/
def execRevctl (p val : Nat) (s : State) : Out3 := .next (s.writeRevctl p (256 + (s.partAt p).wid) val)

/-- A queued entry is a capability store that has not performed at package scope. -/
def Out.unperformedLine (o : Out) (stamp : Nat) : Bool :=
  (match o.op with
   | .line _ _ => true
   | .data _ _ => false
   | .sluice _ _ => false) && decide (o.stamp < stamp) && decide (o.lvl < 3)

/-- An operation in flight keeps a capability in memory. -/
def Flight.storesCap : Flight → Bool
  | .ccas _ _ _ _ => true
  | _ => false

/-- A deferred effect keeps a capability in memory. -/
def DeferOp.storesCap : DeferOp → Bool
  | .cst _ _ _ => true
  | .mem f => f.storesCap
  | _ => false

/-- What a slot owes or has deferred from before the publication keeps no capability any more. -/
def Slot.settledCaps (sl : Slot) (seq pos : Nat) : Bool :=
  sl.owed.all (fun o => !(o.flight.storesCap && o.res.isNone && decide (o.seq < seq)))
    && sl.deferred.zipIdx.all fun d => !(d.1.op.storesCap && decide (sl.applied + d.2 < pos))

/-- A recorded activation has not ended. -/
def State.stillRuns (s : State) (a : Nat × Word) : Bool := (s.slotAt a.1).active && (s.slotAt a.1).actid == a.2

/-- Every capability store of the world that passed its checks before the publication has performed at package scope
(R348 step 2). -/
def State.drained (s : State) (world : Nat) (r : Revocation) : Bool :=
  (s.worldSlots world).all (fun k => (s.slotAt k).out.all fun o => !o.unperformedLine r.stamp)
    && (r.acts.zip r.marks).all fun a => !s.stillRuns a.1 || (s.slotAt a.1.1).settledCaps a.2.1 a.2.2

/-! ## The sweep (R348 step 3) -/

/-- The agent that sweeps a line: a die's Dredger, a core, or the one that has the mint lines. -/
def sweeper (lk : Nat) : Nat :=
  let sp := 64 * lk / 2 ^ 64
  if sp = 0 then lk / 2 ^ 30 else if sp < 1024 then 2 + sp - 512 else 1000

/-- A line is to be swept for a world: device memory that the world owns, its mint lines, and the named areas of its
teams' cores. -/
def State.sweepable (s : State) (world lk : Nat) : Bool :=
  let k := 64 * lk
  let sp := k / 2 ^ 64
  if sp = 0 then decide (k < 2 ^ 37) && s.chunkOwner k == world
  else if sp = 1024 + world then true
  else if 512 ≤ sp ∧ sp < 1024 then
    (match (s.coreAt (sp - 512)).team with
     | some t => (s.gridAt (s.teamAt t).grid).world == world && decide (k % 2 ^ 64 < s.namedSize (s.teamAt t).grid)
     | none => false)
  else false

/-- The lines that hold something with a tag. -/
def State.taggedLines (s : State) : List Nat :=
  (s.tags.keys ++ s.coh.keys).eraseDups.filter fun lk => (s.lineNow (64 * lk)).tag

/-- A line has still to be visited. -/
def Revocation.ahead (r : Revocation) (lk : Nat) : Bool := decide (SMap.look 0 r.sweep (sweeper lk) ≤ lk)

/-- The tagged lines that the sweep of a revocation has still to visit. -/
def State.unswept (s : State) (world : Nat) (r : Revocation) : List Nat :=
  s.taggedLines.filter fun lk => s.sweepable world lk && r.ahead lk

/-- The key of the line of a virtual address by a grid's leases. -/
def Grid.physLine (g : Grid) (va : Nat) : Option Nat :=
  (g.leases.find? fun x => x.1 == va / 4096).map fun x => lineKey (x.2.at_ va).2

/-- A revision's copies lose the tag whose spill line is the given line. -/
def State.clearCopy (s : State) (lk : Nat) (y : Revision) : Revision :=
  let g := s.gridAt y.grid
  { y with entries := y.entries.zipIdx.map fun x =>
      let a := y.headerAt + 64 * (y.regions.length + 2) + 192 * x.2
      let e := if g.physLine (a + 64) = some lk then { x.1 with anc := { x.1.anc with tag := false } } else x.1
      if g.physLine (a + 128) = some lk then { e with child := { e.child with tag := false } } else e }

/-- Clears the tag of a line at its home, as a write of R314 (R349), in the copies the Junction keeps too. -/
def State.clearTag (s : State) (world lk : Nat) : State :=
  let s1 := if 64 * lk < 2 ^ 64 then (s.outsideReady lk true).updateRound (s.cohAt lk).slice lk else s
  { s1 with tags := SMap.put false s1.tags lk false
            revs := s1.revs.map fun r => if r.2.world = world && r.2.st != .merged then (r.1, s1.clearCopy lk r.2) else r }

/-- The Dredger visits a line (R349). -/
def State.visit (s : State) (world lk : Nat) : State :=
  if s.stale world (s.partOf world) (s.lineNow (64 * lk)) then s.clearTag world lk else s

/-- DREDGER_SWEEP_VISIT (R349): once the drain is over, the next line of an agent's sweep; lines without a tag between
visits need nothing. -/
def execDredgerSweepVisit (world line : Nat) (s : State) : Out3 :=
  match (s.worldAt world).rev with
  | none => .next s
  | some r =>
    let skipped := (s.unswept world r).any fun k => sweeper k == sweeper line && decide (k < line)
    if !s.drained world r || !s.sweepable world line || !r.ahead line || skipped || (s.cohAt line).pend.isSome then .next s
    else .next ((s.visit world line).updWorld world fun w =>
      { w with rev := some { r with sweep := SMap.put 0 r.sweep (sweeper line) (line + 1) } })

/-! ## The end -/

/-- REVOCATION_PREEMPT_TIMEOUT (R348) -/
def execRevocationPreemptTimeout (world : Nat) (s : State) : Out3 :=
  match (s.worldAt world).rev with
  | none => .next s
  | some r =>
    if s.now < r.at_ + 2 ^ 21 then .next s
    else .next ((r.acts.filter s.stillRuns).foldl (fun t a => t.requestPreempt a.1) s)

/-- The world's teams that are swapped out. -/
def State.swappedTeams (s : State) (world : Nat) : List Nat :=
  (s.teams.filter fun t => t.2.swapped && (s.gridAt t.2.grid).world == world).map (·.1)

/-- REVOCATION_COMPLETE (R348 step 4): the swap areas, which are memory of the world, have been swept with it. -/
def execRevocationComplete (world : Nat) (s : State) : Out3 :=
  match (s.worldAt world).rev with
  | none => .next s
  | some r =>
    if !s.drained world r || s.unswept world r != [] || r.acts.any s.stillRuns then .next s
    else
      let s1 := (s.swappedTeams world).foldl State.sweepSaved s
      .next (s1.updWorld world fun w => { w with rev := none, epoch := (w.epoch + 1) % 2 ^ 32 })

end Sys2Proof.Machine
end

