-- ==== Sys2Proof/Machine/HostPort.lean ====
section
/-!
DEFINITION. The partition control block and the host's rings (R365 … R370), and the streams of the host port (R363).
-/

namespace Sys2Proof.Machine

/-! ## Ownership (R366) -/

/-- The lease has run out. -/
def Part.leaseOver (p : Part) (now : Nat) : Bool := p.mid != 0 && decide (p.leaseAt + p.lease * 2 ^ 20 ≤ now)

/-- The partition after an expiry that is due. -/
def Part.expire (p : Part) (now : Nat) : Part :=
  if p.leaseOver now then { p with mid := 0, lease := 0, gen := (p.gen + 1) % 2 ^ 16 } else p

/-- The remaining lease, as OWN reads it. -/
def Part.leaseLeft (p : Part) (now : Nat) : Nat :=
  if p.mid = 0 then p.lease else p.lease - (now - p.leaseAt) / 2 ^ 20

/-- OWN as it reads. -/
def Part.ownWord (p : Part) (now : Nat) : Word :=
  let q := p.expire now
  BitVec.ofNat 64 (q.leaseLeft now + 2 ^ 32 * q.gen + 2 ^ 48 * q.mid)

/-- A write of OWN: a compare-and-set. -/
def Part.own (p : Part) (master val now : Nat) : Part :=
  let q := p.expire now
  if bitsOf val 32 16 = q.gen ∧ (q.mid = 0 ∨ q.mid = master) then
    { q with mid := bitsOf val 48 8, lease := bitsOf val 0 32, leaseAt := now, gen := (q.gen + 1) % 2 ^ 16 }
  else q

/-- A write of OWN by one of the attached masters, 1 … 15 (R366). -/
def State.writeOwn (s : State) (p master val : Nat) : State :=
  if s.accepts && decide (1 ≤ master) && decide (master < 16) then (s.updPart p fun x => x.own master val s.now).answered true
  else s.answered false

/-- OWN (R366): a write of the host's port that the outside has scheduled next, behind one of the management port, falls
into the same cycle and is applied first (DESIGN CHOICE, log entry 74). -/
def execOwn (p master val : Nat) (s : State) : Out3 :=
  match s.script with
  | .own q m v :: t =>
    .next (if master = 2 ∧ q = p ∧ m ≠ 2 then (({ s with script := t } : State).writeOwn q m v).writeOwn p master val
      else s.writeOwn p master val)
  | _ => .next (s.writeOwn p master val)

/-- OWNERSHIP_LEASE_EXPIRY (R366) -/
def execOwnershipLeaseExpiry (p : Nat) (s : State) : Out3 := .next (s.updPart p fun x => x.expire s.now)

/-- A master owns a partition now. -/
def State.owns (s : State) (p master : Nat) : Bool :=
  let x := (s.partAt p).expire s.now
  master != 0 && x.mid == master

/-- A write that only the owner may make, where the registers take it; another is dropped (R365, R369). -/
def State.ownerWrite (s : State) (p master : Nat) (ok : Bool) (f : Part → Part) : State :=
  if s.accepts && s.owns p master && ok then (s.updPart p f).answered true else s.answered false

/-! ## The command ring (R367, R368) -/

/-- RTAIL (R368) -/
def execRtail (p master val : Nat) (s : State) : Out3 :=
  .next (s.ownerWrite p master true fun x => { x with rtail := BitVec.ofNat 64 val })

/-- RSYNC (R368) -/
def execRsync (p master val : Nat) (s : State) : Out3 :=
  .next (s.ownerWrite p master true fun x =>
    if x.rst = .gap ∧ x.expseq.toNat ≤ val ∧ val < 2 ^ 64 then { x with expseq := BitVec.ofNat 64 val, rst := .run } else x)

/-- RING_KEY_INSTALL (R368): key numbers count from 1, 0 stands for none. -/
def execRingKeyInstall (p key : Nat) (s : State) : Out3 :=
  .next (if s.accepts then s.updPart p fun x => { x with rkey := key + 1, expseq := 0, rst := .run } else s)

/-- A command entry as the device reads it. -/
structure Command where
  tag  : BitVec 128
  kind : Nat
  seq  : Word
  rec_ : Line
  /-- the bytes of the entry with TAG zero -/
  body : List Byte
  head : Line
  l2   : Line
  l3   : Line
  deriving DecidableEq, Repr

/-- The entry at a ring index (R367). -/
def State.commandAt (s : State) (p : Part) (n : Nat) : Command :=
  let k := memKey .host (p.rbase + 256 * (n % p.rsize))
  let line (j : Nat) : Line := BitVec.ofNat 512 (Memory.num s.mem (k + 64 * j) 64)
  let l0 := line 0
  { tag := l0.extractLsb' 384 128, kind := bitsOf l0.toNat 64 8, seq := BitVec.ofNat 64 l0.toNat, rec_ := line 1
    body := leBytes 48 l0.toNat ++ List.replicate 16 0 ++ Memory.getBytes s.mem (k + 64) 192
    head := l0, l2 := line 2, l3 := line 3 }

/-- TAG verifies under the ring key, with nonce SEQ ‖ p; without a key none does. -/
def Command.verifies (c : Command) (p : Part) (num : Nat) : Bool :=
  p.rkey != 0 && Config.gcmTag p.rkey (c.seq.toNat * 2 ^ 32 + num) c.body == c.tag

/-- GNT of capability line `i` + 1; GSL is number 4. -/
def Command.grantIdx (c : Command) (i : Nat) : Nat := bitsOf c.l2.toNat (32 * i) 32

/-- The fields of an entry are valid: KIND, reserved bits, and the indexes it names. -/
def Command.fieldsOk (c : Command) (gcount : Nat) (sluice : Bool) : Bool :=
  let ok (i : Nat) : Bool := c.grantIdx i == 0xFFFFFFFF || decide (c.grantIdx i < gcount)
  c.kind == 1 && bitsOf c.head.toNat 72 312 == 0 && bitsOf c.l2.toNat 160 352 == 0 && c.l3 == 0
    && (List.range 4).all ok && (!sluice || ok 4)

/-- A grant line, loaded as R42 loads it for the partition's world; none where it cannot be read. -/
def State.grantLine (s : State) (num idx : Nat) : Option CapReg :=
  if idx = 0xFFFFFFFF then some CapReg.null
  else
    let p := s.partAt num
    (s.schedPlace (s.schedWho p.wid num 0) false (p.grant.toNat + 64 * idx)).bind fun pl =>
      if s.poisoned (2 * pl.key) 128 then none
      else
        let l := if pl.kind = .dev then s.lineNow pl.key else s.lineAt pl.key
        let c : CapReg := { l with tag := l.tag && !pl.untagged }
        some (if s.stale p.wid num c then { c with tag := false } else c)

/-- A grant line is read at its page (R290). -/
def State.touchGrant (s : State) (num idx : Nat) : State :=
  if idx = 0xFFFFFFFF then s
  else s.schedTouch (s.schedWho (s.partAt num).wid num 0) ((s.partAt num).grant.toNat + 64 * idx)

/-- The grant indexes that an entry names for its record's lines; none when a field of it is invalid. The line after the
NCAP arguments is the completion Sluice when CMODE = 1. -/
def State.commandIdx (s : State) (num : Nat) (c : Command) : Option (List Nat) :=
  let r : Rec := { data := c.rec_, caps := [] }
  let sl := r.cmode == 1
  if !c.fieldsOk (s.partAt num).gcount.toNat sl then none
  else some ((List.range 4).map fun i => if sl && i == r.ncap then c.grantIdx 4 else c.grantIdx i)

/-- The launch record that an entry makes; none when it is invalid. -/
def State.commandRec (s : State) (num : Nat) (c : Command) : Option Rec :=
  (s.commandIdx num c).bind fun idx =>
    let ls := idx.filterMap (s.grantLine num)
    if ls.length = 4 then some { data := c.rec_, caps := ls } else none

/-- A rejection of a command is written to the completion queue at once (R370). -/
def State.reject (s : State) (num : Nat) (seq : Word) (code : Nat) : State :=
  s.queueEntry num (cqEntry (some seq) code)

/-- The first grid of a world: the kernel passes the view of the root block as its c1 (R345), where the entry names a
grant line for it and that line holds no capability (R367; DEDUCED, log entry 81). -/
def State.withRoots (s : State) (world : Nat) (c : Command) (r : Rec) : Rec :=
  let w := s.worldAt world
  if w.begun || r.ncap == 0 || c.grantIdx 0 == 0xFFFFFFFF || (r.cap 1).tag then r else { r with caps := w.rootView :: r.caps.tail }

/-- An accepted entry is submitted as a launch (R250, R251, R367). -/
def State.acceptCommand (s0 : State) (num : Nat) (c : Command) : State :=
  let w := (s0.partAt num).wid
  let s := ((s0.commandIdx num c).getD []).foldl (fun t i => t.touchGrant num i) s0
  match s.commandRec num c with
  | none => s.reject num c.seq 2
  | some r0 =>
    let r := s.withRoots w c r0
    let code := s.recordCode w 0 true 0 0 Rec.empty r
    if code ≠ 0 then s.reject num c.seq code
    else match s.submit num w r (some c.seq) with
      | some t => t
      | none => s.reject num c.seq 1

/-- LAUNCH_COMMAND (R367, R368) -/
def execLaunchCommand (p : Nat) (s : State) : Out3 :=
  let x := s.partAt p
  if !s.accepts || x.rst != .run || x.rhead == x.rtail then .next s
  else
    let c := s.commandAt x x.rhead.toNat
    if !c.verifies x p || decide (c.seq.toNat < x.expseq.toNat) then
      .next ((s.updPart p fun y => { y with rhead := y.rhead + 1 }).count 3 p 3 1)
    else if x.expseq.toNat < c.seq.toNat then .next (s.updPart p fun y => { y with rst := .gap })
    else .next ((s.updPart p fun y =>
      { y with rhead := y.rhead + 1, expseq := c.seq + 1, rst := if c.seq + 1 = 0 then .rekey else .run }).acceptCommand p c)

/-! ## Moving the rings (R369) -/

/-- A number of entries that a ring may have. -/
def ringSizeOk (n : Nat) : Bool := (List.range 13).any fun k => n == 2 ^ (k + 4)

/-- A write of one of the four registers is accepted: only while the ring is idle, and with a size that a ring may have. -/
def Part.mayRelocate (p : Part) (reg val : Nat) : Bool :=
  let idle := p.rhead == p.rtail
  let cqIdle := p.cqtail == p.cqhead && p.cqwait == []
  match reg with
  | 0x008 => idle
  | 0x010 => idle && ringSizeOk val
  | 0x040 => cqIdle
  | 0x048 => cqIdle && ringSizeOk val
  | _ => false

/-- An accepted write of one of the four registers. -/
def Part.relocate (p : Part) (reg val : Nat) : Part :=
  match reg with
  | 0x008 => { p with rbase := val / 256 * 256 }
  | 0x010 => { p with rsize := val }
  | 0x040 => { p with cqbase := val / 16 * 16 }
  | 0x048 => { p with cqsize := val }
  | _ => p

/-- RING_RELOCATE (R369) -/
def execRingRelocate (p master reg val : Nat) (s : State) : Out3 :=
  .next (s.ownerWrite p master ((s.partAt p).mayRelocate reg (val % 2 ^ 64)) fun x => x.relocate reg (val % 2 ^ 64))

/-! ## The completion queue (R370) -/

/-- CQHEAD (R370) -/
def execCqhead (p master val : Nat) (s : State) : Out3 :=
  .next (s.ownerWrite p master true fun x => { x with cqhead := BitVec.ofNat 64 val })

/-- COMPLETION_ENTRY (R370): the oldest entry that waits is written, unless the queue is full. -/
def execCompletionEntry (p : Nat) (s : State) : Out3 :=
  let x := s.partAt p
  match x.cqwait with
  | [] => .next s
  | e :: es =>
    if (x.cqtail - x.cqhead).toNat = x.cqsize then .next s
    else
      let k := memKey .host (x.cqbase + 16 * (x.cqtail.toNat % x.cqsize))
      .next ((s.putData k (leBytes 16 e.toNat)).updPart p fun y => { y with cqwait := es, cqtail := y.cqtail + 1 })

/-! ## Other registers (R365) -/

/-- A 128-bit register after a write of one of its halves. -/
def setHalf (v : BitVec 128) (hi : Bool) (val : Nat) : BitVec 128 :=
  BitVec.ofNat 128 (if hi then v.toNat % 2 ^ 64 + 2 ^ 64 * (val % 2 ^ 64) else v.toNat / 2 ^ 64 * 2 ^ 64 + val % 2 ^ 64)

/-- A half of a register that the monitor sets for a partition: a slice set, or a stripe set, whose reserved bits stay
zero (R290, R331, R365). -/
def Part.setRegister (p : Part) (off val : Nat) : Part :=
  if off < 0x200 then
    { p with slset := SMap.upd 0 p.slset ((off - 0x100) / 16) fun v => setHalf v (off % 16 == 8) val }
  else
    { p with stripe := SMap.upd 0 p.stripe ((off - 0x200) / 16) fun v =>
               setHalf v (off % 16 == 8) (if off % 16 = 8 then val else val % 16) }

/-- REGISTER_WRITE (R365): GRANT, GCOUNT, RESREPLY, INVCTL and REVCTL by the world's device kernel, PRST, SLSET, STRIPE and
a port's longest run by the monitor; anything else is dropped (R364; DESIGN CHOICE on where RL is written, log entry 79). -/
def execRegisterWrite (p writer off val : Nat) (s : State) : Out3 :=
  .next (
    if 32 ≤ p then
      s.monitorWrite writer (if p < 34 ∧ 1 ≤ val ∧ val ≤ 64 then
        { s with ports := { s.ports with rl := SMap.put 0 s.ports.rl (p - 32) val } } else s)
    else if off = 0x060 then
      s.kernelWrite p writer (s.updPart p fun y => { y with grant := BitVec.ofNat 64 (bitsOf val 6 51 * 64) })
    else if off = 0x068 then s.kernelWrite p writer (s.updPart p fun y => { y with gcount := BitVec.ofNat 64 val })
    else if off = 0x070 then s.writeResreply p writer val
    else if off = 0x078 then s.writeInvctl p writer val
    else if off = 0x080 then s.writeRevctl p writer val
    else if off = 0x088 then s.writePrst p writer val
    else if 0x100 ≤ off ∧ off < 0x300 ∧ off % 8 = 0 then s.monitorWrite writer (s.updPart p fun y => y.setRegister off val)
    else s.answered false)

/-- A register of the control block as it reads (R365); unlisted offsets read zero. -/
def State.controlReg (s : State) (p off : Nat) : Word :=
  let x := s.partAt p
  let w := s.worldAt x.wid
  let half (m : SMap (BitVec 128)) (o : Nat) : Word :=
    BitVec.ofNat 64 ((SMap.look 0 m (o / 16)).toNat / 2 ^ (64 * (o / 8 % 2)))
  match off with
  | 0x000 => x.ownWord s.now
  | 0x008 => BitVec.ofNat 64 x.rbase
  | 0x010 => BitVec.ofNat 64 x.rsize
  | 0x018 => x.rtail
  | 0x020 => x.rhead
  | 0x028 => x.expseq
  | 0x038 => (match x.rst with
      | .run => 0
      | .gap => 1
      | .rekey => 2)
  | 0x040 => BitVec.ofNat 64 x.cqbase
  | 0x048 => BitVec.ofNat 64 x.cqsize
  | 0x050 => x.cqtail
  | 0x058 => x.cqhead
  | 0x060 => x.grant
  | 0x068 => x.gcount
  | 0x070 => x.resreply
  | 0x078 => BitVec.ofNat 64 (2 ^ 63 * x.invgo.toNat + 2 ^ 62 * x.invall.toNat + x.invva + x.invsts)
  | 0x080 => BitVec.ofNat 64 (2 ^ 63 * w.rev.isSome.toNat + w.epoch)
  | 0x088 => BitVec.ofNat 64 (2 ^ 16 * x.fco + 2 ^ 8 * x.fsl + x.prstgo.toNat)
  | o =>
    if 0x100 ≤ o ∧ o < 0x200 ∧ o % 8 = 0 then half x.slset (o - 0x100)
    else if 0x200 ≤ o ∧ o < 0x300 ∧ o % 8 = 0 then half x.stripe (o - 0x200)
    else 0

/-! ## Streams (R363) -/

/-- IDE_STREAM_KEY_INSTALL (R363): a selective stream, 0 … 31, or a CXL stream, 32 … 63, is bound to a world with its
keys. -/
def execIdeStreamKeyInstall (stream world key : Nat) (s : State) : Out3 :=
  if 64 ≤ stream || !s.accepts then .next s
  else .next { s with ports := { s.ports with streams := SMap.put none s.ports.streams stream (some (world % 256))
                                              skeys := SMap.put 0 s.ports.skeys stream (key + 1) } }

end Sys2Proof.Machine
end

