-- ==== Sys2Proof/Machine/Boot.lean ====
section
/-!
DEFINITION. Firmware bundles, trials, attestation and starts (R371 … R375), power gating and clocks (R292, R293, R376).
-/

namespace Sys2Proof.Machine

/-! ## Bundles (R371, R372) -/

/-- A slot of the two, false A. -/
def Firmware.slot (f : Firmware) (b : Bool) : Bundle := if b then f.slotB else f.slotA

/-- Changes a slot. -/
def Firmware.setSlot (f : Firmware) (b : Bool) (x : Bundle) : Firmware :=
  if b then { f with slotB := x } else { f with slotA := x }

/-- A slot may boot: a valid bundle that meets the fused minimum. -/
def Firmware.boots (f : Firmware) (b : Bool) : Bool := (f.slot b).valid && decide (f.minver ≤ (f.slot b).version)

/-- The slot that the next start runs, and whether on trial. -/
def Firmware.nextSlot (f : Firmware) : Option (Bool × Bool) :=
  if (f.slot !f.active).pending && f.boots !f.active then some (!f.active, true)
  else if f.boots f.active then some (f.active, false)
  else none

/-- The slot that runs. -/
def Firmware.running (f : Firmware) : Bool := if f.trial then !f.active else f.active

/-- Where the model reads a bundle's header (R371; DESIGN CHOICE, log entry 35): VERSION in the first four bytes, MINBUMP in
bit 0 of the fifth, then from byte 8 on the lengths of the three components, four bytes each, and from byte 32 on their
hashes; the components follow from byte 128 on, one after the other. -/
def bundleNum (bs : List Byte) (at_ n : Nat) : Nat := leNum ((bs.drop at_).take n)

/-- The length of component `i`. -/
def partLength (bs : List Byte) (i : Nat) : Nat := bundleNum bs (8 + 4 * i) 4

/-- The bytes of component `i`. -/
def partBytes (bs : List Byte) (i : Nat) : List Byte :=
  (bs.drop (128 + (List.range i).foldl (fun n j => n + partLength bs j) 0)).take (partLength bs i)

/-- The hash of component `i` in the header. -/
def partHash (bs : List Byte) (i : Nat) : BitVec 256 := BitVec.ofNat 256 (bundleNum bs (32 + 32 * i) 32)

/-- A bundle is valid: both signatures verify and every component matches its hash (R371). -/
def bundleValid (bs : List Byte) : Bool :=
  Config.signaturesOk bs && (List.range 3).all fun i => sha3 (partBytes bs i) == partHash bs i

/-- The bundle in fetched bytes (R371). -/
def bundleOf (bs : List Byte) : Bundle :=
  { valid := bundleValid bs, version := bundleNum bs 0 4, minbump := bundleNum bs 4 1 % 2 == 1, hash := sha3 bs
    parts := (List.range 3).map (partHash bs), pending := bundleValid bs, fails := 0 }

/-- BUNDLE_FETCH (R371, R372): refused below the fused minimum; the slot on trial is not replaced. -/
def execBundleFetch (addr len : Nat) (s : State) : Out3 :=
  let b := bundleOf (Memory.getBytes s.mem (memKey .host addr) len)
  .next (if b.version < s.fw.minver ∨ s.fw.trial = true then s else { s with fw := s.fw.setSlot (!s.fw.active) b })

/-- REMOTE_ATTESTATION_COMPLETE (R372), before the 600 seconds of the trial have passed: TRIAL_EXPIRY is their passing
(log entry 80) -/
def execRemoteAttestationComplete (s : State) : Out3 :=
  let f := s.fw
  if !f.trial then .next s
  else
    let b := f.slot !f.active
    let f1 := f.setSlot (!f.active) { b with pending := false }
    .next { s with fw := { f1 with active := !f.active, trial := false
                                   minver := if b.minbump then max f.minver b.version else f.minver } }

/-! ## Starts (R374, R375) -/

/-- What no start leaves (R374): activations, worlds with their table, partitions, ports. A core or slice out of service
stays so until its partition is reset (R241). Tags and counters go in step 5. -/
def State.stopped (s : State) : State :=
  { State.reset with
    script := s.script, fresh := s.fresh, mem := (s.zeroRange (memKey .dev 0) 0x4000).mem, tags := s.tags, perf := s.perf
    poison := s.poison, fw := s.fw, pkg := s.pkg
    cores := (s.cores.filter fun c => c.2.oos).map fun c => (c.1, { Core.reset with oos := true })
    slices := (s.slices.filter fun c => c.2.oos).map fun c => (c.1, { Slice.reset with oos := true }) }

/-- Step 5 of a start: tags and counters are clear; verified marks and partitions' worlds are (R374). -/
def State.restarted (s : State) : State := { s.stopped with tags := [], perf := [] }

/-- A warm start skips a step (R374): the bundle whose hash protected SRAM holds, training within 10 °C, equalization of a
link that has not been reset. -/
def Firmware.skips (f : Firmware) (cold : Bool) (b : Bundle) (step temp : Nat) : Bool :=
  !cold && match step with
    | 2 => f.sram == b.hash
    | 3 => decide (temp ≤ f.trained + 10) && decide (f.trained ≤ temp + 10)
    | 4 => !f.linkReset
    | _ => false

/-- What the steps of a start below `n` leave in the firmware's state (R374): the bundle's hash, the temperature at the
training, and the equalized link. -/
def Firmware.steps (f : Firmware) (cold : Bool) (b : Bundle) (n temp : Nat) : Firmware :=
  let done (k : Nat) : Bool := decide (k < n) && !f.skips cold b k temp
  { f with
    sram := if done 2 then b.hash else f.sram, trained := if done 3 then temp else f.trained
    linkReset := f.linkReset && !done 4 }

/-- The firmware after a failed start of a slot, cold or warm (R373, R375): the next start is cold, and three failures in a row make the other
slot active. -/
def Firmware.failed (f : Firmware) (tried cold : Bool) : Firmware :=
  let b := f.slot tried
  let g := { f with starts := f.starts + 1, succeeded := false, cold := cold, trial := false }
  if 2 ≤ b.fails then { g.setSlot tried { b with fails := 0, pending := false } with active := !tried }
  else g.setSlot tried { b with fails := b.fails + 1 }

/-- A start in which every step passes (R374); with no slot that may boot it fails at step 2. -/
def State.start (s : State) (cold : Bool) : State :=
  let f := s.fw
  let temp := Config.dieTemp s.fresh
  match f.nextSlot with
  | none => { s.stopped with fw := f.failed f.active cold }
  | some (b, trial) =>
    let x := f.slot b
    let g := (f.steps cold x 7 temp).setSlot b { x with fails := 0 }
    { s.restarted with
      fresh := s.fresh + 1, fw := { g with starts := f.starts + 1, succeeded := true, cold := cold, trial := trial } }

/-- A start is cold: every power-on, and a reset through the management port after a start that did not succeed (R374). -/
def Firmware.isCold (f : Firmware) (powerOn : Bool) : Bool := powerOn || !f.succeeded

/-- COLD_START (R374): a power-on -/
def execColdStart (s : State) : Out3 := .next (s.start true)

/-- WARM_START (R374): a reset through the management port -/
def execWarmStart (s : State) : Out3 := .next (s.start (s.fw.isCold false))

/-- START_FAILURE (R375): a start that fails at one of its steps; a step that it skips does not fail. -/
def execStartFailure (step : Nat) (s : State) : Out3 :=
  let f := s.fw
  let temp := Config.dieTemp s.fresh
  let cold := f.isCold (decide (8 ≤ step))
  let step := if 8 ≤ step then step - 8 else step
  let tried := (f.nextSlot.map (·.1)).getD f.active
  if step < 1 ∨ 6 < step ∨ f.skips cold (f.slot tried) step temp = true then .next s
  else
    let g := (f.steps cold (f.slot tried) step temp).failed tried cold
    .next { (if step ≤ 5 then s.stopped else s.restarted) with fresh := s.fresh + 1, fw := g }

/-- TRIAL_EXPIRY (R372, R375): the trial's start has failed, the other slot is active at once, and a cold start
follows. -/
def execTrialExpiry (s : State) : Out3 :=
  let f := s.fw
  if !f.trial then .next s
  else
    let b := f.slot !f.active
    let f1 := f.setSlot (!f.active) { b with pending := false, fails := b.fails + 1 }
    .next (({ s with fw := { f1 with trial := false, succeeded := false } } : State).start true)

/-- HOST_LINK_RESET (R374 step 4) -/
def execHostLinkReset (s : State) : Out3 := .next { s with fw := { s.fw with linkReset := true } }

/-- The content of attestation evidence (R373): the nonce, the device hash, the running bundle's version and component hashes,
the active slot and the fused minimum, the counters and the kind of the last start; for a world, the hash of its policy body. -/
def State.evidenceBody (s : State) (world : Nat) (nonce : List Byte) : List Byte :=
  let f := s.fw
  let b := f.slot f.running
  nonce ++ leBytes 32 Config.deviceHash.toNat ++ leBytes 4 b.version
    ++ b.parts.flatMap (fun h => leBytes 32 h.toNat)
    ++ leBytes 1 f.active.toNat ++ leBytes 4 f.minver ++ leBytes 8 f.starts ++ leBytes 1 f.cold.toNat
    ++ (match (s.worldAt world).policy with
        | some p => leBytes 32 (sha3 (leBytes 64 p.toNat)).toNat
        | none => [])

/-- ATTESTATION_REQUEST (R373) -/
def execAttestationRequest (world : Nat) (nonce : List Byte) (s : State) : Out3 :=
  let b := s.evidenceBody world nonce
  .next (if s.accepts then { s with fw := { s.fw with evidence := b ++ Config.evidenceSignature b } } else s)

/-! ## Power gating (R292, R293) -/

/-- A core gates an L1 way pair: its lines leave; a pair that holds a pinned line does not gate (R292). -/
def Core.gateWays (c : Core) (i : Nat) : Core :=
  let mine (l : L1Line) : Bool := l.way / 2 == i
  let lines := (c.l1.flatMap (·.2)).filter mine
  if c.gated.contains i || lines.any (·.pin.isSome) then c
  else
    { c with gated := insertRising i c.gated
             l1 := c.l1.keys.foldl (fun m k => SMap.put [] m k ((SMap.look [] m k).filter fun l => !mine l)) c.l1
             notices := c.notices ++ (lines.filter (·.valid)).map fun l => (l.key, false) }

/-- What a bank of a core is used for (R278): none while the core serves no team. -/
inductive BankUse where
  | none_ | named | plane | stash | system
  deriving DecidableEq, Repr

/-- The use of a bank. -/
def State.bankUse (s : State) (core b : Nat) : BankUse :=
  match (s.coreAt core).team with
  | none => .none_
  | some t =>
    let g := (s.namedSize (s.teamAt t).grid + 0x3FFF) / 0x4000
    let p := max 4 g
    if b < g then .named else if p ≤ b ∧ b < p + 4 then .plane else if b ≤ 10 then .stash else .system

/-- Gates a scratchpad bank of a core where R292 lets it: a stash bank's entries are written back. -/
def State.gateBank (s : State) (core b : Nat) : State :=
  let mark (t : State) : State := t.updCore core fun x => { x with gated := insertRising (16 + b) x.gated }
  if (s.coreAt core).gated.contains (16 + b) then s
  else match s.bankUse core b with
    | .none_ => mark s
    | .stash => mark (s.flushStash core fun e => (s.stashBankList core)[e.loc / 256]? == some b)
    | .named => s
    | .plane => s
    | .system => s

/-- A slice gates a way pair: its lines leave it as evicted lines do (R292); not while something is under way for one. -/
def State.gateSlice (s : State) (slice i : Nat) : State :=
  let lines := ((s.sliceAt slice).ways.filter fun x => x.1 % 16 / 2 == i).map fun x => x.2 - 1
  if (s.sliceAt slice).gated.contains i || lines.any fun lk => (s.cohAt lk).busy then s
  else (lines.foldl (fun t lk => t.evictLine slice lk) s).updSlice slice fun d => { d with gated := insertRising i d.gated }

/-- POWER_GATE (R292) -/
def execPowerGate (unit idx : Nat) (s : State) : Out3 :=
  if unit < 512 then
    if idx < 4 then .next (s.updCore unit fun c => c.gateWays idx)
    else if 16 ≤ idx ∧ idx < 32 then .next (s.gateBank unit (idx - 16))
    else .next s
  else if unit < 640 ∧ idx < 8 then .next (s.gateSlice (unit - 512) idx)
  else .next s

/-- UNIT_WAKE (R46, R292, R293): no line, no entry; a bank of a core that serves no team holds zeros. -/
def execUnitWake (unit idx : Nat) (s : State) : Out3 :=
  if unit < 512 then
    let c := s.coreAt unit
    if !c.gated.contains idx then .next s
    else
      let s1 := if 16 ≤ idx ∧ s.bankUse unit (idx - 16) = .none_ then
        s.zeroRange (memKey (.spad unit) (0x4000 * (idx - 16))) 0x4000 else s
      .next (s1.updCore unit fun x => { x with gated := x.gated.filter (· != idx) })
  else if unit < 640 then
    .next (s.updSlice (unit - 512) fun d => { d with gated := d.gated.filter (· != idx) })
  else .next s

/-! ## Clocks (R376) -/

/-- A slot whose timers and windows start again after its clock stood still for `n` cycles. -/
def Slot.shiftTime (sl : Slot) (n : Nat) : Slot :=
  { sl with committed := sl.committed.map (· + n), timer := sl.timer.map (· + n), notBefore := sl.notBefore + n
            readySince := sl.readySince + n }

/-- A core's clock stops. -/
def Core.stopClock (c : Core) (now : Nat) : Core := if c.stopped.isSome then c else { c with stopped := some now }

/-- A core's clock goes on: no cycle since it stopped counts. -/
def Core.goOn (c : Core) (now : Nat) : Core :=
  match c.stopped with
  | none => c
  | some t =>
    { c with stopped := none, lost := c.lost + (now - t)
             slots := c.slots.map fun x => (x.1, if x.2.active then x.2.shiftTime (now - t) else x.2) }

/-- A team's windows start again after its clock stood still for `n` cycles. -/
def TeamSt.shift (t : TeamSt) (n : Nat) : TeamSt :=
  match t with
  | .resident c => .resident (c + n)
  | .leaving c l => .leaving (c + n) l
  | .waiting c => .waiting c
  | .done => .done

/-- A core's clock stops, and with it the windows of its team. -/
def State.stopCore (s : State) (core : Nat) : State :=
  let s1 := s.updCore core fun c => c.stopClock s.now
  match (s.coreAt core).team with
  | some t => s1.updTeam t fun x => { x with frozen := some (x.frozen.getD s.now) }
  | none => s1

/-- A core's clock goes on, and the windows of its team when no core of it stands still any more. -/
def State.goCore (s : State) (core : Nat) : State :=
  let s1 := s.updCore core fun c => c.goOn s.now
  match (s.coreAt core).team with
  | some t =>
    if (s1.teamAt t).coreList.any fun c => (s1.coreAt c).stopped.isSome then s1
    else s1.updTeam t fun x => { x with st := x.st.shift (s.now - x.frozen.getD s.now), frozen := none }
  | none => s1

/-- CLOCK_CHANGE (R376): a change of the clocks changes nothing but the length of a cycle. -/
def execClockChange (scale core : Nat) (s : State) : Out3 :=
  if scale = 0 then .next (if core < 512 then s.stopCore core else s)
  else
    let s1 : State := { s with fw := { s.fw with clock := scale } }
    .next (if core < 512 then s1.goCore core else s1)

end Sys2Proof.Machine
end

