-- ==== Sys2Proof/Machine/Ports.lean ====
section
/-!
DEFINITION. The request ports of the home slices (R320): which requests meet there in one cycle, and which goes first.
What falls into one cycle is the outside's to say (DESIGN CHOICE, log entry 74): the event that it has scheduled next
arrives with the one that happens now.
-/

namespace Sys2Proof.Machine

/-- An event that brings a request to the home of a line. -/
inductive Arrival where
  | store (core slot idx : Nat)
  | sluice (core slot : Nat)
  | value (core slot idx : Nat)
  | grant (line : Nat)
  | host (stream line : Nat) (write : Bool) (bytes : List Byte)
  | peer (path world line : Nat) (write : Bool) (bytes : List Byte)
  deriving DecidableEq, Repr

/-- The arrival that an event is, if it is one. -/
def Arrival.of : Instr → Option Arrival
  | .writeUpdate c k i => some (.store c k i)
  | .sluiceOperationApply c k => some (.sluice c k)
  | .owedValueReturn c k i => some (.value c k i)
  | .grant l => some (.grant l)
  | .hostAccess n l wr bs => some (.host n l wr bs)
  | .peerAccess n w l wr bs => some (.peer n w l wr bs)
  | _ => none

/-- What brings a request to a home: its own die on port A, the other die's proxy or the host on port B. -/
inductive Port where
  | own | towpath | host
  deriving DecidableEq, Repr

/-- Port B. -/
def Port.isB (p : Port) : Bool := p != .own

/-- A request at a home: its line, the home slice and the port. -/
structure Request where
  line : Nat
  home : Nat
  port : Port
  deriving DecidableEq, Repr

/-- The request of a core's access to a place of memory, if it goes to the home: not what the core's L1 or stash serves,
nor what the proxy of its die does (R287, R318, R319). -/
def State.coreRequest (s : State) (core : Nat) (p : Place) (wr : Bool) : Option Request :=
  let lk := lineKey p.key
  let c := s.cohAt lk
  if p.kind ≠ .dev ∨ c.owner = some core ∨ (wr = false ∧ (s.coreAt core).inL1 lk = true) then none
  else if dieOf core = p.home / 64 then some { line := lk, home := p.home, port := .own }
  else if (if wr then c.proxy = .M ∨ c.proxy = .E else c.proxy ≠ .I) then none
  else some { line := lk, home := p.home, port := .towpath }

/-- The request of a queued write that may leave its slot: a revision's view takes its own at once (R270). -/
def State.outRequest (s : State) (key : Nat) (o : Out) : Option Request :=
  if !s.outReady key o || s.refusesOut key o || (s.targetOf (s.who key).rev o.place.la).isSome then none
  else s.coreRequest (key / 4) o.place true

/-- The request of the element that an owed value reads next. -/
def State.owedRequest (s : State) (key : Nat) (o : Owed) : Option Request :=
  if !o.open_ || !s.canPerform key o then none
  else (o.flight.elems ++ o.flight.pins.toList).head?.bind fun e =>
    match s.xlate (s.who key) o.flight.kind false e.va with
    | .ok p => if (s.entryOf (s.who key) p).isSome then none else s.coreRequest (key / 4) p o.flight.kind.writes
    | .error _ => none

/-- The request that an arrival brings. A fabric port counts with the die of its number (DESIGN CHOICE, log entry 74). -/
def State.request (s : State) : Arrival → Option Request
  | .store c k i => (s.slotAt (4 * c + k)).out[i]?.bind fun o => if o.isSluice then none else s.outRequest (4 * c + k) o
  | .sluice c k => (s.slotAt (4 * c + k)).sluiceOut.bind (s.outRequest (4 * c + k))
  | .value c k i => (s.slotAt (4 * c + k)).owed[i]?.bind (s.owedRequest (4 * c + k))
  | .grant l =>
    if (s.cohAt l).free && (s.cohAt l).req.isSome then some { line := l, home := (s.cohAt l).slice, port := .towpath }
    else none
  | .host n l wr _ =>
    if s.accepts && !s.outsideRefused (s.streamWorld n) l wr then
      some { line := l, home := (s.cohAt l).slice, port := .host }
    else none
  | .peer n w l wr _ =>
    let home := (s.cohAt l).slice
    if s.peerHeard n w && !s.outsideRefused w l wr then
      some { line := l, home := home, port := if n % 2 = home / 64 then .own else .towpath }
    else none

/-- What an arrival does when it is served. -/
def State.serve (s : State) : Arrival → State
  | .store c k i => s.storeNow c k i
  | .sluice c k => s.sluiceNow c k
  | .value c k i => s.valueNow c k i
  | .grant l => s.grantNow l
  | .host n l wr bs => s.hostNow n l wr bs
  | .peer n w l wr bs => s.peerNow n w l wr bs

/-- How two requests of one cycle meet (R320): whether the second goes first, and the home whose priority bit inverts.
None where their order is free. -/
def State.meet (s : State) (x y : Request) : Option (Bool × Option Nat) :=
  if x.line = y.line ∧ x.port.isB ≠ y.port.isB then
    let home := if x.port.isB then y.home else x.home
    some (x.port.isB != (s.sliceAt home).prio, some home)
  else if x.port = .host ∧ y.port = .towpath ∧ x.home = y.home then some (true, none)
  else none

/-- How an arrival meets the event that the outside has scheduled next, with that event's arrival. -/
def State.rival (s : State) (a : Arrival) : Option (Arrival × Bool × Option Nat) :=
  (s.script.head?.bind Arrival.of).bind fun b =>
    (s.request a).bind fun x => (s.request b).bind fun y => (s.meet x y).map fun m => (b, m)

/-- Two arrivals have met (R320): the outside's next event is one of them, and a tie inverts the priority bit. -/
def State.met (s : State) (inv : Option Nat) : State :=
  let s1 : State := { s with script := s.script.tail }
  match inv with
  | some home => s1.updSlice home fun d => { d with prio := !d.prio }
  | none => s1

/-- An arrival at its home (R320): it is served, with its rival before or after it; the later one waits where the line
makes it. -/
def State.arrive (s : State) (a : Arrival) : State :=
  match s.rival a with
  | none => s.serve a
  | some (b, second, inv) =>
    if second then ((s.met inv).serve b).serve a else ((s.met inv).serve a).serve b

/-- WRITE_UPDATE (R314) -/
def execWriteUpdate (core slot idx : Nat) (s : State) : Out3 :=
  .next (s.arrive (.store core slot idx))

/-- SLUICE_OPERATION_APPLY (R195) -/
def execSluiceOperationApply (core slot : Nat) (s : State) : Out3 :=
  .next (s.arrive (.sluice core slot))

/-- OWED_VALUE_RETURN (R24) -/
def execOwedValueReturn (core slot idx : Nat) (s : State) : Out3 :=
  .next (s.arrive (.value core slot idx))

/-- GRANT (R321) -/
def execGrant (line : Nat) (s : State) : Out3 := .next (s.arrive (.grant line))

/-- HOST_ACCESS (R311, R323, R340) -/
def execHostAccess (stream line : Nat) (write : Bool) (bytes : List Byte) (s : State) : Out3 :=
  .next (s.arrive (.host stream line write bytes))

/-- PEER_ACCESS (R309, R340) -/
def execPeerAccess (path world line : Nat) (write : Bool) (bytes : List Byte) (s : State) : Out3 :=
  .next (s.arrive (.peer path world line write bytes))

end Sys2Proof.Machine
end

