-- ==== Sys2Proof/Machine/Scalar.lean ====
section
/-!
DEFINITION. Scalar integer, address and move instructions (R107 … R115) and compares to predicates (R116, R117).
-/

namespace Sys2Proof.Machine

/-- An instruction whose effect, under its guard, is a change of the slot's registers (class 0). -/
def regOp (g : Ctl) (s : State) (f : Slot → Slot) : Out3 :=
  .next ((if s.sl.guard g then s.updSl f else s).done g)

/-- As `regOp`, with a stall of the slot after it, whatever the guard (R109). -/
def regOpStall (g : Ctl) (n : Nat) (s : State) (f : Slot → Slot) : Out3 :=
  .next ((if s.sl.guard g then s.updSl f else s).doneStall g n)

/-- The register form of a typed two-operand instruction (R108). -/
def aluReg (g : Ctl) (d a b : XReg) (s : State) (r : Word → Word → Word) : Out3 :=
  regOp g s fun sl => sl.setX d (r (sl.xr a) (sl.xr b))

/-- The immediate form (R108). -/
def aluImm (g : Ctl) (t : IType) (d a : XReg) (i : Imm) (s : State) (r : Word → Word → Word) : Out3 :=
  regOp g s fun sl => sl.setX d (r (sl.xr a) (immSX t i))

/-! ## Results (R108 … R111) -/

/-- `add` -/
def opAdd (t : IType) (a b : Word) : Word := ext t (val t a.toNat + val t b.toNat)
/-- `sub` -/
def opSub (t : IType) (a b : Word) : Word := ext t (val t a.toNat - val t b.toNat)
/-- `mul` -/
def opMul (t : IType) (a b : Word) : Word := ext t (val t a.toNat * val t b.toNat)
/-- `mulh`: the upper half of the exact product, rounded down. -/
def opMulh (t : IType) (a b : Word) : Word := ext t (val t a.toNat * val t b.toNat / 2 ^ t.width)
/-- `and` -/
def opAnd (t : IType) (a b : Word) : Word := ext t ((uval t a.toNat &&& uval t b.toNat : Nat) : Int)
/-- `or` -/
def opOr (t : IType) (a b : Word) : Word := ext t ((uval t a.toNat ||| uval t b.toNat : Nat) : Int)
/-- `xor` -/
def opXor (t : IType) (a b : Word) : Word := ext t ((uval t a.toNat ^^^ uval t b.toNat : Nat) : Int)
/-- `min` -/
def opMin (t : IType) (a b : Word) : Word := ext t (min (val t a.toNat) (val t b.toNat))
/-- `max` -/
def opMax (t : IType) (a b : Word) : Word := ext t (max (val t a.toNat) (val t b.toNat))

/-- `div`: truncating; division by zero gives all ones, the signed overflow wraps (R109). -/
def opDiv (t : IType) (a b : Word) : Word :=
  if val t b.toNat = 0 then ext t (-1) else ext t ((val t a.toNat).tdiv (val t b.toNat))

/-- `rem`: the remainder takes the sign of the dividend; by zero it is the dividend (R109). -/
def opRem (t : IType) (a b : Word) : Word :=
  if val t b.toNat = 0 then ext t (val t a.toNat) else ext t ((val t a.toNat).tmod (val t b.toNat))

/-- The register amount of a shift: the low log2(w) bits (R110). -/
def shAmt (t : IType) (b : Word) : Nat := b.toNat % t.width

/-- `shl` -/
def opShl (t : IType) (a : Word) (n : Nat) : Word := ext t ((uval t a.toNat * 2 ^ n : Nat) : Int)
/-- `shr`, logical -/
def opShr (t : IType) (a : Word) (n : Nat) : Word := ext t ((uval t a.toNat / 2 ^ n : Nat) : Int)
/-- `sar`, arithmetic -/
def opSar (t : IType) (a : Word) (n : Nat) : Word := ext t (signedOf t.width a.toNat / (2 ^ n : Int))

/-- Number of binary digits of a number below `2 ^ w`. -/
def bitLen (w n : Nat) : Nat := ((List.range w).filter fun i => decide (2 ^ i ≤ n)).length

/-- `clz` (R111) -/
def opClz (t : IType) (a : Word) : Word := BitVec.ofNat 64 (t.width - bitLen t.width (uval t a.toNat))
/-- `popc` (R111) -/
def opPopc (t : IType) (a : Word) : Word :=
  BitVec.ofNat 64 ((List.range t.width).filter fun i => uval t a.toNat / 2 ^ i % 2 == 1).length

/-! ## Arithmetic and logic -/

/-- ADD_REG (R108) -/
def execAddReg (g : Ctl) (t : IType) (d a b : XReg) (s : State) : Out3 := aluReg g d a b s (opAdd t)
/-- ADD_IMM (R108) -/
def execAddImm (g : Ctl) (t : IType) (d a : XReg) (i : Imm) (s : State) : Out3 := aluImm g t d a i s (opAdd t)
/-- SUB_REG (R108) -/
def execSubReg (g : Ctl) (t : IType) (d a b : XReg) (s : State) : Out3 := aluReg g d a b s (opSub t)
/-- SUB_IMM (R108) -/
def execSubImm (g : Ctl) (t : IType) (d a : XReg) (i : Imm) (s : State) : Out3 := aluImm g t d a i s (opSub t)
/-- MUL_REG (R108) -/
def execMulReg (g : Ctl) (t : IType) (d a b : XReg) (s : State) : Out3 := aluReg g d a b s (opMul t)
/-- MUL_IMM (R108) -/
def execMulImm (g : Ctl) (t : IType) (d a : XReg) (i : Imm) (s : State) : Out3 := aluImm g t d a i s (opMul t)
/-- MULH_REG (R108) -/
def execMulhReg (g : Ctl) (t : IType) (d a b : XReg) (s : State) : Out3 := aluReg g d a b s (opMulh t)
/-- MULH_IMM (R108) -/
def execMulhImm (g : Ctl) (t : IType) (d a : XReg) (i : Imm) (s : State) : Out3 := aluImm g t d a i s (opMulh t)
/-- AND_REG (R108) -/
def execAndReg (g : Ctl) (t : IType) (d a b : XReg) (s : State) : Out3 := aluReg g d a b s (opAnd t)
/-- AND_IMM (R108) -/
def execAndImm (g : Ctl) (t : IType) (d a : XReg) (i : Imm) (s : State) : Out3 := aluImm g t d a i s (opAnd t)
/-- OR_REG (R108) -/
def execOrReg (g : Ctl) (t : IType) (d a b : XReg) (s : State) : Out3 := aluReg g d a b s (opOr t)
/-- OR_IMM (R108) -/
def execOrImm (g : Ctl) (t : IType) (d a : XReg) (i : Imm) (s : State) : Out3 := aluImm g t d a i s (opOr t)
/-- XOR_REG (R108) -/
def execXorReg (g : Ctl) (t : IType) (d a b : XReg) (s : State) : Out3 := aluReg g d a b s (opXor t)
/-- XOR_IMM (R108) -/
def execXorImm (g : Ctl) (t : IType) (d a : XReg) (i : Imm) (s : State) : Out3 := aluImm g t d a i s (opXor t)
/-- MIN_REG (R108) -/
def execMinReg (g : Ctl) (t : IType) (d a b : XReg) (s : State) : Out3 := aluReg g d a b s (opMin t)
/-- MIN_IMM (R108) -/
def execMinImm (g : Ctl) (t : IType) (d a : XReg) (i : Imm) (s : State) : Out3 := aluImm g t d a i s (opMin t)
/-- MAX_REG (R108) -/
def execMaxReg (g : Ctl) (t : IType) (d a b : XReg) (s : State) : Out3 := aluReg g d a b s (opMax t)
/-- MAX_IMM (R108) -/
def execMaxImm (g : Ctl) (t : IType) (d a : XReg) (i : Imm) (s : State) : Out3 := aluImm g t d a i s (opMax t)

/-- Cycles the slot issues nothing after a division (R109). -/
def divStall (t : IType) : Nat := t.width / 2 + 2

/-- DIV_REG (R109) -/
def execDivReg (g : Ctl) (t : IType) (d a b : XReg) (s : State) : Out3 :=
  regOpStall g (divStall t) s fun sl => sl.setX d (opDiv t (sl.xr a) (sl.xr b))
/-- DIV_IMM (R109) -/
def execDivImm (g : Ctl) (t : IType) (d a : XReg) (i : Imm) (s : State) : Out3 :=
  regOpStall g (divStall t) s fun sl => sl.setX d (opDiv t (sl.xr a) (immSX t i))
/-- REM_REG (R109) -/
def execRemReg (g : Ctl) (t : IType) (d a b : XReg) (s : State) : Out3 :=
  regOpStall g (divStall t) s fun sl => sl.setX d (opRem t (sl.xr a) (sl.xr b))
/-- REM_IMM (R109) -/
def execRemImm (g : Ctl) (t : IType) (d a : XReg) (i : Imm) (s : State) : Out3 :=
  regOpStall g (divStall t) s fun sl => sl.setX d (opRem t (sl.xr a) (immSX t i))

/-- SHL_REG (R110) -/
def execShlReg (g : Ctl) (t : IType) (d a b : XReg) (s : State) : Out3 :=
  aluReg g d a b s fun x y => opShl t x (shAmt t y)
/-- SHL_IMM (R110) -/
def execShlImm (g : Ctl) (t : IType) (d a : XReg) (n : Fin 64) (s : State) : Out3 :=
  regOp g s fun sl => sl.setX d (opShl t (sl.xr a) n.val)
/-- SHR_REG (R110) -/
def execShrReg (g : Ctl) (t : IType) (d a b : XReg) (s : State) : Out3 :=
  aluReg g d a b s fun x y => opShr t x (shAmt t y)
/-- SHR_IMM (R110) -/
def execShrImm (g : Ctl) (t : IType) (d a : XReg) (n : Fin 64) (s : State) : Out3 :=
  regOp g s fun sl => sl.setX d (opShr t (sl.xr a) n.val)
/-- SAR_REG (R110) -/
def execSarReg (g : Ctl) (t : IType) (d a b : XReg) (s : State) : Out3 :=
  aluReg g d a b s fun x y => opSar t x (shAmt t y)
/-- SAR_IMM (R110) -/
def execSarImm (g : Ctl) (t : IType) (d a : XReg) (n : Fin 64) (s : State) : Out3 :=
  regOp g s fun sl => sl.setX d (opSar t (sl.xr a) n.val)

/-! ## Selects, constants, counts and moves -/

/-- SEL (R112) -/
def execSel (g : Ctl) (d a b : XReg) (p : PSel) (s : State) : Out3 :=
  regOp g s fun sl => sl.setX d (if sl.selBit p 0 then sl.xr a else sl.xr b)

/-- MOV_X_X (R114) -/
def execMovXX (g : Ctl) (d a : XReg) (s : State) : Out3 := regOp g s fun sl => sl.setX d (sl.xr a)

/-- LI (R113) -/
def execLi (g : Ctl) (f : LiForm) (d : XReg) (i : Imm) (s : State) : Out3 :=
  regOp g s fun sl => sl.setX d <|
    match f with
    | .sext => BitVec.ofInt 64 (signedOf 32 i.toNat)
    | .zext => BitVec.ofNat 64 i.toNat
    | .upper a => BitVec.ofNat 64 (i.toNat * 2 ^ 32 + (sl.xr a).toNat % 2 ^ 32)

/-- CLZ (R111) -/
def execClz (g : Ctl) (t : IType) (d a : XReg) (s : State) : Out3 :=
  regOp g s fun sl => sl.setX d (opClz t (sl.xr a))

/-- POPC (R111) -/
def execPopc (g : Ctl) (t : IType) (d a : XReg) (s : State) : Out3 :=
  regOp g s fun sl => sl.setX d (opPopc t (sl.xr a))

/-- MOV_X_FROM_LANE (R114) -/
def execMovXFromLane (g : Ctl) (t : IType) (d : XReg) (a : VReg) (ln : Fin 64) (s : State) : Out3 :=
  regOp g s fun sl => sl.setX d (ext t ((lane t.width ln.val (sl.vr a) : Nat) : Int))

/-- MOV_LANE_FROM_X (R114) -/
def execMovLaneFromX (g : Ctl) (t : IType) (d : VReg) (a : XReg) (ln : Fin 64) (s : State) : Out3 :=
  regOp g s fun sl => sl.setV d (setLane t.width ln.val (uval t (sl.xr a).toNat) (sl.vr d))

/-- MOV_BROADCAST (R114) -/
def execMovBroadcast (g : Ctl) (t : IType) (d : VReg) (a : XReg) (s : State) : Out3 :=
  regOp g s fun sl => sl.setV d (lanes t.width (512 / t.width) fun _ => uval t (sl.xr a).toNat)

/-- MOV_X_FROM_P (R114) -/
def execMovXFromP (g : Ctl) (d : XReg) (a : PReg) (s : State) : Out3 :=
  regOp g s fun sl => sl.setX d ((sl.pr a).setWidth 64)

/-- MOV_P_FROM_X (R114) -/
def execMovPFromX (g : Ctl) (d : PReg) (a : XReg) (s : State) : Out3 :=
  regOp g s fun sl => sl.setP d ((sl.xr a).setWidth 16)

/-- MOV_V_V (R114) -/
def execMovVV (g : Ctl) (d a : VReg) (s : State) : Out3 := regOp g s fun sl => sl.setV d (sl.vr a)

/-- MOV_P_P (R114) -/
def execMovPP (g : Ctl) (d a : PReg) (s : State) : Out3 := regOp g s fun sl => sl.setP d (sl.pr a)

/-! ## Compare to predicate (R116, R117) -/

/-- SETP_COMPARE (R116) -/
def execSetpCompare (g : Ctl) (t : IType) (k : ICond) (d : PReg) (a b : XReg) (s : State) : Out3 :=
  regOp g s fun sl => sl.setP d (allBits (iHolds k (val t (sl.xr a).toNat) (val t (sl.xr b).toNat)))

/-- SETP_COMPARE_IMM (R116) -/
def execSetpCompareImm (g : Ctl) (t : IType) (k : ICond) (d : PReg) (a : XReg) (i : Imm) (s : State) : Out3 :=
  regOp g s fun sl => sl.setP d (allBits (iHolds k (val t (sl.xr a).toNat) (val t (immSX t i).toNat)))

/-- SETP_LOGIC (R117) -/
def execSetpLogic (g : Ctl) (k : PLogic) (d a b : PReg) (s : State) : Out3 :=
  regOp g s fun sl => sl.setP d (pApply k (sl.pr a) (sl.pr b))

/-- SETP_BIT_TEST (R116): `.none` is eq, `.any` is ne. -/
def execSetpBitTest (g : Ctl) (k : EqCond) (d : PReg) (a : XReg) (m : Imm) (s : State) : Out3 :=
  regOp g s fun sl => sl.setP d (allBits (eqHolds k ((sl.xr a).setWidth 32 &&& m == 0)))

/-- SETP_CAP_EQUAL (R116) -/
def execSetpCapEqual (g : Ctl) (k : EqCond) (d : PReg) (a b : CReg) (s : State) : Out3 :=
  regOp g s fun sl => sl.setP d (allBits (eqHolds k (sl.cr a == sl.cr b)))

end Sys2Proof.Machine
end

