-- ==== Sys2Proof/Machine/Vector.lean ====
section
/-!
DEFINITION. Vector instructions (R151 … R168). Every result is class 0.
-/

namespace Sys2Proof.Machine

/-- The lane-wise outline of R151 and R152: `res i` is the value and the flags of element `i`; with every guard false
nothing is written. -/
def Slot.lanewise (sl : Slot) (g : Ctl) (w : Nat) (d : VReg) (res : Nat → Nat × Nat) : Slot :=
  let n := 512 / w
  let on := (List.range n).filter (sl.laneGuard g w)
  if on = [] then sl
  else (sl.setV d (lanes w n fun i => if sl.laneGuard g w i then (res i).1 else lane w i (sl.vr d))).orFlags
         (on.foldl (fun f i => f ||| (res i).2) 0)

/-- A vector instruction whose effect is a change of the slot's registers, which its lane guards decide. -/
def vecOp (g : Ctl) (s : State) (f : Slot → Slot) : Out3 := .next ((s.updSl f).done g)

/-- As `vecOp`, and the slot stalls (R153). -/
def vecOpStall (g : Ctl) (n : Nat) (s : State) (f : Slot → Slot) : Out3 := .next ((s.updSl f).doneStall g n)

/-- The vv form of R151. -/
def bvv (w : Nat) (b : VReg) (sl : Slot) (i : Nat) : Nat := lane w i (sl.vr b)
/-- The vx form. -/
def bvx (w : Nat) (b : XReg) (sl : Slot) (_ : Nat) : Nat := (sl.xr b).toNat % 2 ^ w
/-- The vi form. -/
def bvi (t : IType) (i : Imm) (_ : Slot) (_ : Nat) : Nat := (immSX t i).toNat % 2 ^ t.width

/-- A lane-wise integer instruction of two operands (R154). -/
def vInt (g : Ctl) (t : IType) (d a : VReg) (b : Slot → Nat → Nat) (s : State) (f : Int → Int → Int) : Out3 :=
  vecOp g s fun sl => sl.lanewise g t.width d fun i =>
    ((ext t (f (val t (lane t.width i (sl.vr a))) (val t (b sl i)))).toNat % 2 ^ t.width, 0)

/-- A lane-wise float instruction of two operands (R155, R157). -/
def vFlt (g : Ctl) (t : FType) (d a : VReg) (b : Slot → Nat → Nat) (s : State)
    (f : Slot → Nat → Nat → Nat × Nat) : Out3 :=
  vecOp g s fun sl => sl.lanewise g t.width d fun i => f sl (lane t.width i (sl.vr a)) (b sl i)

/-- The effect of `vfma` (R156). -/
def vFma (g : Ctl) (t : FType) (d a : VReg) (b : Slot → Nat → Nat) (r : RSel) (s : State) : Out3 :=
  vecOp g s fun sl => sl.lanewise g t.width d fun i =>
    (fpOf t).fma (sl.rmode r) (lane t.width i (sl.vr a)) (b sl i) (lane t.width i (sl.vr d))

/-- VADD_INT_VV (R154) -/
def execVaddIntVv (g : Ctl) (t : IType) (d a b : VReg) (s : State) : Out3 :=
  vInt g t d a (bvv t.width b) s (· + ·)
/-- VADD_INT_VX (R154) -/
def execVaddIntVx (g : Ctl) (t : IType) (d a : VReg) (b : XReg) (s : State) : Out3 :=
  vInt g t d a (bvx t.width b) s (· + ·)
/-- VADD_INT_VI (R154) -/
def execVaddIntVi (g : Ctl) (t : IType) (d a : VReg) (i : Imm) (s : State) : Out3 :=
  vInt g t d a (bvi t i) s (· + ·)
/-- VSUB_INT_VV (R154) -/
def execVsubIntVv (g : Ctl) (t : IType) (d a b : VReg) (s : State) : Out3 :=
  vInt g t d a (bvv t.width b) s (· - ·)
/-- VSUB_INT_VX (R154) -/
def execVsubIntVx (g : Ctl) (t : IType) (d a : VReg) (b : XReg) (s : State) : Out3 :=
  vInt g t d a (bvx t.width b) s (· - ·)
/-- VSUB_INT_VI (R154) -/
def execVsubIntVi (g : Ctl) (t : IType) (d a : VReg) (i : Imm) (s : State) : Out3 :=
  vInt g t d a (bvi t i) s (· - ·)
/-- VMUL_INT_VV (R154) -/
def execVmulIntVv (g : Ctl) (t : IType) (d a b : VReg) (s : State) : Out3 :=
  vInt g t d a (bvv t.width b) s (· * ·)
/-- VMUL_INT_VX (R154) -/
def execVmulIntVx (g : Ctl) (t : IType) (d a : VReg) (b : XReg) (s : State) : Out3 :=
  vInt g t d a (bvx t.width b) s (· * ·)
/-- VMUL_INT_VI (R154) -/
def execVmulIntVi (g : Ctl) (t : IType) (d a : VReg) (i : Imm) (s : State) : Out3 :=
  vInt g t d a (bvi t i) s (· * ·)
/-- VMIN_INT_VV (R154) -/
def execVminIntVv (g : Ctl) (t : IType) (d a b : VReg) (s : State) : Out3 :=
  vInt g t d a (bvv t.width b) s min
/-- VMIN_INT_VX (R154) -/
def execVminIntVx (g : Ctl) (t : IType) (d a : VReg) (b : XReg) (s : State) : Out3 :=
  vInt g t d a (bvx t.width b) s min
/-- VMIN_INT_VI (R154) -/
def execVminIntVi (g : Ctl) (t : IType) (d a : VReg) (i : Imm) (s : State) : Out3 :=
  vInt g t d a (bvi t i) s min
/-- VMAX_INT_VV (R154) -/
def execVmaxIntVv (g : Ctl) (t : IType) (d a b : VReg) (s : State) : Out3 :=
  vInt g t d a (bvv t.width b) s max
/-- VMAX_INT_VX (R154) -/
def execVmaxIntVx (g : Ctl) (t : IType) (d a : VReg) (b : XReg) (s : State) : Out3 :=
  vInt g t d a (bvx t.width b) s max
/-- VMAX_INT_VI (R154) -/
def execVmaxIntVi (g : Ctl) (t : IType) (d a : VReg) (i : Imm) (s : State) : Out3 :=
  vInt g t d a (bvi t i) s max

/-- VADD_FLOAT_VV (R155) -/
def execVaddFloatVv (g : Ctl) (t : FType) (d a b : VReg) (r : RSel) (s : State) : Out3 :=
  vFlt g t d a (bvv t.width b) s fun sl => (fpOf t).add (sl.rmode r)
/-- VADD_FLOAT_VX (R155) -/
def execVaddFloatVx (g : Ctl) (t : FType) (d a : VReg) (b : XReg) (r : RSel) (s : State) : Out3 :=
  vFlt g t d a (bvx t.width b) s fun sl => (fpOf t).add (sl.rmode r)
/-- VSUB_FLOAT_VV (R155) -/
def execVsubFloatVv (g : Ctl) (t : FType) (d a b : VReg) (r : RSel) (s : State) : Out3 :=
  vFlt g t d a (bvv t.width b) s fun sl => (fpOf t).sub (sl.rmode r)
/-- VSUB_FLOAT_VX (R155) -/
def execVsubFloatVx (g : Ctl) (t : FType) (d a : VReg) (b : XReg) (r : RSel) (s : State) : Out3 :=
  vFlt g t d a (bvx t.width b) s fun sl => (fpOf t).sub (sl.rmode r)
/-- VMUL_FLOAT_VV (R155) -/
def execVmulFloatVv (g : Ctl) (t : FType) (d a b : VReg) (r : RSel) (s : State) : Out3 :=
  vFlt g t d a (bvv t.width b) s fun sl => (fpOf t).mul (sl.rmode r)
/-- VMUL_FLOAT_VX (R155) -/
def execVmulFloatVx (g : Ctl) (t : FType) (d a : VReg) (b : XReg) (r : RSel) (s : State) : Out3 :=
  vFlt g t d a (bvx t.width b) s fun sl => (fpOf t).mul (sl.rmode r)
/-- VMIN_FLOAT_VV (R157) -/
def execVminFloatVv (g : Ctl) (t : FType) (d a b : VReg) (s : State) : Out3 :=
  vFlt g t d a (bvv t.width b) s fun _ => (fpOf t).pick false
/-- VMIN_FLOAT_VX (R157) -/
def execVminFloatVx (g : Ctl) (t : FType) (d a : VReg) (b : XReg) (s : State) : Out3 :=
  vFlt g t d a (bvx t.width b) s fun _ => (fpOf t).pick false
/-- VMAX_FLOAT_VV (R157) -/
def execVmaxFloatVv (g : Ctl) (t : FType) (d a b : VReg) (s : State) : Out3 :=
  vFlt g t d a (bvv t.width b) s fun _ => (fpOf t).pick true
/-- VMAX_FLOAT_VX (R157) -/
def execVmaxFloatVx (g : Ctl) (t : FType) (d a : VReg) (b : XReg) (s : State) : Out3 :=
  vFlt g t d a (bvx t.width b) s fun _ => (fpOf t).pick true
/-- VFMA_VV (R156) -/
def execVfmaVv (g : Ctl) (t : FType) (d a b : VReg) (r : RSel) (s : State) : Out3 :=
  vFma g t d a (bvv t.width b) r s
/-- VFMA_VX (R156) -/
def execVfmaVx (g : Ctl) (t : FType) (d a : VReg) (b : XReg) (r : RSel) (s : State) : Out3 :=
  vFma g t d a (bvx t.width b) r s

/-- VABS_INT (R154) -/
def execVabsInt (g : Ctl) (t : IType) (d a : VReg) (s : State) : Out3 :=
  vInt g t d a (fun _ _ => 0) s fun x _ => (x.natAbs : Int)
/-- VNEG_INT (R154) -/
def execVnegInt (g : Ctl) (t : IType) (d a : VReg) (s : State) : Out3 := vInt g t d a (fun _ _ => 0) s fun x _ => -x
/-- VABS_FLOAT (R158) -/
def execVabsFloat (g : Ctl) (t : FType) (d a : VReg) (s : State) : Out3 :=
  vFlt g t d a (fun _ _ => 0) s fun _ x _ => (fpOf t).abs x
/-- VNEG_FLOAT (R158) -/
def execVnegFloat (g : Ctl) (t : FType) (d a : VReg) (s : State) : Out3 :=
  vFlt g t d a (fun _ _ => 0) s fun _ x _ => (fpOf t).neg x

/-! ## Conversion (R159 … R161) -/

/-- The effect of `vcvt` on the slot (R160). -/
def Slot.vcvt (sl : Slot) (g : Ctl) (td ts : EType) (d a : VReg) (r : RMode) : Slot :=
  let wd := eWidth td
  let ws := eWidth ts
  let wm := max ws wd
  let n := 512 / wm
  let on := (List.range n).filter (sl.laneGuard g wm)
  let res (i : Nat) : Nat × Nat := convert r td ts (lane ws i (sl.vr a))
  if on = [] then sl
  else (sl.setV d (lanes wd n fun i => if sl.laneGuard g wm i then (res i).1 else lane wd i (sl.vr d))).orFlags
         (on.foldl (fun f i => f ||| (res i).2) 0)

/-- VCVT (R159 … R161) -/
def execVcvt (g : Ctl) (td ts : EType) (d a : VReg) (r : RSel) (s : State) : Out3 :=
  vecOp g s fun sl => sl.vcvt g td ts d a (sl.rmode r)

/-! ## Reductions (R162) -/

/-- Combines two slots of the tree; an absent one passes its partner up unchanged. -/
def redComb (op : Nat → Nat → Nat × Nat) (a b : Option Nat × Nat) : Option Nat × Nat :=
  match a.1, b.1 with
  | none, _ => (b.1, a.2 ||| b.2)
  | _, none => (a.1, a.2 ||| b.2)
  | some x, some y => (some (op x y).1, a.2 ||| b.2 ||| (op x y).2)

/-- One level of the tree. -/
def redLevel (op : Nat → Nat → Nat × Nat) : List (Option Nat × Nat) → List (Option Nat × Nat)
  | a :: b :: t => redComb op a b :: redLevel op t
  | l => l

/-- The tree over 2^k slots. -/
def redTree (op : Nat → Nat → Nat × Nat) : Nat → List (Option Nat × Nat) → List (Option Nat × Nat)
  | 0, l => l
  | k + 1, l => redTree op k (redLevel op l)

/-- log2 of the number of elements of width `w`. -/
def logLanes (w : Nat) : Nat := Nat.log2 (512 / w)

/-- The effect of `vred` on the slot. A lone guarded element passes up unchanged (R162), a NaN too, which R52 does not
exempt: no combination makes it canonical or raises NV (DESIGN CHOICE, log entry 91). -/
def Slot.vred (sl : Slot) (g : Ctl) (w : Nat) (d a : VReg) (op : Nat → Nat → Nat × Nat) : Slot :=
  let leaves := (List.range (512 / w)).map fun i =>
    ((if sl.laneGuard g w i then some (lane w i (sl.vr a)) else none), 0)
  match redTree op (logLanes w) leaves with
  | (some x, f) :: _ => (sl.setV d (BitVec.ofNat 512 (x % 2 ^ w))).orFlags f
  | _ => sl

/-- An operation of the integer form. -/
def redInt (t : IType) (k : RedKind) (a b : Nat) : Nat × Nat :=
  let r (z : Int) : Nat × Nat := ((ext t z).toNat % 2 ^ t.width, 0)
  match k with
  | .sum => r (val t a + val t b)
  | .min => r (min (val t a) (val t b))
  | .max => r (max (val t a) (val t b))

/-- An operation of the float form. -/
def redFlt (t : FType) (k : RedKind) (r : RMode) (a b : Nat) : Nat × Nat :=
  match k with
  | .sum => (fpOf t).add r a b
  | .min => (fpOf t).pick false a b
  | .max => (fpOf t).pick true a b

/-- VRED_INT (R162) -/
def execVredInt (g : Ctl) (t : IType) (k : RedKind) (d a : VReg) (s : State) : Out3 :=
  vecOpStall g (logLanes t.width) s fun sl => sl.vred g t.width d a (redInt t k)

/-- VRED_FLOAT (R162) -/
def execVredFloat (g : Ctl) (t : FType) (k : RedKind) (d a : VReg) (r : RSel) (s : State) : Out3 :=
  vecOpStall g (logLanes t.width) s fun sl => sl.vred g t.width d a (redFlt t k (sl.rmode r))

/-! ## Permutes and selects -/

/-- VPERM_REGISTER (R163) -/
def execVpermRegister (g : Ctl) (t : VType) (d a b : VReg) (s : State) : Out3 :=
  vecOp g s fun sl => sl.lanewise g t.width d fun i =>
    (lane t.width (lane t.width i (sl.vr b) % (512 / t.width)) (sl.vr a), 0)

/-- The patterns of R164: the source element of element `i`, or none for a zero. -/
def permIndex (kind m n i : Nat) : Option Nat :=
  match kind with
  | 0 => some ((i + m) % n)
  | 1 => some m
  | 2 => some (i ^^^ m)
  | 3 => if i + m < n then some (i + m) else none
  | _ => if m ≤ i then some (i - m) else none

/-- VPERM_IMMEDIATE (R164) -/
def execVpermImmediate (g : Ctl) (t : VType) (d a : VReg) (i : Imm) (s : State) : Out3 :=
  vecOp g s fun sl => sl.lanewise g t.width d fun j =>
    ((match permIndex (bitsOf i.toNat 0 4) (bitsOf i.toNat 8 8) (512 / t.width) j with
      | some k => lane t.width k (sl.vr a)
      | none => 0), 0)

/-- VSEL (R165) -/
def execVsel (g : Ctl) (t : VType) (d a b : VReg) (p : PSel) (s : State) : Out3 :=
  vecOp g s fun sl => sl.lanewise g t.width d fun i =>
    ((if sl.selBit p (i * t.width / 32) then lane t.width i (sl.vr a) else lane t.width i (sl.vr b)), 0)

/-! ## Compares (R166, R167) -/

/-- The elements that bit `j` of a predicate governs (R11). -/
def governs (w j : Nat) : List Nat :=
  if w = 64 then [j / 2] else (List.range (32 / w)).map fun i => j * (32 / w) + i

/-- The guard of bit `j`: for 64-bit elements that of the element's even bit. -/
def Slot.cmpGuard (sl : Slot) (g : Ctl) (w j : Nat) : Bool := sl.bitGuard g (if w = 64 then j / 2 * 2 else j)

/-- The effect of `vsetp` on the slot: `c i` is the truth and the flags of element `i`. -/
def Slot.vsetp (sl : Slot) (g : Ctl) (w : Nat) (d : PReg) (c : Nat → Bool × Nat) : Slot :=
  let on := (List.range (512 / w)).filter (sl.laneGuard g w)
  (sl.setP d (predOf fun j =>
      if sl.cmpGuard g w j then (governs w j).all fun i => (c i).1 else pbit (sl.pr d) j)).orFlags
    (on.foldl (fun f i => f ||| (c i).2) 0)

/-- Integer `vsetp`. -/
def vsetpI (g : Ctl) (t : IType) (k : ICond) (d : PReg) (a : VReg) (b : Slot → Nat → Nat) (s : State) : Out3 :=
  vecOp g s fun sl => sl.vsetp g t.width d fun i =>
    (iHolds k (val t (lane t.width i (sl.vr a))) (val t (b sl i)), 0)

/-- Float `vsetp`. -/
def vsetpF (g : Ctl) (t : FType) (k : FCond) (d : PReg) (a : VReg) (b : Slot → Nat → Nat) (s : State) : Out3 :=
  vecOp g s fun sl => sl.vsetp g t.width d fun i =>
    fHolds k ((fpOf t).value (lane t.width i (sl.vr a))) ((fpOf t).value (b sl i))

/-- VSETP_INT_VV (R166) -/
def execVsetpIntVv (g : Ctl) (t : IType) (k : ICond) (d : PReg) (a b : VReg) (s : State) : Out3 :=
  vsetpI g t k d a (bvv t.width b) s
/-- VSETP_INT_VX (R166) -/
def execVsetpIntVx (g : Ctl) (t : IType) (k : ICond) (d : PReg) (a : VReg) (b : XReg) (s : State) : Out3 :=
  vsetpI g t k d a (bvx t.width b) s
/-- VSETP_FLOAT_VV (R166) -/
def execVsetpFloatVv (g : Ctl) (t : FType) (k : FCond) (d : PReg) (a b : VReg) (s : State) : Out3 :=
  vsetpF g t k d a (bvv t.width b) s
/-- VSETP_FLOAT_VX (R166) -/
def execVsetpFloatVx (g : Ctl) (t : FType) (k : FCond) (d : PReg) (a : VReg) (b : XReg) (s : State) : Out3 :=
  vsetpF g t k d a (bvx t.width b) s

/-- The index of the best of a list of indices: a later one wins only when it is strictly better. -/
def bestIndex (better : Nat → Nat → Bool) : List Nat → Option Nat
  | [] => none
  | i :: t => some (t.foldl (fun b j => if better j b then j else b) i)

/-- The effect of `vargmax` on the slot. -/
def Slot.vargmax (sl : Slot) (g : Ctl) (w : Nat) (d : XReg) (better : Nat → Nat → Bool) (flags : Nat → Nat) : Slot :=
  let on := (List.range (512 / w)).filter (sl.laneGuard g w)
  (sl.setX d (match bestIndex better on with
    | some i => BitVec.ofNat 64 i
    | none => BitVec.ofNat 64 (2 ^ 64 - 1))).orFlags (on.foldl (fun f i => f ||| flags i) 0)

/-- VARGMAX_INT (R167) -/
def execVargmaxInt (g : Ctl) (t : IType) (d : XReg) (a : VReg) (s : State) : Out3 :=
  vecOpStall g (logLanes t.width) s fun sl =>
    let e (i : Nat) : Int := val t (lane t.width i (sl.vr a))
    sl.vargmax g t.width d (fun j b => decide (e b < e j)) fun _ => 0

/-- VARGMAX_FLOAT (R167): a NaN ranks above every number. -/
def execVargmaxFloat (g : Ctl) (t : FType) (d : XReg) (a : VReg) (s : State) : Out3 :=
  vecOpStall g (logLanes t.width) s fun sl =>
    let e (i : Nat) : FVal := (fpOf t).value (lane t.width i (sl.vr a))
    sl.vargmax g t.width d (fun j b => !fvIsNan (e b) && (fvIsNan (e j) || fvLt (e b) (e j)))
      fun i => if fvIsNan (e i) then flagNV else 0

/-! ## Counter-based random numbers (R168) -/

/-- The 64-bit chunk `j` of a key and a counter. -/
def rngWord (key ctr : Nat) (j : Nat) : Nat :=
  let h0 := ((ctr * 8 + j) % 2 ^ 64) ^^^ key
  let h1 := (h0 ^^^ (h0 / 2 ^ 31)) * 0xD6E8FEB86659FD93 % 2 ^ 64
  let h2 := (h1 ^^^ (h1 / 2 ^ 29)) * 0xA3B195E65C27C0B5 % 2 ^ 64
  let h3 := (h2 + key) % 2 ^ 64
  let h4 := (h3 ^^^ (h3 / 2 ^ 32)) * 0x8CB92BA72F3D8DD7 % 2 ^ 64
  h4 ^^^ (h4 / 2 ^ 29)

/-- The element a raw element becomes. -/
def rngElem (t : VType) (u : Nat) : Nat :=
  match t with
  | .int _ => u
  | .flt .f32 => (fpF32.deliver .rne (.fin false (u / 2 ^ 8) (-24))).1
  | .flt .bf16 => (fpBf16.deliver .rne (.fin false (u / 2 ^ 8) (-8))).1
  | .flt .f16 => (fpF16.deliver .rne (.fin false (u / 2 ^ 5) (-11))).1

/-- VRNG (R168) -/
def execVrng (g : Ctl) (t : VType) (d : VReg) (a b : XReg) (s : State) : Out3 :=
  vecOp g s fun sl =>
    let raw := lanes 64 8 (rngWord (sl.xr a).toNat (sl.xr b).toNat)
    sl.lanewise g t.width d fun i => (rngElem t (lane t.width i raw), 0)

end Sys2Proof.Machine
end

