-- ==== Sys2Proof/Machine/Dispatch.lean ====
section
/-!
DEFINITION. The dispatch: one arm for each instruction and event, each one direct call of its meaning.
-/

namespace Sys2Proof.Machine

/-- What an instruction or event does in a state. -/
def exec (i : Instr) (s : State) : Host.Outcome State Fault Refusal :=
  match i with
  | .addReg g t d a b => Sys2Proof.Machine.execAddReg g t d a b s
  | .addImm g t d a imm => Sys2Proof.Machine.execAddImm g t d a imm s
  | .subReg g t d a b => Sys2Proof.Machine.execSubReg g t d a b s
  | .subImm g t d a imm => Sys2Proof.Machine.execSubImm g t d a imm s
  | .mulReg g t d a b => Sys2Proof.Machine.execMulReg g t d a b s
  | .mulImm g t d a imm => Sys2Proof.Machine.execMulImm g t d a imm s
  | .mulhReg g t d a b => Sys2Proof.Machine.execMulhReg g t d a b s
  | .mulhImm g t d a imm => Sys2Proof.Machine.execMulhImm g t d a imm s
  | .divReg g t d a b => Sys2Proof.Machine.execDivReg g t d a b s
  | .divImm g t d a imm => Sys2Proof.Machine.execDivImm g t d a imm s
  | .remReg g t d a b => Sys2Proof.Machine.execRemReg g t d a b s
  | .remImm g t d a imm => Sys2Proof.Machine.execRemImm g t d a imm s
  | .andReg g t d a b => Sys2Proof.Machine.execAndReg g t d a b s
  | .andImm g t d a imm => Sys2Proof.Machine.execAndImm g t d a imm s
  | .orReg g t d a b => Sys2Proof.Machine.execOrReg g t d a b s
  | .orImm g t d a imm => Sys2Proof.Machine.execOrImm g t d a imm s
  | .xorReg g t d a b => Sys2Proof.Machine.execXorReg g t d a b s
  | .xorImm g t d a imm => Sys2Proof.Machine.execXorImm g t d a imm s
  | .shlReg g t d a b => Sys2Proof.Machine.execShlReg g t d a b s
  | .shlImm g t d a n => Sys2Proof.Machine.execShlImm g t d a n s
  | .shrReg g t d a b => Sys2Proof.Machine.execShrReg g t d a b s
  | .shrImm g t d a n => Sys2Proof.Machine.execShrImm g t d a n s
  | .sarReg g t d a b => Sys2Proof.Machine.execSarReg g t d a b s
  | .sarImm g t d a n => Sys2Proof.Machine.execSarImm g t d a n s
  | .minReg g t d a b => Sys2Proof.Machine.execMinReg g t d a b s
  | .minImm g t d a imm => Sys2Proof.Machine.execMinImm g t d a imm s
  | .maxReg g t d a b => Sys2Proof.Machine.execMaxReg g t d a b s
  | .maxImm g t d a imm => Sys2Proof.Machine.execMaxImm g t d a imm s
  | .sel g d a b p => Sys2Proof.Machine.execSel g d a b p s
  | .movXX g d a => Sys2Proof.Machine.execMovXX g d a s
  | .li g f d imm => Sys2Proof.Machine.execLi g f d imm s
  | .clz g t d a => Sys2Proof.Machine.execClz g t d a s
  | .popc g t d a => Sys2Proof.Machine.execPopc g t d a s
  | .movXFromLane g t d a lane => Sys2Proof.Machine.execMovXFromLane g t d a lane s
  | .movLaneFromX g t d a lane => Sys2Proof.Machine.execMovLaneFromX g t d a lane s
  | .movBroadcast g t d a => Sys2Proof.Machine.execMovBroadcast g t d a s
  | .movXFromP g d a => Sys2Proof.Machine.execMovXFromP g d a s
  | .movPFromX g d a => Sys2Proof.Machine.execMovPFromX g d a s
  | .movVV g d a => Sys2Proof.Machine.execMovVV g d a s
  | .movPP g d a => Sys2Proof.Machine.execMovPP g d a s
  | .setpCompare g t k d a b => Sys2Proof.Machine.execSetpCompare g t k d a b s
  | .setpCompareImm g t k d a imm => Sys2Proof.Machine.execSetpCompareImm g t k d a imm s
  | .setpLogic g k d a b => Sys2Proof.Machine.execSetpLogic g k d a b s
  | .setpBitTest g k d a mask => Sys2Proof.Machine.execSetpBitTest g k d a mask s
  | .setpCapEqual g k d a b => Sys2Proof.Machine.execSetpCapEqual g k d a b s
  | .br g off => Sys2Proof.Machine.execBr g off s
  | .brOnRegister g onZero a off => Sys2Proof.Machine.execBrOnRegister g onZero a off s
  | .bx g a => Sys2Proof.Machine.execBx g a s
  | .call g d off => Sys2Proof.Machine.execCall g d off s
  | .callIndirect g d a => Sys2Proof.Machine.execCallIndirect g d a s
  | .callh g d a => Sys2Proof.Machine.execCallh g d a s
  | .ret g a => Sys2Proof.Machine.execRet g a s
  | .loopRegister g a dist => Sys2Proof.Machine.execLoopRegister g a dist s
  | .loopImmediate g count dist => Sys2Proof.Machine.execLoopImmediate g count dist s
  | .csliceRegister g d a b => Sys2Proof.Machine.execCsliceRegister g d a b s
  | .csliceImmediate g d a b n => Sys2Proof.Machine.execCsliceImmediate g d a b n s
  | .cstepRegister g d a b k => Sys2Proof.Machine.execCstepRegister g d a b k s
  | .cstepImmediate g d a k f => Sys2Proof.Machine.execCstepImmediate g d a k f s
  | .ctrans g d a pi => Sys2Proof.Machine.execCtrans g d a pi s
  | .cfixRegister g d a b k => Sys2Proof.Machine.execCfixRegister g d a b k s
  | .cfixImmediate g d a k o => Sys2Proof.Machine.execCfixImmediate g d a k o s
  | .cperm g d a imm => Sys2Proof.Machine.execCperm g d a imm s
  | .cseal g d a b t => Sys2Proof.Machine.execCseal g d a b t s
  | .cunseal g d a b t => Sys2Proof.Machine.execCunseal g d a b t s
  | .cgetX g d a fld => Sys2Proof.Machine.execCgetX g d a fld s
  | .cgetP g d a fld => Sys2Proof.Machine.execCgetP g d a fld s
  | .cmov g d a => Sys2Proof.Machine.execCmov g d a s
  | .cld g d m => Sys2Proof.Machine.execCld g d m s
  | .cst g d m => Sys2Proof.Machine.execCst g d m s
  | .ld g t d m => Sys2Proof.Machine.execLd g t d m s
  | .st g t d m => Sys2Proof.Machine.execSt g t d m s
  | .ldAcq g t d m sc => Sys2Proof.Machine.execLdAcq g t d m sc s
  | .stRel g t d m sc => Sys2Proof.Machine.execStRel g t d m sc s
  | .vld g t d m => Sys2Proof.Machine.execVld g t d m s
  | .vst g t d m => Sys2Proof.Machine.execVst g t d m s
  | .vgth g t d a b => Sys2Proof.Machine.execVgth g t d a b s
  | .vsct g t d a b => Sys2Proof.Machine.execVsct g t d a b s
  | .amo g t k d m => Sys2Proof.Machine.execAmo g t k d m s
  | .cas g t d m => Sys2Proof.Machine.execCas g t d m s
  | .casCapability g d m => Sys2Proof.Machine.execCasCapability g d m s
  | .fence g sc => Sys2Proof.Machine.execFence g sc s
  | .slock g d m => Sys2Proof.Machine.execSlock g d m s
  | .sunlock g m => Sys2Proof.Machine.execSunlock g m s
  | .pref g l m => Sys2Proof.Machine.execPref g l m s
  | .vaddIntVv g t d a b => Sys2Proof.Machine.execVaddIntVv g t d a b s
  | .vaddIntVx g t d a b => Sys2Proof.Machine.execVaddIntVx g t d a b s
  | .vsubIntVv g t d a b => Sys2Proof.Machine.execVsubIntVv g t d a b s
  | .vsubIntVx g t d a b => Sys2Proof.Machine.execVsubIntVx g t d a b s
  | .vmulIntVv g t d a b => Sys2Proof.Machine.execVmulIntVv g t d a b s
  | .vmulIntVx g t d a b => Sys2Proof.Machine.execVmulIntVx g t d a b s
  | .vminIntVv g t d a b => Sys2Proof.Machine.execVminIntVv g t d a b s
  | .vminIntVx g t d a b => Sys2Proof.Machine.execVminIntVx g t d a b s
  | .vmaxIntVv g t d a b => Sys2Proof.Machine.execVmaxIntVv g t d a b s
  | .vmaxIntVx g t d a b => Sys2Proof.Machine.execVmaxIntVx g t d a b s
  | .vaddFloatVv g t d a b r => Sys2Proof.Machine.execVaddFloatVv g t d a b r s
  | .vaddFloatVx g t d a b r => Sys2Proof.Machine.execVaddFloatVx g t d a b r s
  | .vsubFloatVv g t d a b r => Sys2Proof.Machine.execVsubFloatVv g t d a b r s
  | .vsubFloatVx g t d a b r => Sys2Proof.Machine.execVsubFloatVx g t d a b r s
  | .vmulFloatVv g t d a b r => Sys2Proof.Machine.execVmulFloatVv g t d a b r s
  | .vmulFloatVx g t d a b r => Sys2Proof.Machine.execVmulFloatVx g t d a b r s
  | .vminFloatVv g t d a b => Sys2Proof.Machine.execVminFloatVv g t d a b s
  | .vminFloatVx g t d a b => Sys2Proof.Machine.execVminFloatVx g t d a b s
  | .vmaxFloatVv g t d a b => Sys2Proof.Machine.execVmaxFloatVv g t d a b s
  | .vmaxFloatVx g t d a b => Sys2Proof.Machine.execVmaxFloatVx g t d a b s
  | .vfmaVv g t d a b r => Sys2Proof.Machine.execVfmaVv g t d a b r s
  | .vfmaVx g t d a b r => Sys2Proof.Machine.execVfmaVx g t d a b r s
  | .vabsInt g t d a => Sys2Proof.Machine.execVabsInt g t d a s
  | .vabsFloat g t d a => Sys2Proof.Machine.execVabsFloat g t d a s
  | .vnegInt g t d a => Sys2Proof.Machine.execVnegInt g t d a s
  | .vnegFloat g t d a => Sys2Proof.Machine.execVnegFloat g t d a s
  | .vcvt g td ts d a r => Sys2Proof.Machine.execVcvt g td ts d a r s
  | .vredInt g t k d a => Sys2Proof.Machine.execVredInt g t k d a s
  | .vredFloat g t k d a r => Sys2Proof.Machine.execVredFloat g t k d a r s
  | .vpermRegister g t d a b => Sys2Proof.Machine.execVpermRegister g t d a b s
  | .vpermImmediate g t d a imm => Sys2Proof.Machine.execVpermImmediate g t d a imm s
  | .vsel g t d a b p => Sys2Proof.Machine.execVsel g t d a b p s
  | .vsetpIntVv g t k d a b => Sys2Proof.Machine.execVsetpIntVv g t k d a b s
  | .vsetpIntVx g t k d a b => Sys2Proof.Machine.execVsetpIntVx g t k d a b s
  | .vsetpFloatVv g t k d a b => Sys2Proof.Machine.execVsetpFloatVv g t k d a b s
  | .vsetpFloatVx g t k d a b => Sys2Proof.Machine.execVsetpFloatVx g t k d a b s
  | .vargmaxInt g t d a => Sys2Proof.Machine.execVargmaxInt g t d a s
  | .vargmaxFloat g t d a => Sys2Proof.Machine.execVargmaxFloat g t d a s
  | .vrng g t d a b => Sys2Proof.Machine.execVrng g t d a b s
  | .vaddIntVi g t d a imm => Sys2Proof.Machine.execVaddIntVi g t d a imm s
  | .vsubIntVi g t d a imm => Sys2Proof.Machine.execVsubIntVi g t d a imm s
  | .vmulIntVi g t d a imm => Sys2Proof.Machine.execVmulIntVi g t d a imm s
  | .vminIntVi g t d a imm => Sys2Proof.Machine.execVminIntVi g t d a imm s
  | .vmaxIntVi g t d a imm => Sys2Proof.Machine.execVmaxIntVi g t d a imm s
  | .tset g d a => Sys2Proof.Machine.execTset g d a s
  | .mchain g => Sys2Proof.Machine.execMchain g s
  | .mend g => Sys2Proof.Machine.execMend g s
  | .mmf g d a b => Sys2Proof.Machine.execMmf g d a b s
  | .mmiNarrow g d a b => Sys2Proof.Machine.execMmiNarrow g d a b s
  | .mmiWide g d a b => Sys2Proof.Machine.execMmiWide g d a b s
  | .mmb g d a b la lb => Sys2Proof.Machine.execMmb g d a b la lb s
  | .mscacc g d a b => Sys2Proof.Machine.execMscacc g d a b s
  | .macldNarrow g d a grp => Sys2Proof.Machine.execMacldNarrow g d a grp s
  | .macldWide g d a grp => Sys2Proof.Machine.execMacldWide g d a grp s
  | .mzeroNarrow g d => Sys2Proof.Machine.execMzeroNarrow g d s
  | .mzeroWide g d => Sys2Proof.Machine.execMzeroWide g d s
  | .engineInstructionCommit core => Sys2Proof.Machine.execEngineInstructionCommit core s
  | .chainCompletion core => Sys2Proof.Machine.execChainCompletion core s
  | .bcopyTemplate g d a b tmpl => Sys2Proof.Machine.execBcopyTemplate g d a b tmpl s
  | .bcopyCommonShape g d a b => Sys2Proof.Machine.execBcopyCommonShape g d a b s
  | .bstage g d a b o => Sys2Proof.Machine.execBstage g d a b o s
  | .bres g d a => Sys2Proof.Machine.execBres g d a s
  | .bargeExecute core => Sys2Proof.Machine.execBargeExecute core s
  | .bargeCompletion core => Sys2Proof.Machine.execBargeCompletion core s
  | .sinit g d m => Sys2Proof.Machine.execSinit g d m s
  | .sarmRegister g d m => Sys2Proof.Machine.execSarmRegister g d m s
  | .sarmImmediate g m n => Sys2Proof.Machine.execSarmImmediate g m n s
  | .sarrive g m => Sys2Proof.Machine.execSarrive g m s
  | .sarriveBytes g d m => Sys2Proof.Machine.execSarriveBytes g d m s
  | .sluiceOperationApply core slot => Sys2Proof.Machine.execSluiceOperationApply core slot s
  | .swaitBlocking g d m => Sys2Proof.Machine.execSwaitBlocking g d m s
  | .swaitPoll g d m => Sys2Proof.Machine.execSwaitPoll g d m s
  | .waitX g d => Sys2Proof.Machine.execWaitX g d s
  | .waitV g d => Sys2Proof.Machine.execWaitV g d s
  | .waitC g d => Sys2Proof.Machine.execWaitC g d s
  | .spawn g d m => Sys2Proof.Machine.execSpawn g d m s
  | .launch g d m => Sys2Proof.Machine.execLaunch g d m s
  | .rdecImmediate g m n => Sys2Proof.Machine.execRdecImmediate g m n s
  | .rdecRegister g d m => Sys2Proof.Machine.execRdecRegister g d m s
  | .fork g d a => Sys2Proof.Machine.execFork g d a s
  | .forkWithRevisions g d a b => Sys2Proof.Machine.execForkWithRevisions g d a b s
  | .commit g => Sys2Proof.Machine.execCommit g s
  | .retire g => Sys2Proof.Machine.execRetire g s
  | .bpushX g d m => Sys2Proof.Machine.execBpushX g d m s
  | .bpushV g d m => Sys2Proof.Machine.execBpushV g d m s
  | .bpopX g d m => Sys2Proof.Machine.execBpopX g d m s
  | .bpopV g d m => Sys2Proof.Machine.execBpopV g d m s
  | .basinHeldOperation core slot => Sys2Proof.Machine.execBasinHeldOperation core slot s
  | .ccall g a b => Sys2Proof.Machine.execCcall g a b s
  | .cret g => Sys2Proof.Machine.execCret g s
  | .publish g d a b => Sys2Proof.Machine.execPublish g d a b s
  | .trap g code => Sys2Proof.Machine.execTrap g code s
  | .tretResume g => Sys2Proof.Machine.execTretResume g s
  | .tretSkip g => Sys2Proof.Machine.execTretSkip g s
  | .tretEnd g => Sys2Proof.Machine.execTretEnd g s
  | .sysrd g d r => Sys2Proof.Machine.execSysrd g d r s
  | .syswrRegister g r a => Sys2Proof.Machine.execSyswrRegister g r a s
  | .syswrImmediate g r imm => Sys2Proof.Machine.execSyswrImmediate g r imm s
  | .ctrX g d a => Sys2Proof.Machine.execCtrX g d a s
  | .ctrV g d a => Sys2Proof.Machine.execCtrV g d a s
  | .owedValueReturn core slot idx => Sys2Proof.Machine.execOwedValueReturn core slot idx s
  | .parkEnd core slot => Sys2Proof.Machine.execParkEnd core slot s
  | .issueSlotChoice core => Sys2Proof.Machine.execIssueSlotChoice core s
  | .trapEntry core slot => Sys2Proof.Machine.execTrapEntry core slot s
  | .terminalFault core slot => Sys2Proof.Machine.execTerminalFault core slot s
  | .commitWindowExpiry core slot => Sys2Proof.Machine.execCommitWindowExpiry core slot s
  | .waitTimerExpiry core slot => Sys2Proof.Machine.execWaitTimerExpiry core slot s
  | .preemptionRequest core slot => Sys2Proof.Machine.execPreemptionRequest core slot s
  | .activationDiscard core slot => Sys2Proof.Machine.execActivationDiscard core slot s
  | .machineCheck core => Sys2Proof.Machine.execMachineCheck core s
  | .activationStart core slot => Sys2Proof.Machine.execActivationStart core slot s
  | .heldRingPush team teamCore => Sys2Proof.Machine.execHeldRingPush team teamCore s
  | .gridAdmission p => Sys2Proof.Machine.execGridAdmission p s
  | .teamPlacement team => Sys2Proof.Machine.execTeamPlacement team s
  | .quantumExpiry team => Sys2Proof.Machine.execQuantumExpiry team s
  | .swapGraceExpiry team => Sys2Proof.Machine.execSwapGraceExpiry team s
  | .teamSwapOut team => Sys2Proof.Machine.execTeamSwapOut team s
  | .teamSwapIn team => Sys2Proof.Machine.execTeamSwapIn team s
  | .weirRun team => Sys2Proof.Machine.execWeirRun team s
  | .gridCompletion grid => Sys2Proof.Machine.execGridCompletion grid s
  | .junctionMerge rev => Sys2Proof.Machine.execJunctionMerge rev s
  | .revisionDiscardReset rev => Sys2Proof.Machine.execRevisionDiscardReset rev s
  | .tlbRefill cluster page => Sys2Proof.Machine.execTlbRefill cluster page s
  | .invalidationComplete p => Sys2Proof.Machine.execInvalidationComplete p s
  | .pageVerification world obj page => Sys2Proof.Machine.execPageVerification world obj page s
  | .dredgerSweepVisit world line => Sys2Proof.Machine.execDredgerSweepVisit world line s
  | .revocationPreemptTimeout world => Sys2Proof.Machine.execRevocationPreemptTimeout world s
  | .revocationComplete world => Sys2Proof.Machine.execRevocationComplete world s
  | .counterRefresh world => Sys2Proof.Machine.execCounterRefresh world s
  | .writeUpdate core slot idx => Sys2Proof.Machine.execWriteUpdate core slot idx s
  | .updateReply line core => Sys2Proof.Machine.execUpdateReply line core s
  | .homeCommit line => Sys2Proof.Machine.execHomeCommit line s
  | .regionMerge slice region => Sys2Proof.Machine.execRegionMerge slice region s
  | .directoryEntryEviction slice => Sys2Proof.Machine.execDirectoryEntryEviction slice s
  | .evictionNotice line core => Sys2Proof.Machine.execEvictionNotice line core s
  | .stashFill line cluster => Sys2Proof.Machine.execStashFill line cluster s
  | .stashForwardedAccess line => Sys2Proof.Machine.execStashForwardedAccess line s
  | .readShared line => Sys2Proof.Machine.execReadShared line s
  | .upgrade line => Sys2Proof.Machine.execUpgrade line s
  | .readExclusive line => Sys2Proof.Machine.execReadExclusive line s
  | .snoopRead line => Sys2Proof.Machine.execSnoopRead line s
  | .snoopInvalidate line => Sys2Proof.Machine.execSnoopInvalidate line s
  | .proxyInvalidation line => Sys2Proof.Machine.execProxyInvalidation line s
  | .writeBack line => Sys2Proof.Machine.execWriteBack line s
  | .flushRoundComplete core => Sys2Proof.Machine.execFlushRoundComplete core s
  | .ownershipLeaseExpiry p => Sys2Proof.Machine.execOwnershipLeaseExpiry p s
  | .launchCommand p => Sys2Proof.Machine.execLaunchCommand p s
  | .completionEntry p => Sys2Proof.Machine.execCompletionEntry p s
  | .storeAcknowledgement core slot idx => Sys2Proof.Machine.execStoreAcknowledgement core slot idx s
  | .updateReceipt line core => Sys2Proof.Machine.execUpdateReceipt line core s
  | .snoopAnswer line => Sys2Proof.Machine.execSnoopAnswer line s
  | .grant line => Sys2Proof.Machine.execGrant line s
  | .evictionAcknowledgement line core => Sys2Proof.Machine.execEvictionAcknowledgement line core s
  | .hostFlushComplete core slot => Sys2Proof.Machine.execHostFlushComplete core slot s
  | .fetchComplete core slot => Sys2Proof.Machine.execFetchComplete core slot s
  | .prst p => Sys2Proof.Machine.execPrst p s
  | .partitionResetDone p badCores badSlices => Sys2Proof.Machine.execPartitionResetDone p badCores badSlices s
  | .resreply p val => Sys2Proof.Machine.execResreply p val s
  | .invctl p val => Sys2Proof.Machine.execInvctl p val s
  | .revctl p val => Sys2Proof.Machine.execRevctl p val s
  | .backInvalidation line => Sys2Proof.Machine.execBackInvalidation line s
  | .hostAccess stream line write bytes => Sys2Proof.Machine.execHostAccess stream line write bytes s
  | .peerAccess path world line write bytes => Sys2Proof.Machine.execPeerAccess path world line write bytes s
  | .flushMarker core path => Sys2Proof.Machine.execFlushMarker core path s
  | .fabricRun path run good => Sys2Proof.Machine.execFabricRun path run good s
  | .fabricRekey port world => Sys2Proof.Machine.execFabricRekey port world s
  | .pathFailure path => Sys2Proof.Machine.execPathFailure path s
  | .powerGate unit idx => Sys2Proof.Machine.execPowerGate unit idx s
  | .unitWake unit idx => Sys2Proof.Machine.execUnitWake unit idx s
  | .clockChange scale core => Sys2Proof.Machine.execClockChange scale core s
  | .own p master val => Sys2Proof.Machine.execOwn p master val s
  | .rtail p master val => Sys2Proof.Machine.execRtail p master val s
  | .rsync p master val => Sys2Proof.Machine.execRsync p master val s
  | .ringKeyInstall p key => Sys2Proof.Machine.execRingKeyInstall p key s
  | .ringRelocate p master reg val => Sys2Proof.Machine.execRingRelocate p master reg val s
  | .cqhead p master val => Sys2Proof.Machine.execCqhead p master val s
  | .registerWrite p writer off val => Sys2Proof.Machine.execRegisterWrite p writer off val s
  | .worldCreate world cfg policy => Sys2Proof.Machine.execWorldCreate world cfg policy s
  | .worldDestroy world => Sys2Proof.Machine.execWorldDestroy world s
  | .compartmentDestroy world cmpt => Sys2Proof.Machine.execCompartmentDestroy world cmpt s
  | .bundleFetch addr len => Sys2Proof.Machine.execBundleFetch addr len s
  | .trialExpiry => Sys2Proof.Machine.execTrialExpiry s
  | .attestationRequest world nonce => Sys2Proof.Machine.execAttestationRequest world nonce s
  | .coldStart => Sys2Proof.Machine.execColdStart s
  | .warmStart => Sys2Proof.Machine.execWarmStart s
  | .startFailure step => Sys2Proof.Machine.execStartFailure step s
  | .hostSnoop line => Sys2Proof.Machine.execHostSnoop line s
  | .uncorrectableMemoryError line => Sys2Proof.Machine.execUncorrectableMemoryError line s
  | .remoteAttestationComplete => Sys2Proof.Machine.execRemoteAttestationComplete s
  | .ideStreamKeyInstall stream world key => Sys2Proof.Machine.execIdeStreamKeyInstall stream world key s
  | .chunkOwnerChange chunk world => Sys2Proof.Machine.execChunkOwnerChange chunk world s
  | .partitionOwnerChange p entry => Sys2Proof.Machine.execPartitionOwnerChange p entry s
  | .compartmentCreate world cmpt entry priv => Sys2Proof.Machine.execCompartmentCreate world cmpt entry priv s
  | .hostLinkReset => Sys2Proof.Machine.execHostLinkReset s

end Sys2Proof.Machine
end

