-- ==== Sys2Proof/Machine/Issue.lean ====
section
/-!
DEFINITION. One step of the machine: the issue of the instruction at a slot's program counter (R87, R89, R106, R332),
the event that happens when the outside schedules none (DESIGN CHOICE, log entry 1), and how a word is placed for the next fetch.
-/

namespace Sys2Proof.Machine

/-! ## Issue -/

/-- The slot that was chosen fetches, decodes and issues its instruction (R87 … R89). A page that lost its verified mark
since the fetch completed is verified first (R359, R360). A fault of the fetch, or of the decoding, counts as an
instruction that faults at issue, in counter 1 (R227; DESIGN CHOICE, log entry 99). -/
def issueStep (s : State) : Out3 :=
  let s1 : State := { s with issuing := false }
  match s1.fetchWith s1.cur with
  | (.unverified, _) => .next (s1.updSl fun sl => { sl with fetched := false })
  | (.fault f walked, _) => .next ((s1.markEntries walked).faultNow f)
  | (.bytes b, l) =>
    match decode (wordOfBytes b) with
    | .error _ => .next ((s1.fetchDone s1.cur l).faultNow (FaultInfo.of 0x01))
    | .ok i => exec i (s1.fetchDone s1.cur l)

/-! ## Events of the machine itself -/

/-- Events of a slot. -/
def State.slotEvents (s : State) (c k : Nat) : List Instr :=
  let sl := s.slotAt (4 * c + k)
  if !sl.active then [.activationStart c k]
  else
    [.activationDiscard c k, .commitWindowExpiry c k, .trapEntry c k, .terminalFault c k, .parkEnd c k]
      ++ (List.range sl.owed.length).map (.owedValueReturn c k ·)
      ++ (List.range sl.out.length).map (.storeAcknowledgement c k ·)
      ++ (List.range sl.out.length).map (.writeUpdate c k ·)
      ++ [.sluiceOperationApply c k, .basinHeldOperation c k, .hostFlushComplete c k]
      ++ (if sl.fetched then [] else [.pageVerification sl.world sl.obj (sl.pc.toNat / 65536),
            .pageVerification sl.world sl.obj ((sl.pc.toNat + 11) / 65536), .fetchComplete c k])
      ++ [.waitTimerExpiry c k]

/-- Events of a core. -/
def State.coreEvents (s : State) (c : Nat) : List Instr :=
  [.bargeCompletion c, .bargeExecute c, .engineInstructionCommit c, .chainCompletion c, .flushRoundComplete c]
    ++ (List.range 4).flatMap (s.slotEvents c)

/-- Events of a line that something is under way for. -/
def lineEvents (c : Nat × LineCoh) : List Instr :=
  (match c.2.pend with
   | some d => d.sent.map (.updateReceipt c.1 ·) ++ d.replies.map (fun r => .updateReply c.1 r.1) ++ [.homeCommit c.1]
   | none => [])
    ++ [.proxyInvalidation c.1, .snoopAnswer c.1, .grant c.1]

/-- Events of a team. -/
def teamEvents (t : Nat × Team) : List Instr :=
  (List.range t.2.cores).map (.heldRingPush t.1 ·)
    ++ [.teamPlacement t.1, .teamSwapIn t.1, .swapGraceExpiry t.1, .teamSwapOut t.1, .quantumExpiry t.1, .weirRun t.1]

/-- Events of a world. -/
def State.worldEvents (s : State) (w : Nat × World) : List Instr :=
  match w.2.rev with
  | none => [.counterRefresh w.1]
  | some r =>
    (s.unswept w.1 r).map (.dredgerSweepVisit w.1 ·)
      ++ [.revocationComplete w.1, .revocationPreemptTimeout w.1, .counterRefresh w.1]

/-- Events of a grid: its flush round and flushing reads are named by 512 and its number (log entry 79). -/
def gridEvents (g : Nat) : List Instr := [.flushRoundComplete (512 + g), .hostFlushComplete (512 + g) 0, .gridCompletion g]

/-- Events of a partition. -/
def partEvents (p : Nat) : List Instr :=
  [.completionEntry p, .invalidationComplete p, .ownershipLeaseExpiry p, .launchCommand p, .gridAdmission p]

/-- The events that the machine's own agents could take next, in the order the model tries them. -/
def State.ownEvents (s : State) : List Instr :=
  s.cores.keys.flatMap s.coreEvents ++ s.coh.flatMap lineEvents
    ++ s.revs.keys.flatMap (fun r => [.revisionDiscardReset r, .junctionMerge r])
    ++ s.teams.flatMap teamEvents ++ s.grids.keys.flatMap gridEvents ++ s.parts.keys.flatMap partEvents
    ++ s.worlds.flatMap s.worldEvents

/-- An event changes the state. -/
def State.changes (s : State) (e : Instr) : Bool :=
  match exec e s with
  | .next t => t != s
  | .fault _ => false
  | .refused _ => false

/-- The core whose cycle comes next: one with an activation that has acted least recently, else core 0. -/
def State.nextCore (s : State) : Nat :=
  (earliest (fun c => (s.coreAt c).lastTick) (s.cores.keys.filter fun c => s.liveSlots c != [])).getD 0

/-- The event that happens when the outside has scheduled none: the first of the agents' events that changes something,
else a core's cycle. -/
def State.autoEvent (s : State) : Instr := (s.ownEvents.find? s.changes).getD (.issueSlotChoice s.nextCore)

/-! ## An instruction for the next step -/

/-- Bytes of the page tables that map page 0 of a world to frame 0x200 (R326, R327), in the chunk of that frame: four
tables and a leaf with V, L, A and pinned placement on slice 0. -/
def codeTables : List (Nat × Nat) :=
  [ (0x201000, 2 ^ 63 + 0x202), (0x202000, 2 ^ 63 + 0x203), (0x203000, 2 ^ 63 + 0x204), (0x204000, 2 ^ 63 + 0x205),
    (0x205000, 2 ^ 63 + 2 ^ 62 + 2 ^ 61 + 2 ^ 53 + 0x200) ]

/-- The code object of twelve bytes at address 0. -/
def codeObject : CodeObj :=
  { CodeObj.reset with base := 0, tlen := 12, cap := codeCap 0 12 0, verified := [(0, true)] }

/-- Memory for the next fetch: the tables and the bytes, in lines that no cache holds. -/
def State.placeBytes (s : State) (bs : List Byte) : State :=
  let s1 := codeTables.foldl (fun (t : State) x => t.putData (memKey .dev x.1) (leBytes 8 x.2)) s
  let s2 := s1.putData (memKey .dev 0x200000) bs
  let lines := 0x8000 :: codeTables.map (·.1 / 64)
  { s2 with coh := s2.coh.filter fun x => !lines.contains x.1 }

/-- Slot 0 of core 0 runs an activation of world 0 at the placed instruction, and issues next (DESIGN CHOICE, log entry 11). -/
def State.placeInstr (s : State) (bs : List Byte) : State :=
  let s1 := s.placeBytes bs
  let s2 := s1.updWorld 0 fun w =>
    { w with live := true, troot := 0x201000, objs := SMap.put CodeObj.reset w.objs 1 codeObject }
  let s3 := s2.updPart 0 fun p => { p with wid := 0, sl := p.sl ||| 1 }
  let s4 := s3.updSlot 0 fun sl =>
    { sl with active := true, world := 0, part := 0, obj := 1, cmpt := 0, pc := 0, stop := .run, fetched := true }
  { s4 with owners := SMap.put 0xFE s4.owners 1 0, revs := s4.revs.filter fun r => r.2.world != 0, cur := 0
            issuing := true }

end Sys2Proof.Machine
end

