-- ==== Sys2Proof/Machine/Step.lean ====
section
/-!
DEFINITION. The step: the issue of the chosen slot's instruction, else the next event that the outside has scheduled,
else the next of the machine's own.
-/

namespace Sys2Proof.Machine

/-- A scripted event, as the step takes it: an instruction issues from memory only. -/
def scripted (i : Instr) (s : State) : Host.Outcome State Fault Refusal :=
  if (encode i).isSome then .fault .scriptedInstruction else exec i s

/-- One step. -/
def step (s : State) : Host.Outcome State Fault Refusal :=
  if s.issuing then issueStep s
  else
    match s.script with
    | i :: is => scripted i { s with script := is }
    | [] => exec s.autoEvent s

/-- The state with an instruction of 12 bytes where the next step fetches, its bits above `nbits` zero. -/
def State.withFetchWord (s : State) (nbits w : Nat) : State :=
  s.placeInstr (bytesOfWord (BitVec.ofNat 96 (w % 2 ^ nbits)))

end Sys2Proof.Machine
end

