-- ==== Sys2Proof/Safety.lean ====
section
/-!
DEFINITION. What the statements are said in: runs that go on, canonical memory, and the frames of an instruction: what
its issue leaves alone in the rest of the machine and in its slot.
-/

namespace Sys2Proof.Safety

open Sys2Proof.Machine

/-! ## Runs -/

/-- The bytes of memory, its tags and its errors are in canonical form. -/
def MemoryCanonical (s : State) : Prop :=
  Memory.wf s.mem = true ∧ SMap.wf false s.tags = true ∧ SMap.wf false s.poison = true

/-- A step goes on. -/
def GoesOn (s : State) : Prop := ∃ t, step s = .next t

/-- An instruction or event completes with a property of the state it answers. -/
def Completes (i : Instr) (s : State) (post : State → Prop) : Prop := ∃ u, exec i s = .next u ∧ post u

/-! ## Frames -/

/-- The state without its cores and counters, which Elsewhere speaks of apart. -/
def bareState (s : State) : State := { s with cores := [], perf := [], issuing := false }

/-- A core without its slots, which slot issued last and which one yielded (R259), and its wait-time limit (R224). -/
def bareCore (c : Core) : Core := { c with slots := [], lastSlot := 0, yielded := none, wtlim := 0 }

/-- A slot without its register files, program counter, loop count and `fflags`, and without what is owed, deferred or
queued for it and what stops or delays it. -/
def bareSlot (sl : Slot) : Slot :=
  { sl with x := [], v := [], c := [], p := [], pc := 0, lc := 0, fflags := 0, owed := [], deferred := [], out := [],
            seq := 0, stop := .run, timer := none, callee := none, arrived := none, notBefore := 0, readySince := 0,
            fetched := false }

/-- The rest of the machine is unchanged by an issue of the slot `s.cur`: time, every byte of memory with its tag, every
other slot, the engine, the Barge, the caches and the team of every core, and everything that belongs to no core; but the
issuing core's wait-time limit and its counts of instructions and parks (R227). -/
structure Elsewhere (s u : State) : Prop where
  rest  : bareState u = bareState s
  slots : ∀ k, k ≠ s.cur → u.slotAt k = s.slotAt k
  cores : ∀ c, bareCore (u.coreAt c) = bareCore (s.coreAt c)
  wtlim : ∀ c, c ≠ s.cur / 4 → (u.coreAt c).wtlim = (s.coreAt c).wtlim
  perf  : ∀ k, k ≠ perfKey 0 (s.cur / 4) 1 → k ≠ perfKey 0 (s.cur / 4) 2 → SMap.look 0 u.perf k = SMap.look 0 s.perf k

/-- The registers an instruction may write in its slot: at most one of each file. -/
structure Dests where
  x : Option XReg := none
  v : Option VReg := none
  c : Option CReg := none
  p : Option PReg := none

/-- The slot is unchanged but for the named registers, the program counter, the loop count of the end-of-body test
(R125), `fflags`, and what is owed, deferred or queued. -/
structure SlotKept (a b : Slot) (d : Dests) : Prop where
  x : ∀ r, d.x ≠ some r → b.xr r = a.xr r
  v : ∀ r, d.v ≠ some r → b.vr r = a.vr r
  c : ∀ r, d.c ≠ some r → b.cr r = a.cr r
  p : ∀ r, d.p ≠ some r → b.pr r = a.pr r
  rest : bareSlot b = bareSlot a

/-- Control falls through (R106, R125): to the next instruction, or, at the end of a loop body with a count left, to
the start of the body; `lc` counts the pass. -/
def FallsThrough (a b : Slot) : Prop :=
  b.obj = a.obj ∧
  (if a.lc ≠ 0 ∧ ((a.le.toNat % 2 ^ 32 : Nat) : Int) = a.pc ∧ (a.le.toNat / 2 ^ 32 = 0 ∨ a.le.toNat / 2 ^ 32 = a.obj) then
    b.lc = a.lc - 1 ∧ b.pc = (if a.lc - 1 ≠ 0 then ((a.ls.toNat % 2 ^ 32 : Nat) : Int) else a.pc + 12)
   else b.lc = a.lc ∧ b.pc = a.pc + 12)

/-- What follows the issue of an instruction with the control bits `g` (R22, R93): with S the slot parks if something is owed,
and otherwise it goes on; DLY delays its next instruction. -/
def Paced (g : Ctl) (now : Nat) (b : Slot) : Prop :=
  b.stop = (if g.s = true ∧ b.owes = true then .park else .run) ∧ now + g.dly.val ≤ b.notBefore

/-- The issue of an instruction at `s` ends as its own control bits say (R22, R93): YLD marks the slot, and any other issue
clears the mark. -/
def PacedBy (i : Instr) (s u : State) : Prop :=
  ∀ (f : Fields) (g : Ctl), encodeFields i = some f → ctl f = .ok g →
    Paced g s.now u.sl ∧ u.core.yielded = if g.yld = true then some (s.cur % 4) else none

/-- What is owed, deferred and queued stays, but that the owing of the register that is written is cancelled (R24 rule 6,
R147). -/
def OwesAsBefore (a b : Slot) (r : Option RegRef) : Prop :=
  b.out = a.out ∧ b.seq = a.seq ∧ (match r with
    | none => b.owed = a.owed ∧ b.deferred = a.deferred
    | some r => b.owed = a.owed.map (Owed.drop r) ∧ b.deferred = a.deferred.map (Defer.drop r))

/-- A slot-only instruction completes: it falls through, writes the named registers alone, leaves the rest of the machine,
and stops or delays its slot as its control bits say. -/
def Acts (i : Instr) (s : State) (d : Dests) (post : Slot → Prop) : Prop :=
  Completes i s fun u => post u.sl ∧ SlotKept s.sl u.sl d ∧ FallsThrough s.sl u.sl ∧ Elsewhere s u ∧ PacedBy i s u

/-- It changes nothing but the program counter and the loop count. -/
def ActsNot (i : Instr) (s : State) : Prop :=
  Acts i s {} fun b => b.fflags = s.sl.fflags ∧ OwesAsBefore s.sl b none

/-- It writes an x register, x0 discarding the write (R10), and no flag. -/
def WritesX (i : Instr) (s : State) (d : XReg) (w : Word) : Prop :=
  Acts i s { x := some d } fun b => b.xr d = (if d = 0 then 0 else w) ∧ b.fflags = s.sl.fflags
    ∧ OwesAsBefore s.sl b (if d = 0 then none else some (.x d.val))

/-- It writes a v register and no flag. -/
def WritesV (i : Instr) (s : State) (d : VReg) (l : Line) : Prop :=
  Acts i s { v := some d } fun b => b.vr d = l ∧ b.fflags = s.sl.fflags ∧ OwesAsBefore s.sl b (some (.v d.val))

/-- It writes a c register, c0 discarding the write (R10), and no flag. -/
def WritesC (i : Instr) (s : State) (d : CReg) (v : CapReg) : Prop :=
  Acts i s { c := some d } fun b => b.cr d = (if d = 0 then CapReg.null else v) ∧ b.fflags = s.sl.fflags
    ∧ OwesAsBefore s.sl b (if d = 0 then none else some (.c d.val))

/-- It writes a p register, p0 discarding the write (R10), and no flag. -/
def WritesP (i : Instr) (s : State) (d : PReg) (m : BitVec 16) : Prop :=
  Acts i s { p := some d } fun b => b.pr d = (if d = 0 then 0xFFFF else m) ∧ b.fflags = s.sl.fflags
    ∧ OwesAsBefore s.sl b none

/-- Control goes to an offset of an object (R118, R120): the named registers are written alone and no end-of-body test is
made. -/
def Jumps (i : Instr) (s : State) (d : Dests) (obj : Nat) (pc : Int) (post : Slot → Prop) : Prop :=
  Completes i s fun u => u.sl.obj = obj ∧ u.sl.pc = pc ∧ u.sl.lc = s.sl.lc ∧ u.sl.fflags = s.sl.fflags ∧ post u.sl
    ∧ SlotKept { s.sl with obj := obj } u.sl d ∧ Elsewhere s u ∧ PacedBy i s u

/-- An owed result is added, which has not performed (R24 rule 1): an earlier owing of the same register is dropped (rule
7), and no register changes yet. -/
def Owes (i : Instr) (s : State) (r : Option RegRef) (mask : Line) (f : Flight) (acq : Bool) : Prop :=
  Acts i s {} fun b => b.fflags = s.sl.fflags ∧ b.out = s.sl.out
    ∧ ∃ o : Owed, b.owed = (match r with
        | some q => s.sl.owed.map (Owed.drop q)
        | none => s.sl.owed) ++ [o]
      ∧ o.dest = r ∧ o.live = true ∧ o.mask = mask ∧ o.flight = f ∧ o.res = none ∧ o.acq = acq ∧ o.iaddr = s.sl.here

/-- An effect is added to the deferred-effect buffer with the operands it read (R199, R200). -/
def Defers (i : Instr) (s : State) (op : DeferOp) (r : Option RegRef) : Prop :=
  Acts i s {} fun b => b.fflags = s.sl.fflags ∧ b.out = s.sl.out ∧ b.owed = s.sl.owed
    ∧ ∃ e : Defer, b.deferred = s.sl.deferred ++ [e] ∧ e.op = op ∧ e.dest = r ∧ e.stale = false ∧ e.iaddr = s.sl.here

/-- The instruction's effect is a change of state, after which it falls through: nothing else changes. -/
def ActsVia (i : Instr) (s t : State) : Prop :=
  Completes i s fun u => SlotKept t.sl u.sl {} ∧ u.sl.fflags = t.sl.fflags ∧ OwesAsBefore t.sl u.sl none
    ∧ FallsThrough t.sl u.sl ∧ Elsewhere t u ∧ PacedBy i t u

/-- Writes enter the slot's store queue in order (R299), each of level 0: memory does not change yet. The reservations of
R270, the sequence and the mark of a write to host memory are all else that changes. -/
def Queues (i : Instr) (s : State) (rel : Option Nat) (ws : List (OutOp × Place)) : Prop :=
  Completes i s fun u =>
    (∃ l : List Out, u.sl.out = s.sl.out ++ l ∧ l.map (fun o => (o.op, o.place)) = ws
      ∧ ∀ o ∈ l, o.rel = rel ∧ o.lvl = 0 ∧ o.got = 0 ∧ o.seq = s.sl.seq)
    ∧ u.sl.owed = s.sl.owed ∧ u.sl.deferred = s.sl.deferred ∧ u.sl.fflags = s.sl.fflags
    ∧ SlotKept { s.sl with hostDirty := u.sl.hostDirty } u.sl {} ∧ FallsThrough s.sl u.sl
    ∧ Elsewhere { s with fresh := u.fresh, revs := u.revs } u ∧ PacedBy i s u

/-- The instruction does not issue for a reason, and is issued again when the reason has gone (R259). -/
def Waits (i : Instr) (s : State) (h : Hold) : Prop :=
  Completes i s fun u => u = s.updSl fun sl => { sl with stop := .hold h }

/-- The instruction faults at issue (R26): the fault carries its code address. -/
def FaultsWith (i : Instr) (s : State) (f : FaultInfo) : Prop := exec i s = .next (s.faultNow f)

/-- A lane-wise vector instruction (R151, R152): each element whose guard is true takes its value, the others keep theirs;
the flags of the guarded elements alone are ORed into `fflags`. With every guard false nothing is written, and what is
owed stays owed. -/
def LaneWise (i : Instr) (s : State) (g : Ctl) (w : Nat) (d : VReg) (elem flags : Nat → Nat) : Prop :=
  let on := (List.range (512 / w)).filter (s.sl.laneGuard g w)
  Acts i s { v := some d } fun b =>
    (∀ k, k < 512 / w → lane w k (b.vr d) = if s.sl.laneGuard g w k then elem k % 2 ^ w else lane w k (s.sl.vr d))
    ∧ b.fflags = s.sl.fflags ||| BitVec.ofNat 64 (on.foldl (fun f k => f ||| flags k) 0 % 32)
    ∧ OwesAsBefore s.sl b (if on = [] then none else some (.v d.val))

/-! ## Frames of events -/

/-- The event's conditions do not hold: it changes nothing. -/
def Stays (i : Instr) (s : State) : Prop := exec i s = .next s

/-- Nothing changes but one core. -/
structure OnlyCore (c : Nat) (s u : State) : Prop where
  rest  : { u with cores := [] } = { s with cores := [] }
  cores : ∀ k, k ≠ c → u.coreAt k = s.coreAt k

/-- Nothing changes but one slot. -/
structure OnlySlot (k : Nat) (s u : State) : Prop where
  rest  : { u with cores := [] } = { s with cores := [] }
  slots : ∀ j, j ≠ k → u.slotAt j = s.slotAt j
  cores : ∀ c, { u.coreAt c with slots := [] } = { s.coreAt c with slots := [] }

/-- Nothing changes but the coherence state of one line. -/
def OnlyLine (l : Nat) (s u : State) : Prop := u = { s with coh := u.coh } ∧ ∀ k, k ≠ l → u.cohAt k = s.cohAt k

/-- Nothing changes but one partition. -/
def OnlyPart (p : Nat) (s u : State) : Prop := u = { s with parts := u.parts } ∧ ∀ k, k ≠ p → u.partAt k = s.partAt k

/-- Nothing changes but one world. -/
def OnlyWorld (w : Nat) (s u : State) : Prop := u = { s with worlds := u.worlds } ∧ ∀ k, k ≠ w → u.worldAt k = s.worldAt k

/-- Nothing changes but one team. -/
def OnlyTeam (t : Nat) (s u : State) : Prop := u = { s with teams := u.teams } ∧ ∀ k, k ≠ t → u.teamAt k = s.teamAt k

/-- Memory, its tags and its errors stay. -/
def MemoryKept (s u : State) : Prop := u.mem = s.mem ∧ u.tags = s.tags ∧ u.poison = s.poison

end Sys2Proof.Safety
end

