-- ==== Sys2Proof/Certificates/Slice0/Obligations.lean ====
section
/-!
DEFINITION. The statements about the machine; a statement of several parts is their conjunction. `s.sl` is the slot that issues, `Writes…` and `Acts` are the frames of
Safety.lean: what an instruction writes, and that it leaves everything else alone.
-/

open Sys2Proof Sys2Proof.Machine Sys2Proof.Safety

/-! ## Scalar instructions -/

/-- R107, R108: `add`, `sub`, `mul` and `mulh` under a true guard, in both forms: X[D] := ext(r) with r the exact integer
result, for `mulh` its upper half; x0 discards the write. Nothing else changes but the program counter. -/
def Sys2Proof.Parts.ArithmeticResults : Prop :=
  ∀ (s : State) (g : Ctl) (t : IType) (d a b : XReg) (i : Imm), s.sl.guard g = true →
    let x := val t (s.sl.xr a).toNat
    let y := val t (s.sl.xr b).toNat
    let z := val t (immSX t i).toNat
    WritesX (.addReg g t d a b) s d (ext t (x + y)) ∧ WritesX (.addImm g t d a i) s d (ext t (x + z))
    ∧ WritesX (.subReg g t d a b) s d (ext t (x - y)) ∧ WritesX (.subImm g t d a i) s d (ext t (x - z))
    ∧ WritesX (.mulReg g t d a b) s d (ext t (x * y)) ∧ WritesX (.mulImm g t d a i) s d (ext t (x * z))
    ∧ WritesX (.mulhReg g t d a b) s d (ext t (x * y / 2 ^ t.width))
    ∧ WritesX (.mulhImm g t d a i) s d (ext t (x * z / 2 ^ t.width))

/-- R108: `and`, `or`, `xor`, `min` and `max`, in both forms. -/
def Sys2Proof.Parts.LogicResults : Prop :=
  ∀ (s : State) (g : Ctl) (t : IType) (d a b : XReg) (i : Imm), s.sl.guard g = true →
    let x := s.sl.xr a
    let y := s.sl.xr b
    let z := immSX t i
    WritesX (.andReg g t d a b) s d (ext t ((uval t x.toNat &&& uval t y.toNat : Nat) : Int))
    ∧ WritesX (.andImm g t d a i) s d (ext t ((uval t x.toNat &&& uval t z.toNat : Nat) : Int))
    ∧ WritesX (.orReg g t d a b) s d (ext t ((uval t x.toNat ||| uval t y.toNat : Nat) : Int))
    ∧ WritesX (.orImm g t d a i) s d (ext t ((uval t x.toNat ||| uval t z.toNat : Nat) : Int))
    ∧ WritesX (.xorReg g t d a b) s d (ext t ((uval t x.toNat ^^^ uval t y.toNat : Nat) : Int))
    ∧ WritesX (.xorImm g t d a i) s d (ext t ((uval t x.toNat ^^^ uval t z.toNat : Nat) : Int))
    ∧ WritesX (.minReg g t d a b) s d (ext t (min (val t x.toNat) (val t y.toNat)))
    ∧ WritesX (.minImm g t d a i) s d (ext t (min (val t x.toNat) (val t z.toNat)))
    ∧ WritesX (.maxReg g t d a b) s d (ext t (max (val t x.toNat) (val t y.toNat)))
    ∧ WritesX (.maxImm g t d a i) s d (ext t (max (val t x.toNat) (val t z.toNat)))

/-- R109: `div` and `rem` in both forms: the truncated quotient and its remainder; by zero the quotient is ext(-1) and the
remainder the dividend. The slot issues nothing for w/2 + 2 further cycles. -/
def Sys2Proof.Parts.DivisionResults : Prop :=
  ∀ (s : State) (g : Ctl) (t : IType) (d a b : XReg) (i : Imm), s.sl.guard g = true →
    let x := val t (s.sl.xr a).toNat
    let q (y : Int) : Word := if y = 0 then ext t (-1) else ext t (x.tdiv y)
    let r (y : Int) : Word := if y = 0 then ext t x else ext t (x.tmod y)
    let y := val t (s.sl.xr b).toNat
    let z := val t (immSX t i).toNat
    WritesX (.divReg g t d a b) s d (q y) ∧ WritesX (.divImm g t d a i) s d (q z)
    ∧ WritesX (.remReg g t d a b) s d (r y) ∧ WritesX (.remImm g t d a i) s d (r z)
    ∧ Completes (.divReg g t d a b) s (fun u => s.now + t.width / 2 + 3 ≤ u.sl.notBefore)
    ∧ Completes (.remReg g t d a b) s (fun u => s.now + t.width / 2 + 3 ≤ u.sl.notBefore)
    ∧ Completes (.divImm g t d a i) s (fun u => s.now + t.width / 2 + 3 ≤ u.sl.notBefore)
    ∧ Completes (.remImm g t d a i) s (fun u => s.now + t.width / 2 + 3 ≤ u.sl.notBefore)

/-- R110: the shifts; a register amount counts modulo the width, an immediate one is below it by its form (R94). -/
def Sys2Proof.Parts.ShiftResults : Prop :=
  ∀ (s : State) (g : Ctl) (t : IType) (d a b : XReg) (n : Fin 64), s.sl.guard g = true →
    let x := s.sl.xr a
    let k := (s.sl.xr b).toNat % t.width
    WritesX (.shlReg g t d a b) s d (ext t ((uval t x.toNat * 2 ^ k : Nat) : Int))
    ∧ WritesX (.shlImm g t d a n) s d (ext t ((uval t x.toNat * 2 ^ n.val : Nat) : Int))
    ∧ WritesX (.shrReg g t d a b) s d (ext t ((uval t x.toNat / 2 ^ k : Nat) : Int))
    ∧ WritesX (.shrImm g t d a n) s d (ext t ((uval t x.toNat / 2 ^ n.val : Nat) : Int))
    ∧ WritesX (.sarReg g t d a b) s d (ext t (signedOf t.width x.toNat / (2 ^ k : Int)))
    ∧ WritesX (.sarImm g t d a n) s d (ext t (signedOf t.width x.toNat / (2 ^ n.val : Int)))

/-- R107 … R110: the scalar arithmetic, logic, division and shifts. -/
def Obligations.ScalarResults : Prop :=
  Sys2Proof.Parts.ArithmeticResults ∧ Sys2Proof.Parts.LogicResults ∧ Sys2Proof.Parts.DivisionResults ∧ Sys2Proof.Parts.ShiftResults

/-- R111 … R114: counts, selects, constants and moves to x. -/
def Sys2Proof.Parts.MoveResults : Prop :=
  ∀ (s : State) (g : Ctl) (t : IType) (d a b : XReg) (v : VReg) (p : PReg) (q : PSel) (f : LiForm) (i : Imm) (n : Fin 64),
    s.sl.guard g = true →
    let x := uval t (s.sl.xr a).toNat
    WritesX (.clz g t d a) s d (BitVec.ofNat 64 (t.width - ((List.range t.width).filter fun j => decide (2 ^ j ≤ x)).length))
    ∧ WritesX (.popc g t d a) s d (BitVec.ofNat 64 ((List.range t.width).filter fun j => x / 2 ^ j % 2 == 1).length)
    ∧ WritesX (.sel g d a b q) s d (if s.sl.selBit q 0 then s.sl.xr a else s.sl.xr b)
    ∧ WritesX (.movXX g d a) s d (s.sl.xr a)
    ∧ WritesX (.movXFromLane g t d v n) s d (ext t ((lane t.width n.val (s.sl.vr v) : Nat) : Int))
    ∧ WritesX (.movXFromP g d p) s d ((s.sl.pr p).setWidth 64)
    ∧ WritesX (.li g f d i) s d (match f with
        | .sext => BitVec.ofInt 64 (signedOf 32 i.toNat)
        | .zext => BitVec.ofNat 64 i.toNat
        | .upper c => BitVec.ofNat 64 (i.toNat * 2 ^ 32 + (s.sl.xr c).toNat % 2 ^ 32))

/-- R114: moves to v and p registers. -/
def Sys2Proof.Parts.MoveToVectorAndPredicate : Prop :=
  ∀ (s : State) (g : Ctl) (t : IType) (d e : VReg) (a : XReg) (p q : PReg) (n : Fin 64), s.sl.guard g = true →
    WritesV (.movLaneFromX g t d a n) s d (setLane t.width n.val (uval t (s.sl.xr a).toNat) (s.sl.vr d))
    ∧ WritesV (.movBroadcast g t d a) s d (lanes t.width (512 / t.width) fun _ => uval t (s.sl.xr a).toNat)
    ∧ WritesV (.movVV g d e) s d (s.sl.vr e)
    ∧ WritesP (.movPFromX g p a) s p ((s.sl.xr a).setWidth 16)
    ∧ WritesP (.movPP g p q) s p (s.sl.pr q)

/-- R116, R117: compares write sixteen like bits of P[D]; predicate logic works bit by bit; p0 discards the write. -/
def Sys2Proof.Parts.PredicateResults : Prop :=
  ∀ (s : State) (g : Ctl) (t : IType) (k : ICond) (e : EqCond) (l : PLogic) (d p q : PReg) (a b : XReg) (c f : CReg) (i : Imm),
    s.sl.guard g = true →
    let x := val t (s.sl.xr a).toNat
    WritesP (.setpCompare g t k d a b) s d (if iHolds k x (val t (s.sl.xr b).toNat) then 0xFFFF else 0)
    ∧ WritesP (.setpCompareImm g t k d a i) s d (if iHolds k x (val t (immSX t i).toNat) then 0xFFFF else 0)
    ∧ WritesP (.setpLogic g l d p q) s d (pApply l (s.sl.pr p) (s.sl.pr q))
    ∧ WritesP (.setpBitTest g e d a i) s d (if eqHolds e ((s.sl.xr a).setWidth 32 &&& i == 0) then 0xFFFF else 0)
    ∧ WritesP (.setpCapEqual g e d c f) s d (if eqHolds e (s.sl.cr c == s.sl.cr f) then 0xFFFF else 0)

/-- R111 … R117: counts, selects, constants, moves and the writes of p registers. -/
def Obligations.MovesAndPredicates : Prop :=
  Sys2Proof.Parts.MoveResults ∧ Sys2Proof.Parts.MoveToVectorAndPredicate ∧ Sys2Proof.Parts.PredicateResults

/-! ## Control -/

/-- R118, R124: `br`, `br` on register and `call` under a true guard, and `loop`: where control goes, the link that `call`
writes, and the loop registers, whose sums carry into the object number; a register test that fails, and a `loop` that has
passes to make, fall through: the end-of-body test (R125) is made at the `loop` itself too. -/
def Obligations.RelativeTransfers : Prop :=
  ∀ (s : State) (g : Ctl) (off dist : Imm) (n d16 : BitVec 16) (onZero : Bool) (d a : XReg), s.sl.guard g = true →
    let here := s.sl.pc
    let target := here + 12 * signedOf 32 off.toNat
    let sum (a : Int) : Word := BitVec.ofInt 64 ((s.sl.obj : Int) * 2 ^ 32 + a)
    let begins (i : Instr) (k : Nat) (cnt : Word) : Prop := Completes i s fun u =>
      let le := (sum (here + 12 * (k : Int))).toNat
      let ends := ((le % 2 ^ 32 : Nat) : Int) = here ∧ (le / 2 ^ 32 = 0 ∨ le / 2 ^ 32 = s.sl.obj)
      u.sl.ls = sum (here + 12) ∧ u.sl.le = sum (here + 12 * (k : Int)) ∧ u.sl.obj = s.sl.obj
      ∧ (cnt = 0 → u.sl.pc = here + 12 * (k : Int) + 12 ∧ u.sl.lc = 0)
      ∧ (cnt ≠ 0 → ¬ ends → u.sl.pc = here + 12 ∧ u.sl.lc = cnt)
      ∧ (cnt ≠ 0 → ends → u.sl.lc = cnt - 1
          ∧ u.sl.pc = if cnt - 1 ≠ 0 then (((sum (here + 12)).toNat % 2 ^ 32 : Nat) : Int) else here + 12)
      ∧ u.sl.fflags = s.sl.fflags ∧ OwesAsBefore s.sl u.sl none
      ∧ SlotKept { s.sl with ls := u.sl.ls, le := u.sl.le } u.sl {} ∧ Elsewhere s u ∧ PacedBy i s u
    Jumps (.br g off) s {} s.sl.obj target (fun b => OwesAsBefore s.sl b none)
    ∧ (if (s.sl.xr a = 0 ↔ onZero = true) then
         Jumps (.brOnRegister g onZero a off) s {} s.sl.obj target (fun b => OwesAsBefore s.sl b none)
       else ActsNot (.brOnRegister g onZero a off) s)
    ∧ Jumps (.call g d off) s { x := some d } s.sl.obj target
        (fun b => b.xr d = if d = 0 then 0 else s.sl.codeAddr (here + 12))
    ∧ begins (.loopRegister g a dist) dist.toNat (s.sl.xr a)
    ∧ begins (.loopImmediate g n d16) d16.toNat (n.setWidth 64)

/-- R119, R120: the indirect transfers with a code address that passes the checks: the link, then control. -/
def Sys2Proof.Parts.TargetsReached : Prop :=
  ∀ (s : State) (g : Ctl) (d a : XReg), s.sl.guard g = true →
    let t := s.sl.xr a
    let n := t.toNat / 2 ^ 32
    let objs := (s.worldAt s.sl.world).objs
    let to_ := if n = 0 then s.sl.obj else n
    (n ≠ 0 → n ≠ s.sl.obj → n ∈ objs.keys) → (SMap.look CodeObj.reset objs to_).quarantined = false → t.toNat % 4 = 0 →
    let goes (i : Instr) (w : Dests) (post : Slot → Prop) : Prop := Jumps i s w to_ ((t.toNat % 2 ^ 32 : Nat) : Int) post
    let link (b : Slot) : Prop := b.xr d = if d = 0 then 0 else s.sl.codeAddr (s.sl.pc + 12)
    (n = 0 ∨ n = s.sl.obj → goes (.bx g a) {} (fun b => OwesAsBefore s.sl b none) ∧ goes (.callIndirect g d a) { x := some d } link)
    ∧ (n ≠ 0 → goes (.callh g d a) { x := some d } link)
    ∧ goes (.ret g a) {} (fun b => OwesAsBefore s.sl b none)

/-- R119: the checks of the indirect transfers in their order, with their causes; a fault writes no link. That the quarantine of
the current object faults as that of another does is the model's reading (log entry 52). -/
def Sys2Proof.Parts.TargetFaults : Prop :=
  ∀ (s : State) (g : Ctl) (d a : XReg), s.sl.guard g = true →
    let t := s.sl.xr a
    let n := t.toNat / 2 ^ 32
    let objs := (s.worldAt s.sl.world).objs
    let to_ := if n = 0 then s.sl.obj else n
    let unpublished := n ≠ 0 ∧ n ≠ s.sl.obj ∧ n ∉ objs.keys
    let quarantined := (SMap.look CodeObj.reset objs to_).quarantined = true
    (n = 0 → FaultsWith (.callh g d a) s (FaultInfo.of 0x3D))
    ∧ (n ≠ 0 → n ≠ s.sl.obj → FaultsWith (.bx g a) s (FaultInfo.of 0x3D)
        ∧ FaultsWith (.callIndirect g d a) s (FaultInfo.of 0x3D))
    ∧ (unpublished → FaultsWith (.callh g d a) s (FaultInfo.of 0x3D) ∧ FaultsWith (.ret g a) s (FaultInfo.of 0x3D))
    ∧ (¬ unpublished → quarantined → (n ≠ 0 → FaultsWith (.callh g d a) s (FaultInfo.of 0x3B))
        ∧ FaultsWith (.ret g a) s (FaultInfo.of 0x3B)
        ∧ (n = 0 ∨ n = s.sl.obj → FaultsWith (.bx g a) s (FaultInfo.of 0x3B)
            ∧ FaultsWith (.callIndirect g d a) s (FaultInfo.of 0x3B)))
    ∧ (¬ unpublished → ¬ quarantined → t.toNat % 4 ≠ 0 → FaultsWith (.callh g d a) s (FaultInfo.of 0x3D)
        ∧ FaultsWith (.ret g a) s (FaultInfo.of 0x3D) ∧ FaultsWith (.bx g a) s (FaultInfo.of 0x3D)
        ∧ FaultsWith (.callIndirect g d a) s (FaultInfo.of 0x3D))

/-- R119, R120: where the indirect transfers go, and the checks that stop them. -/
def Obligations.IndirectTransfers : Prop := Sys2Proof.Parts.TargetsReached ∧ Sys2Proof.Parts.TargetFaults

/-! ## Capabilities -/

/-- R129 … R132 with R40: the geometric derivations of a capability that passes the source checks: the derived line in
C[D]; parameters that would widen it raise cause 0x13. The line is tagged but where its base would lie outside the address
space, which an empty view's may (the model's choice, log entry 82). -/
def Sys2Proof.Parts.DerivedLines : Prop :=
  ∀ (s : State) (g : Ctl) (d a : CReg) (b : XReg) (q : XQuad) (k : Fin 4) (f o : BitVec 30) (pi : BitVec 8) (imm : Imm),
    s.sl.guard g = true →
    let c := (s.sl.cr a).f
    (s.sl.cr a).tag = true → c.has permSL = true → (c.life = 2 → c.cmpt = s.sl.cmpt) → c.seal_ = 0 →
    let gives (i : Instr) (ok : Prop) (r : CapF) : Prop :=
      (ok → WritesC i s d { bits := r.toBits, tag := decide (r.base < 2 ^ 57) }) ∧ (¬ ok → FaultsWith i s (FaultInfo.of 0x13))
    let slice (i : Instr) (at_ n : Nat → Nat) : Prop :=
      let e := c.offset (Coords.of fun j => (at_ j : Int))
      gives i ((∀ j, j < 4 → if j < c.rank then at_ j + n j ≤ c.ext j else at_ j = 0 ∧ n j = 1) ∧ (fmtBits c.fmt = 4 → e % 2 = 0))
        { c with base := unsignedOf 64 ((c.base : Int) + e * (fmtBits c.fmt : Int) / 8), ext0 := n 0, ext1 := n 1, ext2 := n 2,
                 ext3 := n 3 }
    let step (i : Instr) (m : Nat) : Prop :=
      let sd := (m : Int) * c.sd k.val
      gives i (m ≠ 0 ∧ k.val < c.rank ∧ -(2 ^ 39) ≤ sd ∧ sd < 2 ^ 39)
        (c.withShape (fun j => if j = k.val then (c.ext j + m - 1) / m else c.ext j)
                     (fun j => if j = k.val then sd else c.sd j))
    let fix (i : Instr) (x : Nat) : Prop :=
      let e := (x : Int) * c.sd k.val
      gives i (k.val < c.rank ∧ x < c.ext k.val ∧ c.rank ≠ 1 ∧ (fmtBits c.fmt = 4 → e % 2 = 0))
        { c.withShape (fun j => if j < k.val then c.ext j else if j < 3 then c.ext (j + 1) else 1)
                      (fun j => if j < k.val then c.sd j else if j < 3 then c.sd (j + 1) else 0) with
          base := unsignedOf 64 ((c.base : Int) + e * (fmtBits c.fmt : Int) / 8), rank := c.rank - 1 }
    let p (j : Nat) : Nat := pi.toNat / 4 ^ j % 4
    let z := s.sl.xr b
    let half (r j : Nat) : Nat := (s.sl.xr (Fin.ofNat 32 (q.val + r + j / 2))).toNat / 2 ^ (32 * (j % 2)) % 2 ^ 32
    slice (.csliceImmediate g d a b imm)
      (fun j => if c.rank = 1 then if j = 0 then z.toNat else 0
        else if c.rank = 2 then if j < 2 then z.toNat / 2 ^ (32 * j) % 2 ^ 32 else 0
        else z.toNat / 2 ^ (16 * j) % 2 ^ 16)
      (fun j => imm.toNat / 2 ^ (8 * j) % 2 ^ 8)
    ∧ slice (.csliceRegister g d a q) (fun j => if j < c.rank then half 0 j else 0)
        (fun j => if j < c.rank then half 2 j else 1)
    ∧ step (.cstepRegister g d a b k) z.toNat ∧ step (.cstepImmediate g d a k f) f.toNat
    ∧ fix (.cfixRegister g d a b k) z.toNat ∧ fix (.cfixImmediate g d a k o) o.toNat
    ∧ gives (.ctrans g d a pi)
        ((∀ j, j < 4 → if j < c.rank then p j < c.rank else p j = j)
          ∧ ∀ i j, i < c.rank → j < c.rank → i < 4 → j < 4 → p i = p j → i = j)
        (c.withShape (fun j => c.ext (p j)) fun j => c.sd (p j))

/-- R40: the source checks of the geometric derivations, in their order. -/
def Sys2Proof.Parts.DerivationSourceFaults : Prop :=
  ∀ (s : State) (g : Ctl) (d a : CReg) (b : XReg) (q : XQuad) (k : Fin 4) (f o : BitVec 30) (pi : BitVec 8) (imm : Imm),
    s.sl.guard g = true →
    let c := (s.sl.cr a).f
    let all (n : Nat) : Prop :=
      ∀ i ∈ [Instr.csliceRegister g d a q, .csliceImmediate g d a b imm, .cstepRegister g d a b k, .cstepImmediate g d a k f,
        .ctrans g d a pi, .cfixRegister g d a b k, .cfixImmediate g d a k o], FaultsWith i s (FaultInfo.of n)
    ((s.sl.cr a).tag = false → all 0x10)
    ∧ ((s.sl.cr a).tag = true → (c.has permSL = false ∨ c.life = 2 ∧ c.cmpt ≠ s.sl.cmpt) → all 0x12)
    ∧ ((s.sl.cr a).tag = true → c.has permSL = true → (c.life = 2 → c.cmpt = s.sl.cmpt) → c.seal_ ≠ 0 → all 0x14)

/-- R40, R129 … R132: the geometric derivations, their source checks and the lines that they derive. -/
def Obligations.GeometricDerivations : Prop := Sys2Proof.Parts.DerivedLines ∧ Sys2Proof.Parts.DerivationSourceFaults

/-- R133, R136: `cperm`: its source checks are those of R40 but for SL, in their order; and `cmov`. -/
def Sys2Proof.Parts.PermAndMoveResults : Prop :=
  ∀ (s : State) (g : Ctl) (d a : CReg) (imm : Imm), s.sl.guard g = true →
    let c := (s.sl.cr a).f
    let v := imm.toNat
    let shorten := v / 2 ^ 19 % 2 = 1
    let reformat := v / 2 ^ 28 % 2 = 1
    let hints := v / 2 ^ 29 % 2 = 1
    let life := v / 2 ^ 16 % 8
    let fmt := v / 2 ^ 20 % 256
    let ok := (shorten → life ≤ c.life ∧ life ≠ 4 ∧ c.life ≠ 4 ∧ life ≠ 6 ∧ life ≠ 7)
      ∧ (reformat → fmt ≠ 0x20 ∧ fmt ≠ 0x21 ∧ c.fmt ≠ 0x20 ∧ c.fmt ≠ 0x21 ∧ fmtBits fmt = fmtBits c.fmt)
    WritesC (.cmov g d a) s d (s.sl.cr a)
    ∧ ((s.sl.cr a).tag = true → (c.life = 2 → c.cmpt = s.sl.cmpt) → c.seal_ = 0 →
        (ok → WritesC (.cperm g d a imm) s d
          { c with perm := c.perm &&& v % 2 ^ 16
                   life := if shorten then life else c.life
                   fmt := if reformat then fmt else c.fmt
                   hlay := if hints then v / 2 ^ 20 % 8 else c.hlay
                   hswz := if hints then v / 2 ^ 23 % 32 else c.hswz }.reg)
        ∧ (¬ ok → FaultsWith (.cperm g d a imm) s (FaultInfo.of 0x13)))
    ∧ ((s.sl.cr a).tag = false → FaultsWith (.cperm g d a imm) s (FaultInfo.of 0x10))
    ∧ ((s.sl.cr a).tag = true → c.life = 2 → c.cmpt ≠ s.sl.cmpt → FaultsWith (.cperm g d a imm) s (FaultInfo.of 0x12))
    ∧ ((s.sl.cr a).tag = true → (c.life = 2 → c.cmpt = s.sl.cmpt) → c.seal_ ≠ 0 →
        FaultsWith (.cperm g d a imm) s (FaultInfo.of 0x14))

/-- R134: `cseal` and `cunseal` with an authority and a target that pass every step; and the steps that stop them, in their
order: the check of R38 on the authority with the seal as its coordinate, its rank, format and stride, then the target's
tag, its lifetime and its seal. -/
def Sys2Proof.Parts.SealResults : Prop :=
  ∀ (s : State) (g : Ctl) (d a b : CReg) (t : BitVec 16), s.sl.guard g = true →
    let au := (s.sl.cr b).f
    let c := (s.sl.cr a).f
    let authority (perm : Nat) : Prop :=
      (s.sl.cr b).tag = true ∧ au.base ≤ t.toNat ∧ t.toNat < au.base + au.ext0 ∧ 0 < au.ext1 ∧ 0 < au.ext2 ∧ 0 < au.ext3
      ∧ au.has perm = true ∧ au.fmt = 0 ∧ (au.life = 2 → au.cmpt = s.sl.cmpt) ∧ au.seal_ = 0 ∧ au.rank = 1 ∧ au.sd0 = 1
    let target := (s.sl.cr a).tag = true ∧ (c.life = 2 → c.cmpt = s.sl.cmpt)
    let k : Coords := { k0 := (t.toNat : Int) - au.base, k1 := 0, k2 := 0, k3 := 0 }
    (authority permSE → target → c.seal_ = 0 → WritesC (.cseal g d a b t) s d { c with seal_ := t.toNat }.reg)
    ∧ (authority permUS → target → c.seal_ = t.toNat → WritesC (.cunseal g d a b t) s d { c with seal_ := 0 }.reg)
    ∧ (∀ i perm need, (i = .cseal g d a b t ∧ perm = permSE ∧ need = 0) ∨ (i = .cunseal g d a b t ∧ perm = permUS ∧ need = t.toNat) →
        let fails (n : Nat) : Prop := FaultsWith i s (FaultInfo.of n)
        (∀ n, check (s.sl.cr b) s.sl.cmpt [perm] fmtIsData k = .error n → FaultsWith i s (FaultInfo.ofCheck (s.sl.cr b) n k))
        ∧ (∀ e, check (s.sl.cr b) s.sl.cmpt [perm] fmtIsData k = .ok e →
            (au.rank ≠ 1 ∨ au.fmt ≠ 0 ∨ au.sd0 ≠ 1 → fails 0x12)
            ∧ (au.rank = 1 → au.fmt = 0 → au.sd0 = 1 →
                ((s.sl.cr a).tag = false → fails 0x10)
                ∧ ((s.sl.cr a).tag = true → c.life = 2 → c.cmpt ≠ s.sl.cmpt → fails 0x12)
                ∧ (target → c.seal_ ≠ need → fails 0x14))))

/-- R135: what `cget` reads, by its selector, from any capability register. -/
def Sys2Proof.Parts.CgetResults : Prop :=
  ∀ (s : State) (g : Ctl) (d : XReg) (q : PReg) (a : CReg), s.sl.guard g = true →
    let v := s.sl.cr a
    let c := v.f
    let reads (sel : Nat) (w : Word) : Prop := WritesX (.cgetX g d a (BitVec.ofNat 8 sel)) s d w
    let tests (sel : Nat) (b : Prop) [Decidable b] : Prop :=
      WritesP (.cgetP g q a (BitVec.ofNat 8 sel)) s q (if b then 0xFFFF else 0)
    (∀ x ∈ [(0x00, c.base), (0x01, c.ext0), (0x02, c.ext1), (0x03, c.ext2), (0x04, c.ext3), (0x09, c.fmt), (0x0A, c.rank),
        (0x0B, c.perm), (0x0C, c.life), (0x0D, c.gen), (0x0E, c.seal_), (0x0F, c.cmpt), (0x10, c.hlay), (0x11, c.hswz),
        (0x12, if v.tag then 1 else 0), (0x13, min (c.ext0 * c.ext1 * c.ext2 * c.ext3) (2 ^ 64 - 1))],
      reads x.1 (BitVec.ofNat 64 x.2))
    ∧ (∀ x ∈ [(0x05, c.sd0), (0x06, c.sd1), (0x07, c.sd2), (0x08, c.sd3)], reads x.1 (BitVec.ofInt 64 x.2))
    ∧ (∀ j, j < 8 → reads (0x20 + j) (BitVec.ofNat 64 (v.bits.toNat / 2 ^ (64 * j) % 2 ^ 64)))
    ∧ tests 0x00 (v.tag = true) ∧ tests 0x01 (c.seal_ ≠ 0)
    ∧ tests 0x02 (v.tag = true ∧ c.seal_ = 0 ∧ (c.life = 2 → c.cmpt = s.sl.cmpt))
    ∧ tests 0x03 (c.ext0 = 0 ∨ c.ext1 = 0 ∨ c.ext2 = 0 ∨ c.ext3 = 0)
    ∧ ∀ n, n < 14 → tests (0x10 + n) (v.tag = true ∧ c.has n = true)

/-- R133 … R136: permissions and moves, sealing, and reading the fields of a capability. -/
def Obligations.OtherDerivations : Prop :=
  Sys2Proof.Parts.PermAndMoveResults ∧ Sys2Proof.Parts.SealResults ∧ Sys2Proof.Parts.CgetResults

/-- R38: the check of an element, in its order, with the element's address; the fault of a check that fails names its
coordinates, and the address of the element that they name in a tagged view (the model's reading, log entry 84). -/
def Obligations.CapabilityCheck : Prop :=
  ∀ (c : CapReg) (cmpt : Nat) (perms : List Nat) (allowed : Nat → Bool) (k : Coords),
    let f := c.f
    let inside := (0 ≤ k.k0 ∧ k.k0 < f.ext0) ∧ (0 ≤ k.k1 ∧ k.k1 < f.ext1) ∧ (0 ≤ k.k2 ∧ k.k2 < f.ext2)
      ∧ (0 ≤ k.k3 ∧ k.k3 < f.ext3)
    let granted := (∀ p ∈ perms, f.has p = true) ∧ allowed f.fmt = true ∧ (f.life = 2 → f.cmpt = cmpt)
    let e := k.k0 * f.sd0 + k.k1 * f.sd1 + k.k2 * f.sd2 + k.k3 * f.sd3
    (c.tag = false → check c cmpt perms allowed k = .error 0x10)
    ∧ (c.tag = true → ¬ inside → check c cmpt perms allowed k = .error 0x11)
    ∧ (c.tag = true → inside → ¬ granted → check c cmpt perms allowed k = .error 0x12)
    ∧ (c.tag = true → inside → granted → f.seal_ ≠ 0 → check c cmpt perms allowed k = .error 0x14)
    ∧ (c.tag = true → inside → granted → f.seal_ = 0 →
        check c cmpt perms allowed k = .ok
          (if fmtBits f.fmt = 4 then
            { va := ((f.base : Int) + e.fdiv 2).toNat, nib := (e.fmod 2).toNat, bits := 4, coords := k }
           else { va := ((f.base : Int) + e * ((fmtBits f.fmt / 8 : Nat) : Int)).toNat, nib := 0, bits := fmtBits f.fmt,
                  coords := k }))
    ∧ ∀ n, FaultInfo.ofCheck c n k = { FaultInfo.of n with
        at_ := k
        fva := if c.tag = true ∧ inside then
            if fmtBits f.fmt = 4 then ((f.base : Int) + e.fdiv 2).toNat
            else ((f.base : Int) + e * ((fmtBits f.fmt / 8 : Nat) : Int)).toNat
          else 0 }

/-! ## Loads, stores and atomics -/

/-- R140 … R144, R149, R25: a load whose elements pass the check of R38 owes its result; with no guarded lane nothing is
owed, and `vgth` zeroes nothing above element 15 then (the model's reading, log entry 94). `slock` owes its status. -/
def Obligations.LoadsOwe : Prop :=
  ∀ (s : State) (g : Ctl) (t : IType) (et : EType) (vt : VType) (d : XReg) (v b : VReg) (c a : CReg) (m : MemOp) (r : MemReg)
    (sc : ScopeCode) (e : Elem) (el : Nat → Elem),
    let ok (x : CReg) (p : Nat) (f : Nat → Bool) (k : Coords) (y : Elem) : Prop := check (s.sl.cr x) s.sl.cmpt [p] f k = .ok y
    let on (w n : Nat) : List Nat := (List.range n).filter (s.sl.laneGuard g w)
    let vlds := on (eWidth et) (512 / eWidth et)
    let vgths := on vt.width (gatherCount vt.width)
    (s.sl.guard g = true → ok m.c permLD (fmtOfWidth t.width) (s.sl.coords m) e →
      Owes (.ld g t d m) s (some (.x d.val)) fullMask (.load t e) false)
    ∧ (s.sl.guard g = true → ok r.c permLD (fmtOfWidth t.width) (s.sl.coordsR r) e →
      Owes (.ldAcq g t d r sc) s (some (.x d.val)) fullMask (.load t e) true)
    ∧ (s.sl.guard g = true → ok m.c permLC fmtIsLine (s.sl.coords m) e →
      Owes (.cld g c m) s (some (.c c.val)) fullMask (.cload e) false)
    ∧ (s.sl.guard g = true → ok m.c permLD fmtIsData (s.sl.coords m) e →
      Owes (.slock g d m) s (some (.x d.val)) fullMask (.slock e) false)
    ∧ (vlds ≠ [] → (∀ i ∈ vlds, ok m.c permLD (fmtOfWidth (eWidth et)) ((s.sl.coords m).shift i) (el i)) →
      Owes (.vld g et v m) s (some (.v v.val)) (laneMask (eWidth et) vlds)
        (.vload (eWidth et) (vlds.map fun i => (i, el i)) (vlds.map fun i => (i, el i)) [] none false) false)
    ∧ (vgths ≠ [] →
        (∀ i ∈ vgths, ok a permLD (fmtOfWidth vt.width) (gatherCoords vt.width (s.sl.cr a).f.rank (s.sl.vr b) i) (el i)) →
      Owes (.vgth g vt v a b) s (some (.v v.val)) (laneMask vt.width vgths ||| gatherTop vt.width)
        (.vload vt.width (vgths.map fun i => (i, el i)) (vgths.map fun i => (i, el i)) [] none false) false)
    ∧ (vlds = [] → ActsNot (.vld g et v m) s) ∧ (vgths = [] → ActsNot (.vgth g vt v a b) s)

/-- R138, R140 … R144, R299: a store whose elements are checked completely puts its writes into the slot's store queue and
changes no byte of memory yet; `st.rel` up to package scope marks its write as a release. A refused element faults. -/
def Sys2Proof.Parts.DataStores : Prop :=
  ∀ (s s1 : State) (g : Ctl) (t : IType) (et : EType) (vt : VType) (d : XReg) (v b : VReg) (a : CReg) (m : MemOp) (r : MemReg)
    (sc : ScopeCode) (e : Elem) (p : Place) (ws : List (OutOp × Place)),
    let on (w n : Nat) : List Nat := (List.range n).filter (s.sl.laneGuard g w)
    let w := eWidth et
    let z := vt.width
    let word : Word := BitVec.ofNat 64 (uval t (s.sl.xr d).toNat)
    (s.sl.guard g = true → check (s.sl.cr m.c) s.sl.cmpt [permST] (fmtOfWidth t.width) (s.sl.coords m) = .ok e →
      s.placeAt .store e = .ok p → (s.reserve (s.who s.cur) s.sl.seq p).isSome = true →
      Queues (.st g t d m) s none [(.data e word, p)])
    ∧ (s.sl.guard g = true → sc.val < 7 → check (s.sl.cr r.c) s.sl.cmpt [permST] (fmtOfWidth t.width) (s.sl.coordsR r) = .ok e →
      s.placeAt .store e = .ok p → (s.reserve (s.who s.cur) s.sl.seq p).isSome = true →
      Queues (.stRel g t d r sc) s (some sc.val) [(.data e word, p)])
    ∧ (on w (512 / w) ≠ [] → s.checkStores .vstore (s.sl.cr m.c) (fmtOfWidth w) ((on w (512 / w)).map fun i =>
          ((s.sl.coords m).shift i, BitVec.ofNat 64 (lane w i (s.sl.vr v)))) = .ok (s1, ws) →
      Queues (.vst g et v m) s none ws)
    ∧ (on z (gatherCount z) ≠ [] → s.checkStores .vstore (s.sl.cr a) (fmtOfWidth z) ((on z (gatherCount z)).map fun i =>
          (gatherCoords z (s.sl.cr a).f.rank (s.sl.vr b) i, BitVec.ofNat 64 (lane z i (s.sl.vr v)))) = .ok (s1, ws) →
      Queues (.vsct g vt v a b) s none ws)
    ∧ (on w (512 / w) = [] → ActsNot (.vst g et v m) s) ∧ (on z (gatherCount z) = [] → ActsNot (.vsct g vt v a b) s)
    ∧ (∀ n, s.sl.guard g = true → check (s.sl.cr m.c) s.sl.cmpt [permST] (fmtOfWidth t.width) (s.sl.coords m) = .error n →
        FaultsWith (.st g t d m) s (FaultInfo.ofCheck (s.sl.cr m.c) n (s.sl.coords m)))
    ∧ (s.sl.guard g = true → check (s.sl.cr m.c) s.sl.cmpt [permST] (fmtOfWidth t.width) (s.sl.coords m) = .ok e →
        (∀ f, s.placeAt .store e = .error f → FaultsWith (.st g t d m) s f)
        ∧ (s.placeAt .store e = .ok p → s.reserve (s.who s.cur) s.sl.seq p = none →
            FaultsWith (.st g t d m) s { FaultInfo.atElem 0x3A e with agent := 3 }))

/-- R138, R143, R144: `vst` and `vsct` take the elements whose lane guard is true, in ascending order, each checked completely
before the next; the first that fails a check, its translation or, in a revision, its place in the spill area is the fault,
and nothing is queued. -/
def Sys2Proof.Parts.VectorStoreLanes : Prop :=
  ∀ (s : State) (g : Ctl) (et : EType) (vt : VType) (v b : VReg) (a : CReg) (m : MemOp) (el : Nat → Elem) (pl : Nat → Place)
    (k n : Nat) (f : FaultInfo),
    let stores (i : Instr) (c : CReg) (w : Nat) (on : List Nat) (co : Nat → Coords) : Prop :=
      let checks (j : Nat) (r : Except Nat Elem) : Prop := check (s.sl.cr c) s.sl.cmpt [permST] (fmtOfWidth w) (co j) = r
      let room (j : Nat) : Prop := s.reserve (s.who s.cur) s.sl.seq (pl j) = some s
      let passes (j : Nat) : Prop := checks j (.ok (el j)) ∧ s.placeAt .vstore (el j) = .ok (pl j) ∧ room j
      (on ≠ [] → (∀ j ∈ on, passes j) →
        Queues i s none (on.map fun j => (.data (el j) (BitVec.ofNat 64 (lane w j (s.sl.vr v))), pl j)))
      ∧ (k ∈ on → (∀ j ∈ on, j < k → passes j) →
        (checks k (.error n) → FaultsWith i s (FaultInfo.ofCheck (s.sl.cr c) n (co k)))
        ∧ (checks k (.ok (el k)) →
          (s.placeAt .vstore (el k) = .error f → FaultsWith i s f)
          ∧ (s.placeAt .vstore (el k) = .ok (pl k) → s.reserve (s.who s.cur) s.sl.seq (pl k) = none →
              FaultsWith i s { FaultInfo.atElem 0x3A (el k) with agent := 3 })))
    stores (.vst g et v m) m.c (eWidth et) ((List.range (512 / eWidth et)).filter (s.sl.laneGuard g (eWidth et)))
      (s.sl.coords m).shift
    ∧ stores (.vsct g vt v a b) a vt.width ((List.range (gatherCount vt.width)).filter (s.sl.laneGuard g vt.width))
      (gatherCoords vt.width (s.sl.cr a).f.rank (s.sl.vr b))

/-- R43: which capability line may be stored through an authority at a place, in the order of its steps; the mint aperture
skips the steps of heap generations and GL (R347). A peer's owner is outside this package (log entry 49). R42, R346, R347:
what a load of a line returns. A generation lost to an error is none (R47; the model's choice, log entry 89). -/
def Sys2Proof.Parts.CapabilityLineRules : Prop :=
  ∀ (s : State) (w : Who) (v auth : CapReg) (p : Place),
    let mint := p.kind = .mint
    let stale (c : CapReg) : Prop :=
      c.tag = true ∧ c.f.life = 4 ∧ s.generation w.world w.part c.f.base ≠ some c.f.gen
    s.capValue w v auth p =
        (if v.tag = false then none
         else if ¬ mint ∧ (s.worldAt w.world).rev ≠ none ∧ stale v then some 0x15
         else if p.untagged = true then some 0x16
         else if lifeRank v.f.life < lifeRank auth.f.life then some 0x16
         else if ¬ mint ∧ 2 ≤ lifeRank auth.f.life ∧ v.f.has permGL = false then some 0x16
         else if p.kind = .peer ∧ peerOwner p.key ≠ w.world then some 0x16
         else none)
    ∧ s.loadedCap w p v =
        (if mint ∧ v.tag = true ∧ v.f.life = 4 then { v.f with gen := (s.generation w.world w.part v.f.base).getD 0 }.reg
         else if mint ∧ v.tag = true ∧ v.f.seal_ = 0 ∧ v.f.fmt = 0x21 ∧ v.f.has permEX = true then
           { v.f with seal_ := 1, perm := permMask [permEX, permCL, permGL], life := 3,
                      cmpt := s.codeOwner w.world v.f.base }.reg
         else if stale v then { v with tag := false } else v)

/-- R142, R43, R147, R199: `cst` queues its line, or, before `commit` through a capability of lifetime global, is
deferred; a value that breaks the capability-store rule faults with its cause, before a full spill area does (the model's
choice, log entry 95). -/
def Sys2Proof.Parts.CapabilityStores : Prop :=
  ∀ (s : State) (g : Ctl) (d : CReg) (m : MemOp) (e : Elem) (p : Place), s.sl.guard g = true →
    let auth := s.sl.cr m.c
    check auth s.sl.cmpt [permSC] fmtIsLine (s.sl.coords m) = .ok e → s.placeAt .store e = .ok p →
    let deferred := s.sl.committed = none ∧ auth.f.life = 5
    (s.capValue (s.who s.cur) (s.sl.cr d) auth p = none →
      (¬ deferred → (s.reserve (s.who s.cur) s.sl.seq p).isSome = true →
        Queues (.cst g d m) s none [(.line e (s.sl.cr d), p)])
      ∧ (deferred → s.sl.deferred.length < 8 → Defers (.cst g d m) s (.cst (s.sl.cr d) auth e) none)
      ∧ (deferred → 8 ≤ s.sl.deferred.length → FaultsWith (.cst g d m) s (FaultInfo.of 0x38)))
    ∧ (∀ n, s.capValue (s.who s.cur) (s.sl.cr d) auth p = some n → FaultsWith (.cst g d m) s (FaultInfo.atElem n e))

/-- R42, R43, R138 … R143: data and capability stores enter the queue of their slot; which capability lines may be stored, and
what a load of one returns. -/
def Obligations.StoresQueue : Prop :=
  Sys2Proof.Parts.DataStores ∧ Sys2Proof.Parts.VectorStoreLanes ∧ Sys2Proof.Parts.CapabilityLineRules ∧ Sys2Proof.Parts.CapabilityStores

/-- R145 … R147: an atomic is deferred before `commit`, with the operands it read, and owes its result after it. -/
def Sys2Proof.Parts.AtomicsDeferOrOwe : Prop :=
  ∀ (s : State) (g : Ctl) (t : IType) (k : AmoOp) (d : XReg) (x : XPair) (c : CPair) (m : MemOp) (e : Elem), s.sl.guard g = true →
    let checked (ps : List Nat) (f : Nat → Bool) : Prop := check (s.sl.cr m.c) s.sl.cmpt ps f (s.sl.coords m) = .ok e
    let data := checked [permLD, permST, permAT] (fmtOfWidth t.width)
    let caps := checked [permLD, permST, permLC, permSC, permAT] fmtIsLine
    let x1 := s.sl.xr (Fin.ofNat 32 x.val)
    let x2 := s.sl.xr (Fin.ofNat 32 (x.val + 1))
    let c1 := s.sl.cr (Fin.ofNat 16 c.val)
    let c2 := s.sl.cr (Fin.ofNat 16 (c.val + 1))
    let fa : Flight := .amo t k (s.sl.xr d) e
    let fc : Flight := .cas t x1 x2 e
    let fl : Flight := .ccas c1 c2 e false
    (s.sl.committed = none → s.sl.deferred.length < 8 → ∀ p, s.placeAt .atomic e = .ok p →
      (data → Defers (.amo g t k d m) s (.mem fa) (some (.x d.val)) ∧ Defers (.cas g t x m) s (.mem fc) (some (.x x.val)))
      ∧ (caps → s.capValue (s.who s.cur) c2 (s.sl.cr m.c) p = none →
          Defers (.casCapability g c m) s (.mem fl) (some (.c c.val))))
    ∧ (s.sl.committed ≠ none →
      (data → Owes (.amo g t k d m) s (some (.x d.val)) fullMask fa false
        ∧ Owes (.cas g t x m) s (some (.x x.val)) fullMask fc false)
      ∧ (caps → s.capValueIssue (s.who s.cur) c2 (s.sl.cr m.c) (decide (mintBase ≤ e.va) && decide (e.va < counterBase)) = none →
          Owes (.casCapability g c m) s (some (.c c.val)) fullMask fl false))

/-- R145, R146: what an atomic does at its home: the old value is returned, and the new one is written, for `cas` only
when the old value is the expected one. The capability form compares the line that a capability load would return, and
stores its new line with its tag; where `tret` performs it again the first check of R43 is made again (R235). A refused
place, an error and a full spill area fault and write nothing. -/
def Sys2Proof.Parts.AtomicActions : Prop :=
  ∀ (s : State) (w : Who) (seq : Nat) (t : IType) (x y : Word) (v1 v2 : CapReg) (again : Bool) (e : Elem) (p : Place)
    (old : Nat) (s2 : State),
    let a := val t old
    let b := val t x.toNat
    let bitwise (n : Nat) : Int := (n : Int)
    let result (k : AmoOp) : Int := match k with
      | .add => a + b
      | .and => bitwise (uval t old &&& uval t x.toNat)
      | .or => bitwise (uval t old ||| uval t x.toNat)
      | .xor => bitwise (uval t old ^^^ uval t x.toNat)
      | .min => min a b
      | .max => max a b
      | .swap => b
    let s1 := (s.touchPage w e.va).readyWrite w p true
    let does (f : Flight) (r : Except FaultInfo (State × CapReg)) : Prop := s.performMem w seq f = r
    let all (r : FaultInfo) : Prop := (∀ k, does (.amo t k x e) (.error r)) ∧ does (.cas t x y e) (.error r)
    let full : FaultInfo := { FaultInfo.atElem 0x3A e with agent := 3 }
    (∀ n, s.xlate w .atomic false e.va = .error n → all (FaultInfo.atElem n e) ∧ does (.ccas v1 v2 e again) (.error (FaultInfo.atElem n e)))
    ∧ (s.xlate w .atomic false e.va = .ok p →
        (s1.placePoisoned w p e.nib e.bits = true → all (FaultInfo.atElem 0x23 e))
        ∧ (s1.placePoisoned w p e.nib e.bits = false → lineElem (s1.viewLine w p) e.va e.nib e.bits = old →
            let writes (n : Int) (r : Option State) : Prop :=
              s1.writeNow w p (.data p.key e.nib e.bits (unsignedOf t.width n)) = r
            let returns (f : Flight) (u : State) : Prop := does f (.ok (u, capOfWord (ext t (old : Int))))
            (∀ k, (writes (result k) (some s2) → returns (.amo t k x e) s2)
              ∧ (writes (result k) none → does (.amo t k x e) (.error full)))
            ∧ (old = uval t x.toNat → (writes (val t y.toNat) (some s2) → returns (.cas t x y e) s2)
              ∧ (writes (val t y.toNat) none → does (.cas t x y e) (.error full)))
            ∧ (old ≠ uval t x.toNat → returns (.cas t x y e) s1))
        ∧ (let old15 := again = true ∧ v2.tag = true ∧ p.kind ≠ .mint ∧ v2.f.life = 4 ∧ (s.worldAt w.world).rev ≠ none
             ∧ s.generation w.world w.part v2.f.base ≠ some v2.f.gen
           let refused := v2.tag = true ∧ (p.untagged = true ∨ p.kind = .peer ∧ peerOwner p.key ≠ w.world)
           let line := s1.loadedCap w p (s1.viewLine w p)
           let writes (r : Option State) : Prop := s1.writeNow w p (.line v2) = r
           let lost := s1.placePoisoned w p 0 512 = true ∨ s1.genLost w.world w.part (s1.viewLine w p) = true
           (old15 → does (.ccas v1 v2 e again) (.error (FaultInfo.atElem 0x15 e)))
           ∧ (¬ old15 → refused → does (.ccas v1 v2 e again) (.error (FaultInfo.atElem 0x16 e)))
           ∧ (¬ old15 → ¬ refused → lost → does (.ccas v1 v2 e again) (.error (FaultInfo.atElem 0x23 e)))
           ∧ (¬ old15 → ¬ refused → ¬ lost →
               (line ≠ v1 → does (.ccas v1 v2 e again) (.ok (s1, line)))
               ∧ (line = v1 → (writes (some s2) → does (.ccas v1 v2 e again) (.ok (s2, line)))
                   ∧ (writes none → does (.ccas v1 v2 e again) (.error full))))))

/-- R145, R146, R199: the atomics at issue, and what each does to its element. -/
def Obligations.Atomics : Prop := Sys2Proof.Parts.AtomicsDeferOrOwe ∧ Sys2Proof.Parts.AtomicActions

/-! ## Fences, pins and prefetches -/

/-- R148, R296, R304 … R306, R310, R311: a fence or a wide release goes on when its accesses have been acknowledged at its scope,
its flush round is done and no host write awaits its flushing read; until then the slot holds. Its round begins once its
accesses are acknowledged, where its scope holds another package, as stripe scope does when a stripe set of the partition has
this package and another as members; its timer runs while that round is not done. A store released beyond package scope then
queues as one at package scope. -/
def Sys2Proof.Parts.FencesAndReleases : Prop :=
  ∀ (s : State) (g : Ctl) (sc : ScopeCode) (t : IType) (d : XReg) (r : MemReg) (e : Elem) (p : Place), s.sl.guard g = true →
    let st := s.stampOf.1
    let s1 := s.stampOf.2
    let part := s.sl.part
    let peers := 7 ≤ sc.val ∧ s1.pathsOf s.sl.world ≠ [] ∧ (sc.val = 7 → ∃ n, n < 16 ∧ (s1.memberOf part n).isSome = true
      ∧ ∃ k, k < min 8 (s1.stripeSet part n).1 ∧ (s1.stripeSet part n).2 k ≠ s1.pkg)
    let acked := (∀ o ∈ s.sl.out, o.seq < s.sl.seq → ackLevel (min sc.val 6) ≤ o.got)
      ∧ (∀ o ∈ s.sl.owed, o.seq < s.sl.seq → o.res = none → o.flight.elems = [])
      ∧ (6 ≤ sc.val → ∀ c ∈ s.coh, ∀ x ∈ c.2.inval, dieOf x.1 = dieOf (s.cur / 4) → st ≤ x.2.2.2)
    let ready := acked ∧ (peers → ∃ q ∈ s1.ports.rounds, q.of s.cur = true ∧ q.done = true)
      ∧ (9 ≤ sc.val → s.sl.hostDirty = [])
    let begins := acked ∧ peers ∧ ∀ q ∈ s1.ports.rounds, q.of s.cur = false
    let holds (i : Instr) : Prop := Completes i s fun u =>
      let waits := ∃ q ∈ u.ports.rounds, q.of s.cur = true ∧ q.done = false
      u.sl = { s.sl with stop := .hold (.release sc.val st), timer := u.sl.timer }
      ∧ (waits → u.sl.timer = some (s.sl.timer.getD (s.now + s.core.wtlim.toNat))) ∧ (¬ waits → u.sl.timer = none)
      ∧ Elsewhere { s1 with ports := u.ports } u
      ∧ (¬ begins → u.ports = s1.ports)
      ∧ (begins → ∃ q, u.ports = { s1.ports with nround := u.ports.nround, rounds := s1.ports.rounds ++ [q] }
          ∧ q.of s.cur = true ∧ q.world = s.sl.world ∧ q.paths = s1.pathsOf s.sl.world ∧ q.got = [] ∧ q.done = false)
    (ready → ActsVia (.fence g sc) s (s1.dropRounds s.cur))
    ∧ (¬ ready → holds (.fence g sc))
    ∧ (7 ≤ sc.val → check (s.sl.cr r.c) s.sl.cmpt [permST] (fmtOfWidth t.width) (s.sl.coordsR r) = .ok e →
        s.placeAt .store e = .ok p → (s.reserve (s.who s.cur) s.sl.seq p).isSome = true →
        (ready → exec (.stRel g t d r sc) s = exec (.stRel g t d r 6) (s1.dropRounds s.cur))
        ∧ (¬ ready → holds (.stRel g t d r sc)))

/-- R149, R150, R337: `sunlock` unpins a line that the slot's team pinned and gives one line back to the quota, removing a
copy that was invalid; a check of R38 that fails faults, and a page that step 3 of R138 refuses does nothing (the model's
choice, log entry 73). `pref` drops what would fail or has no home and counts it, and otherwise fills the cache of its level,
the L1 not with a line that it may not hold; what it does at an aperture, host or peer memory, at a line of a stash page by
level 0 and at a line with an uncommitted write is the model's choice (log entry 75). -/
def Sys2Proof.Parts.PrefetchAndUnlock : Prop :=
  ∀ (s : State) (g : Ctl) (l : PrefLevel) (m : MemOp) (e : Elem) (p : Place) (n : Nat), s.sl.guard g = true →
    let w := s.who s.cur
    let core := s.cur / 4
    let dropped := s.count 0 core 5 1
    let checks (r : Except Nat Elem) : Prop := check (s.sl.cr m.c) s.sl.cmpt [permLD] fmtIsData (s.sl.coords m) = r
    let set_ := e.va / 64 % 1024
    let lk := lineKey p.key
    let ways := SMap.look [] s.core.l1 set_
    let mine := ∃ x ∈ ways, x.key = lk ∧ x.pin = some s.sl.team
    let free (x : L1Line) : List L1Line := if x.key ≠ lk then [x] else if x.valid = true then [{ x with pin := none }] else []
    (checks (.error n) → ActsVia (.pref g l m) s dropped
        ∧ FaultsWith (.sunlock g m) s (FaultInfo.ofCheck (s.sl.cr m.c) n (s.sl.coords m)))
    ∧ (checks (.ok e) →
        (s.xlate w .load false e.va = .error n → ActsVia (.pref g l m) s dropped ∧ ActsNot (.sunlock g m) s)
        ∧ (s.xlate w .load false e.va = .ok p →
            (¬ mine → ActsNot (.sunlock g m) s)
            ∧ (mine → ActsVia (.sunlock g m) s
                ((s.updCore core fun c => { c with l1 := SMap.put [] c.l1 set_ (ways.flatMap free) })
                  |>.updTeam s.sl.team fun t => { t with pins := t.pins - 1 }))
            ∧ (p.kind = .peer → ActsNot (.pref g l m) s)
            ∧ (p.kind = .win ∨ p.kind = .ctr ∨ p.kind = .mint → ActsVia (.pref g l m) s dropped)
            ∧ (p.kind = .host ∨ p.kind = .dev → s.noRecord w e.va = true → ActsVia (.pref g l m) s dropped)
            ∧ (p.kind = .host → s.noRecord w e.va = false →
                ActsNot (.pref g .l1 m) s ∧ ActsNot (.pref g .stash m) s ∧ ActsVia (.pref g .l2 m) s (s.makeReadable core p))
            ∧ (p.kind = .dev → s.noRecord w e.va = false →
                (s.noL1 core p = true ∨ s.pending core false p = true → ActsNot (.pref g .l1 m) s)
                ∧ (s.noL1 core p = false → s.pending core false p = false → ActsVia (.pref g .l1 m) s (s.makeReadable core p))
                ∧ ActsVia (.pref g .l2 m) s ((s.updLine p id).sliceAccess p.home lk)
                ∧ (s.stashBanks core = 0 → ActsVia (.pref g .stash m) s dropped)
                ∧ (s.stashBanks core ≠ 0 → ((s.cohAt lk).owner.isSome = true ∨ (s.cohAt lk).pend.isSome = true) →
                    ActsNot (.pref g .stash m) s)
                ∧ (s.stashBanks core ≠ 0 → (s.cohAt lk).owner = none → (s.cohAt lk).pend = none →
                    ActsVia (.pref g .stash m) s (((s.updLine p id).settle lk).fillStash core p)))))

/-- R148 … R150, R304 … R306: fences, releases, prefetches and the release of a pin. -/
def Obligations.FencesAndHints : Prop := Sys2Proof.Parts.FencesAndReleases ∧ Sys2Proof.Parts.PrefetchAndUnlock

/-! ## Owed values -/

/-- R24, R140 … R142, R145, R146, R149, R226: an owed result that may perform returns, where no request of the same cycle
ties with its own (Parts.PortTies): the owing keeps it for the landing, and
no register changes yet; a cancelled owing drops a value, and keeps a fault (the model's reading, log entry 55). A load
returns what memory held when it performed; one that the slot's own queue supplies reaches no cache. -/
def Sys2Proof.Parts.OwedValuesReturn : Prop :=
  ∀ (s : State) (c k i : Nat) (o : Owed) (p : Place) (n : Nat),
    let key := 4 * c + k
    let sl := s.slotAt key
    let w := s.who key
    sl.owed[i]? = some o → o.res = none → s.rival (.value c k i) = none →
    let gives (t : State) (r : Res) : Prop := Completes (.owedValueReturn c k i) s fun u =>
      let kept := o.live = true ∨ ∃ f, r = .fault f
      OnlySlot key t u
      ∧ (kept → u.slotAt key = { t.slotAt key with owed := (t.slotAt key).owed.set i { o with res := some r } })
      ∧ (¬ kept → u.slotAt key = { t.slotAt key with owed := (t.slotAt key).owed.eraseIdx i })
    (∀ v, o.flight = .ready v → gives s (.val v 0))
    ∧ (∀ kind unit m vec, o.flight = .ctr kind unit m vec → gives s (.val (s.ctrValue sl.world kind unit m vec) 0))
    ∧ (s.canPerform key o = false → (∀ v, o.flight ≠ .ready v) → (∀ kind unit m vec, o.flight ≠ .ctr kind unit m vec) →
        (∀ v l, o.flight ≠ .publish v l) → Stays (.owedValueReturn c k i) s)
    ∧ (s.canPerform key o = true →
        (∀ (e : Elem) (p : Place), s.readyElem w o.seq e p =
          if (elemNibbles p.key e.nib e.bits).all (fun j => s.covered w o.seq (128 * lineKey p.key + j)) then s
          else (s.touchPage w e.va).readyRead w p)
        ∧ (∀ t e, o.flight = .load t e →
          (s.xlate w .load false e.va = .error n → gives s (.fault (FaultInfo.atElem n e)))
          ∧ (s.xlate w .load false e.va = .ok p →
              let s1 := s.readyElem w o.seq e p
              let bad := s1.readPoisoned w o.seq p e.nib e.bits = true
              (bad → gives s (.fault (FaultInfo.atElem 0x23 e)))
              ∧ (¬ bad → gives s1
                  (.val (capOfWord (ext t ((lineElem (s1.overlay w o.seq p) e.va e.nib e.bits : Nat) : Int))) 0))))
        ∧ (∀ e, o.flight = .cload e →
          (s.xlate w .load false e.va = .error n → gives s (.fault (FaultInfo.atElem n e)))
          ∧ (s.xlate w .load false e.va = .ok p →
              let s1 := s.readyElem w o.seq e p
              let bad := s1.readPoisoned w o.seq p e.nib e.bits = true ∨ s1.genLost w.world w.part (s1.overlay w o.seq p) = true
              (bad → gives s (.fault (FaultInfo.atElem 0x23 e)))
              ∧ (¬ bad → gives s1 (.val (s1.loadedCap w p (s1.overlay w o.seq p)) 0))))
        ∧ (∀ e s1, o.flight = .slock e → s.pinLine w e = .ok (s1, n) → gives s1 (.val (capOfWord (BitVec.ofNat 64 n)) 0))
        ∧ (∀ f, s.performMem w o.seq o.flight = f → o.flight.kind = .atomic ∨ o.flight.kind = .observe →
            match f with
            | .ok (s1, v) => gives s1 (.val v 0)
            | .error r => gives s (.fault r)))

/-- R139, R143, R144: a vector load in flight that may perform reads one of the elements it has not read (which one is a
free choice, log entry 70): a page that step 3 of R138 refuses faults before any is read, the lowest position first; an
error at an element leaves only lower ones to read; after the last it returns its lanes, or the fault. One that `tret`
performs again takes its elements in order (R235). -/
def Sys2Proof.Parts.VectorLoadsReturn : Prop :=
  ∀ (s : State) (c k i wd : Nat) (o : Owed) (all es : List (Nat × Elem)) (got : List (Nat × Nat)) (bad : Option FaultInfo)
    (again : Bool),
    let key := 4 * c + k
    let w := s.who key
    (s.slotAt key).owed[i]? = some o → o.res = none → o.live = true → o.flight = .vload wd all es got bad again →
    s.canPerform key o = true → s.rival (.value c k i) = none →
    let sets (t : State) (q : Owed) : Prop := Completes (.owedValueReturn c k i) s fun u =>
      OnlySlot key t u ∧ u.slotAt key = { t.slotAt key with owed := (t.slotAt key).owed.set i q }
    let left (t : State) (l : List (Nat × Elem)) (g : List (Nat × Nat)) (b : Option FaultInfo) : Prop :=
      (l ≠ [] → sets t { o with flight := .vload wd all l g b again })
      ∧ (l = [] → match b with
          | some f => sets t { o with res := some (.fault f) }
          | none => sets t { o with res := some (.val (vloadValue wd g) 0) })
    let s0 : State := { s with fresh := s.fresh + 1 }
    (∀ (m : Nat) (x : Nat × Elem) (n : Nat), es[m]? = some x → s.xlate w .vload false x.2.va = .error n →
        (∀ (j : Nat) (y : Nat × Elem), j < m → es[j]? = some y → ∃ p, s.xlate w .vload false y.2.va = .ok p) →
        sets s { o with res := some (.fault (FaultInfo.atElem n x.2)) })
    ∧ (es ≠ [] → (∀ x ∈ es, ∃ p, s.xlate w .vload false x.2.va = .ok p) → ∃ (j : Nat) (x : Nat × Elem), es[j]? = some x ∧
        (again = true → j = 0) ∧
        (match s0.readElem w .vload o.seq x.2 with
         | .error f => left s0 (es.filter fun y => decide (y.1 < x.1)) got (some f)
         | .ok (s1, v, _) => left s1 (es.eraseIdx j) (got ++ [(x.1, v)]) bad))

/-- R22, R24, R171: a park ends when every live owing has returned, unless the commit window has expired or a pre-emption is requested of an
activation without `commit` (R237): the values land
together, each in the bits it covers, their flags are ORed into `fflags`, those of a cancelled owing too (the model's
reading, log entry 55), and the slot issues again. -/
def Sys2Proof.Parts.ParksLand : Prop :=
  ∀ (s : State) (c k : Nat),
    let key := 4 * c + k
    let a := s.slotAt key
    a.stop = .park → s.expired key = false → (a.preempt = true → a.committed ≠ none) → (∀ o ∈ a.owed, o.live = true → ∃ v fl, o.res = some (.val v fl)) →
    (∀ o ∈ a.owed, ∀ f, o.res ≠ some (.fault f)) → (∀ o ∈ a.owed, o.live = false → o.dest = none) →
    let bare (sl : Slot) : Slot := { sl with x := [], v := [], c := [], fflags := 0, owed := [], stop := .run, readySince := 0 }
    let alone (o : Owed) : Prop := o ∈ a.owed ∧ o.live = true ∧ ∀ q ∈ a.owed, q.live = true → q.dest = o.dest → q = o
    let named (r : RegRef) : Prop := ∃ o ∈ a.owed, o.live = true ∧ o.dest = some r
    Completes (.parkEnd c k) s fun u =>
      let b := u.slotAt key
      OnlySlot key s u ∧ bare b = bare a ∧ b.stop = .run ∧ b.readySince = s.coreNow c
      ∧ b.owed = a.owed.filter (fun o => !o.live && o.res.isNone)
      ∧ (∀ n, ¬ named (.x n) → SMap.look 0 b.x n = SMap.look 0 a.x n)
      ∧ (∀ n, ¬ named (.v n) → SMap.look 0 b.v n = SMap.look 0 a.v n)
      ∧ (∀ n, ¬ named (.c n) → SMap.look CapReg.null b.c n = SMap.look CapReg.null a.c n)
      ∧ (∀ o v fl, alone o → o.res = some (.val v fl) → ∀ n,
          (o.dest = some (.x n) → n ≠ 0 → SMap.look 0 b.x n = v.bits.setWidth 64)
          ∧ (o.dest = some (.v n) →
              SMap.look 0 b.v n = (SMap.look 0 a.v n &&& ~~~o.mask) ||| (v.bits &&& o.mask))
          ∧ (o.dest = some (.c n) → n ≠ 0 → SMap.look CapReg.null b.c n = v))
      ∧ b.fflags = a.owed.foldl (fun f o => match o.res with
          | some (.val _ fl) => f ||| BitVec.ofNat 64 (fl % 32)
          | _ => f) a.fflags

/-- R22 … R26: an owed value returns, and lands when its slot parks. -/
def Obligations.OwedValues : Prop :=
  Sys2Proof.Parts.OwedValuesReturn ∧ Sys2Proof.Parts.VectorLoadsReturn ∧ Sys2Proof.Parts.ParksLand

/-- R259: that a core which chooses a second time in a cycle moves time on is the model's choice (log entry 4). A core's cycle issues from the ready slot that has been ready longest, not from the one that yielded while
another is ready; among equals the next after the one that issued last. A core out of service or with its clock stopped issues
nothing. -/
def Obligations.IssueChoice : Prop :=
  ∀ (s : State) (c : Nat),
    let runs := (s.coreAt c).oos = false ∧ (s.coreAt c).stopped = none
    let s1 := s.tick c
    let last := (s.coreAt c).lastSlot
    let ready (k : Nat) : Prop := k < 4 ∧ s1.slotReady (4 * c + k) = true
    let since (k : Nat) : Nat := (s.slotAt (4 * c + k)).readySince
    let may (k : Nat) : Prop := ready k ∧ ((s.coreAt c).yielded = some k → ∀ j, ready j → (s.coreAt c).yielded = some j)
    s1.now = (if (s.coreAt c).lastTick = s.now then s.now + 1 else s.now)
    ∧ (¬ runs → exec (.issueSlotChoice c) s = .next s1)
    ∧ (runs → (∃ k, ready k) → ∃ k, exec (.issueSlotChoice c) s = .next { s1 with cur := 4 * c + k, issuing := true } ∧ may k
        ∧ ∀ j, may j → since k ≤ since j ∧ (since k = since j → (k + 7 - last % 4) % 4 ≤ (j + 7 - last % 4) % 4))
    ∧ (runs → (¬ ∃ k, ready k) → exec (.issueSlotChoice c) s = .next (s1.updCore c fun x => { x with yielded := none }))

/-! ## Vector instructions -/

/-- R151, R154: the lane-wise integer instructions in their three forms, and `vabs` and `vneg`; every result wraps. -/
def Obligations.VectorIntegerResults : Prop :=
  ∀ (s : State) (g : Ctl) (t : IType) (d a b : VReg) (x : XReg) (i : Imm),
    let w := t.width
    let e (r : VReg) (k : Nat) : Int := val t (lane w k (s.sl.vr r))
    let gives (i : Instr) (f : Nat → Int) : Prop := LaneWise i s g w d (fun k => (ext t (f k)).toNat) fun _ => 0
    let forms (vv vx vi : Instr) (f : Int → Int → Int) : Prop :=
      gives vv (fun k => f (e a k) (e b k)) ∧ gives vx (fun k => f (e a k) (val t ((s.sl.xr x).toNat % 2 ^ w)))
      ∧ gives vi (fun k => f (e a k) (val t ((immSX t i).toNat % 2 ^ w)))
    forms (.vaddIntVv g t d a b) (.vaddIntVx g t d a x) (.vaddIntVi g t d a i) (· + ·)
    ∧ forms (.vsubIntVv g t d a b) (.vsubIntVx g t d a x) (.vsubIntVi g t d a i) (· - ·)
    ∧ forms (.vmulIntVv g t d a b) (.vmulIntVx g t d a x) (.vmulIntVi g t d a i) (· * ·)
    ∧ forms (.vminIntVv g t d a b) (.vminIntVx g t d a x) (.vminIntVi g t d a i) min
    ∧ forms (.vmaxIntVv g t d a b) (.vmaxIntVx g t d a x) (.vmaxIntVi g t d a i) max
    ∧ gives (.vabsInt g t d a) (fun k => ((e a k).natAbs : Int)) ∧ gives (.vnegInt g t d a) (fun k => -e a k)

/-- R151, R155 … R158: the lane-wise float instructions: each element is computed exactly and rounded once, in the mode of
the instruction or of `frm`; `vfma` adds the destination. -/
def Sys2Proof.Parts.VectorFloats : Prop :=
  ∀ (s : State) (g : Ctl) (t : FType) (d a b : VReg) (x : XReg) (r : RSel),
    let w := t.width
    let f := fpOf t
    let m := s.sl.rmode r
    let e (q : VReg) (k : Nat) : Nat := lane w k (s.sl.vr q)
    let y := (s.sl.xr x).toNat % 2 ^ w
    let gives (i : Instr) (res : Nat → Nat × Nat) : Prop := LaneWise i s g w d (fun k => (res k).1) fun k => (res k).2
    let forms (vv vx : Instr) (op : Nat → Nat → Nat × Nat) : Prop :=
      gives vv (fun k => op (e a k) (e b k)) ∧ gives vx (fun k => op (e a k) y)
    forms (.vaddFloatVv g t d a b r) (.vaddFloatVx g t d a x r) (f.add m)
    ∧ forms (.vsubFloatVv g t d a b r) (.vsubFloatVx g t d a x r) (f.sub m)
    ∧ forms (.vmulFloatVv g t d a b r) (.vmulFloatVx g t d a x r) (f.mul m)
    ∧ forms (.vminFloatVv g t d a b) (.vminFloatVx g t d a x) (f.pick false)
    ∧ forms (.vmaxFloatVv g t d a b) (.vmaxFloatVx g t d a x) (f.pick true)
    ∧ gives (.vfmaVv g t d a b r) (fun k => f.fma m (e a k) (e b k) (e d k))
    ∧ gives (.vfmaVx g t d a x r) (fun k => f.fma m (e a k) y (e d k))
    ∧ gives (.vabsFloat g t d a) (fun k => f.abs (e a k)) ∧ gives (.vnegFloat g t d a) (fun k => f.neg (e a k))

/-- R52 … R55, R155 … R158: NaN operands, infinities and signs in the float operations of every Tf: the canonical NaN with
NV only for a signalling operand, NV for 0 · ∞ whatever the addend and for opposite infinities, an infinity beside a finite
operand kept without a flag, one NaN dropped by `vmin` and `vmax`, and the sign bit that `vabs` clears and `vneg` inverts. -/
def Sys2Proof.Parts.FloatSpecialCases : Prop :=
  ∀ (t : FType) (r : RMode) (a b c : Nat), a < 2 ^ t.width → b < 2 ^ t.width →
    let f := fpOf t
    let nan (x : Nat) : Prop := fvIsNan (f.value x) = true
    let nv (l : List Nat) : Nat := if ∃ x ∈ l, f.value x = .nan true then flagNV else 0
    let inf (x : Nat) : Prop := fvIsInf (f.value x) = true
    let zero (x : Nat) : Prop := fvIsZero (f.value x) = true
    let neg (x : Nat) : Bool := fvSign (f.value x)
    let invalid := (inf a ∧ zero b) ∨ (zero a ∧ inf b)
    let top := 2 ^ (t.width - 1)
    (nan a ∨ nan b → f.add r a b = (f.qnan, nv [a, b]) ∧ f.sub r a b = (f.qnan, nv [a, b]) ∧ f.mul r a b = (f.qnan, nv [a, b]))
    ∧ (invalid → f.mul r a b = (f.qnan, flagNV) ∧ f.fma r a b c = (f.qnan, flagNV))
    ∧ (¬ invalid → nan a ∨ nan b ∨ nan c → f.fma r a b c = (f.qnan, nv [a, b, c]))
    ∧ (inf a → inf b → neg a ≠ neg b → f.add r a b = (f.qnan, flagNV))
    ∧ (inf a → inf b → neg a = neg b → f.add r a b = (a, 0) ∧ f.sub r a b = (f.qnan, flagNV))
    ∧ (let num (x : Nat) : Prop := ¬ inf x ∧ ¬ nan x
      let signed (neg : Bool) (x : Nat) : Nat := (if neg = true then top else 0) + x % top
      let product := signed (neg a != neg b) (if fvIsInf (f.value a) = true then a else b)
      (inf a → num b → f.add r a b = (a, 0) ∧ f.sub r a b = (a, 0))
      ∧ (num a → inf b → f.add r a b = (b, 0) ∧ f.sub r a b = (signed (!neg b) b, 0))
      ∧ (num a → num b → inf c → c < 2 ^ t.width → f.fma r a b c = (c, 0))
      ∧ (¬ invalid → inf a ∨ inf b → ¬ nan a → ¬ nan b → f.mul r a b = (product, 0)
          ∧ (num c → f.fma r a b c = (product, 0))
          ∧ (inf c → c < 2 ^ t.width → f.fma r a b c = if neg c = (neg a != neg b) then (c, 0) else (f.qnan, flagNV))))
    ∧ (nan a → ¬ nan b → f.pick true a b = (b, nv [a]) ∧ f.pick false a b = (b, nv [a]))
    ∧ (¬ nan a → nan b → f.pick true a b = (a, nv [b]) ∧ f.pick false a b = (a, nv [b]))
    ∧ (nan a → nan b → f.pick true a b = (f.qnan, nv [a, b]) ∧ f.pick false a b = (f.qnan, nv [a, b]))
    ∧ (nan a → f.abs a = (f.qnan, nv [a]) ∧ f.neg a = (f.qnan, nv [a]))
    ∧ (¬ nan a → f.abs a = (a % top, 0) ∧ f.neg a = ((a + top) % 2 ^ t.width, 0))

/-- R50, R53 … R55: the rounding of an exact nonzero m · 2^e: with c the code of the lower neighbour among the magnitudes of
the format, and one more above the largest, the mode chooses c or c + 1. Beyond the largest value the mode gives infinity, or
the largest value; NX tells an inexact result, UF one that is tiny too, OF an overflow. -/
def Sys2Proof.Parts.RoundingRule : Prop :=
  ∀ (f : FpFmt) (r : RMode) (neg : Bool) (m : Nat) (e : Int),
    f ∈ [fpF32, fpBf16, fpF16, fpE5m2, fpE4m3, fpE2m1, fpE3m5] → 0 < m → (neg = true → f.sign = true) →
    let low := 1 - (f.bias : Int) - f.mBits
    let scale := min e (low - 2)
    let x := m * 2 ^ (e - scale).toNat
    let mag (c : Nat) : Nat := match f.value c with
      | .fin _ k q => k * 2 ^ (q - scale).toNat
      | _ => 0
    let top := f.maxBits false
    let v (c : Nat) : Nat := if c ≤ top then mag c else 2 * mag top - mag (top - 1)
    let normal := 2 ^ (1 - (f.bias : Int) - scale).toNat
    let quarter := 2 ^ (low - 2 - scale).toNat
    let tiny := x < normal ∧ match r with
      | .rne => x + quarter < normal
      | .rna => x + quarter < normal
      | .rtz => True
      | .rdn => neg = true → x + 2 * quarter ≤ normal
      | .rup => neg = false → x + 2 * quarter ≤ normal
    let up (c : Nat) : Prop := match r with
      | .rne => v c + v (c + 1) < 2 * x ∨ v c + v (c + 1) = 2 * x ∧ c % 2 = 1
      | .rna => v c + v (c + 1) ≤ 2 * x
      | .rtz => False
      | .rdn => neg = true
      | .rup => neg = false
    let signed (c : Nat) : Nat := (if neg = true then 2 ^ (f.mBits + f.eBits) else 0) + c
    let infinite := f.kind = .ieee ∧ match r with
      | .rne => True
      | .rna => True
      | .rtz => False
      | .rdn => neg = true
      | .rup => neg = false
    let result := f.deliver r (.fin neg m e)
    let lands (c : Nat) : Prop :=
      (c ≤ top → result.1 = signed c ∧ (tiny → result.2 = flagNX + flagUF) ∧ (¬ tiny → result.2 = flagNX))
      ∧ (top < c → (infinite → result = (signed ((2 ^ f.eBits - 1) * 2 ^ f.mBits), flagOF + flagNX))
          ∧ (¬ infinite → result = (signed top, flagOF + flagNX)))
    (∀ c, c ≤ top → v c = x → result = (signed c, 0))
    ∧ (∀ c, c ≤ top → v c < x → x < v (c + 1) → (up c → lands (c + 1)) ∧ (¬ up c → lands c))
    ∧ (v (top + 1) ≤ x → lands (top + 1))

/-- R53, R155 … R158, R166: the finite operands of the float operations: the exact sum and product are rounded once, and an
exact zero has its sign; the order that `vmin`, `vmax` and the conditions compare by, −0 below +0 for the first two and equal
to it for the others. -/
def Sys2Proof.Parts.FloatFiniteCases : Prop :=
  ∀ (t : FType) (r : RMode) (a b c : Nat) (na nb nc : Bool) (ma mb mc : Nat) (ea eb ec : Int),
    a < 2 ^ t.width → b < 2 ^ t.width →
    let f := fpOf t
    let at_ (neg : Bool) (m : Nat) (e l : Int) : Int := (if neg = true then -1 else 1) * ((m * 2 ^ (e - l).toNat : Nat) : Int)
    let adds (x : Nat × Nat) (n1 n2 : Bool) (m1 m2 : Nat) (e1 e2 : Int) : Prop :=
      let z := at_ n1 m1 e1 (min e1 e2) + at_ n2 m2 e2 (min e1 e2)
      (z ≠ 0 → x = f.deliver r (.fin (decide (z < 0)) z.natAbs (min e1 e2)))
      ∧ (z = 0 → x = (f.bits (if m1 = 0 ∧ m2 = 0 ∧ n1 = n2 then n1 else decide (r = .rdn)) 0 0, 0))
    let top := 2 ^ (t.width - 1)
    let key (x : Nat) : Int := if top ≤ x then -((x - top : Nat) : Int) else x
    let order (x : Nat) : Int := if top ≤ x then -((x - top : Nat) : Int) - 1 else x
    let nan (x : Nat) : Prop := fvIsNan (f.value x) = true
    let quiet := if f.value a = .nan true ∨ f.value b = .nan true then flagNV else 0
    let loud := if nan a ∨ nan b then flagNV else 0
    let holds (k : FCond) (p : Prop) (fl : Nat) : Prop :=
      ((fHolds k (f.value a) (f.value b)).1 = true ↔ p) ∧ (fHolds k (f.value a) (f.value b)).2 = fl
    let num := ¬ nan a ∧ ¬ nan b
    (f.value a = .fin na ma ea → f.value b = .fin nb mb eb →
      adds (f.add r a b) na nb ma mb ea eb ∧ adds (f.sub r a b) na (!nb) ma mb ea eb
      ∧ f.mul r a b = f.deliver r (.fin (na != nb) (ma * mb) (ea + eb))
      ∧ (ma * mb = 0 → f.mul r a b = (if na = nb then 0 else top, 0))
      ∧ (f.value c = .fin nc mc ec → adds (f.fma r a b c) (na != nb) nc (ma * mb) mc (ea + eb) ec))
    ∧ (num → f.pick true a b = (if order a < order b then b else a, 0)
        ∧ f.pick false a b = (if order b < order a then b else a, 0))
    ∧ holds .eq (num ∧ key a = key b) quiet ∧ holds .ne (¬ num ∨ key a ≠ key b) quiet
    ∧ holds .lt (num ∧ key a < key b) loud ∧ holds .le (num ∧ key a ≤ key b) loud
    ∧ holds .gt (num ∧ key b < key a) loud ∧ holds .ge (num ∧ key b ≤ key a) loud
    ∧ holds .ord num quiet ∧ holds .uno (¬ num) quiet

/-- R50 … R55, R155 … R158: the floating-point vector results, their rounding and their special cases. -/
def Obligations.VectorFloatResults : Prop :=
  Sys2Proof.Parts.VectorFloats ∧ Sys2Proof.Parts.FloatSpecialCases ∧ Sys2Proof.Parts.RoundingRule
  ∧ Sys2Proof.Parts.FloatFiniteCases

/-- R159 … R161: `vcvt` converts element by element at the wider width, and zeroes the positions above. -/
def Sys2Proof.Parts.VectorConversion : Prop :=
  ∀ (s : State) (g : Ctl) (td ts : EType) (d a : VReg) (r : RSel),
    let wd := eWidth td
    let ws := eWidth ts
    let wm := max ws wd
    let on := (List.range (512 / wm)).filter (s.sl.laneGuard g wm)
    let cv (k : Nat) : Nat × Nat := convert (s.sl.rmode r) td ts (lane ws k (s.sl.vr a))
    let post (f : Slot → Prop) : Prop := Acts (.vcvt g td ts d a r) s { v := some d } f
    (on = [] → ActsNot (.vcvt g td ts d a r) s)
    ∧ (on ≠ [] → post fun b => OwesAsBefore s.sl b (some (.v d.val))
        ∧ (∀ k, k < 512 / wm → lane wd k (b.vr d) = if s.sl.laneGuard g wm k then (cv k).1 % 2 ^ wd else lane wd k (s.sl.vr d))
        ∧ (∀ k, 512 / wm ≤ k → k < 512 / wd → lane wd k (b.vr d) = 0)
        ∧ b.fflags = s.sl.fflags ||| BitVec.ofNat 64 (on.foldl (fun f k => f ||| (cv k).2) 0 % 32))

/-- R161, R49: a conversion of an integer to an integer takes the nearer end of the destination's range, with no flag. -/
def Sys2Proof.Parts.IntegerConversionSaturates : Prop :=
  ∀ (r : RMode) (td ts : EType) (ss ds : Bool) (x : Nat), eSigned ts = some ss → eSigned td = some ds →
    let ws := eWidth ts
    let wd := eWidth td
    let v : Int := if ss then signedOf ws x else ((x % 2 ^ ws : Nat) : Int)
    let lo : Int := if ds then -(2 ^ (wd - 1)) else 0
    let hi : Int := if ds then 2 ^ (wd - 1) - 1 else 2 ^ wd - 1
    (v < lo → convert r td ts x = (unsignedOf wd lo, 0)) ∧ (hi < v → convert r td ts x = (unsignedOf wd hi, 0))
    ∧ (lo ≤ v → v ≤ hi → convert r td ts x = (unsignedOf wd v, 0))

/-- R52, R54, R56, R161: the other kinds of conversion: an integer is rounded once into a float type; a float becomes the
integer that the mode chooses, the nearer end of the range with NV beyond it, and 0 with NV for a NaN; between float types
NaNs, infinities, zeros and the negative values of e3m5 have their own results; the same type keeps all but NaNs. -/
def Sys2Proof.Parts.FloatConversions : Prop :=
  ∀ (r : RMode) (td ts : EType) (x : Nat) (ss ds : Bool) (fs fd : FpFmt) (neg : Bool) (m : Nat) (e : Int),
    let cv := convert r td ts x
    let wd := eWidth td
    let toInt := eSigned td = some ds
    let lo : Int := if ds = true then -(2 ^ (wd - 1)) else 0
    let hi : Int := if ds = true then 2 ^ (wd - 1) - 1 else 2 ^ wd - 1
    let nan (sig : Bool) : Prop := fs.value x = .nan sig
    let quiet (sig : Bool) : Nat := if sig = true then flagNV else 0
    (eSigned ts = some ss → fpOfE td = some fd →
      let v : Int := if ss = true then signedOf (eWidth ts) x else ((x % 2 ^ eWidth ts : Nat) : Int)
      (v = 0 → cv = (0, 0)) ∧ (v ≠ 0 → cv = fd.deliver r (.fin (decide (v < 0)) v.natAbs 0)))
    ∧ (fpOfE ts = some fs → toInt →
      (∀ sig, nan sig → cv = (0, flagNV))
      ∧ (fs.value x = .inf neg → cv = (unsignedOf wd (if neg = true then lo else hi), flagNV))
      ∧ (fs.value x = .fin neg m e →
          let q := 2 ^ (-e).toNat
          let n := m * 2 ^ e.toNat
          let k := n / q
          let up := n % q ≠ 0 ∧ match r with
            | .rne => q < 2 * (n % q) ∨ q = 2 * (n % q) ∧ k % 2 = 1
            | .rna => q ≤ 2 * (n % q)
            | .rtz => False
            | .rdn => neg = true
            | .rup => neg = false
          let lands (k : Nat) : Prop :=
            let z : Int := if neg = true then -(k : Int) else k
            (z < lo → cv = (unsignedOf wd lo, flagNV)) ∧ (hi < z → cv = (unsignedOf wd hi, flagNV))
            ∧ (lo ≤ z → z ≤ hi → cv = (unsignedOf wd z, if n % q = 0 then 0 else flagNX))
          (up → lands (k + 1)) ∧ (¬ up → lands k)))
    ∧ (fpOfE ts = some fs → fpOfE td = some fd → ts ≠ td →
      (∀ sig, nan sig → (fd.kind = .numbers → cv = (0, flagNV)) ∧ (fd.kind ≠ .numbers → cv = (fd.qnan, quiet sig)))
      ∧ (fs.value x = .inf neg →
          (fd.kind = .ieee → cv = ((if neg = true then 2 ^ (fd.mBits + fd.eBits) else 0) + (2 ^ fd.eBits - 1) * 2 ^ fd.mBits, 0))
          ∧ (fd.kind ≠ .ieee → (neg = true → fd.sign = true) → cv = (fd.maxBits neg, flagOF + flagNX))
          ∧ (neg = true → fd.sign = false → cv = (0, flagNV)))
      ∧ (fs.value x = .fin neg m e →
          (m = 0 → cv = (if neg = true ∧ fd.sign = true then 2 ^ (fd.mBits + fd.eBits) else 0, 0))
          ∧ (m ≠ 0 → neg = true → fd.sign = false → cv = (0, flagNV))
          ∧ (m ≠ 0 → (neg = true → fd.sign = true) → cv = fd.deliver r (.fin neg m e))))
    ∧ (fpOfE ts = some fs → td = ts →
      (∀ sig, nan sig → cv = (fs.qnan, quiet sig)) ∧ ((∀ sig, ¬ nan sig) → cv = (x, 0)))

/-- R52, R54, R56, R159 … R161: conversions between formats. -/
def Obligations.VectorConversions : Prop :=
  Sys2Proof.Parts.VectorConversion ∧ Sys2Proof.Parts.IntegerConversionSaturates ∧ Sys2Proof.Parts.FloatConversions

/-- R153, R162: `vred`: the fixed pairwise tree over the guarded elements, in element 0 with zeros above; with every guard
false nothing is written. The slot issues nothing for log₂ n further cycles. -/
def Sys2Proof.Parts.ReductionResults : Prop :=
  ∀ (s : State) (g : Ctl) (d a : VReg) (r : RSel) (k : RedKind),
    let tree (w : Nat) (op : Nat → Nat → Nat × Nat) : Nat → Nat → Option Nat × Nat := fun l => Nat.rec
      (fun i => (if s.sl.laneGuard g w i then some (lane w i (s.sl.vr a)) else none, 0))
      (fun _ below j => match (below (2 * j)).1, (below (2 * j + 1)).1 with
        | none, q => (q, (below (2 * j)).2 ||| (below (2 * j + 1)).2)
        | q, none => (q, (below (2 * j)).2 ||| (below (2 * j + 1)).2)
        | some x, some y => (some (op x y).1, (below (2 * j)).2 ||| (below (2 * j + 1)).2 ||| (op x y).2)) l
    let gives (i : Instr) (w levels : Nat) (op : Nat → Nat → Nat × Nat) : Prop :=
      2 ^ levels = 512 / w →
      Completes i s (fun u => s.now + levels + 1 ≤ u.sl.notBefore) ∧ match tree w op levels 0 with
        | (none, _) => ActsNot i s
        | (some x, f) => Acts i s { v := some d } fun b => b.vr d = BitVec.ofNat 512 (x % 2 ^ w)
            ∧ b.fflags = s.sl.fflags ||| BitVec.ofNat 64 (f % 32) ∧ OwesAsBefore s.sl b (some (.v d.val))
    (∀ (t : IType) (n : Nat), gives (.vredInt g t k d a) t.width n fun x y => ((ext t (match k with
        | .sum => val t x + val t y
        | .min => min (val t x) (val t y)
        | .max => max (val t x) (val t y))).toNat % 2 ^ t.width, 0))
    ∧ (∀ (t : FType) (n : Nat), gives (.vredFloat g t k d a r) t.width n (match k with
        | .sum => (fpOf t).add (s.sl.rmode r)
        | .min => (fpOf t).pick false
        | .max => (fpOf t).pick true))

/-- R163 … R165, R168: permutes, selects and random numbers, lane by lane and without flags. -/
def Sys2Proof.Parts.VectorPermutesAndSelects : Prop :=
  ∀ (s : State) (g : Ctl) (t : VType) (d a b : VReg) (x y : XReg) (p : PSel) (i : Imm),
    let w := t.width
    let n := 512 / w
    let e (r : VReg) (k : Nat) : Nat := lane w k (s.sl.vr r)
    let m := i.toNat / 2 ^ 8 % 2 ^ 8
    let pattern (k : Nat) : Nat := match i.toNat % 2 ^ 4 with
      | 0 => e a ((k + m) % n)
      | 1 => e a m
      | 2 => e a (k ^^^ m)
      | 3 => if k + m < n then e a (k + m) else 0
      | _ => if m ≤ k then e a (k - m) else 0
    let word (j : Nat) : Nat :=
      let key := (s.sl.xr x).toNat
      let h := (((s.sl.xr y).toNat * 8 + j) % 2 ^ 64) ^^^ key
      let h := (h ^^^ (h / 2 ^ 31)) * 0xD6E8FEB86659FD93 % 2 ^ 64
      let h := (h ^^^ (h / 2 ^ 29)) * 0xA3B195E65C27C0B5 % 2 ^ 64
      let h := (h + key) % 2 ^ 64
      let h := (h ^^^ (h / 2 ^ 32)) * 0x8CB92BA72F3D8DD7 % 2 ^ 64
      h ^^^ (h / 2 ^ 29)
    let gives (i : Instr) (f : Nat → Nat) : Prop := LaneWise i s g w d f fun _ => 0
    gives (.vpermRegister g t d a b) (fun k => e a (e b k % n)) ∧ gives (.vpermImmediate g t d a i) pattern
    ∧ gives (.vsel g t d a b p) (fun k => if pbit (s.sl.pr p.p) (k * w / 32) != p.neg then e a k else e b k)
    ∧ gives (.vrng g t d x y) (fun k => rngElem t (lane w k (lanes 64 8 word)))

/-- R166: `vsetp` writes each guarded bit with the truth of the elements it governs, and ORs the flags of the guarded
elements; p0 discards the bits. -/
def Sys2Proof.Parts.VectorCompares : Prop :=
  ∀ (s : State) (g : Ctl) (d : PReg) (a b : VReg) (x : XReg),
    let gives (i : Instr) (w : Nat) (c : Nat → Bool × Nat) : Prop :=
      let on := (List.range (512 / w)).filter (s.sl.laneGuard g w)
      let governed (j : Nat) : List Nat := (List.range (512 / w)).filter fun k => decide (k * w / 32 = j)
      Acts i s { p := some d } fun q =>
        (∀ j, j < 16 → pbit (q.pr d) j = if d = 0 then true else
            if s.sl.bitGuard g (if w = 64 then j / 2 * 2 else j) then
              (if w = 64 then (c (j / 2)).1 else (governed j).all fun k => (c k).1)
            else pbit (s.sl.pr d) j)
        ∧ q.fflags = s.sl.fflags ||| BitVec.ofNat 64 (on.foldl (fun f k => f ||| (c k).2) 0 % 32)
        ∧ OwesAsBefore s.sl q none
    (∀ (t : IType) (k : ICond), let e (r : VReg) (j : Nat) : Int := val t (lane t.width j (s.sl.vr r))
      gives (.vsetpIntVv g t k d a b) t.width (fun j => (iHolds k (e a j) (e b j), 0))
      ∧ gives (.vsetpIntVx g t k d a x) t.width (fun j => (iHolds k (e a j) (val t ((s.sl.xr x).toNat % 2 ^ t.width)), 0)))
    ∧ (∀ (t : FType) (k : FCond), let e (r : VReg) (j : Nat) : FVal := (fpOf t).value (lane t.width j (s.sl.vr r))
      gives (.vsetpFloatVv g t k d a b) t.width (fun j => fHolds k (e a j) (e b j))
      ∧ gives (.vsetpFloatVx g t k d a x) t.width
          (fun j => fHolds k (e a j) ((fpOf t).value ((s.sl.xr x).toNat % 2 ^ t.width))))

/-- R161, R163 … R166: permutes, selects, ranges and compares. -/
def Obligations.VectorRearrangements : Prop :=
  Sys2Proof.Parts.VectorPermutesAndSelects ∧ Sys2Proof.Parts.VectorCompares

/-- R153, R167: `vargmax` writes the lowest index of a largest guarded element, a NaN above every number, or all ones when
no guard is true. The slot issues nothing for log₂ n further cycles. -/
def Sys2Proof.Parts.VectorArgmax : Prop :=
  ∀ (s : State) (g : Ctl) (d : XReg) (a : VReg),
    let gives (i : Instr) (w : Nat) (better : Nat → Nat → Bool) (f : Nat) : Prop :=
      let on := (List.range (512 / w)).filter (s.sl.laneGuard g w)
      Completes i s (fun u => ∀ n, 2 ^ n = 512 / w → s.now + n + 1 ≤ u.sl.notBefore)
      ∧ Acts i s { x := some d } fun q =>
        (∃ r : Word, q.xr d = (if d = 0 then 0 else r) ∧ (on = [] → r = BitVec.ofNat 64 (2 ^ 64 - 1))
          ∧ (on ≠ [] → ∃ k ∈ on, r = BitVec.ofNat 64 k
              ∧ ∀ j ∈ on, better j k = false ∧ (j < k → better k j = true)))
        ∧ q.fflags = s.sl.fflags ||| BitVec.ofNat 64 f ∧ OwesAsBefore s.sl q (if d = 0 then none else some (.x d.val))
    (∀ t : IType, let e (j : Nat) : Int := val t (lane t.width j (s.sl.vr a))
      gives (.vargmaxInt g t d a) t.width (fun j k => decide (e k < e j)) 0)
    ∧ (∀ t : FType, let e (j : Nat) : FVal := (fpOf t).value (lane t.width j (s.sl.vr a))
      gives (.vargmaxFloat g t d a) t.width (fun j k => !fvIsNan (e k) && (fvIsNan (e j) || fvLt (e k) (e j)))
        (if ∃ k, k < 512 / t.width ∧ s.sl.laneGuard g t.width k = true ∧ fvIsNan (e k) = true then flagNV else 0))

/-- R162, R167: reductions and the index of the largest element. -/
def Obligations.VectorReductions : Prop := Sys2Proof.Parts.ReductionResults ∧ Sys2Proof.Parts.VectorArgmax

/-! ## The plane engine -/

/-- R21, R169 … R171, R175 … R181: an engine instruction under a true guard whose checks pass enters the queue with what it
captured, changes the tag of its slot at issue, and owes a completion, nothing inside a chain, or the register that `macld`
names. A failed check faults; another slot's chain holds the slot, and so do two entries in the queue behind the instructions
that the engine has taken up: the first once no staging holds it back (R172), and inside a chain those after it (the model's
choice, log entry 77). -/
def Obligations.EngineIssue : Prop :=
  ∀ (s : State) (g : Ctl) (d z : NAcc) (wd : WAcc) (a b : TReg) (v : VReg) (la lb : BlkLen) (grp : Fin 64)
    (taken queued : List EngineOp), s.sl.guard g = true →
    let e := s.core.engine
    let held (o : EngineOp) : Prop := ∃ y ∈ s.core.barge, y.num ≤ o.after ∧ ∃ t c l p, y.work = .stage t c l p
      ∧ ∃ x ∈ o.work.tiles, (TileF.of t).off < x.off + x.bytes ∧ x.off < (TileF.of t).off + (TileF.of t).bytes
    let splits := e.queue = taken ++ queued ∧ (∀ o ∈ taken, ¬ held o)
      ∧ (∀ o ∈ taken.tail, o.chain ≠ none ∧ some o.chain = taken.head?.map (·.chain))
      ∧ (∀ o, queued.head? = some o →
          held o ∨ taken ≠ [] ∧ (o.chain = none ∨ some o.chain ≠ taken.head?.map (·.chain)))
    let free := e.chain = none ∨ e.chain = some (s.cur % 4)
    let enters (i : Instr) (work : EngineWork) (dest : Option RegRef) (tag : Nat → AccTag) (fresh : Nat → Bool) : Prop :=
      Completes i s fun u =>
        let f := u.core.engine
        let op : EngineOp := { num := e.num + 1, slot := s.cur % 4, work := work, after := s.core.bnum,
                               chain := if e.chain.isSome then some e.chains else none }
        f.queue = e.queue ++ [op] ∧ f.num = e.num + 1 ∧ (∀ k, f.tagOf k = tag k) ∧ (∀ k, f.fresh k = fresh k)
        ∧ { f with queue := [], num := 0, tags := [], used := [] } = { e with queue := [], num := 0, tags := [], used := [] }
        ∧ SlotKept s.sl u.sl {} ∧ u.sl.fflags = s.sl.fflags ∧ u.sl.out = s.sl.out ∧ FallsThrough s.sl u.sl
        ∧ Elsewhere (s.updMyCore fun c => { c with engine := f }) u ∧ PacedBy i s u
        ∧ (dest = none → e.chain.isSome = true → OwesAsBefore s.sl u.sl none)
        ∧ (dest ≠ none ∨ e.chain = none → ∃ o : Owed, u.sl.owed = (match dest with
              | some q => s.sl.owed.map (Owed.drop q)
              | none => s.sl.owed) ++ [o]
            ∧ o.dest = dest ∧ o.live = true ∧ o.mask = fullMask ∧ o.flight = .engine (e.num + 1) ∧ o.res = none)
    let same (i : Instr) (work : EngineWork) (dest : Option RegRef) : Prop := enters i work dest e.tagOf e.fresh
    let tags (i : Instr) (work : EngineWork) (set_ : Nat → Prop) [DecidablePred set_] (t : AccTag) : Prop :=
      enters i work none (fun k => if set_ k then t else e.tagOf k) fun k => if set_ k then false else e.fresh k
    let ta := TileF.of (e.tile a)
    let tb := TileF.of (e.tile b)
    let pair (ok : Nat → Prop) : Prop :=
      ta.valid = true ∧ ta.isB = false ∧ tb.valid = true ∧ tb.isB = true ∧ ok ta.fmt ∧ ok tb.fmt
    let aligned (f : Nat) : Prop := f ∈ [0x13, 0x14, 0x11, 0x12, 0x10]
    let staged (f : Nat) : Prop := f ∈ [0x09, 0x01, 0x05, 0x02, 0x15]
    let holdsTag (t : AccTag) : Prop := e.fresh d.val = true ∨ e.tagOf d.val = t
    let len := min (blkLen la) (blkLen lb)
    let n := 64 / len
    let x := e.tile a
    let y := e.tile b
    let faults (i : Instr) (k : Nat) : Prop := FaultsWith i s (FaultInfo.of k)
    let all (p : Instr → Prop) : Prop := ∀ i ∈ [Instr.mmf g d a b, .mmiNarrow g d a b, .mmiWide g wd a b, .mmb g d a b la lb,
      .mscacc g wd z v, .macldNarrow g v d grp, .macldWide g v wd grp, .mzeroNarrow g d, .mzeroWide g wd], p i
    (¬ free → all fun i => Waits i s .chain)
    ∧ (free → e.owner = some s.sl.team → splits → 2 ≤ queued.length → all fun i => Waits i s .engine)
    ∧ (free → e.owner = some s.sl.team → splits → queued.length < 2 →
        (pair aligned → holdsTag .fp32 → tags (.mmf g d a b) (.mmf d.val x y) (· = d.val) .fp32)
        ∧ (pair staged → holdsTag .int32 → tags (.mmiNarrow g d a b) (.mmi d.val x y) (· = d.val) .int32)
        ∧ (pair staged → same (.mmiWide g wd a b) (.mmi (8 + wd.val) x y) none)
        ∧ (pair (· = 0x15) → d.val + n ≤ 8 → tags (.mmb g d a b la lb) (.mmb d.val x y len)
            (fun k => d.val ≤ k ∧ k < d.val + n) .block)
        ∧ (e.tagOf z.val = .block → same (.mscacc g wd z v) (.mscacc (8 + wd.val) z.val (s.sl.vr v)) none)
        ∧ same (.macldNarrow g v d grp) (.macld d.val grp.val) (some (.v v.val))
        ∧ same (.macldWide g v wd grp) (.macld (8 + wd.val) grp.val) (some (.v v.val))
        ∧ enters (.mzeroNarrow g d) (.mzero d.val) none (fun k => if k = d.val then .fp32 else e.tagOf k)
            (fun k => if k = d.val then true else e.fresh k)
        ∧ same (.mzeroWide g wd) (.mzero (8 + wd.val)) none
        ∧ (¬ pair aligned → faults (.mmf g d a b) 0x31)
        ∧ (¬ pair staged → faults (.mmiNarrow g d a b) 0x31 ∧ faults (.mmiWide g wd a b) 0x31)
        ∧ (¬ pair (· = 0x15) → faults (.mmb g d a b la lb) 0x31)
        ∧ (pair aligned → ¬ holdsTag .fp32 → faults (.mmf g d a b) 0x32)
        ∧ (pair staged → ¬ holdsTag .int32 → faults (.mmiNarrow g d a b) 0x32)
        ∧ (pair (· = 0x15) → 8 < d.val + n → faults (.mmb g d a b la lb) 0x32)
        ∧ (e.tagOf z.val ≠ .block → faults (.mscacc g wd z v) 0x32))

/-- R20, R171, R173, R176: `tset` writes a tile register that passes its checks, `mchain` opens a chain, `mend` closes it and
owes its completion; and the first engine instruction of another team finds tiles, cells, tags and fresh bits reset. -/
def Obligations.EngineControl : Prop :=
  ∀ (s : State) (g : Ctl) (d : TReg) (a : XReg) (n m : NAcc) (wd : WAcc) (x y : TReg) (v : VReg) (la lb : BlkLen) (grp : Fin 64),
    s.sl.guard g = true →
    let e := s.core.engine
    let w := s.sl.xr a
    let t := TileF.of w
    let base := s.planeBase (s.cur / 4)
    let reserved := w.toNat / 2 ^ 56 % 2 ^ 5 = 0 ∧ w.toNat / 2 ^ 61 % 2 = 0 ∧ w.toNat / 2 ^ 42 % 2 = 0 ∧ w.toNat / 2 ^ 18 % 2 ^ 14 = 0
    let place := (t.swz = 0 ∨ 8 ≤ t.swz ∧ t.swz ≤ 16) ∧ t.off % 256 = 0
      ∧ base ≤ t.off ∧ t.off + 256 * t.np + (if groupFmt t.fmt then 256 else 0) ≤ base + 0x10000
    let sets (i : Instr) (f : Engine) : Prop := ActsVia i s (s.updMyCore fun c => { c with engine := f })
    let free := e.chain = none ∨ e.chain = some (s.cur % 4)
    let faults (i : Instr) (k : Nat) : Prop := FaultsWith i s (FaultInfo.of k)
    (free → e.owner = some s.sl.team →
      (reserved → (t.valid = true → stageOk t.fmt t.np = true ∧ place) →
        sets (.tset g d a) { e with t := SMap.put 0 e.t d.val w })
      ∧ (¬ reserved → faults (.tset g d a) 0x31)
      ∧ (reserved → t.valid = true → stageOk t.fmt t.np = false → faults (.tset g d a) 0x01)
      ∧ (reserved → t.valid = true → stageOk t.fmt t.np = true → ¬ place → faults (.tset g d a) 0x31)
      ∧ (e.chain = none → sets (.mchain g) { e with chain := some (s.cur % 4), chains := e.chains + 1 }
          ∧ faults (.mend g) 0x34)
      ∧ (e.chain ≠ none → faults (.mchain g) 0x34
          ∧ Completes (.mend g) s fun u => u.core.engine = { e with chain := none } ∧ SlotKept s.sl u.sl {}
              ∧ FallsThrough s.sl u.sl ∧ Elsewhere (s.updMyCore fun c => { c with engine := { e with chain := none } }) u
              ∧ PacedBy (.mend g) s u
              ∧ ∃ o : Owed, u.sl.owed = s.sl.owed ++ [o] ∧ o.dest = none ∧ o.live = true ∧ o.flight = .chain e.chains
                  ∧ o.res = none))
    ∧ (¬ free → Waits (.tset g d a) s .chain ∧ Waits (.mchain g) s .chain ∧ Waits (.mend g) s .chain)
    ∧ (free → e.owner ≠ some s.sl.team →
        let u := s.updMyCore fun c => { c with
          engine := { e with t := [], acc := [], tags := [], used := [], owner := some s.sl.team } }
        ∀ i ∈ [Instr.tset g d a, .mchain g, .mend g, .mmf g n x y, .mmiNarrow g n x y, .mmiWide g wd x y, .mmb g n x y la lb,
          .mscacc g wd m v, .macldNarrow g v n grp, .macldWide g v wd grp, .mzeroNarrow g n, .mzeroWide g wd],
          exec i s = exec i u)

/-- R57, R60 … R62: what one cell of `mmf` accumulates: group by group in ascending k, the exact sum of 16 products scaled by the
two group exponents is rounded once and added with one rounding, and a marked group makes the cell NaN with NV; a staged
integer is its planes' bits with their weights, the last of which is negative. -/
def Sys2Proof.Parts.MmfCells : Prop :=
  (∀ (npa npb : Nat) (a b : List Int) (sa sb : Nat → Bool × Int) (acc : Nat),
    let sum (g : Nat) : Int := ((List.range 16).map fun i => a.getD (16 * g + i) 0 * b.getD (16 * g + i) 0).sum
    let term (g : Nat) : Nat × Nat :=
      if sum g = 0 then (0, 0)
      else fpF32.deliver .rne (.fin (decide (sum g < 0)) (sum g).natAbs ((sa g).2 - npa + 2 + (sb g).2 - npb + 2))
    ∃ c : Nat → Nat × Nat, c 0 = (acc, 0) ∧ c 4 = mmfCell npa npb a b sa sb acc ∧ ∀ g, g < 4 →
      ((sa g).1 = true ∨ (sb g).1 = true → c (g + 1) = (0x7FC00000, (c g).2 ||| flagNV))
      ∧ ((sa g).1 = false → (sb g).1 = false → c (g + 1) =
          ((fpF32.add .rne (c g).1 (term g).1).1, (c g).2 ||| (term g).2 ||| (fpF32.add .rne (c g).1 (term g).1).2)))
  ∧ ∀ (s : State) (core : Nat) (t : TileF) (r k : Nat), k < 64 →
      let bit (n : Nat) : Int := if s.planeRow core t n r / 2 ^ k % 2 = 1 then 1 else 0
      (s.tileLine core t r)[k]? = some (((List.range (t.np - 1)).map fun n => 2 ^ n * bit n).sum
        - (if t.np = 0 then 0 else 2 ^ (t.np - 1) * bit (t.np - 1)))

/-- R61 … R68, R171, R172, R178 … R181: the engine instruction at the head of the queue commits, once no earlier staging
writes what it reads: the cells it changes, its flags, and what it returns to its slot. -/
def Sys2Proof.Parts.EngineCells : Prop :=
  ∀ (s : State) (c : Nat) (op : EngineOp) (q : List EngineOp),
    let e := (s.coreAt c).engine
    e.queue = op :: q → op.slot < 4 →
    let held := ∃ y ∈ (s.coreAt c).barge, y.num ≤ op.after ∧ ∃ t v l p, y.work = .stage t v l p
      ∧ ∃ x ∈ op.work.tiles, (TileF.of t).off < x.off + x.bytes ∧ x.off < (TileF.of t).off + (TileF.of t).bytes
    (held → Stays (.engineInstructionCommit c) s) ∧ (¬ held →
    let key := 4 * c + op.slot
    let lineOf (t : Word) (r : Nat) : List Int := s.tileLine c (TileF.of t) r
    let covered (ta tb : Word) (i j : Nat) : Prop := i ≤ (TileF.of ta).nm ∧ j ≤ (TileF.of tb).nm
    let drains : Bool := match op.work with
      | .macld _ _ => true
      | _ => false
    let commits (cell : Nat → Nat → Nat → Word) (l : Line) (fl : Nat) : Prop := Completes (.engineInstructionCommit c) s fun u =>
      let f := (u.coreAt c).engine
      f.queue = q ∧ (∀ k i j, i < 32 → j < 32 → f.cell k i j = cell k i j)
      ∧ { f with queue := [], acc := [], cflags := [] } = { e with queue := [], acc := [], cflags := [] }
      ∧ (∀ n, SMap.look 0 f.cflags n = if op.chain = some n ∧ drains = false then SMap.look 0 e.cflags n ||| fl
          else SMap.look 0 e.cflags n)
      ∧ u.slotAt key = { s.slotAt key with owed := (s.slotAt key).owed.map fun o =>
          if o.res = none ∧ o.flight = .engine op.num then { o with res := some (.val { bits := l, tag := false } fl) } else o }
      ∧ (∀ k, k ≠ key → u.slotAt k = s.slotAt k) ∧ (∀ k, k ≠ c → u.coreAt k = s.coreAt k)
      ∧ { u with cores := [], perf := [] } = { s with cores := [], perf := [] }
    let slot (d : Nat) (f : Nat → Nat → Word × Nat) : Prop :=
      commits (fun k i j => if k = d then (f i j).1 else e.cell k i j) 0
        ((List.range 1024).foldl (fun x n => x ||| (f (n / 32) (n % 32)).2) 0)
    let wide (w : Word) (z : Int) : Word × Nat :=
      let r := w.toInt + z
      (BitVec.ofInt 64 (max (-(2 ^ 63)) (min (2 ^ 63 - 1) r)), if r < -(2 ^ 63) ∨ 2 ^ 63 ≤ r then flagOF else 0)
    (∀ d ta tb, op.work = .mmf d ta tb → slot d fun i j => if covered ta tb i j then
        let x := mmfCell (TileF.of ta).np (TileF.of tb).np (lineOf ta i) (lineOf tb j) (s.sideEntry c (TileF.of ta) i)
          (s.sideEntry c (TileF.of tb) j) (e.cell d i j).toNat
        (BitVec.ofNat 64 x.1, x.2) else (e.cell d i j, 0))
    ∧ (∀ d ta tb, op.work = .mmi d ta tb → d < 8 → slot d fun i j => if covered ta tb i j then
        (BitVec.ofNat 64 (unsignedOf 32 ((e.cell d i j).toNat + dotRange (lineOf ta i) (lineOf tb j) 0 64)), 0)
        else (e.cell d i j, 0))
    ∧ (∀ d ta tb, op.work = .mmi d ta tb → 8 ≤ d → slot d fun i j => if covered ta tb i j then
        wide (e.cell d i j) (dotRange (lineOf ta i) (lineOf tb j) 0 64 * 2 ^ 16) else (e.cell d i j, 0))
    ∧ (∀ d ta tb len, op.work = .mmb d ta tb len → len ≠ 0 → commits (fun k i j =>
        if d ≤ k ∧ k < d + 64 / len then
          if covered ta tb i j then BitVec.ofNat 64 (unsignedOf 32 (dotRange (lineOf ta i) (lineOf tb j) (len * (k - d)) len))
          else 0
        else e.cell k i j) 0 0)
    ∧ (∀ d a v, op.work = .mscacc d a v → slot d fun i j =>
        wide (e.cell d i j) (scaleTerm (signedOf 32 (e.cell a i j).toNat) (lane 8 i v) (lane 8 (32 + j) v)))
    ∧ (∀ a n, op.work = .macld a n → a < 8 →
        commits e.cell (lanes 32 16 fun l => (e.cell a (n / 2) (16 * (n % 2) + l)).toNat % 2 ^ 32) 0)
    ∧ (∀ a n, op.work = .macld a n → 8 ≤ a →
        let v (l : Nat) : Nat × Nat :=
          let z := (e.cell a (n / 2) (16 * (n % 2) + l)).toInt
          fpF32.deliver .rne (.fin (decide (z < 0)) z.natAbs (-16))
        commits e.cell (lanes 32 16 fun l => (v l).1) ((List.range 16).foldl (fun f l => f ||| (v l).2) 0))
    ∧ (∀ d, op.work = .mzero d → commits (fun k i j => if k = d then 0 else e.cell k i j) 0 0))

/-- R171: the completion of a chain returns once every instruction of it has committed, with the OR of their flags. -/
def Sys2Proof.Parts.ChainCompletes : Prop :=
  ∀ (s : State) (c k n : Nat), k < 4 →
    let key := 4 * c + k
    let sl := s.slotAt key
    let e := (s.coreAt c).engine
    (∃ o ∈ sl.owed, o.flight = .chain n ∧ o.res = none) →
    (∀ j, j < 4 → ∀ o ∈ (s.slotAt (4 * c + j)).owed, o.res = none → ∀ m, o.flight = .chain m → j = k ∧ m = n) →
    (∀ op ∈ e.queue, op.chain ≠ some n) →
    Completes (.chainCompletion c) s fun u =>
      u.slotAt key = { sl with owed := sl.owed.map fun o => if o.res = none ∧ o.flight = .chain n then
          { o with res := some (.val CapReg.null (SMap.look 0 e.cflags n)) } else o }
      ∧ (u.coreAt c).engine = { e with cflags := SMap.put 0 e.cflags n 0 }
      ∧ (∀ j, j ≠ key → u.slotAt j = s.slotAt j) ∧ (∀ j, j ≠ c → u.coreAt j = s.coreAt j)
      ∧ { u with cores := [] } = { s with cores := [] }

/-- R61 … R68, R171, R172, R178 … R181: engine instructions and chains complete. -/
def Obligations.EngineCommits : Prop :=
  Sys2Proof.Parts.MmfCells ∧ Sys2Proof.Parts.EngineCells ∧ Sys2Proof.Parts.ChainCompletes

/-! ## The Barge -/

/-- R21, R183, R185, R187, R188, R190, R191, R196, R200: a Barge instruction whose checks pass enters the queue with what it read
and owes its status; a Sluice count of a lifetime other than activation, and any `bres`, takes a deferred-effect entry
before `commit`. Two entries in the queue behind the instruction that the Barge may carry out hold the slot (that the one at
the head counts as taken up is the model's choice, log entry 7). Of a template and a capability that both fail, the template's fault comes first, and C[15] is checked at coordinates 0 (the model's choices,
log entry 78). -/
def Obligations.BargeIssue : Prop :=
  ∀ (s : State) (g : Ctl) (d : XReg) (a b : CReg) (tr : TReg) (im : Imm) (o : StageOpts) (te : Template) (es : Elem) (ln : Nat → Elem),
    s.sl.guard g = true →
    let dst := s.sl.cr a
    let src := s.sl.cr b
    let slu := s.sl.cr 15
    let tile := s.core.engine.tile tr
    let n := s.core.bnum + 1
    let uncommitted := s.sl.committed = none
    let all (p : Instr → Prop) : Prop :=
      ∀ i ∈ [Instr.bcopyTemplate g d a b im, .bcopyCommonShape g d a b, .bstage g d tr b o, .bres g d a], p i
    let enters (i : Instr) (w : BargeWork) (entry : Prop) : Prop :=
      (entry → 8 ≤ s.sl.deferred.length → FaultsWith i s (FaultInfo.of 0x38))
      ∧ ((entry → s.sl.deferred.length < 8) → Completes i s fun u =>
        (∃ op : BargeOp, u.core.barge = s.core.barge ++ [op] ∧ op.num = n ∧ op.slot = s.cur % 4 ∧ op.work = w
          ∧ op.iaddr = s.sl.here ∧ (op.defer = true ↔ entry) ∧ op.after = s.core.engine.num ∧ op.seq = s.sl.seq
          ∧ op.first = 0 ∧ op.pos = 0 ∧ op.got = [])
        ∧ u.core.bnum = n ∧ SlotKept s.sl u.sl {} ∧ u.sl.fflags = s.sl.fflags ∧ u.sl.out = s.sl.out ∧ FallsThrough s.sl u.sl
        ∧ Elsewhere (s.updMyCore fun c => { c with bnum := n, barge := u.core.barge }) u ∧ PacedBy i s u
        ∧ (∃ q : Owed, u.sl.owed = s.sl.owed.map (Owed.drop (.x d.val)) ++ [q] ∧ q.dest = some (.x d.val) ∧ q.live = true
            ∧ q.mask = fullMask ∧ q.flight = .barge n w ∧ q.res = none)
        ∧ (entry → u.sl.deferred.length = s.sl.deferred.length + 1
            ∧ ∃ e, u.sl.deferred[s.sl.deferred.length]? = some e ∧ e.op = .count n)
        ∧ (¬ entry → u.sl.deferred.length = s.sl.deferred.length))
    let sluice := check slu s.sl.cmpt [permAT, permLD, permST] fmtIsData Coords.zero = .ok es ∧ es.va % 64 = 0
    let counted := uncommitted ∧ slu.f.life ≠ 0
    let usable (c : CapF) (linePerm : Nat) : Prop := c.has permCP = true ∧ c.fmt ≠ 0x21
      ∧ (dst.f.fmt = 0x20 → src.f.fmt = 0x20 → c.has linePerm = true) ∧ (c.life = 2 → c.cmpt = s.sl.cmpt) ∧ c.seal_ = 0
    let copies := dst.tag = true ∧ src.tag = true ∧ usable dst.f permSC ∧ usable src.f permLC
      ∧ fmtKind dst.f.fmt = fmtKind src.f.fmt ∧ fmtBits dst.f.fmt = fmtBits src.f.fmt
    let t := TileF.of tile
    let corner : Coords := if o.kax then { Coords.zero with k0 := t.nm, k1 := o.kn.val } else { Coords.zero with k0 := o.kn.val, k1 := t.nm }
    let hinted := (src.f.hlay = 1 → t.isB = false) ∧ (src.f.hlay = 2 → t.isB = true) ∧ src.f.hswz = t.swz
    let stages := t.valid = true ∧ (o.hnt = true → hinted) ∧ check src s.sl.cmpt [permPL] fmtIsData corner = .ok es
      ∧ src.f.fmt = t.fmt
    let full := match s.core.barge with
      | [] => False
      | op :: q => 2 ≤ q.length + if (s.slotAt (4 * (s.cur / 4) + op.slot)).acked op.seq 6 = true then 0 else 1
    (full → all fun i => Waits i s .barge)
    ∧ (¬ full →
        (copies → enters (.bcopyCommonShape g d a b) (.copy dst src CapReg.null
            { dst := Coords.zero, sst := Coords.zero, slu := false, levels := (List.range src.f.rank).map fun l =>
                { count := src.f.ext l, ddlt := 1, sdlt := 1, dk := l, sk := l } }) False)
        ∧ (s.sl.acked s.sl.seq 6 = true →
            let off := im.toNat
            let key := memKey (.spad (s.cur / 4)) off
            let here := off % 64 = 0 ∧ off + 256 ≤ s.namedSize s.sl.grid
            let lost := s.poisoned (2 * key) 512 = true
            let read := templateOf (Memory.num s.mem key 256)
            let faults (f : FaultInfo) : Prop := FaultsWith (.bcopyTemplate g d a b im) s f
            (here → ¬ lost → read = some te → copies → (te.slu = true → sluice) →
              enters (.bcopyTemplate g d a b im) (.copy dst src slu te) (te.slu = true ∧ counted))
            ∧ (¬ here → faults (FaultInfo.of 0x35))
            ∧ (here → lost → faults (FaultInfo.atElem 0x23 { va := LW + off, nib := 0, bits := 512, coords := Coords.zero }))
            ∧ (here → ¬ lost → read = none → faults (FaultInfo.of 0x35)))
        ∧ (s.sl.acked s.sl.seq 6 = false → Waits (.bcopyTemplate g d a b im) s .template)
        ∧ (dst.tag = false ∨ src.tag = false → FaultsWith (.bcopyCommonShape g d a b) s (FaultInfo.of 0x10))
        ∧ (stages → o.slu = false → enters (.bstage g d tr b o) (.stage tile src slu o) False)
        ∧ (stages → o.slu = true → ∀ e, check slu s.sl.cmpt [permAT, permLD, permST] fmtIsData Coords.zero = .ok e → e.va % 64 = 0 →
            enters (.bstage g d tr b o) (.stage tile src slu o) counted)
        ∧ (t.valid = false → FaultsWith (.bstage g d tr b o) s (FaultInfo.of 0x31))
        ∧ ((∀ j : Nat, j < 8 → check dst s.sl.cmpt [permLC] fmtIsLine { Coords.zero with k0 := j } = .ok (ln j)) →
            enters (.bres g d a) (.resume dst false) uncommitted))

/-- R183, R184, R186, R189: the Barge carries out the copy at the head of its queue one element an event, in the order of its
tuples, innermost level fastest: it reads a tuple's element at its source coordinates and writes it at its destination's,
unless a check fails, which ends the copy with a resume record and cause 0x30, or the activation for 0x21 and 0x22; after the
last tuple the bytes moved are the status. -/
def Sys2Proof.Parts.BargeCopies : Prop :=
  ∀ (s : State) (c : Nat) (op : BargeOp) (q : List BargeOp) (dst src slu : CapReg) (t : Template),
    (s.coreAt c).barge = op :: q → op.work = .copy dst src slu t →
    let key := 4 * c + op.slot
    let w := s.who key
    let count (l : Nat) : Nat := (t.levels.getD l { count := 0, ddlt := 0, sdlt := 0, dk := 0, sk := 0 }).count
    let size := (t.levels.map (·.count)).prod
    let i (l : Nat) : Nat := op.pos / ((t.levels.take l).map (·.count)).prod % count l
    let coords (start : Coords) (k : Level → Nat) (dlt : Level → Int) : Coords := Coords.of fun a =>
      start.get a + ((t.levels.zipIdx.map fun x => if k x.1 = a then (i x.2 : Int) * dlt x.1 else 0)).sum
    let sc := coords t.sst Level.sk Level.sdlt
    let dc := coords t.dst Level.dk Level.ddlt
    let es := src.f.elem sc
    let ed := dst.f.elem dc
    let bytes (n : Nat) : Nat := ((n - op.first) * fmtBits src.f.fmt + 7) / 8
    let ends (u : State) (r : Res) (n : Option (CapReg × Nat)) : Prop := Completes (.bargeExecute c) s fun v =>
      OnlyCore c { u with fresh := u.fresh + 1 } v
      ∧ ∃ b : BargeDone, v.coreAt c = { u.coreAt c with barge := q, bdone := (u.coreAt c).bdone ++ [b] }
        ∧ b.num = op.num ∧ b.slot = op.slot ∧ b.res = r ∧ b.count = n
        ∧ (b.defer = true ↔ op.defer = true ∧ ∃ x, n = some x ∧ x.1.f.life ≠ 0)
    let stops (side : Bool) (cause : Nat) (at_ : Coords) (fva : Nat) : Prop :=
      (cause = 0x21 ∨ cause = 0x22 → ends s (.fault { FaultInfo.of cause with agent := 1, at_ := at_, fva := fva }) none)
      ∧ (cause ≠ 0x21 → cause ≠ 0x22 →
          ends (s.writeResume key (resumeHeader cause side 0 op.pos ((List.range t.levels.length).map i)) dst src
              (if t.slu = true then slu else CapReg.null) t.bits)
            (.fault { FaultInfo.of 0x30 with icause := cause, agent := if cause = 0x3A then 3 else 1, at_ := at_, fva := fva
                                             prog := BitVec.ofNat 64 op.pos, resume := true }) none)
    let moves (u : State) : Prop := exec (.bargeExecute c) s = .next
      ((u.count 0 c 4 (bytes (op.pos + 1) - bytes op.pos)).updCore c fun x =>
        { x with barge := { op with pos := op.pos + 1 } :: x.barge.tail })
    let writes (u : State) (p : Place) (o : WOp) (whole : Bool) : Prop :=
      (∀ v, (u.touchPage w ed.va).bargeWrite w op.num p o whole = some v → moves v)
      ∧ ((u.touchPage w ed.va).bargeWrite w op.num p o whole = none → stops true 0x3A dc ed.va)
    let pending := s.elemPending w .copy false es = true ∨ s.elemPending w .copy true ed = true
    (s.bargeReady c op = false → Stays (.bargeExecute c) s)
    ∧ (s.bargeReady c op = true → op.slot < 4 →
        (size ≤ op.pos → ends s (.val { bits := BitVec.ofNat 512 (bytes op.pos % 2 ^ 48), tag := false } 0)
          (if t.slu = true then some (slu, bytes op.pos) else none))
        ∧ (op.pos < size → pending → Stays (.bargeExecute c) s)
        ∧ (op.pos < size → ¬ pending →
            (src.f.inBounds sc = false → stops false 0x11 sc 0)
            ∧ (src.f.inBounds sc = true → dst.f.inBounds dc = false → stops true 0x11 dc 0)
            ∧ (src.f.inBounds sc = true → dst.f.inBounds dc = true →
                (∀ n, s.xlate w .copy false es.va = .error n → stops false n sc es.va)
                ∧ ∀ ps, s.xlate w .copy false es.va = .ok ps →
                  (∀ n, s.xlate w .copy true ed.va = .error n → stops true n dc ed.va)
                  ∧ ∀ p, s.xlate w .copy true ed.va = .ok p →
                    (src.f.fmt ≠ 0x20 →
                      (∀ f, s.readElem w .copy op.seq es = .error f → stops false f.cause sc es.va)
                      ∧ ∀ u v a, s.readElem w .copy op.seq es = .ok (u, v, a) → writes u p (.data p.key ed.nib ed.bits v) false)
                    ∧ (src.f.fmt = 0x20 →
                      (∀ f, s.readCap w .copy op.seq es = .error f → stops false f.cause sc es.va)
                      ∧ ∀ u v, s.readCap w .copy op.seq es = .ok (u, v) →
                        (∀ n, u.capValue w v dst p = some n → stops true n dc ed.va)
                        ∧ (u.capValue w v dst p = none → writes u p (.line v) (u.revoking w.world))))))

/-- R190 … R193: `bres` reads its record, once no write to its lines is under way, and becomes the copy from its tuple on, or
ends with the fault of a bad record, AGENT 1 (the model's reading, log entry 96), or moves
nothing where its tuple is outside the counts; `bstage` reads one element an event, k fastest (the model's choice, log entry
97), then writes its planes, or ends with the record of an element that faults. -/
def Sys2Proof.Parts.BargeResumesAndStages : Prop :=
  ∀ (s : State) (c : Nat) (op : BargeOp) (q : List BargeOp), (s.coreAt c).barge = op :: q → op.slot < 4 →
    s.bargeReady c op = true →
    let key := 4 * c + op.slot
    let w := s.who key
    let cmpt := (s.slotAt key).cmpt
    let ends (u : State) (r : Res) (n : Option (CapReg × Nat)) : Prop := Completes (.bargeExecute c) s fun v =>
      OnlyCore c { u with fresh := u.fresh + 1 } v
      ∧ ∃ b : BargeDone, v.coreAt c = { u.coreAt c with barge := (u.coreAt c).barge.tail, bdone := (u.coreAt c).bdone ++ [b] }
        ∧ b.num = op.num ∧ b.slot = op.slot ∧ b.res = r ∧ b.count = n
        ∧ (b.defer = true ↔ op.defer = true ∧ ∃ x, n = some x ∧ x.1.f.life ≠ 0)
    let heads (u : State) (o : BargeOp) : Prop :=
      exec (.bargeExecute c) s = .next (u.updCore c fun x => { x with barge := o :: x.barge.tail })
    let status (n : Nat) (mk nx : Bool) : Res :=
      .val { bits := BitVec.ofNat 512 (n % 2 ^ 48 + (if mk = true then 2 ^ 61 else 0) + (if nx = true then 2 ^ 62 else 0)), tag := false }
        (if nx = true then flagNX else 0)
    (∀ r own, op.work = .resume r own →
      (s.recordPending w r = true → Stays (.bargeExecute c) s) ∧
      (s.recordPending w r = false →
      (∀ f, s.readRecord w op.seq r [0, 1, 2, 3, 4, 5, 6, 7] = .error f → ends s (.fault { f with agent := 1 }) none)
      ∧ ∀ u l0 dst src slu l4 l5 l6 l7, s.readRecord w op.seq r [0, 1, 2, 3, 4, 5, 6, 7] = .ok (u, [l0, dst, src, slu, l4, l5, l6, l7]) →
        let h := l0.bits.toNat
        let image := l4.bits.toNat + 2 ^ 512 * l5.bits.toNat + 2 ^ 1024 * l6.bits.toNat + 2 ^ 1536 * l7.bits.toNat
        let met (f : FaultInfo) : Prop := ends u (.fault { f with agent := 1 }) none
        (h / 2 ^ 469 % 4 ≠ 0 ∨ templateOf image = none → met (FaultInfo.of 0x37))
        ∧ ∀ t, h / 2 ^ 469 % 4 = 0 → templateOf image = some t →
          (∀ n, copyCheck dst src cmpt = some n → met (FaultInfo.of n))
          ∧ (copyCheck dst src cmpt = none →
              let sluice := sluiceCheck slu cmpt [permAT, permLD, permST] Coords.zero
              (∀ f, t.slu = true → sluice = .error f → met f)
              ∧ ((t.slu = true → ∃ e, sluice = .ok e) →
                  let iter (l : Nat) : Nat := h / 2 ^ (32 * l) % 2 ^ 32
                  let inside := ∀ x ∈ t.levels.zipIdx, iter x.2 < x.1.count
                  let n := ((t.levels.zipIdx.map fun x => iter x.2 * ((t.levels.take x.2).map (·.count)).prod)).sum
                  (¬ inside → ends u (status 0 false false) (if t.slu = true then some (slu, 0) else none))
                  ∧ (inside → heads u { op with work := .copy dst src slu t, first := n, pos := n })))))
    ∧ (∀ tile src slu o, op.work = .stage tile src slu o →
        let t := TileF.of tile
        let kn := o.kn.val + 1
        let n := (t.nm + 1) * kn
        let co : Coords := if o.kax = true then { Coords.zero with k0 := (op.pos / kn : Nat), k1 := (op.pos % kn : Nat) }
          else { Coords.zero with k0 := (op.pos % kn : Nat), k1 := (op.pos / kn : Nat) }
        let e := src.f.elem co
        let busy := ∃ y ∈ (s.coreAt c).engine.queue, y.num ≤ op.after ∧ ∃ x ∈ y.work.tiles,
          t.off < x.off + x.bytes ∧ x.off < t.off + t.bytes
        (op.pos < n → s.elemPending w .copy false e = true → Stays (.bargeExecute c) s)
        ∧ (op.pos < n → s.elemPending w .copy false e = false →
            (∀ u v p, s.readElem w .copy op.seq e = .ok (u, v, p) → heads u { op with pos := op.pos + 1, got := op.got ++ [v] })
            ∧ ∀ f, s.readElem w .copy op.seq e = .error f →
              (f.cause = 0x21 ∨ f.cause = 0x22 →
                ends s (.fault { FaultInfo.of f.cause with agent := 1, at_ := f.at_, fva := f.fva }) none)
              ∧ (f.cause ≠ 0x21 → f.cause ≠ 0x22 →
                ends (s.writeResume key (resumeHeader f.cause false 1 0 [op.pos % kn, op.pos / kn]) CapReg.null src
                    (if o.slu = true then slu else CapReg.null) 0)
                  (.fault { FaultInfo.of 0x30 with icause := f.cause, agent := 1, at_ := f.at_, fva := f.fva }) none))
        ∧ (n ≤ op.pos → busy → Stays (.bargeExecute c) s)
        ∧ (n ≤ op.pos → ¬ busy →
            let line (r : Nat) : List Nat :=
              (List.range 64).map fun k => if r ≤ t.nm ∧ k < kn then op.got.getD (kn * r + k) 0 else 0
            let group (r g : Nat) : SGroup := stageGroup (fpOfCode t.fmt) t.np (((line r).drop (16 * g)).take 16)
            let floats := groupFmt t.fmt = true
            let ints (r : Nat) : List Int :=
              if floats then (List.range 4).flatMap fun g => (group r g).qs else (line r).map (stageInt t.fmt)
            let planes : State := (List.range 32).foldl (fun u r =>
              u.putLineOf c t r (ints r) (if floats then (List.range 4).map (group r) else [])) s
            let any (p : SGroup → Bool) : Bool := decide floats && (List.range 32).any fun r => (List.range 4).any fun g => p (group r g)
            let len := (n * fmtBits t.fmt + 7) / 8
            ends (planes.count 0 c 4 t.bytes) (status len (any SGroup.marked) (any SGroup.inexact))
              (if o.slu = true then some (slu, len) else none)))

/-- R57 … R60, R174: what a staging stores of a group of a float line: a mark and zeros where an element is NaN or infinite
(with exponent emin, the model's choice, log entry 78); else the largest exponent of its nonzero elements, emin for none, and
each element scaled by it and rounded to nearest even, clamped. -/
def Sys2Proof.Parts.StagedGroups : Prop :=
  ∀ (f : FpFmt) (np : Nat) (xs : List Nat), f ∈ [fpF32, fpBf16, fpF16, fpE4m3, fpE5m2] → 2 ≤ np →
    let emin : Int := 1 - (f.bias : Int)
    let r := stageGroup f np xs
    let special := ∃ x ∈ xs, fvIsNan (f.value x) = true ∨ fvIsInf (f.value x) = true
    let exps : List Int := xs.filterMap fun x => match f.value x with
      | .fin _ m e => if m = 0 then none else some (e + (f.mBits : Int))
      | _ => none
    (special → r = { marked := true, eg := emin, qs := xs.map fun _ => 0, inexact := false })
    ∧ (¬ special → r.marked = false ∧ (exps = [] → r.eg = emin) ∧ (exps ≠ [] → r.eg ∈ exps ∧ ∀ e ∈ exps, e ≤ r.eg)
        ∧ r.qs.length = xs.length
        ∧ (∀ (j : Nat) (n : Bool) (m : Nat) (e : Int), (xs[j]?.map f.value) = some (.fin n m e) →
            let sh := e + np - 2 - r.eg
            let num := m * 2 ^ sh.toNat
            let den := 2 ^ (-sh).toNat
            let lo := num / den
            let k := if den < 2 * (num % den) ∨ den = 2 * (num % den) ∧ lo % 2 = 1 then lo + 1 else lo
            let z : Int := if n = true then -(k : Int) else k
            r.qs[j]? = some (if z = 2 ^ (np - 1) then 2 ^ (np - 1) - 1 else z)
            ∧ (num % den ≠ 0 ∨ z = 2 ^ (np - 1) → r.inexact = true))
        ∧ (r.inexact = true → ∃ (j : Nat) (n : Bool) (m : Nat) (e : Int), (xs[j]?.map f.value) = some (.fin n m e) ∧
            let sh := e + np - 2 - r.eg
            m * 2 ^ sh.toNat % 2 ^ (-sh).toNat ≠ 0
              ∨ n = false ∧ m * 2 ^ sh.toNat / 2 ^ (-sh).toNat = 2 ^ (np - 1)))

/-- R44, R301: a write of an element changes its bits and nothing beside them, and clears the tag of its line; a write of a
line changes its 64 bytes and its tag. -/
def Sys2Proof.Parts.WritesChangeMemory : Prop :=
  ∀ (s : State) (k nib bits v : Nat) (c : CapReg) (j : Nat),
    let e := s.memWrite k (.data k nib bits v)
    let l := s.memWrite k (.line c)
    (bits = 4 → nib < 2 → (e.byte k).toNat = (s.byte k).toNat % 16 ^ nib + 16 ^ nib * (v % 16)
        + (if nib = 0 then (s.byte k).toNat / 16 * 16 else 0)
      ∧ (j ≠ k → e.byte j = s.byte j))
    ∧ (bits ∈ [8, 16, 32, 64] → (∀ i, i < bits / 8 → e.byte (k + i) = BitVec.ofNat 8 (v / 2 ^ (8 * i)))
      ∧ (j < k ∨ k + bits / 8 ≤ j → e.byte j = s.byte j))
    ∧ (∀ i, i < 64 → l.byte (64 * (k / 64) + i) = BitVec.ofNat 8 (c.bits.toNat / 2 ^ (8 * i)))
    ∧ (j / 64 ≠ k / 64 → l.byte j = s.byte j)
    ∧ e.tagAt k = false ∧ l.tagAt k = c.tag ∧ (j / 64 ≠ k / 64 → e.tagAt j = s.tagAt j ∧ l.tagAt j = s.tagAt j)

/-- R184, R195, R196, R304, R305, R308: a finished Barge instruction returns its status once its writes have package scope; its
bytes are counted into its Sluice first, as a release, or are kept for `commit` when the count is deferred; a Sluice that
cannot be reached turns the status into a fault. -/
def Sys2Proof.Parts.BargeCompletes : Prop :=
  ∀ (s : State) (c : Nat) (d : BargeDone) (q : List BargeDone) (s2 : State) (f : FaultInfo),
    (s.coreAt c).bdone = d :: q → d.slot < 4 →
    let key := 4 * c + d.slot
    let w := s.who key
    let s1 := s.updCore c fun k => { k with bdone := q }
    let mine (f : Flight) : Bool := match f with
      | .barge n _ => n == d.num
      | _ => false
    let returns (t : State) (r : Res) : Prop := Completes (.bargeCompletion c) s fun u =>
      OnlySlot key t u ∧ u.slotAt key = { t.slotAt key with owed := ((t.slotAt key).owed.map fun o =>
        if o.res = none ∧ mine o.flight = true then { o with res := some r } else o) }
    let acked := ∀ l ∈ s.coh, ∀ x ∈ l.2.inval, ¬ (x.1 = c ∧ x.2.1 = 4 ∧ x.2.2.1 = d.num)
    let before := ∀ l ∈ s.coh, ∀ x ∈ l.2.inval, dieOf x.1 = dieOf c → d.stamp ≤ x.2.2.2
    (¬ acked → Stays (.bargeCompletion c) s)
    ∧ (acked → (d.count = none → returns s1 d.res)
      ∧ (∀ slu n, d.count = some (slu, n) →
        let e := slu.f.elem Coords.zero
        let counts := before ∧ s.elemPending w .atomic true e = false
        (d.defer = true → returns (s1.updCore c fun k => { k with
            counts := k.counts ++ [{ num := d.num, slot := d.slot, slu := slu, bytes := n }] }) d.res)
        ∧ (d.defer = false → ¬ counts → Stays (.bargeCompletion c) s)
        ∧ (d.defer = false → counts → s1.applySluice w (.count n) e = .ok s2 → returns s2 d.res)
        ∧ (d.defer = false → counts → s1.applySluice w (.count n) e = .error f → returns s1 (.fault
            (if f.cause = 0x21 ∨ f.cause = 0x22 then { FaultInfo.of f.cause with agent := 1, at_ := f.at_, fva := f.fva }
             else { FaultInfo.of 0x30 with icause := f.cause, agent := if f.cause = 0x3A then 3 else 1
                                           at_ := f.at_, fva := f.fva })))))

/-- R184 … R196: a Barge instruction is carried out, and its status returns. That one element moves in each event, and that the
planes of a staging are written in its last, is the model's choice (log entry 6), as is what ELEMS, BYTES and PROG count and
PROG 0 of a fault at the Sluice count (log entry 78). -/
def Obligations.BargeWork : Prop :=
  Sys2Proof.Parts.BargeCopies ∧ Sys2Proof.Parts.BargeResumesAndStages ∧ Sys2Proof.Parts.StagedGroups
  ∧ Sys2Proof.Parts.WritesChangeMemory ∧ Sys2Proof.Parts.BargeCompletes

/-! ## Sluices -/

/-- R194 … R197, R199, R299: a Sluice operation whose operand passes its checks enters the store queue, or before `commit` is
deferred unless its Sluice has lifetime activation; a line that is not aligned, and a `sinit` amount above 2³² − 1, raise
cause 0x36. -/
def Sys2Proof.Parts.SluiceIssue : Prop :=
  ∀ (s : State) (g : Ctl) (d : XReg) (m : MemOp) (r : MemReg) (n : Imm) (e : Elem) (p : Place), s.sl.guard g = true →
    let x := (s.sl.xr d).toNat
    let issues (i : Instr) (c : CReg) (k : Coords) (perms : List Nat) (amountOk : Prop) (o : SluiceOp) : Prop :=
      check (s.sl.cr c) s.sl.cmpt perms fmtIsData k = .ok e →
      let deferred := s.sl.committed = none ∧ (s.sl.cr c).f.life ≠ 0
      (e.va % 64 ≠ 0 → FaultsWith i s (FaultInfo.atElem 0x36 e))
      ∧ (e.va % 64 = 0 → ¬ amountOk → FaultsWith i s (FaultInfo.atElem 0x36 e))
      ∧ (e.va % 64 = 0 → amountOk → s.placeAt .atomic e = .ok p →
          (¬ deferred → (s.reserve (s.who s.cur) s.sl.seq p).isSome = true → Queues i s none [(.sluice e o, p)])
          ∧ (deferred → s.sl.deferred.length < 8 → Defers i s (.sluice o e) none)
          ∧ (deferred → 8 ≤ s.sl.deferred.length → FaultsWith i s (FaultInfo.of 0x38)))
    issues (.sinit g d m) m.c (s.sl.coords m) [permST] (x < 2 ^ 32) (.init x)
    ∧ issues (.sarmRegister g d m) m.c (s.sl.coords m) [permAT, permLD, permST] True (.arm x)
    ∧ issues (.sarmImmediate g r n) r.c (s.sl.coordsR r) [permAT, permLD, permST] True (.arm n.toNat)
    ∧ issues (.sarrive g m) m.c (s.sl.coords m) [permAT, permLD, permST] True (.arrive 0)
    ∧ issues (.sarriveBytes g d m) m.c (s.sl.coords m) [permAT, permLD, permST] True (.arrive x)

/-- R194, R195: what the operations do to a Sluice line, with the flip that follows each but `sinit`, which rewrites the
whole line (the model's choice for its reserved bits and PH, log entry 98); and the oldest operation that its slot may send is
applied at its home, unless the firewall has come to refuse it. -/
def Sys2Proof.Parts.SluiceOperations : Prop :=
  (∀ (l : Line) (n : Nat),
    let field (b : Line) (lo w : Nat) : Nat := b.toNat / 2 ^ lo % 2 ^ w
    let flips := field l 32 32
    let eb := field l 64 64
    let ab := field l 128 64
    let ea := field l 192 64
    let aa := field l 256 64
    let holds (b : Line) (fl eb' ab' ea' aa' : Nat) : Prop :=
      field b 0 32 = fl % 2 ∧ field b 32 32 = fl ∧ field b 64 64 = eb' ∧ field b 128 64 = ab' ∧ field b 192 64 = ea'
      ∧ field b 256 64 = aa' ∧ field b 320 192 = 0
    let flipped (b : Line) (eb' ab' aa' : Nat) : Prop :=
      if ea ≤ aa' ∧ eb' ≤ ab' then holds b ((flips + 1) % 2 ^ 32) 0 0 ea 0 else holds b flips eb' ab' ea aa'
    (n < 2 ^ 32 → holds (SluiceOp.apply (.init n) l) 0 0 0 n 0)
    ∧ flipped (SluiceOp.apply (.arm n) l) ((eb + n) % 2 ^ 64) ab aa
    ∧ (aa + 1 < 2 ^ 64 → flipped (SluiceOp.apply (.arrive n) l) eb ((ab + n) % 2 ^ 64) (aa + 1))
    ∧ flipped (SluiceOp.apply (.count n) l) eb ((ab + n) % 2 ^ 64) aa)
  ∧ ∀ (s : State) (c k : Nat) (o : Out) (e : Elem) (op : SluiceOp) (t : State),
    let key := 4 * c + k
    ((s.slotAt key).out.find? fun o => o.isSluice && o.lvl == 0) = some o → o.op = .sluice e op →
    s.rival (.sluice c k) = none →
    (s.outReady key o = true → s.refusesOut key o = true → exec (.sluiceOperationApply c k) s = .next (s.refuseOut key o))
    ∧ (s.outReady key o = true → s.refusesOut key o = false → s.applySluice (s.who key) op e = .ok t →
      Completes (.sluiceOperationApply c k) s fun u =>
        u = (t.unreserve (s.who key) o.seq o.place.la).updSlot key fun sl => { sl with out := sl.out.map fun x =>
          if x.seq = o.seq ∧ x.idx = o.idx ∧ x.place.key = o.place.key ∧ x.op = o.op then { x with lvl := 3 } else x })
    ∧ (s.outReady key o = false → exec (.sluiceOperationApply c k) s = .next s)

/-- R195, R271, R47: an operation reads its line, ready for a write, and stores what it makes of it, tag clear: on memory of the
core's own die, or in the local window, the line then reads so. One that meets an error or a full spill area writes nothing. -/
def Sys2Proof.Parts.SluiceLines : Prop :=
  ∀ (s : State) (w : Who) (op : SluiceOp) (e : Elem) (p : Place), s.xlate w .atomic false e.va = .ok p →
    let s1 := (s.touchPage w e.va).readyWrite w p true
    let lost := s1.placePoisoned w { p with key := 64 * (p.key / 64) } 0 512 = true
    let new : CapReg := { bits := op.apply (s1.viewLine w p).bits, tag := false }
    let near := p.kind = .dev ∧ dieOf w.core = p.home / 64
    let stored := s1.writeNow w p (.line new)
    (lost → s.applySluice w op e = .error (FaultInfo.atElem 0x23 { e with va := e.va / 64 * 64, nib := 0, bits := 512 }))
    ∧ (¬ lost → stored = none → s.applySluice w op e = .error { FaultInfo.atElem 0x3A e with agent := 3 })
    ∧ (¬ lost → ∀ t, stored = some t → s.applySluice w op e = .ok t
        ∧ (s.revs = [] → w.rev = none → (near ∨ p.kind = .win) → t.lineAt p.key = new))

/-- R194 … R197: the Sluice operations at issue, and what each makes of its line. -/
def Obligations.Sluices : Prop :=
  Sys2Proof.Parts.SluiceIssue ∧ Sys2Proof.Parts.SluiceOperations ∧ Sys2Proof.Parts.SluiceLines

/-- R197: the blocking `swait` writes the low word of the line once its FLIPS differ from those in X[D], and until then holds the
slot with its timer running; the poll owes the word and holds the slot's later accesses until it has performed. -/
def Sys2Proof.Parts.SluiceWaits : Prop :=
  ∀ (s t : State) (g : Ctl) (d : XReg) (m : MemOp) (e : Elem) (p : Place) (v : Nat), s.sl.guard g = true →
    check (s.sl.cr m.c) s.sl.cmpt [permLD] fmtIsData (s.sl.coords m) = .ok e →
    (e.va % 64 ≠ 0 → FaultsWith (.swaitPoll g d m) s (FaultInfo.atElem 0x36 e))
    ∧ (e.va % 64 = 0 →
        let flips := (s.sl.xr d).toNat / 2 ^ 32 % 2 ^ 32
        Owes (.swaitPoll g d m) s (some (.x d.val)) fullMask (.poll flips e) true
        ∧ (s.sl.stop = .run → s.placeAt .observe e = .ok p →
          let waits : Prop := Completes (.swaitBlocking g d m) s fun u => u = s.updSl fun sl =>
            { sl with stop := .hold (.swait e flips), timer := some (sl.timer.getD (s.now + s.core.wtlim.toNat)) }
          let may := s.mayPerform s.cur s.sl.seq .observe [e] = true
          let look : Except FaultInfo (State × Nat × Place) :=
            s.readElem (s.who s.cur) .observe s.sl.seq { e with nib := 0, bits := 64 }
          let reads : Prop := look = .ok (t, v, p)
          (¬ may → waits)
          ∧ (∀ f, may → look = .error f → FaultsWith (.swaitBlocking g d m) s f)
          ∧ (may → reads → v / 2 ^ 32 % 2 ^ 32 = flips → waits)
          ∧ (may → reads → v / 2 ^ 32 % 2 ^ 32 ≠ flips →
              ActsVia (.swaitBlocking g d m) s (t.updSl fun sl => sl.setX d (BitVec.ofNat 64 v)))))

/-- R24, R26, R198: `wait` completes at once for a register that is not owed; it holds the slot until the value has returned,
lands it alone, or parks the slot for the fault that it carries. -/
def Sys2Proof.Parts.WaitResults : Prop :=
  ∀ (s : State) (g : Ctl) (x : XReg) (v : VReg) (c : CReg), s.sl.guard g = true →
    let waits (i : Instr) (r : RegRef) (d : Dests) (lands : Slot → Line → CapReg → Prop) : Prop :=
      ((∀ o ∈ s.sl.owed, o.live = true → o.dest ≠ some r) → ActsNot i s)
      ∧ ∀ o, (s.sl.owed.find? fun o => o.live && o.dest == some r) = some o →
        (o.res = none → Waits i s (.waitReg r))
        ∧ (∀ w fl, o.res = some (.val w fl) → Acts i s d fun b => lands b o.mask w
            ∧ b.fflags = s.sl.fflags ||| BitVec.ofNat 64 (fl % 32) ∧ b.owed = s.sl.owed.filter (fun q => q != o)
            ∧ b.deferred = s.sl.deferred ∧ b.out = s.sl.out)
        ∧ (∀ f, o.res = some (.fault f) → Completes i s fun u => u.sl.stop = .park ∧ u.sl.owed = s.sl.owed
            ∧ SlotKept s.sl u.sl {} ∧ u.sl.fflags = s.sl.fflags ∧ FallsThrough s.sl u.sl ∧ Elsewhere s u)
    waits (.waitX g x) (.x x.val) { x := some x } (fun b _ w => b.xr x = if x = 0 then 0 else w.bits.setWidth 64)
    ∧ waits (.waitV g v) (.v v.val) { v := some v } (fun b k w => b.vr v = (s.sl.vr v &&& ~~~k) ||| (w.bits &&& k))
    ∧ waits (.waitC g c) (.c c.val) { c := some c } (fun b _ w => b.cr c = if c = 0 then CapReg.null else w)

/-- R197, R198, R259: waiting for a flip, for a phase and for a register. -/
def Obligations.Waits : Prop := Sys2Proof.Parts.SluiceWaits ∧ Sys2Proof.Parts.WaitResults

/-! ## Tasks -/

/-- R199, R200, R205, R206, R209 … R214: before `commit` an instruction of R199 whose issue checks pass takes an entry of the
buffer with the operands it read and does nothing else, and `fork` takes its index; a full buffer and a failed check fault. -/
def Obligations.TasksDefer : Prop :=
  ∀ (s : State) (g : Ctl) (d : XReg) (v : VReg) (a b : CReg) (m : MemOp) (r : MemReg) (n : Imm) (e e4 l0 l15 : Elem) (p : Place)
    (tm tc cn : Nat), s.sl.guard g = true → s.sl.committed = none →
    let sl := s.sl
    let takes (i : Instr) (op : DeferOp) (dest : Option RegRef) : Prop :=
      (sl.deferred.length < 8 → Defers i s op dest) ∧ (8 ≤ sl.deferred.length → FaultsWith i s (FaultInfo.of 0x38))
    let mc := sl.cr m.c
    let at_ := sl.coords m
    let record (c : CapReg) (k : Coords) : Prop := check c sl.cmpt [permLC] fmtIsLine k = .ok e
      ∧ check c sl.cmpt [permLC] fmtIsLine (k.shift 4) = .ok e4
    let list := check (sl.cr b) sl.cmpt [permLC, permMG] fmtIsLine Coords.zero = .ok l0
      ∧ check (sl.cr b) sl.cmpt [permLC, permMG] fmtIsLine (Coords.zero.shift 15) = .ok l15
    let forks (i : Instr) (revs : Option CapReg) : Prop :=
      (8 ≤ sl.deferred.length → FaultsWith i s (FaultInfo.of 0x38))
      ∧ (sl.deferred.length < 8 → ∃ df, ActsVia i s (s.updSl fun q => { q with
          forks := q.forks + 1
          deferred := q.deferred ++ [{ op := .fork (sl.cr a) sl.forks revs, dest := some (.x d.val), stale := false
                                       iaddr := sl.here, dfield := df }] }))
    let counter := check (sl.cr r.c) sl.cmpt [permLD, permST, permAT] fmtIsData (sl.coordsR r) = .ok e
    let line := (e.va - counterBase) / 64
    let inAperture := counterBase ≤ e.va ∧ e.va < LW ∧ (e.va - counterBase) % 64 = 0
    let owned := s.counterAt sl.part line = some (tm, tc, cn) ∧ tc < (s.teamAt tm).cores
      ∧ (s.gridAt (s.teamAt tm).grid).st = .live
    let basin := check mc sl.cmpt [permLD, permST, permAT] (· == 0x08) at_ = .ok e
    let flat := mc.f.rank = 1 ∧ mc.f.sd0 = 1
    let entries : Int := (mc.f.ext0 : Int) - at_.k0 - 8
    let whole := entries % 8 = 0 ∧ 8 ≤ entries ∧ e.va % 64 = 0
    let bops : List Instr := [.bpushX g d m, .bpushV g v m, .bpopX g d m, .bpopV g v m]
    (record mc at_ → takes (.spawn g d m) (.spawn mc at_) (some (.x d.val))
        ∧ takes (.launch g d m) (.launch mc at_) (some (.x d.val)))
    ∧ (∀ x, check mc sl.cmpt [permLC] fmtIsLine at_ = .error x →
        FaultsWith (.spawn g d m) s (FaultInfo.ofCheck mc x at_) ∧ FaultsWith (.launch g d m) s (FaultInfo.ofCheck mc x at_))
    ∧ (record (sl.cr a) Coords.zero → forks (.fork g d a) none
        ∧ (list → forks (.forkWithRevisions g d a b) (some (sl.cr b))))
    ∧ (counter → inAperture → owned → takes (.rdecImmediate g r n) (.rdec n.toNat e) none
        ∧ takes (.rdecRegister g d r) (.rdec (sl.xr d).toNat e) none)
    ∧ (counter → ¬ inAperture ∨ s.counterAt sl.part line = none ∨ (s.counterAt sl.part line = some (tm, tc, cn) ∧ ¬ owned) →
        FaultsWith (.rdecImmediate g r n) s (FaultInfo.atElem 0x3E e) ∧ FaultsWith (.rdecRegister g d r) s (FaultInfo.atElem 0x3E e))
    ∧ (basin → flat → whole → s.placeAt .atomic e = .ok p → s.placesAt .atomic (basinPages mc.f at_.k0) = .ok () →
        takes (.bpushX g d m) (.push mc at_.k0 ((sl.xr d).setWidth 512)) none
        ∧ takes (.bpushV g v m) (.push mc at_.k0 (sl.vr v)) none
        ∧ takes (.bpopX g d m) (.pop mc at_.k0 false) (some (.x d.val))
        ∧ takes (.bpopV g v m) (.pop mc at_.k0 true) (some (.v v.val)))
    ∧ (basin → ¬ flat → ∀ i ∈ bops, FaultsWith i s (FaultInfo.atElem 0x12 e))
    ∧ (basin → flat → ¬ whole → ∀ i ∈ bops, FaultsWith i s (FaultInfo.atElem 0x3E e))

/-- R147, R200, R205, R207 … R211, R314, R340, R357: after `commit` a task instruction acts at issue, once the activation's
earlier accesses are acknowledged at package scope and no write is being applied to the lines that it reads: its status, with
CODE 0 and its record placed, or another CODE and nothing started; and `rdec` decrements its counter. Until then it holds. A
spill area that the firewall keeps from the Junction faults. -/
def Sys2Proof.Parts.TaskEffects : Prop :=
  ∀ (s u v : State) (g : Ctl) (d : XReg) (a b : CReg) (m : MemOp) (r : MemReg) (n : Imm) (e e4 l0 l15 : Elem) (rec_ : Rec)
    (lst : Option RevList) (tm tc cn : Nat), s.sl.guard g = true → s.sl.committed ≠ none →
    let sl := s.sl
    let s1 := s.stampOf.2
    let released := s1.releaseOk s.cur sl.seq 6 s.stampOf.1 = true
    let w := s1.who s.cur
    let entry (op : DeferOp) : Defer :=
      { op := op, dest := some (.x d.val), stale := false, iaddr := sl.here, dfield := dField 1 0 d.val }
    let status (i : Instr) (op : DeferOp) (t : State) (code val_ : Nat) : Prop :=
      ActsVia i s (t.oweApplied (entry op) (.ready (capOfWord (BitVec.ofNat 64 (code + 2 ^ 8 * (val_ % 2 ^ 32))))) none)
    let readable (es : List Elem) : Prop := s1.reachable w sl.seq .load es = true
    let lines (c : CapReg) (k : Coords) : List Elem := (List.range 5).map fun j => c.f.elem (recordAt k j)
    let listed : List Elem := (List.range 16).map fun j => (sl.cr b).f.elem (recordAt Coords.zero j)
    let record (c : CapReg) (k : Coords) : Prop := check c sl.cmpt [permLC] fmtIsLine k = .ok e
      ∧ check c sl.cmpt [permLC] fmtIsLine (k.shift 4) = .ok e4
    let list := check (sl.cr b) sl.cmpt [permLC, permMG] fmtIsLine Coords.zero = .ok l0
      ∧ check (sl.cr b) sl.cmpt [permLC, permMG] fmtIsLine (Coords.zero.shift 15) = .ok l15
    let mc := sl.cr m.c
    let at_ := sl.coords m
    let spawnOp : DeferOp := .spawn mc at_
    let launchOp : DeferOp := .launch mc at_
    let took (t : State) : State := t.updSl fun q => { q with forks := q.forks + 1 }
    let forked (i : Instr) (revs : Option CapReg) (t : State) (code : Nat) : Prop :=
      ActsVia i s (took (t.oweApplied (entry (.fork (sl.cr a) sl.forks revs))
        (.ready (capOfWord (BitVec.ofNat 64 (code + 2 ^ 8 * (sl.forks % 2 ^ 32))))) none))
    (record mc at_ → ¬ released → Completes (.spawn g d m) s fun t => t = s1.updSl fun q => { q with
        stop := .hold (.release 6 s.stampOf.1) })
    ∧ (record mc at_ → released → ¬ readable (lines mc at_) →
        (Completes (.spawn g d m) s fun t => t = s1.updSl fun q => { q with stop := .hold .commit })
        ∧ Completes (.launch g d m) s fun t => t = s1.updSl fun q => { q with stop := .hold .commit })
    ∧ (record (sl.cr a) Coords.zero → released → ¬ readable (lines (sl.cr a) Coords.zero) →
        Completes (.fork g d a) s fun t => t = s1.updSl fun q => { q with stop := .hold .commit })
    ∧ (record mc at_ → released → readable (lines mc at_) → s1.readRec w sl.seq mc at_ = .ok (u, rec_) →
        let out := ∃ i, i < rec_.ncap ∧ (rec_.cap (i + 1)).tag = true ∧ (u.gridAt u.sl.grid).covers (rec_.cap (i + 1)).f = false
        let e' : PoolEntry := { record := rec_, rev := u.sl.rev, child := false, taken := false, dep := decide (rec_.depn ≠ 0) }
        (u.childCode rec_ ≠ 0 → status (.spawn g d m) spawnOp u (u.childCode rec_) 0)
        ∧ (u.childCode rec_ = 0 → out → status (.spawn g d m) spawnOp u 3 0)
        ∧ (u.childCode rec_ = 0 → ¬ out → u.placeNew u.sl.team rec_.plc e' = none → status (.spawn g d m) spawnOp u 1 0)
        ∧ (u.childCode rec_ = 0 → ¬ out → u.placeNew u.sl.team rec_.plc e' = some v →
            status (.spawn g d m) spawnOp v.shareRev 0 0)
        ∧ (let code := u.recordCode u.sl.world u.sl.cmpt true 0 0 Rec.empty rec_
           (code ≠ 0 → status (.launch g d m) launchOp u code 0)
           ∧ (code = 0 → u.submit u.sl.part u.sl.world rec_ none = none → status (.launch g d m) launchOp u 1 0)
           ∧ (code = 0 → u.submit u.sl.part u.sl.world rec_ none = some v →
               status (.launch g d m) launchOp (v.updGrid (u.fresh + 1) fun x => { x with dirty := u.sl.hostDirty }) 0 0)))
    ∧ (record (sl.cr a) Coords.zero → released → readable (lines (sl.cr a) Coords.zero) →
        s1.readRec w sl.seq (sl.cr a) Coords.zero = .ok (u, rec_) →
        (u.childCode rec_ ≠ 0 → forked (.fork g d a) none u (u.childCode rec_))
        ∧ (u.childCode rec_ = 0 → u.forkPush rec_ u.sl.rev false = none → forked (.fork g d a) none u 1)
        ∧ (u.childCode rec_ = 0 → u.forkPush rec_ u.sl.rev false = some v → forked (.fork g d a) none v.shareRev 0))
    ∧ (record (sl.cr a) Coords.zero → list → released → readable (lines (sl.cr a) Coords.zero ++ listed) →
        s1.readRec w sl.seq (sl.cr a) Coords.zero = .ok (u, rec_) → u.readList w u.sl.seq (sl.cr b) = .ok (v, lst) → v.childCode rec_ = 0 →
        (lst = none → forked (.forkWithRevisions g d a b) (some (sl.cr b)) v 4)
        ∧ (∀ l, lst = some l →
            let ranges := (List.range 5).map (lineRange (sl.cr a).f) ++ [(sl.cr b).f.footprint]
            let dfr := entry (.fork (sl.cr a) sl.forks (some (sl.cr b)))
            let made := v.makeRevision dfr sl.forks l
            let fits := v.listOk v.sl.grid v.sl.rev l ranges = true
            (¬ fits → forked (.forkWithRevisions g d a b) (some (sl.cr b)) v 4)
            ∧ (fits → ∀ x, v.spillRefused l.spill.f = some x → exec (.forkWithRevisions g d a b) s = .next (v.faultNow x))
            ∧ (fits → v.spillRefused l.spill.f = none →
                (made.2.forkPush rec_ (some made.1) true = none → forked (.forkWithRevisions g d a b) (some (sl.cr b)) v 1)
                ∧ ∀ y, made.2.forkPush rec_ (some made.1) true = some y →
                    forked (.forkWithRevisions g d a b) (some (sl.cr b)) y 0)))
    ∧ (released → check (sl.cr r.c) sl.cmpt [permLD, permST, permAT] fmtIsData (sl.coordsR r) = .ok e →
        counterBase ≤ e.va → e.va < LW → (e.va - counterBase) % 64 = 0 →
        s.counterAt sl.part ((e.va - counterBase) / 64) = some (tm, tc, cn) → tc < (s.teamAt tm).cores →
        (s.gridAt (s.teamAt tm).grid).st = .live → n ≠ 0 →
        ActsVia (.rdecImmediate g r n) s (s1.decCounter tm tc cn n.toNat sl.part)
        ∧ (sl.xr d = 0 → ActsVia (.rdecRegister g d r) s s1)
        ∧ (sl.xr d ≠ 0 → ActsVia (.rdecRegister g d r) s (s1.decCounter tm tc cn (sl.xr d).toNat sl.part)))

/-- R211, R227, R255: a decrement never wraps; the one that reaches zero pushes the waiting record onto the ring of its core,
or holds it while the ring is full; a decrement of a counter that is zero is counted as stray. -/
def Sys2Proof.Parts.CounterDecrements : Prop :=
  ∀ (s : State) (t c n amount part : Nat),
    let k := ((s.teamAt t).core c).counter n
    let u := s.decCounter t c n amount part
    let core' := (u.teamAt t).core c
    let others := ∀ j, j ≠ n → core'.counter j = ((s.teamAt t).core c).counter j
    (k.count = 0 → u = s.count 3 part 2 1)
    ∧ (amount < k.count.toNat → core'.counter n = { k with count := BitVec.ofNat 64 (k.count.toNat - amount) }
        ∧ core'.ring = ((s.teamAt t).core c).ring ∧ others ∧ OnlyTeam t s u)
    ∧ (k.count ≠ 0 → k.count.toNat ≤ amount → k.rv = false → core'.counter n = { k with count := 0 } ∧ others ∧ OnlyTeam t s u)
    ∧ (k.count ≠ 0 → k.count.toNat ≤ amount → k.rv = true → (s.teamAt t).isResident = true →
        (s.coreAt ((s.teamAt t).coreNo c)).oos = false →
        (((s.teamAt t).core c).ring.length < 64 → core'.ring = ((s.teamAt t).core c).ring ++ [k.rslot]
          ∧ core'.counter n = { k with count := 0, rv := false } ∧ others)
        ∧ (64 ≤ ((s.teamAt t).core c).ring.length → core'.ring = ((s.teamAt t).core c).ring ∧ n ∈ core'.held
          ∧ core'.counter n = { k with count := 0 } ∧ others))

/-- R205 … R211, R254 … R256: the effects of tasks, and the counters that they decrement. That the footprint of the revision
list's capability is the byte range of the list is the model's choice (log entry 36). -/
def Obligations.TasksAct : Prop := Sys2Proof.Parts.TaskEffects ∧ Sys2Proof.Parts.CounterDecrements

/-- R213 … R215: after `commit` a Basin operation whose checks pass arrives at its home, a push after its release; it acts
there, and a pop owes the entry, or is held with the wait timer running; a held operation acts when the descriptor allows. -/
def Sys2Proof.Parts.BasinOperations : Prop :=
  ∀ (s t2 : State) (g : Ctl) (d : XReg) (v : VReg) (m : MemOp) (l desc : Line), s.sl.guard g = true → s.sl.committed ≠ none →
    s.sl.arrived = none →
    let sl := s.sl
    let c := sl.cr m.c
    let k := sl.coords m
    let arrive (t : State) : State := t.draw.2.updSl fun q => { q with arrived := some t.draw.1 }
    let op (push vec : Bool) (val_ : Line) (reg df : Nat) : BasinOp :=
      { push := push, vec := vec, basin := c, k0 := k.k0, val := val_, reg := reg, iaddr := sl.here, dfield := df }
    let acts (i : Instr) (t : State) (o : BasinOp) (f : State → State) : Prop :=
      let t1 := arrive t
      t1.mayPerform s.cur sl.seq .atomic [basinLine c.f k.k0] = true → t1.basinBehind s.cur o t.draw.1 = false →
      (t1.basinTry (t1.who s.cur) o = .ok (some (t2, l, desc)) → ActsVia i s (f (t2.registerBasin o desc)))
      ∧ (t1.basinTry (t1.who s.cur) o = .ok none → Completes i s fun u => u = t1.updSl fun q => { q with
          stop := .hold (.basin o g), timer := some (sl.timer.getD (s.now + s.core.wtlim.toNat)) })
      ∧ (∀ x, t1.basinTry (t1.who s.cur) o = .error x → exec i s = .next (t1.faultNow x))
    let pops (r : RegRef) (cls reg : Nat) (vec : Bool) (t : State) : State := t.oweApplied
      { op := .pop c k.k0 vec, dest := some r, stale := false, iaddr := sl.here, dfield := dField cls 0 reg }
      (.ready (popValue vec l)) none
    s.basinCheck c k = .ok () →
    (s.stampOf.2.releaseOk s.cur sl.seq 6 s.stampOf.1 = true →
      acts (.bpushX g d m) s.stampOf.2 (op true false ((sl.xr d).setWidth 512) d.val (dField 1 0 d.val)) id
      ∧ acts (.bpushV g v m) s.stampOf.2 (op true false (sl.vr v) v.val (dField 2 0 v.val)) id)
    ∧ acts (.bpopX g d m) s (op false false 0 d.val (dField 1 0 d.val)) (pops (.x d.val) 1 d.val false)
    ∧ acts (.bpopV g v m) s (op false true 0 v.val (dField 2 0 v.val)) (pops (.v v.val) 2 v.val true)

/-- R215: the operation that a slot holds at its home, alone or as the next effect of its `commit`, is tried again by the home
while the commit window has not expired and no pre-emption is requested (R237): a push or a pop that the descriptor now
allows acts, and the slot goes on; otherwise nothing changes. -/
def Sys2Proof.Parts.HeldBasinOperations : Prop :=
  ∀ (s t2 : State) (g : Ctl) (c k n : Nat) (o : BasinOp) (l desc : Line) (d : Defer) (q : List Defer),
    let key := 4 * c + k
    let sl := s.slotAt key
    let t : State := { s with cur := key }
    let back (u : State) : State := { u with cur := s.cur }
    sl.arrived = some n →
    let overtaken := sl.preempt = true ∧ sl.committed = none ∨ s.expired key = true
    let free := ¬ overtaken ∧ t.mayPerform key sl.seq .atomic [basinLine o.basin.f o.k0] = true
      ∧ t.basinBehind key o n = false
    let reg : RegRef := if o.vec then .v o.reg else .x o.reg
    let acts (v : State) : Prop := Completes (.basinHeldOperation c k) s fun u =>
      u.cur = s.cur ∧ SlotKept (v.slotAt key) (u.slotAt key) {} ∧ FallsThrough (v.slotAt key) (u.slotAt key)
      ∧ (u.slotAt key).owed = (v.slotAt key).owed ∧ Elsewhere v { u with cur := key } ∧ Paced g s.now (u.slotAt key)
    (sl.stop = .hold (.basin o g) →
      (¬ free → Stays (.basinHeldOperation c k) s)
      ∧ (free → t.basinTry (t.who key) o = .ok none → Stays (.basinHeldOperation c k) s)
      ∧ (free → ∀ x, t.basinTry (t.who key) o = .error x → exec (.basinHeldOperation c k) s = .next (back (t.faultNow x)))
      ∧ (free → t.basinTry (t.who key) o = .ok (some (t2, l, desc)) → t2.cur = key →
          (o.push = true → acts t2)
          ∧ (o.push = false → acts ((t2.registerBasin o desc).oweApplied
              { op := .pop o.basin o.k0 o.vec, dest := some reg, stale := false, iaddr := o.iaddr, dfield := o.dfield }
              (.ready (popValue o.vec l)) none))))
    ∧ (sl.stop = .hold .commit → sl.deferred = d :: q → d.basin = some o →
      (overtaken → Stays (.basinHeldOperation c k) s)
      ∧ (¬ overtaken →
          (∀ u h b, t.applyDefer d .commit = .wait u h b → Stays (.basinHeldOperation c k) s)
          ∧ (∀ u, t.applyDefer d .commit = .done u → exec (.basinHeldOperation c k) s = .next (back (u.updSl fun x => { x with
              deferred := x.deferred.tail, applied := x.applied + 1, stop := .hold .commit, timer := none, arrived := none })))
          ∧ (∀ u x, t.applyDefer d .commit = .fault u x →
              exec (.basinHeldOperation c k) s = .next (back (u.raise { x with mode := 2, iaddr := d.iaddr, bpos := sl.applied })))))

/-- R212 … R215: one attempt at a Basin's home: a push into a full ring and a pop from an empty one are held; else the entry is
written or read before TAIL or HEAD counts it. -/
def Sys2Proof.Parts.BasinActions : Prop :=
  ∀ (s s1 s2 s3 : State) (w : Who) (o : BasinOp) (l e x : Line) (cap : Nat),
    basinCap o.basin.f o.k0 = some cap →
    let d := basinLine o.basin.f o.k0
    let occ := (bTail l + 2 ^ 64 - bHead l) % 2 ^ 64
    let slot (n : Nat) : Elem := basinLine o.basin.f (o.k0 + 8 + 8 * ((n % cap : Nat) : Int))
    let counts (k : Nat) (f : Line → Nat) : Prop :=
      s2.atomicLine w .atomic d (fun y => some (setLane 64 k (f y + 1) y)) = .ok (s3, x)
    s.atomicLine w .atomic d (fun _ => none) = .ok (s1, l) →
    (o.push = true → cap ≤ occ → s.basinTry w o = .ok none)
    ∧ (o.push = false → occ = 0 → s.basinTry w o = .ok none)
    ∧ (o.push = true → occ < cap → s1.atomicLine w .atomic (slot (bTail l)) (fun _ => some o.val) = .ok (s2, e) → counts 1 bTail →
        s.basinTry w o = .ok (some (s3, 0, l)))
    ∧ (o.push = false → 0 < occ → s1.atomicLine w .atomic (slot (bHead l)) (fun _ => none) = .ok (s2, e) → counts 0 bHead →
        s.basinTry w o = .ok (some (s3, e, l)))

/-- R212 … R215: pushes and pops at issue, held at the home, and applied. -/
def Obligations.Basins : Prop :=
  Sys2Proof.Parts.BasinOperations ∧ Sys2Proof.Parts.HeldBasinOperations ∧ Sys2Proof.Parts.BasinActions

/-- R13, R24, R201 … R204, R222, R234, R256, R305: `commit` marks the activation committed, frees its pool slot and applies the
buffered effects one at a time in order, a failed one faulting with its position; a second `commit` has no effect. `retire`
commits first; it and `tret.end` deliver the fault that a cancelled owing carries (the model's reading of R24 rule 6, log
entry 55), and end the activation when nothing of it is under way and its join decrement, a release, may be made; the flags
of the slot stand. -/
def Obligations.CommitAndRetire : Prop :=
  ∀ (s t : State) (g : Ctl) (d : Defer) (q : List Defer) (f : FaultInfo) (o : Owed) (e : FaultInfo),
    let sl := s.sl
    let marked := (s.updTC sl.team sl.tcore fun tc => { tc with pool := SMap.erase tc.pool sl.pool }).updSl fun x =>
      { x with committed := some s.now, applied := 0, preempt := false }
    let m := if sl.committed = none then marked else s
    let next (u : State) : State := u.updSl fun x => { x with
      deferred := x.deferred.tail, applied := x.applied + 1, stop := .hold .commit, timer := none, arrived := none }
    let stopped := ∃ h, sl.stop = .hold h
    let busy := sl.handler = true ∧ sl.committed ≠ none
    let stamp := match sl.stop with
      | .hold (.finish st) => st
      | _ => s.fresh
    let still (u : State) : Prop := u.quiet s.cur = true
    let joined (u : State) : Prop := sl.entry.record.jv = true →
      ∀ c ∈ u.coh, ∀ x ∈ c.2.inval, dieOf x.1 = dieOf (s.cur / 4) → stamp ≤ x.2.2.2
    let clean := ∀ q ∈ sl.owed, ∀ x, q.res ≠ some (.fault x)
    let first := ∃ i, sl.owed[i]? = some o ∧ o.res = some (.fault e)
      ∧ ∀ (j : Nat) (q : Owed), j < i → sl.owed[j]? = some q → ∀ x, q.res ≠ some (.fault x)
    let delivers (i : Instr) (u : State) : Prop := exec i s = .next ((u.updSl fun x => { x.landAll with
        stop := .run, readySince := s.core.stopped.getD s.now }).deliver s.cur
      { e with mode := if e.mode = 3 then 3 else 1, iaddr := o.iaddr, aux := BitVec.ofNat 64 o.dfield } (some o))
    let waits (i : Instr) : Prop := Completes i s fun u => u.sl.stop = .hold (.finish stamp) ∧ u.sl.pc = sl.pc ∧ MemoryKept s u
    let ends (i : Instr) (u0 : State) : Prop := Completes i s fun u =>
      u.slotAt s.cur = { Slot.reset with seq := u0.sl.seq, fflags := sl.fflags } ∧ (sl.rev = none → MemoryKept s u) ∧ u.now = s.now
      ∧ (∀ k, k ≠ s.cur → u.slotAt k = u0.slotAt k)
      ∧ (u0.core.engine.chain = some (s.cur % 4) → (u.coreAt (s.cur / 4)).engine.chain = none)
      ∧ (sl.rev = none → let r := sl.entry.record
          let a := if u0.sl.committed = none then
              u0.updTC sl.team sl.tcore fun tc => { tc with pool := SMap.erase tc.pool sl.pool } else u0
          u.teams = (if r.jv = true then a.decCounter sl.team r.jcore r.jidx 1 sl.part else a).teams)
    (¬ busy ∨ stopped →
      (sl.deferred = [] → (sl.committed = none → ActsVia (.commit g) s marked) ∧ (sl.committed ≠ none → ActsNot (.commit g) s))
      ∧ (sl.deferred = d :: q → m.applyDefer d .commit = .done t →
          (q = [] → ActsVia (.commit g) s (next t))
          ∧ (q ≠ [] → exec (.commit g) s = .next (next t) ∧ exec (.retire g) s = .next (next t)))
      ∧ (sl.deferred = d :: q → m.applyDefer d .commit = .fault t f →
          let u := t.raise { f with mode := 2, iaddr := d.iaddr, bpos := t.sl.applied }
          exec (.commit g) s = .next u ∧ exec (.retire g) s = .next u)
      ∧ (sl.deferred = d :: q → ∀ h timed, m.applyDefer d .commit = .wait t h timed →
          let u := t.updSl fun x => { x with
            stop := .hold (match timed, h with
              | false, .release _ st => .applying st
              | _, _ => h)
            timer := if timed = true then some (x.timer.getD (t.now + t.core.wtlim.toNat)) else x.timer }
          exec (.commit g) s = .next u ∧ exec (.retire g) s = .next u)
      ∧ (sl.deferred = [] →
          (sl.owes = true → Completes (.retire g) s fun u => u.sl.stop = .park ∧ u.sl.pc = sl.pc ∧ u.sl.committed ≠ none)
          ∧ (sl.owes = false → still m → first → delivers (.retire g) m)
          ∧ (sl.owes = false → ¬ still m ∨ clean ∧ ¬ joined m → waits (.retire g))
          ∧ (sl.owes = false → still m → clean → joined m → ends (.retire g) m)))
    ∧ (busy → ¬ stopped → ActsNot (.commit g) s
        ∧ (sl.owes = true → Completes (.retire g) s fun u => u.sl.stop = .park ∧ u.sl.pc = sl.pc ∧ u.sl.deferred = [])
        ∧ (sl.owes = false → still s → first → delivers (.retire g) (s.updSl fun x => { x with deferred := [] }))
        ∧ (sl.owes = false → ¬ still s ∨ clean ∧ ¬ joined s → waits (.retire g))
        ∧ (sl.owes = false → still s → clean → joined s → ends (.retire g) s))
    ∧ (sl.handler = false → FaultsWith (.tretEnd g) s (FaultInfo.of 0x02))
    ∧ (sl.handler = true → (sl.owes = true → Completes (.tretEnd g) s fun u => u.sl.stop = .park ∧ u.sl.pc = sl.pc)
        ∧ (sl.owes = false → still s → first → delivers (.tretEnd g) (s.updSl fun x => { x with deferred := [] }))
        ∧ (sl.owes = false → ¬ still s ∨ clean ∧ ¬ joined s → waits (.tretEnd g))
        ∧ (sl.owes = false → still s → clean → joined s → ends (.tretEnd g) s))

/-! ## Compartment calls and code -/

/-- R216, R217: `ccall` with operands that pass its checks: what the callee receives and what the frame on the trusted stack
saves; with values owed it parks first, and the call that goes on after the park takes the capabilities read at issue; the
checks and their causes in their order. A compartment that was destroyed while the call parked is entered under the number of
a destroyed one, which no capability has (R342; the model's choice, log entry 26). -/
def Sys2Proof.Parts.CcallEnters : Prop :=
  ∀ (s : State) (g : Ctl) (a b : CReg) (n : Nat) (o : CodeObj), s.sl.guard g = true →
    let sl := s.sl
    let c := sl.cr a
    let entry := c.f.fmt = 0x21 ∧ c.f.has permCL = true ∧ c.f.has permEX = true
    let chained := s.core.engine.chain = some (s.cur % 4)
    let faults (k : Nat) : Prop := FaultsWith (.ccall g a b) s (FaultInfo.of k)
    let frame : CallFrame := { ret := sl.codeAddr (sl.pc + 12), cmpt := sl.cmpt, frm := sl.frm, fflags := sl.fflags, lc := sl.lc
                               ls := sl.ls, le := sl.le, xs := (List.range 24).map fun i => SMap.look 0 sl.x (8 + i)
                               cs := (List.range 14).map fun i => SMap.look CapReg.null sl.c (2 + i) }
    let rest (q : Slot) : Slot := { bareSlot q with stack := [], frm := 0, ls := 0, le := 0, cmpt := 0, obj := 0 }
    let at_ (n : Nat) : Nat := let k := SMap.look Cmpt.reset (s.worldAt sl.world).cmpts n
      if k.used = true ∧ k.valid = false then n + 65536 else n
    let enters (p q : CapReg) : Prop := Completes (.ccall g a b) s fun u =>
      let y := u.sl
      y.obj = n ∧ y.pc = ((p.f.base - o.base : Nat) : Int) ∧ y.cmpt = at_ p.f.cmpt ∧ y.stack = frame :: sl.stack
      ∧ (∀ r : XReg, y.xr r = if r.val < 8 then sl.xr r else 0) ∧ (∀ r : VReg, y.vr r = if r.val < 8 then sl.vr r else 0)
      ∧ y.cr 1 = q ∧ (∀ r : CReg, 2 ≤ r.val → y.cr r = CapReg.null) ∧ (∀ r : PReg, r ≠ 0 → y.pr r = 0)
      ∧ y.frm = 0 ∧ y.fflags = 0 ∧ y.lc = 0 ∧ y.ls = 0 ∧ y.le = 0 ∧ y.callee = none ∧ rest y = rest sl ∧ y.out = sl.out
      ∧ Elsewhere s u ∧ PacedBy (.ccall g a b) s u
    (∀ p q, sl.callee = some (p, q) → s.objHolding sl.world p.f.base = some (n, o) → enters p q)
    ∧ (sl.callee = none →
    (c.tag = false → faults 0x10)
    ∧ (c.tag = true → c.f.seal_ ≠ 1 → faults 0x14)
    ∧ (c.tag = true → c.f.seal_ = 1 → ¬ entry → faults 0x12)
    ∧ (c.tag = true → c.f.seal_ = 1 → entry → s.objHolding sl.world c.f.base = some (n, o) →
        (o.quarantined = true → faults 0x3B)
        ∧ (o.quarantined = false → chained → faults 0x34)
        ∧ (o.quarantined = false → ¬ chained → 8 ≤ sl.stack.length → faults 0x17)
        ∧ (o.quarantined = false → ¬ chained → sl.stack.length < 8 →
            (sl.owes = true → Completes (.ccall g a b) s fun u => u.sl.stop = .park ∧ u.sl.callee = some (c, sl.cr b)
              ∧ u.sl.pc = sl.pc ∧ SlotKept sl u.sl {})
            ∧ (sl.owes = false → enters c (sl.cr b)))))

/-- R218: `cret` pops a frame: the saved registers, compartment and code object come back, x1–x7, v0–v7 and c1 carry the callee's
values, the rest is zeroed; with an empty stack it faults. -/
def Sys2Proof.Parts.CretReturns : Prop :=
  ∀ (s : State) (g : Ctl) (f : CallFrame) (q : List CallFrame),
    let sl := s.sl
    let rest (y : Slot) : Slot := { bareSlot y with stack := [], frm := 0, ls := 0, le := 0, cmpt := 0, obj := 0 }
    (sl.stack = [] → FaultsWith (.cret g) s (FaultInfo.of 0x17))
    ∧ (sl.stack = f :: q →
        (sl.owes = true → Completes (.cret g) s fun u => u.sl.stop = .park ∧ u.sl.stack = sl.stack ∧ u.sl.pc = sl.pc)
        ∧ (sl.owes = false → Completes (.cret g) s fun u =>
          let y := u.sl
          y.obj = f.ret.toNat / 2 ^ 32 ∧ y.pc = ((f.ret.toNat % 2 ^ 32 : Nat) : Int) ∧ y.cmpt = f.cmpt ∧ y.stack = q
          ∧ (∀ r : XReg, y.xr r = if r.val < 8 then sl.xr r else f.xs.getD (r.val - 8) 0)
          ∧ (∀ r : VReg, y.vr r = if r.val < 8 then sl.vr r else 0)
          ∧ (∀ r : CReg, y.cr r = if r.val < 2 then sl.cr r else f.cs.getD (r.val - 2) CapReg.null)
          ∧ (∀ r : PReg, r ≠ 0 → y.pr r = 0) ∧ y.frm = f.frm ∧ y.fflags = f.fflags ∧ y.lc = f.lc ∧ y.ls = f.ls ∧ y.le = f.le
          ∧ rest y = rest sl ∧ y.out = sl.out ∧ Elsewhere s u ∧ PacedBy (.cret g) s u))

/-- R216 … R219, R344: calls into compartments and returns from them. -/
def Obligations.CompartmentCalls : Prop := Sys2Proof.Parts.CcallEnters ∧ Sys2Proof.Parts.CretReturns

/-! ## Special registers and counters -/

/-- R12, R13, R15, R126, R223 … R225, R243: what `sysrd` reads and `syswr` writes, of every special register; a refused value
raises cause 0x01, and a supervisor register raises cause 0x02 outside a privileged compartment. PKG is this package's
index in the first stripe set that lists it (the model's choice of set, log entry 76), 0 when none does. -/
def Sys2Proof.Parts.SpecialRegisters : Prop :=
  ∀ (s : State) (g : Ctl) (d a : XReg) (i : Imm), s.sl.guard g = true →
    let sl := s.sl
    let privileged := sl.cmpt = 0 ∨ (SMap.look Cmpt.reset (s.worldAt sl.world).cmpts sl.cmpt).priv = true
    let supervisor : List SReg := [.tcause, .tiaddr, .tfva, .taux, .tstate, .cwrem, .fltcnt, .wtlim, .clflags]
    let striped (n : Nat) : Option Nat := (List.range (min 8 (s.stripeSet sl.part n).1)).find? fun k =>
      (s.stripeSet sl.part n).2 k == s.pkg
    let member := ((List.range 16).findSome? striped).getD 0
    let left := match sl.committed with
      | none => 65536
      | some c => 65536 - (s.now - c)
    let reads : List (SReg × Word) := [(.frm, sl.frm), (.fflags, sl.fflags), (.lc, sl.lc), (.ls, sl.ls), (.le, sl.le),
      (.actid, sl.actid), (.coreid, BitVec.ofNat 64 (member % 8 * 512 + s.cur / 4 % 512)), (.teamid, sl.teamid), (.stage, sl.stage),
      (.gx, sl.gx), (.gy, sl.gy), (.gz, sl.gz), (.defocc, BitVec.ofNat 64 sl.deferred.length),
      (.cmptno, BitVec.ofNat 64 (sl.cmpt % 65536)), (.calldepth, BitVec.ofNat 64 sl.stack.length)]
    let supervised : List (SReg × Word) := [(.tcause, sl.tcause), (.tiaddr, sl.tiaddr), (.tfva, sl.tfva), (.taux, sl.taux),
      (.tstate, BitVec.ofNat 64 (sl.handler.toNat + 2 * sl.committed.isSome.toNat + 4 * sl.preempt.toNat)),
      (.cwrem, BitVec.ofNat 64 left), (.fltcnt, sl.fltcnt), (.wtlim, s.core.wtlim),
      (.clflags, (List.range 64).foldl (fun w j => w ||| (s.slotAt (64 * (s.cur / 64) + j)).fflags) 0)]
    let writes (v : Word) (of_ : WReg → Instr) : Prop :=
      let sets (r : WReg) (ok : Prop) (f : Slot → Slot) : Prop :=
        (ok → ActsVia (of_ r) s (s.updSl f)) ∧ (¬ ok → FaultsWith (of_ r) s (FaultInfo.of 0x01))
      let n := v.toNat
      sets .frm (n % 8 ≤ 4) (fun q => { q with frm := BitVec.ofNat 64 (n % 8) })
      ∧ sets .fflags True (fun q => { q with fflags := BitVec.ofNat 64 (n % 32) })
      ∧ sets .lc True (fun q => { q with lc := v }) ∧ sets .ls (n % 4 = 0) (fun q => { q with ls := v })
      ∧ sets .le (n % 4 = 0) (fun q => { q with le := v })
      ∧ (¬ privileged → FaultsWith (of_ .wtlim) s (FaultInfo.of 0x02))
      ∧ (privileged → n = 0 ∨ 2 ^ 32 ≤ n → FaultsWith (of_ .wtlim) s (FaultInfo.of 0x01))
      ∧ (privileged → n ≠ 0 → n < 2 ^ 32 → ActsVia (of_ .wtlim) s (s.updMyCore fun c => { c with wtlim := v }))
    (∀ x ∈ reads, WritesX (.sysrd g d x.1) s d x.2)
    ∧ (privileged → ∀ x ∈ supervised, WritesX (.sysrd g d x.1) s d x.2)
    ∧ (¬ privileged → ∀ r ∈ supervisor, FaultsWith (.sysrd g d r) s (FaultInfo.of 0x02))
    ∧ writes (sl.xr a) (fun r => .syswrRegister g r a) ∧ writes (BitVec.ofNat 64 i.toNat) (fun r => .syswrImmediate g r i)

/-- R226, R228: `ctr` owes a counter, or eight of one unit, as it stands at issue for the issuing core and when the request reaches
the unit for every other; a name that R226 does not give raises cause 0x3E. -/
def Sys2Proof.Parts.CounterReads : Prop :=
  ∀ (s : State) (g : Ctl) (d : XReg) (v : VReg) (a : XReg), s.sl.guard g = true →
    let n := (s.sl.xr a).toNat
    let kind := n / 2 ^ 20 % 2 ^ 4
    let unit := n / 2 ^ 10 % 2 ^ 10
    let c := n % 2 ^ 10
    let units := [512, 32, 128, 32].getD kind 0
    let last := [6, 2, 3, 3].getD kind 0
    let named := n < 2 ^ 24 ∧ kind ≤ 3 ∧ unit < units ∧ c ≤ last
    let owner := s.counterOwner kind unit
    let one (j : Nat) : Word :=
      if owner = s.sl.world then s.counter kind unit j
      else if (s.worldAt owner).policy = none then BitVec.ofNat 64 (2 ^ 64 - 1)
      else SMap.look 0 (s.worldAt owner).copies (perfKey kind unit j)
    let eight : Line := lanes 64 8 fun j => if c + j ≤ last then (one (c + j)).toNat else 0
    let own := kind = 0 ∧ unit = s.cur / 4
    (named → own → Owes (.ctrX g d a) s (some (.x d.val)) fullMask (.ready (capOfWord (one c))) false
        ∧ Owes (.ctrV g v a) s (some (.v v.val)) fullMask (.ready { bits := eight, tag := false }) false)
    ∧ (named → ¬ own → Owes (.ctrX g d a) s (some (.x d.val)) fullMask (.ctr kind unit c false) false
        ∧ Owes (.ctrV g v a) s (some (.v v.val)) fullMask (.ctr kind unit c true) false)
    ∧ (¬ named → FaultsWith (.ctrX g d a) s (FaultInfo.of 0x3E) ∧ FaultsWith (.ctrV g v a) s (FaultInfo.of 0x3E))

/-- R17, R224 … R228, R243: special registers and performance counters. -/
def Obligations.RegistersAndCounters : Prop := Sys2Proof.Parts.SpecialRegisters ∧ Sys2Proof.Parts.CounterReads

/-! ## Exceptions -/

/-- R26, R127, R221, R229 … R233, R243: a fault of delivery H with nothing owed takes the exception in one step: the record and the
registers stand in the slot's trap frame, x1 and c1 … c3 are set, `lc` is 0, control is at the handler of the compartment, in
handler state, and nothing else changes. `trap` raises cause 0x3C with its code. -/
def Obligations.TakingAnException : Prop :=
  ∀ (s : State) (g : Ctl) (code : Imm) (f : FaultInfo),
    let sl := s.sl
    let core := s.cur / 4
    let hnd := (SMap.look Cmpt.reset (s.worldAt sl.world).cmpts sl.cmpt).hnd.toNat
    let r : FaultInfo := { f with iaddr := sl.here, time := s.counter 0 core 0 }
    let u := s.faultNow f
    let b := u.sl
    let line (j : Nat) : CapReg := u.lineAt (frameKey s.cur j)
    let part (n lo w : Nat) : Nat := n / 2 ^ lo % 2 ^ w
    let last := (line 53).bits.toNat
    (s.sl.guard g = true → FaultsWith (.trap g code) s { FaultInfo.of 0x3C with aux := code.setWidth 64 })
    ∧ (sl.owes = false → f.cause ∉ [0x21, 0x22, 0x39, 0x3F] → f.mode ≠ 3 → sl.handler = false → hnd ≠ 0 →
        b.pc = ((hnd % 2 ^ 32 : Nat) : Int) ∧ b.obj = (if hnd / 2 ^ 32 = 0 then sl.obj else hnd / 2 ^ 32)
        ∧ b.handler = true ∧ b.lc = 0 ∧ b.stop = .run
        ∧ b.trap = some { obj := sl.obj, cmpt := sl.cmpt, mode := f.mode, bpos := f.bpos, aux := f.aux.toNat, redo := none }
        ∧ b.tcause = r.word ∧ b.tiaddr = sl.here ∧ b.tfva = BitVec.ofNat 64 f.fva ∧ b.taux = f.aux ∧ b.fltcnt = sl.fltcnt + 1
        ∧ b.xr 1 = r.word ∧ (∀ q : XReg, q ≠ 1 → b.xr q = sl.xr q) ∧ (∀ q : VReg, b.vr q = sl.vr q) ∧ (∀ q : PReg, b.pr q = sl.pr q)
        ∧ b.cr 1 = windowView (frameOff (s.cur % 4)) 0x08 432 [permLD, permST] sl.cmpt
        ∧ b.cr 2 = windowView (frameOff (s.cur % 4)) 0x20 54 [permLC, permSC] sl.cmpt
        ∧ b.cr 3 = (if f.resume then windowView (resumeOff (s.cur % 4)) 0x20 8 [permLC, permSC] sl.cmpt else CapReg.null)
        ∧ (∀ q : CReg, 4 ≤ q.val → b.cr q = sl.cr q)
        ∧ b.ls = sl.ls ∧ b.le = sl.le ∧ b.frm = sl.frm ∧ b.fflags = sl.fflags ∧ b.cmpt = sl.cmpt ∧ b.deferred = sl.deferred
        ∧ b.committed = sl.committed ∧ b.stack = sl.stack ∧ b.out = sl.out
        ∧ line 0 = { bits := r.line, tag := false } ∧ line 1 = { bits := r.coordLine, tag := false }
        ∧ (∀ q : XReg, lane 64 (q.val % 8) (line (2 + q.val / 8)).bits = (sl.xr q).toNat)
        ∧ (∀ q : VReg, line (6 + q.val) = { bits := sl.vr q, tag := false })
        ∧ (∀ q : CReg, q ≠ 0 → line (37 + q.val) = sl.cr q)
        ∧ part last 0 64 = sl.here.toNat ∧ part last 64 64 = sl.lc.toNat ∧ part last 128 64 = sl.ls.toNat
        ∧ part last 192 64 = sl.le.toNat ∧ part last 256 64 = sl.frm.toNat ∧ part last 320 64 = sl.fflags.toNat
        ∧ (∀ q : PReg, q ≠ 0 → part last (384 + 16 * (q.val - 1)) 16 = (sl.pr q).toNat)
        ∧ (∀ k, (∀ j, j < 54 → lineKey k ≠ lineKey (frameKey s.cur j)) → u.byte k = s.byte k ∧ u.tagAt k = s.tagAt k)
        ∧ (∀ k, k ≠ s.cur → u.slotAt k = s.slotAt k) ∧ (∀ k, k ≠ core → u.coreAt k = s.coreAt k))

/-- R26, R229, R233, R234: a fault with something owed parks the slot first; a terminal cause, a fault in handler state, and a
fault of a compartment without a handler end the activation: the slot waits for its terminal end with MODE 3. -/
def Sys2Proof.Parts.FaultsParkOrEnd : Prop :=
  ∀ (s : State) (f : FaultInfo),
    let sl := s.sl
    let hnd := (SMap.look Cmpt.reset (s.worldAt sl.world).cmpts sl.cmpt).hnd
    let r : FaultInfo := { f with iaddr := sl.here }
    let u := s.faultNow f
    (sl.owes = true → u.sl.stop = .trap r ∧ u.sl.owed = sl.owed ∧ u.sl.pc = sl.pc ∧ SlotKept sl u.sl {} ∧ MemoryKept s u)
    ∧ (sl.owes = false → f.cause ∈ [0x21, 0x22, 0x39, 0x3F] ∨ f.mode = 3 ∨ sl.handler = true ∨ hnd = 0 →
        u.sl.stop = .terminal { r with mode := 3 } ∧ u.sl.pc = sl.pc ∧ SlotKept sl u.sl {} ∧ MemoryKept s u)

/-- R26, R232, R234, R237: the events that deliver: when every live owing has returned, the fault that waits is delivered
with what is owed landed, or in its place the earliest that an owed value carries (one that has lost its register counts:
the model's reading of R24 rule 6, log entry 55); neither while the commit window has expired or a pre-emption is requested
of the uncommitted activation. A terminal fault of a slot with
nothing under way, and no store of its die before it still to be acknowledged where a join waits for it (R305), is logged
and ends the activation. -/
def Sys2Proof.Parts.FaultDelivery : Prop :=
  ∀ (s : State) (c k : Nat) (f : FaultInfo) (o : Owed) (e : FaultInfo),
    let key := 4 * c + k
    let sl := s.slotAt key
    let now := (s.coreAt (key / 4)).stopped.getD s.now
    let late := (∃ n, sl.committed = some n ∧ n + 65536 ≤ now) ∨ sl.preempt = true ∧ sl.committed = none
    let landed := s.setSlot key { sl.landAll with stop := .run, readySince := now }
    let carried := landed.deliver key
      { e with mode := if e.mode = 3 then 3 else 1, iaddr := o.iaddr, aux := BitVec.ofNat 64 o.dfield } (some o)
    let back := ∀ q ∈ sl.owed, q.live = true → q.res ≠ none
    let first := ∃ i, sl.owed[i]? = some o ∧ o.res = some (.fault e)
      ∧ ∀ (j : Nat) (q : Owed), j < i → sl.owed[j]? = some q → ∀ x, q.res ≠ some (.fault x)
    let clean := ∀ q ∈ sl.owed, ∀ x, q.res ≠ some (.fault x)
    let time := s.counter 0 (key / 4) 0
    let waits := s.quiet key = false ∨ sl.entry.record.jv = true ∧ ∃ l ∈ s.coh, ∃ x ∈ l.2.inval,
      dieOf x.1 = dieOf (key / 4) ∧ x.2.2.2 < s.fresh
    (sl.stop = .trap f → ¬ late → back → clean → exec (.trapEntry c k) s = .next (landed.deliver key f none))
    ∧ (sl.stop = .trap f → ¬ late → back → first → exec (.trapEntry c k) s = .next carried)
    ∧ (sl.stop = .park → ¬ late → back → first → exec (.parkEnd c k) s = .next carried)
    ∧ (late ∨ ¬ back → exec (.trapEntry c k) s = .next s ∧ exec (.parkEnd c k) s = .next s)
    ∧ ((∀ x, sl.stop ≠ .trap x) → exec (.trapEntry c k) s = .next s)
    ∧ (sl.stop ≠ .park → exec (.parkEnd c k) s = .next s)
    ∧ (sl.stop = .terminal f → ¬ waits → Completes (.terminalFault c k) s fun u =>
        u = (s.report sl.world { f with mode := 3, time := time }).endActivation key
        ∧ u.slotAt key = { Slot.reset with seq := sl.seq, fflags := sl.fflags })
    ∧ (sl.stop = .terminal f → waits → exec (.terminalFault c k) s = .next s)
    ∧ ((∀ x, sl.stop ≠ .terminal x) → exec (.terminalFault c k) s = .next s)

/-- R26, R230 … R234, R237: where a fault goes. -/
def Obligations.FaultsDelivered : Prop := Sys2Proof.Parts.FaultsParkOrEnd ∧ Sys2Proof.Parts.FaultDelivery

/-- R222, R235, R236: `tret.resume` and `tret.skip` from a frame whose values pass the checks restore the registers from it and
continue in the interrupted object and compartment, at the resume point or, skipping a fault at issue, past it with the
end-of-body test; skipping a fault at `commit` drops the effect. A frame line with an error gives no tag (R47). A Barge
instruction is performed again, a copy from its resume record; a vector load reads all its elements again, and a capability
`cas` makes its checks again. A bad frame value ends the activation; outside a handler they raise cause 0x02. That a frame
with MODE 3, or with MODE 1 and nothing to redo, goes on at its resume point is the model's choice (log entry 47), as is
which Barge instructions go on from a record and which are repeated whole (log entry 31). -/
def Obligations.TrapReturns : Prop :=
  ∀ (s : State) (g : Ctl) (t : TrapState),
    let sl := s.sl
    let line (j : Nat) : CapReg :=
      let l := s.lineAt (frameKey s.cur j)
      { l with tag := l.tag && (s.lineErrors (lineKey (frameKey s.cur j))).isEmpty }
    let part (n lo w : Nat) : Nat := n / 2 ^ lo % 2 ^ w
    let last := (line 53).bits.toNat
    let mode := part (line 0).bits.toNat 14 2
    let ok := part last 256 3 ≤ 4 ∧ part last 128 2 = 0 ∧ part last 192 2 = 0 ∧ part last 0 2 = 0
      ∧ (part last 32 32 = 0 ∨ part last 32 32 = t.obj)
    let restored (b : Slot) : Prop :=
      (∀ q : XReg, q ≠ 0 → b.xr q = BitVec.ofNat 64 (lane 64 (q.val % 8) (line (2 + q.val / 8)).bits))
      ∧ (∀ q : VReg, b.vr q = (line (6 + q.val)).bits) ∧ (∀ q : CReg, q ≠ 0 → b.cr q = line (37 + q.val))
      ∧ (∀ q : PReg, q ≠ 0 → b.pr q = BitVec.ofNat 16 (part last (384 + 16 * (q.val - 1)) 16))
      ∧ b.ls = BitVec.ofNat 64 (part last 128 64) ∧ b.le = BitVec.ofNat 64 (part last 192 64)
      ∧ b.frm = BitVec.ofNat 64 (part last 256 3) ∧ b.fflags = BitVec.ofNat 64 (part last 320 5)
      ∧ b.obj = t.obj ∧ b.cmpt = t.cmpt ∧ b.handler = false ∧ b.trap = none ∧ b.committed = sl.committed ∧ b.out = sl.out
    let resumes (i : Instr) : Prop := Completes i s fun u => restored u.sl ∧ u.sl.pc = ((part last 0 32 : Nat) : Int)
      ∧ u.sl.lc = BitVec.ofNat 64 (part last 64 64) ∧ u.sl.deferred = sl.deferred ∧ MemoryKept s u ∧ PacedBy i s u
    let again (f : Flight) : Flight := match f with
      | .vload n all _ _ _ _ => .vload n all all [] none true
      | .ccas a b z _ => .ccas a b z true
      | f => f
    let refused : Prop := FaultsWith (.tretResume g) s (FaultInfo.of 0x02) ∧ FaultsWith (.tretSkip g) s (FaultInfo.of 0x02)
    (sl.handler = false → refused)
    ∧ (sl.handler = true → sl.trap = some t → sl.acked sl.seq 6 = true →
        (ok → mode ≠ 1 → resumes (.tretResume g)) ∧ (ok → mode = 1 → t.redo = none → resumes (.tretResume g))
        ∧ (ok → mode = 1 → resumes (.tretSkip g))
        ∧ (ok → mode = 0 → Completes (.tretSkip g) s fun u => restored u.sl ∧ u.sl.deferred = sl.deferred ∧ MemoryKept s u
            ∧ PacedBy (.tretSkip g) s u ∧ ∃ a : Slot, a.pc = ((part last 0 32 : Nat) : Int) ∧ a.lc = BitVec.ofNat 64 (part last 64 64) ∧ a.ls = u.sl.ls
              ∧ a.le = u.sl.le ∧ a.obj = t.obj ∧ FallsThrough a u.sl)
        ∧ (ok → mode = 2 → Completes (.tretSkip g) s fun u => restored u.sl ∧ u.sl.pc = ((part last 0 32 : Nat) : Int)
            ∧ u.sl.deferred = sl.deferred.tail ∧ u.sl.applied = sl.applied + 1 ∧ MemoryKept s u
            ∧ PacedBy (.tretSkip g) s u)
        ∧ (ok → mode = 1 → ∀ o, t.redo = some o → (∀ n w, o.flight ≠ .barge n w) → Completes (.tretResume g) s fun u =>
            restored u.sl ∧ u.sl.pc = ((part last 0 32 : Nat) : Int) ∧ u.sl.stop = .park
            ∧ ∃ q l, u.sl.owed = l ++ [q] ∧ q.dest = o.dest ∧ q.live = true ∧ q.flight = again o.flight ∧ q.res = none ∧ q.mask = o.mask)
        ∧ (ok → mode = 1 → ∀ o n w, t.redo = some o → o.flight = .barge n w →
            (s.bargeFull (s.cur / 4) = true → Safety.Waits (.tretResume g) s .barge)
            ∧ (s.bargeFull (s.cur / 4) = false → sl.committed ≠ none → (∀ x y z q, w ≠ .stage x y z q) →
                Completes (.tretResume g) s fun u => restored u.sl ∧ u.sl.stop = .park
                  ∧ ∃ q, u.core.barge = s.core.barge ++ [q] ∧ q.slot = s.cur % 4 ∧ q.iaddr = o.iaddr ∧ q.pos = q.first ∧ q.got = []
                    ∧ q.work = match o.res with
                      | some (.fault f) => if f.resume then
                          .resume (windowView (resumeOff (s.cur % 4)) 0x20 8 [permLC] t.cmpt) true else w
                      | _ => w))
        ∧ (¬ ok → Completes (.tretResume g) s (fun u => u.sl.stop = .terminal { FaultInfo.of 0x01 with mode := 3, iaddr := sl.here })
            ∧ Completes (.tretSkip g) s fun u => u.sl.stop = .terminal { FaultInfo.of 0x01 with mode := 3, iaddr := sl.here }))

/-- R231, R232, R235, R236: an exception taken and returned from with `tret.resume` at once comes back to the instruction that
faulted, with every register as it was. -/
def Obligations.TrapRoundTrip : Prop :=
  ∀ (s : State) (g : Ctl) (f : FaultInfo),
    let sl := s.sl
    sl.owed = [] → sl.out = [] → f.cause ∉ [0x21, 0x22, 0x39, 0x3F] → f.mode = 0 → sl.handler = false →
    s.handlerOf s.cur ≠ 0 → sl.frm.toNat ≤ 4 → sl.fflags.toNat < 32 → sl.ls.toNat % 4 = 0 → sl.le.toNat % 4 = 0 →
    sl.obj < 2 ^ 32 → 0 ≤ sl.pc → sl.pc < 2 ^ 32 → sl.pc % 4 = 0 →
    Completes (.tretResume g) (s.faultNow f) fun u =>
      let b := u.sl
      (∀ q, b.xr q = sl.xr q) ∧ (∀ q, b.vr q = sl.vr q) ∧ (∀ q, b.cr q = sl.cr q) ∧ (∀ q, b.pr q = sl.pr q)
      ∧ b.pc = sl.pc ∧ b.obj = sl.obj ∧ b.cmpt = sl.cmpt ∧ b.lc = sl.lc ∧ b.ls = sl.ls ∧ b.le = sl.le ∧ b.frm = sl.frm
      ∧ b.fflags = sl.fflags ∧ b.deferred = sl.deferred ∧ b.committed = sl.committed ∧ b.stack = sl.stack ∧ b.handler = false

/-! ## Code objects and fetch -/

/-- R220, R354 … R357: `publish` checks its operand and owes a result; it waits for the activation's earlier accesses; the
content checks, each with the condition that fails it, answer an untagged reason code in their order; an image that passes
them becomes the world's next object once the writes that reached its frames have been committed: its frames are code
frames, its pages are hashed and verified, and its execute-only capability is the result. The header is the last line with
MAGIC of the last 1,025 (the model's reading, log entry 32). -/
def Sys2Proof.Parts.PublishResults : Prop :=
  (∀ (s : State) (g : Ctl) (d a : CReg) (b : XReg), s.sl.guard g = true →
    let c := (s.sl.cr a).f
    let n := (s.sl.xr b).toNat
    let faults (k : Nat) : Prop := FaultsWith (.publish g d a b) s (FaultInfo.of k)
    let tagged := (s.sl.cr a).tag = true
    let allowed := c.has permLD = true ∧ c.fmt = 0 ∧ c.rank = 1 ∧ c.sd0 = 1 ∧ (c.life = 2 → c.cmpt = s.sl.cmpt)
    let short := n = 0 ∨ min c.ext0 (2 ^ 32 - 1) < n
    (¬ tagged → faults 0x10)
    ∧ (tagged → ¬ allowed → faults 0x12)
    ∧ (tagged → allowed → c.seal_ ≠ 0 → faults 0x14)
    ∧ (tagged → allowed → c.seal_ = 0 → short → faults 0x11)
    ∧ (tagged → allowed → c.seal_ = 0 → ¬ short → Owes (.publish g d a b) s (some (.c d.val)) fullMask (.publish (s.sl.cr a) n) false))
  ∧ ∀ (s : State) (key seq len : Nat) (c : CapReg),
    let b := c.f.base
    let w := s.who key
    let acked := (s.slotAt key).acked seq 6 = true ∧ s.bargeQuiet key seq = true
    let part (l : Line) (lo n : Nat) : Nat := l.toNat / 2 ^ lo % 2 ^ n
    let magic (l : Line) : Prop := part l 64 32 = 0x4E554947
    let answers (t : State) (r : Nat) : Prop :=
      s.doPublish key seq c len = some (t, .val { bits := BitVec.ofNat 512 r, tag := false } 0)
    (b % 65536 ≠ 0 → answers s 1)
    ∧ (b % 65536 = 0 → ¬ acked → s.doPublish key seq c len = none)
    ∧ (b % 65536 = 0 → acked → ∀ f, s.imageLines w seq c.f 0 (len / 64) = .error f →
        s.doPublish key seq c len = some (s, .fault f))
    ∧ ∀ t ls, b % 65536 = 0 → acked → s.imageLines w seq c.f 0 (len / 64) = .ok (t, ls) →
      ((∀ i l es, ls.drop i = l :: es → es.length < 1025 → ¬ magic l) → answers t 2)
      ∧ ∀ i l es, ls.drop i = l :: es → es.length < 1025 → magic l → (∀ m ∈ es, ¬ magic m) →
        let tl := part l 0 32
        let nent := part l 32 16
        let header := part l 48 16 = 1 ∧ part l 96 160 = 0
        let sizes := tl % 4 = 0 ∧ 4 ≤ tl ∧ tl ≤ 2 ^ 26 ∧ 1 ≤ nent ∧ nent ≤ 1024 ∧ 64 * i = (tl + 63) / 64 * 64
          ∧ len = 64 * i + 64 * (1 + nent)
        let device := part l 256 256 = Config.deviceHash.toNat
        let routine (e : Line) : Prop := part e 0 1 = 1
        let obeys (e : Line) : Prop := part e 256 256 = 0 ∧ part e 22 10 = 0 ∧ part e 32 32 % 4 = 0 ∧ part e 32 32 < tl
          ∧ (routine e → part e 1 31 = 0 ∧ part e 64 128 = 0)
          ∧ (¬ routine e → part e 9 13 ≤ 4096 ∧ part e 6 3 ≤ 4 ∧ part e 3 3 ≤ 4
              ∧ ∀ j, j < 4 → if j < part e 6 3 then part e (64 + 32 * j + 27) 5 = 0 else part e (64 + 32 * j) 32 = 0)
        let entries := (∀ e ∈ es, obeys e) ∧ ∃ e ∈ es, ¬ routine e
        let distinct := es.Pairwise fun x y => part x 192 64 ≠ part y 192 64 ∧ part x 32 32 ≠ part y 32 32
        let n := (t.worldAt w.world).nextObj
        let frame (k : Nat) : Prop := ∃ j p, 4096 * j < tl ∧ t.xlate w .load false (b + 4096 * j) = .ok p ∧ k = p.key / 4096
        let free := ∀ k, frame k → SMap.look 0 t.frames k = 0
        let settled := ∀ x ∈ t.coh, x.2.pend ≠ none → ¬ frame (x.1 / 64)
        let text := (ls.flatMap fun x => (List.range 64).map fun j => BitVec.ofNat 8 (x.toNat / 2 ^ (8 * j))).take tl
        (¬ header → answers t 2)
        ∧ (header → ¬ sizes → answers t 3)
        ∧ (header → sizes → ¬ device → answers t 4)
        ∧ (header → sizes → device → ¬ entries → answers t 5)
        ∧ (header → sizes → device → entries → ¬ distinct → answers t 6)
        ∧ (header → sizes → device → entries → distinct → 2 ^ 32 ≤ n → answers t 7)
        ∧ (header → sizes → device → entries → distinct → n < 2 ^ 32 → ¬ free → answers t 8)
        ∧ (header → sizes → device → entries → distinct → n < 2 ^ 32 → free →
            (¬ settled → s.doPublish key seq c len = none)
            ∧ (settled → ∃ u, s.doPublish key seq c len = some (u, .val (CapF.reg
                { base := b, ext0 := tl / 4, ext1 := 1, ext2 := 1, ext3 := 1, sd0 := 1, sd1 := 0, sd2 := 0, sd3 := 0, fmt := 0x21
                  rank := 1, perm := 2 ^ permEX + 2 ^ permGL, life := 3, gen := 0, seal_ := 0, cmpt := (s.slotAt key).cmpt
                  hlay := 0, hswz := 0, rsv := 0 }) 0)
              ∧ MemoryKept t u ∧ (u.worldAt w.world).nextObj = n + 1
              ∧ (∀ k, frame k → SMap.look 0 u.frames k ≠ 0) ∧ (∀ k, ¬ frame k → SMap.look 0 u.frames k = SMap.look 0 t.frames k)
              ∧ let q := u.objAt w.world n
                q.base = b ∧ q.tlen = tl ∧ q.entries = es ∧ q.cmpt = (s.slotAt key).cmpt ∧ q.quarantined = false
                ∧ ∀ p, 65536 * p < tl → SMap.look false q.verified p = true
                    ∧ q.hashes[p]? = some (sha3 ((text.drop (65536 * p)).take 65536))))

/-- R87, R106, R335, R359, R361: what the fetch of a slot comes to: a check of R38 that fails is its fault, with the target
offset; a page without its verified mark, the lower first, is waited for, unless its object is quarantined, which faults
with cause 0x3B, or reading it meets a fault; with both marked, the twelve bytes are read through the walk of the tables,
out of the core's instruction cache where it holds the line. -/
def Sys2Proof.Parts.FetchCases : Prop :=
  ∀ (s : State) (key : Nat) (f : FaultInfo) (es : List Elem) (ws : List CodeWord) (e : Elem) (p : Place) (addr n : Nat)
      (cache : List (Nat × Line)),
    let sl := s.slotAt key
    let w := s.who key
    let o := s.objAt sl.world sl.obj
    let marked (q : Nat) : Prop := SMap.look false o.verified q = true
    let first := sl.pc.toNat / 65536
    let last := (sl.pc.toNat + 11) / 65536
    let offset (x : FaultInfo) : FaultInfo := { x with aux := BitVec.ofInt 64 sl.pc }
    let words (q : Nat) : List Elem := (List.range (min 65536 (o.tlen - 65536 * q) / 4)).map fun j =>
      o.cap.f.elem { Coords.zero with k0 := ((16384 * q + j : Nat) : Int) }
    let unmarked (q : Nat) : Prop :=
      (o.quarantined = true → s.fetchWith key = (.fault (offset { FaultInfo.of 0x3B with mode := 3 }) [], []))
      ∧ (o.quarantined = false → s.codeWords w [] (words q) = .error f →
          s.fetchWith key = (.fault (offset f) (s.reached w [] (words q)), []))
      ∧ (o.quarantined = false → s.codeWords w [] (words q) = .ok ws → s.fetchWith key = (.unverified, []))
    (fetchCheck o.cap sl.cmpt sl.pc [0, 1, 2] = .error f → s.fetchWith key = (.fault (offset f) [], []))
    ∧ (fetchCheck o.cap sl.cmpt sl.pc [0, 1, 2] = .ok es →
        (¬ marked first → unmarked first) ∧ (marked first → ¬ marked last → unmarked last)
        ∧ (marked first → marked last →
            let own := (s.coreAt (key / 4)).icache
            let r := s.codeWords w own es
            (r = .error f → s.fetchWith key = (.fault (offset f) (s.reached w own es), []))
            ∧ (r = .ok ws → s.fetchWith key = (.bytes (ws.flatMap (·.bytes)), ws))))
    ∧ (s.walk w.world w.part e.va = .error n → s.reached w cache (e :: es) = [])
    ∧ (∀ leaf lvl a, s.walk w.world w.part e.va = .ok (leaf, lvl, a) →
        (∀ c, s.codeWord w cache e = .error c → s.reached w cache (e :: es) = [a])
        ∧ ∀ x, s.codeWord w cache e = .ok x → s.reached w cache (e :: es) = a :: s.reached w cache es)
    ∧ (s.codeByte w e.va = .error n → s.codeWord w cache e = .error n)
    ∧ (s.codeByte w e.va = .ok (p, addr) →
        let word (l : Line) : CodeWord :=
          { bytes := (List.range 4).map fun j => BitVec.ofNat 8 (l.toNat / 2 ^ (8 * (p.key % 64 + j)))
            entry := addr, key := p.key / 64, line := l }
        (∀ x, (cache.find? fun y => y.1 == p.key / 64) = some x → s.codeWord w cache e = .ok (word x.2))
        ∧ ((∀ x ∈ cache, x.1 ≠ p.key / 64) →
            (s.poisoned (2 * p.key) 8 = true → s.codeWord w cache e = .error 0x23)
            ∧ (s.poisoned (2 * p.key) 8 = false →
                (p.kind = .dev → s.codeWord w cache e = .ok (word (s.lineNow p.key).bits))
                ∧ (p.kind ≠ .dev → s.codeWord w cache e = .ok (word (s.placeLine w p).bits)))))

/-- R123, R357, R359, R361: a fetch completes unless its page has still to be verified; a verification, made for a fetch
that waits for it once the writes that reached its frames have been committed, hashes the page and marks it and its frames,
or quarantines the object and reports cause 0x3B once, with MODE 3. -/
def Sys2Proof.Parts.FetchAndVerification : Prop :=
  ∀ (s : State) (core slot world obj page k : Nat),
    let key := 4 * core + slot
    let fetches := (s.slotAt key).active = true ∧ (s.slotAt key).fetched = false ∧ (s.fetchWith key).1 ≠ .unverified
    let o := s.objAt world obj
    let n := min 65536 (o.tlen - 65536 * page)
    let awaits (j : Nat) : Prop := let sl := s.slotAt j
      sl.active = true ∧ sl.fetched = false ∧ sl.world = world ∧ sl.obj = obj
        ∧ (page = sl.pc.toNat / 65536 ∨ page = (sl.pc.toNat + 11) / 65536)
    let due := o.quarantined = false ∧ SMap.look false o.verified page = false ∧ n ≠ 0
    (fetches → Completes (.fetchComplete core slot) s fun u =>
      OnlySlot key s u ∧ u.slotAt key = { s.slotAt key with fetched := true })
    ∧ (¬ fetches → Stays (.fetchComplete core slot) s)
    ∧ ((∀ j, j / 4 ∈ s.cores.keys → ¬ awaits j) → Stays (.pageVerification world obj page) s)
    ∧ (¬ due → Stays (.pageVerification world obj page) s)
    ∧ (s.verifier world obj page = some k → awaits k ∧
      ((∀ e, s.codeWords (s.who k) [] (o.pageElems page) = .error e → Stays (.pageVerification world obj page) s)
      ∧ ∀ l, due → s.codeWords (s.who k) [] (o.pageElems page) = .ok l →
        let frame (f : Nat) : Prop := ∃ x ∈ l, f = x.key / 64
        let settled := ∀ x ∈ s.coh, x.2.pend ≠ none → ¬ frame (x.1 / 64)
        let hash := sha3 (l.flatMap (·.bytes))
        let others (u : State) : Prop := ∀ k, k ≠ obj → u.objAt world k = s.objAt world k
        (¬ settled → Stays (.pageVerification world obj page) s)
        ∧ (settled → hash = o.hashes.getD page 0 → Completes (.pageVerification world obj page) s fun u => others u ∧
          u.objAt world obj = { o with verified := SMap.put false o.verified page true } ∧ u.mem = (s.markWalks l).mem
          ∧ ∀ f, frame f → SMap.look 0 u.frames f ≠ 0)
        ∧ (settled → hash ≠ o.hashes.getD page 0 → Completes (.pageVerification world obj page) s fun u =>
            others u ∧ u.objAt world obj = { o with quarantined := true }
            ∧ u.mem = ((s.markWalks l).report world { FaultInfo.of 0x3B with
                mode := 3, iaddr := BitVec.ofNat 64 (obj * 2 ^ 32 + 65536 * page), time := BitVec.ofNat 64 s.now }).mem)))

/-- R220, R356 … R361: publication, fetch and verification. -/
def Obligations.CodeObjects : Prop :=
  Sys2Proof.Parts.PublishResults ∧ Sys2Proof.Parts.FetchCases ∧ Sys2Proof.Parts.FetchAndVerification

/-! ## Timers, pre-emption and machine checks -/

/-- R13, R203, R227, R234, R237 … R241, R266, R197, R215, R310: the commit window ends an activation without a handler 65,536
cycles after `commit`, before any other event of the slot, and names the first instruction that has not issued; an expired
wait timer raises cause 0x33 and counts it, before neither a commit window that has expired nor a requested pre-emption; the
effects of a `commit` other than a held Basin operation have none. A pre-emption is requested of an uncommitted activation
alone, and its discard stops what it had under way, counts an instruction that had issued, frees the slot and returns its
record to the head of its ring; that the records a swap returns keep the order of their starts is the model's choice (log
entry 88). A machine check takes a core out of service: its uncommitted activations are discarded, its committed ones become
terminal with cause 0x3F. -/
def Obligations.TimersAndPreemption : Prop :=
  ∀ (s : State) (core slot : Nat),
    let key := 4 * core + slot
    let sl := s.slotAt key
    let now := (s.coreAt (key / 4)).stopped.getD s.now
    let late : Prop := ∃ c, sl.committed = some c ∧ c + 65536 ≤ now
    let expires : Prop := late ∧ ∀ f, sl.stop ≠ .terminal f
    let under : Prop := (∃ o n, sl.stop = .hold (.basin o n)) ∨ sl.stop = .hold .commit ∨ (∃ n, sl.stop = .hold (.finish n))
      ∨ (∃ n, sl.stop = .hold (.applying n)) ∨ ∃ e n, sl.stop = .hold (.swait e n)
    let failed : Prop := ∃ f, sl.stop = .trap f ∧ f.mode = 2
    let overtaken := late ∨ sl.preempt = true ∧ sl.committed = none
    let ended (u : State) (at_ : Word) : State := u.updSlot key fun x =>
      { x with stop := .terminal { FaultInfo.of 0x39 with mode := 3, iaddr := at_ }, timer := none, arrived := none }
    let timesOut (t : State) : Prop := exec (.waitTimerExpiry core slot) s = .next { t with cur := s.cur }
    let counted : State := { s.count 0 (key / 4) 6 1 with cur := key }
    let team := (s.teamAt sl.team).core sl.tcore
    let swaps := (s.teamAt sl.team).isLeaving
    let turn := sl.actid.toNat / 4 + 1
    let discards := sl.active = true ∧ sl.preempt = true ∧ sl.committed = none
    (expires → ¬ under → ¬ failed → exec (.commitWindowExpiry core slot) s = .next (ended s sl.here))
    ∧ (expires → failed → ∃ b, FallsThrough sl b ∧
        exec (.commitWindowExpiry core slot) s = .next (ended s (sl.codeAddr b.pc)))
    ∧ (expires → under → ∃ b, FallsThrough sl b ∧
        exec (.commitWindowExpiry core slot) s = .next (ended (s.count 0 (key / 4) 1 1) (sl.codeAddr b.pc)))
    ∧ (¬ expires → Stays (.commitWindowExpiry core slot) s)
    ∧ ((sl.timer = none ∨ overtaken) → Stays (.waitTimerExpiry core slot) s)
    ∧ (∀ d l, sl.stop = .hold .commit → sl.deferred = d :: l → d.basin = none → Stays (.waitTimerExpiry core slot) s)
    ∧ (∀ st, sl.stop = .hold (.applying st) → Stays (.waitTimerExpiry core slot) s)
    ∧ (∀ t, sl.timer = some t → now < t → Stays (.waitTimerExpiry core slot) s)
    ∧ (∀ t, sl.timer = some t → t ≤ now → ¬ overtaken →
        (∀ e n, sl.stop = .hold (.swait e n) → timesOut ((counted.dropRounds key).faultNow (FaultInfo.atElem 0x33 e)))
        ∧ (∀ o g, sl.stop = .hold (.basin o g) →
            timesOut ((counted.dropRounds key).faultNow (FaultInfo.atElem 0x33 (basinLine o.basin.f o.k0))))
        ∧ (∀ sc st, sl.stop = .hold (.release sc st) → timesOut ((counted.dropRounds key).faultNow (FaultInfo.of 0x33)))
        ∧ (∀ d l o, sl.stop = .hold .commit → sl.deferred = d :: l → d.basin = some o →
            timesOut (counted.raise { FaultInfo.atElem 0x33 (basinLine o.basin.f o.k0) with
              mode := 2, iaddr := d.iaddr, bpos := sl.applied })))
    ∧ exec (.preemptionRequest core slot) s = .next (s.updSlot key fun x =>
        if sl.active = true ∧ sl.committed = none then { x with preempt := true } else x)
    ∧ (discards → Completes (.activationDiscard core slot) s fun u =>
        u.slotAt key = { Slot.reset with seq := sl.seq, fflags := sl.fflags }
        ∧ (sl.out = [] → MemoryKept s u
            ∧ (under → u.perf = ((s.count 0 (key / 4) 1 1).count 3 sl.part 1 1).perf)
            ∧ (¬ under → u.perf = (s.count 3 sl.part 1 1).perf))
        ∧ (let t := (u.teamAt sl.team).core sl.tcore
           t.deque = team.deque ∧ t.poolAt sl.pool = { sl.entry with taken := false, turn := if swaps then turn else 0 }
           ∧ (swaps = false → t.ring = sl.pool :: team.ring)
           ∧ (swaps = true → ∃ l r, team.ring = l ++ r ∧ t.ring = l ++ sl.pool :: r
                ∧ (∀ j ∈ l, 0 < (t.poolAt j).turn ∧ (t.poolAt j).turn < turn ∨ j = sl.pool)
                ∧ ∀ j, r.head? = some j → (t.poolAt j).turn = 0 ∨ turn ≤ (t.poolAt j).turn))
        ∧ (∀ r, sl.rev = some r → (u.revAt r).resets = true)
        ∧ let c := u.coreAt (key / 4)
          c.engine.chain ≠ some (key % 4) ∧ (∀ x ∈ c.engine.queue, x.slot ≠ key % 4)
          ∧ (∀ x ∈ c.barge, x.slot ≠ key % 4) ∧ ∀ x ∈ c.bdone, x.slot ≠ key % 4)
    ∧ (¬ discards → Stays (.activationDiscard core slot) s)
    ∧ ((s.coreAt core).oos = true → Stays (.machineCheck core) s)
    ∧ ((s.coreAt core).oos = false → Completes (.machineCheck core) s fun u =>
        (u.coreAt core).oos = true ∧ ∀ k, k < 4 →
          let a := s.slotAt (4 * core + k)
          let b := u.slotAt (4 * core + k)
          (a.active = false ∨ a.committed = none → b.active = false)
          ∧ (a.active = true → a.committed ≠ none → b.active = true ∧ b.committed = a.committed ∧ b.deferred = a.deferred
              ∧ (∀ f, a.stop = .terminal f → b.stop = a.stop)
              ∧ ((∀ f, a.stop ≠ .terminal f) → b.timer = none
                  ∧ b.stop = .terminal { FaultInfo.of 0x3F with mode := 3, iaddr := a.here })))

/-! ## The scheduler -/

/-- R16, R249, R257, R361: a free slot of a resident team's core takes the oldest record of its ring that its row serves,
else the near end of its deque, else the far end of the first other deque that is not empty; the activation starts with
the registers that R16 gives. A record of a quarantined object leaves its ring or deque, is logged with cause 0x3B, and ends
at once, with its join decrement. That a slot whose own near end is of a stage which its row does not serve goes on to steal,
and tries the first deque that is not empty alone, is the model's choice (log entry 60). Where the owner's pop of a deque's last entry
falls into the cycle of another's steal, the owner has it (what falls into one cycle is the model's choice, log entry 74). -/
def Sys2Proof.Parts.ActivationStarts : Prop :=
  ∀ (s : State) (core slot t since c' k' : Nat),
    let key := 4 * core + slot
    let k0 := s.coreAt core
    let tm := s.teamAt t
    let g := s.gridAt tm.grid
    let c := k0.tcore
    let tc := tm.core c
    let open_ := slot < 4 ∧ (s.slotAt key).active = false ∧ k0.oos = false ∧ (s.worldAt g.world).live = true ∧ (s.worldAt g.world).dying = false
    let serves (own k : Nat) : Prop := s.servesRec tm c own k = true
    let starts (own k at_ : Nat) : Prop :=
      let e := (tm.core own).poolAt k
      let r := e.record
      let o := s.objAt g.world (r.code / 2 ^ 32)
      (∀ v, e.rev = some v → (s.revAt v).resets = false) →
      let j := (tm.core r.jcore).counter r.jidx
      let merged := ∃ v, e.rev = some v ∧ e.child = true
      let calmly := r.jv = false ∨ merged ∨ j.rv = false ∨ j.count ≠ 1
      (o.quarantined = true → Completes (.activationStart core slot) s fun u =>
        let x (i : Nat) : TCore := (u.teamAt t).core i
        (u.slotAt key).active = false
        ∧ (calmly → at_ ∉ (x c).pool.keys
            ∧ (own = c → (x c).ring = tc.ring.filter (· != k) ∧ (x c).deque = tc.deque.filter (· != k))
            ∧ (own ≠ c → k ∉ (x own).pool.keys ∧ (x own).deque = (tm.core own).deque.filter (· != k)))
        ∧ (r.jv = true → ¬ merged → j.count ≠ 0 → calmly → (x r.jcore).counter r.jidx = { j with count := j.count - 1 })
        ∧ (r.jv = false ∨ merged → ∀ i n, (x i).counter n = (tm.core i).counter n)
        ∧ (∀ v, r.jv = true → e.rev = some v → e.child = true → (u.revAt v).joins = (s.revAt v).joins ++ [(r.jcore, r.jidx)])
        ∧ (e.rev = none → MemoryKept (s.report g.world { FaultInfo.of 0x3B with
            mode := 3, iaddr := BitVec.ofNat 64 r.code, time := s.counter 0 core 0 }) u))
      ∧ (o.quarantined = false → Completes (.activationStart core slot) s fun u =>
        let a := u.slotAt key
        let x := (u.teamAt t).core c
        (a.active = true ∧ a.world = g.world ∧ a.part = g.part ∧ a.grid = tm.grid ∧ a.team = t ∧ a.tcore = c ∧ a.pool = at_
          ∧ a.obj = r.code / 2 ^ 32 ∧ a.pc = ((r.code % 2 ^ 32 : Nat) : Int) ∧ a.cmpt = o.cmpt ∧ a.rev = e.rev)
        ∧ (∀ j : XReg, a.xr j = if 1 ≤ j.val ∧ j.val ≤ 4 then r.arg (j.val - 1) else 0)
        ∧ (∀ j : CReg, a.cr j = if 1 ≤ j.val ∧ j.val ≤ r.ncap then
              let q := r.cap j.val
              if s.stale g.world g.part q then { q with tag := false } else q
            else CapReg.null)
        ∧ (∀ j, a.vr j = 0) ∧ (∀ j : PReg, j ≠ 0 → a.pr j = 0)
        ∧ (a.frm = 0 ∧ a.fflags = 0 ∧ a.lc = 0 ∧ a.ls = 0 ∧ a.le = 0 ∧ a.fltcnt = 0)
        ∧ (a.actid = BitVec.ofNat 64 (k0.started % 2 ^ 62 * 4 + slot) ∧ a.teamid = BitVec.ofNat 64 tm.index
          ∧ a.stage = BitVec.ofNat 64 r.stg ∧ a.gx = BitVec.ofNat 64 r.gx ∧ a.gy = BitVec.ofNat 64 r.gy
          ∧ a.gz = BitVec.ofNat 64 r.gz)
        ∧ a.committed = none ∧ a.handler = false ∧ a.deferred = [] ∧ a.owed = [] ∧ a.out = []
        ∧ a.notBefore = k0.stopped.getD s.now + 4
        ∧ (u.coreAt core).started = k0.started + 1 ∧ x.poolAt at_ = { e with taken := true, turn := 0 }
        ∧ (own = c → x.ring = tc.ring.filter (· != k) ∧ x.deque = tc.deque.filter (· != k))
        ∧ (own ≠ c → ((u.teamAt t).core own).deque = (tm.core own).deque.filter (· != k)))
    let calm := ∀ x y, s.script.head? ≠ some (.activationStart x y)
    let takesNone := (∀ j ∈ tc.ring, ¬ serves c j) ∧ ∀ k, tc.deque.head? = some k → ¬ serves c k
    (k0.team = none → Stays (.activationStart core slot) s)
    ∧ (k0.team = some t → ¬ open_ → Stays (.activationStart core slot) s)
    ∧ (k0.team = some t → (∀ y, tm.st ≠ .resident y) → Stays (.activationStart core slot) s)
    ∧ (∀ v k, s.takeNow core slot = some (t, { core := v, pool := k, steal := true }) → (tm.core v).deque.length = 1 →
        s.script.head? = some (.activationStart c' k') → c' = tm.coreNo v →
        s.takeNow c' k' = some (t, { core := v, pool := k, steal := false }) →
        exec (.activationStart core slot) s
          = exec (.activationStart c' k') { s with script := .activationStart core slot :: s.script.tail })
    ∧ (k0.team = some t → open_ → tm.st = .resident since →
      (∀ l k r, tc.ring = l ++ k :: r → (∀ j ∈ l, ¬ serves c j) → serves c k → starts c k k)
      ∧ ((∀ j ∈ tc.ring, ¬ serves c j) → ∀ k l, tc.deque = k :: l → serves c k → starts c k k)
      ∧ (takesNone → ∀ n v k l f, n + 1 < tm.cores → v = (c + 1 + n) % tm.cores →
            (∀ j, j < n → (tm.core ((c + 1 + j) % tm.cores)).deque = []) → (tm.core v).deque = l ++ [k] →
            (serves v k → tc.freeSlot = some f → calm → starts v k f)
            ∧ (¬ serves v k ∨ tc.freeSlot = none → Stays (.activationStart core slot) s))
      ∧ (takesNone → (∀ v, v ≠ c → (tm.core v).deque = []) → tm.cores ≤ 16 → c < tm.cores → Stays (.activationStart core slot) s))

/-- R242, R255, R260, R262, R265: the scheduler places what waits for a team core: the lowest counter whose push is due, once
the ring has room; then a record that the core's row does not serve any more moves to where there is room for it; then the
oldest record of a stage's queue that a row now serves and that has room, with its dependence count if it has one; then the
next record of the grid, on a core whose row serves its stage and whose queue holds none before it, or in the stage's
queue. -/
def Sys2Proof.Parts.RecordPlacement : Prop :=
  ∀ (s : State) (team c n k d : Nat) (l : List Nat) (r : Rec) (rs : List Rec) (q0 : PoolEntry) (qs : List PoolEntry),
    let tm := s.teamAt team
    let tc := tm.core c
    let e : PoolEntry := { record := r, rev := none, child := false, taken := false, dep := false }
    let q := SMap.look [] tm.stageQ r.stg
    let stray (j : Nat) : Prop := s.rowServes tm c (tc.poolAt j).record.stg = false
    let moves := (∃ j ∈ tc.ring, stray j) ∨ (s.coreAt (tm.coreNo c)).oos = true ∧ ∃ j ∈ tc.deque, stray j
    let room (j at_ : Nat) : Prop := (tm.core j).freeSlot = some at_ ∧ (tm.core j).ring.length < 64
    let full (j : Nat) : Prop := (tm.core j).freeSlot = none ∨ 64 ≤ (tm.core j).ring.length
    let blocked (y : Nat × List PoolEntry) : Prop := ∀ a b, y.2 = a :: b → a.record.stg = y.1
      ∧ ∀ j, s.routeCore tm a.record.plc y.1 = some j →
          if a.dep = true then (tm.core j).freeSlot = none ∨ ((tm.core j).counter a.record.didx).rv = true else full j
    let rest := tc.held = [] ∧ ¬ moves ∧ ∀ y ∈ tm.stageQ, blocked y
    (tm.isResident = false → Stays (.heldRingPush team c) s)
    ∧ (tm.isResident = true →
      (tc.held = n :: l → 64 ≤ tc.ring.length → Stays (.heldRingPush team c) s)
      ∧ (tc.held = n :: l → tc.ring.length < 64 → (tc.counter n).rv = true → (s.coreAt (tm.coreNo c)).oos = false →
          Completes (.heldRingPush team c) s fun u =>
            let x := (u.teamAt team).core c
            x.ring = tc.ring ++ [(tc.counter n).rslot] ∧ x.counter n = { tc.counter n with rv := false }
            ∧ (∀ m, m ≠ n → x.counter m = tc.counter m) ∧ x.held = tc.held.filter (· != n) ∧ x.pool = tc.pool
            ∧ x.deque = tc.deque)
      ∧ (tc.held = [] → ∀ j js, tc.ring = j :: js → stray j → s.routeCore tm c (tc.poolAt j).record.stg = some d → room d k →
          Completes (.heldRingPush team c) s fun u =>
            let x := (u.teamAt team).core d
            x.ring = (tm.core d).ring ++ [k] ∧ x.poolAt k = tc.poolAt j
            ∧ ((u.teamAt team).core c).ring = tc.ring.filter (· != j))
      ∧ (rest → tc.feed = [] → Stays (.heldRingPush team c) s)
      ∧ (rest → tc.feed = r :: rs → q ≠ [] → s.routeCore tm c r.stg = some d → Stays (.heldRingPush team c) s)
      ∧ (rest → tc.feed = r :: rs →
          (s.routeCore tm c r.stg = some d → full d → Stays (.heldRingPush team c) s)
          ∧ (q = [] → s.routeCore tm c r.stg = some d → room d k → Completes (.heldRingPush team c) s fun u =>
              let x := (u.teamAt team).core d
              x.ring = (tm.core d).ring ++ [k] ∧ x.poolAt k = e ∧ ((u.teamAt team).core c).feed = rs)
          ∧ (s.routeCore tm c r.stg = none → 64 ≤ q.length → Stays (.heldRingPush team c) s)
          ∧ (s.routeCore tm c r.stg = none → q.length < 64 → Completes (.heldRingPush team c) s fun u =>
              SMap.look [] (u.teamAt team).stageQ r.stg = q ++ [e] ∧ ((u.teamAt team).core c).feed = rs))
      ∧ (tc.held = [] → ¬ moves →
          ∀ st ys zs, tm.stageQ = ys ++ (st, q0 :: qs) :: zs → q0.record.stg = st → (∀ y ∈ ys, blocked y) →
              s.routeCore tm q0.record.plc st = some d →
            (q0.dep = false → room d k → Completes (.heldRingPush team c) s fun u =>
                let x := (u.teamAt team).core d
                x.ring = (tm.core d).ring ++ [k] ∧ x.poolAt k = q0 ∧ SMap.look [] (u.teamAt team).stageQ st = qs)
            ∧ (q0.dep = true → (tm.core d).freeSlot = some k → ((tm.core d).counter q0.record.didx).rv = false →
                Completes (.heldRingPush team c) s fun u =>
                  let x := (u.teamAt team).core d
                  let y := (tm.core d).counter q0.record.didx
                  x.ring = (tm.core d).ring ∧ x.poolAt k = { q0 with dep := false }
                  ∧ x.counter q0.record.didx
                      = { count := y.count + BitVec.ofNat 64 q0.record.depn, rv := true, rslot := k }
                  ∧ SMap.look [] (u.teamAt team).stageQ st = qs)))

/-- R16, R255, R257, R260: records are placed and taken. -/
def Obligations.SchedulerStartsActivations : Prop :=
  Sys2Proof.Parts.ActivationStarts ∧ Sys2Proof.Parts.RecordPlacement

/-- R251, R263, R279, R305, R310, R311, R334, R361, R370: the grid of the highest priority leaves its queue first; one of no
size completes, one without a kernel or whose named area does not fit fails, with a record in the fault log of its world, one
with missing pages waits for them, and any other starts with its teams. A grid completes when nothing of it is left and the
plain stores of both dies are acknowledged: its waiting records are dropped, its leases and windows go, a completion Sluice
has an arrival, and an entry goes to the completion queue, behind a flush round where the world has peers and a flushing read
on each stream that carried its writes. How the grid's round is named is the model's choice (log entry 79), as is which
streams carry its writes (log entry 72). -/
def Sys2Proof.Parts.GridLife : Prop :=
  ∀ (s : State) (p g : Nat),
    let x := s.gridAt g
    let entry (seq : Option Word) (res : Nat) : BitVec 128 := match seq with
      | some q => BitVec.ofNat 128 (q.toNat + 2 ^ 64 * res)
      | none => BitVec.ofNat 128 (2 ^ 64 * res + 2 ^ 72)
    let host := x.seq.isSome = true ∨ x.record.cmode = 2
    let overlaps (h : Grid) (r : Rec) : Prop := h.part = x.part ∧ h.st ≠ .done ∧ r.zeroSize = false
      ∧ h.record.zeroSize = false ∧ r.cwb < h.record.cwb + h.record.nteams ∧ h.record.cwb < r.cwb + r.nteams
    let closes (u : State) (res : Nat) : Prop := (u.gridAt g).st = .done ∧ (u.gridAt g).leases = []
      ∧ (∀ t ∈ x.teams, (u.teamAt t).st = .done ∧ (u.teamAt t).rows = [] ∧ (u.teamAt t).stageQ = []
          ∧ ∀ c, (u.teamAt t).core c = TCore.reset)
      ∧ (∀ r, u.windowsOverlap x.part r = true ↔ ∃ h ∈ s.grids, h.1 ≠ g ∧ overlaps h.2 r)
      ∧ (u.partAt x.part).cqwait = (s.partAt x.part).cqwait
          ++ (if host then [entry x.seq res] else [])
      ∧ (host → (u.gridAt g).dirty = [])
    let missing := x.record.pages.filter fun q => !s.walks x.world x.part (4096 * q)
    let finished := x.st = .live ∧ s.gridIdle g = true ∧ (∀ t ∈ x.teams, (s.teamAt t).drained = true)
      ∧ (∀ r ∈ s.revs, r.2.grid = g → r.2.st = .merged)
      ∧ ∀ l ∈ s.coh, ∀ y ∈ l.2.inval, dieOf y.1 ≤ 1 → s.fresh ≤ y.2.2.2
    let mine (r : Round) : Prop := r.core = 512 + g ∧ r.slot = 0
    let rounded := s.hasPeers (partWho x.world x.part) 9 = false ∨ ∃ r ∈ s.ports.rounds, mine r ∧ r.done = true
    let logs (cause : Nat) (u : State) : Prop := x.record.cmode ≠ 1 → MemoryKept (s.report x.world { FaultInfo.of cause with
      mode := 3, iaddr := BitVec.ofNat 64 x.record.code, time := BitVec.ofNat 64 s.now }) u
    let at_ := (x.sluice.f.elem Coords.zero).va
    let arrives (u : State) : Prop := ∀ q : Place, s.schedPlace (s.schedWho x.world x.part g) true at_ = some q → q.kind = .dev →
      let c := s.cohAt (q.key / 64)
      c.pend = none → c.snoop = none → c.wback = none → c.proxy = .I → c.owner = none → s.lineErrors (q.key / 64) = [] →
      s.revs = [] → u.lineAt q.key = { bits := (SluiceOp.arrive 0).apply (s.lineAt q.key).bits, tag := false }
    ((s.partAt p).queue = [] → Stays (.gridAdmission p) s)
    ∧ (∀ l r, (s.partAt p).queue = l ++ g :: r →
        (∀ h ∈ l, (s.gridAt h).record.prio < x.record.prio) → (∀ h ∈ r, (s.gridAt h).record.prio ≤ x.record.prio) →
      let admits (post : State → Prop) : Prop := Completes (.gridAdmission p) s fun u =>
        (u.partAt p).queue = (s.partAt p).queue.filter (· != g) ∧ post u
      (x.record.zeroSize = true → admits fun u => closes u 0x80)
      ∧ (x.record.zeroSize = false →
        (s.kernelAt x.world x.record.code = none → admits fun u => closes u 0x83 ∧ logs 0x3B u)
        ∧ ∀ o e, s.kernelAt x.world x.record.code = some (o, e) →
          (o.quarantined = true → admits fun u => closes u 0x83 ∧ logs 0x3B u)
          ∧ (o.quarantined = false → 0x1C000 < x.named → admits fun u => closes u 0x82 ∧ logs 0x3E u)
          ∧ (o.quarantined = false → x.named ≤ 0x1C000 → missing ≠ [] → admits fun u =>
              (u.gridAt g).st = .waiting missing
              ∧ (u.worldAt x.world).resq = (s.worldAt x.world).resq ++ missing.map (4096 * ·))
          ∧ (o.quarantined = false → x.named ≤ 0x1C000 → missing = [] → admits fun u =>
              (u.gridAt g).st = .live ∧ (u.gridAt g).teams.length = x.teams.length + x.record.nteams)))
    ∧ (finished → ¬ host → Completes (.gridCompletion g) s fun u => closes u 0x80 ∧ (x.record.cmode = 1 → arrives u))
    ∧ (finished → host → ¬ rounded → (∃ r ∈ s.ports.rounds, mine r) → Stays (.gridCompletion g) s)
    ∧ (finished → host → ¬ rounded → (∀ r ∈ s.ports.rounds, ¬ mine r) → Completes (.gridCompletion g) s fun u =>
        u = { s with ports := { s.ports with nround := u.ports.nround, rounds := u.ports.rounds } }
        ∧ u.ports.rounds = s.ports.rounds ++ [{ num := s.ports.nround, core := 512 + g, slot := 0, world := x.world,
                                                paths := s.pathsOf x.world, got := [], done := false }])
    ∧ (finished → host → rounded → x.dirty ≠ [] → Stays (.gridCompletion g) s)
    ∧ (finished → host → rounded → x.dirty = [] → Completes (.gridCompletion g) s fun u =>
        closes u 0x80 ∧ (x.record.cmode = 1 → arrives u) ∧ ∀ r ∈ u.ports.rounds, ¬ mine r)
    ∧ (¬ finished → Stays (.gridCompletion g) s)

/-- R334, R365: RESREPLY, of the device kernel of the partition's world while the device takes its writes, keeps its page and
NT bit and takes the page off the world's residency queue; NT fails the grid that waits for the page, a page that is still
missing is posted again, one that is there leaves what the grid waits for, and the last of them starts the grid. Another
writer's write of the register is dropped and has an unsupported-request status. -/
def Sys2Proof.Parts.ResidencyReplies : Prop :=
  ∀ (s : State) (p g v wr : Nat) (y : Grid) (m : List Nat),
    let page := v / 4096 % 2 ^ 45
    let nt := v / 2 ^ 63 % 2
    let x := s.gridAt g
    let wid := (s.partAt p).wid
    let rest := m.filter (· != page)
    let queue := (s.worldAt wid).resq.erase (4096 * page)
    let heard := s.accepts = true
    let answers (post : State → Prop) : Prop := Completes (.resreply p v) s fun u =>
      u.unsupported = false ∧ (u.partAt p).resreply = BitVec.ofNat 64 (nt * 2 ^ 63 + page * 4096) ∧ post u
    let others : Prop := ∀ h ∈ s.grids, h.2.part = p → h.1 ≠ g → ∀ m, (s.gridAt h.1).st ≠ .waiting m
    let there := s.walks x.world x.part (4096 * page) = true
    (¬ heard → exec (.resreply p v) s = .next { s with unsupported := true })
    ∧ (p < 32 → wr ≠ 256 + wid → exec (.registerWrite p wr 0x070 v) s = .next { s with unsupported := true })
    ∧ (p < 32 → exec (.registerWrite p (256 + wid) 0x070 v) s = exec (.resreply p v) s)
    ∧ (heard → answers (fun _ => True))
    ∧ (heard → (∀ h ∈ s.grids, h.2.part = p → ∀ m, (s.gridAt h.1).st ≠ .waiting m) → answers fun u =>
        (u.worldAt wid).resq = queue ∧ ∀ k, u.gridAt k = s.gridAt k)
    ∧ (heard → (s.grids.map fun h => h.1).Nodup → (g, y) ∈ s.grids → y.part = p → x.part = p → others → x.st = .waiting m →
        (page ∉ m → answers fun u => u.gridAt g = x)
        ∧ (page ∈ m → nt = 1 → answers fun u => (u.gridAt g).st = .done)
        ∧ (page ∈ m → nt = 0 → ¬ there → x.world = wid → answers fun u =>
            u.gridAt g = x ∧ (u.worldAt wid).resq = queue ++ [4096 * page])
        ∧ (page ∈ m → nt = 0 → there → rest ≠ [] → answers fun u => (u.gridAt g).st = .waiting rest)
        ∧ (page ∈ m → nt = 0 → there → rest = [] → s.missing g = [] → answers fun u => (u.gridAt g).st = .live))

/-- R251, R263, R334: grids from their queue to their completion. -/
def Obligations.Grids : Prop := Sys2Proof.Parts.GridLife ∧ Sys2Proof.Parts.ResidencyReplies

/-- R264, R265, R278, R280: the waiting team that stands first takes the lowest free rows of the lowest cluster that has
enough; its cores have the engine wiped and, for a team that was never swapped out, a scratchpad of zeros; a swapped team
finds its saved bytes and tags. That teams which no cluster could ever hold are left out of the order, and that equal ones
stand in the order of their numbers, is the model's choice (log entry 15), as are the zeros outside the named area and the
plane region (log entry 17). -/
def Obligations.TeamPlacement : Prop :=
  ∀ (s : State) (t since cl : Nat),
    let tm := s.teamAt t
    let part := s.partOfTeam t
    let both (p : Instr → Prop) : Prop :=
      (tm.swapped = true → p (.teamSwapIn t)) ∧ (tm.swapped = false → p (.teamPlacement t))
    let eff (q y : Nat) : Nat := min 3 ((s.gridAt (s.teamAt q).grid).record.prio + (s.now - y) / 2 ^ 21)
    let first : Prop := ∀ q ∈ s.waitingTeams part, ∀ y, (s.teamAt q).st = .waiting y →
      eff q y < eff t since ∨ eff q y = eff t since ∧ (since < y ∨ since = y ∧ t ≤ q)
    let free (c : Nat) : List Nat := ((List.range 4).map (4 * c + ·)).filter fun r =>
      (List.range 4).all fun j => (s.coreAt (4 * r + j)).team.isNone && !(s.coreAt (4 * r + j)).oos
    let mine (c : Nat) : Prop := c < 32 ∧ (s.partAt part).cl / 2 ^ c % 2 = 1
    let enough (c : Nat) : Prop := tm.cores / 4 ≤ (free c).length
    (tm.swapped = true → Stays (.teamPlacement t) s) ∧ (tm.swapped = false → Stays (.teamSwapIn t) s)
    ∧ ((∀ y, tm.st ≠ .waiting y) → both fun i => Stays i s)
    ∧ (tm.st = .waiting since → ¬ first → both fun i => Stays i s)
    ∧ (tm.st = .waiting since → (∀ c, mine c → ¬ enough c) → both fun i => Stays i s)
    ∧ (tm.st = .waiting since → first → tm.cores % 4 = 0 → mine cl → enough cl → (∀ c, c < cl → mine c → ¬ enough c) →
        (∀ x ∈ tm.saved, x.2.1 < 0x40000) → (∀ x ∈ tm.savedTags, x.2 < 0x1000) →
        let places (u : State) : Prop :=
          let v := u.teamAt t
          let at_ (c o : Nat) : Byte := u.byte (memKey (.spad (v.coreNo c)) o)
          v.st = .resident s.now ∧ v.rows = (free cl).take (tm.cores / 4) ∧ v.swapped = false ∧ v.stages = tm.stages
          ∧ v.saved = [] ∧ v.savedTags = [] ∧ v.savedErr = []
          ∧ ∀ c, c < tm.cores → let k := u.coreAt (v.coreNo c)
            k.team = some t ∧ k.tcore = c ∧ k.stash = [] ∧ k.engine.chain = none ∧ k.engine.queue = []
            ∧ (∀ j, k.engine.tile j = 0) ∧ (∀ a m n, k.engine.cell a m n = 0)
            ∧ (∀ o, o < 0x40000 → (∀ x ∈ tm.saved, x.1 = c → x.2.1 ≠ o) → at_ c o = 0)
            ∧ (∀ o b, (c, o, b) ∈ tm.saved → (∀ x, (c, o, x) ∈ tm.saved → x = b) → at_ c o = b)
            ∧ (s.revoking (s.gridAt tm.grid).world = false → ∀ l, l < 0x1000 →
                u.tagAt (memKey (.spad (v.coreNo c)) (64 * l)) = tm.savedTags.contains (c, l))
        (tm.swapped = true → Completes (.teamSwapIn t) s places) ∧ (tm.swapped = false → Completes (.teamPlacement t) s places))

/-- R264, R266, R280, R376: a quantum of 2^21 cycles ends while another team waits; 65,536 cycles later the uncommitted
activations are pre-empted; with none left, the team's named and system areas are saved with their tags and its rows are
free. While the clock of one of its cores is stopped none of these times passes (R376). That a quantum counts from the start
of the residence is the model's choice (log entry 16), as is which teams wait (log entry 15). -/
def Sys2Proof.Parts.TeamSwapOut : Prop :=
  ∀ (s : State) (t since : Nat) (late : Bool),
    let tm := s.teamAt t
    let now := tm.frozen.getD s.now
    let ends := since + 2 ^ 21 ≤ now ∧ s.waitingTeams (s.partOfTeam t) ≠ []
    let named := s.namedSize tm.grid
    (tm.st = .resident since → ends → Completes (.quantumExpiry t) s fun u => OnlyTeam t s u
        ∧ u.teamAt t = { tm with st := .leaving now false, resid := tm.resid + (now - since) })
    ∧ (tm.st = .resident since → ¬ ends → Stays (.quantumExpiry t) s)
    ∧ ((∀ c, tm.st ≠ .resident c) → Stays (.quantumExpiry t) s)
    ∧ (tm.st = .leaving since false → since + 65536 ≤ now → Completes (.swapGraceExpiry t) s fun u =>
        u.teamAt t = { tm with st := .leaving since true } ∧ { u with cores := [], teams := [] } = { s with cores := [], teams := [] }
        ∧ ∀ k, u.slotAt k = if k ∈ s.teamSlots t ∧ (s.slotAt k).committed = none then { s.slotAt k with preempt := true }
            else s.slotAt k)
    ∧ (tm.st = .leaving since false → now < since + 65536 → Stays (.swapGraceExpiry t) s)
    ∧ ((∀ c, tm.st ≠ .leaving c false) → Stays (.swapGraceExpiry t) s)
    ∧ ((∀ c b, tm.st ≠ .leaving c b) → Stays (.teamSwapOut t) s)
    ∧ (tm.st = .leaving since late → s.teamSlots t ≠ [] → Stays (.teamSwapOut t) s)
    ∧ (tm.st = .leaving since late → s.teamSlots t = [] → Completes (.teamSwapOut t) s fun u =>
        let v := u.teamAt t
        v.st = .waiting s.now ∧ v.rows = [] ∧ v.swapped = true ∧ v.resid = tm.resid + (now - since) ∧ MemoryKept s u
        ∧ (∀ k ∈ tm.coreList, (u.coreAt k).team = none ∧ (u.coreAt k).stash = [])
        ∧ (∀ c o b, (c, o, b) ∈ v.saved ↔ c < tm.cores ∧ o < 0x40000 ∧ (o < named ∨ 0x2C000 ≤ o)
            ∧ (memKey (.spad (tm.coreNo c)) 0 + o, b) ∈ s.mem)
        ∧ ∀ c l, (c, l) ∈ v.savedTags ↔ c < tm.cores ∧ l < 0x1000 ∧ (64 * l < named ∨ 0x2C000 ≤ 64 * l)
            ∧ ∃ b, (lineKey (memKey (.spad (tm.coreNo c)) 0) + l, b) ∈ s.tags)

/-- R261, R262: a stage is high or low by the descriptor of its registered Basin; every 4,096 resident cycles the Weir moves the lowest row that has served 16,384 cycles from the low stage
with most rows to the high stage with the greatest excess. -/
def Sys2Proof.Parts.WeirMoves : Prop :=
  ∀ (s : State) (t from_ to_ h r : Nat),
    let tm := s.teamAt t
    let now := tm.cycles s.now
    let due := tm.isResident = true ∧ tm.weirAt + 4096 ≤ now
    let st (k : Nat) : WeirStage := s.weirStage tm k
    let rows (k : Nat) : Nat := ((List.range tm.nrows).filter fun q => tm.stageOf q == k).length
    let receives : Prop := to_ < 8 ∧ (st to_).high = some h
      ∧ ∀ k x, k < 8 → (st k).high = some x → x < h ∨ x = h ∧ to_ ≤ k
    let gives : Prop := from_ < 8 ∧ (st from_).low = true
      ∧ ∀ k, k < 8 → (st k).low = true → rows k < rows from_ ∨ rows k = rows from_ ∧ k ≤ from_
    let settled (q : Nat) : Prop := SMap.look 0 tm.served q + 16384 ≤ now
    let moves : Prop := r < tm.nrows ∧ tm.stageOf r = from_ ∧ settled r ∧ ∀ q, q < r → tm.stageOf q = from_ → ¬ settled q
    let stage (k : Nat) : Prop :=
      (tm.basins.keys.contains k = false → (st k).high = none ∧ (st k).low = decide (2 ≤ rows k))
      ∧ ∀ l, tm.basins.keys.contains k = true → s.basinDescriptor tm (SMap.look (CapReg.null, 0, 0) tm.basins k) = some l →
          (st k).high = (if bLwm l < bHwm l ∧ bHwm l ≤ bOcc l then some (bOcc l - bHwm l) else none)
          ∧ (st k).low = decide (bLwm l < bHwm l ∧ bOcc l ≤ bLwm l ∧ 2 ≤ rows k)
    let runs (post : State → Prop) : Prop := Completes (.weirRun t) s fun u => (u.teamAt t).weirAt = tm.weirAt + 4096 ∧ post u
    (∀ k, stage k)
    ∧ (¬ due → Stays (.weirRun t) s)
    ∧ (due → (∀ k, k < 8 → (st k).high = none) → runs fun u => OnlyTeam t s u ∧ (u.teamAt t).stages = tm.stages)
    ∧ (due → (∀ k, k < 8 → (st k).low = false) → runs fun u => OnlyTeam t s u ∧ (u.teamAt t).stages = tm.stages)
    ∧ (due → receives → gives → (∀ q, q < tm.nrows → tm.stageOf q = from_ → ¬ settled q) →
        runs fun u => OnlyTeam t s u ∧ (u.teamAt t).stages = tm.stages)
    ∧ (due → receives → gives → moves → runs fun u =>
        (∀ q, (u.teamAt t).stageOf q = if q = r then to_ else tm.stageOf q)
        ∧ SMap.look 0 (u.teamAt t).served r = now)

/-- R261, R262, R264 … R266: teams leave their rows, and rows move between stages. -/
def Obligations.SwapsAndWeir : Prop := Sys2Proof.Parts.TeamSwapOut ∧ Sys2Proof.Parts.WeirMoves

/-! ## Revisions -/

/-- R272: what an element that the child changed becomes, by merge type: in the integer formats of 4 to 64 bits the sum modulo
the width or saturated, the child's value, the parent's where the parent changed it, and the bitwise types; SUM_F32 rounds
the difference and then the sum; MAX and MIN of floats are those of `vmax` and `vmin`. -/
def Sys2Proof.Parts.MergeResults : Prop :=
  ∀ (fmt w p c a : Nat), w ∈ [4, 8, 16, 32, 64] → p < 2 ^ w → c < 2 ^ w → a < 2 ^ w →
    let sgn := fmtSigned fmt
    let int (v : Nat) : Int := if sgn ∧ 2 ^ (w - 1) ≤ v then (v : Int) - 2 ^ w else v
    let hi : Int := if sgn then 2 ^ (w - 1) - 1 else 2 ^ w - 1
    let lo : Int := if sgn then -(2 ^ (w - 1)) else 0
    let sum := int p + int c - int a
    mergeElem 1 fmt w p c a = c ∧ mergeElem 12 fmt w p c a = c
    ∧ mergeElem 2 fmt w p c a = (if p ≠ a then p else c)
    ∧ mergeElem 3 fmt w p c a = (p + c + 2 ^ w - a) % 2 ^ w
    ∧ ((mergeElem 4 fmt w p c a : Nat) : Int) = (max lo (min hi sum)) % 2 ^ w
    ∧ mergeElem 8 fmt w p c a = p ||| c ∧ mergeElem 9 fmt w p c a = p &&& c
    ∧ mergeElem 10 fmt w p c a = (p ^^^ c) ^^^ a
    ∧ (fmt ∉ [0x10, 0x11, 0x12] →
        mergeElem 6 fmt w p c a = (if int p < int c then c else p)
        ∧ mergeElem 7 fmt w p c a = if int c < int p then c else p)
    ∧ mergeElem 5 fmt 32 p c a = (fpF32.add .rne p (fpF32.sub .rne c a).1).1
    ∧ ∀ t, (fmt, t) ∈ [(0x10, fpF32), (0x11, fpBf16), (0x12, fpF16)] →
        mergeElem 6 fmt w p c a = (t.pick true p c).1 ∧ mergeElem 7 fmt w p c a = (t.pick false p c).1

/-- R269, R270, R272, R273: what a merge writes in the parent's view, memory or the parent's entry: of a line with one entry each
element takes its result, a whole line that the parent changed keeps its bytes with FIRST_FORK, and a line that nothing
changes keeps its tag; an APPEND region takes the elements that the child appended, as far as they fit, and then counts them
in its cursor line. -/
def Sys2Proof.Parts.MergedLines : Prop :=
  ∀ (s : State) (y q mt : Nat) (e e' x : RevEntry) (c : CapReg) (p d : Place),
    let r := s.revAt y
    let w := s.junctionWho r r.parent
    let place (va : Nat) : Option Place := s.junctionPlace w va
    let rest (k : Place) : Prop := let l := s.cohAt (k.key / 64)
      k.kind = .dev ∧ l.pend = none ∧ l.snoop = none ∧ l.wback = none ∧ l.proxy = .I ∧ l.owner = none
      ∧ (∀ z, place r.headerAt = some z → z.key / 64 ≠ k.key / 64) ∧ ∀ j, j < 64 → s.inSpill r.world (k.va / 64 * 64 + j) = false
    let sz := fmtBits c.f.fmt
    let el (l : Line) (i : Nat) : Nat := l.toNat / 2 ^ (sz * i) % 2 ^ sz
    let res (cur : Line) (i : Nat) : Nat :=
      if mt = 12 then (if cur = e.anc.bits then el e.child.bits i else el cur i)
      else if el e.child.bits i = el e.anc.bits i then el cur i
      else mergeElem mt c.f.fmt sz (el cur i) (el e.child.bits i) (el e.anc.bits i)
    let merged (a b : CapReg) : Prop :=
      (∀ i, i < 512 / sz → el b.bits i = res a.bits i % 2 ^ sz)
      ∧ ((∀ i, i < 512 / sz → res a.bits i = el a.bits i) → b = a)
      ∧ ((∃ i, i < 512 / sz ∧ res a.bits i ≠ el a.bits i) → b.tag = false)
    let joins := s.joinable y = true ∧ s.mergeQuiet y = true ∧ r.broken = false ∧ s.poison = []
      ∧ r.regions[e.ridx]? = some (c, mt) ∧ e.cerr = [] ∧ e.aerr = [] ∧ e.laddr % 64 = 0
      ∧ sz ∈ [4, 8, 16, 32, 64] ∧ place e.laddr = some p ∧ rest p
    let merges (post : State → Prop) : Prop := Completes (.junctionMerge y) s post
    (joins → mt ≠ 11 → s.revs = [(y, r)] → r.parent = none → r.entries = [e] → p.untagged = false →
      merges fun u => merged (s.lineAt p.key) (u.lineAt p.key))
    ∧ (joins → mt ≠ 11 → (∀ k ∈ s.revs.keys, k = y ∨ k = q) → q ≠ y → r.parent = some q → (s.revAt q).broken = false →
      r.entries = [e] → (s.revAt q).revises e.laddr = true → (s.revAt q).entryAt e.laddr = some e' → e'.cerr = [] →
      merges fun u => ∃ z, (u.revAt q).entryAt e.laddr = some z ∧ z.anc = e'.anc ∧ merged e'.child z.child)
    ∧ (joins → mt = 11 → s.revs = [(y, r)] → r.parent = none → (r.entries.filter fun z => z.laddr == e.laddr) = [e] →
      (∀ z ∈ r.entries, z.ridx = e.ridx) → ∀ hi, c.f.footprint = some (e.laddr, hi) → 8 ≤ sz →
      (∀ a z, e.laddr + 64 ≤ a → place a = some z → z.key / 64 ≠ p.key / 64) → p.untagged = false →
        let cur := (s.lineAt p.key).bits.toNat
        let count (l : Line) : Nat := l.toNat % 2 ^ 64
        let had := count e.anc.bits
        let n := count e.child.bits - had
        let pc := cur % 2 ^ 64
        let at_ (k : Nat) : Nat := e.laddr + 64 + k * (sz / 8)
        let m := min n (min (cur / 2 ^ 64 % 2 ^ 64) ((hi + 1 - e.laddr - 64) / (sz / 8)) - pc)
        merges fun u =>
          let now := (u.lineAt p.key).bits.toNat
          now % 2 ^ 64 = (pc + m) % 2 ^ 64 ∧ now / 2 ^ 64 % 2 ^ 64 = cur / 2 ^ 64 % 2 ^ 64
          ∧ now / 2 ^ 128 = cur / 2 ^ 128 + (if m < n ∧ cur / 2 ^ 128 % 2 = 0 then 1 else 0)
          ∧ (m = 1 → r.entryAt (at_ had / 64 * 64) = some x → x.cerr = [] → place (at_ had) ≠ none → place (at_ pc) = some d →
              rest d → lineElem (u.lineAt d.key) (at_ pc) 0 sz = lineElem x.child (at_ had) 0 sz))

/-- R256, R274, R275: a revision joins once its activations and its forker have ended, its own children are merged and earlier
siblings too, and no reset of its child copies is due; it is merged then and no other revision's state changes; a broken one,
or one of a broken parent, is dropped, which changes no other revision's entries and is logged with cause 0x3A; in both cases
its join decrements are made. A discard resets every child copy to its ancestor. That the children of the root in one world
rank together, whichever team forked them, is the model's choice (log entry 69), as is that a dropped revision's header has
STATE 2 (log entry 42). -/
def Sys2Proof.Parts.RevisionsJoin : Prop :=
  ∀ (s : State) (y : Nat),
    let r := s.revAt y
    let fk := s.slotAt (4 * r.forker.1 + r.forker.2.1)
    let earlier (x : Revision) : Prop := x.world = r.world ∧ x.parent = r.parent
      ∧ (x.fidx < r.fidx ∨ x.fidx = r.fidx ∧ x.order < r.order)
    let ready := r.st = .ended ∧ r.resets = false ∧ ¬ (fk.active = true ∧ fk.actid = r.forker.2.2)
      ∧ ∀ x ∈ s.revs, x.2.st = .merged ∨ x.2.parent ≠ some y ∧ ¬ earlier x.2
    let dropped : Prop := r.broken = true ∨ ∃ q, r.parent = some q ∧ (s.revAt q).broken = true
    (¬ ready → Stays (.junctionMerge y) s)
    ∧ (s.mergeQuiet y = false → Stays (.junctionMerge y) s)
    ∧ (ready → s.mergeQuiet y = true → Completes (.junctionMerge y) s fun u =>
        (u.revAt y).st = .merged ∧ (∀ k, k ≠ y → (u.revAt k).st = (s.revAt k).st)
        ∧ u.teams = (r.joins.foldl (fun t j => t.decCounter r.team j.1 j.2 1 (s.gridAt r.grid).part) s).teams
        ∧ (dropped → (∀ k, k ≠ y → u.revAt k = s.revAt k)
            ∧ ∀ b, (r.broken = true → b = r.baddr) → (∀ q, r.broken = false → r.parent = some q → b = (s.revAt q).baddr) →
              MemoryKept (((s.report r.world { FaultInfo.of 0x3A with
                  mode := 3, agent := 3, iaddr := r.faddr, fva := b, aux := BitVec.ofNat 64 r.fidx
                  prog := BitVec.ofNat 64 r.entries.length, time := BitVec.ofNat 64 s.now }).updRev y fun x =>
                    { x with st := .merged }).syncHeader y) u))
    ∧ (r.resets = false → Stays (.revisionDiscardReset y) s)
    ∧ (r.resets = true → Completes (.revisionDiscardReset y) s fun u =>
        u.revAt y = { r with resets := false, entries := r.entries.map fun e => { e with child := e.anc, cerr := e.aerr } }
        ∧ ∀ k, k ≠ y → u.revAt k = s.revAt k)

/-- R269, R272 … R275: what merges make of elements and of the parent's view, and when revisions join. -/
def Obligations.RevisionMerges : Prop :=
  Sys2Proof.Parts.MergeResults ∧ Sys2Proof.Parts.MergedLines ∧ Sys2Proof.Parts.RevisionsJoin

/-! ## Translation and revocation -/

/-- R333, R336, R360, R365: a refill puts the entry of a leased page first in a cluster's buffers: a 4 KiB page, a 2 MiB leaf
or a span group; INVCTL starts an invalidation while none runs; it ends refused while a lease covers a page, and else
removes the pages from the world's buffers and stashes, with their first-touch records, the pins of their lines, which go
back to the quotas of their teams, the verified marks of their code and the protection of its frames. That a write which the
register ignores completes without the unsupported-request status is the model's choice (log entry 46). -/
def Obligations.TranslationAndInvalidation : Prop :=
  ∀ (s : State) (p cluster page v wr : Nat) (l : Lease),
    let x := s.partAt p
    let team (c : Nat) : Option Nat := (s.coreAt c).team
    let leased (c : Nat) (y : Lease) : Prop :=
      ∃ t z, team c = some t ∧ ((s.gridAt (s.teamAt t).grid).leases.find? fun q => q.1 == page) = some (z, y)
    let first : Prop := ∃ c, c / 16 = cluster ∧ leased c l ∧ ∀ d y, d / 16 = cluster → d < c → ¬ leased d y
    let size := (if l.level = 1 then 1 else 512) * (match l.leaf.toNat / 2 ^ 59 % 4 with
      | 1 => 16
      | 2 => 256
      | _ => 1)
    let e := (page / size * size, size)
    let heard := s.accepts = true
    let start := x.invgo = false ∧ v / 2 ^ 63 % 2 = 1
    let covers (q : Nat) : Prop := x.invall = true ∨ q = x.invva / 4096
    let reaches (q : Nat × Nat) : Prop := ∃ j, j < q.2 ∧ covers (q.1 + j)
    let refused : Prop := ∃ g ∈ s.grids, g.2.world = x.wid ∧ g.2.st = .live ∧ ∃ l ∈ g.2.leases, covers l.1
    let ends (sts : Nat) (u : State) : Prop := u.partAt p = { x with invgo := false, invsts := sts }
    ((∀ c y, c / 16 = cluster → ¬ leased c y) → Stays (.tlbRefill cluster page) s)
    ∧ (first → Completes (.tlbRefill cluster page) s fun u =>
        { u with cores := [], tlb2 := [] } = { s with cores := [], tlb2 := [] }
        ∧ SMap.look [] u.tlb2 cluster = (e :: (SMap.look [] s.tlb2 cluster).filter (· != e)).take 4096
        ∧ (∀ k, k ≠ cluster → SMap.look [] u.tlb2 k = SMap.look [] s.tlb2 k)
        ∧ ∀ c, ((∃ y, c / 16 = cluster ∧ leased c y) →
            u.coreAt c = { s.coreAt c with tlb := (e :: (s.coreAt c).tlb.filter (· != e)).take 64 })
          ∧ ((∀ y, ¬ (c / 16 = cluster ∧ leased c y)) → u.coreAt c = s.coreAt c))
    ∧ (¬ heard → exec (.invctl p v) s = .next { s with unsupported := true })
    ∧ (p < 32 → wr ≠ 256 + x.wid → exec (.registerWrite p wr 0x078 v) s = .next { s with unsupported := true })
    ∧ (p < 32 → exec (.registerWrite p (256 + x.wid) 0x078 v) s = exec (.invctl p v) s)
    ∧ (heard → ¬ start → exec (.invctl p v) s = .next { s with unsupported := false })
    ∧ (heard → start → Completes (.invctl p v) s fun u => OnlyPart p { s with unsupported := false } u ∧ u.partAt p =
        { x with invgo := true, invall := v / 2 ^ 62 % 2 == 1, invva := v / 2 ^ 12 % 2 ^ 45 * 4096, invsts := 0 })
    ∧ (x.invgo = false → Stays (.invalidationComplete p) s)
    ∧ (x.invgo = true → refused → Completes (.invalidationComplete p) s fun u => OnlyPart p s u ∧ ends 1 u)
    ∧ (x.invgo = true → ¬ refused → Completes (.invalidationComplete p) s fun u => ends 0 u ∧ MemoryKept s u
        ∧ (∀ c ∈ s.coresOf x.wid, (∀ q ∈ (u.coreAt c).tlb, ¬ reaches q) ∧ ∀ e ∈ (u.coreAt c).stash, ¬ covers (e.va / 4096))
        ∧ (∀ k, SMap.look 0 u.touch k = if k / 2 ^ 45 = x.wid ∧ covers (k % 2 ^ 45) then 0 else SMap.look 0 s.touch k)
        ∧ (∀ c ∈ s.coresOf x.wid, ∀ i, ∀ l ∈ SMap.look [] (u.coreAt c).l1 i, covers (l.va / 4096) → l.pin = none)
        ∧ (∀ t, (u.teamAt t).pins = (s.teamAt t).pins - ((s.coresOf x.wid).eraseDups.map fun c =>
            ((s.coreAt c).l1.flatMap (·.2)).countP fun l => l.pin == some t && (x.invall || l.va / 4096 == x.invva / 4096)).sum)
        ∧ (∀ k, (∃ q ∈ s.parts, q.2.wid = x.wid ∧ q.2.cl / 2 ^ k % 2 = 1) → ∀ q ∈ SMap.look [] u.tlb2 k, ¬ reaches q)
        ∧ ∀ o q, 65536 * q < (s.objAt x.wid o).tlen → (∃ j, j < 16 ∧ covers (((s.objAt x.wid o).base + 65536 * q) / 4096 + j)) →
            SMap.look false (u.objAt x.wid o).verified q = false ∧ ∀ f ∈ u.frames, f.2 ≠ frameMark x.wid o q)

/-- R348, R349, R365: REVCTL of the world's device kernel publishes a revocation with the activations that run; once earlier
capability stores have performed, the sweep of each agent visits lines in order and clears the tags of stale heap
capabilities; after 2^21 cycles the recorded activations are pre-empted; with nothing left to sweep and none of them running,
it ends and EPOCH counts. That a sweep may pass over a line without a tag, and when revision entries and swap areas are
swept, is the model's choice (log entry 28), as is that an ignored write of the register has no unsupported-request status
(log entry 46). -/
def Obligations.RevocationSteps : Prop :=
  ∀ (s : State) (p v wr world line : Nat) (r : Revocation),
    let wid := (s.partAt p).wid
    let heard := s.accepts = true
    let publishes := v / 2 ^ 63 % 2 = 1 ∧ (s.worldAt wid).live = true ∧ (s.worldAt wid).rev = none
    let w := s.worldAt world
    let next := s.drained world r = true ∧ s.sweepable world line = true ∧ SMap.look 0 r.sweep (sweeper line) ≤ line
      ∧ (∀ k ∈ s.unswept world r, sweeper k = sweeper line → line ≤ k) ∧ (s.cohAt line).pend = none
    let running (k : Nat) : Prop := ∃ a, (k, a) ∈ r.acts ∧ (s.slotAt k).active = true ∧ (s.slotAt k).actid = a
    let finished := s.drained world r = true ∧ s.unswept world r = [] ∧ ∀ k, ¬ running k
    (¬ heard → exec (.revctl p v) s = .next { s with unsupported := true })
    ∧ (p < 32 → wr ≠ 256 + wid → exec (.registerWrite p wr 0x080 v) s = .next { s with unsupported := true })
    ∧ (p < 32 → exec (.registerWrite p (256 + wid) 0x080 v) s = exec (.revctl p v) s)
    ∧ (heard → ¬ publishes → exec (.revctl p v) s = .next { s with unsupported := false })
    ∧ (heard → publishes → Completes (.revctl p v) s fun u =>
        OnlyWorld wid { s with fresh := u.fresh, trace := u.trace, unsupported := false } u ∧ ∃ q,
        u.worldAt wid = { s.worldAt wid with rev := some q } ∧ q.at_ = s.now ∧ q.sweep = []
        ∧ ∀ k a, (k, a) ∈ q.acts ↔ k ∈ s.worldSlots wid ∧ a = (s.slotAt k).actid)
    ∧ (w.rev = none → Stays (.dredgerSweepVisit world line) s ∧ Stays (.revocationPreemptTimeout world) s
        ∧ Stays (.revocationComplete world) s)
    ∧ (w.rev = some r →
      (¬ next → Stays (.dredgerSweepVisit world line) s)
      ∧ (next → Completes (.dredgerSweepVisit world line) s fun u =>
          (u.worldAt world).rev = some { r with sweep := SMap.put 0 r.sweep (sweeper line) (line + 1) }
          ∧ (s.stale world (s.partOf world) (s.lineNow (64 * line)) = true → u.tagAt (64 * line) = false)
          ∧ (s.stale world (s.partOf world) (s.lineNow (64 * line)) = false → OnlyWorld world s u))
      ∧ (s.now < r.at_ + 2 ^ 21 → Stays (.revocationPreemptTimeout world) s)
      ∧ (r.at_ + 2 ^ 21 ≤ s.now → Completes (.revocationPreemptTimeout world) s fun u =>
          { u with cores := [] } = { s with cores := [] } ∧ ∀ k, (running k → (s.slotAt k).committed = none →
              u.slotAt k = { s.slotAt k with preempt := true })
            ∧ ((¬ running k ∨ (s.slotAt k).committed ≠ none) → u.slotAt k = s.slotAt k))
      ∧ (¬ finished → Stays (.revocationComplete world) s)
      ∧ (finished → Completes (.revocationComplete world) s fun u =>
          u.worldAt world = { w with rev := none, epoch := (w.epoch + 1) % 2 ^ 32 } ∧ MemoryKept s u
          ∧ ∀ t ∈ s.teams, t.2.swapped = true → (s.teamAt t.1).swapped = true → (s.gridAt t.2.grid).world = world →
              (s.teamAt t.1).grid = t.2.grid →
              ∀ y ∈ (u.teamAt t.1).savedTags, s.stale world (s.gridAt t.2.grid).part ((s.teamAt t.1).savedLine y.1 y.2) = false)
      ∧ (s.drained world r = true → ∀ k ∈ s.worldSlots world, ∀ o ∈ (s.slotAt k).out, ∀ e v, o.op = .line e v →
          o.stamp < r.stamp → 3 ≤ o.lvl))

/-! ## Stores on their way -/

/-- R320: the requests of two events that fall into one cycle, the second being the one that the outside has scheduled next (the
model's choice of what falls into one cycle, log entry 74): on the two ports of one home for one line the priority bit names
the first, and inverts; on port B the Towpath comes before the host. Both are served, in that order. A core's request goes to
port A of a home of its own die, and else, unless its L1, its stash or its die's proxy serves it, to port B. -/
def Sys2Proof.Parts.PortTies : Prop :=
  (∀ (s : State) (i : Instr) (a b : Arrival) (second : Bool) (inv : Option Nat), Arrival.of i = some a →
    let s0 : State := { s with script := s.script.tail }
    let t := match inv with
      | some h => s0.updSlice h fun x => { x with prio := !x.prio }
      | none => s0
    (s.rival a = none → exec i s = .next (s.serve a))
    ∧ (s.rival a = some (b, second, inv) →
        exec i s = .next (if second = true then (t.serve b).serve a else (t.serve a).serve b)))
  ∧ (∀ (s : State) (j : Instr) (is : List Instr) (a b : Arrival) (x y : Request),
    let first := (x.port = .host ∧ y.port = .towpath ∧ x.home = y.home)
    (s.script = [] → s.rival a = none) ∧ (s.request a = none → s.rival a = none)
    ∧ (s.script = j :: is → Arrival.of j = some b → s.request a = some x → s.request b = some y →
      (x.line = y.line → x.port = .own → y.port ≠ .own → s.rival a = some (b, (s.sliceAt x.home).prio, some x.home))
      ∧ (x.line = y.line → x.port ≠ .own → y.port = .own → s.rival a = some (b, !(s.sliceAt y.home).prio, some y.home))
      ∧ (first → s.rival a = some (b, true, none))
      ∧ (¬ first → x.line ≠ y.line ∨ (x.port = .own ↔ y.port = .own) → s.rival a = none)))
  ∧ ∀ (s : State) (core : Nat) (p : Place) (wr : Bool), p.kind = .dev →
    let c := s.cohAt (lineKey p.key)
    let served := c.owner = some core ∨ wr = false ∧ (s.coreAt core).inL1 (lineKey p.key) = true
    let proxied := if wr = true then c.proxy = .M ∨ c.proxy = .E else c.proxy ≠ .I
    let near := dieOf core = p.home / 64
    (served ∨ ¬ near ∧ proxied → s.coreRequest core p wr = none)
    ∧ (¬ served → near → s.coreRequest core p wr = some { line := lineKey p.key, home := p.home, port := .own })
    ∧ (¬ served → ¬ near → ¬ proxied →
        s.coreRequest core p wr = some { line := lineKey p.key, home := p.home, port := .towpath })

/-- R138, R269, R340, R357: a write in the queue that the firewall has come to refuse, since its issue, is dropped, and its
activation carries cause 0x22 with the element's address (how a late refusal is delivered is the model's choice, log entry
90). -/
def Sys2Proof.Parts.RefusedWrites : Prop :=
  ∀ (s : State) (key : Nat) (o : Out),
    let p := o.place
    let w := (s.slotAt key).world
    let u := s.refuseOut key o
    let a := s.slotAt key
    (s.refusesOut key o = true ↔ p.kind = .dev ∧ (SMap.look 0 s.frames (p.key / 4096) ≠ 0 ∨ s.chunkOwner p.key ≠ w
      ∨ s.inSpill w p.va = true))
    ∧ MemoryKept s u
    ∧ (u.slotAt key).out = (a.out.map fun x =>
        if x.seq = o.seq ∧ x.idx = o.idx ∧ x.place.key = p.key ∧ x.op = o.op then { x with lvl := 3 } else x)
    ∧ (a.actid ≠ o.actid → (u.slotAt key).owed = a.owed)
    ∧ (a.actid = o.actid → ∃ q : Owed, (u.slotAt key).owed = a.owed ++ [q] ∧ q.live = true ∧ q.dest = none ∧ q.iaddr = o.iaddr
        ∧ q.res = some (.fault (FaultInfo.atElem 0x22 o.op.elem)))

/-- R285, R290, R299, R300, R312 … R316, R318: a queued write that may go leaves the slot, to the home that its page has by
then; one to a scratchpad, the mint or memory without a home slice here performs at once (that these leave the queue by the
same event is the model's choice, log entry 13), as does one to a line of the core's own stash; one to a device line is sent
to the sharers, each of which answers; the home commits it when the answers are in, which changes the bytes and clears the tag
(R44); its acknowledgement takes it off the queue. -/
def Sys2Proof.Parts.WritesLeave : Prop :=
  ∀ (s : State) (core slot idx line k : Nat) (o : Out) (d : Pend),
    let key := 4 * core + slot
    let w := s.who key
    let pl := o.place
    let queue (u : State) : List Out := (u.slotAt key).out
    let sent (l : Nat) (post : State → Prop) : Prop := Completes (.writeUpdate core slot idx) s fun u =>
      ∃ h, { o with lvl := l, place := { pl with home := h } } ∈ queue u ∧ post u
    let pend (u : State) (q : Pend) : Prop := OnlyLine line s u ∧ u.cohAt line = { s.cohAt line with pend := some q }
    let c := s.coreAt k
    let lk := pl.key / 64
    let refused := s.refusesOut key o = true
    let root := s.targetOf w.rev pl.la = none
    let own := (s.cohAt lk).owner = some w.core ∨ pl.stash = true ∧ (s.cohAt lk).owner = none ∧ 0 < s.stashBanks w.core
    let data (u : State) : Prop := ∀ e v, o.op = .data e v → e.bits ∈ [4, 8, 16, 32, 64] → e.nib < 2 →
      u.elemAt pl.key e.nib e.bits = v.toNat % 2 ^ e.bits ∧ u.tagAt pl.key = false
    let wrote (u : State) : Prop := (∀ e v, o.op = .line e v → u.lineAt pl.key = v) ∧ data u
    let untied := s.rival (.store core slot idx) = none
    ((queue s)[idx]? = none → Stays (.writeUpdate core slot idx) s ∧ Stays (.storeAcknowledgement core slot idx) s)
    ∧ ((queue s)[idx]? = some o →
      ((o.isSluice = true ∨ s.outReady key o = false) → Stays (.writeUpdate core slot idx) s)
      ∧ (o.isSluice = false → s.outReady key o = true → untied →
        (refused → exec (.writeUpdate core slot idx) s = .next (s.refuseOut key o))
        ∧ (¬ refused → root →
          (pl.kind = .win ∨ pl.kind = .mint → sent 4 wrote)
          ∧ (pl.kind = .peer → sent 3 fun u => peerOwner pl.key = w.world → wrote u)
          ∧ (pl.kind = .host → sent 3 fun u => (∀ e v, o.op = .line e v → u.lineAt pl.key = { v with tag := false }) ∧ data u)
          ∧ (pl.kind = .dev → own → sent 3 wrote)
          ∧ (pl.kind = .dev → ¬ own → pl.stash = false → sent 1 fun u => ∃ q,
              (u.cohAt lk).pend = some q ∧ q.core = key / 4 ∧ q.slot = key % 4 ∧ q.seq = o.seq ∧ q.idx = o.idx ∧ q.op = o.op
              ∧ q.held = [] ∧ q.replies = [])))
      ∧ (o.lvl ≤ o.got → Stays (.storeAcknowledgement core slot idx) s)
      ∧ (o.got < o.lvl → Completes (.storeAcknowledgement core slot idx) s fun u => OnlySlot key s u ∧ u.slotAt key =
        { s.slotAt key with out := if 3 ≤ o.lvl then (queue s).eraseIdx idx
            else (queue s).map fun x => if x = o then { o with got := o.lvl } else x }))
    ∧ ((s.cohAt line).pend = none → Stays (.updateReceipt line k) s ∧ Stays (.updateReply line k) s ∧ Stays (.homeCommit line) s)
    ∧ ((s.cohAt line).pend = some d →
      (k ∉ d.sent → Stays (.updateReceipt line k) s)
      ∧ (k ∈ d.sent → Completes (.updateReceipt line k) s fun u => pend u { d with
          sent := d.sent.filter (· != k), held := if c.holds line = true then d.held ++ [k] else d.held
          replies := d.replies ++ [(k, if c.holds line = true then .applied
            else if c.notices.any (fun x => x.1 == line) = true then .gone else .none)] })
      ∧ ((∀ x ∈ d.replies, x.1 ≠ k) → Stays (.updateReply line k) s)
      ∧ (∀ l b r, d.replies = l ++ (k, b) :: r → (∀ x ∈ l, x.1 ≠ k) →
          let q := { d with replies := d.replies.filter (· != (k, b)) }
          let sl := if d.proxy then (s.cohAt line).slice ^^^ 64 else (s.cohAt line).slice
          let behind := b = .gone ∧ ∃ x ∈ c.notices, x.1 = line ∧ x.2 = false
          (behind → Stays (.updateReply line k) s)
          ∧ (¬ behind → b ≠ .none → Completes (.updateReply line k) s fun u => pend u q)
          ∧ (b = .none → (∀ g, (s.sliceAt sl).regionOf line = some g → g.k = 0) → Completes (.updateReply line k) s fun u => pend u q)
          ∧ (b = .none → ∀ g, (s.sliceAt sl).regionOf line = some g → g.k ≠ 0 → (s.sliceAt sl).dir.length < 8192 →
              Completes (.updateReply line k) s fun u =>
              u.cohAt line = { s.cohAt line with pend := some q } ∧ (u.sliceAt sl).dir = (s.sliceAt sl).dir.flatMap fun z =>
                if z = g then [{ g with k := g.k - 1, split := s.now },
                               { g with base := g.base + 2 ^ (g.k - 1), k := g.k - 1, split := s.now }] else [z]))
      ∧ ((d.sent ≠ [] ∨ d.replies ≠ []) → Stays (.homeCommit line) s)
      ∧ (d.sent = [] → d.replies = [] → 4 * d.core + d.slot = key →
          (∀ l r, queue s = l ++ o :: r → (∀ x ∈ l, ¬ (x.seq = d.seq ∧ x.idx = d.idx ∧ x.place.key / 64 = line ∧ x.op = d.op)) →
            o.seq = d.seq → o.idx = d.idx → pl.key / 64 = line → o.op = d.op →
            Completes (.homeCommit line) s fun u => (u.cohAt line).pend = none
              ∧ ({ o with lvl := 3 } ∈ queue u
                ∨ { o with lvl := 2 } ∈ queue u ∧ (u.cohAt line).snoop = some .invAck ∧ (s.cohAt line).proxy = .S)
              ∧ (refused → { o with lvl := 3 } ∈ queue u ∧ MemoryKept s u)
              ∧ (¬ refused → pl.kind = .dev → s.revs = [] → (dieOf (key / 4) = pl.home / 64 ∨ (s.cohAt line).owner ≠ none) →
                  wrote u)
              ∧ (¬ refused → pl.kind = .dev → s.revs = [] → dieOf (key / 4) ≠ pl.home / 64 → (s.cohAt line).owner = none →
                  (s.cohAt line).proxy = .M → d.proxy = true →
                  ∀ e v, o.op = .line e v → (u.cohAt line).pcopy = v ∧ u.lineAt pl.key = s.lineAt pl.key))))
    ∧ ((s.cohAt line).snoop ≠ some .invAck → Stays (.proxyInvalidation line) s)
    ∧ ((s.cohAt line).snoop = some .invAck → Completes (.proxyInvalidation line) s fun u =>
        let q := u.cohAt line
        q.snoop = none ∧ q.proxy = .I ∧ q.home = .I ∧ q.inval = []
        ∧ ∀ x ∈ (s.cohAt line).inval, x.2.1 < 4 → ∀ y ∈ (u.slotAt (4 * x.1 + x.2.1)).out,
            y.seq = x.2.2.1 → lineKey y.place.key = line → y.lvl ≠ 2)

/-- R299, R300, R312 … R316, R320: how stores leave their queue, meet at their home, are refused and commit. -/
def Obligations.StorePath : Prop :=
  Sys2Proof.Parts.PortTies ∧ Sys2Proof.Parts.RefusedWrites ∧ Sys2Proof.Parts.WritesLeave

/-! ## Caches, directories and the two dies -/

/-- R285, R313, R315 … R318: regions merge with their siblings, and the oldest entry of a full directory goes with every
copy in its region; an eviction leaves an L1 or a stash and its notice goes to the home and back, behind what the channel
carried before it; a stash takes a line of a stash page that a load of its core asks for and no stash owns, and an access by
another agent uses its entry. -/
def Obligations.RegionsAndEvictions : Prop :=
  ∀ (s : State) (sl n line k : Nat) (a b : Region) (p : Place),
    let dir := (s.sliceAt sl).dir
    let mask (r : Region) : List Nat := s.regionMask (sl / 64) r
    let pairs (x : Region) : Prop := x.k = a.k ∧ a.k < 10 ∧ a.base % 2 ^ (a.k + 1) = 0 ∧ x.base = a.base + 2 ^ a.k
      ∧ a.split + 65536 ≤ s.now ∧ x.split + 65536 ≤ s.now ∧ mask a = mask x
      ∧ ∀ q ∈ s.coh, q.2.pend = none ∨ a.has q.1 = false ∧ x.has q.1 = false
    let c := s.coreAt k
    let held := c.inStash line = true
    let cached : Prop := ∃ x ∈ c.l1, ∃ l ∈ x.2, l.key = line ∧ l.pin = none
    let leaves (u : State) : Prop := (u.coreAt k).notices = c.notices ++ [(line, false)] ∧ (∀ j, j ≠ k → u.coreAt j = s.coreAt j)
    let behind (z : Bool) : Prop := ∃ d, (s.cohAt line).pend = some d ∧
      if z then k ∈ d.sent else ∃ x ∈ d.replies, x.1 = k ∧ x.2 ≠ .gone
    (dir[n]? = none → Stays (.regionMerge sl n) s)
    ∧ (dir[n]? = some a → (∀ x ∈ dir, ¬ pairs x) → Stays (.regionMerge sl n) s)
    ∧ (dir[n]? = some a → ∀ l r, dir = l ++ b :: r → (∀ x ∈ l, ¬ pairs x) → pairs b →
        Completes (.regionMerge sl n) s fun u => (u.sliceAt sl).dir = (dir.filter (· != b)).map fun q =>
          if q = a then { a with k := a.k + 1, used := max a.used b.used } else q)
    ∧ (dir.length < 8192 → Stays (.directoryEntryEviction sl) s)
    ∧ (8192 ≤ dir.length → oldestRegion dir = some a → Completes (.directoryEntryEviction sl) s fun u =>
        (u.sliceAt sl).dir = dir.filter (· != a) ∧ (∀ x ∈ dir, a.used ≤ x.used)
        ∧ ∀ j ∈ mask a, (∀ i, ∀ l ∈ SMap.look [] (u.coreAt j).l1 i, a.has l.key = true → l.pin ≠ none ∧ l.valid = false)
            ∧ ∀ e ∈ (u.coreAt j).stash, a.has e.key = false)
    ∧ (held → Completes (.evictionNotice line k) s fun u => leaves u ∧ (u.cohAt line).owner = none
        ∧ (u.coreAt k).stash = c.stash.filter fun e => e.key != line)
    ∧ (¬ held → cached → Completes (.evictionNotice line k) s fun u => leaves u ∧ u = { s with cores := u.cores }
        ∧ ∀ i, ∀ l ∈ SMap.look [] (u.coreAt k).l1 i, l.key = line → l.pin ≠ none)
    ∧ (¬ held → ¬ cached → Stays (.evictionNotice line k) s)
    ∧ ((∀ x ∈ c.notices, x.1 ≠ line) → Stays (.evictionAcknowledgement line k) s)
    ∧ (∀ l r z, c.notices = l ++ (line, z) :: r → (∀ x ∈ l, x.1 ≠ line) →
        (behind z → Stays (.evictionAcknowledgement line k) s)
        ∧ (¬ behind z → Completes (.evictionAcknowledgement line k) s fun u => OnlyCore k s u ∧ u.coreAt k =
          { c with notices := l ++ if z then r else (line, true) :: r }))
    ∧ ((∀ j, j / 16 = n → s.asksStash line j = none) → Stays (.stashFill line n) s)
    ∧ (k / 16 = n → s.asksStash line k = some p → (∀ j, j / 16 = n → j < k → s.asksStash line j = none) →
        (p.kind = .dev ∧ lineKey p.key = line ∧ p.stash = true ∧ (s.cohAt line).owner = none ∧ 0 < s.stashBanks k
          ∧ ∃ j o, j < 4 ∧ o ∈ (s.slotAt (4 * k + j)).owed ∧ o.res = none)
        ∧ (c.inStash line = false → Completes (.stashFill line n) s fun u =>
            (u.cohAt line).owner = some k ∧ (u.cohAt line).proxy = .I ∧ (u.cohAt line).host = .I
            ∧ (u.coreAt k).inStash line = true))
    ∧ ((s.cohAt line).owner = none → Stays (.stashForwardedAccess line) s)
    ∧ ((s.cohAt line).owner = some k → Completes (.stashForwardedAccess line) s fun u => OnlyCore k s u
        ∧ ∀ e l r, c.stash = l ++ e :: r → e.key = line → (∀ x ∈ l, x.key ≠ line) →
            (u.coreAt k).stash = e :: c.stash.filter fun x => x.key != line)

/-- R319 … R323: the transitions of a device line between its home and the other die's proxy: the requests and snoops that
may be sent, and what their grants, answers and write-backs leave at both; a dirty line goes home with its tag. A grant of M
leaves no copy on the home's die and none of the host. That a modified copy of the host is recalled before a load's grant, and
that the grant is then S, as the host held the line when the request came, is the model's choice (log entry 93). -/
def Obligations.DieOwnership : Prop :=
  ∀ (s : State) (line key : Nat) (o : Out),
    let c := s.cohAt line
    let mem := s.lineAt (64 * line)
    let bytes (u : State) (v : CapReg) : Prop := u.lineAt (64 * line) = v
    let open_ := c.proxy = .I ∧ c.req = none ∧ c.wback = none
    let wanted := (s.proxyWrite line).isSome = true
    let free := c.snoop = none ∧ c.pend = none ∧ c.owner = none
    let sole := (s.holders (c.slice / 64) line).isEmpty = true ∧ c.host = .I
    let sets (u : State) (f : LineCoh) : Prop := OnlyLine line s u ∧ u.cohAt line = f
    let becomes (u : State) (p h : Moesi) : Prop := (u.cohAt line).proxy = p ∧ (u.cohAt line).home = h
    let answered (u : State) : Prop := (u.cohAt line).snoop = none
    let granted (u : State) : Prop := (u.cohAt line).req = none
    let untied := s.rival (.grant line) = none
    let plain : Prop := s.refusesOut key o = false ∧ o.place.kind = .dev ∧ o.place.stash = false
      ∧ c.slice < 128 ∧ (s.rehome (s.who key) o.place).home = c.slice ∧ s.touchPage (s.who key) o.place.va = s
    (open_ → Completes (.readShared line) s fun u => sets u { c with req := some .shared })
    ∧ (¬ open_ → Stays (.readShared line) s)
    ∧ ((c.proxy = .S ∨ c.proxy = .O) → c.req = none → wanted → Completes (.upgrade line) s fun u => sets u { c with req := some .upgrade })
    ∧ (¬ ((c.proxy = .S ∨ c.proxy = .O) ∧ c.req = none ∧ wanted) → Stays (.upgrade line) s)
    ∧ (open_ → wanted → Completes (.readExclusive line) s fun u => sets u { c with req := some .exclusive })
    ∧ (¬ (open_ ∧ wanted) → Stays (.readExclusive line) s)
    ∧ (free → (c.home = .M ∨ c.home = .E) → Completes (.snoopRead line) s fun u => sets u { c with snoop := some .read })
    ∧ (¬ (free ∧ (c.home = .M ∨ c.home = .E)) → Stays (.snoopRead line) s)
    ∧ (free → (c.home = .M ∨ c.home = .E ∨ c.home = .O) → Completes (.snoopInvalidate line) s fun u =>
        sets u { c with snoop := some .inval })
    ∧ (¬ (free ∧ (c.home = .M ∨ c.home = .E ∨ c.home = .O)) → Stays (.snoopInvalidate line) s)
    ∧ ((¬ free ∨ c.req = none) → Stays (.grant line) s)
    ∧ (free → c.req = some .shared → c.proxy = .I → untied →
        (sole → Completes (.grant line) s fun u => becomes u .E .E ∧ granted u ∧ (u.cohAt line).pcopy = mem)
        ∧ (¬ sole → Completes (.grant line) s fun u => becomes u .S .S ∧ granted u ∧ (u.cohAt line).pcopy = mem))
    ∧ (free → c.req = some .shared → c.proxy ≠ .I → untied →
        Completes (.grant line) s fun u => u.cohAt line = { c with req := none } ∧ MemoryKept s u)
    ∧ (free → (c.req = some .upgrade ∨ c.req = some .exclusive) → untied →
        (s.proxyWrite line = none → Completes (.grant line) s fun u => sets u { c with req := none })
        ∧ (s.proxyWrite line = some (key, o) →
            exec (.grant line) s = .next ((s.updCoh line fun x => { x with req := none }).sendOut key o)
            ∧ (plain → c.wback = none → Completes (.grant line) s fun u =>
                becomes u .M (if c.proxy = .M then c.home else .M) ∧ granted u ∧ bytes u mem ∧ (u.cohAt line).pend ≠ none
                ∧ ((u.cohAt line).pcopy = if c.proxy = .I then mem else c.pcopy) ∧ (u.cohAt line).host = .I
                ∧ (c.proxy ≠ .M → c.proxy ≠ .E → ∀ k, dieOf k = c.slice / 64 → (u.coreAt k).inL1 line = false))))
    ∧ (c.snoop = none → Stays (.snoopAnswer line) s)
    ∧ (c.snoop = some .read → c.wback = none →
        (c.proxy = .M → Completes (.snoopAnswer line) s fun u => becomes u .O .O ∧ answered u ∧ bytes u c.pcopy)
        ∧ (c.proxy = .E → Completes (.snoopAnswer line) s fun u => becomes u .S .S ∧ answered u ∧ bytes u mem))
    ∧ (c.snoop = some .inval ∨ c.snoop = some .invAck → c.wback = none →
        (c.proxy = .M ∨ c.proxy = .O → Completes (.snoopAnswer line) s fun u => becomes u .I .I ∧ answered u ∧ bytes u c.pcopy)
        ∧ (c.proxy = .E ∨ c.proxy = .S → Completes (.snoopAnswer line) s fun u => becomes u .I .I ∧ answered u ∧ bytes u mem))
    ∧ (c.snoop = some .invAck → c.wback = none → Completes (.snoopAnswer line) s fun u => (u.cohAt line).inval = [])
    ∧ (∀ v, c.wback = some v → c.proxy = .I →
        (∀ q, c.snoop = some q → Completes (.snoopAnswer line) s fun u =>
          becomes u .I .I ∧ answered u ∧ bytes u v ∧ (u.cohAt line).wback = none)
        ∧ Completes (.writeBack line) s fun u => becomes u .I .I ∧ bytes u v ∧ (u.cohAt line).wback = none)
    ∧ (c.wback = none →
        (c.pend ≠ none ∨ c.proxy = .I → Stays (.writeBack line) s)
        ∧ (c.pend = none → c.proxy = .M ∨ c.proxy = .O → Completes (.writeBack line) s fun u =>
            becomes u .I c.home ∧ bytes u mem ∧ (u.cohAt line).wback = some c.pcopy)
        ∧ (c.pend = none → c.proxy = .E ∨ c.proxy = .S → Completes (.writeBack line) s fun u => becomes u .I .I ∧ bytes u mem))

/-! ## The host and the fabric -/

/-- R269, R309, R311, R314, R323, R340, R357, R363, R364, R375: an outside agent of a world reads the current bytes of the
world's own lines, once a write that the home is applying to the line has committed, and all ones of any other; its write
changes the bytes and clears the tag; a peer's access carries the tag (R45). A refused one, of another world's line, a spill
area or a write of a code frame, has an unsupported-request status. A stream acts for the world that it is bound to, world 0
included, and on one that is bound to none every access is refused. The host keeps a copy of what a CXL stream gave it, but
not of a line that a stash owns (R318), and a peer's access recalls it (R323). A run of a pair without a key, or with
something held before it, reaches nothing, and a device with nothing to boot takes no access. The accesses are those that
meet no request of the same cycle, whose order `PortTies` states. That a line with an error gives its bits as they are, with
no tag, is the model's choice (log entry 89). -/
def Obligations.OutsideAccesses : Prop :=
  ∀ (s : State) (stream path world line : Nat) (bs : List Byte),
    let c0 := s.cohAt line
    let t := s.finishPend line
    let c := t.cohAt line
    let bound := if 64 ≤ stream then 0 else match SMap.look none s.ports.streams stream with
      | some w => w
      | none => 0xFE
    let owned (w : Nat) (wr : Bool) : Prop := w = 0xFF ∨ w ≠ 0xFE ∧ 64 * line < 2 ^ 37 ∧ 64 * line % 2 ^ 36 < 0xFF8000000
      ∧ s.chunkOwner (64 * line) = w ∧ (wr = true → SMap.look 0 s.frames (line / 64) = 0) ∧ s.spillLine line = false
    let settled := c.snoop = none ∧ (c.wback = none ∨ c.proxy = .I)
    let now : CapReg := match c.wback with
      | some v => v
      | none => if c.owner = none ∧ c.proxy = .M then c.pcopy else t.lineAt (64 * line)
    let key := 256 * (path % 2) + world % 256
    let authentic := key ∈ s.ports.fkeys.keys ∧ SMap.look [] s.ports.resend (256 * path + world % 256) = []
    let wrote (u : State) : Prop := u.unsupported = false ∧ u.tagAt (64 * line) = false
      ∧ ∀ j b, bs[j]? = some b → j < 64 → u.byte (64 * line + j) = b
    let current := (List.range 64).map fun j => BitVec.ofNat 8 (now.bits.toNat / 2 ^ (8 * j))
    let keeps := 32 ≤ stream ∧ stream < 64 ∧ c0.owner = none
    let recalled := if c.host = .M then .I else c.host
    let quiet := t.revs = []
    let meets (a : Arrival) : Prop := s.rival a ≠ none
    (s.accepts = false → Stays (.hostAccess stream line false bs) s ∧ Stays (.hostAccess stream line true bs) s
      ∧ Stays (.peerAccess path world line false bs) s ∧ Stays (.peerAccess path world line true bs) s)
    ∧ (s.accepts = true →
      (¬ owned bound false → Completes (.hostAccess stream line false bs) s fun u =>
          u = { s with unsupported := true, reply := List.replicate 64 0xFF })
      ∧ (¬ owned bound true → Completes (.hostAccess stream line true bs) s fun u => u = { s with unsupported := true })
      ∧ (settled → owned bound false → ¬ meets (.host stream line false bs) →
          Completes (.hostAccess stream line false bs) s fun u => u.reply = current ∧ u.unsupported = false
          ∧ (keeps → c0.host = .I → (u.cohAt line).host = .S)
          ∧ (keeps → c0.host ≠ .I → (u.cohAt line).host = c0.host)
          ∧ (¬ keeps → (u.cohAt line).host = recalled))
      ∧ (settled → owned bound true → quiet → bs ≠ [] → ¬ meets (.host stream line true bs) →
          Completes (.hostAccess stream line true bs) s fun u => wrote u
          ∧ (u.cohAt line).host = if keeps then .M else .I)
      ∧ (¬ authentic → Stays (.peerAccess path world line false bs) s ∧ Stays (.peerAccess path world line true bs) s)
      ∧ (authentic → ¬ owned world false → Completes (.peerAccess path world line false bs) s fun u =>
          u = { s with unsupported := true, reply := List.replicate 64 0xFF })
      ∧ (authentic → ¬ owned world true → Completes (.peerAccess path world line true bs) s fun u =>
          u = { s with unsupported := true })
      ∧ (authentic → settled → owned world false → ¬ meets (.peer path world line false bs) →
          Completes (.peerAccess path world line false bs) s fun u => u.unsupported = false
          ∧ u.reply = current ++ [if now.tag = true ∧ t.lineErrors line = [] then 1 else 0]
          ∧ (u.cohAt line).host = recalled)
      ∧ (authentic → settled → owned world true → quiet → bs ≠ [] → bs.length ≠ 65 →
          ¬ meets (.peer path world line true bs) →
          Completes (.peerAccess path world line true bs) s fun u => wrote u ∧ (u.cohAt line).host = .I)
      ∧ (authentic → settled → owned world true → quiet → bs.length = 65 → ¬ meets (.peer path world line true bs) →
          Completes (.peerAccess path world line true bs) s fun u => u.unsupported = false ∧ u.lineAt (64 * line) =
            { bits := BitVec.ofNat 512 (leNum (bs.take 64)), tag := (bs.getD 64 0).toNat % 2 == 1 }))
    ∧ Completes (.backInvalidation line) s (fun u => OnlyLine line s u ∧ u.cohAt line = { c0 with host := .I })
    ∧ (line / 2 ^ 58 = 1 → c0.home = .M → Completes (.hostSnoop line) s fun u =>
        OnlyLine line s u ∧ u.cohAt line = { c0 with home := .S })
    ∧ (¬ (line / 2 ^ 58 = 1 ∧ c0.home = .M) → Stays (.hostSnoop line) s)

/-- R310, R311, R363, R364, R365: the markers of a flush round, behind what their path has to send again; its completion once
every path has answered; a path that fails leaves every round, which begins again on the others; the flushing reads of a host
release, one for each stream, whether a slot waits for them or a grid that completes; and the runs of a path: a run whose tag
fails and every later one of its path are sent again, in order, once the pair has a new key, while the pair's other paths go
on. A stream's keys bind it to a world. That a path's port is its number modulo 2, the longest run where the monitor has
set none, that a longer run is not sent, and how the operands name runs and grids are the model's choice (log entry 79), as
is the first key by FABRIC_REKEY (log entry 50). -/
def Obligations.FabricAndRounds : Prop :=
  ∀ (s : State) (core slot path port run stream k : Nat) (good : Bool) (n : Nat) (ns : List Nat),
    let p := s.ports
    let world := run % 256
    let flits := run / 256
    let pair := 256 * (path % 2) + world % 256
    let at_ := 256 * path + world % 256
    let clear (w : Nat) : Prop := SMap.look [] p.resend (256 * path + w % 256) = []
    let limit := let r := SMap.look 0 p.rl (path % 2); if r = 0 then 64 else r
    let usable := pair ∈ p.fkeys.keys ∧ flits ≤ limit ∧ path ∉ p.failed
    let stale := SMap.look false p.stale pair
    let wait := SMap.look [] p.resend at_
    let runs (post : Ports → Prop) : Prop := Completes (.fabricRun path run good) s fun u =>
      u = { s with ports := u.ports } ∧ post u.ports
    let delivers (q : Ports) (m : Nat) : Prop := SMap.look 0 q.delivered at_ = SMap.look 0 p.delivered at_ + m
      ∧ ∀ j, j ≠ at_ → SMap.look 0 q.delivered j = SMap.look 0 p.delivered j
    let keeps (q : Ports) (l : List Nat) : Prop := SMap.look [] q.resend at_ = l
      ∧ ∀ j, j ≠ at_ → SMap.look [] q.resend j = SMap.look [] p.resend j
    let key := 4 * core + slot
    let flushes : Prop := ∃ sc st, (s.slotAt key).stop = .hold (.release sc st) ∧ 9 ≤ sc
      ∧ s.releaseOk key (s.slotAt key).seq 6 st = true
      ∧ (s.hasPeers (s.who key) sc = false ∨ ∃ r ∈ p.rounds, r.of key = true ∧ r.done = true)
    let ends : Prop := s.gridEnds (core - 512) = true ∧ (s.gridAt (core - 512)).hostRelease = true
      ∧ (s.hasPeers (partWho (s.gridAt (core - 512)).world (s.gridAt (core - 512)).part) 9 = false
        ∨ ∃ r ∈ p.rounds, r.core = core ∧ r.slot = 0 ∧ r.done = true)
    let kp := 256 * port + world % 256
    let rekeys := s.accepts = true ∧ port < 2 ∧ (kp ∉ p.fkeys.keys ∨ SMap.look false p.stale kp = true)
    Completes (.flushMarker core path) s (fun u => u = { s with ports := { p with rounds := u.ports.rounds } }
      ∧ u.ports.rounds.length = p.rounds.length ∧ ∀ (j : Nat) (r : Round), p.rounds[j]? = some r →
        let marked := r.core = core ∧ path ∈ r.paths ∧ path ∉ r.got ∧ clear r.world
        (marked → u.ports.rounds[j]? = some { r with got := r.got ++ [path] }) ∧ (¬ marked → u.ports.rounds[j]? = some r))
    ∧ Completes (.flushRoundComplete core) s (fun u => u = { s with ports := { p with rounds := p.rounds.map fun r =>
        if r.core = core ∧ ∀ q ∈ r.paths, q ∈ r.got then { r with done := true } else r } })
    ∧ Completes (.pathFailure path) s (fun u => path ∈ u.ports.failed
        ∧ u = { s with ports := { p with failed := u.ports.failed, rounds := p.rounds.map fun r =>
            if path ∈ r.paths then { r with paths := r.paths.filter (· != path), got := [] } else r } })
    ∧ (core < 512 →
        (flushes → Completes (.hostFlushComplete core slot) s fun u =>
          OnlySlot key s u ∧ u.slotAt key = { s.slotAt key with hostDirty := (s.slotAt key).hostDirty.tail })
        ∧ (¬ flushes → Stays (.hostFlushComplete core slot) s))
    ∧ (512 ≤ core →
        (ends → Completes (.hostFlushComplete core slot) s fun u => u = { s with grids := u.grids }
          ∧ u.gridAt (core - 512) = { s.gridAt (core - 512) with dirty := (s.gridAt (core - 512)).dirty.tail }
          ∧ ∀ j, j ≠ core - 512 → u.gridAt j = s.gridAt j)
        ∧ (¬ ends → Stays (.hostFlushComplete core slot) s))
    ∧ (¬ usable → Stays (.fabricRun path run good) s)
    ∧ (flits = 0 → (wait = [] ∨ stale = true) → Stays (.fabricRun path run good) s)
    ∧ (usable → flits = 0 → stale = false → wait = n :: ns →
        (good = true → runs fun q => delivers q n ∧ keeps q ns)
        ∧ (good = false → runs fun q => q = { p with stale := q.stale } ∧ SMap.look false q.stale pair = true))
    ∧ (usable → flits ≠ 0 → good = true → wait = [] → runs fun q =>
        q = { p with delivered := q.delivered } ∧ delivers q flits)
    ∧ (usable → flits ≠ 0 → ¬ (good = true ∧ wait = []) → runs fun q =>
        q = { p with resend := q.resend, stale := q.stale } ∧ keeps q (wait ++ [flits])
        ∧ SMap.look false q.stale pair = (stale || !good))
    ∧ (¬ rekeys → Stays (.fabricRekey port world) s)
    ∧ (rekeys → Completes (.fabricRekey port world) s fun u =>
        u = { s with fresh := u.fresh, ports := { p with fkeys := u.ports.fkeys, stale := u.ports.stale } }
        ∧ SMap.look false u.ports.stale kp = false ∧ SMap.look 0 u.ports.fkeys kp ≠ 0
        ∧ ∀ q, q ≠ kp → SMap.look 0 u.ports.fkeys q = SMap.look 0 p.fkeys q
            ∧ SMap.look false u.ports.stale q = SMap.look false p.stale q)
    ∧ (64 ≤ stream ∨ s.accepts = false → Stays (.ideStreamKeyInstall stream world k) s)
    ∧ (stream < 64 → s.accepts = true → Completes (.ideStreamKeyInstall stream world k) s fun u =>
        u = { s with ports := { p with streams := u.ports.streams, skeys := u.ports.skeys } }
        ∧ SMap.look none u.ports.streams stream = some (world % 256) ∧ SMap.look 0 u.ports.skeys stream = k + 1)

/-- R340, R365, R366, R368 … R370, R375: ownership of a partition is a compare-and-set on GEN, a lease that runs out frees it;
the registers that only the owner writes, the ring's key and its synchronisation, moves of idle rings, and the registers of
the kernel and the monitor; anything else is dropped with an unsupported-request status, as everything is while no slot holds
a bundle that may boot. Of two writes of OWN in a cycle the host's comes first (what falls into one cycle is the model's
choice, log entry 74). The model's choices too: where the monitor sets a port's longest run (log entry 79), the low bits of
a base that are dropped, the status that answers a bad size and the number of each writer (log entry 44), and the
unsupported-request status of an ignored write (log entry 46). -/
def Sys2Proof.Parts.PartitionRegisters : Prop :=
  ∀ (s : State) (p m v wr off : Nat),
    let x := s.partAt p
    let late := x.mid ≠ 0 ∧ x.leaseAt + x.lease * 2 ^ 20 ≤ s.now
    let y : Part := if late then { x with mid := 0, lease := 0, gen := (x.gen + 1) % 2 ^ 16 } else x
    let on := s.accepts = true
    let becomes (u : State) (q : Part) : Prop := OnlyPart p { s with unsupported := false } u ∧ u.partAt p = q
    let drops (i : Instr) : Prop := exec i s = .next { s with unsupported := true }
    let master := on ∧ m ≠ 0 ∧ y.mid = m
    let kernel := on ∧ wr = 256 + x.wid
    let monitor := on ∧ wr = 1024
    let w64 : Word := BitVec.ofNat 64 v
    let idle := x.rhead = x.rtail
    let cqIdle := x.cqtail = x.cqhead ∧ x.cqwait = []
    let size := ∃ k, 4 ≤ k ∧ k ≤ 16 ∧ v % 2 ^ 64 = 2 ^ k
    let attached := on ∧ 1 ≤ m ∧ m < 16
    let alone := m ≠ 2 ∨ ∀ n w, n ≠ 2 → s.script.head? ≠ some (.own p n w)
    let matches_ := v / 2 ^ 32 % 2 ^ 16 = y.gen ∧ (y.mid = 0 ∨ y.mid = m)
    let k := (off - 0x100) / 16
    let old (a : SMap (BitVec 128)) (j : Nat) : Nat := (SMap.look 0 a j).toNat
    let low (z n : Nat) : BitVec 128 := BitVec.ofNat 128 (z / 2 ^ 64 * 2 ^ 64 + n % 2 ^ 64)
    let half (z n : Nat) : BitVec 128 := if off % 16 = 8 then BitVec.ofNat 128 (z % 2 ^ 64 + 2 ^ 64 * (v % 2 ^ 64)) else low z n
    (attached → alone → matches_ → Completes (.own p m v) s fun u => becomes u { y with
        mid := v / 2 ^ 48 % 2 ^ 8, lease := v % 2 ^ 32, leaseAt := s.now, gen := (y.gen + 1) % 2 ^ 16 })
    ∧ (attached → alone → ¬ matches_ → Completes (.own p m v) s fun u => becomes u y)
    ∧ (¬ attached → alone → drops (.own p m v))
    ∧ (∀ n w r, m = 2 → n ≠ 2 → s.script = .own p n w :: r → (∀ z t, n = 2 → r ≠ z :: t) →
        exec (.own p m v) s = .next ((({ s with script := r } : State).writeOwn p n w).writeOwn p m v))
    ∧ Completes (.ownershipLeaseExpiry p) s (fun u => OnlyPart p s u ∧ u.partAt p = y)
    ∧ (master → Completes (.rtail p m v) s fun u => becomes u { x with rtail := w64 })
    ∧ (master → Completes (.cqhead p m v) s fun u => becomes u { x with cqhead := w64 })
    ∧ (master → x.rst = .gap → x.expseq.toNat ≤ v → v < 2 ^ 64 → Completes (.rsync p m v) s fun u =>
        becomes u { x with expseq := w64, rst := .run })
    ∧ (master → ¬ (x.rst = .gap ∧ x.expseq.toNat ≤ v ∧ v < 2 ^ 64) → Completes (.rsync p m v) s fun u => becomes u x)
    ∧ (¬ master → drops (.rtail p m v) ∧ drops (.cqhead p m v) ∧ drops (.rsync p m v) ∧ drops (.ringRelocate p m off v))
    ∧ (master →
        (idle → Completes (.ringRelocate p m 0x008 v) s fun u => becomes u { x with rbase := v % 2 ^ 64 / 256 * 256 })
        ∧ (¬ idle → drops (.ringRelocate p m 0x008 v))
        ∧ (idle ∧ size → Completes (.ringRelocate p m 0x010 v) s fun u => becomes u { x with rsize := v % 2 ^ 64 })
        ∧ (¬ (idle ∧ size) → drops (.ringRelocate p m 0x010 v))
        ∧ (cqIdle → Completes (.ringRelocate p m 0x040 v) s fun u => becomes u { x with cqbase := v % 2 ^ 64 / 16 * 16 })
        ∧ (¬ cqIdle → drops (.ringRelocate p m 0x040 v))
        ∧ (cqIdle ∧ size → Completes (.ringRelocate p m 0x048 v) s fun u => becomes u { x with cqsize := v % 2 ^ 64 })
        ∧ (¬ (cqIdle ∧ size) → drops (.ringRelocate p m 0x048 v))
        ∧ (off ∉ [0x008, 0x010, 0x040, 0x048] → drops (.ringRelocate p m off v)))
    ∧ (on → Completes (.ringKeyInstall p v) s fun u => OnlyPart p s u ∧ u.partAt p =
        { x with rkey := v + 1, expseq := 0, rst := .run })
    ∧ (¬ on → Stays (.ringKeyInstall p v) s)
    ∧ (p < 32 → kernel → Completes (.registerWrite p wr 0x060 v) s fun u => becomes u
        { x with grant := BitVec.ofNat 64 (v / 2 ^ 6 % 2 ^ 51 * 64) })
    ∧ (p < 32 → kernel → Completes (.registerWrite p wr 0x068 v) s fun u => becomes u { x with gcount := w64 })
    ∧ (p < 32 → ¬ kernel → drops (.registerWrite p wr 0x060 v) ∧ drops (.registerWrite p wr 0x068 v))
    ∧ (p < 32 → off ∉ [0x060, 0x068, 0x070, 0x078, 0x080, 0x088] → ¬ (monitor ∧ 0x100 ≤ off ∧ off < 0x300 ∧ off % 8 = 0) → drops (.registerWrite p wr off v))
    ∧ (p < 32 → monitor → 0x100 ≤ off → off < 0x200 → off % 8 = 0 → Completes (.registerWrite p wr off v) s fun u => becomes u
        { x with slset := SMap.put 0 x.slset k (half (old x.slset k) v) })
    ∧ (p < 32 → monitor → 0x200 ≤ off → off < 0x300 → off % 8 = 0 → Completes (.registerWrite p wr off v) s fun u => becomes u
        { x with stripe := SMap.put 0 x.stripe (k - 16) (half (old x.stripe (k - 16)) (v % 16)) })
    ∧ (32 ≤ p → ¬ monitor → drops (.registerWrite p wr off v))
    ∧ (32 ≤ p → monitor → Completes (.registerWrite p wr off v) s fun u =>
        u = { s with unsupported := false, ports := { s.ports with rl := u.ports.rl } }
        ∧ ∀ j, SMap.look 0 u.ports.rl j = if p < 34 ∧ 1 ≤ v ∧ v ≤ 64 ∧ j = p - 32 then v else SMap.look 0 s.ports.rl j)

/-- R345, R367, R368, R370: an entry whose TAG fails, or an old one, is skipped and counted; a gap stops the ring; the expected
one is taken, and rejected with a completion entry where its fields or its record are bad; it reads the grants that it names.
The first grid of a world has the view of its root block as c1 (R345), where its entry names a grant for it and that line holds
no capability (the model's reading, log entry 81). The oldest completion entry
is written while the queue has room. That without a key no TAG verifies, and that a grant or record line which cannot be read
gives CODE 2, is the model's choice (log entry 29). -/
def Sys2Proof.Parts.CommandsAndCompletions : Prop :=
  ∀ (s : State) (p : Nat) (e : BitVec 128) (es : List (BitVec 128)),
    let x := s.partAt p
    let c := s.commandAt x x.rhead.toNat
    let ready := s.accepts = true ∧ x.rst = .run ∧ x.rhead ≠ x.rtail
    let good := x.rkey ≠ 0 ∧ Config.gcmTag x.rkey (c.seq.toNat * 2 ^ 32 + p) c.body = c.tag
    let taken : Part := { x with rhead := x.rhead + 1, expseq := c.seq + 1, rst := if c.seq + 1 = 0 then .rekey else .run }
    let rejects (code : Nat) : Prop := Completes (.launchCommand p) s fun u => OnlyPart p { s with touch := u.touch } u ∧ u.partAt p =
      { taken with cqwait := x.cqwait ++ [BitVec.ofNat 128 (c.seq.toNat + 2 ^ 64 * code)] }
    let at_ := memKey .host (x.cqbase + 16 * (x.cqtail.toNat % x.cqsize))
    (¬ ready → Stays (.launchCommand p) s)
    ∧ (ready → (¬ good ∨ c.seq.toNat < x.expseq.toNat) → Completes (.launchCommand p) s fun u =>
        u.partAt p = { x with rhead := x.rhead + 1 } ∧ u.counter 3 p 3 = s.counter 3 p 3 + 1 ∧ MemoryKept s u ∧ u.grids = s.grids)
    ∧ (ready → good → x.expseq.toNat < c.seq.toNat → Completes (.launchCommand p) s fun u => OnlyPart p s u ∧ u.partAt p = { x with rst := .gap })
    ∧ (ready → good → c.seq = x.expseq →
        let named : Rec := { data := c.rec_, caps := [] }
        let idx (i : Nat) : Nat := c.grantIdx (if named.cmode = 1 ∧ i = named.ncap then 4 else i)
        let t0 := s.updPart p fun _ => taken
        let t := if c.fieldsOk x.gcount.toNat (named.cmode == 1) = true then ((List.range 4).map idx).foldl (fun a j => a.touchGrant p j) t0
          else t0
        let first (r0 : Rec) : Prop := (s.worldAt x.wid).begun = false ∧ r0.ncap ≠ 0 ∧ c.grantIdx 0 ≠ 0xFFFFFFFF ∧ (r0.cap 1).tag = false
        (c.fieldsOk x.gcount.toNat (named.cmode == 1) = false → t.commandRec p c = none)
        ∧
        (t.commandRec p c = none → rejects 2)
        ∧ ∀ r0, t.commandRec p c = some r0 →
          let r : Rec := if first r0 then { r0 with caps := (s.worldAt x.wid).rootView :: r0.caps.tail } else r0
          let code := t.recordCode x.wid 0 true 0 0 Rec.empty r
          (code ≠ 0 → code < 256 → rejects code)
          ∧ (code = 0 → (64 ≤ x.queue.length ∨ t.windowsOverlap p r = true) → rejects 1)
          ∧ (code = 0 → x.queue.length < 64 → t.windowsOverlap p r = false → Completes (.launchCommand p) s fun u =>
              ∃ g, u.partAt p = { taken with queue := x.queue ++ [g] } ∧ (u.gridAt g).record = r ∧ (u.gridAt g).st = .queued
                ∧ (u.gridAt g).seq = some c.seq ∧ (u.gridAt g).part = p ∧ (u.gridAt g).world = x.wid
                ∧ (u.worldAt x.wid).begun = true))
    ∧ (x.cqwait = [] → Stays (.completionEntry p) s)
    ∧ (x.cqwait = e :: es → (x.cqtail - x.cqhead).toNat = x.cqsize → Stays (.completionEntry p) s)
    ∧ (x.cqwait = e :: es → (x.cqtail - x.cqhead).toNat ≠ x.cqsize → Completes (.completionEntry p) s fun u =>
        u.partAt p = { x with cqwait := es, cqtail := x.cqtail + 1 }
        ∧ (∀ j, j < 16 → u.byte (at_ + j) = BitVec.ofNat 8 (e.toNat / 2 ^ (8 * j)))
        ∧ ∀ k, (k < at_ ∨ at_ + 16 ≤ k) → u.byte k = s.byte k)

/-- R365 … R370: the control block, the command ring and the completion queue. -/
def Obligations.HostPort : Prop := Sys2Proof.Parts.PartitionRegisters ∧ Sys2Proof.Parts.CommandsAndCompletions

/-! ## The monitor -/

/-- R242, R338, R339, R341, R365: a partition without a world is reset by PRST of the monitor, which leaves its cores as at
reset, their cycle counters at 0 with its other counters, its scratchpads zero and its queue empty; the end of the reset
leaves what failed its test out of service; and a partition goes to a world when none has driven it since its last reset, or
the same one with the same masks, and its masks are free; PMASK of the world follows. The model's choices:
PRST carries out steps 1 to 3 at its write and the event that ends the test says what failed (log entry 20), the event of an
owner change carries the masks (log entry 21), and an ignored write has no unsupported-request status (log entry 46). -/
def Obligations.PartitionResets : Prop :=
  ∀ (s : State) (p wr v : Nat) (bad badSl : List Nat),
    let x := s.partAt p
    let heard := s.accepts = true
    let mine (c : Nat) : Prop := c < 512 ∧ x.cl / 2 ^ (c / 16) % 2 = 1
    let slices := (List.range 128).filter fun k => x.sl / 2 ^ k % 2 == 1
    let w := v % 2 ^ 8
    let cl := v / 2 ^ 8 % 2 ^ 32
    let sl := v / 2 ^ 40 % 2 ^ 128
    let ifs := v / 2 ^ 168 % 2 ^ 16
    let fl := v / 2 ^ 184 % 2 ^ 16
    let apart : Prop := ∀ q ∈ s.parts, q.1 = p ∨ q.2.cl &&& cl = 0 ∧ q.2.sl &&& sl = 0 ∧ q.2.ifs &&& ifs = 0 ∧ q.2.fl &&& fl = 0
    let same := x.lastWid = w ∧ x.cl = cl ∧ x.sl = sl ∧ x.ifs = ifs ∧ x.fl = fl
    let takes := x.wid = 0xFE ∧ x.prstgo = false ∧ (x.lastWid = 0xFE ∨ same) ∧ apart
    let others (u : State) : Prop := ∀ k, k ≠ p → u.partAt k = s.partAt k
    let masked (u : State) (n : Nat) : Prop := (s.worldAt n).live = true → p < 32 →
      ((u.worldAt n).pmask / 2 ^ p % 2 = 1 ↔ (u.partAt p).wid = n)
    (¬ heard → exec (.prst p) s = .next { s with unsupported := true })
    ∧ (p < 32 → wr ≠ 1024 → exec (.registerWrite p wr 0x088 v) s = .next { s with unsupported := true })
    ∧ (p < 32 → heard → v % 2 = 0 → exec (.registerWrite p 1024 0x088 v) s = .next { s with unsupported := false })
    ∧ (p < 32 → v % 2 = 1 → exec (.registerWrite p 1024 0x088 v) s = exec (.prst p) s)
    ∧ (heard → (x.prstgo = true ∨ x.wid ≠ 0xFE) → exec (.prst p) s = .next { s with unsupported := false })
    ∧ (heard → x.prstgo = false → x.wid = 0xFE → Completes (.prst p) s fun u =>
        u.partAt p = { x with queue := [], prstgo := true }
        ∧ (∀ c, mine c → (∀ o, o < 0x40000 → u.byte (memKey (.spad c) o) = 0) ∧ u.counter 0 c 0 = 0
            ∧ (∀ n, n < 7 → n ≠ 0 → u.counter 0 c n = 0)
            ∧ ∃ still lost tick, u.coreAt c = { Core.reset with
                oos := (s.coreAt c).oos, stopped := still, lost := lost, lastTick := tick })
        ∧ (∀ c, ¬ mine c → u.coreAt c = s.coreAt c)
        ∧ (∀ k, k < 128 → x.sl / 2 ^ k % 2 = 1 → u.sliceAt k = { Slice.reset with oos := (s.sliceAt k).oos })
        ∧ (∀ g ∈ s.grids, g.2.part = p → (u.gridAt g.1).st = .done ∧ (u.gridAt g.1).leases = []))
    ∧ (x.prstgo = false → Stays (.partitionResetDone p bad badSl) s)
    ∧ (x.prstgo = true → Completes (.partitionResetDone p bad badSl) s fun u =>
        let cores := (List.range 512).filter fun c => x.cl / 2 ^ (c / 16) % 2 == 1
        u.partAt p = { x with
          prstgo := false, lastWid := 0xFE
          fco := (cores.filter bad.contains).length, fsl := (slices.filter badSl.contains).length }
        ∧ (∀ c, u.coreAt c = if c ∈ cores then { s.coreAt c with oos := bad.contains c } else s.coreAt c)
        ∧ ∀ k, u.sliceAt k = if k ∈ slices then { s.sliceAt k with oos := badSl.contains k } else s.sliceAt k)
    ∧ (32 ≤ p → Stays (.partitionOwnerChange p v) s)
    ∧ (p < 32 → w = 0xFE → Completes (.partitionOwnerChange p v) s fun u => others u ∧ u.partAt p = { x with wid := 0xFE }
        ∧ (x.wid ≠ 0xFE → masked u x.wid))
    ∧ (p < 32 → w ≠ 0xFE → ¬ takes → Stays (.partitionOwnerChange p v) s)
    ∧ (p < 32 → w ≠ 0xFE → takes → Completes (.partitionOwnerChange p v) s fun u => others u ∧ masked u w ∧ u.partAt p =
        { x with wid := w, lastWid := w, cl := cl, sl := sl, ifs := ifs, fl := fl })

/-- R338, R341, R342, R345, R352: a world is made while no world of its number lives, its policy, if any, is signed and its
addresses are aligned, its compartment table and its policy's body in memory of the monitor and its root block in its own
(that the monitor makes no other is the model's condition, log entry 25): its line of the world table describes it, its root
block holds the roots in the format that log entry 33 chooses; a destroyed one first pre-empts its activations, then loses its
partitions and chunks, which read as zeros, and its line, in two events by the model's choice (log entry 27). A chunk with a
live world's tables stays the monitor's (log entry 25). Compartment numbers are used once, and the table says what each is;
that compartment 0 may be given its handler again, and what a destroyed compartment's activations are of, is the model's
choice (log entry 26); a destroyed compartment's code is quarantined and no activation is of it any more. -/
def Sys2Proof.Parts.Worlds : Prop :=
  ∀ (s : State) (n cfg q entry chunk : Nat) (policy : List Byte) (priv : Bool),
    let w := s.worldAt n
    let field (lo : Nat) : Nat := cfg / 2 ^ lo % 2 ^ 64
    let aligned := field 448 % 64 = 0 ∧ field 256 % 64 = 0 ∧ field 192 % 4096 = 0 ∧ field 128 % 16 = 0 ∧ field 512 % 64 = 0
      ∧ field 576 % 64 = 0 ∧ field 576 + 65600 ≤ 2 ^ 57 ∧ field 640 % 64 = 0 ∧ field 640 + 1024 ≤ 2 ^ 57
    let lies (o a len : Nat) : Prop := ∀ x ∈ [a, a + len - 1], backed x = true ∧ s.chunkOwner x = o
    let ours (a len : Nat) : Prop := 0x4000 ≤ a ∧ lies 0xFF a len
    let placed := ours (field 128) (16 * (cfg / 2 ^ 112 % 2 ^ 16 + 1)) ∧ (policy = [] ∨ ours (field 448) 64)
      ∧ lies n (field 512) 1024
    let made := n < 0xFE ∧ s.fw.succeeded = true ∧ w.live = false ∧ aligned ∧ placed ∧ (policy = [] ∨ Config.signaturesOk policy = true)
    let roots := field 512
    let line (y : World) : Line := BitVec.ofNat 512 (y.troot % 2 ^ 64 + 2 ^ 64 * (if y.live then 1 else 0)
      + 2 ^ 80 * (y.pmask % 2 ^ 32) + 2 ^ 112 * (y.ncm % 2 ^ 16) + 2 ^ 128 * (y.ctb % 2 ^ 64) + 2 ^ 192 * (y.gtb % 2 ^ 64)
      + 2 ^ 256 * (y.flog % 2 ^ 64) + 2 ^ 448 * (y.pol % 2 ^ 64))
    let entry_ (z : Cmpt) : Nat := (if z.valid then 1 else 0) + (if z.priv then 2 else 0) + 2 ^ 64 * z.hnd.toNat
    let inTable (u : State) : Prop := ∀ j, j < 16 →
      u.byte (w.ctb + 16 * q + j) = BitVec.ofNat 8 (entry_ (SMap.look Cmpt.reset (u.worldAt n).cmpts q) / 2 ^ (8 * j))
    let lone (u : State) : Prop := ∀ k, k ≠ n → u.worldAt k = s.worldAt k
    let c := SMap.look Cmpt.reset w.cmpts q
    let newCmpt := w.live = true ∧ q ≤ w.ncm ∧ (c.used = false ∨ q = 0)
    let gone := n < 0xFE ∧ w.live = true ∧ s.worldSlots n = []
    let tables : Prop := ∃ x ∈ s.worlds, x.2.live = true
      ∧ ((∃ a ∈ [x.2.ctb, x.2.ctb + 16 * x.2.ncm + 15], a / 2 ^ 21 = chunk) ∨ x.2.policy ≠ none ∧ x.2.pol / 2 ^ 21 = chunk)
    let chunkOk := chunk ≠ 0 ∧ chunk < 2 ^ 16 ∧ chunk * 2 ^ 21 % 2 ^ 36 < 0xFF8000000 ∧ ¬ tables
    let zeros (u : State) (k : Nat) : Prop := ∀ o, o < 2 ^ 21 → u.byte (k * 2 ^ 21 + o) = 0 ∧ u.tagAt (k * 2 ^ 21 + o) = false
    (¬ made → Stays (.worldCreate n cfg policy) s)
    ∧ (made → Completes (.worldCreate n cfg policy) s fun u =>
        let y := u.worldAt n
        y.live = true ∧ y.troot = cfg % 2 ^ 64 ∧ y.gtb = cfg / 2 ^ 192 % 2 ^ 64 ∧ y.flog = cfg / 2 ^ 256 % 2 ^ 64
        ∧ y.ncm = cfg / 2 ^ 112 % 2 ^ 16 ∧ y.objs = [] ∧ y.nextObj = 1 ∧ y.rev = none
        ∧ (y.policy = none ↔ policy = [])
        ∧ (∀ k, (SMap.look Cmpt.reset y.cmpts k).valid = true ↔ k = 0) ∧ (SMap.look Cmpt.reset y.cmpts 0).priv = true
        ∧ y.ctb = field 128 ∧ y.pol = (if policy = [] then 0 else field 448) ∧ y.roots = roots
        ∧ (∀ b, y.policy = some b → b = BitVec.ofNat 512 (leNum (policy.take 64)))
        ∧ (∀ p, p < 32 → (y.pmask / 2 ^ p % 2 = 1 ↔ (s.partAt p).wid = n))
        ∧ u.lineAt (64 * n) = { bits := line y, tag := false }
        ∧ y.rootView = (rootCap (field 640) 16 0x20 [permLC]).reg
        ∧ (roots + 1024 < 2 ^ 64 → (∀ k, k < 16 → roots + 64 * k ≠ 64 * n) →
            (∀ k r, (rootBlock (field 576))[k]? = some r → u.lineAt (roots + 64 * k) = r.reg)
            ∧ ∀ k, 12 ≤ k → k < 16 → u.lineAt (roots + 64 * k) = CapReg.null))
    ∧ (w.live = false → Stays (.worldDestroy n) s)
    ∧ (w.live = true → s.worldSlots n ≠ [] → Completes (.worldDestroy n) s fun u => u.worldAt n = { w with dying := true }
        ∧ ∀ k ∈ s.worldSlots n, (s.slotAt k).committed = none → (u.slotAt k).preempt = true)
    ∧ (gone → Completes (.worldDestroy n) s fun u => u.worldAt n = World.reset
        ∧ u.lineAt (64 * n) = CapReg.null
        ∧ (∀ p, (s.partAt p).wid = n → (u.partAt p).wid = 0xFE ∧ (u.partAt p).queue = [] ∧ (u.partAt p).lastWid = 256 + n)
        ∧ (∀ p, (s.partAt p).wid ≠ n → u.partAt p = { s.partAt p with
            lastWid := if (s.partAt p).lastWid = n then 256 + n else (s.partAt p).lastWid })
        ∧ (∀ g, (s.gridAt g).world = n → (u.gridAt g).st = .done ∧ (u.gridAt g).leases = [])
        ∧ ∀ k ∈ s.chunksOf n, SMap.look 0xFE u.owners k = 0xFE ∧ (k < 2 ^ 16 → zeros u k))
    ∧ (¬ chunkOk → Stays (.chunkOwnerChange chunk n) s)
    ∧ (chunkOk → Completes (.chunkOwnerChange chunk n) s fun u => zeros u chunk
        ∧ SMap.look 0xFE u.owners chunk = n % 256
        ∧ (∀ k, k ≠ chunk → SMap.look 0xFE u.owners k = SMap.look 0xFE s.owners k)
        ∧ ∀ l, l / 2 ^ 15 = chunk → ∀ k, (u.coreAt k).inStash l = false)
    ∧ (¬ newCmpt → Stays (.compartmentCreate n q entry priv) s)
    ∧ (newCmpt → Completes (.compartmentCreate n q entry priv) s fun u => lone u ∧ inTable u ∧ u.worldAt n = { w with
        cmpts := SMap.put Cmpt.reset w.cmpts q
          { valid := true, used := true, priv := priv || q == 0, hnd := BitVec.ofNat 64 entry } })
    ∧ ((q = 0 ∨ c.valid = false) → Stays (.compartmentDestroy n q) s)
    ∧ (q ≠ 0 → c.valid = true → Completes (.compartmentDestroy n q) s fun u =>
        (SMap.look Cmpt.reset (u.worldAt n).cmpts q) = { c with valid := false } ∧ inTable u
        ∧ (∀ k ∈ s.worldSlots n, (u.slotAt k).cmpt ≠ q ∧ ∀ f ∈ (u.slotAt k).stack, f.cmpt ≠ q)
        ∧ ∀ o ∈ w.objs.keys, (s.objAt n o).cmpt = q → (u.objAt n o).quarantined = true)

/-- R47, R228, R241, R242, R269: an uncorrectable error marks its line alone, and the entry copies of a revision that the line
holds in its spill area (that the model keeps the header lines itself is its choice, log entry 89); one in a core's system
area takes the core out of service and loses its records (that it loses them all is the model's choice, log entry 63); a refresh at the first cycle of a period stores the copies that
other worlds read. -/
def Sys2Proof.Parts.ErrorsAndRefresh : Prop :=
  ∀ (s : State) (line w : Nat) (b : Line),
    let x := s.worldAt w
    let n := s.now / max 1024 (b.toNat / 2 ^ 448 % 2 ^ 64)
    let core := line / 2 ^ 58 - 512
    let system := 512 ≤ line / 2 ^ 58 ∧ line / 2 ^ 58 < 1024 ∧ 0x2C000 ≤ 64 * line % 2 ^ 64
    let spoiled (y : Revision) : List RevEntry :=
      let hit (i j : Nat) : Bool := (s.gridAt y.grid).leases.any fun l =>
        let va := y.headerAt + 64 * (y.regions.length + 2) + 192 * i + 64 * j
        l.1 == va / 4096 && (l.2.at_ va).2 / 64 == line
      y.entries.zipIdx.map fun x => { x.1 with
        aerr := if hit x.2 1 then List.range 128 else x.1.aerr, cerr := if hit x.2 2 then List.range 128 else x.1.cerr }
    (¬ system → Completes (.uncorrectableMemoryError line) s fun u => u = { s with poison := u.poison, revs := u.revs }
      ∧ (u.revs = s.revs.map fun x => (x.1, if x.2.st = .merged then x.2 else { x.2 with entries := spoiled x.2 }))
      ∧ ∀ k, SMap.look false u.poison k = (k / 128 == line || SMap.look false s.poison k))
    ∧ (system → (s.coreAt core).oos = true → Stays (.uncorrectableMemoryError line) s)
    ∧ (system → (s.coreAt core).oos = false → Completes (.uncorrectableMemoryError line) s fun u =>
        (u.coreAt core).oos = true
        ∧ (∀ k, k < 4 → (s.slotAt (4 * core + k)).committed = none → (u.slotAt (4 * core + k)).active = false)
        ∧ (∀ k, k < 4 → (s.slotAt (4 * core + k)).active = true → (s.slotAt (4 * core + k)).committed ≠ none →
            ∃ f, (u.slotAt (4 * core + k)).stop = .terminal f)
        ∧ ∀ t, (s.coreAt core).team = some t → let c := (u.teamAt t).core (s.coreAt core).tcore
            c.ring = [] ∧ c.deque = [] ∧ c.held = [])
    ∧ (x.policy = none → Stays (.counterRefresh w) s)
    ∧ (x.policy = some b → x.period = n → Stays (.counterRefresh w) s)
    ∧ (x.policy = some b → x.period ≠ n → Completes (.counterRefresh w) s fun u => OnlyWorld w s u
        ∧ u.worldAt w = { x with period := n, copies := (u.worldAt w).copies }
        ∧ ∀ kind unit c, kind < 4 → unit < counterUnits kind → s.counterOwner kind unit = w → c < 7 →
            counterAssigned kind c = true →
            SMap.look 0 (u.worldAt w).copies (perfKey kind unit c) = s.shaped b kind unit c)

/-- R47, R228, R338 … R345: worlds, compartments, chunks, errors of memory and counter copies. -/
def Obligations.WorldsAndErrors : Prop := Sys2Proof.Parts.Worlds ∧ Sys2Proof.Parts.ErrorsAndRefresh

/-! ## Starts, firmware and power -/

/-- R371 … R375: a start runs the pending slot on trial, else the active one, if it meets the fused minimum; it leaves no
activation, world, tag or partition; a warm one skips the bundle that is loaded, training at nearly the temperature of the
last and a link that was not reset, and a step it skips does not fail. A failed start counts for its slot, and the third
makes the other slot active; a trial that ends unattested falls back with a cold start; a complete attestation makes the
slot active and may raise the minimum. A bundle is valid when its signatures and each component's hash are. The model's
choices: where the header stands in a bundle's bytes (log entry 35), what a start keeps (log entry 37), the order of the
evidence (log entry 41), and that a fetch during a trial is ignored (log entry 67). -/
def Sys2Proof.Parts.StartsAndFirmware : Prop :=
  ∀ (s : State) (step addr len w : Nat) (nonce : List Byte),
    let f := s.fw
    let temp := Config.dieTemp s.fresh
    let power : Bool := decide (8 ≤ step)
    let n := if power then step - 8 else step
    let slot (b : Bool) : Bundle := if b then f.slotB else f.slotA
    let boots (b : Bool) : Prop := (slot b).valid = true ∧ f.minver ≤ (slot b).version
    let o := !f.active
    let trial := (slot o).pending = true ∧ boots o
    let stops (u : State) : Prop := u.worlds = [] ∧ u.parts = [] ∧ u.grids = [] ∧ u.teams = [] ∧ u.revs = []
      ∧ u.owners = State.reset.owners ∧ u.now = 0 ∧ (∀ k, u.slotAt k = Slot.reset)
      ∧ ∀ k, u.byte k = if k < 0x4000 then 0 else s.byte k
    let clean (u : State) : Prop := stops u ∧ u.tags = [] ∧ u.perf = []
    let near := temp ≤ f.trained + 10 ∧ f.trained ≤ temp + 10
    let runs (b cold t : Bool) (u : State) : Prop := clean u ∧
      let x : Bundle := { slot b with fails := 0 }
      let g : Firmware := { f with
        starts := f.starts + 1, succeeded := true, cold := cold, trial := t, linkReset := false, sram := x.hash
        trained := if cold = false ∧ near then f.trained else temp }
      u.fw = if b then { g with slotB := x } else { g with slotA := x }
    let fails (b cold : Bool) (u : State) : Prop := stops u ∧ u.fw.succeeded = false ∧ u.fw.trial = false
      ∧ u.fw.starts = f.starts + 1 ∧ u.fw.cold = cold
      ∧ ((slot b).fails < 2 → (u.fw.slot b).fails = (slot b).fails + 1 ∧ u.fw.active = f.active)
      ∧ (2 ≤ (slot b).fails → (u.fw.slot b).fails = 0 ∧ (u.fw.slot b).pending = false ∧ u.fw.active = !b)
    let warmCold := !f.succeeded
    let tried := if trial then o else f.active
    let cold := power || !f.succeeded
    let skips := cold = false ∧ (n = 2 ∧ f.sram = (slot tried).hash ∨ n = 3 ∧ near ∨ n = 4 ∧ f.linkReset = false)
    let image := Memory.getBytes s.mem (memKey .host addr) len
    let num (a k : Nat) : Nat := leNum ((image.drop a).take k)
    let start (i : Nat) : Nat := 128 + (List.range i).foldl (fun t j => t + num (8 + 4 * j) 4) 0
    let component (i : Nat) : List Byte := (image.drop (start i)).take (num (8 + 4 * i) 4)
    let hash (i : Nat) : BitVec 256 := BitVec.ofNat 256 (num (32 + 32 * i) 32)
    let valid : Bool := Config.signaturesOk image && (List.range 3).all fun i => sha3 (component i) == hash i
    let bundle : Bundle := { valid := valid, version := num 0 4, minbump := num 4 1 % 2 == 1, hash := sha3 image
                             parts := [hash 0, hash 1, hash 2], pending := valid, fails := 0 }
    let taken := f.minver ≤ bundle.version ∧ f.trial = false
    (trial → Completes .coldStart s (runs o true true) ∧ Completes .warmStart s (runs o warmCold true))
    ∧ (¬ trial → boots f.active → Completes .coldStart s (runs f.active true false)
        ∧ Completes .warmStart s (runs f.active warmCold false))
    ∧ (¬ trial → ¬ boots f.active → Completes .coldStart s (fails f.active true)
        ∧ Completes .warmStart s (fails f.active warmCold))
    ∧ ((n = 0 ∨ 6 < n ∨ skips) → Stays (.startFailure step) s)
    ∧ (1 ≤ n → n ≤ 6 → ¬ skips → Completes (.startFailure step) s fun u => fails tried cold u ∧ (n = 6 → clean u))
    ∧ (f.trial = false → Stays .trialExpiry s ∧ Stays .remoteAttestationComplete s)
    ∧ (f.trial = true → Completes .trialExpiry s fun u => stops u ∧ u.fw.trial = false
        ∧ (u.fw.slot o).pending = false
        ∧ (boots f.active → clean u ∧ u.fw.active = f.active ∧ u.fw.succeeded = true ∧ u.fw.cold = true
            ∧ (u.fw.slot o).fails = (slot o).fails + 1))
    ∧ (f.trial = true → Completes .remoteAttestationComplete s fun u => u = { s with fw := u.fw } ∧ u.fw.active = o
        ∧ u.fw.trial = false ∧ u.fw.slot o = { slot o with pending := false } ∧ u.fw.slot f.active = slot f.active
        ∧ u.fw.minver = if (slot o).minbump then max f.minver (slot o).version else f.minver)
    ∧ (¬ taken → Stays (.bundleFetch addr len) s)
    ∧ (taken → Completes (.bundleFetch addr len) s fun u => u = { s with
        fw := if f.active then { f with slotA := bundle } else { f with slotB := bundle } })
    ∧ Completes .hostLinkReset s (fun u => u = { s with fw := { f with linkReset := true } })
    ∧ (s.accepts = false → Stays (.attestationRequest w nonce) s)
    ∧ (s.accepts = true →
       let r := slot (if f.trial then o else f.active)
       let body := nonce ++ leBytes 32 Config.deviceHash.toNat ++ leBytes 4 r.version ++ r.parts.flatMap (fun h => leBytes 32 h.toNat)
         ++ leBytes 1 f.active.toNat ++ leBytes 4 f.minver ++ leBytes 8 f.starts ++ leBytes 1 f.cold.toNat
         ++ (match (s.worldAt w).policy with
             | some b => leBytes 32 (sha3 (leBytes 64 b.toNat)).toNat
             | none => [])
       Completes (.attestationRequest w nonce) s fun u => u = { s with fw := { f with evidence := body ++ Config.evidenceSignature body } })

/-- R292, R293, R376: an L1 way pair gates unless it holds a pinned line; a scratchpad bank gates while the core serves no
team, and wakes holding zeros, and a stash bank when its entries have left; a slice's way pair gates when its lines have
left, unless something is under way for one. A stopped clock costs its core's timers nothing, nor the windows of its
team. The numbers of the units, and that a scale of 0 stops a clock, are the model's choice (log entries 38 and 39). -/
def Sys2Proof.Parts.PowerAndClocks : Prop :=
  ∀ (s : State) (c n sc : Nat),
    let k := s.coreAt c
    let pinned : Prop := ∃ x ∈ k.l1, ∃ l ∈ x.2, l.way / 2 = n ∧ l.pin ≠ none
    let b := n - 16
    let bank := 16 ≤ n ∧ n < 32
    let j := c - 512
    let slice := s.sliceAt j
    let inSlice := 512 ≤ c ∧ c < 640
    let pair (x : Nat × Nat) : Prop := x.1 % 16 / 2 = n
    let busy (l : Nat) : Prop := (s.cohAt l).pend ≠ none ∨ (s.cohAt l).snoop ≠ none ∨ (s.cohAt l).wback ≠ none
    let stuck := n ∈ slice.gated ∨ ∃ x ∈ slice.ways, pair x ∧ busy (x.2 - 1)
    let frozen (t : Nat) : Nat := (s.teamAt t).frozen.getD s.now
    (c < 512 → n < 4 → n ∉ k.gated → ¬ pinned → Completes (.powerGate c n) s fun u => OnlyCore c s u
        ∧ (u.coreAt c).gated = insertRising n k.gated
        ∧ (∀ i, SMap.look [] (u.coreAt c).l1 i = (SMap.look [] k.l1 i).filter fun l => l.way / 2 != n)
        ∧ ∀ x ∈ k.l1, ∀ l ∈ x.2, l.way / 2 = n → l.valid = true → (l.key, false) ∈ (u.coreAt c).notices)
    ∧ (c < 512 → n < 4 → (n ∈ k.gated ∨ pinned) → Completes (.powerGate c n) s fun u => OnlyCore c s u ∧ u.coreAt c = k)
    ∧ (c < 512 → bank → k.team = none → n ∉ k.gated → Completes (.powerGate c n) s fun u =>
        OnlyCore c s u ∧ u.coreAt c = { k with gated := insertRising n k.gated })
    ∧ (c < 512 → bank → (n ∈ k.gated ∨ s.bankUse c b = .named ∨ s.bankUse c b = .plane ∨ s.bankUse c b = .system) →
        Stays (.powerGate c n) s)
    ∧ (c < 512 → bank → s.bankUse c b = .stash → n ∉ k.gated → Completes (.powerGate c n) s fun u =>
        (u.coreAt c).gated = insertRising n k.gated ∧ (∀ i, i ≠ c → u.coreAt i = s.coreAt i)
        ∧ ∀ e ∈ (u.coreAt c).stash, (s.stashBankList c)[e.loc / 256]? ≠ some b)
    ∧ (c < 512 → (4 ≤ n ∧ n < 16 ∨ 32 ≤ n) → Stays (.powerGate c n) s)
    ∧ (640 ≤ c ∨ 512 ≤ c ∧ 8 ≤ n → Stays (.powerGate c n) s)
    ∧ (inSlice → n < 8 → stuck → Stays (.powerGate c n) s)
    ∧ (inSlice → n < 8 → ¬ stuck → Completes (.powerGate c n) s fun u => (u.sliceAt j).gated = insertRising n slice.gated
        ∧ ∀ x ∈ (u.sliceAt j).ways, pair x → x.2 = 0)
    ∧ (c < 512 → n ∉ k.gated → Stays (.unitWake c n) s)
    ∧ (c < 512 → n ∈ k.gated → Completes (.unitWake c n) s fun u => u.coreAt c = { k with gated := k.gated.filter (· != n) }
        ∧ (16 ≤ n → n < 32 → k.team = none → ∀ o, o < 0x4000 → u.byte (memKey (.spad c) (0x4000 * b + o)) = 0))
    ∧ (inSlice → Completes (.unitWake c n) s fun u =>
        u.sliceAt j = { slice with gated := slice.gated.filter (· != n) })
    ∧ (640 ≤ c → Stays (.unitWake c n) s)
    ∧ (c < 512 → Completes (.clockChange 0 c) s fun u => u.coreAt c = { k with stopped := some (k.stopped.getD s.now) }
        ∧ (∀ i, i ≠ c → u.coreAt i = s.coreAt i) ∧ MemoryKept s u
        ∧ (k.team = none → u.teams = s.teams)
        ∧ ∀ t, k.team = some t → u.teamAt t = { s.teamAt t with frozen := some (frozen t) })
    ∧ (512 ≤ c → Stays (.clockChange 0 c) s)
    ∧ (sc ≠ 0 → Completes (.clockChange sc c) s fun u => u.fw = { s.fw with clock := sc } ∧ MemoryKept s u
        ∧ (∀ i, i ≠ c ∨ 512 ≤ c → u.coreAt i = s.coreAt i)
        ∧ (c < 512 → k.stopped = none → u.coreAt c = k)
        ∧ (∀ t i, c < 512 → k.stopped = some t → i < 4 → (s.slotAt (4 * c + i)).active = true →
            let a := s.slotAt (4 * c + i)
            let d := s.now - t
            (u.coreAt c).stopped = none ∧ (u.coreAt c).lost = k.lost + d
            ∧ u.slotAt (4 * c + i) = { a with
                committed := a.committed.map (· + d), timer := a.timer.map (· + d)
                notBefore := a.notBefore + d, readySince := a.readySince + d })
        ∧ ∀ t, c < 512 → k.team = some t →
            let more := ∃ i ∈ (s.teamAt t).coreList, i ≠ c ∧ (s.coreAt i).stopped ≠ none
            (more → u.teamAt t = s.teamAt t)
            ∧ (¬ more → u.teamAt t = { s.teamAt t with frozen := none, st := (match (s.teamAt t).st with
                | .resident z => .resident (z + (s.now - frozen t))
                | .leaving z l => .leaving (z + (s.now - frozen t)) l
                | z => z) }))

/-- R292, R293, R371 … R376: starts, firmware, power gating and clocks. -/
def Obligations.StartsAndPower : Prop := Sys2Proof.Parts.StartsAndFirmware ∧ Sys2Proof.Parts.PowerAndClocks

/-! ## The whole machine -/

/-- R91, R176: an instruction with a false guard, other than a vector instruction, changes nothing but the program counter
and the loop count: no check, no access, no owing, no register. That an engine instruction waits for another slot's chain
all the same, but not for a full queue, is the model's choice (log entry 48). -/
def Obligations.FalseGuardDoesNothing : Prop :=
  ∀ (i : Instr) (s : State) (f : Fields) (g : Ctl), WellFormed i = true → encodeFields i = some f → ctl f = .ok g →
    s.sl.guard g = false → ¬ (0x60 ≤ f.op ∧ f.op ≤ 0x8B) → ¬ (0x53 ≤ f.op ∧ f.op ≤ 0x56) →
    let kept := 0x90 ≤ f.op ∧ f.op ≤ 0x9B ∧ ∃ k, s.core.engine.chain = some k ∧ k ≠ s.cur % 4
    (kept → Sys2Proof.Safety.Waits i s .chain) ∧ (¬ kept → ActsNot i s)

/-- R87, R89, R106, R332, R361: a step that issues runs the instruction that the twelve bytes at the slot's program counter
decode to; bytes that decode to none raise cause 0x01, and a fetch that faults raises its cause. The walks set A, those
before a fault too, and the lines enter the core's instruction cache. A page without its verified mark is waited for, for
which the slot's fetch counts as not made (the model's choice, log entry 34). Without an issue the step is the next event of
`script`, else one of the machine's own: that this list gives the order of the events is the model's choice (log entry 1). -/
def Obligations.StepRunsDecoded : Prop :=
  ∀ (s : State) (b : List Byte) (l : List CodeWord) (i : Instr) (e : DecodeError) (f : FaultInfo) (r : List Instr)
      (walked : List Nat),
    let t : State := { s with issuing := false }
    (s.issuing = true →
      (t.fetchWith s.cur = (.bytes b, l) → decode (wordOfBytes b) = .ok i → step s = exec i (t.fetchDone s.cur l))
      ∧ (t.fetchWith s.cur = (.bytes b, l) → decode (wordOfBytes b) = .error e →
          step s = .next ((t.fetchDone s.cur l).faultNow (FaultInfo.of 0x01)))
      ∧ (t.fetchWith s.cur = (.fault f walked, l) → step s = .next ((t.markEntries walked).faultNow f))
      ∧ (t.fetchWith s.cur = (.unverified, l) → step s = .next (t.updSl fun sl => { sl with fetched := false })))
    ∧ (s.issuing = false → s.script = i :: r → encode i = none → step s = exec i { s with script := r })
    ∧ (s.issuing = false → s.script = [] → step s = exec s.autoEvent s)

/-- R87, R88, R94 … R102: words of the spec's worked encodings, of every chapter, and what they decode to. -/
def Obligations.WorkedWords : Prop :=
  let word (a b c : Nat) : BitVec 96 := BitVec.ofNat 96 (a + 2 ^ 32 * b + 2 ^ 64 * c)
  let g : Ctl := { gp := 0, gn := false, s := false, dly := 0, ru := 0, yld := false, fs := false }
  let guarded_ : Ctl := { gp := 3, gn := true, s := true, dly := 2, ru := 0, yld := false, fs := false }
  let m (c : CReg) : MemOp := { c := c, x := 0, pack := .one, disp := 0 }
  let r (c : CReg) (x : XReg) : MemReg := { c := c, x := x, pack := .one }
  decode (word 0x0505724F 0x02466012 0x0001FFFF) = .ok (.ld guarded_ .s32 5 { c := 1, x := 6, pack := .two, disp := 0x1FFFF })
  ∧ decode (word 0x00000035 0 0xFFFFFFFD) = .ok (.br g 0xFFFFFFFD)
  ∧ decode (word 0x07000601 0x00002072 3) = .ok (.addImm g .z32 7 7 3)
  ∧ decode (word 0x0000003D 0 0x00100005) = .ok (.loopImmediate g 16 5)
  ∧ decode (word 0x1F00003A 0x00002052 0) = .ok (.callh g 31 5)
  ∧ decode (word 0x41000731 0x00002018 0) = .ok (.setpCompareImm g .z64 .ne 1 1 0)
  ∧ decode (word 0x05000041 0x02066016 0x01010D0D) = .ok (.csliceImmediate g 5 1 6 0x01010D0D)
  ∧ decode (word 0x03000874 0x04024014 8) = .ok (.vfmaVv g .f32 3 1 2 (.mode .rne))
  ∧ decode (word 0x0400097A 0x00004034 0x89) = .ok (.vcvt g .bf16 .f32 4 3 (.mode .rtz))
  ∧ decode (word 0x00000896 0x0A01A00C 0) = .ok (.mmb g 0 0 1 .b8 .b32)
  ∧ decode (word 0x080000A0 0x06046052 0x40) = .ok (.bcopyTemplate g 8 5 4 0x40)
  ∧ decode (word 0x000000B2 0x02076060 1) = .ok (.rdecImmediate g (r 6 7) 1)
  ∧ decode (word 0x010000B8 0x02006012 0) = .ok (.bpushX g 1 (m 1))
  ∧ decode (word 0x0A0000B5 0x06066052 0) = .ok (.forkWithRevisions g 10 5 6)
  ∧ decode (word 0x090000A9 0x02006042 0) = .ok (.swaitBlocking g 9 (m 4))
  ∧ decode (word 0x050000C1 0x0000E012 0) = .ok (.sysrd g 5 .fflags)
  ∧ decode (word 0x050000C4 0x00002062 0) = .ok (.ctrX g 5 6)
  ∧ decode (word 0x000001C0 0 0) = .ok (.tretSkip g)

/-- Decoding an encoded instruction gives the instruction back, with every operand: for every well-formed instruction. -/
def Obligations.EncodeDecodeRoundTrip : Prop :=
  ∀ (i : Instr) (w : BitVec 96), WellFormed i = true → encode i = some w → decode w = .ok i

/-- Every step keeps the canonical form of memory: of its bytes, of its tags and of its error marks. -/
def Obligations.MemoryStaysCanonical : Prop := ∀ s t : State, MemoryCanonical s → step s = .next t → MemoryCanonical t

/-- R46, R242, R330, R374 step 5, and the form of memory: the state right after reset. The values of registers that the spec
gives none, and the bytes that nothing has written, which read 0, are the model's choice (log entries 2 and 3), as is that
chunk 0 belongs to the monitor (log entry 25). -/
def Obligations.ResetState : Prop :=
  MemoryCanonical State.reset ∧ (∀ k, State.reset.byte k = 0 ∧ State.reset.tagAt k = false)
  ∧ (∀ k, State.reset.slotAt k = Slot.reset ∧ (State.reset.slotAt k).active = false)
  ∧ (∀ p, (State.reset.partAt p).wid = 0xFE) ∧ (∀ w, (State.reset.worldAt w).live = false)
  ∧ (∀ a, State.reset.chunkOwner a = if a / 2 ^ 21 = 0 then 0xFF else 0xFE) ∧ (∀ c n, n ≠ 0 → State.reset.counter 0 c n = 0)
  ∧ (∀ c, (State.reset.coreAt c).wtlim = 0x100000)

/-- Each event of the machine and of the agents outside it, by name, completes in a next state from every state: what it does
there the statements of its chapter say. An event whose conditions do not hold answers the state itself (the model's choice,
log entries 8 and 12). -/
def Sys2Proof.Parts.EventsComplete : Prop :=
  ∀ (s : State) (core slot idx line path page n val : Nat) (write : Bool) (bytes : List Byte) (bad : List Nat),
    ∀ e ∈ [
      Instr.commitWindowExpiry core slot, .waitTimerExpiry core slot, .preemptionRequest core slot,
      .activationDiscard core slot, .machineCheck core, .owedValueReturn core slot idx, .parkEnd core slot,
      .issueSlotChoice core, .trapEntry core slot, .terminalFault core slot, .activationStart core slot,
      .heldRingPush n core, .gridAdmission n, .teamPlacement n, .quantumExpiry n, .swapGraceExpiry n, .teamSwapOut n,
      .teamSwapIn n, .weirRun n, .gridCompletion n, .junctionMerge n, .revisionDiscardReset n, .tlbRefill n page,
      .invalidationComplete n, .pageVerification n idx page, .dredgerSweepVisit n line, .revocationPreemptTimeout n,
      .revocationComplete n, .counterRefresh n, .engineInstructionCommit core, .chainCompletion core, .bargeExecute core,
      .bargeCompletion core, .sluiceOperationApply core slot, .basinHeldOperation core slot, .fetchComplete core slot,
      .hostFlushComplete core slot, .flushMarker core path, .flushRoundComplete core, .writeUpdate core slot idx,
      .storeAcknowledgement core slot idx, .updateReceipt line core, .updateReply line core, .homeCommit line,
      .regionMerge n idx, .directoryEntryEviction n, .evictionNotice line core, .evictionAcknowledgement line core,
      .stashFill line n, .stashForwardedAccess line, .readShared line, .upgrade line, .readExclusive line, .grant line,
      .snoopRead line, .snoopInvalidate line, .snoopAnswer line, .proxyInvalidation line, .writeBack line,
      .backInvalidation line, .hostSnoop line, .uncorrectableMemoryError line, .hostAccess n line write bytes,
      .peerAccess path n line write bytes, .fabricRun path n write, .fabricRekey path n, .pathFailure path,
      .ideStreamKeyInstall n idx val, .launchCommand n, .completionEntry n, .ownershipLeaseExpiry n, .own n core val,
      .rtail n core val, .rsync n core val, .ringKeyInstall n val, .ringRelocate n core idx val, .cqhead n core val,
      .registerWrite n core idx val, .prst n, .partitionResetDone n bad bad, .resreply n val,
      .invctl n val, .revctl n val, .worldCreate n val bytes, .worldDestroy n,
      .compartmentCreate n idx val write, .compartmentDestroy n idx, .chunkOwnerChange idx n, .partitionOwnerChange n val,
      .powerGate n idx, .unitWake n idx, .clockChange val core, .bundleFetch val idx, .trialExpiry,
      .remoteAttestationComplete, .attestationRequest n bytes, .coldStart, .warmStart,
      .startFailure idx, .hostLinkReset],
    ∃ t, exec e s = .next t

/-- No instruction and no event ends a run: each completes in a next state, the events by their names too, and so does every
step that is not asked to issue an instruction from outside the memory. It says nothing of their effects. That an event
answers from every state, and an instruction that cannot go on holds its slot, is the model's choice (log entries 8 and 12). -/
def Obligations.NothingEndsARun : Prop :=
  (∀ (i : Instr) (s : State), Completes i s fun _ => True) ∧ Sys2Proof.Parts.EventsComplete
  ∧ ∀ s : State, (∀ i r, s.script = i :: r → encode i = none) → GoesOn s
end

