-- ==== Sys2Proof/Laws/Decode.lean ====
section
/-!
SUPPORT. Decoding the fields that the encoder writes: control bits, registers with their modifiers, and every operand code.
-/

namespace Sys2Proof

theorem Fields.mk'_op (op sub : Nat) (g : Ctl) (d a b imm : Nat) : (Fields.mk' op sub g d a b imm).op = op := rfl

theorem ctl_mk (op sub : Nat) (g : Ctl) (d a b imm : Nat) : ctl (Fields.mk' op sub g d a b imm) = .ok g := by
  rcases g with ⟨gp, gn, s, dly, ru, yld, fs⟩
  cases gn <;> cases s <;> cases yld <;> cases fs <;> simp [ctl, Fields.mk', bit]

theorem regMod_code (e : DecodeError) (cls lim m idx : Nat) (h : idx < lim) (hl : lim ≤ 64) (hm : m < 8) :
    regMod e cls lim (modCode cls m idx) = .ok (⟨idx, h⟩, m) := by
  have h1 : (512 * cls + 64 * m + idx) / 512 = cls := by omega
  have h2 : (512 * cls + 64 * m + idx) % 64 = idx := by omega
  have h3 : (512 * cls + 64 * m + idx) / 64 % 8 = m := by omega
  simp [regMod, modCode, h1, h2, h3, h]

theorem reg_code (e : DecodeError) (cls lim idx : Nat) (h : idx < lim) (hl : lim ≤ 64) :
    reg e cls lim (regCode cls idx) = .ok ⟨idx, h⟩ := by
  have h1 : (512 * cls + idx) / 64 = 8 * cls := by omega
  have h2 : (512 * cls + idx) % 64 = idx := by omega
  simp [reg, regCode, h1, h2, h]

theorem wide_code (e : DecodeError) (r : WAcc) : wide e (regCode 6 (r.val + 8)) = .ok r := by
  have h1 : (512 * 6 + (r.val + 8)) / 64 = 48 := by omega
  have h2 : (512 * 6 + (r.val + 8)) % 64 = r.val + 8 := by omega
  simp [wide, regCode, h1, h2, r.isLt]

@[simp] theorem iType_code (t : IType) : iType t.code = .ok t := by cases t <;> rfl
@[simp] theorem fType_code (t : FType) : fType t.code = .ok t := by cases t <;> rfl
@[simp] theorem vType_code (t : VType) : vType t.code = .ok t := by
  cases t with
  | int t => cases t <;> rfl
  | flt t => cases t <;> rfl
@[simp] theorem eType_code (t : EType) : eType t.code = .ok t := by cases t <;> rfl
@[simp] theorem pLogicOf_code (k : PLogic) : pLogicOf k.code = .ok k := by cases k <;> rfl
@[simp] theorem prefOf_code (k : PrefLevel) : prefOf k.code = .ok k := by cases k <;> rfl
@[simp] theorem blkLen_code (k : BlkLen) : blkLen k.code = .ok k := by cases k <;> rfl
@[simp] theorem iCondOf_code (e : DecodeError) (k : ICond) : iCondOf e k.code = .ok k := by cases k <;> rfl
@[simp] theorem fCondOf_code (e : DecodeError) (k : FCond) : fCondOf e k.code = .ok k := by cases k <;> rfl
@[simp] theorem eqCondOf_code (e : DecodeError) (k : EqCond) : eqCondOf e k.code = .ok k := by cases k <;> rfl
@[simp] theorem amoOf_code (e : DecodeError) (k : AmoOp) : amoOf e k.code = .ok k := by cases k <;> rfl
@[simp] theorem redOf_code (e : DecodeError) (k : RedKind) : redOf e k.code = .ok k := by cases k <;> rfl
@[simp] theorem packOf_code (e : DecodeError) (k : Pack) : packOf e k.code = .ok k := by cases k <;> rfl
@[simp] theorem roOf_code (r : RSel) : roOf r.code = .ok r := by
  cases r with
  | frm => rfl
  | mode m => cases m <;> rfl
@[simp] theorem sregAt_code (r : SReg) : sregAt r.code = some r := by cases r <;> rfl
@[simp] theorem wregAt_code (r : WReg) : wregAt r.code = some r := by cases r <;> rfl

theorem blkOf_code (a b : BlkLen) : blkOf (a.code + 4 * b.code) = .ok (a, b) := by cases a <;> cases b <;> rfl

end Sys2Proof
end

