-- ==== Sys2Proof/Laws/Map.lean ====
section
/-!
SUPPORT. Reading after writing in sparse maps, and their canonical form.
-/

namespace Sys2Proof

variable {α : Type}

theorem SMap.look_erase_self (d : α) (m : SMap α) (i : Nat) : SMap.look d (SMap.erase m i) i = d := by
  induction m with
  | nil => rfl
  | cons e t ih =>
    obtain ⟨k, v⟩ := e
    by_cases h : k = i <;> simp [SMap.erase, SMap.look, h, ih]

theorem SMap.look_erase_ne (d : α) (m : SMap α) {i j : Nat} (h : j ≠ i) :
    SMap.look d (SMap.erase m i) j = SMap.look d m j := by
  induction m with
  | nil => rfl
  | cons e t ih =>
    obtain ⟨k, v⟩ := e
    by_cases hk : k = i
    · subst hk
      simp [SMap.erase, SMap.look, ih, Ne.symm h]
    · simp [SMap.erase, SMap.look, hk, ih]

theorem SMap.look_ins_self (d : α) (m : SMap α) (i : Nat) (x : α) (hn : i ∉ m.map (·.1)) :
    SMap.look d (SMap.ins m i x) i = x := by
  induction m with
  | nil => simp [SMap.ins, SMap.look]
  | cons e t ih =>
    obtain ⟨k, v⟩ := e
    simp only [List.map_cons, List.mem_cons, not_or] at hn
    by_cases hi : i < k
    · simp [SMap.ins, SMap.look, hi]
    · simp [SMap.ins, SMap.look, hi, Ne.symm hn.1, ih hn.2]

theorem SMap.look_ins_ne (d : α) (m : SMap α) {i j : Nat} (x : α) (h : j ≠ i) :
    SMap.look d (SMap.ins m i x) j = SMap.look d m j := by
  induction m with
  | nil => simp [SMap.ins, SMap.look, Ne.symm h]
  | cons e t ih =>
    obtain ⟨k, v⟩ := e
    by_cases hi : i < k
    · simp [SMap.ins, SMap.look, hi, Ne.symm h]
    · simp [SMap.ins, SMap.look, hi, ih]

theorem SMap.not_mem_erase (m : SMap α) (i : Nat) : i ∉ (SMap.erase m i).map (·.1) := by
  induction m with
  | nil => simp [SMap.erase]
  | cons e t ih =>
    obtain ⟨k, v⟩ := e
    by_cases h : k = i
    · simpa [SMap.erase, h] using ih
    · simp only [SMap.erase, h, if_false, List.map_cons, List.mem_cons, not_or]
      exact ⟨fun e => h e.symm, ih⟩

/-- A read of the key that was written gives the value written. -/
@[simp] theorem SMap.look_put_self [DecidableEq α] (d : α) (m : SMap α) (i : Nat) (x : α) :
    SMap.look d (SMap.put d m i x) i = x := by
  unfold SMap.put
  split
  · next h => rw [h, SMap.look_erase_self]
  · exact SMap.look_ins_self d _ i x (SMap.not_mem_erase m i)

/-- A write leaves every other key alone. -/
theorem SMap.look_put_ne [DecidableEq α] (d : α) (m : SMap α) {i j : Nat} (x : α) (h : j ≠ i) :
    SMap.look d (SMap.put d m i x) j = SMap.look d m j := by
  unfold SMap.put
  split
  · exact SMap.look_erase_ne d m h
  · rw [SMap.look_ins_ne d _ x h, SMap.look_erase_ne d m h]

/-- A read after a write, either way. -/
theorem SMap.look_put [DecidableEq α] (d : α) (m : SMap α) (i j : Nat) (x : α) :
    SMap.look d (SMap.put d m i x) j = if j = i then x else SMap.look d m j := by
  split
  · next h => rw [h, SMap.look_put_self]
  · next h => exact SMap.look_put_ne d m x h

/-! ## The canonical form -/

/-- A bound below which no key lies. -/
def SMap.above (lo : Option Nat) (k : Nat) : Prop := match lo with
  | none => True
  | some l => l < k

theorem SMap.wfFrom_cons [DecidableEq α] (d : α) (lo : Option Nat) (k : Nat) (v : α) (t : SMap α) :
    SMap.wfFrom d lo ((k, v) :: t) = true ↔ SMap.above lo k ∧ v ≠ d ∧ SMap.wfFrom d (some k) t = true := by
  cases lo <;> simp [SMap.wfFrom, SMap.above, and_assoc]

theorem SMap.wfFrom_mono [DecidableEq α] (d : α) (t : SMap α) {lo lo' : Option Nat}
    (h : ∀ k, SMap.above lo k → SMap.above lo' k) (w : SMap.wfFrom d lo t = true) : SMap.wfFrom d lo' t = true := by
  cases t with
  | nil => cases lo' <;> rfl
  | cons e t =>
    obtain ⟨k, v⟩ := e
    rw [SMap.wfFrom_cons] at w ⊢
    exact ⟨h k w.1, w.2⟩

theorem SMap.wfFrom_filter [DecidableEq α] (d : α) (p : Nat × α → Bool) (t : SMap α) :
    ∀ lo, SMap.wfFrom d lo t = true → SMap.wfFrom d lo (t.filter p) = true := by
  induction t with
  | nil => intro lo _; cases lo <;> rfl
  | cons e t ih =>
    obtain ⟨k, v⟩ := e
    intro lo w
    rw [SMap.wfFrom_cons] at w
    by_cases hp : p (k, v) = true
    · rw [List.filter_cons_of_pos hp, SMap.wfFrom_cons]
      exact ⟨w.1, w.2.1, ih _ w.2.2⟩
    · rw [List.filter_cons_of_neg hp]
      refine ih _ (SMap.wfFrom_mono d t ?_ w.2.2)
      intro j hj
      cases lo with
      | none => trivial
      | some l => exact Nat.lt_trans w.1 hj

theorem SMap.erase_eq_filter (m : SMap α) (i : Nat) : SMap.erase m i = m.filter fun e => !(e.1 == i) := by
  induction m with
  | nil => rfl
  | cons e t ih =>
    obtain ⟨k, v⟩ := e
    by_cases h : k = i <;> simp [SMap.erase, h, ih]

theorem SMap.wfFrom_ins [DecidableEq α] (d : α) (i : Nat) (x : α) (hx : x ≠ d) (t : SMap α) :
    ∀ lo, SMap.wfFrom d lo t = true → SMap.above lo i → i ∉ t.map (·.1) → SMap.wfFrom d lo (SMap.ins t i x) = true := by
  induction t with
  | nil => intro lo _ hi _; rw [SMap.ins, SMap.wfFrom_cons]; exact ⟨hi, hx, rfl⟩
  | cons e t ih =>
    obtain ⟨k, v⟩ := e
    intro lo w hi hn
    rw [SMap.wfFrom_cons] at w
    simp only [List.map_cons, List.mem_cons, not_or] at hn
    by_cases h : i < k
    · rw [SMap.ins, if_pos h, SMap.wfFrom_cons, SMap.wfFrom_cons]
      exact ⟨hi, hx, h, w.2⟩
    · rw [SMap.ins, if_neg h, SMap.wfFrom_cons]
      refine ⟨w.1, w.2.1, ih _ w.2.2 ?_ hn.2⟩
      have := hn.1
      simp only [SMap.above]
      omega

/-- Writing keeps the canonical form. -/
theorem SMap.wf_put [DecidableEq α] (d : α) (m : SMap α) (i : Nat) (x : α) (h : SMap.wf d m = true) :
    SMap.wf d (SMap.put d m i x) = true := by
  unfold SMap.wf SMap.put at *
  have he : SMap.wfFrom d none (SMap.erase m i) = true := by
    rw [SMap.erase_eq_filter]; exact SMap.wfFrom_filter d _ m none h
  split
  · exact he
  · next hx => exact SMap.wfFrom_ins d i x hx _ none he trivial (SMap.not_mem_erase m i)

/-- Filtering keeps the canonical form. -/
theorem SMap.wf_filter [DecidableEq α] (d : α) (m : SMap α) (p : Nat × α → Bool) (h : SMap.wf d m = true) :
    SMap.wf d (m.filter p) = true := SMap.wfFrom_filter d p m none h

end Sys2Proof
end

