-- ==== Sys2Proof/Laws/State.lean ====
section
/-!
SUPPORT. What each update of the state leaves alone, one lemma for each field, and what a read after it gives.
-/

namespace Sys2Proof.Machine

variable (s : State)

/-! ## `setCore` -/

@[simp] theorem State.setCore_now (c : Nat) (k : Core) : (s.setCore c k).now = s.now := rfl
@[simp] theorem State.setCore_cur (c : Nat) (k : Core) : (s.setCore c k).cur = s.cur := rfl
@[simp] theorem State.setCore_issuing (c : Nat) (k : Core) : (s.setCore c k).issuing = s.issuing := rfl
@[simp] theorem State.setCore_script (c : Nat) (k : Core) : (s.setCore c k).script = s.script := rfl
@[simp] theorem State.setCore_fresh (c : Nat) (k : Core) : (s.setCore c k).fresh = s.fresh := rfl
@[simp] theorem State.setCore_mem (c : Nat) (k : Core) : (s.setCore c k).mem = s.mem := rfl
@[simp] theorem State.setCore_tags (c : Nat) (k : Core) : (s.setCore c k).tags = s.tags := rfl
@[simp] theorem State.setCore_poison (c : Nat) (k : Core) : (s.setCore c k).poison = s.poison := rfl
@[simp] theorem State.setCore_coh (c : Nat) (k : Core) : (s.setCore c k).coh = s.coh := rfl
@[simp] theorem State.setCore_slices (c : Nat) (k : Core) : (s.setCore c k).slices = s.slices := rfl
@[simp] theorem State.setCore_owners (c : Nat) (k : Core) : (s.setCore c k).owners = s.owners := rfl
@[simp] theorem State.setCore_frames (c : Nat) (k : Core) : (s.setCore c k).frames = s.frames := rfl
@[simp] theorem State.setCore_tlb2 (c : Nat) (k : Core) : (s.setCore c k).tlb2 = s.tlb2 := rfl
@[simp] theorem State.setCore_trace (c : Nat) (k : Core) : (s.setCore c k).trace = s.trace := rfl
@[simp] theorem State.setCore_touch (c : Nat) (k : Core) : (s.setCore c k).touch = s.touch := rfl
@[simp] theorem State.setCore_perf (c : Nat) (k : Core) : (s.setCore c k).perf = s.perf := rfl
@[simp] theorem State.setCore_parts (c : Nat) (k : Core) : (s.setCore c k).parts = s.parts := rfl
@[simp] theorem State.setCore_worlds (c : Nat) (k : Core) : (s.setCore c k).worlds = s.worlds := rfl
@[simp] theorem State.setCore_grids (c : Nat) (k : Core) : (s.setCore c k).grids = s.grids := rfl
@[simp] theorem State.setCore_teams (c : Nat) (k : Core) : (s.setCore c k).teams = s.teams := rfl
@[simp] theorem State.setCore_revs (c : Nat) (k : Core) : (s.setCore c k).revs = s.revs := rfl
@[simp] theorem State.setCore_fw (c : Nat) (k : Core) : (s.setCore c k).fw = s.fw := rfl
@[simp] theorem State.setCore_ports (c : Nat) (k : Core) : (s.setCore c k).ports = s.ports := rfl
@[simp] theorem State.setCore_pkg (c : Nat) (k : Core) : (s.setCore c k).pkg = s.pkg := rfl
@[simp] theorem State.setCore_reply (c : Nat) (k : Core) : (s.setCore c k).reply = s.reply := rfl
@[simp] theorem State.setCore_unsupported (c : Nat) (k : Core) : (s.setCore c k).unsupported = s.unsupported := rfl

/-! ## `updCore` -/

@[simp] theorem State.updCore_now (c : Nat) (f : Core → Core) : (s.updCore c f).now = s.now := rfl
@[simp] theorem State.updCore_cur (c : Nat) (f : Core → Core) : (s.updCore c f).cur = s.cur := rfl
@[simp] theorem State.updCore_issuing (c : Nat) (f : Core → Core) : (s.updCore c f).issuing = s.issuing := rfl
@[simp] theorem State.updCore_script (c : Nat) (f : Core → Core) : (s.updCore c f).script = s.script := rfl
@[simp] theorem State.updCore_fresh (c : Nat) (f : Core → Core) : (s.updCore c f).fresh = s.fresh := rfl
@[simp] theorem State.updCore_mem (c : Nat) (f : Core → Core) : (s.updCore c f).mem = s.mem := rfl
@[simp] theorem State.updCore_tags (c : Nat) (f : Core → Core) : (s.updCore c f).tags = s.tags := rfl
@[simp] theorem State.updCore_poison (c : Nat) (f : Core → Core) : (s.updCore c f).poison = s.poison := rfl
@[simp] theorem State.updCore_coh (c : Nat) (f : Core → Core) : (s.updCore c f).coh = s.coh := rfl
@[simp] theorem State.updCore_slices (c : Nat) (f : Core → Core) : (s.updCore c f).slices = s.slices := rfl
@[simp] theorem State.updCore_owners (c : Nat) (f : Core → Core) : (s.updCore c f).owners = s.owners := rfl
@[simp] theorem State.updCore_frames (c : Nat) (f : Core → Core) : (s.updCore c f).frames = s.frames := rfl
@[simp] theorem State.updCore_tlb2 (c : Nat) (f : Core → Core) : (s.updCore c f).tlb2 = s.tlb2 := rfl
@[simp] theorem State.updCore_trace (c : Nat) (f : Core → Core) : (s.updCore c f).trace = s.trace := rfl
@[simp] theorem State.updCore_touch (c : Nat) (f : Core → Core) : (s.updCore c f).touch = s.touch := rfl
@[simp] theorem State.updCore_perf (c : Nat) (f : Core → Core) : (s.updCore c f).perf = s.perf := rfl
@[simp] theorem State.updCore_parts (c : Nat) (f : Core → Core) : (s.updCore c f).parts = s.parts := rfl
@[simp] theorem State.updCore_worlds (c : Nat) (f : Core → Core) : (s.updCore c f).worlds = s.worlds := rfl
@[simp] theorem State.updCore_grids (c : Nat) (f : Core → Core) : (s.updCore c f).grids = s.grids := rfl
@[simp] theorem State.updCore_teams (c : Nat) (f : Core → Core) : (s.updCore c f).teams = s.teams := rfl
@[simp] theorem State.updCore_revs (c : Nat) (f : Core → Core) : (s.updCore c f).revs = s.revs := rfl
@[simp] theorem State.updCore_fw (c : Nat) (f : Core → Core) : (s.updCore c f).fw = s.fw := rfl
@[simp] theorem State.updCore_ports (c : Nat) (f : Core → Core) : (s.updCore c f).ports = s.ports := rfl
@[simp] theorem State.updCore_pkg (c : Nat) (f : Core → Core) : (s.updCore c f).pkg = s.pkg := rfl
@[simp] theorem State.updCore_reply (c : Nat) (f : Core → Core) : (s.updCore c f).reply = s.reply := rfl
@[simp] theorem State.updCore_unsupported (c : Nat) (f : Core → Core) : (s.updCore c f).unsupported = s.unsupported := rfl

/-! ## `setSlot` -/

@[simp] theorem State.setSlot_now (k : Nat) (sl : Slot) : (s.setSlot k sl).now = s.now := rfl
@[simp] theorem State.setSlot_cur (k : Nat) (sl : Slot) : (s.setSlot k sl).cur = s.cur := rfl
@[simp] theorem State.setSlot_issuing (k : Nat) (sl : Slot) : (s.setSlot k sl).issuing = s.issuing := rfl
@[simp] theorem State.setSlot_script (k : Nat) (sl : Slot) : (s.setSlot k sl).script = s.script := rfl
@[simp] theorem State.setSlot_fresh (k : Nat) (sl : Slot) : (s.setSlot k sl).fresh = s.fresh := rfl
@[simp] theorem State.setSlot_mem (k : Nat) (sl : Slot) : (s.setSlot k sl).mem = s.mem := rfl
@[simp] theorem State.setSlot_tags (k : Nat) (sl : Slot) : (s.setSlot k sl).tags = s.tags := rfl
@[simp] theorem State.setSlot_poison (k : Nat) (sl : Slot) : (s.setSlot k sl).poison = s.poison := rfl
@[simp] theorem State.setSlot_coh (k : Nat) (sl : Slot) : (s.setSlot k sl).coh = s.coh := rfl
@[simp] theorem State.setSlot_slices (k : Nat) (sl : Slot) : (s.setSlot k sl).slices = s.slices := rfl
@[simp] theorem State.setSlot_owners (k : Nat) (sl : Slot) : (s.setSlot k sl).owners = s.owners := rfl
@[simp] theorem State.setSlot_frames (k : Nat) (sl : Slot) : (s.setSlot k sl).frames = s.frames := rfl
@[simp] theorem State.setSlot_tlb2 (k : Nat) (sl : Slot) : (s.setSlot k sl).tlb2 = s.tlb2 := rfl
@[simp] theorem State.setSlot_trace (k : Nat) (sl : Slot) : (s.setSlot k sl).trace = s.trace := rfl
@[simp] theorem State.setSlot_touch (k : Nat) (sl : Slot) : (s.setSlot k sl).touch = s.touch := rfl
@[simp] theorem State.setSlot_perf (k : Nat) (sl : Slot) : (s.setSlot k sl).perf = s.perf := rfl
@[simp] theorem State.setSlot_parts (k : Nat) (sl : Slot) : (s.setSlot k sl).parts = s.parts := rfl
@[simp] theorem State.setSlot_worlds (k : Nat) (sl : Slot) : (s.setSlot k sl).worlds = s.worlds := rfl
@[simp] theorem State.setSlot_grids (k : Nat) (sl : Slot) : (s.setSlot k sl).grids = s.grids := rfl
@[simp] theorem State.setSlot_teams (k : Nat) (sl : Slot) : (s.setSlot k sl).teams = s.teams := rfl
@[simp] theorem State.setSlot_revs (k : Nat) (sl : Slot) : (s.setSlot k sl).revs = s.revs := rfl
@[simp] theorem State.setSlot_fw (k : Nat) (sl : Slot) : (s.setSlot k sl).fw = s.fw := rfl
@[simp] theorem State.setSlot_ports (k : Nat) (sl : Slot) : (s.setSlot k sl).ports = s.ports := rfl
@[simp] theorem State.setSlot_pkg (k : Nat) (sl : Slot) : (s.setSlot k sl).pkg = s.pkg := rfl
@[simp] theorem State.setSlot_reply (k : Nat) (sl : Slot) : (s.setSlot k sl).reply = s.reply := rfl
@[simp] theorem State.setSlot_unsupported (k : Nat) (sl : Slot) : (s.setSlot k sl).unsupported = s.unsupported := rfl

/-! ## `updSlot` -/

@[simp] theorem State.updSlot_now (k : Nat) (f : Slot → Slot) : (s.updSlot k f).now = s.now := rfl
@[simp] theorem State.updSlot_cur (k : Nat) (f : Slot → Slot) : (s.updSlot k f).cur = s.cur := rfl
@[simp] theorem State.updSlot_issuing (k : Nat) (f : Slot → Slot) : (s.updSlot k f).issuing = s.issuing := rfl
@[simp] theorem State.updSlot_script (k : Nat) (f : Slot → Slot) : (s.updSlot k f).script = s.script := rfl
@[simp] theorem State.updSlot_fresh (k : Nat) (f : Slot → Slot) : (s.updSlot k f).fresh = s.fresh := rfl
@[simp] theorem State.updSlot_mem (k : Nat) (f : Slot → Slot) : (s.updSlot k f).mem = s.mem := rfl
@[simp] theorem State.updSlot_tags (k : Nat) (f : Slot → Slot) : (s.updSlot k f).tags = s.tags := rfl
@[simp] theorem State.updSlot_poison (k : Nat) (f : Slot → Slot) : (s.updSlot k f).poison = s.poison := rfl
@[simp] theorem State.updSlot_coh (k : Nat) (f : Slot → Slot) : (s.updSlot k f).coh = s.coh := rfl
@[simp] theorem State.updSlot_slices (k : Nat) (f : Slot → Slot) : (s.updSlot k f).slices = s.slices := rfl
@[simp] theorem State.updSlot_owners (k : Nat) (f : Slot → Slot) : (s.updSlot k f).owners = s.owners := rfl
@[simp] theorem State.updSlot_frames (k : Nat) (f : Slot → Slot) : (s.updSlot k f).frames = s.frames := rfl
@[simp] theorem State.updSlot_tlb2 (k : Nat) (f : Slot → Slot) : (s.updSlot k f).tlb2 = s.tlb2 := rfl
@[simp] theorem State.updSlot_trace (k : Nat) (f : Slot → Slot) : (s.updSlot k f).trace = s.trace := rfl
@[simp] theorem State.updSlot_touch (k : Nat) (f : Slot → Slot) : (s.updSlot k f).touch = s.touch := rfl
@[simp] theorem State.updSlot_perf (k : Nat) (f : Slot → Slot) : (s.updSlot k f).perf = s.perf := rfl
@[simp] theorem State.updSlot_parts (k : Nat) (f : Slot → Slot) : (s.updSlot k f).parts = s.parts := rfl
@[simp] theorem State.updSlot_worlds (k : Nat) (f : Slot → Slot) : (s.updSlot k f).worlds = s.worlds := rfl
@[simp] theorem State.updSlot_grids (k : Nat) (f : Slot → Slot) : (s.updSlot k f).grids = s.grids := rfl
@[simp] theorem State.updSlot_teams (k : Nat) (f : Slot → Slot) : (s.updSlot k f).teams = s.teams := rfl
@[simp] theorem State.updSlot_revs (k : Nat) (f : Slot → Slot) : (s.updSlot k f).revs = s.revs := rfl
@[simp] theorem State.updSlot_fw (k : Nat) (f : Slot → Slot) : (s.updSlot k f).fw = s.fw := rfl
@[simp] theorem State.updSlot_ports (k : Nat) (f : Slot → Slot) : (s.updSlot k f).ports = s.ports := rfl
@[simp] theorem State.updSlot_pkg (k : Nat) (f : Slot → Slot) : (s.updSlot k f).pkg = s.pkg := rfl
@[simp] theorem State.updSlot_reply (k : Nat) (f : Slot → Slot) : (s.updSlot k f).reply = s.reply := rfl
@[simp] theorem State.updSlot_unsupported (k : Nat) (f : Slot → Slot) : (s.updSlot k f).unsupported = s.unsupported := rfl

/-! ## `updSl` -/

@[simp] theorem State.updSl_now (f : Slot → Slot) : (s.updSl f).now = s.now := rfl
@[simp] theorem State.updSl_cur (f : Slot → Slot) : (s.updSl f).cur = s.cur := rfl
@[simp] theorem State.updSl_issuing (f : Slot → Slot) : (s.updSl f).issuing = s.issuing := rfl
@[simp] theorem State.updSl_script (f : Slot → Slot) : (s.updSl f).script = s.script := rfl
@[simp] theorem State.updSl_fresh (f : Slot → Slot) : (s.updSl f).fresh = s.fresh := rfl
@[simp] theorem State.updSl_mem (f : Slot → Slot) : (s.updSl f).mem = s.mem := rfl
@[simp] theorem State.updSl_tags (f : Slot → Slot) : (s.updSl f).tags = s.tags := rfl
@[simp] theorem State.updSl_poison (f : Slot → Slot) : (s.updSl f).poison = s.poison := rfl
@[simp] theorem State.updSl_coh (f : Slot → Slot) : (s.updSl f).coh = s.coh := rfl
@[simp] theorem State.updSl_slices (f : Slot → Slot) : (s.updSl f).slices = s.slices := rfl
@[simp] theorem State.updSl_owners (f : Slot → Slot) : (s.updSl f).owners = s.owners := rfl
@[simp] theorem State.updSl_frames (f : Slot → Slot) : (s.updSl f).frames = s.frames := rfl
@[simp] theorem State.updSl_tlb2 (f : Slot → Slot) : (s.updSl f).tlb2 = s.tlb2 := rfl
@[simp] theorem State.updSl_trace (f : Slot → Slot) : (s.updSl f).trace = s.trace := rfl
@[simp] theorem State.updSl_touch (f : Slot → Slot) : (s.updSl f).touch = s.touch := rfl
@[simp] theorem State.updSl_perf (f : Slot → Slot) : (s.updSl f).perf = s.perf := rfl
@[simp] theorem State.updSl_parts (f : Slot → Slot) : (s.updSl f).parts = s.parts := rfl
@[simp] theorem State.updSl_worlds (f : Slot → Slot) : (s.updSl f).worlds = s.worlds := rfl
@[simp] theorem State.updSl_grids (f : Slot → Slot) : (s.updSl f).grids = s.grids := rfl
@[simp] theorem State.updSl_teams (f : Slot → Slot) : (s.updSl f).teams = s.teams := rfl
@[simp] theorem State.updSl_revs (f : Slot → Slot) : (s.updSl f).revs = s.revs := rfl
@[simp] theorem State.updSl_fw (f : Slot → Slot) : (s.updSl f).fw = s.fw := rfl
@[simp] theorem State.updSl_ports (f : Slot → Slot) : (s.updSl f).ports = s.ports := rfl
@[simp] theorem State.updSl_pkg (f : Slot → Slot) : (s.updSl f).pkg = s.pkg := rfl
@[simp] theorem State.updSl_reply (f : Slot → Slot) : (s.updSl f).reply = s.reply := rfl
@[simp] theorem State.updSl_unsupported (f : Slot → Slot) : (s.updSl f).unsupported = s.unsupported := rfl

/-! ## `updMyCore` -/

@[simp] theorem State.updMyCore_now (f : Core → Core) : (s.updMyCore f).now = s.now := rfl
@[simp] theorem State.updMyCore_cur (f : Core → Core) : (s.updMyCore f).cur = s.cur := rfl
@[simp] theorem State.updMyCore_issuing (f : Core → Core) : (s.updMyCore f).issuing = s.issuing := rfl
@[simp] theorem State.updMyCore_script (f : Core → Core) : (s.updMyCore f).script = s.script := rfl
@[simp] theorem State.updMyCore_fresh (f : Core → Core) : (s.updMyCore f).fresh = s.fresh := rfl
@[simp] theorem State.updMyCore_mem (f : Core → Core) : (s.updMyCore f).mem = s.mem := rfl
@[simp] theorem State.updMyCore_tags (f : Core → Core) : (s.updMyCore f).tags = s.tags := rfl
@[simp] theorem State.updMyCore_poison (f : Core → Core) : (s.updMyCore f).poison = s.poison := rfl
@[simp] theorem State.updMyCore_coh (f : Core → Core) : (s.updMyCore f).coh = s.coh := rfl
@[simp] theorem State.updMyCore_slices (f : Core → Core) : (s.updMyCore f).slices = s.slices := rfl
@[simp] theorem State.updMyCore_owners (f : Core → Core) : (s.updMyCore f).owners = s.owners := rfl
@[simp] theorem State.updMyCore_frames (f : Core → Core) : (s.updMyCore f).frames = s.frames := rfl
@[simp] theorem State.updMyCore_tlb2 (f : Core → Core) : (s.updMyCore f).tlb2 = s.tlb2 := rfl
@[simp] theorem State.updMyCore_trace (f : Core → Core) : (s.updMyCore f).trace = s.trace := rfl
@[simp] theorem State.updMyCore_touch (f : Core → Core) : (s.updMyCore f).touch = s.touch := rfl
@[simp] theorem State.updMyCore_perf (f : Core → Core) : (s.updMyCore f).perf = s.perf := rfl
@[simp] theorem State.updMyCore_parts (f : Core → Core) : (s.updMyCore f).parts = s.parts := rfl
@[simp] theorem State.updMyCore_worlds (f : Core → Core) : (s.updMyCore f).worlds = s.worlds := rfl
@[simp] theorem State.updMyCore_grids (f : Core → Core) : (s.updMyCore f).grids = s.grids := rfl
@[simp] theorem State.updMyCore_teams (f : Core → Core) : (s.updMyCore f).teams = s.teams := rfl
@[simp] theorem State.updMyCore_revs (f : Core → Core) : (s.updMyCore f).revs = s.revs := rfl
@[simp] theorem State.updMyCore_fw (f : Core → Core) : (s.updMyCore f).fw = s.fw := rfl
@[simp] theorem State.updMyCore_ports (f : Core → Core) : (s.updMyCore f).ports = s.ports := rfl
@[simp] theorem State.updMyCore_pkg (f : Core → Core) : (s.updMyCore f).pkg = s.pkg := rfl
@[simp] theorem State.updMyCore_reply (f : Core → Core) : (s.updMyCore f).reply = s.reply := rfl
@[simp] theorem State.updMyCore_unsupported (f : Core → Core) : (s.updMyCore f).unsupported = s.unsupported := rfl

/-! ## `updWorld` -/

@[simp] theorem State.updWorld_now (w : Nat) (f : World → World) : (s.updWorld w f).now = s.now := rfl
@[simp] theorem State.updWorld_cur (w : Nat) (f : World → World) : (s.updWorld w f).cur = s.cur := rfl
@[simp] theorem State.updWorld_issuing (w : Nat) (f : World → World) : (s.updWorld w f).issuing = s.issuing := rfl
@[simp] theorem State.updWorld_script (w : Nat) (f : World → World) : (s.updWorld w f).script = s.script := rfl
@[simp] theorem State.updWorld_fresh (w : Nat) (f : World → World) : (s.updWorld w f).fresh = s.fresh := rfl
@[simp] theorem State.updWorld_cores (w : Nat) (f : World → World) : (s.updWorld w f).cores = s.cores := rfl
@[simp] theorem State.updWorld_mem (w : Nat) (f : World → World) : (s.updWorld w f).mem = s.mem := rfl
@[simp] theorem State.updWorld_tags (w : Nat) (f : World → World) : (s.updWorld w f).tags = s.tags := rfl
@[simp] theorem State.updWorld_poison (w : Nat) (f : World → World) : (s.updWorld w f).poison = s.poison := rfl
@[simp] theorem State.updWorld_coh (w : Nat) (f : World → World) : (s.updWorld w f).coh = s.coh := rfl
@[simp] theorem State.updWorld_slices (w : Nat) (f : World → World) : (s.updWorld w f).slices = s.slices := rfl
@[simp] theorem State.updWorld_owners (w : Nat) (f : World → World) : (s.updWorld w f).owners = s.owners := rfl
@[simp] theorem State.updWorld_frames (w : Nat) (f : World → World) : (s.updWorld w f).frames = s.frames := rfl
@[simp] theorem State.updWorld_tlb2 (w : Nat) (f : World → World) : (s.updWorld w f).tlb2 = s.tlb2 := rfl
@[simp] theorem State.updWorld_trace (w : Nat) (f : World → World) : (s.updWorld w f).trace = s.trace := rfl
@[simp] theorem State.updWorld_touch (w : Nat) (f : World → World) : (s.updWorld w f).touch = s.touch := rfl
@[simp] theorem State.updWorld_perf (w : Nat) (f : World → World) : (s.updWorld w f).perf = s.perf := rfl
@[simp] theorem State.updWorld_parts (w : Nat) (f : World → World) : (s.updWorld w f).parts = s.parts := rfl
@[simp] theorem State.updWorld_grids (w : Nat) (f : World → World) : (s.updWorld w f).grids = s.grids := rfl
@[simp] theorem State.updWorld_teams (w : Nat) (f : World → World) : (s.updWorld w f).teams = s.teams := rfl
@[simp] theorem State.updWorld_revs (w : Nat) (f : World → World) : (s.updWorld w f).revs = s.revs := rfl
@[simp] theorem State.updWorld_fw (w : Nat) (f : World → World) : (s.updWorld w f).fw = s.fw := rfl
@[simp] theorem State.updWorld_ports (w : Nat) (f : World → World) : (s.updWorld w f).ports = s.ports := rfl
@[simp] theorem State.updWorld_pkg (w : Nat) (f : World → World) : (s.updWorld w f).pkg = s.pkg := rfl
@[simp] theorem State.updWorld_reply (w : Nat) (f : World → World) : (s.updWorld w f).reply = s.reply := rfl
@[simp] theorem State.updWorld_unsupported (w : Nat) (f : World → World) : (s.updWorld w f).unsupported = s.unsupported := rfl

/-! ## `updPart` -/

@[simp] theorem State.updPart_now (p : Nat) (f : Part → Part) : (s.updPart p f).now = s.now := rfl
@[simp] theorem State.updPart_cur (p : Nat) (f : Part → Part) : (s.updPart p f).cur = s.cur := rfl
@[simp] theorem State.updPart_issuing (p : Nat) (f : Part → Part) : (s.updPart p f).issuing = s.issuing := rfl
@[simp] theorem State.updPart_script (p : Nat) (f : Part → Part) : (s.updPart p f).script = s.script := rfl
@[simp] theorem State.updPart_fresh (p : Nat) (f : Part → Part) : (s.updPart p f).fresh = s.fresh := rfl
@[simp] theorem State.updPart_cores (p : Nat) (f : Part → Part) : (s.updPart p f).cores = s.cores := rfl
@[simp] theorem State.updPart_mem (p : Nat) (f : Part → Part) : (s.updPart p f).mem = s.mem := rfl
@[simp] theorem State.updPart_tags (p : Nat) (f : Part → Part) : (s.updPart p f).tags = s.tags := rfl
@[simp] theorem State.updPart_poison (p : Nat) (f : Part → Part) : (s.updPart p f).poison = s.poison := rfl
@[simp] theorem State.updPart_coh (p : Nat) (f : Part → Part) : (s.updPart p f).coh = s.coh := rfl
@[simp] theorem State.updPart_slices (p : Nat) (f : Part → Part) : (s.updPart p f).slices = s.slices := rfl
@[simp] theorem State.updPart_owners (p : Nat) (f : Part → Part) : (s.updPart p f).owners = s.owners := rfl
@[simp] theorem State.updPart_frames (p : Nat) (f : Part → Part) : (s.updPart p f).frames = s.frames := rfl
@[simp] theorem State.updPart_tlb2 (p : Nat) (f : Part → Part) : (s.updPart p f).tlb2 = s.tlb2 := rfl
@[simp] theorem State.updPart_trace (p : Nat) (f : Part → Part) : (s.updPart p f).trace = s.trace := rfl
@[simp] theorem State.updPart_touch (p : Nat) (f : Part → Part) : (s.updPart p f).touch = s.touch := rfl
@[simp] theorem State.updPart_perf (p : Nat) (f : Part → Part) : (s.updPart p f).perf = s.perf := rfl
@[simp] theorem State.updPart_worlds (p : Nat) (f : Part → Part) : (s.updPart p f).worlds = s.worlds := rfl
@[simp] theorem State.updPart_grids (p : Nat) (f : Part → Part) : (s.updPart p f).grids = s.grids := rfl
@[simp] theorem State.updPart_teams (p : Nat) (f : Part → Part) : (s.updPart p f).teams = s.teams := rfl
@[simp] theorem State.updPart_revs (p : Nat) (f : Part → Part) : (s.updPart p f).revs = s.revs := rfl
@[simp] theorem State.updPart_fw (p : Nat) (f : Part → Part) : (s.updPart p f).fw = s.fw := rfl
@[simp] theorem State.updPart_ports (p : Nat) (f : Part → Part) : (s.updPart p f).ports = s.ports := rfl
@[simp] theorem State.updPart_pkg (p : Nat) (f : Part → Part) : (s.updPart p f).pkg = s.pkg := rfl
@[simp] theorem State.updPart_reply (p : Nat) (f : Part → Part) : (s.updPart p f).reply = s.reply := rfl
@[simp] theorem State.updPart_unsupported (p : Nat) (f : Part → Part) : (s.updPart p f).unsupported = s.unsupported := rfl

/-! ## `updGrid` -/

@[simp] theorem State.updGrid_now (g : Nat) (f : Grid → Grid) : (s.updGrid g f).now = s.now := rfl
@[simp] theorem State.updGrid_cur (g : Nat) (f : Grid → Grid) : (s.updGrid g f).cur = s.cur := rfl
@[simp] theorem State.updGrid_issuing (g : Nat) (f : Grid → Grid) : (s.updGrid g f).issuing = s.issuing := rfl
@[simp] theorem State.updGrid_script (g : Nat) (f : Grid → Grid) : (s.updGrid g f).script = s.script := rfl
@[simp] theorem State.updGrid_fresh (g : Nat) (f : Grid → Grid) : (s.updGrid g f).fresh = s.fresh := rfl
@[simp] theorem State.updGrid_cores (g : Nat) (f : Grid → Grid) : (s.updGrid g f).cores = s.cores := rfl
@[simp] theorem State.updGrid_mem (g : Nat) (f : Grid → Grid) : (s.updGrid g f).mem = s.mem := rfl
@[simp] theorem State.updGrid_tags (g : Nat) (f : Grid → Grid) : (s.updGrid g f).tags = s.tags := rfl
@[simp] theorem State.updGrid_poison (g : Nat) (f : Grid → Grid) : (s.updGrid g f).poison = s.poison := rfl
@[simp] theorem State.updGrid_coh (g : Nat) (f : Grid → Grid) : (s.updGrid g f).coh = s.coh := rfl
@[simp] theorem State.updGrid_slices (g : Nat) (f : Grid → Grid) : (s.updGrid g f).slices = s.slices := rfl
@[simp] theorem State.updGrid_owners (g : Nat) (f : Grid → Grid) : (s.updGrid g f).owners = s.owners := rfl
@[simp] theorem State.updGrid_frames (g : Nat) (f : Grid → Grid) : (s.updGrid g f).frames = s.frames := rfl
@[simp] theorem State.updGrid_tlb2 (g : Nat) (f : Grid → Grid) : (s.updGrid g f).tlb2 = s.tlb2 := rfl
@[simp] theorem State.updGrid_trace (g : Nat) (f : Grid → Grid) : (s.updGrid g f).trace = s.trace := rfl
@[simp] theorem State.updGrid_touch (g : Nat) (f : Grid → Grid) : (s.updGrid g f).touch = s.touch := rfl
@[simp] theorem State.updGrid_perf (g : Nat) (f : Grid → Grid) : (s.updGrid g f).perf = s.perf := rfl
@[simp] theorem State.updGrid_parts (g : Nat) (f : Grid → Grid) : (s.updGrid g f).parts = s.parts := rfl
@[simp] theorem State.updGrid_worlds (g : Nat) (f : Grid → Grid) : (s.updGrid g f).worlds = s.worlds := rfl
@[simp] theorem State.updGrid_teams (g : Nat) (f : Grid → Grid) : (s.updGrid g f).teams = s.teams := rfl
@[simp] theorem State.updGrid_revs (g : Nat) (f : Grid → Grid) : (s.updGrid g f).revs = s.revs := rfl
@[simp] theorem State.updGrid_fw (g : Nat) (f : Grid → Grid) : (s.updGrid g f).fw = s.fw := rfl
@[simp] theorem State.updGrid_ports (g : Nat) (f : Grid → Grid) : (s.updGrid g f).ports = s.ports := rfl
@[simp] theorem State.updGrid_pkg (g : Nat) (f : Grid → Grid) : (s.updGrid g f).pkg = s.pkg := rfl
@[simp] theorem State.updGrid_reply (g : Nat) (f : Grid → Grid) : (s.updGrid g f).reply = s.reply := rfl
@[simp] theorem State.updGrid_unsupported (g : Nat) (f : Grid → Grid) : (s.updGrid g f).unsupported = s.unsupported := rfl

/-! ## `updTeam` -/

@[simp] theorem State.updTeam_now (t : Nat) (f : Team → Team) : (s.updTeam t f).now = s.now := rfl
@[simp] theorem State.updTeam_cur (t : Nat) (f : Team → Team) : (s.updTeam t f).cur = s.cur := rfl
@[simp] theorem State.updTeam_issuing (t : Nat) (f : Team → Team) : (s.updTeam t f).issuing = s.issuing := rfl
@[simp] theorem State.updTeam_script (t : Nat) (f : Team → Team) : (s.updTeam t f).script = s.script := rfl
@[simp] theorem State.updTeam_fresh (t : Nat) (f : Team → Team) : (s.updTeam t f).fresh = s.fresh := rfl
@[simp] theorem State.updTeam_cores (t : Nat) (f : Team → Team) : (s.updTeam t f).cores = s.cores := rfl
@[simp] theorem State.updTeam_mem (t : Nat) (f : Team → Team) : (s.updTeam t f).mem = s.mem := rfl
@[simp] theorem State.updTeam_tags (t : Nat) (f : Team → Team) : (s.updTeam t f).tags = s.tags := rfl
@[simp] theorem State.updTeam_poison (t : Nat) (f : Team → Team) : (s.updTeam t f).poison = s.poison := rfl
@[simp] theorem State.updTeam_coh (t : Nat) (f : Team → Team) : (s.updTeam t f).coh = s.coh := rfl
@[simp] theorem State.updTeam_slices (t : Nat) (f : Team → Team) : (s.updTeam t f).slices = s.slices := rfl
@[simp] theorem State.updTeam_owners (t : Nat) (f : Team → Team) : (s.updTeam t f).owners = s.owners := rfl
@[simp] theorem State.updTeam_frames (t : Nat) (f : Team → Team) : (s.updTeam t f).frames = s.frames := rfl
@[simp] theorem State.updTeam_tlb2 (t : Nat) (f : Team → Team) : (s.updTeam t f).tlb2 = s.tlb2 := rfl
@[simp] theorem State.updTeam_trace (t : Nat) (f : Team → Team) : (s.updTeam t f).trace = s.trace := rfl
@[simp] theorem State.updTeam_touch (t : Nat) (f : Team → Team) : (s.updTeam t f).touch = s.touch := rfl
@[simp] theorem State.updTeam_perf (t : Nat) (f : Team → Team) : (s.updTeam t f).perf = s.perf := rfl
@[simp] theorem State.updTeam_parts (t : Nat) (f : Team → Team) : (s.updTeam t f).parts = s.parts := rfl
@[simp] theorem State.updTeam_worlds (t : Nat) (f : Team → Team) : (s.updTeam t f).worlds = s.worlds := rfl
@[simp] theorem State.updTeam_grids (t : Nat) (f : Team → Team) : (s.updTeam t f).grids = s.grids := rfl
@[simp] theorem State.updTeam_revs (t : Nat) (f : Team → Team) : (s.updTeam t f).revs = s.revs := rfl
@[simp] theorem State.updTeam_fw (t : Nat) (f : Team → Team) : (s.updTeam t f).fw = s.fw := rfl
@[simp] theorem State.updTeam_ports (t : Nat) (f : Team → Team) : (s.updTeam t f).ports = s.ports := rfl
@[simp] theorem State.updTeam_pkg (t : Nat) (f : Team → Team) : (s.updTeam t f).pkg = s.pkg := rfl
@[simp] theorem State.updTeam_reply (t : Nat) (f : Team → Team) : (s.updTeam t f).reply = s.reply := rfl
@[simp] theorem State.updTeam_unsupported (t : Nat) (f : Team → Team) : (s.updTeam t f).unsupported = s.unsupported := rfl

/-! ## `updRev` -/

@[simp] theorem State.updRev_now (r : Nat) (f : Revision → Revision) : (s.updRev r f).now = s.now := rfl
@[simp] theorem State.updRev_cur (r : Nat) (f : Revision → Revision) : (s.updRev r f).cur = s.cur := rfl
@[simp] theorem State.updRev_issuing (r : Nat) (f : Revision → Revision) : (s.updRev r f).issuing = s.issuing := rfl
@[simp] theorem State.updRev_script (r : Nat) (f : Revision → Revision) : (s.updRev r f).script = s.script := rfl
@[simp] theorem State.updRev_fresh (r : Nat) (f : Revision → Revision) : (s.updRev r f).fresh = s.fresh := rfl
@[simp] theorem State.updRev_cores (r : Nat) (f : Revision → Revision) : (s.updRev r f).cores = s.cores := rfl
@[simp] theorem State.updRev_mem (r : Nat) (f : Revision → Revision) : (s.updRev r f).mem = s.mem := rfl
@[simp] theorem State.updRev_tags (r : Nat) (f : Revision → Revision) : (s.updRev r f).tags = s.tags := rfl
@[simp] theorem State.updRev_poison (r : Nat) (f : Revision → Revision) : (s.updRev r f).poison = s.poison := rfl
@[simp] theorem State.updRev_coh (r : Nat) (f : Revision → Revision) : (s.updRev r f).coh = s.coh := rfl
@[simp] theorem State.updRev_slices (r : Nat) (f : Revision → Revision) : (s.updRev r f).slices = s.slices := rfl
@[simp] theorem State.updRev_owners (r : Nat) (f : Revision → Revision) : (s.updRev r f).owners = s.owners := rfl
@[simp] theorem State.updRev_frames (r : Nat) (f : Revision → Revision) : (s.updRev r f).frames = s.frames := rfl
@[simp] theorem State.updRev_tlb2 (r : Nat) (f : Revision → Revision) : (s.updRev r f).tlb2 = s.tlb2 := rfl
@[simp] theorem State.updRev_trace (r : Nat) (f : Revision → Revision) : (s.updRev r f).trace = s.trace := rfl
@[simp] theorem State.updRev_touch (r : Nat) (f : Revision → Revision) : (s.updRev r f).touch = s.touch := rfl
@[simp] theorem State.updRev_perf (r : Nat) (f : Revision → Revision) : (s.updRev r f).perf = s.perf := rfl
@[simp] theorem State.updRev_parts (r : Nat) (f : Revision → Revision) : (s.updRev r f).parts = s.parts := rfl
@[simp] theorem State.updRev_worlds (r : Nat) (f : Revision → Revision) : (s.updRev r f).worlds = s.worlds := rfl
@[simp] theorem State.updRev_grids (r : Nat) (f : Revision → Revision) : (s.updRev r f).grids = s.grids := rfl
@[simp] theorem State.updRev_teams (r : Nat) (f : Revision → Revision) : (s.updRev r f).teams = s.teams := rfl
@[simp] theorem State.updRev_fw (r : Nat) (f : Revision → Revision) : (s.updRev r f).fw = s.fw := rfl
@[simp] theorem State.updRev_ports (r : Nat) (f : Revision → Revision) : (s.updRev r f).ports = s.ports := rfl
@[simp] theorem State.updRev_pkg (r : Nat) (f : Revision → Revision) : (s.updRev r f).pkg = s.pkg := rfl
@[simp] theorem State.updRev_reply (r : Nat) (f : Revision → Revision) : (s.updRev r f).reply = s.reply := rfl
@[simp] theorem State.updRev_unsupported (r : Nat) (f : Revision → Revision) : (s.updRev r f).unsupported = s.unsupported := rfl

/-! ## `updCoh` -/

@[simp] theorem State.updCoh_now (l : Nat) (f : LineCoh → LineCoh) : (s.updCoh l f).now = s.now := rfl
@[simp] theorem State.updCoh_cur (l : Nat) (f : LineCoh → LineCoh) : (s.updCoh l f).cur = s.cur := rfl
@[simp] theorem State.updCoh_issuing (l : Nat) (f : LineCoh → LineCoh) : (s.updCoh l f).issuing = s.issuing := rfl
@[simp] theorem State.updCoh_script (l : Nat) (f : LineCoh → LineCoh) : (s.updCoh l f).script = s.script := rfl
@[simp] theorem State.updCoh_fresh (l : Nat) (f : LineCoh → LineCoh) : (s.updCoh l f).fresh = s.fresh := rfl
@[simp] theorem State.updCoh_cores (l : Nat) (f : LineCoh → LineCoh) : (s.updCoh l f).cores = s.cores := rfl
@[simp] theorem State.updCoh_mem (l : Nat) (f : LineCoh → LineCoh) : (s.updCoh l f).mem = s.mem := rfl
@[simp] theorem State.updCoh_tags (l : Nat) (f : LineCoh → LineCoh) : (s.updCoh l f).tags = s.tags := rfl
@[simp] theorem State.updCoh_poison (l : Nat) (f : LineCoh → LineCoh) : (s.updCoh l f).poison = s.poison := rfl
@[simp] theorem State.updCoh_slices (l : Nat) (f : LineCoh → LineCoh) : (s.updCoh l f).slices = s.slices := rfl
@[simp] theorem State.updCoh_owners (l : Nat) (f : LineCoh → LineCoh) : (s.updCoh l f).owners = s.owners := rfl
@[simp] theorem State.updCoh_frames (l : Nat) (f : LineCoh → LineCoh) : (s.updCoh l f).frames = s.frames := rfl
@[simp] theorem State.updCoh_tlb2 (l : Nat) (f : LineCoh → LineCoh) : (s.updCoh l f).tlb2 = s.tlb2 := rfl
@[simp] theorem State.updCoh_trace (l : Nat) (f : LineCoh → LineCoh) : (s.updCoh l f).trace = s.trace := rfl
@[simp] theorem State.updCoh_touch (l : Nat) (f : LineCoh → LineCoh) : (s.updCoh l f).touch = s.touch := rfl
@[simp] theorem State.updCoh_perf (l : Nat) (f : LineCoh → LineCoh) : (s.updCoh l f).perf = s.perf := rfl
@[simp] theorem State.updCoh_parts (l : Nat) (f : LineCoh → LineCoh) : (s.updCoh l f).parts = s.parts := rfl
@[simp] theorem State.updCoh_worlds (l : Nat) (f : LineCoh → LineCoh) : (s.updCoh l f).worlds = s.worlds := rfl
@[simp] theorem State.updCoh_grids (l : Nat) (f : LineCoh → LineCoh) : (s.updCoh l f).grids = s.grids := rfl
@[simp] theorem State.updCoh_teams (l : Nat) (f : LineCoh → LineCoh) : (s.updCoh l f).teams = s.teams := rfl
@[simp] theorem State.updCoh_revs (l : Nat) (f : LineCoh → LineCoh) : (s.updCoh l f).revs = s.revs := rfl
@[simp] theorem State.updCoh_fw (l : Nat) (f : LineCoh → LineCoh) : (s.updCoh l f).fw = s.fw := rfl
@[simp] theorem State.updCoh_ports (l : Nat) (f : LineCoh → LineCoh) : (s.updCoh l f).ports = s.ports := rfl
@[simp] theorem State.updCoh_pkg (l : Nat) (f : LineCoh → LineCoh) : (s.updCoh l f).pkg = s.pkg := rfl
@[simp] theorem State.updCoh_reply (l : Nat) (f : LineCoh → LineCoh) : (s.updCoh l f).reply = s.reply := rfl
@[simp] theorem State.updCoh_unsupported (l : Nat) (f : LineCoh → LineCoh) : (s.updCoh l f).unsupported = s.unsupported := rfl

/-! ## `updSlice` -/

@[simp] theorem State.updSlice_now (n : Nat) (f : Slice → Slice) : (s.updSlice n f).now = s.now := rfl
@[simp] theorem State.updSlice_cur (n : Nat) (f : Slice → Slice) : (s.updSlice n f).cur = s.cur := rfl
@[simp] theorem State.updSlice_issuing (n : Nat) (f : Slice → Slice) : (s.updSlice n f).issuing = s.issuing := rfl
@[simp] theorem State.updSlice_script (n : Nat) (f : Slice → Slice) : (s.updSlice n f).script = s.script := rfl
@[simp] theorem State.updSlice_fresh (n : Nat) (f : Slice → Slice) : (s.updSlice n f).fresh = s.fresh := rfl
@[simp] theorem State.updSlice_cores (n : Nat) (f : Slice → Slice) : (s.updSlice n f).cores = s.cores := rfl
@[simp] theorem State.updSlice_mem (n : Nat) (f : Slice → Slice) : (s.updSlice n f).mem = s.mem := rfl
@[simp] theorem State.updSlice_tags (n : Nat) (f : Slice → Slice) : (s.updSlice n f).tags = s.tags := rfl
@[simp] theorem State.updSlice_poison (n : Nat) (f : Slice → Slice) : (s.updSlice n f).poison = s.poison := rfl
@[simp] theorem State.updSlice_coh (n : Nat) (f : Slice → Slice) : (s.updSlice n f).coh = s.coh := rfl
@[simp] theorem State.updSlice_owners (n : Nat) (f : Slice → Slice) : (s.updSlice n f).owners = s.owners := rfl
@[simp] theorem State.updSlice_frames (n : Nat) (f : Slice → Slice) : (s.updSlice n f).frames = s.frames := rfl
@[simp] theorem State.updSlice_tlb2 (n : Nat) (f : Slice → Slice) : (s.updSlice n f).tlb2 = s.tlb2 := rfl
@[simp] theorem State.updSlice_trace (n : Nat) (f : Slice → Slice) : (s.updSlice n f).trace = s.trace := rfl
@[simp] theorem State.updSlice_touch (n : Nat) (f : Slice → Slice) : (s.updSlice n f).touch = s.touch := rfl
@[simp] theorem State.updSlice_perf (n : Nat) (f : Slice → Slice) : (s.updSlice n f).perf = s.perf := rfl
@[simp] theorem State.updSlice_parts (n : Nat) (f : Slice → Slice) : (s.updSlice n f).parts = s.parts := rfl
@[simp] theorem State.updSlice_worlds (n : Nat) (f : Slice → Slice) : (s.updSlice n f).worlds = s.worlds := rfl
@[simp] theorem State.updSlice_grids (n : Nat) (f : Slice → Slice) : (s.updSlice n f).grids = s.grids := rfl
@[simp] theorem State.updSlice_teams (n : Nat) (f : Slice → Slice) : (s.updSlice n f).teams = s.teams := rfl
@[simp] theorem State.updSlice_revs (n : Nat) (f : Slice → Slice) : (s.updSlice n f).revs = s.revs := rfl
@[simp] theorem State.updSlice_fw (n : Nat) (f : Slice → Slice) : (s.updSlice n f).fw = s.fw := rfl
@[simp] theorem State.updSlice_ports (n : Nat) (f : Slice → Slice) : (s.updSlice n f).ports = s.ports := rfl
@[simp] theorem State.updSlice_pkg (n : Nat) (f : Slice → Slice) : (s.updSlice n f).pkg = s.pkg := rfl
@[simp] theorem State.updSlice_reply (n : Nat) (f : Slice → Slice) : (s.updSlice n f).reply = s.reply := rfl
@[simp] theorem State.updSlice_unsupported (n : Nat) (f : Slice → Slice) : (s.updSlice n f).unsupported = s.unsupported := rfl

/-! ## `updTC` -/

@[simp] theorem State.updTC_now (t c : Nat) (f : TCore → TCore) : (s.updTC t c f).now = s.now := rfl
@[simp] theorem State.updTC_cur (t c : Nat) (f : TCore → TCore) : (s.updTC t c f).cur = s.cur := rfl
@[simp] theorem State.updTC_issuing (t c : Nat) (f : TCore → TCore) : (s.updTC t c f).issuing = s.issuing := rfl
@[simp] theorem State.updTC_script (t c : Nat) (f : TCore → TCore) : (s.updTC t c f).script = s.script := rfl
@[simp] theorem State.updTC_fresh (t c : Nat) (f : TCore → TCore) : (s.updTC t c f).fresh = s.fresh := rfl
@[simp] theorem State.updTC_cores (t c : Nat) (f : TCore → TCore) : (s.updTC t c f).cores = s.cores := rfl
@[simp] theorem State.updTC_mem (t c : Nat) (f : TCore → TCore) : (s.updTC t c f).mem = s.mem := rfl
@[simp] theorem State.updTC_tags (t c : Nat) (f : TCore → TCore) : (s.updTC t c f).tags = s.tags := rfl
@[simp] theorem State.updTC_poison (t c : Nat) (f : TCore → TCore) : (s.updTC t c f).poison = s.poison := rfl
@[simp] theorem State.updTC_coh (t c : Nat) (f : TCore → TCore) : (s.updTC t c f).coh = s.coh := rfl
@[simp] theorem State.updTC_slices (t c : Nat) (f : TCore → TCore) : (s.updTC t c f).slices = s.slices := rfl
@[simp] theorem State.updTC_owners (t c : Nat) (f : TCore → TCore) : (s.updTC t c f).owners = s.owners := rfl
@[simp] theorem State.updTC_frames (t c : Nat) (f : TCore → TCore) : (s.updTC t c f).frames = s.frames := rfl
@[simp] theorem State.updTC_tlb2 (t c : Nat) (f : TCore → TCore) : (s.updTC t c f).tlb2 = s.tlb2 := rfl
@[simp] theorem State.updTC_trace (t c : Nat) (f : TCore → TCore) : (s.updTC t c f).trace = s.trace := rfl
@[simp] theorem State.updTC_touch (t c : Nat) (f : TCore → TCore) : (s.updTC t c f).touch = s.touch := rfl
@[simp] theorem State.updTC_perf (t c : Nat) (f : TCore → TCore) : (s.updTC t c f).perf = s.perf := rfl
@[simp] theorem State.updTC_parts (t c : Nat) (f : TCore → TCore) : (s.updTC t c f).parts = s.parts := rfl
@[simp] theorem State.updTC_worlds (t c : Nat) (f : TCore → TCore) : (s.updTC t c f).worlds = s.worlds := rfl
@[simp] theorem State.updTC_grids (t c : Nat) (f : TCore → TCore) : (s.updTC t c f).grids = s.grids := rfl
@[simp] theorem State.updTC_revs (t c : Nat) (f : TCore → TCore) : (s.updTC t c f).revs = s.revs := rfl
@[simp] theorem State.updTC_fw (t c : Nat) (f : TCore → TCore) : (s.updTC t c f).fw = s.fw := rfl
@[simp] theorem State.updTC_ports (t c : Nat) (f : TCore → TCore) : (s.updTC t c f).ports = s.ports := rfl
@[simp] theorem State.updTC_pkg (t c : Nat) (f : TCore → TCore) : (s.updTC t c f).pkg = s.pkg := rfl
@[simp] theorem State.updTC_reply (t c : Nat) (f : TCore → TCore) : (s.updTC t c f).reply = s.reply := rfl
@[simp] theorem State.updTC_unsupported (t c : Nat) (f : TCore → TCore) : (s.updTC t c f).unsupported = s.unsupported := rfl

/-! ## `count` -/

@[simp] theorem State.count_now (k u n a : Nat) : (s.count k u n a).now = s.now := rfl
@[simp] theorem State.count_cur (k u n a : Nat) : (s.count k u n a).cur = s.cur := rfl
@[simp] theorem State.count_issuing (k u n a : Nat) : (s.count k u n a).issuing = s.issuing := rfl
@[simp] theorem State.count_script (k u n a : Nat) : (s.count k u n a).script = s.script := rfl
@[simp] theorem State.count_fresh (k u n a : Nat) : (s.count k u n a).fresh = s.fresh := rfl
@[simp] theorem State.count_cores (k u n a : Nat) : (s.count k u n a).cores = s.cores := rfl
@[simp] theorem State.count_mem (k u n a : Nat) : (s.count k u n a).mem = s.mem := rfl
@[simp] theorem State.count_tags (k u n a : Nat) : (s.count k u n a).tags = s.tags := rfl
@[simp] theorem State.count_poison (k u n a : Nat) : (s.count k u n a).poison = s.poison := rfl
@[simp] theorem State.count_coh (k u n a : Nat) : (s.count k u n a).coh = s.coh := rfl
@[simp] theorem State.count_slices (k u n a : Nat) : (s.count k u n a).slices = s.slices := rfl
@[simp] theorem State.count_owners (k u n a : Nat) : (s.count k u n a).owners = s.owners := rfl
@[simp] theorem State.count_frames (k u n a : Nat) : (s.count k u n a).frames = s.frames := rfl
@[simp] theorem State.count_tlb2 (k u n a : Nat) : (s.count k u n a).tlb2 = s.tlb2 := rfl
@[simp] theorem State.count_trace (k u n a : Nat) : (s.count k u n a).trace = s.trace := rfl
@[simp] theorem State.count_touch (k u n a : Nat) : (s.count k u n a).touch = s.touch := rfl
@[simp] theorem State.count_parts (k u n a : Nat) : (s.count k u n a).parts = s.parts := rfl
@[simp] theorem State.count_worlds (k u n a : Nat) : (s.count k u n a).worlds = s.worlds := rfl
@[simp] theorem State.count_grids (k u n a : Nat) : (s.count k u n a).grids = s.grids := rfl
@[simp] theorem State.count_teams (k u n a : Nat) : (s.count k u n a).teams = s.teams := rfl
@[simp] theorem State.count_revs (k u n a : Nat) : (s.count k u n a).revs = s.revs := rfl
@[simp] theorem State.count_fw (k u n a : Nat) : (s.count k u n a).fw = s.fw := rfl
@[simp] theorem State.count_ports (k u n a : Nat) : (s.count k u n a).ports = s.ports := rfl
@[simp] theorem State.count_pkg (k u n a : Nat) : (s.count k u n a).pkg = s.pkg := rfl
@[simp] theorem State.count_reply (k u n a : Nat) : (s.count k u n a).reply = s.reply := rfl
@[simp] theorem State.count_unsupported (k u n a : Nat) : (s.count k u n a).unsupported = s.unsupported := rfl

/-! ## `putData` -/

@[simp] theorem State.putData_now (k : Nat) (bs : List Byte) : (s.putData k bs).now = s.now := rfl
@[simp] theorem State.putData_cur (k : Nat) (bs : List Byte) : (s.putData k bs).cur = s.cur := rfl
@[simp] theorem State.putData_issuing (k : Nat) (bs : List Byte) : (s.putData k bs).issuing = s.issuing := rfl
@[simp] theorem State.putData_script (k : Nat) (bs : List Byte) : (s.putData k bs).script = s.script := rfl
@[simp] theorem State.putData_fresh (k : Nat) (bs : List Byte) : (s.putData k bs).fresh = s.fresh := rfl
@[simp] theorem State.putData_cores (k : Nat) (bs : List Byte) : (s.putData k bs).cores = s.cores := rfl
@[simp] theorem State.putData_coh (k : Nat) (bs : List Byte) : (s.putData k bs).coh = s.coh := rfl
@[simp] theorem State.putData_slices (k : Nat) (bs : List Byte) : (s.putData k bs).slices = s.slices := rfl
@[simp] theorem State.putData_owners (k : Nat) (bs : List Byte) : (s.putData k bs).owners = s.owners := rfl
@[simp] theorem State.putData_frames (k : Nat) (bs : List Byte) : (s.putData k bs).frames = s.frames := rfl
@[simp] theorem State.putData_tlb2 (k : Nat) (bs : List Byte) : (s.putData k bs).tlb2 = s.tlb2 := rfl
@[simp] theorem State.putData_trace (k : Nat) (bs : List Byte) : (s.putData k bs).trace = s.trace := rfl
@[simp] theorem State.putData_touch (k : Nat) (bs : List Byte) : (s.putData k bs).touch = s.touch := rfl
@[simp] theorem State.putData_perf (k : Nat) (bs : List Byte) : (s.putData k bs).perf = s.perf := rfl
@[simp] theorem State.putData_parts (k : Nat) (bs : List Byte) : (s.putData k bs).parts = s.parts := rfl
@[simp] theorem State.putData_worlds (k : Nat) (bs : List Byte) : (s.putData k bs).worlds = s.worlds := rfl
@[simp] theorem State.putData_grids (k : Nat) (bs : List Byte) : (s.putData k bs).grids = s.grids := rfl
@[simp] theorem State.putData_teams (k : Nat) (bs : List Byte) : (s.putData k bs).teams = s.teams := rfl
@[simp] theorem State.putData_revs (k : Nat) (bs : List Byte) : (s.putData k bs).revs = s.revs := rfl
@[simp] theorem State.putData_fw (k : Nat) (bs : List Byte) : (s.putData k bs).fw = s.fw := rfl
@[simp] theorem State.putData_ports (k : Nat) (bs : List Byte) : (s.putData k bs).ports = s.ports := rfl
@[simp] theorem State.putData_pkg (k : Nat) (bs : List Byte) : (s.putData k bs).pkg = s.pkg := rfl
@[simp] theorem State.putData_reply (k : Nat) (bs : List Byte) : (s.putData k bs).reply = s.reply := rfl
@[simp] theorem State.putData_unsupported (k : Nat) (bs : List Byte) : (s.putData k bs).unsupported = s.unsupported := rfl

/-! ## `putLine` -/

@[simp] theorem State.putLine_now (k : Nat) (v : CapReg) : (s.putLine k v).now = s.now := rfl
@[simp] theorem State.putLine_cur (k : Nat) (v : CapReg) : (s.putLine k v).cur = s.cur := rfl
@[simp] theorem State.putLine_issuing (k : Nat) (v : CapReg) : (s.putLine k v).issuing = s.issuing := rfl
@[simp] theorem State.putLine_script (k : Nat) (v : CapReg) : (s.putLine k v).script = s.script := rfl
@[simp] theorem State.putLine_fresh (k : Nat) (v : CapReg) : (s.putLine k v).fresh = s.fresh := rfl
@[simp] theorem State.putLine_cores (k : Nat) (v : CapReg) : (s.putLine k v).cores = s.cores := rfl
@[simp] theorem State.putLine_coh (k : Nat) (v : CapReg) : (s.putLine k v).coh = s.coh := rfl
@[simp] theorem State.putLine_slices (k : Nat) (v : CapReg) : (s.putLine k v).slices = s.slices := rfl
@[simp] theorem State.putLine_owners (k : Nat) (v : CapReg) : (s.putLine k v).owners = s.owners := rfl
@[simp] theorem State.putLine_frames (k : Nat) (v : CapReg) : (s.putLine k v).frames = s.frames := rfl
@[simp] theorem State.putLine_tlb2 (k : Nat) (v : CapReg) : (s.putLine k v).tlb2 = s.tlb2 := rfl
@[simp] theorem State.putLine_trace (k : Nat) (v : CapReg) : (s.putLine k v).trace = s.trace := rfl
@[simp] theorem State.putLine_touch (k : Nat) (v : CapReg) : (s.putLine k v).touch = s.touch := rfl
@[simp] theorem State.putLine_perf (k : Nat) (v : CapReg) : (s.putLine k v).perf = s.perf := rfl
@[simp] theorem State.putLine_parts (k : Nat) (v : CapReg) : (s.putLine k v).parts = s.parts := rfl
@[simp] theorem State.putLine_worlds (k : Nat) (v : CapReg) : (s.putLine k v).worlds = s.worlds := rfl
@[simp] theorem State.putLine_grids (k : Nat) (v : CapReg) : (s.putLine k v).grids = s.grids := rfl
@[simp] theorem State.putLine_teams (k : Nat) (v : CapReg) : (s.putLine k v).teams = s.teams := rfl
@[simp] theorem State.putLine_revs (k : Nat) (v : CapReg) : (s.putLine k v).revs = s.revs := rfl
@[simp] theorem State.putLine_fw (k : Nat) (v : CapReg) : (s.putLine k v).fw = s.fw := rfl
@[simp] theorem State.putLine_ports (k : Nat) (v : CapReg) : (s.putLine k v).ports = s.ports := rfl
@[simp] theorem State.putLine_pkg (k : Nat) (v : CapReg) : (s.putLine k v).pkg = s.pkg := rfl
@[simp] theorem State.putLine_reply (k : Nat) (v : CapReg) : (s.putLine k v).reply = s.reply := rfl
@[simp] theorem State.putLine_unsupported (k : Nat) (v : CapReg) : (s.putLine k v).unsupported = s.unsupported := rfl

/-! ## `putNibble` -/

@[simp] theorem State.putNibble_now (k n v : Nat) : (s.putNibble k n v).now = s.now := rfl
@[simp] theorem State.putNibble_cur (k n v : Nat) : (s.putNibble k n v).cur = s.cur := rfl
@[simp] theorem State.putNibble_issuing (k n v : Nat) : (s.putNibble k n v).issuing = s.issuing := rfl
@[simp] theorem State.putNibble_script (k n v : Nat) : (s.putNibble k n v).script = s.script := rfl
@[simp] theorem State.putNibble_fresh (k n v : Nat) : (s.putNibble k n v).fresh = s.fresh := rfl
@[simp] theorem State.putNibble_cores (k n v : Nat) : (s.putNibble k n v).cores = s.cores := rfl
@[simp] theorem State.putNibble_coh (k n v : Nat) : (s.putNibble k n v).coh = s.coh := rfl
@[simp] theorem State.putNibble_slices (k n v : Nat) : (s.putNibble k n v).slices = s.slices := rfl
@[simp] theorem State.putNibble_owners (k n v : Nat) : (s.putNibble k n v).owners = s.owners := rfl
@[simp] theorem State.putNibble_frames (k n v : Nat) : (s.putNibble k n v).frames = s.frames := rfl
@[simp] theorem State.putNibble_tlb2 (k n v : Nat) : (s.putNibble k n v).tlb2 = s.tlb2 := rfl
@[simp] theorem State.putNibble_trace (k n v : Nat) : (s.putNibble k n v).trace = s.trace := rfl
@[simp] theorem State.putNibble_touch (k n v : Nat) : (s.putNibble k n v).touch = s.touch := rfl
@[simp] theorem State.putNibble_perf (k n v : Nat) : (s.putNibble k n v).perf = s.perf := rfl
@[simp] theorem State.putNibble_parts (k n v : Nat) : (s.putNibble k n v).parts = s.parts := rfl
@[simp] theorem State.putNibble_worlds (k n v : Nat) : (s.putNibble k n v).worlds = s.worlds := rfl
@[simp] theorem State.putNibble_grids (k n v : Nat) : (s.putNibble k n v).grids = s.grids := rfl
@[simp] theorem State.putNibble_teams (k n v : Nat) : (s.putNibble k n v).teams = s.teams := rfl
@[simp] theorem State.putNibble_revs (k n v : Nat) : (s.putNibble k n v).revs = s.revs := rfl
@[simp] theorem State.putNibble_fw (k n v : Nat) : (s.putNibble k n v).fw = s.fw := rfl
@[simp] theorem State.putNibble_ports (k n v : Nat) : (s.putNibble k n v).ports = s.ports := rfl
@[simp] theorem State.putNibble_pkg (k n v : Nat) : (s.putNibble k n v).pkg = s.pkg := rfl
@[simp] theorem State.putNibble_reply (k n v : Nat) : (s.putNibble k n v).reply = s.reply := rfl
@[simp] theorem State.putNibble_unsupported (k n v : Nat) : (s.putNibble k n v).unsupported = s.unsupported := rfl

/-! ## `answered` -/

@[simp] theorem State.answered_now (ok : Bool) : (s.answered ok).now = s.now := rfl
@[simp] theorem State.answered_cur (ok : Bool) : (s.answered ok).cur = s.cur := rfl
@[simp] theorem State.answered_issuing (ok : Bool) : (s.answered ok).issuing = s.issuing := rfl
@[simp] theorem State.answered_script (ok : Bool) : (s.answered ok).script = s.script := rfl
@[simp] theorem State.answered_fresh (ok : Bool) : (s.answered ok).fresh = s.fresh := rfl
@[simp] theorem State.answered_cores (ok : Bool) : (s.answered ok).cores = s.cores := rfl
@[simp] theorem State.answered_mem (ok : Bool) : (s.answered ok).mem = s.mem := rfl
@[simp] theorem State.answered_tags (ok : Bool) : (s.answered ok).tags = s.tags := rfl
@[simp] theorem State.answered_poison (ok : Bool) : (s.answered ok).poison = s.poison := rfl
@[simp] theorem State.answered_coh (ok : Bool) : (s.answered ok).coh = s.coh := rfl
@[simp] theorem State.answered_slices (ok : Bool) : (s.answered ok).slices = s.slices := rfl
@[simp] theorem State.answered_owners (ok : Bool) : (s.answered ok).owners = s.owners := rfl
@[simp] theorem State.answered_frames (ok : Bool) : (s.answered ok).frames = s.frames := rfl
@[simp] theorem State.answered_tlb2 (ok : Bool) : (s.answered ok).tlb2 = s.tlb2 := rfl
@[simp] theorem State.answered_trace (ok : Bool) : (s.answered ok).trace = s.trace := rfl
@[simp] theorem State.answered_touch (ok : Bool) : (s.answered ok).touch = s.touch := rfl
@[simp] theorem State.answered_perf (ok : Bool) : (s.answered ok).perf = s.perf := rfl
@[simp] theorem State.answered_parts (ok : Bool) : (s.answered ok).parts = s.parts := rfl
@[simp] theorem State.answered_worlds (ok : Bool) : (s.answered ok).worlds = s.worlds := rfl
@[simp] theorem State.answered_grids (ok : Bool) : (s.answered ok).grids = s.grids := rfl
@[simp] theorem State.answered_teams (ok : Bool) : (s.answered ok).teams = s.teams := rfl
@[simp] theorem State.answered_revs (ok : Bool) : (s.answered ok).revs = s.revs := rfl
@[simp] theorem State.answered_fw (ok : Bool) : (s.answered ok).fw = s.fw := rfl
@[simp] theorem State.answered_ports (ok : Bool) : (s.answered ok).ports = s.ports := rfl
@[simp] theorem State.answered_pkg (ok : Bool) : (s.answered ok).pkg = s.pkg := rfl
@[simp] theorem State.answered_reply (ok : Bool) : (s.answered ok).reply = s.reply := rfl

/-! ## `zeroRange` -/

@[simp] theorem State.zeroRange_now (k n : Nat) : (s.zeroRange k n).now = s.now := rfl
@[simp] theorem State.zeroRange_cur (k n : Nat) : (s.zeroRange k n).cur = s.cur := rfl
@[simp] theorem State.zeroRange_issuing (k n : Nat) : (s.zeroRange k n).issuing = s.issuing := rfl
@[simp] theorem State.zeroRange_script (k n : Nat) : (s.zeroRange k n).script = s.script := rfl
@[simp] theorem State.zeroRange_fresh (k n : Nat) : (s.zeroRange k n).fresh = s.fresh := rfl
@[simp] theorem State.zeroRange_cores (k n : Nat) : (s.zeroRange k n).cores = s.cores := rfl
@[simp] theorem State.zeroRange_coh (k n : Nat) : (s.zeroRange k n).coh = s.coh := rfl
@[simp] theorem State.zeroRange_slices (k n : Nat) : (s.zeroRange k n).slices = s.slices := rfl
@[simp] theorem State.zeroRange_owners (k n : Nat) : (s.zeroRange k n).owners = s.owners := rfl
@[simp] theorem State.zeroRange_frames (k n : Nat) : (s.zeroRange k n).frames = s.frames := rfl
@[simp] theorem State.zeroRange_tlb2 (k n : Nat) : (s.zeroRange k n).tlb2 = s.tlb2 := rfl
@[simp] theorem State.zeroRange_trace (k n : Nat) : (s.zeroRange k n).trace = s.trace := rfl
@[simp] theorem State.zeroRange_touch (k n : Nat) : (s.zeroRange k n).touch = s.touch := rfl
@[simp] theorem State.zeroRange_perf (k n : Nat) : (s.zeroRange k n).perf = s.perf := rfl
@[simp] theorem State.zeroRange_parts (k n : Nat) : (s.zeroRange k n).parts = s.parts := rfl
@[simp] theorem State.zeroRange_worlds (k n : Nat) : (s.zeroRange k n).worlds = s.worlds := rfl
@[simp] theorem State.zeroRange_grids (k n : Nat) : (s.zeroRange k n).grids = s.grids := rfl
@[simp] theorem State.zeroRange_teams (k n : Nat) : (s.zeroRange k n).teams = s.teams := rfl
@[simp] theorem State.zeroRange_revs (k n : Nat) : (s.zeroRange k n).revs = s.revs := rfl
@[simp] theorem State.zeroRange_fw (k n : Nat) : (s.zeroRange k n).fw = s.fw := rfl
@[simp] theorem State.zeroRange_ports (k n : Nat) : (s.zeroRange k n).ports = s.ports := rfl
@[simp] theorem State.zeroRange_pkg (k n : Nat) : (s.zeroRange k n).pkg = s.pkg := rfl
@[simp] theorem State.zeroRange_reply (k n : Nat) : (s.zeroRange k n).reply = s.reply := rfl
@[simp] theorem State.zeroRange_unsupported (k n : Nat) : (s.zeroRange k n).unsupported = s.unsupported := rfl

/-! ## Reads of what was written -/

@[simp] theorem State.coreAt_setCore_self (c : Nat) (k : Core) : (s.setCore c k).coreAt c = k := by
  simp [State.coreAt, State.setCore]

theorem State.coreAt_setCore (c d : Nat) (k : Core) : (s.setCore c k).coreAt d = if d = c then k else s.coreAt d := by
  simp [State.coreAt, State.setCore, SMap.look_put]

@[simp] theorem State.coreAt_updCore_self (c : Nat) (f : Core → Core) : (s.updCore c f).coreAt c = f (s.coreAt c) := by
  simp [State.updCore]

theorem State.coreAt_updCore (c d : Nat) (f : Core → Core) :
    (s.updCore c f).coreAt d = if d = c then f (s.coreAt c) else s.coreAt d := by
  simp [State.updCore, State.coreAt_setCore]

@[simp] theorem State.slotAt_setSlot_self (k : Nat) (sl : Slot) : (s.setSlot k sl).slotAt k = sl := by
  simp [State.slotAt, State.setSlot]

theorem State.slotAt_setSlot_ne {k j : Nat} (sl : Slot) (h : j ≠ k) : (s.setSlot k sl).slotAt j = s.slotAt j := by
  unfold State.slotAt State.setSlot
  rw [State.coreAt_updCore]
  split
  · next e =>
    have : j % 4 ≠ k % 4 := by omega
    simp [SMap.look_put_ne _ _ _ this, e]
  · rfl

@[simp] theorem State.slotAt_updSlot_self (k : Nat) (f : Slot → Slot) : (s.updSlot k f).slotAt k = f (s.slotAt k) := by
  simp [State.updSlot]

theorem State.slotAt_updSlot_ne {k j : Nat} (f : Slot → Slot) (h : j ≠ k) : (s.updSlot k f).slotAt j = s.slotAt j :=
  State.slotAt_setSlot_ne s _ h

theorem State.slotAt_updSlot (k j : Nat) (f : Slot → Slot) :
    (s.updSlot k f).slotAt j = if j = k then f (s.slotAt k) else s.slotAt j := by
  split
  · next h => rw [h, State.slotAt_updSlot_self]
  · next h => exact State.slotAt_updSlot_ne s f h

@[simp] theorem State.sl_updSl (f : Slot → Slot) : (s.updSl f).sl = f s.sl := by
  simp [State.sl, State.updSl]

/-- A change of a slot leaves every other part of its core alone. -/
theorem State.coreAt_updSlot (k c : Nat) (f : Slot → Slot) :
    (s.updSlot k f).coreAt c =
      { s.coreAt c with slots := if c = k / 4 then SMap.put Slot.reset (s.coreAt c).slots (k % 4) (f (s.slotAt k))
                                 else (s.coreAt c).slots } := by
  unfold State.updSlot State.setSlot
  rw [State.coreAt_updCore]
  split
  · next h => subst h; simp
  · simp

/-- A change of a core that keeps its slots keeps every slot. -/
theorem State.slotAt_updCore (c k : Nat) (f : Core → Core) (h : ∀ x, (f x).slots = x.slots) :
    (s.updCore c f).slotAt k = s.slotAt k := by
  unfold State.slotAt
  rw [State.coreAt_updCore]
  split
  · next e => rw [h, e]
  · rfl

@[simp] theorem State.coreAt_count (k u n a c : Nat) : (s.count k u n a).coreAt c = s.coreAt c := rfl
@[simp] theorem State.slotAt_count (k u n a j : Nat) : (s.count k u n a).slotAt j = s.slotAt j := rfl
@[simp] theorem State.sl_count (k u n a : Nat) : (s.count k u n a).sl = s.sl := rfl

@[simp] theorem State.worldAt_updWorld_self (k : Nat) (f : World → World) : (s.updWorld k f).worldAt k = f (s.worldAt k) := by
  simp [State.worldAt, State.updWorld, SMap.upd]

theorem State.worldAt_updWorld (k j : Nat) (f : World → World) :
    (s.updWorld k f).worldAt j = if j = k then f (s.worldAt k) else s.worldAt j := by
  simp [State.worldAt, State.updWorld, SMap.upd, SMap.look_put]

@[simp] theorem State.partAt_updPart_self (k : Nat) (f : Part → Part) : (s.updPart k f).partAt k = f (s.partAt k) := by
  simp [State.partAt, State.updPart, SMap.upd]

theorem State.partAt_updPart (k j : Nat) (f : Part → Part) :
    (s.updPart k f).partAt j = if j = k then f (s.partAt k) else s.partAt j := by
  simp [State.partAt, State.updPart, SMap.upd, SMap.look_put]

@[simp] theorem State.gridAt_updGrid_self (k : Nat) (f : Grid → Grid) : (s.updGrid k f).gridAt k = f (s.gridAt k) := by
  simp [State.gridAt, State.updGrid, SMap.upd]

theorem State.gridAt_updGrid (k j : Nat) (f : Grid → Grid) :
    (s.updGrid k f).gridAt j = if j = k then f (s.gridAt k) else s.gridAt j := by
  simp [State.gridAt, State.updGrid, SMap.upd, SMap.look_put]

@[simp] theorem State.teamAt_updTeam_self (k : Nat) (f : Team → Team) : (s.updTeam k f).teamAt k = f (s.teamAt k) := by
  simp [State.teamAt, State.updTeam, SMap.upd]

theorem State.teamAt_updTeam (k j : Nat) (f : Team → Team) :
    (s.updTeam k f).teamAt j = if j = k then f (s.teamAt k) else s.teamAt j := by
  simp [State.teamAt, State.updTeam, SMap.upd, SMap.look_put]

@[simp] theorem State.revAt_updRev_self (k : Nat) (f : Revision → Revision) : (s.updRev k f).revAt k = f (s.revAt k) := by
  simp [State.revAt, State.updRev, SMap.upd]

theorem State.revAt_updRev (k j : Nat) (f : Revision → Revision) :
    (s.updRev k f).revAt j = if j = k then f (s.revAt k) else s.revAt j := by
  simp [State.revAt, State.updRev, SMap.upd, SMap.look_put]

@[simp] theorem State.cohAt_updCoh_self (k : Nat) (f : LineCoh → LineCoh) : (s.updCoh k f).cohAt k = f (s.cohAt k) := by
  simp [State.cohAt, State.updCoh, SMap.upd]

theorem State.cohAt_updCoh (k j : Nat) (f : LineCoh → LineCoh) :
    (s.updCoh k f).cohAt j = if j = k then f (s.cohAt k) else s.cohAt j := by
  simp [State.cohAt, State.updCoh, SMap.upd, SMap.look_put]

@[simp] theorem State.sliceAt_updSlice_self (k : Nat) (f : Slice → Slice) : (s.updSlice k f).sliceAt k = f (s.sliceAt k) := by
  simp [State.sliceAt, State.updSlice, SMap.upd]

theorem State.sliceAt_updSlice (k j : Nat) (f : Slice → Slice) :
    (s.updSlice k f).sliceAt j = if j = k then f (s.sliceAt k) else s.sliceAt j := by
  simp [State.sliceAt, State.updSlice, SMap.upd, SMap.look_put]

end Sys2Proof.Machine
end

