-- ==== Sys2Proof/Laws/Issue.lean ====
section
/-!
SUPPORT. What the shared operations of issue do, said once: falling through, the bookkeeping of an issue, and an
instruction whose effect is a change of its slot's registers.
-/

namespace Sys2Proof.Machine

open Sys2Proof.Safety

/-! ## Elsewhere -/

theorem elsewhere_refl (s : State) : Elsewhere s s :=
  ⟨rfl, fun _ _ => rfl, fun _ => rfl, fun _ _ => rfl, fun _ _ _ => rfl⟩

theorem elsewhere_cur {s t : State} (h : Elsewhere s t) : t.cur = s.cur := show (bareState t).cur = (bareState s).cur from congrArg State.cur h.rest

theorem elsewhere_trans {s t u : State} (h : Elsewhere s t) (k : Elsewhere t u) : Elsewhere s u := by
  have e := elsewhere_cur h
  exact ⟨k.rest.trans h.rest, fun j hj => (k.slots j (by rw [e]; exact hj)).trans (h.slots j hj),
   fun c => (k.cores c).trans (h.cores c), fun c hc => (k.wtlim c (by rw [e]; exact hc)).trans (h.wtlim c hc),
   fun j h1 h2 => (k.perf j (by rw [e]; exact h1) (by rw [e]; exact h2)).trans (h.perf j h1 h2)⟩

/-- A change of the issuing slot alone. -/
theorem elsewhere_updSl (s : State) (f : Slot → Slot) : Elsewhere s (s.updSl f) := by
  refine ⟨rfl, fun k hk => State.slotAt_updSlot_ne s f hk, fun c => ?_, fun c _ => ?_, fun _ _ _ => rfl⟩
  · simp only [State.updSl, State.coreAt_updSlot, bareCore]
  · simp only [State.updSl, State.coreAt_updSlot]

/-- A count of an instruction or a park of the issuing core. -/
theorem elsewhere_count (s : State) (n a : Nat) (h : n = 1 ∨ n = 2) : Elsewhere s (s.count 0 (s.cur / 4) n a) := by
  refine ⟨rfl, fun k _ => State.slotAt_count s _ _ _ _ k, fun c => congrArg bareCore (State.coreAt_count s _ _ _ _ c),
    fun c _ => congrArg Core.wtlim (State.coreAt_count s _ _ _ _ c), fun k h1 h2 => ?_⟩
  unfold State.count SMap.upd
  refine SMap.look_put_ne _ _ _ ?_
  obtain rfl | rfl := h
  · exact h1
  · exact h2

/-- A change of the core's choice state alone. -/
theorem elsewhere_updMyCore (s : State) (f : Core → Core) (hs : ∀ c, (f c).slots = c.slots)
    (hk : ∀ c, bareCore (f c) = bareCore c) : Elsewhere s (s.updMyCore f) := by
  refine ⟨rfl, fun k _ => State.slotAt_updCore s _ k f hs, fun c => ?_, fun c hc => ?_, fun _ _ _ => rfl⟩
  · rw [State.updMyCore, State.coreAt_updCore]
    split
    · next e => rw [e]; exact hk _
    · rfl
  · rw [State.updMyCore, State.coreAt_updCore, if_neg hc]

theorem sl_updMyCore (s : State) (f : Core → Core) (hs : ∀ c, (f c).slots = c.slots) : (s.updMyCore f).sl = s.sl :=
  State.slotAt_updCore s _ _ f hs

/-! ## The bookkeeping of an issue -/

/-- The control bits of an instruction are those of its encoding. -/
def Issues (i : Instr) (g : Ctl) : Prop := ∀ (f : Fields) (h : Ctl), encodeFields i = some f → ctl f = .ok h → h = g

/-- An instruction whose encoding carries `g` issues with `g`. -/
theorem issues_mk {i : Instr} {op sub d a b imm : Nat} {g : Ctl} (h : encodeFields i = some (Fields.mk' op sub g d a b imm)) :
    Issues i g := by
  intro f k hf hk
  rw [h] at hf
  cases hf
  rw [ctl_mk] at hk
  cases hk
  rfl

/-- A slot without what stops or delays it. -/
def calm (sl : Slot) : Slot :=
  { sl with stop := .run, timer := none, callee := none, arrived := none, notBefore := 0 }

/-- A property that does not depend on what stops or delays a slot. -/
theorem calm_congr {a b : Slot} (h : calm b = calm a) {α : Type} (f : Slot → α) (hf : ∀ c, f (calm c) = f c) : f b = f a := by
  rw [← hf b, h, hf a]

/-- What `issued` does: counters, the choice of the next slot, a delay and a park. -/
theorem issued_spec (s : State) (g : Ctl) (n : Nat) : Elsewhere s (s.issued g n) ∧ calm (s.issued g n).sl = calm s.sl := by
  unfold State.issued
  extract_lets core s1 s2 s3
  have h1 : Elsewhere s s1 := elsewhere_count s 1 1 (.inl rfl)
  have h2 : Elsewhere s1 s2 := elsewhere_updMyCore s1 _ (fun _ => rfl) (fun _ => rfl)
  have e2 : s2.sl = s.sl := sl_updMyCore s1 _ (fun _ => rfl)
  have h3 : Elsewhere s s3 := elsewhere_trans (elsewhere_trans h1 h2) (elsewhere_updSl s2 _)
  have e3 : calm s3.sl = calm s.sl := by rw [State.sl_updSl, e2]; rfl
  split
  · unfold State.parkIfOwing
    split
    · refine ⟨elsewhere_trans (elsewhere_trans h3 (elsewhere_updSl s3 _)) (elsewhere_count _ 2 1 (.inr rfl)), ?_⟩
      rw [State.sl_count, State.sl_updSl]
      exact e3
    · exact ⟨h3, e3⟩
  · exact ⟨h3, e3⟩

/-- `issued` stops, delays and marks the slot as the control bits say (R22, R93). -/
theorem issued_paced (s : State) (g : Ctl) (n : Nat) :
    Paced g s.now (s.issued g n).sl ∧ (s.issued g n).core.yielded = if g.yld = true then some (s.cur % 4) else none := by
  unfold State.issued
  extract_lets core s1 s2 s3
  have e3 : s3.sl.stop = .run ∧ s3.sl.notBefore = s.now + max g.dly.val (if n = 0 then 0 else n + 1) := by
    rw [State.sl_updSl]; exact ⟨rfl, rfl⟩
  have y3 : (s3.coreAt (s.cur / 4)).yielded = if g.yld = true then some (s.cur % 4) else none := by
    simp only [s3, s2, State.updSl, State.updMyCore, State.coreAt_updSlot, State.coreAt_updCore]
    exact if_pos rfl ▸ rfl
  have d : s.now + g.dly.val ≤ s3.sl.notBefore := by rw [e3.2]; omega
  split
  · next hs =>
    unfold State.parkIfOwing
    split
    · next ho =>
      refine ⟨⟨?_, ?_⟩, ?_⟩
      · rw [State.sl_count, State.sl_updSl]
        exact (if_pos ⟨hs, ho⟩).symm
      · rw [State.sl_count, State.sl_updSl]; exact d
      · refine Eq.trans ?_ y3
        simp only [State.core, State.coreAt_count, State.updSl, State.coreAt_updSlot]
        rfl
    · next ho => exact ⟨⟨e3.1.trans (if_neg fun h => ho h.2).symm, d⟩, y3⟩
  · next hs => exact ⟨⟨e3.1.trans (if_neg fun h => hs h.1).symm, d⟩, y3⟩

/-- An instruction that ends in `issued` from a state of its own time and slot is paced by its control bits. -/
theorem pacedBy_issued {i : Instr} {g : Ctl} {s : State} (hg : Issues i g) (t : State) (n : Nat) (hn : t.now = s.now)
    (hc : t.cur = s.cur) : PacedBy i s (t.issued g n) := by
  intro f k hf hk
  obtain rfl := hg f k hf hk
  rw [← hn, ← hc]
  exact issued_paced t k n

/-- The end-of-body test changes the program counter and the loop count alone (R125). -/
theorem fall_spec (a : Slot) : FallsThrough a (a.fall a.pc) := by
  unfold FallsThrough Slot.fall
  dsimp only
  by_cases h : a.lc ≠ 0 ∧ ((a.le.toNat % 2 ^ 32 : Nat) : Int) = a.pc ∧ (a.le.toNat / 2 ^ 32 = 0 ∨ a.le.toNat / 2 ^ 32 = a.obj)
  · rw [if_pos h, if_pos h]; exact ⟨rfl, rfl, rfl⟩
  · rw [if_neg h, if_neg h]; exact ⟨rfl, rfl, rfl⟩

/-- A slot at another place of the program. -/
def atPlace (sl : Slot) (pc : Int) (lc : Word) : Slot := { sl with pc := pc, lc := lc }

theorem fall_rest (a : Slot) : atPlace (a.fall a.pc) a.pc a.lc = a := by
  unfold Slot.fall
  dsimp only
  split <;> rfl

/-- What a change of the issuing slot, followed by `doneStall`, comes to, for a change that keeps the program counter,
the loop registers and the object. -/
theorem doneStall_spec (s : State) (g : Ctl) (n : Nat) (f : Slot → Slot)
    (h : (f s.sl).pc = s.sl.pc ∧ (f s.sl).obj = s.sl.obj ∧ (f s.sl).lc = s.sl.lc ∧ (f s.sl).le = s.sl.le ∧ (f s.sl).ls = s.sl.ls) :
    Elsewhere s ((s.updSl f).doneStall g n) ∧ FallsThrough s.sl ((s.updSl f).doneStall g n).sl
      ∧ calm (atPlace ((s.updSl f).doneStall g n).sl s.sl.pc s.sl.lc) = calm (f s.sl) := by
  unfold State.doneStall
  obtain ⟨he, k⟩ := issued_spec ((s.updSl f).updSl fun sl => sl.fall sl.pc) g n
  have e : Elsewhere s ((s.updSl f).updSl fun sl => sl.fall sl.pc) :=
    elsewhere_trans (elsewhere_updSl s f) (elsewhere_updSl _ _)
  rw [State.sl_updSl, State.sl_updSl] at k
  generalize ((s.updSl f).updSl fun sl => sl.fall sl.pc).issued g n = u at he k ⊢
  refine ⟨elsewhere_trans e he, ?_, ?_⟩
  · have t := fall_spec (f s.sl)
    unfold FallsThrough at t ⊢
    rw [calm_congr k (·.pc) (fun _ => rfl), calm_congr k (·.obj) (fun _ => rfl), calm_congr k (·.lc) (fun _ => rfl)]
    rw [h.2.1, h.2.2.1, h.2.2.2.1, h.2.2.2.2] at t
    rw [h.1] at t ⊢
    exact t
  · have r := congrArg calm (fall_rest (f s.sl))
    rw [h.1, h.2.2.1] at r
    rw [h.1] at k
    exact (congrArg (fun c : Slot => atPlace c s.sl.pc s.sl.lc) k).trans r

/-! ## Registers after writes -/

theorem xr_setX (sl : Slot) (d r : XReg) (w : Word) :
    (sl.setX d w).xr r = if r = d ∧ d ≠ 0 then w else sl.xr r := by
  unfold Slot.setX Slot.xr
  by_cases hd : d = 0
  · simp [hd]
  · by_cases hr : r = d
    · subst hr
      simp [hd, Slot.cancel]
    · have : r.val ≠ d.val := fun e => hr (Fin.ext e)
      simp [hd, hr, Slot.cancel, SMap.look_put_ne _ _ _ this]

theorem vr_setV (sl : Slot) (d r : VReg) (l : Line) : (sl.setV d l).vr r = if r = d then l else sl.vr r := by
  unfold Slot.setV Slot.vr
  by_cases hr : r = d
  · subst hr; simp
  · have : r.val ≠ d.val := fun e => hr (Fin.ext e)
    simp [hr, SMap.look_put_ne _ _ _ this]

theorem cr_setC (sl : Slot) (d r : CReg) (v : CapReg) :
    (sl.setC d v).cr r = if r = d ∧ d ≠ 0 then v else sl.cr r := by
  unfold Slot.setC Slot.cr
  by_cases hd : d = 0
  · simp [hd]
  · by_cases hr : r = d
    · subst hr
      simp [hd, Slot.cancel]
    · have : r.val ≠ d.val := fun e => hr (Fin.ext e)
      simp [hd, hr, Slot.cancel, SMap.look_put_ne _ _ _ this]

theorem pr_setP (sl : Slot) (d r : PReg) (b : BitVec 16) :
    (sl.setP d b).pr r = if r = d ∧ d ≠ 0 then b else sl.pr r := by
  unfold Slot.setP Slot.pr
  by_cases hd : d = 0
  · simp [hd]
  · by_cases hr : r = d
    · subst hr
      simp [hd]
    · have : r.val ≠ d.val := fun e => hr (Fin.ext e)
      simp [hd, hr, SMap.look_put_ne _ _ _ this]

theorem setX_rest (sl : Slot) (d : XReg) (w : Word) :
    (sl.setX d w).v = sl.v ∧ (sl.setX d w).c = sl.c ∧ (sl.setX d w).p = sl.p ∧ (sl.setX d w).fflags = sl.fflags
      ∧ (sl.setX d w).pc = sl.pc ∧ (sl.setX d w).obj = sl.obj ∧ (sl.setX d w).lc = sl.lc ∧ (sl.setX d w).le = sl.le
      ∧ (sl.setX d w).ls = sl.ls ∧ bareSlot (sl.setX d w) = bareSlot sl := by
  unfold Slot.setX
  split <;> exact ⟨rfl, rfl, rfl, rfl, rfl, rfl, rfl, rfl, rfl, rfl⟩

theorem setV_rest (sl : Slot) (d : VReg) (w : Line) :
    (sl.setV d w).x = sl.x ∧ (sl.setV d w).c = sl.c ∧ (sl.setV d w).p = sl.p ∧ (sl.setV d w).fflags = sl.fflags
      ∧ (sl.setV d w).pc = sl.pc ∧ (sl.setV d w).obj = sl.obj ∧ (sl.setV d w).lc = sl.lc ∧ (sl.setV d w).le = sl.le
      ∧ (sl.setV d w).ls = sl.ls ∧ bareSlot (sl.setV d w) = bareSlot sl :=
  ⟨rfl, rfl, rfl, rfl, rfl, rfl, rfl, rfl, rfl, rfl⟩

theorem setC_rest (sl : Slot) (d : CReg) (w : CapReg) :
    (sl.setC d w).x = sl.x ∧ (sl.setC d w).v = sl.v ∧ (sl.setC d w).p = sl.p ∧ (sl.setC d w).fflags = sl.fflags
      ∧ (sl.setC d w).pc = sl.pc ∧ (sl.setC d w).obj = sl.obj ∧ (sl.setC d w).lc = sl.lc ∧ (sl.setC d w).le = sl.le
      ∧ (sl.setC d w).ls = sl.ls ∧ bareSlot (sl.setC d w) = bareSlot sl := by
  unfold Slot.setC
  split <;> exact ⟨rfl, rfl, rfl, rfl, rfl, rfl, rfl, rfl, rfl, rfl⟩

theorem setP_rest (sl : Slot) (d : PReg) (w : BitVec 16) :
    (sl.setP d w).x = sl.x ∧ (sl.setP d w).v = sl.v ∧ (sl.setP d w).c = sl.c ∧ (sl.setP d w).fflags = sl.fflags
      ∧ (sl.setP d w).pc = sl.pc ∧ (sl.setP d w).obj = sl.obj ∧ (sl.setP d w).lc = sl.lc ∧ (sl.setP d w).le = sl.le
      ∧ (sl.setP d w).ls = sl.ls ∧ bareSlot (sl.setP d w) = bareSlot sl := by
  unfold Slot.setP
  split <;> exact ⟨rfl, rfl, rfl, rfl, rfl, rfl, rfl, rfl, rfl, rfl⟩

/-! ## An instruction that writes one register -/

/-- What a slot reads, with its flags and what is owed, deferred and queued, is as another's. -/
structure Reads (b a : Slot) : Prop where
  x : ∀ r, b.xr r = a.xr r
  v : ∀ r, b.vr r = a.vr r
  c : ∀ r, b.cr r = a.cr r
  p : ∀ r, b.pr r = a.pr r
  fflags : b.fflags = a.fflags
  owed : b.owed = a.owed
  deferred : b.deferred = a.deferred
  out : b.out = a.out
  seq : b.seq = a.seq

/-- The register files of a slot read alike when the slots agree but for what stops or moves them. -/
theorem atPlace_reads {a b : Slot} {pc : Int} {lc : Word} (h : calm (atPlace b pc lc) = calm a) :
    Reads b a ∧ bareSlot b = bareSlot a := by
  have hx : b.x = a.x := by have k := congrArg Slot.x h; exact k
  have hv : b.v = a.v := by have k := congrArg Slot.v h; exact k
  have hc : b.c = a.c := by have k := congrArg Slot.c h; exact k
  have hp : b.p = a.p := by have k := congrArg Slot.p h; exact k
  refine ⟨⟨fun r => ?_, fun r => ?_, fun r => ?_, fun r => ?_, ?_, ?_, ?_, ?_, ?_⟩, ?_⟩
  · simp only [Slot.xr, hx]
  · simp only [Slot.vr, hv]
  · simp only [Slot.cr, hc]
  · simp only [Slot.pr, hp]
  · have k := congrArg Slot.fflags h; exact k
  · have k := congrArg Slot.owed h; exact k
  · have k := congrArg Slot.deferred h; exact k
  · have k := congrArg Slot.out h; exact k
  · have k := congrArg Slot.seq h; exact k
  · have k := congrArg bareSlot h; exact k

/-- `doneStall` after a change that writes the named registers. -/
theorem acts_doneStall (i : Instr) (s : State) (g : Ctl) (n : Nat) (f : Slot → Slot) (d : Dests) (post : Slot → Prop)
    (hg : Issues i g) (hi : exec i s = .next ((s.updSl f).doneStall g n)) (hk : SlotKept s.sl (f s.sl) d)
    (hpc : (f s.sl).pc = s.sl.pc ∧ (f s.sl).obj = s.sl.obj ∧ (f s.sl).lc = s.sl.lc ∧ (f s.sl).le = s.sl.le ∧ (f s.sl).ls = s.sl.ls)
    (hpost : ∀ b : Slot, Reads b (f s.sl) → post b) : Acts i s d post := by
  obtain ⟨he, hf, hb⟩ := doneStall_spec s g n f hpc
  obtain ⟨r, rb⟩ := atPlace_reads hb
  refine ⟨_, hi, hpost _ r, ⟨?_, ?_, ?_, ?_, ?_⟩, hf, he, pacedBy_issued hg _ n rfl rfl⟩
  · exact fun q hr => (r.x q).trans (hk.x q hr)
  · exact fun q hr => (r.v q).trans (hk.v q hr)
  · exact fun q hr => (r.c q).trans (hk.c q hr)
  · exact fun q hr => (r.p q).trans (hk.p q hr)
  · exact rb.trans hk.rest

/-- An instruction that changes nothing. -/
theorem actsNot_done (i : Instr) (s : State) (g : Ctl) (n : Nat) (hg : Issues i g) (hi : exec i s = .next (s.doneStall g n)) :
    ActsNot i s := by
  obtain ⟨he, k⟩ := issued_spec (s.updSl fun sl => sl.fall sl.pc) g n
  rw [State.sl_updSl] at k
  have h2 : Elsewhere s (s.doneStall g n) := elsewhere_trans (elsewhere_updSl s _) he
  have hr := (congrArg (fun c : Slot => atPlace c s.sl.pc s.sl.lc) k).trans (congrArg calm (fall_rest s.sl))
  change calm (atPlace (s.doneStall g n).sl s.sl.pc s.sl.lc) = calm s.sl at hr
  obtain ⟨r, rb⟩ := atPlace_reads hr
  refine ⟨_, hi, ⟨r.fflags, r.out, r.seq, r.owed, r.deferred⟩,
    ⟨fun q _ => r.x q, fun q _ => r.v q, fun q _ => r.c q, fun q _ => r.p q, rb⟩, ?_, h2, pacedBy_issued hg _ n rfl rfl⟩
  have t := fall_spec s.sl
  unfold FallsThrough at t ⊢
  change calm (s.doneStall g n).sl = _ at k
  rw [calm_congr k (·.pc) (fun _ => rfl), calm_congr k (·.obj) (fun _ => rfl), calm_congr k (·.lc) (fun _ => rfl)]
  exact t

/-- What a class-0 write of a register does to what is owed, deferred and queued. -/
theorem owesAsBefore_cancel {a b t : Slot} {r : RegRef} (h : Reads b t) (ho : t.owed = (a.cancel r).owed)
    (hd : t.deferred = (a.cancel r).deferred) (hq : t.out = a.out) (hs : t.seq = a.seq) : OwesAsBefore a b (some r) :=
  ⟨h.out.trans hq, h.seq.trans hs, h.owed.trans ho, h.deferred.trans hd⟩

/-- An instruction that writes an x register as a class-0 result. -/
theorem writesX_doneStall (i : Instr) (s : State) (g : Ctl) (n : Nat) (d : XReg) (w : Word)
    (hg : Issues i g) (hi : exec i s = .next ((s.updSl fun sl => sl.setX d w).doneStall g n)) : WritesX i s d w := by
  obtain ⟨e1, e2, e3, e4, e5, e6, e7, e8, e9, e10⟩ := setX_rest s.sl d w
  refine acts_doneStall i s g n _ _ _ hg hi ⟨?_, ?_, ?_, ?_, e10⟩ ⟨e5, e6, e7, e8, e9⟩ ?_
  · intro r hr
    rw [xr_setX, if_neg]
    rintro ⟨rfl, _⟩
    exact hr rfl
  · intro r _; simp only [Slot.vr, e1]
  · intro r _; simp only [Slot.cr, e2]
  · intro r _; simp only [Slot.pr, e3]
  · intro b h
    rw [h.x, xr_setX, h.fflags, e4]
    by_cases hd : d = 0
    · simp only [hd, Slot.setX, if_true] at h ⊢
      exact ⟨by simp [Slot.xr], trivial, h.out, h.seq, h.owed, h.deferred⟩
    · rw [if_neg hd, if_neg hd, if_pos ⟨rfl, hd⟩]
      simp only [Slot.setX, if_neg hd] at h
      exact ⟨rfl, rfl, owesAsBefore_cancel h rfl rfl rfl rfl⟩

theorem writesV_doneStall (i : Instr) (s : State) (g : Ctl) (n : Nat) (d : VReg) (w : Line)
    (hg : Issues i g) (hi : exec i s = .next ((s.updSl fun sl => sl.setV d w).doneStall g n)) : WritesV i s d w := by
  obtain ⟨e1, e2, e3, e4, e5, e6, e7, e8, e9, e10⟩ := setV_rest s.sl d w
  refine acts_doneStall i s g n _ _ _ hg hi ⟨?_, ?_, ?_, ?_, e10⟩ ⟨e5, e6, e7, e8, e9⟩ ?_
  · intro r _; simp only [Slot.xr, e1]
  · intro r hr
    rw [vr_setV, if_neg]
    rintro rfl
    exact hr rfl
  · intro r _; simp only [Slot.cr, e2]
  · intro r _; simp only [Slot.pr, e3]
  · intro b h
    rw [h.v, vr_setV, if_pos rfl, h.fflags, e4]
    exact ⟨rfl, rfl, owesAsBefore_cancel h rfl rfl rfl rfl⟩

theorem writesC_doneStall (i : Instr) (s : State) (g : Ctl) (n : Nat) (d : CReg) (w : CapReg)
    (hg : Issues i g) (hi : exec i s = .next ((s.updSl fun sl => sl.setC d w).doneStall g n)) : WritesC i s d w := by
  obtain ⟨e1, e2, e3, e4, e5, e6, e7, e8, e9, e10⟩ := setC_rest s.sl d w
  refine acts_doneStall i s g n _ _ _ hg hi ⟨?_, ?_, ?_, ?_, e10⟩ ⟨e5, e6, e7, e8, e9⟩ ?_
  · intro r _; simp only [Slot.xr, e1]
  · intro r _; simp only [Slot.vr, e2]
  · intro r hr
    rw [cr_setC, if_neg]
    rintro ⟨rfl, _⟩
    exact hr rfl
  · intro r _; simp only [Slot.pr, e3]
  · intro b h
    rw [h.c, cr_setC, h.fflags, e4]
    by_cases hd : d = 0
    · simp only [hd, Slot.setC, if_true] at h ⊢
      exact ⟨by simp [Slot.cr], trivial, h.out, h.seq, h.owed, h.deferred⟩
    · rw [if_neg hd, if_neg hd, if_pos ⟨rfl, hd⟩]
      simp only [Slot.setC, if_neg hd] at h
      exact ⟨rfl, rfl, owesAsBefore_cancel h rfl rfl rfl rfl⟩

theorem writesP_doneStall (i : Instr) (s : State) (g : Ctl) (n : Nat) (d : PReg) (w : BitVec 16)
    (hg : Issues i g) (hi : exec i s = .next ((s.updSl fun sl => sl.setP d w).doneStall g n)) : WritesP i s d w := by
  obtain ⟨e1, e2, e3, e4, e5, e6, e7, e8, e9, e10⟩ := setP_rest s.sl d w
  refine acts_doneStall i s g n _ _ _ hg hi ⟨?_, ?_, ?_, ?_, e10⟩ ⟨e5, e6, e7, e8, e9⟩ ?_
  · intro r _; simp only [Slot.xr, e1]
  · intro r _; simp only [Slot.vr, e2]
  · intro r _; simp only [Slot.cr, e3]
  · intro r hr
    rw [pr_setP, if_neg]
    rintro ⟨rfl, _⟩
    exact hr rfl
  · intro b h
    have ho : (s.sl.setP d w).owed = s.sl.owed ∧ (s.sl.setP d w).deferred = s.sl.deferred ∧ (s.sl.setP d w).out = s.sl.out
        ∧ (s.sl.setP d w).seq = s.sl.seq := by
      unfold Slot.setP
      split <;> exact ⟨rfl, rfl, rfl, rfl⟩
    refine ⟨?_, h.fflags.trans e4, h.out.trans ho.2.2.1, h.seq.trans ho.2.2.2, h.owed.trans ho.1, h.deferred.trans ho.2.1⟩
    rw [h.p, pr_setP]
    by_cases hd : d = 0
    · simp [hd, Slot.pr]
    · simp [hd]

/-! ## The forms of the class-0 instructions -/

theorem regOpStall_true (g : Ctl) (n : Nat) (s : State) (f : Slot → Slot) (h : s.sl.guard g = true) :
    regOpStall g n s f = .next ((s.updSl f).doneStall g n) := by
  unfold regOpStall
  rw [if_pos h]

theorem regOp_true (g : Ctl) (s : State) (f : Slot → Slot) (h : s.sl.guard g = true) :
    regOp g s f = .next ((s.updSl f).doneStall g 0) := regOpStall_true g 0 s f h

theorem regOp_false (g : Ctl) (s : State) (f : Slot → Slot) (h : s.sl.guard g = false) :
    regOp g s f = .next (s.doneStall g 0) := by
  unfold regOp
  rw [h]
  rfl

theorem vecOp_eq (g : Ctl) (s : State) (f : Slot → Slot) : vecOp g s f = .next ((s.updSl f).doneStall g 0) := rfl

theorem guarded_true (g : Ctl) (s f : State) (h : s.sl.guard g = true) : guarded g s f = .next f := by
  unfold guarded
  rw [if_pos h]

theorem guarded_false (g : Ctl) (s f : State) (h : s.sl.guard g = false) : guarded g s f = .next (s.doneStall g 0) := by
  unfold guarded
  rw [h]
  rfl

/-- A change of the issuing slot depends on that slot alone. -/
theorem updSl_congr (s : State) (f f' : Slot → Slot) (h : f s.sl = f' s.sl) : s.updSl f = s.updSl f' := by
  unfold State.updSl State.updSlot
  exact congrArg (s.setSlot s.cur) h

theorem writesX_regOp (i : Instr) (s : State) (g : Ctl) (d : XReg) (f : Slot → Slot) (w : Word)
    (hg : Issues i g) (hi : exec i s = regOp g s f) (hf : f s.sl = s.sl.setX d w) (h : s.sl.guard g = true) : WritesX i s d w :=
  writesX_doneStall i s g 0 d w hg (by rw [hi, regOp_true g s f h, updSl_congr s f (·.setX d w) hf])

theorem writesV_regOp (i : Instr) (s : State) (g : Ctl) (d : VReg) (f : Slot → Slot) (w : Line)
    (hg : Issues i g) (hi : exec i s = regOp g s f) (hf : f s.sl = s.sl.setV d w) (h : s.sl.guard g = true) : WritesV i s d w :=
  writesV_doneStall i s g 0 d w hg (by rw [hi, regOp_true g s f h, updSl_congr s f (·.setV d w) hf])

theorem writesC_regOp (i : Instr) (s : State) (g : Ctl) (d : CReg) (f : Slot → Slot) (w : CapReg)
    (hg : Issues i g) (hi : exec i s = regOp g s f) (hf : f s.sl = s.sl.setC d w) (h : s.sl.guard g = true) : WritesC i s d w :=
  writesC_doneStall i s g 0 d w hg (by rw [hi, regOp_true g s f h, updSl_congr s f (·.setC d w) hf])

theorem writesP_regOp (i : Instr) (s : State) (g : Ctl) (d : PReg) (f : Slot → Slot) (w : BitVec 16)
    (hg : Issues i g) (hi : exec i s = regOp g s f) (hf : f s.sl = s.sl.setP d w) (h : s.sl.guard g = true) : WritesP i s d w :=
  writesP_doneStall i s g 0 d w hg (by rw [hi, regOp_true g s f h, updSl_congr s f (·.setP d w) hf])

/-- An instruction that writes registers and transfers control. -/
theorem jumps_jump (i : Instr) (s : State) (g : Ctl) (obj : Nat) (pc : Int) (f : Slot → Slot) (d : Dests) (post : Slot → Prop)
    (hg : Issues i g) (hi : exec i s = .next ((s.updSl f).jump g obj pc)) (hk : SlotKept { s.sl with obj := obj } { f s.sl with obj := obj } d)
    (hlc : (f s.sl).lc = s.sl.lc) (hfl : (f s.sl).fflags = s.sl.fflags) (hpost : ∀ b : Slot, Reads b (f s.sl) → post b) :
    Jumps i s d obj pc post := by
  obtain ⟨he, k⟩ := issued_spec ((s.updSl f).updSl fun sl => { sl with pc := pc, obj := obj, fetched := false }) g 0
  have h2 : Elsewhere s ((s.updSl f).jump g obj pc) :=
    elsewhere_trans (elsewhere_trans (elsewhere_updSl s f) (elsewhere_updSl _ _)) he
  rw [State.sl_updSl, State.sl_updSl] at k
  change calm ((s.updSl f).jump g obj pc).sl = _ at k
  have q := congrArg (fun c : Slot => atPlace c (f s.sl).pc (f s.sl).lc) k
  change calm (atPlace ((s.updSl f).jump g obj pc).sl (f s.sl).pc (f s.sl).lc)
    = calm { f s.sl with obj := obj, fetched := false } at q
  obtain ⟨r, rb⟩ := atPlace_reads q
  refine ⟨_, hi, calm_congr k (·.obj) (fun _ => rfl), calm_congr k (·.pc) (fun _ => rfl),
    (calm_congr k (·.lc) (fun _ => rfl)).trans hlc, r.fflags.trans hfl,
    hpost _ ⟨r.x, r.v, r.c, r.p, r.fflags, r.owed, r.deferred, r.out, r.seq⟩,
    ⟨fun q hq => (r.x q).trans (hk.x q hq), fun q hq => (r.v q).trans (hk.v q hq), fun q hq => (r.c q).trans (hk.c q hq),
      fun q hq => (r.p q).trans (hk.p q hq), rb.trans hk.rest⟩, h2, pacedBy_issued hg _ 0 rfl rfl⟩

/-- An instruction that owes a result in flight. -/
theorem owes_done (i : Instr) (s : State) (g : Ctl) (r : Option RegRef) (mask : Line) (f : Flight) (acq : Bool) (df : Nat)
    (hg : Issues i g) (hi : exec i s = .next ((s.oweNow r mask f acq df).done g)) : Owes i s r mask f acq := by
  refine acts_doneStall i s g 0 _ _ _ hg hi ⟨fun _ _ => rfl, fun _ _ => rfl, fun _ _ => rfl, fun _ _ => rfl, rfl⟩
    ⟨rfl, rfl, rfl, rfl, rfl⟩ ?_
  intro b h
  exact ⟨h.fflags, h.out,
    { dest := r, live := true, mask := mask, flight := f, res := none, acq := acq, seq := s.sl.seq, iaddr := s.sl.here,
      dfield := df }, h.owed, rfl, rfl, rfl, rfl, rfl, rfl, rfl⟩

/-- An instruction whose effect is a change of state, after which it falls through. -/
theorem actsVia_doneStall (i : Instr) (s t : State) (g : Ctl) (n : Nat) (hg : Issues i g) (hi : exec i s = .next (t.doneStall g n)) :
    ActsVia i s t := by
  obtain ⟨he, k⟩ := issued_spec (t.updSl fun sl => sl.fall sl.pc) g n
  rw [State.sl_updSl] at k
  have h2 : Elsewhere t (t.doneStall g n) := elsewhere_trans (elsewhere_updSl t _) he
  have hr := (congrArg (fun c : Slot => atPlace c t.sl.pc t.sl.lc) k).trans (congrArg calm (fall_rest t.sl))
  change calm (atPlace (t.doneStall g n).sl t.sl.pc t.sl.lc) = calm t.sl at hr
  obtain ⟨r, rb⟩ := atPlace_reads hr
  refine ⟨_, hi, ⟨fun q _ => r.x q, fun q _ => r.v q, fun q _ => r.c q, fun q _ => r.p q, rb⟩, r.fflags,
    ⟨r.out, r.seq, r.owed, r.deferred⟩, ?_, h2, pacedBy_issued hg _ n rfl rfl⟩
  have f := fall_spec t.sl
  unfold FallsThrough at f ⊢
  change calm (t.doneStall g n).sl = _ at k
  rw [calm_congr k (·.pc) (fun _ => rfl), calm_congr k (·.obj) (fun _ => rfl), calm_congr k (·.lc) (fun _ => rfl)]
  exact f

end Sys2Proof.Machine
end

