-- ==== Sys2Proof/Laws/Memory.lean ====
section
/-!
SUPPORT. Memory: every operation that changes its bytes keeps the canonical form; a read after a write to the same place
gives the value written, and a write leaves every other place alone.
-/

namespace Sys2Proof.Machine

/-! ## The canonical form -/

theorem Memory.wf_set (m : Memory) (k : Nat) (b : Byte) (h : Memory.wf m = true) : Memory.wf (Memory.set m k b) = true :=
  SMap.wf_put memDefault m k b h

theorem Memory.wf_setBytes (bs : List Byte) : ∀ (m : Memory) (k : Nat), Memory.wf m = true →
    Memory.wf (Memory.setBytes m k bs) = true := by
  induction bs with
  | nil => intro m k h; exact h
  | cons b bs ih => intro m k h; exact ih _ _ (Memory.wf_set m k b h)

theorem Memory.wf_filter (m : Memory) (p : Host.Cell → Bool) (h : Memory.wf m = true) : Memory.wf (m.filter p) = true :=
  SMap.wf_filter memDefault m p h

theorem clearPoison_wf (p : SMap Bool) (k n : Nat) (h : SMap.wf false p = true) : SMap.wf false (clearPoison p k n) = true := by
  unfold clearPoison
  split
  · rfl
  · generalize List.range n = l
    induction l generalizing p with
    | nil => exact h
    | cons j l ih =>
      rw [List.foldl_cons]
      rename_i hp
      by_cases he : SMap.put false p (k + j) false = []
      · rw [he]
        clear ih hp he h
        suffices ∀ q : SMap Bool, SMap.wf false q = true →
            SMap.wf false (l.foldl (fun q j => SMap.put false q (k + j) false) q) = true from this [] rfl
        induction l with
        | nil => intro q hq; exact hq
        | cons i l ih => intro q hq; exact ih _ (SMap.wf_put false q _ _ hq)
      · exact ih _ (SMap.wf_put false p _ _ h) he

theorem putData_canonical (s : State) (k : Nat) (bs : List Byte) (h : Safety.MemoryCanonical s) :
    Safety.MemoryCanonical (s.putData k bs) :=
  ⟨Memory.wf_setBytes bs s.mem k h.1, SMap.wf_put false s.tags (lineKey k) false h.2.1, clearPoison_wf s.poison _ _ h.2.2⟩

theorem putLine_canonical (s : State) (k : Nat) (v : CapReg) (h : Safety.MemoryCanonical s) :
    Safety.MemoryCanonical (s.putLine k v) :=
  ⟨Memory.wf_setBytes _ s.mem _ h.1, SMap.wf_put false s.tags (lineKey k) v.tag h.2.1, clearPoison_wf s.poison _ _ h.2.2⟩

theorem putNibble_canonical (s : State) (k nib v : Nat) (h : Safety.MemoryCanonical s) :
    Safety.MemoryCanonical (s.putNibble k nib v) :=
  ⟨Memory.wf_set s.mem k _ h.1, SMap.wf_put false s.tags (lineKey k) false h.2.1, clearPoison_wf s.poison _ _ h.2.2⟩

theorem putElem_canonical (s : State) (k nib bits v : Nat) (h : Safety.MemoryCanonical s) :
    Safety.MemoryCanonical (s.putElem k nib bits v) := by
  unfold State.putElem
  split
  · exact putNibble_canonical s k nib v h
  · exact putData_canonical s k _ h

theorem zeroRange_canonical (s : State) (k n : Nat) (h : Safety.MemoryCanonical s) :
    Safety.MemoryCanonical (s.zeroRange k n) :=
  ⟨Memory.wf_filter s.mem _ h.1, SMap.wf_filter false s.tags _ h.2.1, SMap.wf_filter false s.poison _ h.2.2⟩

theorem moveLine_canonical (s : State) (lk : Nat) (v : CapReg) (h : Safety.MemoryCanonical s) :
    Safety.MemoryCanonical (s.moveLine lk v) :=
  ⟨Memory.wf_setBytes _ s.mem _ h.1, SMap.wf_put false s.tags lk v.tag h.2.1, h.2.2⟩

theorem memWrite_canonical (s : State) (k : Nat) (w : WOp) (h : Safety.MemoryCanonical s) :
    Safety.MemoryCanonical (s.memWrite k w) := by
  cases w with
  | data k' nib bits v => exact putElem_canonical s k' nib bits v h
  | line v => exact putLine_canonical s k v h

theorem foldl_canonical {α : Type} (f : State → α → State)
    (hf : ∀ s a, Safety.MemoryCanonical s → Safety.MemoryCanonical (f s a)) (l : List α) :
    ∀ s, Safety.MemoryCanonical s → Safety.MemoryCanonical (l.foldl f s) := by
  induction l with
  | nil => intro s h; exact h
  | cons a l ih => intro s h; exact ih _ (hf s a h)

theorem writeFrame_canonical (s : State) (key : Nat) (f : FaultInfo) (h : Safety.MemoryCanonical s) :
    Safety.MemoryCanonical (s.writeFrame key f) :=
  foldl_canonical _ (fun t _ ht => putLine_canonical t _ _ ht) _ s h

theorem restoreCore_canonical (s : State) (t c core : Nat) (h : Safety.MemoryCanonical s) :
    Safety.MemoryCanonical (s.restoreCore t c core) := by
  exact foldl_canonical (fun (u : State) (x : Nat × Nat) =>
      { u with poison := SMap.put false u.poison (2 * memKey (.spad core) 0 + x.2) true })
      (fun u x hu => ⟨hu.1, hu.2.1, SMap.wf_put false u.poison (2 * memKey (.spad core) 0 + x.2) true hu.2.2⟩) _ _
    (foldl_canonical (fun (u : State) (x : Nat × Nat) =>
      { u with tags := SMap.put false u.tags (lineKey (memKey (.spad core) 0) + x.2) true })
      (fun u x hu => ⟨hu.1, SMap.wf_put false u.tags (lineKey (memKey (.spad core) 0) + x.2) true hu.2.1, hu.2.2⟩) _ _
    (foldl_canonical (fun (u : State) (x : Nat × Nat × Byte) =>
      { u with mem := Memory.set u.mem (memKey (.spad core) 0 + x.2.1) x.2.2 })
      (fun u x hu => ⟨Memory.wf_set u.mem _ _ hu.1, hu.2⟩) _ s h))

/-! The transitions of R321 change memory only by moving a line to its home. -/

theorem updCore_canonical (s : State) (c : Nat) (f : Core → Core) (h : Safety.MemoryCanonical s) :
    Safety.MemoryCanonical (s.updCore c f) := h

theorem updSlot_canonical (s : State) (k : Nat) (f : Slot → Slot) (h : Safety.MemoryCanonical s) :
    Safety.MemoryCanonical (s.updSlot k f) := h

theorem updCoh_canonical (s : State) (l : Nat) (f : LineCoh → LineCoh) (h : Safety.MemoryCanonical s) :
    Safety.MemoryCanonical (s.updCoh l f) := h

theorem dropDie_canonical (s : State) (die lk : Nat) (h : Safety.MemoryCanonical s) :
    Safety.MemoryCanonical (s.dropDie die lk) :=
  foldl_canonical _ (fun t c ht => updCore_canonical t c _ ht) _ s h

theorem leaveSlice_canonical (s : State) (slice lk : Nat) (h : Safety.MemoryCanonical s) :
    Safety.MemoryCanonical (s.leaveSlice slice lk) := by
  unfold State.leaveSlice
  split <;> exact h

theorem finishWriteBack_canonical (s : State) (lk : Nat) (h : Safety.MemoryCanonical s) :
    Safety.MemoryCanonical (s.finishWriteBack lk) := by
  unfold State.finishWriteBack
  split
  · exact updCoh_canonical _ _ _ (moveLine_canonical s lk _ h)
  · exact h

theorem doSnoopRead_canonical (s : State) (lk : Nat) (h : Safety.MemoryCanonical s) :
    Safety.MemoryCanonical (s.doSnoopRead lk) := by
  unfold State.doSnoopRead
  simp only
  split
  · exact updCoh_canonical _ _ _ (moveLine_canonical s lk _ h)
  all_goals exact h

theorem doSnoopInval_canonical (s : State) (lk : Nat) (h : Safety.MemoryCanonical s) :
    Safety.MemoryCanonical (s.doSnoopInval lk) := by
  unfold State.doSnoopInval
  simp only
  refine updCoh_canonical _ _ _ (leaveSlice_canonical _ _ _ (dropDie_canonical _ _ _ ?_))
  split
  · exact moveLine_canonical s lk _ h
  · exact moveLine_canonical s lk _ h
  all_goals exact h

theorem ackInvalidated_canonical (s : State) (lk : Nat) (h : Safety.MemoryCanonical s) :
    Safety.MemoryCanonical (s.ackInvalidated lk) :=
  updCoh_canonical _ _ _ (foldl_canonical _ (fun t _ ht => updSlot_canonical t _ _ ht) _ s h)

theorem doInvalidate_canonical (s : State) (lk : Nat) (h : Safety.MemoryCanonical s) :
    Safety.MemoryCanonical (s.doInvalidate lk) :=
  updCoh_canonical _ _ _ (ackInvalidated_canonical _ _ (doSnoopInval_canonical s lk h))

theorem settle_canonical (s : State) (lk : Nat) (h : Safety.MemoryCanonical s) : Safety.MemoryCanonical (s.settle lk) := by
  unfold State.settle
  simp only
  split
  · exact updCoh_canonical _ _ _ (doSnoopRead_canonical _ _ (finishWriteBack_canonical s lk h))
  · exact updCoh_canonical _ _ _ (doSnoopInval_canonical _ _ (finishWriteBack_canonical s lk h))
  all_goals exact finishWriteBack_canonical s lk h

theorem recallHost_canonical (s : State) (lk : Nat) (wr : Bool) (h : Safety.MemoryCanonical s) :
    Safety.MemoryCanonical (s.recallHost lk wr) := by
  unfold State.recallHost
  split <;> exact h

theorem outsideReady_canonical (s : State) (lk : Nat) (wr : Bool) (h : Safety.MemoryCanonical s) :
    Safety.MemoryCanonical (s.outsideReady lk wr) := by
  have hs := recallHost_canonical _ lk wr (settle_canonical s lk h)
  unfold State.outsideReady
  simp only
  split
  · exact updCore_canonical _ _ _ hs
  · split
    · split
      · exact hs
      · exact doInvalidate_canonical _ _ hs
      all_goals exact doSnoopInval_canonical _ _ hs
    · exact doSnoopRead_canonical _ _ hs

/-! The update round of an outside agent's write changes no memory. -/

theorem MemoryKept.trans {s t u : State} (h : Safety.MemoryKept s t) (k : Safety.MemoryKept t u) : Safety.MemoryKept s u :=
  ⟨k.1.trans h.1, k.2.1.trans h.2.1, k.2.2.trans h.2.2⟩

theorem MemoryKept.canonical {s t : State} (k : Safety.MemoryKept s t) (h : Safety.MemoryCanonical s) :
    Safety.MemoryCanonical t := ⟨k.1 ▸ h.1, k.2.1 ▸ h.2.1, k.2.2 ▸ h.2.2⟩

theorem foldl_kept {α : Type} (f : State → α → State) (hf : ∀ s a, Safety.MemoryKept s (f s a)) (l : List α) :
    ∀ s, Safety.MemoryKept s (l.foldl f s) := by
  induction l with
  | nil => intro s; exact ⟨rfl, rfl, rfl⟩
  | cons a l ih => intro s; exact MemoryKept.trans (hf s a) (ih _)

theorem updCore_kept (s t : State) (c : Nat) (f : Core → Core) (h : Safety.MemoryKept s t) :
    Safety.MemoryKept s (t.updCore c f) := h

theorem dropStash_kept (s : State) (core : Nat) (sel : StashLine → Bool) : Safety.MemoryKept s (s.dropStash core sel) := by
  unfold State.dropStash
  refine MemoryKept.trans ?_ (foldl_kept _ ?_ _ _)
  · exact ⟨rfl, rfl, rfl⟩
  · intro t e; exact ⟨rfl, rfl, rfl⟩

theorem flushRegion_kept (s : State) (slice : Nat) (r : Region) : Safety.MemoryKept s (s.flushRegion slice r) := by
  unfold State.flushRegion
  refine MemoryKept.trans (foldl_kept _ ?_ _ s) (foldl_kept _ ?_ _ _)
  all_goals intro t x; exact ⟨rfl, rfl, rfl⟩

theorem freeRegion_kept (s : State) (slice : Nat) (keep : Option Region) : Safety.MemoryKept s (s.freeRegion slice keep) := by
  unfold State.freeRegion
  split
  · exact ⟨rfl, rfl, rfl⟩
  · next r _ =>
    exact MemoryKept.trans (flushRegion_kept s slice r) (foldl_kept _ (fun t c => dropStash_kept (t.updCore c _) c _) _ _)

theorem splitRegion_kept (s : State) (slice lk : Nat) : Safety.MemoryKept s (s.splitRegion slice lk) := by
  unfold State.splitRegion
  split
  · exact ⟨rfl, rfl, rfl⟩
  · next r _ =>
    split
    · exact ⟨rfl, rfl, rfl⟩
    · dsimp only
      split
      · exact freeRegion_kept s slice (some r)
      · exact ⟨rfl, rfl, rfl⟩

theorem takeReply_kept (s : State) (slice lk : Nat) (r : Reply) : Safety.MemoryKept s (s.takeReply slice lk r) := by
  cases r
  case none => exact splitRegion_kept s slice lk
  all_goals exact ⟨rfl, rfl, rfl⟩

theorem drainChannel_kept (s : State) (slice lk core : Nat) : Safety.MemoryKept s (s.drainChannel slice lk core) := by
  unfold State.drainChannel
  dsimp only
  split
  · refine updCore_kept _ _ _ _ (MemoryKept.trans ?_ (foldl_kept _ ?_ _ _))
    · exact ⟨rfl, rfl, rfl⟩
    · intro t x; exact takeReply_kept t slice lk x.2
  · exact ⟨rfl, rfl, rfl⟩

theorem updateRound_kept (s : State) (slice lk : Nat) : Safety.MemoryKept s (s.updateRound slice lk) := by
  unfold State.updateRound
  refine MemoryKept.trans ?_ (foldl_kept _ ?_ _ _)
  · exact ⟨rfl, rfl, rfl⟩
  · intro t c
    exact MemoryKept.trans (drainChannel_kept (t.updCore c _) slice lk c) (takeReply_kept _ slice lk _)

theorem homeRound_kept (s : State) (lk : Nat) : Safety.MemoryKept s (s.homeRound lk) := by
  unfold State.homeRound
  split
  · exact updateRound_kept s _ lk
  · exact ⟨rfl, rfl, rfl⟩

theorem homePut_canonical (s : State) (k : Nat) (v : CapReg) (h : Safety.MemoryCanonical s) :
    Safety.MemoryCanonical (s.homePut k v) := putLine_canonical _ _ _
  (MemoryKept.canonical (homeRound_kept _ _) (outsideReady_canonical s _ _ h))

theorem logAt_canonical (s : State) (flog world : Nat) (f : FaultInfo) (h : Safety.MemoryCanonical s) :
    Safety.MemoryCanonical (s.logAt flog world f) := by
  unfold State.logAt
  exact putData_canonical _ _ _ (MemoryKept.canonical (homeRound_kept _ _) (homePut_canonical _ _ _ (homePut_canonical _ _ _
    (homePut_canonical _ _ _ (homePut_canonical _ _ _ (outsideReady_canonical s _ _ h))))))

theorem report_canonical (s : State) (world : Nat) (f : FaultInfo) (h : Safety.MemoryCanonical s) :
    Safety.MemoryCanonical (s.report world f) := by
  have log : ∀ (t : State) (c : Bool) (a w : Nat) (g : FaultInfo), Safety.MemoryCanonical t →
      Safety.MemoryCanonical (if c then t.logAt a w g else t) := by
    intro t c a w g ht
    cases c
    · exact ht
    · exact logAt_canonical t a w g ht
  exact log _ _ _ _ _ (log s _ _ _ _ h)

/-! ## Reading what was written -/

@[simp] theorem Memory.get_set_self (m : Memory) (k : Nat) (b : Byte) : Memory.get (Memory.set m k b) k = b :=
  SMap.look_put_self memDefault m k b

theorem Memory.get_set_ne (m : Memory) {k j : Nat} (b : Byte) (h : j ≠ k) :
    Memory.get (Memory.set m k b) j = Memory.get m j := SMap.look_put_ne memDefault m b h

/-- A write of bytes leaves every other byte alone. -/
theorem Memory.get_setBytes_out (bs : List Byte) : ∀ (m : Memory) (k j : Nat), j < k ∨ k + bs.length ≤ j →
    Memory.get (Memory.setBytes m k bs) j = Memory.get m j := by
  induction bs with
  | nil => intro m k j _; rfl
  | cons b bs ih =>
    intro m k j h
    simp only [List.length_cons] at h
    rw [Memory.setBytes, ih _ (k + 1) j (by omega)]
    exact Memory.get_set_ne m b (by omega)

/-- A byte that was written reads back. -/
theorem Memory.get_setBytes_in (bs : List Byte) : ∀ (m : Memory) (k i : Nat) (b : Byte), bs[i]? = some b →
    Memory.get (Memory.setBytes m k bs) (k + i) = b := by
  induction bs with
  | nil => intro m k i b h; simp at h
  | cons c bs ih =>
    intro m k i b h
    cases i with
    | zero =>
      have hc : c = b := by simpa using h
      subst hc
      rw [Memory.setBytes, Memory.get_setBytes_out bs _ (k + 1) (k + 0) (by omega)]
      exact Memory.get_set_self m k c
    | succ i =>
      have := ih (Memory.set m k c) (k + 1) i b (by simpa using h)
      rw [Memory.setBytes, show k + (i + 1) = k + 1 + i from by omega]
      exact this

/-- Data of one place: its bytes read back, every other byte is as before, and its line has no tag. -/
theorem putData_spec (s : State) (k : Nat) (bs : List Byte) :
    (∀ i b, bs[i]? = some b → (s.putData k bs).byte (k + i) = b)
    ∧ (∀ j, j < k ∨ k + bs.length ≤ j → (s.putData k bs).byte j = s.byte j)
    ∧ (s.putData k bs).tagAt k = false :=
  ⟨fun i b h => Memory.get_setBytes_in bs s.mem k i b h, fun j h => Memory.get_setBytes_out bs s.mem k j h,
   SMap.look_put_self false s.tags (lineKey k) false⟩

end Sys2Proof.Machine
end

