-- ==== Sys2Proof/Machine/SystemArea.lean ====
section
/-!
DEFINITION. The system area of a scratchpad, line by line (R281): the structures that the state holds as plain data, in
the bytes that R249, R254, R281 and R344 lay out. No access of a program reaches them but through the counter aperture and
the window (R283).
-/

namespace Sys2Proof.Machine

/-- Eight entries of a ready ring or fork deque from entry `i` on: each names a pool slot in its low bits (R281). -/
def ringLine (l : List Nat) (i : Nat) : CapReg :=
  { bits := lanes 64 8 fun j => l.getD (i + j) 0 % 64, tag := false }

/-- Line `j` of a record in a pool: its data line, then its capability lines (R249, R281). -/
def Rec.lineAt (r : Rec) (j : Nat) : CapReg := if j = 0 then { bits := r.data, tag := false } else r.cap j

/-- Line `j` of a frame of a trusted stack (R344). -/
def CallFrame.line (f : CallFrame) (j : Nat) : CapReg :=
  if j = 0 then
    { bits := BitVec.ofNat 512 <|
        f.ret.toNat + 2 ^ 64 * (f.cmpt % 2 ^ 16) + 2 ^ 80 * f.frm.toNat + 2 ^ 144 * f.fflags.toNat + 2 ^ 208 * f.lc.toNat
        + 2 ^ 272 * f.ls.toNat + 2 ^ 336 * f.le.toNat
      tag := false }
  else if j < 4 then { bits := lanes 64 8 fun i => (f.xs.getD (8 * (j - 1) + i) 0).toNat, tag := false }
  else f.cs.getD (j - 4) CapReg.null

/-- Line `j` of the trusted stack of a slot, the oldest frame first. -/
def Slot.stackLine (sl : Slot) (j : Nat) : CapReg :=
  match sl.stack.reverse[j / 18]? with
  | some f => f.line (j % 18)
  | none => CapReg.null

/-- The line of a core's system area at a scratchpad offset (R281). Indices, the deferred-effect buffers and the reserved
ranges have no layout in the spec and read as null here. -/
def State.systemLine (s : State) (core off : Nat) : CapReg :=
  let c := s.coreAt core
  let tc := match c.team with
    | some t => (s.teamAt t).core c.tcore
    | none => TCore.reset
  let line (base : Nat) : Nat := (off - base) / 64
  if off < 0x2C000 then CapReg.null
  else if off < 0x2C200 then ringLine tc.ring (8 * line 0x2C000)
  else if off < 0x2C300 then ringLine tc.deque (8 * line 0x2C200)
  else if off < 0x2C400 then CapReg.null
  else if off < 0x2D400 then { bits := (tc.counter (line 0x2C400)).line, tag := false }
  else if off < 0x31000 then (tc.poolAt (line 0x2D400 / 5)).record.lineAt (line 0x2D400 % 5)
  else if off < 0x34600 then s.lineAt (memKey (.spad core) off)
  else if off < 0x35600 then CapReg.null
  else if off < 0x3E600 then (s.slotAt (4 * core + line 0x35600 / 144)).stackLine (line 0x35600 % 144)
  else if off < 0x3EE00 then s.lineAt (memKey (.spad core) off)
  else CapReg.null

end Sys2Proof.Machine
end

