-- ==== Sys2Proof/Tests/Slice0.lean ====
section
/-!
SUPPORT. Tests of the model, each a named theorem: terms that WellFormed refuses, words written out from the encoding
tables of the spec (R88, R90, R94 … R102), small steps with results worked out from the spec, and for the statements
concrete states and operands that meet their hypotheses.
-/

set_option Elab.async false

namespace Sys2Proof.Tests

open Sys2Proof Sys2Proof.Machine Sys2Proof.Safety

/-! ## Terms without an encoding, one for each check -/

/-- No guard and no hints. -/
def g : Ctl := { gp := 0, gn := false, s := false, dly := 0, ru := 0, yld := false, fs := false }

/-- A guard on p1. -/
def g1 : Ctl := { g with gp := 1 }

/-- R94 SH and LN: amounts and lanes of the width. -/
theorem test_refuses_shifts_and_lanes : ∀ i ∈ [Instr.shlImm g .s8 1 2 8, .shrImm g .z32 1 2 32, .sarImm g .s16 1 2 16,
    .movXFromLane g .s64 1 2 8, .movLaneFromX g .z8 1 2 63], WellFormed i = (i == .movLaneFromX g .z8 1 2 63) := by decide

/-- R91: the opcodes that forbid a guard. -/
theorem test_refuses_guards : ∀ i ∈ [Instr.loopRegister g1 1 5, .loopImmediate g1 3 5, .mchain g1, .mend g1, .commit g1,
    .retire g1, .cret g1, .tretResume g1, .tretSkip g1, .tretEnd g1, .commit { g with gn := true }], WellFormed i = false := by
  decide

/-- R94 LX and LI: a loop body of no instruction. R211: a decrement by nothing. -/
theorem test_refuses_zero : ∀ i ∈ [Instr.loopRegister g 1 0, .loopImmediate g 3 0, .rdecImmediate g { c := 1, x := 0, pack := .one } 0],
    WellFormed i = false := by decide

/-- R94 CPM and T16, R134: formats that are not assigned, both valid bits, a reserved bit, types of the hardware. -/
theorem test_refuses_permissions_and_seals : ∀ i ∈ [Instr.cperm g 1 2 0x10A00000, .cperm g 1 2 0x30000000, .cperm g 1 2 0x40000000,
    .cperm g 1 2 0x00300000, .cseal g 1 2 3 0xF, .cunseal g 1 2 3 0], WellFormed i = false := by decide

/-- R135: selectors that name nothing. -/
theorem test_refuses_selectors : ∀ i ∈ [Instr.cgetX g 1 2 0x14, .cgetX g 1 2 0x28, .cgetP g 1 2 4, .cgetP g 1 2 0x1E],
    WellFormed i = false := by decide

/-- R159, R164, R94 VI: conversions that are not listed, patterns and elements out of range. -/
theorem test_refuses_vectors : ∀ i ∈ [Instr.vcvt g .e4m3 .e5m2 1 2 .frm, .vcvt g .s4 .f32 1 2 .frm,
    .vpermImmediate g (.int .s32) 1 2 0x1001, .vpermImmediate g (.int .s32) 1 2 5, .vaddIntVi g .s8 1 2 0x80, .vsubIntVi g .z8 1 2 0x100,
    .vmulIntVi g .s16 1 2 0x8000, .vminIntVi g .z16 1 2 0x10000, .vmaxIntVi g .s8 1 2 0xFFFFFF7F], WellFormed i = false := by decide

/-! ## Words of the spec's encoding tables -/

/-- Three words of memory, the first at the lowest address (R87). -/
def word (a b c : Nat) : BitVec 96 := BitVec.ofNat 96 (a + 2 ^ 32 * b + 2 ^ 64 * c)

/-- The word decodes to the instruction. -/
def reads (w : BitVec 96) (i : Instr) : Bool := match decode w with
  | .ok j => j == i
  | .error _ => false

/-- The word is refused with a name. -/
def refuses (w : BitVec 96) (e : DecodeError) : Bool := match decode w with
  | .ok _ => false
  | .error f => f == e

/-- Words of R97 … R102: arithmetic. -/
theorem test_words_arithmetic : ∀ x ∈ ([
    (word 0x1F000000 0x021E2012 0x0, .addReg g .s8 31 1 30),
    (word 0x00000301 0x000021D2 0x80000001, .addImm g .s64 0 29 0x80000001),
    (word 0x1F000102 0x021E2012 0x0, .subReg g .s16 31 1 30),
    (word 0x00000403 0x000021D2 0x80000001, .subImm g .z8 0 29 0x80000001),
    (word 0x1F000204 0x021E2012 0x0, .mulReg g .s32 31 1 30),
    (word 0x00000505 0x000021D2 0x80000001, .mulImm g .z16 0 29 0x80000001),
    (word 0x1F000306 0x021E2012 0x0, .mulhReg g .s64 31 1 30),
    (word 0x00000607 0x000021D2 0x80000001, .mulhImm g .z32 0 29 0x80000001),
    (word 0x1F000408 0x021E2012 0x0, .divReg g .z8 31 1 30),
    (word 0x00000709 0x000021D2 0x80000001, .divImm g .z64 0 29 0x80000001),
    (word 0x1F00050A 0x021E2012 0x0, .remReg g .z16 31 1 30),
    (word 0x0000000B 0x000021D2 0x80000001, .remImm g .s8 0 29 0x80000001),
    (word 0x1F00060C 0x021E2012 0x0, .andReg g .z32 31 1 30),
    (word 0x0000010D 0x000021D2 0x80000001, .andImm g .s16 0 29 0x80000001),
    (word 0x1F00070E 0x021E2012 0x0, .orReg g .z64 31 1 30),
    (word 0x0000020F 0x000021D2 0x80000001, .orImm g .s32 0 29 0x80000001),
    (word 0x1F000010 0x021E2012 0x0, .xorReg g .s8 31 1 30),
    (word 0x00000311 0x000021D2 0x80000001, .xorImm g .s64 0 29 0x80000001),
    (word 0x1F000112 0x021E2012 0x0, .shlReg g .s16 31 1 30),
    (word 0x00000413 0x000021D2 0x7, .shlImm g .z8 0 29 7),
    (word 0x1F000214 0x021E2012 0x0, .shrReg g .s32 31 1 30),
    (word 0x00000515 0x000021D2 0xF, .shrImm g .z16 0 29 15),
    (word 0x1F000316 0x021E2012 0x0, .sarReg g .s64 31 1 30),
    (word 0x00000617 0x000021D2 0x1F, .sarImm g .z32 0 29 31),
    (word 0x1F000418 0x021E2012 0x0, .minReg g .z8 31 1 30),
    (word 0x00000719 0x000021D2 0x80000001, .minImm g .z64 0 29 0x80000001),
    (word 0x1F00051A 0x021E2012 0x0, .maxReg g .z16 31 1 30),
    (word 0x0000001B 0x000021D2 0x80000001, .maxImm g .s8 0 29 0x80000001)] : List (BitVec 96 × Instr)), reads x.1 x.2 = true := by decide +kernel

/-- Words of R97 … R102: moves. -/
theorem test_words_moves : ∀ x ∈ ([
    (word 0x0500001C 0x02072062 0xB, .sel g 5 6 7 { p := 3, neg := true }),
    (word 0x0800001D 0x00002092 0x0, .movXX g 8 9),
    (word 0x0A00001E 0x00000002 0xFFFFFFFE, .li g .sext 10 0xFFFFFFFE),
    (word 0x0A00011E 0x00000002 0x80000000, .li g .zext 10 0x80000000),
    (word 0x0A00021E 0x000020B2 0x7, .li g (.upper 11) 10 7),
    (word 0x0C00061F 0x000020D2 0x0, .clz g .z32 12 13),
    (word 0x0E000120 0x000020F2 0x0, .popc g .s16 14 15),
    (word 0x01000021 0x000041F2 0x3F, .movXFromLane g .s8 1 31 63),
    (word 0x02000722 0x00002034 0x7, .movLaneFromX g .z64 2 3 7),
    (word 0x04000523 0x00002054 0x0, .movBroadcast g .z16 4 5),
    (word 0x06000024 0x00008072 0x0, .movXFromP g 6 7),
    (word 0x01000025 0x00002028 0x0, .movPFromX g 1 2),
    (word 0x1E000026 0x000041D4 0x0, .movVV g 30 29),
    (word 0x05000027 0x00008068 0x0, .movPP g 5 6)] : List (BitVec 96 × Instr)), reads x.1 x.2 = true := by decide +kernel

/-- Words of R97 … R102: control. -/
theorem test_words_control : ∀ x ∈ ([
    (word 0x82000230 0x02042038 0x0, .setpCompare g .s32 .lt 2 3 4),
    (word 0x41000431 0x00002039 0xC8, .setpCompareImm g .z8 .ge 1 3 200),
    (word 0x01000332 0x08038028 0x0, .setpLogic g .andn 1 2 3),
    (word 0x44000033 0x00002058 0x10, .setpBitTest g .ne 4 5 0x10),
    (word 0x06000034 0x06086078 0x0, .setpCapEqual g .eq 6 7 8),
    (word 0x00000035 0x00000000 0x7FFFFFFF, .br g 0x7FFFFFFF),
    (word 0x00000136 0x00002090 0xFFFFFFFF, .brOnRegister g true 9 0xFFFFFFFF),
    (word 0x00000037 0x000021F0 0x0, .bx g 31),
    (word 0x1F000038 0x00000002 0x2, .call g 31 2),
    (word 0x1E000039 0x00002022 0x0, .callIndirect g 30 2),
    (word 0x0100003A 0x00002022 0x0, .callh g 1 2),
    (word 0x0000003B 0x00002040 0x0, .ret g 4),
    (word 0x0000003C 0x00002020 0x5, .loopRegister g 2 5),
    (word 0x0000003D 0x00000000 0xFFFF0001, .loopImmediate g 0xFFFF 1)] : List (BitVec 96 × Instr)), reads x.1 x.2 = true := by decide +kernel

/-- Words of R97 … R102: capabilities. -/
theorem test_words_capabilities : ∀ x ∈ ([
    (word 0x01000040 0x021C6026 0x0, .csliceRegister g 1 2 28),
    (word 0x03000041 0x02056046 0x4030201, .csliceImmediate g 3 4 5 0x04030201),
    (word 0x05000042 0x02076066 0x2, .cstepRegister g 5 6 7 2),
    (word 0x05000043 0x00006066 0xFFFFFFFF, .cstepImmediate g 5 6 3 0x3FFFFFFF),
    (word 0x07000044 0x00006086 0xE1, .ctrans g 7 8 0xE1),
    (word 0x09000045 0x020B60A6 0x1, .cfixRegister g 9 10 11 1),
    (word 0x09000046 0x000060A6 0x15, .cfixImmediate g 9 10 1 5),
    (word 0x0C000047 0x000060D6 0x1030FFFF, .cperm g 12 13 0x1030FFFF),
    (word 0x0E000048 0x060160F6 0x10, .cseal g 14 15 1 0x10),
    (word 0x02000049 0x06046036 0xFFFF, .cunseal g 2 3 4 0xFFFF),
    (word 0x0500004A 0x00006062 0x27, .cgetX g 5 6 0x27),
    (word 0x0700004B 0x00006088 0x1D, .cgetP g 7 8 0x1D),
    (word 0x0900004C 0x00006006 0x0, .cmov g 9 0)] : List (BitVec 96 × Instr)), reads x.1 x.2 = true := by decide +kernel

/-- Words of R97 … R102: memory. -/
theorem test_words_memory : ∀ x ∈ ([
    (word 0x0100004D 0x02916096 0x80FF017F, .cld g 1 { c := 9, x := 17, pack := .four, disp := 0x80FF017F }),
    (word 0x0200004E 0x02916096 0x80FF017F, .cst g 2 { c := 9, x := 17, pack := .four, disp := 0x80FF017F }),
    (word 0x0300014F 0x02916092 0x80FF017F, .ld g .s16 3 { c := 9, x := 17, pack := .four, disp := 0x80FF017F }),
    (word 0x04000750 0x02916092 0x80FF017F, .st g .z64 4 { c := 9, x := 17, pack := .four, disp := 0x80FF017F }),
    (word 0x05000651 0x024360E2 0xA, .ldAcq g .z32 5 { c := 14, x := 3, pack := .two } 10),
    (word 0x06000052 0x024360E2 0x1, .stRel g .s8 6 { c := 14, x := 3, pack := .two } 1),
    (word 0x07000F53 0x02916094 0x80FF017F, .vld g .e3m5 7 { c := 9, x := 17, pack := .four, disp := 0x80FF017F }),
    (word 0x08000E54 0x02916094 0x80FF017F, .vst g .s4 8 { c := 9, x := 17, pack := .four, disp := 0x80FF017F }),
    (word 0x09000A55 0x040B60A4 0x0, .vgth g (.flt .f16) 9 10 11),
    (word 0x0C000356 0x040E60D4 0x0, .vsct g (.int .s64) 12 13 14),
    (word 0x4F000257 0x02916093 0x80FF017F, .amo g .s32 .max 15 { c := 9, x := 17, pack := .four, disp := 0x80FF017F }),
    (word 0x1E000358 0x02916092 0x80FF017F, .cas g .s64 30 { c := 9, x := 17, pack := .four, disp := 0x80FF017F }),
    (word 0x0E000059 0x02916096 0x80FF017F, .casCapability g 14 { c := 9, x := 17, pack := .four, disp := 0x80FF017F }),
    (word 0x0000095A 0x00000000 0x0, .fence g 9),
    (word 0x0100005B 0x02916092 0x80FF017F, .slock g 1 { c := 9, x := 17, pack := .four, disp := 0x80FF017F }),
    (word 0x0000005C 0x02916090 0x80FF017F, .sunlock g { c := 9, x := 17, pack := .four, disp := 0x80FF017F }),
    (word 0x0000025D 0x02916090 0x80FF017F, .pref g .stash { c := 9, x := 17, pack := .four, disp := 0x80FF017F })] : List (BitVec 96 × Instr)), reads x.1 x.2 = true := by decide +kernel

/-- Words of R97 … R102: vectorArithmetic. -/
theorem test_words_vectorArithmetic : ∀ x ∈ ([
    (word 0x01000060 0x04034024 0x0, .vaddIntVv g .s8 1 2 3),
    (word 0x01000361 0x02034024 0x0, .vaddIntVx g .s64 1 2 3),
    (word 0x04000087 0x00004054 0xFFFFFF80, .vaddIntVi g .s8 4 5 0xffffff80),
    (word 0x0600086A 0x04084074 0x0, .vaddFloatVv g .f32 6 7 8 .frm),
    (word 0x06000A6B 0x02084074 0x9, .vaddFloatVx g .f16 6 7 8 (.mode .rtz)),
    (word 0x01000162 0x04034024 0x0, .vsubIntVv g .s16 1 2 3),
    (word 0x01000463 0x02034024 0x0, .vsubIntVx g .z8 1 2 3),
    (word 0x04000188 0x00004054 0x7FFF, .vsubIntVi g .s16 4 5 0x7fff),
    (word 0x0600096C 0x04084074 0x8, .vsubFloatVv g .bf16 6 7 8 (.mode .rne)),
    (word 0x0600096D 0x02084074 0xA, .vsubFloatVx g .bf16 6 7 8 (.mode .rdn)),
    (word 0x01000264 0x04034024 0x0, .vmulIntVv g .s32 1 2 3),
    (word 0x01000565 0x02034024 0x0, .vmulIntVx g .z16 1 2 3),
    (word 0x04000589 0x00004054 0xFFFF, .vmulIntVi g .z16 4 5 0xffff),
    (word 0x06000A6E 0x04084074 0x9, .vmulFloatVv g .f16 6 7 8 (.mode .rtz)),
    (word 0x0600086F 0x02084074 0xC, .vmulFloatVx g .f32 6 7 8 (.mode .rna)),
    (word 0x01000366 0x04034024 0x0, .vminIntVv g .s64 1 2 3),
    (word 0x01000667 0x02034024 0x0, .vminIntVx g .z32 1 2 3),
    (word 0x0400038A 0x00004054 0x80000000, .vminIntVi g .s64 4 5 0x80000000),
    (word 0x06000870 0x04084074 0x0, .vminFloatVv g .f32 6 7 8),
    (word 0x06000971 0x02084074 0x0, .vminFloatVx g .bf16 6 7 8),
    (word 0x01000468 0x04034024 0x0, .vmaxIntVv g .z8 1 2 3),
    (word 0x01000769 0x02034024 0x0, .vmaxIntVx g .z64 1 2 3),
    (word 0x0400068B 0x00004054 0xFFFFFFFF, .vmaxIntVi g .z32 4 5 0xffffffff),
    (word 0x06000872 0x04084074 0x0, .vmaxFloatVv g .f32 6 7 8),
    (word 0x06000973 0x02084074 0x0, .vmaxFloatVx g .bf16 6 7 8)] : List (BitVec 96 × Instr)), reads x.1 x.2 = true := by decide +kernel

/-- Words of R97 … R102: vectorOther. -/
theorem test_words_vectorOther : ∀ x ∈ ([
    (word 0x09000A74 0x040B40A4 0xB, .vfmaVv g .f16 9 10 11 (.mode .rup)),
    (word 0x09000875 0x020B40A4 0x0, .vfmaVx g .f32 9 10 11 .frm),
    (word 0x0C000176 0x000040D4 0x0, .vabsInt g .s16 12 13),
    (word 0x0C000977 0x000040D4 0x0, .vabsFloat g .bf16 12 13),
    (word 0x0C000278 0x000040D4 0x0, .vnegInt g .s32 12 13),
    (word 0x0C000A79 0x000040D4 0x0, .vnegFloat g .f16 12 13),
    (word 0x0E000D7A 0x000040F4 0x8A, .vcvt g .e2m1 .f32 14 15 (.mode .rdn)),
    (word 0x1000047B 0x00004514 0x0, .vredInt g .z8 .min 16 17),
    (word 0x1000087C 0x00004914 0x8, .vredFloat g .f32 .max 16 17 (.mode .rne)),
    (word 0x1200067D 0x04144134 0x0, .vpermRegister g (.int .z32) 18 19 20),
    (word 0x1200007E 0x00004134 0x3F02, .vpermImmediate g (.int .s8) 18 19 0x3F02),
    (word 0x1500097F 0x04174164 0xF, .vsel g (.flt .bf16) 21 22 23 { p := 7, neg := true }),
    (word 0xC1000580 0x04034028 0x0, .vsetpIntVv g .z16 .le 1 2 3),
    (word 0x01000381 0x02034029 0x0, .vsetpIntVx g .s64 .gt 1 2 3),
    (word 0x84000882 0x04064059 0x0, .vsetpFloatVv g .f32 .ord 4 5 6),
    (word 0xC4000A83 0x02064059 0x0, .vsetpFloatVx g .f16 .uno 4 5 6),
    (word 0x18000784 0x00004192 0x0, .vargmaxInt g .z64 24 25),
    (word 0x18000985 0x00004192 0x0, .vargmaxFloat g .bf16 24 25),
    (word 0x1A000886 0x021C21B4 0x0, .vrng g (.flt .f32) 26 27 28)] : List (BitVec 96 × Instr)), reads x.1 x.2 = true := by decide +kernel

/-- Words of R97 … R102: engineAndBarge. -/
theorem test_words_engineAndBarge : ∀ x ∈ ([
    (word 0x07000090 0x0000201A 0x0, .tset g 7 1),
    (word 0x00000091 0x00000000 0x0, .mchain g),
    (word 0x00000092 0x00000000 0x0, .mend g),
    (word 0x07000093 0x0A02A01C 0x0, .mmf g 7 1 2),
    (word 0x00000094 0x0A04A03C 0x0, .mmiNarrow g 0 3 4),
    (word 0x0B000095 0x0A06A05C 0x0, .mmiWide g 3 5 6),
    (word 0x01000696 0x0A07A00C 0x0, .mmb g 1 0 7 .b32 .b16),
    (word 0x08000097 0x041FC02C 0x0, .mscacc g 0 2 31),
    (word 0x03000098 0x0000C044 0x3F, .macldNarrow g 3 4 63),
    (word 0x03000099 0x0000C094 0x1, .macldWide g 3 1 1),
    (word 0x0500009A 0x0000000C 0x0, .mzeroNarrow g 5),
    (word 0x0A00009B 0x0000000C 0x0, .mzeroWide g 2),
    (word 0x010000A0 0x06036022 0x1FFC0, .bcopyTemplate g 1 2 3 0x1FFC0),
    (word 0x040000A1 0x06066052 0x0, .bcopyCommonShape g 4 5 6),
    (word 0x070000A2 0x0602A012 0x17F, .bstage g 7 1 2 { slu := true, hnt := false, kax := true, kn := 63 }),
    (word 0x080000A3 0x00006092 0x0, .bres g 8 9)] : List (BitVec 96 × Instr)), reads x.1 x.2 = true := by decide +kernel

/-- Words of R97 … R102: sluicesAndWaits. -/
theorem test_words_sluicesAndWaits : ∀ x ∈ ([
    (word 0x010000A4 0x02916092 0x80FF017F, .sinit g 1 { c := 9, x := 17, pack := .four, disp := 0x80FF017F }),
    (word 0x020000A5 0x02916092 0x80FF017F, .sarmRegister g 2 { c := 9, x := 17, pack := .four, disp := 0x80FF017F }),
    (word 0x000000A6 0x024360E0 0xFFFFFFFF, .sarmImmediate g { c := 14, x := 3, pack := .two } 0xFFFFFFFF),
    (word 0x000000A7 0x02916090 0x80FF017F, .sarrive g { c := 9, x := 17, pack := .four, disp := 0x80FF017F }),
    (word 0x030000A8 0x02916092 0x80FF017F, .sarriveBytes g 3 { c := 9, x := 17, pack := .four, disp := 0x80FF017F }),
    (word 0x040000A9 0x02916092 0x80FF017F, .swaitBlocking g 4 { c := 9, x := 17, pack := .four, disp := 0x80FF017F }),
    (word 0x050000AA 0x02916092 0x80FF017F, .swaitPoll g 5 { c := 9, x := 17, pack := .four, disp := 0x80FF017F }),
    (word 0x060000AB 0x00000002 0x0, .waitX g 6),
    (word 0x070000AC 0x00000004 0x0, .waitV g 7),
    (word 0x080000AD 0x00000006 0x0, .waitC g 8)] : List (BitVec 96 × Instr)), reads x.1 x.2 = true := by decide +kernel

/-- Words of R97 … R102: tasksAndSystem. -/
theorem test_words_tasksAndSystem : ∀ x ∈ ([
    (word 0x010000B0 0x02916092 0x80FF017F, .spawn g 1 { c := 9, x := 17, pack := .four, disp := 0x80FF017F }),
    (word 0x020000B1 0x02916092 0x80FF017F, .launch g 2 { c := 9, x := 17, pack := .four, disp := 0x80FF017F }),
    (word 0x000000B2 0x024360E0 0x9, .rdecImmediate g { c := 14, x := 3, pack := .two } 9),
    (word 0x030000B3 0x024360E2 0x0, .rdecRegister g 3 { c := 14, x := 3, pack := .two }),
    (word 0x040000B4 0x00006052 0x0, .fork g 4 5),
    (word 0x040000B5 0x06066052 0x0, .forkWithRevisions g 4 5 6),
    (word 0x000000B6 0x00000000 0x0, .commit g),
    (word 0x000000B7 0x00000000 0x0, .retire g),
    (word 0x070000B8 0x02916092 0x80FF017F, .bpushX g 7 { c := 9, x := 17, pack := .four, disp := 0x80FF017F }),
    (word 0x080000B9 0x02916094 0x80FF017F, .bpushV g 8 { c := 9, x := 17, pack := .four, disp := 0x80FF017F }),
    (word 0x090000BA 0x02916092 0x80FF017F, .bpopX g 9 { c := 9, x := 17, pack := .four, disp := 0x80FF017F }),
    (word 0x0A0000BB 0x02916094 0x80FF017F, .bpopV g 10 { c := 9, x := 17, pack := .four, disp := 0x80FF017F }),
    (word 0x000000BC 0x06026010 0x0, .ccall g 1 2),
    (word 0x000000BD 0x00000000 0x0, .cret g),
    (word 0x030000BE 0x02056046 0x0, .publish g 3 4 5),
    (word 0x000000BF 0x00000000 0xABCD, .trap g 0xABCD),
    (word 0x000000C0 0x00000000 0x0, .tretResume g),
    (word 0x000001C0 0x00000000 0x0, .tretSkip g),
    (word 0x000002C0 0x00000000 0x0, .tretEnd g),
    (word 0x060000C1 0x0000E2C2 0x0, .sysrd g 6 .calldepth),
    (word 0x280000C2 0x0000207E 0x0, .syswrRegister g .wtlim 7),
    (word 0x040000C3 0x0000000E 0x100, .syswrImmediate g .le 0x100),
    (word 0x080000C4 0x00002092 0x0, .ctrX g 8 9),
    (word 0x0A0000C5 0x000020B4 0x0, .ctrV g 10 11)] : List (BitVec 96 × Instr)), reads x.1 x.2 = true := by decide +kernel

/-- R88: the guard and hint fields of an `add` at their places: GP 3, GN, S, DLY 5, RU 2, YLD and FS. -/
theorem test_word_fields : reads (word 0x01EB7300 0x02032022 0)
    (.addReg { gp := 3, gn := true, s := true, dly := 5, ru := 2, yld := true, fs := true } .s64 1 2 3) = true := by decide +kernel

/-- R89: a word that fails one check, and its name. -/
theorem test_words_refused : ∀ x ∈ ([
    (word 0x01000028 0x00002022 0, DecodeError.opUnassigned), (word 0x010000C6 0 0, .opUnassigned),
    (word 0x01000300 0x12032022 0, .reservedBits), (word 0x01000800 0x02032022 0, .subUnassigned),
    (word 0x00000B5A 0 0, .subUnassigned), (word 0x000020B6 0 0, .guardForbidden),
    (word 0x01000300 0x02032044 0, .badD), (word 0x01000300 0x02034022 0, .badA), (word 0x01000300 0x02432022 0, .badB),
    (word 0x01000301 0x02032022 0, .badB), (word 0x01000300 0x02032022 1, .badImm), (word 0x01000213 0x00002022 32, .badImm),
    (word 0x010000C1 0x0000E052 0, .badA), (word 0x1F000258 0x02006022 0, .badD)] : List (BitVec 96 × DecodeError)),
    refuses x.1 x.2 = true := by decide +kernel

/-! ## Small states

A slot of a world with two code objects, a team, and seven leased pages from 0x10000 on. -/

/-- The computation answers the value. -/
def gives {ε α : Type} [DecidableEq α] (r : Except ε α) (a : α) : Bool := match r with
  | .ok b => b == a
  | .error _ => false

/-- The computation stops with the value. -/
def stops {ε α : Type} [DecidableEq ε] (r : Except ε α) (e : ε) : Bool := match r with
  | .ok _ => false
  | .error f => f == e

/-- The computation answers. -/
def answers {ε α : Type} (r : Except ε α) : Bool := match r with
  | .ok _ => true
  | .error _ => false

theorem gives_eq {ε α : Type} [DecidableEq α] {r : Except ε α} {a : α} (h : gives r a = true) : r = .ok a := by
  cases r <;> simp_all [gives]

theorem stops_eq {ε α : Type} [DecidableEq ε] {r : Except ε α} {e : ε} (h : stops r e = true) : r = .error e := by
  cases r <;> simp_all [stops]

theorem answers_eq {ε α : Type} {r : Except ε α} (h : answers r = true) : ∃ a, r = .ok a := by
  cases r <;> simp_all [answers]

/-- A capability of rank 1 with every permission. -/
def capOf (base fmt n life : Nat) : CapF :=
  { base := base, ext0 := n, ext1 := 1, ext2 := 1, ext3 := 1, sd0 := 1, sd1 := 0, sd2 := 0, sd3 := 0, fmt := fmt
    rank := 1, perm := 0x3FFF, life := life, gen := 0, seal_ := 0, cmpt := 7, hlay := 0, hswz := 0, rsv := 0 }

/-- The same, untagged. -/
def loose (base fmt n life : Nat) : CapReg := { (capOf base fmt n life).reg with tag := false }

/-- A leased page: V, R, W; target 0 device, 1 host, 2 peer; placement and slice (R328). -/
def lease (pfn tgt plm slice : Nat) : Lease :=
  { leaf := BitVec.ofNat 64 (2 ^ 63 + 2 ^ 62 + 2 ^ 61 + tgt * 2 ^ 57 + plm * 2 ^ 53 + slice * 2 ^ 46 + pfn), level := 0, frame := pfn
    peer := if tgt = 2 then some 9 else none }

/-- The issuing slot: core 1, slot 2. -/
def me : Slot :=
  { Slot.reset with
    active := true, x := [(1, 5), (2, 0xFFFFFFFFFFFFFFFF), (3, 0x8000000000000000), (7, 0x40)], v := [(1, 1), (2, 7)]
    p := [(1, 0xFFFF), (2, 0x0F0E)]
    c := [(1, (capOf 0x10000 3 64 0).reg), (2, (capOf 0x10100 8 32 1).reg), (4, (capOf 0x11000 0x20 16 0).reg),
          (5, loose 0x10000 0 64 0)]
    actid := 99, teamid := 1, pc := 24, obj := 1, cmpt := 7, world := 2, part := 1, grid := 5, team := 4, tcore := 1
    pool := 2, seq := 10, fetched := true, readySince := 5 }

/-- The machine around it. -/
def tst : State :=
  { State.reset with
    now := 1000, cur := 6, fresh := 50
    cores := [(0, { Core.reset with team := some 4, tcore := 0 }),
              (1, { Core.reset with slots := [(1, { me with pc := 48 }), (2, me)], team := some 4, tcore := 1, lastSlot := 1 })]
    owners := (List.range 8).map fun i => (i, 2)
    worlds := [(2, { World.reset with
      live := true, troot := 0x1000
      cmpts := [(0, { valid := true, used := true, priv := true, hnd := 0x40 }),
                (7, { valid := true, used := true, priv := false, hnd := 0x200000080 })]
      objs := [(1, { codeObject with tlen := 4096, base := 0x10000000 }), (2, { codeObject with tlen := 4096, base := 0x20000000, cmpt := 7 }),
               (3, { codeObject with tlen := 4096, base := 0x30000000, quarantined := true })]
      nextObj := 4 })]
    parts := [(1, { Part.reset with wid := 2, sl := 2 ^ 128 - 1, cl := 0xFFFFFFFF, slset := [(0, 0xFF)] })]
    grids := [(5, { Grid.reset with
      part := 1, world := 2, st := .live, teams := [4], begun := true, named := 0x2000
      leases := [(0x10, lease 0x300 0 1 3), (0x11, lease 0x301 0 0 0), (0x12, lease 0x302 1 0 0), (0x13, lease 0x303 0 2 0),
                 (0x14, lease 0x304 2 0 0)] })]
    teams := [(4, { Team.reset with grid := 5, cores := 4, st := .resident 100, rows := [0] })] }

/-- The issuing slot with a value in x6. -/
def withX (w : Word) : State := tst.updSl fun sl => { sl with x := SMap.put 0 sl.x 6 w }

/-- The issuing slot with a capability in c6. -/
def withC (c : CapReg) : State := tst.updSl fun sl => { sl with c := SMap.put CapReg.null sl.c 6 c }

/-- The issuing slot, changed. -/
def withSl (f : Slot → Slot) : State := tst.updSl f

/-- A slot whose activation has committed. -/
def done : State := withSl fun sl => { sl with committed := some 950 }

/-- A memory operand without a displacement. -/
def mo (c : CReg) : MemOp := { c := c, x := 0, pack := .one, disp := 0 }

/-- A memory operand of the forms that have no displacement. -/
def mr (c : CReg) : MemReg := { c := c, x := 0, pack := .one }

/-- The element at coordinate n of a rank-1 capability of `bits` bits. -/
def el (va bits n : Nat) : Elem := { va := va, nib := 0, bits := bits, coords := { Coords.zero with k0 := n } }

/-! ## Witnesses: concrete states and operands that meet the hypotheses of the statements

`witness_<name>` is for the statement of that name or, where a statement is a conjunction of parts, for the part of that name;
`witness_ScalarResults`, `witness_MovesAndPredicates`, `witness_VectorIntegerResults` and `witness_VectorConversions` serve all
the parts of their kind, and a lower-case name adds cases to the statement before or after it. -/

/-- A guard that is p0, a true p1, and a false p2. -/
theorem witness_ScalarResults : tst.sl.guard g = true ∧ tst.sl.guard g1 = true ∧ tst.sl.guard { g with gp := 2 } = false := by
  decide +kernel

theorem witness_MovesAndPredicates : tst.sl.guard g = true := by decide +kernel

/-- Both branches of a register test, and both counts of a loop. -/
theorem witness_RelativeTransfers : tst.sl.guard g = true ∧ (tst.sl.xr 0 = 0 ↔ true = true) ∧ ¬ (tst.sl.xr 1 = 0 ↔ true = true)
    ∧ tst.sl.xr 0 = 0 ∧ tst.sl.xr 1 ≠ 0 ∧ 12 * 1 % 2 ^ 32 ≠ 0 := by decide +kernel

/-- Targets in the current object without and with its number, and in another object. -/
theorem witness_TargetsReached : ∀ t ∈ [0x240, 0x1_0000_0240, 0x2_0000_0000],
    (withX (BitVec.ofNat 64 t)).sl.guard g = true ∧ (withX (BitVec.ofNat 64 t)).sl.xr 6 = BitVec.ofNat 64 t
    ∧ (t / 2 ^ 32 = 0 ∨ t / 2 ^ 32 ∈ (tst.worldAt tst.sl.world).objs.keys)
    ∧ (SMap.look CodeObj.reset (tst.worldAt tst.sl.world).objs (if t / 2 ^ 32 = 0 then tst.sl.obj else t / 2 ^ 32)).quarantined = false
    ∧ t % 4 = 0 := by decide +kernel

/-- An unpublished object, a quarantined one, the current one when it is quarantined, and an offset that is not aligned. -/
theorem witness_TargetFaults : 4 ∉ (tst.worldAt tst.sl.world).objs.keys ∧ 4 ≠ tst.sl.obj
    ∧ 3 ∈ (tst.worldAt tst.sl.world).objs.keys ∧ (SMap.look CodeObj.reset (tst.worldAt tst.sl.world).objs 3).quarantined = true
    ∧ (withSl fun sl => { sl with obj := 3 }).sl.obj = 3
    ∧ (withX 0x4_0000_0000).sl.xr 6 = 0x4_0000_0000 ∧ (withX 0x2_0000_0002).sl.xr 6 = 0x2_0000_0002 := by decide +kernel

/-- A source of rank 2 that passes R40, slices that reach its end and pass it, steps by 1 and 0, both rank limits. -/
theorem witness_DerivedLines :
    let c : CapF := { capOf 0x10000 3 16 0 with ext1 := 16, sd1 := 16, rank := 2 }
    let s := withC c.reg
    (s.sl.cr 6).tag = true ∧ (s.sl.cr 6).f = c ∧ c.has permSL = true ∧ c.life ≠ 2 ∧ c.seal_ = 0
    ∧ 3 + 13 ≤ c.ext 0 ∧ ¬ 3 + 14 ≤ c.ext 0 ∧ (1 : Nat) < c.rank ∧ ¬ (2 : Nat) < c.rank ∧ -(2 ^ 39) ≤ (1 : Int) * c.sd 1
    ∧ (1 : Int) * c.sd 1 < 2 ^ 39 ∧ ¬ (2 ^ 35 : Int) * c.sd 1 < 2 ^ 39 ∧ 15 < c.ext 1 ∧ ¬ 16 < c.ext 1 ∧ c.rank ≠ 1 := by
  decide +kernel

/-- Untagged, without SL, of another compartment, sealed. -/
theorem witness_DerivationSourceFaults : (tst.sl.cr 5).tag = false
    ∧ ({ capOf 0x10000 3 64 0 with perm := 0 } : CapF).reg.f.has permSL = false
    ∧ ((capOf 0x10000 3 64 2).reg.f.life = 2 ∧ (capOf 0x10000 3 64 2).reg.f.cmpt ≠ (withSl fun sl => { sl with cmpt := 8 }).sl.cmpt)
    ∧ ({ capOf 0x10000 3 64 0 with seal_ := 5 } : CapF).reg.f.seal_ ≠ 0 := by decide +kernel

/-- `cperm` of a capability that may be changed: a lifetime that stays, one that would grow, a format of the same width. -/
theorem witness_PermAndMoveResults :
    let c := capOf 0x10000 3 64 3
    (withC c.reg).sl.cr 6 = c.reg ∧ c.reg.tag = true ∧ c.life ≠ 2 ∧ c.seal_ = 0
    ∧ (3 ≤ c.life ∧ 3 ≠ 4 ∧ c.life ≠ 4) ∧ ¬ 5 ≤ c.life ∧ fmtBits 0x10 = fmtBits c.fmt ∧ ¬ fmtBits 4 = fmtBits c.fmt
    ∧ (tst.sl.cr 5).tag = false ∧ (capOf 0x10000 3 64 2).reg.f.life = 2
    ∧ (capOf 0x10000 3 64 2).reg.f.cmpt ≠ (withSl fun sl => { sl with cmpt := 8 }).sl.cmpt
    ∧ ({ c with seal_ := 5 } : CapF).reg.f.seal_ ≠ 0 := by decide +kernel

/-- An authority over the types 0x10 to 0x1F, a target that it seals and one that it unseals; an authority that the check
admits at the last type and refuses at the next, one with another stride; targets without a tag and of another compartment. -/
theorem witness_SealResults :
    let au := capOf 0x10 0 16 0
    let open_ := capOf 0x10000 3 64 0
    let shut : CapF := { open_ with seal_ := 0x1F }
    au.reg.tag = true ∧ au.reg.f = au ∧ au.base ≤ 0x1F ∧ 0x1F < au.base + au.ext0 ∧ ¬ 0x20 < au.base + au.ext0
    ∧ 0 < au.ext1 ∧ 0 < au.ext2 ∧ 0 < au.ext3 ∧ au.has permSE = true ∧ au.has permUS = true ∧ au.fmt = 0 ∧ au.life ≠ 2
    ∧ au.seal_ = 0 ∧ au.rank = 1 ∧ au.sd0 = 1 ∧ open_.reg.tag = true ∧ open_.life ≠ 2 ∧ open_.reg.f.seal_ = 0
    ∧ shut.reg.f.seal_ = 0x1F ∧ (loose 0x10 0 16 0).tag = false
    ∧ (∀ q ∈ [permSE, permUS], answers (check au.reg 7 [q] fmtIsData { Coords.zero with k0 := 15 }) = true
        ∧ stops (check au.reg 7 [q] fmtIsData { Coords.zero with k0 := 16 }) 0x11 = true
        ∧ answers (check { au with sd0 := 2 }.reg 7 [q] fmtIsData { Coords.zero with k0 := 15 }) = true)
    ∧ ({ au with sd0 := 2 } : CapF).reg.f.sd0 ≠ 1 ∧ (tst.sl.cr 5).tag = false ∧ (capOf 0x10000 3 64 2).reg.f.life = 2
    ∧ (capOf 0x10000 3 64 2).reg.f.cmpt ≠ (withSl fun sl => { sl with cmpt := 8 }).sl.cmpt := by decide +kernel

theorem witness_CgetResults : tst.sl.guard g = true := by decide +kernel

/-- The five ends of the check: untagged, outside by one, refused, sealed, and an element of 4 and of 32 bits. -/
theorem witness_CapabilityCheck :
    let c := capOf 0x10000 3 64 2
    let n : CapF := { c with fmt := 9 }
    let k (x : Int) : Coords := { Coords.zero with k0 := x }
    (loose 0x10000 3 64 2).tag = false ∧ c.reg.tag = true ∧ c.reg.f = c
    ∧ stops (check c.reg 7 [permLD] fmtIsData (k 64)) 0x11 = true ∧ stops (check c.reg 7 [permLD] fmtIsData (k (-1))) 0x11 = true
    ∧ stops (check c.reg 8 [permLD] fmtIsData (k 63)) 0x12 = true
    ∧ stops (check { c with seal_ := 1 }.reg 7 [permLD] fmtIsData (k 63)) 0x14 = true
    ∧ gives (check c.reg 7 [permLD] fmtIsData (k 63)) { va := 0x100FC, nib := 0, bits := 32, coords := k 63 } = true
    ∧ gives (check n.reg 7 [permLD] fmtIsData (k 63)) { va := 0x1001F, nib := 1, bits := 4, coords := k 63 } = true := by
  decide +kernel

/-- Elements that pass, guarded lanes, and no guarded lane. -/
theorem witness_LoadsOwe : tst.sl.guard g = true
    ∧ gives (check (tst.sl.cr 1) tst.sl.cmpt [permLD] (fmtOfWidth 32) (tst.sl.coords (mo 1))) (el 0x10000 32 0) = true
    ∧ gives (check (tst.sl.cr 1) tst.sl.cmpt [permLD] (fmtOfWidth 32) (tst.sl.coordsR (mr 1))) (el 0x10000 32 0) = true
    ∧ gives (check (tst.sl.cr 4) tst.sl.cmpt [permLC] fmtIsLine (tst.sl.coords (mo 4))) (el 0x11000 512 0) = true
    ∧ (List.range 16).filter (tst.sl.laneGuard g 32) ≠ []
    ∧ (∀ i ∈ (List.range 16).filter (tst.sl.laneGuard g 32),
        gives (check (tst.sl.cr 1) tst.sl.cmpt [permLD] (fmtOfWidth 32) ((tst.sl.coords (mo 1)).shift i)) (el (0x10000 + 4 * i) 32 i) = true)
    ∧ (∀ i ∈ (List.range (gatherCount 32)).filter (tst.sl.laneGuard g 32),
        answers (check (tst.sl.cr 1) tst.sl.cmpt [permLD] (fmtOfWidth 32) (gatherCoords 32 (tst.sl.cr 1).f.rank (tst.sl.vr 1) i)) = true)
    ∧ (List.range 16).filter (tst.sl.laneGuard { g with gn := true } 32) = [] := by decide +kernel

/-- A place in plain device memory. -/
def somewhere : Place := { kind := .dev, key := 0, va := 0, untagged := false, stash := false, home := 0 }

/-- What the computation answers, or the other value. -/
def okOr {ε α : Type} (r : Except ε α) (a : α) : α := match r with
  | .ok b => b
  | .error _ => a

/-- The place of an element. -/
def placeOf (s : State) (k : AKind) (e : Elem) : Place := okOr (s.placeAt k e) somewhere

/-- The issuing slot holds a revision of the page at 0x10000 whose spill area has no place. -/
def revised : State :=
  { tst with revs := [(3, { Revision.reset with
      world := 2, team := 4, grid := 5, st := .live, spill := (capOf 0x15000 0x20 0 0).reg
      regions := [((capOf 0x10000 3 64 0).reg, 1)] })] } |>.updSl fun sl => { sl with rev := some 3 }

/-- Checked elements with their places; an element outside the view, one that no page is leased for, and one of a revision
whose spill area is full. -/
theorem witness_DataStores :
    let far := withC (capOf 0x19000 3 64 0).reg
    let r := revised
    tst.sl.guard g = true
    ∧ gives (check (tst.sl.cr 1) tst.sl.cmpt [permST] (fmtOfWidth 32) (tst.sl.coords (mo 1))) (el 0x10000 32 0) = true
    ∧ gives (check (tst.sl.cr 1) tst.sl.cmpt [permST] (fmtOfWidth 32) (tst.sl.coordsR (mr 1))) (el 0x10000 32 0) = true
    ∧ gives (tst.placeAt .store (el 0x10000 32 0)) (placeOf tst .store (el 0x10000 32 0)) = true
    ∧ (tst.reserve (tst.who tst.cur) tst.sl.seq (placeOf tst .store (el 0x10000 32 0))).isSome = true
    ∧ answers (tst.checkStores .vstore (tst.sl.cr 1) (fmtOfWidth 32) (((List.range 16).filter (tst.sl.laneGuard g 32)).map fun i =>
        ((tst.sl.coords (mo 1)).shift i, BitVec.ofNat 64 (lane 32 i (tst.sl.vr 1))))) = true
    ∧ answers (tst.checkStores .vstore (tst.sl.cr 1) (fmtOfWidth 32) (((List.range (gatherCount 32)).filter (tst.sl.laneGuard g 32)).map fun i =>
        (gatherCoords 32 (tst.sl.cr 1).f.rank (tst.sl.vr 1) i, BitVec.ofNat 64 (lane 32 i (tst.sl.vr 1))))) = true
    ∧ (List.range 16).filter (tst.sl.laneGuard { g with gn := true } 32) = []
    ∧ stops (check (tst.sl.cr 1) tst.sl.cmpt [permST] (fmtOfWidth 32) ((tst.sl.coords (mo 1)).shift 64)) 0x11 = true
    ∧ gives (check (far.sl.cr 6) far.sl.cmpt [permST] (fmtOfWidth 32) (far.sl.coords (mo 6))) (el 0x19000 32 0) = true
    ∧ answers (far.placeAt .store (el 0x19000 32 0)) = false
    ∧ gives (r.placeAt .store (el 0x10000 32 0)) (placeOf tst .store (el 0x10000 32 0)) = true
    ∧ (r.reserve (r.who r.cur) r.sl.seq (placeOf tst .store (el 0x10000 32 0))).isSome = false := by decide +kernel

/-- Lanes that all pass; the first outside the view, the first without a page, and the first without a place in the spill area
behind lanes that pass. -/
theorem witness_VectorStoreLanes :
    let on := (List.range 16).filter (tst.sl.laneGuard g 32)
    let c : CapF := capOf 0x10000 3 8 0
    let at_ (b : CapF) (j : Nat) := check b.reg tst.sl.cmpt [permST] (fmtOfWidth 32) ((tst.sl.coords (mo 1)).shift j)
    let room (s : State) (va n : Nat) := s.reserve (s.who s.cur) s.sl.seq (placeOf tst .vstore (el va 32 n))
    on ≠ [] ∧ 8 ∈ on
    ∧ (∀ j ∈ on, gives (at_ (capOf 0x10000 3 64 0) j) (el (0x10000 + 4 * j) 32 j) = true
        ∧ answers (tst.placeAt .vstore (el (0x10000 + 4 * j) 32 j)) = true ∧ room tst (0x10000 + 4 * j) j = some tst)
    ∧ stops (at_ c 8) 0x11 = true ∧ (∀ j ∈ on, j < 8 → gives (at_ c j) (el (0x10000 + 4 * j) 32 j) = true)
    ∧ gives (at_ (capOf 0x14FE0 3 64 0) 8) (el 0x15000 32 8) = true ∧ answers (tst.placeAt .vstore (el 0x15000 32 8)) = false
    ∧ (∀ j ∈ on, j < 8 → answers (tst.placeAt .vstore (el (0x14FE0 + 4 * j) 32 j)) = true)
    ∧ gives (at_ (capOf 0xFFE0 3 64 0) 8) (el 0x10000 32 8) = true ∧ room revised 0x10000 0 = none
    ∧ (List.range (gatherCount 32)).filter (tst.sl.laneGuard g 32) ≠ [] := by decide +kernel

/-- Before and after the mint aperture, a value that each step of R43 and of a load admits or stops. -/
theorem witness_CapabilityLineRules :
    let p := placeOf tst .store (el 0x11000 512 0)
    let rows (mint : Bool) (v auth : CapReg) : Option Nat :=
      tst.capValue (tst.who tst.cur) v auth { p with kind := if mint then .mint else .dev }
    rows false (capOf 0x10000 3 64 0).reg (capOf 0x11000 0x20 16 5).reg = some 0x16
    ∧ rows false { capOf 0x10000 3 64 5 with perm := 0 }.reg (capOf 0x11000 0x20 16 5).reg = some 0x16
    ∧ rows true { capOf 0x10000 3 64 5 with perm := 0 }.reg (capOf 0x11000 0x20 16 5).reg = none
    ∧ tst.capValue (tst.who tst.cur) (capOf 0x10000 3 64 0).reg (capOf 0x11000 0x20 16 0).reg { p with untagged := true } = some 0x16
    ∧ (tst.loadedCap (tst.who tst.cur) p (capOf 0x10000 3 64 4).reg).tag = true
    ∧ (tst.loadedCap (tst.who tst.cur) p { capOf 0x10000 3 64 4 with gen := 1 }.reg).tag = false := by decide +kernel

/-- A buffer of n effects. -/
def full (n : Nat) (sl : Slot) : Slot :=
  { sl with deferred := List.replicate n { op := .count 1, dest := none, stale := false, iaddr := 0, dfield := 0 } }

/-- A capability that may be stored, one that may not (R43 step 3), and a store through lifetime global before `commit`
with room for one effect and with none. -/
theorem witness_CapabilityStores :
    let w := (capOf 0x11000 0x20 16 5).reg
    let s := withSl fun sl => full 7 { sl with c := SMap.put CapReg.null sl.c 6 w }
    let f := withSl fun sl => full 8 { sl with c := SMap.put CapReg.null sl.c 6 w }
    let e := el 0x11000 512 0
    gives (check (tst.sl.cr 4) tst.sl.cmpt [permSC] fmtIsLine (tst.sl.coords (mo 4))) e = true
    ∧ gives (check w tst.sl.cmpt [permSC] fmtIsLine (s.sl.coords (mo 6))) e = true
    ∧ gives (tst.placeAt .store e) (placeOf tst .store e) = true ∧ gives (s.placeAt .store e) (placeOf tst .store e) = true
    ∧ tst.capValue (tst.who tst.cur) (tst.sl.cr 1) (tst.sl.cr 4) (placeOf tst .store e) = none ∧ (tst.sl.cr 4).f.life ≠ 5
    ∧ (tst.reserve (tst.who tst.cur) tst.sl.seq (placeOf tst .store e)).isSome = true
    ∧ s.capValue (s.who s.cur) w w (placeOf tst .store e) = none ∧ s.sl.committed = none ∧ w.f.life = 5
    ∧ s.sl.deferred.length < 8 ∧ 8 ≤ f.sl.deferred.length
    ∧ s.capValue (s.who s.cur) (tst.sl.cr 1) w (placeOf tst .store e) = some 0x16 := by decide +kernel

/-- Before `commit` with room, after it, with data and with capabilities. -/
theorem witness_AtomicsDeferOrOwe :
    let s := withSl (full 7)
    tst.sl.guard g = true ∧ s.sl.committed = none ∧ s.sl.deferred.length < 8 ∧ done.sl.committed ≠ none
    ∧ gives (check (s.sl.cr 1) s.sl.cmpt [permLD, permST, permAT] (fmtOfWidth 32) (s.sl.coords (mo 1))) (el 0x10000 32 0) = true
    ∧ gives (check (s.sl.cr 4) s.sl.cmpt [permLD, permST, permLC, permSC, permAT] fmtIsLine (s.sl.coords (mo 4))) (el 0x11000 512 0) = true
    ∧ answers (s.placeAt .atomic (el 0x10000 32 0)) = true
    ∧ s.capValue (s.who s.cur) (s.sl.cr 1) (s.sl.cr 4) (placeOf s .atomic (el 0x11000 512 0)) = none
    ∧ done.capValueIssue (done.who done.cur) (done.sl.cr 1) (done.sl.cr 4) false = none := by decide +kernel

/-- An element of memory that holds no error, whose value is the expected one and is not, and that a write reaches; one with
an error, one without a translation, and one whose revision has no place; a capability line that is the expected one, one
that is not, and one in a page that holds no tag. -/
theorem witness_AtomicActions :
    let e := el 0x10000 64 0
    let q := el 0x10000 512 0
    let w := tst.who 6
    let p := okOr (tst.xlate w .atomic false e.va) somewhere
    let s1 := (tst.touchPage w e.va).readyWrite w p true
    let bad : State := { tst with poison := [(2 * p.key, true)] }
    let v := revised
    let r1 := (v.touchPage (v.who 6) e.va).readyWrite (v.who 6) p true
    stops (tst.xlate w .atomic false 0x19000) 0x20 = true ∧ gives (tst.xlate w .atomic false e.va) p = true
    ∧ ((bad.touchPage w e.va).readyWrite w p true).placePoisoned w p e.nib e.bits = true
    ∧ s1.placePoisoned w p e.nib e.bits = false
    ∧ lineElem (s1.viewLine w p) e.va e.nib e.bits = 0 ∧ uval .s64 (0 : Word).toNat = 0 ∧ uval .s64 (5 : Word).toNat ≠ 0
    ∧ (s1.writeNow w p (.data p.key e.nib e.bits (unsignedOf 64 5))).isSome = true
    ∧ gives (v.xlate (v.who 6) .atomic false e.va) p = true ∧ r1.placePoisoned (v.who 6) p e.nib e.bits = false
    ∧ (r1.writeNow (v.who 6) p (.data p.key e.nib e.bits (unsignedOf 64 5))).isNone = true
    ∧ gives (tst.xlate w .atomic false q.va) p = true ∧ s1.placePoisoned w p 0 512 = false
    ∧ s1.loadedCap w p (s1.viewLine w p) = CapReg.null ∧ CapReg.null ≠ tst.sl.cr 1
    ∧ (s1.writeNow w p (.line (tst.sl.cr 1))).isSome = true ∧ (r1.writeNow (v.who 6) p (.line (tst.sl.cr 1))).isNone = true
    ∧ (tst.sl.cr 1).tag = true ∧ (okOr (tst.xlate w .atomic false 0x12000) somewhere).untagged = true
    ∧ (let old := { capOf (2 ^ 56) 3 64 4 with gen := 1 }
       let t := tst.updWorld 2 fun x => { x with rev := some { at_ := 0, stamp := 0, acts := [], marks := [], sweep := [] } }
       old.reg.tag = true ∧ old.reg.f.life = 4 ∧ p.kind ≠ .mint ∧ (t.worldAt 2).rev ≠ none
       ∧ t.generation 2 1 old.reg.f.base ≠ some old.reg.f.gen)
    ∧ ((bad.touchPage w e.va).readyWrite w p true).placePoisoned w p 0 512 = true := by decide +kernel

/-- A write not yet acknowledged, at a die level. -/
def outAt (lvl got : Nat) : Out :=
  { op := .data (el 0x10800 64 0) 5, rel := none, seq := 3, actid := 99, iaddr := 77
    place := { somewhere with key := 0x300800, va := 0x10800 }, idx := 0, lvl := lvl, got := got, stamp := 3 }

/-- A world with a key for a port has a path, however many the port has. -/
theorem pathsOf_key (s : State) (w k : Nat) (hk : k ∈ s.ports.fkeys.keys) (hw : k % 256 = w)
    (hf : s.ports.failed = []) : s.pathsOf w ≠ [] := by
  have h : k / 256 ∈ s.pathsOf w := by
    simp only [State.pathsOf, hf, List.mem_filter, List.mem_flatMap, List.mem_map, List.mem_range]
    exact ⟨⟨k / 256, ⟨k, ⟨hk, by simp [hw]⟩, rfl⟩, 0, by omega, by simp⟩, by simp⟩
  exact fun e => by simp [e] at h

/-- The machine with a peer on port 1, which stands in stripe set 2 of the partition with this package. -/
def peered : State :=
  { tst with ports := { tst.ports with fkeys := [(258, 1)] } } |>.updPart 1 fun x => { x with stripe := [(2, 2 + 2 ^ 72 * 9)] }

/-- A peer, at the wide scopes and at that of a stripe. -/
theorem witness_peers : peered.stampOf.2.pathsOf 2 ≠ [] ∧ (peered.stampOf.2.memberOf 1 2).isSome = true
    ∧ 1 < min 8 (peered.stampOf.2.stripeSet 1 2).1 ∧ (peered.stampOf.2.stripeSet 1 2).2 1 ≠ peered.stampOf.2.pkg
    ∧ ∀ n, n < 16 → (tst.stampOf.2.memberOf 1 n).isSome = false :=
  ⟨pathsOf_key _ _ 258 (by decide +kernel) (by decide) (by decide +kernel), by decide +kernel⟩

/-- A fence that may go on, one that waits for an acknowledgement, peers, a round that is still needed and one that is
done, and a wide release (`peered` has a peer by `witness_peers`). -/
theorem witness_FencesAndReleases :
    let o := withSl fun sl => { sl with out := [outAt 1 1] }
    let p := peered
    let r : State := { p with ports := { p.ports with rounds := [{ num := 0, core := 1, slot := 2, world := 2, paths := [], got := [], done := true }] } }
      |>.updSl fun sl => { sl with stop := .hold (.release 9 40) }
    tst.sl.guard g = true ∧ (∀ x ∈ tst.sl.out, x.seq < tst.sl.seq → ackLevel 4 ≤ x.got) ∧ tst.sl.owed = [] ∧ tst.coh = []
    ∧ (∃ x ∈ o.sl.out, x.seq < o.sl.seq ∧ ¬ ackLevel 6 ≤ x.got)
    ∧ tst.stampOf.2.hasPeers (tst.stampOf.2.who 6) 9 = false
    ∧ (∀ q ∈ p.stampOf.2.ports.rounds, q.of 6 = false) ∧ (∃ q ∈ r.stampOf.2.ports.rounds, q.of 6 = true ∧ q.done = true)
    ∧ tst.sl.hostDirty = []
    ∧ gives (check (tst.sl.cr 1) tst.sl.cmpt [permST] (fmtOfWidth 32) (tst.sl.coordsR (mr 1))) (el 0x10000 32 0) = true
    ∧ gives (tst.placeAt .store (el 0x10000 32 0)) (placeOf tst .store (el 0x10000 32 0)) = true := by decide +kernel

/-- Prefetches and unlocks: refused, without a translation, of each kind of memory, with no first touch and with one, a line
that the team pinned, and one whose stash has an owner. -/
theorem witness_PrefetchAndUnlock :
    let w := tst.who 6
    let ck (s : State) (c : CReg) := check (s.sl.cr c) s.sl.cmpt [permLD] fmtIsData (s.sl.coords (mo c))
    let far := withC (capOf 0x19000 3 64 0).reg
    let host := withC (capOf 0x12000 3 64 0).reg
    let peer := withC (capOf 0x14000 3 64 0).reg
    let kind (s : State) (va : Nat) : PKind := (okOr (s.xlate w .load false va) { somewhere with kind := .mint }).kind
    let p := okOr (tst.xlate w .load false 0x10000) somewhere
    let line : L1Line := { va := 0x10000, key := lineKey p.key, valid := true, way := 0, pin := some 4 }
    let pinned := tst.updMyCore fun c => { c with l1 := [(0, [line])] }
    tst.sl.guard g = true ∧ stops (ck tst 5) 0x10 = true ∧ gives (ck tst 1) (el 0x10000 32 0) = true
    ∧ gives (ck far 6) (el 0x19000 32 0) = true ∧ stops (far.xlate w .load false 0x19000) 0x20 = true
    ∧ gives (tst.xlate w .load false 0x10000) p = true ∧ p.kind = .dev ∧ tst.noRecord w 0x10000 = false
    ∧ kind tst 0x13000 = .dev ∧ tst.noRecord w 0x13000 = true ∧ tst.stashBanks 1 ≠ 0
    ∧ (tst.updGrid 5 fun x => { x with named := 0x1C000 }).stashBanks 1 = 0
    ∧ gives (ck host 6) (el 0x12000 32 0) = true ∧ kind host 0x12000 = .host ∧ host.noRecord w 0x12000 = false
    ∧ gives (ck peer 6) (el 0x14000 32 0) = true ∧ kind peer 0x14000 = .peer ∧ kind tst (LW + 0x8000 * 0) = .win
    ∧ tst.noL1 1 p = false ∧ tst.pending 1 false p = false
    ∧ (let held : Pend := { core := 1, slot := 1, seq := 3, idx := 0, proxy := false, op := .data (el 0x10000 32 0) 5, whole := false
                            sent := [], held := [1], replies := [] }
       let s : State := { tst with coh := [(lineKey p.key, { LineCoh.reset with pend := some held })] }
       s.pending 1 false p = true ∧ (s.cohAt (lineKey p.key)).pend.isSome = true ∧ (tst.cohAt (lineKey p.key)).pend = none)
    ∧ (tst.cohAt (lineKey p.key)).owner = none
    ∧ ({ tst with coh := [(lineKey p.key, { LineCoh.reset with owner := some 9 })] }.cohAt (lineKey p.key)).owner.isSome = true
    ∧ (∃ x ∈ SMap.look [] pinned.core.l1 (0x10000 / 64 % 1024), x.key = lineKey p.key ∧ x.pin = some pinned.sl.team)
    ∧ ¬ ∃ x ∈ SMap.look [] tst.core.l1 (0x10000 / 64 % 1024), x.key = lineKey p.key ∧ x.pin = some tst.sl.team := by
  decide +kernel

/-- An owed value of x2 with its flight and what has returned. -/
def owing (r : Nat) (f : Flight) (res : Option Res) : Owed :=
  { dest := some (.x r), live := true, mask := fullMask, flight := f, res := res, acq := false, seq := 3, iaddr := 77, dfield := 512 + r }

/-- Owed values that may return: a fixed one, a counter, loads that translate, that do not and that meet an error, a
capability load, a pin, an atomic that is done and one that faults; a cancelled owing; and a load behind an acquire. -/
theorem witness_OwedValuesReturn :
    let o (f : Flight) : State := withSl fun sl => { sl with owed := [owing 2 f none] }
    let e := el 0x10000 32 0
    let q := el 0x11000 512 0
    let bad := el 0x19000 32 0
    let w := tst.who 6
    let p := okOr (tst.xlate w .load false e.va) somewhere
    let may (s : State) (f : Flight) : Bool := s.canPerform 6 (owing 2 f none)
    let hurt : State := { o (.load .s32 e) with poison := [(2 * p.key, true)] }
    let errs (s : State) : Bool := ((s.touchPage w e.va).readyRead w p).readPoisoned w 3 p e.nib e.bits
    let late : State := withSl fun sl =>
      { sl with owed := [{ owing 3 (.load .s32 e) none with acq := true, seq := 1 }, owing 2 (.load .s32 e) none] }
    let add : Flight := .amo .s32 .add 5 e
    let fed : State := withSl fun sl => { sl with
      owed := [{ owing 2 (.load .s32 e) none with seq := 5 }]
      out := [{ outAt 0 0 with op := .data (el 0x10000 64 0) 5, place := { p with va := 0x10000 } }] }
    ((o (.load .s32 e)).slotAt (4 * 1 + 2)).owed[0]? = some (owing 2 (.load .s32 e) none) ∧ may (o (.load .s32 e)) (.load .s32 e) = true
    ∧ gives ((o (.load .s32 e)).xlate w .load false e.va) p = true ∧ errs (o (.load .s32 e)) = false
    ∧ may hurt (.load .s32 e) = true ∧ gives (hurt.xlate w .load false e.va) p = true ∧ errs hurt = true
    ∧ may (o (.load .s32 bad)) (.load .s32 bad) = true ∧ stops ((o (.load .s32 bad)).xlate w .load false bad.va) 0x20 = true
    ∧ may (o (.cload q)) (.cload q) = true ∧ answers ((o (.cload q)).xlate w .load false q.va) = true
    ∧ ((o (.ready CapReg.null)).slotAt 6).owed[0]? = some (owing 2 (.ready CapReg.null) none)
    ∧ ((o (.ctr 0 1 0 false)).slotAt 6).owed[0]? = some (owing 2 (.ctr 0 1 0 false) none)
    ∧ may (o (.slock e)) (.slock e) = true ∧ answers ((o (.slock e)).pinLine w e) = true
    ∧ may (o add) add = true ∧ add.kind = .atomic ∧ answers ((o add).performMem w 3 add) = true
    ∧ answers ((o (.cas .s32 0 5 bad)).performMem w 3 (.cas .s32 0 5 bad)) = false
    ∧ ((owing 2 (.load .s32 e) none).drop (.x 2)).live = false ∧ may late (.load .s32 e) = false
    ∧ (o add).rival (.value 1 2 0) = none ∧ (elemNibbles p.key e.nib e.bits).all (fun j => fed.covered w 5 (128 * lineKey p.key + j)) = true
    ∧ (elemNibbles p.key e.nib e.bits).all (fun j => tst.covered w 5 (128 * lineKey p.key + j)) = false := by decide +kernel

/-- A vector load whose elements are in reach, one with an element that is not, and one that has one element left. -/
theorem witness_VectorLoadsReturn :
    let vl (l : List (Nat × Elem)) : Flight := .vload 32 l l [] none false
    let o (l : List (Nat × Elem)) : State := withSl fun sl => { sl with owed := [{ owing 2 (vl l) none with dest := some (.v 2) }] }
    let two := [(0, el 0x10000 32 0), (3, el 0x1000C 32 3)]
    let far := [(0, el 0x10000 32 0), (3, el 0x19000 32 3)]
    let w := tst.who 6
    let into (l : List (Nat × Elem)) : Owed := { owing 2 (vl l) none with dest := some (.v 2) }
    let again : Owed := { into two with flight := .vload 32 two two [] none true }
    ((o two).slotAt 6).owed[0]? = some (into two) ∧ (o two).canPerform 6 (into two) = true ∧ (o far).canPerform 6 (into far) = true
    ∧ (∀ x ∈ two, answers ((o two).xlate w .vload false x.2.va) = true) ∧ far[1]? = some (3, el 0x19000 32 3)
    ∧ stops ((o far).xlate w .vload false 0x19000) 0x20 = true ∧ answers ((o far).xlate w .vload false 0x10000) = true
    ∧ answers ((o [(0, el 0x10000 32 0)]).readElem w .vload 3 (el 0x10000 32 0)) = true
    ∧ (o two).rival (.value 1 2 0) = none ∧ (withSl fun sl => { sl with owed := [again] }).canPerform 6 again = true
    ∧ two.eraseIdx 0 ≠ [] ∧ [(0, el 0x10000 32 0)].eraseIdx 0 = [] := by decide +kernel

/-- A parked slot whose owed values have all returned, one of them alone in its register. -/
theorem witness_ParksLand :
    let o := owing 2 (.ready CapReg.null) (some (.val (capOfWord 5) 1))
    let s := withSl fun sl => { sl with stop := .park, owed := [o, owing 3 (.ready CapReg.null) (some (.val (capOfWord 6) 2))] }
    (s.slotAt 6).stop = .park ∧ s.expired 6 = false ∧ (s.slotAt 6).preempt = false
    ∧ (∀ x ∈ (s.slotAt 6).owed, x.live = true → x.res = some (.val (capOfWord 5) 1) ∨ x.res = some (.val (capOfWord 6) 2))
    ∧ (∀ x ∈ (s.slotAt 6).owed, x.live = true → x.dest = o.dest → x = o) := by decide +kernel

/-- A core with a ready slot, and one with none. -/
theorem witness_IssueChoice : (tst.coreAt 1).oos = false ∧ (tst.coreAt 1).stopped = none ∧ (tst.tick 1).slotReady 6 = true
    ∧ (tst.coreAt 0).oos = false ∧ ∀ k, k < 4 → (tst.tick 0).slotReady (4 * 0 + k) = false := by decide +kernel

/-- Lanes with a true and with a false guard. -/
theorem witness_VectorIntegerResults : tst.sl.laneGuard { g with gp := 2 } 32 1 = true ∧ tst.sl.laneGuard { g with gp := 2 } 32 0 = false := by
  decide +kernel

/-- A quiet and a signalling NaN, infinities of both signs, zero and numbers, in f32. -/
theorem witness_FloatSpecialCases :
    let f := fpOf .f32
    (0x7FC00000 < 2 ^ FType.f32.width) ∧ fvIsNan (f.value 0x7FC00000) = true ∧ f.value 0x7F800001 = .nan true
    ∧ fvIsInf (f.value 0x7F800000) = true ∧ fvIsInf (f.value 0xFF800000) = true
    ∧ fvSign (f.value 0x7F800000) ≠ fvSign (f.value 0xFF800000) ∧ fvIsZero (f.value 0x80000000) = true
    ∧ fvIsNan (f.value 0x3F800000) = false ∧ fvIsInf (f.value 0x3F800000) = false := by decide +kernel

/-- The magnitude of a code, as a multiple of 2^scale. -/
def magAt (f : FpFmt) (scale : Int) (c : Nat) : Nat := match f.value c with
  | .fin _ k q => k * 2 ^ (q - scale).toNat
  | _ => 0

/-- In e2m1, 4 is exact, 5 lies between 4 and 6, the largest, and 8 reaches the step above it; e3m5 has no sign. -/
theorem witness_RoundingRule :
    let v := magAt fpE2m1 (min 0 (1 - (fpE2m1.bias : Int) - fpE2m1.mBits - 2))
    let x (m : Nat) : Nat := m * 2 ^ ((0 : Int) - min 0 (1 - (fpE2m1.bias : Int) - fpE2m1.mBits - 2)).toNat
    let top := fpE2m1.maxBits false
    fpE2m1.sign = true ∧ fpE3m5.sign = false ∧ top = 7 ∧ 6 ≤ top ∧ v 6 = x 4 ∧ v 6 < x 5 ∧ x 5 < v 7
    ∧ 2 * v top - v (top - 1) ≤ x 8 := by decide +kernel

/-- Finite operands whose sum is not zero and is, and operands that are NaN and that are not. -/
theorem witness_FloatFiniteCases :
    let f := fpOf .f32
    0x3F800000 < 2 ^ FType.f32.width ∧ f.value 0x3F800000 = .fin false 0x800000 (-23) ∧ f.value 0xBF800000 = .fin true 0x800000 (-23)
    ∧ f.value 0 = .fin false 0 (-149) ∧ fvIsNan (f.value 0x3F800000) = false ∧ fvIsNan (f.value 0x7FC00000) = true := by
  decide +kernel

/-- Conversions between each pair of kinds: integers that are zero and not; NaNs, infinities and numbers above and below the
half; and float types with infinities, with NaNs alone and with numbers alone. -/
theorem witness_FloatConversions :
    eSigned .s32 = some true ∧ fpOfE .f32 = some fpF32 ∧ signedOf 32 0 = 0 ∧ signedOf 32 5 ≠ 0 ∧ fpF32.value 0x7FC00000 = .nan false
    ∧ fpF32.value 0xFF800000 = .inf true ∧ fpF32.value 0x3FC00000 = .fin false 0xC00000 (-23) ∧ 0xC00000 % 2 ^ 23 = 2 ^ 22
    ∧ fpF32.value 0x3FA00000 = .fin false 0xA00000 (-23) ∧ 2 * (0xA00000 % 2 ^ 23) < 2 ^ 23
    ∧ fpOfE .f16 = some fpF16 ∧ fpF16.kind = .ieee ∧ fpE2m1.kind = .numbers ∧ fpE4m3.kind ≠ .ieee ∧ fpE4m3.kind ≠ .numbers
    ∧ fpF32.value 0x80000000 = .fin true 0 (-149) ∧ EType.f16 ≠ EType.f32 ∧ fpE3m5.sign = false := by decide +kernel

/-- Guarded elements and none, and an integer below, in and above the range of its destination. -/
theorem witness_VectorConversions : (List.range (512 / 32)).filter (tst.sl.laneGuard g 32) ≠ []
    ∧ (List.range (512 / 32)).filter (tst.sl.laneGuard { g with gn := true } 32) = []
    ∧ eSigned .s16 = some true ∧ eSigned .s8 = some true ∧ signedOf 16 0xFF7F < -(2 ^ 7) ∧ -(2 ^ 7) ≤ signedOf 16 0xFF80
    ∧ signedOf 16 0x7F ≤ 2 ^ 7 - 1 ∧ 2 ^ 7 - 1 < signedOf 16 0x80 := by decide +kernel

/-- The levels of the tree by width. -/
theorem witness_ReductionResults : 2 ^ 6 = 512 / IType.s8.width ∧ 2 ^ 3 = 512 / IType.z64.width ∧ 2 ^ 4 = 512 / FType.f32.width
    ∧ 2 ^ 5 = 512 / FType.bf16.width := by decide

theorem witness_VectorArgmax : 2 ^ 4 = 512 / IType.s32.width ∧ (List.range 16).filter (tst.sl.laneGuard g 32) ≠ []
    ∧ (List.range 16).filter (tst.sl.laneGuard { g with gn := true } 32) = [] := by decide +kernel

/-- A tile image: V, B, format, planes, minor size, swizzle, offset (R18). -/
def tileOf (isB : Bool) (fmt np nm swz off : Nat) : Word :=
  BitVec.ofNat 64 (2 ^ 63 + (if isB then 2 ^ 62 else 0) + fmt * 2 ^ 48 + np * 2 ^ 43 + nm * 2 ^ 37 + swz * 2 ^ 32 + off)

/-- The engine of core 1 with an A tile in t1, a B tile in t2, changed. -/
def withEngine (fa fb : Nat) (f : Engine → Engine) : State := tst.updMyCore fun c => { c with
  engine := f { Engine.reset with t := [(1, tileOf false fa 9 31 0 0x10000), (2, tileOf true fb 9 31 0 0x11000)], owner := some 4 } }

/-- One instruction in the queue. -/
def queued (n : Nat) (w : EngineWork) : EngineOp := { num := n, slot := 2, work := w, after := 0, chain := none }

/-- Pairs of each kind, tags, a queue with nothing waiting, one with two behind the instruction that is taken up, one whose
head a staging holds, one that a chain takes up; and another slot's chain. -/
theorem witness_EngineIssue :
    let ok (s : State) (p : Nat → Prop) [DecidablePred p] : Prop :=
      let ta := TileF.of (s.core.engine.tile 1)
      let tb := TileF.of (s.core.engine.tile 2)
      ta.valid = true ∧ ta.isB = false ∧ tb.valid = true ∧ tb.isB = true ∧ p ta.fmt ∧ p tb.fmt
    let s := withEngine 0x10 0x14 id
    let held (bs : List BargeOp) (o : EngineOp) : Bool := bs.any fun y => decide (y.num ≤ o.after) && (match y.work with
      | .stage t _ _ _ => o.work.tiles.any fun x =>
          decide ((TileF.of t).off < x.off + x.bytes) && decide (x.off < (TileF.of t).off + (TileF.of t).bytes)
      | _ => false)
    let splits (bs : List BargeOp) (taken queued : List EngineOp) : Bool :=
      (taken.all fun o => !held bs o) && (taken.tail.all fun o => decide (o.chain ≠ none) && decide (some o.chain = taken.head?.map (·.chain)))
        && (match queued.head? with
          | none => true
          | some o => held bs o || decide (taken ≠ []) && (decide (o.chain = none) || decide (some o.chain ≠ taken.head?.map (·.chain))))
    let one := queued 1 (.mzero 0)
    let two := queued 2 (.mmf 0 (tileOf false 0x10 9 31 0 0x10000) (tileOf true 0x14 9 31 0 0x11000))
    let stages : BargeOp := { num := 0, slot := 2, work := .stage (tileOf false 0x10 9 31 0 0x10000) CapReg.null CapReg.null { slu := false, hnt := false, kax := false, kn := 63 }
                              iaddr := 0, dfield := 0, defer := false, after := 0, seq := 0, first := 0, pos := 0, got := [] }
    s.sl.guard g = true ∧ s.core.engine.chain = none ∧ s.core.engine.owner = some s.sl.team
    ∧ splits [] [] [] = true ∧ splits [] [one] [one, one] = true ∧ 2 ≤ [one, one].length ∧ splits [stages] [] [two] = true
    ∧ splits [] [{ one with chain := some 1 }, { one with chain := some 1 }] [] = true
    ∧ ok s (· ∈ [0x13, 0x14, 0x11, 0x12, 0x10]) ∧ ¬ ok s (· ∈ [0x09, 0x01, 0x05, 0x02, 0x15])
    ∧ ok (withEngine 0x09 0x15 id) (· ∈ [0x09, 0x01, 0x05, 0x02, 0x15]) ∧ ok (withEngine 0x15 0x15 id) (· = 0x15)
    ∧ s.core.engine.fresh 0 = true ∧ (withEngine 0x10 0x14 fun e => { e with used := [(0, true)] }).core.engine.fresh 0 = false
    ∧ (withEngine 0x10 0x14 fun e => { e with tags := [(0, .int32)] }).core.engine.tagOf 0 ≠ .fp32
    ∧ (withEngine 0x10 0x14 fun e => { e with tags := [(0, .block)] }).core.engine.tagOf 0 = .block
    ∧ 4 + 64 / 16 ≤ 8 ∧ 8 < 5 + 64 / 16
    ∧ ¬ ((withEngine 0x10 0x14 fun e => { e with chain := some 1 }).core.engine.chain = none
        ∨ (withEngine 0x10 0x14 fun e => { e with chain := some 1 }).core.engine.chain = some (s.cur % 4)) := by decide +kernel

/-- A tile register that may be written, one with a reserved bit, one with too many planes for its format, one that leaves
the plane region; chains and another team. -/
theorem witness_EngineControl :
    let base := tst.planeBase (tst.cur / 4)
    let ok (w : Word) : Prop := w.toNat / 2 ^ 56 % 2 ^ 5 = 0 ∧ w.toNat / 2 ^ 61 % 2 = 0 ∧ w.toNat / 2 ^ 42 % 2 = 0 ∧ w.toNat / 2 ^ 18 % 2 ^ 14 = 0
    let inPlace (w : Word) : Prop := let t := TileF.of w
      (t.swz = 0 ∨ 8 ≤ t.swz ∧ t.swz ≤ 16) ∧ t.off % 256 = 0
      ∧ base ≤ t.off ∧ t.off + 256 * t.np + (if groupFmt t.fmt then 256 else 0) ≤ base + 0x10000
    let w := tileOf false 0x01 8 31 0 base
    let e := tst.updMyCore fun c => { c with engine := { Engine.reset with owner := some 4 } }
    e.core.engine.chain = none ∧ e.core.engine.owner = some e.sl.team ∧ tst.core.engine.owner ≠ some tst.sl.team
    ∧ ok w ∧ (TileF.of w).valid = true ∧ stageOk (TileF.of w).fmt (TileF.of w).np = true ∧ inPlace w
    ∧ ¬ ok (w ||| 0x0000_0400_0000_0000) ∧ stageOk (TileF.of (tileOf false 0x01 31 31 0 base)).fmt (TileF.of (tileOf false 0x01 31 31 0 base)).np = false
    ∧ ¬ inPlace (tileOf false 0x01 8 31 0 (base + 0x10000)) ∧ (TileF.of 0).valid = false ∧ ok 0
    ∧ (withEngine 1 1 fun e => { e with chain := some 2 }).core.engine.chain = some (tst.cur % 4) := by decide +kernel

/-- A queue with an instruction of each kind at its head and no staging before it. -/
theorem witness_EngineCells : ∀ w ∈ [EngineWork.mmf 0 0 0, .mmi 7 0 0, .mmi 8 0 0, .mmb 0 0 0 8, .mscacc 8 0 0, .macld 7 63, .macld 8 0, .mzero 11],
    let s := withEngine 1 1 fun e => { e with queue := [queued 1 w] }
    (s.coreAt 1).engine.queue = [queued 1 w] ∧ (queued 1 w).slot < 4 ∧ (s.coreAt 1).barge = [] := by decide +kernel

/-- A completion of chain 7 that is owed, with every instruction of the chain committed. -/
theorem witness_ChainCompletes :
    let s := withSl fun sl => { sl with owed := [owing 2 (.chain 7) none] }
    (2 : Nat) < 4 ∧ (∃ o ∈ (s.slotAt 6).owed, o.flight = .chain 7 ∧ o.res = none)
    ∧ (∀ j, j < 4 → ∀ o ∈ (s.slotAt (4 * 1 + j)).owed, j = 2) ∧ ∀ op ∈ (s.coreAt 1).engine.queue, op.chain ≠ some 7 := by
  decide +kernel

/-- A template of one level over three elements, with a Sluice or without. -/
def tmpl (slu : Bool) : Template :=
  { dst := Coords.zero, sst := { Coords.zero with k0 := 1 }, slu := slu, levels := [{ count := 3, ddlt := 1, sdlt := 1, dk := 0, sk := 0 }] }

/-- A state with two templates in its named area, a Sluice in c15 and capabilities in c4 and c6. -/
def withTemplates (dst src slu : CapReg) : State :=
  let s := (tst.putData (memKey (.spad 1) 0x40) (leBytes 256 (tmpl true).bits)).putData (memKey (.spad 1) 0x140) (leBytes 256 (tmpl false).bits)
  s.updSl fun sl => { sl with c := [(4, dst), (6, src), (15, slu)] }

/-- Copies with and without a template, a Sluice of lifetime world, staging from a block of 64 by 64 elements, a resume
record, a queue with two behind the instruction that is carried out and behind one that is not, and what is refused. -/
theorem witness_BargeIssue :
    let d := capOf 0x13000 3 64 0
    let c := capOf 0x10000 3 64 0
    let slu := capOf 0x11000 4 8 3
    let es := capOf 0x11000 4 8 0
    let s := withTemplates d.reg c.reg slu.reg
    let b : CapF := { capOf 0x10000 0x13 64 0 with ext1 := 64, sd1 := 4, rank := 2 }
    let t := TileF.of (tileOf false 0x13 9 31 0 0x10000)
    s.sl.guard g = true ∧ s.core.barge = [] ∧ (s.sl.cr 4).f = d ∧ d.has permCP = true ∧ d.fmt ≠ 0x21 ∧ d.life ≠ 2 ∧ d.seal_ = 0
    ∧ fmtKind d.fmt = fmtKind c.fmt ∧ fmtBits d.fmt = fmtBits c.fmt ∧ s.sl.acked s.sl.seq 6 = true
    ∧ (let read (off : Nat) : Option Template := templateOf (Memory.num s.mem (memKey (.spad 1) off) 256)
       let hurt : State := { s with poison := [(2 * memKey (.spad 1) 0x40, true)] }
       read 0x40 = some (tmpl true) ∧ read 0x140 = some (tmpl false) ∧ read 0x240 = none ∧ 0x40 + 256 ≤ s.namedSize s.sl.grid
       ∧ s.poisoned (2 * memKey (.spad 1) 0x40) 512 = false ∧ hurt.poisoned (2 * memKey (.spad 1) 0x40) 512 = true ∧ ¬ 0x50 % 64 = 0
       ∧ ¬ 0x2000 + 256 ≤ s.namedSize s.sl.grid)
    ∧ gives (check (s.sl.cr 15) s.sl.cmpt [permAT, permLD, permST] fmtIsData Coords.zero) (el 0x11000 64 0) = true
    ∧ s.sl.committed = none ∧ (s.sl.cr 15).f.life ≠ 0 ∧ s.sl.deferred.length < 8 ∧ 8 ≤ (withSl (full 8)).sl.deferred.length
    ∧ t.valid = true ∧ answers (check b.reg s.sl.cmpt [permPL] fmtIsData { Coords.zero with k0 := t.nm, k1 := 63 }) = true ∧ b.fmt = t.fmt
    ∧ ((s.slotAt 6).acked 8 6 = true ∧ ((withSl fun sl => { sl with out := [outAt 1 1] }).slotAt 6).acked 8 6 = false)
    ∧ (withSl fun sl => { sl with out := [outAt 1 1] }).sl.acked 10 6 = false ∧ es.reg.f.life = 0
    ∧ b.hswz = t.swz ∧ b.hlay ≠ 1 ∧ b.hlay ≠ 2 ∧ (TileF.of 0).valid = false ∧ (loose 0x10000 3 64 0).tag = false
    ∧ ∀ j : Nat, j < 8 → gives (check (capOf 0x11000 0x20 16 0).reg s.sl.cmpt [permLC] fmtIsLine { Coords.zero with k0 := j })
        (el (0x11000 + 64 * j) 512 j) = true := by decide +kernel

/-- A Barge instruction at an element. -/
def moving (pos : Nat) (w : BargeWork) : BargeOp :=
  { num := 6, slot := 2, work := w, iaddr := 5, dfield := 9, defer := false, after := 2, seq := 8, first := 0, pos := pos, got := [] }

/-- That instruction at the head of the queue. -/
def barged (pos : Nat) (w : BargeWork) : State := tst.updMyCore fun c => { c with barge := [moving pos w] }

/-- A copy at its first element and at its end, with elements outside either view, pages that no lease covers, an error, a
revision without a place, and an access that is not its turn; a copy of lines whose value may be stored and may not. -/
theorem witness_BargeCopies :
    let src := capOf 0x10000 3 64 0
    let dst := capOf 0x13000 3 64 0
    let cp (d s : CapF) : BargeWork := .copy d.reg s.reg CapReg.null (tmpl false)
    let s := barged 0 (cp dst src)
    let w := s.who 6
    let at_ (c : CapF) (x : Int) : Elem := c.elem { Coords.zero with k0 := x }
    let p := okOr (s.xlate w .copy false 0x10004) somewhere
    let hurt : State := { s with poison := [(2 * p.key, true)] }
    let late : State := s.updSl fun sl => { sl with owed := [{ owing 3 (.load .s32 (el 0x10004 32 1)) none with acq := true, seq := 1 }] }
    let v := revised
    let l := capOf 0x11000 0x20 16 5
    let ready (t : State) (o : BargeOp) : Bool := t.bargeReady 1 o
    (s.coreAt 1).barge = [moving 0 (cp dst src)] ∧ ready s (moving 0 (cp dst src)) = true
    ∧ ready late (moving 0 (cp dst src)) = false ∧ (tmpl false).size = 3 ∧ ¬ 3 ≤ 0 ∧ 3 ≤ 3
    ∧ src.inBounds { Coords.zero with k0 := 1 } = true ∧ (capOf 0x10000 3 1 0).inBounds { Coords.zero with k0 := 1 } = false
    ∧ dst.inBounds Coords.zero = true ∧ (capOf 0x13000 3 0 0).inBounds Coords.zero = false
    ∧ s.elemPending w .copy false (at_ src 1) = false ∧ s.elemPending w .copy true (at_ dst 0) = false
    ∧ answers (s.xlate w .copy false 0x10004) = true ∧ answers (s.xlate w .copy true 0x13000) = true
    ∧ answers (s.xlate w .copy false 0x19000) = false ∧ answers (s.xlate w .copy true 0x19000) = false
    ∧ answers (s.readElem w .copy 8 (at_ src 1)) = true ∧ answers (hurt.readElem w .copy 8 (at_ src 1)) = false
    ∧ answers (s.readCap w .copy 8 (at_ l 0)) = true
    ∧ s.capValue w l.reg l.reg (okOr (s.xlate w .copy true 0x11000) somewhere) = none
    ∧ s.capValue w src.reg l.reg (okOr (s.xlate w .copy true 0x11000) somewhere) = some 0x16
    ∧ ((s.touchPage w 0x13000).bargeWrite w 6 (okOr (s.xlate w .copy true 0x13000) somewhere) (.data 0x303000 0 32 5) false).isSome = true
    ∧ (v.bargeWrite (v.who 6) 6 (okOr (v.xlate (v.who 6) .copy true 0x10000) somewhere) (.data 0x300000 0 32 5) false).isNone = true := by
  decide +kernel

/-- The header of a resume record: its kind, and iteration l. -/
def resumeLine (kind it : Nat) : CapReg := { bits := BitVec.ofNat 512 (it + 2 ^ 469 * kind), tag := false }

/-- A state with a resume record at 0x11000. -/
def withRecord (h : CapReg) (d s : CapReg) (t : Nat) : State :=
  let image (j : Nat) : CapReg := { bits := BitVec.ofNat 512 (t / 2 ^ (512 * j)), tag := false }
  ([h, d, s, CapReg.null, image 0, image 1, image 2, image 3].zipIdx).foldl (fun m x => m.putLine (memKey .dev (0x301000 + 64 * x.2)) x.1)
    (barged 0 (.resume (capOf 0x11000 0x20 16 0).reg false))

/-- A record that is read and one that is not, of a wrong kind, with a bad template, with a capability that may not be copied, with
its tuple inside and outside the counts; a staging in the midst of its elements, at an element that faults, and at its end. -/
theorem witness_BargeResumesAndStages :
    let c := capOf 0x10000 3 64 0
    let s := withRecord (resumeLine 0 1) c.reg c.reg (tmpl false).bits
    let op := moving 0 (.resume (capOf 0x11000 0x20 16 0).reg false)
    let w := s.who 6
    let read (t : State) (r : CapReg) := (t.readRecord w 8 r [0, 1, 2, 3, 4, 5, 6, 7]).map fun x => x.2
    let lines (t : State) : List CapReg := okOr (read t (capOf 0x11000 0x20 16 0).reg) []
    let image (l : List CapReg) : Nat := (l.getD 4 CapReg.null).bits.toNat + 2 ^ 512 * (l.getD 5 CapReg.null).bits.toNat
      + 2 ^ 1024 * (l.getD 6 CapReg.null).bits.toNat + 2 ^ 1536 * (l.getD 7 CapReg.null).bits.toNat
    let tile := tileOf false 0x13 9 31 0 (tst.planeBase 1)
    let b : CapF := { capOf 0x10000 0x13 64 0 with ext1 := 64, sd1 := 64, rank := 2 }
    let far : CapF := { b with base := 0x19000 }
    let o : StageOpts := { slu := false, hnt := false, kax := false, kn := 63 }
    let st (pos : Nat) (c : CapF) : State := barged pos (.stage tile c.reg CapReg.null o)
    let pend : Pend := { core := 1, slot := 1, seq := 3, idx := 0, proxy := false, op := .line (el 0x11000 512 0) CapReg.null
                         whole := false, sent := [], held := [1], replies := [] }
    let held (t : State) : State := { t with coh := [(0x301000 / 64, { LineCoh.reset with pend := some pend })] }
    (s.coreAt 1).barge = [op] ∧ s.bargeReady 1 op = true
    ∧ s.recordPending w (capOf 0x11000 0x20 16 0).reg = false ∧ (held s).recordPending w (capOf 0x11000 0x20 16 0).reg = true
    ∧ answers (s.readRecord w 8 (capOf 0x11000 0x20 16 0).reg [0, 1, 2, 3, 4, 5, 6, 7]) = true
    ∧ answers (s.readRecord w 8 (capOf 0x19000 0x20 16 0).reg [0, 1, 2, 3, 4, 5, 6, 7]) = false
    ∧ (lines s).length = 8 ∧ ((lines s).getD 0 CapReg.null).bits.toNat / 2 ^ 469 % 4 = 0 ∧ templateOf (image (lines s)) = some (tmpl false)
    ∧ ((lines (withRecord (resumeLine 1 1) c.reg c.reg 0)).getD 0 CapReg.null).bits.toNat / 2 ^ 469 % 4 = 1
    ∧ templateOf (image (lines (withRecord (resumeLine 0 1) c.reg c.reg 0))) = none
    ∧ copyCheck c.reg c.reg 7 = none ∧ copyCheck c.reg (loose 0x10000 3 64 0) 7 ≠ none
    ∧ answers (sluiceCheck (capOf 0x11000 4 8 0).reg 7 [permAT, permLD, permST] Coords.zero) = true
    ∧ answers (sluiceCheck CapReg.null 7 [permAT, permLD, permST] Coords.zero) = false
    ∧ 1 < (3 : Nat) ∧ ¬ 3 < (3 : Nat)
    ∧ (st 70 b).bargeReady 1 (moving 70 (.stage tile b.reg CapReg.null o)) = true ∧ 70 < 32 * 64 ∧ ¬ 2048 < 32 * 64
    ∧ (st 70 b).elemPending w .copy false (b.elem { Coords.zero with k0 := 6, k1 := 1 }) = false
    ∧ answers ((st 70 b).readElem w .copy 8 (b.elem { Coords.zero with k0 := 6, k1 := 1 })) = true
    ∧ answers ((st 70 far).readElem w .copy 8 (far.elem { Coords.zero with k0 := 6, k1 := 1 })) = false
    ∧ ((st 2048 b).coreAt 1).engine.queue = [] := by decide +kernel

/-- Groups in e4m3: with a NaN, of zeros, and of numbers whose exponents differ, one of them inexact at 2 planes. -/
theorem witness_StagedGroups :
    fpE4m3 ∈ [fpF32, fpBf16, fpF16, fpE4m3, fpE5m2] ∧ fvIsNan (fpE4m3.value 0x7F) = true ∧ fpE4m3.value 0 = .fin false 0 (-9)
    ∧ fpE4m3.value 0x38 = .fin false 8 (-3) ∧ fpE4m3.value 0x43 = .fin false 11 (-2) ∧ (stageGroup fpE4m3 9 [0x38, 0x43, 0]).marked = false
    ∧ (stageGroup fpE4m3 2 [0x43]).inexact = true ∧ (stageGroup fpE4m3 9 [0x38, 0]).inexact = false := by decide +kernel

/-- Finished instructions: without a count, with one, with a deferred one, and with a Sluice that cannot be reached; and one with
a write whose invalidation is under way, and one behind a store of its die. -/
theorem witness_BargeCompletes :
    let slu (va : Nat) : CapReg := (capOf va 4 8 0).reg
    let d (n : Option (CapReg × Nat)) (df : Bool) : BargeDone :=
      { num := 6, slot := 2, res := .val (capOfWord 64) 0, count := n, defer := df, stamp := 40 }
    let s (x : BargeDone) : State := tst.updMyCore fun c => { c with bdone := [x] }
    let waits (i : Nat × Nat × Nat × Nat) : State := { s (d none false) with coh := [(0x300000, { LineCoh.reset with inval := [i] })] }
    let acked (t : State) : Bool := t.coh.all fun l => l.2.inval.all fun x => !(x.1 == 1 && x.2.1 == 4 && x.2.2.1 == 6)
    let before (t : State) : Bool := t.coh.all fun l => l.2.inval.all fun x => decide (dieOf x.1 = dieOf 1 → 40 ≤ x.2.2.2)
    let s1 := tst.updCore 1 fun k => { k with bdone := [] }
    ((s (d none false)).coreAt 1).bdone = [d none false] ∧ (d none false).slot < 4 ∧ (d (some (slu 0x11000, 64)) true).defer = true
    ∧ ((s (d (some (slu 0x11000, 64)) false)).coreAt 1).bdone = [d (some (slu 0x11000, 64)) false]
    ∧ acked (s (d none false)) = true ∧ acked (waits (1, 4, 6, 2)) = false ∧ before (waits (1, 2, 9, 2)) = false ∧ before (waits (1, 2, 9, 40)) = true
    ∧ s1.elemPending (s1.who 6) .atomic true ((slu 0x11000).f.elem Coords.zero) = false
    ∧ answers (s1.applySluice (s1.who 6) (.count 64) ((slu 0x11000).f.elem Coords.zero)) = true
    ∧ answers (s1.applySluice (s1.who 6) (.count 64) ((slu 0x19000).f.elem Coords.zero)) = false := by decide +kernel

/-- A Sluice line, one that is not aligned, the largest amount of `sinit` and the next, and each side of the deferral. -/
theorem witness_SluiceIssue :
    let c := capOf 0x11000 4 8 3
    let s := (withC c.reg).updSl (full 7)
    let e := el 0x11000 64 0
    s.sl.guard g = true
    ∧ (∀ p ∈ [[permST], [permAT, permLD, permST]], gives (check (s.sl.cr 6) s.sl.cmpt p fmtIsData (s.sl.coords (mo 6))) e = true
        ∧ gives (check (capOf 0x11008 4 8 3).reg s.sl.cmpt p fmtIsData Coords.zero) (el 0x11008 64 0) = true)
    ∧ e.va % 64 = 0 ∧ (el 0x11008 64 0).va % 64 ≠ 0 ∧ (2 : Nat) ^ 32 - 1 < 2 ^ 32 ∧ ¬ (2 : Nat) ^ 32 < 2 ^ 32
    ∧ gives (s.placeAt .atomic e) (placeOf s .atomic e) = true ∧ s.sl.committed = none ∧ c.life ≠ 0 ∧ s.sl.deferred.length < 8
    ∧ 8 ≤ ((withC c.reg).updSl (full 8)).sl.deferred.length ∧ (capOf 0x11000 4 8 0).reg.f.life = 0
    ∧ (s.reserve (s.who s.cur) s.sl.seq (placeOf s .atomic e)).isSome = true := by decide +kernel

/-- A queued operation that may be sent, one that may not, and a line at each side of the flip. -/
theorem witness_SluiceOperations :
    let e := el 0x11000 64 0
    let o : Out := { outAt 0 0 with op := .sluice e (.arrive 0), seq := 9, place := { somewhere with kind := .dev, key := 0x301000, va := 0x11000 } }
    let s := withSl fun sl => { sl with out := [o] }
    let f := withSl fun sl => { sl with owed := [{ owing 2 (.load .s32 e) none with acq := true }], out := [o] }
    ((s.slotAt 6).out.find? fun o => o.isSluice && o.lvl == 0) = some o ∧ s.outReady 6 o = true ∧ s.refusesOut 6 o = false
    ∧ { s with owners := [] }.refusesOut 6 o = true ∧ s.rival (.sluice 1 2) = none
    ∧ answers (s.applySluice (s.who 6) (.arrive 0) e) = true ∧ f.outReady 6 o = false ∧ (0 : Nat) + 1 < 2 ^ 64 := by decide +kernel

/-- A Sluice line that is read and stored, on this core's die and in the window, one with an error, and one whose revision has
no place. -/
theorem witness_SluiceLines :
    let w := tst.who 6
    let p := okOr (tst.xlate w .atomic false 0x11000) somewhere
    let q := okOr (tst.xlate w .atomic false (LW + 0x40)) somewhere
    let s1 (s : State) (va : Nat) (p : Place) : State := (s.touchPage (s.who 6) va).readyWrite (s.who 6) p true
    let hurt : State := { tst with poison := [(2 * p.key, true)] }
    let lost (s : State) (va : Nat) (p : Place) : Bool := (s1 s va p).placePoisoned (s.who 6) { p with key := 64 * (p.key / 64) } 0 512
    let stored (s : State) (va : Nat) (p : Place) : Option State := (s1 s va p).writeNow (s.who 6) p
      (.line { bits := (SluiceOp.arrive 0).apply ((s1 s va p).viewLine (s.who 6) p).bits, tag := false })
    let r := okOr (revised.xlate (revised.who 6) .atomic false 0x10000) somewhere
    gives (tst.xlate w .atomic false 0x11000) p = true ∧ gives (tst.xlate w .atomic false (LW + 0x40)) q = true
    ∧ gives (revised.xlate (revised.who 6) .atomic false 0x10000) r = true
    ∧ p.kind = .dev ∧ dieOf 1 = p.home / 64 ∧ q.kind = .win ∧ tst.revs = [] ∧ w.rev = none
    ∧ lost tst 0x11000 p = false ∧ lost hurt 0x11000 p = true ∧ (stored tst 0x11000 p).isSome = true ∧ (stored tst (LW + 0x40) q).isSome = true
    ∧ lost revised 0x10000 r = false ∧ stored revised 0x10000 r = none := by decide +kernel

/-- A line whose FLIPS are those in the register, one whose FLIPS differ, a misaligned one, an access that may not perform yet,
and one that meets an error. -/
theorem witness_SluiceWaits :
    let s := withC (capOf 0x11000 4 8 0).reg
    let e := el 0x11000 64 0
    let look (t : State) := t.readElem (t.who 6) .observe t.sl.seq { e with nib := 0, bits := 64 }
    let v := (okOr (look s) (s, 1, somewhere)).2.1
    let busy := s.updSl fun sl => { sl with owed := [{ owing 2 (.load .s32 e) none with acq := true }] }
    let hurt : State := { s with poison := [(2 * (placeOf s .observe e).key, true)] }
    s.sl.guard g = true ∧ gives (check (s.sl.cr 6) s.sl.cmpt [permLD] fmtIsData (s.sl.coords (mo 6))) e = true ∧ e.va % 64 = 0
    ∧ gives (check (capOf 0x11008 4 8 0).reg s.sl.cmpt [permLD] fmtIsData Coords.zero) (el 0x11008 64 0) = true ∧ 0x11008 % 64 ≠ 0
    ∧ s.sl.stop = .run ∧ gives (s.placeAt .observe e) (placeOf s .observe e) = true ∧ s.mayPerform s.cur s.sl.seq .observe [e] = true
    ∧ busy.mayPerform busy.cur busy.sl.seq .observe [e] = false ∧ answers (look s) = true ∧ answers (look hurt) = false
    ∧ v / 2 ^ 32 % 2 ^ 32 = (s.sl.xr 0).toNat / 2 ^ 32 % 2 ^ 32 ∧ v / 2 ^ 32 % 2 ^ 32 ≠ (s.sl.xr 2).toNat / 2 ^ 32 % 2 ^ 32 := by
  decide +kernel

/-- A register that is not owed, one whose value has not returned, one with a value, and one with a fault. -/
theorem witness_WaitResults :
    let s (r : Option Res) : State := withSl fun sl => { sl with owed := [owing 2 (.ready CapReg.null) r] }
    let find (r : Option Res) := (s r).sl.owed.find? fun o => o.live && o.dest == some (.x 2)
    tst.sl.guard g = true ∧ (∀ o ∈ tst.sl.owed, o.live = true → o.dest ≠ some (.x 2)) ∧ find none = some (owing 2 (.ready CapReg.null) none)
    ∧ find (some (.val CapReg.null 1)) = some (owing 2 (.ready CapReg.null) (some (.val CapReg.null 1)))
    ∧ find (some (.fault (FaultInfo.of 0x20))) = some (owing 2 (.ready CapReg.null) (some (.fault (FaultInfo.of 0x20)))) := by
  decide +kernel

/-- A kernel of one core without capability arguments but one of rank 1 with LD (R355). -/
def kernelEntry : Line :=
  BitVec.ofNat 512 (8 * 1 + 64 * 1 + 512 * (0x1000 / 64) + 2 ^ 32 * 24 + 2 ^ 64 * (3 + 256 * 1 + 2 ^ 11 * 1))

/-- A record of the kernel (R250): its stage and the rest of its fields. -/
def recLine (stg rest : Nat) : Line := BitVec.ofNat 512 (2 ^ 32 + 24 + 2 ^ 69 * stg + 2 ^ 76 + rest)

/-- The fields of an activation record and of a launch record. -/
def childRest : Nat := 2 ^ 144
def launchRest (cwb : Nat) : Nat := 2 ^ 81 * cwb + 2 ^ 120 * 4 + 2 ^ 128 * 4 + 2 ^ 136 + 2 ^ 160 * 8 + 2 ^ 192 * 8 + 2 ^ 224

/-- The machine with a record in the scratchpad of its core, its grid's record and its team's core. -/
def tasked (l : Line) : State :=
  let s := tst.updWorld 2 fun w => { w with objs := w.objs.map fun o => (o.1, { o.2 with entries := [kernelEntry] }) }
  let s := s.updGrid 5 fun g => { g with record := { data := recLine 0 (launchRest 20), caps := [(capOf 0x10000 3 64 3).reg] } }
  let s := s.updTeam 4 fun t => { t with
    index := 1, tc := [(1, { TCore.reset with pool := [(2, { PoolEntry.empty with taken := true })], ring := [], deque := [] })] }
  let s := (s.putLine (memKey (.spad 1) 0) { bits := l, tag := false }).putLine (memKey (.spad 1) 0x40) (capOf 0x10000 3 64 3).reg
  s.updSl fun sl => { sl with
    c := [(1, (capOf LW 0x20 16 0).reg), (2, (capOf (LW + 0x400) 0x20 16 0).reg), (4, (capOf (counterBase + 64 * (1024 * 21 + 69)) 8 64 0).reg),
          (5, loose 0x10000 0x20 16 0), (6, (capOf 0x12040 8 40 0).reg)]
    committed := some 950, rev := none, forks := 7 }

/-- The same with a list of one region, its first line's merge type 1. -/
def listed (l : Line) : State :=
  (((tasked l).putLine (memKey (.spad 1) 0x400) { bits := BitVec.ofNat 512 (1 + 2 ^ 64), tag := false }).putLine (memKey (.spad 1) 0x440)
    (capOf 0x11000 0 1000 3).reg).putLine (memKey (.spad 1) 0x480) (capOf 0x10800 3 64 3).reg

/-- The same before `commit`, with n effects in the buffer. -/
def tasking (n : Nat) : State := (tasked (recLine 0 childRest)).updSl fun sl => full n { sl with committed := none }

/-- Records, lists, counters and Basins that pass, with room and without, and the two kinds that do not. -/
theorem witness_TasksDefer :
    let s := tasking 7
    let rd := el LW 512
    let ctr := s.sl.cr 4
    let k := el (counterBase + 64 * (1024 * 21 + 69)) 64 0
    let b := el 0x12040 64 0
    s.sl.guard g = true ∧ s.sl.committed = none ∧ s.sl.deferred.length < 8 ∧ 8 ≤ (tasking 8).sl.deferred.length
    ∧ gives (check (s.sl.cr 1) s.sl.cmpt [permLC] fmtIsLine (s.sl.coords (mo 1))) (rd 0) = true
    ∧ gives (check (s.sl.cr 1) s.sl.cmpt [permLC] fmtIsLine ((s.sl.coords (mo 1)).shift 4)) (el (LW + 0x100) 512 4) = true
    ∧ (s.sl.cr 5).tag = false
    ∧ gives (check (s.sl.cr 2) s.sl.cmpt [permLC, permMG] fmtIsLine Coords.zero) (el (LW + 0x400) 512 0) = true
    ∧ gives (check (s.sl.cr 2) s.sl.cmpt [permLC, permMG] fmtIsLine (Coords.zero.shift 15)) (el (LW + 0x7C0) 512 15) = true
    ∧ gives (check ctr s.sl.cmpt [permLD, permST, permAT] fmtIsData (s.sl.coordsR (mr 4))) k = true
    ∧ counterBase ≤ k.va ∧ k.va < LW ∧ (k.va - counterBase) % 64 = 0 ∧ (k.va + 8 - counterBase) % 64 ≠ 0 ∧ ¬ counterBase ≤ b.va
    ∧ s.counterAt s.sl.part ((k.va - counterBase) / 64) = some (4, 1, 5) ∧ 1 < (s.teamAt 4).cores ∧ (s.gridAt (s.teamAt 4).grid).st = .live
    ∧ s.counterAt s.sl.part 0 = none
    ∧ gives (check (s.sl.cr 6) s.sl.cmpt [permLD, permST, permAT] (· == 0x08) (s.sl.coords (mo 6))) b = true
    ∧ (s.sl.cr 6).f.rank = 1 ∧ (s.sl.cr 6).f.sd0 = 1 ∧ ((40 : Int) - 0 - 8) % 8 = 0 ∧ (8 : Int) ≤ 40 - 0 - 8 ∧ b.va % 64 = 0
    ∧ answers (s.placeAt .atomic b) = true ∧ gives (s.placesAt .atomic (basinPages (s.sl.cr 6).f (s.sl.coords (mo 6)).k0)) () = true
    ∧ ((47 : Int) - 0 - 8) % 8 ≠ 0 ∧ ¬ (8 : Int) ≤ 15 - 0 - 8 ∧ ({ (s.sl.cr 6).f with sd0 := 2 } : CapF).reg.f.sd0 = 2 := by decide +kernel

/-- A record read from memory. -/
def recOf (l : Line) : Rec := { data := l, caps := [(capOf 0x10000 3 64 3).reg, CapReg.null, CapReg.null, CapReg.null] }

/-- What the instruction reads, and the state after it. -/
def readOf (l : Line) : State × Rec :=
  let s1 := (tasked l).stampOf.2
  okOr (s1.readRec (s1.who 6) 10 ((tasked l).sl.cr 1) Coords.zero) (s1, Rec.empty)

/-- The object of the kernel. -/
def kernelObj : CodeObj := { codeObject with tlen := 4096, base := 0x10000000, entries := [kernelEntry] }

/-- What R250 asks of a record, but for its stage. -/
def fits (launch : Bool) (s : State) (r : Rec) (world cores team : Nat) (box : Rec) : Bool :=
  r.fieldsOk launch && decide (s.kernelAt world r.code = some (kernelObj, kernelEntry)) && !kernelObj.quarantined
    && decide (r.ncap = entNc kernelEntry) && !((List.range r.ncap).any fun i => !cargOk (r.cap (i + 1)) (entCarg kernelEntry i))
    && (let n := if launch then 4 * entRows kernelEntry else cores
        decide (¬ (n ≤ r.plc ∨ n ≤ r.jcore)))
    && (if launch then decide (¬ (r.bx = 0 ∨ r.by_ = 0 ∨ r.bz = 0 ∨ r.cmode = 3 ∨ 64 < r.cwb + r.nteams)) && decide (r.cmode ≠ 1)
        else decide (¬ (r.team ≠ team ∨ box.gx ≤ r.gx ∨ box.gy ≤ r.gy ∨ box.gz ≤ r.gz)))

theorem fits_code {launch : Bool} {s : State} {r : Rec} {world cores team cmpt : Nat} {box : Rec}
    (h : fits launch s r world cores team box = true) (hk : r.stg = Config.kernelStage kernelEntry % 8) :
    s.recordCode world cmpt launch cores team box r = 0 := by
  cases launch <;> simp only [fits, Bool.and_eq_true, decide_eq_true_eq, Bool.not_eq_true', if_true, Bool.false_eq_true, if_false] at h <;>
    obtain ⟨⟨⟨⟨⟨⟨h1, h2⟩, h3⟩, h4⟩, h5⟩, h6⟩, h7⟩ := h
  · simp only [State.recordCode, h1, h2, h3, hk, h6, h7, ne_eq, not_true, h4, if_false, Bool.not_true, Bool.false_eq_true] at *
    simp [h5]
  · obtain ⟨h7, h8⟩ := h7
    simp only [State.recordCode, h1, h2, h3, hk, h6, h7, h8, ne_eq, not_true, h4, if_false, if_true, Bool.not_true, Bool.false_eq_true,
      false_and] at *
    simp [h5]

/-- The pool entry that `spawn` places. -/
def spawned (x : State × Rec) : PoolEntry :=
  { record := x.2, rev := x.1.sl.rev, child := false, taken := false, dep := decide (x.2.depn ≠ 0) }

/-- A capability line of the record lies outside the leases of its grid. -/
def outside (x : State × Rec) : Prop :=
  ∃ i, i < x.2.ncap ∧ (x.2.cap (i + 1)).tag = true ∧ (x.1.gridAt x.1.sl.grid).covers (x.2.cap (i + 1)).f = false

/-- What was read has the stage k, fits otherwise, and has room. -/
def fitsAt (launch : Bool) (k : Nat) (x : State × Rec) : Bool :=
  let t := x.1.teamAt x.1.sl.team
  x.2.stg == k && (if launch then fits true x.1 x.2 x.1.sl.world 0 0 Rec.empty && (x.1.submit x.1.sl.part x.1.sl.world x.2 none).isSome
    else fits false x.1 x.2 x.1.sl.world t.cores t.index (x.1.gridAt x.1.sl.grid).record
      && ((List.range x.2.ncap).all fun i => (x.1.gridAt x.1.sl.grid).covers (x.2.cap (i + 1)).f)
      && (x.1.placeNew x.1.sl.team x.2.plc (spawned x)).isSome && (x.1.forkPush x.2 x.1.sl.rev false).isSome)

/-- Records with CODE 0 exist, whatever stage the kernel has: an activation record that is placed and pushed, and a launch
record that is submitted. -/
theorem witness_recordsPass : ∃ k l, k < 8 ∧ tst.sl.guard g = true ∧
    (let x := readOf (recLine k childRest)
     x.1.childCode x.2 = 0 ∧ ¬ outside x ∧ (x.1.placeNew x.1.sl.team x.2.plc (spawned x)).isSome = true
     ∧ (x.1.forkPush x.2 x.1.sl.rev false).isSome = true)
    ∧ (let y := readOf l
       y.1.recordCode y.1.sl.world y.1.sl.cmpt true 0 0 Rec.empty y.2 = 0
       ∧ (y.1.submit y.1.sl.part y.1.sl.world y.2 none).isSome = true) := by
  have a : ∀ k, k < 8 → fitsAt false k (readOf (recLine k childRest)) = true ∧ fitsAt true k (readOf (recLine k (launchRest 40))) = true := by
    decide +kernel
  obtain ⟨h1, h2⟩ := a (Config.kernelStage kernelEntry % 8) (Nat.mod_lt _ (by decide))
  simp only [fitsAt, Bool.and_eq_true, beq_iff_eq, if_true, Bool.false_eq_true, if_false, List.all_eq_true, List.mem_range] at h1 h2
  obtain ⟨e1, ⟨⟨f1, c1⟩, p1⟩, p2⟩ := h1
  refine ⟨_, _, Nat.mod_lt _ (by decide), by decide +kernel, ⟨fits_code f1 e1, ?_, p1, p2⟩, fits_code h2.2.1 h2.1, h2.2.2⟩
  rintro ⟨i, hi, _, hc⟩
  simp [c1 i hi] at hc

/-- The team with every pool slot taken. -/
def crowded (s : State) : State :=
  s.updTeam 4 fun t => { t with tc := (List.range 4).map fun c =>
    (c, { TCore.reset with pool := (List.range 48).map fun k => (k, { PoolEntry.empty with taken := true }) }) }

/-- Reads of records and lists that answer, a record refused, one outside the leases, a full team, a list that may be used and
one that is not a list, the counter of the aperture, and a slot whose writes are not acknowledged. -/
theorem witness_TaskEffects :
    let l := recLine 0 childRest
    let s := listed l
    let s1 := s.stampOf.2
    let w := s1.who s.cur
    let x := okOr (s1.readRec w s.sl.seq (s.sl.cr 1) Coords.zero) (s1, Rec.empty)
    let y := okOr (x.1.readList w x.1.sl.seq (s.sl.cr 2)) (s1, none)
    let z := okOr ((tasked l).readList w 10 (s.sl.cr 2)) (s1, some { head := CapReg.null, spill := CapReg.null, regions := [] })
    let far : Rec := { x.2 with caps := [(capOf 0x18000 3 64 3).reg] }
    s.sl.guard g = true ∧ s.sl.committed ≠ none ∧ s1.releaseOk s.cur s.sl.seq 6 s.stampOf.1 = true
    ∧ ((s.updSl fun sl => { sl with out := [outAt 1 1] }).stampOf.2).releaseOk s.cur s.sl.seq 6 s.stampOf.1 = false
    ∧ gives (check (s.sl.cr 1) s.sl.cmpt [permLC] fmtIsLine (s.sl.coords (mo 1))) (el LW 512 0) = true
    ∧ gives (check (s.sl.cr 1) s.sl.cmpt [permLC] fmtIsLine ((s.sl.coords (mo 1)).shift 4)) (el (LW + 0x100) 512 4) = true
    ∧ gives (check (s.sl.cr 2) s.sl.cmpt [permLC, permMG] fmtIsLine Coords.zero) (el (LW + 0x400) 512 0) = true
    ∧ gives (check (s.sl.cr 2) s.sl.cmpt [permLC, permMG] fmtIsLine (Coords.zero.shift 15)) (el (LW + 0x7C0) 512 15) = true
    ∧ answers (s1.readRec w s.sl.seq (s.sl.cr 1) Coords.zero) = true
    ∧ x.1.childCode { x.2 with data := 0 } ≠ 0 ∧ x.1.recordCode 2 7 true 0 0 Rec.empty x.2 ≠ 0
    ∧ (far.cap 1).tag = true ∧ (x.1.gridAt x.1.sl.grid).covers (far.cap 1).f = false
    ∧ ((crowded x.1).placeNew 4 x.2.plc (spawned x)).isNone = true ∧ ((crowded x.1).forkPush x.2 none false).isNone = true
    ∧ ((x.1.updPart 1 fun p => { p with queue := List.replicate 64 1 }).submit 1 2 x.2 none).isNone = true
    ∧ answers (x.1.readList w x.1.sl.seq (s.sl.cr 2)) = true ∧ answers ((tasked l).readList w 10 (s.sl.cr 2)) = true ∧ z.2.isNone = true
    ∧ (match y.2 with
       | none => false
       | some r =>
         let lines := (List.range 5).map (lineRange (s.sl.cr 1).f) ++ [(s.sl.cr 2).f.footprint]
         let d : Defer := { op := .fork (s.sl.cr 1) s.sl.forks (some (s.sl.cr 2)), dest := some (.x 9), stale := false
                            iaddr := s.sl.here, dfield := dField 1 0 9 }
         y.1.listOk 5 none r lines && !y.1.listOk 5 none { r with spill := (r.regions.headD (CapReg.null, 0)).1 } lines
           && (y.1.spillRefused r.spill.f).isNone && (({ y.1 with frames := [(0x301, 1)] } : State).spillRefused r.spill.f).isSome
           && (let m := y.1.makeRevision d 7 r
               (m.2.forkPush x.2 (some m.1) true).isSome && ((crowded m.2).forkPush x.2 (some m.1) true).isNone)) = true
    ∧ (let five : List Elem := (List.range 5).map fun j => (s.sl.cr 1).f.elem (recordAt (s.sl.coords (mo 1)) j)
       let held : Pend := { core := 1, slot := 1, seq := 3, idx := 0, proxy := false, op := .data (el LW 32 0) 5, whole := false
                            sent := [], held := [1], replies := [] }
       s1.reachable w s.sl.seq .load five = true
       ∧ ({ s1 with coh := [(memKey (.spad 1) 0 / 64, { LineCoh.reset with pend := some held })] } : State).reachable w s.sl.seq .load five = false)
    ∧ gives (check (s.sl.cr 4) s.sl.cmpt [permLD, permST, permAT] fmtIsData (s.sl.coordsR (mr 4))) (el (counterBase + 64 * (1024 * 21 + 69)) 64 0) = true
    ∧ s.counterAt s.sl.part (1024 * 21 + 69) = some (4, 1, 5) ∧ 1 < (s.teamAt 4).cores ∧ (s.gridAt (s.teamAt 4).grid).st = .live
    ∧ s.sl.xr 0 = 0 ∧ s.sl.xr 1 ≠ 0 := by decide +kernel

/-- A counter that is zero, one that a decrement leaves above zero, and one that reaches it: without a waiting record, with one
and room on the ring, and with a full ring. -/
theorem witness_CounterDecrements :
    let s (n : Nat) (k : Counter) : State := (tasked 0).updTeam 4 fun t => { t with tc := [(1, { TCore.reset with
      ring := List.replicate n 6, ctr := [(5, { count := 3, rv := false, rslot := 0 }), (7, k)] })] }
    let at_ (n : Nat) (k : Counter) : Counter := (((s n k).teamAt 4).core 1).counter 7
    (at_ 0 { count := 0, rv := true, rslot := 3 }).count = 0 ∧ 9 < (at_ 0 { count := 10, rv := true, rslot := 3 }).count.toNat
    ∧ (at_ 0 { count := 10, rv := false, rslot := 3 }).count ≠ 0 ∧ (at_ 0 { count := 10, rv := false, rslot := 3 }).count.toNat ≤ 10
    ∧ (at_ 0 { count := 10, rv := false, rslot := 3 }).rv = false ∧ (at_ 63 { count := 10, rv := true, rslot := 3 }).rv = true
    ∧ ((s 63 Counter.reset).teamAt 4).isResident = true
    ∧ ((s 63 Counter.reset).coreAt (((s 63 Counter.reset).teamAt 4).coreNo 1)).oos = false
    ∧ (((s 63 Counter.reset).teamAt 4).core 1).ring.length < 64 ∧ 64 ≤ (((s 64 Counter.reset).teamAt 4).core 1).ring.length := by
  decide +kernel

/-- A machine after `commit` with a Basin in host memory in c6: four entries, HEAD and TAIL. -/
def basined (h t : Nat) : State :=
  ((tasked 0).putLine (memKey .host 0x302040) { bits := BitVec.ofNat 512 (h + 2 ^ 64 * t), tag := false })

/-- The operation has an effect, or is held. -/
def tried (r : Except FaultInfo (Option (State × Line × Line))) : Option Bool := match r with
  | .ok (some _) => some true
  | .ok none => some false
  | .error _ => none

/-- Operations of the four forms. -/
def basinOp (push vec : Bool) : BasinOp :=
  { push := push, vec := vec, basin := (capOf 0x12040 8 40 0).reg, k0 := 0, val := 5, reg := 6, iaddr := 9, dfield := dField 1 0 6 }

/-- Pushes into a ring with room and a full one, pops from a ring with an entry and an empty one, before and after their
release. -/
theorem witness_BasinOperations :
    let arrive (t : State) : State := t.draw.2.updSl fun q => { q with arrived := some t.draw.1 }
    let s (h t : Nat) : State := basined h t
    let a := arrive (s 3 5).stampOf.2
    let n := (s 3 5).stampOf.2.draw.1
    (s 3 5).sl.guard g = true ∧ (s 3 5).sl.committed ≠ none ∧ (s 3 5).sl.arrived = none
    ∧ gives ((s 3 5).basinCheck ((s 3 5).sl.cr 6) ((s 3 5).sl.coords (mo 6))) () = true
    ∧ (s 3 5).stampOf.2.releaseOk 6 10 6 (s 3 5).stampOf.1 = true
    ∧ a.mayPerform 6 10 .atomic [basinLine (capOf 0x12040 8 40 0) 0] = true
    ∧ (∀ p ∈ [true, false], ∀ v ∈ [true, false], a.basinBehind 6 (basinOp p v) n = false ∧ tried (a.basinTry (a.who 6) (basinOp p v)) = some true)
    ∧ tried ((arrive (s 7 11).stampOf.2).basinTry (tst.who 6) (basinOp true false)) = some false
    ∧ tried ((arrive (s 7 7)).basinTry (tst.who 6) (basinOp false false)) = some false := by decide +kernel

/-- A held operation that may go on, one that may not perform yet, one behind an earlier one, and one whose ring does not allow
it; and an effect of `commit` that may go on and one whose ring is full. -/
theorem witness_HeldBasinOperations :
    let held (h t n : Nat) (p v : Bool) : State :=
      { (basined h t).updSlot 6 fun sl => { sl with stop := .hold (.basin (basinOp p v) g), arrived := some n } with cur := 5 }
    let t (h tl : Nat) (p v : Bool) : State := { held h tl 17 p v with cur := 6 }
    let busy := (t 3 5 true false).updSl fun sl =>
      { sl with owed := [{ owing 2 (.load .s8 (el 0x10040 8 0)) none with acq := true }] }
    let behind := (t 3 5 true false).updSlot 5 fun sl => { sl with stop := .hold (.basin (basinOp true false) g), arrived := some 15 }
    let d : Defer := { op := .push (basinOp true false).basin 0 5, dest := none, stale := false, iaddr := 9, dfield := dField 1 0 6 }
    let last (h tl : Nat) : State := (basined h tl).updSlot 6 fun sl => { sl with stop := .hold .commit, arrived := some 17, deferred := [d] }
    let does (s : State) : Option Bool := match s.applyDefer d .commit with
      | .done _ => some true
      | .fault _ _ => some false
      | .wait _ _ _ => none
    ((held 3 5 17 true false).slotAt 6).stop = .hold (.basin (basinOp true false) g) ∧ ((held 3 5 17 true false).slotAt 6).arrived = some 17
    ∧ (t 3 5 true false).expired 6 = false ∧ ((t 3 5 true false).slotAt 6).preempt = false
    ∧ (let late := (tasking 0).updSl fun sl => { sl with preempt := true }
       (late.slotAt 6).preempt = true ∧ (late.slotAt 6).committed = none)
    ∧ (∀ p ∈ [true, false], ∀ v ∈ [true, false], (t 3 5 p v).mayPerform 6 10 .atomic [basinLine (basinOp p v).basin.f 0] = true
        ∧ (t 3 5 p v).basinBehind 6 (basinOp p v) 17 = false ∧ tried ((t 3 5 p v).basinTry ((t 3 5 p v).who 6) (basinOp p v)) = some true)
    ∧ busy.mayPerform 6 10 .atomic [basinLine (basinOp true false).basin.f 0] = false ∧ behind.basinBehind 6 (basinOp true false) 17 = true
    ∧ tried ((t 7 11 true false).basinTry (tst.who 6) (basinOp true false)) = some false
    ∧ tried ((t 7 7 false true).basinTry (tst.who 6) (basinOp false true)) = some false
    ∧ (∀ tl ∈ [5, 7], (last 3 tl).sl.stop = .hold .commit ∧ (last 3 tl).sl.arrived = some 17 ∧ (last 3 tl).sl.deferred = [d]
        ∧ (last 3 tl).expired 6 = false)
    ∧ d.basin.isSome = true ∧ does (last 3 5) = some true ∧ does (last 3 7) = none := by decide +kernel

/-- One attempt: a full ring, an empty one, and both accesses of a push and of a pop. -/
theorem witness_BasinActions :
    let o := basinOp true false
    let f := o.basin.f
    let w := tst.who 6
    let r (h t : Nat) := okOr ((basined h t).atomicLine w .atomic (basinLine f 0) fun _ => none) (tst, 1)
    let two (n : Nat) (v : Option Line) :=
      okOr ((r 3 5).1.atomicLine w .atomic (basinLine f (8 + 8 * ((n % 4 : Nat) : Int))) fun _ => v) (tst, 1)
    let counts (s2 : State) (k : Nat) (f' : Line → Nat) : Bool :=
      answers (s2.atomicLine w .atomic (basinLine f 0) fun y => some (setLane 64 k (f' y + 1) y))
    basinCap f 0 = some 4 ∧ answers ((basined 3 5).atomicLine w .atomic (basinLine f 0) fun _ => none) = true
    ∧ 4 ≤ (bTail (r 7 11).2 + 2 ^ 64 - bHead (r 7 11).2) % 2 ^ 64 ∧ (bTail (r 7 7).2 + 2 ^ 64 - bHead (r 7 7).2) % 2 ^ 64 = 0
    ∧ bHead (r 3 5).2 = 3 ∧ bTail (r 3 5).2 = 5
    ∧ answers ((r 3 5).1.atomicLine w .atomic (basinLine f (8 + 8 * 1)) fun _ => some o.val) = true ∧ counts (two 5 (some o.val)).1 1 bTail = true
    ∧ answers ((r 3 5).1.atomicLine w .atomic (basinLine f (8 + 8 * 3)) fun _ => none) = true ∧ counts (two 3 none).1 0 bHead = true := by
  decide +kernel

/-- A deferred effect. -/
def eff (op : DeferOp) : Defer := { op := op, dest := some (.x 5), stale := false, iaddr := 99, dfield := 517 }

/-- An activation before and after `commit`, with no effects, one that is applied, one that fails and two; a handler; a slot
that is owed a value, and one whose writes are not acknowledged. -/
theorem witness_CommitAndRetire :
    let amo (va : Nat) : Defer := eff (.mem (.amo .s64 .add 5 (el va 64 0)))
    let marked (s : State) : State := (s.updTC s.sl.team s.sl.tcore fun tc => { tc with pool := SMap.erase tc.pool s.sl.pool }).updSl fun x =>
      { x with committed := some s.now, applied := 0, preempt := false }
    let does (s : State) (d : Defer) : Option Bool := match s.applyDefer d .commit with
      | .done _ => some true
      | .fault _ _ => some false
      | .wait _ _ _ => none
    let q (l : List Defer) : State := withSl fun sl => { sl with deferred := l }
    let owed := done.updSl fun sl => { sl with owed := [owing 2 (.ready CapReg.null) none] }
    let h := done.updSl fun sl => { sl with handler := true }
    (tst.sl.handler = false ∧ tst.sl.committed = none ∧ tst.sl.deferred = []) ∧ (done.sl.committed ≠ none ∧ done.sl.deferred = [])
    ∧ h.sl.handler = true ∧ h.sl.owes = false ∧ h.quiet h.cur = true
    ∧ (q [amo 0x10040]).sl.deferred = [amo 0x10040] ∧ does (marked (q [amo 0x10040])) (amo 0x10040) = some true
    ∧ (q [amo 0x10040, eff (.count 1)]).sl.deferred = amo 0x10040 :: [eff (.count 1)]
    ∧ (let far := eff (.cst CapReg.null CapReg.null (el 0x17040 512 0))
       (q [far]).sl.deferred = [far] ∧ does (marked (q [far])) far = some false)
    ∧ owed.sl.owes = true ∧ tst.sl.owes = false ∧ (marked tst).quiet tst.cur = true
    ∧ (let bad : Owed := { owing 5 (.ready CapReg.null) (some (.fault (FaultInfo.of 0x23))) with live := false, dest := none }
       let fine : Owed := { owing 3 (.ready CapReg.null) (some (.val CapReg.null 4)) with live := false, dest := none }
       let lost (s : State) : State := s.updSl fun sl => { sl with owed := [fine, bad] }
       (∀ s ∈ [tst, done, h], (lost s).sl.owes = false ∧ (lost s).quiet 6 = true) ∧ (lost done).sl.owed[1]? = some bad
       ∧ bad.res = some (.fault (FaultInfo.of 0x23)) ∧ fine.res = some (.val CapReg.null 4))
    ∧ (let join (i : Nat × Nat × Nat × Nat) : State := { done with coh := [(9, { LineCoh.reset with inval := [i] })] }.updSl fun sl =>
         { sl with entry := { sl.entry with record := { sl.entry.record with data := BitVec.ofNat 512 (2 ^ 87) } }, stop := .hold (.finish 40) }
       (join (1, 2, 3, 2)).sl.entry.record.jv = true ∧ (join (1, 2, 3, 2)).sl.stop = .hold (.finish 40)
       ∧ (∃ c ∈ (join (1, 2, 3, 2)).coh, ∃ x ∈ c.2.inval, dieOf x.1 = dieOf 1 ∧ ¬ 40 ≤ x.2.2.2)
       ∧ ∀ c ∈ (join (1, 2, 3, 40)).coh, ∀ x ∈ c.2.inval, 40 ≤ x.2.2.2)
    ∧ (done.updSl fun sl => { sl with out := [outAt 1 1] }).quiet done.cur = false := by decide +kernel

/-- Operands of `ccall`: untagged, of another seal, without a permission, of a quarantined object, and of one that may be
entered, with a chain open, with a full stack, and with a value owed. -/
theorem witness_CcallEnters :
    let c : CapF := { capOf 0x20000040 0x21 16 0 with seal_ := 1 }
    let o := SMap.look CodeObj.reset (tst.worldAt 2).objs 2
    let fr : CallFrame := { ret := 0, cmpt := 7, frm := 0, fflags := 0, lc := 0, ls := 0, le := 0, xs := [], cs := [] }
    (withSl fun sl => { sl with callee := some (c.reg, CapReg.null) }).sl.callee = some (c.reg, CapReg.null)
    ∧ (let k := SMap.look Cmpt.reset ((tst.updWorld 2 fun w => { w with cmpts := SMap.upd Cmpt.reset w.cmpts 7 fun k =>
         { k with valid := false } }).worldAt 2).cmpts 7
       k.used = true ∧ k.valid = false)
    ∧ tst.sl.guard g = true ∧ tst.sl.callee = none ∧ (tst.sl.cr 5).tag = false ∧ c.reg.tag = true ∧ (tst.sl.cr 1).f.seal_ ≠ 1
    ∧ c.reg.f = c ∧ c.seal_ = 1 ∧ c.fmt = 0x21 ∧ c.has permCL = true ∧ c.has permEX = true
    ∧ ({ c with perm := 0 } : CapF).reg.f.has permCL = false ∧ (withC c.reg).objHolding 2 c.base = some (2, o) ∧ o.quarantined = false
    ∧ ((withC c.reg).objHolding 2 0x30000040 = some (3, SMap.look CodeObj.reset (tst.worldAt 2).objs 3))
    ∧ (SMap.look CodeObj.reset (tst.worldAt 2).objs 3).quarantined = true ∧ tst.core.engine.chain ≠ some (tst.cur % 4)
    ∧ (tst.updMyCore fun k => { k with engine := { k.engine with chain := some 2 } }).core.engine.chain = some (tst.cur % 4)
    ∧ tst.sl.stack.length < 8 ∧ 8 ≤ (withSl fun sl => { sl with stack := List.replicate 8 fr }).sl.stack.length
    ∧ tst.sl.owes = false ∧ (withSl fun sl => { sl with owed := [owing 2 (.ready CapReg.null) none] }).sl.owes = true := by
  decide +kernel

/-- An empty stack, one with a frame, and a slot that is owed a value. -/
theorem witness_CretReturns :
    let fr : CallFrame := { ret := 0x1_0000_0040, cmpt := 7, frm := 1, fflags := 2, lc := 3, ls := 4, le := 8, xs := [1], cs := [CapReg.null] }
    tst.sl.stack = [] ∧ (withSl fun sl => { sl with stack := [fr] }).sl.stack = fr :: [] ∧ tst.sl.owes = false
    ∧ (withSl fun sl => { sl with stack := [fr], owed := [owing 2 (.ready CapReg.null) none] }).sl.owes = true := by decide +kernel

/-- A privileged slot by number and by its mark, another one, and values that each register takes and refuses. -/
theorem witness_SpecialRegisters :
    let priv (s : State) : Bool := s.sl.cmpt == 0 || (SMap.look Cmpt.reset (s.worldAt s.sl.world).cmpts s.sl.cmpt).priv
    let marked := tst.updWorld 2 fun w => { w with cmpts := [(7, { valid := true, used := true, priv := true, hnd := 0 })] }
    tst.sl.guard g = true ∧ priv (withSl fun sl => { sl with cmpt := 0 }) = true ∧ priv marked = true ∧ marked.sl.cmpt ≠ 0 ∧ priv tst = false
    ∧ (withX 12).sl.xr 6 = 12 ∧ 12 % 8 ≤ 4 ∧ (withX 13).sl.xr 6 = 13 ∧ ¬ 13 % 8 ≤ 4 ∧ 12 % 4 = 0 ∧ 13 % 4 ≠ 0
    ∧ ((withX 0).sl.xr 6).toNat = 0 ∧ 2 ^ 32 ≤ ((withX 0x100000000).sl.xr 6).toNat ∧ ((withX 0xFFFFFFFF).sl.xr 6).toNat < 2 ^ 32 := by
  decide +kernel

/-- Names of counters of the issuing core and of another unit, and names that R226 does not give. -/
theorem witness_CounterReads :
    let named (s : State) : Bool :=
      let n := (s.sl.xr 6).toNat
      let kind := n / 2 ^ 20 % 2 ^ 4
      decide (n < 2 ^ 24) && decide (kind ≤ 3) && decide (n / 2 ^ 10 % 2 ^ 10 < [512, 32, 128, 32].getD kind 0)
        && decide (n % 2 ^ 10 ≤ [6, 2, 3, 3].getD kind 0)
    let own (s : State) : Bool := let n := (s.sl.xr 6).toNat
      n / 2 ^ 20 % 2 ^ 4 == 0 && n / 2 ^ 10 % 2 ^ 10 == s.cur / 4
    tst.sl.guard g = true ∧ named (withX 0x406) = true ∧ own (withX 0x406) = true ∧ named (withX 0x30_7C03) = true ∧ own (withX 0x30_7C03) = false
    ∧ named (withX 0x407) = false ∧ named (withX 0x30_8000) = false ∧ named (withX 0x40_0000) = false ∧ named (withX 0x100_0000) = false := by
  decide +kernel

/-- What an exception asks of a fault and its slot, from a fault at issue and one at `commit`. -/
theorem witness_TakingAnException : ∀ f ∈ [FaultInfo.of 0x01, { FaultInfo.of 0x23 with mode := 2, resume := true }],
    tst.sl.guard g = true ∧ tst.sl.owes = false ∧ f.cause ∉ [0x21, 0x22, 0x39, 0x3F] ∧ f.mode ≠ 3 ∧ tst.sl.handler = false
    ∧ (SMap.look Cmpt.reset (tst.worldAt tst.sl.world).cmpts tst.sl.cmpt).hnd.toNat ≠ 0 := by decide +kernel

/-- A slot that is owed a value, a terminal cause, and a compartment without a handler. -/
theorem witness_FaultsParkOrEnd :
    (withSl fun sl => { sl with owed := [owing 2 (.ready CapReg.null) none] }).sl.owes = true ∧ tst.sl.owes = false
    ∧ (FaultInfo.of 0x39).cause ∈ [0x21, 0x22, 0x39, 0x3F] ∧ (withSl fun sl => { sl with handler := true }).sl.handler = true
    ∧ (SMap.look Cmpt.reset (tst.worldAt 2).cmpts (withSl fun sl => { sl with cmpt := 8 }).sl.cmpt).hnd = 0 := by decide +kernel

/-- Slots whose owed values have returned, with and without a fault, one that is owed a value still, and terminal ones. -/
theorem witness_FaultDelivery :
    let e := { FaultInfo.of 0x23 with fva := 5 }
    let bad := owing 5 (.ready CapReg.null) (some (.fault e))
    let good := owing 3 (.ready CapReg.null) (some (.val (capOfWord 9) 3))
    let s (st : Stop) (l : List Owed) : Slot := (withSl fun sl => { sl with stop := st, owed := l }).slotAt 6
    let back (sl : Slot) : Bool := sl.owed.all fun q => !q.live || q.res.isSome
    let isFault (q : Owed) : Bool := match q.res with
      | some (.fault _) => true
      | _ => false
    let t := Stop.trap (FaultInfo.of 0x11)
    (s t [good]).stop = .trap (FaultInfo.of 0x11) ∧ back (s t [good]) = true ∧ (s t [good]).owed.any isFault = false
    ∧ back (s t [good, bad]) = true ∧ (s t [good, bad]).owed[1]? = some bad ∧ bad.live = true ∧ bad.res = some (.fault e)
    ∧ isFault good = false ∧ (s .park [good, bad]).stop = .park ∧ back (s t [owing 3 (.ready CapReg.null) none]) = false
    ∧ (let asked := (withSl fun sl => { sl with preempt := true }).slotAt 6
       asked.preempt = true ∧ asked.committed = none ∧ (s t [good]).preempt = false ∧ (s t [good]).committed = none)
    ∧ (s (.terminal (FaultInfo.of 0x39)) []).stop = .terminal (FaultInfo.of 0x39) ∧ tst.quiet 6 = true
    ∧ (∃ x ∈ [(1, 2, 3, 2)], dieOf x.1 = dieOf 1 ∧ x.2.2.2 < tst.fresh)
    ∧ (withSl fun sl => { sl with out := [outAt 1 1] }).quiet 6 = false := by decide +kernel

/-- A slot in its handler after a fault of mode m, with the values of the last line of its frame. -/
def trapped (m last : Nat) (redo : Option Owed) : State :=
  ((tst.putLine (frameKey 6 0) { bits := BitVec.ofNat 512 (0x11 + 2 ^ 14 * m), tag := false }).putLine (frameKey 6 53)
    { bits := BitVec.ofNat 512 last, tag := false }).updSl fun sl =>
    { sl with handler := true, trap := some { obj := 1, cmpt := 7, mode := m, bpos := 0, aux := 0, redo := redo } }

/-- Frames of the three modes that pass the checks, one for each check that does not, and an owed value to be redone. -/
theorem witness_TrapReturns :
    let last (s : State) : Nat := (s.lineAt (frameKey s.cur 53)).bits.toNat
    let part (n lo w : Nat) : Nat := n / 2 ^ lo % 2 ^ w
    let ok (s : State) : Bool := decide (part (last s) 256 3 ≤ 4) && part (last s) 128 2 == 0 && part (last s) 192 2 == 0
      && part (last s) 0 2 == 0 && (part (last s) 32 32 == 0 || part (last s) 32 32 == 1)
    let mode (s : State) : Nat := part (s.lineAt (frameKey s.cur 0)).bits.toNat 14 2
    tst.sl.handler = false
    ∧ (∀ m ∈ [0, 1, 2], let s := trapped m (2 ^ 32 + 24 + 2 ^ 256 * 4) none
        s.sl.handler = true ∧ s.sl.trap = some { obj := 1, cmpt := 7, mode := m, bpos := 0, aux := 0, redo := none }
        ∧ s.sl.acked s.sl.seq 6 = true ∧ ok s = true ∧ mode s = m)
    ∧ ok (trapped 0 (2 ^ 256 * 5) none) = false ∧ ok (trapped 0 (2 ^ 128) none) = false ∧ ok (trapped 0 (2 ^ 192 * 2) none) = false
    ∧ ok (trapped 0 2 none) = false ∧ ok (trapped 0 (2 ^ 32 * 5) none) = false
    ∧ ((trapped 1 0 (some (owing 5 (.load .s8 (el 0x10040 8 0)) none))).sl.trap.map fun t => t.redo)
        = some (some (owing 5 (.load .s8 (el 0x10040 8 0)) none))
    ∧ (∀ x ∈ [Flight.vload 32 [(0, el 0x10000 32 0), (1, el 0x10004 32 1)] [(1, el 0x10004 32 1)] [(0, 5)] none false,
          .ccas CapReg.null CapReg.null (el 0x11000 512 0) false, .barge 6 (.resume CapReg.null false)],
        let s := trapped 1 0 (some (owing 5 x none))
        (s.sl.trap.map fun t => t.redo.map fun o => o.flight) = some (some x) ∧ ok s = true ∧ mode s = 1
        ∧ s.bargeFull (s.cur / 4) = false ∧ s.sl.acked s.sl.seq 6 = true)
    ∧ ((trapped 1 0 (some (owing 5 (.barge 6 (.resume CapReg.null false)) none))).updSl fun sl =>
        { sl with committed := some 950 }).sl.committed ≠ none := by decide +kernel

theorem witness_TrapRoundTrip : tst.sl.owed = [] ∧ tst.sl.out = [] ∧ (FaultInfo.of 0x11).cause ∉ [0x21, 0x22, 0x39, 0x3F]
    ∧ (FaultInfo.of 0x11).mode = 0 ∧ tst.sl.handler = false ∧ tst.handlerOf tst.cur ≠ 0 ∧ tst.sl.frm.toNat ≤ 4
    ∧ tst.sl.fflags.toNat < 32 ∧ tst.sl.ls.toNat % 4 = 0 ∧ tst.sl.le.toNat % 4 = 0 ∧ tst.sl.obj < 2 ^ 32 ∧ 0 ≤ tst.sl.pc
    ∧ tst.sl.pc < 2 ^ 32 ∧ tst.sl.pc % 4 = 0 := by decide +kernel

/-- A header line with its low half, for a silicon revision. -/
def headerOf (m : Nat) (devh : BitVec 256) : Line := devh ++ BitVec.ofNat 256 m

/-- The low half of the header of a text of 64 bytes with n entries. -/
def headerLow (n : Nat) : Nat := 64 + 2 ^ 32 * n + 2 ^ 48 + 2 ^ 64 * 0x4E554947

theorem header_low (m : Nat) (devh : BitVec 256) (lo w : Nat) (hm : m < 2 ^ 256) (h : lo + w ≤ 256) :
    bitsOf (headerOf m devh).toNat lo w = bitsOf m lo w := by
  have e : (headerOf m devh).toNat = 2 ^ 256 * devh.toNat + m := by
    rw [headerOf, BitVec.toNat_append, BitVec.toNat_ofNat, Nat.mod_eq_of_lt hm, Nat.shiftLeft_eq, Nat.mul_comm,
      ← Nat.two_pow_add_eq_or_of_lt hm]
  obtain ⟨k, hk⟩ : ∃ k, 256 = lo + w + k := ⟨256 - (lo + w), by omega⟩
  simp only [bitsOf, e]
  generalize devh.toNat = n
  rw [hk, Nat.pow_add, Nat.pow_add, Nat.mul_assoc, Nat.mul_assoc, Nat.mul_add_div (Nat.two_pow_pos lo), Nat.mul_add_mod]

theorem header_hash (m : Nat) (devh : BitVec 256) (hm : m < 2 ^ 256) : hdrDevh (headerOf m devh) = devh := by
  rw [hdrDevh, headerOf, bitsOf, BitVec.toNat_append, BitVec.toNat_ofNat, Nat.mod_eq_of_lt hm]
  apply BitVec.eq_of_toNat_eq
  rw [BitVec.toNat_ofNat, Nat.shiftLeft_eq, Nat.mul_comm, ← Nat.two_pow_add_eq_or_of_lt hm, Nat.mul_add_div (by decide)]
  have := devh.isLt
  simp
  omega

/-- The reason that an image at 0x10000 gets on every silicon: the low half of its header, its device hash, its entries. -/
def reasonAt (s : State) (m : Nat) (devh : BitVec 256) (es : List Line) : Option Nat :=
  s.imageReason (s.who 6) (capOf 0x10000 0 4096 0) (64 + 64 * (1 + es.length)) (some (1, headerOf m devh, es))

/-- What the checks come to, with the fields of the header read. -/
theorem reasonAt_eq (s : State) (m : Nat) (devh : BitVec 256) (es : List Line) (hm : m < 2 ^ 256) : reasonAt s m devh es =
    if !(bitsOf m 64 32 == 0x4E554947 && bitsOf m 48 16 == 1 && bitsOf m 96 160 == 0) then some 2
    else if bitsOf m 0 32 % 4 ≠ 0 ∨ bitsOf m 0 32 < 4 ∨ 2 ^ 26 < bitsOf m 0 32 ∨ bitsOf m 32 16 < 1 ∨ 1024 < bitsOf m 32 16
        ∨ 1 * 64 ≠ (bitsOf m 0 32 + 63) / 64 * 64 ∨ 64 + 64 * (1 + es.length) ≠ 1 * 64 + 64 * (1 + bitsOf m 32 16) then some 3
    else if devh ≠ Config.deviceHash then some 4
    else if !(es.all (entryOk (bitsOf m 0 32)) && es.any fun e => entKind e == 0) then some 5
    else if !entriesDistinct es then some 6
    else if 2 ^ 32 ≤ (s.worldAt (s.who 6).world).nextObj then some 7
    else if (s.textFrames (s.who 6) 0x10000 (bitsOf m 0 32)).any fun f => SMap.look 0 s.frames f.1 != 0 then some 8
    else none := by
  have h (lo w : Nat) (hw : lo + w ≤ 256) := header_low m devh lo w hm hw
  simp only [reasonAt, State.imageReason, headerOk, hdrTlen, hdrNent, header_hash m devh hm, h 64 32 (by decide), h 48 16 (by decide),
    h 96 160 (by decide), h 0 32 (by decide), h 32 16 (by decide)]
  rfl

/-- An image that every check passes, and one for each reason from 2 to 8. -/
theorem witness_publishReasons :
    reasonAt tst (headerLow 1) Config.deviceHash [kernelEntry] = none
    ∧ reasonAt tst (headerLow 1 + 2 ^ 48) Config.deviceHash [kernelEntry] = some 2
    ∧ reasonAt tst (headerLow 1 + 2) Config.deviceHash [kernelEntry] = some 3
    ∧ reasonAt tst (headerLow 1) (Config.deviceHash + 1) [kernelEntry] = some 4
    ∧ reasonAt tst (headerLow 1) Config.deviceHash [kernelEntry ||| 0x800000] = some 5
    ∧ reasonAt tst (headerLow 2) Config.deviceHash [kernelEntry, kernelEntry] = some 6
    ∧ reasonAt (tst.updWorld 2 fun w => { w with nextObj := 2 ^ 32 }) (headerLow 1) Config.deviceHash [kernelEntry] = some 7
    ∧ reasonAt { tst with frames := (tst.textFrames (tst.who 6) 0x10000 64).map fun f => (f.1, 1) } (headerLow 1) Config.deviceHash
        [kernelEntry] = some 8 := by
  have hd : Config.deviceHash + 1 ≠ Config.deviceHash := by simp
  refine ⟨?_, ?_, ?_, ?_, ?_, ?_, ?_, ?_⟩ <;> rw [reasonAt_eq _ _ _ _ (by decide)] <;>
    simp only [hd, ne_eq, not_true, not_false_eq_true, if_true, if_false] <;> decide +kernel

/-- The header is found, whatever the silicon. -/
theorem witness_headerFound :
    findHeader [5, headerOf (headerLow 1) Config.deviceHash, kernelEntry] = some (1, headerOf (headerLow 1) Config.deviceHash, [kernelEntry]) := by
  have hm : bitsOf (headerOf (headerLow 1) Config.deviceHash).toNat 64 32 = 0x4E554947 := by
    rw [header_low _ _ _ _ (by decide) (by decide)]; decide
  have hk : bitsOf (BitVec.toNat kernelEntry) 64 32 ≠ 0x4E554947 := by decide +kernel
  simp [findHeader, List.range, List.range.loop, hm, hk]

/-- Operands of `publish` that pass and that fail each check, an image that is not aligned, one whose lines are read and one whose
lines are not, one without a header, and frames that are settled and that are not. -/
theorem witness_PublishResults :
    let c := capOf 0x10000 0 4096 2
    let s := withC c.reg
    let far := capOf 0x20000 0 4096 2
    let win := capOf LW 0 4096 2
    let fs := (s.textFrames (s.who 6) 0x10000 64).map (·.1)
    let pend : Pend := { core := 0, slot := 0, seq := 0, idx := 0, proxy := false, op := .data (el 0x10000 32 0) 0, whole := false
                         sent := [], held := [], replies := [] }
    tst.sl.guard g = true ∧ (s.sl.cr 6).tag = true ∧ (s.sl.cr 6).f = c ∧ c.has permLD = true ∧ c.fmt = 0 ∧ c.rank = 1 ∧ c.sd0 = 1
    ∧ c.cmpt = s.sl.cmpt ∧ c.seal_ = 0 ∧ (s.sl.xr 7).toNat = 64 ∧ ¬ ((64 : Nat) = 0 ∨ min c.ext0 (2 ^ 32 - 1) < 64)
    ∧ (s.sl.xr 0).toNat = 0 ∧ min c.ext0 (2 ^ 32 - 1) < (s.sl.xr 2).toNat ∧ (s.sl.cr 5).tag = false ∧ (s.sl.cr 1).f.fmt ≠ 0
    ∧ ({ c with seal_ := 3 } : CapF).reg.f.seal_ ≠ 0
    ∧ (capOf 0x10040 0 4096 2).reg.f.base % 65536 ≠ 0 ∧ c.reg.f.base % 65536 = 0 ∧ (s.slotAt 6).acked 10 6 = true
    ∧ s.bargeQuiet 6 10 = true ∧ ((s.updSl fun sl => { sl with out := [outAt 1 1] }).slotAt 6).acked 10 6 = false
    ∧ win.base % 65536 = 0 ∧ answers (s.imageLines (s.who 6) 10 win 0 (192 / 64)) = true
    ∧ answers (s.imageLines (s.who 6) 10 far 0 (192 / 64)) = false ∧ (findHeader [5, 6, 7]).isNone = true
    ∧ s.framesSettled fs = true ∧ ({ s with coh := [(64 * fs.headD 0, { LineCoh.reset with pend := some pend })] } : State).framesSettled fs = false := by
  decide +kernel

/-- The code capability of an object of n bytes of the issuing compartment. -/
def codeObj (n base : Nat) (hs : List (BitVec 256)) (vs : SMap Bool) : CodeObj :=
  { codeObject with base := base, tlen := n, cap := codeCap base n 0, cmpt := 0, hashes := hs, verified := vs }

/-- A world whose page 0 holds twelve bytes, by four tables and a leaf whose target is 0 (device) or 1 (host). -/
def paged (tgt : Nat) : State :=
  { State.reset with
    mem := ([0x78, 0x56, 0x34, 0x12, 0xF0, 0xDE, 0xBC, 0x9A, 0x78, 0x56, 0x34, 0x12].zipIdx.map fun x => (0x200000 + x.2, BitVec.ofNat 8 x.1))
      ++ ([2, 3, 4, 5].flatMap fun n => let t := 0x200000 + 0x1000 * (n - 1); [(t, BitVec.ofNat 8 n), (t + 1, 2), (t + 7, 0x80)])
      ++ [(0x205001, 2), (0x205006, 0x20), (0x205007, BitVec.ofNat 8 (0xE0 + 2 * tgt))]
    owners := [(0, 0xFF), (1, 0)], worlds := [(0, { World.reset with live := true, troot := 0x201000 })]
    parts := [(0, { Part.reset with wid := 0, sl := 1 })] }

/-- Slot 0 of core 0 fetches at `pc` from such an object. -/
def fetching (tgt : Nat) (pc : Int) (o : CodeObj) : State :=
  { paged tgt with
    worlds := [(0, { World.reset with live := true, troot := 0x201000, objs := [(1, o)] })]
    cores := [(0, { Core.reset with slots := [(0, { Slot.reset with active := true, world := 0, obj := 1, pc := pc })] })] }

/-- Fetches that the check refuses and admits; pages with and without their mark, of an object that is quarantined, that is read
and that is not; a second page without its mark; words of memory, of the instruction cache, with an error, and of host memory. -/
theorem witness_FetchCases :
    let s := fetching 0 0 (codeObj 12 0 [5] [])
    let far := codeObj 65552 0x50000000 [5, 5] [(0, true)]
    let w := s.who 0
    let words (t : State) (q : Nat) := t.codeWords w [] ((t.objAt 0 1).pageElems q)
    let at_ (t : State) (pc : Int) := fetchCheck (t.objAt 0 1).cap 0 pc [0, 1, 2]
    let e : Elem := (codeObj 12 0 [5] []).cap.f.elem Coords.zero
    let p : Place := { somewhere with key := 0x200000 }
    let host := fetching 1 0 (codeObj 12 0 [5] [])
    let q : CodeObj := { codeObj 12 0 [5] [] with quarantined := true }
    answers (at_ s 12) = false ∧ answers (at_ s 0) = true ∧ answers (at_ (fetching 0 65532 far) 65532) = true
    ∧ SMap.look false (s.objAt 0 1).verified 0 = false ∧ SMap.look false ((fetching 0 0 (codeObj 12 0 [5] [(0, true)])).objAt 0 1).verified 0 = true
    ∧ SMap.look false far.verified (65532 / 65536) = true ∧ SMap.look false far.verified ((65532 + 11) / 65536) = false
    ∧ ((fetching 0 0 q).objAt 0 1).quarantined = true ∧ (s.objAt 0 1).quarantined = false
    ∧ gives (at_ s 0) ((s.objAt 0 1).pageElems 0) = true ∧ answers (words s 0) = true ∧ answers (words (fetching 0 65532 far) 1) = false
    ∧ answers ((fetching 0 0 far).codeWords w [] (okOr (at_ (fetching 0 0 far) 0) [])) = false
    ∧ answers (s.walk 0 0 0x1000) = false ∧ answers (s.walk 0 0 e.va) = true ∧ answers (s.codeWord w [] e) = true
    ∧ answers (({ s with poison := [(2 * p.key, true)] } : State).codeWord w [] e) = false
    ∧ stops (s.codeByte w 0x1000) 0x20 = true ∧ gives (s.codeByte w e.va) (p, 0x205000) = true ∧ p.kind = .dev
    ∧ ([(p.key / 64, 5)].find? fun y => y.1 == p.key / 64) = some (p.key / 64, (5 : Line))
    ∧ s.poisoned (2 * p.key) 8 = false ∧ ({ s with poison := [(2 * p.key, true)] } : State).poisoned (2 * p.key) 8 = true
    ∧ (okOr (host.codeByte w e.va) (somewhere, 0)).1.kind = .host := by decide +kernel

/-- A slot that fetches and slots that do not; a page that its fetch waits for, whose words are read, settled and with a write
under way; one whose words are not read; and pages that are not due. -/
theorem witness_FetchAndVerification :
    let s := fetching 0 0 (codeObj 12 0 [5] [])
    let one := fetching 0 0 (codeObj 4 0 [5] [])
    let done_ := fetching 0 12 (codeObj 12 0 [5] [(0, true)])
    let far := fetching 0 0 (codeObj 12 0x50000000 [5] [])
    let idle := s.updSlot 0 fun sl => { sl with fetched := true }
    let words (t : State) := t.codeWords (t.who 0) [] ((t.objAt 0 1).pageElems 0)
    let pend : Pend := { core := 0, slot := 0, seq := 0, idx := 0, proxy := false, op := .data (el 0x10000 32 0) 0, whole := false
                         sent := [], held := [], replies := [] }
    let wait : State := { s with coh := [(0x8000, { LineCoh.reset with pend := some pend })] }
    (done_.slotAt 0).active = true ∧ (done_.slotAt 0).fetched = false ∧ (done_.fetchWith 0).1 ≠ .unverified
    ∧ (s.slotAt 0).active = true ∧ (s.fetchWith 0).1 = .unverified ∧ (s.slotAt 4).active = false
    ∧ (∀ k ∈ [0, 1, 2, 3], idle.awaits 0 1 0 k = false) ∧ idle.cores.keys = [0] ∧ s.verifier 0 1 0 = some 0 ∧ far.verifier 0 1 0 = some 0
    ∧ (s.objAt 0 1).quarantined = false ∧ SMap.look false (s.objAt 0 1).verified 0 = false ∧ min 65536 ((s.objAt 0 1).tlen - 0) ≠ 0
    ∧ SMap.look false (done_.objAt 0 1).verified 0 = true
    ∧ one.verifier 0 1 0 = some 0 ∧ gives ((words one).map fun l => l.map fun x => x.key / 64) [512] = true ∧ answers (words far) = false
    ∧ (∀ x ∈ s.coh, x.2.pend ≠ none → x.1 / 64 ∉ [512]) ∧ (∃ x ∈ wait.coh, x.2.pend ≠ none ∧ x.1 / 64 ∈ [512]) := by decide +kernel

/-- The two outcomes: an object with the hash of those bytes, and one with another. -/
theorem witness_pageHashes (b : List Byte) : sha3 b = [sha3 b].getD 0 0 ∧ sha3 b ≠ [sha3 b + 1].getD 0 0 := by
  constructor
  · rfl
  · simp

/-- A commit window before and at its end, for a slot that is under an instruction and one that is not, and one that has ended;
wait timers before and at their ends, in each wait that has one; an activation to be discarded, by a swap and without; and a
core in service and one out of it. -/
theorem witness_TimersAndPreemption :
    let d : Defer := eff (.push (capOf 0x10040 8 40 0).reg 0 5)
    let s (now tm com : Nat) (st : Stop) : State :=
      { (withSl fun sl => { sl with committed := some com, timer := some tm, stop := st, deferred := [d], applied := 1 }) with now := now }
    let p : Slot := { (tst.slotAt 6) with preempt := true }
    let sw := tst.updTeam 4 fun t => { t with st := .leaving 5 false, tc := [(1, { TCore.reset with ring := [3], pool := [(3, { PoolEntry.empty with turn := 7 })] })] }
    ((s 66536 0 1000 .run).slotAt 6).committed = some 1000 ∧ 1000 + 65536 ≤ (s 66536 0 1000 .run).now ∧ ¬ 1000 + 65536 ≤ (s 66535 0 1000 .run).now
    ∧ ((s 66536 0 1000 (.hold (.finish 3))).slotAt 6).stop = .hold (.finish 3)
    ∧ ((s 66536 0 1000 (.terminal (FaultInfo.of 0x39))).slotAt 6).stop = .terminal (FaultInfo.of 0x39)
    ∧ ((s 66536 0 1000 .run).coreAt 1).stopped = none ∧ (tst.slotAt 6).timer = none
    ∧ (∀ st ∈ [Stop.hold (.swait (el 0x11000 64 0) 3), .hold (.basin (basinOp true false) g), .hold (.release 7 40), .hold .commit],
        ((s 2000 2000 1990 st).slotAt 6).timer = some 2000 ∧ 2000 ≤ (s 2000 2000 1990 st).now ∧ (s 1999 2000 1990 st).now < 2000
        ∧ ¬ 1990 + 65536 ≤ (s 2000 2000 1990 st).now ∧ ((s 2000 2000 1990 st).slotAt 6).stop = st)
    ∧ ((s 2000 2000 1990 (.hold .commit)).slotAt 6).deferred = d :: [] ∧ d.basin.isSome = true ∧ (eff (.count 1)).basin = none
    ∧ ((s 66536 0 1000 (.hold (.applying 40))).slotAt 6).stop = .hold (.applying 40)
    ∧ (let f := { FaultInfo.of 0x23 with mode := 2 }
       ((s 66536 0 1000 (.trap f)).slotAt 6).stop = .trap f ∧ f.mode = 2)
    ∧ (let u := tst.updSl fun sl => { sl with preempt := true, timer := some 900 }
       (u.slotAt 6).preempt = true ∧ (u.slotAt 6).committed = none ∧ (u.slotAt 6).timer = some 900)
    ∧ (done.slotAt 6).active = true ∧ (done.slotAt 6).committed ≠ none ∧ (tst.slotAt 6).out = []
    ∧ (tst.updSlot 6 fun _ => p).slotAt 6 = p ∧ p.active = true ∧ p.committed = none ∧ (tst.slotAt 6).preempt = false
    ∧ (tst.teamAt p.team).isLeaving = false ∧ (sw.teamAt p.team).isLeaving = true ∧ ((sw.teamAt p.team).core 1).ring = [3]
    ∧ (tst.coreAt 1).oos = false ∧ ((tst.updCore 1 fun c => { c with oos := true }).coreAt 1).oos = true := by decide +kernel

/-- A pool entry of a stage. -/
def entryOf (stg : Nat) : PoolEntry :=
  { record := { data := recLine stg childRest, caps := [(capOf 0x10000 3 64 3).reg] }, rev := none, child := false, taken := false, dep := false }

/-- The team with a ring, a deque of its core 1 and one of its core 3. -/
def scheduled (ring deq far : List Nat) : State :=
  (tasked 0).updTeam 4 fun t => { t with
    st := .resident 100, stages := [(0, 1)]
    tc := [(1, { TCore.reset with pool := [(2, { PoolEntry.empty with taken := true }), (3, entryOf 0), (4, entryOf 1)], ring := ring, deque := deq }),
           (3, { TCore.reset with pool := [(5, entryOf 1)], deque := far })] }

/-- A record served from the ring behind one that is not, one from the deque, one from another core's deque, and the deque's last
entry, which its owner takes in the cycle of the steal; no slot, no stage and no entry for it; a quarantined object; and slots,
cores and worlds that start nothing. -/
theorem witness_ActivationStarts :
    let r := scheduled [3, 4] [] []
    let d := scheduled [3] [4] []
    let f := scheduled [3] [] [2, 5]
    let o : State :=
      { (((scheduled [3] [] []).updTeam 4 fun t => { t with
            st := .resident 100, stages := [(0, 1)]
            tc := [(1, { TCore.reset with pool := [(2, { PoolEntry.empty with taken := true })] }),
                   (0, { TCore.reset with pool := [(5, entryOf 1)], deque := [5] })] }).updCore 0 fun c => { c with team := some 4, tcore := 0 }) with
        script := [.activationStart 0 2] }
    let tm := r.teamAt 4
    (r.coreAt 1).team = some 4 ∧ (r.coreAt 1).tcore = 1 ∧ tm.grid = 5 ∧ tm.st = .resident 100 ∧ (r.coreAt 0).team = some 4 ∧ (r.coreAt 8).team = none
    ∧ (r.slotAt 4).active = false ∧ (r.coreAt 1).oos = false ∧ (r.worldAt 2).live = true ∧ (r.worldAt 2).dying = false
    ∧ (r.slotAt 6).active = true ∧ (tm.core 1).ring = [3] ++ 4 :: []
    ∧ r.servesRec tm 1 1 3 = false ∧ r.servesRec tm 1 1 4 = true
    ∧ ((d.teamAt 4).core 1).deque = 4 :: [] ∧ (∀ j ∈ ((d.teamAt 4).core 1).ring, d.servesRec (d.teamAt 4) 1 1 j = false)
    ∧ d.servesRec (d.teamAt 4) 1 1 4 = true ∧ ((f.teamAt 4).core 1).deque = [] ∧ 3 = (1 + 1 + 1) % tm.cores ∧ 1 + 1 < tm.cores
    ∧ ((f.teamAt 4).core 2).deque = [] ∧ ((f.teamAt 4).core 3).deque = [2] ++ [5] ∧ f.servesRec (f.teamAt 4) 1 3 5 = true
    ∧ ((f.teamAt 4).core 1).freeSlot = some 0 ∧ f.script.head?.isNone = true
    ∧ o.takeNow 1 0 = some (4, { core := 0, pool := 5, steal := true }) ∧ ((o.teamAt 4).core 0).deque.length = 1
    ∧ (o.teamAt 4).coreNo 0 = 0 ∧ o.takeNow 0 2 = some (4, { core := 0, pool := 5, steal := false })
    ∧ (entryOf 1).rev = none ∧ (r.objAt 2 1).quarantined = false ∧ (r.objAt 2 3).quarantined = true := by decide +kernel

/-- The team with a record of a quarantined object, which names join counter 5 of core 1 and is of the revision, and the counter. -/
def quarantined (rev : Option Nat) (n : Word) : State :=
  let joining : Rec := { data := recLine 1 (childRest + 2 ^ 87 + 2 ^ 88 + 2 ^ 92 * 5), caps := [] }
  let s := ((scheduled [3, 4] [] []).updWorld 2 fun w => { w with objs := [(1, { kernelObj with quarantined := true })] }).updTeam 4 fun t =>
    { t with tc := [(1, { TCore.reset with
        pool := [(2, { PoolEntry.empty with taken := true }), (3, entryOf 0), (4, { entryOf 1 with record := joining, rev := rev, child := rev.isSome })]
        ring := [3, 4], ctr := [(5, { count := n, rv := true, rslot := 9 })] })] }
  { s with revs := revised.revs }

/-- A record of a quarantined object that its row serves, which names a join counter, at its last count and before, of the team
itself and of a child's. -/
theorem witness_QuarantinedStarts :
    let s := quarantined none 2
    let e := ((s.teamAt 4).core 1).poolAt 4
    let c := quarantined (some 3) 1
    let f := ((c.teamAt 4).core 1).poolAt 4
    (s.objAt 2 (e.record.code / 2 ^ 32)).quarantined = true ∧ e.record.jv = true ∧ (entryOf 1).record.jv = false
    ∧ e.record.jcore = 1 ∧ e.record.jidx = 5 ∧ s.servesRec (s.teamAt 4) 1 1 3 = false ∧ s.servesRec (s.teamAt 4) 1 1 4 = true
    ∧ ((s.teamAt 4).core 1).counter 5 = { count := 2, rv := true, rslot := 9 }
    ∧ ((c.teamAt 4).core 1).counter 5 = { count := 1, rv := true, rslot := 9 }
    ∧ f.rev = some 3 ∧ f.child = true ∧ (c.revAt 3).resets = false ∧ s.script.head?.isNone = true := by decide +kernel

/-- A held push with room and without; a record that its row does not serve any more; records of the grid that have a core with
room, a full one, and none, and a stage's queue; a record of a queue that a row serves, with a dependence count and without;
and one that finds its core's ring full, before a record of the grid that its stage's queue takes. -/
theorem witness_RecordPlacement :
    let rc (stg plc : Nat) : Rec := { data := recLine stg (childRest + 2 ^ 72 * plc), caps := [] }
    let s (held ring : List Nat) (feed : List Rec) (q : List (Nat × List PoolEntry)) : State := (tasked 0).updTeam 4 fun t => { t with
      stages := [(0, 1)], stageQ := q, tc := [(1, { TCore.reset with
        pool := [(0, { PoolEntry.empty with taken := true }), (5, entryOf 1), (7, entryOf 2)], ring := ring, held := held, feed := feed
        ctr := [(2, { count := 0, rv := true, rslot := 8 })] })] }
    let a := s [2, 9] (List.replicate 63 5) [] []
    let tm := a.teamAt 4
    let q (dep : Bool) : PoolEntry := { entryOf 1 with dep := dep }
    tm.isResident = true ∧ ((tst.updTeam 4 fun t => { t with st := .waiting 5 }).teamAt 4).isResident = false
    ∧ (tm.core 1).held = 2 :: [9] ∧ (tm.core 1).ring.length < 64 ∧ 64 ≤ (((s [2] (List.replicate 64 5) [] []).teamAt 4).core 1).ring.length
    ∧ ((tm.core 1).counter 2).rv = true ∧ (a.coreAt (tm.coreNo 1)).oos = false
    ∧ a.rowServes tm 1 1 = true ∧ (s [] [7] [] []).rowServes ((s [] [7] [] []).teamAt 4) 1 2 = false
    ∧ (((s [] [5] [rc 1 1] []).teamAt 4).core 1).feed = rc 1 1 :: [] ∧ (((s [] [5] [rc 1 1] []).teamAt 4).core 1).held = []
    ∧ a.routeCore tm 1 1 = some 1 ∧ (tm.core 1).freeSlot = some 1 ∧ a.routeCore tm 1 2 = none ∧ (SMap.look [] tm.stageQ 2).length < 64
    ∧ (∀ dep, ((s [] [5] [] [(1, [q dep])]).teamAt 4).stageQ = [] ++ (1, q dep :: []) :: [])
    ∧ (q false).record.stg = 1 ∧ (q true).dep = true ∧ ((((s [] [5] [] []).teamAt 4).core 1).counter (q true).record.didx).rv = false
    ∧ (let z : PoolEntry := { entryOf 1 with record := rc 1 1 }
       ∀ x ∈ [(1, some 1), (2, none)], let b := s [] (List.replicate 64 5) [rc x.1 1] [(1, [z])]
       let t := b.teamAt 4
       (t.core 1).held = [] ∧ (∀ j ∈ (t.core 1).ring, b.rowServes t 1 ((t.core 1).poolAt j).record.stg = true)
       ∧ (b.coreAt (t.coreNo 1)).oos = false ∧ t.stageQ = [(1, [z])] ∧ b.routeCore t z.record.plc 1 = some 1
       ∧ 64 ≤ (t.core 1).ring.length ∧ (t.core 1).feed = rc x.1 1 :: [] ∧ (rc x.1 1).stg = x.1 ∧ b.routeCore t 1 x.1 = x.2) := by
  decide +kernel

/-- A grid of a record and its pages, at the head of its queue by priority and behind one of the same. -/
def gridded (l : Line) (named : Nat) (c : CapReg) : State :=
  let q (prio : Nat) : Grid := { Grid.reset with
    part := 1, world := 2, record := { data := l + BitVec.ofNat 512 (2 ^ 67 * prio), caps := [c] }, st := .queued, order := 3, named := named }
  ((((tasked 0).updPart 1 fun p => { p with queue := [7, 8, 9] }).updGrid 7 fun _ => q 0).updGrid 8 fun _ => q 1).updGrid 9 fun _ => q 1

/-- A grid that ends, at each completion mode, of a command or of none, with the streams that carried its writes. -/
def ending (cmode : Nat) (seq : Option Word) (dirty : List Nat) (rounds : List Round) : State :=
  let s := (((tasked 0).updTeam 4 fun t => { t with tc := [] }).updSlot 6 fun _ => Slot.reset).updSlot 5 fun _ => Slot.reset
  let rec_ : Rec := { data := recLine 0 (launchRest 20 + 2 ^ 79 * cmode), caps := [(capOf 0x10000 3 64 3).reg, (capOf 0x11000 4 8 3).reg] }
  { s.updGrid 5 (fun g => { g with record := rec_, seq := seq, dirty := dirty, sluice := (capOf 0x11000 4 8 3).reg }) with
    ports := { s.ports with fkeys := [(258, 1)], rounds := rounds } }

theorem ending_peers (c : Nat) (q : Option Word) (d : List Nat) (r : List Round) :
    (ending c q d r).hasPeers (partWho 2 1) 9 = true := by
  have h := pathsOf_key (ending c q d r) 2 258 (by rw [show (ending c q d r).ports.fkeys = [(258, 1)] from rfl]; decide) rfl rfl
  simp only [State.hasPeers, Bool.and_eq_true, bne_iff_ne]
  exact ⟨h, rfl⟩

/-- A grid of no size, one without a kernel, a quarantined one, one too large, one that misses pages and one that starts; and
one that has nothing left, of each completion mode, before its round, within it and after it, with and without streams to flush. -/
theorem witness_GridLife :
    let l := recLine 0 (launchRest 40)
    let c := (capOf 0x10000 3 64 3).reg
    let far := (capOf 0x30000 3 64 3).reg
    let s := gridded l 0x1000 c
    let x := s.gridAt 8
    let end_ := ((((tasked 0).updTeam 4 fun t => { t with tc := [] }).updSlot 6 fun _ => Slot.reset).updSlot 5 fun _ => Slot.reset)
    (tst.partAt 0).queue = [] ∧ (s.partAt 1).queue = [7] ++ 8 :: [9] ∧ (s.gridAt 7).record.prio < x.record.prio
    ∧ (s.gridAt 9).record.prio ≤ x.record.prio ∧ x.record.zeroSize = false
    ∧ ((gridded (recLine 0 0) 0x1000 c).gridAt 8).record.zeroSize = true
    ∧ s.kernelAt x.world x.record.code = some (kernelObj, kernelEntry) ∧ kernelObj.quarantined = false ∧ x.named ≤ 0x1C000
    ∧ ¬ ((gridded l 0x1C040 c).gridAt 8).named ≤ 0x1C000
    ∧ (s.kernelAt 2 (x.record.code + 2 ^ 34)).isNone = true
    ∧ ((s.updWorld 2 fun w => { w with objs := [(1, { kernelObj with quarantined := true })] }).kernelAt 2 x.record.code)
        = some ({ kernelObj with quarantined := true }, kernelEntry)
    ∧ x.record.pages.filter (fun q => !s.walks 2 1 (4096 * q)) ≠ []
    ∧ ((gridded l 0x1000 (capOf mintBase 3 64 3).reg).gridAt 8).record.pages = [] ∧ far.tag = true
    ∧ (end_.gridAt 5).st = .live ∧ end_.gridIdle 5 = true ∧ (∀ t ∈ (end_.gridAt 5).teams, (end_.teamAt t).drained = true) ∧ end_.revs = [] ∧ end_.coh = []
    ∧ s.gridIdle 5 = false
    ∧ (let r (done : Bool) : Round := { num := 0, core := 512 + 5, slot := 0, world := 2, paths := [1], got := [], done := done }
       let finished (e : State) : Bool := decide ((e.gridAt 5).st = .live) && e.gridIdle 5 && ((e.gridAt 5).teams.all fun t => (e.teamAt t).drained)
         && decide (e.revs = []) && decide (e.coh = [])
       (finished (ending 1 none [] []) = true ∧ ((ending 1 none [] []).gridAt 5).seq = none ∧ ((ending 1 none [] []).gridAt 5).record.cmode = 1)
       ∧ (finished (ending 2 none [3] []) = true ∧ ((ending 2 none [3] []).gridAt 5).record.cmode = 2 ∧ (ending 2 none [3] []).ports.rounds = [])
       ∧ (finished (ending 1 (some 9) [3] [r false]) = true ∧ ((ending 1 (some 9) [3] [r false]).gridAt 5).seq = some 9
          ∧ (ending 1 (some 9) [3] [r false]).ports.rounds = [r false] ∧ (r false).done = false)
       ∧ (finished (ending 1 (some 9) [] [r true]) = true ∧ ((ending 1 (some 9) [] [r true]).gridAt 5).dirty = [] ∧ (r true).done = true)
       ∧ ((ending 2 none [3] [r true]).gridAt 5).dirty ≠ []
       ∧ (let e := ending 1 none [] []
          let q := (e.schedPlace (e.schedWho 2 1 5) true (((e.gridAt 5).sluice.f.elem Coords.zero).va)).getD { somewhere with kind := .mint }
          q.kind = .dev ∧ (e.cohAt (q.key / 64)).pend = none ∧ (e.cohAt (q.key / 64)).proxy = .I ∧ e.lineErrors (q.key / 64) = [])) := by
  decide +kernel

/-- A grid that waits for one page that is there, for two, and one that waits for a page that is not; the kernel of the world, and
another writer. -/
theorem witness_ResidencyReplies :
    let s (m : List Nat) : State := (paged 0).updGrid 5 fun g => { g with
      part := 0, world := 0, st := .waiting m, record := { data := recLine 0 (launchRest 0), caps := [(capOf mintBase 3 64 3).reg] } }
    (s [0]).accepts = true ∧ ((s [0]).partAt 0).wid = 0 ∧ 3 ≠ 256 + ((s [0]).partAt 0).wid
    ∧ ((s [0]).grids.map fun h => h.1).Nodup ∧ (5, (s [0]).gridAt 5) ∈ (s [0]).grids ∧ ((s [0]).gridAt 5).part = 0
    ∧ ((s [0]).gridAt 5).world = 0 ∧ ((s [0]).gridAt 5).st = .waiting [0]
    ∧ (∀ h ∈ (s [0]).grids, h.2.part = 0 → h.1 ≠ 5 → h.2.st = .live) ∧ (1 : Nat) ∉ [0] ∧ (0 : Nat) ∈ [0]
    ∧ (∀ h ∈ ((s [0]).updGrid 5 fun g => { g with st := .live }).grids, h.2.st = .live)
    ∧ 2 ^ 63 / 4096 % 2 ^ 45 = 0 ∧ 2 ^ 63 / 2 ^ 63 % 2 = 1 ∧ 0x1000 / 4096 % 2 ^ 45 = 1
    ∧ (s [0]).walks 0 0 0 = true ∧ (s [1]).walks 0 0 0x1000 = false ∧ [0].filter (· != 0) = [] ∧ [0, 1].filter (· != 0) ≠ []
    ∧ (s [0]).missing 5 = [] := by decide +kernel

/-- A waiting team, that was swapped out or not, with rows free in cluster 0. -/
def waiting (sw : Bool) : State :=
  (tst.updTeam 4 fun t => { t with
    st := .waiting 50, cores := 4, rows := [], swapped := sw
    saved := if sw then [(0, 8, 5)] else [], savedTags := if sw then [(0, 0xB00)] else [] }).updCore 0 (fun c => { c with team := none })
  |>.updCore 1 fun c => { c with team := none }

/-- A team that stands first with room for it, swapped out before and not; another one first; no cluster with enough free rows; and
a team that does not wait. -/
theorem witness_TeamPlacement :
    let s := waiting false
    let two := (s.updTeam 6 fun t => { t with st := .waiting 20, cores := 4, grid := 5 }).updGrid 5 fun x => { x with teams := [4, 6] }
    let full : State := { s with parts := [(1, { Part.reset with wid := 2, cl := 2 })] }
    let free (t : State) (c : Nat) : List Nat := ((List.range 4).map (4 * c + ·)).filter fun r =>
      (List.range 4).all fun j => (t.coreAt (4 * r + j)).team.isNone && !(t.coreAt (4 * r + j)).oos
    (s.teamAt 4).swapped = false ∧ ((waiting true).teamAt 4).swapped = true ∧ (s.teamAt 4).st = .waiting 50 ∧ (tst.teamAt 4).st = .resident 100
    ∧ s.waitingTeams (s.partOfTeam 4) = [4] ∧ two.waitingTeams (two.partOfTeam 4) = [4, 6] ∧ (20 : Nat) < 50
    ∧ (s.teamAt 4).cores % 4 = 0 ∧ (s.partAt 1).cl / 2 ^ 0 % 2 = 1 ∧ free s 0 = [0, 1, 2, 3] ∧ 4 / 4 ≤ (free s 0).length
    ∧ (full.partAt 1).cl / 2 ^ 0 % 2 ≠ 1 ∧ (∀ x ∈ ((waiting true).teamAt 4).saved, x.2.1 < 0x40000)
    ∧ ∀ x ∈ ((waiting true).teamAt 4).savedTags, x.2 < 0x1000 := by decide +kernel

/-- A quantum that ends while another team waits, and before; a grace before its end and at it; a leaving team with activations
and without. -/
theorem witness_TeamSwapOut :
    let s (now : Nat) (st : TeamSt) : State :=
      { ((tst.updTeam 4 fun t => { t with st := st }).updTeam 6 fun t => { t with st := .waiting 20, cores := 4, grid := 5 }).updGrid 5
          fun x => { x with teams := [4, 6] } with now := now }
    let idle : State := { s 70000 (.leaving 5 true) with cores := [] }
    ((s 2097252 (.resident 100)).teamAt 4).st = .resident 100 ∧ ((s 5 (.resident 100)).teamAt 4).frozen = none
    ∧ 100 + 2 ^ 21 ≤ 2097252 ∧ ¬ 100 + 2 ^ 21 ≤ 2097251 ∧ (s 5 (.resident 100)).waitingTeams ((s 5 (.resident 100)).partOfTeam 4) = [6]
    ∧ ((s 65541 (.leaving 5 false)).teamAt 4).st = .leaving 5 false ∧ 5 + 65536 ≤ 65541 ∧ 65540 < 5 + 65536
    ∧ (s 70000 (.leaving 5 true)).teamSlots 4 ≠ [] ∧ idle.teamSlots 4 = [] ∧ (idle.teamAt 4).st = .leaving 5 true := by decide +kernel

/-- A run that is due and one that is not; a stage that is high by its Basin, one with two rows that is low, and none; rows that
have served long enough and that have not. -/
theorem witness_WeirMoves :
    let d : Line := BitVec.ofNat 512 (2 ^ 64 * 3 + 2 ^ 256 * 1 + 2 ^ 288 * 2)
    let s (now : Nat) (bs : SMap (CapReg × Int × Nat)) : State :=
      { (tst.updTeam 4 fun t => { t with cores := 12, rows := [0, 1, 2], stages := [(0, 1), (1, 1), (2, 3)], basins := bs }).putLine
          (memKey .dev 0x300040) { bits := d, tag := false } with now := now }
    let b : SMap (CapReg × Int × Nat) := [(3, ((capOf 0x10040 8 40 0).reg, 0, 1))]
    let h := s 20000 b
    let tm := h.teamAt 4
    let e := s 20000 []
    tm.isResident = true ∧ tm.weirAt + 4096 ≤ tm.cycles h.now ∧ ¬ tm.weirAt + 4096 ≤ tm.cycles 4000 ∧ tm.nrows = 3
    ∧ tm.basins.keys.contains 3 = true ∧ tm.basins.keys.contains 1 = false
    ∧ (h.basinDescriptor tm (SMap.look (CapReg.null, 0, 0) tm.basins 3)) = some d ∧ bOcc d = 3 ∧ bHwm d = 2 ∧ bLwm d = 1
    ∧ (h.weirStage tm 3).high = some 1 ∧ (∀ k, k < 8 → k ≠ 3 → (h.weirStage tm k).high = none)
    ∧ (h.weirStage tm 1).low = true ∧ (∀ k, k < 8 → k ≠ 1 → (h.weirStage tm k).low = false)
    ∧ (∀ k, k < 8 → (e.weirStage (e.teamAt 4) k).high = none)
    ∧ (tm.stageOf 0 = 1 ∧ SMap.look 0 tm.served 0 + 16384 ≤ tm.cycles h.now) ∧ ¬ SMap.look 0 tm.served 0 + 16384 ≤ tm.cycles 5000 := by
  decide +kernel

/-- Values at both ends of a format of each width, and the formats with a float. -/
theorem witness_MergeResults : (∀ w ∈ [4, 8, 16, 32, 64], 2 ^ w - 1 < 2 ^ w ∧ 0 < 2 ^ w) ∧ 4 ∉ [0x10, 0x11, 0x12]
    ∧ (∀ x ∈ [(0x10, fpF32), (0x11, fpBf16), (0x12, fpF16)], x.1 ∈ [0x10, 0x11, 0x12]) := by decide

/-- An entry of a revision: the line at `la`, as it was and as the child left it. -/
def entryFor (la anc child : Nat) : RevEntry :=
  { ridx := 0, laddr := la, anc := { bits := BitVec.ofNat 512 anc, tag := false }, child := { bits := BitVec.ofNat 512 child, tag := false }
    aerr := [], cerr := [] }

/-- Revisions of one region of the page at 0x10000 with their spill areas at 0x11000 and 0x11800: 3, that has ended, of the root or
of 4, that lives. -/
def mergeable (c : CapF) (mt : Nat) (es : List RevEntry) (child : Bool) : State :=
  let r : Revision := { Revision.reset with
    world := 2, team := 4, grid := 5, st := .ended, forker := (1, 3, 7), spill := (capOf 0x11000 0x20 16 0).reg, regions := [(c.reg, mt)]
    entries := es, parent := if child then some 4 else none, order := 4 }
  { tst with revs := (3, r) :: if child then [(4, { r with
      st := .live, spill := (capOf 0x11800 0x20 16 0).reg, parent := none, entries := [entryFor 0x10000 1 1] })] else [] }

/-- A line of the root's view and of a parent's entry, and an array that the child appended to: the line of its cursor, at the
region's start, and that of the element. -/
theorem witness_MergedLines :
    let c := capOf 0x10000 3 64 0
    let l := capOf 0x10000 3 1024 0
    let e := entryFor 0x10000 1 2
    let root := mergeable c 3 [e] false
    let two := mergeable c 3 [e] true
    let x := entryFor 0x10040 0 77
    let cur := entryFor 0x10000 0 1
    let app := mergeable l 11 [cur, x] false
    let w (s : State) : Who := s.junctionWho (s.revAt 3) (s.revAt 3).parent
    let place (s : State) (va : Nat) : Place := (s.junctionPlace (w s) va).getD { somewhere with kind := .mint }
    let rests (s : State) (va : Nat) : Bool := let k := place s va
      let q := s.cohAt (k.key / 64)
      decide (k.kind = .dev ∧ q.pend = none ∧ q.snoop = none ∧ q.wback = none ∧ q.proxy = .I ∧ q.owner = none ∧ k.untagged = false)
        && decide ((place s (s.revAt 3).headerAt).key / 64 ≠ k.key / 64)
        && (List.range 64).all fun j => s.inSpill 2 (k.va / 64 * 64 + j) == false
    let joins (s : State) (c : CapF) (mt : Nat) (e : RevEntry) : Bool := s.joinable 3 && s.mergeQuiet 3 && !(s.revAt 3).broken
      && decide (s.poison = [] ∧ (s.revAt 3).regions[e.ridx]? = some (c.reg, mt) ∧ e.cerr = [] ∧ e.aerr = [] ∧ e.laddr % 64 = 0)
      && (s.junctionPlace (w s) e.laddr).isSome && rests s e.laddr
    joins root c 3 e = true ∧ root.revs = [(3, root.revAt 3)] ∧ (root.revAt 3).parent = none ∧ (root.revAt 3).entries = [e]
    ∧ c.reg.f.fmt = 3 ∧ fmtBits 3 ∈ [4, 8, 16, 32, 64]
    ∧ joins two c 3 e = true ∧ two.revs.keys = [3, 4] ∧ (two.revAt 3).parent = some 4 ∧ (two.revAt 4).broken = false
    ∧ (two.revAt 4).revises e.laddr = true ∧ (two.revAt 4).entryAt e.laddr = some (entryFor 0x10000 1 1)
    ∧ joins app l 11 cur = true ∧ ((app.revAt 3).entries.filter fun z => z.laddr == cur.laddr) = [cur]
    ∧ (∀ z ∈ (app.revAt 3).entries, z.ridx = cur.ridx) ∧ l.reg.f.footprint = some (cur.laddr, cur.laddr + 4095) ∧ 8 ≤ fmtBits 3
    ∧ (app.revAt 3).entryAt (0x10040 / 64 * 64) = some x ∧ x.cerr = [] ∧ (app.junctionPlace (w app) 0x10040).isSome = true
    ∧ rests app 0x10040 = true
    ∧ (∀ l ∈ (app.gridAt 5).leases, l.1 ≠ 0x10 → l.2.frame ≠ 0x300) := by decide +kernel

/-- A revision that is ended and ready, with join decrements; one with an earlier sibling; a broken one; one whose forker still
runs; and one whose copies are to be reset. -/
theorem witness_RevisionsJoin :
    let r : Revision := { Revision.reset with world := 2, team := 4, grid := 5, st := .ended, forker := (1, 3, 7), joins := [(1, 5)], order := 4 }
    let s (l : SMap Revision) : State := { tst with revs := l }
    let one := s [(3, r)]
    let two := s [(3, r), (2, { r with order := 1, st := .live })]
    ((one.revAt 3).st = .ended ∧ (one.slotAt (4 * 1 + 3)).active = false ∧ ∀ x ∈ one.revs, x.1 = 3 ∧ x.2.parent ≠ some 3)
    ∧ one.mergeQuiet 3 = true ∧ (∃ x ∈ two.revs, x.2.st ≠ .merged ∧ x.2.order < (two.revAt 3).order)
    ∧ ((s [(3, { r with broken := true })]).revAt 3).broken = true
    ∧ (one.revAt 3).resets = false ∧ ((s [(3, { r with resets := true })]).revAt 3).resets = true
    ∧ (({ s [(3, { r with forker := (1, 2, 99) })] with cores := tst.cores }).slotAt (4 * 1 + 2)).active = true := by decide +kernel

/-- A leased page of a cluster and one that is not; a write of the kernel that starts an invalidation, one that does not, another
writer; an invalidation that a lease refuses and one that ends. -/
theorem witness_TranslationAndInvalidation :
    let inv (all : Bool) (va : Nat) : State := tst.updPart 1 fun p => { p with invgo := true, invall := all, invva := va }
    let leased (s : State) (c pg : Nat) : Bool := match (s.coreAt c).team with
      | some t => ((s.gridAt (s.teamAt t).grid).leases.find? fun q => q.1 == pg).isSome
      | none => false
    leased tst 0 0x10 = true ∧ leased tst 0 0x20 = false ∧ leased tst 16 0x10 = false
    ∧ tst.accepts = true ∧ (tst.partAt 1).wid = 2 ∧ 258 = 256 + (tst.partAt 1).wid ∧ 3 ≠ 256 + (tst.partAt 1).wid
    ∧ (tst.partAt 1).invgo = false ∧ 2 ^ 63 / 2 ^ 63 % 2 = 1 ∧ 5 / 2 ^ 63 % 2 ≠ 1 ∧ ((inv true 0).partAt 1).invgo = true
    ∧ (∃ x ∈ (inv false 0x10000).grids, x.2.world = 2 ∧ x.2.st = .live ∧ ∃ l ∈ x.2.leases, l.1 = 0x10000 / 4096)
    ∧ (∀ x ∈ (inv false 0x90000).grids, ∀ l ∈ x.2.leases, l.1 ≠ 0x90000 / 4096)
    ∧ (let line : L1Line := { va := 0x90040, key := 7, valid := true, way := 0, pin := some 4 }
       let s : State := { ((inv false 0x90000).updCore 1 fun c => { c with l1 := [(0, [line])] }).updTeam 4 (fun t => { t with pins := 1 }) with
         touch := [(2 * 2 ^ 45 + 0x90, 3), (2 * 2 ^ 45 + 0x91, 3)] }
       1 ∈ s.coresOf 2 ∧ (s.partAt 1).invgo = true ∧ (s.partAt 1).invall = false ∧ line.va / 4096 = (s.partAt 1).invva / 4096
       ∧ (∃ l ∈ SMap.look [] (s.coreAt 1).l1 0, l.pin = some 4) ∧ (s.teamAt 4).pins = 1 ∧ SMap.look 0 s.touch (2 * 2 ^ 45 + 0x90) = 3) := by decide +kernel

/-- A kernel's write that publishes, one that does not, another writer; a revocation whose next line is to be visited and one that
is not; times before the pre-emption and at it; and one that has nothing left, with an activation that still runs and without. -/
theorem witness_RevocationSteps :
    let r : Revocation := { at_ := 0, stamp := 60, acts := [(6, 99)], marks := [(0, 0)], sweep := [] }
    let s (r : Revocation) (now : Nat) (gtb : Nat) : State := { tst.updWorld 2 fun w => { w with rev := some r, gtb := gtb } with now := now }
    let t := s r 1000 0
    let u : State := { (s { r with acts := [(6, 98)] } 1000 0) with owners := [] }
    let mine := 0x300000 / 64
    let v : State := { t with tags := [(mine, true)] }
    tst.accepts = true ∧ 258 = 256 + (tst.partAt 1).wid ∧ 2 ^ 63 / 2 ^ 63 % 2 = 1 ∧ (tst.worldAt 2).live = true ∧ (tst.worldAt 2).rev = none
    ∧ (t.worldAt 2).rev = some r ∧ t.drained 2 r = true ∧ (u.unswept 2 { r with acts := [(6, 98)] }).isEmpty = true
    ∧ v.drained 2 r = true ∧ v.sweepable 2 mine = true ∧ SMap.look 0 r.sweep (sweeper mine) ≤ mine
    ∧ (∀ k ∈ v.unswept 2 r, sweeper k = sweeper mine → mine ≤ k) ∧ (v.cohAt mine).pend = none
    ∧ t.sweepable 2 0x7FFFFFF = false ∧ (1000 : Nat) < 0 + 2 ^ 21 ∧ 0 + 2 ^ 21 ≤ 2097152
    ∧ (∃ a ∈ r.acts, a.1 = 6 ∧ (t.slotAt 6).active = true ∧ (t.slotAt 6).actid = a.2)
    ∧ (u.drained 2 { r with acts := [(6, 98)] } = true ∧ ∀ x ∈ [(6, 98)], (u.slotAt x.1).actid ≠ x.2) := by decide +kernel

/-- A queued store, a load's request of the other die's proxy and a host's access that meet at one home, with and without one
another, and alone; a core's own stash, its L1, its die's home, and the other die's home with each state of the proxy. -/
theorem witness_PortTies :
    let lk := 0x300800 / 64
    let o : Out := { outAt 0 0 with place := { somewhere with kind := .dev, key := 0x300800, va := 0x10800, home := 3 } }
    let s (script : List Instr) (line : Nat) (f : LineCoh → LineCoh) : State :=
      { withSl fun sl => { sl with out := [o] } with
        script := script, coh := [(line, f { LineCoh.reset with slice := 3 })], ports := { tst.ports with streams := [(3, some 2)] } }
    let asks (c : LineCoh) : LineCoh := { c with req := some .shared }
    let own (f : LineCoh → LineCoh) : State := s [] lk f
    let at_ (home : Nat) : Place := { o.place with home := home }
    let a := Arrival.store 1 2 0
    let g := Arrival.grant lk
    Arrival.of (.writeUpdate 1 2 0) = some a ∧ Arrival.of (.grant lk) = some g ∧ (s [] lk id).script = []
    ∧ (s [] lk id).request (.store 1 2 1) = none ∧ (s [.grant lk] lk asks).script = .grant lk :: []
    ∧ (s [.grant lk] lk asks).request a = some { line := lk, home := 3, port := .own }
    ∧ (s [.grant lk] lk asks).request g = some { line := lk, home := 3, port := .towpath }
    ∧ (s [.writeUpdate 1 2 0] lk asks).request a = some { line := lk, home := 3, port := .own }
    ∧ (s [.grant lk] lk asks).request (.host 3 lk false []) = some { line := lk, home := 3, port := .host }
    ∧ (s [.hostAccess 3 (lk + 1) false []] lk asks).request (.host 3 (lk + 1) false []) = some { line := lk + 1, home := 0, port := .host }
    ∧ (s [.grant lk] lk asks).rival a = some (g, ((s [.grant lk] lk asks).sliceAt 3).prio, some 3) ∧ (s [] lk id).rival a = none
    ∧ ((own fun c => { c with owner := some 1 }).cohAt (lineKey o.place.key)).owner = some 1
    ∧ ((tst.updCore 1 fun c => c.fillL1 0x10800 lk).coreAt 1).inL1 (lineKey o.place.key) = true
    ∧ (∀ p ∈ [Moesi.I, .S, .E, .M, .O], ((own fun c => { c with proxy := p }).cohAt (lineKey o.place.key)).proxy = p)
    ∧ dieOf 1 = (at_ 3).home / 64 ∧ dieOf 1 ≠ (at_ 67).home / 64 ∧ (at_ 67).kind = .dev := by decide +kernel

/-- A queued write whose line has become a code frame, another world's or of a spill area, and one that may go on, with its
activation there and gone. -/
theorem witness_RefusedWrites :
    let o : Out := { outAt 0 0 with place := { somewhere with kind := .dev, key := 0x300800, va := 0x10800, home := 3 } }
    let s : State := withSl fun sl => { sl with out := [o] }
    s.refusesOut 6 o = false ∧ { s with frames := [(0x300, 1)] }.refusesOut 6 o = true ∧ { s with owners := [] }.refusesOut 6 o = true
    ∧ { s with revs := [(3, { Revision.reset with world := 2, st := .live, spill := (capOf 0x10800 0x20 2 0).reg })] }.refusesOut 6 o = true
    ∧ (s.slotAt 6).actid = o.actid ∧ (s.slotAt 6).actid ≠ { o with actid := 98 }.actid := by decide +kernel

/-- A queued write of each kind of memory that may go: a scratchpad, host, peer and device memory, a line of the core's own stash,
a code frame; one that may not; one that meets nothing; a write sent to sharers before and after their answers, with each reply,
behind an eviction's notice and not; and an invalidation awaited. -/
theorem witness_WritesLeave :
    let o (kind : PKind) (key : Nat) : Out := { outAt 0 0 with
      op := .data (el 0x10800 64 0) 5, seq := 3, place := { somewhere with kind := kind, key := key, va := 0x10800, home := 3 } }
    let s (x : Out) : State := withSl fun sl => { sl with out := [x] }
    let dev := o .dev 0x300800
    let lk := 0x300800 / 64
    let late : State := (s dev).updSl fun sl => { sl with owed := [{ owing 3 (.load .s32 (el 0x10000 32 0)) none with acq := true, seq := 1 }] }
    let d : Pend := { core := 1, slot := 2, seq := 3, idx := 0, proxy := false, op := dev.op, whole := false, sent := [5], held := []
                      replies := [(6, .applied), (7, .gone), (8, .none)] }
    let p (d : Pend) : State := { s { dev with lvl := 1, stamp := 3 } with coh := [(lk, { LineCoh.reset with slice := 3, pend := some d })] }
    let two : State := (s dev).updSlot 5 fun sl => { sl with active := true, out := [dev] }
    (∀ k ∈ [PKind.win, .mint, .host, .peer, .dev], ((s (o k 0x300800)).slotAt 6).out[0]? = some (o k 0x300800)
        ∧ (o k 0x300800).isSluice = false ∧ (s (o k 0x300800)).outReady 6 (o k 0x300800) = true
        ∧ (s (o k 0x300800)).targetOf none (o k 0x300800).place.la = none)
    ∧ ((s dev).slotAt 6).out[1]? = none ∧ late.outReady 6 dev = false
    ∧ (s dev).rival (.store 1 2 0) = none ∧ (∀ k ∈ [PKind.win, .mint, .host, .peer, .dev], (s (o k 0x300800)).refusesOut 6 (o k 0x300800) = false)
    ∧ { s dev with frames := [(0x300, 1)] }.refusesOut 6 dev = true
    ∧ ((s dev).cohAt lk).owner ≠ some 1 ∧ ({ s dev with coh := [(lk, { LineCoh.reset with owner := some 1 })] }.cohAt lk).owner = some 1
    ∧ ((s dev).cohAt lk).pend = none ∧ ((p d).cohAt lk).pend = some d ∧ 5 ∈ d.sent ∧ 6 ∉ d.sent
    ∧ d.replies = [] ++ (6, .applied) :: [(7, .gone), (8, .none)] ∧ (∀ x ∈ d.replies, x.1 ≠ 9)
    ∧ ((p { d with sent := [], replies := [] }).slotAt 6).out = [] ++ { dev with lvl := 1, stamp := 3 } :: []
    ∧ 4 * d.core + d.slot = 6 ∧ dev.place.key / 64 = lk ∧ dev.got ≤ dev.lvl
    ∧ ({ tst with coh := [(lk, { LineCoh.reset with snoop := some .invAck, inval := [(1, 2, 3, 4)] })] }.cohAt lk).snoop = some .invAck
    ∧ (two.slotAt 5).out[0]? = some dev
    ∧ (∀ z ∈ [true, false], ((p d).updCore 7 fun c => { c with notices := [(lk, z)] }).coreAt 7 |>.notices.contains (lk, z))
    ∧ (p d).revs = [] ∧ dieOf 1 = dev.place.home / 64 ∧ (s { dev with place := { dev.place with stash := true } }).stashBanks 1 ≠ 0
    ∧ (let far : Out := { dev with lvl := 1, place := { dev.place with home := 67 } }
       let q : State := { s far with coh := [(lk, { LineCoh.reset with slice := 67, proxy := .M, pend := some { d with proxy := true, sent := [], replies := [] } })] }
       dieOf 1 ≠ far.place.home / 64 ∧ (q.cohAt lk).proxy = .M ∧ (q.cohAt lk).owner = none ∧ q.refusesOut 6 far = false) := by decide +kernel

/-- A directory of a slice. -/
def directed (d : List Region) : State := { tst.updSlice 3 (fun x => { x with dir := d }) with now := 70000 }

/-- A region of two to the k lines. -/
def region (base k used : Nat) : Region := { base := base, k := k, used := used, split := 0 }

theorem oldestRegion_replicate (a : Region) : ∀ n, oldestRegion (List.replicate (n + 1) a) = some a
  | 0 => rfl
  | n + 1 => by rw [List.replicate_succ, oldestRegion, oldestRegion_replicate a n]; simp

/-- A full directory. -/
theorem witness_directoryFull :
    8192 ≤ ((directed (List.replicate 8192 (region 0 3 1))).sliceAt 3).dir.length
    ∧ oldestRegion ((directed (List.replicate 8192 (region 0 3 1))).sliceAt 3).dir = some (region 0 3 1) := by
  have h : ((directed (List.replicate 8192 (region 0 3 1))).sliceAt 3).dir = List.replicate 8192 (region 0 3 1) := rfl
  rw [h, List.length_replicate]
  exact ⟨Nat.le_refl _, oldestRegion_replicate _ 8191⟩

/-- Siblings that merge and regions without one; a directory with room; lines held by an L1, pinned, by a stash and by none;
notices with and without something before them; a core that asks for a line of a stash page, a line that no core asks for. -/
theorem witness_RegionsAndEvictions :
    let a := region 2 0 5
    let b := region 3 0 7
    let s := directed [region 8 0 1, a, b]
    let line (k : Nat) (pin : Option Nat) : L1Line := { va := 64 * k, key := k, valid := true, way := 0, pin := pin }
    let e : StashLine := { va := 0x10000, key := 9, written := true, loc := 0 }
    let c (n : List (Nat × Bool)) : State := tst.updCore 1 fun x => { x with
      l1 := [(7, [line 7 none]), (8, [line 8 (some 4)])], stash := [{ e with key := 6 }, e], notices := n }
    let d : Pend := { core := 1, slot := 2, seq := 3, idx := 0, proxy := false, op := .data (el 0x10000 32 0) 5, whole := false, sent := [], held := [], replies := [] }
    let p (d : Pend) : State := { c [(7, false)] with coh := [(7, { LineCoh.reset with pend := some d })] }
    let asks := { (tst.updSlot 6 fun sl => { sl with owed := [owing 2 (.load .s32 (el 0x10000 32 0)) none] }) with
      grids := [(5, { tst.gridAt 5 with leases := [(0x10, { lease 0x300 0 1 3 with leaf := (lease 0x300 0 1 3).leaf ||| BitVec.ofNat 64 (2 ^ 56) })] })] }
    ((s.sliceAt 3).dir = [region 8 0 1] ++ a :: [b] ∧ (s.sliceAt 3).dir[0]? = some (region 8 0 1) ∧ (s.sliceAt 3).dir[1]? = some a
      ∧ (s.sliceAt 3).dir[9]? = none ∧ (s.sliceAt 3).dir.length < 8192)
    ∧ (b.k = a.k ∧ a.k < 10 ∧ a.base % 2 ^ (a.k + 1) = 0 ∧ b.base = a.base + 2 ^ a.k ∧ a.split + 65536 ≤ s.now
      ∧ s.regionMask 0 a = s.regionMask 0 b ∧ s.coh = []) ∧ (∀ x ∈ (s.sliceAt 3).dir, x.base ≠ (region 8 0 1).base + 1)
    ∧ ((c []).coreAt 1).inStash 9 = true ∧ ((c []).coreAt 1).inStash 7 = false ∧ (∃ x ∈ ((c []).coreAt 1).l1, ∃ l ∈ x.2, l.key = 7 ∧ l.pin = none)
    ∧ (¬ ∃ x ∈ ((c []).coreAt 1).l1, ∃ l ∈ x.2, l.key = 8 ∧ l.pin = none) ∧ (∀ x ∈ ((c []).coreAt 1).notices, x.1 ≠ 7)
    ∧ ((c [(6, true), (7, false)]).coreAt 1).notices = [(6, true)] ++ (7, false) :: [] ∧ ((c []).cohAt 7).pend = none
    ∧ (((p { d with sent := [1] }).cohAt 7).pend = some { d with sent := [1] } ∧ 1 ∈ ({ d with sent := [1] } : Pend).sent)
    ∧ ((p { d with replies := [(1, .none)] }).cohAt 7).pend = some { d with replies := [(1, .none)] }
    ∧ (∀ j, j < 512 → tst.asksStash 0xC000 j = none)
    ∧ (asks.asksStash 0xC000 1).isSome = true ∧ 1 / 16 = 0 ∧ asks.asksStash 0xC000 0 = none ∧ (asks.coreAt 1).inStash 0xC000 = false
    ∧ (tst.cohAt 9).owner = none ∧ ({ c [] with coh := [(9, { LineCoh.reset with owner := some 1 })] }.cohAt 9).owner = some 1
    ∧ ((c []).coreAt 1).stash = [{ e with key := 6 }] ++ e :: [] := by decide +kernel

/-- A line of the other die, with a write of this die's core queued for it. -/
def dies (w : Bool) (f : LineCoh → LineCoh) : State :=
  let o : Out := { outAt 0 0 with
    op := .data (el 0x10800 64 0) 5, seq := 3, place := { somewhere with kind := .dev, key := 0x300800, va := 0x10800, home := 67 } }
  let s := withSl fun sl => { sl with out := if w then [o] else [] }
  { s with
    grids := [(5, { s.gridAt 5 with leases := [(0x10, lease 0x300 0 1 67)] })]
    coh := [(0xC020, f { LineCoh.reset with slice := 67, pcopy := { bits := 7, tag := true } })] }

/-- A line of the other die in each state that a request, a snoop, a grant, an answer and a write-back ask for. -/
theorem witness_DieOwnership :
    let s (w : Bool) (p h : Moesi) : State := dies w fun c => { c with proxy := p, home := h }
    let at_ (w : Bool) (p h : Moesi) : LineCoh := (s w p h).cohAt 0xC020
    let req (w : Bool) (r : PReq) (p : Moesi) : State := dies w fun c => { c with req := some r, proxy := p }
    let snoop (q : Snoop) (p : Moesi) : State := dies false fun c => { c with snoop := some q, proxy := p, home := p }
    let back (q : Option Snoop) : State := dies false fun c => { c with snoop := q, wback := some { bits := 9, tag := true } }
    let o := ((dies true id).slotAt 6).out.getD 0 (outAt 0 0)
    ((at_ true .I .I).proxy = .I ∧ (at_ true .I .I).req = none ∧ (at_ true .I .I).wback = none ∧ (at_ true .S .S).proxy = .S)
    ∧ (at_ true .O .O).proxy = .O ∧ ((dies true id).proxyWrite 0xC020).isSome = true ∧ ((dies false id).proxyWrite 0xC020).isSome = false
    ∧ ((at_ false .M .M).snoop = none ∧ (at_ false .M .M).pend = none ∧ (at_ false .M .M).owner = none ∧ (at_ false .E .E).home = .E
      ∧ (at_ false .O .O).home = .O)
    ∧ (∀ w ∈ [true, false], ∀ r ∈ [PReq.shared, .upgrade, .exclusive], ∀ p ∈ [Moesi.I, .S, .O], ((req w r p).cohAt 0xC020).req = some r
      ∧ ((req w r p).cohAt 0xC020).proxy = p)
    ∧ (dies false id).holders 1 0xC020 = [] ∧ ((dies false id).cohAt 0xC020).host = .I
    ∧ (((dies false id).updCore 300 fun x => x.fillL1 0x10800 0xC020).holders 1 0xC020).isEmpty = false
    ∧ ((dies true id).proxyWrite 0xC020) = some (6, o)
    ∧ (dies true id).rival (.grant 0xC020) = none ∧ ((dies true id).cohAt 0xC020).slice < 128
    ∧ ((dies true fun c => { c with host := .M }).cohAt 0xC020).host ≠ .I
    ∧ ((dies true id).refusesOut 6 o = false ∧ o.place.kind = .dev ∧ o.place.stash = false
      ∧ ((dies true id).rehome ((dies true id).who 6) o.place).home = 67 ∧ (dies true id).touchPage ((dies true id).who 6) o.place.va = dies true id)
    ∧ (∀ q ∈ [Snoop.read, .inval, .invAck], ∀ p ∈ [Moesi.M, .O, .E, .S], ((snoop q p).cohAt 0xC020).snoop = some q
      ∧ ((snoop q p).cohAt 0xC020).proxy = p ∧ ((snoop q p).cohAt 0xC020).wback = none)
    ∧ ∀ q ∈ [none, some Snoop.read, some .inval, some .invAck], ((back q).cohAt 0xC020).wback = some { bits := 9, tag := true }
      ∧ ((back q).cohAt 0xC020).proxy = .I ∧ ((back q).cohAt 0xC020).snoop = q := by decide +kernel

/-- A line of the world's memory, for the outside agents. -/
def shared (f : LineCoh → LineCoh) : State :=
  { tst with
    coh := [(0xC020, f LineCoh.reset)], frames := [(0x301, 1)]
    ports := { tst.ports with streams := [(3, some 2), (5, some 9), (6, some 0), (40, some 2)], fkeys := [(2, 1), (9, 4)] } }

/-- A device that takes no access; lines of the world, of another, of a code frame and outside; a CXL stream, a plain one, one of
world 0 and one of none; each state of the home and the host; a pair with a key and without one, and with something held before
it; and the device's own memory in the host's. -/
theorem witness_OutsideAccesses :
    let s := shared id
    let off : State := { s with fw := { s.fw with minver := 9 } }
    let held : Pend := { core := 1, slot := 2, seq := 3, idx := 0, proxy := false, op := .line (el 0x10800 512 0) CapReg.null
                         whole := false, sent := [], held := [], replies := [] }
    let busy := shared fun c => { c with pend := some held }
    let own (line : Nat) : Prop := 64 * line < 2 ^ 37 ∧ 64 * line % 2 ^ 36 < 0xFF8000000 ∧ s.chunkOwner (64 * line) = 2 ∧ s.spillLine line = false
    off.accepts = false ∧ s.accepts = true ∧ (busy.cohAt 0xC020).pend ≠ none ∧ (s.cohAt 0xC020).pend = none
    ∧ (SMap.look none s.ports.streams 3 = some 2 ∧ SMap.look none s.ports.streams 40 = some 2 ∧ SMap.look none s.ports.streams 6 = some 0
      ∧ SMap.look none s.ports.streams 9 = none ∧ 32 ≤ 40 ∧ (40 : Nat) < 64)
    ∧ { s with owners := [(1, 0)] }.chunkOwner (64 * 0xC020) = 0
    ∧ own 0xC020 ∧ SMap.look 0 s.frames (0xC020 / 64) = 0 ∧ own 0xC040 ∧ SMap.look 0 s.frames (0xC040 / 64) ≠ 0
    ∧ s.chunkOwner (64 * 0x80000) ≠ 2 ∧ ¬ 64 * 0x3FE00000 % 2 ^ 36 < 0xFF8000000
    ∧ (∀ p ∈ [Moesi.M, .O, .E, .S, .I], let c := (shared fun c => { c with proxy := p, pcopy := { bits := 0, tag := false } }).cohAt 0xC020
        c.proxy = p ∧ c.snoop = none ∧ c.wback = none ∧ c.owner = none ∧ (c.pcopy = s.lineAt (64 * 0xC020)))
    ∧ ((s.finishPend 0xC020).cohAt 0xC020).snoop = none ∧ ((s.finishPend 0xC020).cohAt 0xC020).wback = none ∧ (s.finishPend 0xC020).revs = []
    ∧ (∀ wr ∈ [true, false], s.rival (.host 40 0xC020 wr [5]) = none ∧ s.rival (.peer 0 2 0xC020 wr [5]) = none)
    ∧ ((shared fun c => { c with owner := some 1 }).cohAt 0xC020).owner ≠ none ∧ ((shared fun c => { c with host := .M }).cohAt 0xC020).host = .M
    ∧ s.revs = [] ∧ (s.cohAt 0xC020).host = .I ∧ ((shared fun c => { c with host := .E }).cohAt 0xC020).host = .E
    ∧ 256 * (0 % 2) + 2 % 256 ∈ s.ports.fkeys.keys ∧ 256 * (0 % 2) + 3 % 256 ∉ s.ports.fkeys.keys
    ∧ SMap.look [] s.ports.resend (256 * 0 + 2 % 256) = []
    ∧ SMap.look [] ({ s with ports := { s.ports with resend := [(2, [7])] } }).ports.resend (256 * 0 + 2 % 256) ≠ []
    ∧ (List.replicate 65 (0 : Byte)).length = 65 ∧ (2 : Nat) ^ 58 ≤ 2 ^ 58
    ∧ ({ tst with coh := [(2 ^ 58, { LineCoh.reset with home := .M })] }.cohAt (2 ^ 58)).home = .M := by decide +kernel

/-- A device with keys for the pairs of world 2. -/
def ported (f : Ports → Ports) : State :=
  let s := withSl fun sl => { sl with stop := .hold (.release 9 60), hostDirty := [0x12], out := [] }
  { s with ports := f { s.ports with fkeys := [(2, 1)] } }

/-- A round with a marker to come; a host release that may go; a run that may go, one without a key, one too long, one on a failed
path, one behind runs kept and behind a stale key; the runs kept; keys to be installed. -/
theorem witness_FabricAndRounds :
    let s := ported id
    let r : Round := { num := 1, core := 1, slot := 2, world := 2, paths := [0, 2], got := [2], done := false }
    let rounds := ported fun p => { p with rounds := [r] }
    let kept := ported fun p => { p with resend := [(2, [4, 5])] }
    let bad := ported fun p => { p with stale := [(2, true)], resend := [(2, [4])], failed := [3] }
    rounds.ports.rounds[0]? = some r ∧ r.core = 1 ∧ 0 ∈ r.paths ∧ 0 ∉ r.got ∧ r.world = 2
    ∧ SMap.look false kept.ports.stale 2 = false ∧ SMap.look [] rounds.ports.resend 2 = [] ∧ SMap.look [] kept.ports.resend 2 = 4 :: [5]
    ∧ SMap.look [] kept.ports.resend (256 * 2 + 2) = [] ∧ SMap.look [] bad.ports.resend 2 = 4 :: []
    ∧ (let e := ending 2 none [3] [{ r with core := 512 + 5, slot := 0, done := true }]
       e.gridEnds (517 - 512) = true ∧ (e.gridAt 5).hostRelease = true ∧ (∃ q ∈ e.ports.rounds, q.core = 517 ∧ q.slot = 0 ∧ q.done = true))
    ∧ s.gridEnds (517 - 512) = false
    ∧ (s.slotAt 6).stop = .hold (.release 9 60) ∧ s.releaseOk 6 (s.slotAt 6).seq 6 60 = true ∧ (∃ x ∈ (ported fun p => { p with rounds := [{ r with done := true }] }).ports.rounds, x.of 6 = true ∧ x.done = true)
    ∧ (tst.slotAt 6).stop = Slot.reset.stop
    ∧ 2 ∈ s.ports.fkeys.keys ∧ (4 : Nat) ≤ 64 ∧ ¬ (65 : Nat) ≤ 64 ∧ 3 ∈ bad.ports.failed ∧ 0 ∉ bad.ports.failed
    ∧ SMap.look false bad.ports.stale 2 = true ∧ 258 ∉ s.ports.fkeys.keys ∧ s.accepts = true
    ∧ ({ s with fw := { s.fw with minver := 9 } } : State).accepts = false := by
  decide +kernel

/-- Partition 1, changed. -/
def owned (f : Part → Part) : State := tst.updPart 1 f

/-- A driver that owns the partition, an expired lease, writes of both agents in one cycle, an idle ring and one that is not, a ring
after a gap; the kernel, the monitor and the other writers; and offsets of each kind. -/
theorem witness_PartitionRegisters :
    let s := owned fun p => { p with mid := 3, lease := 2 ^ 20, leaseAt := 900, gen := 4 }
    let late : State := { owned (fun p => { p with mid := 3, lease := 1, leaseAt := 0, gen := 4 }) with now := 2 ^ 20 }
    let two : State := { s with script := [.own 1 3 7] }
    let ring (h t : Word) : State := owned fun p => { p with mid := 3, lease := 2 ^ 20, leaseAt := 900, rhead := h, rtail := t, cqhead := h, cqtail := t }
    (s.partAt 1).mid = 3 ∧ ¬ (s.partAt 1).leaseAt + (s.partAt 1).lease * 2 ^ 20 ≤ s.now ∧ s.accepts = true
    ∧ (late.partAt 1).mid ≠ 0 ∧ (late.partAt 1).leaseAt + (late.partAt 1).lease * 2 ^ 20 ≤ late.now
    ∧ (2 ^ 32 * 4 + 2 ^ 48 * 3) / 2 ^ 32 % 2 ^ 16 = (s.partAt 1).gen ∧ (7 : Nat) / 2 ^ 32 % 2 ^ 16 ≠ (s.partAt 1).gen
    ∧ s.script.head?.isNone = true ∧ two.script = [.own 1 3 7] ∧ (1 : Nat) ≤ 1 ∧ (15 : Nat) < 16
    ∧ (ring 5 5).partAt 1 = { (ring 5 5).partAt 1 with rtail := 5, cqwait := [] } ∧ ((ring 5 6).partAt 1).rhead ≠ ((ring 5 6).partAt 1).rtail
    ∧ ((ring 5 6).partAt 1).cqtail ≠ ((ring 5 6).partAt 1).cqhead ∧ 16 % 2 ^ 64 = 2 ^ 4 ∧ 65536 % 2 ^ 64 = 2 ^ 16
    ∧ ((owned fun p => { p with rst := .gap, expseq := 7 }).partAt 1).rst = .gap ∧ (7 : Word).toNat ≤ 7
    ∧ 258 = 256 + (s.partAt 1).wid ∧ (0x020 : Nat) ∉ [0x008, 0x010, 0x040, 0x048] ∧ 0x108 % 16 = 8 ∧ 0x2F8 % 8 = 0 ∧ 0x2F8 < 0x300
    ∧ (0x104 : Nat) % 8 ≠ 0 := by decide +kernel

/-- A ring that is not ready, one whose entry has no key, and completion entries with room and without. -/
theorem witness_CommandsAndCompletions :
    let s (t : Word) (q : RingSt) : State := owned fun p => { p with rtail := t, rst := q }
    let c (l : List (BitVec 128)) (h t : Word) : Part := ((owned fun p => { p with cqwait := l, cqhead := h, cqtail := t }).partAt 1)
    ((s 0 .run).partAt 1).rhead = ((s 0 .run).partAt 1).rtail ∧ ((s 1 .gap).partAt 1).rst ≠ .run
    ∧ (s 1 .run).accepts = true ∧ ((s 1 .run).partAt 1).rst = .run ∧ ((s 1 .run).partAt 1).rhead ≠ ((s 1 .run).partAt 1).rtail
    ∧ ((s 1 .run).partAt 1).rkey = 0 ∧ (c [] 0 0).cqwait = [] ∧ (c [7, 8] 4 20).cqwait = 7 :: [8]
    ∧ ((c [7, 8] 4 20).cqtail - (c [7, 8] 4 20).cqhead).toNat = (c [7, 8] 4 20).cqsize
    ∧ ((c [7, 8] 5 20).cqtail - (c [7, 8] 5 20).cqhead).toNat ≠ (c [7, 8] 5 20).cqsize := by decide +kernel

/-- A partition without a world, one in reset and one with a world; the writer and another; masks that are free and that another
partition has; and a partition that another world drove before, or the same one, with the same masks and with others. -/
theorem witness_PartitionResets :
    let free (f : Part → Part) : State := tst.updPart 3 fun p => f { p with sl := 5 }
    let s := free id
    let w (cl : Nat) : Nat := 9 + 2 ^ 8 * cl
    tst.accepts = true ∧ (tst.partAt 1).wid ≠ 0xFE ∧ (s.partAt 3).wid = 0xFE ∧ (s.partAt 3).prstgo = false
    ∧ ((free fun p => { p with prstgo := true }).partAt 3).prstgo = true ∧ (s.partAt 3).lastWid = 0xFE
    ∧ ((free fun p => { p with lastWid := 8 }).partAt 3).lastWid ≠ 9 ∧ w 0 % 2 ^ 8 = 9 ∧ 0xFE % 2 ^ 8 = 0xFE
    ∧ (∀ q ∈ s.parts, q.1 = 3 ∨ q.2.cl &&& (w 0 / 2 ^ 8 % 2 ^ 32) = 0 ∧ q.2.sl &&& (w 0 / 2 ^ 40 % 2 ^ 128) = 0
        ∧ q.2.ifs &&& (w 0 / 2 ^ 168 % 2 ^ 16) = 0 ∧ q.2.fl &&& (w 0 / 2 ^ 184 % 2 ^ 16) = 0)
    ∧ (∃ q ∈ s.parts, q.1 ≠ 3 ∧ q.2.cl &&& (w 1 / 2 ^ 8 % 2 ^ 32) ≠ 0)
    ∧ (let x := (tst.updPart 4 fun p => { p with lastWid := 9 }).partAt 4
       (x.lastWid = w 0 % 2 ^ 8 ∧ x.cl = w 0 / 2 ^ 8 % 2 ^ 32 ∧ x.sl = w 0 / 2 ^ 40 % 2 ^ 128 ∧ x.ifs = w 0 / 2 ^ 168 % 2 ^ 16
         ∧ x.fl = w 0 / 2 ^ 184 % 2 ^ 16)
       ∧ x.cl ≠ w 1 / 2 ^ 8 % 2 ^ 32)
    ∧ (tst.worldAt 2).live = true ∧ (∃ g ∈ tst.grids, g.2.part = 1) ∧ (s.partAt 3).sl / 2 ^ 2 % 2 = 1 := by decide +kernel

/-- What a world is made from, aligned and placed, and what is not, and numbers that are taken; a world with activations and one without; chunks that may be
given away and that may not; compartments that are new and that are not. -/
theorem witness_Worlds :
    let cfg : Nat := 0x40000 + 2 ^ 112 * 9 + 2 ^ 128 * 0x41000 + 2 ^ 192 * 0x42000 + 2 ^ 256 * 0x43000 + 2 ^ 448 * 0x47000 + 2 ^ 512 * 0x444000
      + 2 ^ 576 * 0x45000 + 2 ^ 640 * 0x46000
    let f (lo : Nat) : Nat := cfg / 2 ^ lo % 2 ^ 64
    let s := tst.updWorld 3 fun w => { w with live := true, ncm := 9 }
    (f 448 % 64 = 0 ∧ f 256 % 64 = 0 ∧ f 192 % 4096 = 0 ∧ f 128 % 16 = 0 ∧ f 512 % 64 = 0 ∧ f 576 % 64 = 0
      ∧ f 576 + 65600 ≤ 2 ^ 57 ∧ f 640 % 64 = 0 ∧ f 640 + 1024 ≤ 2 ^ 57)
    ∧ (let m : State := { tst with owners := [(0, 0xFF), (1, 2), (2, 5)] }
       let lies (o a len : Nat) : Prop := ∀ x ∈ [a, a + len - 1], backed x = true ∧ m.chunkOwner x = o
       (0x4000 ≤ f 128 ∧ lies 0xFF (f 128) 160) ∧ (0x4000 ≤ f 448 ∧ lies 0xFF (f 448) 64) ∧ lies 5 (f 512) 1024
       ∧ m.chunkOwner 0x344000 ≠ 5 ∧ 5 < 0xFE)
    ∧ (∀ x ∈ tst.worlds, (∀ a ∈ [x.2.ctb, x.2.ctb + 16 * x.2.ncm + 15], a / 2 ^ 21 ≠ 1) ∧ x.2.policy = none)
    ∧ (∃ x ∈ (tst.updWorld 3 fun w => { w with live := true, ctb := 0x210000 }).worlds, x.2.live = true ∧ x.2.ctb / 2 ^ 21 = 1)
    ∧ (tst.worldAt 5).live = false ∧ tst.fw.succeeded = true ∧ f 512 + 1024 < 2 ^ 64 ∧ (∀ k, k < 16 → f 512 + 64 * k ≠ 64 * 5)
    ∧ (rootBlock (f 576))[11]?.isSome = true ∧ (tst.worldAt 2).live = true ∧ tst.worldSlots 2 ≠ [] ∧ (∃ k ∈ tst.worldSlots 2, (tst.slotAt k).committed = none)
    ∧ (s.worldAt 3).live = true ∧ s.worldSlots 3 = [] ∧ tst.chunksOf 2 ≠ [] ∧ (tst.gridAt 5).world = 2 ∧ (tst.partAt 1).wid = 2
    ∧ (1 : Nat) < 2 ^ 16 ∧ 1 * 2 ^ 21 % 2 ^ 36 < 0xFF8000000 ∧ ¬ 0x7FFF * 2 ^ 21 % 2 ^ 36 < 0xFF8000000 ∧ 0x300000 / 2 ^ 21 = 1
    ∧ 9 ≤ (s.worldAt 3).ncm ∧ (SMap.look Cmpt.reset (s.worldAt 3).cmpts 9).used = false ∧ ¬ 10 ≤ (s.worldAt 3).ncm
    ∧ (SMap.look Cmpt.reset (tst.worldAt 2).cmpts 7).valid = true ∧ (SMap.look Cmpt.reset (tst.worldAt 2).cmpts 8).valid = false
    ∧ (∃ o ∈ (tst.worldAt 2).objs.keys, (tst.objAt 2 o).cmpt = 7) := by decide +kernel

/-- Lines of memory and of a core's system area, in service and out of it; a world without a policy, with one whose period has
passed and with one whose period has not. -/
theorem witness_ErrorsAndRefresh :
    let sys (o : Nat) : Nat := (512 + 1) * 2 ^ 58 + o / 64
    let s (per : Nat) : State := tst.updWorld 2 fun w => { w with policy := some 0, period := per }
    ¬ (512 ≤ 0xC020 / 2 ^ 58 ∧ 0xC020 / 2 ^ 58 < 1024) ∧ 512 ≤ sys 0x2C000 / 2 ^ 58 ∧ sys 0x2C000 / 2 ^ 58 < 1024
    ∧ 0x2C000 ≤ 64 * sys 0x2C000 % 2 ^ 64 ∧ ¬ 0x2C000 ≤ 64 * sys 0x2BFC0 % 2 ^ 64 ∧ sys 0x2C000 / 2 ^ 58 - 512 = 1
    ∧ (tst.coreAt 1).oos = false ∧ ((tst.updCore 1 fun c => { c with oos := true }).coreAt 1).oos = true ∧ (tst.coreAt 1).team = some 4
    ∧ ((done.slotAt 6).active = true ∧ (done.slotAt 6).committed ≠ none ∧ (tst.slotAt 6).committed = none)
    ∧ (let r := (revised.revAt 3)
       let y : Revision := { r with spill := (capOf 0x11000 0x20 16 0).reg }
       y.st ≠ .merged ∧ y.regions.length = 1 ∧ (tst.gridAt y.grid).leases.any fun l =>
         l.1 == (y.headerAt + 64 * 3 + 64) / 4096 && (l.2.at_ (y.headerAt + 64 * 3 + 64)).2 / 64 == 0x301100 / 64)
    ∧ (tst.worldAt 2).policy = none ∧ ((s 9).worldAt 2).policy = some 0 ∧ ((s 9).worldAt 2).period ≠ (s 9).now / max 1024 0
    ∧ ((s 0).worldAt 2).period = (s 0).now / max 1024 0 ∧ tst.counterOwner 0 1 = 2 ∧ counterAssigned 0 1 = true := by decide +kernel

/-- Slots that may boot, a slot on trial, slots that may not boot; starts that skip a step and that do not; and fetches that are
taken and that are not. -/
theorem witness_StartsAndFirmware :
    let s := tst
    let trial : State := { s with fw := { s.fw with slotB := { Bundle.reset with valid := true, pending := true, version := 3 } } }
    let on : State := { trial with fw := { trial.fw with trial := true } }
    let none_ : State := { s with fw := { s.fw with minver := 9 } }
    let warm : State := { s with fw := { s.fw with sram := 5, slotA := { s.fw.slotA with hash := 5, fails := 2 } } }
    (s.fw.slotA.valid = true ∧ s.fw.minver ≤ s.fw.slotA.version ∧ s.fw.slotB.pending = false ∧ s.fw.active = false)
    ∧ (trial.fw.slotB.pending = true ∧ trial.fw.slotB.valid = true ∧ trial.fw.minver ≤ trial.fw.slotB.version)
    ∧ ¬ none_.fw.minver ≤ none_.fw.slotA.version ∧ none_.accepts = false ∧ s.accepts = true
    ∧ (warm.fw.succeeded = true ∧ warm.fw.sram = warm.fw.slotA.hash
      ∧ warm.fw.linkReset = false ∧ 2 ≤ warm.fw.slotA.fails ∧ s.fw.slotA.fails < 2)
    ∧ s.fw.sram = 0 ∧ s.fw.trial = false ∧ on.fw.trial = true ∧ (1 : Nat) ≤ 6 := by decide +kernel

/-- A die whose temperature is 10 kelvin below that of the stored training, and one that is 11 below. -/
theorem witness_StartsAndFirmware_training :
    let s (d : Nat) : State := { tst with fw := { tst.fw with trained := Config.dieTemp tst.fresh + d } }
    Config.dieTemp (s 10).fresh ≤ (s 10).fw.trained + 10 ∧ (s 10).fw.trained ≤ Config.dieTemp (s 10).fresh + 10
    ∧ ¬ (s 11).fw.trained ≤ Config.dieTemp (s 11).fresh + 10 := by
  refine ⟨?_, Nat.le_refl _, ?_⟩
  · show Config.dieTemp tst.fresh ≤ Config.dieTemp tst.fresh + 10 + 10
    omega
  · show ¬ Config.dieTemp tst.fresh + 11 ≤ Config.dieTemp tst.fresh + 10
    omega

/-- Way pairs with a pinned line and without; banks of each use, and of a core with no team; a slice's pair with a line under way and
without; gated units; a clock that stands, of a core whose team has another that stands, and one that runs. -/
theorem witness_PowerAndClocks :
    let line (pin : Option Nat) : L1Line := { va := 0x1C0, key := 7, valid := true, way := 2, pin := pin }
    let s (pin : Option Nat) : State := tst.updCore 1 fun c => { c with l1 := [(7, [line pin])], gated := [2, 17, 27] }
    let pend : Pend := { core := 1, slot := 2, seq := 3, idx := 0, proxy := false, op := .line (el 0x10800 512 0) CapReg.null, whole := false, sent := [], held := [], replies := [] }
    let sl (c : SMap LineCoh) : State := { tst.updSlice 3 (fun x => { x with ways := [(4, 0xC021)], gated := [1] }) with coh := c }
    let still : State := (tst.updCore 1 fun c => { c with stopped := some 900 }).updCore 0 fun c => { c with stopped := some 800 }
    let one := tst.updCore 1 fun c => { c with stopped := some 900 }
    1 ∉ ((s none).coreAt 1).gated ∧ 2 ∈ ((s none).coreAt 1).gated ∧ (line none).way / 2 = 1 ∧ (line (some 4)).pin ≠ none
    ∧ (∃ x ∈ ((s none).coreAt 1).l1, ∃ l ∈ x.2, l.way / 2 = 1 ∧ l.valid = true ∧ l.pin = none)
    ∧ tst.bankUse 1 0 = .named ∧ tst.bankUse 1 4 = .plane ∧ tst.bankUse 1 9 = .stash ∧ tst.bankUse 1 12 = .system ∧ (tst.coreAt 9).team = none
    ∧ 25 ∉ (tst.coreAt 1).gated ∧ 17 ∈ ((s none).coreAt 1).gated
    ∧ 1 ∈ ((sl []).sliceAt 3).gated ∧ 2 ∉ ((sl []).sliceAt 3).gated ∧ 4 % 16 / 2 = 2 ∧ ((sl []).cohAt 0xC020).pend = none
    ∧ ((sl [(0xC020, { LineCoh.reset with pend := some pend })]).cohAt 0xC020).pend ≠ none
    ∧ (still.coreAt 1).stopped = some 900 ∧ (still.slotAt 6).active = true ∧ (∃ i ∈ (still.teamAt 4).coreList, i ≠ 1 ∧ (still.coreAt i).stopped ≠ none)
    ∧ (∀ i ∈ (one.teamAt 4).coreList, i = 1 ∨ (one.coreAt i).stopped = none) ∧ (tst.coreAt 1).stopped = none := by decide +kernel

/-- An instruction with a false guard; an engine instruction while no chain is open, while the slot's own is, and while another
slot's is. -/
theorem witness_FalseGuardDoesNothing :
    let gf := { g with gp := 2 }
    let i := Instr.addImm gf .z32 7 7 3
    let e := Instr.mmb gf 0 0 1 .b8 .b32
    let ok (i : Instr) : Bool := WellFormed i && match encodeFields i with
      | some f => gives (ctl f) gf && !(decide (0x60 ≤ f.op) && decide (f.op ≤ 0x8B)) && !(decide (0x53 ≤ f.op) && decide (f.op ≤ 0x56))
      | none => false
    ok i = true ∧ ok e = true ∧ tst.sl.guard gf = false ∧ tst.core.engine.chain = none
    ∧ ({ tst with cores := [(1, { tst.core with engine := { tst.core.engine with chain := some 2 } })] } : State).core.engine.chain = some (tst.cur % 4)
    ∧ (let t : State := { tst with cores := [(1, { tst.core with engine := { tst.core.engine with chain := some 3 } })] }
       t.core.engine.chain = some 3 ∧ 3 ≠ t.cur % 4 ∧ t.sl.guard gf = false) := by
  decide +kernel

/-- How a fetch of slot 0 ends: an instruction, a word that decodes to none, a fault, a wait. -/
def fetched (t : State) : Nat × Option Instr := match (t.fetchWith 0).1 with
  | .bytes b => match decode (wordOfBytes b) with
    | .ok i => (0, some i)
    | .error _ => (1, none)
  | .fault _ _ => (2, none)
  | .unverified => (3, none)

/-- Fetches that give an instruction, that give none, that fault and that wait; a scheduled event; and nothing scheduled. -/
theorem witness_StepRunsDecoded :
    let o : CodeObj := codeObj 12 0 [5] [(0, true)]
    let s := fetching 0 0 o
    let br : State := { s with mem := Memory.setBytes s.mem 0x200000 (bytesOfWord (BitVec.ofNat 96 (0x35 + 2 ^ 64 * 0xFFFFFFFD))) }
    fetched br = (0, some (.br g 0xFFFFFFFD)) ∧ fetched s = (1, none) ∧ fetched (fetching 0 12 o) = (2, none)
    ∧ ((fetching 0 0 (codeObj 12 0 [5] [])).fetchWith 0).1 = .unverified ∧ { s with issuing := true }.issuing = true
    ∧ ({ s with script := [.machineCheck 0] } : State).script = .machineCheck 0 :: [] ∧ (encode (.machineCheck 0)).isNone = true
    ∧ s.issuing = false ∧ s.script = [] := by decide +kernel

theorem witness_EncodeDecodeRoundTrip : ∃ w, WellFormed (.br g 5) = true ∧ encode (.br g 5) = some w := by
  exact ⟨(encode (.br g 5)).getD 0, by decide +kernel⟩

theorem witness_MemoryStaysCanonical :
    let s : State := { tst with script := [.hostLinkReset] }
    MemoryCanonical s ∧ ∃ t, step s = .next t := ⟨by unfold MemoryCanonical; decide +kernel, _, rfl⟩

/-- A script of events. -/
theorem witness_NothingEndsARun : (∀ i r, ({ tst with script := [.coldStart] } : State).script = i :: r → encode i = none) := by
  intro i r h
  cases h
  rfl

/-- A group that is marked and one that is not, at the last and the first of a cell. -/
theorem witness_MmfCells :
    let sa (g : Nat) : Bool × Int := (g == 3, 5)
    (sa 3).1 = true ∧ (sa 0).1 = false ∧ (3 : Nat) < 4 ∧ (63 : Nat) < 64 := by decide +kernel

/-- Both nibbles, the widest element, bytes beside it, and the first byte of the next line. -/
theorem witness_WritesChangeMemory : (1 : Nat) < 2 ∧ 64 ∈ [8, 16, 32, 64] ∧ 64 / 8 = 8 ∧ (0x10807 : Nat) < 0x10808 ∧ 0x10808 + 64 / 8 ≤ 0x10810
    ∧ 0x10840 / 64 ≠ 0x10808 / 64 := by decide +kernel

/-! ### A command entry whose tag verifies, whatever the tag function is -/

theorem look_run {α : Type} (d : α) (k : Nat) (f : Nat → α) :
    ∀ n a i, a ≤ i → i < a + n → SMap.look d ((List.range' a n).map fun j => (k + j, f j)) (k + i) = f i
  | 0, _, _, h1, h2 => absurd h1 (by omega)
  | n + 1, a, i, h1, h2 => by
    simp only [List.range'_succ, List.map_cons, SMap.look]
    by_cases h : k + a = k + i
    · obtain rfl : a = i := by omega
      simp
    · rw [if_neg h]; exact look_run d k f n (a + 1) i (by omega) (by omega)

theorem leNum_run (v : Nat) : ∀ n o,
    leNum ((List.range n).map fun j => BitVec.ofNat 8 (v / 2 ^ (8 * (o + j)))) = v / 2 ^ (8 * o) % 2 ^ (8 * n)
  | 0, o => by simp [leNum, Nat.mod_one]
  | n + 1, o => by
    have ih := leNum_run v n (o + 1)
    simp only [leNum] at ih ⊢
    rw [List.range_succ_eq_map, List.map_cons, List.map_map, List.foldr_cons]
    have e : (fun j => BitVec.ofNat 8 (v / 2 ^ (8 * (o + j)))) ∘ Nat.succ = fun j => BitVec.ofNat 8 (v / 2 ^ (8 * (o + 1 + j))) := by
      funext j; simp only [Function.comp]; congr 4; omega
    rw [e, ih, show 8 * (n + 1) = 8 + 8 * n by omega, Nat.pow_add, Nat.mod_mul, show 8 * (o + 1) = 8 * o + 8 by omega, Nat.pow_add,
      Nat.div_div_eq_div_mul]
    simp

/-- The 256 bytes of a number in host memory, as a ring's entry. -/
def ringBytes (v : Nat) : Memory := (List.range' 0 256).map fun j => (memKey .host 0 + j, BitVec.ofNat 8 (v / 2 ^ (8 * j)))

theorem ringBytes_get (v k : Nat) (h : k < 256) : (ringBytes v).get (memKey .host 0 + k) = BitVec.ofNat 8 (v / 2 ^ (8 * k)) :=
  look_run memDefault _ (fun j => BitVec.ofNat 8 (v / 2 ^ (8 * j))) 256 0 k (by omega) (by omega)

theorem ringBytes_bytes (v o n : Nat) (h : o + n ≤ 256) :
    (ringBytes v).getBytes (memKey .host 0 + o) n = (List.range n).map fun j => BitVec.ofNat 8 (v / 2 ^ (8 * (o + j))) := by
  refine List.map_congr_left fun j hj => ?_
  rw [List.mem_range] at hj
  rw [Nat.add_assoc, ringBytes_get _ _ (by omega)]

theorem ringBytes_num (v o n : Nat) (h : o + n ≤ 256) : (ringBytes v).num (memKey .host 0 + o) n = v / 2 ^ (8 * o) % 2 ^ (8 * n) := by
  rw [Memory.num, ringBytes_bytes v o n h, leNum_run]

theorem low_mod {a b r : Nat} (h : a < b) : (a + b * r) % b = a := by rw [Nat.add_mul_mod_self_left, Nat.mod_eq_of_lt h]

theorem low_div {a b r : Nat} (h : a < b) : (a + b * r) / b = r := by
  rw [Nat.add_mul_div_left _ _ (by omega), Nat.div_eq_of_lt h, Nat.zero_add]

theorem leBytes_eq {n a b : Nat} (h : ∀ j, j < n → a / 2 ^ (8 * j) % 256 = b / 2 ^ (8 * j) % 256) : leBytes n a = leBytes n b := by
  refine List.map_congr_left fun j hj => ?_
  have := h j (List.mem_range.1 hj)
  apply BitVec.eq_of_toNat_eq
  simpa using this

/-- The first line of an entry: KIND 1, SEQ 0 and a tag. -/
def entryHead (t : BitVec 128) : Nat := 2 ^ 64 + 2 ^ 384 * t.toNat

/-- Its other lines: a record, and grant 0 for its first line alone. -/
def entryRest (l : Line) : Nat := l.toNat + 2 ^ 512 * (2 ^ 160 - 2 ^ 32)

/-- The entry as the device reads it. -/
def entryCmd (l : Line) (t : BitVec 128) : Command :=
  { tag := t, kind := 1, seq := 0, rec_ := l
    body := leBytes 48 (2 ^ 64) ++ List.replicate 16 0 ++ leBytes 192 (entryRest l)
    head := BitVec.ofNat 512 (entryHead t), l2 := BitVec.ofNat 512 (2 ^ 160 - 2 ^ 32), l3 := 0 }

/-- The machine with the entry in its ring, and one grant line, which holds no capability. -/
def ringed (l : Line) (t : BitVec 128) : State :=
  let s := ((tasked 0).updWorld 2 fun w => { w with rootView := (capOf 0x10000 3 64 3).reg }).updGrid 0 fun g => { g with
    leases := [(0x10, lease 0x300 0 1 3)] }
  { s.updPart 1 (fun p => { p with rkey := 5, rsize := 16, rtail := 1, rst := .run, grant := 0x10000, gcount := 1 }) with mem := ringBytes (entryHead t + 2 ^ 512 * entryRest l) }

theorem entryHead_lt (t : BitVec 128) : entryHead t < 2 ^ 512 := by
  have h := Nat.mul_le_mul_left (2 ^ 384) (Nat.le_sub_one_of_lt t.isLt)
  exact Nat.lt_of_le_of_lt (Nat.add_le_add_left h _) (by decide)

theorem entryHead_fields (t : BitVec 128) : entryHead t / 2 ^ 384 % 2 ^ 128 = t.toNat ∧ entryHead t / 2 ^ 64 % 2 ^ 8 = 1
    ∧ entryHead t % 2 ^ 64 = 0 ∧ entryHead t / 2 ^ 72 % 2 ^ 312 = 0 := by
  have e (n m : Nat) (h : n + m = 384) : entryHead t = 2 ^ 64 + 2 ^ n * (2 ^ m * t.toNat) := by
    rw [← Nat.mul_assoc, ← Nat.pow_add, h]; rfl
  refine ⟨?_, ?_, ?_, ?_⟩
  · rw [entryHead, low_div (by decide), Nat.mod_eq_of_lt t.isLt]
  · rw [e 72 312 rfl, show (2 : Nat) ^ 72 = 2 ^ 64 * 2 ^ 8 from rfl, Nat.mul_assoc, Nat.add_mul_div_left _ _ (by decide),
      Nat.add_mul_mod_self_left] <;> rfl
  · rw [e 64 320 rfl, Nat.add_mul_mod_self_left] <;> rfl
  · rw [e 72 312 rfl, low_div (by decide), Nat.mul_mod_right]

theorem entryHead_bytes (t : BitVec 128) : leBytes 48 (entryHead t) = leBytes 48 (2 ^ 64) := by
  refine leBytes_eq fun j hj => ?_
  have e : entryHead t = 2 ^ 64 + 2 ^ (8 * j) * (2 ^ 8 * (2 ^ (376 - 8 * j) * t.toNat)) := by
    rw [← Nat.mul_assoc, ← Nat.mul_assoc, ← Nat.pow_add, ← Nat.pow_add, show 8 * j + 8 + (376 - 8 * j) = 384 by omega]; rfl
  rw [e, Nat.add_mul_div_left _ _ (Nat.pow_pos (by decide))]
  exact Nat.add_mul_mod_self_left _ (2 ^ 8) _

theorem ringed_command (l : Line) (t : BitVec 128) (p : Part) (h : p.rbase = 0) :
    (ringed l t).commandAt p 0 = entryCmd l t := by
  obtain ⟨f1, f2, f3, _⟩ := entryHead_fields t
  have hk : memKey .host (p.rbase + 256 * (0 % p.rsize)) = memKey .host 0 := by rw [h, Nat.zero_mod]
  have hm : (ringed l t).mem = ringBytes (entryHead t + 2 ^ 512 * entryRest l) := rfl
  have hr (k : Nat) : (entryHead t + 2 ^ 512 * entryRest l) / 2 ^ (512 + k) = entryRest l / 2 ^ k := by
    rw [Nat.pow_add, ← Nat.div_div_eq_div_mul, low_div (entryHead_lt t)]
  have h0 : Memory.num (ringed l t).mem (memKey .host 0) 64 = entryHead t := by
    rw [hm, ← Nat.add_zero (memKey .host 0), ringBytes_num _ _ _ (by decide), Nat.mul_zero, Nat.pow_zero, Nat.div_one]
    exact low_mod (entryHead_lt t)
  have hn (i : Nat) (hi : i < 3) : Memory.num (ringed l t).mem (memKey .host 0 + 64 * (i + 1)) 64 = entryRest l / 2 ^ (512 * i) % 2 ^ 512 := by
    rw [hm, ringBytes_num _ _ _ (by omega), show 8 * (64 * (i + 1)) = 512 + 512 * i by omega, hr]
  have hb : Memory.getBytes (ringed l t).mem (memKey .host 0 + 64) 192 = leBytes 192 (entryRest l) := by
    rw [hm, ringBytes_bytes _ _ _ (by decide)]
    refine List.map_congr_left fun j _ => ?_
    rw [show 8 * (64 + j) = 512 + 8 * j by omega, hr]
  have e : (BitVec.ofNat 512 (entryHead t)).toNat = entryHead t := by
    rw [BitVec.toNat_ofNat, Nat.mod_eq_of_lt (entryHead_lt t)]
  have r0 : entryRest l % 2 ^ 512 = l.toNat := low_mod l.isLt
  have r1 : entryRest l / 2 ^ 512 = 2 ^ 160 - 2 ^ 32 := low_div l.isLt
  unfold State.commandAt entryCmd
  dsimp -failIfUnchanged only
  rw [hk, hb, Nat.mul_zero, Nat.add_zero, h0, e, entryHead_bytes]
  rw [Command.mk.injEq]
  refine ⟨?_, f2, ?_, ?_, rfl, rfl, ?_, ?_⟩
  · apply BitVec.eq_of_toNat_eq; rw [BitVec.extractLsb'_toNat, e, Nat.shiftRight_eq_div_pow, f1]
  · apply BitVec.eq_of_toNat_eq; rw [BitVec.toNat_ofNat, f3]; rfl
  · apply BitVec.eq_of_toNat_eq; rw [hn 0 (by decide), BitVec.toNat_ofNat, Nat.mod_mod, Nat.mul_zero, Nat.pow_zero, Nat.div_one, r0]
  · rw [hn 1 (by decide), Nat.mul_one, r1]; decide +kernel
  · rw [hn 2 (by decide), show 512 * 2 = 512 + 512 from rfl, Nat.pow_add, ← Nat.div_div_eq_div_mul, r1]; decide +kernel

theorem entry_grants (l : Line) (t : BitVec 128) (i : Nat) (hi : i < 5) : (entryCmd l t).grantIdx i = if i = 0 then 0 else 0xFFFFFFFF :=
  (by decide +kernel : ∀ i, i < 5 → bitsOf (BitVec.ofNat 512 (2 ^ 160 - 2 ^ 32)).toNat (32 * i) 32 = if i = 0 then 0 else 0xFFFFFFFF) i hi

/-- What the entry names: grant 0, and none for the other lines. -/
theorem entry_names (s : State) (l : Line) (t : BitVec 128) (h0 : ({ data := l, caps := [] } : Rec).cmode = 0)
    (hn : 0 < (s.partAt 1).gcount.toNat) :
    (entryCmd l t).fieldsOk (s.partAt 1).gcount.toNat false = true
    ∧ s.commandIdx 1 (entryCmd l t) = some [0, 0xFFFFFFFF, 0xFFFFFFFF, 0xFFFFFFFF] := by
  have hh : bitsOf (entryCmd l t).head.toNat 72 312 = 0 := by
    rw [bitsOf, entryCmd, BitVec.toNat_ofNat, Nat.mod_eq_of_lt (entryHead_lt t)]; exact (entryHead_fields t).2.2.2
  have hg := entry_grants l t
  have h2 : bitsOf (entryCmd l t).l2.toNat 160 352 = 0 :=
    (by decide +kernel : bitsOf (BitVec.ofNat 512 (2 ^ 160 - 2 ^ 32)).toNat 160 352 = 0)
  have hf : (entryCmd l t).fieldsOk (s.partAt 1).gcount.toNat false = true := by
    simp only [Command.fieldsOk, hh, h2, Bool.and_eq_true, List.all_eq_true, List.mem_range]
    refine ⟨⟨⟨⟨⟨rfl, rfl⟩, rfl⟩, beq_self_eq_true (0 : Line)⟩, fun i hi => ?_⟩, by simp⟩
    rw [hg i (by omega)]
    by_cases e : i = 0 <;> simp [e, hn]
  refine ⟨hf, ?_⟩
  have hc : (({ data := (entryCmd l t).rec_, caps := [] } : Rec).cmode == 1) = false := by
    rw [show (entryCmd l t).rec_ = l from rfl, h0]; rfl
  simp only [State.commandIdx, hc, hf, Bool.not_true, Bool.false_eq_true, if_false, Bool.false_and]
  simp [List.range_succ, hg]

/-- What the entry brings, when its grant line holds nothing: its record and four null lines. -/
theorem entry_record (s : State) (l : Line) (t : BitVec 128) (h0 : ({ data := l, caps := [] } : Rec).cmode = 0)
    (hn : 0 < (s.partAt 1).gcount.toNat) (hl : s.grantLine 1 0 = some CapReg.null) :
    s.commandRec 1 (entryCmd l t) = some { data := l, caps := List.replicate 4 CapReg.null } := by
  have none_ : s.grantLine 1 0xFFFFFFFF = some CapReg.null := by simp [State.grantLine]
  simp only [State.commandRec, (entry_names s l t h0 hn).2, Option.bind_some, List.filterMap_cons, hl, none_, List.filterMap_nil]
  rfl

/-- A grant line in a page whose placement no first touch decides is read without a record of it. -/
theorem touchGrant_placed (s : State) (l : Lease)
    (h : s.schedLease (s.schedWho (s.partAt 1).wid 1 0) ((s.partAt 1).grant.toNat + 64 * 0) = some l)
    (hl : ¬ firstTouch l.leaf.toNat) : s.touchGrant 1 0 = s := by
  rw [State.touchGrant, if_neg (by decide), State.schedTouch, h]
  simp [State.noteTouch, hl]

/-- An entry that verifies and is accepted: the first grid of its world, with the view of the root block as its capability. -/
theorem witness_commandAccepted : ∃ l t,
    let s := ringed l t
    let x := s.partAt 1
    let c := s.commandAt x x.rhead.toNat
    let named : Rec := { data := c.rec_, caps := [] }
    let u := ((List.range 4).map fun i => c.grantIdx (if named.cmode = 1 ∧ i = named.ncap then 4 else i)).foldl (fun a j => a.touchGrant 1 j)
      (s.updPart 1 fun _ => { x with
        rhead := x.rhead + 1, expseq := c.seq + 1, rst := if c.seq + 1 = 0 then .rekey else .run })
    s.accepts = true ∧ x.rst = .run ∧ x.rhead ≠ x.rtail ∧ x.rkey ≠ 0
    ∧ Config.gcmTag x.rkey (c.seq.toNat * 2 ^ 32 + 1) c.body = c.tag ∧ c.seq = x.expseq ∧ (s.worldAt x.wid).begun = false
    ∧ c.fieldsOk x.gcount.toNat (named.cmode == 1) = true ∧ c.grantIdx 0 ≠ 0xFFFFFFFF
    ∧ x.queue.length < 64 ∧ ∃ r0, u.commandRec 1 c = some r0 ∧ r0.ncap ≠ 0 ∧ (r0.cap 1).tag = false
      ∧ u.recordCode x.wid 0 true 0 0 Rec.empty { r0 with caps := (s.worldAt x.wid).rootView :: r0.caps.tail } = 0
      ∧ u.windowsOverlap 1 { r0 with caps := (s.worldAt x.wid).rootView :: r0.caps.tail } = false := by
  let l (k : Nat) : Line := recLine k (launchRest 40)
  let t (k : Nat) : BitVec 128 := Config.gcmTag 5 1 (entryCmd (l k) 0).body
  let u (k : Nat) : State := (ringed (l k) (t k)).updPart 1 fun x => { x with rhead := 1, expseq := 1, rst := .run }
  let r (k : Nat) : Rec := { data := l k, caps := (capOf 0x10000 3 64 3).reg :: List.replicate 3 CapReg.null }
  have a : ∀ k, k < 8 → fits true (u k) (r k) 2 0 0 Rec.empty = true ∧ (r k).stg = k ∧ (r k).ncap ≠ 0
      ∧ (u k).windowsOverlap 1 (r k) = false ∧ (u k).grantLine 1 0 = some CapReg.null
      ∧ ({ data := l k, caps := [] } : Rec).cmode = 0 ∧ 0 < ((u k).partAt 1).gcount.toNat
      ∧ (u k).schedLease ((u k).schedWho ((u k).partAt 1).wid 1 0) (((u k).partAt 1).grant.toNat + 64 * 0) = some (lease 0x300 0 1 3) := by
    decide +kernel
  obtain ⟨h1, h2, h3, h4, h5, h6, hn, h7⟩ := a (Config.kernelStage kernelEntry % 8) (Nat.mod_lt _ (by decide))
  have hr := fits_code (cmpt := 0) h1 h2
  generalize Config.kernelStage kernelEntry % 8 = k at *
  have hc : (ringed (l k) (t k)).commandAt ((ringed (l k) (t k)).partAt 1) ((ringed (l k) (t k)).partAt 1).rhead.toNat
      = entryCmd (l k) (t k) := ringed_command _ _ _ rfl
  obtain ⟨hf, _⟩ := entry_names (u k) (l k) (t k) h6 hn
  have hm : (({ data := (entryCmd (l k) (t k)).rec_, caps := [] } : Rec).cmode) = 0 := h6
  have hu : ((List.range 4).map fun i => (entryCmd (l k) (t k)).grantIdx
        (if ({ data := (entryCmd (l k) (t k)).rec_, caps := [] } : Rec).cmode = 1
          ∧ i = ({ data := (entryCmd (l k) (t k)).rec_, caps := [] } : Rec).ncap then 4 else i)).foldl (fun a j => a.touchGrant 1 j)
      ((ringed (l k) (t k)).updPart 1 fun _ => { (ringed (l k) (t k)).partAt 1 with
        rhead := ((ringed (l k) (t k)).partAt 1).rhead + 1, expseq := (entryCmd (l k) (t k)).seq + 1
        rst := if (entryCmd (l k) (t k)).seq + 1 = 0 then .rekey else .run }) = u k := by
    have g : ((List.range 4).map fun i => (entryCmd (l k) (t k)).grantIdx
        (if ({ data := (entryCmd (l k) (t k)).rec_, caps := [] } : Rec).cmode = 1
          ∧ i = ({ data := (entryCmd (l k) (t k)).rec_, caps := [] } : Rec).ncap then 4 else i))
        = [0, 0xFFFFFFFF, 0xFFFFFFFF, 0xFFFFFFFF] := by
      simp [List.range_succ, entry_grants, hm]
    have hx : (ringed (l k) (t k)).updPart 1 (fun _ => { (ringed (l k) (t k)).partAt 1 with
        rhead := ((ringed (l k) (t k)).partAt 1).rhead + 1, expseq := (entryCmd (l k) (t k)).seq + 1
        rst := if (entryCmd (l k) (t k)).seq + 1 = 0 then .rekey else .run }) = u k := by rfl
    have none_ (s : State) : s.touchGrant 1 0xFFFFFFFF = s := by simp [State.touchGrant]
    rw [g, hx]
    simp only [List.foldl, none_]
    exact touchGrant_placed _ _ h7 (by decide +kernel)
  refine ⟨l k, t k, ?_⟩
  dsimp only
  rw [hc, hu]
  have hp : (ringed (l k) (t k)).partAt 1
      = { tst.partAt 1 with rkey := 5, rsize := 16, rtail := 1, rst := .run, grant := 0x10000, gcount := 1 } := rfl
  have hs : (entryCmd (l k) (t k)).seq = 0 := rfl
  have hb : (entryCmd (l k) (t k)).body = (entryCmd (l k) 0).body := rfl
  have hz : (({ data := (entryCmd (l k) (t k)).rec_, caps := [] } : Rec).cmode == 1) = false := by rw [hm]; rfl
  have h0 : (entryCmd (l k) (t k)).grantIdx 0 ≠ 0xFFFFFFFF := by rw [entry_grants _ _ 0 (by decide)]; decide
  rw [hz, hp, hs, hb]
  exact ⟨by rfl, by rfl, by decide +kernel, by decide +kernel, rfl, by decide +kernel, by rfl, hf, h0, by decide +kernel, _,
    entry_record _ _ _ h6 hn h5, h3, rfl, hr, h4⟩

/-! ## Small steps, with the results of the spec's worked examples -/

/-- The value of x6 after an instruction. -/
def x6 (i : Instr) (s : State) : Option Word := match exec i s with
  | .next t => some (t.sl.xr 6)
  | .fault _ => none
  | .refused _ => none

/-- The lines and flags that an instruction leaves in v6. -/
def v6 (i : Instr) (s : State) : Option (Nat × Word) := match exec i s with
  | .next t => some (lane 32 0 (t.sl.vr 6), t.sl.fflags)
  | .fault _ => none
  | .refused _ => none

/-- The issuing slot with lanes of 32 bits in v6, the rest `fill`. -/
def withV (l : List Nat) (fill : Nat) : State :=
  withSl fun sl => { sl with v := [(6, lanes 32 16 fun k => l.getD k fill)], p := [(1, 0xFFFD), (3, 0xFFFB)] }

/-- R115's encoding example, R110's two shifts, R113's constant in two instructions. -/
theorem test_scalarExamples :
    x6 (.addImm g .z32 6 6 3) (withX 0xFFFFFFFF) = some 2
    ∧ x6 (.shrImm g .s8 6 6 1) (withX 0x80) = some 0x40 ∧ x6 (.sarImm g .z8 6 6 1) (withX 0x80) = some 0xC0
    ∧ x6 (.li g .sext 6 0x88) tst = some 0x88 ∧ x6 (.li g (.upper 6) 6 0x40) (withX 0x88) = some 0x0000_0040_0000_0088 := by decide +kernel

/-- R109: the two cases with fixed results; R111: zero; R117: a signed and an unsigned order. -/
theorem test_scalarCorners :
    x6 (.divReg g .s64 6 3 2) tst = some 0x8000000000000000 ∧ x6 (.remReg g .s64 6 3 2) tst = some 0
    ∧ x6 (.divReg g .z16 6 1 0) tst = some 0xFFFF ∧ x6 (.remReg g .z16 6 1 0) tst = some 5 ∧ x6 (.divReg g .s16 6 1 0) tst = some 0xFFFFFFFFFFFFFFFF
    ∧ x6 (.clz g .s8 6 0) tst = some 8 ∧ x6 (.popc g .s64 6 2) tst = some 64
    ∧ x6 (.minReg g .s64 6 1 2) tst = some 0xFFFFFFFFFFFFFFFF ∧ x6 (.minReg g .z64 6 1 2) tst = some 5
    ∧ x6 (.mulhReg g .z64 6 2 2) tst = some 0xFFFFFFFFFFFFFFFE ∧ x6 (.mulhReg g .s64 6 2 2) tst = some 0 := by decide +kernel

/-- The strided view of "Tensor Capabilities": the slice, the two steps, the address of an element, and the footprint that
R252 computes. -/
theorem test_viewExample :
    let c : CapF := { capOf 0x4000000000 0x11 16 0 with rank := 2, ext1 := 16, sd1 := 16 }
    let s := withSl fun sl => { sl with c := [(1, c.reg)], x := [(6, 0x0000_0001_0000_0002)] }
    let after (i : Instr) (s : State) : State := match exec i s with
      | .next t => t
      | .fault _ => s
      | .refused _ => s
    let s1 := after (.csliceImmediate g 5 1 6 0x01010D0D) s
    let s3 := after (.cstepImmediate g 5 5 1 4) (after (.cstepImmediate g 5 5 0 4) s1)
    let f := (s3.sl.cr 5).f
    ((s1.sl.cr 5).f.base = 0x4000000024 ∧ (s1.sl.cr 5).f.ext0 = 13 ∧ (s1.sl.cr 5).f.ext1 = 13)
    ∧ (s3.sl.cr 5).tag = true ∧ f.base = 0x4000000024 ∧ f.ext0 = 4 ∧ f.ext1 = 4 ∧ f.sd0 = 4 ∧ f.sd1 = 64
    ∧ (f.elem { Coords.zero with k0 := 3, k1 := 3 }).va = 0x40000001BC ∧ f.footprint = some (0x4000000024, 0x40000001BD) := by
  decide +kernel

/-- R162's tree against the guard, and the first three rows of R167's ties, signed zeros and NaN, and its guarded one. -/
theorem test_treeAndTies :
    let sum := withV [0x4B800000, 0x3F800000, 0x3F800000, 0x3F800000] 0
    let ties := withV [0x3FC00000, 0x40000000, 0x40000000, 0xC0400000] 0xFF800000
    v6 (.vredFloat g .f32 .sum 6 6 (.mode .rne)) sum = some (0x4B800001, 1)
    ∧ v6 (.vredFloat { g with gp := 3 } .f32 .sum 6 6 (.mode .rne)) sum = some (0x4B800000, 1)
    ∧ x6 (.vargmaxFloat g .f32 6 6) ties = some 1 ∧ x6 (.vargmaxFloat g1 .f32 6 6) ties = some 2
    ∧ x6 (.vargmaxFloat g .f32 6 6) (withV [0x80000000, 0, 0xBF800000, 0xBF800000] 0xFF800000) = some 0
    ∧ x6 (.vargmaxFloat g .f32 6 6) (withV [0x3F800000, 0x7FC00000, 0x41100000, 0x7FC00000] 0xFF800000) = some 1 := by decide +kernel

/-- The group of "Number Formats" at two plane counts: R59's exponents and integers, R61's and R62's sums. -/
theorem test_groupExample :
    let a := [0x3FC0, 0xBE80, 0x4040, 0x3C00]
    let b := [0x4000, 0x3F80, 0xBF00, 0x4080]
    (stageGroup fpBf16 9 a).eg = 1 ∧ (stageGroup fpBf16 9 a).qs = [96, -16, 192, 0] ∧ (stageGroup fpBf16 9 a).inexact = true
    ∧ (stageGroup fpBf16 9 b).eg = 2 ∧ (stageGroup fpBf16 9 b).qs = [64, 32, -16, 128] ∧ (stageGroup fpBf16 9 b).inexact = false
    ∧ (stageGroup fpBf16 12 a).qs = [768, -128, 1536, 4] ∧ (stageGroup fpBf16 12 b).qs = [512, 256, -128, 1024]
    ∧ (stageGroup fpBf16 12 [0x4040, 0x3C01]).inexact = true
    ∧ mmfCell 9 9 [96, -16, 192, 0] [64, 32, -16, 128] (fun _ => (false, 1)) (fun _ => (false, 2)) 0 = (0x3FA00000, 0)
    ∧ mmfCell 12 12 [768, -128, 1536, 4] [512, 256, -128, 1024] (fun _ => (false, 1)) (fun _ => (false, 2)) 0 = (0x3FA40000, 0) := by
  decide +kernel

/-- The block of "Number Formats", scaled (R66) and drained (R68). -/
theorem test_blockExample : scaleTerm (-22) 0x50 0x80 = -540672 ∧ fpF32.deliver .rne (.fin true 540672 (-16)) = (0xC1040000, 0) := by
  decide +kernel

/-- The hashed home of R290's example, and the base of the second slot's trap frame in the window (R232, R283). -/
theorem test_placesExample :
    (tst.updPart 1 fun p => { p with slset := [(0, 0xF)] }).hashedHome 1 0 0x4000000088 = some 3 ∧ LW + frameOff 2 = 0x01FFFFFFFFFF2B00 := by
  decide +kernel

/-- The two children of the Junction's example: the second child's H[1], and the elements of F2 that the first child wrote and
did not (R272). -/
theorem test_mergeExample : mergeElem 3 0x07 32 3 5 0 = 8 ∧ mergeElem 2 0x07 32 7 9 0 = 7 ∧ mergeElem 2 0x07 32 0 9 0 = 9 := by decide

end Sys2Proof.Tests
end

section
/-!
What coherence leaves alone: an agent that makes a line current at its home, and writes it there, changes memory, counters,
the coherence state and the caches, and how far stores have been acknowledged (R299, R311 … R323). The fault log is
written so (R351).
-/

namespace Sys2Proof.Machine
open Sys2Proof.Safety

/-- The state without its memory, its coherence, its counters and its cores. -/
def offLine (s : State) : State :=
  { s with cores := [], mem := [], tags := [], poison := [], coh := [], slices := [], perf := [] }

/-- A core without its slots and its caches. -/
def offCache (c : Core) : Core := { c with slots := [], l1 := [], stash := [], notices := [] }

/-- A slot without its store queue. -/
def offQueue (sl : Slot) : Slot := { sl with out := [] }

/-- Work on lines alone. -/
structure LineWork (s u : State) : Prop where
  rest  : offLine u = offLine s
  cores : ∀ c, offCache (u.coreAt c) = offCache (s.coreAt c)
  slots : ∀ k, offQueue (u.slotAt k) = offQueue (s.slotAt k)

theorem LineWork.refl (s : State) : LineWork s s := ⟨rfl, fun _ => rfl, fun _ => rfl⟩

theorem LineWork.trans {s t u : State} (h : LineWork s t) (k : LineWork t u) : LineWork s u :=
  ⟨k.rest.trans h.rest, fun c => (k.cores c).trans (h.cores c), fun j => (k.slots j).trans (h.slots j)⟩

/-- A change of what no core holds. -/
theorem LineWork.of_cores {s u : State} (hr : offLine u = offLine s) (hc : u.cores = s.cores) : LineWork s u := by
  have hcore (c : Nat) : u.coreAt c = s.coreAt c := by rw [State.coreAt, State.coreAt, hc]
  refine ⟨hr, fun c => congrArg offCache (hcore c), fun k => congrArg offQueue ?_⟩
  rw [State.slotAt, State.slotAt, hcore]

/-- A change of a core's caches. -/
theorem LineWork.updCore (s : State) (c : Nat) (f : Core → Core) (hs : ∀ x, (f x).slots = x.slots)
    (hf : ∀ x, offCache (f x) = offCache x) : LineWork s (s.updCore c f) := by
  refine ⟨rfl, fun d => ?_, fun k => congrArg offQueue (State.slotAt_updCore s c k f hs)⟩
  rw [State.coreAt_updCore]
  split
  · next e => rw [hf, e]
  · rfl

/-- A change of a slot's store queue. -/
theorem LineWork.updSlot (s : State) (k : Nat) (f : Slot → Slot) (hf : ∀ x, offQueue (f x) = offQueue x) :
    LineWork s (s.updSlot k f) := by
  refine ⟨rfl, fun c => ?_, fun j => ?_⟩
  · rw [State.coreAt_updSlot]
    rfl
  · rw [State.slotAt_updSlot]
    split
    · next e => rw [hf, e]
    · rfl

theorem LineWork.foldl {α : Type} (f : State → α → State) (hf : ∀ s a, LineWork s (f s a)) (l : List α) :
    ∀ s, LineWork s (l.foldl f s) := by
  induction l with
  | nil => exact LineWork.refl
  | cons a l ih => exact fun s => (hf s a).trans (ih (f s a))

theorem updCoh_lineWork (s : State) (l : Nat) (f : LineCoh → LineCoh) : LineWork s (s.updCoh l f) := .of_cores rfl rfl

theorem updSlice_lineWork (s : State) (n : Nat) (f : Slice → Slice) : LineWork s (s.updSlice n f) := .of_cores rfl rfl

theorem count_lineWork (s : State) (k u n a : Nat) : LineWork s (s.count k u n a) := .of_cores rfl rfl

theorem moveLine_lineWork (s : State) (lk : Nat) (v : CapReg) : LineWork s (s.moveLine lk v) := .of_cores rfl rfl

theorem putLine_lineWork (s : State) (k : Nat) (v : CapReg) : LineWork s (s.putLine k v) := .of_cores rfl rfl

theorem putData_lineWork (s : State) (k : Nat) (bs : List Byte) : LineWork s (s.putData k bs) := .of_cores rfl rfl

theorem dropDie_lineWork (s : State) (die lk : Nat) : LineWork s (s.dropDie die lk) :=
  .foldl _ (fun t c => .updCore t c (·.dropL1 _) (fun _ => rfl) (fun _ => rfl)) _ s

theorem leaveSlice_lineWork (s : State) (slice lk : Nat) : LineWork s (s.leaveSlice slice lk) := by
  unfold State.leaveSlice
  split
  · exact updSlice_lineWork s _ _
  · exact .refl s

theorem finishWriteBack_lineWork (s : State) (lk : Nat) : LineWork s (s.finishWriteBack lk) := by
  unfold State.finishWriteBack
  split
  · exact (moveLine_lineWork s lk _).trans (updCoh_lineWork _ _ _)
  · exact .refl s

theorem doSnoopRead_lineWork (s : State) (lk : Nat) : LineWork s (s.doSnoopRead lk) := by
  unfold State.doSnoopRead
  dsimp only
  split
  · exact (moveLine_lineWork s lk _).trans (updCoh_lineWork _ _ _)
  · exact updCoh_lineWork s _ _
  all_goals exact .refl s

theorem doSnoopInval_lineWork (s : State) (lk : Nat) : LineWork s (s.doSnoopInval lk) := by
  have tail (t : State) (die slice : Nat) (f : LineCoh → LineCoh) :
      LineWork t (((t.dropDie die lk).leaveSlice slice lk).updCoh lk f) :=
    ((dropDie_lineWork t _ _).trans (leaveSlice_lineWork _ _ _)).trans (updCoh_lineWork _ _ _)
  unfold State.doSnoopInval
  dsimp only
  split
  · exact (moveLine_lineWork s lk _).trans (tail _ _ _ _)
  · exact (moveLine_lineWork s lk _).trans (tail _ _ _ _)
  all_goals exact tail s _ _ _

theorem ackInvalidated_lineWork (s : State) (lk : Nat) : LineWork s (s.ackInvalidated lk) := by
  unfold State.ackInvalidated
  refine (LineWork.foldl _ (fun t x => ?_) _ s).trans (updCoh_lineWork _ _ _)
  exact .updSlot t _ _ fun _ => rfl

theorem doInvalidate_lineWork (s : State) (lk : Nat) : LineWork s (s.doInvalidate lk) :=
  ((doSnoopInval_lineWork s lk).trans (ackInvalidated_lineWork _ lk)).trans (updCoh_lineWork _ _ _)

theorem settle_lineWork (s : State) (lk : Nat) : LineWork s (s.settle lk) := by
  have h := finishWriteBack_lineWork s lk
  unfold State.settle
  dsimp only
  split
  · exact (h.trans (doSnoopRead_lineWork _ lk)).trans (updCoh_lineWork _ _ _)
  · exact (h.trans (doSnoopInval_lineWork _ lk)).trans (updCoh_lineWork _ _ _)
  all_goals exact h

theorem recallHost_lineWork (s : State) (lk : Nat) (wr : Bool) : LineWork s (s.recallHost lk wr) := by
  unfold State.recallHost
  split
  · exact updCoh_lineWork s _ _
  · exact .refl s

theorem useStash_lineWork (s : State) (c lk : Nat) (wr : Bool) : LineWork s (s.updCore c fun x => x.useStash lk wr) := by
  refine .updCore s c _ (fun x => ?_) fun x => ?_
  all_goals
    unfold Core.useStash
    split <;> rfl

theorem outsideReady_lineWork (s : State) (lk : Nat) (wr : Bool) : LineWork s (s.outsideReady lk wr) := by
  have h := (settle_lineWork s lk).trans (recallHost_lineWork _ lk wr)
  unfold State.outsideReady
  dsimp only
  split
  · exact h.trans (useStash_lineWork _ _ _ _)
  · split
    · split
      · exact h
      · exact h.trans (doInvalidate_lineWork _ lk)
      all_goals exact h.trans (doSnoopInval_lineWork _ lk)
    · exact h.trans (doSnoopRead_lineWork _ lk)

theorem dropStash_lineWork (s : State) (core : Nat) (sel : StashLine → Bool) : LineWork s (s.dropStash core sel) := by
  unfold State.dropStash
  refine LineWork.trans ?_ (.foldl _ (fun t _ => updCoh_lineWork t _ _) _ _)
  exact .updCore s core _ (fun _ => rfl) (fun _ => rfl)

theorem flushRegion_lineWork (s : State) (slice : Nat) (r : Region) : LineWork s (s.flushRegion slice r) := by
  unfold State.flushRegion
  refine (LineWork.foldl _ (fun t x => ?_) _ s).trans (.foldl _ (fun t c => ?_) _ _)
  · exact (updCoh_lineWork t _ _).trans (count_lineWork _ _ _ _ _)
  · exact .updCore t c _ (fun _ => rfl) (fun _ => rfl)

theorem freeRegion_lineWork (s : State) (slice : Nat) (keep : Option Region) : LineWork s (s.freeRegion slice keep) := by
  unfold State.freeRegion
  split
  · exact .refl s
  · next r _ =>
    refine ((flushRegion_lineWork s slice r).trans (.foldl _ (fun t c => ?_) _ _)).trans (updSlice_lineWork _ _ _)
    exact (LineWork.updCore t c (·.dropL1 _) (fun _ => rfl) (fun _ => rfl)).trans (dropStash_lineWork _ c _)

theorem splitRegion_lineWork (s : State) (slice lk : Nat) : LineWork s (s.splitRegion slice lk) := by
  have tail (t : State) (f : Slice → Slice) : LineWork t ((t.updSlice slice f).count 2 slice 3 1) :=
    (updSlice_lineWork t _ _).trans (count_lineWork _ _ _ _ _)
  unfold State.splitRegion
  split
  · exact .refl s
  · next r _ =>
    split
    · exact .refl s
    · dsimp only
      split
      · exact (freeRegion_lineWork s slice (some r)).trans (tail _ _)
      · exact tail s _

theorem takeReply_lineWork (s : State) (slice lk : Nat) (r : Reply) : LineWork s (s.takeReply slice lk r) := by
  cases r with
  | none => exact splitRegion_lineWork s slice lk
  | applied => exact .refl s
  | gone => exact .refl s

theorem drainChannel_lineWork (s : State) (slice lk core : Nat) : LineWork s (s.drainChannel slice lk core) := by
  have tail (t : State) (f : Core → List (Nat × Bool)) : LineWork t (t.updCore core fun c => { c with notices := f c }) :=
    .updCore t core _ (fun _ => rfl) (fun _ => rfl)
  unfold State.drainChannel
  dsimp only
  split
  · refine ((updCoh_lineWork s _ _).trans (.foldl _ (fun t x => ?_) _ _)).trans (tail _ _)
    exact takeReply_lineWork t slice lk x.2
  · exact tail s _

theorem updateRound_lineWork (s : State) (slice lk : Nat) : LineWork s (s.updateRound slice lk) :=
  (count_lineWork s _ _ _ _).trans (.foldl _ (fun t c =>
    ((LineWork.updCore t c (·.acksArrive lk) (fun _ => rfl) (fun _ => rfl)).trans (drainChannel_lineWork _ slice lk c)).trans
      (takeReply_lineWork _ slice lk _)) _ _)

theorem homeRound_lineWork (s : State) (lk : Nat) : LineWork s (s.homeRound lk) := by
  unfold State.homeRound
  split
  · exact updateRound_lineWork s _ lk
  · exact .refl s

theorem homePut_lineWork (s : State) (k : Nat) (v : CapReg) : LineWork s (s.homePut k v) :=
  ((outsideReady_lineWork s _ _).trans (homeRound_lineWork _ _)).trans (putLine_lineWork _ k v)

theorem logAt_lineWork (s : State) (flog world : Nat) (f : FaultInfo) : LineWork s (s.logAt flog world f) :=
  ((((((outsideReady_lineWork s _ _).trans (homePut_lineWork _ _ _)).trans (homePut_lineWork _ _ _)).trans
    (homePut_lineWork _ _ _)).trans (homePut_lineWork _ _ _)).trans (homeRound_lineWork _ _)).trans (putData_lineWork _ _ _)

/-- A fault report changes nothing but the logs' lines. -/
theorem report_lineWork (s : State) (world : Nat) (f : FaultInfo) : LineWork s (s.report world f) := by
  have log (t : State) (c : Bool) (a : Nat) (g : FaultInfo) : LineWork t (if c then t.logAt a world g else t) := by
    cases c
    · exact .refl t
    · exact logAt_lineWork t a world g
  exact (log s _ _ _).trans (log _ _ _ _)

/-- What a slot is to do or reads does not depend on its store queue. -/
theorem LineWork.slot {s u : State} (h : LineWork s u) (k : Nat) {α : Type} (f : Slot → α) (hf : ∀ x, f (offQueue x) = f x) :
    f (u.slotAt k) = f (s.slotAt k) := by
  rw [← hf (u.slotAt k), h.slots k, hf]

end Sys2Proof.Machine
end

section
/-!
Loads at issue (R140 … R144, R149).
-/

namespace Sys2Proof.Machine
open Sys2Proof.Safety

theorem checkAt_ok {sl : Slot} {c : CapReg} {perm : List Nat} {ok : Nat → Bool} {k : Coords} {e : Elem}
    (h : check c sl.cmpt perm ok k = .ok e) : sl.checkAt c perm ok k = .ok e := by
  rw [Slot.checkAt, h]

/-- A scalar instruction whose check passes goes on with the element. -/
theorem guarded_checked (g : Ctl) (s : State) (c : CapReg) (perm : List Nat) (ok : Nat → Bool) (k : Coords) (e : Elem)
    (f : Elem → State) (hg : s.sl.guard g = true) (h : check c s.sl.cmpt perm ok k = .ok e) :
    guarded g s (s.orFault (s.sl.checkAt c perm ok k) f) = .next (f e) := by
  rw [guarded_true g s _ hg, checkAt_ok h, State.orFault]

/-- A vector load whose elements all pass their checks has them in element order. -/
theorem checkLoads_ok (sl : Slot) (c : CapReg) (ok : Nat → Bool) (co : Nat → Coords) (el : Nat → Elem) (l : List Nat)
    (h : ∀ i ∈ l, check c sl.cmpt [permLD] ok (co i) = .ok (el i)) :
    sl.checkLoads c ok (l.map fun i => (i, co i)) = .ok (l.map fun i => (i, el i)) := by
  induction l with
  | nil => rfl
  | cons i l ih =>
    rw [List.map_cons, Slot.checkLoads, checkAt_ok (h i List.mem_cons_self), ih fun j hj => h j (List.mem_cons_of_mem i hj)]
    rfl

/-- A vector load with guarded elements that pass owes its lanes. -/
theorem loadAll_ok (s : State) (g : Ctl) (w : Nat) (d : VReg) (c : CapReg) (top : Line) (co : Nat → Coords) (el : Nat → Elem)
    (l : List Nat) (hl : l ≠ []) (h : ∀ i ∈ l, check c s.sl.cmpt [permLD] (fmtOfWidth w) (co i) = .ok (el i)) :
    s.loadAll g w d c (l.map fun i => (i, co i)) top
      = (s.oweNow (some (.v d.val)) (laneMask w l ||| top)
          (.vload w (l.map fun i => (i, el i)) (l.map fun i => (i, el i)) [] none false) false (dField 2 0 d.val)).done g := by
  have hm : (l.map fun i => (i, co i)).map (·.1) = l := by rw [List.map_map]; exact List.map_id l
  rw [State.loadAll, if_neg (by simpa using hl), checkLoads_ok s.sl c _ co el l h, hm]
  rfl

end Sys2Proof.Machine

open Sys2Proof Sys2Proof.Machine Sys2Proof.Safety

/-- Settles O8. -/
theorem loadsOwe : Obligations.LoadsOwe := by
  unfold Obligations.LoadsOwe
  intro s g t et vt d v b c a m r sc e el
  dsimp only
  refine ⟨fun hg h => ?_, fun hg h => ?_, fun hg h => ?_, fun hg h => ?_, fun hl h => ?_, fun hl h => ?_, fun hl => ?_, fun hl => ?_⟩
  · exact owes_done _ s g _ _ _ _ _ (issues_mk rfl) (guarded_checked g s _ _ _ _ e _ hg h)
  · exact owes_done _ s g _ _ _ _ _ (issues_mk rfl) (guarded_checked g s _ _ _ _ e _ hg h)
  · exact owes_done _ s g _ _ _ _ _ (issues_mk rfl) (guarded_checked g s _ _ _ _ e _ hg h)
  · exact owes_done _ s g _ _ _ _ _ (issues_mk rfl) (guarded_checked g s _ _ _ _ e _ hg h)
  · refine owes_done _ s g _ _ _ _ (dField 2 0 v.val) (issues_mk rfl) ?_
    have hload := loadAll_ok s g (eWidth et) v (s.sl.cr m.c) 0#512 _ el _ hl h
    rw [BitVec.or_zero] at hload
    exact congrArg Host.Outcome.next hload
  · exact owes_done _ s g _ _ _ _ _ (issues_mk rfl)
      (congrArg Host.Outcome.next (loadAll_ok s g vt.width v _ _ _ el _ hl h))
  · refine actsNot_done _ s g 0 (issues_mk rfl) ?_
    change Host.Outcome.next (s.loadAll _ _ _ _ _ _) = _
    rw [Slot.onLanes, hl]
    rfl
  · refine actsNot_done _ s g 0 (issues_mk rfl) ?_
    change Host.Outcome.next (s.loadAll _ _ _ _ _ _) = _
    rw [Slot.onLanes, hl]
    rfl
end

section
/-!
Owed values: how they return (R24), and how they land when a park ends (R22, R26).
-/

namespace Sys2Proof.Machine
open Sys2Proof.Safety

/-! ## Events of one slot -/

theorem onlySlot_updSlot (s : State) (k : Nat) (f : Slot → Slot) : OnlySlot k s (s.updSlot k f) := by
  refine ⟨rfl, fun j hj => State.slotAt_updSlot_ne s f hj, fun c => ?_⟩
  rw [State.coreAt_updSlot]

theorem onlySlot_setSlot (s : State) (k : Nat) (sl : Slot) : OnlySlot k s (s.setSlot k sl) :=
  onlySlot_updSlot s k fun _ => sl

/-! ## Returns of owed values -/

/-- An owed value that has no rival at its home, and has not performed, does what its operation does. -/
theorem exec_owedValueReturn {s : State} {c k i : Nat} {o : Owed} (ho : (s.slotAt (4 * c + k)).owed[i]? = some o)
    (hr : o.res = none) (hv : s.rival (.value c k i) = none) :
    exec (.owedValueReturn c k i) s = .next (s.returnOwed (4 * c + k) i o) := by
  have hopen : o.open_ = true := by rw [Owed.open_, hr]; rfl
  have hnow : s.valueNow c k i = s.returnOwed (4 * c + k) i o := by
    unfold State.valueNow
    dsimp only
    rw [ho]
    exact if_pos hopen
  change Host.Outcome.next (s.arrive (.value c k i)) = _
  rw [State.arrive, hv, State.serve, hnow]

/-- An operation that performs in memory and returns, or not yet. -/
def Flight.inMemory : Flight → Bool
  | .load _ _ | .cload _ | .amo _ _ _ _ | .cas _ _ _ _ | .ccas _ _ _ _ | .slock _ | .poll _ _ => true
  | _ => false

theorem returnOwed_inMemory (s : State) (key idx : Nat) (o : Owed) (h : o.flight.inMemory = true) :
    s.returnOwed key idx o = s.returnMem key idx o := by
  unfold State.returnOwed
  cases hf : o.flight <;> simp [hf, Flight.inMemory] at h ⊢

/-- The result of an operation in memory is kept with its owing. -/
theorem returnMem_ok {s s1 : State} {key idx : Nat} {o : Owed} {v : CapReg} (hc : s.canPerform key o = true)
    (h : s.performMem (s.who key) o.seq o.flight = .ok (s1, v)) :
    s.returnMem key idx o = s1.updSlot key fun sl => sl.giveRes idx o (.val v 0) := by
  rw [State.returnMem, if_pos hc, h]

theorem returnMem_error {s : State} {key idx : Nat} {o : Owed} {f : FaultInfo} (hc : s.canPerform key o = true)
    (h : s.performMem (s.who key) o.seq o.flight = .error f) :
    s.returnMem key idx o = s.updSlot key fun sl => sl.giveRes idx o (.fault f) := by
  rw [State.returnMem, if_pos hc, h]

/-- Nothing that cannot perform returns, but a value that is fixed, a counter and a publication. -/
theorem returnOwed_blocked {s : State} {key idx : Nat} {o : Owed} (hc : s.canPerform key o = false)
    (h1 : ∀ v, o.flight ≠ .ready v) (h2 : ∀ kind unit m vec, o.flight ≠ .ctr kind unit m vec)
    (h3 : ∀ v l, o.flight ≠ .publish v l) : s.returnOwed key idx o = s := by
  have hmem : s.returnMem key idx o = s := by rw [State.returnMem, hc]; rfl
  unfold State.returnOwed
  cases hf : o.flight with
  | ready v => exact absurd hf (h1 v)
  | ctr kind unit m vec => exact absurd hf (h2 kind unit m vec)
  | publish v l => exact absurd hf (h3 v l)
  | vload w all es got bad again =>
    change s.returnVload key idx o w all es got bad again = s
    rw [State.returnVload, hc]
    rfl
  | barge n w => rfl
  | engine n => rfl
  | chain n => rfl
  | load | cload | amo | cas | ccas | slock | poll => exact hmem

/-- An owing keeps a fault, and a value while it is live. -/
theorem giveRes_kept (sl : Slot) (idx : Nat) (o : Owed) (r : Res)
    (h : o.live = true ∨ ∃ f, r = .fault f) :
    sl.giveRes idx o r = { sl with owed := sl.owed.set idx { o with res := some r } } := by
  rw [Slot.giveRes, if_pos]
  obtain h | ⟨f, rfl⟩ := h
  · simp [h]
  · simp [Res.plain]

/-- A cancelled owing that returned a value without flags is forgotten. -/
theorem giveRes_dropped (sl : Slot) (idx : Nat) (o : Owed) (r : Res) (hr : ∀ v fl, r = .val v fl → fl = 0)
    (h : ¬ (o.live = true ∨ ∃ f, r = .fault f)) : sl.giveRes idx o r = { sl with owed := sl.owed.eraseIdx idx } := by
  rw [not_or, not_exists] at h
  obtain ⟨hl, hf⟩ := h
  have hp : r.plain = true := by
    cases r with
    | val v fl => rw [hr v fl rfl]; rfl
    | fault f => exact absurd rfl (hf f)
  rw [Slot.giveRes, if_neg (by simp [hl, hp])]

/-- What the return of a result leaves: it changes nothing but the owing. -/
theorem completes_giveRes {i : Instr} {s t : State} {key idx : Nat} {o : Owed} {r : Res}
    (hi : exec i s = .next (t.updSlot key fun sl => sl.giveRes idx o r)) (hr : ∀ v fl, r = .val v fl → fl = 0) :
    Completes i s fun u =>
      OnlySlot key t u
      ∧ ((o.live = true ∨ ∃ f, r = .fault f) →
          u.slotAt key = { t.slotAt key with owed := (t.slotAt key).owed.set idx { o with res := some r } })
      ∧ (¬ (o.live = true ∨ ∃ f, r = .fault f) →
          u.slotAt key = { t.slotAt key with owed := (t.slotAt key).owed.eraseIdx idx }) := by
  refine ⟨_, hi, onlySlot_updSlot t key _, fun h => ?_, fun h => ?_⟩
  · rw [State.slotAt_updSlot_self, giveRes_kept _ _ _ _ h]
  · rw [State.slotAt_updSlot_self, giveRes_dropped _ _ _ _ hr h]

theorem value_plain {w : CapReg} : ∀ v fl, Res.val w 0 = .val v fl → fl = 0 := by
  rintro v fl ⟨⟩
  rfl

theorem fault_plain {f : FaultInfo} : ∀ v fl, Res.fault f = .val v fl → fl = 0 := by
  rintro v fl ⟨⟩

/-! ## Elements that are read -/

theorem readElem_refused {s : State} {w : Who} {k : AKind} {seq n : Nat} {e : Elem} (h : s.xlate w k false e.va = .error n) :
    s.readElem w k seq e = .error (FaultInfo.atElem n e) := by
  rw [State.readElem, h]

theorem readElem_poisoned {s : State} {w : Who} {k : AKind} {seq : Nat} {e : Elem} {p : Place}
    (h : s.xlate w k false e.va = .ok p) (hb : (s.readyElem w seq e p).readPoisoned w seq p e.nib e.bits = true) :
    s.readElem w k seq e = .error (FaultInfo.atElem 0x23 e) := by
  rw [State.readElem, h]
  exact if_pos hb

theorem readElem_ok {s : State} {w : Who} {k : AKind} {seq : Nat} {e : Elem} {p : Place}
    (h : s.xlate w k false e.va = .ok p) (hb : ¬ (s.readyElem w seq e p).readPoisoned w seq p e.nib e.bits = true) :
    s.readElem w k seq e = .ok (s.readyElem w seq e p,
      lineElem ((s.readyElem w seq e p).overlay w seq p) e.va e.nib e.bits, p) := by
  rw [State.readElem, h]
  exact if_neg hb

theorem readCap_error {s : State} {w : Who} {k : AKind} {seq : Nat} {e : Elem} {f : FaultInfo}
    (h : s.readElem w k seq e = .error f) : s.readCap w k seq e = .error f := by
  rw [State.readCap, h]

theorem readCap_genLost {s s1 : State} {w : Who} {k : AKind} {seq v : Nat} {e : Elem} {p : Place}
    (h : s.readElem w k seq e = .ok (s1, v, p)) (hg : s1.genLost w.world w.part (s1.overlay w seq p) = true) :
    s.readCap w k seq e = .error (FaultInfo.atElem 0x23 e) := by
  rw [State.readCap, h]
  exact if_pos hg

theorem readCap_ok {s s1 : State} {w : Who} {k : AKind} {seq v : Nat} {e : Elem} {p : Place}
    (h : s.readElem w k seq e = .ok (s1, v, p)) (hg : ¬ s1.genLost w.world w.part (s1.overlay w seq p) = true) :
    s.readCap w k seq e = .ok (s1, s1.loadedCap w p (s1.overlay w seq p)) := by
  rw [State.readCap, h]
  exact if_neg hg

/-! ## Vector loads in flight -/

theorem returnOwed_vload (s : State) (key idx : Nat) (o : Owed) (wd : Nat) (all es : List (Nat × Elem))
    (got : List (Nat × Nat)) (bad : Option FaultInfo) (again : Bool) (hf : o.flight = .vload wd all es got bad again) :
    s.returnOwed key idx o = s.returnVload key idx o wd all es got bad again := by
  rw [State.returnOwed, hf]

/-- The first element that is refused gives its fault. -/
theorem firstRefused_some (s : State) (w : Who) (k : AKind) (es : List (Nat × Elem)) :
    ∀ (m : Nat) (x : Nat × Elem) (n : Nat), es[m]? = some x → s.xlate w k false x.2.va = .error n →
      (∀ (j : Nat) (y : Nat × Elem), j < m → es[j]? = some y → ∃ p, s.xlate w k false y.2.va = .ok p) →
      s.firstRefused w k es = some (FaultInfo.atElem n x.2) := by
  induction es with
  | nil => intro m x n hm; simp at hm
  | cons y es ih =>
    intro m x n hm hx hj
    cases m with
    | zero =>
      obtain rfl : y = x := by simpa using hm
      rw [State.firstRefused, hx]
    | succ m =>
      obtain ⟨p, hp⟩ := hj 0 y (Nat.succ_pos m) rfl
      rw [State.firstRefused, hp]
      exact ih m x n (by simpa using hm) hx fun j z hjm hz => hj (j + 1) z (Nat.succ_lt_succ hjm) (by simpa using hz)

theorem firstRefused_none (s : State) (w : Who) (k : AKind) (es : List (Nat × Elem))
    (h : ∀ x ∈ es, ∃ p, s.xlate w k false x.2.va = .ok p) : s.firstRefused w k es = none := by
  induction es with
  | nil => rfl
  | cons x es ih =>
    obtain ⟨p, hp⟩ := h x List.mem_cons_self
    rw [State.firstRefused, hp]
    exact ih fun y hy => h y (List.mem_cons_of_mem x hy)

/-- A vector load that has none of its elements refused reads one: the first where it performs again. -/
theorem vloadStep_reads (s : State) (w : Who) (seq wd : Nat) (all es : List (Nat × Elem)) (got : List (Nat × Nat))
    (bad : Option FaultInfo) (again : Bool) (hne : es ≠ []) (h : ∀ x ∈ es, ∃ p, s.xlate w .vload false x.2.va = .ok p) :
    ∃ (j : Nat) (x : Nat × Elem), es[j]? = some x ∧ (again = true → j = 0)
      ∧ s.vloadStep w seq wd all es got bad again = (match { s with fresh := s.fresh + 1 }.readElem w .vload seq x.2 with
        | .error f => .ok ({ s with fresh := s.fresh + 1 },
            .vload wd all (es.filter fun y => decide (y.1 < x.1)) got (some f) again)
        | .ok (s1, v, _) => .ok (s1, .vload wd all (es.eraseIdx j) (got ++ [(x.1, v)]) bad again)) := by
  have hlen : 0 < es.length := List.length_pos_of_ne_nil hne
  let j := if again then 0 else Config.elemOrder s.fresh % max 1 es.length
  have hj : j < es.length := by
    dsimp only [j]
    split
    · exact hlen
    · have hmax : max 1 es.length = es.length := Nat.max_eq_right hlen
      rw [hmax]
      exact Nat.mod_lt _ hlen
  refine ⟨j, es[j], List.getElem?_eq_getElem hj, fun ha => if_pos ha, ?_⟩
  unfold State.vloadStep
  rw [firstRefused_none s w .vload es h]
  change (match es[j]? with
    | none => _
    | some (i, e) => _) = _
  rw [List.getElem?_eq_getElem hj] <;> rfl

/-- The result of a vector load whose elements have all been read. -/
def vloadRes (wd : Nat) (got : List (Nat × Nat)) (bad : Option FaultInfo) : Res :=
  match bad with
  | some f => .fault f
  | none => .val (vloadValue wd got) 0

theorem vloadRes_plain (wd : Nat) (got : List (Nat × Nat)) (bad : Option FaultInfo) :
    ∀ v fl, vloadRes wd got bad = .val v fl → fl = 0 := by
  intro v fl h
  cases bad with
  | none => exact value_plain v fl h
  | some f => exact fault_plain v fl h

/-- A vector load after an element that leaves others. -/
theorem returnVload_more {s t : State} {key idx : Nat} {o : Owed} {wd : Nat} {all es l : List (Nat × Elem)}
    {got g : List (Nat × Nat)} {bad b : Option FaultInfo} {again : Bool} (hc : s.canPerform key o = true) (hl : l ≠ [])
    (h : s.vloadStep (s.who key) o.seq wd all es got bad again = .ok (t, .vload wd all l g b again)) :
    s.returnVload key idx o wd all es got bad again
      = t.updSlot key fun sl => { sl with owed := sl.owed.set idx { o with flight := .vload wd all l g b again } } := by
  rw [State.returnVload, hc, h]
  cases l with
  | nil => exact absurd rfl hl
  | cons x l => rfl

/-- A vector load after its last element. -/
theorem returnVload_last {s t : State} {key idx : Nat} {o : Owed} {wd : Nat} {all es : List (Nat × Elem)}
    {got g : List (Nat × Nat)} {bad b : Option FaultInfo} {again : Bool} (hc : s.canPerform key o = true)
    (h : s.vloadStep (s.who key) o.seq wd all es got bad again = .ok (t, .vload wd all [] g b again)) :
    s.returnVload key idx o wd all es got bad again
      = t.updSlot key fun sl => sl.giveRes idx o (vloadRes wd g b) := by
  rw [State.returnVload, hc, h]
  cases b <;> rfl

/-! ## Landing -/

/-- Landing owed results one after another leaves what none of them changes. -/
theorem foldl_landOne_keeps {α : Type} (get : Slot → α) (l : List Owed) (h : ∀ q ∈ l, ∀ t, get (t.landOne q) = get t) :
    ∀ sl, get (l.foldl Slot.landOne sl) = get sl := by
  induction l with
  | nil => intro sl; rfl
  | cons q l ih =>
    intro sl
    exact (ih (fun r hr => h r (List.mem_cons_of_mem q hr)) (sl.landOne q)).trans (h q List.mem_cons_self sl)

/-- A result that alone changes a register has changed it after all have landed, in whatever order. -/
theorem foldl_landOne_sets {α : Type} (get : Slot → α) (put : α → α) (hidem : ∀ a, put (put a) = put a) (o : Owed)
    (hone : ∀ t : Slot, get (t.landOne o) = put (get t)) (l : List Owed) :
    ∀ sl, o ∈ l → (∀ q ∈ l, q ≠ o → ∀ t, get (t.landOne q) = get t) → get (l.foldl Slot.landOne sl) = put (get sl) := by
  induction l with
  | nil => intro sl ho; simp at ho
  | cons q l ih =>
    intro sl ho hother
    have htail : ∀ r ∈ l, r ≠ o → ∀ t, get (t.landOne r) = get t := fun r hr => hother r (List.mem_cons_of_mem q hr)
    by_cases hq : q = o
    · subst hq
      by_cases hl : q ∈ l
      · rw [List.foldl_cons, ih _ hl htail, hone, hidem]
      · rw [List.foldl_cons, foldl_landOne_keeps get l (fun r hr => htail r hr fun e => hl (e ▸ hr)), hone]
    · have hl : o ∈ l := (List.mem_cons.mp ho).resolve_left fun e => hq e.symm
      rw [List.foldl_cons, ih _ hl htail, hother q List.mem_cons_self hq]

theorem landReg_x (sl : Slot) (r : RegRef) (m : Line) (v : CapReg) (n : Nat) :
    SMap.look 0 (sl.landReg r m v).x n = if r = .x n ∧ n ≠ 0 then v.bits.setWidth 64 else SMap.look 0 sl.x n := by
  cases r with
  | x k =>
    by_cases hk : k = 0
    · subst hk
      have : ¬ (RegRef.x 0 = .x n ∧ n ≠ 0) := by rintro ⟨⟨⟩, h⟩; exact h rfl
      rw [if_neg this]
      rfl
    · simp only [Slot.landReg, if_neg hk, SMap.look_put, RegRef.x.injEq]
      by_cases hn : n = k
      · subst hn; simp [hk]
      · rw [if_neg hn, if_neg fun h => hn h.1.symm]
  | v k => simp [Slot.landReg]
  | c k =>
    rw [if_neg (by simp)]
    unfold Slot.landReg
    dsimp only
    split <;> rfl

theorem landReg_v (sl : Slot) (r : RegRef) (m : Line) (v : CapReg) (n : Nat) :
    SMap.look 0 (sl.landReg r m v).v n
      = if r = .v n then (SMap.look 0 sl.v n &&& ~~~m) ||| (v.bits &&& m) else SMap.look 0 sl.v n := by
  cases r with
  | v k =>
    simp only [Slot.landReg, SMap.look_put, RegRef.v.injEq]
    by_cases hn : n = k
    · subst hn; simp
    · rw [if_neg hn, if_neg fun h => hn h.symm]
  | x k =>
    rw [if_neg (by simp)]
    unfold Slot.landReg
    dsimp only
    split <;> rfl
  | c k =>
    rw [if_neg (by simp)]
    unfold Slot.landReg
    dsimp only
    split <;> rfl

theorem landReg_c (sl : Slot) (r : RegRef) (m : Line) (v : CapReg) (n : Nat) :
    SMap.look CapReg.null (sl.landReg r m v).c n = if r = .c n ∧ n ≠ 0 then v else SMap.look CapReg.null sl.c n := by
  cases r with
  | c k =>
    by_cases hk : k = 0
    · subst hk
      have : ¬ (RegRef.c 0 = .c n ∧ n ≠ 0) := by rintro ⟨⟨⟩, h⟩; exact h rfl
      rw [if_neg this]
      rfl
    · simp only [Slot.landReg, if_neg hk, SMap.look_put, RegRef.c.injEq]
      by_cases hn : n = k
      · subst hn; simp [hk]
      · rw [if_neg hn, if_neg fun h => hn h.1.symm]
  | v k => simp [Slot.landReg]
  | x k =>
    rw [if_neg (by simp)]
    unfold Slot.landReg
    dsimp only
    split <;> rfl

/-- A slot without the registers and flags that landing changes. -/
def unlanded (sl : Slot) : Slot := { sl with x := [], v := [], c := [], fflags := 0 }

theorem landReg_rest (sl : Slot) (r : RegRef) (m : Line) (v : CapReg) :
    unlanded (sl.landReg r m v) = unlanded sl ∧ (sl.landReg r m v).fflags = sl.fflags := by
  cases r with
  | v k => exact ⟨rfl, rfl⟩
  | x k =>
    unfold Slot.landReg
    dsimp only
    split <;> exact ⟨rfl, rfl⟩
  | c k =>
    unfold Slot.landReg
    dsimp only
    split <;> exact ⟨rfl, rfl⟩

theorem landOne_value (sl : Slot) (o : Owed) (v : CapReg) (fl : Nat) (h : o.res = some (.val v fl)) :
    sl.landOne o = (match o.dest with
      | some r => sl.landReg r o.mask v
      | none => sl).orFlags fl := by
  unfold Slot.landOne
  rw [h] <;> rfl

theorem landOne_noValue (sl : Slot) (o : Owed) (h : ∀ v fl, o.res ≠ some (.val v fl)) : sl.landOne o = sl := by
  unfold Slot.landOne
  split
  · next v fl e => exact absurd e (h v fl)
  · rfl
  · rfl

/-- A result lands in its register alone. -/
theorem landOne_elsewhere {α : Type} (get : Slot → α) (r : RegRef) (hreg : ∀ sl q m v, q ≠ r → get (Slot.landReg sl q m v) = get sl)
    (hfl : ∀ sl fl, get (Slot.orFlags sl fl) = get sl) (o : Owed) (ho : o.dest ≠ some r) (sl : Slot) :
    get (sl.landOne o) = get sl := by
  by_cases h : ∃ v fl, o.res = some (.val v fl)
  · obtain ⟨v, fl, hv⟩ := h
    rw [landOne_value sl o v fl hv, hfl]
    cases hd : o.dest with
    | none => rfl
    | some q => exact hreg sl q o.mask v fun e => ho (hd.trans (congrArg some e))
  · rw [landOne_noValue sl o fun v fl e => h ⟨v, fl, e⟩]

/-- What lands in a register that only one live owing names. -/
theorem foldl_landOne_alone {α : Type} (get : Slot → α) (put : α → α) (hidem : ∀ a, put (put a) = put a) (r : RegRef)
    (hreg : ∀ sl q m v, q ≠ r → get (Slot.landReg sl q m v) = get sl) (hfl : ∀ sl fl, get (Slot.orFlags sl fl) = get sl)
    (l : List Owed) (o : Owed) (v : CapReg) (fl : Nat) (ho : o ∈ l) (hd : o.dest = some r) (hv : o.res = some (.val v fl))
    (hput : ∀ sl, get (Slot.landReg sl r o.mask v) = put (get sl)) (hone : ∀ q ∈ l, q.dest = some r → q = o) (sl : Slot) :
    get (l.foldl Slot.landOne sl) = put (get sl) := by
  refine foldl_landOne_sets get put hidem o (fun t => ?_) l sl ho fun q hq hne t => ?_
  · rw [landOne_value t o v fl hv, hfl, hd]
    exact hput t
  · exact landOne_elsewhere get r hreg hfl q (fun e => hne (hone q hq e)) t

theorem landOne_unlanded (sl : Slot) (o : Owed) : unlanded (sl.landOne o) = unlanded sl := by
  unfold Slot.landOne
  split
  · split
    · next r _ => exact (landReg_rest sl r _ _).1
    · rfl
  · rfl
  · rfl

/-- The flags that a returned value raises. -/
def Owed.raises (f : Word) (o : Owed) : Word := match o.res with
  | some (.val _ fl) => f ||| BitVec.ofNat 64 (fl % 32)
  | _ => f

theorem landOne_fflags (sl : Slot) (o : Owed) : (sl.landOne o).fflags = Owed.raises sl.fflags o := by
  unfold Slot.landOne Owed.raises
  split
  · next v fl h =>
    simp only [h]
    split
    · next r _ => exact congrArg (· ||| _) (landReg_rest sl r _ _).2
    · rfl
  · next f h => simp only [h]
  · next h => simp only [h]

theorem foldl_landOne_fflags (l : List Owed) (sl : Slot) :
    (l.foldl Slot.landOne sl).fflags = l.foldl Owed.raises sl.fflags :=
  (List.foldl_hom Slot.fflags (g₁ := Slot.landOne) (g₂ := Owed.raises) fun t o => (landOne_fflags t o).symm).symm

/-- What lands is all that a park's end changes: the rest of the slot stays. -/
theorem landAll_unlanded (sl : Slot) : unlanded { sl.landAll with owed := [] } = unlanded { sl with owed := [] } := by
  have h := foldl_landOne_keeps unlanded sl.owed (fun q _ t => landOne_unlanded t q) sl
  exact congrArg (fun t : Slot => { t with owed := [] }) h

theorem carried_none {sl : Slot} (h : ∀ o ∈ sl.owed, ∀ f, o.res ≠ some (.fault f)) : sl.carried = none := by
  rw [Slot.carried, List.findSome?_eq_none_iff]
  intro o ho
  split
  · next f e => exact absurd e (h o ho f)
  · rfl
  · rfl

theorem mergeMasked_idem (a v m : Line) : (((a &&& ~~~m) ||| (v &&& m)) &&& ~~~m) ||| (v &&& m) = (a &&& ~~~m) ||| (v &&& m) := by
  ext i hi
  simp only [BitVec.getElem_or, BitVec.getElem_and, BitVec.getElem_not]
  cases a[i] <;> cases v[i] <;> cases m[i] <;> rfl


end Sys2Proof.Machine

open Sys2Proof Sys2Proof.Machine Sys2Proof.Safety

/-- The first part of O12, which holds: an owed value that may perform returns. -/
theorem owedValuesReturn : Sys2Proof.Parts.OwedValuesReturn := by
  unfold Sys2Proof.Parts.OwedValuesReturn
  intro s c k i o p n
  dsimp only
  intro ho hr hv
  have hexec := exec_owedValueReturn ho hr hv
  have returns {t : State} {r : Res} (h : s.returnOwed (4 * c + k) i o = t.updSlot (4 * c + k) fun sl => sl.giveRes i o r)
      (hp : ∀ v fl, r = .val v fl → fl = 0) := completes_giveRes (hexec.trans (congrArg Host.Outcome.next h)) hp
  refine ⟨fun v hf => returns ?_ value_plain, fun kind unit m vec hf => returns ?_ value_plain,
    fun hc h1 h2 h3 => hexec.trans (congrArg Host.Outcome.next (returnOwed_blocked hc h1 h2 h3)), fun hc => ⟨fun e p => rfl, ?_⟩⟩
  · rw [State.returnOwed, hf]
  · rw [State.returnOwed, hf]
  have good {t : State} {v : CapReg} (hm : o.flight.inMemory = true)
      (h : s.performMem (s.who (4 * c + k)) o.seq o.flight = .ok (t, v)) :=
    returns ((returnOwed_inMemory s _ i o hm).trans (returnMem_ok hc h)) value_plain
  have bad {f : FaultInfo} (hm : o.flight.inMemory = true)
      (h : s.performMem (s.who (4 * c + k)) o.seq o.flight = .error f) :=
    returns ((returnOwed_inMemory s _ i o hm).trans (returnMem_error hc h)) fault_plain
  refine ⟨fun t e hf => ?_, fun e hf => ?_, fun e s1 hf hpin => ?_, fun f hp hkind => ?_⟩
  · have hm : o.flight.inMemory = true := by rw [hf]; rfl
    have hp : s.performMem (s.who (4 * c + k)) o.seq o.flight
        = (s.readElem (s.who (4 * c + k)) .load o.seq e).map fun x => (x.1, capOfWord (ext t (x.2.1 : Int))) := by
      rw [hf]; rfl
    refine ⟨fun hx => bad hm ?_, fun hx => ⟨fun hb => bad hm ?_, fun hb => good hm ?_⟩⟩
    · rw [hp, readElem_refused hx]; rfl
    · rw [hp, readElem_poisoned hx hb]; rfl
    · rw [hp, readElem_ok hx hb]; rfl
  · have hm : o.flight.inMemory = true := by rw [hf]; rfl
    have hp : s.performMem (s.who (4 * c + k)) o.seq o.flight = s.readCap (s.who (4 * c + k)) .load o.seq e := by
      rw [hf]; rfl
    refine ⟨fun hx => bad hm ?_, fun hx => ⟨fun hb => bad hm ?_, fun hb => good hm ?_⟩⟩
    · rw [hp, readCap_error (readElem_refused hx)]
    · rw [hp]
      by_cases hpois : (s.readyElem (s.who (4 * c + k)) o.seq e p).readPoisoned (s.who (4 * c + k)) o.seq p e.nib e.bits = true
      · exact readCap_error (readElem_poisoned hx hpois)
      · exact readCap_genLost (readElem_ok hx hpois) (hb.resolve_left hpois)
    · rw [not_or] at hb
      rw [hp, readCap_ok (readElem_ok hx hb.1) hb.2]
  · have hm : o.flight.inMemory = true := by rw [hf]; rfl
    refine good hm ?_
    rw [hf, State.performMem, hpin]
    rfl
  · have hm : o.flight.inMemory = true := by
      cases hf : o.flight <;> simp [hf, Flight.kind, Flight.inMemory] at hkind ⊢
    cases f with
    | ok x => exact good hm hp
    | error r => exact bad hm hp

/-- The second part of O12, which holds: a vector load in flight reads one element after another. -/
theorem vectorLoadsReturn : Sys2Proof.Parts.VectorLoadsReturn := by
  unfold Sys2Proof.Parts.VectorLoadsReturn
  intro s c k i wd o all es got bad again
  dsimp only
  intro ho hr hl hf hc hv
  have hexec := (exec_owedValueReturn ho hr hv).trans
    (congrArg Host.Outcome.next (returnOwed_vload s _ i o wd all es got bad again hf))
  have sets {t : State} {r : Res}
      (h : s.returnVload (4 * c + k) i o wd all es got bad again = t.updSlot (4 * c + k) fun sl => sl.giveRes i o r)
      (hp : ∀ v fl, r = .val v fl → fl = 0) :
      Completes (.owedValueReturn c k i) s fun u => OnlySlot (4 * c + k) t u
        ∧ u.slotAt (4 * c + k) = { t.slotAt (4 * c + k) with
            owed := (t.slotAt (4 * c + k)).owed.set i { o with res := some r } } := by
    obtain ⟨u, hu, honly, hkept, -⟩ := completes_giveRes (hexec.trans (congrArg Host.Outcome.next h)) hp
    exact ⟨u, hu, honly, hkept (.inl hl)⟩
  refine ⟨fun m x n hx hn hlow => sets ?_ fault_plain, fun hne hok => ?_⟩
  · rw [State.returnVload, hc, State.vloadStep, firstRefused_some s _ _ es m x n hx hn hlow]
    rfl
  obtain ⟨j, x, hx, hj, hstep⟩ := vloadStep_reads s (s.who (4 * c + k)) o.seq wd all es got bad again hne hok
  have left {t : State} {l : List (Nat × Elem)} {g : List (Nat × Nat)} {b : Option FaultInfo}
      (h : s.vloadStep (s.who (4 * c + k)) o.seq wd all es got bad again = .ok (t, .vload wd all l g b again)) :
      (l ≠ [] → Completes (.owedValueReturn c k i) s fun u => OnlySlot (4 * c + k) t u
        ∧ u.slotAt (4 * c + k) = { t.slotAt (4 * c + k) with
            owed := (t.slotAt (4 * c + k)).owed.set i { o with flight := .vload wd all l g b again } })
      ∧ (l = [] → Completes (.owedValueReturn c k i) s fun u => OnlySlot (4 * c + k) t u
        ∧ u.slotAt (4 * c + k) = { t.slotAt (4 * c + k) with
            owed := (t.slotAt (4 * c + k)).owed.set i { o with res := some (vloadRes wd g b) } }) := by
    refine ⟨fun hl => ?_, fun hl => ?_⟩
    · exact ⟨_, hexec.trans (congrArg Host.Outcome.next (returnVload_more hc hl h)), onlySlot_updSlot t _ _,
        State.slotAt_updSlot_self t _ _⟩
    · subst hl
      exact sets (returnVload_last hc h) (vloadRes_plain wd g b)
  refine ⟨j, x, hx, hj, ?_⟩
  split
  · next f hread =>
    rw [hread] at hstep
    exact left hstep
  · next s1 v p hread =>
    rw [hread] at hstep
    obtain ⟨hmore, hlast⟩ := left hstep
    refine ⟨hmore, fun hl => ?_⟩
    cases bad with
    | none => exact hlast hl
    | some f => exact hlast hl

/-- The end of a park at which every live owing has returned and none carries a fault. -/
theorem exec_parkEnd {s : State} {c k : Nat} (hstop : (s.slotAt (4 * c + k)).stop = .park)
    (hexp : s.expired (4 * c + k) = false)
    (hpre : (s.slotAt (4 * c + k)).preempt = true → (s.slotAt (4 * c + k)).committed ≠ none)
    (hback : (s.slotAt (4 * c + k)).allBack = true)
    (hfault : ∀ o ∈ (s.slotAt (4 * c + k)).owed, ∀ f, o.res ≠ some (.fault f)) :
    exec (.parkEnd c k) s = .next (s.setSlot (4 * c + k)
      { (s.slotAt (4 * c + k)).landAll with stop := .run, readySince := s.coreNow ((4 * c + k) / 4) }) := by
  have hover : ¬ s.overtaken (4 * c + k) = true := by
    intro h
    rw [State.overtaken, hexp, Bool.or_false, Bool.and_eq_true, Option.isNone_iff_eq_none] at h
    exact hpre h.1 h.2
  refine congrArg Host.Outcome.next ((if_pos ⟨hstop, hback, hover⟩).trans ?_)
  rw [State.endPark]
  dsimp only
  rw [carried_none hfault]

/-- What has returned lands when its slot parks: `Parts.ParksLand` for the four slots that a core has. -/
theorem parkEnd_lands (s : State) (c k : Nat) (hk : k < 4) :
    let key := 4 * c + k
    let a := s.slotAt key
    a.stop = .park → s.expired key = false → (a.preempt = true → a.committed ≠ none) →
    (∀ o ∈ a.owed, o.live = true → ∃ v fl, o.res = some (.val v fl)) → (∀ o ∈ a.owed, ∀ f, o.res ≠ some (.fault f)) →
    (∀ o ∈ a.owed, o.live = false → o.dest = none) →
    let named (r : RegRef) : Prop := ∃ o ∈ a.owed, o.live = true ∧ o.dest = some r
    let alone (o : Owed) : Prop := o ∈ a.owed ∧ o.live = true ∧ ∀ q ∈ a.owed, q.live = true → q.dest = o.dest → q = o
    Completes (.parkEnd c k) s fun u =>
      let b := u.slotAt key
      OnlySlot key s u ∧ unlanded { b with owed := [], readySince := 0 } = unlanded { a with owed := [], stop := .run, readySince := 0 }
      ∧ b.readySince = s.coreNow c ∧ b.owed = a.owed.filter (fun o => !o.live && o.res.isNone)
      ∧ (∀ n, ¬ named (.x n) → SMap.look 0 b.x n = SMap.look 0 a.x n)
      ∧ (∀ n, ¬ named (.v n) → SMap.look 0 b.v n = SMap.look 0 a.v n)
      ∧ (∀ n, ¬ named (.c n) → SMap.look CapReg.null b.c n = SMap.look CapReg.null a.c n)
      ∧ (∀ o v fl, alone o → o.res = some (.val v fl) → ∀ n,
          (o.dest = some (.x n) → n ≠ 0 → SMap.look 0 b.x n = v.bits.setWidth 64)
          ∧ (o.dest = some (.v n) → SMap.look 0 b.v n = (SMap.look 0 a.v n &&& ~~~o.mask) ||| (v.bits &&& o.mask))
          ∧ (o.dest = some (.c n) → n ≠ 0 → SMap.look CapReg.null b.c n = v))
      ∧ b.fflags = a.owed.foldl Owed.raises a.fflags := by
  dsimp only
  intro hstop hexp hpre hval hfault hdead
  generalize ha : s.slotAt (4 * c + k) = a at *
  have hback : a.allBack = true := by
    rw [Slot.allBack, List.all_eq_true]
    intro o ho
    cases hl : o.live with
    | false => rfl
    | true =>
      obtain ⟨v, fl, hr⟩ := hval o ho hl
      rw [hr]
      rfl
  have hexec := exec_parkEnd (s := s) (c := c) (k := k) (by rw [ha, hstop]) hexp (by rwa [ha]) (by rwa [ha]) (by rwa [ha])
  rw [ha, show (4 * c + k) / 4 = c by omega] at hexec
  refine ⟨_, hexec, ?_⟩
  dsimp only
  rw [State.slotAt_setSlot_self]
  have hlive : ∀ q ∈ a.owed, ∀ r, q.dest = some r → q.live = true := by
    intro q hq r hr
    by_contra h
    rw [hdead q hq (by simpa using h)] at hr
    cases hr
  have hx (n : Nat) (sl : Slot) (q : RegRef) (m : Line) (v : CapReg) (h : q ≠ .x n) :
      SMap.look 0 (sl.landReg q m v).x n = SMap.look 0 sl.x n := by rw [landReg_x, if_neg fun e => h e.1]
  have hvr (n : Nat) (sl : Slot) (q : RegRef) (m : Line) (v : CapReg) (h : q ≠ .v n) :
      SMap.look 0 (sl.landReg q m v).v n = SMap.look 0 sl.v n := by rw [landReg_v, if_neg h]
  have hc (n : Nat) (sl : Slot) (q : RegRef) (m : Line) (v : CapReg) (h : q ≠ .c n) :
      SMap.look CapReg.null (sl.landReg q m v).c n = SMap.look CapReg.null sl.c n := by rw [landReg_c, if_neg fun e => h e.1]
  have unnamed {α : Type} (get : Slot → α) (r : RegRef)
      (hreg : ∀ sl q m v, q ≠ r → get (Slot.landReg sl q m v) = get sl) (hfl : ∀ sl fl, get (Slot.orFlags sl fl) = get sl)
      (h : ¬ ∃ o ∈ a.owed, o.live = true ∧ o.dest = some r) : get (a.owed.foldl Slot.landOne a) = get a :=
    foldl_landOne_keeps get a.owed
      (fun q hq t => landOne_elsewhere get r hreg hfl q (fun e => h ⟨q, hq, hlive q hq r e, e⟩) t) a
  refine ⟨onlySlot_setSlot s _ _, ?_, rfl, rfl, fun n => unnamed (fun t => SMap.look 0 t.x n) _ (hx n) (fun _ _ => rfl),
    fun n => unnamed (fun t => SMap.look 0 t.v n) _ (hvr n) (fun _ _ => rfl),
    fun n => unnamed (fun t => SMap.look CapReg.null t.c n) _ (hc n) (fun _ _ => rfl), ?_, foldl_landOne_fflags a.owed a⟩
  · have h := landAll_unlanded a
    exact congrArg (fun t : Slot => { t with stop := .run, readySince := 0 }) h
  · rintro o v fl ⟨ho, hl, halone⟩ hr n
    have hone (r : RegRef) (hd : o.dest = some r) : ∀ q ∈ a.owed, q.dest = some r → q = o := fun q hq e =>
      halone q hq (hlive q hq r e) (e.trans hd.symm)
    refine ⟨fun hd hn => ?_, fun hd => ?_, fun hd hn => ?_⟩
    · exact foldl_landOne_alone (fun t => SMap.look 0 t.x n) (fun _ => v.bits.setWidth 64) (fun _ => rfl) _ (hx n)
        (fun _ _ => rfl) a.owed o v fl ho hd hr (fun sl => by rw [landReg_x, if_pos ⟨rfl, hn⟩]) (hone _ hd) a
    · exact foldl_landOne_alone (fun t => SMap.look 0 t.v n) (fun b => (b &&& ~~~o.mask) ||| (v.bits &&& o.mask))
        (fun b => mergeMasked_idem b v.bits o.mask) _ (hvr n) (fun _ _ => rfl) a.owed o v fl ho hd hr
        (fun sl => by rw [landReg_v, if_pos rfl]) (hone _ hd) a
    · exact foldl_landOne_alone (fun t => SMap.look CapReg.null t.c n) (fun _ => v) (fun _ => rfl) _ (hc n)
        (fun _ _ => rfl) a.owed o v fl ho hd hr (fun sl => by rw [landReg_c, if_pos ⟨rfl, hn⟩]) (hone _ hd) a

/-- Core 0 has its clock stopped at cycle 1, and slot 0 of core 1, which is slot number 4 from core 0 on, is parked. -/
def parkedElsewhere : State :=
  { State.reset with cores := [(0, { Core.reset with stopped := some 1 }),
                               (1, { Core.reset with slots := [(0, { Slot.reset with stop := .park })] })] }

/-- Refutes O12: `Parts.ParksLand` speaks of any slot number `k`, and with `k = 4` the slot is one of the next core: it is
ready since that core's cycle 0, and not since cycle 1, at which the clock of core `c` stands. -/
theorem not_owedValues : ¬ Obligations.OwedValues := by
  rintro ⟨-, -, h⟩
  unfold Sys2Proof.Parts.ParksLand at h
  have hslot : parkedElsewhere.slotAt (4 * 0 + 4) = { Slot.reset with stop := .park } := rfl
  have hnone : ∀ o ∈ (parkedElsewhere.slotAt (4 * 0 + 4)).owed, False := by
    rw [hslot]
    exact List.forall_mem_nil _
  obtain ⟨u, hu, -, -, -, hready, -⟩ := h parkedElsewhere 0 4 rfl rfl (by rw [hslot]; decide)
    (fun o ho => (hnone o ho).elim) (fun o ho => (hnone o ho).elim) (fun o ho => (hnone o ho).elim)
  rw [exec_parkEnd rfl rfl (by rw [hslot]; decide) rfl fun o ho => (hnone o ho).elim] at hu
  cases hu
  rw [State.slotAt_setSlot_self] at hready
  exact absurd (show (0 : Nat) = 1 from hready) (by decide)
end

section
/-!
Where a fault goes (R26, R229 … R234, R237): raising, delivery, the terminal end.
-/

namespace Sys2Proof.Machine
open Sys2Proof.Safety

/-! ## Raising -/

/-- The state at which a fault of the issuing slot is raised: the instruction has counted, and no slot of its core is
marked as having yielded. -/
def State.counted (s : State) : State :=
  (s.count 0 (s.cur / 4) 1 1).updMyCore fun c => { c with lastSlot := s.cur % 4, yielded := none }

theorem slotAt_counted (s : State) (k : Nat) : s.counted.slotAt k = s.slotAt k :=
  State.slotAt_updCore (s.count 0 (s.cur / 4) 1 1) _ k _ fun _ => rfl

theorem sl_counted (s : State) : s.counted.sl = s.sl := slotAt_counted s s.cur

theorem elsewhere_counted (s : State) : Elsewhere s s.counted :=
  elsewhere_trans (elsewhere_count s 1 1 (.inl rfl)) (elsewhere_updMyCore _ _ (fun _ => rfl) fun _ => rfl)

theorem updSlot_kept (s : State) (k : Nat) (f : Slot → Slot) : MemoryKept s (s.updSlot k f) := ⟨rfl, rfl, rfl⟩

theorem count_kept (s : State) (k u n a : Nat) : MemoryKept s (s.count k u n a) := ⟨rfl, rfl, rfl⟩

theorem counted_kept (s : State) : MemoryKept s s.counted := ⟨rfl, rfl, rfl⟩

/-- With something owed the slot parks first (R26). -/
theorem raise_owes (s : State) (f : FaultInfo) (h : s.sl.owes = true) :
    s.raise f = (s.counted.updSl fun sl => { sl with stop := .trap f, timer := none, callee := none, arrived := none }).count
      0 (s.cur / 4) 2 1 := by
  rw [← sl_counted s] at h
  exact if_pos h

/-- With nothing owed the fault is delivered in the same step (R26). -/
theorem raise_free (s : State) (f : FaultInfo) (h : s.sl.owes = false) : s.raise f = s.counted.deliver s.cur f none := by
  rw [← sl_counted s] at h
  exact if_neg (Bool.eq_false_iff.mp h)

theorem sl_count_updSl (s : State) (f : Slot → Slot) (k u n a : Nat) : ((s.updSl f).count k u n a).sl = f s.sl := by
  rw [State.sl_count, State.sl_updSl]

theorem handlerOf_counted (s : State) (k : Nat) : s.counted.handlerOf k = s.handlerOf k := by
  unfold State.handlerOf
  rw [slotAt_counted]
  rfl

/-- The causes and states in which a fault ends the activation (R229, R233). -/
theorem isTerminal_iff (s : State) (k : Nat) (f : FaultInfo) :
    s.isTerminal k f = true ↔
      f.cause ∈ [0x21, 0x22, 0x39, 0x3F] ∨ f.mode = 3 ∨ (s.slotAt k).handler = true ∨ s.handlerOf k = 0 := by
  simp only [State.isTerminal, causeIsTerminal, Bool.or_eq_true, beq_iff_eq, List.mem_cons, List.not_mem_nil, or_false, or_assoc]

theorem deliver_terminal (s : State) (k : Nat) (f : FaultInfo) (redo : Option Owed) (h : s.isTerminal k f = true) :
    s.deliver k f redo = s.updSlot k fun sl => { sl with stop := .terminal { f with mode := 3 }, timer := none } := if_pos h

theorem deliver_handled (s : State) (k : Nat) (f : FaultInfo) (redo : Option Owed) (h : s.isTerminal k f = false) :
    s.deliver k f redo = s.takeTrap k f redo := if_neg (by rw [h]; decide)

theorem isTerminal_counted (s : State) (k : Nat) (f : FaultInfo) : s.counted.isTerminal k f = s.isTerminal k f := by
  rw [Bool.eq_iff_iff, isTerminal_iff, isTerminal_iff, slotAt_counted, handlerOf_counted]

/-! ## Carried faults -/

/-- The earliest fault that an owed value carries is the one at the lowest place. -/
theorem carried_first {sl : Slot} {o : Owed} {e : FaultInfo} {i : Nat} (hi : sl.owed[i]? = some o) (ho : o.res = some (.fault e))
    (hlow : ∀ (j : Nat) (q : Owed), j < i → sl.owed[j]? = some q → ∀ x, q.res ≠ some (.fault x)) : sl.carried = some (o, e) := by
  unfold Slot.carried
  generalize sl.owed = l at hi hlow
  induction l generalizing i with
  | nil => simp at hi
  | cons q l ih =>
    cases i with
    | zero =>
      obtain rfl : q = o := by simpa using hi
      simp [ho]
    | succ i =>
      have hq : ∀ x, q.res ≠ some (.fault x) := hlow 0 q (Nat.succ_pos i) rfl
      have hrest := ih (i := i) (by simpa using hi) fun j p hj hp => hlow (j + 1) p (Nat.succ_lt_succ hj) (by simpa using hp)
      rw [List.findSome?_cons]
      split
      · next b hb =>
        split at hb
        · next f hf => exact absurd hf (hq f)
        · cases hb
        · cases hb
      · exact hrest

theorem allBack_iff (sl : Slot) : sl.allBack = true ↔ ∀ q ∈ sl.owed, q.live = true → q.res ≠ none := by
  rw [Slot.allBack, List.all_eq_true]
  refine forall_congr' fun q => forall_congr' fun _ => ?_
  cases q.live <;> cases q.res <;> simp

/-- R237 rows 2 and 3: what comes before every other event of a slot. -/
theorem overtaken_iff (s : State) (k : Nat) :
    s.overtaken k = true ↔ (∃ n, (s.slotAt k).committed = some n ∧ n + 65536 ≤ s.coreNow (k / 4))
      ∨ (s.slotAt k).preempt = true ∧ (s.slotAt k).committed = none := by
  unfold State.overtaken State.expired
  cases h : (s.slotAt k).committed <;> simp [h]

/-! ## Landing and delivery -/

/-- A slot whose owed values have landed, and which is ready from now on. -/
def State.landed (s : State) (k : Nat) : State :=
  s.setSlot k { (s.slotAt k).landAll with stop := .run, readySince := s.coreNow (k / 4) }

/-- A fault that an owed value carries, as it is delivered (R230, R235). -/
def carriedAs (o : Owed) (e : FaultInfo) : FaultInfo :=
  { e with mode := if e.mode = 3 then 3 else 1, iaddr := o.iaddr, aux := BitVec.ofNat 64 o.dfield }

theorem endPark_carried {s : State} {k : Nat} {o : Owed} {e : FaultInfo} (h : (s.slotAt k).carried = some (o, e)) :
    s.endPark k = (s.landed k).deliver k (carriedAs o e) (some o) := by
  unfold State.endPark
  dsimp only
  rw [h]
  rfl

theorem execParkEnd_lands {s : State} {c k : Nat} (hs : (s.slotAt (4 * c + k)).stop = .park)
    (hb : (s.slotAt (4 * c + k)).allBack = true) (ho : ¬ s.overtaken (4 * c + k) = true) :
    exec (.parkEnd c k) s = .next (s.endPark (4 * c + k)) := congrArg Host.Outcome.next (if_pos ⟨hs, hb, ho⟩)

theorem execParkEnd_stays {s : State} {c k : Nat}
    (h : ¬ ((s.slotAt (4 * c + k)).stop = .park ∧ (s.slotAt (4 * c + k)).allBack = true ∧ ¬ s.overtaken (4 * c + k) = true)) :
    exec (.parkEnd c k) s = .next s := congrArg Host.Outcome.next (if_neg h)

theorem execTrapEntry_stays {s : State} {c k : Nat}
    (h : (∀ f, (s.slotAt (4 * c + k)).stop ≠ .trap f) ∨ (s.slotAt (4 * c + k)).allBack = false ∨ s.overtaken (4 * c + k) = true) :
    exec (.trapEntry c k) s = .next s := by
  change execTrapEntry c k s = _
  unfold execTrapEntry
  dsimp only
  split
  · next f hf =>
    rw [if_pos]
    obtain h | h | h := h
    · exact absurd hf (h f)
    · simp [h]
    · simp [h]
  · rfl

theorem execTrapEntry_carried {s : State} {c k : Nat} {f e : FaultInfo} {o : Owed} (hs : (s.slotAt (4 * c + k)).stop = .trap f)
    (hb : (s.slotAt (4 * c + k)).allBack = true) (ho : ¬ s.overtaken (4 * c + k) = true)
    (hc : (s.slotAt (4 * c + k)).carried = some (o, e)) :
    exec (.trapEntry c k) s = .next ((s.landed (4 * c + k)).deliver (4 * c + k) (carriedAs o e) (some o)) := by
  change execTrapEntry c k s = _
  unfold execTrapEntry
  dsimp only
  rw [hs]
  dsimp only
  rw [if_neg (by simp [hb, ho]), hc]
  rfl

theorem execTrapEntry_clean {s : State} {c k : Nat} {f : FaultInfo} (hs : (s.slotAt (4 * c + k)).stop = .trap f)
    (hb : (s.slotAt (4 * c + k)).allBack = true) (ho : ¬ s.overtaken (4 * c + k) = true)
    (hc : (s.slotAt (4 * c + k)).carried = none) :
    exec (.trapEntry c k) s = .next ((s.landed (4 * c + k)).deliver (4 * c + k) f none) := by
  change execTrapEntry c k s = _
  unfold execTrapEntry
  dsimp only
  rw [hs]
  dsimp only
  rw [if_neg (by simp [hb, ho]), hc]
  rfl

/-! ## The terminal end -/

theorem execTerminalFault_eq {s : State} {c k : Nat} {f : FaultInfo} (hs : (s.slotAt (4 * c + k)).stop = .terminal f) :
    exec (.terminalFault c k) s = .next (if s.quiet (4 * c + k) && s.joinReady (4 * c + k) s.fresh
      then s.endTerminal (4 * c + k) f else s) := by
  change execTerminalFault c k s = _
  unfold execTerminalFault
  dsimp only
  rw [hs]

theorem execTerminalFault_stays {s : State} {c k : Nat} (hs : ∀ x, (s.slotAt (4 * c + k)).stop ≠ .terminal x) :
    exec (.terminalFault c k) s = .next s := by
  change execTerminalFault c k s = _
  unfold execTerminalFault
  dsimp only
  split
  · next f hf => exact absurd hf (hs f)
  · rfl

/-- A join waits for the plain stores of its die (R305). -/
theorem joinReady_iff (s : State) (k stamp : Nat) :
    s.joinReady k stamp = true ↔ ((s.slotAt k).entry.record.jv = true →
      ∀ l ∈ s.coh, ∀ x ∈ l.2.inval, dieOf x.1 = dieOf (k / 4) → stamp ≤ x.2.2.2) := by
  unfold State.joinReady State.cumulative
  cases (s.slotAt k).entry.record.jv <;> simp [List.all_eq_true, imp_iff_not_or]

theorem slotAt_endActivation (s : State) (k : Nat) : (s.endActivation k).slotAt k = (s.slotAt k).freed :=
  State.slotAt_setSlot_self _ k _

/-- The slot of a reported activation ends with its sequence and its flags. -/
theorem slotAt_endTerminal (s : State) (k : Nat) (f : FaultInfo) : (s.endTerminal k f).slotAt k = (s.slotAt k).freed :=
  (slotAt_endActivation _ k).trans ((report_lineWork s _ _).slot k Slot.freed fun _ => rfl)

end Sys2Proof.Machine

open Sys2Proof Sys2Proof.Machine Sys2Proof.Safety

/-- A fault with something owed parks; a fault without a handler waits for its terminal end. -/
theorem faultsParkOrEnd : Sys2Proof.Parts.FaultsParkOrEnd := by
  unfold Sys2Proof.Parts.FaultsParkOrEnd
  intro s f
  dsimp only
  refine ⟨fun ho => ?_, fun ho hend => ?_⟩
  · have hkept : MemoryKept s (s.raise { f with iaddr := s.sl.here }) := by
      rw [raise_owes s _ ho]
      exact MemoryKept.trans (counted_kept s) (MemoryKept.trans (updSlot_kept _ _ _) (count_kept _ _ _ _ _))
    have hslot : (s.raise { f with iaddr := s.sl.here }).sl = { s.sl with
        stop := .trap { f with iaddr := s.sl.here }, timer := none, callee := none, arrived := none } := by
      rw [raise_owes s _ ho, sl_count_updSl, sl_counted]
    rw [State.faultNow, hslot]
    exact ⟨rfl, rfl, rfl, ⟨fun _ _ => rfl, fun _ _ => rfl, fun _ _ => rfl, fun _ _ => rfl, rfl⟩, hkept⟩
  · have hterm : s.isTerminal s.cur { f with iaddr := s.sl.here } = true := by
      rw [isTerminal_iff]
      exact hend.imp_right (Or.imp_right (Or.imp_right fun h : _ = 0 => (congrArg BitVec.toNat h : _)))
    have hraise := (raise_free s _ ho).trans (deliver_terminal _ _ _ none ((isTerminal_counted s _ _).trans hterm))
    have hkept : MemoryKept s (s.raise { f with iaddr := s.sl.here }) := by
      rw [hraise]
      exact MemoryKept.trans (counted_kept s) (updSlot_kept _ _ _)
    have hslot : (s.raise { f with iaddr := s.sl.here }).sl = { s.sl with
        stop := .terminal { f with iaddr := s.sl.here, mode := 3 }, timer := none } := by
      rw [hraise, ← sl_counted s]
      exact State.sl_updSl s.counted _
    rw [State.faultNow, hslot]
    exact ⟨rfl, rfl, ⟨fun _ _ => rfl, fun _ _ => rfl, fun _ _ => rfl, fun _ _ => rfl, rfl⟩, hkept⟩

/-- The events that deliver a fault. -/
theorem faultDelivery : Sys2Proof.Parts.FaultDelivery := by
  unfold Sys2Proof.Parts.FaultDelivery
  intro s c k f o e
  dsimp only
  have hlate := overtaken_iff s (4 * c + k)
  have hback := allBack_iff (s.slotAt (4 * c + k))
  refine ⟨fun hs hl hb hc => ?_, fun hs hl hb hc => ?_, fun hs hl hb hc => ?_, fun h => ⟨?_, ?_⟩,
    fun hs => execTrapEntry_stays (.inl hs), fun hs => execParkEnd_stays fun h => hs h.1, fun hs hw => ?_, fun hs hw => ?_,
    execTerminalFault_stays⟩
  · exact execTrapEntry_clean hs (hback.mpr hb) (fun h => hl (hlate.mp h)) (carried_none hc)
  · obtain ⟨i, hi, ho, hlow⟩ := hc
    exact execTrapEntry_carried hs (hback.mpr hb) (fun h => hl (hlate.mp h)) (carried_first hi ho hlow)
  · obtain ⟨i, hi, ho, hlow⟩ := hc
    rw [execParkEnd_lands hs (hback.mpr hb) (fun h => hl (hlate.mp h)), endPark_carried (carried_first hi ho hlow)]
    rfl
  · refine execTrapEntry_stays (.inr ?_)
    rw [Bool.eq_false_iff, Ne, hback, hlate]
    exact h.symm
  · refine execParkEnd_stays ?_
    rintro ⟨-, hb, hl⟩
    exact h.elim (fun h => hl (hlate.mpr h)) fun h => h (hback.mp hb)
  · have hready : (s.quiet (4 * c + k) && s.joinReady (4 * c + k) s.fresh) = true := by
      rw [not_or, Bool.not_eq_false] at hw
      rw [Bool.and_eq_true, joinReady_iff]
      refine ⟨hw.1, fun hj l hl x hx hd => Nat.le_of_not_lt fun hlt => hw.2 ⟨hj, l, hl, x, hx, hd, hlt⟩⟩
    refine ⟨s.endTerminal (4 * c + k) f, ?_, rfl, slotAt_endTerminal s _ f⟩
    rw [execTerminalFault_eq hs, if_pos hready]
  · rw [execTerminalFault_eq hs, if_neg]
    rw [Bool.and_eq_true, joinReady_iff]
    rintro ⟨hq, hj⟩
    obtain hw | ⟨hjv, l, hl, x, hx, hd, hlt⟩ := hw
    · rw [hq] at hw
      cases hw
    · exact absurd hlt (Nat.not_lt.mpr (hj hjv l hl x hx hd))

/-- Settles O33. -/
theorem faultsDelivered : Obligations.FaultsDelivered := ⟨faultsParkOrEnd, faultDelivery⟩
end

section
/-!
The end of an activation that holds a revision writes the revision's header (R269, R274), and a write at a home makes the
other die's copy go (R312): stores of other slots that waited for it are acknowledged.
-/

namespace Sys2Proof.Machine
open Sys2Proof.Safety

/-- The key of the revision's header. -/
def headerKey : Nat := memKey .dev 0x300000

/-- A store of slot 1 to the header's line, committed at its home, whose invalidation at the other die is under way. -/
def storeAtHeader : Out :=
  { op := .data { va := 0, nib := 0, bits := 8, coords := Coords.zero } 0, rel := none, seq := 0, actid := 0, iaddr := 0
    place := { kind := .dev, key := headerKey, va := 0, untagged := false, stash := false, home := 3 }
    idx := 0, lvl := 2, got := 0, stamp := 0 }

/-- Slot 0 has committed and holds a revision whose spill area is at address 0, in a leased page with its home in slice 3. -/
def sharedHeader : State :=
  { State.reset with
    cores := [(0, { Core.reset with slots := [(0, { Slot.reset with active := true, committed := some 0, rev := some 1 }),
                                              (1, { Slot.reset with active := true, out := [storeAtHeader] })] })]
    grids := [(0, { Grid.reset with leases := [(0,
      { leaf := BitVec.ofNat 64 (2 ^ 63 + 2 ^ 62 + 2 ^ 61 + 2 ^ 53 + 3 * 2 ^ 46 + 0x300), level := 0, frame := 0x300, peer := none })] })]
    parts := [(0, { Part.reset with sl := 2 ^ 128 - 1 })]
    coh := [(lineKey headerKey, { LineCoh.reset with slice := 3, proxy := .S, inval := [(0, 1, 0, 0)] })] }

/-- How far the stores of slot 1 have been acknowledged after a step. -/
def levelsAfter : Host.Outcome State Fault Refusal → List Nat
  | .next u => (u.slotAt 1).out.map (·.lvl)
  | _ => []

/-- An instruction without a guard or a hint. -/
def plainCtl : Ctl := { gp := 0, gn := false, s := false, dly := 0, ru := 0, yld := false, fs := false }

theorem levelsAfter_retire : levelsAfter (exec (.retire plainCtl) sharedHeader) = [3] := by decide +kernel

end Sys2Proof.Machine

open Sys2Proof Sys2Proof.Machine Sys2Proof.Safety

/-- Refutes O29: the clause `ends` leaves every other slot as it is, also where the activation holds a revision. In
`sharedHeader` the `retire` of slot 0 writes the revision's header, and so acknowledges slot 1's store of the same line. -/
theorem not_commitAndRetire : ¬ Obligations.CommitAndRetire := by
  intro h
  unfold Obligations.CommitAndRetire at h
  obtain ⟨hplain, -⟩ := h sharedHeader sharedHeader plainCtl
    { op := .count 0, dest := none, stale := false, iaddr := 0, dfield := 0 } [] (FaultInfo.of 0)
    { dest := none, live := false, mask := 0, flight := .chain 0, res := none, acq := false, seq := 0, iaddr := 0, dfield := 0 }
    (FaultInfo.of 0)
  have hslot : sharedHeader.sl = { Slot.reset with active := true, committed := some 0, rev := some 1 } := rfl
  obtain ⟨-, -, -, -, hretire⟩ := hplain (.inl fun hbusy => by rw [hslot] at hbusy; exact absurd hbusy.1 (by decide))
  obtain ⟨-, -, -, hends⟩ := hretire rfl
  have hclean : ∀ q ∈ sharedHeader.sl.owed, ∀ x, q.res ≠ some (.fault x) := by
    rw [hslot]
    exact List.forall_mem_nil _
  have hjoin : ¬ sharedHeader.sl.entry.record.jv = true := by decide +kernel
  obtain ⟨u, hu, -, -, -, hother, -⟩ := hends rfl (by decide +kernel) hclean fun hj => absurd hj hjoin
  have hkeeps : u.slotAt 1 = sharedHeader.slotAt 1 := hother 1 (by decide)
  have hlevels := levelsAfter_retire
  rw [hu, levelsAfter, hkeeps] at hlevels
  exact absurd hlevels (by decide +kernel)
end

section
/-!
Waiting for a flip of a Sluice (R197) and for a register (R198).
-/

namespace Sys2Proof.Machine
open Sys2Proof.Safety

/-! ## `swait` -/

theorem swaitCheck_ok {sl : Slot} {m : MemOp} {e : Elem} (h : check (sl.cr m.c) sl.cmpt [permLD] fmtIsData (sl.coords m) = .ok e)
    (ha : e.va % 64 = 0) : sl.swaitCheck m = .ok e := by
  rw [Slot.swaitCheck, sluiceCheck, h]
  exact if_neg (not_not_intro ha)

theorem swaitCheck_misaligned {sl : Slot} {m : MemOp} {e : Elem}
    (h : check (sl.cr m.c) sl.cmpt [permLD] fmtIsData (sl.coords m) = .ok e) (ha : e.va % 64 ≠ 0) :
    sl.swaitCheck m = .error (FaultInfo.atElem 0x36 e) := by
  rw [Slot.swaitCheck, sluiceCheck, h]
  exact if_pos ha

/-- The first look of a blocking `swait` whose operand passes its checks. -/
theorem execSwaitBlocking_first {s : State} {g : Ctl} {d : XReg} {m : MemOp} {e : Elem} {p : Place} (hg : s.sl.guard g = true)
    (hs : s.sl.stop = .run) (hc : s.sl.swaitCheck m = .ok e) (hp : s.placeAt .observe e = .ok p) :
    exec (.swaitBlocking g d m) s = .next (s.observe g d e (flipsOf (s.sl.xr d))) := by
  refine (guarded_true g s _ hg).trans (congrArg Host.Outcome.next ?_)
  rw [hs, hc]
  change s.orFault (do let _ ← s.placeAt .observe e; return e) _ = _
  rw [hp]
  rfl

/-- What a look at a Sluice gives. -/
theorem observe_blocked {s : State} {g : Ctl} {d : XReg} {e : Elem} {n : Nat}
    (h : ¬ s.mayPerform s.cur s.sl.seq .observe [e] = true) : s.observe g d e n = s.holdTimed (.swait e n) := by
  have hsees : s.seesFlip s.cur e n = none := if_pos (by rw [Bool.not_eq_true']; exact Bool.eq_false_iff.mpr h)
  rw [State.observe, hsees]

theorem seesFlip_reads {s : State} {e : Elem} {n : Nat} (h : s.mayPerform s.cur s.sl.seq .observe [e] = true) :
    s.seesFlip s.cur e n = (match s.readElem (s.who s.cur) .observe s.sl.seq (sluiceWord e) with
      | .error f => some (.error f)
      | .ok (s1, v, _) => if bitsOf v 32 32 = n then none else some (.ok (s1, BitVec.ofNat 64 v))) := by
  refine if_neg ?_
  change ¬ (!s.mayPerform s.cur s.sl.seq .observe [e]) = true
  rw [h]
  decide

theorem observe_error {s : State} {g : Ctl} {d : XReg} {e : Elem} {n : Nat} {f : FaultInfo}
    (h : s.mayPerform s.cur s.sl.seq .observe [e] = true)
    (hr : s.readElem (s.who s.cur) .observe s.sl.seq (sluiceWord e) = .error f) : s.observe g d e n = s.faultNow f := by
  rw [State.observe, seesFlip_reads h, hr]

theorem observe_same {s t : State} {g : Ctl} {d : XReg} {e : Elem} {n v : Nat} {p : Place}
    (h : s.mayPerform s.cur s.sl.seq .observe [e] = true)
    (hr : s.readElem (s.who s.cur) .observe s.sl.seq (sluiceWord e) = .ok (t, v, p)) (hv : bitsOf v 32 32 = n) :
    s.observe g d e n = s.holdTimed (.swait e n) := by
  have hsees : s.seesFlip s.cur e n = none := by
    rw [seesFlip_reads h, hr]
    exact if_pos hv
  rw [State.observe, hsees]

theorem observe_flipped {s t : State} {g : Ctl} {d : XReg} {e : Elem} {n v : Nat} {p : Place}
    (h : s.mayPerform s.cur s.sl.seq .observe [e] = true)
    (hr : s.readElem (s.who s.cur) .observe s.sl.seq (sluiceWord e) = .ok (t, v, p)) (hv : bitsOf v 32 32 ≠ n) :
    s.observe g d e n = (t.updSl fun sl => sl.setX d (BitVec.ofNat 64 v)).done g := by
  have hsees : s.seesFlip s.cur e n = some (.ok (t, BitVec.ofNat 64 v)) := by
    rw [seesFlip_reads h, hr]
    exact if_neg hv
  rw [State.observe, hsees]

/-! ## `wait` -/

/-- What falling through leaves. -/
theorem done_spec (s : State) (g : Ctl) :
    Elsewhere s (s.done g) ∧ FallsThrough s.sl (s.done g).sl ∧ calm (atPlace (s.done g).sl s.sl.pc s.sl.lc) = calm s.sl := by
  obtain ⟨he, k⟩ := issued_spec (s.updSl fun sl => sl.fall sl.pc) g 0
  change calm (s.done g).sl = _ at k
  rw [State.sl_updSl] at k
  refine ⟨elsewhere_trans (elsewhere_updSl s _) he, ?_,
    (congrArg (fun c : Slot => atPlace c s.sl.pc s.sl.lc) k).trans (congrArg calm (fall_rest s.sl))⟩
  have t := fall_spec s.sl
  unfold FallsThrough at t ⊢
  rw [calm_congr k (·.pc) (fun _ => rfl), calm_congr k (·.obj) (fun _ => rfl), calm_congr k (·.lc) (fun _ => rfl)]
  exact t

theorem waitFor_unowed {s : State} {g : Ctl} {r : RegRef} (hg : s.sl.guard g = true)
    (h : ∀ o ∈ s.sl.owed, o.live = true → o.dest ≠ some r) : waitFor g r s = .next (s.done g) := by
  have hnone : s.sl.owed.find? (fun o => o.live && o.dest == some r) = none := by
    rw [List.find?_eq_none]
    intro o ho
    simpa using h o ho
  refine (guarded_true g s _ hg).trans (congrArg Host.Outcome.next ?_)
  rw [hnone]

section
variable {s : State} {g : Ctl} {r : RegRef} {o : Owed} (hg : s.sl.guard g = true)
  (ho : s.sl.owed.find? (fun o => o.live && o.dest == some r) = some o)
include hg ho

theorem waitFor_inFlight (hr : o.res = none) : waitFor g r s = .next (s.hold (.waitReg r)) := by
  refine (guarded_true g s _ hg).trans (congrArg Host.Outcome.next ?_)
  rw [ho]
  dsimp only
  rw [hr]

theorem waitFor_value {w : CapReg} {fl : Nat} (hr : o.res = some (.val w fl)) :
    waitFor g r s = .next ((s.updSl fun sl => sl.landReturned o).done g) := by
  refine (guarded_true g s _ hg).trans (congrArg Host.Outcome.next ?_)
  rw [ho]
  dsimp only
  rw [hr]

theorem waitFor_fault {f : FaultInfo} (hr : o.res = some (.fault f)) :
    waitFor g r s = .next (if (s.done g).sl.stop = .park then s.done g else (s.done g).parkIfOwing) := by
  refine (guarded_true g s _ hg).trans (congrArg Host.Outcome.next ?_)
  rw [ho]
  dsimp only
  rw [hr]

end

/-- The `wait` for a faulting value parks its slot, with everything that it owes. -/
theorem waitFor_parks {s : State} {g : Ctl} {r : RegRef} {o : Owed} {f : FaultInfo} (hg : s.sl.guard g = true)
    (ho : s.sl.owed.find? (fun o => o.live && o.dest == some r) = some o) (hr : o.res = some (.fault f)) :
    ∃ u, waitFor g r s = .next u ∧ u.sl.stop = .park ∧ u.sl.owed = s.sl.owed ∧ SlotKept s.sl u.sl {}
      ∧ u.sl.fflags = s.sl.fflags ∧ FallsThrough s.sl u.sl ∧ Elsewhere s u := by
  obtain ⟨he, hf, hb⟩ := done_spec s g
  obtain ⟨hreads, hrest⟩ := atPlace_reads hb
  have kept {b : Slot} (h : calm b = calm (s.done g).sl) : b.owed = s.sl.owed ∧ SlotKept s.sl b {} ∧ b.fflags = s.sl.fflags
      ∧ FallsThrough s.sl b := by
    obtain ⟨hr', hrest'⟩ := atPlace_reads (a := (s.done g).sl) (b := b) (pc := b.pc) (lc := b.lc) h
    refine ⟨hr'.owed.trans hreads.owed, ⟨fun q _ => (hr'.x q).trans (hreads.x q), fun q _ => (hr'.v q).trans (hreads.v q),
      fun q _ => (hr'.c q).trans (hreads.c q), fun q _ => (hr'.p q).trans (hreads.p q), hrest'.trans hrest⟩,
      hr'.fflags.trans hreads.fflags, ?_⟩
    unfold FallsThrough at hf ⊢
    rw [calm_congr h (·.pc) (fun _ => rfl), calm_congr h (·.obj) (fun _ => rfl), calm_congr h (·.lc) (fun _ => rfl)]
    exact hf
  refine ⟨_, waitFor_fault hg ho hr, ?_⟩
  split
  · next hs =>
    obtain ⟨h1, h2, h3, h4⟩ := kept rfl
    exact ⟨hs, h1, h2, h3, h4, he⟩
  · have howes : (s.done g).sl.owes = true := by
      rw [Slot.owes, hreads.owed, List.any_eq_true]
      refine ⟨o, List.mem_of_find?_eq_some ho, ?_⟩
      have := List.find?_some ho
      rw [Bool.and_eq_true] at this
      exact this.1
    rw [State.parkIfOwing, if_pos howes, sl_count_updSl]
    obtain ⟨h1, h2, h3, h4⟩ := kept (b := { (s.done g).sl with stop := .park }) rfl
    refine ⟨rfl, h1, h2, h3, h4, elsewhere_trans he (elsewhere_trans (elsewhere_updSl _ _) (elsewhere_count _ 2 1 (.inr rfl)))⟩

/-- What does not depend on the registers and flags that landing changes. -/
theorem unlanded_congr {a b : Slot} (h : unlanded b = unlanded a) {α : Type} (f : Slot → α) (hf : ∀ t, f (unlanded t) = f t) :
    f b = f a := by
  rw [← hf b, h, hf]

/-- A slot in which one returned result has landed differs from it in the owed register, the flags and the owing. -/
theorem landReturned_rest (sl : Slot) (o : Owed) : bareSlot (sl.landReturned o) = bareSlot sl := by
  have h := congrArg bareSlot (landOne_unlanded sl o)
  exact h

theorem landReturned_control (sl : Slot) (o : Owed) :
    (sl.landReturned o).pc = sl.pc ∧ (sl.landReturned o).obj = sl.obj ∧ (sl.landReturned o).lc = sl.lc
      ∧ (sl.landReturned o).le = sl.le ∧ (sl.landReturned o).ls = sl.ls := by
  have h := landOne_unlanded sl o
  exact ⟨unlanded_congr h Slot.pc fun _ => rfl, unlanded_congr h Slot.obj fun _ => rfl, unlanded_congr h Slot.lc fun _ => rfl,
    unlanded_congr h Slot.le fun _ => rfl, unlanded_congr h Slot.ls fun _ => rfl⟩

/-- What a landed register reads, and that every other one reads as before. -/
theorem landReg_xr (sl : Slot) (r : RegRef) (m : Line) (w : CapReg) (q : XReg) :
    (sl.landReg r m w).xr q = if r = .x q.val ∧ q ≠ 0 then w.bits.setWidth 64 else sl.xr q := by
  unfold Slot.xr
  rw [landReg_x]
  by_cases h : q = 0
  · simp [h]
  · have hv : q.val ≠ 0 := fun e => h (Fin.ext e)
    simp [h, hv]

theorem landReg_vr (sl : Slot) (r : RegRef) (m : Line) (w : CapReg) (q : VReg) :
    (sl.landReg r m w).vr q = if r = .v q.val then (sl.vr q &&& ~~~m) ||| (w.bits &&& m) else sl.vr q := landReg_v sl r m w q.val

theorem landReg_cr (sl : Slot) (r : RegRef) (m : Line) (w : CapReg) (q : CReg) :
    (sl.landReg r m w).cr q = if r = .c q.val ∧ q ≠ 0 then w else sl.cr q := by
  unfold Slot.cr
  rw [landReg_c]
  by_cases h : q = 0
  · simp [h]
  · have hv : q.val ≠ 0 := fun e => h (Fin.ext e)
    simp [h, hv]

/-- A returned value that lands alone: the register of its owing, and the flags. -/
theorem landReturned_eq {sl : Slot} {o : Owed} {r : RegRef} {w : CapReg} {fl : Nat} (hd : o.dest = some r)
    (hr : o.res = some (.val w fl)) :
    sl.landReturned o = { (sl.landReg r o.mask w).orFlags fl with owed := sl.owed.filter fun x => x != o } := by
  rw [Slot.landReturned, landOne_value sl o w fl hr, hd]

/-- `wait` for a register, given what landing in it reads. -/
theorem waits_register (i : Instr) (s : State) (g : Ctl) (r : RegRef) (d : Dests) (lands : Slot → Line → CapReg → Prop)
    (hg : s.sl.guard g = true) (hissues : Issues i g) (hi : exec i s = waitFor g r s)
    (hland : ∀ m w, (∀ q, d.x ≠ some q → (s.sl.landReg r m w).xr q = s.sl.xr q)
      ∧ (∀ q, d.v ≠ some q → (s.sl.landReg r m w).vr q = s.sl.vr q)
      ∧ (∀ q, d.c ≠ some q → (s.sl.landReg r m w).cr q = s.sl.cr q)
      ∧ ∀ b : Slot, (∀ q, b.xr q = (s.sl.landReg r m w).xr q) → (∀ q, b.vr q = (s.sl.landReg r m w).vr q) →
          (∀ q, b.cr q = (s.sl.landReg r m w).cr q) → lands b m w) :
    ((∀ o ∈ s.sl.owed, o.live = true → o.dest ≠ some r) → ActsNot i s)
      ∧ ∀ o, (s.sl.owed.find? fun o => o.live && o.dest == some r) = some o →
        (o.res = none → Waits i s (.waitReg r))
        ∧ (∀ w fl, o.res = some (.val w fl) → Acts i s d fun b => lands b o.mask w
            ∧ b.fflags = s.sl.fflags ||| BitVec.ofNat 64 (fl % 32) ∧ b.owed = s.sl.owed.filter (fun q => q != o)
            ∧ b.deferred = s.sl.deferred ∧ b.out = s.sl.out)
        ∧ (∀ f, o.res = some (.fault f) → Completes i s fun u => u.sl.stop = .park ∧ u.sl.owed = s.sl.owed
            ∧ SlotKept s.sl u.sl {} ∧ u.sl.fflags = s.sl.fflags ∧ FallsThrough s.sl u.sl ∧ Elsewhere s u) := by
  refine ⟨fun h => actsNot_done i s g 0 hissues (hi.trans (waitFor_unowed hg h)), fun o ho => ⟨fun hr => ?_, fun w fl hr => ?_,
    fun f hr => ?_⟩⟩
  · exact ⟨_, hi.trans (waitFor_inFlight hg ho hr), rfl⟩
  · have hd : o.dest = some r := by
      have h := List.find?_some ho
      rw [Bool.and_eq_true, beq_iff_eq] at h
      exact h.2
    obtain ⟨hx, hv, hc, hlands⟩ := hland o.mask w
    have heq := landReturned_eq (sl := s.sl) hd hr
    have hrest := landReg_rest s.sl r o.mask w
    refine acts_doneStall i s g 0 _ d _ hissues (hi.trans (waitFor_value hg ho hr)) ⟨?_, ?_, ?_, fun q _ => ?_, landReturned_rest _ o⟩
      (landReturned_control _ o) fun b hb => ?_
    · rw [heq]; exact hx
    · rw [heq]; exact hv
    · rw [heq]; exact hc
    · rw [heq]
      exact unlanded_congr hrest.1 (·.pr q) fun _ => rfl
    · rw [heq] at hb
      exact ⟨hlands b hb.x hb.v hb.c, hb.fflags.trans (congrArg (· ||| _) hrest.2), hb.owed,
        hb.deferred.trans (unlanded_congr hrest.1 Slot.deferred fun _ => rfl),
        hb.out.trans (unlanded_congr hrest.1 Slot.out fun _ => rfl)⟩
  · obtain ⟨u, hu, h⟩ := waitFor_parks hg ho hr
    exact ⟨u, hi.trans hu, h⟩

end Sys2Proof.Machine

open Sys2Proof Sys2Proof.Machine Sys2Proof.Safety

/-- The first part of O25. -/
theorem sluiceWaits : Sys2Proof.Parts.SluiceWaits := by
  unfold Sys2Proof.Parts.SluiceWaits
  intro s t g d m e p v hg hc
  dsimp only
  refine ⟨fun ha => ?_, fun ha => ⟨?_, fun hs hp => ?_⟩⟩
  · refine (guarded_true g s _ hg).trans ?_
    rw [swaitCheck_misaligned hc ha]
    rfl
  · refine owes_done _ s g _ _ _ _ (dField 1 0 d.val) (issues_mk rfl) ((guarded_true g s _ hg).trans ?_)
    rw [swaitCheck_ok hc ha]
    rfl
  · have hexec := execSwaitBlocking_first (d := d) hg hs (swaitCheck_ok hc ha) hp
    have waits (h : s.observe g d e (flipsOf (s.sl.xr d)) = s.holdTimed (.swait e (flipsOf (s.sl.xr d)))) :
        Completes (.swaitBlocking g d m) s fun u => u = s.holdTimed (.swait e (flipsOf (s.sl.xr d))) :=
      ⟨_, hexec.trans (congrArg Host.Outcome.next h), rfl⟩
    refine ⟨fun hm => waits (observe_blocked hm), fun f hm hr => hexec.trans (congrArg Host.Outcome.next (observe_error hm hr)),
      fun hm hr hv => waits (observe_same hm hr hv), fun hm hr hv => ?_⟩
    exact actsVia_doneStall _ s _ g 0 (issues_mk rfl) (hexec.trans (congrArg Host.Outcome.next (observe_flipped hm hr hv)))

/-- The second part of O25. -/
theorem waitResults : Sys2Proof.Parts.WaitResults := by
  unfold Sys2Proof.Parts.WaitResults
  intro s g x v c hg
  dsimp only
  refine ⟨waits_register _ s g _ _ (fun b _ w => b.xr x = if x = 0 then 0 else w.bits.setWidth 64) hg (issues_mk rfl) rfl
      fun m w => ⟨fun q hq => ?_, fun q _ => ?_, fun q _ => ?_, fun b hx _ _ => ?_⟩,
    waits_register _ s g _ _ (fun b k w => b.vr v = (s.sl.vr v &&& ~~~k) ||| (w.bits &&& k)) hg (issues_mk rfl) rfl
      fun m w => ⟨fun q _ => ?_, fun q hq => ?_, fun q _ => ?_, fun b _ hv _ => ?_⟩,
    waits_register _ s g _ _ (fun b _ w => b.cr c = if c = 0 then CapReg.null else w) hg (issues_mk rfl) rfl
      fun m w => ⟨fun q _ => ?_, fun q _ => ?_, fun q hq => ?_, fun b _ _ hc => ?_⟩⟩
  · rw [landReg_xr, if_neg fun h => hq (congrArg some (Fin.ext (RegRef.x.inj h.1)))]
  · rw [landReg_vr, if_neg (by simp)]
  · rw [landReg_cr, if_neg (by simp)]
  · rw [hx, landReg_xr]
    by_cases h : x = 0
    · simp [h, Slot.xr]
    · simp [h]
  · rw [landReg_xr, if_neg (by simp)]
  · rw [landReg_vr, if_neg fun h => hq (congrArg some (Fin.ext (RegRef.v.inj h)))]
  · rw [landReg_cr, if_neg (by simp)]
  · rw [hv, landReg_vr, if_pos rfl]
  · rw [landReg_xr, if_neg (by simp)]
  · rw [landReg_vr, if_neg (by simp)]
  · rw [landReg_cr, if_neg fun h => hq (congrArg some (Fin.ext (RegRef.c.inj h.1)))]
  · rw [hc, landReg_cr]
    by_cases h : c = 0
    · simp [h, Slot.cr]
    · simp [h]

/-- Settles O25. -/
theorem waits : Obligations.Waits := ⟨sluiceWaits, waitResults⟩
end

section
/-!
The plane engine at issue (R20, R21, R169 … R181): who may use it, what fills its queue, and what an instruction that enters
it leaves.
-/

namespace Sys2Proof.Machine
open Sys2Proof.Safety

/-! ## Who may use the engine -/

/-- No other slot's chain is open (R176). -/
def State.engineFree (s : State) : Prop := s.core.engine.chain = none ∨ s.core.engine.chain = some (s.cur % 4)

/-- The engine of a slot whose team owns it. -/
theorem claimEngine_own {s : State} (h : s.core.engine.owner = some s.sl.team) : s.claimEngine = s := if_pos h

/-- The engine that the first instruction of another team finds (R20 case 2). -/
def State.takenOver (s : State) : State :=
  s.updMyCore fun c => { c with engine := { c.engine.wiped with owner := some s.sl.team } }

theorem claimEngine_other {s : State} (h : s.core.engine.owner ≠ some s.sl.team) : s.claimEngine = s.takenOver := if_neg h

theorem sl_takenOver (s : State) : s.takenOver.sl = s.sl := sl_updMyCore s _ fun _ => rfl

theorem engine_takenOver (s : State) : s.takenOver.core.engine = { s.core.engine.wiped with owner := some s.sl.team } :=
  congrArg Core.engine (State.coreAt_updCore_self s _ _)

theorem claimEngine_takenOver (s : State) : s.takenOver.claimEngine = s.takenOver :=
  claimEngine_own (by rw [engine_takenOver, sl_takenOver])

/-- With no other slot's chain open, an engine instruction acts for its team. -/
theorem engineIssue_free {s : State} {g : Ctl} (f : State → State) (hg : s.sl.guard g = true) (hf : s.engineFree) :
    engineIssue g s f = .next (f s.claimEngine) := by
  unfold engineIssue
  refine congrArg Host.Outcome.next ?_
  obtain h | h := hf
  · change (match s.core.engine.chain with
      | some k => _
      | none => _) = _
    rw [h]
    exact if_pos hg
  · change (match s.core.engine.chain with
      | some k => _
      | none => _) = _
    rw [h]
    exact (if_neg (not_not_intro rfl)).trans (if_pos hg)

/-- Another slot's chain holds the slot (R176). -/
theorem engineIssue_held {s : State} {g : Ctl} (f : State → State) (hf : ¬ s.engineFree) :
    engineIssue g s f = .next (s.hold .chain) := by
  unfold engineIssue
  refine congrArg Host.Outcome.next ?_
  unfold State.engineFree at hf
  change (match s.core.engine.chain with
    | some k => _
    | none => _) = _
  cases h : s.core.engine.chain with
  | none => exact absurd (.inl h) hf
  | some k => exact if_pos fun e => hf (.inr (h.trans (congrArg some e)))

theorem engineIssue_own {s : State} {g : Ctl} (f : State → State) (hg : s.sl.guard g = true) (hf : s.engineFree)
    (ho : s.core.engine.owner = some s.sl.team) : engineIssue g s f = .next (f s) := by
  rw [engineIssue_free f hg hf, claimEngine_own ho]

/-- The first engine instruction of another team is issued as from the state in which the engine is wiped. -/
theorem engineIssue_takenOver {s : State} {g : Ctl} (f : State → State) (hg : s.sl.guard g = true) (hf : s.engineFree)
    (ho : s.core.engine.owner ≠ some s.sl.team) : engineIssue g s f = engineIssue g s.takenOver f := by
  have hfree : s.takenOver.engineFree := by
    unfold State.engineFree
    rw [engine_takenOver]
    exact hf
  rw [engineIssue_free f hg hf, engineIssue_free f (by rwa [sl_takenOver]) hfree, claimEngine_other ho, claimEngine_takenOver]

/-! ## The queue -/

/-- A staging holds an engine instruction back (R172). -/
theorem interlocked_iff (c : Core) (o : EngineOp) : c.interlocked o = true ↔
    ∃ y ∈ c.barge, y.num ≤ o.after ∧ ∃ t r l p, y.work = .stage t r l p
      ∧ ∃ x ∈ o.work.tiles, (TileF.of t).off < x.off + x.bytes ∧ x.off < (TileF.of t).off + (TileF.of t).bytes := by
  unfold Core.interlocked
  rw [List.any_eq_true]
  refine exists_congr fun y => and_congr_right fun _ => ?_
  rw [Bool.and_eq_true, decide_eq_true_iff]
  refine and_congr_right fun _ => ?_
  cases y.work with
  | stage t r l p => simp [TileF.overlaps]
  | copy d r l t => simp
  | resume r own => simp

/-- The instructions that the engine has taken up, given how they split the queue (R21, R63, R172). -/
theorem engineTaken_eq {c : Core} {taken queued : List EngineOp} (hq : c.engine.queue = taken ++ queued)
    (hfree : ∀ o ∈ taken, ¬ c.interlocked o = true)
    (hchain : ∀ o ∈ taken.tail, o.chain ≠ none ∧ some o.chain = taken.head?.map (·.chain))
    (hnext : ∀ o, queued.head? = some o → c.interlocked o = true
      ∨ taken ≠ [] ∧ (o.chain = none ∨ some o.chain ≠ taken.head?.map (·.chain))) : c.engineTaken = taken.length := by
  unfold Core.engineTaken
  rw [hq]
  cases taken with
  | nil =>
    cases queued with
    | nil => rfl
    | cons o q =>
      have ho := (hnext o rfl).resolve_right fun h => h.1 rfl
      exact if_pos ho
  | cons a taken =>
    simp only [List.tail_cons, List.head?_cons, Option.map_some, Option.some.injEq] at hchain hnext
    refine (if_neg (hfree a List.mem_cons_self)).trans ?_
    have hall : ∀ o ∈ taken, (a.chain.isSome && o.chain == a.chain && !c.interlocked o) = true := by
      intro o ho
      obtain ⟨h1, h2⟩ := hchain o ho
      have h3 := hfree o (List.mem_cons_of_mem a ho)
      rw [← h2]
      simpa [Option.isSome_iff_ne_none, h1] using h3
    have hstop : queued.takeWhile (fun o => a.chain.isSome && o.chain == a.chain && !c.interlocked o) = [] := by
      cases queued with
      | nil => rfl
      | cons o q =>
        refine List.takeWhile_cons_of_neg ?_
        obtain h | ⟨-, h | h⟩ := hnext o rfl
        · simp [h]
        · rw [h]
          cases a.chain <;> simp
        · have hne : o.chain ≠ a.chain := fun e => h (congrArg some e)
          simp [hne]
    rw [List.append_eq, List.takeWhile_append_of_pos hall, hstop, List.append_nil, List.length_cons, Nat.add_comm]

theorem engineFull_iff {c : Core} {taken queued : List EngineOp} (hq : c.engine.queue = taken ++ queued)
    (ht : c.engineTaken = taken.length) : c.engineFull = true ↔ 2 ≤ queued.length := by
  rw [Core.engineFull, decide_eq_true_iff, ht, hq, List.length_append]
  omega

theorem engineQueue_full {s : State} {g : Ctl} (f : State → State) (hg : s.sl.guard g = true) (hf : s.engineFree)
    (ho : s.core.engine.owner = some s.sl.team) (hfull : s.core.engineFull = true) :
    engineQueue g s f = .next (s.hold .engine) :=
  (engineIssue_own _ hg hf ho).trans (congrArg Host.Outcome.next (if_pos hfull))

theorem engineQueue_room {s : State} {g : Ctl} (f : State → State) (hg : s.sl.guard g = true) (hf : s.engineFree)
    (ho : s.core.engine.owner = some s.sl.team) (hroom : ¬ s.core.engineFull = true) : engineQueue g s f = .next (f s) :=
  (engineIssue_own _ hg hf ho).trans (congrArg Host.Outcome.next (if_neg hroom))

/-! ## Entering the queue -/

/-- What a slot owes beside a new owing of a destination (R24 rule 7). -/
def Slot.owedBeside (sl : Slot) (d : Option RegRef) : List Owed :=
  match d with
  | some q => sl.owed.map (Owed.drop q)
  | none => sl.owed

/-- The operation that enters the queue. -/
def State.engineOp (s : State) (w : EngineWork) : EngineOp :=
  { num := s.core.engine.num + 1, slot := s.cur % 4, work := w, after := s.core.bnum
    chain := if s.core.engine.chain.isSome then some s.core.engine.chains else none }

/-- The engine with one more instruction in its queue, whose tags have changed. -/
def State.enqueued (s : State) (w : EngineWork) (tag : Engine → Engine) : Engine :=
  { tag s.core.engine with num := s.core.engine.num + 1, queue := s.core.engine.queue ++ [s.engineOp w] }

/-- What an engine instruction that enters the queue leaves (R169, R171, R175). -/
def EntersEngine (i : Instr) (s : State) (work : EngineWork) (dest : Option RegRef) (tag : Nat → AccTag) (fresh : Nat → Bool) :
    Prop :=
  let e := s.core.engine
  Completes i s fun u =>
    let f := u.core.engine
    f.queue = e.queue ++ [s.engineOp work] ∧ f.num = e.num + 1 ∧ (∀ k, f.tagOf k = tag k) ∧ (∀ k, f.fresh k = fresh k)
    ∧ { f with queue := [], num := 0, tags := [], used := [] } = { e with queue := [], num := 0, tags := [], used := [] }
    ∧ SlotKept s.sl u.sl {} ∧ u.sl.fflags = s.sl.fflags ∧ u.sl.out = s.sl.out ∧ FallsThrough s.sl u.sl
    ∧ Elsewhere (s.updMyCore fun c => { c with engine := f }) u ∧ PacedBy i s u
    ∧ (dest = none → e.chain.isSome = true → OwesAsBefore s.sl u.sl none)
    ∧ (dest ≠ none ∨ e.chain = none → ∃ o : Owed, u.sl.owed = s.sl.owedBeside dest ++ [o]
        ∧ o.dest = dest ∧ o.live = true ∧ o.mask = fullMask ∧ o.flight = .engine (e.num + 1) ∧ o.res = none)

/-- A change of tags changes nothing else of the engine. -/
def TagsOnly (e e' : Engine) : Prop := { e' with tags := [], used := [] } = { e with tags := [], used := [] }

/-- A change of a core's engine that is followed by a fall through of its slot. -/
theorem engine_after {s t u : State} {f : Engine} (ht : t = s.updMyCore fun c => { c with engine := f }) (h : Elsewhere t u) :
    u.core.engine = f := by
  have hcur : u.cur = s.cur := by rw [elsewhere_cur h, ht]; rfl
  have hcore := congrArg Core.engine (h.cores (s.cur / 4))
  have hset : (t.coreAt (s.cur / 4)).engine = f := by
    rw [ht]
    exact congrArg Core.engine (State.coreAt_updCore_self s _ _)
  rw [State.core, hcur]
  exact hcore.trans hset

/-- What an instruction that enters the queue leaves, given the state that it falls through from. -/
theorem entersEngine_via {i : Instr} {s t : State} {g : Ctl} {w : EngineWork} {dest : Option RegRef} {tag : Engine → Engine}
    (hissues : Issues i g) (hi : exec i s = .next (t.done g)) (htag : TagsOnly s.core.engine (tag s.core.engine))
    (ht : Elsewhere (s.updMyCore fun c => { c with engine := s.enqueued w tag }) t) (hnow : t.now = s.now) (hcur : t.cur = s.cur)
    (hsl : SlotKept s.sl t.sl {} ∧ t.sl.fflags = s.sl.fflags ∧ t.sl.out = s.sl.out)
    (hctl : t.sl.pc = s.sl.pc ∧ t.sl.obj = s.sl.obj ∧ t.sl.lc = s.sl.lc ∧ t.sl.le = s.sl.le ∧ t.sl.ls = s.sl.ls)
    (hfree : dest = none → s.core.engine.chain.isSome = true → t.sl = s.sl)
    (howes : dest ≠ none ∨ s.core.engine.chain = none → ∃ o : Owed, t.sl.owed = s.sl.owedBeside dest ++ [o]
      ∧ o.dest = dest ∧ o.live = true ∧ o.mask = fullMask ∧ o.flight = .engine (s.core.engine.num + 1) ∧ o.res = none) :
    EntersEngine i s w dest (tag s.core.engine).tagOf (tag s.core.engine).fresh := by
  obtain ⟨u, hu, hkept, hfl, ⟨hout, hseq, howed, hdef⟩, hfall, helse, hpaced⟩ := actsVia_doneStall i s t g 0 hissues hi
  have hel := elsewhere_trans ht helse
  have hengine := engine_after rfl hel
  refine ⟨u, hu, ?_⟩
  dsimp only
  rw [hengine]
  refine ⟨rfl, rfl, fun _ => rfl, fun _ => rfl, congrArg (fun e : Engine => { e with queue := [], num := 0 }) htag, ?_,
    hfl.trans hsl.2.1, hout.trans hsl.2.2, ?_, hel, ?_, fun hd hc => ?_, fun hd => ?_⟩
  · obtain ⟨hk, -, -⟩ := hsl
    exact ⟨fun q hq => (hkept.x q hq).trans (hk.x q hq), fun q hq => (hkept.v q hq).trans (hk.v q hq),
      fun q hq => (hkept.c q hq).trans (hk.c q hq), fun q hq => (hkept.p q hq).trans (hk.p q hq), hkept.rest.trans hk.rest⟩
  · obtain ⟨h1, h2, h3, h4, h5⟩ := hctl
    unfold FallsThrough at hfall ⊢
    rwa [h1, h2, h3, h4, h5] at hfall
  · intro f k hf hk
    rw [← hnow, ← hcur]
    exact hpaced f k hf hk
  · rw [hfree hd hc] at hout hseq howed hdef
    exact ⟨hout, hseq, howed, hdef⟩
  · obtain ⟨o, ho, h⟩ := howes hd
    exact ⟨o, howed.trans ho, h⟩

theorem oweNow_kept (s : State) (d : Option RegRef) (m : Line) (f : Flight) (acq : Bool) (df : Nat) :
    SlotKept s.sl (s.oweNow d m f acq df).sl {} ∧ (s.oweNow d m f acq df).sl.fflags = s.sl.fflags
      ∧ (s.oweNow d m f acq df).sl.out = s.sl.out := by
  rw [State.oweNow, State.sl_updSl]
  exact ⟨⟨fun _ _ => rfl, fun _ _ => rfl, fun _ _ => rfl, fun _ _ => rfl, rfl⟩, rfl, rfl⟩

theorem oweNow_control (s : State) (d : Option RegRef) (m : Line) (f : Flight) (acq : Bool) (df : Nat) :
    (s.oweNow d m f acq df).sl.pc = s.sl.pc ∧ (s.oweNow d m f acq df).sl.obj = s.sl.obj
      ∧ (s.oweNow d m f acq df).sl.lc = s.sl.lc ∧ (s.oweNow d m f acq df).sl.le = s.sl.le
      ∧ (s.oweNow d m f acq df).sl.ls = s.sl.ls := by
  rw [State.oweNow, State.sl_updSl]
  exact ⟨rfl, rfl, rfl, rfl, rfl⟩

theorem oweNow_owed (s : State) (d : Option RegRef) (m : Line) (f : Flight) (acq : Bool) (df : Nat) :
    ∃ o : Owed, (s.oweNow d m f acq df).sl.owed = s.sl.owedBeside d ++ [o]
      ∧ o.dest = d ∧ o.live = true ∧ o.mask = m ∧ o.flight = f ∧ o.res = none := by
  rw [State.oweNow, State.sl_updSl]
  exact ⟨_, rfl, rfl, rfl, rfl, rfl, rfl⟩

/-- An instruction that enters the queue owes a completion, nothing inside a chain, or the register that it names (R171). -/
theorem entersEngine_enterEngine {i : Instr} {s : State} {g : Ctl} {w : EngineWork} {d : Option RegRef} {df : Nat}
    {tag : Engine → Engine} (hissues : Issues i g) (hi : exec i s = .next (s.enterEngine g w d df tag))
    (htag : TagsOnly s.core.engine (tag s.core.engine)) :
    EntersEngine i s w d (tag s.core.engine).tagOf (tag s.core.engine).fresh := by
  let s1 := s.updMyCore fun c => { c with engine := s.enqueued w tag }
  have hs1 : s1.sl = s.sl := sl_updMyCore s _ fun _ => rfl
  have owing (df' : Nat) (hd : s.enterEngine g w d df tag = (s1.oweNow d fullMask (.engine (s.core.engine.num + 1)) false df').done g)
      (hnot : d = none → s.core.engine.chain.isSome = true → False) :
      EntersEngine i s w d (tag s.core.engine).tagOf (tag s.core.engine).fresh := by
    have hk := oweNow_kept s1 d fullMask (.engine (s.core.engine.num + 1)) false df'
    have hc := oweNow_control s1 d fullMask (.engine (s.core.engine.num + 1)) false df'
    have ho := oweNow_owed s1 d fullMask (.engine (s.core.engine.num + 1)) false df'
    rw [hs1] at hk hc ho
    exact entersEngine_via hissues (hi.trans (congrArg Host.Outcome.next hd)) htag (elsewhere_updSl s1 _) rfl rfl hk hc
      (fun h1 h2 => (hnot h1 h2).elim) fun _ => ho
  cases d with
  | some r => exact owing df rfl fun h => by cases h
  | none =>
    by_cases hc : s.core.engine.chain.isSome = true
    · refine entersEngine_via (t := s1) hissues (hi.trans (congrArg Host.Outcome.next ?_)) htag (elsewhere_refl s1) rfl rfl ?_ ?_
        (fun _ _ => hs1) fun h => ?_
      · exact congrArg (State.done · g) (if_pos hc)
      · rw [hs1]
        exact ⟨⟨fun _ _ => rfl, fun _ _ => rfl, fun _ _ => rfl, fun _ _ => rfl, rfl⟩, rfl, rfl⟩
      · rw [hs1]
        exact ⟨rfl, rfl, rfl, rfl, rfl⟩
      · obtain h | h := h
        · exact absurd rfl h
        · rw [h] at hc
          cases hc
    · exact owing 0 (congrArg (State.done · g) (if_neg hc)) fun _ h => hc h

/-! ## Tags -/

theorem tagsOnly_refl (e : Engine) : TagsOnly e e := rfl

theorem tagsOnly_setTag (e : Engine) (d : Nat) (t : AccTag) : TagsOnly e (e.setTag d t) := rfl

theorem tagsOnly_refresh (e : Engine) (d : Nat) : TagsOnly e (e.refresh d) := rfl

theorem tagOf_setTag (e : Engine) (d : Nat) (t : AccTag) (k : Nat) : (e.setTag d t).tagOf k = if k = d then t else e.tagOf k :=
  SMap.look_put _ _ _ _ _

theorem fresh_setTag (e : Engine) (d : Nat) (t : AccTag) (k : Nat) :
    (e.setTag d t).fresh k = if k = d then false else e.fresh k := by
  unfold Engine.fresh Engine.setTag
  rw [SMap.look_put]
  split <;> rfl

theorem tagOf_refresh (e : Engine) (d k : Nat) : (e.refresh d).tagOf k = if k = d then .fp32 else e.tagOf k :=
  SMap.look_put AccTag.fp32 e.tags d k .fp32

theorem fresh_refresh (e : Engine) (d k : Nat) : (e.refresh d).fresh k = if k = d then true else e.fresh k := by
  unfold Engine.fresh Engine.refresh
  rw [SMap.look_put]
  split <;> rfl

/-- The narrow slots from `d` on that hold the blocks of an `mmb` (R179). -/
def Engine.setBlocks (e : Engine) (d n : Nat) : Engine := (List.range n).foldl (fun x j => x.setTag (d + j) .block) e

theorem setBlocks_succ (e : Engine) (d n : Nat) : e.setBlocks d (n + 1) = (e.setBlocks d n).setTag (d + n) .block := by
  rw [Engine.setBlocks, List.range_succ, List.foldl_append]
  rfl

theorem tagsOnly_setBlocks (e : Engine) (d n : Nat) : TagsOnly e (e.setBlocks d n) := by
  induction n with
  | zero => rfl
  | succ n ih => rw [setBlocks_succ]; exact ih

theorem tagOf_setBlocks (e : Engine) (d n k : Nat) :
    (e.setBlocks d n).tagOf k = if d ≤ k ∧ k < d + n then .block else e.tagOf k := by
  induction n with
  | zero => exact (if_neg (by omega)).symm
  | succ n ih =>
    rw [setBlocks_succ, tagOf_setTag, ih]
    by_cases h : k = d + n
    · rw [if_pos h, if_pos (by omega)]
    · rw [if_neg h]
      exact if_congr (by omega) rfl rfl

theorem fresh_setBlocks (e : Engine) (d n k : Nat) :
    (e.setBlocks d n).fresh k = if d ≤ k ∧ k < d + n then false else e.fresh k := by
  induction n with
  | zero => exact (if_neg (by omega)).symm
  | succ n ih =>
    rw [setBlocks_succ, fresh_setTag, ih]
    by_cases h : k = d + n
    · rw [if_pos h, if_pos (by omega)]
    · rw [if_neg h]
      exact if_congr (by omega) rfl rfl

end Sys2Proof.Machine
end

section
/-!
Engine instructions at issue (R169 … R181), and the control of the engine (R173, R176).
-/

namespace Sys2Proof.Machine
open Sys2Proof.Safety

/-- The formats that `groupFmt` and `intFmt` name (R58). -/
theorem groupFmt_iff (f : Nat) : groupFmt f = true ↔ f ∈ [0x13, 0x14, 0x11, 0x12, 0x10] := by
  simp only [groupFmt, Bool.or_eq_true, beq_iff_eq, List.mem_cons, List.not_mem_nil, or_false, or_assoc]

theorem intFmt_iff (f : Nat) : intFmt f = true ↔ f ∈ [0x09, 0x01, 0x05, 0x02, 0x15] := by
  simp only [intFmt, Bool.or_eq_true, beq_iff_eq, List.mem_cons, List.not_mem_nil, or_false, or_assoc]

/-- A valid tile for rows and one for columns, of formats that a form takes (R177). -/
theorem tilesOk_iff (x y : Word) (ok : Nat → Bool) (p : Nat → Prop) (hp : ∀ f, ok f = true ↔ p f) :
    tilesOk x y ok = true ↔ (TileF.of x).valid = true ∧ (TileF.of x).isB = false ∧ (TileF.of y).valid = true
      ∧ (TileF.of y).isB = true ∧ p (TileF.of x).fmt ∧ p (TileF.of y).fmt := by
  simp only [tilesOk, Bool.and_eq_true, Bool.not_eq_true', hp, and_assoc]

/-- The tags that a form accepts in its accumulator (R175). -/
theorem holdsTag_iff (e : Engine) (d : Nat) (t : AccTag) :
    (e.fresh d || e.tagOf d == t) = true ↔ e.fresh d = true ∨ e.tagOf d = t := by
  rw [Bool.or_eq_true, beq_iff_eq]

/-- A form that its tiles refuse (R177). -/
theorem tiles_refused {b : Bool} {p : Prop} (h : b = true ↔ p) (hp : ¬ p) (u v : State) : (if !b then u else v) = u :=
  if_pos (by rw [Bool.not_eq_true']; exact Bool.eq_false_iff.mpr fun e => hp (h.mp e))

theorem tiles_pass {b : Bool} {p : Prop} (h : b = true ↔ p) (hp : p) (u v : State) : (if !b then u else v) = v :=
  if_neg (by rw [h.mpr hp]; decide)

end Sys2Proof.Machine

open Sys2Proof Sys2Proof.Machine Sys2Proof.Safety

/-- Settles O19: each form is `engineQueue` of its own body, so that who holds the engine and what fills the queue is said once
for all of them, and a body either faults or enters the queue. -/
theorem engineIssue : Obligations.EngineIssue := by
  unfold Obligations.EngineIssue
  intro s g d z wd a b v la lb grp taken queued hg
  dsimp only
  refine ⟨fun hfree => ?_, fun hfree hown ⟨hq, htaken, hchain, hnext⟩ hlen => ?_,
    fun hfree hown ⟨hq, htaken, hchain, hnext⟩ hlen => ?_⟩
  · have held (f : State → State) : engineQueue g s f = .next (s.hold .chain) := engineIssue_held _ hfree
    simp only [List.forall_mem_cons]
    exact ⟨⟨_, (held _ : execMmf g d a b s = _), rfl⟩,
      ⟨_, (held _ : execMmiNarrow g d a b s = _), rfl⟩,
      ⟨_, (held _ : execMmiWide g wd a b s = _), rfl⟩,
      ⟨_, (held _ : execMmb g d a b la lb s = _), rfl⟩,
      ⟨_, (held _ : execMscacc g wd z v s = _), rfl⟩,
      ⟨_, (held _ : execMacldNarrow g v d grp s = _), rfl⟩,
      ⟨_, (held _ : execMacldWide g v wd grp s = _), rfl⟩,
      ⟨_, (held _ : execMzeroNarrow g d s = _), rfl⟩,
      ⟨_, (held _ : execMzeroWide g wd s = _), rfl⟩, List.forall_mem_nil _⟩
  all_goals
    have hcount := engineTaken_eq hq (fun o ho h => htaken o ho ((interlocked_iff _ o).mp h)) hchain
      fun o ho => (hnext o ho).imp_left (interlocked_iff _ o).mpr
    have hfull := engineFull_iff hq hcount
  · have full (f : State → State) : engineQueue g s f = .next (s.hold .engine) :=
      engineQueue_full f hg hfree hown (hfull.mpr hlen)
    simp only [List.forall_mem_cons]
    exact ⟨⟨_, (full _ : execMmf g d a b s = _), rfl⟩,
      ⟨_, (full _ : execMmiNarrow g d a b s = _), rfl⟩,
      ⟨_, (full _ : execMmiWide g wd a b s = _), rfl⟩,
      ⟨_, (full _ : execMmb g d a b la lb s = _), rfl⟩,
      ⟨_, (full _ : execMscacc g wd z v s = _), rfl⟩,
      ⟨_, (full _ : execMacldNarrow g v d grp s = _), rfl⟩,
      ⟨_, (full _ : execMacldWide g v wd grp s = _), rfl⟩,
      ⟨_, (full _ : execMzeroNarrow g d s = _), rfl⟩,
      ⟨_, (full _ : execMzeroWide g wd s = _), rfl⟩, List.forall_mem_nil _⟩
  · have room (f : State → State) : engineQueue g s f = .next (f s) :=
      engineQueue_room f hg hfree hown fun h => absurd (hfull.mp h) (by omega)
    have faults {i : Instr} {u : State} {k : Nat} (hi : exec i s = .next u) (hf : u = s.faultNow (FaultInfo.of k)) :
        FaultsWith i s (FaultInfo.of k) :=
      hi.trans (congrArg Host.Outcome.next hf)
    have enters {i : Instr} {u : State} (w : EngineWork) (dest : Option RegRef) (df : Nat) (tag : Engine → Engine)
        (hissues : Issues i g) (hi : exec i s = .next u) (hu : u = s.enterEngine g w dest df tag)
        (htag : TagsOnly s.core.engine (tag s.core.engine)) :=
      entersEngine_enterEngine hissues (hi.trans (congrArg Host.Outcome.next hu)) htag
    have tags (i : Instr) {u : State} {w : EngineWork} (tag : Engine → Engine) {p : Nat → AccTag} {q : Nat → Bool}
        (hissues : Issues i g) (hi : exec i s = .next u) (hu : u = s.enterEngine g w none 0 tag)
        (htag : TagsOnly s.core.engine (tag s.core.engine)) (hp : ∀ k, (tag s.core.engine).tagOf k = p k)
        (hq : ∀ k, (tag s.core.engine).fresh k = q k) : EntersEngine i s w none p q := by
      rw [← funext hp, ← funext hq]
      exact enters w none 0 tag hissues hi hu htag
    have mmf := (room _ : execMmf g d a b s = _)
    have mmiNarrow := (room _ : execMmiNarrow g d a b s = _)
    have mmiWide := (room _ : execMmiWide g wd a b s = _)
    have mmb := (room _ : execMmb g d a b la lb s = _)
    have mscacc := (room _ : execMscacc g wd z v s = _)
    have hgroup := tilesOk_iff (s.core.engine.tile a) (s.core.engine.tile b) _ _ groupFmt_iff
    have hint := tilesOk_iff (s.core.engine.tile a) (s.core.engine.tile b) _ _ intFmt_iff
    have hblk := tilesOk_iff (s.core.engine.tile a) (s.core.engine.tile b) _ _ fun f => beq_iff_eq (a := f) (b := 0x15)
    have hfp := holdsTag_iff s.core.engine d.val .fp32
    have hi32 := holdsTag_iff s.core.engine d.val .int32
    refine ⟨fun hpair htag => ?_, fun hpair htag => ?_, fun hpair => ?_, fun hpair hlow => ?_, fun htag => ?_, ?_, ?_, ?_, ?_,
      fun hpair => ?_, fun hpair => ⟨?_, ?_⟩, fun hpair => ?_, fun hpair htag => ?_, fun hpair htag => ?_, fun hpair hhigh => ?_,
      fun htag => ?_⟩
    · exact tags (.mmf g d a b) (·.setTag d.val .fp32) (issues_mk rfl) mmf
        ((tiles_pass hgroup hpair _ _).trans (tiles_pass hfp htag _ _)) (tagsOnly_setTag _ _ _)
        (tagOf_setTag _ _ _) (fresh_setTag _ _ _)
    · exact tags (.mmiNarrow g d a b) (·.setTag d.val .int32) (issues_mk rfl) mmiNarrow
        ((tiles_pass hint hpair _ _).trans (tiles_pass hi32 htag _ _)) (tagsOnly_setTag _ _ _)
        (tagOf_setTag _ _ _) (fresh_setTag _ _ _)
    · exact enters _ none 0 id (issues_mk rfl) mmiWide (tiles_pass hint hpair _ _) (tagsOnly_refl _)
    · exact tags (.mmb g d a b la lb) (·.setBlocks d.val (64 / min (blkLen la) (blkLen lb))) (issues_mk rfl) mmb
        ((tiles_pass hblk hpair _ _).trans (if_neg (Nat.not_lt.mpr hlow))) (tagsOnly_setBlocks _ _ _)
        (tagOf_setBlocks _ _ _) (fresh_setBlocks _ _ _)
    · exact enters _ none 0 id (issues_mk rfl) mscacc (if_neg fun h => bne_iff_ne.mp h htag) (tagsOnly_refl _)
    · exact enters _ _ (dField 2 0 v.val) id (issues_mk rfl) (room _ : execMacldNarrow g v d grp s = _) rfl (tagsOnly_refl _)
    · exact enters _ _ (dField 2 0 v.val) id (issues_mk rfl) (room _ : execMacldWide g v wd grp s = _) rfl (tagsOnly_refl _)
    · exact tags (.mzeroNarrow g d) (·.refresh d.val) (issues_mk rfl) (room _ : execMzeroNarrow g d s = _) rfl
        (tagsOnly_refresh _ _) (tagOf_refresh _ _) (fresh_refresh _ _)
    · exact enters _ none 0 id (issues_mk rfl) (room _ : execMzeroWide g wd s = _) rfl (tagsOnly_refl _)
    · exact faults mmf (tiles_refused hgroup hpair _ _)
    · exact faults mmiNarrow (tiles_refused hint hpair _ _)
    · exact faults mmiWide (tiles_refused hint hpair _ _)
    · exact faults mmb (tiles_refused hblk hpair _ _)
    · exact faults mmf ((tiles_pass hgroup hpair _ _).trans (tiles_refused hfp htag _ _))
    · exact faults mmiNarrow ((tiles_pass hint hpair _ _).trans (tiles_refused hi32 htag _ _))
    · exact faults mmb ((tiles_pass hblk hpair _ _).trans (if_pos hhigh))
    · exact faults mscacc (if_pos (bne_iff_ne.mpr htag))
end

section
/-!
The control of the engine: tile registers, chains, and the engine of another team (R20, R173, R176).
-/

namespace Sys2Proof.Machine
open Sys2Proof.Safety

/-- The bits of a tile image that are 0 (R18). -/
def TileReserved (w : Word) : Prop :=
  w.toNat / 2 ^ 56 % 2 ^ 5 = 0 ∧ w.toNat / 2 ^ 61 % 2 = 0 ∧ w.toNat / 2 ^ 42 % 2 = 0 ∧ w.toNat / 2 ^ 18 % 2 ^ 14 = 0

/-- A swizzle that exists, and planes that are aligned and inside the plane region (R173). -/
def TilePlaced (base : Nat) (t : TileF) : Prop :=
  (t.swz = 0 ∨ 8 ≤ t.swz ∧ t.swz ≤ 16) ∧ t.off % 256 = 0
    ∧ base ≤ t.off ∧ t.off + 256 * t.np + (if groupFmt t.fmt then 256 else 0) ≤ base + 0x10000

section
variable {s : State} {core : Nat} {w : Word}

/-! The checks of `tset`, in their order (R173). -/

theorem tileReserved_iff : (bitsOf w.toNat 56 5 != 0 || bitsOf w.toNat 61 1 != 0 || bitsOf w.toNat 42 1 != 0
    || bitsOf w.toNat 18 14 != 0) = true ↔ ¬ TileReserved w := by
  simp only [TileReserved, bitsOf, pow_one, Bool.or_eq_true, bne_iff_ne, not_and_or, or_assoc]

theorem tileCheck_reserved (h : ¬ TileReserved w) : s.tileCheck core w = some 0x31 := if_pos (tileReserved_iff.mpr h)

theorem tileCheck_invalid (h : TileReserved w) (hv : (TileF.of w).valid = false) : s.tileCheck core w = none :=
  (if_neg fun e => tileReserved_iff.mp e h).trans (if_pos (by rw [hv]; rfl))

theorem tileCheck_format (h : TileReserved w) (hv : (TileF.of w).valid = true)
    (hf : stageOk (TileF.of w).fmt (TileF.of w).np = false) : s.tileCheck core w = some 0x01 :=
  (if_neg fun e => tileReserved_iff.mp e h).trans ((if_neg (by rw [hv]; decide)).trans (if_pos (by rw [hf]; rfl)))

theorem tileCheck_valid (h : TileReserved w) (hv : (TileF.of w).valid = true)
    (hf : stageOk (TileF.of w).fmt (TileF.of w).np = true) :
    s.tileCheck core w =
      if !((TileF.of w).swz == 0 || (decide (8 ≤ (TileF.of w).swz) && decide ((TileF.of w).swz ≤ 16))) || (TileF.of w).off % 256 != 0
      then some 0x31
      else if (TileF.of w).off < s.planeBase core ∨ s.planeBase core + 0x10000 < (TileF.of w).off + (TileF.of w).bytes
      then some 0x31 else none :=
  (if_neg fun e => tileReserved_iff.mp e h).trans ((if_neg (by rw [hv]; decide)).trans (if_neg (by rw [hf]; decide)))

theorem tileSwizzle_iff (t : TileF) : (!(t.swz == 0 || (decide (8 ≤ t.swz) && decide (t.swz ≤ 16))) || t.off % 256 != 0) = true ↔
    ¬ ((t.swz = 0 ∨ 8 ≤ t.swz ∧ t.swz ≤ 16) ∧ t.off % 256 = 0) := by
  simp only [Bool.or_eq_true, Bool.not_eq_true', bne_iff_ne, not_and_or, Bool.or_eq_false_iff, beq_eq_false_iff_ne, not_or,
    Bool.and_eq_false_iff, decide_eq_false_iff_not]

theorem tileCheck_placed (h : TileReserved w) (hv : (TileF.of w).valid = true)
    (hf : stageOk (TileF.of w).fmt (TileF.of w).np = true) (hp : TilePlaced (s.planeBase core) (TileF.of w)) :
    s.tileCheck core w = none := by
  obtain ⟨hswz, hoff, hlo, hhi⟩ := hp
  rw [tileCheck_valid h hv hf, if_neg fun e => (tileSwizzle_iff _).mp e ⟨hswz, hoff⟩, if_neg]
  rw [TileF.bytes]
  omega

theorem tileCheck_misplaced (h : TileReserved w) (hv : (TileF.of w).valid = true)
    (hf : stageOk (TileF.of w).fmt (TileF.of w).np = true) (hp : ¬ TilePlaced (s.planeBase core) (TileF.of w)) :
    s.tileCheck core w = some 0x31 := by
  rw [tileCheck_valid h hv hf]
  by_cases hs : ((TileF.of w).swz = 0 ∨ 8 ≤ (TileF.of w).swz ∧ (TileF.of w).swz ≤ 16) ∧ (TileF.of w).off % 256 = 0
  · rw [if_neg fun e => (tileSwizzle_iff _).mp e hs, if_pos]
    refine not_imp_comm.mp (fun hin => ?_) hp
    rw [TileF.bytes] at hin
    exact ⟨hs.1, hs.2, by omega, by omega⟩
  · exact if_pos ((tileSwizzle_iff _).mpr hs)

end

section
variable {s : State} {g : Ctl} (hg : s.sl.guard g = true) (hf : s.engineFree) (ho : s.core.engine.owner = some s.sl.team)
include hg hf ho

theorem execTset_checked {d : TReg} {a : XReg} (h : s.tileCheck (s.cur / 4) (s.sl.xr a) = none) :
    execTset g d a s = .next ((s.updMyCore fun c =>
      { c with engine := { c.engine with t := SMap.put 0 c.engine.t d.val (s.sl.xr a) } }).done g) := by
  refine (engineIssue_own _ hg hf ho).trans ?_
  dsimp only
  rw [h]

theorem execTset_refused {d : TReg} {a : XReg} {k : Nat} (h : s.tileCheck (s.cur / 4) (s.sl.xr a) = some k) :
    execTset g d a s = .next (s.faultNow (FaultInfo.of k)) := by
  refine (engineIssue_own _ hg hf ho).trans ?_
  dsimp only
  rw [h]

theorem execMchain_own : execMchain g s = .next (if s.core.engine.chain.isSome then s.faultNow (FaultInfo.of 0x34)
    else (s.updMyCore fun c =>
      { c with engine := { c.engine with chain := some (s.cur % 4), chains := c.engine.chains + 1 } }).done g) :=
  engineIssue_own _ hg hf ho

theorem execMend_own : execMend g s = .next (if s.core.engine.chain.isNone then s.faultNow (FaultInfo.of 0x34)
    else ((s.updMyCore fun c => { c with engine := { c.engine with chain := none } }).oweNow none fullMask
      (.chain s.core.engine.chains) false 0).done g) :=
  engineIssue_own _ hg hf ho

/-- `mend` closes the chain, and owes its completion (R171, R176). -/
theorem mend_closes (hc : s.core.engine.chain ≠ none) : Completes (.mend g) s fun u =>
    u.core.engine = { s.core.engine with chain := none } ∧ SlotKept s.sl u.sl {} ∧ FallsThrough s.sl u.sl
      ∧ Elsewhere (s.updMyCore fun c => { c with engine := { s.core.engine with chain := none } }) u ∧ PacedBy (.mend g) s u
      ∧ ∃ o : Owed, u.sl.owed = s.sl.owed ++ [o] ∧ o.dest = none ∧ o.live = true ∧ o.flight = .chain s.core.engine.chains
          ∧ o.res = none := by
  let s1 := s.updMyCore fun c => { c with engine := { s.core.engine with chain := none } }
  let t := s1.oweNow none fullMask (.chain s.core.engine.chains) false 0
  have hs1 : s1.sl = s.sl := sl_updMyCore s _ fun _ => rfl
  have hexec : exec (.mend g) s = .next (t.done g) :=
    (execMend_own hg hf ho).trans (congrArg Host.Outcome.next (if_neg (by simpa using hc)))
  obtain ⟨u, hu, hkept, -, ⟨-, -, howed, -⟩, hfall, helse, hpaced⟩ := actsVia_doneStall _ s t g 0 (issues_mk rfl) hexec
  have hel : Elsewhere s1 u := elsewhere_trans (elsewhere_updSl s1 _) helse
  obtain ⟨hk, -, -⟩ := oweNow_kept s1 none fullMask (.chain s.core.engine.chains) false 0
  obtain ⟨hpc, hobj, hlc, hle, hls⟩ := oweNow_control s1 none fullMask (.chain s.core.engine.chains) false 0
  obtain ⟨o, hown, hdest, hlive, -, hflight, hres⟩ := oweNow_owed s1 none fullMask (.chain s.core.engine.chains) false 0
  rw [hs1] at hk hpc hobj hlc hle hls hown
  refine ⟨u, hu, engine_after rfl hel, ⟨fun q hq => (hkept.x q hq).trans (hk.x q hq), fun q hq => (hkept.v q hq).trans (hk.v q hq),
      fun q hq => (hkept.c q hq).trans (hk.c q hq), fun q hq => (hkept.p q hq).trans (hk.p q hq), hkept.rest.trans hk.rest⟩,
    ?_, hel, hpaced, o, howed.trans hown, hdest, hlive, hflight, hres⟩
  unfold FallsThrough at hfall ⊢
  rwa [hpc, hobj, hlc, hle, hls] at hfall

end

end Sys2Proof.Machine

open Sys2Proof Sys2Proof.Machine Sys2Proof.Safety

/-- Settles O20: the checks of `tset` in their order, and every engine instruction being `engineIssue` of a body. -/
theorem engineControl : Obligations.EngineControl := by
  unfold Obligations.EngineControl
  intro s g d a n m wd x y v la lb grp hg
  dsimp only
  refine ⟨fun hfree hown => ⟨fun hres hok => ?_, fun hres => ?_, fun hres hv hfmt => ?_, fun hres hv hfmt hp => ?_,
    fun hc => ⟨?_, ?_⟩, fun hc => ⟨?_, mend_closes hg hfree hown hc⟩⟩, fun hfree => ?_, fun hfree hown => ?_⟩
  · refine actsVia_doneStall _ s _ g 0 (issues_mk rfl) (execTset_checked hg hfree hown ?_)
    cases hv : (TileF.of (s.sl.xr a)).valid with
    | false => exact tileCheck_invalid hres hv
    | true =>
      obtain ⟨hfmt, hp⟩ := hok hv
      exact tileCheck_placed hres hv hfmt hp
  · exact execTset_refused hg hfree hown (tileCheck_reserved hres)
  · exact execTset_refused hg hfree hown (tileCheck_format hres hv hfmt)
  · exact execTset_refused hg hfree hown (tileCheck_misplaced hres hv hfmt hp)
  · exact actsVia_doneStall _ s _ g 0 (issues_mk rfl)
      ((execMchain_own hg hfree hown).trans (congrArg Host.Outcome.next (if_neg (by rw [hc]; decide))))
  · exact (execMend_own hg hfree hown).trans (congrArg Host.Outcome.next (if_pos (by rw [hc]; rfl)))
  · exact (execMchain_own hg hfree hown).trans (congrArg Host.Outcome.next (if_pos (Option.isSome_iff_ne_none.mpr hc)))
  · have held (f : State → State) : engineIssue g s f = .next (s.hold .chain) := engineIssue_held _ hfree
    exact ⟨⟨_, (held _ : execTset g d a s = _), rfl⟩, ⟨_, (held _ : execMchain g s = _), rfl⟩,
      ⟨_, (held _ : execMend g s = _), rfl⟩⟩
  · have wiped (f : State → State) : engineIssue g s f = engineIssue g s.takenOver f := engineIssue_takenOver f hg hfree hown
    have queued (f : State → State) : engineQueue g s f = engineQueue g s.takenOver f := wiped _
    simp only [List.forall_mem_cons]
    exact ⟨(wiped _ : execTset g d a s = _), (wiped _ : execMchain g s = _), (wiped _ : execMend g s = _),
      (queued _ : execMmf g n x y s = _), (queued _ : execMmiNarrow g n x y s = _), (queued _ : execMmiWide g wd x y s = _),
      (queued _ : execMmb g n x y la lb s = _), (queued _ : execMscacc g wd m v s = _),
      (queued _ : execMacldNarrow g v n grp s = _), (queued _ : execMacldWide g v wd grp s = _),
      (queued _ : execMzeroNarrow g n s = _), (queued _ : execMzeroWide g wd s = _), List.forall_mem_nil _⟩
end

section
/-!
The Barge at issue (R21, R183, R185 … R191, R196): what fills its queue, what an instruction that enters it leaves, and the
operand checks.
-/

namespace Sys2Proof.Machine
open Sys2Proof.Safety

/-! ## The queue -/

/-- Two entries wait behind the instruction that the Barge may carry out (R21). -/
def State.BargeFull (s : State) : Prop :=
  match s.core.barge with
  | [] => False
  | op :: q => 2 ≤ q.length + if (s.slotAt (4 * (s.cur / 4) + op.slot)).acked op.seq 6 = true then 0 else 1

theorem bargeFull_iff (s : State) : s.bargeFull (s.cur / 4) = true ↔ s.BargeFull := by
  unfold State.bargeFull State.BargeFull
  change (match s.core.barge with
    | [] => false
    | op :: t => decide (2 ≤ t.length + if s.bargeReady (s.cur / 4) op then 0 else 1)) = true ↔ _
  cases s.core.barge with
  | nil => exact ⟨fun h => Bool.noConfusion h, False.elim⟩
  | cons op q => exact decide_eq_true_iff

section
variable {s : State} {g : Ctl} (hg : s.sl.guard g = true) (f : State → State)
include hg

theorem bargeIssue_full (hf : s.BargeFull) : bargeIssue g s f = .next (s.hold .barge) :=
  (guarded_true g s _ hg).trans (congrArg Host.Outcome.next (if_pos ((bargeFull_iff s).mpr hf)))

theorem bargeIssue_room (hf : ¬ s.BargeFull) : bargeIssue g s f = .next (f s) :=
  (guarded_true g s _ hg).trans (congrArg Host.Outcome.next (if_neg fun h => hf ((bargeFull_iff s).mp h)))

end

/-- The operation that enters the Barge's queue. -/
def State.bargeOp (s : State) (d : XReg) (w : BargeWork) (entry : Bool) : BargeOp :=
  { num := s.core.bnum + 1, slot := s.cur % 4, work := w, iaddr := s.sl.here, dfield := dField 1 0 d.val, defer := entry,
    after := s.eng.num, seq := s.sl.seq, first := 0, pos := 0, got := [] }

/-- The slot with the deferred-effect entry that a count takes (R200). -/
def Slot.countEntry (sl : Slot) (d : XReg) (n : Nat) (entry : Bool) : Slot :=
  if entry then
    { sl with deferred := sl.deferred ++ [{ op := .count n, dest := none, stale := false, iaddr := sl.here, dfield := dField 1 0 d.val }] }
  else sl

/-- What a Barge instruction that takes a place in the queue leaves (R183, R196, R200). -/
def EntersBarge (i : Instr) (s : State) (d : XReg) (w : BargeWork) (entry : Prop) : Prop :=
  let n := s.core.bnum + 1
  (entry → 8 ≤ s.sl.deferred.length → FaultsWith i s (FaultInfo.of 0x38))
  ∧ ((entry → s.sl.deferred.length < 8) → Completes i s fun u =>
    (∃ op : BargeOp, u.core.barge = s.core.barge ++ [op] ∧ op.num = n ∧ op.slot = s.cur % 4 ∧ op.work = w
      ∧ op.iaddr = s.sl.here ∧ (op.defer = true ↔ entry) ∧ op.after = s.core.engine.num ∧ op.seq = s.sl.seq
      ∧ op.first = 0 ∧ op.pos = 0 ∧ op.got = [])
    ∧ u.core.bnum = n ∧ SlotKept s.sl u.sl {} ∧ u.sl.fflags = s.sl.fflags ∧ u.sl.out = s.sl.out ∧ FallsThrough s.sl u.sl
    ∧ Elsewhere (s.updMyCore fun c => { c with bnum := n, barge := u.core.barge }) u ∧ PacedBy i s u
    ∧ (∃ q : Owed, u.sl.owed = s.sl.owed.map (Owed.drop (.x d.val)) ++ [q] ∧ q.dest = some (.x d.val) ∧ q.live = true
        ∧ q.mask = fullMask ∧ q.flight = .barge n w ∧ q.res = none)
    ∧ (entry → u.sl.deferred.length = s.sl.deferred.length + 1
        ∧ ∃ e, u.sl.deferred[s.sl.deferred.length]? = some e ∧ e.op = .count n)
    ∧ (¬ entry → u.sl.deferred.length = s.sl.deferred.length))


theorem oweNow_deferred (s : State) (r : RegRef) (m : Line) (f : Flight) (acq : Bool) (df : Nat) :
    (s.oweNow (some r) m f acq df).sl.deferred = s.sl.deferred.map (Defer.drop r) := by
  rw [State.oweNow, State.sl_updSl]
  rfl

theorem Defer.drop_op (r : RegRef) (e : Defer) : (e.drop r).op = e.op := by
  unfold Defer.drop
  split <;> rfl

/-- The core of a Barge instruction that enters the queue. -/
def State.bargeQueued (s : State) (d : XReg) (w : BargeWork) (entry : Bool) : State :=
  s.updMyCore fun c => { c with bnum := s.core.bnum + 1, barge := s.core.barge ++ [s.bargeOp d w entry] }

theorem barge_after {s u : State} {d : XReg} {w : BargeWork} {entry : Bool} (h : Elsewhere (s.bargeQueued d w entry) u) :
    u.core.barge = s.core.barge ++ [s.bargeOp d w entry] ∧ u.core.bnum = s.core.bnum + 1 := by
  have hcur : u.cur = (s.bargeQueued d w entry).cur := elsewhere_cur h
  have hset := State.coreAt_updCore_self s (s.cur / 4)
    fun c => { c with bnum := s.core.bnum + 1, barge := s.core.barge ++ [s.bargeOp d w entry] }
  have hcore := h.cores (s.cur / 4)
  rw [State.core, hcur]
  exact ⟨(congrArg Core.barge hcore).trans (congrArg Core.barge hset), (congrArg Core.bnum hcore).trans (congrArg Core.bnum hset)⟩

/-- What an instruction leaves that owes its status from a state in which its core and its deferred effects alone have
changed. -/
theorem entersBarge_via {i : Instr} {s t : State} {g : Ctl} {d : XReg} {w : BargeWork} {b : Bool} (hissues : Issues i g)
    (hi : exec i s = .next ((t.oweNow (some (.x d.val)) fullMask (.barge (s.core.bnum + 1) w) false (dField 1 0 d.val)).done g))
    (ht : Elsewhere (s.bargeQueued d w b) t) (hnow : t.now = s.now)
    (hsl : t.sl = s.sl.countEntry d (s.core.bnum + 1) b) :
    Completes i s fun u =>
      (∃ op : BargeOp, u.core.barge = s.core.barge ++ [op] ∧ op.num = s.core.bnum + 1 ∧ op.slot = s.cur % 4 ∧ op.work = w
        ∧ op.iaddr = s.sl.here ∧ op.defer = b ∧ op.after = s.core.engine.num ∧ op.seq = s.sl.seq
        ∧ op.first = 0 ∧ op.pos = 0 ∧ op.got = [])
      ∧ u.core.bnum = s.core.bnum + 1 ∧ SlotKept s.sl u.sl {} ∧ u.sl.fflags = s.sl.fflags ∧ u.sl.out = s.sl.out
      ∧ FallsThrough s.sl u.sl ∧ Elsewhere (s.updMyCore fun c => { c with bnum := s.core.bnum + 1, barge := u.core.barge }) u
      ∧ PacedBy i s u
      ∧ (∃ q : Owed, u.sl.owed = s.sl.owed.map (Owed.drop (.x d.val)) ++ [q] ∧ q.dest = some (.x d.val) ∧ q.live = true
          ∧ q.mask = fullMask ∧ q.flight = .barge (s.core.bnum + 1) w ∧ q.res = none)
      ∧ u.sl.deferred = (s.sl.countEntry d (s.core.bnum + 1) b).deferred.map (Defer.drop (.x d.val)) := by
  obtain ⟨u, hu, hkept, hfl, ⟨hout, -, howed, hdef⟩, hfall, helse, hpaced⟩ := actsVia_doneStall i s _ g 0 hissues hi
  have hel : Elsewhere (s.bargeQueued d w b) u := elsewhere_trans (elsewhere_trans ht (elsewhere_updSl t _)) helse
  obtain ⟨hbarge, hnum⟩ := barge_after hel
  obtain ⟨hk, hkfl, hkout⟩ := oweNow_kept t (some (.x d.val)) fullMask (.barge (s.core.bnum + 1) w) false (dField 1 0 d.val)
  obtain ⟨hpc, hobj, hlc, hle, hls⟩ := oweNow_control t (some (.x d.val)) fullMask (.barge (s.core.bnum + 1) w) false (dField 1 0 d.val)
  obtain ⟨q, hq, hdest, hlive, hmask, hflight, hres⟩ :=
    oweNow_owed t (some (.x d.val)) fullMask (.barge (s.core.bnum + 1) w) false (dField 1 0 d.val)
  rw [oweNow_deferred, hsl] at hdef
  have hs : SlotKept s.sl t.sl {} ∧ t.sl.fflags = s.sl.fflags ∧ t.sl.out = s.sl.out ∧ t.sl.owed = s.sl.owed
      ∧ t.sl.pc = s.sl.pc ∧ t.sl.obj = s.sl.obj ∧ t.sl.lc = s.sl.lc ∧ t.sl.le = s.sl.le ∧ t.sl.ls = s.sl.ls := by
    rw [hsl]
    cases b <;> exact ⟨⟨fun _ _ => rfl, fun _ _ => rfl, fun _ _ => rfl, fun _ _ => rfl, rfl⟩, rfl, rfl, rfl, rfl, rfl, rfl, rfl, rfl⟩
  obtain ⟨hs, hsfl, hsout, hsowed, hspc, hsobj, hslc, hsle, hsls⟩ := hs
  refine ⟨u, hu, ⟨_, hbarge, rfl, rfl, rfl, rfl, rfl, rfl, rfl, rfl, rfl, rfl⟩, hnum,
    ⟨fun r hr => (hkept.x r hr).trans ((hk.x r hr).trans (hs.x r hr)), fun r hr => (hkept.v r hr).trans ((hk.v r hr).trans (hs.v r hr)),
      fun r hr => (hkept.c r hr).trans ((hk.c r hr).trans (hs.c r hr)), fun r hr => (hkept.p r hr).trans ((hk.p r hr).trans (hs.p r hr)),
      hkept.rest.trans (hk.rest.trans hs.rest)⟩,
    hfl.trans (hkfl.trans hsfl), hout.trans (hkout.trans hsout), ?_, ?_, ?_, ⟨q, ?_, hdest, hlive, hmask, hflight, hres⟩, hdef⟩
  · unfold FallsThrough at hfall ⊢
    rwa [hpc, hobj, hlc, hle, hls, hspc, hsobj, hslc, hsle, hsls] at hfall
  · rw [hbarge]
    exact hel
  · intro f k hf hk
    have hp := hpaced f k hf hk
    change Paced k t.now _ ∧ _ = if _ then some (t.cur % 4) else none at hp
    rwa [hnow, elsewhere_cur ht] at hp
  · rw [howed, hq, Slot.owedBeside, hsowed]

/-- A Barge instruction takes its place in the queue, its deferred-effect entry if it needs one, and owes its status. -/
theorem entersBarge_enterBarge {i : Instr} {s : State} {g : Ctl} {d : XReg} {w : BargeWork} {b : Bool} {entry : Prop}
    (hissues : Issues i g) (hi : exec i s = .next (s.enterBarge g d w b)) (hb : b = true ↔ entry) : EntersBarge i s d w entry := by
  constructor
  · intro he hfull
    exact hi.trans (congrArg Host.Outcome.next (if_pos (by rw [hb.mpr he]; simpa using hfull)))
  · intro hroom
    have hnext := hi.trans (congrArg Host.Outcome.next (if_neg (by
      rw [Bool.and_eq_true, decide_eq_true_iff]
      exact fun h => absurd (hroom (hb.mp h.1)) (by omega))))
    have hs1 : (s.bargeQueued d w b).sl = s.sl := sl_updMyCore s _ fun _ => rfl
    have hvia : _ := entersBarge_via (t := if b then (s.bargeQueued d w b).updSl fun sl => sl.countEntry d (s.core.bnum + 1) true
      else s.bargeQueued d w b) (b := b) hissues hnext (by
        cases b
        · exact elsewhere_refl _
        · exact elsewhere_updSl _ _) (by cases b <;> rfl) (by
        cases b
        · exact hs1
        · exact (State.sl_updSl _ _).trans (congrArg (fun sl : Slot => sl.countEntry d (s.core.bnum + 1) true) hs1))
    obtain ⟨u, hu, ⟨op, hbarge, hnum, hslot, hwork, haddr, hdefer, hop⟩, hn, hkept, hfl, hout, hfall, hel, hp, howed, hdef⟩ := hvia
    refine ⟨u, hu, ⟨op, hbarge, hnum, hslot, hwork, haddr, by rw [hdefer, hb], hop⟩, hn, hkept, hfl, hout, hfall, hel, hp, howed,
      fun he => ?_, fun he => ?_⟩
    · rw [hdef, hb.mpr he]
      refine ⟨by simp [Slot.countEntry], ?_⟩
      rw [Slot.countEntry, if_pos rfl, List.getElem?_map, List.getElem?_concat_length]
      exact ⟨_, rfl, Defer.drop_op _ _⟩
    · rw [hdef, Bool.eq_false_iff.mpr fun h => he (hb.mp h), Slot.countEntry, if_neg Bool.false_ne_true, List.length_map]

end Sys2Proof.Machine

namespace Sys2Proof.Machine
open Sys2Proof.Safety

/-! ## Operand checks -/

theorem usableBy_iff (c : CapF) (cmpt : Nat) : c.usableBy cmpt = true ↔ (c.life = 2 → c.cmpt = cmpt) := by
  simp only [CapF.usableBy, Bool.or_eq_true, bne_iff_ne, beq_iff_eq, ← imp_iff_not_or]

/-- One of the two capabilities of a copy passes steps 2 and 3 of R187. -/
def CopyUsable (dst src c : CapF) (cmpt linePerm : Nat) : Prop :=
  c.has permCP = true ∧ c.fmt ≠ 0x21 ∧ (dst.fmt = 0x20 → src.fmt = 0x20 → c.has linePerm = true)
    ∧ (c.life = 2 → c.cmpt = cmpt) ∧ c.seal_ = 0

theorem copyCheck_ok {dst src : CapReg} {cmpt : Nat} (hd : dst.tag = true) (hs : src.tag = true)
    (hdu : CopyUsable dst.f src.f dst.f cmpt permSC) (hsu : CopyUsable dst.f src.f src.f cmpt permLC)
    (hk : fmtKind dst.f.fmt = fmtKind src.f.fmt) (hb : fmtBits dst.f.fmt = fmtBits src.f.fmt) :
    copyCheck dst src cmpt = none := by
  have perm (c : CapF) (p : Nat) (h : CopyUsable dst.f src.f c cmpt p) :
      (c.has permCP && (!(dst.f.fmt == 0x20 && src.f.fmt == 0x20) || c.has p) && c.fmt != 0x21 && c.usableBy cmpt) = true := by
    obtain ⟨hcp, hfmt, hline, hlife, -⟩ := h
    have hl : (!(dst.f.fmt == 0x20 && src.f.fmt == 0x20) || c.has p) = true := by
      by_cases h20 : dst.f.fmt = 0x20 ∧ src.f.fmt = 0x20
      · rw [hline h20.1 h20.2, Bool.or_true]
      · rw [Bool.or_eq_true, Bool.not_eq_true', Bool.and_eq_false_iff, beq_eq_false_iff_ne, beq_eq_false_iff_ne]
        exact .inl (not_and_or.mp h20)
    rw [hcp, hl, (usableBy_iff c cmpt).mpr hlife, bne_iff_ne.mpr hfmt]
    rfl
  unfold copyCheck
  dsimp only
  rw [if_neg (by rw [hd, hs]; decide), if_neg (by rw [perm _ _ hdu, perm _ _ hsu]; decide),
    if_neg (by rw [hdu.2.2.2.2, hsu.2.2.2.2]; decide), if_neg (by rw [hk, hb]; simp)]

theorem copyCheck_untagged {dst src : CapReg} {cmpt : Nat} (h : dst.tag = false ∨ src.tag = false) :
    copyCheck dst src cmpt = some 0x10 :=
  if_pos (by obtain h | h := h <;> simp [h])

theorem sluiceCheck_ok {c : CapReg} {cmpt : Nat} {perms : List Nat} {k : Coords} {e : Elem}
    (h : check c cmpt perms fmtIsData k = .ok e) (ha : e.va % 64 = 0) : sluiceCheck c cmpt perms k = .ok e := by
  unfold sluiceCheck
  rw [h]
  exact if_neg (not_not_intro ha)

theorem defersCount_iff (s : State) (slu : CapReg) : s.defersCount slu = true ↔ s.sl.committed = none ∧ slu.f.life ≠ 0 := by
  rw [State.defersCount, Bool.and_eq_true, Option.isNone_iff_eq_none, bne_iff_ne]

/-- The checks of a copy, with the Sluice that its template counts on (R187). -/
theorem copyChecks_ok {dst src slu : CapReg} {cmpt : Nat} {count : Bool} {e : Elem} (h : copyCheck dst src cmpt = none)
    (hs : count = true → check slu cmpt [permAT, permLD, permST] fmtIsData Coords.zero = .ok e ∧ e.va % 64 = 0) :
    copyChecks dst src slu cmpt count = .ok () := by
  unfold copyChecks
  rw [h]
  cases count with
  | false => rfl
  | true => exact congrArg (Except.map fun _ => ()) (sluiceCheck_ok (hs rfl).1 (hs rfl).2)

/-- The last element that a staging reads. -/
def stageCorner (t : TileF) (o : StageOpts) : Coords :=
  if o.kax then { Coords.zero with k0 := t.nm, k1 := o.kn.val } else { Coords.zero with k0 := o.kn.val, k1 := t.nm }

/-- The hints of a capability agree with the tile (R191). -/
def Hinted (c : CapF) (t : TileF) : Prop := (c.hlay = 1 → t.isB = false) ∧ (c.hlay = 2 → t.isB = true) ∧ c.hswz = t.swz

theorem not_hinted_iff (c : CapF) (t : TileF) :
    ((c.hlay == 1 && t.isB) || (c.hlay == 2 && !t.isB) || c.hswz != t.swz) = true ↔ ¬ Hinted c t := by
  simp only [Hinted, Bool.or_eq_true, Bool.and_eq_true, beq_iff_eq, Bool.not_eq_true', bne_iff_ne, not_and_or, Classical.not_imp,
    Bool.not_eq_false, Bool.not_eq_true, or_assoc]

theorem stageChecks_ok {tile : Word} {c slu : CapReg} {cmpt : Nat} {o : StageOpts} {e es : Elem}
    (hv : (TileF.of tile).valid = true) (hh : o.hnt = true → Hinted c.f (TileF.of tile))
    (hc : check c cmpt [permPL] fmtIsData (stageCorner (TileF.of tile) o) = .ok e) (hf : c.f.fmt = (TileF.of tile).fmt)
    (hs : o.slu = true → check slu cmpt [permAT, permLD, permST] fmtIsData Coords.zero = .ok es ∧ es.va % 64 = 0) :
    stageChecks tile c slu cmpt o = .ok () := by
  unfold stageChecks
  dsimp only
  unfold stageCorner at hc
  rw [if_neg (by rw [hv]; decide), if_neg (by
    rw [Bool.and_eq_true, not_hinted_iff]
    exact fun h => h.2 (hh h.1)), hc]
  refine (if_neg (not_not_intro hf)).trans ?_
  cases ho : o.slu with
  | false => exact if_neg Bool.false_ne_true
  | true => exact (if_pos rfl).trans (congrArg (Except.map fun _ => ()) (sluiceCheck_ok (hs ho).1 (hs ho).2))

theorem stageChecks_invalid {tile : Word} {c slu : CapReg} {cmpt : Nat} {o : StageOpts} (hv : (TileF.of tile).valid = false) :
    stageChecks tile c slu cmpt o = .error (FaultInfo.of 0x31) :=
  if_pos (by rw [hv]; rfl)

/-- The eight lines of a resume record pass their checks (R190). -/
theorem recordCheck_ok {c : CapReg} {cmpt : Nat} {ln : Nat → Elem}
    (h : ∀ j : Nat, j < 8 → check c cmpt [permLC] fmtIsLine { Coords.zero with k0 := j } = .ok (ln j)) :
    recordCheck c cmpt = .ok () := by
  have upTo (n : Nat) (hn : n ≤ 8) : (List.range n).foldl (fun (r : Except FaultInfo Unit) (j : Nat) => match r with
      | .error f => .error f
      | .ok _ => match check c cmpt [permLC] fmtIsLine { Coords.zero with k0 := (j : Int) } with
        | .error n => .error (FaultInfo.ofCheck c n { Coords.zero with k0 := (j : Int) })
        | .ok _ => .ok ()) (.ok ()) = .ok () := by
    induction n with
    | zero => rfl
    | succ n ih =>
      rw [List.range_succ, List.foldl_append, ih (by omega)]
      simp only [List.foldl_cons, List.foldl_nil, h n (by omega)]
  exact upTo 8 le_rfl

/-- The named area holds a template at an offset (R185). -/
theorem templateAt_read {s : State} {off : Nat} {t : Template} (hoff : off % 64 = 0) (hin : off + 256 ≤ s.namedSize s.sl.grid)
    (hlost : ¬ s.poisoned (2 * memKey (.spad (s.cur / 4)) off) 512 = true)
    (ht : templateOf (Memory.num s.mem (memKey (.spad (s.cur / 4)) off) 256) = some t) : s.templateAt off = .ok t := by
  unfold State.templateAt
  dsimp only
  rw [if_neg (by omega), if_neg hlost, ht]

theorem templateAt_outside {s : State} {off : Nat} (h : ¬ (off % 64 = 0 ∧ off + 256 ≤ s.namedSize s.sl.grid)) :
    s.templateAt off = .error (FaultInfo.of 0x35) :=
  if_pos (by omega)

theorem templateAt_lost {s : State} {off : Nat} (hoff : off % 64 = 0) (hin : off + 256 ≤ s.namedSize s.sl.grid)
    (hlost : s.poisoned (2 * memKey (.spad (s.cur / 4)) off) 512 = true) :
    s.templateAt off = .error (FaultInfo.atElem 0x23 (templateElem off)) := by
  unfold State.templateAt
  dsimp only
  rw [if_neg (by omega), if_pos hlost]

theorem templateAt_refused {s : State} {off : Nat} (hoff : off % 64 = 0) (hin : off + 256 ≤ s.namedSize s.sl.grid)
    (hlost : ¬ s.poisoned (2 * memKey (.spad (s.cur / 4)) off) 512 = true)
    (ht : templateOf (Memory.num s.mem (memKey (.spad (s.cur / 4)) off) 256) = none) :
    s.templateAt off = .error (FaultInfo.of 0x35) := by
  unfold State.templateAt
  dsimp only
  rw [if_neg (by omega), if_neg hlost, ht]

theorem orFault_ok {α : Type} (s : State) {r : Except FaultInfo α} {a : α} (f : α → State) (h : r = .ok a) : s.orFault r f = f a := by
  rw [h]; rfl

theorem orFault_error {α : Type} (s : State) {r : Except FaultInfo α} {e : FaultInfo} (f : α → State) (h : r = .error e) :
    s.orFault r f = s.faultNow e := by
  rw [h]; rfl

end Sys2Proof.Machine

open Sys2Proof Sys2Proof.Machine Sys2Proof.Safety

/-- Settles O22: each form is `bargeIssue` of its own checks, after which it enters the queue. -/
theorem bargeIssue : Obligations.BargeIssue := by
  unfold Obligations.BargeIssue
  intro s g d a b tr im o te es ln hg
  dsimp only
  refine ⟨fun hfull => ?_, fun hroom => ?_⟩
  · have full (f : State → State) : Machine.bargeIssue g s f = .next (s.hold .barge) := bargeIssue_full hg f hfull
    simp only [List.forall_mem_cons]
    exact ⟨⟨_, (full _ : execBcopyTemplate g d a b im s = _), rfl⟩, ⟨_, (full _ : execBcopyCommonShape g d a b s = _), rfl⟩,
      ⟨_, (full _ : execBstage g d tr b o s = _), rfl⟩, ⟨_, (full _ : execBres g d a s = _), rfl⟩, List.forall_mem_nil _⟩
  · have room (f : State → State) : Machine.bargeIssue g s f = .next (f s) := bargeIssue_room hg f hroom
    have template := (room _ : execBcopyTemplate g d a b im s = _)
    have shape := (room _ : execBcopyCommonShape g d a b s = _)
    have stage := (room _ : execBstage g d tr b o s = _)
    have resume := (room _ : execBres g d a s = _)
    refine ⟨fun ⟨hd, hs, hdu, hsu, hk, hb⟩ => ?_, fun hready => ⟨?_, fun hout => ?_, fun ⟨hoff, hin⟩ hlost => ?_,
      fun ⟨hoff, hin⟩ hlost hread => ?_⟩, fun hready => ?_, fun htag => ?_, fun ⟨hv, hh, hc, hf⟩ hslu => ?_,
      fun ⟨hv, hh, hc, hf⟩ hslu e he hal => ?_, fun hv => ?_, fun hrec => ?_⟩
    · refine entersBarge_enterBarge (issues_mk rfl) (shape.trans (congrArg Host.Outcome.next (orFault_ok s _
        (copyChecks_ok (e := es) (copyCheck_ok hd hs hdu hsu hk hb) fun h => by cases h)))) (by simp)
    · intro ⟨hoff, hin⟩ hlost hread ⟨hd, hs, hdu, hsu, hk, hb⟩ hslu
      refine entersBarge_enterBarge (issues_mk rfl) (template.trans (congrArg Host.Outcome.next
        ((if_neg (by rw [hready]; decide)).trans ((orFault_ok s _ (templateAt_read hoff hin hlost hread)).trans
          (orFault_ok s _ (copyChecks_ok (copyCheck_ok hd hs hdu hsu hk hb) hslu)))))) ?_
      rw [Bool.and_eq_true, defersCount_iff]
    · exact template.trans (congrArg Host.Outcome.next ((if_neg (by rw [hready]; decide)).trans
        (orFault_error s _ (templateAt_outside hout))))
    · exact template.trans (congrArg Host.Outcome.next ((if_neg (by rw [hready]; decide)).trans
        (orFault_error s _ (templateAt_lost hoff hin hlost))))
    · exact template.trans (congrArg Host.Outcome.next ((if_neg (by rw [hready]; decide)).trans
        (orFault_error s _ (templateAt_refused hoff hin hlost hread))))
    · exact ⟨_, template.trans (congrArg Host.Outcome.next (if_pos (by rw [hready]; rfl))), rfl⟩
    · refine shape.trans (congrArg Host.Outcome.next (orFault_error s _ ?_))
      unfold copyChecks
      rw [copyCheck_untagged htag]
    · exact entersBarge_enterBarge (issues_mk rfl) (stage.trans (congrArg Host.Outcome.next (orFault_ok s _
        (stageChecks_ok (es := es) hv hh hc hf fun h => by rw [hslu] at h; cases h)))) (by rw [hslu]; simp)
    · refine entersBarge_enterBarge (issues_mk rfl) (stage.trans (congrArg Host.Outcome.next (orFault_ok s _
        (stageChecks_ok hv hh hc hf fun _ => ⟨he, hal⟩)))) ?_
      rw [hslu, Bool.true_and, defersCount_iff]
    · exact stage.trans (congrArg Host.Outcome.next (orFault_error s _ (stageChecks_invalid hv)))
    · exact entersBarge_enterBarge (issues_mk rfl) (resume.trans (congrArg Host.Outcome.next (orFault_ok s _ (recordCheck_ok hrec))))
        Option.isNone_iff_eq_none
end

section
/-!
Special registers (R12, R13, R15, R126, R223 … R225, R243) and performance counters (R226 … R228).
-/

namespace Sys2Proof.Machine
open Sys2Proof.Safety

/-! ## Special registers -/

/-- The compartment of the slot that issues is privileged (R342). -/
def State.PrivilegedNow (s : State) : Prop :=
  s.sl.cmpt = 0 ∨ (SMap.look Cmpt.reset (s.worldAt s.sl.world).cmpts s.sl.cmpt).priv = true

theorem privileged_iff (s : State) : s.privileged s.cur = true ↔ s.PrivilegedNow := by
  unfold State.privileged State.PrivilegedNow
  rw [Bool.or_eq_true, beq_iff_eq]
  rfl

theorem not_privileged_iff (s : State) : s.privileged s.cur = false ↔ ¬ s.PrivilegedNow := by
  rw [← privileged_iff, Bool.not_eq_true]

theorem clFlags_own (s : State) : s.clFlags (clusterOf (s.cur / 4)) =
    (List.range 64).foldl (fun w j => w ||| (s.slotAt (64 * (s.cur / 64) + j)).fflags) 0 := by
  unfold State.clFlags clusterOf
  rw [Nat.div_div_eq_div_mul]

section
variable {s : State} {g : Ctl} (hg : s.sl.guard g = true)
include hg

/-- `sysrd` of a register that the compartment may read. -/
theorem writesX_sysrd (d : XReg) {r : SReg} (h : sregPriv r = true → s.PrivilegedNow) : WritesX (.sysrd g d r) s d (s.sregValue r) := by
  refine writesX_doneStall _ s g 0 d _ (issues_mk rfl) ((guarded_true g s _ hg).trans (congrArg Host.Outcome.next (if_neg ?_)))
  rw [Bool.and_eq_true, Bool.not_eq_true', not_privileged_iff]
  exact fun e => e.2 (h e.1)

theorem faultsWith_sysrd (d : XReg) {r : SReg} (h : sregPriv r = true) (hp : ¬ s.PrivilegedNow) :
    FaultsWith (.sysrd g d r) s (FaultInfo.of 0x02) :=
  (guarded_true g s _ hg).trans (congrArg Host.Outcome.next (if_pos (by rw [h, (not_privileged_iff s).mpr hp]; rfl)))

theorem syswrWith_unprivileged {v : Word} (hp : ¬ s.PrivilegedNow) :
    syswrWith g .wtlim v s = .next (s.faultNow (FaultInfo.of 0x02)) :=
  (guarded_true g s _ hg).trans (congrArg Host.Outcome.next (if_pos ⟨rfl, (not_privileged_iff s).mpr hp⟩))

theorem syswrWith_allowed {r : WReg} {v : Word} (hp : r = .wtlim → s.PrivilegedNow) :
    syswrWith g r v s = .next (match s.writeSreg r v with
      | some t => t.done g
      | none => s.faultNow (FaultInfo.of 0x01)) :=
  (guarded_true g s _ hg).trans (congrArg Host.Outcome.next (if_neg fun e => (not_privileged_iff s).mp e.2 (hp e.1)))

theorem syswrWith_written {r : WReg} {v : Word} {t : State} (hp : r = .wtlim → s.PrivilegedNow) (h : s.writeSreg r v = some t) :
    syswrWith g r v s = .next (t.done g) := by
  rw [syswrWith_allowed hg hp, h]

theorem syswrWith_refused {r : WReg} {v : Word} (hp : r = .wtlim → s.PrivilegedNow) (h : s.writeSreg r v = none) :
    syswrWith g r v s = .next (s.faultNow (FaultInfo.of 0x01)) := by
  rw [syswrWith_allowed hg hp, h]

/-- What an instruction does that writes a value to a special register. -/
theorem writesSpecial (v : Word) (i : WReg → Instr) (hissues : ∀ r, Issues (i r) g) (hi : ∀ r, exec (i r) s = syswrWith g r v s) :
    let sets (r : WReg) (ok : Prop) (f : Slot → Slot) : Prop :=
      (ok → ActsVia (i r) s (s.updSl f)) ∧ (¬ ok → FaultsWith (i r) s (FaultInfo.of 0x01))
    sets .frm (v.toNat % 8 ≤ 4) (fun q => { q with frm := BitVec.ofNat 64 (v.toNat % 8) })
    ∧ sets .fflags True (fun q => { q with fflags := BitVec.ofNat 64 (v.toNat % 32) })
    ∧ sets .lc True (fun q => { q with lc := v }) ∧ sets .ls (v.toNat % 4 = 0) (fun q => { q with ls := v })
    ∧ sets .le (v.toNat % 4 = 0) (fun q => { q with le := v })
    ∧ (¬ s.PrivilegedNow → FaultsWith (i .wtlim) s (FaultInfo.of 0x02))
    ∧ (s.PrivilegedNow → v.toNat = 0 ∨ 2 ^ 32 ≤ v.toNat → FaultsWith (i .wtlim) s (FaultInfo.of 0x01))
    ∧ (s.PrivilegedNow → v.toNat ≠ 0 → v.toNat < 2 ^ 32 →
        ActsVia (i .wtlim) s (s.updMyCore fun c => { c with wtlim := v })) := by
  have acts (r : WReg) (hr : r = .wtlim → s.PrivilegedNow) (t : State) (h : s.writeSreg r v = some t) : ActsVia (i r) s t :=
    actsVia_doneStall _ s t g 0 (hissues r) ((hi r).trans (syswrWith_written hg hr h))
  have refused (r : WReg) (hr : r = .wtlim → s.PrivilegedNow) (h : s.writeSreg r v = none) :
      FaultsWith (i r) s (FaultInfo.of 0x01) :=
    (hi r).trans (syswrWith_refused hg hr h)
  have hzero : v = 0 ↔ v.toNat = 0 := BitVec.toNat_inj.symm
  refine ⟨⟨fun h => ?_, fun h => ?_⟩, ⟨fun _ => acts .fflags (by simp) _ rfl, fun h => absurd trivial h⟩,
    ⟨fun _ => acts .lc (by simp) _ rfl, fun h => absurd trivial h⟩,
    ⟨fun h => acts .ls (by simp) _ (if_pos h), fun h => refused .ls (by simp) (if_neg h)⟩,
    ⟨fun h => acts .le (by simp) _ (if_pos h), fun h => refused .le (by simp) (if_neg h)⟩,
    fun hp => (hi _).trans (syswrWith_unprivileged hg hp), fun hp h => ?_, fun hp h0 h32 => ?_⟩
  · exact acts .frm (by simp) _ (congrArg (Option.map _) (if_pos h))
  · exact refused .frm (by simp) (congrArg (Option.map _) (if_neg h))
  · exact refused .wtlim (fun _ => hp) (if_pos (h.imp_left hzero.mpr))
  · exact acts .wtlim (fun _ => hp) _ (if_neg fun h => h.elim (fun e => h0 (hzero.mp e)) (by omega))

end

theorem specialRegisters : Sys2Proof.Parts.SpecialRegisters := by
  intro s g d a i hg
  dsimp only
  have reads (r : SReg) (h : sregPriv r = false) {w : Word} (hw : s.sregValue r = w) : WritesX (.sysrd g d r) s d w :=
    hw ▸ writesX_sysrd hg d (by rw [h]; simp)
  simp only [List.forall_mem_cons]
  refine ⟨⟨reads .frm rfl rfl, reads .fflags rfl rfl, reads .lc rfl rfl, reads .ls rfl rfl, reads .le rfl rfl, reads .actid rfl rfl,
    reads .coreid rfl rfl, reads .teamid rfl rfl, reads .stage rfl rfl, reads .gx rfl rfl, reads .gy rfl rfl, reads .gz rfl rfl,
    reads .defocc rfl rfl, reads .cmptno rfl rfl, reads .calldepth rfl rfl, List.forall_mem_nil _⟩, fun hp => ?_, fun hp => ?_,
    writesSpecial hg _ (fun r => .syswrRegister g r a) (fun _ => issues_mk rfl) fun _ => rfl,
    writesSpecial hg _ (fun r => .syswrImmediate g r i) (fun _ => issues_mk rfl)
      fun r => congrArg (syswrWith g r · s) (BitVec.ofNat_toNat 64 i).symm⟩
  · have sup (r : SReg) {w : Word} (hw : s.sregValue r = w) : WritesX (.sysrd g d r) s d w := hw ▸ writesX_sysrd hg d fun _ => hp
    exact ⟨sup .tcause rfl, sup .tiaddr rfl, sup .tfva rfl, sup .taux rfl, sup .tstate rfl, sup .cwrem rfl, sup .fltcnt rfl,
      sup .wtlim rfl, sup .clflags (clFlags_own s), List.forall_mem_nil _⟩
  · have refused (r : SReg) (h : sregPriv r = true) : FaultsWith (.sysrd g d r) s (FaultInfo.of 0x02) := faultsWith_sysrd hg d h hp
    exact ⟨refused .tcause rfl, refused .tiaddr rfl, refused .tfva rfl, refused .taux rfl, refused .tstate rfl, refused .cwrem rfl,
      refused .fltcnt rfl, refused .wtlim rfl, refused .clflags rfl, List.forall_mem_nil _⟩

/-! ## Counters -/

/-- The last counter of a kind that R227 assigns. -/
def lastCounter (kind : Nat) : Nat := [6, 2, 3, 3].getD kind 0

/-- R226 gives a name to the counter. -/
def CounterNamed (n : Nat) : Prop :=
  n < 2 ^ 24 ∧ n / 2 ^ 20 % 2 ^ 4 ≤ 3 ∧ n / 2 ^ 10 % 2 ^ 10 < [512, 32, 128, 32].getD (n / 2 ^ 20 % 2 ^ 4) 0
    ∧ n % 2 ^ 10 ≤ lastCounter (n / 2 ^ 20 % 2 ^ 4)

theorem counterAssigned_iff {kind : Nat} (hk : kind ≤ 3) (n : Nat) : counterAssigned kind n = true ↔ n ≤ lastCounter kind := by
  interval_cases kind <;> exact decide_eq_true_iff

theorem counterUnits_eq {kind : Nat} (hk : kind ≤ 3) : counterUnits kind = [512, 32, 128, 32].getD kind 0 := by
  interval_cases kind <;> rfl

theorem counterUnnamed_iff (n : Nat) : (2 ^ 24 ≤ n ∨ 3 < bitsOf n 20 4 ∨ counterUnits (bitsOf n 20 4) ≤ bitsOf n 10 10
    ∨ counterAssigned (bitsOf n 20 4) (bitsOf n 0 10) = false) ↔ ¬ CounterNamed n := by
  have h0 : bitsOf n 0 10 = n % 2 ^ 10 := by rw [bitsOf, pow_zero, Nat.div_one]
  rw [h0]
  unfold bitsOf CounterNamed
  by_cases hk : n / 2 ^ 20 % 2 ^ 4 ≤ 3
  · rw [counterUnits_eq hk, ← Bool.not_eq_true, counterAssigned_iff hk]
    simp only [not_and_or, not_lt, not_le]
  · simp only [hk, not_le.mp hk, true_or, or_true, false_and, and_false, not_false_eq_true]

/-- A counter as its reader receives it (R228). -/
def State.counterSeen (s : State) (world kind unit j : Nat) : Word :=
  if s.counterOwner kind unit = world then s.counter kind unit j
  else if (s.worldAt (s.counterOwner kind unit)).policy = none then BitVec.ofNat 64 (2 ^ 64 - 1)
  else SMap.look 0 (s.worldAt (s.counterOwner kind unit)).copies (perfKey kind unit j)

theorem counterFor_eq (s : State) (world kind unit j : Nat) : s.counterFor world kind unit j = s.counterSeen world kind unit j := by
  unfold State.counterFor State.counterSeen
  dsimp only
  cases (s.worldAt (s.counterOwner kind unit)).policy with
  | none => rw [if_pos rfl]; rfl
  | some b => rw [if_neg (nofun : ¬ some b = none)]

theorem ctrValue_scalar (s : State) (world kind unit n : Nat) :
    s.ctrValue world kind unit n false = capOfWord (s.counterSeen world kind unit n) :=
  congrArg capOfWord (counterFor_eq s world kind unit n)

theorem ctrValue_vector (s : State) (world : Nat) {kind : Nat} (hk : kind ≤ 3) (unit n : Nat) :
    s.ctrValue world kind unit n true =
      { bits := lanes 64 8 fun j => if n + j ≤ lastCounter kind then (s.counterSeen world kind unit (n + j)).toNat else 0
        tag := false } := by
  unfold State.ctrValue
  rw [if_pos rfl]
  congr 2
  funext j
  rw [counterFor_eq]
  exact if_congr (counterAssigned_iff hk _) rfl rfl

section
variable {s : State} {g : Ctl} (hg : s.sl.guard g = true) {r : RegRef} {cls d : Nat} {vec : Bool} {a : XReg}
include hg

/-- `ctr` of a counter of the issuing core owes the value that it reads in the cycle of issue. -/
theorem ctrWith_own (h : CounterNamed (s.sl.xr a).toNat)
    (ho : bitsOf (s.sl.xr a).toNat 20 4 = 0 ∧ bitsOf (s.sl.xr a).toNat 10 10 = s.cur / 4) :
    ctrWith g r cls d vec a s = .next ((s.oweNow (some r) fullMask (.ready (s.ctrValue s.sl.world
      (bitsOf (s.sl.xr a).toNat 20 4) (bitsOf (s.sl.xr a).toNat 10 10) (bitsOf (s.sl.xr a).toNat 0 10) vec)) false
      (dField cls 0 d)).done g) :=
  (guarded_true g s _ hg).trans (congrArg Host.Outcome.next ((if_neg fun e => (counterUnnamed_iff _).mp e h).trans
    (congrArg (fun f => (s.oweNow (some r) fullMask f false (dField cls 0 d)).done g) (if_pos ho))))

/-- `ctr` of any other counter owes what the unit answers. -/
theorem ctrWith_other (h : CounterNamed (s.sl.xr a).toNat)
    (ho : ¬ (bitsOf (s.sl.xr a).toNat 20 4 = 0 ∧ bitsOf (s.sl.xr a).toNat 10 10 = s.cur / 4)) :
    ctrWith g r cls d vec a s = .next ((s.oweNow (some r) fullMask (.ctr (bitsOf (s.sl.xr a).toNat 20 4)
      (bitsOf (s.sl.xr a).toNat 10 10) (bitsOf (s.sl.xr a).toNat 0 10) vec) false (dField cls 0 d)).done g) :=
  (guarded_true g s _ hg).trans (congrArg Host.Outcome.next ((if_neg fun e => (counterUnnamed_iff _).mp e h).trans
    (congrArg (fun f => (s.oweNow (some r) fullMask f false (dField cls 0 d)).done g) (if_neg ho))))

theorem ctrWith_unnamed (h : ¬ CounterNamed (s.sl.xr a).toNat) :
    ctrWith g r cls d vec a s = .next (s.faultNow (FaultInfo.of 0x3E)) :=
  (guarded_true g s _ hg).trans (congrArg Host.Outcome.next (if_pos ((counterUnnamed_iff _).mpr h)))

end

theorem counterReads : Sys2Proof.Parts.CounterReads := by
  intro s g d v a hg
  dsimp only
  have hlow : bitsOf (s.sl.xr a).toNat 0 10 = (s.sl.xr a).toNat % 2 ^ 10 := by rw [bitsOf, pow_zero, Nat.div_one]
  refine ⟨fun hn hown => ⟨?_, ?_⟩, fun hn hown => ⟨?_, ?_⟩, fun hn => ⟨ctrWith_unnamed hg hn, ctrWith_unnamed hg hn⟩⟩
  · have h := (ctrWith_own hg hn hown : execCtrX g d a s = _)
    rw [ctrValue_scalar, hlow] at h
    exact owes_done _ s g _ _ _ _ (dField 1 0 d.val) (issues_mk rfl) h
  · have h := (ctrWith_own hg hn hown : execCtrV g v a s = _)
    rw [ctrValue_vector s _ (show bitsOf (s.sl.xr a).toNat 20 4 ≤ 3 from hn.2.1), hlow] at h
    exact owes_done _ s g _ _ _ _ (dField 2 0 v.val) (issues_mk rfl) h
  · have h := (ctrWith_other hg hn hown : execCtrX g d a s = _)
    rw [hlow] at h
    exact owes_done _ s g _ _ _ _ (dField 1 0 d.val) (issues_mk rfl) h
  · have h := (ctrWith_other hg hn hown : execCtrV g v a s = _)
    rw [hlow] at h
    exact owes_done _ s g _ _ _ _ (dField 2 0 v.val) (issues_mk rfl) h

end Sys2Proof.Machine

open Sys2Proof Sys2Proof.Machine Sys2Proof.Safety

/-- Settles O31: every register by the equation of `sregValue` or `writeSreg` for it, and the counters by what R226 names. -/
theorem registersAndCounters : Obligations.RegistersAndCounters := ⟨specialRegisters, counterReads⟩
end

section
/-!
Taking an exception (R26, R127, R221, R229 … R233, R243): what a line write leaves, the lines of a trap frame and the parts
of its words, and the state in which the handler starts.
-/

namespace Sys2Proof.Machine
open Sys2Proof.Safety

/-! ## Numbers made of fields -/

/-- A number made of fields, a width and a value each, from the lowest on. -/
def packed : List (Nat × Nat) → Nat
  | [] => 0
  | f :: l => f.2 + 2 ^ f.1 * packed l

/-- The bits below the fields of a list. -/
def fieldBits (l : List (Nat × Nat)) : Nat := (l.map Prod.fst).sum

theorem packed_lt : ∀ l : List (Nat × Nat), (∀ f ∈ l, f.2 < 2 ^ f.1) → packed l < 2 ^ fieldBits l
  | [], _ => Nat.one_pos
  | f :: l, h => by
    have ih := packed_lt l fun x hx => h x (List.mem_cons_of_mem f hx)
    have hf := h f List.mem_cons_self
    calc packed (f :: l) < 2 ^ f.1 + 2 ^ f.1 * packed l := Nat.add_lt_add_right hf _
      _ = 2 ^ f.1 * (packed l + 1) := by rw [Nat.mul_add, Nat.mul_one, Nat.add_comm]
      _ ≤ 2 ^ f.1 * 2 ^ fieldBits l := Nat.mul_le_mul_left _ ih
      _ = 2 ^ fieldBits (f :: l) := by rw [← Nat.pow_add]; rfl

/-- A field reads back. -/
theorem packed_field : ∀ (l : List (Nat × Nat)) (i w x : Nat), (∀ f ∈ l, f.2 < 2 ^ f.1) → l[i]? = some (w, x) →
    packed l / 2 ^ fieldBits (l.take i) % 2 ^ w = x
  | [], _, _, _, _, hi => by simp at hi
  | f :: l, 0, w, x, h, hi => by
    obtain rfl : f = (w, x) := by simpa using hi
    have hx : x < 2 ^ w := h _ List.mem_cons_self
    change (x + 2 ^ w * packed l) / 2 ^ 0 % 2 ^ w = x
    rw [pow_zero, Nat.div_one, Nat.add_mul_mod_self_left, Nat.mod_eq_of_lt hx]
  | f :: l, i + 1, w, x, h, hi => by
    have ih := packed_field l i w x (fun y hy => h y (List.mem_cons_of_mem f hy)) (by simpa using hi)
    have hf := h f List.mem_cons_self
    have hbits : fieldBits ((f :: l).take (i + 1)) = f.1 + fieldBits (l.take i) := rfl
    rw [hbits, Nat.pow_add, ← Nat.div_div_eq_div_mul, packed, Nat.add_mul_div_left _ _ (Nat.two_pow_pos _), Nat.div_eq_of_lt hf,
      Nat.zero_add, ih]

theorem packed_append (l k : List (Nat × Nat)) : packed (l ++ k) = packed l + 2 ^ fieldBits l * packed k := by
  induction l with
  | nil => simp [packed, fieldBits]
  | cons f l ih =>
    have hbits : fieldBits (f :: l) = f.1 + fieldBits l := rfl
    rw [List.cons_append, packed, ih, packed, hbits, Nat.pow_add, Nat.mul_add, Nat.mul_assoc, Nat.add_assoc]

/-- The elements of a line, as fields. -/
def laneFields (w n : Nat) (f : Nat → Nat) : List (Nat × Nat) := (List.range n).map fun i => (w, f i % 2 ^ w)

theorem fieldBits_laneFields (w n : Nat) (f : Nat → Nat) : fieldBits (laneFields w n f) = w * n := by
  simp [fieldBits, laneFields, Function.comp_def, Nat.mul_comm]

theorem foldr_lanes (w : Nat) (f : Nat → Nat) (n a : Nat) :
    (List.range n).foldr (fun i acc => acc + 2 ^ (w * i) * (f i % 2 ^ w)) a = packed (laneFields w n f) + a := by
  induction n generalizing a with
  | zero => exact (Nat.zero_add a).symm
  | succ n ih =>
    have hlast : laneFields w (n + 1) f = laneFields w n f ++ [(w, f n % 2 ^ w)] := by
      rw [laneFields, List.range_succ, List.map_append]; rfl
    rw [List.range_succ, List.foldr_append, List.foldr_cons, List.foldr_nil, ih, hlast, packed_append, fieldBits_laneFields, packed,
      packed, Nat.mul_zero, Nat.add_zero, Nat.add_assoc, Nat.add_comm a]

/-- An element of a line reads back. -/
theorem lane_lanes {w n : Nat} (f : Nat → Nat) (hn : w * n ≤ 512) {i : Nat} (hi : i < n) :
    lane w i (lanes w n f) = f i % 2 ^ w := by
  have hfit : ∀ x ∈ laneFields w n f, x.2 < 2 ^ x.1 := by
    intro x hx
    obtain ⟨j, -, rfl⟩ := List.mem_map.mp hx
    exact Nat.mod_lt _ (Nat.two_pow_pos w)
  have hlt : packed (laneFields w n f) < 2 ^ 512 :=
    Nat.lt_of_lt_of_le (packed_lt _ hfit) (by
      rw [fieldBits_laneFields]
      exact Nat.pow_le_pow_right (by decide) hn)
  have htake : fieldBits ((laneFields w n f).take i) = w * i := by
    have : (laneFields w n f).take i = laneFields w i f := by
      rw [laneFields, ← List.map_take, List.take_range, Nat.min_eq_left hi.le]; rfl
    rw [this, fieldBits_laneFields]
  rw [lane, lanes, foldr_lanes, Nat.add_zero, BitVec.toNat_ofNat, Nat.mod_eq_of_lt hlt, ← htake]
  exact packed_field _ i w _ hfit (by simp [laneFields, hi])

/-! ## Bytes and lines -/

theorem leNum_append (l : List Byte) (b : Byte) : leNum (l ++ [b]) = leNum l + 2 ^ (8 * l.length) * b.toNat := by
  induction l with
  | nil => simp [leNum]
  | cons a l ih =>
    have hcons (l : List Byte) : leNum (a :: l) = a.toNat + 256 * leNum l := rfl
    rw [List.cons_append, hcons, hcons, ih, List.length_cons, Nat.mul_succ, Nat.pow_add]
    ring

/-- Bytes spell the low part of the number that they were taken from. -/
theorem leNum_leBytes (n v : Nat) : leNum (leBytes n v) = v % 2 ^ (8 * n) := by
  induction n with
  | zero => exact (Nat.mod_one v).symm
  | succ n ih =>
    have hlast : leBytes (n + 1) v = leBytes n v ++ [BitVec.ofNat 8 (v / 2 ^ (8 * n))] := by
      rw [leBytes, List.range_succ, List.map_append]; rfl
    have hlen : (leBytes n v).length = n := by simp [leBytes]
    rw [hlast, leNum_append, ih, hlen, BitVec.toNat_ofNat, Nat.mul_succ, Nat.pow_add, Nat.mod_mul]

/-- A whole line reads back. -/
theorem lineAt_putLine_self (s : State) (k : Nat) (v : CapReg) : (s.putLine k v).lineAt k = v := by
  have hlen : (leBytes 64 v.bits.toNat).length = 64 := by simp [leBytes]
  have hbytes : Memory.getBytes (s.putLine k v).mem (64 * lineKey k) 64 = leBytes 64 v.bits.toNat := by
    refine List.ext_getElem? fun i => ?_
    by_cases hi : i < 64
    · have hb := List.getElem?_eq_getElem (l := leBytes 64 v.bits.toNat) (i := i) (by omega)
      rw [hb, Memory.getBytes, List.getElem?_map, List.getElem?_range hi]
      exact congrArg some (Memory.get_setBytes_in _ s.mem (64 * lineKey k) i _ hb)
    · rw [List.getElem?_eq_none (by simp [Memory.getBytes]; omega), List.getElem?_eq_none (by omega)]
  have hbits : BitVec.ofNat 512 (Memory.num (s.putLine k v).mem (64 * lineKey k) 64) = v.bits := by
    rw [Memory.num, hbytes, leNum_leBytes, Nat.mod_eq_of_lt v.bits.isLt, BitVec.ofNat_toNat, BitVec.setWidth_eq]
  have htag : (s.putLine k v).tagAt k = v.tag := SMap.look_put_self false s.tags (lineKey k) v.tag
  rw [State.lineAt, hbits, htag]

theorem byte_putLine_ne (s : State) {k j : Nat} (v : CapReg) (h : lineKey j ≠ lineKey k) : (s.putLine k v).byte j = s.byte j := by
  have hlen : (leBytes 64 v.bits.toNat).length = 64 := by simp [leBytes]
  refine Memory.get_setBytes_out _ s.mem (64 * lineKey k) j ?_
  unfold lineKey at h ⊢
  omega

theorem tagAt_putLine_ne (s : State) {k j : Nat} (v : CapReg) (h : lineKey j ≠ lineKey k) : (s.putLine k v).tagAt j = s.tagAt j :=
  SMap.look_put_ne false s.tags v.tag h

theorem lineAt_putLine_ne (s : State) {k j : Nat} (v : CapReg) (h : lineKey j ≠ lineKey k) : (s.putLine k v).lineAt j = s.lineAt j := by
  have hbytes : Memory.getBytes (s.putLine k v).mem (64 * lineKey j) 64 = Memory.getBytes s.mem (64 * lineKey j) 64 := by
    refine List.map_congr_left fun i hi => byte_putLine_ne s v ?_
    have hi := List.mem_range.mp hi
    unfold lineKey at h ⊢
    omega
  rw [State.lineAt, State.lineAt, Memory.num, Memory.num, hbytes, tagAt_putLine_ne s v h]

/-! ## Lines written one after another -/

/-- Writes `n` lines. -/
def State.putLines (s : State) (key : Nat → Nat) (v : Nat → CapReg) (n : Nat) : State :=
  (List.range n).foldl (fun t j => t.putLine (key j) (v j)) s

theorem putLines_succ (s : State) (key : Nat → Nat) (v : Nat → CapReg) (n : Nat) :
    s.putLines key v (n + 1) = (s.putLines key v n).putLine (key n) (v n) := by
  rw [State.putLines, List.range_succ, List.foldl_append]
  rfl

/-- Each line reads back when no two of them are the same. -/
theorem lineAt_putLines (s : State) (key : Nat → Nat) (v : Nat → CapReg) {n : Nat}
    (hinj : ∀ i j, i < n → j < n → lineKey (key i) = lineKey (key j) → i = j) {j : Nat} (hj : j < n) :
    (s.putLines key v n).lineAt (key j) = v j := by
  induction n with
  | zero => omega
  | succ n ih =>
    rw [putLines_succ]
    by_cases h : j = n
    · rw [h, lineAt_putLine_self]
    · rw [lineAt_putLine_ne _ _ fun e => h (hinj j n (by omega) (by omega) e),
        ih (fun i k hi hk => hinj i k (by omega) (by omega)) (by omega)]

theorem putLines_elsewhere (s : State) (key : Nat → Nat) (v : Nat → CapReg) (n : Nat) {k : Nat}
    (h : ∀ j, j < n → lineKey k ≠ lineKey (key j)) :
    (s.putLines key v n).byte k = s.byte k ∧ (s.putLines key v n).tagAt k = s.tagAt k := by
  induction n with
  | zero => exact ⟨rfl, rfl⟩
  | succ n ih =>
    obtain ⟨hb, ht⟩ := ih fun j hj => h j (by omega)
    have hn := h n (Nat.lt_succ_self n)
    rw [putLines_succ, byte_putLine_ne _ _ hn, tagAt_putLine_ne _ _ hn]
    exact ⟨hb, ht⟩

theorem putLines_cores (s : State) (key : Nat → Nat) (v : Nat → CapReg) (n : Nat) : (s.putLines key v n).cores = s.cores := by
  induction n with
  | zero => rfl
  | succ n ih => rw [putLines_succ, State.putLine_cores, ih]

theorem putLines_cur (s : State) (key : Nat → Nat) (v : Nat → CapReg) (n : Nat) : (s.putLines key v n).cur = s.cur := by
  induction n with
  | zero => rfl
  | succ n ih => rw [putLines_succ, State.putLine_cur, ih]

theorem lineAt_updSlot (s : State) (k j : Nat) (f : Slot → Slot) : (s.updSlot k f).lineAt j = s.lineAt j := rfl

theorem byte_updSlot (s : State) (k j : Nat) (f : Slot → Slot) : (s.updSlot k f).byte j = s.byte j := rfl

theorem tagAt_updSlot (s : State) (k j : Nat) (f : Slot → Slot) : (s.updSlot k f).tagAt j = s.tagAt j := rfl

theorem byte_counted (s : State) (j : Nat) : s.counted.byte j = s.byte j := rfl

theorem tagAt_counted (s : State) (j : Nat) : s.counted.tagAt j = s.tagAt j := rfl

/-! ## The trap frame -/

/-- The lines of a slot's trap frame lie one after another in its core's scratchpad (R281). -/
theorem lineKey_frameKey {key j : Nat} (hj : j < 54) :
    lineKey (frameKey key j) = (Space.spad (key / 4)).num * 2 ^ 58 + 0xC40 + 54 * (key % 4) + j := by
  unfold lineKey frameKey memKey frameOff
  omega

theorem frameKey_inj {key i j : Nat} (hi : i < 54) (hj : j < 54) (h : lineKey (frameKey key i) = lineKey (frameKey key j)) :
    i = j := by
  rw [lineKey_frameKey hi, lineKey_frameKey hj] at h
  omega

theorem writeFrame_line (s : State) (key : Nat) (f : FaultInfo) {j : Nat} (hj : j < 54) :
    (s.writeFrame key f).lineAt (frameKey key j) = (s.slotAt key).frameLine f j :=
  lineAt_putLines s (frameKey key) ((s.slotAt key).frameLine f) (fun _ _ => frameKey_inj) hj

theorem writeFrame_elsewhere (s : State) (key : Nat) (f : FaultInfo) {k : Nat}
    (h : ∀ j, j < 54 → lineKey k ≠ lineKey (frameKey key j)) :
    (s.writeFrame key f).byte k = s.byte k ∧ (s.writeFrame key f).tagAt k = s.tagAt k :=
  putLines_elsewhere s (frameKey key) _ 54 h

theorem writeFrame_cur (s : State) (key : Nat) (f : FaultInfo) : (s.writeFrame key f).cur = s.cur :=
  putLines_cur s (frameKey key) _ 54

theorem writeFrame_cores (s : State) (key : Nat) (f : FaultInfo) : (s.writeFrame key f).cores = s.cores :=
  putLines_cores s (frameKey key) _ 54

theorem coreAt_writeFrame (s : State) (key : Nat) (f : FaultInfo) (c : Nat) : (s.writeFrame key f).coreAt c = s.coreAt c :=
  congrArg (SMap.look Core.reset · c) (writeFrame_cores s key f)

theorem slotAt_writeFrame (s : State) (key : Nat) (f : FaultInfo) (k : Nat) : (s.writeFrame key f).slotAt k = s.slotAt k :=
  congrArg (fun c : Core => SMap.look Slot.reset c.slots (k % 4)) (coreAt_writeFrame s key f (k / 4))

/-! ## The lines of a frame -/

theorem frameLine_record (sl : Slot) (f : FaultInfo) : sl.frameLine f 0 = { bits := f.line, tag := false } := if_pos rfl

theorem frameLine_coords (sl : Slot) (f : FaultInfo) : sl.frameLine f 1 = { bits := f.coordLine, tag := false } := by
  rw [Slot.frameLine, if_neg (by decide), if_pos rfl]

theorem frameLine_last (sl : Slot) (f : FaultInfo) : (sl.frameLine f 53).bits = sl.lastLine := by
  unfold Slot.frameLine
  rw [if_neg (by decide), if_neg (by decide), if_neg (by decide), if_neg (by decide), if_neg (by decide)]

theorem frameLine_x (sl : Slot) (f : FaultInfo) (q : XReg) :
    lane 64 (q.val % 8) (sl.frameLine f (2 + q.val / 8)).bits = (sl.xr q).toNat := by
  have hline : sl.frameLine f (2 + q.val / 8) = { bits := sl.xLine (8 * (2 + q.val / 8 - 2)), tag := false } := by
    unfold Slot.frameLine
    rw [if_neg (by omega), if_neg (by omega), if_pos (by omega)]
  have hq : 8 * (2 + q.val / 8 - 2) + q.val % 8 = q.val := by omega
  rw [hline, Slot.xLine, lane_lanes _ (by decide) (Nat.mod_lt _ (by decide)), hq, Slot.xr]
  by_cases h : q = 0
  · have h0 : q.val = 0 := congrArg Fin.val h
    rw [if_pos h, if_pos h0]
    rfl
  · have h0 : q.val ≠ 0 := fun e => h (Fin.ext e)
    rw [if_neg h, if_neg h0]
    exact Nat.mod_eq_of_lt (BitVec.isLt _)

theorem frameLine_v (sl : Slot) (f : FaultInfo) (q : VReg) : sl.frameLine f (6 + q.val) = { bits := sl.vr q, tag := false } := by
  unfold Slot.frameLine
  rw [if_neg (by omega), if_neg (by omega), if_neg (by omega), if_pos (by omega), Nat.add_sub_cancel_left]
  rfl

theorem frameLine_c (sl : Slot) (f : FaultInfo) {q : CReg} (hq : q ≠ 0) : sl.frameLine f (37 + q.val) = sl.cr q := by
  have hpos : q.val ≠ 0 := fun e => hq (Fin.ext e)
  unfold Slot.frameLine Slot.cr
  rw [if_neg (by omega), if_neg (by omega), if_neg (by omega), if_neg (by omega), if_pos (by omega), if_neg hq,
    Nat.add_sub_cancel_left]

/-- The fields of the last line of a frame (R231). -/
def Slot.lastFields (sl : Slot) : List (Nat × Nat) :=
  [(64, sl.here.toNat), (64, sl.lc.toNat), (64, sl.ls.toNat), (64, sl.le.toNat), (64, sl.frm.toNat), (64, sl.fflags.toNat)]
    ++ (List.range 7).map fun k => (16, (SMap.look 0 sl.p (k + 1)).toNat)

theorem lastFields_fit (sl : Slot) : ∀ f ∈ sl.lastFields, f.2 < 2 ^ f.1 := by
  have word (w : Word) : w.toNat < 2 ^ 64 := w.isLt
  intro f hf
  obtain hf | hf := List.mem_append.mp hf
  · simp only [List.mem_cons, List.not_mem_nil, or_false] at hf
    obtain rfl | rfl | rfl | rfl | rfl | rfl := hf <;> exact word _
  · obtain ⟨k, -, rfl⟩ := List.mem_map.mp hf
    exact (SMap.look 0 sl.p (k + 1)).isLt

theorem fieldBits_lastFields (sl : Slot) : fieldBits sl.lastFields = 496 := by
  simp [fieldBits, Slot.lastFields, List.range_succ]

theorem lastLine_packed (sl : Slot) : sl.lastLine.toNat = packed sl.lastFields := by
  have hlt : packed sl.lastFields < 2 ^ 512 :=
    Nat.lt_of_lt_of_le (packed_lt _ (lastFields_fit sl)) (by
      rw [fieldBits_lastFields]
      exact Nat.pow_le_pow_right Nat.two_pos (by decide))
  have hp : (List.range 7).foldl (fun n k => n + 2 ^ (16 * k) * (SMap.look 0 sl.p (k + 1)).toNat) 0
      = packed ((List.range 7).map fun k => (16, (SMap.look 0 sl.p (k + 1)).toNat)) := by
    simp only [List.range_succ, List.range_zero, List.nil_append, List.cons_append, List.foldl_cons, List.foldl_nil, List.map_cons,
      List.map_nil, packed]
    ring
  have hsum : packed sl.lastFields = sl.here.toNat + 2 ^ 64 * sl.lc.toNat + 2 ^ 128 * sl.ls.toNat + 2 ^ 192 * sl.le.toNat
      + 2 ^ 256 * sl.frm.toNat + 2 ^ 320 * sl.fflags.toNat
      + 2 ^ 384 * packed ((List.range 7).map fun k => (16, (SMap.look 0 sl.p (k + 1)).toNat)) := by
    rw [Slot.lastFields, packed_append]
    simp only [packed, fieldBits, List.map_cons, List.map_nil, List.sum_cons, List.sum_nil, Nat.mul_add, ← Nat.mul_assoc,
      ← Nat.pow_add, Nat.reduceAdd, Nat.mul_zero, Nat.add_zero, ← Nat.add_assoc]
  rw [Slot.lastLine, hp, ← hsum, BitVec.toNat_ofNat, Nat.mod_eq_of_lt hlt]

theorem lastLine_field (sl : Slot) (i w x : Nat) (h : sl.lastFields[i]? = some (w, x)) :
    sl.lastLine.toNat / 2 ^ fieldBits (sl.lastFields.take i) % 2 ^ w = x := by
  rw [lastLine_packed]
  exact packed_field _ i w x (lastFields_fit sl) h

theorem lastLine_word (sl : Slot) {i x : Nat} (hi : i < 6) (h : sl.lastFields[i]? = some (64, x)) :
    sl.lastLine.toNat / 2 ^ (64 * i) % 2 ^ 64 = x := by
  have hbits : fieldBits (sl.lastFields.take i) = 64 * i := by
    interval_cases i <;> simp [fieldBits, Slot.lastFields]
  rw [← hbits]
  exact lastLine_field sl i 64 x h

theorem lastLine_p (sl : Slot) {q : PReg} (hq : q ≠ 0) :
    sl.lastLine.toNat / 2 ^ (384 + 16 * (q.val - 1)) % 2 ^ 16 = (sl.pr q).toNat := by
  obtain ⟨k, hk⟩ : ∃ k, q.val = k + 1 := ⟨q.val - 1, by
    have : q.val ≠ 0 := fun e => hq (Fin.ext e)
    omega⟩
  have hk7 : k < 7 := by omega
  have hget : sl.lastFields[6 + k]? = some (16, (sl.pr q).toNat) := by
    rw [Slot.pr, if_neg hq, hk]
    interval_cases k <;> rfl
  have hbits : fieldBits (sl.lastFields.take (6 + k)) = 384 + 16 * (q.val - 1) := by
    rw [hk]
    interval_cases k <;> simp [fieldBits, Slot.lastFields, List.range_succ]
  rw [← hbits]
  exact lastLine_field sl (6 + k) 16 _ hget

end Sys2Proof.Machine

namespace Sys2Proof.Machine
open Sys2Proof.Safety

/-! ## Taking it -/

theorem counter_counted (s : State) (c : Nat) : s.counted.counter 0 c 0 = s.counter 0 c 0 := by
  have hcore : (s.counted.coreAt c).stopped = (s.coreAt c).stopped ∧ (s.counted.coreAt c).lost = (s.coreAt c).lost := by
    unfold State.counted State.updMyCore
    rw [State.coreAt_updCore]
    split
    · next h => rw [h]; exact ⟨rfl, rfl⟩
    · exact ⟨rfl, rfl⟩
  obtain ⟨hstop, hlost⟩ := hcore
  unfold State.counter State.coreNow
  rw [hstop, hlost]
  rfl

/-- The record of a fault at issue (R230). -/
def State.recorded (s : State) (f : FaultInfo) : FaultInfo := { f with iaddr := s.sl.here, time := s.counter 0 (s.cur / 4) 0 }

/-- With nothing owed and a handler to take it, a fault at issue writes the frame and enters the handler (R232). -/
theorem faultNow_handled {s : State} {f : FaultInfo} (howes : s.sl.owes = false) (hcause : f.cause ∉ [0x21, 0x22, 0x39, 0x3F])
    (hmode : f.mode ≠ 3) (hhandler : s.sl.handler = false) (hhnd : s.handlerOf s.cur ≠ 0) :
    s.faultNow f = (s.counted.writeFrame s.cur (s.recorded f)).updSlot s.cur fun sl =>
      sl.enterHandler (s.cur % 4) (s.handlerOf s.cur) (s.recorded f) none := by
  have hterm : s.counted.isTerminal s.cur { f with iaddr := s.sl.here } = false := by
    rw [isTerminal_counted, ← Bool.not_eq_true, isTerminal_iff]
    rintro (h | h | h | h)
    · exact hcause h
    · exact hmode h
    · exact Bool.noConfusion (hhandler.symm.trans h)
    · exact hhnd h
  rw [State.faultNow, raise_free s _ howes, deliver_handled _ _ _ _ hterm, State.takeTrap, counter_counted, handlerOf_counted]
  rfl

section
variable {s u : State} {f : FaultInfo}
  (h : u = (s.counted.writeFrame s.cur f).updSlot s.cur fun sl => sl.enterHandler (s.cur % 4) (s.handlerOf s.cur) f none)
include h

/-! What the state is in which the handler starts. -/

theorem sl_trapped : u.sl = s.sl.enterHandler (s.cur % 4) (s.handlerOf s.cur) f none := by
  have hcur : (s.counted.writeFrame s.cur f).slotAt s.cur = s.sl := (slotAt_writeFrame _ _ _ _).trans (slotAt_counted s s.cur)
  have hc : u.cur = s.cur := by
    rw [h, State.updSlot_cur, writeFrame_cur]
    rfl
  have hu : u.sl = u.slotAt s.cur := congrArg u.slotAt hc
  rw [hu, h, State.slotAt_updSlot_self, hcur]

theorem slotAt_trapped {k : Nat} (hk : k ≠ s.cur) : u.slotAt k = s.slotAt k := by
  rw [h, State.slotAt_updSlot_ne _ _ hk, slotAt_writeFrame, slotAt_counted]

theorem coreAt_trapped {k : Nat} (hk : k ≠ s.cur / 4) : u.coreAt k = s.coreAt k := by
  rw [h, State.coreAt_updSlot, if_neg hk, coreAt_writeFrame]
  exact (State.coreAt_updCore _ _ _ _).trans (if_neg hk)

theorem lineAt_trapped {j : Nat} (hj : j < 54) : u.lineAt (frameKey s.cur j) = s.sl.frameLine f j := by
  have hline := writeFrame_line s.counted s.cur f hj
  rw [slotAt_counted] at hline
  rw [h, lineAt_updSlot, hline]
  rfl

theorem byte_trapped {k : Nat} (hk : ∀ j, j < 54 → lineKey k ≠ lineKey (frameKey s.cur j)) :
    u.byte k = s.byte k ∧ u.tagAt k = s.tagAt k := by
  obtain ⟨hb, ht⟩ := writeFrame_elsewhere s.counted s.cur f hk
  rw [h, byte_updSlot, tagAt_updSlot, hb, ht]
  exact ⟨byte_counted s k, tagAt_counted s k⟩

end

section
variable (sl : Slot) (slot hnd : Nat) (f : FaultInfo) (redo : Option Owed)

/-! The registers with which a handler starts (R232 step 3). -/

theorem enterHandler_x (q : XReg) : (sl.enterHandler slot hnd f redo).xr q = if q = 1 then f.word else sl.xr q := by
  unfold Slot.xr Slot.enterHandler
  rw [SMap.look_put]
  by_cases h1 : q = 1
  · subst h1; rfl
  · rw [if_neg (c := q.val = 1) fun e => h1 (Fin.ext e), if_neg h1]

theorem enterHandler_record : (sl.enterHandler slot hnd f redo).tcause = f.word ∧ (sl.enterHandler slot hnd f redo).tiaddr = f.iaddr
    ∧ (sl.enterHandler slot hnd f redo).tfva = BitVec.ofNat 64 f.fva ∧ (sl.enterHandler slot hnd f redo).taux = f.aux
    ∧ (sl.enterHandler slot hnd f redo).fltcnt = sl.fltcnt + 1 := by
  unfold Slot.enterHandler
  exact ⟨rfl, rfl, rfl, rfl, rfl⟩

theorem enterHandler_control : (sl.enterHandler slot hnd f redo).pc = ((hnd % 2 ^ 32 : Nat) : Int)
    ∧ (sl.enterHandler slot hnd f redo).obj = (if hnd / 2 ^ 32 = 0 then sl.obj else hnd / 2 ^ 32)
    ∧ (sl.enterHandler slot hnd f redo).handler = true ∧ (sl.enterHandler slot hnd f redo).lc = 0
    ∧ (sl.enterHandler slot hnd f redo).stop = .run
    ∧ (sl.enterHandler slot hnd f redo).trap =
        some { obj := sl.obj, cmpt := sl.cmpt, mode := f.mode, bpos := f.bpos, aux := f.aux.toNat, redo := redo } := by
  unfold Slot.enterHandler
  exact ⟨rfl, rfl, rfl, rfl, rfl, rfl⟩

theorem enterHandler_kept : (∀ q : VReg, (sl.enterHandler slot hnd f redo).vr q = sl.vr q)
    ∧ (∀ q : PReg, (sl.enterHandler slot hnd f redo).pr q = sl.pr q) ∧ (sl.enterHandler slot hnd f redo).ls = sl.ls
    ∧ (sl.enterHandler slot hnd f redo).le = sl.le ∧ (sl.enterHandler slot hnd f redo).frm = sl.frm
    ∧ (sl.enterHandler slot hnd f redo).fflags = sl.fflags ∧ (sl.enterHandler slot hnd f redo).cmpt = sl.cmpt
    ∧ (sl.enterHandler slot hnd f redo).deferred = sl.deferred ∧ (sl.enterHandler slot hnd f redo).committed = sl.committed
    ∧ (sl.enterHandler slot hnd f redo).stack = sl.stack ∧ (sl.enterHandler slot hnd f redo).out = sl.out := by
  unfold Slot.enterHandler
  exact ⟨fun _ => rfl, fun _ => rfl, rfl, rfl, rfl, rfl, rfl, rfl, rfl, rfl, rfl⟩

theorem enterHandler_c_other {q : CReg} (hq : 4 ≤ q.val) : (sl.enterHandler slot hnd f redo).cr q = sl.cr q := by
  have hq0 : q ≠ 0 := by rintro rfl; exact absurd hq (by decide)
  rw [Slot.cr, if_neg hq0, Slot.cr, if_neg hq0]
  unfold Slot.enterHandler
  rw [SMap.look_put_ne _ _ _ (by omega), SMap.look_put_ne _ _ _ (by omega), SMap.look_put_ne _ _ _ (by omega)]

theorem enterHandler_c1 : (sl.enterHandler slot hnd f redo).cr 1 = windowView (frameOff slot) 0x08 432 [permLD, permST] sl.cmpt := by
  rw [Slot.cr, if_neg (by decide)]
  unfold Slot.enterHandler
  exact (SMap.look_put_ne _ _ _ (by decide)).trans ((SMap.look_put_ne _ _ _ (by decide)).trans (SMap.look_put_self _ _ 1 _))

theorem enterHandler_c2 : (sl.enterHandler slot hnd f redo).cr 2 = windowView (frameOff slot) 0x20 54 [permLC, permSC] sl.cmpt := by
  rw [Slot.cr, if_neg (by decide)]
  unfold Slot.enterHandler
  exact (SMap.look_put_ne _ _ _ (by decide)).trans (SMap.look_put_self _ _ 2 _)

theorem enterHandler_c3 : (sl.enterHandler slot hnd f redo).cr 3 =
    if f.resume then windowView (resumeOff slot) 0x20 8 [permLC, permSC] sl.cmpt else CapReg.null := by
  rw [Slot.cr, if_neg (by decide)]
  unfold Slot.enterHandler
  exact SMap.look_put_self _ _ 3 _

end

end Sys2Proof.Machine

open Sys2Proof Sys2Proof.Machine Sys2Proof.Safety

/-- Settles O32: the record and the frame, line by line, and the registers that `enterHandler` sets. -/
theorem takingAnException : Obligations.TakingAnException := by
  unfold Obligations.TakingAnException
  intro s g code f
  dsimp only
  refine ⟨fun hg => guarded_true g s _ hg, fun howes hcause hmode hhandler hhnd => ?_⟩
  have hu := faultNow_handled howes hcause hmode hhandler hhnd
  have hsl := sl_trapped hu
  have line {j : Nat} (hj : j < 54) := lineAt_trapped hu hj
  have last : ((s.faultNow f).lineAt (frameKey s.cur 53)).bits = s.sl.lastLine := by
    rw [line (by decide), frameLine_last]
  unfold State.recorded at hsl line
  obtain ⟨hpc, hobj, hin, hlc, hstop, htrap⟩ := enterHandler_control s.sl (s.cur % 4) (s.handlerOf s.cur)
    { f with iaddr := s.sl.here, time := s.counter 0 (s.cur / 4) 0 } none
  obtain ⟨hword, haddr, hfva, haux, hcnt⟩ := enterHandler_record s.sl (s.cur % 4) (s.handlerOf s.cur)
    { f with iaddr := s.sl.here, time := s.counter 0 (s.cur / 4) 0 } none
  obtain ⟨hv, hp, hls, hle, hfrm, hflags, hcmpt, hdef, hcom, hstack, hout⟩ := enterHandler_kept s.sl (s.cur % 4) (s.handlerOf s.cur)
    { f with iaddr := s.sl.here, time := s.counter 0 (s.cur / 4) 0 } none
  rw [hsl]
  refine ⟨hpc, hobj, hin, hlc, hstop, htrap, hword, haddr, hfva, haux, hcnt, enterHandler_x _ _ _ _ _ 1, fun q hq => ?_, hv, hp,
    enterHandler_c1 _ _ _ _ _, enterHandler_c2 _ _ _ _ _, enterHandler_c3 _ _ _ _ _,
    fun q hq => enterHandler_c_other _ _ _ _ _ hq, hls, hle, hfrm, hflags, hcmpt, hdef, hcom, hstack, hout,
    (line (by decide)).trans (frameLine_record _ _), (line (by decide)).trans (frameLine_coords _ _), fun q => ?_, fun q => ?_,
    fun q hq => ?_, ?_, ?_, ?_, ?_, ?_, ?_, fun q hq => ?_, fun k hk => byte_trapped hu hk, fun k hk => slotAt_trapped hu hk,
    fun k hk => coreAt_trapped hu hk⟩
  · rw [enterHandler_x, if_neg hq]
  · rw [line (by omega)]
    exact frameLine_x _ _ q
  · rw [line (by omega)]
    exact frameLine_v _ _ q
  · rw [line (by omega)]
    exact frameLine_c _ _ hq
  · rw [last]; exact lastLine_word s.sl (i := 0) (by decide) rfl
  · rw [last]; exact lastLine_word s.sl (i := 1) (by decide) rfl
  · rw [last]; exact lastLine_word s.sl (i := 2) (by decide) rfl
  · rw [last]; exact lastLine_word s.sl (i := 3) (by decide) rfl
  · rw [last]; exact lastLine_word s.sl (i := 4) (by decide) rfl
  · rw [last]; exact lastLine_word s.sl (i := 5) (by decide) rfl
  · rw [last]; exact lastLine_p s.sl hq
end

section
/-!
What a write leaves alone on its way to memory (R270, R299, R312 … R323): no team's rings, pools and counters, and no
slot's activation. What it may change of a slot is its store queue, what it owes, and its mark of writes to host memory.
-/

namespace Sys2Proof.Machine
open Sys2Proof.Safety

/-- A slot without its store queue, what it owes and what it numbers, and its mark of writes to host memory. -/
def offStores (sl : Slot) : Slot := { sl with out := [], owed := [], seq := 0, hostDirty := [] }

/-- Work of writes. -/
structure StoreWork (s u : State) : Prop where
  teams : u.teams = s.teams
  slots : ∀ k, offStores (u.slotAt k) = offStores (s.slotAt k)

theorem StoreWork.refl (s : State) : StoreWork s s := ⟨rfl, fun _ => rfl⟩

theorem StoreWork.trans {s t u : State} (h : StoreWork s t) (k : StoreWork t u) : StoreWork s u :=
  ⟨k.teams.trans h.teams, fun j => (k.slots j).trans (h.slots j)⟩

theorem LineWork.stores {s u : State} (h : LineWork s u) : StoreWork s u :=
  ⟨(congrArg State.teams h.rest :), fun k => (congrArg offStores (h.slots k) :)⟩

/-- A change of what neither a core nor a team holds. -/
theorem StoreWork.of_cores {s u : State} (ht : u.teams = s.teams) (hc : u.cores = s.cores) : StoreWork s u := by
  refine ⟨ht, fun k => congrArg offStores ?_⟩
  rw [State.slotAt, State.slotAt, State.coreAt, State.coreAt, hc]

/-- A change of a core beside its slots. -/
theorem StoreWork.updCore (s : State) (c : Nat) (f : Core → Core) (hs : ∀ x, (f x).slots = x.slots) : StoreWork s (s.updCore c f) :=
  ⟨rfl, fun k => congrArg offStores (State.slotAt_updCore s c k f hs)⟩

/-- A change of a slot in what a write may change. -/
theorem StoreWork.updSlot (s : State) (k : Nat) (f : Slot → Slot) (hf : ∀ x, offStores (f x) = offStores x) :
    StoreWork s (s.updSlot k f) := by
  refine ⟨rfl, fun j => ?_⟩
  rw [State.slotAt_updSlot]
  split
  · next e => rw [hf, e]
  · rfl

theorem StoreWork.foldl {α : Type} (f : State → α → State) (hf : ∀ s a, StoreWork s (f s a)) (l : List α) :
    ∀ s, StoreWork s (l.foldl f s) := by
  induction l with
  | nil => exact StoreWork.refl
  | cons a l ih => exact fun s => (hf s a).trans (ih (f s a))

/-- One of two. -/
theorem StoreWork.ite {s t u : State} (p : Prop) [Decidable p] (ht : StoreWork s t) (hu : StoreWork s u) :
    StoreWork s (if p then t else u) := by
  split
  · exact ht
  · exact hu

/-! ## Lines in the caches -/

theorem updCoh_stores (s : State) (l : Nat) (f : LineCoh → LineCoh) : StoreWork s (s.updCoh l f) := .of_cores rfl rfl

theorem updSlice_stores (s : State) (n : Nat) (f : Slice → Slice) : StoreWork s (s.updSlice n f) := .of_cores rfl rfl

theorem updLine_stores (s : State) (p : Place) (f : LineCoh → LineCoh) : StoreWork s (s.updLine p f) := updCoh_stores s _ _

theorem count_stores (s : State) (k u n a : Nat) : StoreWork s (s.count k u n a) := .of_cores rfl rfl

theorem touchPage_stores (s : State) (w : Who) (va : Nat) : StoreWork s (s.touchPage w va) := by
  unfold State.touchPage State.noteTouch
  split
  · exact .ite _ (.of_cores rfl rfl) (.refl s)
  · exact .refl s

theorem evictProxy_stores (s : State) (lk : Nat) : StoreWork s (s.evictProxy lk) := by
  have back (f : LineCoh → LineCoh) : StoreWork s
      (((s.dropDie (1 - (s.cohAt lk).slice / 64) lk).leaveSlice ((s.cohAt lk).slice ^^^ 64) lk).updCoh lk f) :=
    ((dropDie_lineWork s _ _).trans (leaveSlice_lineWork _ _ _)).stores.trans (updCoh_stores _ _ _)
  unfold State.evictProxy
  dsimp only
  split
  · exact .refl s
  · exact back _
  · exact back _
  · exact (doInvalidate_lineWork s lk).stores
  · exact (doInvalidate_lineWork s lk).stores

theorem evictLine_stores (s : State) (slice lk : Nat) : StoreWork s (s.evictLine slice lk) := by
  have leaves {t : State} (h : StoreWork s t) : StoreWork s (t.leaveSlice slice lk) := h.trans (leaveSlice_lineWork t slice lk).stores
  unfold State.evictLine
  exact leaves (.ite _ (updCoh_stores s _ _) (.ite _ (.refl s) (evictProxy_stores s lk)))

theorem enterSlice_stores (s : State) (slice lk : Nat) : StoreWork s (s.enterSlice slice lk) := by
  unfold State.enterSlice
  dsimp only
  split
  · exact updSlice_stores s _ _
  · split
    · exact ((updSlice_stores s _ _).trans (evictLine_stores _ _ _)).trans (updSlice_stores _ _ _)
    · exact updSlice_stores s _ _

theorem sliceAccess_stores (s : State) (slice lk : Nat) : StoreWork s (s.sliceAccess slice lk) :=
  .ite _ (count_stores s _ _ _ _) ((count_stores s _ _ _ _).trans (enterSlice_stores _ _ _))

theorem noteFill_stores (s : State) (slice lk : Nat) : StoreWork s (s.noteFill slice lk) := by
  unfold State.noteFill
  split
  · exact updSlice_stores s _ _
  · have room : StoreWork s (if 8192 ≤ (s.sliceAt slice).dir.length then s.freeRegion slice none else s) :=
      .ite _ (freeRegion_lineWork s slice none).stores (.refl s)
    exact room.trans (updSlice_stores _ _ _)

theorem doReadShared_stores (s : State) (lk : Nat) : StoreWork s (s.doReadShared lk) :=
  .ite _ ((recallHost_lineWork s lk false).stores.trans (updCoh_stores _ _ _)) (.refl s)

theorem doOwn_stores (s : State) (lk : Nat) : StoreWork s (s.doOwn lk) := by
  have arrived : StoreWork s (if (s.cohAt lk).snoop = some .invAck then s.doInvalidate lk else s) :=
    .ite _ (doInvalidate_lineWork s lk).stores (.refl s)
  unfold State.doOwn
  dsimp only
  generalize (if (s.cohAt lk).snoop = some .invAck then s.doInvalidate lk else s) = t at arrived ⊢
  have owns (f : LineCoh → LineCoh) : StoreWork s ((t.dropDie ((t.cohAt lk).slice / 64) lk).updCoh lk f) :=
    arrived.trans ((dropDie_lineWork t _ _).stores.trans (updCoh_stores _ _ _))
  split
  · exact arrived
  · exact arrived.trans (updCoh_stores _ _ _)
  · exact owns _
  · exact owns _
  · exact owns _

theorem useStash_stores (s : State) (c lk : Nat) (wr : Bool) : StoreWork s (s.updCore c fun x => x.useStash lk wr) :=
  (useStash_lineWork s c lk wr).stores

theorem slots_fillL1 (c : Core) (va lk : Nat) : (c.fillL1 va lk).slots = c.slots := by
  unfold Core.fillL1
  dsimp only
  split
  · rfl
  · split
    · rfl
    · split <;> rfl

theorem fillStash_stores (s : State) (core : Nat) (p : Place) : StoreWork s (s.fillStash core p) := by
  unfold State.fillStash
  dsimp only
  refine StoreWork.trans ?_ (noteFill_stores _ _ _)
  have taken (t : State) : StoreWork s t →
      StoreWork s ((((t.doInvalidate (lineKey p.key)).dropDie 0 (lineKey p.key)).dropDie 1 (lineKey p.key)).updCoh (lineKey p.key)
        fun x => { x with owner := some core, host := .I }) := fun h =>
    h.trans ((((doInvalidate_lineWork t _).trans (dropDie_lineWork _ _ _)).trans (dropDie_lineWork _ _ _)).stores.trans
      (updCoh_stores _ _ _))
  have h := taken _ ((drainChannel_lineWork s _ _ _).stores.trans (sliceAccess_stores
    (s.drainChannel (sliceOn (dieOf core) p.home) (lineKey p.key) core)
    (if (s.cohAt (lineKey p.key)).proxy = .I then p.home else sliceOn (dieOf core) p.home) (lineKey p.key)))
  split
  · exact h.trans (.updCore _ _ _ fun _ => rfl)
  · split
    · exact h.trans ((dropStash_lineWork _ _ _).stores.trans (.updCore _ _ _ fun _ => rfl))
    · exact h

theorem enterStash_stores (s : State) (core : Nat) (p : Place) : StoreWork s (s.enterStash core p) :=
  .ite _ (fillStash_stores s core p) (.refl s)

theorem hostLine_stores (s : State) (p : Place) (wr : Bool) : StoreWork s (s.hostLine p wr) :=
  (updLine_stores s _ _).trans (sliceAccess_stores _ _ _)

/-- A line that settles at its home, and enters the stash of the core that accesses it. -/
theorem enter_stores (s : State) (core : Nat) (p : Place) :
    StoreWork s (((s.updLine p id).settle (lineKey p.key)).enterStash core p) :=
  ((updLine_stores s p id).trans (settle_lineWork _ _).stores).trans (enterStash_stores _ _ _)

/-- An access to a line that a stash owns. -/
theorem owned_stores (s : State) (core k slice lk : Nat) (wr : Bool) :
    StoreWork s ((if k = core then s else s.sliceAccess slice lk).updCore k fun x => x.useStash lk wr) :=
  (StoreWork.ite _ (.refl s) (sliceAccess_stores s _ _)).trans (useStash_stores _ _ _ _)

theorem makeReadable_stores (s : State) (core : Nat) (p : Place) : StoreWork s (s.makeReadable core p) := by
  unfold State.makeReadable
  refine .ite _ (hostLine_stores s p false) (.ite _ ((updLine_stores s _ _).trans (sliceAccess_stores _ _ _))
    (.ite _ (.refl s) ?_))
  have h := enter_stores s core p
  dsimp only
  generalize ((s.updLine p id).settle (lineKey p.key)).enterStash core p = t at h ⊢
  split
  · exact h.trans (owned_stores t _ _ _ _ _)
  · refine (h.trans ?_).trans ((StoreWork.updCore _ _ _ fun x => slots_fillL1 x _ _).trans (noteFill_stores _ _ _))
    have current : StoreWork t (if decide (dieOf core = p.home / 64) then (t.doSnoopRead (lineKey p.key)).recallHost (lineKey p.key) false
        else if (t.cohAt (lineKey p.key)).proxy = .I then (t.sliceAccess p.home (lineKey p.key)).doReadShared (lineKey p.key) else t) :=
      .ite _ ((doSnoopRead_lineWork t _).trans (recallHost_lineWork _ _ _)).stores
        (.ite _ ((sliceAccess_stores t _ _).trans (doReadShared_stores _ _)) (.refl t))
    exact current.trans (.ite _ (.refl _) ((sliceAccess_stores _ _ _).trans (drainChannel_lineWork _ _ _ _).stores))

theorem makeWritable_stores (s : State) (core : Nat) (p : Place) (whole : Bool) : StoreWork s (s.makeWritable core p whole) := by
  unfold State.makeWritable
  refine .ite _ (hostLine_stores s p true) (.ite _ ((updLine_stores s _ _).trans (sliceAccess_stores _ _ _))
    (.ite _ (.refl s) ?_))
  have h := enter_stores s core p
  dsimp only
  generalize ((s.updLine p id).settle (lineKey p.key)).enterStash core p = t at h ⊢
  split
  · exact h.trans (owned_stores t _ _ _ _ _)
  · have hs := (updCoh_stores t (lineKey p.key) fun x => { x with host := .I }).trans
      (sliceAccess_stores _ (sliceOn (dieOf core) p.home) (lineKey p.key))
    refine h.trans (hs.trans ?_)
    generalize State.sliceAccess (t.updCoh (lineKey p.key) fun x => { x with host := .I }) _ _ = r
    refine .ite _ ?_ (doOwn_stores r _)
    split
    · exact .refl r
    · exact .ite _ (doInvalidate_lineWork r _).stores (.refl r)
    all_goals exact (doSnoopInval_lineWork r _).stores

/-! ## Bytes, and the entries of revisions -/

theorem putElem_stores (s : State) (k nib bits v : Nat) : StoreWork s (s.putElem k nib bits v) :=
  .ite _ (.of_cores rfl rfl) (.of_cores rfl rfl)

theorem memWrite_stores (s : State) (k : Nat) (w : WOp) : StoreWork s (s.memWrite k w) := by
  cases w with
  | data k' nib bits v => exact putElem_stores s _ _ _ _
  | line v => exact .of_cores rfl rfl

theorem rootWrite_stores (s : State) (core : Nat) (p : Place) (w : WOp) : StoreWork s (s.rootWrite core p w) := by
  refine .ite _ (StoreWork.trans ?_ (updCoh_stores _ _ _)) (memWrite_stores s _ _)
  cases w <;> exact .of_cores rfl rfl

theorem markHost_stores (s : State) (w : Who) : StoreWork s (s.markHost w) := by
  unfold State.markHost
  refine .updSlot s _ _ ?_
  intro x
  rfl

theorem placeWrite_stores (s : State) (w : Who) (p : Place) (op : WOp) : StoreWork s (s.placeWrite w p op) := by
  unfold State.placeWrite
  split
  · exact rootWrite_stores s _ _ _
  · exact .refl s
  · exact (markHost_stores s w).trans (memWrite_stores _ _ _)
  · exact .ite _ (memWrite_stores s _ _) (.refl s)
  · exact memWrite_stores s _ _
  · exact memWrite_stores s _ _

theorem junctionPut_stores (s : State) (y : Revision) (va : Nat) (v : CapReg) : StoreWork s (s.junctionPut y va v) := by
  unfold State.junctionPut
  dsimp only
  split
  · split
    · have h := touchPage_stores s (s.junctionWho y none) va
      refine .ite _ (.refl s) (h.trans ?_)
      split
      · exact (updLine_stores _ _ _).trans
          (((outsideReady_lineWork _ _ _).trans (updateRound_lineWork _ _ _)).trans (putLine_lineWork _ _ _)).stores
      · exact (putLine_lineWork _ _ _).stores
      · exact .ite _ (putLine_lineWork _ _ _).stores (.refl _)
      all_goals exact .refl _
    · exact .refl s
  · exact .refl s

theorem syncEntry_stores (s : State) (r i : Nat) : StoreWork s (s.syncEntry r i) := by
  unfold State.syncEntry
  dsimp only
  split
  · exact .refl s
  · exact ((junctionPut_stores s _ _ _).trans (junctionPut_stores _ _ _ _)).trans (junctionPut_stores _ _ _ _)

theorem syncHeader_stores (s : State) (r : Nat) : StoreWork s (s.syncHeader r) := junctionPut_stores s _ _ _

theorem updRev_stores (s : State) (r : Nat) (f : Revision → Revision) : StoreWork s (s.updRev r f) := .of_cores rfl rfl

theorem breakRev_stores (s : State) (r la : Nat) : StoreWork s (s.breakRev r la) :=
  (updRev_stores s _ _).trans (syncHeader_stores _ _)

theorem addEntry_stores (s : State) (r la : Nat) (v : CapReg) (err : List Nat) : StoreWork s (s.addEntry r la v err) :=
  ((updRev_stores s _ _).trans (syncEntry_stores _ _ _)).trans (syncHeader_stores _ _)

theorem shareEntries_stores (s : State) (world : Nat) (target : Option Nat) (la : Nat) (cur : CapReg) (err : List Nat) :
    StoreWork s (s.shareEntries world target la cur err) :=
  .foldl _ (fun t r => .ite _ (.ite _ (addEntry_stores t r la cur err) (breakRev_stores t r la)) (.refl t)) _ s

theorem writeChild_stores (s : State) (r la : Nat) (op : WOp) : StoreWork s (s.writeChild r la op) :=
  (updRev_stores s _ _).trans (syncEntry_stores _ _ _)

theorem roundOf_stores (s : State) (core : Nat) (p : Place) : StoreWork s (s.roundOf core p) :=
  .ite _ (updateRound_lineWork s _ _).stores (.refl s)

theorem readyWrite_stores (s : State) (w : Who) (p : Place) (whole : Bool) : StoreWork s (s.readyWrite w p whole) :=
  .ite _ (.ite _ (.refl s) (makeReadable_stores s _ _)) (makeWritable_stores s _ _ _)

theorem writeNow_stores {s u : State} {w : Who} {p : Place} {op : WOp} (h : s.writeNow w p op = some u) : StoreWork s u := by
  unfold State.writeNow at h
  split at h
  · cases h
    exact placeWrite_stores s _ _ _
  · split at h
    · cases h
      exact ((shareEntries_stores s _ _ _ _ _).trans (roundOf_stores _ _ _)).trans (placeWrite_stores _ _ _ _)
    · next t _ =>
      have write {v : State} (hv : StoreWork s v) (cur : CapReg) (err : List Nat) :
          StoreWork s ((v.shareEntries w.world (some t) p.la cur err).writeChild t p.la op) :=
        (hv.trans (shareEntries_stores v _ _ _ _ _)).trans (writeChild_stores _ _ _ _)
      dsimp only at h
      obtain ⟨v, hv, rfl⟩ := Option.map_eq_some_iff.mp h
      refine write ?_ _ _
      split at hv
      · cases hv
        exact .refl s
      · split at hv
        · cases hv
          exact addEntry_stores s _ _ _ _
        · cases hv

theorem writeView_stores {s u : State} {w : Who} {p : Place} {op : WOp} {whole : Bool} (h : s.writeView w p op whole = some u) :
    StoreWork s u :=
  (readyWrite_stores s w p whole).trans (writeNow_stores h)

/-! ## Queued writes -/

theorem atomicLine_stores {s u : State} {w : Who} {k : AKind} {e : Elem} {f : Line → Option Line} {old : Line}
    (h : s.atomicLine w k e f = .ok (u, old)) : StoreWork s u := by
  unfold State.atomicLine at h
  split at h
  · cases h
  · next p _ =>
    have hready := (touchPage_stores s w e.va).trans (readyWrite_stores _ w p true)
    dsimp only at h
    split at h
    · cases h
    · split at h
      · cases h
        exact hready
      · split at h
        · next v hv =>
          cases h
          exact hready.trans (writeNow_stores hv)
        · cases h

theorem applySluice_stores {s u : State} {w : Who} {o : SluiceOp} {e : Elem} (h : s.applySluice w o e = .ok u) : StoreWork s u := by
  unfold State.applySluice at h
  cases ha : s.atomicLine w .atomic e fun l => some (o.apply l) with
  | error c => rw [ha] at h; cases h
  | ok x =>
    rw [ha] at h
    cases h
    exact atomicLine_stores ha

theorem unreserve_stores (s : State) (w : Who) (seq la : Nat) : StoreWork s (s.unreserve w seq la) :=
  .foldl _ (fun t _ => .ite _ (updRev_stores t _ _) (.refl t)) _ s

theorem updOut_stores (s : State) (key : Nat) (o : Out) (f : Out → Out) : StoreWork s (s.updOut key o f) :=
  .updSlot s _ _ fun _ => rfl

theorem refuseOut_stores (s : State) (key : Nat) (o : Out) : StoreWork s (s.refuseOut key o) :=
  ((unreserve_stores s _ _ _).trans (updOut_stores _ _ _ _)).trans (.updSlot _ _ _ fun x => by split <;> rfl)

theorem applyOut_stores (s : State) (key : Nat) (o : Out) : StoreWork s (s.applyOut key o) := by
  unfold State.applyOut
  split
  · refine .ite _ (refuseOut_stores s key o) (StoreWork.trans ?_ ((unreserve_stores _ _ _ _).trans (updOut_stores _ _ _ _)))
    split
    · next h => exact applySluice_stores h
    · exact .refl s
  · exact .refl s
  · exact .refl s

theorem sendOut_stores (s : State) (key : Nat) (o : Out) : StoreWork s (s.sendOut key o) := by
  unfold State.sendOut
  dsimp only
  have htouch := touchPage_stores s (s.who key) o.place.va
  generalize s.touchPage (s.who key) o.place.va = t at htouch ⊢
  have done {v : State} (hv : StoreWork s v) (w : Who) (la : Nat) (f : Out → Out) :
      StoreWork s ((v.unreserve w o.seq la).updOut key o f) :=
    hv.trans ((unreserve_stores v _ _ _).trans (updOut_stores _ _ _ _))
  have orElse {v : State} (hv : StoreWork s v) {r : Option State} (h : ∀ x, r = some x → StoreWork v x) : StoreWork s (r.getD v) := by
    cases r with
    | none => exact hv
    | some x => exact hv.trans (h x rfl)
  refine .ite _ (refuseOut_stores s key o) (.ite _ (done (orElse htouch fun x hx => writeView_stores hx) _ _ _) ?_)
  have hready := htouch.trans (makeWritable_stores t (s.who key).core (t.rehome (s.who key) o.place) (s.wholeWrite (s.who key) o))
  generalize t.makeWritable (s.who key).core (t.rehome (s.who key) o.place) (s.wholeWrite (s.who key) o) = r at hready ⊢
  refine .ite _ (done (orElse hready fun x hx => writeNow_stores hx) _ _ _) ?_
  refine hready.trans (StoreWork.trans ?_ ((updCoh_stores _ _ _).trans (updOut_stores _ _ _ _)))
  have sharers (l : List Nat) (lk : Nat) : StoreWork r (l.foldl (fun t c => t.updCore c fun x => x.acksArrive lk) r) := by
    refine .foldl _ (fun t c => .updCore t c _ ?_) l r
    exact fun _ => rfl
  exact .ite _ ((sharers _ _).trans (count_stores _ _ _ _ _)) (sharers _ _)

theorem tellProxy_stores (s : State) (lk core slot seq : Nat) : StoreWork s (s.tellProxy lk core slot seq).1 := by
  unfold State.tellProxy
  dsimp only
  split
  · exact StoreWork.trans (t := s.draw.2) (.of_cores rfl rfl) (updCoh_stores _ _ _)
  · exact .refl s

theorem commitWrite_stores (s : State) (lk : Nat) (d : Pend) : StoreWork s (s.commitWrite lk d) := by
  unfold State.commitWrite
  dsimp only
  have hfree := updCoh_stores s lk fun x => { x with pend := none }
  generalize (s.updCoh lk fun x => { x with pend := none }) = t at hfree ⊢
  split
  · exact hfree
  · next o _ =>
    refine .ite _ (hfree.trans (refuseOut_stores t _ o)) ?_
    have hone : StoreWork s (if d.whole && !d.proxy && (t.cohAt lk).proxy == .S then t.doInvalidate lk else t) :=
      hfree.trans (.ite _ (doInvalidate_lineWork t lk).stores (.refl t))
    generalize (if d.whole && !d.proxy && (t.cohAt lk).proxy == .S then t.doInvalidate lk else t) = r at hone ⊢
    have hwrite := hone.trans (((shareEntries_stores r (s.who (4 * d.core + d.slot)).world none o.place.la
      (r.placeLine (s.who (4 * d.core + d.slot)) o.place) (r.lineErrors lk)).trans
      (placeWrite_stores _ (s.who (4 * d.core + d.slot)) o.place o.wop)).trans
      (unreserve_stores _ (s.who (4 * d.core + d.slot)) o.seq o.place.la))
    refine StoreWork.trans ?_ (updOut_stores _ _ _ _)
    split
    · exact hwrite
    · exact hwrite.trans (tellProxy_stores _ _ _ _ _)

theorem flushOut_stores (s : State) (key : Nat) (o : Out) : StoreWork s (s.flushOut key o) := by
  have here (t : State) : StoreWork t (match (t.cohAt (lineKey o.place.key)).pend with
      | some d => t.commitWrite (lineKey o.place.key) d
      | none => t) := by
    split
    · exact commitWrite_stores t _ _
    · exact .refl t
  unfold State.flushOut
  exact .ite _ (.ite _ (applyOut_stores s key o) (((here s).trans (sendOut_stores _ key o)).trans (here _)))
    (.ite _ (here s) (.refl s))

theorem flushOuts_stores (s : State) (key : Nat) : StoreWork s (s.flushOuts key) :=
  .foldl _ (fun t o => flushOut_stores t key o) _ s

end Sys2Proof.Machine
end

section
/-!
The commit window, wait timers, pre-emption and machine checks (R203, R237 … R241, R266).
-/

namespace Sys2Proof.Machine
open Sys2Proof.Safety

/-! ## The commit window and the wait timer -/

theorem underWay_iff (sl : Slot) : sl.underWay = true ↔ (∃ o n, sl.stop = .hold (.basin o n)) ∨ sl.stop = .hold .commit
    ∨ (∃ n, sl.stop = .hold (.finish n)) ∨ (∃ n, sl.stop = .hold (.applying n)) ∨ ∃ e n, sl.stop = .hold (.swait e n) := by
  unfold Slot.underWay
  cases sl.stop with
  | hold h => cases h <;> simp
  | _ => simp

theorem countUnderWay_under {s : State} {key : Nat} (h : (s.slotAt key).underWay = true) :
    s.countUnderWay key = s.count 0 (key / 4) 1 1 := if_pos h

theorem countUnderWay_idle {s : State} {key : Nat} (h : (s.slotAt key).underWay = false) : s.countUnderWay key = s :=
  if_neg (by rw [h]; decide)

/-- The commit window of a slot has expired. -/
def State.Late (s : State) (key : Nat) : Prop :=
  ∃ c, (s.slotAt key).committed = some c ∧ c + 65536 ≤ (s.coreAt (key / 4)).stopped.getD s.now

theorem expired_iff (s : State) (key : Nat) : s.expired key = true ↔ s.Late key := by
  unfold State.expired State.Late State.coreNow
  cases (s.slotAt key).committed <;> simp

theorem overtaken_late (s : State) (key : Nat) : s.overtaken key = true ↔
    s.Late key ∨ (s.slotAt key).preempt = true ∧ (s.slotAt key).committed = none := overtaken_iff s key

/-- A slot that waits for its terminal end. -/
def State.windowEnded (s : State) (key : Nat) (at_ : Word) : State :=
  s.updSlot key fun x =>
    { x with stop := .terminal { FaultInfo.of 0x39 with mode := 3, iaddr := at_ }, timer := none, arrived := none }

section
variable {s : State} {core slot : Nat}

theorem windowExpiry_stays (h : ¬ (s.Late (4 * core + slot) ∧ ∀ f, (s.slotAt (4 * core + slot)).stop ≠ .terminal f)) :
    exec (.commitWindowExpiry core slot) s = .next s := by
  refine if_pos ?_
  by_cases hl : s.Late (4 * core + slot)
  · obtain ⟨f, hf⟩ := not_forall_not.mp fun e => h ⟨hl, e⟩
    rw [hf]
    rfl
  · rw [← expired_iff, Bool.not_eq_true] at hl
    rw [hl, Bool.not_false, Bool.or_true]

theorem windowExpiry_ends (hl : s.Late (4 * core + slot)) (hs : ∀ f, (s.slotAt (4 * core + slot)).stop ≠ .terminal f) :
    exec (.commitWindowExpiry core slot) s = .next ((s.countUnderWay (4 * core + slot)).windowEnded (4 * core + slot)
      (if (s.slotAt (4 * core + slot)).atIssued then ((s.slotAt (4 * core + slot)).fall (s.slotAt (4 * core + slot)).pc).here
       else (s.slotAt (4 * core + slot)).here)) := by
  refine if_neg ?_
  rw [(expired_iff s _).mpr hl]
  cases h : (s.slotAt (4 * core + slot)).stop with
  | terminal f => exact absurd h (hs f)
  | _ => exact Bool.false_ne_true

/-- The code address that follows is the one at which the slot falls through. -/
theorem here_fall (sl : Slot) : (sl.fall sl.pc).here = sl.codeAddr (sl.fall sl.pc).pc := by
  obtain ⟨hobj, -⟩ := fall_spec sl
  rw [Slot.here, Slot.codeAddr, Slot.codeAddr, hobj]

theorem timerExpiry_none (h : (s.slotAt (4 * core + slot)).timer = none) : exec (.waitTimerExpiry core slot) s = .next s := by
  change execWaitTimerExpiry core slot s = _
  unfold execWaitTimerExpiry
  dsimp only
  rw [h]

theorem timerExpiry_early {t : Nat} (ht : (s.slotAt (4 * core + slot)).timer = some t)
    (h : (s.coreAt ((4 * core + slot) / 4)).stopped.getD s.now < t ∨ s.overtaken (4 * core + slot) = true) :
    exec (.waitTimerExpiry core slot) s = .next s := by
  change execWaitTimerExpiry core slot s = _
  unfold execWaitTimerExpiry
  dsimp only
  rw [ht]
  exact if_pos h

end

/-- What an expired timer does in each reason to wait. -/
def State.timerFires (s : State) (key : Nat) : Out3 :=
  match (s.slotAt key).stop with
  | .hold (.swait e _) => .next (s.timeOut key (some e))
  | .hold (.basin o _) => .next (s.timeOut key (some (basinLine o.basin.f o.k0)))
  | .hold (.release _ _) => .next (s.timeOut key none)
  | .hold .commit =>
    (match (s.slotAt key).deferred.head? with
     | some d =>
       (match d.basin with
        | some o => .next ((s.count 0 (key / 4) 6 1).asSlot key fun t =>
            t.raise { FaultInfo.atElem 0x33 (basinLine o.basin.f o.k0) with
              mode := 2, iaddr := d.iaddr, bpos := (s.slotAt key).applied })
        | none => .next s)
     | none => .next s)
  | _ => .next s

section
variable {s : State} {core slot : Nat}

theorem timerExpiry_due {t : Nat} (ht : (s.slotAt (4 * core + slot)).timer = some t)
    (h : ¬ ((s.coreAt ((4 * core + slot) / 4)).stopped.getD s.now < t ∨ s.overtaken (4 * core + slot) = true)) :
    exec (.waitTimerExpiry core slot) s = s.timerFires (4 * core + slot) := by
  change execWaitTimerExpiry core slot s = _
  unfold execWaitTimerExpiry
  dsimp only
  rw [ht]
  exact if_neg h

/-- A timer that does not fire leaves everything as it is, whenever it expires. -/
theorem timerExpiry_quiet (h : s.timerFires (4 * core + slot) = .next s) : exec (.waitTimerExpiry core slot) s = .next s := by
  cases ht : (s.slotAt (4 * core + slot)).timer with
  | none => exact timerExpiry_none ht
  | some t =>
    by_cases hd : (s.coreAt ((4 * core + slot) / 4)).stopped.getD s.now < t ∨ s.overtaken (4 * core + slot) = true
    · exact timerExpiry_early ht hd
    · exact (timerExpiry_due ht hd).trans h

end

end Sys2Proof.Machine

namespace Sys2Proof.Machine
open Sys2Proof.Safety

/-! ## Discarding an activation -/

theorem core_updTC (s : State) (t c : Nat) (f : TCore → TCore) : ((s.updTC t c f).teamAt t).core c = f ((s.teamAt t).core c) := by
  unfold State.updTC State.updTeam State.teamAt Team.core SMap.upd
  rw [SMap.look_put_self]
  exact SMap.look_put_self _ _ _ _

theorem revAt_updRev (s : State) (r : Nat) (f : Revision → Revision) : (s.updRev r f).revAt r = f (s.revAt r) :=
  SMap.look_put_self _ _ _ _

/-- A trace entry changes nothing else. -/
theorem note_spec (s : State) (world cls : Nat) : { s.note world cls with trace := s.trace } = s := by
  unfold State.note
  split
  · split <;> rfl
  · rfl

section
variable (s : State) (world cls : Nat)

theorem note_cores : (s.note world cls).cores = s.cores := (congrArg State.cores (note_spec s world cls) :)

theorem note_teams : (s.note world cls).teams = s.teams := (congrArg State.teams (note_spec s world cls) :)

theorem note_revs : (s.note world cls).revs = s.revs := (congrArg State.revs (note_spec s world cls) :)

theorem note_perf : (s.note world cls).perf = s.perf := (congrArg State.perf (note_spec s world cls) :)

theorem note_kept : MemoryKept s (s.note world cls) :=
  ⟨(congrArg State.mem (note_spec s world cls) :), (congrArg State.tags (note_spec s world cls) :),
    (congrArg State.poison (note_spec s world cls) :)⟩

end

/-- The state in which nothing of a slot's activation is under way any more. -/
def State.undone (s : State) (key : Nat) : State :=
  (((s.countUnderWay key).flushOuts key).updCore (key / 4) fun c => c.dropSlot (key % 4)).dropRounds key

/-- The place in the order of starts with which a record returns (R266). -/
def State.returnTurn (s : State) (key : Nat) : Nat :=
  if (s.teamAt (s.slotAt key).team).isLeaving then (s.slotAt key).actid.toNat / 4 + 1 else 0

/-- Its record has returned to its ring. -/
def State.requeued (s : State) (key : Nat) : State :=
  (s.undone key).updTC (s.slotAt key).team (s.slotAt key).tcore fun tc =>
    tc.requeue (s.slotAt key).pool (s.returnTurn key) (s.slotAt key).entry

/-- The revision that it holds resets. -/
def State.unrevised (s : State) (key : Nat) : State :=
  match (s.slotAt key).rev with
  | some r => (s.requeued key).updRev r fun v => { v with resets := true, reserved := v.reserved.filter fun x => x.1 != key }
  | none => s.requeued key

theorem discard_eq (s : State) (key : Nat) : s.discard key =
    (((s.unrevised key).count 3 (s.slotAt key).part 1 1).note (s.slotAt key).world 3).setSlot key (Slot.freed (s.slotAt key)) := rfl

section
variable (s : State) (key : Nat)

theorem unrevised_cores : (s.unrevised key).cores = (s.undone key).cores := by
  unfold State.unrevised
  split <;> rfl

theorem unrevised_teams : (s.unrevised key).teams = (s.requeued key).teams := by
  unfold State.unrevised
  split <;> rfl

theorem unrevised_perf : (s.unrevised key).perf = (s.undone key).perf := by
  unfold State.unrevised
  split <;> rfl

theorem unrevised_kept : MemoryKept (s.undone key) (s.unrevised key) := by
  unfold State.unrevised
  split <;> exact ⟨rfl, rfl, rfl⟩

theorem countUnderWay_stores : StoreWork s (s.countUnderWay key) := .ite _ (count_stores s _ _ _ _) (.refl s)

theorem undone_stores : StoreWork s (s.undone key) := by
  have hdrop := StoreWork.updCore ((s.countUnderWay key).flushOuts key) (key / 4) (fun c => c.dropSlot (key % 4)) fun _ => rfl
  exact (((countUnderWay_stores s key).trans (flushOuts_stores _ key)).trans hdrop).trans (.of_cores rfl rfl)

theorem slotAt_discard_self : (s.discard key).slotAt key = Slot.freed (s.slotAt key) := by
  rw [discard_eq, State.slotAt_setSlot_self]

theorem coreAt_noted (c : Nat) : (((s.unrevised key).count 3 (s.slotAt key).part 1 1).note (s.slotAt key).world 3).coreAt c
    = (s.undone key).coreAt c := by
  rw [State.coreAt, note_cores]
  exact congrArg (SMap.look Core.reset · c) (unrevised_cores s key)

/-- What a discard leaves of another slot. -/
theorem slotAt_discard_ne {k : Nat} (h : k ≠ key) : offStores ((s.discard key).slotAt k) = offStores (s.slotAt k) := by
  rw [discard_eq, State.slotAt_setSlot_ne _ _ h, State.slotAt, coreAt_noted]
  exact (undone_stores s key).slots k

/-- The record returns to its pool slot and its ring (R239). -/
theorem core_discard : ((s.discard key).teamAt (s.slotAt key).team).core (s.slotAt key).tcore =
    ((s.teamAt (s.slotAt key).team).core (s.slotAt key).tcore).requeue (s.slotAt key).pool (s.returnTurn key) (s.slotAt key).entry := by
  have hteams : (s.discard key).teams = (s.requeued key).teams := by
    rw [discard_eq]
    exact (note_teams _ _ _).trans (unrevised_teams s key)
  have hundone : (s.undone key).teamAt = s.teamAt := by
    funext t
    exact congrArg (SMap.look Team.reset · t) (undone_stores s key).teams
  have hteam : (s.discard key).teamAt (s.slotAt key).team = (s.requeued key).teamAt (s.slotAt key).team :=
    congrArg (SMap.look Team.reset · _) hteams
  rw [hteam, State.requeued, core_updTC, hundone]

theorem revAt_discard {r : Nat} (h : (s.slotAt key).rev = some r) : ((s.discard key).revAt r).resets = true := by
  have hrevs : (s.discard key).revs = (s.unrevised key).revs := by
    rw [discard_eq]
    exact note_revs _ _ _
  have hrev : (s.unrevised key).revAt r = { (s.requeued key).revAt r with
      resets := true, reserved := ((s.requeued key).revAt r).reserved.filter fun x => x.1 != key } := by
    unfold State.unrevised
    rw [h]
    exact revAt_updRev _ _ _
  have hat : (s.discard key).revAt r = (s.unrevised key).revAt r := congrArg (SMap.look Revision.reset · r) hrevs
  rw [hat, hrev]

/-- Nothing of a dropped slot is under way in its core (R20, R239). -/
theorem dropSlot_clear (c : Core) (slot : Nat) : (c.dropSlot slot).engine.chain ≠ some slot
    ∧ (∀ x ∈ (c.dropSlot slot).engine.queue, x.slot ≠ slot) ∧ (∀ x ∈ (c.dropSlot slot).barge, x.slot ≠ slot)
    ∧ ∀ x ∈ (c.dropSlot slot).bdone, x.slot ≠ slot := by
  have kept {α : Type} (f : α → Nat) (l : List α) : ∀ x ∈ l.filter (fun o => f o != slot), f x ≠ slot := fun x hx =>
    bne_iff_ne.mp (List.mem_filter.mp hx).2
  refine ⟨?_, kept EngineOp.slot _, kept BargeOp.slot _, kept BargeDone.slot _⟩
  unfold Core.dropSlot
  dsimp only
  split
  · exact fun h => by cases h
  · next h => exact h

theorem coreAt_discard : ∃ c : Core, ((s.discard key).coreAt (key / 4)).engine = (c.dropSlot (key % 4)).engine
    ∧ ((s.discard key).coreAt (key / 4)).barge = (c.dropSlot (key % 4)).barge
    ∧ ((s.discard key).coreAt (key / 4)).bdone = (c.dropSlot (key % 4)).bdone := by
  have hundone : (s.undone key).coreAt (key / 4) = (((s.countUnderWay key).flushOuts key).coreAt (key / 4)).dropSlot (key % 4) :=
    (State.coreAt_updCore_self ((s.countUnderWay key).flushOuts key) (key / 4) fun c => c.dropSlot (key % 4) :)
  refine ⟨((s.countUnderWay key).flushOuts key).coreAt (key / 4), ?_⟩
  rw [discard_eq, State.setSlot, State.coreAt_updCore_self, coreAt_noted, hundone]
  exact ⟨rfl, rfl, rfl⟩

/-- With an empty store queue a discard writes nothing, and counts itself and what is under way. -/
theorem undone_idle (h : (s.slotAt key).out = []) :
    MemoryKept s (s.undone key) ∧ (s.undone key).perf = (s.countUnderWay key).perf := by
  have hout : ((s.countUnderWay key).slotAt key).out = [] := by
    unfold State.countUnderWay
    split
    · exact h
    · exact h
  have hflush : (s.countUnderWay key).flushOuts key = s.countUnderWay key := by rw [State.flushOuts, hout]; rfl
  have hcount : MemoryKept s (s.countUnderWay key) := by
    unfold State.countUnderWay
    split
    · exact count_kept s _ _ _ _
    · exact ⟨rfl, rfl, rfl⟩
  rw [State.undone, hflush]
  exact ⟨MemoryKept.trans hcount ⟨rfl, rfl, rfl⟩, rfl⟩

theorem discard_kept (h : (s.slotAt key).out = []) : MemoryKept s (s.discard key) := by
  have hcount := count_kept (s.unrevised key) 3 (s.slotAt key).part 1 1
  have hset : MemoryKept _ (s.discard key) := updSlot_kept (((s.unrevised key).count 3 (s.slotAt key).part 1 1).note (s.slotAt key).world 3)
    key fun _ => Slot.freed (s.slotAt key)
  obtain ⟨hidle, -⟩ := undone_idle s key h
  exact MemoryKept.trans (MemoryKept.trans (MemoryKept.trans hidle (unrevised_kept s key)) hcount)
    (MemoryKept.trans (note_kept _ _ _) hset)

theorem perf_discard (h : (s.slotAt key).out = []) :
    (s.discard key).perf = ((s.countUnderWay key).count 3 (s.slotAt key).part 1 1).perf := by
  have hperf : (s.unrevised key).perf = (s.countUnderWay key).perf := (unrevised_perf s key).trans (undone_idle s key h).2
  rw [discard_eq]
  refine (note_perf _ _ _).trans ?_
  exact congrArg (SMap.upd 0 · (perfKey 3 (s.slotAt key).part 1) fun w => w + BitVec.ofNat 64 1) hperf

end

/-! ## The ring -/

theorem poolAt_setPool_self (tc : TCore) (k : Nat) (e : PoolEntry) : (tc.setPool k e).poolAt k = e :=
  SMap.look_ins_self _ _ k e (SMap.not_mem_erase _ _)

theorem poolAt_setPool_ne (tc : TCore) {k j : Nat} (e : PoolEntry) (h : j ≠ k) : (tc.setPool k e).poolAt j = tc.poolAt j :=
  (SMap.look_ins_ne _ _ e h).trans (SMap.look_erase_ne _ _ h)

/-- The record goes before those that were started later (R266). -/
theorem requeue_ring (tc : TCore) (k turn : Nat) (e : PoolEntry) : ∃ l r, tc.ring = l ++ r ∧ (tc.requeue k turn e).ring = l ++ k :: r
    ∧ (∀ j ∈ l, 0 < ((tc.requeue k turn e).poolAt j).turn ∧ ((tc.requeue k turn e).poolAt j).turn < turn ∨ j = k)
    ∧ ∀ j, r.head? = some j →
        ((tc.requeue k turn e).poolAt j).turn = 0 ∨ turn ≤ ((tc.requeue k turn e).poolAt j).turn := by
  have hpool (j : Nat) : (tc.requeue k turn e).poolAt j = (tc.setPool k { e with taken := false, turn := turn }).poolAt j := rfl
  let earlier (j : Nat) : Bool := decide (0 < (tc.poolAt j).turn) && decide ((tc.poolAt j).turn < turn)
  refine ⟨tc.ring.takeWhile earlier, tc.ring.dropWhile earlier, List.takeWhile_append_dropWhile.symm, rfl, fun j hj => ?_, fun j hj => ?_⟩
  · by_cases h : j = k
    · exact .inr h
    · have hearly := List.mem_takeWhile_imp hj
      rw [hpool, poolAt_setPool_ne _ _ h]
      exact .inl (by simpa [earlier] using hearly)
  · by_cases h : j = k
    · rw [hpool, h, poolAt_setPool_self]
      exact .inr le_rfl
    · have hlate := List.head?_dropWhile_not earlier tc.ring
      rw [hj] at hlate
      rw [hpool, poolAt_setPool_ne _ _ h]
      have hlate : earlier j = false := by simpa using hlate
      rw [Bool.and_eq_false_iff, decide_eq_false_iff_not, decide_eq_false_iff_not] at hlate
      omega

/-- Outside a swap it goes to the head (R239). -/
theorem requeue_head (tc : TCore) (k : Nat) (e : PoolEntry) : (tc.requeue k 0 e).ring = k :: tc.ring := by
  have h (p : Nat → Bool) (hp : ∀ j, p j = false) (l : List Nat) : l.takeWhile p ++ k :: l.dropWhile p = k :: l := by
    cases l with
    | nil => rfl
    | cons a l => rw [List.takeWhile_cons_of_neg (by rw [hp]; decide), List.dropWhile_cons_of_neg (by rw [hp]; decide)]; rfl
  exact h _ (fun j => by simp) tc.ring

end Sys2Proof.Machine

namespace Sys2Proof.Machine
open Sys2Proof.Safety

/-! ## Machine checks -/

/-- What a machine check makes of a slot (R241): an uncommitted activation is gone, a committed one ends as terminal. -/
def Checked (a b : Slot) : Prop :=
  (a.active = false ∨ a.committed = none → b.active = false)
  ∧ (a.active = true → a.committed ≠ none → b.active = true ∧ b.committed = a.committed ∧ b.deferred = a.deferred
      ∧ (∀ f, a.stop = .terminal f → b.stop = a.stop)
      ∧ ((∀ f, a.stop ≠ .terminal f) → b.timer = none
          ∧ b.stop = .terminal { FaultInfo.of 0x3F with mode := 3, iaddr := a.here }))

theorem checked_congr {a a' b b' : Slot} (ha : offStores a' = offStores a) (hb : offStores b' = offStores b) (h : Checked a b) :
    Checked a' b' := by
  have same {α : Type} (f : Slot → α) (hf : ∀ x, f (offStores x) = f x) : f a' = f a ∧ f b' = f b :=
    ⟨by rw [← hf a', ha, hf], by rw [← hf b', hb, hf]⟩
  obtain ⟨hact, hact'⟩ := same (·.active) fun _ => rfl
  obtain ⟨hcom, hcom'⟩ := same (·.committed) fun _ => rfl
  obtain ⟨hdef, hdef'⟩ := same (·.deferred) fun _ => rfl
  obtain ⟨hstop, hstop'⟩ := same (·.stop) fun _ => rfl
  obtain ⟨-, htimer'⟩ := same (·.timer) fun _ => rfl
  obtain ⟨hhere, -⟩ := same (·.here) fun _ => rfl
  unfold Checked
  rw [hact, hact', hcom, hcom', hdef, hdef', hstop, hstop', htimer', hhere]
  exact h

theorem checked_inactive {a : Slot} (h : a.active = false) : Checked a a :=
  ⟨fun _ => h, fun e => Bool.noConfusion (h.symm.trans e)⟩

/-- What the check does to one slot. -/
def State.checkSlot (s : State) (k : Nat) : State :=
  if (s.slotAt k).committed.isNone then s.discard k else s.checkTerminal k

theorem slotAt_countUnderWay (s : State) (key k : Nat) : (s.countUnderWay key).slotAt k = s.slotAt k := by
  unfold State.countUnderWay
  split <;> rfl

theorem checkTerminal_self (s : State) (k : Nat) (hc : (s.slotAt k).committed ≠ none) :
    Checked (s.slotAt k) ((s.checkTerminal k).slotAt k) := by
  unfold State.checkTerminal
  rw [State.slotAt_updSlot_self, slotAt_countUnderWay]
  refine ⟨fun h => ?_, fun hact _ => ?_⟩
  · obtain h | h := h
    · cases hs : (s.slotAt k).stop <;> exact h
    · exact absurd h hc
  · cases hs : (s.slotAt k).stop with
    | terminal f => exact ⟨hact, rfl, rfl, fun _ _ => hs, fun h => absurd rfl (h f)⟩
    | _ => exact ⟨hact, rfl, rfl, (nofun), fun _ => ⟨rfl, rfl⟩⟩

theorem checkSlot_self (s : State) (k : Nat) : Checked (s.slotAt k) ((s.checkSlot k).slotAt k) := by
  unfold State.checkSlot
  cases hc : (s.slotAt k).committed with
  | none =>
    rw [if_pos Option.isNone_none, slotAt_discard_self]
    exact ⟨fun _ => rfl, fun _ h => absurd hc h⟩
  | some c =>
    rw [if_neg (by rw [Option.isNone_some]; decide)]
    exact checkTerminal_self s k (by rw [hc]; nofun)

theorem checkSlot_ne (s : State) {k j : Nat} (h : j ≠ k) : offStores ((s.checkSlot k).slotAt j) = offStores (s.slotAt j) := by
  unfold State.checkSlot
  split
  · exact slotAt_discard_ne s k h
  · unfold State.checkTerminal
    rw [State.slotAt_updSlot_ne _ _ h, slotAt_countUnderWay]

theorem checkSlots_ne {l : List Nat} {j : Nat} (h : j ∉ l) (s : State) :
    offStores ((l.foldl State.checkSlot s).slotAt j) = offStores (s.slotAt j) := by
  induction l generalizing s with
  | nil => rfl
  | cons k l ih =>
    obtain ⟨hk, hl⟩ := not_or.mp (mt List.mem_cons.mpr h)
    exact (ih hl (s.checkSlot k)).trans (checkSlot_ne s hk)

theorem checkSlots_mem {l : List Nat} (hd : l.Nodup) {j : Nat} (h : j ∈ l) (s : State) :
    Checked (s.slotAt j) ((l.foldl State.checkSlot s).slotAt j) := by
  induction l generalizing s with
  | nil => cases h
  | cons k l ih =>
    obtain ⟨hk, hl⟩ := List.nodup_cons.mp hd
    by_cases hj : j = k
    · subst hj
      exact checked_congr rfl (checkSlots_ne hk (s.checkSlot j)) (checkSlot_self s j)
    · exact checked_congr (checkSlot_ne s hj).symm rfl (ih hl ((List.mem_cons.mp h).resolve_left hj) (s.checkSlot k))

/-- A change of a slot depends on that slot alone. -/
theorem updSlot_congr (s : State) (k : Nat) (f g : Slot → Slot) (h : f (s.slotAt k) = g (s.slotAt k)) :
    s.updSlot k f = s.updSlot k g :=
  congrArg (s.setSlot k) h

theorem liveSlots_nodup (s : State) (core : Nat) : (s.liveSlots core).Nodup :=
  (List.Nodup.map (fun _ _ h => Nat.add_left_cancel h) List.nodup_range).filter _

theorem mem_liveSlots {s : State} {core k : Nat} (hk : k < 4) :
    4 * core + k ∈ s.liveSlots core ↔ (s.slotAt (4 * core + k)).active = true := by
  unfold State.liveSlots
  rw [List.mem_filter]
  exact and_iff_right (List.mem_map.mpr ⟨k, List.mem_range.mpr hk, rfl⟩)

/-- The slots of a core after its check. -/
theorem checkSlots_core (s : State) (core : Nat) {k : Nat} (hk : k < 4) : Checked (s.slotAt (4 * core + k))
    (((s.liveSlots core).foldl State.checkSlot s).slotAt (4 * core + k)) := by
  by_cases h : 4 * core + k ∈ s.liveSlots core
  · exact checkSlots_mem (liveSlots_nodup s core) h s
  · have hact := Bool.eq_false_iff.mpr (mt (mem_liveSlots hk).mpr h)
    exact checked_congr rfl (checkSlots_ne h s) (checked_inactive hact)

theorem ringPush_cores (s : State) (t c slot : Nat) : (s.ringPush t c slot).cores = s.cores := rfl

theorem placeReady_cores {s u : State} {t c : Nat} {e : PoolEntry} (h : s.placeReady t c e = some u) : u.cores = s.cores := by
  unfold State.placeReady at h
  dsimp only at h
  split at h
  · split at h
    · split at h
      · cases h; rfl
      · cases h
    · cases h
  · split at h
    · cases h; rfl
    · cases h

theorem reroute_cores (s : State) (t c k : Nat) : (s.reroute t c k).cores = s.cores := by
  unfold State.reroute
  cases h : s.rerouted t c k with
  | none => rfl
  | some u =>
    have hplace : u.cores = _ := placeReady_cores h
    exact hplace

theorem reroutes_cores (t c : Nat) (l : List Nat) (s : State) : (l.foldl (fun u k => u.reroute t c k) s).cores = s.cores := by
  induction l generalizing s with
  | nil => rfl
  | cons k l ih => exact (ih _).trans (reroute_cores s t c k)

/-- A core in service that fails leaves service, with its slots checked; what follows concerns its records. -/
theorem machineCheck_cores {s : State} {core : Nat} (h : (s.coreAt core).oos = false) : (s.machineCheck core false).cores =
    (((s.liveSlots core).foldl State.checkSlot s).updCore core fun c => { c with oos := true }).cores := by
  unfold State.machineCheck
  rw [if_neg (by rw [h]; decide)]
  dsimp only
  split
  · rfl
  · exact reroutes_cores _ _ _ _

end Sys2Proof.Machine

open Sys2Proof Sys2Proof.Machine Sys2Proof.Safety

/-- Settles O37: each event by its branches; a discard by what writes leave alone, and a machine check slot by slot. -/
theorem timersAndPreemption : Obligations.TimersAndPreemption := by
  unfold Obligations.TimersAndPreemption
  intro s core slot
  dsimp only
  refine ⟨fun ⟨hl, hs⟩ hu hf => ?_, fun ⟨hl, hs⟩ hf => ⟨_, fall_spec _, ?_⟩, fun ⟨hl, hs⟩ hu => ⟨_, fall_spec _, ?_⟩,
    fun h => windowExpiry_stays h, fun h => ?_, fun d l hs hd hb => timerExpiry_quiet ?_, fun st hs => timerExpiry_quiet ?_,
    fun t ht hlt => timerExpiry_early ht (.inl hlt), fun t ht hle hov => ?_, ?_, fun ⟨hact, hpre, hcom⟩ => ?_, fun h => ?_, fun h => ?_,
    fun h => ?_⟩
  · have hunder : (s.slotAt (4 * core + slot)).underWay = false := Bool.eq_false_iff.mpr (mt (underWay_iff _).mp hu)
    have hissued : (s.slotAt (4 * core + slot)).atIssued = false := by
      unfold Slot.atIssued
      split
      · next f hstop => exact beq_eq_false_iff_ne.mpr fun e => hf ⟨f, hstop, e⟩
      · exact hunder
    refine (windowExpiry_ends hl hs).trans ?_
    rw [hissued, countUnderWay_idle hunder]
    rfl
  · obtain ⟨f, hstop, hmode⟩ := hf
    have hunder : (s.slotAt (4 * core + slot)).underWay = false := by rw [Slot.underWay, hstop]
    have hissued : (s.slotAt (4 * core + slot)).atIssued = true := by
      rw [Slot.atIssued, hstop]
      exact beq_iff_eq.mpr hmode
    refine (windowExpiry_ends hl hs).trans ?_
    rw [hissued, countUnderWay_idle hunder, if_pos rfl, here_fall]
    rfl
  · have hunder := (underWay_iff _).mpr hu
    have hissued : (s.slotAt (4 * core + slot)).atIssued = true := by
      unfold Slot.atIssued
      split
      · next f hstop => rw [Slot.underWay, hstop] at hunder; cases hunder
      · exact hunder
    refine (windowExpiry_ends hl hs).trans ?_
    rw [hissued, countUnderWay_under hunder, if_pos rfl, here_fall]
    rfl
  · cases ht : (s.slotAt (4 * core + slot)).timer with
    | none => exact timerExpiry_none ht
    | some t => exact timerExpiry_early ht (.inr ((overtaken_late s _).mpr (h.resolve_left (by rw [ht]; nofun))))
  · rw [State.timerFires, hs, hd]
    simp only [List.head?_cons, hb]
  · rw [State.timerFires, hs]
  · have hdue := timerExpiry_due ht fun h => h.elim (by omega) fun h => hov ((overtaken_late s _).mp h)
    refine ⟨fun e n hs => ?_, fun o g hs => ?_, fun sc st hs => ?_, fun d l o hs hd hb => ?_⟩
    · refine hdue.trans ?_
      rw [State.timerFires, hs]
      rfl
    · refine hdue.trans ?_
      rw [State.timerFires, hs]
      rfl
    · refine hdue.trans ?_
      rw [State.timerFires, hs]
      rfl
    · refine hdue.trans ?_
      rw [State.timerFires, hs, hd]
      simp only [List.head?_cons, hb]
      rfl
  · refine congrArg Host.Outcome.next (updSlot_congr s _ _ _ ?_)
    simp only [Bool.and_eq_true, Option.isNone_iff_eq_none]
  · have hexec : exec (.activationDiscard core slot) s = .next (s.discard (4 * core + slot)) :=
      congrArg Host.Outcome.next (if_pos (by rw [hact, hpre, hcom]; rfl))
    refine ⟨_, hexec, slotAt_discard_self s _, fun hout => ⟨discard_kept s _ hout, fun hu => ?_, fun hu => ?_⟩, ?_,
      fun r hr => revAt_discard s _ hr, ?_⟩
    · rw [perf_discard s _ hout, countUnderWay_under ((underWay_iff _).mpr hu)]
    · rw [perf_discard s _ hout, countUnderWay_idle (Bool.eq_false_iff.mpr (mt (underWay_iff _).mp hu))]
    · rw [core_discard]
      refine ⟨rfl, poolAt_setPool_self _ _ _, fun hswap => ?_, fun hswap => ?_⟩
      · rw [State.returnTurn, if_neg (by rw [hswap]; decide)]
        exact requeue_head _ _ _
      · rw [State.returnTurn, if_pos hswap]
        exact requeue_ring _ _ _ _
    · obtain ⟨c, hengine, hbarge, hdone⟩ := coreAt_discard s (4 * core + slot)
      rw [hengine, hbarge, hdone]
      exact dropSlot_clear c _
  · refine congrArg Host.Outcome.next (if_neg ?_)
    simpa only [Bool.and_eq_true, Option.isNone_iff_eq_none, and_assoc] using h
  · exact congrArg Host.Outcome.next (if_pos h)
  · have hcores := machineCheck_cores h
    refine ⟨_, rfl, ?_, fun k hk => ?_⟩
    · rw [State.coreAt, hcores]
      exact congrArg Core.oos (State.coreAt_updCore_self ((s.liveSlots core).foldl State.checkSlot s) core fun c => { c with oos := true })
    · have hslot : (s.machineCheck core false).slotAt (4 * core + k)
          = ((s.liveSlots core).foldl State.checkSlot s).slotAt (4 * core + k) := by
        rw [State.slotAt, State.coreAt, hcores]
        exact State.slotAt_updCore ((s.liveSlots core).foldl State.checkSlot s) core (4 * core + k)
          (fun c => { c with oos := true }) fun _ => rfl
      rw [hslot]
      exact checkSlots_core s core hk
end

section
/-!
A record of a quarantined object is logged as it is taken (R257, R361). What a log's lines meet on their way to memory depends
on the directories (R315, R316), and the mask of a region is a list over the map of cores. `twoEntries` is a state whose map
has two entries for one core, of which the first alone is the core: the second still puts the core into a mask, until a write
of the core leaves one entry.
-/

namespace Sys2Proof.Machine
open Sys2Proof.Safety

/-- The least recently used region: the line at which the fault log begins. -/
def headRegion : Region := { base := 0, k := 0, used := 0, split := 0 }

/-- The region of two lines of the log's first record. -/
def recordRegion : Region := { base := 2, k := 1, used := 1, split := 0 }

/-- A region around both. -/
def wideRegion : Region := { base := 0, k := 20, used := 1, split := 0 }

/-- A directory without an empty entry. -/
def fullDirectory : List Region := headRegion :: recordRegion :: wideRegion :: List.replicate 8189 wideRegion

/-- Core 0 is free to start the record 0 of its ring, whose object is quarantined. Core 4 owns the line at which the log begins,
of which a proxy has a copy with another count. -/
def twoEntries : State :=
  { State.reset with
    cores := [(0, { Core.reset with team := some 0 }),
              (4, { Core.reset with stash := [{ va := 0, key := 0, written := false, loc := 0 }] }),
              (0, { Core.reset with notices := [(2, false)] })]
    coh := [(0, { LineCoh.reset with slice := 1, proxy := .M, pcopy := { bits := 5, tag := false }, owner := some 4 }),
            (2, { LineCoh.reset with slice := 1 })]
    slices := [(1, { Slice.reset with dir := fullDirectory })]
    worlds := [(0, { World.reset with live := true, objs := [(0, { CodeObj.reset with quarantined := true })] })]
    grids := [(0, { Grid.reset with world := 0 })]
    teams := [(0, { Team.reset with cores := 4, st := .resident 0, tc := [(0, { TCore.reset with ring := [0] })] })] }

/-- The fault that is logged. -/
def quarantineFault : FaultInfo := { FaultInfo.of 0x3B with mode := 3, iaddr := BitVec.ofNat 64 0, time := twoEntries.counter 0 0 0 }

/-! ## A log entry, at the line in whose round a region splits -/

/-- The key of line `j` of entry `n` of a log. -/
def logKey (k0 n j : Nat) : Nat := k0 + 64 * (1 + 4 * (n % 256) + j)

/-- The state in which the second line of entry `n` is sent to its sharers. -/
def State.logHead (s : State) (k0 n world : Nat) : State :=
  ((s.outsideReady (lineKey k0) true).homePut (logKey k0 n 0)
    { bits := BitVec.ofNat 512 (world % 256 + 2 ^ 64 * n), tag := false }).outsideReady (lineKey (logKey k0 n 1)) true

/-- What follows that round. -/
def State.logTail (s : State) (k0 n : Nat) (f : FaultInfo) : State :=
  ((((s.putLine (logKey k0 n 1) { bits := f.line, tag := false }).homePut (logKey k0 n 2) { bits := f.coordLine, tag := false }).homePut
    (logKey k0 n 3) CapReg.null).homeRound (lineKey k0)).putData k0 (leBytes 8 (n + 1))

theorem logAt_split (s : State) {flog world n : Nat} (f : FaultInfo)
    (hn : Memory.num (s.outsideReady (lineKey (memKey .dev flog)) true).mem (memKey .dev flog) 8 = n) :
    s.logAt flog world f = ((s.logHead (memKey .dev flog) n world).homeRound (lineKey (logKey (memKey .dev flog) n 1))).logTail
      (memKey .dev flog) n f := by
  subst hn
  rfl

theorem offLine_worldAt (s : State) (w : Nat) : (offLine s).worldAt w = s.worldAt w := rfl

theorem LineWork.worldAt {s u : State} (h : LineWork s u) (w : Nat) : u.worldAt w = s.worldAt w := by
  rw [← offLine_worldAt, h.rest, offLine_worldAt]

theorem report_world_zero (s : State) (f : FaultInfo) (h : (s.worldAt 0).live = true) : s.report 0 f =
    (s.logAt (s.worldAt 0).flog 0 f).logAt (s.worldAt 0).flog 0 (f.coarsen (s.worldAt 0).policy) := by
  have hw := (logAt_lineWork s (s.worldAt 0).flog 0 f).worldAt 0
  unfold State.report
  dsimp only
  rw [if_pos h, hw, if_pos h]

/-! ## The round that drops the owner -/

theorem oldestRegion_head (r : Region) (l : List Region) (h : r.used = 0) : oldestRegion (r :: l) = some r := by
  unfold oldestRegion
  split
  · rfl
  · exact if_pos (by omega)

theorem length_fullDirectory : 8192 ≤ fullDirectory.length := by
  simp only [fullDirectory, List.length_cons, List.length_replicate]
  omega

theorem oldest_fullDirectory : oldestRegion (fullDirectory.filter fun q => some q != some recordRegion) = some headRegion := by
  rw [fullDirectory, List.filter_cons_of_pos (by decide)]
  exact oldestRegion_head _ _ rfl

/-- The split of the record's region in slice 1, with the entry of the first line of the log freed before it. -/
def State.splitRecord (s : State) : State :=
  ((((s.regionMask 0 headRegion).foldl (fun t c =>
    (t.updCore c fun x => x.dropL1 fun l => headRegion.has l.key).dropStash c fun e => headRegion.has e.key)
      (s.flushRegion 1 headRegion)).updSlice 1 fun d => { d with dir := d.dir.filter fun q => q != headRegion }).updSlice 1 fun d =>
    { d with dir := d.dir.flatMap fun q => if q = recordRegion then
        [{ base := 2, k := 0, used := 1, split := s.now }, { base := 3, k := 0, used := 1, split := s.now }] else [q] }).count 2 1 3 1

/-- A NONE for a line of the record, at the full directory (R316). -/
theorem splitRegion_full {s : State} (h : (s.sliceAt 1).dir = fullDirectory) : s.splitRegion 1 2 = s.splitRecord := by
  have hregion : (s.sliceAt 1).regionOf 2 = some recordRegion := by
    rw [Slice.regionOf, h]
    rfl
  unfold State.splitRegion
  rw [hregion]
  dsimp only
  rw [if_neg (by decide), h, if_pos length_fullDirectory]
  unfold State.freeRegion
  rw [h, oldest_fullDirectory]
  rfl

/-! ## The directories while a log's lines are sent -/

theorem settle_of_idle {s : State} {lk : Nat} (hw : (s.cohAt lk).wback = none) (hs : (s.cohAt lk).snoop = none) : s.settle lk = s := by
  have hfinish : s.finishWriteBack lk = s := by rw [State.finishWriteBack, hw]
  rw [State.settle, hfinish, hs]

theorem recallHost_slices (s : State) (lk : Nat) (wr : Bool) : (s.recallHost lk wr).slices = s.slices := by
  unfold State.recallHost
  split <;> rfl

/-- No snoop leaves for a line of which a stash is the owner, or the proxy has no copy. -/
theorem outsideReady_slices {s : State} {lk : Nat} (hw : (s.cohAt lk).wback = none) (hs : (s.cohAt lk).snoop = none)
    (hp : (((s.recallHost lk true).cohAt lk).owner.isSome || ((s.recallHost lk true).cohAt lk).proxy = .I) = true) :
    (s.outsideReady lk true).slices = s.slices := by
  unfold State.outsideReady
  rw [settle_of_idle hw hs]
  dsimp only
  split
  case h_1 => exact recallHost_slices s lk true
  case h_2 hnone =>
    have hproxy : ((s.recallHost lk true).cohAt lk).proxy = .I := by simpa [hnone] using hp
    rw [if_pos rfl, hproxy]
    exact recallHost_slices s lk true

theorem homePut_slices {s : State} {k : Nat} (v : CapReg)
    (hround : (s.outsideReady (lineKey k) true).coh.any (fun x => x.1 == lineKey k) = false) :
    (s.homePut k v).slices = (s.outsideReady (lineKey k) true).slices := by
  unfold State.homePut State.homeRound
  rw [hround]
  rfl

theorem drainChannel_slices {s : State} {slice lk core : Nat} (h : (s.cohAt lk).pend = none) :
    (s.drainChannel slice lk core).slices = s.slices := by
  unfold State.drainChannel
  rw [h]
  rfl

/-- The state in which the second line of the first record is sent. -/
def sending : State := twoEntries.logHead 0 0 0

/-- The state in which core 0 answers. -/
def answering : State := ((sending.count 2 1 2 1).updCore 0 fun x => x.acksArrive 2).drainChannel 1 2 0

theorem round_splits : sending.homeRound 2 = answering.splitRegion 1 2 := by
  have hany : sending.coh.any (fun x => x.1 == 2) = true := by decide +kernel
  have hslice : (sending.cohAt 2).slice = 1 := by decide +kernel
  have hsharers : sending.sharersOf 1 2 = [0] := by decide +kernel
  have hreply : (((sending.count 2 1 2 1).updCore 0 fun x => x.acksArrive 2).coreAt 0).reply 2 = .none := by decide +kernel
  unfold State.homeRound
  rw [if_pos hany, hslice]
  unfold State.updateRound
  rw [hsharers, List.foldl_cons, List.foldl_nil]
  dsimp only
  rw [hreply]
  rfl

theorem sending_slices : sending.slices = twoEntries.slices := by
  have hfirst : (twoEntries.outsideReady 0 true).slices = twoEntries.slices :=
    outsideReady_slices rfl rfl (by decide +kernel)
  have hready : ((twoEntries.outsideReady 0 true).outsideReady 1 true).slices = (twoEntries.outsideReady 0 true).slices :=
    outsideReady_slices (by decide +kernel) (by decide +kernel) (by decide +kernel)
  have hput := homePut_slices (s := twoEntries.outsideReady 0 true) (k := 64) { bits := 0, tag := false } (by decide +kernel)
  have hsecond := outsideReady_slices (s := (twoEntries.outsideReady 0 true).homePut 64 { bits := 0, tag := false }) (lk := 2)
    (by decide +kernel) (by decide +kernel) (by decide +kernel)
  exact hsecond.trans (hput.trans (hready.trans hfirst))

theorem sliceAt_answering : (answering.sliceAt 1).dir = fullDirectory := by
  have hslices : answering.slices = sending.slices :=
    (drainChannel_slices (s := (sending.count 2 1 2 1).updCore 0 fun x => x.acksArrive 2) (by decide +kernel)).trans
      (by rw [State.updCore_slices, State.count_slices])
  rw [State.sliceAt, hslices, sending_slices]
  rfl

theorem sending_round : sending.homeRound 2 = answering.splitRecord :=
  round_splits.trans (splitRegion_full sliceAt_answering)

/-- The log after the first of the two records. -/
def logged : State := answering.splitRecord.logTail 0 0 quarantineFault

theorem logAt_first : twoEntries.logAt 0 0 quarantineFault = logged := by
  have hcount : Memory.num (twoEntries.outsideReady (lineKey (memKey .dev 0)) true).mem (memKey .dev 0) 8 = 0 := by decide +kernel
  have hround : (twoEntries.logHead (memKey .dev 0) 0 0).homeRound (lineKey (logKey (memKey .dev 0) 0 1)) = answering.splitRecord :=
    sending_round
  rw [logAt_split twoEntries quarantineFault hcount, hround]
  rfl

theorem report_byte : (twoEntries.report 0 quarantineFault).byte 0 = 6 := by
  rw [report_world_zero twoEntries quarantineFault rfl]
  have hflog : (twoEntries.worldAt 0).flog = 0 := rfl
  rw [hflog, logAt_first]
  decide +kernel

/-- The first byte of memory after a step. -/
def nextByte : Host.Outcome State Fault Refusal → Option Byte
  | .next u => some (u.byte 0)
  | .fault _ => none
  | .refused _ => none

theorem start_byte {u : State} (h : exec (.activationStart 0 0) twoEntries = .next u) : u.byte 0 = 2 := by
  have hbyte : nextByte (exec (.activationStart 0 0) twoEntries) = some 2 := by decide +kernel
  rw [h] at hbyte
  exact Option.some.inj hbyte

theorem byte_of_mem {s u : State} (h : u.mem = s.mem) (k : Nat) : u.byte k = s.byte k :=
  congrArg (Memory.get · k) h

/-- The record logged at the start of `twoEntries` and that of the state before it differ: the start leaves one entry for core 0,
so that no reply splits a region. -/
theorem start_not_memoryKept {u : State} (h : exec (.activationStart 0 0) twoEntries = .next u) :
    ¬ MemoryKept (twoEntries.report 0 quarantineFault) u := by
  rintro ⟨hmem, -, -⟩
  have hbyte : u.byte 0 = (twoEntries.report 0 quarantineFault).byte 0 := byte_of_mem hmem 0
  rw [start_byte h, report_byte] at hbyte
  exact absurd hbyte (by decide)

/-- Refutes O38: the last clause of a quarantined record compares memory with `State.report`, which logs in the state as it is;
the start has written the core first, and in `twoEntries`, whose map has two entries for core 0, that changes a region's mask. -/
theorem not_schedulerStartsActivations : ¬ Obligations.SchedulerStartsActivations := by
  rintro ⟨hstarts, -⟩
  obtain ⟨-, -, -, -, hresident⟩ := hstarts twoEntries 0 0 0 0 0 0
  obtain ⟨hring, -, -, -⟩ := hresident rfl ⟨by decide, rfl, rfl, rfl, rfl⟩ rfl
  have hserves : twoEntries.servesRec (twoEntries.teamAt 0) (twoEntries.coreAt 0).tcore (twoEntries.coreAt 0).tcore 0 = true := by
    decide +kernel
  obtain ⟨hquarantined, -⟩ := hring [] 0 [] rfl (by simp) hserves fun v hv => nomatch hv
  have hobject : (twoEntries.objAt (twoEntries.gridAt (twoEntries.teamAt 0).grid).world
      ((((twoEntries.teamAt 0).core (twoEntries.coreAt 0).tcore).poolAt 0).record.code / 2 ^ 32)).quarantined = true := by
    decide +kernel
  obtain ⟨u, hexec, -, -, -, -, -, hkept⟩ := hquarantined hobject
  have hworld : (twoEntries.gridAt (twoEntries.teamAt 0).grid).world = 0 := rfl
  have hcode : (((twoEntries.teamAt 0).core (twoEntries.coreAt 0).tcore).poolAt 0).record.code = 0 := by
    decide +kernel
  rw [hworld, hcode] at hkept
  exact start_not_memoryKept hexec (hkept rfl)

end Sys2Proof.Machine
end

section
/-!
The canonical form of memory, said of what operations answer: a state, a state beside a value, an access that may fault, an
outcome; and the updates of the state that are not of memory.
-/

namespace Sys2Proof.Machine
open Sys2Proof.Safety

/-- What an answer holds, if it holds one, has a property. -/
def OnSome {α : Type} (P : α → Prop) (o : Option α) : Prop := ∀ a, o = some a → P a

/-- What comes of an access that no fault stops has a property. -/
def OnOk {ε α : Type} (P : α → Prop) (o : Except ε α) : Prop := ∀ a, o = .ok a → P a

/-- The next state, if there is one, has memory in canonical form. -/
def OnNext (o : Out3) : Prop := ∀ u, o = .next u → MemoryCanonical u

/-- The state that a deferred effect leaves has memory in canonical form. -/
def OnApplied : Applied → Prop
  | .done t => MemoryCanonical t
  | .wait t _ _ => MemoryCanonical t
  | .fault t _ => MemoryCanonical t

theorem onSome_some {α : Type} {P : α → Prop} {a : α} (h : P a) : OnSome P (some a) :=
  fun _ hb => Option.some.inj hb ▸ h

theorem onSome_none {α : Type} {P : α → Prop} : OnSome P none := fun _ h => nomatch h

theorem onOk_ok {ε α : Type} {P : α → Prop} {a : α} (h : P a) : OnOk P (.ok a : Except ε α) :=
  fun _ hb => Except.ok.inj hb ▸ h

theorem onOk_error {ε α : Type} {P : α → Prop} {e : ε} : OnOk P (.error e : Except ε α) :=
  fun _ h => nomatch h

theorem onNext_next {u : State} (h : MemoryCanonical u) : OnNext (.next u) :=
  fun _ hv => Host.Outcome.next.inj hv ▸ h

theorem onNext_fault {f : Fault} : OnNext (.fault f) := fun _ h => nomatch h

theorem onSome_map {α β : Type} {P : α → Prop} {Q : β → Prop} {o : Option α} {f : α → β} (h : OnSome P o)
    (hf : ∀ a, P a → Q (f a)) : OnSome Q (o.map f) := by
  intro b hb
  obtain ⟨a, ha, rfl⟩ := Option.map_eq_some_iff.mp hb
  exact hf a (h a ha)

theorem onOk_map {ε α β : Type} {P : α → Prop} {Q : β → Prop} {o : Except ε α} {f : α → β} (h : OnOk P o)
    (hf : ∀ a, P a → Q (f a)) : OnOk Q (o.map f) := by
  cases o with
  | error e => exact onOk_error
  | ok a => exact onOk_ok (hf a (h a rfl))

theorem onOk_elim {ε α : Type} {P : α → Prop} {o : Option α} {e : ε} (h : OnSome P o) :
    OnOk P (o.elim (.error e) .ok) := by
  cases o with
  | none => exact onOk_error
  | some a => exact onOk_ok (h a rfl)

theorem onSome_findSome {α β : Type} {P : β → Prop} {f : α → Option β} {l : List α} (h : ∀ a, OnSome P (f a)) :
    OnSome P (l.findSome? f) := by
  intro b hb
  obtain ⟨a, -, ha⟩ := List.exists_of_findSome?_eq_some hb
  exact h a b ha

theorem foldl_put_wf (g : Nat → Nat) (v : Bool) (l : List Nat) {m : SMap Bool} (h : SMap.wf false m = true) :
    SMap.wf false (l.foldl (fun q j => SMap.put false q (g j) v) m) = true := by
  induction l generalizing m with
  | nil => exact h
  | cons j l ih => exact ih (SMap.wf_put false m (g j) v h)

theorem fst_canonical {β : Type} {p : State × β} {u : State} {b : β} (he : p = (u, b))
    (h : MemoryCanonical p.1) : MemoryCanonical u := by
  rw [he] at h
  exact h

theorem snd_canonical {β : Type} {p : β × State} {u : State} {b : β} (he : p = (b, u))
    (h : MemoryCanonical p.2) : MemoryCanonical u := by
  rw [he] at h
  exact h

theorem getD_canonical {o : Option State} {d : State}
    (h : OnSome MemoryCanonical o) (hd : MemoryCanonical d) : MemoryCanonical (o.getD d) := by
  cases o with
  | none => exact hd
  | some u => exact h u rfl

theorem foldl_keeps {α : Type} {f : State → α → State} {l : List α} {s : State} (h : MemoryCanonical s)
    (hf : ∀ t a, MemoryCanonical t → MemoryCanonical (f t a)) : MemoryCanonical (l.foldl f s) :=
  foldl_canonical f hf l s h

theorem setSlot_canonical {s : State} {k : Nat} {sl : Slot}
    (h : MemoryCanonical s) : MemoryCanonical (s.setSlot k sl) := h

theorem updSl_canonical {s : State} {f : Slot → Slot} (h : MemoryCanonical s) : MemoryCanonical (s.updSl f) :=
  h

theorem updMyCore_canonical {s : State} {f : Core → Core} (h : MemoryCanonical s) : MemoryCanonical (s.updMyCore f) :=
  h

theorem updWorld_canonical {s : State} {k : Nat} {f : World → World}
    (h : MemoryCanonical s) : MemoryCanonical (s.updWorld k f) := h

theorem updPart_canonical {s : State} {k : Nat} {f : Part → Part}
    (h : MemoryCanonical s) : MemoryCanonical (s.updPart k f) := h

theorem updGrid_canonical {s : State} {k : Nat} {f : Grid → Grid}
    (h : MemoryCanonical s) : MemoryCanonical (s.updGrid k f) := h

theorem updTeam_canonical {s : State} {k : Nat} {f : Team → Team}
    (h : MemoryCanonical s) : MemoryCanonical (s.updTeam k f) := h

theorem updRev_canonical {s : State} {k : Nat} {f : Revision → Revision}
    (h : MemoryCanonical s) : MemoryCanonical (s.updRev k f) := h

theorem updSlice_canonical {s : State} {k : Nat} {f : Slice → Slice}
    (h : MemoryCanonical s) : MemoryCanonical (s.updSlice k f) := h

theorem updTC_canonical {s : State} {t c : Nat} {f : TCore → TCore}
    (h : MemoryCanonical s) : MemoryCanonical (s.updTC t c f) := h

theorem count_canonical {s : State} {k u n a : Nat} (h : MemoryCanonical s) : MemoryCanonical (s.count k u n a) :=
  h

theorem updLine_canonical {s : State} {p : Place} {f : LineCoh → LineCoh}
    (h : MemoryCanonical s) : MemoryCanonical (s.updLine p f) := h

theorem onApplied_of_eq {a : Applied} {b : Applied} (he : a = b) (h : OnApplied a) : OnApplied b := he ▸ h

end Sys2Proof.Machine
end

section
/-!
Lines, their copies and the caches (R285 … R323), the tables' accessed bits (R332) and the pools of the scheduler
(R253 … R260) keep memory in canonical form.
-/

namespace Sys2Proof.Machine
open Sys2Proof.Safety

theorem draw_canonical {s : State} (h : MemoryCanonical s) :
    MemoryCanonical (s.draw).2 := h

theorem ringPush_canonical {s : State} {t c slot : Nat} (h : MemoryCanonical s) :
    MemoryCanonical (s.ringPush t c slot) := h

theorem placeReady_canonical {s : State} {t c : Nat} {e : PoolEntry} (h : MemoryCanonical s) :
    OnSome MemoryCanonical (s.placeReady t c e) := by
  unfold State.placeReady
  extract_lets tm q
  split
  · extract_lets tc
    split
    · split
      · exact onSome_some (ringPush_canonical h)
      · exact onSome_none
    · exact onSome_none
  · split
    · exact onSome_some h
    · exact onSome_none

theorem wake_canonical {s : State} {t c n : Nat} (h : MemoryCanonical s) :
    MemoryCanonical (s.wake t c n) := by
  unfold State.wake
  extract_lets tc k s1
  have hs1 : MemoryCanonical s1 := h
  split
  · exact h
  · split
    · exact h
    · split
      · exact getD_canonical (placeReady_canonical hs1) h
      · split
        · exact ringPush_canonical h
        · exact h

theorem decCounter_canonical {s : State} {t c n amount part : Nat} (h : MemoryCanonical s) :
    MemoryCanonical (s.decCounter t c n amount part) := by
  unfold State.decCounter
  extract_lets old s1
  have hs1 : MemoryCanonical s1 := h
  split
  · exact h
  · split
    · exact wake_canonical hs1
    · exact hs1

theorem incCounter_canonical {s : State} {t c n amount : Nat} (h : MemoryCanonical s) :
    MemoryCanonical (s.incCounter t c n amount) := h

theorem placeNew_canonical {s : State} {t c : Nat} {e : PoolEntry} (h : MemoryCanonical s) :
    OnSome MemoryCanonical (s.placeNew t c e) := by
  unfold State.placeNew
  extract_lets tm n
  split
  · exact placeReady_canonical h
  · split
    · extract_lets tc
      split
      · split
        · exact onSome_none
        · exact onSome_some h
      · exact onSome_none
    · exact placeReady_canonical h

theorem markAccessed_canonical {s : State} {addr : Nat} (h : MemoryCanonical s) :
    MemoryCanonical (s.markAccessed addr) := by
  unfold State.markAccessed
  extract_lets e k l l' c home proxied
  have hhome : MemoryCanonical home := moveLine_canonical _ _ _ h
  have hproxied : ∀ t, MemoryCanonical t → MemoryCanonical (proxied t) := fun _ ht => ht
  split
  · exact h
  · split
    · exact h
    · split
      · exact hproxied _ h
      · exact hproxied _ hhome
      · exact hproxied _ hhome
      · exact hproxied _ hhome
      · exact hhome

theorem noteTouch_canonical {s : State} {world cluster va leaf : Nat} (h : MemoryCanonical s) :
    MemoryCanonical (s.noteTouch world cluster va leaf) := by
  unfold State.noteTouch
  split <;> exact h

theorem touchPage_canonical {s : State} {w : Who} {va : Nat} (h : MemoryCanonical s) :
    MemoryCanonical (s.touchPage w va) := by
  unfold State.touchPage
  split
  · exact noteTouch_canonical h
  · exact h

theorem dropStash_canonical {s : State} {core : Nat} {sel : StashLine → Bool} (h : MemoryCanonical s) :
    MemoryCanonical (s.dropStash core sel) := foldl_keeps h (fun _ _ ht => ht)

theorem flushRegion_canonical {s : State} {slice : Nat} {r : Region} (h : MemoryCanonical s) :
    MemoryCanonical (s.flushRegion slice r) := by
  unfold State.flushRegion
  extract_lets mask mine s1
  have hs1 : MemoryCanonical s1 := foldl_keeps h (fun _ _ ht1 => ht1)
  exact foldl_keeps hs1 (fun _ _ ht => ht)

theorem freeRegion_canonical {s : State} {slice : Nat} {keep : Option Region} (h : MemoryCanonical s) :
    MemoryCanonical (s.freeRegion slice keep) := by
  unfold State.freeRegion
  split
  · exact h
  · extract_lets s1
    have hs1 : MemoryCanonical s1 := foldl_keeps (flushRegion_canonical h) (fun _ _ ht => dropStash_canonical ht)
    exact hs1

theorem noteFill_canonical {s : State} {slice lk : Nat} (h : MemoryCanonical s) :
    MemoryCanonical (s.noteFill slice lk) := by
  unfold State.noteFill
  split
  · exact h
  · extract_lets s1
    have hs1 : MemoryCanonical s1 := by
      unfold s1
      split
      · exact freeRegion_canonical h
      · exact h
    exact hs1

theorem splitRegion_canonical {s : State} {slice lk : Nat} (h : MemoryCanonical s) :
    MemoryCanonical (s.splitRegion slice lk) := by
  unfold State.splitRegion
  split
  · exact h
  · split
    · exact h
    · extract_lets a b s1
      have hs1 : MemoryCanonical s1 := by
        unfold s1
        split
        · exact freeRegion_canonical h
        · exact h
      exact hs1

theorem takeReply_canonical {s : State} {slice lk : Nat} {r : Reply} (h : MemoryCanonical s) :
    MemoryCanonical (s.takeReply slice lk r) := by
  unfold State.takeReply
  split
  · exact splitRegion_canonical h
  · exact h
  · exact h

theorem drainChannel_canonical {s : State} {slice lk core : Nat} (h : MemoryCanonical s) :
    MemoryCanonical (s.drainChannel slice lk core) := by
  unfold State.drainChannel
  extract_lets s1
  have hs1 : MemoryCanonical s1 := by
    unfold s1
    split
    · exact foldl_keeps h (fun _ _ ht => takeReply_canonical ht)
    · exact h
  exact hs1

theorem updateRound_canonical {s : State} {slice lk : Nat} (h : MemoryCanonical s) :
    MemoryCanonical (s.updateRound slice lk) := by
  unfold State.updateRound
  refine foldl_keeps h (fun _ _ ht => ?_)
  extract_lets u
  have hu : MemoryCanonical u := ht
  exact takeReply_canonical (drainChannel_canonical hu)

theorem tellProxy_canonical {s : State} {lk core slot seq : Nat} (h : MemoryCanonical s) :
    MemoryCanonical (s.tellProxy lk core slot seq).1 := by
  unfold State.tellProxy
  extract_lets c
  split <;> exact h

theorem doReadShared_canonical {s : State} {lk : Nat} (h : MemoryCanonical s) :
    MemoryCanonical (s.doReadShared lk) := by
  unfold State.doReadShared
  extract_lets c s1 sole st
  have hs1 : MemoryCanonical s1 := recallHost_canonical _ _ _ h
  split
  · exact hs1
  · exact h

theorem doOwn_canonical {s : State} {lk : Nat} (h : MemoryCanonical s) :
    MemoryCanonical (s.doOwn lk) := by
  unfold State.doOwn
  extract_lets s0 c
  have hs0 : MemoryCanonical s0 := by
    unfold s0
    split
    · exact doInvalidate_canonical _ _ h
    · exact h
  split
  · exact hs0
  · exact hs0
  all_goals exact updCoh_canonical _ _ _ (dropDie_canonical _ _ _ hs0)

theorem evictProxy_canonical {s : State} {lk : Nat} (h : MemoryCanonical s) :
    MemoryCanonical (s.evictProxy lk) := by
  unfold State.evictProxy
  extract_lets c back
  have hback : MemoryCanonical back := updCoh_canonical _ _ _ (leaveSlice_canonical _ _ _ (dropDie_canonical _ _ _ h))
  split
  · exact h
  · exact hback
  · exact hback
  · exact doInvalidate_canonical _ _ h
  · exact doInvalidate_canonical _ _ h

theorem evictLine_canonical {s : State} {slice lk : Nat} (h : MemoryCanonical s) :
    MemoryCanonical (s.evictLine slice lk) := by
  unfold State.evictLine
  refine leaveSlice_canonical _ _ _ ?_
  split
  · exact h
  · split
    · exact h
    · exact evictProxy_canonical h

theorem enterSlice_canonical {s : State} {slice lk : Nat} (h : MemoryCanonical s) :
    MemoryCanonical (s.enterSlice slice lk) := by
  unfold State.enterSlice
  extract_lets d set_ at_ put v s1
  have hput : ∀ t a, MemoryCanonical t → MemoryCanonical (put t a) := fun _ _ ht => ht
  have hs1 : MemoryCanonical s1 := h
  split
  · exact hput _ _ h
  · split
    · exact hput _ _ (evictLine_canonical hs1)
    · exact hs1

theorem sliceAccess_canonical {s : State} {slice lk : Nat} (h : MemoryCanonical s) :
    MemoryCanonical (s.sliceAccess slice lk) := by
  unfold State.sliceAccess
  split
  · exact h
  · exact enterSlice_canonical h

theorem fillStash_canonical {s : State} {core : Nat} {p : Place} (h : MemoryCanonical s) :
    MemoryCanonical (s.fillStash core p) := by
  unfold State.fillStash
  extract_lets lk banks near s0 s1 s2 l line s3
  have hs0 : MemoryCanonical s0 := sliceAccess_canonical (drainChannel_canonical h)
  have hs1 : MemoryCanonical s1 := dropDie_canonical _ _ _ (dropDie_canonical _ _ _ (doInvalidate_canonical _ _ hs0))
  have hs2 : MemoryCanonical s2 := updCoh_canonical _ _ _ hs1
  have hs3 : MemoryCanonical s3 := by
    unfold s3
    split
    · exact updCore_canonical _ _ _ hs2
    · split
      · exact updCore_canonical _ _ _ (dropStash_canonical hs2)
      · exact hs2
  exact noteFill_canonical hs3

theorem enterStash_canonical {s : State} {core : Nat} {p : Place} (h : MemoryCanonical s) :
    MemoryCanonical (s.enterStash core p) := by
  unfold State.enterStash
  split
  · exact fillStash_canonical h
  · exact h

theorem hostLine_canonical {s : State} {p : Place} {wr : Bool} (h : MemoryCanonical s) :
    MemoryCanonical (s.hostLine p wr) := by
  unfold State.hostLine
  extract_lets c st
  exact sliceAccess_canonical h

theorem makeReadable_canonical {s : State} {core : Nat} {p : Place} (h : MemoryCanonical s) :
    MemoryCanonical (s.makeReadable core p) := by
  unfold State.makeReadable
  split
  · exact hostLine_canonical h
  · split
    · exact sliceAccess_canonical h
    · split
      · exact h
      · extract_lets lk s1 near sl s2 s3
        have hs1 : MemoryCanonical s1 := enterStash_canonical (settle_canonical _ _ h)
        have hs2 : MemoryCanonical s2 := by
          unfold s2
          split
          · exact recallHost_canonical _ _ _ (doSnoopRead_canonical _ _ hs1)
          · split
            · exact doReadShared_canonical (sliceAccess_canonical hs1)
            · exact hs1
        have hs3 : MemoryCanonical s3 := by
          unfold s3
          split
          · exact hs2
          · exact drainChannel_canonical (sliceAccess_canonical hs2)
        split
        · refine updCore_canonical _ _ _ ?_
          split
          · exact hs1
          · exact sliceAccess_canonical hs1
        · exact noteFill_canonical hs3

theorem makeWritable_canonical {s : State} {core : Nat} {p : Place} {whole : Bool} (h : MemoryCanonical s) :
    MemoryCanonical (s.makeWritable core p whole) := by
  unfold State.makeWritable
  split
  · exact hostLine_canonical h
  · split
    · exact sliceAccess_canonical h
    · split
      · exact h
      · extract_lets lk s1 s2
        have hs1 : MemoryCanonical s1 := enterStash_canonical (settle_canonical _ _ h)
        have hs2 : MemoryCanonical s2 := sliceAccess_canonical hs1
        split
        · refine updCore_canonical _ _ _ ?_
          split
          · exact hs1
          · exact sliceAccess_canonical hs1
        · split
          · split
            · exact hs2
            · split
              · exact doInvalidate_canonical _ _ hs2
              · exact hs2
            all_goals exact doSnoopInval_canonical _ _ hs2
          · exact doOwn_canonical hs2

theorem roundOf_canonical {s : State} {core : Nat} {p : Place} (h : MemoryCanonical s) :
    MemoryCanonical (s.roundOf core p) := by
  unfold State.roundOf
  split
  · exact updateRound_canonical h
  · exact h

theorem homeRound_canonical {s : State} {lk : Nat} (h : MemoryCanonical s) :
    MemoryCanonical (s.homeRound lk) := by
  unfold State.homeRound
  split
  · exact updateRound_canonical h
  · exact h

theorem rootWrite_canonical {s : State} {core : Nat} {p : Place} {w : WOp} (h : MemoryCanonical s) :
    MemoryCanonical (s.rootWrite core p w) := by
  unfold State.rootWrite
  split
  · extract_lets s1
    have hs1 : MemoryCanonical s1 := by
      unfold s1
      split <;> exact ⟨h.1, h.2.1, clearPoison_wf s.poison _ _ h.2.2⟩
    exact hs1
  · exact memWrite_canonical _ _ _ h

end Sys2Proof.Machine
end

section
/-!
Revisions as views (R267 … R271), the bookkeeping of an issue, faults and control transfers keep memory in canonical form.
-/

namespace Sys2Proof.Machine
open Sys2Proof.Safety

theorem junctionPut_canonical {s : State} {y : Revision} {va : Nat} {v : CapReg} (h : MemoryCanonical s) :
    MemoryCanonical (s.junctionPut y va v) := by
  unfold State.junctionPut
  extract_lets w t
  have ht : MemoryCanonical t := touchPage_canonical h
  split
  · split
    · split
      · exact h
      · split
        · exact putLine_canonical _ _ _ (updateRound_canonical (outsideReady_canonical _ _ _ ht))
        · exact putLine_canonical _ _ _ ht
        · split
          · exact putLine_canonical _ _ _ ht
          · exact ht
        all_goals exact ht
    · exact h
  · exact h

theorem syncHeader_canonical {s : State} {r : Nat} (h : MemoryCanonical s) :
    MemoryCanonical (s.syncHeader r) := by
  unfold State.syncHeader
  extract_lets v
  exact junctionPut_canonical h

theorem syncEntry_canonical {s : State} {r i : Nat} (h : MemoryCanonical s) :
    MemoryCanonical (s.syncEntry r i) := by
  unfold State.syncEntry
  extract_lets v a
  split
  · exact h
  · extract_lets hdr
    exact junctionPut_canonical (junctionPut_canonical (junctionPut_canonical h))

theorem addEntry_canonical {s : State} {r la : Nat} {v0 : CapReg} {err : List Nat} (h : MemoryCanonical s) :
    MemoryCanonical (s.addEntry r la v0 err) := by
  unfold State.addEntry
  extract_lets y v s1
  have hs1 : MemoryCanonical s1 := h
  exact syncHeader_canonical (syncEntry_canonical hs1)

theorem breakRev_canonical {s : State} {r la : Nat} (h : MemoryCanonical s) :
    MemoryCanonical (s.breakRev r la) := syncHeader_canonical h

theorem shareEntries_canonical {s : State} {world : Nat} {target : Option Nat} {la : Nat} {cur : CapReg}
    {err : List Nat} (h : MemoryCanonical s) :
    MemoryCanonical (s.shareEntries world target la cur err) := by
  unfold State.shareEntries
  refine foldl_keeps h (fun _ _ ht => ?_)
  extract_lets y
  split
  · split
    · exact addEntry_canonical ht
    · exact breakRev_canonical ht
  · exact ht

theorem markHost_canonical {s : State} {w : Who} (h : MemoryCanonical s) :
    MemoryCanonical (s.markHost w) := by
  unfold State.markHost
  extract_lets l
  exact h

theorem placeWrite_canonical {s : State} {w : Who} {p : Place} {op : WOp} (h : MemoryCanonical s) :
    MemoryCanonical (s.placeWrite w p op) := by
  unfold State.placeWrite
  split
  · exact rootWrite_canonical h
  · exact h
  · exact memWrite_canonical _ _ _ (markHost_canonical h)
  · split
    · exact memWrite_canonical _ _ _ h
    · exact h
  · exact memWrite_canonical _ _ _ h
  · exact memWrite_canonical _ _ _ h

theorem writeChild_canonical {s : State} {r la : Nat} {op : WOp} (h : MemoryCanonical s) :
    MemoryCanonical (s.writeChild r la op) := by
  unfold State.writeChild
  extract_lets s1
  have hs1 : MemoryCanonical s1 := h
  exact syncEntry_canonical hs1

theorem readyRead_canonical {s : State} {w : Who} {p : Place} (h : MemoryCanonical s) :
    MemoryCanonical (s.readyRead w p) := by
  unfold State.readyRead
  split
  · exact h
  · exact makeReadable_canonical h

theorem readyWrite_canonical {s : State} {w : Who} {p : Place} {whole : Bool} (h : MemoryCanonical s) :
    MemoryCanonical (s.readyWrite w p whole) := by
  unfold State.readyWrite
  split
  · exact readyRead_canonical h
  · exact makeWritable_canonical h

theorem writeNow_canonical {s : State} {w : Who} {p : Place} {op : WOp} (h : MemoryCanonical s) :
    OnSome MemoryCanonical (s.writeNow w p op) := by
  unfold State.writeNow
  split
  · exact onSome_some (placeWrite_canonical h)
  · split
    · exact onSome_some (placeWrite_canonical (roundOf_canonical (shareEntries_canonical h)))
    · extract_lets wt cur err own
      have hown : OnSome MemoryCanonical own := by
        unfold own
        split
        · exact onSome_some h
        · split
          · exact onSome_some (addEntry_canonical h)
          · exact onSome_none
      exact onSome_map hown fun _ ht => writeChild_canonical (shareEntries_canonical ht)

theorem writeView_canonical {s : State} {w : Who} {p : Place} {op : WOp} {whole : Bool} (h : MemoryCanonical s) :
    OnSome MemoryCanonical (s.writeView w p op whole) := writeNow_canonical (readyWrite_canonical h)

theorem reserve_canonical {s : State} {w : Who} {seq : Nat} {p : Place} (h : MemoryCanonical s) :
    OnSome MemoryCanonical (s.reserve w seq p) := by
  unfold State.reserve
  split
  · exact onSome_some h
  · split
    · exact onSome_some h
    · extract_lets r
      split
      · exact onSome_some h
      · split
        · exact onSome_some h
        · exact onSome_none

theorem unreserve_canonical {s : State} {w : Who} {seq la : Nat} (h : MemoryCanonical s) :
    MemoryCanonical (s.unreserve w seq la) := by
  unfold State.unreserve
  extract_lets mine
  refine foldl_keeps h (fun _ _ ht => ?_)
  split <;> exact ht

theorem parkIfOwing_canonical {s : State} (h : MemoryCanonical s) :
    MemoryCanonical s.parkIfOwing := by
  unfold State.parkIfOwing
  split <;> exact h

theorem issued_canonical {s : State} {g : Ctl} {stall : Nat} (h : MemoryCanonical s) :
    MemoryCanonical (s.issued g stall) := by
  unfold State.issued
  extract_lets core s1 s2 s3
  have hs1 : MemoryCanonical s1 := h
  have hs2 : MemoryCanonical s2 := hs1
  have hs3 : MemoryCanonical s3 := hs2
  split
  · exact parkIfOwing_canonical hs3
  · exact hs3

theorem done_canonical {s : State} {g : Ctl} (h : MemoryCanonical s) :
    MemoryCanonical (s.done g) := issued_canonical h

theorem doneStall_canonical {s : State} {g : Ctl} {n : Nat} (h : MemoryCanonical s) :
    MemoryCanonical (s.doneStall g n) := issued_canonical h

theorem jump_canonical {s : State} {g : Ctl} {obj : Nat} {pc : Int} (h : MemoryCanonical s) :
    MemoryCanonical (s.jump g obj pc) := issued_canonical h

theorem hold_canonical {s : State} {h : Hold} (hm : MemoryCanonical s) :
    MemoryCanonical (s.hold h) := hm

theorem parkFirst_canonical {s : State} (h : MemoryCanonical s) :
    MemoryCanonical s.parkFirst := parkIfOwing_canonical h

theorem takeTrap_canonical {s : State} {key : Nat} {f : FaultInfo} {redo : Option Owed} (h : MemoryCanonical s) :
    MemoryCanonical (s.takeTrap key f redo) := by
  unfold State.takeTrap
  extract_lets f'
  exact updSlot_canonical _ _ _ (writeFrame_canonical _ _ _ h)

theorem deliver_canonical {s : State} {key : Nat} {f : FaultInfo} {redo : Option Owed} (h : MemoryCanonical s) :
    MemoryCanonical (s.deliver key f redo) := by
  unfold State.deliver
  split
  · exact h
  · exact takeTrap_canonical h

theorem raise_canonical {s : State} {f1 : FaultInfo} (h : MemoryCanonical s) :
    MemoryCanonical (s.raise f1) := by
  unfold State.raise
  extract_lets s1
  have hs1 : MemoryCanonical s1 := h
  split
  · exact hs1
  · exact deliver_canonical hs1

theorem faultNow_canonical {s : State} {f : FaultInfo} (h : MemoryCanonical s) :
    MemoryCanonical (s.faultNow f) := raise_canonical h

theorem orFault_canonical {s : State} {α : Type} {r : Except FaultInfo α} {f : α → State}
    (h : MemoryCanonical s) (hf : ∀ a, MemoryCanonical (f a)) :
    MemoryCanonical (s.orFault r f) := by
  unfold State.orFault
  split
  · exact hf _
  · exact faultNow_canonical h

theorem endPark_canonical {s : State} {key : Nat} (h : MemoryCanonical s) :
    MemoryCanonical (s.endPark key) := by
  unfold State.endPark
  extract_lets sl base s1
  have hs1 : MemoryCanonical s1 := h
  split
  · exact deliver_canonical hs1
  · exact hs1

theorem leaveRev_canonical {s : State} {r : Nat} (h : MemoryCanonical s) :
    MemoryCanonical (s.leaveRev r) := syncHeader_canonical h

theorem note_canonical {s : State} {world cls : Nat} (h : MemoryCanonical s) :
    MemoryCanonical (s.note world cls) := by
  unfold State.note
  split
  · split <;> exact h
  · exact h

theorem joinDone_canonical {s : State} {team part : Nat} {e : PoolEntry} (h : MemoryCanonical s) :
    MemoryCanonical (s.joinDone team part e) := by
  unfold State.joinDone
  extract_lets r
  split
  · split
    · exact h
    · exact decCounter_canonical h
  · exact h

theorem leaveDirty_canonical {s : State} {sl : Slot} (h : MemoryCanonical s) :
    MemoryCanonical (s.leaveDirty sl) := by
  unfold State.leaveDirty
  split <;> exact h

theorem endActivation_canonical {s : State} {key : Nat} (h : MemoryCanonical s) :
    MemoryCanonical (s.endActivation key) := by
  unfold State.endActivation
  extract_lets sl s1 s2 base s3 s4
  have hs1 : MemoryCanonical s1 := h
  have hs2 : MemoryCanonical s2 := by
    unfold s2
    split <;> exact hs1
  have hs3 : MemoryCanonical s3 := joinDone_canonical (leaveDirty_canonical hs2)
  have hs4 : MemoryCanonical s4 := by
    unfold s4
    split
    · exact leaveRev_canonical hs3
    · exact hs3
  exact hs4

theorem endTerminal_canonical {s : State} {key : Nat} {f : FaultInfo} (h : MemoryCanonical s) :
    MemoryCanonical (s.endTerminal key f) := by
  unfold State.endTerminal
  extract_lets w
  exact endActivation_canonical (report_canonical _ _ _ h)

theorem goTo_canonical {s : State} {g : Ctl} {t : Word} (h : MemoryCanonical s) :
    MemoryCanonical (s.goTo g t) := jump_canonical h

theorem indirect_canonical {g : Ctl} {handle anyObj : Bool} {d : Option XReg} {a : XReg} {s : State}
    (h : MemoryCanonical s) :
    OnNext (indirect g handle anyObj d a s) := by
  unfold indirect
  split
  · extract_lets t s1
    have hs1 : MemoryCanonical s1 := by
      unfold s1
      split <;> exact h
    split
    · exact onNext_next (faultNow_canonical h)
    · exact onNext_next (goTo_canonical hs1)
  · exact onNext_next (done_canonical h)

theorem execBr_canonical {g : Ctl} {off : Imm} {s : State} (h : MemoryCanonical s) :
    OnNext (execBr g off s) := by
  unfold execBr
  split
  · exact onNext_next (jump_canonical h)
  · exact onNext_next (done_canonical h)

theorem execBrOnRegister_canonical {g : Ctl} {onZero : Bool} {a : XReg} {off : Imm} {s : State}
    (h : MemoryCanonical s) :
    OnNext (execBrOnRegister g onZero a off s) := by
  unfold execBrOnRegister
  split
  · exact onNext_next (jump_canonical h)
  · exact onNext_next (done_canonical h)

theorem execBx_canonical {g : Ctl} {a : XReg} {s : State} (h : MemoryCanonical s) :
    OnNext (execBx g a s) := indirect_canonical h

theorem execCall_canonical {g : Ctl} {d : XReg} {off : Imm} {s : State} (h : MemoryCanonical s) :
    OnNext (execCall g d off s) := by
  unfold execCall
  split
  · exact onNext_next (jump_canonical h)
  · exact onNext_next (done_canonical h)

theorem execCallIndirect_canonical {g : Ctl} {d a : XReg} {s : State} (h : MemoryCanonical s) :
    OnNext (execCallIndirect g d a s) := indirect_canonical h

theorem execCallh_canonical {g : Ctl} {d a : XReg} {s : State} (h : MemoryCanonical s) :
    OnNext (execCallh g d a s) := indirect_canonical h

theorem execRet_canonical {g : Ctl} {a : XReg} {s : State} (h : MemoryCanonical s) :
    OnNext (execRet g a s) := indirect_canonical h

theorem loopWith_canonical {g : Ctl} {d : Nat} {n : Word} {s : State} (h : MemoryCanonical s) :
    OnNext (loopWith g d n s) := by
  unfold loopWith
  extract_lets s1
  have hs1 : MemoryCanonical s1 := h
  split
  · exact onNext_next (jump_canonical hs1)
  · exact onNext_next (done_canonical hs1)

end Sys2Proof.Machine
end

section
/-!
Elements read, written and acted on (R138 … R149), and loads, stores and atomics at issue, keep memory in canonical form.
-/

namespace Sys2Proof.Machine
open Sys2Proof.Safety

theorem readyElem_canonical {s : State} {w : Who} {seq : Nat} {e : Elem} {p : Place} (h : MemoryCanonical s) :
    MemoryCanonical (s.readyElem w seq e p) := by
  unfold State.readyElem
  split
  · exact h
  · exact readyRead_canonical (touchPage_canonical h)

theorem readElem_canonical {s : State} {w : Who} {k : AKind} {seq : Nat} {e : Elem} (h : MemoryCanonical s) :
    OnOk (fun x => MemoryCanonical x.1) (s.readElem w k seq e) := by
  unfold State.readElem
  split
  · exact onOk_error
  · extract_lets s1
    have hs1 : MemoryCanonical s1 := readyElem_canonical h
    split
    · exact onOk_error
    · exact onOk_ok hs1

theorem readCap_canonical {s : State} {w : Who} {k : AKind} {seq : Nat} {e : Elem} (h : MemoryCanonical s) :
    OnOk (fun x => MemoryCanonical x.1) (s.readCap w k seq e) := by
  unfold State.readCap
  split
  · exact onOk_error
  · next he =>
      extract_lets c
      split
      · exact onOk_error
      · exact onOk_ok (readElem_canonical h _ he)

theorem atomicElem_canonical {s : State} {w : Who} {e : Elem} {f : Nat → Option Nat} (h : MemoryCanonical s) :
    OnOk (fun x => MemoryCanonical x.1) (s.atomicElem w e f) := by
  unfold State.atomicElem
  split
  · exact onOk_error
  · extract_lets s1 old
    have hs1 : MemoryCanonical s1 := readyWrite_canonical (touchPage_canonical h)
    split
    · exact onOk_error
    · split
      · exact onOk_ok hs1
      · split
        · next he =>
            exact onOk_ok (writeNow_canonical hs1 _ he)
        · exact onOk_error

theorem atomicLine_canonical {s : State} {w : Who} {k : AKind} {e : Elem} {f : Line → Option Line}
    (h : MemoryCanonical s) :
    OnOk (fun x => MemoryCanonical x.1) (s.atomicLine w k e f) := by
  unfold State.atomicLine
  split
  · exact onOk_error
  · extract_lets s1 le old
    have hs1 : MemoryCanonical s1 := readyWrite_canonical (touchPage_canonical h)
    split
    · exact onOk_error
    · split
      · exact onOk_ok hs1
      · split
        · next he =>
            exact onOk_ok (writeNow_canonical hs1 _ he)
        · exact onOk_error

theorem atomicCap_canonical {s : State} {w : Who} {expect new : CapReg} {e : Elem} {again : Bool}
    (h : MemoryCanonical s) :
    OnOk (fun x => MemoryCanonical x.1) (s.atomicCap w expect new e again) := by
  unfold State.atomicCap
  split
  · exact onOk_error
  · split
    · exact onOk_error
    · extract_lets s1 old
      have hs1 : MemoryCanonical s1 := readyWrite_canonical (touchPage_canonical h)
      split
      · exact onOk_error
      · split
        · split
          · next he =>
              exact onOk_ok (writeNow_canonical hs1 _ he)
          · exact onOk_error
        · exact onOk_ok hs1

theorem applySluice_canonical {s : State} {w : Who} {o : SluiceOp} {e : Elem} (h : MemoryCanonical s) :
    OnOk MemoryCanonical (s.applySluice w o e) := by
  unfold State.applySluice
  exact onOk_map (atomicLine_canonical h) fun _ ht => ht

theorem pinLine_canonical {s : State} {w : Who} {e : Elem} (h : MemoryCanonical s) :
    OnOk (fun x => MemoryCanonical x.1) (s.pinLine w e) := by
  unfold State.pinLine
  split
  · exact onOk_ok h
  · split
    · exact onOk_error
    · extract_lets lk set_ ways s1
      have hs1 : MemoryCanonical s1 := makeReadable_canonical (touchPage_canonical h)
      split
      · exact onOk_ok h
      · split
        · exact onOk_ok h
        · split
          · exact onOk_ok h
          · split
            · exact onOk_ok h
            · exact onOk_ok hs1

theorem unpinLine_canonical {s : State} {w : Who} {lk va : Nat} (h : MemoryCanonical s) :
    MemoryCanonical (s.unpinLine w lk va) := by
  unfold State.unpinLine
  extract_lets set_ l
  split <;> exact h

theorem vloadStep_canonical {s : State} {w : Who} {seq wd : Nat} {all es : List (Nat × Elem)}
    {got : List (Nat × Nat)} {bad : Option FaultInfo} {again : Bool} (h : MemoryCanonical s) :
    OnOk (fun x => MemoryCanonical x.1) (s.vloadStep w seq wd all es got bad again) := by
  unfold State.vloadStep
  split
  · exact onOk_error
  · split
    · next he =>
        extract_lets j
        split
        · exact onOk_ok (snd_canonical he (draw_canonical h))
        · split
          · exact onOk_ok (snd_canonical he (draw_canonical h))
          · next he1 =>
              exact onOk_ok (readElem_canonical (snd_canonical he (draw_canonical h)) _ he1)

theorem performMem_canonical {s : State} {w : Who} {seq : Nat} {f : Flight} (h : MemoryCanonical s) :
    OnOk (fun x => MemoryCanonical x.1) (s.performMem w seq f) := by
  unfold State.performMem
  split
  · exact onOk_map (readElem_canonical h) fun _ ht => ht
  · exact onOk_ok h
  · exact readCap_canonical h
  · exact onOk_map (atomicElem_canonical h) fun _ ht => ht
  · exact onOk_map (atomicElem_canonical h) fun _ ht => ht
  · exact atomicCap_canonical h
  · exact onOk_map (pinLine_canonical h) fun _ ht => ht
  · exact onOk_map (readElem_canonical h) fun _ ht => ht
  all_goals exact onOk_ok h

theorem derive_canonical {g : Ctl} {d : CReg} {s : State} {f : Slot → Except Nat CapReg} (h : MemoryCanonical s) :
    OnNext (derive g d s f) := by
  unfold derive
  split
  · split
    · exact onNext_next (done_canonical h)
    · exact onNext_next (faultNow_canonical h)
  · exact onNext_next (done_canonical h)

theorem execCsliceRegister_canonical {g : Ctl} {d a : CReg} {b : XQuad} {s : State} (h : MemoryCanonical s) :
    OnNext (execCsliceRegister g d a b s) := derive_canonical h

theorem execCsliceImmediate_canonical {g : Ctl} {d a : CReg} {b : XReg} {n : Imm} {s : State}
    (h : MemoryCanonical s) :
    OnNext (execCsliceImmediate g d a b n s) := derive_canonical h

theorem execCstepRegister_canonical {g : Ctl} {d a : CReg} {b : XReg} {k : Fin 4} {s : State}
    (h : MemoryCanonical s) :
    OnNext (execCstepRegister g d a b k s) := derive_canonical h

theorem execCstepImmediate_canonical {g : Ctl} {d a : CReg} {k : Fin 4} {f : BitVec 30} {s : State}
    (h : MemoryCanonical s) :
    OnNext (execCstepImmediate g d a k f s) := derive_canonical h

theorem execCtrans_canonical {g : Ctl} {d a : CReg} {pi : BitVec 8} {s : State} (h : MemoryCanonical s) :
    OnNext (execCtrans g d a pi s) := derive_canonical h

theorem execCfixRegister_canonical {g : Ctl} {d a : CReg} {b : XReg} {k : Fin 4} {s : State} (h : MemoryCanonical s) :
    OnNext (execCfixRegister g d a b k s) := derive_canonical h

theorem execCfixImmediate_canonical {g : Ctl} {d a : CReg} {k : Fin 4} {o : BitVec 30} {s : State}
    (h : MemoryCanonical s) :
    OnNext (execCfixImmediate g d a k o s) := derive_canonical h

theorem execCperm_canonical {g : Ctl} {d a : CReg} {i : Imm} {s : State} (h : MemoryCanonical s) :
    OnNext (execCperm g d a i s) := derive_canonical h

theorem sealWith_canonical {g : Ctl} {d a b : CReg} {t perm need new : Nat} {s : State} (h : MemoryCanonical s) :
    OnNext (sealWith g d a b t perm need new s) := by
  unfold sealWith
  split
  · split
    · exact onNext_next (faultNow_canonical h)
    · split
      · exact onNext_next (faultNow_canonical h)
      · exact onNext_next (done_canonical h)
  · exact onNext_next (done_canonical h)

theorem execCgetX_canonical {g : Ctl} {d : XReg} {a : CReg} {sel : BitVec 8} {s : State} (h : MemoryCanonical s) :
    OnNext (execCgetX g d a sel s) := by
  unfold execCgetX
  refine onNext_next (done_canonical ?_)
  split <;> exact h

theorem execCgetP_canonical {g : Ctl} {d : PReg} {a : CReg} {sel : BitVec 8} {s : State} (h : MemoryCanonical s) :
    OnNext (execCgetP g d a sel s) := by
  unfold execCgetP
  refine onNext_next (done_canonical ?_)
  split <;> exact h

theorem execCmov_canonical {g : Ctl} {d a : CReg} {s : State} (h : MemoryCanonical s) :
    OnNext (execCmov g d a s) := by
  unfold execCmov
  refine onNext_next (done_canonical ?_)
  split <;> exact h

theorem guarded_canonical {g : Ctl} {s f : State} (h : MemoryCanonical s) (hf : MemoryCanonical f) :
    OnNext (guarded g s f) := by
  unfold guarded
  refine onNext_next ?_
  split
  · exact hf
  · exact done_canonical h

theorem oweNow_canonical {s : State} {d : Option RegRef} {mask : Line} {f : Flight} {acq : Bool} {df : Nat}
    (h : MemoryCanonical s) :
    MemoryCanonical (s.oweNow d mask f acq df) := h

theorem defer_canonical {s : State} {g : Ctl} {op : DeferOp} {d : Option RegRef} {df : Nat} (h : MemoryCanonical s) :
    MemoryCanonical (s.defer g op d df) := by
  unfold State.defer
  split
  · exact faultNow_canonical h
  · exact done_canonical h

theorem deferOrOwe_canonical {s : State} {g : Ctl} {f : Flight} {d : RegRef} {df : Nat} (h : MemoryCanonical s) :
    MemoryCanonical (s.deferOrOwe g f d df) := by
  unfold State.deferOrOwe
  split
  · exact defer_canonical h
  · exact done_canonical (oweNow_canonical h)

theorem enqueue_canonical {s : State} {rel : Option Nat} {ws : List (OutOp × Place)} (h : MemoryCanonical s) :
    MemoryCanonical (s.enqueue rel ws) := by
  unfold State.enqueue
  split
  · next he =>
      exact updSl_canonical (snd_canonical he (draw_canonical h))

theorem checkStores_canonical {s : State} {k : AKind} {c : CapReg} {ok : Nat → Bool} {l : List (Coords × Word)}
    (h : MemoryCanonical s) :
    OnOk (fun x => MemoryCanonical x.1) (s.checkStores k c ok l) := by
  induction l generalizing s with
  | nil => exact onOk_ok h
  | cons x t ih =>
    unfold State.checkStores
    split
    · exact onOk_error
    · split
      · exact onOk_error
      · split
        · exact onOk_error
        · next hr =>
          have hs1 := reserve_canonical h _ hr
          split
          · exact onOk_error
          · next ht =>
            have hs2 := ih hs1 _ ht
            exact onOk_ok hs2

theorem storeAll_canonical {s : State} {g : Ctl} {k : AKind} {rel : Option Nat} {c : CapReg} {ok : Nat → Bool}
    {es : List (Coords × Word)} (h : MemoryCanonical s) :
    MemoryCanonical (s.storeAll g k rel c ok es) := by
  unfold State.storeAll
  split
  · exact faultNow_canonical h
  · next he =>
      refine done_canonical ?_
      split
      · exact checkStores_canonical h _ he
      · exact enqueue_canonical (checkStores_canonical h _ he)

theorem execCst_canonical {g : Ctl} {d : CReg} {m : MemOp} {s : State} (h : MemoryCanonical s) :
    OnNext (execCst g d m s) := by
  unfold execCst
  refine guarded_canonical h ?_
  extract_lets auth v r
  refine orFault_canonical h (fun _ => ?_)
  split
  · split
    · exact defer_canonical h
    · split
      · exact faultNow_canonical h
      · next he =>
          exact done_canonical (enqueue_canonical (reserve_canonical h _ he))

theorem loadAll_canonical {s : State} {g : Ctl} {w : Nat} {d : VReg} {c : CapReg} {es : List (Nat × Coords)}
    {top : Line} (h : MemoryCanonical s) :
    MemoryCanonical (s.loadAll g w d c es top) := by
  unfold State.loadAll
  split
  · exact done_canonical h
  · exact orFault_canonical h (fun _ => done_canonical (oweNow_canonical h))

theorem execVld_canonical {g : Ctl} {t : EType} {d : VReg} {m : MemOp} {s : State} (h : MemoryCanonical s) :
    OnNext (execVld g t d m s) := by
  unfold execVld
  extract_lets w
  exact onNext_next (loadAll_canonical h)

theorem execVst_canonical {g : Ctl} {t : EType} {d : VReg} {m : MemOp} {s : State} (h : MemoryCanonical s) :
    OnNext (execVst g t d m s) := by
  unfold execVst
  extract_lets w
  exact onNext_next (storeAll_canonical h)

theorem execVgth_canonical {g : Ctl} {t : VType} {d : VReg} {a : CReg} {b : VReg} {s : State}
    (h : MemoryCanonical s) :
    OnNext (execVgth g t d a b s) := by
  unfold execVgth
  extract_lets w c
  exact onNext_next (loadAll_canonical h)

theorem execVsct_canonical {g : Ctl} {t : VType} {d : VReg} {a : CReg} {b : VReg} {s : State}
    (h : MemoryCanonical s) :
    OnNext (execVsct g t d a b s) := by
  unfold execVsct
  extract_lets w c
  exact onNext_next (storeAll_canonical h)

theorem execSunlock_canonical {g : Ctl} {m : MemOp} {s : State} (h : MemoryCanonical s) :
    OnNext (execSunlock g m s) := by
  unfold execSunlock
  refine guarded_canonical h (orFault_canonical h (fun _ => done_canonical ?_))
  split
  · exact unpinLine_canonical h
  · exact h

theorem dropPrefetch_canonical {s : State} (h : MemoryCanonical s) :
    MemoryCanonical s.dropPrefetch := h

theorem prefetch_canonical {s : State} {l : PrefLevel} {w : Who} {p : Place} (h : MemoryCanonical s) :
    MemoryCanonical (s.prefetch l w p) := by
  unfold State.prefetch
  extract_lets lk
  split
  · split
    · exact h
    · exact makeReadable_canonical h
  · exact sliceAccess_canonical h
  · split
    · split
      · exact fillStash_canonical (settle_canonical _ _ h)
      · exact h
    · exact dropPrefetch_canonical h

theorem execPref_canonical {g : Ctl} {l : PrefLevel} {m : MemOp} {s : State} (h : MemoryCanonical s) :
    OnNext (execPref g l m s) := by
  unfold execPref
  refine guarded_canonical h ?_
  extract_lets w
  refine done_canonical ?_
  split
  · exact dropPrefetch_canonical h
  · split
    · exact dropPrefetch_canonical h
    · split
      · split
        · exact dropPrefetch_canonical h
        · exact prefetch_canonical h
      · split
        · exact dropPrefetch_canonical h
        · split
          · exact h
          · exact makeReadable_canonical h
          · exact h
      · exact h
      all_goals exact dropPrefetch_canonical h

end Sys2Proof.Machine
end

section
/-!
The plane engine and the Barge (R169 … R193) keep memory in canonical form.
-/

namespace Sys2Proof.Machine
open Sys2Proof.Safety

theorem claimEngine_canonical {s : State} (h : MemoryCanonical s) :
    MemoryCanonical s.claimEngine := by
  unfold State.claimEngine
  split <;> exact h

theorem engineIssue_canonical {g : Ctl} {s : State} {f : State → State}
    (h : MemoryCanonical s) (hf : ∀ t, MemoryCanonical t → MemoryCanonical (f t)) :
    OnNext (engineIssue g s f) := by
  unfold engineIssue
  refine onNext_next ?_
  split
  · split
    · exact hold_canonical h
    · split
      · exact hf _ (claimEngine_canonical h)
      · exact done_canonical h
  · split
    · exact hf _ (claimEngine_canonical h)
    · exact done_canonical h

theorem engineQueue_canonical {g : Ctl} {s : State} {f : State → State}
    (h : MemoryCanonical s) (hf : ∀ t, MemoryCanonical t → MemoryCanonical (f t)) :
    OnNext (engineQueue g s f) := by
  unfold engineQueue
  refine engineIssue_canonical h (fun _ ht => ?_)
  split
  · exact hold_canonical ht
  · exact hf _ ht

theorem enterEngine_canonical {s : State} {g : Ctl} {w : EngineWork} {d : Option RegRef} {df : Nat}
    {tag : Engine → Engine} (h : MemoryCanonical s) :
    MemoryCanonical (s.enterEngine g w d df tag) := by
  unfold State.enterEngine
  extract_lets n inChain op s1
  have hs1 : MemoryCanonical s1 := h
  refine done_canonical ?_
  split
  · exact oweNow_canonical hs1
  · split
    · exact hs1
    · exact oweNow_canonical hs1

theorem execTset_canonical {g : Ctl} {d : TReg} {a : XReg} {s : State} (h : MemoryCanonical s) :
    OnNext (execTset g d a s) := by
  unfold execTset
  refine engineIssue_canonical h (fun _ ht => ?_)
  extract_lets w
  split
  · exact faultNow_canonical ht
  · exact done_canonical ht

theorem execMchain_canonical {g : Ctl} {s : State} (h : MemoryCanonical s) :
    OnNext (execMchain g s) := by
  unfold execMchain
  refine engineIssue_canonical h (fun _ ht => ?_)
  split
  · exact faultNow_canonical ht
  · exact done_canonical ht

theorem execMend_canonical {g : Ctl} {s : State} (h : MemoryCanonical s) :
    OnNext (execMend g s) := by
  unfold execMend
  refine engineIssue_canonical h (fun _ ht => ?_)
  split
  · exact faultNow_canonical ht
  · extract_lets t1
    have ht1 : MemoryCanonical t1 := ht
    exact done_canonical (oweNow_canonical ht1)

theorem execMmf_canonical {g : Ctl} {d : NAcc} {a b : TReg} {s : State} (h : MemoryCanonical s) :
    OnNext (execMmf g d a b s) := by
  unfold execMmf
  refine engineQueue_canonical h (fun _ ht => ?_)
  extract_lets ta tb
  split
  · exact faultNow_canonical ht
  · split
    · exact faultNow_canonical ht
    · exact enterEngine_canonical ht

theorem execMmiNarrow_canonical {g : Ctl} {d : NAcc} {a b : TReg} {s : State} (h : MemoryCanonical s) :
    OnNext (execMmiNarrow g d a b s) := by
  unfold execMmiNarrow
  refine engineQueue_canonical h (fun _ ht => ?_)
  extract_lets ta tb
  split
  · exact faultNow_canonical ht
  · split
    · exact faultNow_canonical ht
    · exact enterEngine_canonical ht

theorem execMmiWide_canonical {g : Ctl} {d : WAcc} {a b : TReg} {s : State} (h : MemoryCanonical s) :
    OnNext (execMmiWide g d a b s) := by
  unfold execMmiWide
  refine engineQueue_canonical h (fun _ ht => ?_)
  extract_lets ta tb
  split
  · exact faultNow_canonical ht
  · exact enterEngine_canonical ht

theorem execMmb_canonical {g : Ctl} {d : NAcc} {a b : TReg} {la lb : BlkLen} {s : State} (h : MemoryCanonical s) :
    OnNext (execMmb g d a b la lb s) := by
  unfold execMmb
  refine engineQueue_canonical h (fun _ ht => ?_)
  extract_lets ta tb len
  split
  · exact faultNow_canonical ht
  · split
    · exact faultNow_canonical ht
    · exact enterEngine_canonical ht

theorem execMscacc_canonical {g : Ctl} {d : WAcc} {a : NAcc} {b : VReg} {s : State} (h : MemoryCanonical s) :
    OnNext (execMscacc g d a b s) := by
  unfold execMscacc
  refine engineQueue_canonical h (fun _ ht => ?_)
  split
  · exact faultNow_canonical ht
  · exact enterEngine_canonical ht

theorem commitEngine_canonical {s : State} {core : Nat} {op : EngineOp} (h : MemoryCanonical s) :
    MemoryCanonical (s.commitEngine core op) := by
  unfold State.commitEngine
  split
  · extract_lets s1
    have hs1 : MemoryCanonical s1 := h
    exact hs1

theorem execEngineInstructionCommit_canonical {core : Nat} {s : State} (h : MemoryCanonical s) :
    OnNext (execEngineInstructionCommit core s) := by
  unfold execEngineInstructionCommit
  extract_lets c
  split
  · exact onNext_next h
  · refine onNext_next ?_
    split
    · exact h
    · exact commitEngine_canonical h

theorem execChainCompletion_canonical {core : Nat} {s : State} (h : MemoryCanonical s) :
    OnNext (execChainCompletion core s) := by
  unfold execChainCompletion
  split
  · extract_lets fl
    exact onNext_next h
  · exact onNext_next h

theorem bargeWrite_canonical {s : State} {w : Who} {num : Nat} {p : Place} {op : WOp} {whole : Bool}
    (h : MemoryCanonical s) :
    OnSome MemoryCanonical (s.bargeWrite w num p op whole) := by
  refine onSome_map (writeView_canonical h) fun t ht => ?_
  split
  · exact tellProxy_canonical ht
  · exact ht

theorem moveElem_canonical {s : State} {w : Who} {num seq : Nat} {dst src : CapReg} {sc dc : Coords}
    (h : MemoryCanonical s) :
    OnOk MemoryCanonical (s.moveElem w num seq dst src sc dc) := by
  unfold State.moveElem
  extract_lets d c
  split
  · exact onOk_error
  · split
    · exact onOk_error
    · split
      · exact onOk_error
      · split
        · exact onOk_error
        · split
          · split
            · exact onOk_error
            · next hr =>
              have hs1 := readCap_canonical h _ hr
              split
              · exact onOk_error
              · exact onOk_elim (bargeWrite_canonical (touchPage_canonical hs1))
          · split
            · exact onOk_error
            · next hr => exact onOk_elim (bargeWrite_canonical (touchPage_canonical (readElem_canonical h _ hr)))

theorem putResume_canonical {s : State} {key j : Nat} {v : CapReg} (h : MemoryCanonical s) :
    MemoryCanonical (s.putResume key j v) := putLine_canonical _ _ _ h

theorem writeResume_canonical {s : State} {key : Nat} {head : Line} {dst src slu : CapReg} {tmpl : Nat}
    (h : MemoryCanonical s) :
    MemoryCanonical (s.writeResume key head dst src slu tmpl) := by
  unfold State.writeResume
  extract_lets s1
  have hs1 : MemoryCanonical s1 := putResume_canonical (putResume_canonical (putResume_canonical (putResume_canonical h)))
  exact foldl_keeps hs1 (fun _ _ ht => putResume_canonical ht)

theorem updHead_canonical {s : State} {core : Nat} {f : BargeOp → BargeOp} (h : MemoryCanonical s) :
    MemoryCanonical (s.updHead core f) := h

theorem bargeEnd_canonical {s : State} {core : Nat} {op : BargeOp} {r : Res} {n : Option (CapReg × Nat)}
    (h : MemoryCanonical s) :
    MemoryCanonical (s.bargeEnd core op r n) := by
  unfold State.bargeEnd
  extract_lets defer
  split
  · next he =>
      exact updCore_canonical _ _ _ (snd_canonical he (draw_canonical h))

theorem copyStep_canonical {s : State} {w : Who} {op : BargeOp} {dst src slu : CapReg} {t : Template}
    (h : MemoryCanonical s) :
    MemoryCanonical (s.copyStep w op dst src slu t) := by
  unfold State.copyStep
  extract_lets bytes tup sc dc
  split
  · exact bargeEnd_canonical h
  · split
    · exact h
    · split
      · next he =>
          exact updHead_canonical (count_canonical (moveElem_canonical h _ he))
      · extract_lets head s1
        have hs1 : MemoryCanonical s1 := by
          unfold s1
          split
          · exact h
          · exact writeResume_canonical h
        exact bargeEnd_canonical hs1

theorem readRecord_canonical {s : State} {w : Who} {seq : Nat} {rec_ : CapReg} {l : List Nat}
    (h : MemoryCanonical s) :
    OnOk (fun x => MemoryCanonical x.1) (s.readRecord w seq rec_ l) := by
  induction l generalizing s with
  | nil => exact onOk_ok h
  | cons j js ih =>
    unfold State.readRecord
    split
    · exact onOk_error
    · next s1 v hr =>
      have hs1 : MemoryCanonical s1 := readCap_canonical h _ hr
      split
      · exact onOk_error
      · next ht =>
        have hs2 := ih hs1 _ ht
        exact onOk_ok hs2

theorem resumeStep_canonical {s : State} {w : Who} {cmpt : Nat} {op : BargeOp} {rec_ : CapReg}
    (h : MemoryCanonical s) :
    MemoryCanonical (s.resumeStep w cmpt op rec_) := by
  unfold State.resumeStep
  split
  · exact h
  · split
    · exact bargeEnd_canonical h
    · next he =>
        extract_lets line hdr tn bad
        have hbad : ∀ a, MemoryCanonical (bad a) := fun a => bargeEnd_canonical (readRecord_canonical h _ he)
        split
        · exact hbad _
        · split
          · exact hbad _
          · split
            · exact hbad _
            · split
              · exact hbad _
              · extract_lets iter n
                split
                · exact bargeEnd_canonical (readRecord_canonical h _ he)
                · exact updHead_canonical (readRecord_canonical h _ he)

theorem putPlane_canonical {s : State} {core : Nat} {t : TileF} {l n v : Nat} (h : MemoryCanonical s) :
    MemoryCanonical (s.putPlane core t l n v) := putData_canonical _ _ _ h

theorem putLineOf_canonical {s : State} {core : Nat} {t : TileF} {r : Nat} {qs : List Int} {gs : List SGroup}
    (h : MemoryCanonical s) :
    MemoryCanonical (s.putLineOf core t r qs gs) := by
  unfold State.putLineOf
  extract_lets s1
  have hs1 : MemoryCanonical s1 := foldl_keeps h (fun _ _ ht => putPlane_canonical ht)
  split
  · exact putPlane_canonical hs1
  · exact hs1

theorem stageEnd_canonical {s : State} {core : Nat} {op : BargeOp} {t : TileF} {slu : CapReg} {o : StageOpts}
    (h : MemoryCanonical s) :
    MemoryCanonical (s.stageEnd core op t slu o) := by
  unfold State.stageEnd
  extract_lets kn line groups gf s1 any n
  have hs1 : MemoryCanonical s1 := foldl_keeps h (fun _ _ ht => putLineOf_canonical ht)
  exact bargeEnd_canonical hs1

theorem stageStep_canonical {s : State} {w : Who} {op : BargeOp} {tile : Word} {src slu : CapReg} {o : StageOpts}
    (h : MemoryCanonical s) :
    MemoryCanonical (s.stageStep w op tile src slu o) := by
  unfold State.stageStep
  extract_lets t kn r k e
  split
  · split
    · exact h
    · exact stageEnd_canonical h
  · split
    · exact h
    · split
      · next he =>
          exact updHead_canonical (readElem_canonical h _ he)
      · extract_lets head s1
        have hs1 : MemoryCanonical s1 := by
          unfold s1
          split
          · exact h
          · exact writeResume_canonical h
        exact bargeEnd_canonical hs1

theorem enterBarge_canonical {s : State} {g : Ctl} {d : XReg} {work : BargeWork} {entry : Bool}
    (h : MemoryCanonical s) :
    MemoryCanonical (s.enterBarge g d work entry) := by
  unfold State.enterBarge
  split
  · exact faultNow_canonical h
  · extract_lets n df op s1 s2
    have hs1 : MemoryCanonical s1 := h
    have hs2 : MemoryCanonical s2 := by
      unfold s2
      split <;> exact hs1
    exact done_canonical (oweNow_canonical hs2)

theorem bargeIssue_canonical {g : Ctl} {s : State} {f : State → State}
    (h : MemoryCanonical s) (hf : ∀ t, MemoryCanonical t → MemoryCanonical (f t)) :
    OnNext (bargeIssue g s f) := by
  unfold bargeIssue
  refine guarded_canonical h ?_
  split
  · exact hold_canonical h
  · exact hf _ h

theorem execBcopyTemplate_canonical {g : Ctl} {d : XReg} {a b : CReg} {tmpl : Imm} {s : State}
    (h : MemoryCanonical s) :
    OnNext (execBcopyTemplate g d a b tmpl s) := by
  unfold execBcopyTemplate
  refine bargeIssue_canonical h (fun _ ht => ?_)
  split
  · exact hold_canonical ht
  · exact orFault_canonical ht (fun _ => orFault_canonical ht (fun _ => enterBarge_canonical ht))

theorem execBcopyCommonShape_canonical {g : Ctl} {d : XReg} {a b : CReg} {s : State} (h : MemoryCanonical s) :
    OnNext (execBcopyCommonShape g d a b s) :=
  bargeIssue_canonical h (fun _ ht => orFault_canonical ht (fun _ => enterBarge_canonical ht))

theorem execBstage_canonical {g : Ctl} {d : XReg} {a : TReg} {b : CReg} {o : StageOpts} {s : State}
    (h : MemoryCanonical s) :
    OnNext (execBstage g d a b o s) :=
  bargeIssue_canonical h (fun _ ht => orFault_canonical ht (fun _ => enterBarge_canonical ht))

theorem execBres_canonical {g : Ctl} {d : XReg} {a : CReg} {s : State} (h : MemoryCanonical s) :
    OnNext (execBres g d a s) :=
  bargeIssue_canonical h (fun _ ht => orFault_canonical ht (fun _ => enterBarge_canonical ht))

theorem bargeStep_canonical {s : State} {w : Who} {cmpt : Nat} {op : BargeOp} (h : MemoryCanonical s) :
    MemoryCanonical (s.bargeStep w cmpt op) := by
  unfold State.bargeStep
  split
  · exact copyStep_canonical h
  · exact resumeStep_canonical h
  · exact stageStep_canonical h

theorem execBargeExecute_canonical {core : Nat} {s : State} (h : MemoryCanonical s) :
    OnNext (execBargeExecute core s) := by
  unfold execBargeExecute
  split
  · exact onNext_next h
  · extract_lets key
    refine onNext_next ?_
    split
    · exact bargeStep_canonical h
    · exact h

theorem execBargeCompletion_canonical {core : Nat} {s : State} (h : MemoryCanonical s) :
    OnNext (execBargeCompletion core s) := by
  unfold execBargeCompletion
  split
  · exact onNext_next h
  · extract_lets key s1 ret
    have hs1 : MemoryCanonical s1 := h
    have hret : ∀ t a, MemoryCanonical t → MemoryCanonical (ret t a) := fun _ _ ht => ht
    split
    · exact onNext_next h
    · split
      · exact onNext_next (hret _ _ hs1)
      · extract_lets e
        split
        · exact onNext_next (hret _ _ hs1)
        · split
          · exact onNext_next h
          · split
            · next he =>
                exact onNext_next (hret _ _ (applySluice_canonical hs1 _ he))
            · exact onNext_next (hret _ _ hs1)

end Sys2Proof.Machine
end

section
/-!
The way of a store, coherence between the dies, fences and Sluices (R299 … R323, R194 … R198) keep memory in
canonical form.
-/

namespace Sys2Proof.Machine
open Sys2Proof.Safety

theorem updOut_canonical {s : State} {key : Nat} {w : Out} {f : Out → Out} (h : MemoryCanonical s) :
    MemoryCanonical (s.updOut key w f) := h

theorem refuseOut_canonical {s : State} {key : Nat} {o : Out} (h : MemoryCanonical s) :
    MemoryCanonical (s.refuseOut key o) := updSlot_canonical _ _ _ (updOut_canonical (unreserve_canonical h))

theorem sendOut_canonical {s : State} {key : Nat} {o : Out} (h : MemoryCanonical s) :
    MemoryCanonical (s.sendOut key o) := by
  unfold State.sendOut
  extract_lets w s0 p whole lk done s1 slice sharers d s2 s3
  have hs0 : MemoryCanonical s0 := touchPage_canonical h
  have hdone : ∀ t a, MemoryCanonical t → MemoryCanonical (done t a) :=
    fun _ _ ht => updOut_canonical (unreserve_canonical ht)
  have hs1 : MemoryCanonical s1 := makeWritable_canonical hs0
  have hs2 : MemoryCanonical s2 := foldl_keeps hs1 (fun _ _ ht1 => ht1)
  have hs3 : MemoryCanonical s3 := by
    unfold s3
    split <;> exact hs2
  split
  · exact refuseOut_canonical h
  · split
    · exact hdone _ _ (getD_canonical (writeView_canonical hs0) hs0)
    · split
      · exact hdone _ _ (getD_canonical (writeNow_canonical hs1) hs1)
      · exact updOut_canonical hs3

theorem storeNow_canonical {s : State} {core slot idx : Nat} (h : MemoryCanonical s) :
    MemoryCanonical (s.storeNow core slot idx) := by
  unfold State.storeNow
  extract_lets key
  split
  · exact h
  · split
    · exact h
    · exact sendOut_canonical h

theorem receiveUpdate_canonical {s : State} {lk core : Nat} {d : Pend} (h : MemoryCanonical s) :
    MemoryCanonical (s.receiveUpdate lk core d) := by
  unfold State.receiveUpdate
  extract_lets r held
  exact h

theorem execUpdateReceipt_canonical {line core : Nat} {s : State} (h : MemoryCanonical s) :
    OnNext (execUpdateReceipt line core s) := by
  unfold execUpdateReceipt
  split
  · refine onNext_next ?_
    split
    · exact receiveUpdate_canonical h
    · exact h
  · exact onNext_next h

theorem execUpdateReply_canonical {line core : Nat} {s : State} (h : MemoryCanonical s) :
    OnNext (execUpdateReply line core s) := by
  unfold execUpdateReply
  extract_lets c
  split
  · exact onNext_next h
  · split
    · exact onNext_next h
    · split
      · exact onNext_next h
      · exact onNext_next (takeReply_canonical h)

theorem commitWrite_canonical {s : State} {lk : Nat} {d : Pend} (h : MemoryCanonical s) :
    MemoryCanonical (s.commitWrite lk d) := by
  unfold State.commitWrite
  extract_lets key w free s1
  have hfree : MemoryCanonical free := h
  split
  · exact hfree
  · extract_lets p s2 s3
    split
    · exact refuseOut_canonical hfree
    · have hs1 : MemoryCanonical s1 := by
        unfold s1
        split
        · exact doInvalidate_canonical _ _ hfree
        · exact hfree
      have hs3 : MemoryCanonical s3 := unreserve_canonical (placeWrite_canonical (shareEntries_canonical hs1))
      split
      next he =>
      refine updOut_canonical (fst_canonical he ?_)
      split
      · exact hs3
      · exact tellProxy_canonical hs3

theorem finishPend_canonical {s : State} {lk : Nat} (h : MemoryCanonical s) :
    MemoryCanonical (s.finishPend lk) := by
  unfold State.finishPend
  split
  · exact h
  · extract_lets slice got back
    have hgot : MemoryCanonical got := by
      refine foldl_keeps h (fun _ _ ht => ?_)
      split
      · exact receiveUpdate_canonical ht
      · exact ht
    have hback : MemoryCanonical back := foldl_keeps hgot (fun _ _ ht => drainChannel_canonical ht)
    split
    · exact commitWrite_canonical hback
    · exact hback

theorem execHomeCommit_canonical {line : Nat} {s : State} (h : MemoryCanonical s) :
    OnNext (execHomeCommit line s) := by
  unfold execHomeCommit
  split
  · refine onNext_next ?_
    split
    · exact commitWrite_canonical h
    · exact h
  · exact onNext_next h

theorem execProxyInvalidation_canonical {line : Nat} {s : State} (h : MemoryCanonical s) :
    OnNext (execProxyInvalidation line s) := by
  unfold execProxyInvalidation
  split
  · exact onNext_next (updCoh_canonical _ _ _ (doInvalidate_canonical _ _ h))
  · exact onNext_next h

theorem execStoreAcknowledgement_canonical {core slot idx : Nat} {s : State} (h : MemoryCanonical s) :
    OnNext (execStoreAcknowledgement core slot idx s) := by
  unfold execStoreAcknowledgement
  extract_lets key
  split
  · exact onNext_next h
  · split <;> exact onNext_next h

theorem execRegionMerge_canonical {slice region : Nat} {s : State} (h : MemoryCanonical s) :
    OnNext (execRegionMerge slice region s) := by
  unfold execRegionMerge
  extract_lets dir
  split
  · exact onNext_next h
  · split <;> exact onNext_next h

theorem execDirectoryEntryEviction_canonical {slice : Nat} {s : State} (h : MemoryCanonical s) :
    OnNext (execDirectoryEntryEviction slice s) := by
  unfold execDirectoryEntryEviction
  split
  · exact onNext_next (freeRegion_canonical h)
  · exact onNext_next h

theorem execEvictionNotice_canonical {line core : Nat} {s : State} (h : MemoryCanonical s) :
    OnNext (execEvictionNotice line core s) := by
  unfold execEvictionNotice
  extract_lets c
  split
  · exact onNext_next (updCore_canonical _ _ _ (dropStash_canonical h))
  · split <;> exact onNext_next h

theorem execEvictionAcknowledgement_canonical {line core : Nat} {s : State} (h : MemoryCanonical s) :
    OnNext (execEvictionAcknowledgement line core s) := by
  unfold execEvictionAcknowledgement
  extract_lets waits
  split
  · refine onNext_next ?_
    split <;> exact h
  · exact onNext_next h

theorem execStashFill_canonical {line cluster : Nat} {s : State} (h : MemoryCanonical s) :
    OnNext (execStashFill line cluster s) := by
  unfold execStashFill
  split
  · exact onNext_next (fillStash_canonical (settle_canonical _ _ (updLine_canonical (touchPage_canonical h))))
  · exact onNext_next h

theorem execStashForwardedAccess_canonical {line : Nat} {s : State} (h : MemoryCanonical s) :
    OnNext (execStashForwardedAccess line s) := by
  unfold execStashForwardedAccess
  split <;> exact onNext_next h

theorem execReadShared_canonical {line : Nat} {s : State} (h : MemoryCanonical s) :
    OnNext (execReadShared line s) := by
  unfold execReadShared
  extract_lets c
  split <;> exact onNext_next h

theorem execUpgrade_canonical {line : Nat} {s : State} (h : MemoryCanonical s) :
    OnNext (execUpgrade line s) := by
  unfold execUpgrade
  extract_lets c
  split <;> exact onNext_next h

theorem execReadExclusive_canonical {line : Nat} {s : State} (h : MemoryCanonical s) :
    OnNext (execReadExclusive line s) := by
  unfold execReadExclusive
  extract_lets c
  split <;> exact onNext_next h

theorem enterProxy_canonical {s : State} {line : Nat} (h : MemoryCanonical s) :
    MemoryCanonical (s.enterProxy line) := by
  unfold State.enterProxy
  extract_lets c d
  split
  · exact h
  · exact enterSlice_canonical h

theorem grantNow_canonical {s : State} {line : Nat} (h : MemoryCanonical s) :
    MemoryCanonical (s.grantNow line) := by
  unfold State.grantNow
  extract_lets c s1 own
  have hs1 : MemoryCanonical s1 := h
  have hown : MemoryCanonical own := by
    unfold own
    split
    · exact sendOut_canonical hs1
    · exact hs1
  split
  · exact h
  · split
    · exact h
    · exact enterProxy_canonical (doReadShared_canonical (sliceAccess_canonical hs1))
    · exact hown
    · exact hown

theorem execSnoopRead_canonical {line : Nat} {s : State} (h : MemoryCanonical s) :
    OnNext (execSnoopRead line s) := by
  unfold execSnoopRead
  extract_lets c
  split <;> exact onNext_next h

theorem execSnoopInvalidate_canonical {line : Nat} {s : State} (h : MemoryCanonical s) :
    OnNext (execSnoopInvalidate line s) := by
  unfold execSnoopInvalidate
  extract_lets c
  split <;> exact onNext_next h

theorem execSnoopAnswer_canonical {line : Nat} {s : State} (h : MemoryCanonical s) :
    OnNext (execSnoopAnswer line s) := by
  unfold execSnoopAnswer
  extract_lets c s1
  have hs1 : MemoryCanonical s1 := finishWriteBack_canonical _ _ h
  split
  · exact onNext_next h
  · extract_lets s2
    have hs2 : MemoryCanonical s2 := by
      unfold s2
      split
      · exact doSnoopRead_canonical _ _ hs1
      · exact doSnoopInval_canonical _ _ hs1
      · exact doInvalidate_canonical _ _ hs1
    exact onNext_next hs2

theorem execWriteBack_canonical {line : Nat} {s : State} (h : MemoryCanonical s) :
    OnNext (execWriteBack line s) := by
  unfold execWriteBack
  extract_lets c
  refine onNext_next ?_
  split
  · exact finishWriteBack_canonical _ _ h
  · split
    · exact h
    · exact evictProxy_canonical h

theorem execHostSnoop_canonical {line : Nat} {s : State} (h : MemoryCanonical s) :
    OnNext (execHostSnoop line s) := by
  unfold execHostSnoop
  split <;> exact onNext_next h

theorem outsideTouch_canonical {s : State} {world lk : Nat} (h : MemoryCanonical s) :
    MemoryCanonical (s.outsideTouch world lk) := by
  unfold State.outsideTouch
  split
  · extract_lets va s1 w
    have hs1 : MemoryCanonical s1 := noteTouch_canonical h
    split
    · exact sliceAccess_canonical hs1
    · exact hs1
  · exact h

theorem outsideAccess_canonical {s : State} {world lk : Nat} {wr tagged : Bool} {bytes : List Byte}
    (h : MemoryCanonical s) :
    MemoryCanonical (s.outsideAccess world lk wr tagged bytes) := by
  unfold State.outsideAccess
  split
  · extract_lets base
    have hbase : MemoryCanonical base := h
    exact hbase
  · extract_lets s0 s1 bs s2 s3
    have hs0 : MemoryCanonical s0 := outsideReady_canonical _ _ _ (outsideTouch_canonical (finishPend_canonical h))
    have hs1 : MemoryCanonical s1 := hs0
    have hs2 : MemoryCanonical s2 := by
      unfold s2
      split
      · exact shareEntries_canonical hs1
      · exact hs1
    have hs3 : MemoryCanonical s3 := homeRound_canonical hs2
    split
    · split
      · exact putLine_canonical _ _ _ hs3
      · split
        · exact hs3
        · exact putData_canonical _ _ _ hs3
    · exact hs1

theorem hostNow_canonical {s : State} {stream line : Nat} {write : Bool} {bytes : List Byte} (h : MemoryCanonical s) :
    MemoryCanonical (s.hostNow stream line write bytes) := by
  unfold State.hostNow
  extract_lets world c s1 keeps
  have hs1 : MemoryCanonical s1 := outsideAccess_canonical h
  split
  · exact h
  · split <;> exact hs1

theorem peerNow_canonical {s : State} {path world line : Nat} {write : Bool} {bytes : List Byte}
    (h : MemoryCanonical s) :
    MemoryCanonical (s.peerNow path world line write bytes) := by
  unfold State.peerNow
  split
  · exact outsideAccess_canonical h
  · exact h

theorem dropRounds_canonical {s : State} {key : Nat} (h : MemoryCanonical s) :
    MemoryCanonical (s.dropRounds key) := h

theorem beginRound_canonical {s : State} {key world : Nat} (h : MemoryCanonical s) :
    MemoryCanonical (s.beginRound key world) := h

theorem execFabricRun_canonical {path run : Nat} {good : Bool} {s : State} (h : MemoryCanonical s) :
    OnNext (execFabricRun path run good s) := by
  unfold execFabricRun
  dsimp only
  split
  · exact onNext_next h
  · split
    · split
      · exact onNext_next h
      · split
        · exact onNext_next h
        · split <;> exact onNext_next h
    · split <;> exact onNext_next h

theorem execFabricRekey_canonical {port world : Nat} {s : State} (h : MemoryCanonical s) :
    OnNext (execFabricRekey port world s) := by
  unfold execFabricRekey
  extract_lets k
  split
  · exact onNext_next h
  · split
    next he =>
    have hs1 := snd_canonical he (draw_canonical h)
    exact onNext_next hs1

theorem flushSlot_canonical {s : State} {key : Nat} (h : MemoryCanonical s) :
    MemoryCanonical (s.flushSlot key) := by
  unfold State.flushSlot
  split
  · split <;> exact h
  · exact h

theorem stampOf_canonical {s : State} (h : MemoryCanonical s) :
    MemoryCanonical (s.stampOf).2 := by
  unfold State.stampOf
  split
  · exact h
  · exact h
  · exact draw_canonical (dropRounds_canonical h)

theorem holdTimed_canonical {s : State} {h : Hold} (hm : MemoryCanonical s) :
    MemoryCanonical (s.holdTimed h) := hm

theorem awaitScope_canonical {s : State} {sc : Nat} {f : State → State}
    (h : MemoryCanonical s) (hf : ∀ t, MemoryCanonical t → MemoryCanonical (f t)) :
    MemoryCanonical (s.awaitScope sc f) := by
  unfold State.awaitScope
  split
  · next he =>
      split
      · exact hf _ (dropRounds_canonical (snd_canonical he (stampOf_canonical h)))
      · extract_lets w wide s2
        have hs2 : MemoryCanonical s2 := by
          unfold s2
          split
          · exact beginRound_canonical (snd_canonical he (stampOf_canonical h))
          · exact snd_canonical he (stampOf_canonical h)
        split
        · exact holdTimed_canonical hs2
        · exact hold_canonical hs2

theorem execStRel_canonical {g : Ctl} {t : IType} {d : XReg} {m : MemReg} {sc : ScopeCode} {s : State}
    (h : MemoryCanonical s) :
    OnNext (execStRel g t d m sc s) := by
  unfold execStRel
  refine guarded_canonical h ?_
  extract_lets c es
  split
  · exact storeAll_canonical h
  · split
    · exact faultNow_canonical h
    · exact awaitScope_canonical h (fun _ ht => storeAll_canonical ht)

theorem sluiceIssue_canonical {s : State} {g : Ctl} {c : CapReg} {k : Coords} {perms : List Nat} {amountOk : Bool}
    {o : SluiceOp} (h : MemoryCanonical s) :
    MemoryCanonical (s.sluiceIssue g c k perms amountOk o) := by
  unfold State.sluiceIssue
  extract_lets r
  refine orFault_canonical h (fun _ => ?_)
  split
  · split
    · exact defer_canonical h
    · split
      · exact faultNow_canonical h
      · next he =>
          exact done_canonical (enqueue_canonical (reserve_canonical h _ he))

theorem applyOut_canonical {s : State} {key : Nat} {o : Out} (h : MemoryCanonical s) :
    MemoryCanonical (s.applyOut key o) := by
  unfold State.applyOut
  split
  · extract_lets w s1
    have hs1 : MemoryCanonical s1 := by
      unfold s1
      split
      · next he =>
          exact applySluice_canonical h _ he
      · exact h
    split
    · exact refuseOut_canonical h
    · exact updOut_canonical (unreserve_canonical hs1)
  · exact h
  · exact h

theorem sluiceNow_canonical {s : State} {core slot : Nat} (h : MemoryCanonical s) :
    MemoryCanonical (s.sluiceNow core slot) := by
  unfold State.sluiceNow
  extract_lets key
  split
  · split
    · exact applyOut_canonical h
    · exact h
  · exact h

theorem seesFlip_canonical {s : State} {key : Nat} {e : Elem} {flips : Nat} (h : MemoryCanonical s) :
    OnSome (OnOk (fun x => MemoryCanonical x.1)) (s.seesFlip key e flips) := by
  unfold State.seesFlip
  extract_lets sl
  split
  · exact onSome_none
  · split
    · exact onSome_some onOk_error
    · next he =>
        split
        · exact onSome_none
        · exact onSome_some (onOk_ok (readElem_canonical h _ he))

theorem observe_canonical {s : State} {g : Ctl} {d : XReg} {e : Elem} {flips : Nat} (h : MemoryCanonical s) :
    MemoryCanonical (s.observe g d e flips) := by
  unfold State.observe
  split
  · exact holdTimed_canonical h
  · exact faultNow_canonical h
  · next he =>
      exact done_canonical (updSl_canonical (seesFlip_canonical h _ he _ rfl))

theorem execSwaitBlocking_canonical {g : Ctl} {d : XReg} {m : MemOp} {s : State} (h : MemoryCanonical s) :
    OnNext (execSwaitBlocking g d m s) := by
  unfold execSwaitBlocking
  refine guarded_canonical h ?_
  split
  · exact observe_canonical h
  · exact orFault_canonical h (fun _ => observe_canonical h)

theorem waitFor_canonical {g : Ctl} {r : RegRef} {s : State} (h : MemoryCanonical s) :
    OnNext (waitFor g r s) := by
  unfold waitFor
  refine guarded_canonical h ?_
  split
  · exact done_canonical h
  · split
    · exact hold_canonical h
    · exact done_canonical h
    · extract_lets t
      have ht : MemoryCanonical t := done_canonical h
      split
      · exact ht
      · exact parkIfOwing_canonical ht

theorem readLinesAt_canonical {s : State} {w : Who} {seq : Nat} {c : CapF} {l : List Coords} (h : MemoryCanonical s) :
    OnOk (fun x => MemoryCanonical x.1) (s.readLinesAt w seq c l) := by
  induction l generalizing s with
  | nil => exact onOk_ok h
  | cons k ks ih =>
    unfold State.readLinesAt
    split
    · exact onOk_error
    · next s1 v hr =>
      have hs1 : MemoryCanonical s1 := readCap_canonical h _ hr
      split
      · exact onOk_error
      · next ht =>
        have hs2 := ih hs1 _ ht
        exact onOk_ok hs2

theorem readRec_canonical {s : State} {w : Who} {seq : Nat} {c : CapReg} {k : Coords} (h : MemoryCanonical s) :
    OnOk (fun x => MemoryCanonical x.1) (s.readRec w seq c k) :=
  onOk_map (readLinesAt_canonical h) fun _ ht => ht

theorem readList_canonical {s : State} {w : Who} {seq : Nat} {c : CapReg} (h : MemoryCanonical s) :
    OnOk (fun x => MemoryCanonical x.1) (s.readList w seq c) := by
  unfold State.readList
  split
  · exact onOk_error
  · next he =>
      extract_lets head n
      split
      · exact onOk_ok (readLinesAt_canonical h _ he)
      · split
        · exact onOk_error
        · next he1 =>
            exact onOk_ok (readLinesAt_canonical (readLinesAt_canonical h _ he) _ he1)

end Sys2Proof.Machine
end

section
/-!
Basins, deferred effects, `commit` and compartment calls (R199 … R218) keep memory in canonical form.
-/

namespace Sys2Proof.Machine
open Sys2Proof.Safety

theorem basinTry_canonical {s : State} {w : Who} {o : BasinOp} (h : MemoryCanonical s) :
    OnOk (OnSome (fun x => MemoryCanonical x.1)) (s.basinTry w o) := by
  unfold State.basinTry
  extract_lets c d slot
  split
  · exact onOk_error
  · next hr =>
    have hs1 := atomicLine_canonical h _ hr
    split
    · split
      · split
        · exact onOk_error
        · next ht => exact onOk_map (atomicLine_canonical (atomicLine_canonical hs1 _ ht)) fun _ hy => onSome_some hy
      · exact onOk_ok onSome_none
    · split
      · split
        · exact onOk_error
        · next ht => exact onOk_map (atomicLine_canonical (atomicLine_canonical hs1 _ ht)) fun _ hy => onSome_some hy
      · exact onOk_ok onSome_none

theorem registerBasin_canonical {s : State} {o : BasinOp} {l : Line} (h : MemoryCanonical s) :
    MemoryCanonical (s.registerBasin o l) := by
  unfold State.registerBasin
  split <;> exact h

theorem oweApplied_canonical {s : State} {d : Defer} {f : Flight} {r : Option Res} (h : MemoryCanonical s) :
    MemoryCanonical (s.oweApplied d f r) := by
  unfold State.oweApplied
  split
  · split <;> exact h
  · exact h

theorem oweStatus_canonical {s : State} {d : Defer} {code val_ : Nat} (h : MemoryCanonical s) :
    MemoryCanonical (s.oweStatus d code val_) := oweApplied_canonical h

theorem whenReleased_canonical {s : State} {f : State → Applied}
    (h : MemoryCanonical s) (hf : ∀ t, MemoryCanonical t → OnApplied (f t)) :
    OnApplied (s.whenReleased f) := by
  unfold State.whenReleased
  split
  · next he =>
      split
      · exact hf _ (snd_canonical he (stampOf_canonical h))
      · exact snd_canonical he (stampOf_canonical h)

theorem whenFree_canonical {s : State} {e : Elem} {f : State → Applied}
    (h : MemoryCanonical s) (hf : ∀ t, MemoryCanonical t → OnApplied (f t)) :
    OnApplied (s.whenFree e f) := by
  unfold State.whenFree
  split
  · exact hf _ h
  · exact h

theorem whenReadable_canonical {s : State} {es : List Elem} {f : State → Applied}
    (h : MemoryCanonical s) (hf : ∀ t, MemoryCanonical t → OnApplied (f t)) :
    OnApplied (s.whenReadable es f) := by
  unfold State.whenReadable
  split
  · exact hf _ h
  · exact h

theorem performed_canonical {s : State} {key : Nat} {op : OutOp} {p : Place} {iaddr : Word} (h : MemoryCanonical s) :
    MemoryCanonical (s.performed key op p iaddr) := by
  unfold State.performed
  extract_lets sl
  split
  next hd =>
  split
  next he =>
  have hs1 := snd_canonical hd (draw_canonical h)
  refine updSlot_canonical _ _ _ (fst_canonical he ?_)
  split
  · exact tellProxy_canonical hs1
  · exact hs1

theorem shareRev_canonical {s : State} (h : MemoryCanonical s) :
    MemoryCanonical s.shareRev := by
  unfold State.shareRev
  split <;> exact h

theorem spawnRec_canonical {s : State} {d : Defer} {r : Rec} (h : MemoryCanonical s) :
    MemoryCanonical (s.spawnRec d r) := by
  unfold State.spawnRec
  extract_lets code g out
  split
  · exact oweStatus_canonical h
  · split
    · exact oweStatus_canonical h
    · split
      · next he =>
          exact oweStatus_canonical (shareRev_canonical (placeNew_canonical h _ he))
      · exact oweStatus_canonical h

theorem submit_canonical {s : State} {part world : Nat} {r : Rec} {seq : Option Word} (h : MemoryCanonical s) :
    OnSome MemoryCanonical (s.submit part world r seq) := by
  unfold State.submit
  split
  · exact onSome_none
  · split
    · next he =>
        extract_lets named g
        exact onSome_some (updWorld_canonical (updPart_canonical (updGrid_canonical (snd_canonical he (draw_canonical h)))))

theorem launchRec_canonical {s : State} {d : Defer} {r : Rec} (h : MemoryCanonical s) :
    MemoryCanonical (s.launchRec d r) := by
  unfold State.launchRec
  extract_lets sl code
  split
  · exact oweStatus_canonical h
  · split
    · next he =>
        exact oweStatus_canonical (updGrid_canonical (submit_canonical h _ he))
    · exact oweStatus_canonical h

theorem forkPush_canonical {s : State} {r : Rec} {rev : Option Nat} {child : Bool} (h : MemoryCanonical s) :
    OnSome MemoryCanonical (s.forkPush r rev child) := by
  unfold State.forkPush
  extract_lets sl tc
  split
  · exact onSome_none
  · split
    · exact onSome_none
    · extract_lets s1 s2
      have hs1 : MemoryCanonical s1 := h
      have hs2 : MemoryCanonical s2 := hs1
      refine onSome_some ?_
      split
      · exact incCounter_canonical hs2
      · exact hs2

theorem forkRec_canonical {s : State} {d : Defer} {idx : Nat} {r : Rec} (h : MemoryCanonical s) :
    MemoryCanonical (s.forkRec d idx r) := by
  unfold State.forkRec
  extract_lets code
  split
  · exact oweStatus_canonical h
  · split
    · next he =>
        exact oweStatus_canonical (shareRev_canonical (forkPush_canonical h _ he))
    · exact oweStatus_canonical h

theorem makeRevision_canonical {s : State} {d : Defer} {idx : Nat} {l : RevList} (h : MemoryCanonical s) :
    MemoryCanonical (s.makeRevision d idx l).2 := by
  unfold State.makeRevision
  split
  next hd =>
  extract_lets sl y s2 s3
  have hs1 := snd_canonical hd (draw_canonical h)
  have hs2 : MemoryCanonical s2 := updRev_canonical hs1
  exact foldl_keeps (junctionPut_canonical (syncHeader_canonical hs2)) fun _ _ ht => junctionPut_canonical ht

theorem forkRevRec_canonical {s : State} {d : Defer} {idx : Nat} {rc lc : CapReg} {r : Rec} {l : Option RevList}
    (h : MemoryCanonical s) :
    OnOk MemoryCanonical (s.forkRevRec d idx rc lc r l) := by
  unfold State.forkRevRec
  extract_lets code lines
  split
  · exact onOk_ok (oweStatus_canonical h)
  · split
    · exact onOk_ok (oweStatus_canonical h)
    · split
      · exact onOk_ok (oweStatus_canonical h)
      · split
        · exact onOk_error
        · split
          · next he =>
              split
              · next he1 =>
                  exact onOk_ok (oweStatus_canonical
                    (forkPush_canonical (snd_canonical he (makeRevision_canonical h)) _ he1))
              · exact onOk_ok (oweStatus_canonical h)

theorem applyBasin_canonical {s : State} {o : BasinOp} {h : Hold} {f : State → Line → State}
    (hm : MemoryCanonical s) (hf : ∀ t a, MemoryCanonical t → MemoryCanonical (f t a)) :
    OnApplied (s.applyBasin o h f) := by
  unfold State.applyBasin
  extract_lets e go arrive
  have hgo : ∀ t a, MemoryCanonical t → OnApplied (go t a) := fun _ _ ht => by
    unfold go
    split
    · exact ht
    · split
      · exact ht
      · exact ht
      · next he =>
          exact hf _ _ (registerBasin_canonical (basinTry_canonical ht _ he _ rfl))
  have harrive : ∀ t, MemoryCanonical t → OnApplied (arrive t) := fun _ ht => by
    unfold arrive
    split
    · next he1 =>
        exact hgo _ _ (updSl_canonical (snd_canonical he1 (draw_canonical ht)))
  split
  · exact hgo _ _ hm
  · split
    · exact whenReleased_canonical hm (fun _ ht2 => harrive _ ht2)
    · exact harrive _ hm

theorem applyDefer_canonical {s : State} {d : Defer} {h : Hold} (hm : MemoryCanonical s) :
    OnApplied (s.applyDefer d h) := by
  unfold State.applyDefer
  extract_lets w c
  split
  · split
    · exact hm
    · split
      · next he =>
          exact oweApplied_canonical (performMem_canonical hm _ he)
      · split
        · exact hm
        · exact oweApplied_canonical hm
  · refine whenFree_canonical hm (fun _ ht1 => ?_)
    split
    · exact ht1
    · split
      · exact ht1
      · next he1 =>
          exact performed_canonical (writeView_canonical (touchPage_canonical ht1) _ he1)
  · extract_lets go
    have hgo : ∀ t, MemoryCanonical t → OnApplied (go t) := fun _ ht => by
      refine whenFree_canonical ht (fun _ ht2 => ?_)
      split
      · next he2 =>
          exact applySluice_canonical ht2 _ he2
      · exact ht2
    split
    · exact whenReleased_canonical hm (fun _ ht2 => hgo _ ht2)
    · exact hgo _ hm
  · split
    · exact hm
    · split
      · exact hm
      · refine whenReleased_canonical hm (fun _ ht3 => whenFree_canonical ht3 (fun _ ht4 => ?_))
        split
        · next he3 =>
            exact updMyCore_canonical (applySluice_canonical ht4 _ he3)
        · exact ht4
  · refine whenReleased_canonical hm (fun _ ht1 => ?_)
    split
    · split
      · exact ht1
      · exact decCounter_canonical ht1
    · exact ht1
  · refine whenReleased_canonical hm (fun _ ht1 => whenReadable_canonical ht1 (fun _ ht2 => ?_))
    split
    · exact ht2
    · next he4 =>
        exact spawnRec_canonical (readRec_canonical ht2 _ he4)
  · refine whenReleased_canonical hm (fun _ ht1 => whenReadable_canonical ht1 (fun _ ht2 => ?_))
    split
    · exact ht2
    · next he4 =>
        exact launchRec_canonical (readRec_canonical ht2 _ he4)
  · refine whenReleased_canonical hm (fun _ ht1 => whenReadable_canonical ht1 (fun _ ht2 => ?_))
    split
    · exact ht2
    · next he4 =>
        exact forkRec_canonical (readRec_canonical ht2 _ he4)
  · refine whenReleased_canonical hm (fun _ ht1 => whenReadable_canonical ht1 (fun _ ht2 => ?_))
    split
    · exact ht2
    · next he4 =>
        split
        · exact ht2
        · next he =>
            split
            · next he3 =>
                exact forkRevRec_canonical (readList_canonical (readRec_canonical ht2 _ he4) _ he) _ he3
            · exact readList_canonical (readRec_canonical ht2 _ he4) _ he
  · exact applyBasin_canonical hm (fun _ _ ht1 => ht1)
  · exact applyBasin_canonical hm (fun _ _ ht1 => oweApplied_canonical ht1)

theorem deferOrAct_canonical {s : State} {g : Ctl} {op : DeferOp} {dest : Option RegRef} {df : Nat} {h : Hold}
    (hm : MemoryCanonical s) :
    MemoryCanonical (s.deferOrAct g op dest df h) := by
  unfold State.deferOrAct
  split
  · exact defer_canonical hm
  · split
    · next he =>
        exact done_canonical (onApplied_of_eq he (applyDefer_canonical hm))
    · next he1 =>
        split
        · exact holdTimed_canonical (onApplied_of_eq he1 (applyDefer_canonical hm))
        · exact hold_canonical (onApplied_of_eq he1 (applyDefer_canonical hm))
    · next he2 =>
        exact faultNow_canonical (onApplied_of_eq he2 (applyDefer_canonical hm))

theorem rdecWith_canonical {g : Ctl} {m : MemReg} {n : Nat} {s : State} (h : MemoryCanonical s) :
    OnNext (rdecWith g m n s) := guarded_canonical h (orFault_canonical h (fun _ => deferOrAct_canonical h))

theorem forkIssue_canonical {s : State} {g : Ctl} {d : XReg} {rc : CapReg} {revs : Option CapReg}
    (h : MemoryCanonical s) :
    MemoryCanonical (s.forkIssue g d rc revs) := by
  unfold State.forkIssue
  extract_lets op took e
  have htook : ∀ t, MemoryCanonical t → MemoryCanonical (took t) := fun _ ht => ht
  split
  · split
    · exact faultNow_canonical h
    · exact defer_canonical (htook _ h)
  · split
    · next he =>
        exact done_canonical (htook _ (onApplied_of_eq he (applyDefer_canonical h)))
    · next he1 =>
        exact hold_canonical (onApplied_of_eq he1 (applyDefer_canonical h))
    · next he2 =>
        exact faultNow_canonical (onApplied_of_eq he2 (applyDefer_canonical h))

theorem basinIssue_canonical {s : State} {g : Ctl} {o : BasinOp} {op : DeferOp} {dest : Option RegRef} {k : Coords}
    (h : MemoryCanonical s) :
    MemoryCanonical (s.basinIssue g o op dest k) := orFault_canonical h (fun _ => deferOrAct_canonical h)

theorem pushWith_canonical {g : Ctl} {cls d : Nat} {m : MemOp} {v : Line} {s : State} (h : MemoryCanonical s) :
    OnNext (pushWith g cls d m v s) := guarded_canonical h (basinIssue_canonical h)

theorem popWith_canonical {g : Ctl} {r : RegRef} {cls d : Nat} {vec : Bool} {m : MemOp} {s : State}
    (h : MemoryCanonical s) :
    OnNext (popWith g r cls d vec m s) := guarded_canonical h (basinIssue_canonical h)

theorem markCommit_canonical {s : State} (h : MemoryCanonical s) :
    MemoryCanonical s.markCommit := by
  unfold State.markCommit
  split
  · exact h
  · extract_lets sl
    exact h

theorem headApplied_canonical {s : State} (h : MemoryCanonical s) :
    MemoryCanonical s.headApplied := h

theorem runCommit_canonical {s : State} {k : State → State}
    (h : MemoryCanonical s) (hk : ∀ t, MemoryCanonical t → MemoryCanonical (k t)) :
    MemoryCanonical (s.runCommit k) := by
  unfold State.runCommit
  split
  · exact hk _ h
  · split
    · next he =>
        split
        · exact hk _ (headApplied_canonical (onApplied_of_eq he (applyDefer_canonical h)))
        · exact headApplied_canonical (onApplied_of_eq he (applyDefer_canonical h))
    · next he1 =>
        split
        · exact holdTimed_canonical (onApplied_of_eq he1 (applyDefer_canonical h))
        · exact hold_canonical (onApplied_of_eq he1 (applyDefer_canonical h))
    · next he2 =>
        exact raise_canonical (onApplied_of_eq he2 (applyDefer_canonical h))

theorem execCommit_canonical {g : Ctl} {s : State} (h : MemoryCanonical s) :
    OnNext (execCommit g s) := by
  unfold execCommit
  refine onNext_next ?_
  split
  · exact done_canonical h
  · exact runCommit_canonical (markCommit_canonical h) (fun _ ht => done_canonical ht)

theorem finish_canonical {s : State} (h : MemoryCanonical s) :
    MemoryCanonical s.finish := by
  unfold State.finish
  split
  next he =>
  split
  · exact parkFirst_canonical h
  · split
    · exact endPark_canonical h
    · split
      · refine hold_canonical (snd_canonical he ?_)
        split
        · exact h
        · exact draw_canonical h
      · exact endActivation_canonical h

theorem execRetire_canonical {_g : Ctl} {s : State} (h : MemoryCanonical s) :
    OnNext (execRetire _g s) := by
  unfold execRetire
  refine onNext_next ?_
  split
  · exact finish_canonical h
  · exact runCommit_canonical (markCommit_canonical h) (fun _ ht => finish_canonical ht)

theorem execBasinHeldOperation_canonical {core slot : Nat} {s : State} (h : MemoryCanonical s) :
    OnNext (execBasinHeldOperation core slot s) := by
  unfold execBasinHeldOperation
  extract_lets key sl s1 back
  have hs1 : MemoryCanonical s1 := h
  have hback : ∀ t, MemoryCanonical t → MemoryCanonical (back t) := fun _ ht => ht
  split
  · exact onNext_next h
  · split
    · extract_lets dest op
      split
      · next he =>
          exact onNext_next (hback _ (done_canonical (onApplied_of_eq he (applyDefer_canonical hs1))))
      · exact onNext_next h
      · next he1 =>
          exact onNext_next (hback _ (faultNow_canonical (onApplied_of_eq he1 (applyDefer_canonical hs1))))
    · split
      · exact onNext_next h
      · split
        · next he2 =>
            exact onNext_next (hback _ (headApplied_canonical (onApplied_of_eq he2 (applyDefer_canonical hs1))))
        · exact onNext_next h
        · next he3 =>
            exact onNext_next (hback _ (raise_canonical (onApplied_of_eq he3 (applyDefer_canonical hs1))))
    · exact onNext_next h

theorem callInto_canonical {s : State} {g : Ctl} {a b : CapReg} (h : MemoryCanonical s) :
    MemoryCanonical (s.callInto g a b) := by
  unfold State.callInto
  split
  · exact faultNow_canonical h
  · exact jump_canonical h

theorem execCcall_canonical {g : Ctl} {a b : CReg} {s : State} (h : MemoryCanonical s) :
    OnNext (execCcall g a b s) := by
  unfold execCcall
  refine guarded_canonical h ?_
  split
  · exact callInto_canonical h
  · split
    · exact faultNow_canonical h
    · split
      · exact parkFirst_canonical h
      · exact callInto_canonical h

theorem execCret_canonical {g : Ctl} {s : State} (h : MemoryCanonical s) :
    OnNext (execCret g s) := by
  unfold execCret
  refine onNext_next ?_
  split
  · exact faultNow_canonical h
  · split
    · exact parkFirst_canonical h
    · exact jump_canonical h

theorem restored_canonical {s : State} {t : TrapState} (h : MemoryCanonical s) :
    MemoryCanonical (s.restored t) := by
  unfold State.restored
  extract_lets fr
  exact h

theorem badFrame_canonical {s : State} (h : MemoryCanonical s) :
    MemoryCanonical s.badFrame := h

theorem tretWith_canonical {s : State} {f : TrapState → State}
    (h : MemoryCanonical s) (hf : ∀ a, MemoryCanonical (f a)) :
    OnNext (tretWith s f) := by
  unfold tretWith
  refine onNext_next ?_
  split
  · split
    · exact hold_canonical h
    · split
      · exact hf _
      · exact badFrame_canonical h
  · exact faultNow_canonical h

theorem oweAgain_canonical {s : State} {o : Owed} {f : Flight} {r : Option Res} (h : MemoryCanonical s) :
    MemoryCanonical (s.oweAgain o f r) := by
  unfold State.oweAgain
  extract_lets t
  have ht : MemoryCanonical t := h
  split
  · exact ht
  · exact parkIfOwing_canonical ht

theorem bargeAgain_canonical {s : State} {o : Owed} {w : BargeWork} (h : MemoryCanonical s) :
    MemoryCanonical (s.bargeAgain o w) := by
  unfold State.bargeAgain
  extract_lets n
  split
  · exact oweAgain_canonical h
  · extract_lets op s1 s2
    have hs1 : MemoryCanonical s1 := h
    have hs2 : MemoryCanonical s2 := by
      unfold s2
      split <;> exact hs1
    exact oweAgain_canonical hs2

theorem resumeCarried_canonical {s : State} {g : Ctl} {t : TrapState} (h : MemoryCanonical s) :
    MemoryCanonical (s.resumeCarried g t) := by
  unfold State.resumeCarried
  split
  · exact issued_canonical (restored_canonical h)
  · split
    · split
      · exact hold_canonical h
      · exact bargeAgain_canonical (issued_canonical (restored_canonical h))
    · exact oweAgain_canonical (issued_canonical (restored_canonical h))

theorem execTretResume_canonical {g : Ctl} {s : State} (h : MemoryCanonical s) :
    OnNext (execTretResume g s) := by
  unfold execTretResume
  refine tretWith_canonical h (fun _ => ?_)
  split
  · exact resumeCarried_canonical h
  · exact issued_canonical (restored_canonical h)

theorem execTretSkip_canonical {g : Ctl} {s : State} (h : MemoryCanonical s) :
    OnNext (execTretSkip g s) := by
  unfold execTretSkip
  refine tretWith_canonical h (fun _ => ?_)
  extract_lets r
  have hr : MemoryCanonical r := restored_canonical h
  refine issued_canonical ?_
  split <;> exact hr

theorem execTretEnd_canonical {_g : Ctl} {s : State} (h : MemoryCanonical s) :
    OnNext (execTretEnd _g s) := by
  unfold execTretEnd
  refine onNext_next ?_
  split
  · exact finish_canonical h
  · exact faultNow_canonical h

end Sys2Proof.Machine
end

section
/-!
Merges, publication, fetches and trap returns (R220, R235, R272 … R275, R354 … R361) keep memory in canonical form.
-/

namespace Sys2Proof.Machine
open Sys2Proof.Safety

theorem mergeTarget_canonical {s : State} {w : Who} {p : Place} {l : Nat} {l1 : Option Nat} (h : MemoryCanonical s) :
    MemoryCanonical (s.mergeTarget w p l l1).1 := by
  induction l generalizing s l1 with
  | zero => exact h
  | succ n ih =>
    cases l1 with
    | none => exact h
    | some t =>
      unfold State.mergeTarget
      extract_lets r wt
      split
      · exact ih h
      · split
        · exact h
        · split
          · exact addEntry_canonical h
          · exact ih (breakRev_canonical h)

theorem junctionReady_canonical {s : State} {w : Who} {p : Place} (h : MemoryCanonical s) :
    MemoryCanonical (s.junctionReady w p) := by
  unfold State.junctionReady
  extract_lets s1
  have hs1 : MemoryCanonical s1 := touchPage_canonical h
  split
  · exact outsideReady_canonical _ _ _ hs1
  · exact hs1

theorem spoil_canonical {s : State} {t : Option Nat} {p : Place} {nib bits : Nat} (h : MemoryCanonical s) :
    MemoryCanonical (s.spoil t p nib bits) := by
  unfold State.spoil
  extract_lets ns
  split
  · exact h
  · exact ⟨h.1, h.2.1, foldl_put_wf _ true ns h.2.2⟩

theorem mergeWrite_canonical {s : State} {y : Revision} {va nib bits v : Nat} {bad : Bool} (h : MemoryCanonical s) :
    MemoryCanonical (s.mergeWrite y va nib bits v bad) := by
  unfold State.mergeWrite
  extract_lets w
  split
  · exact h
  · extract_lets s0 cur err op
    have hs0 : MemoryCanonical s0 := junctionReady_canonical h
    split
    · exact h
    · split
      next he =>
      extract_lets s2 s3
      have hs2 : MemoryCanonical s2 := shareEntries_canonical (fst_canonical he (mergeTarget_canonical hs0))
      have hs3 : MemoryCanonical s3 := by
        unfold s3
        split
        · exact writeChild_canonical hs2
        · split
          · exact memWrite_canonical _ _ _ (updateRound_canonical (outsideReady_canonical _ _ _ hs2))
          · exact placeWrite_canonical hs2
      split
      · exact spoil_canonical hs3
      · exact hs3

theorem mergeLine_canonical {s : State} {y : Revision} {e : RevEntry} {fmt mt : Nat} (h : MemoryCanonical s) :
    MemoryCanonical (s.mergeLine y e fmt mt) := by
  unfold State.mergeLine
  extract_lets w sz el hit
  split
  · exact h
  · extract_lets s0 cur perr
    have hs0 : MemoryCanonical s0 := junctionReady_canonical h
    split
    · exact hs0
    · refine foldl_keeps hs0 (fun _ _ ht => ?_)
      split
      · exact ht
      · exact mergeWrite_canonical ht

theorem mergeAppend_canonical {s : State} {y : Nat} {r : Revision} {e : RevEntry} {c : CapF} (h : MemoryCanonical s) :
    MemoryCanonical (s.mergeAppend y r e c) := by
  unfold State.mergeAppend
  extract_lets w sz ac cc n wy
  split
  · extract_lets s0 cur pc cap m at_ s1 s2
    have hs0 : MemoryCanonical s0 := junctionReady_canonical h
    have hs1 : MemoryCanonical s1 := by
      refine foldl_keeps hs0 (fun _ _ ht2 => ?_)
      extract_lets a
      split
      · exact ht2
      · extract_lets t1
        have ht1 : MemoryCanonical t1 := junctionReady_canonical ht2
        exact mergeWrite_canonical ht1
    have hs2 : MemoryCanonical s2 := mergeWrite_canonical hs1
    split
    · exact hs0
    · split
      · exact mergeWrite_canonical hs2
      · exact hs2
  · exact h

theorem mergeEntries_canonical {s : State} {y : Nat} (h : MemoryCanonical s) :
    MemoryCanonical (s.mergeEntries y) := by
  unfold State.mergeEntries
  extract_lets r
  refine foldl_keeps h (fun _ _ ht => ?_)
  split
  · exact ht
  · split
    · split
      · exact mergeAppend_canonical ht
      · exact ht
    · exact mergeLine_canonical ht

theorem join_canonical {s : State} {y : Nat} (h : MemoryCanonical s) :
    MemoryCanonical (s.join y) := by
  unfold State.join
  dsimp only
  refine foldl_keeps (syncHeader_canonical (updRev_canonical ?_)) fun _ _ ht => decCounter_canonical ht
  split
  · exact report_canonical _ _ _ h
  · split
    · exact report_canonical _ _ _ h
    · exact mergeEntries_canonical h

theorem execJunctionMerge_canonical {rev : Nat} {s : State} (h : MemoryCanonical s) :
    OnNext (execJunctionMerge rev s) := by
  unfold execJunctionMerge
  refine onNext_next ?_
  split
  · exact join_canonical h
  · exact h

theorem execRevisionDiscardReset_canonical {rev : Nat} {s : State} (h : MemoryCanonical s) :
    OnNext (execRevisionDiscardReset rev s) := by
  unfold execRevisionDiscardReset
  split
  · exact onNext_next h
  · extract_lets s1
    have hs1 : MemoryCanonical s1 := h
    exact onNext_next (foldl_keeps hs1 (fun _ _ ht => syncEntry_canonical ht))

theorem execPublish_canonical {g : Ctl} {d a : CReg} {b : XReg} {s : State} (h : MemoryCanonical s) :
    OnNext (execPublish g d a b s) := by
  unfold execPublish
  refine guarded_canonical h ?_
  split
  · exact faultNow_canonical h
  · exact done_canonical (oweNow_canonical h)

theorem imageLines_canonical {s : State} {w : Who} {seq : Nat} {c : CapF} {l l1 : Nat} (h : MemoryCanonical s) :
    OnOk (fun x => MemoryCanonical x.1) (s.imageLines w seq c l l1) := by
  induction l1 generalizing s l with
  | zero => exact onOk_ok h
  | succ n ih =>
    unfold State.imageLines
    split
    · exact onOk_error
    · next s1 v p hr =>
      have hs1 : MemoryCanonical s1 := readElem_canonical h _ hr
      split
      · exact onOk_error
      · next ht =>
        have hs2 := ih hs1 _ ht
        exact onOk_ok hs2

theorem makeObject_canonical {s : State} {w : Who} {cmpt base : Nat} {l : Line} {es ls : List Line}
    (h : MemoryCanonical s) :
    MemoryCanonical (s.makeObject w cmpt base l es ls).1 :=
  updWorld_canonical (foldl_keeps h fun _ _ ht => ht)

theorem doPublish_canonical {s : State} {key seq : Nat} {c : CapReg} {len : Nat} (h : MemoryCanonical s) :
    OnSome (fun x => MemoryCanonical x.1) (s.doPublish key seq c len) := by
  unfold State.doPublish
  extract_lets w sl f
  split
  · exact onSome_some h
  · split
    · exact onSome_none
    · split
      · exact onSome_some h
      · next he =>
          extract_lets hdr
          split
          · exact onSome_some (imageLines_canonical h _ he)
          · exact onSome_some (imageLines_canonical h _ he)
          · split
            · exact onSome_none
            · split
              · next he1 =>
                  exact onSome_some (fst_canonical he1 (makeObject_canonical (imageLines_canonical h _ he)))

theorem markEntries_canonical {s : State} {l : List Nat} (h : MemoryCanonical s) :
    MemoryCanonical (s.markEntries l) := foldl_keeps h (fun _ _ ht => markAccessed_canonical ht)

theorem markWalks_canonical {s : State} {l : List CodeWord} (h : MemoryCanonical s) :
    MemoryCanonical (s.markWalks l) := markEntries_canonical h

theorem fetchDone_canonical {s : State} {key : Nat} {l : List CodeWord} (h : MemoryCanonical s) :
    MemoryCanonical (s.fetchDone key l) := updCore_canonical _ _ _ (markWalks_canonical h)

theorem dropCode_canonical {s : State} {frame : Nat} (h : MemoryCanonical s) :
    MemoryCanonical (s.dropCode frame) := by
  unfold State.dropCode
  refine foldl_keeps h (fun _ _ ht => ?_)
  split <;> exact ht

theorem execFetchComplete_canonical {core slot : Nat} {s : State} (h : MemoryCanonical s) :
    OnNext (execFetchComplete core slot s) := by
  unfold execFetchComplete
  extract_lets key sl
  refine onNext_next ?_
  split <;> exact h

theorem quarantine_canonical {s : State} {world obj page : Nat} (h : MemoryCanonical s) :
    MemoryCanonical (s.quarantine world obj page) := report_canonical _ _ _ h

theorem markVerified_canonical {s : State} {world obj page : Nat} {frames : List Nat} (h : MemoryCanonical s) :
    MemoryCanonical (s.markVerified world obj page frames) := by
  unfold State.markVerified
  extract_lets s1
  have hs1 : MemoryCanonical s1 := foldl_keeps h (fun _ _ ht => ht)
  exact hs1

theorem execPageVerification_canonical {world obj page : Nat} {s : State} (h : MemoryCanonical s) :
    OnNext (execPageVerification world obj page s) := by
  unfold execPageVerification
  extract_lets o
  split
  · exact onNext_next h
  · split
    · exact onNext_next h
    · split
      · exact onNext_next h
      · extract_lets frames s1
        have hs1 : MemoryCanonical s1 := markWalks_canonical h
        split
        · exact onNext_next h
        · refine onNext_next ?_
          split
          · exact markVerified_canonical hs1
          · exact quarantine_canonical hs1

theorem execSysrd_canonical {g : Ctl} {d : XReg} {r : SReg} {s : State} (h : MemoryCanonical s) :
    OnNext (execSysrd g d r s) := by
  unfold execSysrd
  refine guarded_canonical h ?_
  split
  · exact faultNow_canonical h
  · exact done_canonical h

theorem writeSreg_canonical {s : State} {r : WReg} {v : Word} (h : MemoryCanonical s) :
    OnSome MemoryCanonical (s.writeSreg r v) := by
  unfold State.writeSreg
  split
  · intro u hu
    obtain ⟨w, -, rfl⟩ := Option.map_eq_some_iff.mp hu
    exact h
  · exact onSome_some h
  · exact onSome_some h
  · split
    · exact onSome_some h
    · exact onSome_none
  · split
    · exact onSome_some h
    · exact onSome_none
  · split
    · exact onSome_none
    · exact onSome_some h

theorem syswrWith_canonical {g : Ctl} {r : WReg} {v : Word} {s : State} (h : MemoryCanonical s) :
    OnNext (syswrWith g r v s) := by
  unfold syswrWith
  refine guarded_canonical h ?_
  split
  · exact faultNow_canonical h
  · split
    · next he =>
        exact done_canonical (writeSreg_canonical h _ he)
    · exact faultNow_canonical h

theorem ctrWith_canonical {g : Ctl} {r : RegRef} {cls d : Nat} {vec : Bool} {a : XReg} {s : State}
    (h : MemoryCanonical s) :
    OnNext (ctrWith g r cls d vec a s) := by
  unfold ctrWith
  refine guarded_canonical h ?_
  extract_lets v kind unit n f
  split
  · exact faultNow_canonical h
  · exact done_canonical (oweNow_canonical h)

theorem execCounterRefresh_canonical {world : Nat} {s : State} (h : MemoryCanonical s) :
    OnNext (execCounterRefresh world s) := by
  unfold execCounterRefresh
  extract_lets w keys
  split
  · exact onNext_next h
  · extract_lets n
    split <;> exact onNext_next h

theorem returnMem_canonical {s : State} {key idx : Nat} {o : Owed} (h : MemoryCanonical s) :
    MemoryCanonical (s.returnMem key idx o) := by
  unfold State.returnMem
  split
  · split
    · next he =>
        exact updSlot_canonical _ _ _ (performMem_canonical h _ he)
    · exact h
  · exact h

theorem returnVload_canonical {s : State} {key idx : Nat} {o : Owed} {wd : Nat} {all es : List (Nat × Elem)}
    {got : List (Nat × Nat)} {bad : Option FaultInfo} {again : Bool} (h : MemoryCanonical s) :
    MemoryCanonical (s.returnVload key idx o wd all es got bad again) := by
  unfold State.returnVload
  split
  · exact h
  · split
    · exact h
    · next he =>
        exact updSlot_canonical _ _ _ (vloadStep_canonical h _ he)
    · next he1 =>
        exact updSlot_canonical _ _ _ (vloadStep_canonical h _ he1)
    · next he2 =>
        exact updSlot_canonical _ _ _ (vloadStep_canonical h _ he2)

theorem returnOwed_canonical {s : State} {key idx : Nat} {o : Owed} (h : MemoryCanonical s) :
    MemoryCanonical (s.returnOwed key idx o) := by
  unfold State.returnOwed
  split
  · exact h
  · exact h
  · split
    · next he =>
        exact updSlot_canonical _ _ _ (doPublish_canonical h _ he)
    · exact h
  · exact returnMem_canonical h
  · exact returnVload_canonical h
  · exact returnMem_canonical h
  · exact returnMem_canonical h
  · exact returnMem_canonical h
  · exact returnMem_canonical h
  · exact returnMem_canonical h
  · exact returnMem_canonical h
  all_goals exact h

theorem valueNow_canonical {s : State} {core slot idx : Nat} (h : MemoryCanonical s) :
    MemoryCanonical (s.valueNow core slot idx) := by
  unfold State.valueNow
  extract_lets key
  split
  · split
    · exact returnOwed_canonical h
    · exact h
  · exact h

theorem execParkEnd_canonical {core slot : Nat} {s : State} (h : MemoryCanonical s) :
    OnNext (execParkEnd core slot s) := by
  unfold execParkEnd
  extract_lets key sl
  refine onNext_next ?_
  split
  · exact endPark_canonical h
  · exact h

end Sys2Proof.Machine
end

section
/-!
The scheduler, grids and swaps (R237 … R266) keep memory in canonical form.
-/

namespace Sys2Proof.Machine
open Sys2Proof.Safety

theorem tick_canonical {s : State} {core : Nat} (h : MemoryCanonical s) :
    MemoryCanonical (s.tick core) := by
  unfold State.tick
  extract_lets t base
  have hbase : MemoryCanonical base := h
  exact hbase

theorem execIssueSlotChoice_canonical {core : Nat} {s : State} (h : MemoryCanonical s) :
    OnNext (execIssueSlotChoice core s) := by
  unfold execIssueSlotChoice
  extract_lets c s1
  have hs1 : MemoryCanonical s1 := tick_canonical h
  split
  · exact onNext_next hs1
  · split <;> exact onNext_next hs1

theorem execTrapEntry_canonical {core slot : Nat} {s : State} (h : MemoryCanonical s) :
    OnNext (execTrapEntry core slot s) := by
  unfold execTrapEntry
  extract_lets key sl base s1
  have hs1 : MemoryCanonical s1 := h
  split
  · split
    · exact onNext_next h
    · split <;> exact onNext_next (deliver_canonical hs1)
  · exact onNext_next h

theorem execTerminalFault_canonical {core slot : Nat} {s : State} (h : MemoryCanonical s) :
    OnNext (execTerminalFault core slot s) := by
  unfold execTerminalFault
  extract_lets key
  split
  · refine onNext_next ?_
    split
    · exact endTerminal_canonical h
    · exact h
  · exact onNext_next h

theorem countUnderWay_canonical {s : State} {key : Nat} (h : MemoryCanonical s) :
    MemoryCanonical (s.countUnderWay key) := by
  unfold State.countUnderWay
  split <;> exact h

theorem execCommitWindowExpiry_canonical {core slot : Nat} {s : State} (h : MemoryCanonical s) :
    OnNext (execCommitWindowExpiry core slot s) := by
  unfold execCommitWindowExpiry
  extract_lets key sl stays at_ base
  split
  · exact onNext_next h
  · exact onNext_next (updSlot_canonical _ _ _ (countUnderWay_canonical h))

theorem asSlot_canonical {s : State} {key : Nat} {f : State → State}
    (h : MemoryCanonical s) (hf : ∀ t, MemoryCanonical t → MemoryCanonical (f t)) :
    MemoryCanonical (s.asSlot key f) := by
  unfold State.asSlot
  extract_lets base
  have hbase : MemoryCanonical base := hf _ h
  exact hbase

theorem timeOut_canonical {s : State} {key : Nat} {e : Option Elem} (h : MemoryCanonical s) :
    MemoryCanonical (s.timeOut key e) := by
  unfold State.timeOut
  extract_lets f
  exact asSlot_canonical (dropRounds_canonical h) (fun _ ht => faultNow_canonical ht)

theorem execWaitTimerExpiry_canonical {core slot : Nat} {s : State} (h : MemoryCanonical s) :
    OnNext (execWaitTimerExpiry core slot s) := by
  unfold execWaitTimerExpiry
  extract_lets key sl
  split
  · exact onNext_next h
  · split
    · exact onNext_next h
    · split
      · exact onNext_next (timeOut_canonical h)
      · exact onNext_next (timeOut_canonical h)
      · exact onNext_next (timeOut_canonical h)
      · split
        · split
          · exact onNext_next (asSlot_canonical h (fun _ ht => raise_canonical ht))
          · exact onNext_next h
        · exact onNext_next h
      · exact onNext_next h

theorem requestPreempt_canonical {s : State} {key : Nat} (h : MemoryCanonical s) :
    MemoryCanonical (s.requestPreempt key) := h

theorem flushOut_canonical {s : State} {key : Nat} {o : Out} (h : MemoryCanonical s) :
    MemoryCanonical (s.flushOut key o) := by
  unfold State.flushOut
  extract_lets lk commitHere
  have hcommitHere : ∀ t, MemoryCanonical t → MemoryCanonical (commitHere t) := fun _ ht => by
    unfold commitHere
    split
    · exact commitWrite_canonical ht
    · exact ht
  split
  · split
    · exact applyOut_canonical h
    · exact hcommitHere _ (sendOut_canonical (hcommitHere _ h))
  · split
    · exact hcommitHere _ h
    · exact h

theorem flushOuts_canonical {s : State} {key : Nat} (h : MemoryCanonical s) :
    MemoryCanonical (s.flushOuts key) := foldl_keeps h (fun _ _ ht => flushOut_canonical ht)

theorem discard_canonical {s : State} {key : Nat} (h : MemoryCanonical s) :
    MemoryCanonical (s.discard key) := by
  unfold State.discard
  extract_lets sl s1 s2 s3
  have hs1 : MemoryCanonical s1 :=
    dropRounds_canonical (updCore_canonical _ _ _ (flushOuts_canonical (countUnderWay_canonical h)))
  have hs2 : MemoryCanonical s2 := hs1
  have hs3 : MemoryCanonical s3 := by
    unfold s3
    split <;> exact hs2
  exact setSlot_canonical (note_canonical hs3)

theorem execActivationDiscard_canonical {core slot : Nat} {s : State} (h : MemoryCanonical s) :
    OnNext (execActivationDiscard core slot s) := by
  unfold execActivationDiscard
  extract_lets key sl
  refine onNext_next ?_
  split
  · exact discard_canonical h
  · exact h

theorem rerouted_canonical {s : State} {t c k : Nat} (h : MemoryCanonical s) :
    OnSome MemoryCanonical (s.rerouted t c k) := by
  unfold State.rerouted
  extract_lets tc
  exact placeReady_canonical h

theorem reroute_canonical {s : State} {t c k : Nat} (h : MemoryCanonical s) :
    MemoryCanonical (s.reroute t c k) := getD_canonical (rerouted_canonical h) h

theorem moveStray_canonical {s : State} {t c : Nat} (h : MemoryCanonical s) :
    OnSome MemoryCanonical (s.moveStray t c) := onSome_findSome fun _ => rerouted_canonical h

theorem loseRecord_canonical {s : State} {t c k : Nat} (h : MemoryCanonical s) :
    MemoryCanonical (s.loseRecord t c k) := by
  unfold State.loseRecord
  extract_lets g e base s1 s2
  have hs1 : MemoryCanonical s1 := updTC_canonical (report_canonical _ _ _ h)
  have hs2 : MemoryCanonical s2 := joinDone_canonical hs1
  split
  · exact leaveRev_canonical hs2
  · exact hs2

theorem loseRecords_canonical {s : State} {t c : Nat} (h : MemoryCanonical s) :
    MemoryCanonical (s.loseRecords t c) := by
  unfold State.loseRecords
  extract_lets s1
  have hs1 : MemoryCanonical s1 := foldl_keeps h (fun _ _ ht => loseRecord_canonical ht)
  exact hs1

theorem checkTerminal_canonical {s : State} {key : Nat} (h : MemoryCanonical s) :
    MemoryCanonical (s.checkTerminal key) := updSlot_canonical _ _ _ (countUnderWay_canonical h)

theorem machineCheck_canonical {s : State} {core : Nat} {lost : Bool} (h : MemoryCanonical s) :
    MemoryCanonical (s.machineCheck core lost) := by
  unfold State.machineCheck
  split
  · exact h
  · extract_lets s1 s2 c
    have hs1 : MemoryCanonical s1 := by
      refine foldl_keeps h (fun _ _ ht2 => ?_)
      split
      · exact discard_canonical ht2
      · exact checkTerminal_canonical ht2
    have hs2 : MemoryCanonical s2 := hs1
    split
    · exact hs2
    · extract_lets tc
      split
      · exact loseRecords_canonical hs2
      · exact foldl_keeps hs2 (fun _ _ ht3 => reroute_canonical ht3)

theorem makeTeams_canonical {s : State} {g cores : Nat} {l : List Nat} (h : MemoryCanonical s) :
    MemoryCanonical (s.makeTeams g cores l) := by
  induction l generalizing s with
  | nil => exact h
  | cons i is ih =>
    unfold State.makeTeams
    split
    next he =>
    exact ih (updGrid_canonical (updTeam_canonical (snd_canonical he (draw_canonical h))))

theorem schedTouch_canonical {s : State} {w : Who} {va : Nat} (h : MemoryCanonical s) :
    MemoryCanonical (s.schedTouch w va) := by
  unfold State.schedTouch
  split
  · exact noteTouch_canonical h
  · exact h

theorem schedArrive_canonical {s : State} {g : Nat} (h : MemoryCanonical s) :
    MemoryCanonical (s.schedArrive g) := by
  unfold State.schedArrive
  extract_lets x w e
  split
  · exact h
  · extract_lets s0 s1 err cur s2 s3
    have hs0 : MemoryCanonical s0 := finishPend_canonical (schedTouch_canonical h)
    have hs1 : MemoryCanonical s1 := by
      unfold s1
      split
      · exact outsideReady_canonical _ _ _ hs0
      · exact hs0
    have hs2 : MemoryCanonical s2 := shareEntries_canonical hs1
    have hs3 : MemoryCanonical s3 := by
      unfold s3
      split
      · exact updateRound_canonical hs2
      · exact hs2
    split
    · exact h
    · exact memWrite_canonical _ _ _ hs3

theorem queueEntry_canonical {s : State} {part : Nat} {e : BitVec 128} (h : MemoryCanonical s) :
    MemoryCanonical (s.queueEntry part e) := h

theorem flushStash_canonical {s : State} {core : Nat} {sel : StashLine → Bool} (h : MemoryCanonical s) :
    MemoryCanonical (s.flushStash core sel) := foldl_keeps (dropStash_canonical h) (fun _ _ ht => ht)

theorem leaveCores_canonical {s : State} {t : Nat} (h : MemoryCanonical s) :
    MemoryCanonical (s.leaveCores t) := by
  unfold State.leaveCores
  extract_lets s1
  have hs1 : MemoryCanonical s1 := foldl_keeps h (fun _ _ ht => updCore_canonical _ _ _ (flushStash_canonical ht))
  exact hs1

theorem completeGrid_canonical {s : State} {g result : Nat} (h : MemoryCanonical s) :
    MemoryCanonical (s.completeGrid g result) := by
  unfold State.completeGrid
  extract_lets x s0 s1 s2 s3
  have hs0 : MemoryCanonical s0 := note_canonical h
  have hs1 : MemoryCanonical s1 := by
    unfold s1
    split
    · exact schedArrive_canonical hs0
    · exact hs0
  have hs2 : MemoryCanonical s2 := by
    unfold s2
    split
    · exact queueEntry_canonical hs1
    · exact hs1
  have hs3 : MemoryCanonical s3 := foldl_keeps hs2 (fun _ _ ht => updTeam_canonical (leaveCores_canonical ht))
  exact hs3

theorem failGrid_canonical {s : State} {g cause result : Nat} (h : MemoryCanonical s) :
    MemoryCanonical (s.failGrid g cause result) := by
  unfold State.failGrid
  extract_lets x base
  exact completeGrid_canonical (report_canonical _ _ _ h)

theorem takeLease_canonical {s : State} {g page : Nat} (h : MemoryCanonical s) :
    MemoryCanonical (s.takeLease g page) := by
  unfold State.takeLease
  extract_lets x
  split
  · exact updGrid_canonical (markAccessed_canonical h)
  · exact h

theorem post_canonical {s : State} {world page : Nat} (h : MemoryCanonical s) :
    MemoryCanonical (s.post world page) := note_canonical h

theorem startGrid_canonical {s : State} {g : Nat} (h : MemoryCanonical s) :
    MemoryCanonical (s.startGrid g) := by
  unfold State.startGrid
  extract_lets x cores s1
  have hs1 : MemoryCanonical s1 := foldl_keeps h (fun _ _ ht => takeLease_canonical ht)
  exact makeTeams_canonical hs1

theorem awaitPages_canonical {s : State} {g : Nat} (h : MemoryCanonical s) :
    MemoryCanonical (s.awaitPages g) := by
  unfold State.awaitPages
  extract_lets m
  split
  · exact startGrid_canonical h
  · exact foldl_keeps h (fun _ _ ht => post_canonical ht)

theorem takeGrid_canonical {s : State} {g : Nat} (h : MemoryCanonical s) :
    MemoryCanonical (s.takeGrid g) := by
  unfold State.takeGrid
  extract_lets x s1
  have hs1 : MemoryCanonical s1 := note_canonical h
  split
  · exact completeGrid_canonical hs1
  · split
    · exact failGrid_canonical hs1
    · split
      · exact failGrid_canonical hs1
      · split
        · exact failGrid_canonical hs1
        · exact awaitPages_canonical hs1

theorem execGridAdmission_canonical {p : Nat} {s : State} (h : MemoryCanonical s) :
    OnNext (execGridAdmission p s) := by
  unfold execGridAdmission
  split
  · exact onNext_next h
  · exact onNext_next (takeGrid_canonical h)

theorem replyTo_canonical {s : State} {g page : Nat} {nt : Bool} (h : MemoryCanonical s) :
    MemoryCanonical (s.replyTo g page nt) := by
  unfold State.replyTo
  split
  · split
    · exact h
    · split
      · exact failGrid_canonical h
      · extract_lets x m'
        split
        · exact post_canonical h
        · split
          · exact awaitPages_canonical h
          · exact h
  all_goals exact h

theorem kernelWrite_canonical {s : State} {p writer : Nat} {f : State}
    (h : MemoryCanonical s) (hf : MemoryCanonical f) :
    MemoryCanonical (s.kernelWrite p writer f) := by
  unfold State.kernelWrite
  split
  · exact hf
  · exact h

theorem writeResreply_canonical {s : State} {p writer val : Nat} (h : MemoryCanonical s) :
    MemoryCanonical (s.writeResreply p writer val) := by
  unfold State.writeResreply
  extract_lets page nt s1
  have hs1 : MemoryCanonical s1 := h
  exact kernelWrite_canonical h (foldl_keeps hs1 (fun _ _ ht => replyTo_canonical ht))

theorem takeRecord_canonical {s : State} {t c : Nat} {x : Take} (h : MemoryCanonical s) :
    MemoryCanonical (s.takeRecord t c x).1 := by
  unfold State.takeRecord
  extract_lets e
  split <;> exact h

theorem startNow_canonical {s : State} {core slot : Nat} (h : MemoryCanonical s) :
    MemoryCanonical (s.startNow core slot) := by
  unfold State.startNow
  split
  · exact h
  · extract_lets key tm c e base
    split
    · next he =>
        extract_lets sl s2
        have hs2 : MemoryCanonical s2 :=
          updGrid_canonical (updCore_canonical _ _ _ (setSlot_canonical (fst_canonical he (takeRecord_canonical h))))
        split
        · exact endTerminal_canonical hs2
        · exact hs2

theorem execActivationStart_canonical {core slot : Nat} {s : State} (h : MemoryCanonical s) :
    OnNext (execActivationStart core slot s) := by
  unfold execActivationStart
  split <;> exact onNext_next (startNow_canonical h)

theorem pushHeld_canonical {s : State} {t c n : Nat} (h : MemoryCanonical s) :
    MemoryCanonical (s.pushHeld t c n) := wake_canonical h

theorem placeFeed_canonical {s : State} {t c : Nat} (h : MemoryCanonical s) :
    MemoryCanonical (s.placeFeed t c) := by
  unfold State.placeFeed
  split
  · exact h
  · split
    · next he =>
        exact updTC_canonical (placeNew_canonical h _ he)
    · exact h

theorem placeStage_canonical {s : State} {t : Nat} (h : MemoryCanonical s) :
    OnSome MemoryCanonical (s.placeStage t) := by
  unfold State.placeStage
  extract_lets tm
  refine onSome_findSome fun q => ?_
  split
  · exact onSome_none
  · split
    · exact placeNew_canonical (updTeam_canonical h)
    · exact onSome_none

theorem execHeldRingPush_canonical {team tc : Nat} {s : State} (h : MemoryCanonical s) :
    OnNext (execHeldRingPush team tc s) := by
  unfold execHeldRingPush
  extract_lets t c
  split
  · exact onNext_next h
  · split
    · refine onNext_next ?_
      split
      · exact pushHeld_canonical h
      · exact h
    · refine onNext_next (getD_canonical (moveStray_canonical h) (getD_canonical (placeStage_canonical h) ?_))
      split
      · exact h
      · exact placeFeed_canonical h

theorem execHostFlushComplete_canonical {core slot : Nat} {s : State} (h : MemoryCanonical s) :
    OnNext (execHostFlushComplete core slot s) := by
  unfold execHostFlushComplete
  extract_lets g
  refine onNext_next ?_
  split
  · exact flushSlot_canonical h
  · split <;> exact h

theorem execGridCompletion_canonical {g : Nat} {s : State} (h : MemoryCanonical s) :
    OnNext (execGridCompletion g s) := by
  unfold execGridCompletion
  extract_lets x key
  refine onNext_next ?_
  split
  · exact h
  · split
    · exact completeGrid_canonical h
    · split
      · split
        · exact h
        · exact beginRound_canonical h
      · split
        · exact h
        · exact completeGrid_canonical (dropRounds_canonical h)

theorem readyCore_canonical {s : State} {t c core : Nat} (h : MemoryCanonical s) :
    MemoryCanonical (s.readyCore t c core) := updCore_canonical _ _ _ (zeroRange_canonical _ _ _ h)

theorem sweepSaved_canonical {s : State} {t : Nat} (h : MemoryCanonical s) :
    MemoryCanonical (s.sweepSaved t) := by
  unfold State.sweepSaved
  extract_lets tm g
  exact h

theorem placeTeam_canonical {s : State} {t : Nat} {rows : List Nat} (h : MemoryCanonical s) :
    MemoryCanonical (s.placeTeam t rows) := by
  unfold State.placeTeam
  extract_lets g s0 s1 cores s2 still
  have hs0 : MemoryCanonical s0 := by
    unfold s0
    split
    · exact sweepSaved_canonical h
    · exact h
  have hs1 : MemoryCanonical s1 := hs0
  have hs2 : MemoryCanonical s2 := foldl_keeps hs1 (fun _ _ ht => restoreCore_canonical _ _ _ _ (readyCore_canonical ht))
  exact note_canonical hs2

theorem tryPlace_canonical {s : State} {t : Nat} (h : MemoryCanonical s) :
    MemoryCanonical (s.tryPlace t) := by
  unfold State.tryPlace
  split
  · split
    · exact placeTeam_canonical h
    · exact h
  · exact h

theorem execTeamPlacement_canonical {team : Nat} {s : State} (h : MemoryCanonical s) :
    OnNext (execTeamPlacement team s) := by
  unfold execTeamPlacement
  refine onNext_next ?_
  split
  · exact h
  · exact tryPlace_canonical h

theorem execTeamSwapIn_canonical {team : Nat} {s : State} (h : MemoryCanonical s) :
    OnNext (execTeamSwapIn team s) := by
  unfold execTeamSwapIn
  refine onNext_next ?_
  split
  · exact tryPlace_canonical h
  · exact h

theorem execQuantumExpiry_canonical {team : Nat} {s : State} (h : MemoryCanonical s) :
    OnNext (execQuantumExpiry team s) := by
  unfold execQuantumExpiry
  extract_lets t
  split
  · split <;> exact onNext_next h
  all_goals exact onNext_next h

theorem execSwapGraceExpiry_canonical {team : Nat} {s : State} (h : MemoryCanonical s) :
    OnNext (execSwapGraceExpiry team s) := by
  unfold execSwapGraceExpiry
  split
  · split
    · exact onNext_next (foldl_keeps h (fun _ _ ht => requestPreempt_canonical ht))
    · exact onNext_next h
  all_goals exact onNext_next h

theorem execTeamSwapOut_canonical {team : Nat} {s : State} (h : MemoryCanonical s) :
    OnNext (execTeamSwapOut team s) := by
  unfold execTeamSwapOut
  extract_lets t named cores bytes tags errs
  split
  · split
    · exact onNext_next h
    · exact onNext_next (note_canonical (updTeam_canonical (leaveCores_canonical h)))
  all_goals exact onNext_next h

theorem rerouteStage_canonical {s : State} {t c st : Nat} (h : MemoryCanonical s) :
    MemoryCanonical (s.rerouteStage t c st) := foldl_keeps h (fun _ _ ht => reroute_canonical ht)

theorem moveRow_canonical {s : State} {t row from_ to_ : Nat} (h : MemoryCanonical s) :
    MemoryCanonical (s.moveRow t row from_ to_) := by
  unfold State.moveRow
  extract_lets now s1
  have hs1 : MemoryCanonical s1 := h
  exact note_canonical (foldl_keeps hs1 (fun _ _ ht => rerouteStage_canonical ht))

theorem execWeirRun_canonical {team : Nat} {s : State} (h : MemoryCanonical s) :
    OnNext (execWeirRun team s) := by
  unfold execWeirRun
  extract_lets t s1 ws
  have hs1 : MemoryCanonical s1 := h
  split
  · exact onNext_next h
  · split
    · split
      · exact onNext_next (moveRow_canonical hs1)
      · exact onNext_next hs1
    · exact onNext_next hs1

theorem execTlbRefill_canonical {cluster page : Nat} {s : State} (h : MemoryCanonical s) :
    OnNext (execTlbRefill cluster page s) := by
  unfold execTlbRefill
  extract_lets cores
  split
  · exact onNext_next h
  · extract_lets e s1
    have hs1 : MemoryCanonical s1 := h
    refine onNext_next (foldl_keeps hs1 (fun _ _ ht => ?_))
    split <;> exact ht

theorem writeInvctl_canonical {s : State} {p writer val : Nat} (h : MemoryCanonical s) :
    MemoryCanonical (s.writeInvctl p writer val) := by
  unfold State.writeInvctl
  refine kernelWrite_canonical h ?_
  split <;> exact h

theorem unverify_canonical {s : State} {world : Nat} {f : CodeObj → Nat → Bool} (h : MemoryCanonical s) :
    MemoryCanonical (s.unverify world f) := by
  unfold State.unverify
  extract_lets objs hit marks s1 gone
  have hs1 : MemoryCanonical s1 := h
  exact foldl_keeps hs1 (fun _ _ ht => dropCode_canonical ht)

theorem dropPages_canonical {s : State} {core : Nat} {f : Nat → Bool} (h : MemoryCanonical s) :
    MemoryCanonical (s.dropPages core f) := by
  unfold State.dropPages
  extract_lets pins s1
  have hs1 : MemoryCanonical s1 := foldl_keeps h (fun _ _ ht => ht)
  exact updCore_canonical _ _ _ (flushStash_canonical hs1)

theorem invalidate_canonical {s : State} {world : Nat} {f : Nat → Bool} (h : MemoryCanonical s) :
    MemoryCanonical (s.invalidate world f) := by
  unfold State.invalidate
  extract_lets cores s1 s2
  have hs1 : MemoryCanonical s1 := foldl_keeps h (fun _ _ ht => dropPages_canonical ht)
  have hs2 : MemoryCanonical s2 := hs1
  exact unverify_canonical hs2

theorem execInvalidationComplete_canonical {p : Nat} {s : State} (h : MemoryCanonical s) :
    OnNext (execInvalidationComplete p s) := by
  unfold execInvalidationComplete
  extract_lets x f stop
  have hstop : ∀ a t, MemoryCanonical t → MemoryCanonical (stop a t) := fun _ _ ht => ht
  split
  · exact onNext_next h
  · refine onNext_next ?_
    split
    · exact hstop _ _ h
    · exact hstop _ _ (invalidate_canonical h)

end Sys2Proof.Machine
end

section
/-!
Worlds, revocation, the control block, starts and ports (R338 … R376) keep memory in canonical form.
-/

namespace Sys2Proof.Machine
open Sys2Proof.Safety

theorem finishWrites_canonical {s : State} {f : Nat → Bool} (h : MemoryCanonical s) :
    MemoryCanonical (s.finishWrites f) := by
  unfold State.finishWrites
  refine foldl_keeps h (fun _ _ ht => ?_)
  extract_lets u
  have hu : MemoryCanonical u := by
    unfold u
    split
    · exact commitWrite_canonical ht
    · exact ht
  exact ackInvalidated_canonical _ _ hu

theorem dropCopies_canonical {s : State} {f : Nat → Bool} (h : MemoryCanonical s) :
    MemoryCanonical (s.dropCopies f) := by
  unfold State.dropCopies
  extract_lets s1 s2 s3
  have hs1 : MemoryCanonical s1 := finishWrites_canonical h
  have hs2 : MemoryCanonical s2 := by
    refine foldl_keeps hs1 (fun _ _ ht1 => ?_)
    extract_lets pins u
    have hu : MemoryCanonical u := foldl_keeps ht1 (fun _ _ ht3 => ht3)
    exact hu
  have hs3 : MemoryCanonical s3 := foldl_keeps hs2 (fun _ _ ht1 => ht1)
  exact hs3

theorem wipePartition_canonical {s : State} {n : Nat} (h : MemoryCanonical s) :
    MemoryCanonical (s.wipePartition n) := by
  unfold State.wipePartition
  extract_lets p cores mine s1 s2 s3 base s4 grids s5 mineRound base2
  have hs1 : MemoryCanonical s1 := h
  have hs2 : MemoryCanonical s2 := foldl_keeps hs1 (fun _ _ ht => zeroRange_canonical _ _ _ ht)
  have hs3 : MemoryCanonical s3 := foldl_keeps hs2 (fun _ _ ht => ht)
  have hs4 : MemoryCanonical s4 := foldl_keeps hs3 (fun _ _ ht => ht)
  have hs5 : MemoryCanonical s5 := foldl_keeps hs4 (fun _ _ ht => ht)
  exact hs5

theorem monitorWrite_canonical {s : State} {writer : Nat} {f : State}
    (h : MemoryCanonical s) (hf : MemoryCanonical f) :
    MemoryCanonical (s.monitorWrite writer f) := by
  unfold State.monitorWrite
  split
  · exact hf
  · exact h

theorem writePrst_canonical {s : State} {p writer val : Nat} (h : MemoryCanonical s) :
    MemoryCanonical (s.writePrst p writer val) := by
  unfold State.writePrst
  extract_lets x
  refine monitorWrite_canonical h ?_
  split
  · exact h
  · exact wipePartition_canonical h

theorem execPartitionResetDone_canonical {p : Nat} {badCores badSlices : List Nat} {s : State}
    (h : MemoryCanonical s) :
    OnNext (execPartitionResetDone p badCores badSlices s) := by
  unfold execPartitionResetDone
  extract_lets x cores slices s1 s2
  have hs1 : MemoryCanonical s1 := foldl_keeps h (fun _ _ ht => ht)
  have hs2 : MemoryCanonical s2 := foldl_keeps hs1 (fun _ _ ht => ht)
  split
  · exact onNext_next h
  · exact onNext_next hs2

theorem scrub_canonical {s : State} {chunk : Nat} (h : MemoryCanonical s) :
    MemoryCanonical (s.scrub chunk) := by
  unfold State.scrub
  extract_lets s1 marks
  have hs1 : MemoryCanonical s1 := zeroRange_canonical _ _ _ (dropCopies_canonical h)
  exact foldl_keeps hs1 (fun _ _ ht => unverify_canonical ht)

theorem execChunkOwnerChange_canonical {chunk world : Nat} {s : State} (h : MemoryCanonical s) :
    OnNext (execChunkOwnerChange chunk world s) := by
  unfold execChunkOwnerChange
  refine onNext_next ?_
  split
  · exact h
  · extract_lets s1
    have hs1 : MemoryCanonical s1 := scrub_canonical h
    exact hs1

theorem syncWorld_canonical {s : State} {world : Nat} (h : MemoryCanonical s) :
    MemoryCanonical (s.syncWorld world) := homePut_canonical _ _ _ h

theorem syncCmpt_canonical {s : State} {world n : Nat} (h : MemoryCanonical s) :
    MemoryCanonical (s.syncCmpt world n) := by
  unfold State.syncCmpt
  extract_lets w k
  exact putData_canonical _ _ _ (homeRound_canonical (outsideReady_canonical _ _ _ h))

theorem syncMask_canonical {s : State} {world : Nat} (h : MemoryCanonical s) :
    MemoryCanonical (s.syncMask world) := by
  unfold State.syncMask
  split
  · exact syncWorld_canonical h
  · exact h

theorem execPartitionOwnerChange_canonical {p entry : Nat} {s : State} (h : MemoryCanonical s) :
    OnNext (execPartitionOwnerChange p entry s) := by
  unfold execPartitionOwnerChange
  extract_lets x w
  split
  · exact onNext_next h
  · split
    · exact onNext_next (syncMask_canonical h)
    · split
      · exact onNext_next h
      · exact onNext_next (syncMask_canonical h)

theorem writeRoots_canonical {s : State} {addr logVa : Nat} (h : MemoryCanonical s) :
    MemoryCanonical (s.writeRoots addr logVa) := by
  unfold State.writeRoots
  extract_lets lines
  exact foldl_keeps h (fun _ _ ht => homePut_canonical _ _ _ ht)

theorem writeWorld_canonical {s : State} {world cfg : Nat} (h : MemoryCanonical s) :
    MemoryCanonical (s.writeWorld world cfg) := by
  unfold State.writeWorld
  extract_lets w s1 s2
  have hs1 : MemoryCanonical s1 := by
    unfold s1
    split
    · exact homePut_canonical _ _ _ h
    · exact h
  have hs2 : MemoryCanonical s2 := syncCmpt_canonical (zeroRange_canonical _ _ _ hs1)
  exact syncWorld_canonical (writeRoots_canonical hs2)

theorem execWorldCreate_canonical {world cfg : Nat} {policy : List Byte} {s : State} (h : MemoryCanonical s) :
    OnNext (execWorldCreate world cfg policy s) := by
  unfold execWorldCreate
  split
  · exact onNext_next h
  · exact onNext_next (writeWorld_canonical h)

theorem endWorld_canonical {s : State} {world : Nat} (h : MemoryCanonical s) :
    MemoryCanonical (s.endWorld world) := by
  unfold State.endWorld
  extract_lets s1
  have hs1 : MemoryCanonical s1 := by
    refine foldl_keeps (homePut_canonical _ _ _ (zeroRange_canonical _ _ _ h)) (fun _ _ ht => ?_)
    extract_lets u
    have hu : MemoryCanonical u := scrub_canonical ht
    exact hu
  exact hs1

theorem execWorldDestroy_canonical {world : Nat} {s : State} (h : MemoryCanonical s) :
    OnNext (execWorldDestroy world s) := by
  unfold execWorldDestroy
  split
  · exact onNext_next h
  · split
    · exact onNext_next (endWorld_canonical h)
    · exact onNext_next (updWorld_canonical (foldl_keeps h (fun _ _ ht => requestPreempt_canonical ht)))

theorem execCompartmentCreate_canonical {world cmpt entry : Nat} {priv : Bool} {s : State} (h : MemoryCanonical s) :
    OnNext (execCompartmentCreate world cmpt entry priv s) := by
  unfold execCompartmentCreate
  extract_lets w c
  split
  · exact onNext_next h
  · exact onNext_next (syncCmpt_canonical h)

theorem execCompartmentDestroy_canonical {world cmpt : Nat} {s : State} (h : MemoryCanonical s) :
    OnNext (execCompartmentDestroy world cmpt s) := by
  unfold execCompartmentDestroy
  extract_lets w s1
  have hs1 : MemoryCanonical s1 := syncCmpt_canonical h
  split
  · exact onNext_next h
  · exact onNext_next (foldl_keeps hs1 (fun _ _ ht => ht))

theorem execUncorrectableMemoryError_canonical {line : Nat} {s : State} (h : MemoryCanonical s) :
    OnNext (execUncorrectableMemoryError line s) := by
  unfold execUncorrectableMemoryError
  refine onNext_next ?_
  split
  · exact machineCheck_canonical h
  · generalize List.range 128 = l
    exact ⟨h.1, h.2.1, foldl_put_wf _ true l h.2.2⟩

theorem publishRevocation_canonical {s : State} {w : Nat} (h : MemoryCanonical s) :
    MemoryCanonical (s.publishRevocation w) := by
  unfold State.publishRevocation
  split
  · next he =>
      extract_lets slots r
      exact note_canonical (updWorld_canonical (snd_canonical he (draw_canonical h)))

theorem writeRevctl_canonical {s : State} {p writer val : Nat} (h : MemoryCanonical s) :
    MemoryCanonical (s.writeRevctl p writer val) := by
  unfold State.writeRevctl
  extract_lets w
  refine kernelWrite_canonical h ?_
  split
  · exact h
  · exact publishRevocation_canonical h

theorem clearTag_canonical {s : State} {world lk : Nat} (h : MemoryCanonical s) :
    MemoryCanonical (s.clearTag world lk) := by
  unfold State.clearTag
  extract_lets s1
  have hs1 : MemoryCanonical s1 := by
    unfold s1
    split
    · exact updateRound_canonical (outsideReady_canonical _ _ _ h)
    · exact h
  exact ⟨hs1.1, SMap.wf_put false s1.tags lk false hs1.2.1, hs1.2.2⟩

theorem visit_canonical {s : State} {world lk : Nat} (h : MemoryCanonical s) :
    MemoryCanonical (s.visit world lk) := by
  unfold State.visit
  split
  · exact clearTag_canonical h
  · exact h

theorem execDredgerSweepVisit_canonical {world line : Nat} {s : State} (h : MemoryCanonical s) :
    OnNext (execDredgerSweepVisit world line s) := by
  unfold execDredgerSweepVisit
  split
  · exact onNext_next h
  · extract_lets skipped
    split
    · exact onNext_next h
    · exact onNext_next (updWorld_canonical (visit_canonical h))

theorem execRevocationPreemptTimeout_canonical {world : Nat} {s : State} (h : MemoryCanonical s) :
    OnNext (execRevocationPreemptTimeout world s) := by
  unfold execRevocationPreemptTimeout
  split
  · exact onNext_next h
  · split
    · exact onNext_next h
    · exact onNext_next (foldl_keeps h (fun _ _ ht => requestPreempt_canonical ht))

theorem execRevocationComplete_canonical {world : Nat} {s : State} (h : MemoryCanonical s) :
    OnNext (execRevocationComplete world s) := by
  unfold execRevocationComplete
  split
  · exact onNext_next h
  · split
    · exact onNext_next h
    · extract_lets s1
      have hs1 : MemoryCanonical s1 := foldl_keeps h (fun _ _ ht => sweepSaved_canonical ht)
      exact onNext_next hs1

theorem writeOwn_canonical {s : State} {p master val : Nat} (h : MemoryCanonical s) :
    MemoryCanonical (s.writeOwn p master val) := by
  unfold State.writeOwn
  split <;> exact h

theorem execOwn_canonical {p master val : Nat} {s : State} (h : MemoryCanonical s) :
    OnNext (execOwn p master val s) := by
  unfold execOwn
  split
  · refine onNext_next ?_
    split
    · exact writeOwn_canonical (writeOwn_canonical h)
    · exact writeOwn_canonical h
  · exact onNext_next (writeOwn_canonical h)

theorem ownerWrite_canonical {s : State} {p master : Nat} {ok : Bool} {f : Part → Part} (h : MemoryCanonical s) :
    MemoryCanonical (s.ownerWrite p master ok f) := by
  unfold State.ownerWrite
  split <;> exact h

theorem execRingKeyInstall_canonical {p key : Nat} {s : State} (h : MemoryCanonical s) :
    OnNext (execRingKeyInstall p key s) := by
  unfold execRingKeyInstall
  refine onNext_next ?_
  split <;> exact h

theorem touchGrant_canonical {s : State} {num idx : Nat} (h : MemoryCanonical s) :
    MemoryCanonical (s.touchGrant num idx) := by
  unfold State.touchGrant
  split
  · exact h
  · exact schedTouch_canonical h

theorem reject_canonical {s : State} {num : Nat} {seq : Word} {code : Nat} (h : MemoryCanonical s) :
    MemoryCanonical (s.reject num seq code) := queueEntry_canonical h

theorem acceptCommand_canonical {s0 : State} {num : Nat} {c : Command} (h : MemoryCanonical s0) :
    MemoryCanonical (s0.acceptCommand num c) := by
  unfold State.acceptCommand
  extract_lets w s
  have hs : MemoryCanonical s := foldl_keeps h (fun _ _ ht => touchGrant_canonical ht)
  split
  · exact reject_canonical hs
  · extract_lets r code
    split
    · exact reject_canonical hs
    · split
      · next he =>
          exact submit_canonical hs _ he
      · exact reject_canonical hs

theorem execLaunchCommand_canonical {p : Nat} {s : State} (h : MemoryCanonical s) :
    OnNext (execLaunchCommand p s) := by
  unfold execLaunchCommand
  extract_lets x c
  split
  · exact onNext_next h
  · split
    · exact onNext_next h
    · split
      · exact onNext_next h
      · exact onNext_next (acceptCommand_canonical h)

theorem execCompletionEntry_canonical {p : Nat} {s : State} (h : MemoryCanonical s) :
    OnNext (execCompletionEntry p s) := by
  unfold execCompletionEntry
  extract_lets x k
  split
  · exact onNext_next h
  · split
    · exact onNext_next h
    · exact onNext_next (updPart_canonical (putData_canonical _ _ _ h))

theorem execRegisterWrite_canonical {p writer off val : Nat} {s : State} (h : MemoryCanonical s) :
    OnNext (execRegisterWrite p writer off val s) := by
  unfold execRegisterWrite
  refine onNext_next ?_
  split
  · refine monitorWrite_canonical h ?_
    split <;> exact h
  · split
    · exact kernelWrite_canonical h h
    · split
      · exact kernelWrite_canonical h h
      · split
        · exact writeResreply_canonical h
        · split
          · exact writeInvctl_canonical h
          · split
            · exact writeRevctl_canonical h
            · split
              · exact writePrst_canonical h
              · split
                · exact monitorWrite_canonical h h
                · exact h

theorem execIdeStreamKeyInstall_canonical {stream world key : Nat} {s : State} (h : MemoryCanonical s) :
    OnNext (execIdeStreamKeyInstall stream world key s) := by
  unfold execIdeStreamKeyInstall
  split <;> exact onNext_next h

theorem execBundleFetch_canonical {addr len : Nat} {s : State} (h : MemoryCanonical s) :
    OnNext (execBundleFetch addr len s) := by
  unfold execBundleFetch
  extract_lets b
  refine onNext_next ?_
  split <;> exact h

theorem execRemoteAttestationComplete_canonical {s : State} (h : MemoryCanonical s) :
    OnNext (execRemoteAttestationComplete s) := by
  unfold execRemoteAttestationComplete
  extract_lets f b f1
  split <;> exact onNext_next h

theorem stopped_canonical {s : State} (h : MemoryCanonical s) :
    MemoryCanonical s.stopped := ⟨(zeroRange_canonical s (memKey .dev 0) 0x4000 h).1, h.2.1, h.2.2⟩

theorem restarted_canonical {s : State} (h : MemoryCanonical s) :
    MemoryCanonical s.restarted := ⟨(stopped_canonical h).1, rfl, h.2.2⟩

theorem start_canonical {s : State} {cold : Bool} (h : MemoryCanonical s) :
    MemoryCanonical (s.start cold) := by
  unfold State.start
  extract_lets f temp base base2
  have hbase : MemoryCanonical base := stopped_canonical h
  have hbase2 : MemoryCanonical base2 := restarted_canonical h
  split
  · exact hbase
  · extract_lets x g
    exact hbase2

theorem execStartFailure_canonical {step : Nat} {s : State} (h : MemoryCanonical s) :
    OnNext (execStartFailure step s) := by
  unfold execStartFailure
  extract_lets f temp cold step tried g base
  have hbase : MemoryCanonical base := by
    unfold base
    split
    · exact stopped_canonical h
    · exact restarted_canonical h
  split
  · exact onNext_next h
  · exact onNext_next hbase

theorem execTrialExpiry_canonical {s : State} (h : MemoryCanonical s) :
    OnNext (execTrialExpiry s) := by
  unfold execTrialExpiry
  extract_lets f b f1
  split
  · exact onNext_next h
  · exact onNext_next (start_canonical h)

theorem execAttestationRequest_canonical {world : Nat} {nonce : List Byte} {s : State} (h : MemoryCanonical s) :
    OnNext (execAttestationRequest world nonce s) := by
  unfold execAttestationRequest
  extract_lets b base
  refine onNext_next ?_
  split <;> exact h

theorem gateBank_canonical {s : State} {core b : Nat} (h : MemoryCanonical s) :
    MemoryCanonical (s.gateBank core b) := by
  unfold State.gateBank
  extract_lets mark
  have hmark : ∀ t, MemoryCanonical t → MemoryCanonical (mark t) := fun _ ht => ht
  split
  · exact h
  · split
    · exact hmark _ h
    · exact hmark _ (flushStash_canonical h)
    all_goals exact h

theorem gateSlice_canonical {s : State} {slice i : Nat} (h : MemoryCanonical s) :
    MemoryCanonical (s.gateSlice slice i) := by
  unfold State.gateSlice
  extract_lets lines
  split
  · exact h
  · exact updSlice_canonical (foldl_keeps h (fun _ _ ht => evictLine_canonical ht))

theorem execPowerGate_canonical {unit idx : Nat} {s : State} (h : MemoryCanonical s) :
    OnNext (execPowerGate unit idx s) := by
  unfold execPowerGate
  split
  · split
    · exact onNext_next h
    · split
      · exact onNext_next (gateBank_canonical h)
      · exact onNext_next h
  · split
    · exact onNext_next (gateSlice_canonical h)
    · exact onNext_next h

theorem execUnitWake_canonical {unit idx : Nat} {s : State} (h : MemoryCanonical s) :
    OnNext (execUnitWake unit idx s) := by
  unfold execUnitWake
  split
  · extract_lets c s1
    have hs1 : MemoryCanonical s1 := by
      unfold s1
      split
      · exact zeroRange_canonical _ _ _ h
      · exact h
    split
    · exact onNext_next h
    · exact onNext_next hs1
  · split <;> exact onNext_next h

theorem stopCore_canonical {s : State} {core : Nat} (h : MemoryCanonical s) :
    MemoryCanonical (s.stopCore core) := by
  unfold State.stopCore
  extract_lets s1
  have hs1 : MemoryCanonical s1 := h
  split <;> exact hs1

theorem goCore_canonical {s : State} {core : Nat} (h : MemoryCanonical s) :
    MemoryCanonical (s.goCore core) := by
  unfold State.goCore
  extract_lets s1
  have hs1 : MemoryCanonical s1 := h
  split
  · split <;> exact hs1
  · exact hs1

theorem execClockChange_canonical {scale core : Nat} {s : State} (h : MemoryCanonical s) :
    OnNext (execClockChange scale core s) := by
  unfold execClockChange
  split
  · refine onNext_next ?_
    split
    · exact stopCore_canonical h
    · exact h
  · extract_lets base s1
    have hs1 : MemoryCanonical s1 := h
    refine onNext_next ?_
    split
    · exact goCore_canonical hs1
    · exact hs1

theorem serve_canonical {s : State} {l : Arrival} (h : MemoryCanonical s) :
    MemoryCanonical (s.serve l) := by
  unfold State.serve
  split
  · exact storeNow_canonical h
  · exact sluiceNow_canonical h
  · exact valueNow_canonical h
  · exact grantNow_canonical h
  · exact hostNow_canonical h
  · exact peerNow_canonical h

theorem met_canonical {s : State} {inv : Option Nat} (h : MemoryCanonical s) :
    MemoryCanonical (s.met inv) := by
  unfold State.met
  extract_lets s1
  have hs1 : MemoryCanonical s1 := h
  split <;> exact hs1

theorem arrive_canonical {s : State} {a : Arrival} (h : MemoryCanonical s) :
    MemoryCanonical (s.arrive a) := by
  unfold State.arrive
  split
  · exact serve_canonical h
  · split <;> exact serve_canonical (serve_canonical (met_canonical h))

end Sys2Proof.Machine
end

section
/-!
Scalar and vector instructions keep memory in canonical form, and so does every step.
-/

namespace Sys2Proof.Machine
open Sys2Proof.Safety

theorem regOp_canonical {g : Ctl} {s : State} {f : Slot → Slot} (h : MemoryCanonical s) :
    OnNext (regOp g s f) := by
  unfold regOp
  refine onNext_next (done_canonical ?_)
  split <;> exact h

theorem regOpStall_canonical {g : Ctl} {n : Nat} {s : State} {f : Slot → Slot} (h : MemoryCanonical s) :
    OnNext (regOpStall g n s f) := by
  unfold regOpStall
  refine onNext_next (doneStall_canonical ?_)
  split <;> exact h

theorem aluReg_canonical {g : Ctl} {d a b : XReg} {s : State} {r : Word → Word → Word} (h : MemoryCanonical s) :
    OnNext (aluReg g d a b s r) := regOp_canonical h

theorem aluImm_canonical {g : Ctl} {t : IType} {d a : XReg} {i : Imm} {s : State} {r : Word → Word → Word}
    (h : MemoryCanonical s) :
    OnNext (aluImm g t d a i s r) := regOp_canonical h

theorem execShlReg_canonical {g : Ctl} {t : IType} {d a b : XReg} {s : State} (h : MemoryCanonical s) :
    OnNext (execShlReg g t d a b s) := aluReg_canonical h

theorem execShrReg_canonical {g : Ctl} {t : IType} {d a b : XReg} {s : State} (h : MemoryCanonical s) :
    OnNext (execShrReg g t d a b s) := aluReg_canonical h

theorem execSarReg_canonical {g : Ctl} {t : IType} {d a b : XReg} {s : State} (h : MemoryCanonical s) :
    OnNext (execSarReg g t d a b s) := aluReg_canonical h

theorem vecOp_canonical {g : Ctl} {s : State} {f : Slot → Slot} (h : MemoryCanonical s) :
    OnNext (vecOp g s f) := onNext_next (done_canonical h)

theorem vecOpStall_canonical {g : Ctl} {n : Nat} {s : State} {f : Slot → Slot} (h : MemoryCanonical s) :
    OnNext (vecOpStall g n s f) := onNext_next (doneStall_canonical h)

theorem vInt_canonical {g : Ctl} {t : IType} {d a : VReg} {b : Slot → Nat → Nat} {s : State} {f : Int → Int → Int}
    (h : MemoryCanonical s) :
    OnNext (vInt g t d a b s f) := vecOp_canonical h

theorem vFlt_canonical {g : Ctl} {t : FType} {d a : VReg} {b : Slot → Nat → Nat} {s : State}
    {f : Slot → Nat → Nat → Nat × Nat} (h : MemoryCanonical s) :
    OnNext (vFlt g t d a b s f) := vecOp_canonical h

theorem vFma_canonical {g : Ctl} {t : FType} {d a : VReg} {b : Slot → Nat → Nat} {r : RSel} {s : State}
    (h : MemoryCanonical s) :
    OnNext (vFma g t d a b r s) := vecOp_canonical h

theorem execVabsInt_canonical {g : Ctl} {t : IType} {d a : VReg} {s : State} (h : MemoryCanonical s) :
    OnNext (execVabsInt g t d a s) := vInt_canonical h

theorem execVnegInt_canonical {g : Ctl} {t : IType} {d a : VReg} {s : State} (h : MemoryCanonical s) :
    OnNext (execVnegInt g t d a s) := vInt_canonical h

theorem execVabsFloat_canonical {g : Ctl} {t : FType} {d a : VReg} {s : State} (h : MemoryCanonical s) :
    OnNext (execVabsFloat g t d a s) := vFlt_canonical h

theorem execVnegFloat_canonical {g : Ctl} {t : FType} {d a : VReg} {s : State} (h : MemoryCanonical s) :
    OnNext (execVnegFloat g t d a s) := vFlt_canonical h

theorem vsetpI_canonical {g : Ctl} {t : IType} {k : ICond} {d : PReg} {a : VReg} {b : Slot → Nat → Nat} {s : State}
    (h : MemoryCanonical s) :
    OnNext (vsetpI g t k d a b s) := vecOp_canonical h

theorem vsetpF_canonical {g : Ctl} {t : FType} {k : FCond} {d : PReg} {a : VReg} {b : Slot → Nat → Nat} {s : State}
    (h : MemoryCanonical s) :
    OnNext (vsetpF g t k d a b s) := vecOp_canonical h

/-- Every instruction and every event keeps memory in canonical form. -/
theorem exec_canonical (i : Instr) {s : State} (h : MemoryCanonical s) : OnNext (exec i s) := by
  cases i
  case addReg | subReg | mulReg | mulhReg | andReg | orReg | xorReg | minReg | maxReg => exact aluReg_canonical h
  case addImm | subImm | mulImm | mulhImm | andImm | orImm | xorImm | minImm | maxImm => exact aluImm_canonical h
  case divReg | divImm | remReg | remImm => exact regOpStall_canonical h
  case shlReg => exact execShlReg_canonical h
  case shlImm | shrImm | sarImm | sel | movXX | li | clz | popc | movXFromLane | movLaneFromX | movBroadcast |
      movXFromP | movPFromX | movVV | movPP | setpCompare | setpCompareImm | setpLogic | setpBitTest |
      setpCapEqual => exact regOp_canonical h
  case shrReg => exact execShrReg_canonical h
  case sarReg => exact execSarReg_canonical h
  case br => exact execBr_canonical h
  case brOnRegister => exact execBrOnRegister_canonical h
  case bx => exact execBx_canonical h
  case call => exact execCall_canonical h
  case callIndirect => exact execCallIndirect_canonical h
  case callh => exact execCallh_canonical h
  case ret => exact execRet_canonical h
  case loopRegister | loopImmediate => exact loopWith_canonical h
  case csliceRegister => exact execCsliceRegister_canonical h
  case csliceImmediate => exact execCsliceImmediate_canonical h
  case cstepRegister => exact execCstepRegister_canonical h
  case cstepImmediate => exact execCstepImmediate_canonical h
  case ctrans => exact execCtrans_canonical h
  case cfixRegister => exact execCfixRegister_canonical h
  case cfixImmediate => exact execCfixImmediate_canonical h
  case cperm => exact execCperm_canonical h
  case cseal | cunseal => exact sealWith_canonical h
  case cgetX => exact execCgetX_canonical h
  case cgetP => exact execCgetP_canonical h
  case cmov => exact execCmov_canonical h
  case cld | ld | ldAcq | slock | swaitPoll =>
    exact guarded_canonical h (orFault_canonical h (fun _ => done_canonical (oweNow_canonical h)))
  case cst => exact execCst_canonical h
  case st => exact guarded_canonical h (storeAll_canonical h)
  case stRel => exact execStRel_canonical h
  case vld => exact execVld_canonical h
  case vst => exact execVst_canonical h
  case vgth => exact execVgth_canonical h
  case vsct => exact execVsct_canonical h
  case amo | cas | casCapability => exact guarded_canonical h (orFault_canonical h (fun _ => deferOrOwe_canonical h))
  case fence => exact guarded_canonical h (awaitScope_canonical h (fun _ ht => done_canonical ht))
  case sunlock => exact execSunlock_canonical h
  case pref => exact execPref_canonical h
  case vaddIntVv | vaddIntVx | vsubIntVv | vsubIntVx | vmulIntVv | vmulIntVx | vminIntVv | vminIntVx | vmaxIntVv |
      vmaxIntVx | vaddIntVi | vsubIntVi | vmulIntVi | vminIntVi | vmaxIntVi => exact vInt_canonical h
  case vaddFloatVv | vaddFloatVx | vsubFloatVv | vsubFloatVx | vmulFloatVv | vmulFloatVx | vminFloatVv |
      vminFloatVx | vmaxFloatVv | vmaxFloatVx => exact vFlt_canonical h
  case vfmaVv | vfmaVx => exact vFma_canonical h
  case vabsInt => exact execVabsInt_canonical h
  case vabsFloat => exact execVabsFloat_canonical h
  case vnegInt => exact execVnegInt_canonical h
  case vnegFloat => exact execVnegFloat_canonical h
  case vcvt | vpermRegister | vpermImmediate | vsel | vrng => exact vecOp_canonical h
  case vredInt | vredFloat | vargmaxInt | vargmaxFloat => exact vecOpStall_canonical h
  case vsetpIntVv | vsetpIntVx => exact vsetpI_canonical h
  case vsetpFloatVv | vsetpFloatVx => exact vsetpF_canonical h
  case tset => exact execTset_canonical h
  case mchain => exact execMchain_canonical h
  case mend => exact execMend_canonical h
  case mmf => exact execMmf_canonical h
  case mmiNarrow => exact execMmiNarrow_canonical h
  case mmiWide => exact execMmiWide_canonical h
  case mmb => exact execMmb_canonical h
  case mscacc => exact execMscacc_canonical h
  case macldNarrow | macldWide | mzeroNarrow | mzeroWide =>
    exact engineQueue_canonical h (fun _ ht => enterEngine_canonical ht)
  case engineInstructionCommit => exact execEngineInstructionCommit_canonical h
  case chainCompletion => exact execChainCompletion_canonical h
  case bcopyTemplate => exact execBcopyTemplate_canonical h
  case bcopyCommonShape => exact execBcopyCommonShape_canonical h
  case bstage => exact execBstage_canonical h
  case bres => exact execBres_canonical h
  case bargeExecute => exact execBargeExecute_canonical h
  case bargeCompletion => exact execBargeCompletion_canonical h
  case sinit | sarmRegister | sarmImmediate | sarrive | sarriveBytes =>
    exact guarded_canonical h (sluiceIssue_canonical h)
  case sluiceOperationApply | owedValueReturn | writeUpdate | grant | hostAccess | peerAccess =>
    exact onNext_next (arrive_canonical h)
  case swaitBlocking => exact execSwaitBlocking_canonical h
  case waitX | waitV | waitC => exact waitFor_canonical h
  case spawn | launch => exact guarded_canonical h (orFault_canonical h (fun _ => deferOrAct_canonical h))
  case rdecImmediate | rdecRegister => exact rdecWith_canonical h
  case fork | forkWithRevisions => exact guarded_canonical h (orFault_canonical h (fun _ => forkIssue_canonical h))
  case commit => exact execCommit_canonical h
  case retire g => exact execRetire_canonical (_g := g) h
  case bpushX | bpushV => exact pushWith_canonical h
  case bpopX | bpopV => exact popWith_canonical h
  case basinHeldOperation => exact execBasinHeldOperation_canonical h
  case ccall => exact execCcall_canonical h
  case cret => exact execCret_canonical h
  case publish => exact execPublish_canonical h
  case trap => exact guarded_canonical h (faultNow_canonical h)
  case tretResume => exact execTretResume_canonical h
  case tretSkip => exact execTretSkip_canonical h
  case tretEnd g => exact execTretEnd_canonical (_g := g) h
  case sysrd => exact execSysrd_canonical h
  case syswrRegister | syswrImmediate => exact syswrWith_canonical h
  case ctrX | ctrV => exact ctrWith_canonical h
  case parkEnd => exact execParkEnd_canonical h
  case issueSlotChoice => exact execIssueSlotChoice_canonical h
  case trapEntry => exact execTrapEntry_canonical h
  case terminalFault => exact execTerminalFault_canonical h
  case commitWindowExpiry => exact execCommitWindowExpiry_canonical h
  case waitTimerExpiry => exact execWaitTimerExpiry_canonical h
  case preemptionRequest => exact onNext_next (requestPreempt_canonical h)
  case activationDiscard => exact execActivationDiscard_canonical h
  case machineCheck => exact onNext_next (machineCheck_canonical h)
  case activationStart => exact execActivationStart_canonical h
  case heldRingPush => exact execHeldRingPush_canonical h
  case gridAdmission => exact execGridAdmission_canonical h
  case teamPlacement => exact execTeamPlacement_canonical h
  case quantumExpiry => exact execQuantumExpiry_canonical h
  case swapGraceExpiry => exact execSwapGraceExpiry_canonical h
  case teamSwapOut => exact execTeamSwapOut_canonical h
  case teamSwapIn => exact execTeamSwapIn_canonical h
  case weirRun => exact execWeirRun_canonical h
  case gridCompletion => exact execGridCompletion_canonical h
  case junctionMerge => exact execJunctionMerge_canonical h
  case revisionDiscardReset => exact execRevisionDiscardReset_canonical h
  case tlbRefill => exact execTlbRefill_canonical h
  case invalidationComplete => exact execInvalidationComplete_canonical h
  case pageVerification => exact execPageVerification_canonical h
  case dredgerSweepVisit => exact execDredgerSweepVisit_canonical h
  case revocationPreemptTimeout => exact execRevocationPreemptTimeout_canonical h
  case revocationComplete => exact execRevocationComplete_canonical h
  case counterRefresh => exact execCounterRefresh_canonical h
  case updateReply => exact execUpdateReply_canonical h
  case homeCommit => exact execHomeCommit_canonical h
  case regionMerge => exact execRegionMerge_canonical h
  case directoryEntryEviction => exact execDirectoryEntryEviction_canonical h
  case evictionNotice => exact execEvictionNotice_canonical h
  case stashFill => exact execStashFill_canonical h
  case stashForwardedAccess => exact execStashForwardedAccess_canonical h
  case readShared => exact execReadShared_canonical h
  case upgrade => exact execUpgrade_canonical h
  case readExclusive => exact execReadExclusive_canonical h
  case snoopRead => exact execSnoopRead_canonical h
  case snoopInvalidate => exact execSnoopInvalidate_canonical h
  case proxyInvalidation => exact execProxyInvalidation_canonical h
  case writeBack => exact execWriteBack_canonical h
  case flushRoundComplete | ownershipLeaseExpiry | backInvalidation | flushMarker | pathFailure | hostLinkReset =>
    exact onNext_next h
  case launchCommand => exact execLaunchCommand_canonical h
  case completionEntry => exact execCompletionEntry_canonical h
  case storeAcknowledgement => exact execStoreAcknowledgement_canonical h
  case updateReceipt => exact execUpdateReceipt_canonical h
  case snoopAnswer => exact execSnoopAnswer_canonical h
  case evictionAcknowledgement => exact execEvictionAcknowledgement_canonical h
  case hostFlushComplete => exact execHostFlushComplete_canonical h
  case fetchComplete => exact execFetchComplete_canonical h
  case prst => exact onNext_next (writePrst_canonical h)
  case partitionResetDone => exact execPartitionResetDone_canonical h
  case resreply => exact onNext_next (writeResreply_canonical h)
  case invctl => exact onNext_next (writeInvctl_canonical h)
  case revctl => exact onNext_next (writeRevctl_canonical h)
  case fabricRun => exact execFabricRun_canonical h
  case fabricRekey => exact execFabricRekey_canonical h
  case powerGate => exact execPowerGate_canonical h
  case unitWake => exact execUnitWake_canonical h
  case clockChange => exact execClockChange_canonical h
  case own => exact execOwn_canonical h
  case rtail | rsync | ringRelocate | cqhead => exact onNext_next (ownerWrite_canonical h)
  case ringKeyInstall => exact execRingKeyInstall_canonical h
  case registerWrite => exact execRegisterWrite_canonical h
  case worldCreate => exact execWorldCreate_canonical h
  case worldDestroy => exact execWorldDestroy_canonical h
  case compartmentDestroy => exact execCompartmentDestroy_canonical h
  case bundleFetch => exact execBundleFetch_canonical h
  case trialExpiry => exact execTrialExpiry_canonical h
  case attestationRequest => exact execAttestationRequest_canonical h
  case coldStart | warmStart => exact onNext_next (start_canonical h)
  case startFailure => exact execStartFailure_canonical h
  case hostSnoop => exact execHostSnoop_canonical h
  case uncorrectableMemoryError => exact execUncorrectableMemoryError_canonical h
  case remoteAttestationComplete => exact execRemoteAttestationComplete_canonical h
  case ideStreamKeyInstall => exact execIdeStreamKeyInstall_canonical h
  case chunkOwnerChange => exact execChunkOwnerChange_canonical h
  case partitionOwnerChange => exact execPartitionOwnerChange_canonical h
  case compartmentCreate => exact execCompartmentCreate_canonical h

theorem issueStep_canonical {s : State} (h : MemoryCanonical s) : OnNext (issueStep s) := by
  unfold issueStep
  extract_lets s1
  have hs1 : MemoryCanonical s1 := h
  split
  · exact onNext_next hs1
  · exact onNext_next (faultNow_canonical (markEntries_canonical hs1))
  · split
    · exact onNext_next (faultNow_canonical (fetchDone_canonical hs1))
    · exact exec_canonical _ (fetchDone_canonical hs1)

theorem scripted_canonical (i : Instr) {s : State} (h : MemoryCanonical s) : OnNext (scripted i s) := by
  unfold scripted
  split
  · exact onNext_fault
  · exact exec_canonical i h

theorem step_canonical {s : State} (h : MemoryCanonical s) : OnNext (step s) := by
  unfold step
  split
  · exact issueStep_canonical h
  · split
    · exact scripted_canonical _ h
    · exact exec_canonical _ h

end Sys2Proof.Machine
end

section

open Sys2Proof Sys2Proof.Machine Sys2Proof.Safety

/-- Settles O58, by one lemma for each operation of the state. -/
theorem memoryStaysCanonical : Obligations.MemoryStaysCanonical := by
  unfold Obligations.MemoryStaysCanonical
  exact fun _ t h hs => step_canonical h t hs

end

section
/-!
The check of an element (R38), the geometric derivations (R40, R129 … R132) and the reset state.
-/

namespace Sys2Proof.Machine
open Sys2Proof.Safety

/-! ## The check of an element -/

theorem inBounds_iff (f : CapF) (k : Coords) : f.inBounds k = true ↔
    (0 ≤ k.k0 ∧ k.k0 < f.ext0) ∧ (0 ≤ k.k1 ∧ k.k1 < f.ext1) ∧ (0 ≤ k.k2 ∧ k.k2 < f.ext2) ∧ (0 ≤ k.k3 ∧ k.k3 < f.ext3) := by
  simp only [CapF.inBounds, Bool.and_eq_true, decide_eq_true_eq, and_assoc]

theorem hasAll_iff (f : CapF) (ps : List Nat) : f.hasAll ps = true ↔ ∀ p ∈ ps, f.has p = true := List.all_eq_true

/-- The element of a view, of half a byte or of whole bytes; the index of half a byte rounds down (R37). -/
theorem elem_eq (f : CapF) (k : Coords) : f.elem k =
    if fmtBits f.fmt = 4 then
      { va := ((f.base : Int) + (f.offset k).fdiv 2).toNat, nib := ((f.offset k).fmod 2).toNat, bits := 4, coords := k }
    else { va := ((f.base : Int) + f.offset k * ((fmtBits f.fmt / 8 : Nat) : Int)).toNat, nib := 0, bits := fmtBits f.fmt,
           coords := k } := by
  unfold CapF.elem
  rw [Int.fdiv_eq_ediv_of_nonneg _ (by decide), Int.fmod_eq_emod_of_nonneg _ (by decide)]

theorem check_untagged {c : CapReg} (cmpt : Nat) (ps : List Nat) (ok : Nat → Bool) (k : Coords) (h : c.tag = false) :
    check c cmpt ps ok k = .error 0x10 := by
  simp [check, h]

theorem check_outside {c : CapReg} (cmpt : Nat) (ps : List Nat) (ok : Nat → Bool) {k : Coords} (h : c.tag = true)
    (hk : ¬ c.f.inBounds k = true) : check c cmpt ps ok k = .error 0x11 := by
  simp [check, h, hk]

theorem check_refused {c : CapReg} {cmpt : Nat} {ps : List Nat} {ok : Nat → Bool} {k : Coords} (h : c.tag = true)
    (hk : c.f.inBounds k = true)
    (hg : ¬ (c.f.hasAll ps = true ∧ ok c.f.fmt = true ∧ c.f.usableBy cmpt = true)) :
    check c cmpt ps ok k = .error 0x12 := by
  simp only [check, h, hk, Bool.not_true, Bool.false_eq_true, if_false]
  cases hp : c.f.hasAll ps
  · rfl
  · cases ho : ok c.f.fmt
    · rfl
    · rw [if_neg (by decide), if_neg (by decide), if_pos]
      simpa [hp, ho] using hg

theorem check_granted {c : CapReg} {cmpt : Nat} {ps : List Nat} {ok : Nat → Bool} {k : Coords} (h : c.tag = true)
    (hk : c.f.inBounds k = true) (hp : c.f.hasAll ps = true) (ho : ok c.f.fmt = true) (hu : c.f.usableBy cmpt = true) :
    check c cmpt ps ok k = if c.f.seal_ ≠ 0 then .error 0x14 else .ok (c.f.elem k) := by
  simp [check, h, hk, hp, ho, hu]

end Sys2Proof.Machine
end

section

open Sys2Proof Sys2Proof.Machine Sys2Proof.Safety

/-- Settles O7, by the steps of the check in their order. -/
theorem capabilityCheck : Obligations.CapabilityCheck := by
  unfold Obligations.CapabilityCheck
  intro c cmpt ps ok k f inside granted e
  have hin : f.inBounds k = true ↔ inside := inBounds_iff f k
  have hgr : f.hasAll ps = true ∧ ok f.fmt = true ∧ f.usableBy cmpt = true ↔ granted := by
    rw [hasAll_iff, usableBy_iff]
  refine ⟨check_untagged cmpt ps ok k, fun ht hi => check_outside cmpt ps ok ht (mt hin.mp hi),
    fun ht hi hg => check_refused ht (hin.mpr hi) (mt hgr.mp hg), fun ht hi hg hs => ?_, fun ht hi hg hs => ?_, fun n => ?_⟩
  · obtain ⟨hp, ho, hu⟩ := hgr.mpr hg
    rw [check_granted ht (hin.mpr hi) hp ho hu, if_pos hs]
  · obtain ⟨hp, ho, hu⟩ := hgr.mpr hg
    rw [check_granted ht (hin.mpr hi) hp ho hu, if_neg (not_not.mpr hs), elem_eq]
    rfl
  · unfold FaultInfo.ofCheck
    rw [elem_eq]
    by_cases h : c.tag = true ∧ inside
    · rw [if_pos h, if_pos (by rw [Bool.and_eq_true]; exact ⟨h.1, hin.mpr h.2⟩), apply_ite Elem.va]
      rfl
    · rw [if_neg h, if_neg (by rw [Bool.and_eq_true]; exact fun hx => h ⟨hx.1, hin.mp hx.2⟩)]
      rfl

/-- Settles O59: the reset state is given by its maps, which are empty but for the owner of chunk 0. -/
theorem resetState : Obligations.ResetState := by
  unfold Obligations.ResetState
  refine ⟨⟨rfl, rfl, rfl⟩, fun k => ⟨rfl, rfl⟩, fun k => ⟨rfl, rfl⟩, fun p => rfl, fun w => rfl, fun a => ?_,
    fun c n hn => ?_, fun c => rfl⟩
  · unfold State.chunkOwner
    by_cases h : a / 2 ^ 21 = 0
    · rw [h]; rfl
    · rw [if_neg h]
      exact if_neg (Ne.symm h)
  · unfold State.counter
    rw [if_neg fun h => hn h.2]
    rfl

end

section
/-!
The geometric derivations (R40, R129 … R132).
-/

namespace Sys2Proof.Machine
open Sys2Proof.Safety

/-! ## The source checks -/

theorem srcCheck_untagged {c : CapReg} (cmpt : Nat) (h : c.tag = false) : srcCheck c cmpt = some 0x10 := by
  simp [srcCheck, h]

theorem srcCheck_refused {c : CapReg} {cmpt : Nat} (h : c.tag = true)
    (hp : c.f.has permSL = false ∨ c.f.life = 2 ∧ c.f.cmpt ≠ cmpt) : srcCheck c cmpt = some 0x12 := by
  have hu : c.f.has permSL = false ∨ c.f.usableBy cmpt = false := hp.imp id fun ⟨hl, hc⟩ => by simp [CapF.usableBy, hl, hc]
  simp only [srcCheck, h, Bool.not_true, Bool.false_eq_true, if_false]
  rw [if_pos]
  simpa using hu

theorem srcCheck_sealed {c : CapReg} {cmpt : Nat} (h : c.tag = true) (hp : c.f.has permSL = true)
    (hu : c.f.life = 2 → c.f.cmpt = cmpt) (hs : c.f.seal_ ≠ 0) : srcCheck c cmpt = some 0x14 := by
  simp [srcCheck, h, hp, (usableBy_iff c.f cmpt).mpr hu, hs]

theorem srcCheck_ok {c : CapReg} {cmpt : Nat} (h : c.tag = true) (hp : c.f.has permSL = true)
    (hu : c.f.life = 2 → c.f.cmpt = cmpt) (hs : c.f.seal_ = 0) : srcCheck c cmpt = none := by
  simp [srcCheck, h, hp, (usableBy_iff c.f cmpt).mpr hu, hs]

/-! ## Derivations under a true guard -/

theorem derive_error {s : State} {g : Ctl} (d : CReg) {f : Slot → Except Nat CapReg} {n : Nat} (hg : s.sl.guard g = true)
    (h : f s.sl = .error n) : derive g d s f = .next (s.faultNow (FaultInfo.of n)) := by
  unfold derive
  rw [if_pos hg, h]

theorem derive_ok {s : State} {g : Ctl} {d : CReg} {f : Slot → Except Nat CapReg} {c : CapReg} (hg : s.sl.guard g = true)
    (h : f s.sl = .ok c) : derive g d s f = .next ((s.updSl fun sl => sl.setC d c).doneStall g 0) := by
  unfold derive
  rw [if_pos hg, h]
  rfl

theorem geometric_refused {sl : Slot} {a : CReg} {n : Nat} (f : CapF → Except Nat CapF) (h : srcCheck (sl.cr a) sl.cmpt = some n) :
    geometric a sl f = .error n := by
  unfold geometric
  rw [h]

theorem geometric_passed {sl : Slot} {a : CReg} (f : CapF → Except Nat CapF) (h : srcCheck (sl.cr a) sl.cmpt = none) :
    geometric a sl f = (f (sl.cr a).f).map CapF.derived := by
  unfold geometric
  rw [h]

theorem derivation_refused {i : Instr} {s : State} {g : Ctl} {d a : CReg} {f : Slot → CapF → Except Nat CapF} {n : Nat}
    (hi : exec i s = derive g d s fun sl => geometric a sl (f sl)) (hg : s.sl.guard g = true)
    (h : srcCheck (s.sl.cr a) s.sl.cmpt = some n) : FaultsWith i s (FaultInfo.of n) :=
  hi.trans (derive_error d hg (geometric_refused _ h))

/-- A derivation whose source passes writes the derived line where its parameters fit, and faults where they would widen. -/
theorem derivation_gives {i : Instr} {s : State} {g : Ctl} {d a : CReg} {f : Slot → CapF → Except Nat CapF} {ok : Prop} {r : CapF}
    (hi : exec i s = derive g d s fun sl => geometric a sl (f sl)) (hgs : Issues i g) (hg : s.sl.guard g = true)
    (h : srcCheck (s.sl.cr a) s.sl.cmpt = none) (hok : ok → f s.sl (s.sl.cr a).f = .ok r)
    (hbad : ¬ ok → f s.sl (s.sl.cr a).f = .error 0x13) :
    (ok → WritesC i s d { bits := r.toBits, tag := decide (r.base < 2 ^ 57) }) ∧ (¬ ok → FaultsWith i s (FaultInfo.of 0x13)) := by
  constructor
  · intro hk
    refine writesC_doneStall i s g 0 d _ hgs (hi.trans (derive_ok hg ?_))
    rw [geometric_passed _ h, hok hk]
    rfl
  · intro hk
    refine hi.trans (derive_error d hg ?_)
    rw [geometric_passed _ h, hbad hk]
    rfl

/-! ## The derivations at issue -/

section
variable (s : State) (g : Ctl) (d a : CReg) (b : XReg) (q : XQuad) (k : Fin 4) (f : BitVec 30)

theorem exec_csliceRegister : exec (.csliceRegister g d a q) s = derive g d s fun sl => geometric a sl fun c =>
    c.slice (fun j => if j < c.rank then bitsOf (sl.xg q.val (j / 2)).toNat (32 * (j % 2)) 32 else 0)
      fun j => if j < c.rank then bitsOf (sl.xg q.val (2 + j / 2)).toNat (32 * (j % 2)) 32 else 1 := rfl

theorem exec_csliceImmediate (n : Imm) : exec (.csliceImmediate g d a b n) s = derive g d s fun sl => geometric a sl fun c =>
    c.slice (sliceOffsets (sl.xr b) c.rank) fun j => bitsOf n.toNat (8 * j) 8 := rfl

theorem exec_cstepRegister : exec (.cstepRegister g d a b k) s =
    derive g d s fun sl => geometric a sl fun c => c.step k.val (sl.xr b).toNat := rfl

theorem exec_cstepImmediate : exec (.cstepImmediate g d a k f) s =
    derive g d s fun sl => geometric a sl fun c => c.step k.val f.toNat := rfl

theorem exec_ctrans (pi : BitVec 8) : exec (.ctrans g d a pi) s =
    derive g d s fun sl => geometric a sl fun c => c.trans fun j => bitsOf pi.toNat (2 * j) 2 := rfl

theorem exec_cfixRegister : exec (.cfixRegister g d a b k) s =
    derive g d s fun sl => geometric a sl fun c => c.fix k.val (sl.xr b).toNat := rfl

theorem exec_cfixImmediate : exec (.cfixImmediate g d a k f) s =
    derive g d s fun sl => geometric a sl fun c => c.fix k.val f.toNat := rfl

end

/-! ## The views that the parameters derive -/

/-- When a slice stays inside its source (R129). -/
def SliceFits (c : CapF) (o n : Nat → Nat) : Prop :=
  (∀ j, j < 4 → if j < c.rank then o j + n j ≤ c.ext j else o j = 0 ∧ n j = 1)
  ∧ (fmtBits c.fmt = 4 → c.offset (Coords.of fun j => (o j : Int)) % 2 = 0)

/-- The slice of a view from the element `o`, with the extents `n` (R129). -/
def CapF.sliced (c : CapF) (o n : Nat → Nat) : CapF :=
  { c with
    base := unsignedOf 64 ((c.base : Int) + c.offset (Coords.of fun j => (o j : Int)) * (fmtBits c.fmt : Int) / 8)
    ext0 := n 0, ext1 := n 1, ext2 := n 2, ext3 := n 3 }

theorem slice_bad_iff (c : CapF) (o n : Nat → Nat) :
    ((List.range 4).any fun i => if i < c.rank then decide (o i + n i > c.ext i) else o i != 0 || n i != 1) = false
      ↔ ∀ j, j < 4 → if j < c.rank then o j + n j ≤ c.ext j else o j = 0 ∧ n j = 1 := by
  rw [List.any_eq_false]
  refine forall_congr' fun j => ?_
  rw [List.mem_range]
  by_cases h : j < c.rank <;> simp [h]

theorem sliceOffsets_eq (z : Word) (r : Nat) {j : Nat} (h : j < 4) : sliceOffsets z r j =
    if r = 1 then if j = 0 then z.toNat else 0
    else if r = 2 then if j < 2 then z.toNat / 2 ^ (32 * j) % 2 ^ 32 else 0
    else z.toNat / 2 ^ (16 * j) % 2 ^ 16 := by
  unfold sliceOffsets
  split
  · rfl
  · rfl
  · next h1 h2 => rw [if_pos h, if_neg h1, if_neg h2, bitsOf]

theorem slice_fits {c : CapF} {o n : Nat → Nat} (h : SliceFits c o n) : c.slice o n = .ok (c.sliced o n) := by
  obtain ⟨hin, heven⟩ := h
  unfold CapF.slice
  dsimp only
  rw [(slice_bad_iff c o n).mpr hin, if_neg Bool.false_ne_true, if_neg]
  · rfl
  · simp only [Bool.and_eq_true, decide_eq_true_eq, bne_iff_ne, not_and, not_not]
    exact heven

theorem slice_widens {c : CapF} {o n : Nat → Nat} (h : ¬ SliceFits c o n) : c.slice o n = .error 0x13 := by
  unfold CapF.slice
  dsimp only
  split
  · rfl
  · next hbad =>
    rw [if_pos]
    have hin := (slice_bad_iff c o n).mp (by simpa using hbad)
    by_contra hn
    simp only [Bool.and_eq_true, decide_eq_true_eq, bne_iff_ne, not_and, not_not] at hn
    exact h ⟨hin, hn⟩

theorem slice_congr {c : CapF} {o o' n n' : Nat → Nat} (ho : ∀ j, j < 4 → o j = o' j) (hn : ∀ j, j < 4 → n j = n' j) :
    c.slice o n = c.slice o' n' := by
  have hany : ((List.range 4).any fun i => if i < c.rank then decide (o i + n i > c.ext i) else o i != 0 || n i != 1)
      = (List.range 4).any fun i => if i < c.rank then decide (o' i + n' i > c.ext i) else o' i != 0 || n' i != 1 := by
    rw [Bool.eq_iff_iff, List.any_eq_true, List.any_eq_true]
    refine exists_congr fun j => and_congr_right fun hj => ?_
    rw [ho j (List.mem_range.mp hj), hn j (List.mem_range.mp hj)]
  unfold CapF.slice
  rw [hany, ho 0 (by decide), ho 1 (by decide), ho 2 (by decide), ho 3 (by decide), hn 0 (by decide), hn 1 (by decide),
    hn 2 (by decide), hn 3 (by decide)]

theorem step_fits {c : CapF} {k m : Nat}
    (h : m ≠ 0 ∧ k < c.rank ∧ -(2 ^ 39) ≤ (m : Int) * c.sd k ∧ (m : Int) * c.sd k < 2 ^ 39) :
    c.step k m = .ok (c.withShape (fun j => if j = k then (c.ext j + m - 1) / m else c.ext j)
      fun j => if j = k then (m : Int) * c.sd k else c.sd j) := by
  obtain ⟨hm, hk, hlo, hhi⟩ := h
  unfold CapF.step
  dsimp only
  rw [if_neg (by simp only [Bool.or_eq_true, decide_eq_true_eq]; omega)]
  congr 2
  funext j
  by_cases hj : j = k <;> simp [hj]

theorem step_widens {c : CapF} {k m : Nat}
    (h : ¬ (m ≠ 0 ∧ k < c.rank ∧ -(2 ^ 39) ≤ (m : Int) * c.sd k ∧ (m : Int) * c.sd k < 2 ^ 39)) :
    c.step k m = .error 0x13 := by
  unfold CapF.step
  dsimp only
  rw [if_pos]
  by_contra hn
  simp only [Bool.or_eq_true, decide_eq_true_eq, not_or, not_le, not_lt] at hn
  obtain ⟨⟨⟨hm, hk⟩, hlo⟩, hhi⟩ := hn
  exact h ⟨hm, hk, hlo, hhi⟩

/-- The view with dimension `k` fixed at index `x` (R132). -/
def CapF.fixed (c : CapF) (k x : Nat) : CapF :=
  { c.withShape (fun j => if j < k then c.ext j else if j < 3 then c.ext (j + 1) else 1)
      (fun j => if j < k then c.sd j else if j < 3 then c.sd (j + 1) else 0) with
    base := unsignedOf 64 ((c.base : Int) + (x : Int) * c.sd k * (fmtBits c.fmt : Int) / 8), rank := c.rank - 1 }

theorem fix_fits {c : CapF} {k x : Nat}
    (h : k < c.rank ∧ x < c.ext k ∧ c.rank ≠ 1 ∧ (fmtBits c.fmt = 4 → (x : Int) * c.sd k % 2 = 0)) :
    c.fix k x = .ok (c.fixed k x) := by
  obtain ⟨hk, hx, hr, heven⟩ := h
  unfold CapF.fix
  dsimp only
  rw [if_neg]
  · rfl
  · simp only [Bool.or_eq_true, Bool.and_eq_true, decide_eq_true_eq, bne_iff_ne, not_or, not_and, not_not]
    exact ⟨⟨⟨by omega, by omega⟩, hr⟩, heven⟩

theorem fix_widens {c : CapF} {k x : Nat}
    (h : ¬ (k < c.rank ∧ x < c.ext k ∧ c.rank ≠ 1 ∧ (fmtBits c.fmt = 4 → (x : Int) * c.sd k % 2 = 0))) :
    c.fix k x = .error 0x13 := by
  unfold CapF.fix
  dsimp only
  rw [if_pos]
  by_contra hn
  simp only [Bool.or_eq_true, Bool.and_eq_true, decide_eq_true_eq, bne_iff_ne, not_or, not_and, not_not, not_le] at hn
  obtain ⟨⟨⟨hk, hx⟩, hr⟩, heven⟩ := hn
  exact h ⟨hk, hx, hr, heven⟩

/-- When the dimensions below the rank are permuted, and the others kept (R131). -/
def Permutes (c : CapF) (p : Nat → Nat) : Prop :=
  (∀ j, j < 4 → if j < c.rank then p j < c.rank else p j = j)
  ∧ ∀ i j, i < c.rank → j < c.rank → i < 4 → j < 4 → p i = p j → i = j

theorem trans_checks_iff (c : CapF) (p : Nat → Nat) :
    (((List.range 4).all fun i => if i < c.rank then decide (p i < c.rank) else p i == i) = true
      ∧ ((List.range 4).all fun i => (List.range 4).all fun j =>
          i == j || !(decide (i < c.rank) && decide (j < c.rank)) || p i != p j) = true) ↔ Permutes c p := by
  unfold Permutes
  simp only [List.all_eq_true, List.mem_range]
  refine and_congr (forall_congr' fun j => imp_congr_right fun _ => ?_) ⟨fun h i j hi hj hi4 hj4 hp => ?_, fun h i hi j hj => ?_⟩
  · by_cases hr : j < c.rank <;> simp [hr]
  · simpa [hi, hj, hp] using h i hi4 j hj4
  · by_contra hn
    simp only [Bool.or_eq_true, beq_iff_eq, Bool.not_eq_true', Bool.and_eq_false_iff, decide_eq_false_iff_not, bne_iff_ne,
      not_or, not_not] at hn
    obtain ⟨⟨hne, hi', hj'⟩, hp⟩ := hn
    exact hne (h i j hi' hj' hi hj hp)

theorem trans_fits {c : CapF} {p : Nat → Nat} (h : Permutes c p) :
    c.trans p = .ok (c.withShape (fun j => c.ext (p j)) fun j => c.sd (p j)) := by
  obtain ⟨hin, hinj⟩ := (trans_checks_iff c p).mpr h
  have hkeep : ∀ j, j < 4 → ¬ j < c.rank → p j = j := fun j hj hr => by simpa [hr] using h.1 j hj
  have hshape : ∀ (α : Type) (e : Nat → α) (j : Nat), j < 4 → (if j < c.rank then e (p j) else e j) = e (p j) := by
    intro α e j hj
    by_cases hr : j < c.rank
    · rw [if_pos hr]
    · rw [if_neg hr, hkeep j hj hr]
  unfold CapF.trans
  dsimp only
  rw [hin, hinj]
  simp only [Bool.and_self, if_true, CapF.withShape, hshape _ _ 0 (by decide), hshape _ _ 1 (by decide),
    hshape _ _ 2 (by decide), hshape _ _ 3 (by decide)]

theorem trans_widens {c : CapF} {p : Nat → Nat} (h : ¬ Permutes c p) : c.trans p = .error 0x13 := by
  unfold CapF.trans
  dsimp only
  rw [if_neg]
  rw [Bool.and_eq_true]
  exact mt (trans_checks_iff c p).mp h

end Sys2Proof.Machine
end

section

open Sys2Proof Sys2Proof.Machine Sys2Proof.Safety

theorem derivedLines : Parts.DerivedLines := by
  unfold Parts.DerivedLines
  intro s g d a b q k f o pi imm hg c ht hsl hu hs gives slice step fix p z half
  have hsrc : srcCheck (s.sl.cr a) s.sl.cmpt = none := srcCheck_ok ht hsl hu hs
  have hslice : ∀ {i : Instr} {F : Slot → CapF → Except Nat CapF} {at_ n : Nat → Nat},
      (exec i s = derive g d s fun sl => geometric a sl (F sl)) → Issues i g → F s.sl c = c.slice at_ n → slice i at_ n :=
    fun hi hgs hF => derivation_gives hi hgs hg hsrc (fun h => hF.trans (slice_fits h)) fun h => hF.trans (slice_widens h)
  have hstep : ∀ {i : Instr} {F : Slot → CapF → Except Nat CapF} {m : Nat},
      (exec i s = derive g d s fun sl => geometric a sl (F sl)) → Issues i g → F s.sl c = c.step k.val m → step i m :=
    fun hi hgs hF => derivation_gives hi hgs hg hsrc (fun h => hF.trans (step_fits h)) fun h => hF.trans (step_widens h)
  have hfix : ∀ {i : Instr} {F : Slot → CapF → Except Nat CapF} {x : Nat},
      (exec i s = derive g d s fun sl => geometric a sl (F sl)) → Issues i g → F s.sl c = c.fix k.val x → fix i x :=
    fun hi hgs hF => derivation_gives hi hgs hg hsrc (fun h => hF.trans (fix_fits h)) fun h => hF.trans (fix_widens h)
  have hp : ∀ j, bitsOf pi.toNat (2 * j) 2 = p j := fun j => by
    rw [bitsOf, pow_mul]
    rfl
  refine ⟨hslice (exec_csliceImmediate s g d a b imm) (issues_mk rfl) (slice_congr ?_ ?_),
    hslice (exec_csliceRegister s g d a q) (issues_mk rfl) (slice_congr ?_ ?_),
    hstep (exec_cstepRegister s g d a b k) (issues_mk rfl) rfl, hstep (exec_cstepImmediate s g d a k f) (issues_mk rfl) rfl,
    hfix (exec_cfixRegister s g d a b k) (issues_mk rfl) rfl, hfix (exec_cfixImmediate s g d a k o) (issues_mk rfl) rfl,
    derivation_gives (exec_ctrans s g d a pi) (issues_mk rfl) hg hsrc (fun h => ?_) fun h => ?_⟩
  · exact fun j hj => sliceOffsets_eq _ _ hj
  · exact fun j _ => rfl
  · exact fun j _ => rfl
  · intro j _
    simp only [half, Slot.xg, bitsOf, Nat.add_assoc]
  · simp only [hp]
    exact trans_fits h
  · simp only [hp]
    exact trans_widens h

theorem derivationSourceFaults : Parts.DerivationSourceFaults := by
  unfold Parts.DerivationSourceFaults
  intro s g d a b q k f o pi imm hg c all
  have hall : ∀ n, srcCheck (s.sl.cr a) s.sl.cmpt = some n → all n := by
    intro n h
    simp only [all, List.forall_mem_cons]
    exact ⟨derivation_refused (exec_csliceRegister ..) hg h, derivation_refused (exec_csliceImmediate ..) hg h,
      derivation_refused (exec_cstepRegister ..) hg h, derivation_refused (exec_cstepImmediate ..) hg h,
      derivation_refused (exec_ctrans ..) hg h, derivation_refused (exec_cfixRegister ..) hg h,
      derivation_refused (exec_cfixImmediate ..) hg h, fun _ hx => nomatch hx⟩
  exact ⟨fun ht => hall _ (srcCheck_untagged _ ht), fun ht hp => hall _ (srcCheck_refused ht hp),
    fun ht hp hu hs => hall _ (srcCheck_sealed ht hp hu hs)⟩

/-- Settles O5: each derivation is a check of its source and a function of the fields. -/
theorem geometricDerivations : Obligations.GeometricDerivations := ⟨derivedLines, derivationSourceFaults⟩

end

section
/-!
Stores at issue (R138 … R144, R299): what enters the store queue, element by element; and the rules of capability lines
(R42, R43).
-/

namespace Sys2Proof.Machine
open Sys2Proof.Safety

/-! ## Writes that enter the queue -/

/-- A slot with the writes of one instruction behind those that it has queued. -/
def queuedOuts (rel : Option Nat) (ws : List (OutOp × Place)) (stamp : Nat) (sl : Slot) : Slot :=
  { sl with
    out := sl.out ++ ws.zipIdx.map fun x =>
      { op := x.1.1, rel := rel, seq := sl.seq, actid := sl.actid, iaddr := sl.here, place := x.1.2, idx := x.2, lvl := 0, got := 0,
        stamp := stamp }
    seq := sl.seq + 1 }

theorem enqueue_eq (s : State) (rel : Option Nat) (ws : List (OutOp × Place)) :
    s.enqueue rel ws = { s with fresh := s.fresh + 1 }.updSl (queuedOuts rel ws s.fresh) := rfl

theorem queuedOuts_out (rel : Option Nat) (ws : List (OutOp × Place)) (stamp : Nat) (sl : Slot) :
    ∃ l : List Out, (queuedOuts rel ws stamp sl).out = sl.out ++ l ∧ l.map (fun o => (o.op, o.place)) = ws
      ∧ ∀ o ∈ l, o.rel = rel ∧ o.lvl = 0 ∧ o.got = 0 ∧ o.seq = sl.seq := by
  refine ⟨_, rfl, ?_, fun o ho => ?_⟩
  · rw [List.map_map]
    exact List.zipIdx_map_fst 0 ws
  · obtain ⟨x, -, rfl⟩ := List.mem_map.mp ho
    exact ⟨rfl, rfl, rfl, rfl⟩

/-- An instruction that reserves and enqueues its writes, and is done, queues them. -/
theorem queues_done {i : Instr} {s s1 : State} {g : Ctl} {rel : Option Nat} {ws : List (OutOp × Place)} (hg : Issues i g)
    (h1 : s1 = { s with revs := s1.revs }) (hi : exec i s = .next ((s1.enqueue rel ws).done g)) : Queues i s rel ws := by
  rw [enqueue_eq] at hi
  have hsl : ({ s1 with fresh := s1.fresh + 1 } : State).sl = s.sl := by rw [h1]; rfl
  have hnow : s1.now = s.now := by rw [h1]
  have hcur : s1.cur = s.cur := by rw [h1]
  have hfr : s1.fresh = s.fresh := by rw [h1]
  generalize ht : ({ s1 with fresh := s1.fresh + 1 } : State) = t at hi hsl
  obtain ⟨he, hf, hb⟩ := doneStall_spec t g 0 (queuedOuts rel ws s1.fresh) ⟨rfl, rfl, rfl, rfl, rfl⟩
  have hp := pacedBy_issued (i := i) (s := s) hg ((t.updSl (queuedOuts rel ws s1.fresh)).updSl fun sl => sl.fall sl.pc) 0
    (by subst ht; exact hnow) (by subst ht; exact hcur)
  change PacedBy i s ((t.updSl (queuedOuts rel ws s1.fresh)).doneStall g 0) at hp
  change exec i s = .next ((t.updSl (queuedOuts rel ws s1.fresh)).doneStall g 0) at hi
  generalize (t.updSl (queuedOuts rel ws s1.fresh)).doneStall g 0 = u at hi he hf hb hp
  obtain ⟨r, rb⟩ := atPlace_reads hb
  rw [hsl] at hf r rb
  have hst : t = { s with fresh := u.fresh, revs := u.revs } := by
    have e1 : (bareState u).fresh = (bareState t).fresh := congrArg State.fresh he.rest
    have e2 : (bareState u).revs = (bareState t).revs := congrArg State.revs he.rest
    change u.fresh = t.fresh at e1
    change u.revs = t.revs at e2
    rw [e1, e2, ← ht, h1]
  refine ⟨u, hi, ?_, r.owed, r.deferred, r.fflags, ⟨fun q _ => r.x q, fun q _ => r.v q, fun q _ => r.c q, fun q _ => r.p q, ?_⟩,
    hf, hst ▸ he, hp⟩
  · rw [r.out]
    exact queuedOuts_out rel ws s1.fresh s.sl
  · have hd := congrArg Slot.hostDirty rb
    change u.sl.hostDirty = s.sl.hostDirty at hd
    rw [hd]
    exact rb

/-! ## The checks of stores -/

/-- A reservation changes nothing but the revisions (R270). -/
theorem reserve_revs {s s1 : State} {w : Who} {seq : Nat} {p : Place} (h : s.reserve w seq p = some s1) :
    s1 = { s with revs := s1.revs } := by
  unfold State.reserve at h
  split at h
  · cases h; rfl
  · split at h
    · cases h; rfl
    · dsimp only at h
      split at h
      · cases h; rfl
      · split at h
        · cases h; rfl
        · cases h

theorem checkAt_error {sl : Slot} {c : CapReg} {perm : List Nat} {ok : Nat → Bool} {k : Coords} {n : Nat}
    (h : check c sl.cmpt perm ok k = .error n) : sl.checkAt c perm ok k = .error (FaultInfo.ofCheck c n k) := by
  rw [Slot.checkAt, h]

section
variable {s : State} {k : AKind} {c : CapReg} {ok : Nat → Bool} {co : Coords} {e : Elem} {p : Place}

theorem checkStores_cons_ok {s1 : State} (v : Word) (t : List (Coords × Word)) (h : check c s.sl.cmpt [permST] ok co = .ok e)
    (hp : s.placeAt k e = .ok p) (hr : s.reserve (s.who s.cur) s.sl.seq p = some s1) :
    s.checkStores k c ok ((co, v) :: t) = (s1.checkStores k c ok t).map fun r => (r.1, (.data e v, p) :: r.2) := by
  rw [State.checkStores, checkAt_ok h]
  dsimp only
  rw [hp]
  dsimp only
  rw [hr]
  dsimp only
  cases s1.checkStores k c ok t with
  | error f => rfl
  | ok r => rfl

theorem checkStores_cons_unchecked {n : Nat} (v : Word) (t : List (Coords × Word))
    (h : check c s.sl.cmpt [permST] ok co = .error n) :
    s.checkStores k c ok ((co, v) :: t) = .error (FaultInfo.ofCheck c n co) := by
  rw [State.checkStores, checkAt_error h]

theorem checkStores_cons_unplaced {f : FaultInfo} (v : Word) (t : List (Coords × Word))
    (h : check c s.sl.cmpt [permST] ok co = .ok e) (hp : s.placeAt k e = .error f) :
    s.checkStores k c ok ((co, v) :: t) = .error f := by
  rw [State.checkStores, checkAt_ok h]
  dsimp only
  rw [hp]

theorem checkStores_cons_full (v : Word) (t : List (Coords × Word)) (h : check c s.sl.cmpt [permST] ok co = .ok e)
    (hp : s.placeAt k e = .ok p) (hr : s.reserve (s.who s.cur) s.sl.seq p = none) :
    s.checkStores k c ok ((co, v) :: t) = .error (spillFault e) := by
  rw [State.checkStores, checkAt_ok h]
  dsimp only
  rw [hp]
  dsimp only
  rw [hr]

end

/-- Stores that pass their checks reserve places in spill areas, and give one write for each element. -/
theorem checkStores_spec {k : AKind} {c : CapReg} {ok : Nat → Bool} (es : List (Coords × Word)) :
    ∀ {s s1 : State} {ws : List (OutOp × Place)}, s.checkStores k c ok es = .ok (s1, ws) →
      s1 = { s with revs := s1.revs } ∧ ws.length = es.length := by
  induction es with
  | nil =>
    intro s s1 ws h
    cases h
    exact ⟨rfl, rfl⟩
  | cons x t ih =>
    intro s s1 ws h
    obtain ⟨co, v⟩ := x
    rw [State.checkStores] at h
    split at h
    · cases h
    · split at h
      · cases h
      · split at h
        · cases h
        · next s2 hr =>
          split at h
          · cases h
          · next s3 l hl =>
            cases h
            obtain ⟨h3, hlen⟩ := ih hl
            have h2 := reserve_revs hr
            refine ⟨?_, by rw [List.length_cons, List.length_cons, hlen]⟩
            rw [h2] at h3
            exact h3

/-- A store's element `j` passes its checks, and needs no new place in a spill area. -/
def StorePasses (s : State) (k : AKind) (c : CapReg) (ok : Nat → Bool) (co : Nat → Coords) (el : Nat → Elem) (pl : Nat → Place)
    (j : Nat) : Prop :=
  check c s.sl.cmpt [permST] ok (co j) = .ok (el j) ∧ s.placeAt k (el j) = .ok (pl j)
    ∧ s.reserve (s.who s.cur) s.sl.seq (pl j) = some s

/-- Elements that pass without a new reservation are queued before what follows them. -/
theorem checkStores_append {s : State} {k : AKind} {c : CapReg} {ok : Nat → Bool} (co : Nat → Coords) (v : Nat → Word)
    (el : Nat → Elem) (pl : Nat → Place) (rest : List (Coords × Word)) (l : List Nat)
    (h : ∀ j ∈ l, StorePasses s k c ok co el pl j) :
    s.checkStores k c ok (l.map (fun j => (co j, v j)) ++ rest) =
      (s.checkStores k c ok rest).map fun r => (r.1, l.map (fun j => (.data (el j) (v j), pl j)) ++ r.2) := by
  induction l with
  | nil =>
    simp only [List.map_nil, List.nil_append]
    cases s.checkStores k c ok rest <;> rfl
  | cons j t ih =>
    obtain ⟨hc, hp, hr⟩ := h j (.head _)
    rw [List.map_cons, List.cons_append, checkStores_cons_ok _ _ hc hp hr, ih fun i hi => h i (.tail _ hi)]
    cases s.checkStores k c ok rest <;> rfl

/-- The first element of an ascending list that fails is the fault. -/
theorem checkStores_first {s : State} {k : AKind} {c : CapReg} {ok : Nat → Bool} (co : Nat → Coords) (v : Nat → Word)
    (el : Nat → Elem) (pl : Nat → Place) {f : FaultInfo} {l : List Nat} (hs : l.Pairwise (· < ·)) {n : Nat} (hn : n ∈ l)
    (h : ∀ j ∈ l, j < n → StorePasses s k c ok co el pl j)
    (hf : ∀ t, s.checkStores k c ok ((co n, v n) :: t) = .error f) :
    s.checkStores k c ok (l.map fun j => (co j, v j)) = .error f := by
  obtain ⟨a, b, rfl⟩ := List.append_of_mem hn
  have ha : ∀ j ∈ a, j < n := fun j hj => (List.pairwise_append.mp hs).2.2 j hj n (.head _)
  rw [List.map_append, List.map_cons, checkStores_append co v el pl _ a fun j hj => h j (List.mem_append_left _ hj) (ha j hj), hf]
  rfl

/-! ## The store of elements -/

theorem storeAll_error {s : State} {k : AKind} {c : CapReg} {ok : Nat → Bool} {es : List (Coords × Word)} {f : FaultInfo} (g : Ctl)
    (rel : Option Nat) (h : s.checkStores k c ok es = .error f) : s.storeAll g k rel c ok es = s.faultNow f := by
  rw [State.storeAll, h]

theorem storeAll_nil (s : State) (g : Ctl) (k : AKind) (rel : Option Nat) (c : CapReg) (ok : Nat → Bool) :
    s.storeAll g k rel c ok [] = s.doneStall g 0 := rfl

theorem queues_storeAll {i : Instr} {s s1 : State} {g : Ctl} {k : AKind} {rel : Option Nat} {c : CapReg} {ok : Nat → Bool}
    {es : List (Coords × Word)} {ws : List (OutOp × Place)} (hg : Issues i g) (hi : exec i s = .next (s.storeAll g k rel c ok es))
    (hne : es ≠ []) (h : s.checkStores k c ok es = .ok (s1, ws)) : Queues i s rel ws := by
  obtain ⟨h1, hlen⟩ := checkStores_spec es h
  have hws : ws ≠ [] := fun hn => hne (List.length_eq_zero_iff.mp (hlen.symm.trans (congrArg List.length hn)))
  refine queues_done hg h1 (hi.trans ?_)
  rw [State.storeAll, h]
  dsimp only
  rw [if_neg hws]

/-- A store of one element that passes every check queues its write. -/
theorem queues_storeOne {i : Instr} {s : State} {g : Ctl} {k : AKind} {rel : Option Nat} {c : CapReg} {ok : Nat → Bool} {co : Coords}
    {v : Word} {e : Elem} {p : Place} (hg : Issues i g) (hi : exec i s = .next (s.storeAll g k rel c ok [(co, v)]))
    (hc : check c s.sl.cmpt [permST] ok co = .ok e) (hp : s.placeAt k e = .ok p)
    (hr : (s.reserve (s.who s.cur) s.sl.seq p).isSome = true) : Queues i s rel [(.data e v, p)] := by
  obtain ⟨s1, h1⟩ := Option.isSome_iff_exists.mp hr
  exact queues_storeAll hg hi (List.cons_ne_nil _ _) (checkStores_cons_ok v [] hc hp h1)

/-! ## Vector stores -/

theorem onLanes_ascending (sl : Slot) (g : Ctl) (w n : Nat) : (sl.onLanes g w n).Pairwise (· < ·) :=
  List.Pairwise.filter _ List.pairwise_lt_range

/-! ## Capability lines -/

theorem stale_iff (s : State) (world part : Nat) (c : CapReg) : s.stale world part c = true ↔
    c.tag = true ∧ c.f.life = 4 ∧ s.generation world part c.f.base ≠ some c.f.gen := by
  simp only [State.stale, Bool.and_eq_true, beq_iff_eq, bne_iff_ne, and_assoc]

/-- The capability-store rule, in the order of its steps, for a tagged line (R43). -/
theorem capValue_tagged {s : State} {w : Who} {v auth : CapReg} {p : Place} (hv : v.tag = true) :
    s.capValue w v auth p =
      if p.kind ≠ .mint ∧ (s.worldAt w.world).rev ≠ none ∧ s.stale w.world w.part v = true then some 0x15
      else if p.untagged = true then some 0x16
      else if lifeRank v.f.life < lifeRank auth.f.life then some 0x16
      else if p.kind ≠ .mint ∧ 2 ≤ lifeRank auth.f.life ∧ v.f.has permGL = false then some 0x16
      else if p.kind = .peer ∧ peerOwner p.key ≠ w.world then some 0x16
      else none := by
  have hgen : (v.tag && !(p.kind == .mint) && v.f.life == 4 && s.revoking w.world && s.stale w.world w.part v) = true ↔
      p.kind ≠ .mint ∧ (s.worldAt w.world).rev ≠ none ∧ s.stale w.world w.part v = true := by
    have hlife : s.stale w.world w.part v = true → v.f.life = 4 := fun h => ((stale_iff ..).mp h).2.1
    simp only [hv, Bool.true_and, Bool.and_eq_true, Bool.not_eq_true', beq_eq_false_iff_ne, beq_iff_eq, State.revoking,
      Option.isSome_iff_ne_none, ne_eq]
    tauto
  have hissue : ¬ (p.kind ≠ .mint ∧ (s.worldAt w.world).rev ≠ none ∧ s.stale w.world w.part v = true) →
      s.capValueIssue w v auth (p.kind == .mint) =
        if lifeRank v.f.life < lifeRank auth.f.life then some 0x16
        else if p.kind ≠ .mint ∧ 2 ≤ lifeRank auth.f.life ∧ v.f.has permGL = false then some 0x16 else none := by
    intro h
    rw [← hgen, hv, Bool.true_and] at h
    unfold State.capValueIssue
    rw [hv, if_neg (by decide), if_neg h]
    simp only [Bool.and_eq_true, Bool.not_eq_true', beq_eq_false_iff_ne, decide_eq_true_eq, and_assoc, ne_eq]
  have hfirst : capValuePlace w v p false = if p.untagged = true then some 0x16 else none := by
    simp [capValuePlace, hv]
  have hlast : capValuePlace w v p true = if p.kind = .peer ∧ peerOwner p.key ≠ w.world then some 0x16 else none := by
    simp [capValuePlace, hv]
  unfold State.capValue
  dsimp only
  by_cases hg : p.kind ≠ .mint ∧ (s.worldAt w.world).rev ≠ none ∧ s.stale w.world w.part v = true
  · rw [if_pos (hgen.mpr hg), if_pos hg]
  · rw [if_neg (mt hgen.mp hg), if_neg hg, hissue hg, hfirst, hlast]
    by_cases hu : p.untagged = true
    · rw [if_pos hu, if_pos hu]
    · rw [if_neg hu, if_neg hu]
      split_ifs <;> rfl

theorem capValue_untagged {s : State} {w : Who} {v auth : CapReg} {p : Place} (hv : v.tag = false) : s.capValue w v auth p = none := by
  simp [State.capValue, State.capValueIssue, capValuePlace, hv]

/-! ## The store of a capability line -/

theorem causeAt_some (n : Nat) (e : Elem) : causeAt (some n) e = .error (FaultInfo.atElem n e) := rfl

/-- A capability store whose element is checked and placed: the value is judged before the place in a spill area. -/
theorem execCst_placed {s : State} {g : Ctl} {d : CReg} {m : MemOp} {e : Elem} {p : Place} (hg : s.sl.guard g = true)
    (hc : check (s.sl.cr m.c) s.sl.cmpt [permSC] fmtIsLine (s.sl.coords m) = .ok e) (hp : s.placeAt .store e = .ok p) :
    exec (.cst g d m) s = .next (match s.capValue (s.who s.cur) (s.sl.cr d) (s.sl.cr m.c) p with
      | some n => s.faultNow (FaultInfo.atElem n e)
      | none =>
        if s.sl.committed.isNone && (s.sl.cr m.c).f.life == 5 then s.defer g (.cst (s.sl.cr d) (s.sl.cr m.c) e) none (dField 3 0 d.val)
        else match s.reserve (s.who s.cur) s.sl.seq p with
          | none => s.faultNow (spillFault e)
          | some s1 => (s1.enqueue none [(.line e (s.sl.cr d), p)]).done g) := by
  refine (guarded_true g s _ hg).trans (congrArg _ ?_)
  simp only [checkAt_ok hc, hp, Bind.bind, Except.bind, Pure.pure, Except.pure]
  cases s.capValue (s.who s.cur) (s.sl.cr d) (s.sl.cr m.c) p with
  | some n => rfl
  | none => rfl

/-- A deferred effect joins the buffer while it has room (R199). -/
theorem defers_done {i : Instr} {s : State} {g : Ctl} {op : DeferOp} {r : Option RegRef} {df : Nat} (hg : Issues i g)
    (hi : exec i s = .next (s.defer g op r df)) (hroom : s.sl.deferred.length < 8) : Defers i s op r := by
  unfold State.defer at hi
  rw [if_neg (Nat.not_le.mpr hroom)] at hi
  exact acts_doneStall i s g 0 _ _ _ hg hi ⟨fun _ _ => rfl, fun _ _ => rfl, fun _ _ => rfl, fun _ _ => rfl, rfl⟩
    ⟨rfl, rfl, rfl, rfl, rfl⟩ fun b h => ⟨h.fflags, h.out, h.owed, _, h.deferred, rfl, rfl, rfl, rfl⟩

theorem defer_full {s : State} (g : Ctl) (op : DeferOp) (r : Option RegRef) (df : Nat) (h : 8 ≤ s.sl.deferred.length) :
    s.defer g op r df = s.faultNow (FaultInfo.of 0x38) := if_pos h

end Sys2Proof.Machine
end

section

open Sys2Proof Sys2Proof.Machine Sys2Proof.Safety

theorem dataStores : Parts.DataStores := by
  unfold Parts.DataStores
  intro s s1 g t et vt d v b a m r sc e p ws on w z word
  refine ⟨fun hg hc hp hr => ?_, fun hg hsc hc hp hr => ?_, fun hon h => ?_, fun hon h => ?_, fun hon => ?_, fun hon => ?_,
    fun n hg hc => ?_, fun hg hc => ⟨fun f hp => ?_, fun hp hr => ?_⟩⟩
  · exact queues_storeOne (issues_mk rfl) (guarded_true g s _ hg) hc hp hr
  · refine queues_storeOne (k := .store) (issues_mk rfl) ((guarded_true g s _ hg).trans ?_) hc hp hr
    rw [if_pos hsc]
  · exact queues_storeAll (issues_mk rfl) rfl (mt List.map_eq_nil_iff.mp hon) h
  · exact queues_storeAll (issues_mk rfl) rfl (mt List.map_eq_nil_iff.mp hon) h
  · refine actsNot_done _ s g 0 (issues_mk rfl) ?_
    show Host.Outcome.next (s.storeAll g .vstore none _ _ (List.map _ (on w (512 / w)))) = _
    rw [hon]
    rfl
  · refine actsNot_done _ s g 0 (issues_mk rfl) ?_
    show Host.Outcome.next (s.storeAll g .vstore none _ _ (List.map _ (on z (gatherCount z)))) = _
    rw [hon]
    rfl
  · exact (guarded_true g s _ hg).trans (congrArg _ (storeAll_error g none (checkStores_cons_unchecked _ _ hc)))
  · exact (guarded_true g s _ hg).trans (congrArg _ (storeAll_error g none (checkStores_cons_unplaced _ _ hc hp)))
  · exact (guarded_true g s _ hg).trans (congrArg _ (storeAll_error g none (checkStores_cons_full _ _ hc hp hr)))

theorem vectorStoreLanes : Parts.VectorStoreLanes := by
  unfold Parts.VectorStoreLanes
  intro s g et vt v b a m el pl k n f stores
  have hstores : ∀ (i : Instr) (c : CReg) (w cnt : Nat) (co : Nat → Coords), Issues i g →
      exec i s = .next (s.storeAll g .vstore none (s.sl.cr c) (fmtOfWidth w)
        ((s.sl.onLanes g w cnt).map fun j => (co j, BitVec.ofNat 64 (lane w j (s.sl.vr v))))) →
      stores i c w ((List.range cnt).filter (s.sl.laneGuard g w)) co := by
    intro i c w cnt co hi he
    have hfirst : ∀ {f' : FaultInfo}, k ∈ s.sl.onLanes g w cnt →
        (∀ j ∈ s.sl.onLanes g w cnt, j < k → StorePasses s .vstore (s.sl.cr c) (fmtOfWidth w) co el pl j) →
        (∀ t, s.checkStores .vstore (s.sl.cr c) (fmtOfWidth w)
          ((co k, BitVec.ofNat 64 (lane w k (s.sl.vr v))) :: t) = .error f') → FaultsWith i s f' :=
      fun hk hj ht => he.trans (congrArg _ (storeAll_error g none
        (checkStores_first co _ el pl (onLanes_ascending s.sl g w cnt) hk hj ht)))
    refine ⟨fun hon hall => ?_, fun hk hj => ⟨fun hc => hfirst hk hj fun t => checkStores_cons_unchecked _ t hc,
      fun hc => ⟨fun hp => hfirst hk hj fun t => checkStores_cons_unplaced _ t hc hp,
        fun hp hr => hfirst hk hj fun t => checkStores_cons_full _ t hc hp hr⟩⟩⟩
    refine queues_storeAll (s1 := s) hi he (mt List.map_eq_nil_iff.mp hon) ?_
    have h := checkStores_append (k := .vstore) co (fun j => BitVec.ofNat 64 (lane w j (s.sl.vr v))) el pl [] _ hall
    rw [List.append_nil] at h
    refine h.trans ?_
    simp only [State.checkStores, Except.map, List.append_nil]
  exact ⟨hstores _ _ _ _ _ (issues_mk rfl) rfl, hstores _ _ _ _ _ (issues_mk rfl) rfl⟩

theorem capabilityLineRules : Parts.CapabilityLineRules := by
  unfold Parts.CapabilityLineRules
  intro s w v auth p mint stale
  have hstale : ∀ c, s.stale w.world w.part c = true ↔ stale c := stale_iff s w.world w.part
  have hmint : (p.kind == .mint) = true ↔ mint := beq_iff_eq
  constructor
  · by_cases hv : v.tag = true
    · rw [capValue_tagged hv, if_neg (fun h : v.tag = false => Bool.false_ne_true (h.symm.trans hv))]
      simp only [hstale]
      rfl
    · have hu := Bool.eq_false_of_not_eq_true hv
      rw [capValue_untagged hu, if_pos hu]
  · unfold State.loadedCap
    have h1 : ((p.kind == .mint) && v.tag && (v.f.life == 4)) = true ↔ mint ∧ v.tag = true ∧ v.f.life = 4 := by
      simp only [Bool.and_eq_true, hmint, beq_iff_eq, and_assoc]
    have h2 : ((p.kind == .mint) && v.tag && (v.f.seal_ == 0) && (v.f.fmt == 0x21) && v.f.has permEX) = true ↔
        mint ∧ v.tag = true ∧ v.f.seal_ = 0 ∧ v.f.fmt = 0x21 ∧ v.f.has permEX = true := by
      simp only [Bool.and_eq_true, hmint, beq_iff_eq, and_assoc]
    simp only [h1, h2, hstale]

theorem capabilityStores : Parts.CapabilityStores := by
  unfold Parts.CapabilityStores
  intro s g d m e p hg auth hc hp deferred
  have hexec := execCst_placed (d := d) hg hc hp
  have hdef : (s.sl.committed.isNone && auth.f.life == 5) = true ↔ deferred := by
    simp only [deferred, Bool.and_eq_true, Option.isNone_iff_eq_none, beq_iff_eq]
  refine ⟨fun hv => ?_, fun n hv => ?_⟩
  · rw [hv] at hexec
    dsimp only at hexec
    refine ⟨fun hd hr => ?_, fun hd hroom => ?_, fun hd hfull => ?_⟩
    · obtain ⟨s1, h1⟩ := Option.isSome_iff_exists.mp hr
      rw [if_neg (mt hdef.mp hd), h1] at hexec
      exact queues_done (issues_mk rfl) (reserve_revs h1) hexec
    · rw [if_pos (hdef.mpr hd)] at hexec
      exact defers_done (issues_mk rfl) hexec hroom
    · rw [if_pos (hdef.mpr hd), defer_full g _ _ _ hfull] at hexec
      exact hexec
  · rw [hv] at hexec
    exact hexec

/-- Settles O9, by a lemma for the checks of a list of elements and one for what enters the queue. -/
theorem storesQueue : Obligations.StoresQueue := ⟨dataStores, vectorStoreLanes, capabilityLineRules, capabilityStores⟩

end

section
/-!
Atomics (R145 … R147): deferred before `commit`, owed after it, and what each does to its element.
-/

namespace Sys2Proof.Machine
open Sys2Proof.Safety

/-! ## Values and words -/

theorem unsignedOf_natCast (w n : Nat) : unsignedOf w (n : Int) = n % 2 ^ w := by
  unfold unsignedOf
  rw [show (2 ^ w : Int) = ((2 ^ w : Nat) : Int) by push_cast; rfl, ← Int.natCast_emod, Int.toNat_natCast]

theorem unsignedOf_sub_pow (w : Nat) (z : Int) : unsignedOf w (z - 2 ^ w) = unsignedOf w z := by
  unfold unsignedOf
  rw [Int.sub_emod_right]

/-- The word of the value of an element is the element's own (R90). -/
theorem unsignedOf_val (t : IType) (z : Nat) : unsignedOf t.width (val t z) = uval t z := by
  unfold val uval
  split
  · unfold signedOf
    dsimp only
    split
    · rw [unsignedOf_natCast, Nat.mod_mod]
    · rw [unsignedOf_sub_pow, unsignedOf_natCast, Nat.mod_mod]
  · rw [unsignedOf_natCast, Nat.mod_mod]

theorem uval_lt (t : IType) (z : Nat) : uval t z < 2 ^ t.width := Nat.mod_lt _ (Nat.two_pow_pos _)

/-- A number below the width's bound is its own word. -/
theorem unsignedOf_of_lt {w n : Nat} (h : n < 2 ^ w) : unsignedOf w (n : Int) = n := by
  rw [unsignedOf_natCast, Nat.mod_eq_of_lt h]

/-! ## Deferring or owing -/

theorem deferOrOwe_defers {i : Instr} {s : State} {g : Ctl} {f : Flight} {d : RegRef} {df : Nat} (hg : Issues i g)
    (hi : exec i s = .next (s.deferOrOwe g f d df)) (hc : s.sl.committed = none) (hroom : s.sl.deferred.length < 8) :
    Defers i s (.mem f) (some d) := by
  unfold State.deferOrOwe at hi
  rw [if_pos (Option.isNone_iff_eq_none.mpr hc)] at hi
  exact defers_done hg hi hroom

theorem deferOrOwe_owes {i : Instr} {s : State} {g : Ctl} {f : Flight} {d : RegRef} {df : Nat} (hg : Issues i g)
    (hi : exec i s = .next (s.deferOrOwe g f d df)) (hc : s.sl.committed ≠ none) : Owes i s (some d) fullMask f false := by
  unfold State.deferOrOwe at hi
  rw [if_neg (mt Option.isNone_iff_eq_none.mp hc)] at hi
  exact owes_done i s g (some d) fullMask f false df hg hi

theorem deferPlace_placed {s : State} {e : Elem} (h : s.sl.committed = none → ∃ p, s.placeAt .atomic e = .ok p) :
    s.deferPlace e = .ok () := by
  unfold State.deferPlace
  split
  · next hc =>
    obtain ⟨p, hp⟩ := h (Option.isNone_iff_eq_none.mp hc)
    rw [hp]
    rfl
  · rfl

section
variable {s : State} {g : Ctl} {t : IType} {m : MemOp} {e : Elem}

theorem execAmo_checked (k : AmoOp) (d : XReg) (hg : s.sl.guard g = true)
    (hc : check (s.sl.cr m.c) s.sl.cmpt [permLD, permST, permAT] (fmtOfWidth t.width) (s.sl.coords m) = .ok e)
    (hp : s.sl.committed = none → ∃ p, s.placeAt .atomic e = .ok p) :
    exec (.amo g t k d m) s = .next (s.deferOrOwe g (.amo t k (s.sl.xr d) e) (.x d.val) (dField 1 (amoMod k) d.val)) := by
  refine (guarded_true g s _ hg).trans (congrArg _ ?_)
  simp only [checkAt_ok hc, deferPlace_placed hp, Bind.bind, Except.bind, Pure.pure, Except.pure]
  rfl

theorem execCas_checked (x : XPair) (hg : s.sl.guard g = true)
    (hc : check (s.sl.cr m.c) s.sl.cmpt [permLD, permST, permAT] (fmtOfWidth t.width) (s.sl.coords m) = .ok e)
    (hp : s.sl.committed = none → ∃ p, s.placeAt .atomic e = .ok p) :
    exec (.cas g t x m) s =
      .next (s.deferOrOwe g (.cas t (s.sl.xn x.val) (s.sl.xn (x.val + 1)) e) (.x x.val) (dField 1 0 x.val)) := by
  refine (guarded_true g s _ hg).trans (congrArg _ ?_)
  simp only [checkAt_ok hc, deferPlace_placed hp, Bind.bind, Except.bind, Pure.pure, Except.pure]
  rfl

theorem execCasCapability_checked (c : CPair) (hg : s.sl.guard g = true)
    (hc : check (s.sl.cr m.c) s.sl.cmpt [permLD, permST, permLC, permSC, permAT] fmtIsLine (s.sl.coords m) = .ok e)
    (hv : if s.sl.committed = none then
        ∃ p, s.placeAt .atomic e = .ok p ∧ s.capValue (s.who s.cur) (s.sl.cn (c.val + 1)) (s.sl.cr m.c) p = none
      else s.capValueIssue (s.who s.cur) (s.sl.cn (c.val + 1)) (s.sl.cr m.c)
        (decide (mintBase ≤ e.va) && decide (e.va < counterBase)) = none) :
    exec (.casCapability g c m) s =
      .next (s.deferOrOwe g (.ccas (s.sl.cn c.val) (s.sl.cn (c.val + 1)) e false) (.c c.val) (dField 3 0 c.val)) := by
  refine (guarded_true g s _ hg).trans (congrArg _ ?_)
  cases hcm : s.sl.committed with
  | none =>
    rw [hcm, if_pos rfl] at hv
    obtain ⟨p, hp, hv⟩ := hv
    simp only [checkAt_ok hc, hp, hv, Option.isNone_none, if_true, Bind.bind, Except.bind, Pure.pure, Except.pure]
    rfl
  | some n =>
    rw [hcm, if_neg (Option.some_ne_none n)] at hv
    simp only [checkAt_ok hc, hv, Option.isNone_some, Bool.false_eq_true, if_false, Bind.bind, Except.bind, Pure.pure, Except.pure]
    rfl

end

/-! ## The action at the home -/

section
variable {s : State} {w : Who} {e : Elem} {p : Place}

/-- The state in which the line of an element is ready for a write of a slot. -/
def State.readied (s : State) (w : Who) (e : Elem) (p : Place) : State := (s.touchPage w e.va).readyWrite w p true

theorem atomicElem_refused {n : Nat} (f : Nat → Option Nat) (h : s.xlate w .atomic false e.va = .error n) :
    s.atomicElem w e f = .error (FaultInfo.atElem n e) := by
  rw [State.atomicElem, h]

theorem atomicElem_poisoned (f : Nat → Option Nat) (h : s.xlate w .atomic false e.va = .ok p)
    (hp : (s.readied w e p).placePoisoned w p e.nib e.bits = true) : s.atomicElem w e f = .error (FaultInfo.atElem 0x23 e) := by
  rw [State.atomicElem, h]
  exact if_pos hp

theorem atomicElem_read {f : Nat → Option Nat} {old : Nat} (h : s.xlate w .atomic false e.va = .ok p)
    (hp : (s.readied w e p).placePoisoned w p e.nib e.bits = false)
    (ho : lineElem ((s.readied w e p).viewLine w p) e.va e.nib e.bits = old) :
    s.atomicElem w e f = match f old with
      | none => .ok (s.readied w e p, old)
      | some v => match (s.readied w e p).writeNow w p (.data p.key e.nib e.bits v) with
        | some s2 => .ok (s2, old)
        | none => .error (spillFault e) := by
  subst ho
  rw [State.atomicElem, h]
  exact if_neg (Bool.eq_false_iff.mp hp)

theorem atomicElem_kept {f : Nat → Option Nat} {old : Nat} (h : s.xlate w .atomic false e.va = .ok p)
    (hp : (s.readied w e p).placePoisoned w p e.nib e.bits = false)
    (ho : lineElem ((s.readied w e p).viewLine w p) e.va e.nib e.bits = old) (hf : f old = none) :
    s.atomicElem w e f = .ok (s.readied w e p, old) := by
  rw [atomicElem_read h hp ho, hf]

theorem atomicElem_written {f : Nat → Option Nat} {old v : Nat} {s2 : State} (h : s.xlate w .atomic false e.va = .ok p)
    (hp : (s.readied w e p).placePoisoned w p e.nib e.bits = false)
    (ho : lineElem ((s.readied w e p).viewLine w p) e.va e.nib e.bits = old) (hf : f old = some v)
    (hw : (s.readied w e p).writeNow w p (.data p.key e.nib e.bits v) = some s2) : s.atomicElem w e f = .ok (s2, old) := by
  rw [atomicElem_read h hp ho, hf]
  dsimp only
  rw [hw]

theorem atomicElem_full {f : Nat → Option Nat} {old v : Nat} (h : s.xlate w .atomic false e.va = .ok p)
    (hp : (s.readied w e p).placePoisoned w p e.nib e.bits = false)
    (ho : lineElem ((s.readied w e p).viewLine w p) e.va e.nib e.bits = old) (hf : f old = some v)
    (hw : (s.readied w e p).writeNow w p (.data p.key e.nib e.bits v) = none) : s.atomicElem w e f = .error (spillFault e) := by
  rw [atomicElem_read h hp ho, hf]
  dsimp only
  rw [hw]

theorem atomicCap_unplaced {v1 v2 : CapReg} {n : Nat} (again : Bool) (h : s.xlate w .atomic false e.va = .error n) :
    s.atomicCap w v1 v2 e again = .error (FaultInfo.atElem n e) := by
  rw [State.atomicCap, h]

theorem atomicCap_refused {v1 v2 : CapReg} {n : Nat} {again : Bool} (h : s.xlate w .atomic false e.va = .ok p)
    (hv : s.capValueAgain w v2 p again = some n) : s.atomicCap w v1 v2 e again = .error (FaultInfo.atElem n e) := by
  rw [State.atomicCap, h]
  dsimp only
  rw [hv]

theorem atomicCap_passed {v1 v2 : CapReg} {again : Bool} (h : s.xlate w .atomic false e.va = .ok p)
    (hv : s.capValueAgain w v2 p again = none) : s.atomicCap w v1 v2 e again =
      if (s.readied w e p).placePoisoned w p 0 512 || (s.readied w e p).genLost w.world w.part ((s.readied w e p).viewLine w p) then
        .error (FaultInfo.atElem 0x23 e)
      else if (s.readied w e p).loadedCap w p ((s.readied w e p).viewLine w p) = v1 then
        match (s.readied w e p).writeNow w p (.line v2) with
        | some s2 => .ok (s2, (s.readied w e p).loadedCap w p ((s.readied w e p).viewLine w p))
        | none => .error (spillFault e)
      else .ok (s.readied w e p, (s.readied w e p).loadedCap w p ((s.readied w e p).viewLine w p)) := by
  rw [State.atomicCap, h]
  dsimp only
  rw [hv]
  rfl

theorem atomicCap_written {v1 v2 : CapReg} {again : Bool} {s2 : State} (h : s.xlate w .atomic false e.va = .ok p)
    (hv : s.capValueAgain w v2 p again = none)
    (hl : ¬ ((s.readied w e p).placePoisoned w p 0 512
      || (s.readied w e p).genLost w.world w.part ((s.readied w e p).viewLine w p)) = true)
    (he : (s.readied w e p).loadedCap w p ((s.readied w e p).viewLine w p) = v1)
    (hw : (s.readied w e p).writeNow w p (.line v2) = some s2) :
    s.atomicCap w v1 v2 e again = .ok (s2, (s.readied w e p).loadedCap w p ((s.readied w e p).viewLine w p)) := by
  rw [atomicCap_passed h hv, if_neg hl, if_pos he, hw]

theorem atomicCap_full {v1 v2 : CapReg} {again : Bool} (h : s.xlate w .atomic false e.va = .ok p)
    (hv : s.capValueAgain w v2 p again = none)
    (hl : ¬ ((s.readied w e p).placePoisoned w p 0 512
      || (s.readied w e p).genLost w.world w.part ((s.readied w e p).viewLine w p)) = true)
    (he : (s.readied w e p).loadedCap w p ((s.readied w e p).viewLine w p) = v1)
    (hw : (s.readied w e p).writeNow w p (.line v2) = none) : s.atomicCap w v1 v2 e again = .error (spillFault e) := by
  rw [atomicCap_passed h hv, if_neg hl, if_pos he, hw]

end

/-- The checks of R43 that the home makes: the first, when `tret` performs the `cas` again, then the second and the fifth. -/
theorem capValueAgain_eq (s : State) (w : Who) (v : CapReg) (p : Place) (again : Bool) : s.capValueAgain w v p again =
    if again = true ∧ v.tag = true ∧ p.kind ≠ .mint ∧ v.f.life = 4 ∧ (s.worldAt w.world).rev ≠ none
      ∧ s.generation w.world w.part v.f.base ≠ some v.f.gen then some 0x15
    else if v.tag = true ∧ (p.untagged = true ∨ p.kind = .peer ∧ peerOwner p.key ≠ w.world) then some 0x16
    else none := by
  have hgen : (again && v.tag && p.kind != .mint && v.f.life == 4 && s.revoking w.world && s.stale w.world w.part v) = true ↔
      again = true ∧ v.tag = true ∧ p.kind ≠ .mint ∧ v.f.life = 4 ∧ (s.worldAt w.world).rev ≠ none
        ∧ s.generation w.world w.part v.f.base ≠ some v.f.gen := by
    simp only [Bool.and_eq_true, stale_iff, bne_iff_ne, beq_iff_eq, State.revoking, Option.isSome_iff_ne_none]
    tauto
  unfold State.capValueAgain
  simp only [hgen]
  congr 1
  cases hv : v.tag
  · simp [capValuePlace, hv]
  · by_cases hu : p.untagged = true
    · simp [capValuePlace, hv, hu]
    · by_cases hk : p.kind = .peer ∧ peerOwner p.key ≠ w.world
      · simp [capValuePlace, hv, hu, hk]
      · simp [capValuePlace, hv, hu, hk]

end Sys2Proof.Machine
end

section

open Sys2Proof Sys2Proof.Machine Sys2Proof.Safety

theorem atomicsDeferOrOwe : Parts.AtomicsDeferOrOwe := by
  unfold Parts.AtomicsDeferOrOwe
  intro s g t k d x c m e hg checked data caps x1 x2 c1 c2 fa fc fl
  refine ⟨fun hn hroom p hp => ⟨fun hc => ⟨?_, ?_⟩, fun hc hv => ?_⟩, fun hn => ⟨fun hc => ⟨?_, ?_⟩, fun hc hv => ?_⟩⟩
  · exact deferOrOwe_defers (issues_mk rfl) (execAmo_checked k d hg hc fun _ => ⟨p, hp⟩) hn hroom
  · exact deferOrOwe_defers (issues_mk rfl) (execCas_checked x hg hc fun _ => ⟨p, hp⟩) hn hroom
  · exact deferOrOwe_defers (issues_mk rfl) (execCasCapability_checked c hg hc (if_pos hn ▸ ⟨p, hp, hv⟩)) hn hroom
  · exact deferOrOwe_owes (issues_mk rfl) (execAmo_checked k d hg hc fun h => absurd h hn) hn
  · exact deferOrOwe_owes (issues_mk rfl) (execCas_checked x hg hc fun h => absurd h hn) hn
  · exact deferOrOwe_owes (issues_mk rfl) (execCasCapability_checked c hg hc (if_neg hn ▸ hv)) hn

theorem atomicActions : Parts.AtomicActions := by
  unfold Parts.AtomicActions
  intro s w seq t x y v1 v2 again e p old s2 a b bitwise result s1 does all full
  have hresult : ∀ k, unsignedOf t.width (result k) = amoResult t k old x.toNat := by
    intro k
    cases k
    case add | min | max => rfl
    case and => exact unsignedOf_of_lt (Nat.and_lt_two_pow _ (uval_lt t _))
    case or => exact unsignedOf_of_lt (Nat.or_lt_two_pow (uval_lt t _) (uval_lt t _))
    case xor => exact unsignedOf_of_lt (Nat.xor_lt_two_pow (uval_lt t _) (uval_lt t _))
    case swap => exact unsignedOf_val t _
  refine ⟨fun n h => ⟨⟨fun k => ?_, ?_⟩, atomicCap_unplaced again h⟩, fun h => ⟨fun hp => ⟨fun k => ?_, ?_⟩, fun hp ho => ?_, ?_⟩⟩
  · exact congrArg (Except.map _) (atomicElem_refused _ h)
  · exact congrArg (Except.map _) (atomicElem_refused _ h)
  · exact congrArg (Except.map _) (atomicElem_poisoned _ h hp)
  · exact congrArg (Except.map _) (atomicElem_poisoned _ h hp)
  · intro writes returns
    have hy : unsignedOf t.width (val t y.toNat) = uval t y.toNat := unsignedOf_val t _
    refine ⟨fun k => ⟨fun hw => ?_, fun hw => ?_⟩, fun he => ⟨fun hw => ?_, fun hw => ?_⟩, fun he => ?_⟩
    · exact congrArg (Except.map _) (atomicElem_written (f := fun z => some (amoResult t k z x.toNat)) h hp ho
        (congrArg some (hresult k).symm) hw)
    · exact congrArg (Except.map _) (atomicElem_full (f := fun z => some (amoResult t k z x.toNat)) h hp ho
        (congrArg some (hresult k).symm) hw)
    · exact congrArg (Except.map _) (atomicElem_written h hp ho ((if_pos he).trans (congrArg some hy.symm)) hw)
    · exact congrArg (Except.map _) (atomicElem_full h hp ho ((if_pos he).trans (congrArg some hy.symm)) hw)
    · exact congrArg (Except.map _) (atomicElem_kept h hp ho (if_neg he))
  · intro old15 refused line writes lost
    have hagain : s.capValueAgain w v2 p again = if old15 then some 0x15 else if refused then some 0x16 else none :=
      capValueAgain_eq s w v2 p again
    have hlost : (s1.placePoisoned w p 0 512 || s1.genLost w.world w.part (s1.viewLine w p)) = true ↔ lost := Bool.or_eq_true_iff
    refine ⟨fun h15 => atomicCap_refused h (hagain.trans (if_pos h15)),
      fun h15 hr => atomicCap_refused h (hagain.trans ((if_neg h15).trans (if_pos hr))), fun h15 hr hl => ?_, fun h15 hr hl => ?_⟩
    · exact (atomicCap_passed h (hagain.trans ((if_neg h15).trans (if_neg hr)))).trans (if_pos (hlost.mpr hl))
    · have hv := hagain.trans ((if_neg h15).trans (if_neg hr))
      have hl' := mt hlost.mp hl
      exact ⟨fun hne => (atomicCap_passed h hv).trans ((if_neg hl').trans (if_neg hne)),
        fun he => ⟨fun hw => atomicCap_written h hv hl' he hw, fun hw => atomicCap_full h hv hl' he hw⟩⟩

/-- Settles O10, by the checks at issue and the cases of the action at the home. -/
theorem atomics : Obligations.Atomics := ⟨atomicsDeferOrOwe, atomicActions⟩

end

section
/-!
Sluices at issue, on their line, and applied (R194 … R197).
-/

namespace Sys2Proof.Machine
open Sys2Proof.Safety

/-! ## At issue -/

section
variable {s : State} {g : Ctl} {c : CapReg} {k : Coords} {perms : List Nat} {e : Elem} {p : Place} {o : SluiceOp}

theorem sluiceCheck_misaligned {cmpt : Nat} (h : check c cmpt perms fmtIsData k = .ok e) (ha : e.va % 64 ≠ 0) :
    sluiceCheck c cmpt perms k = .error (FaultInfo.atElem 0x36 e) := by
  unfold sluiceCheck
  rw [h]
  exact if_pos ha

theorem sluiceIssue_misaligned (amountOk : Bool) (h : check c s.sl.cmpt perms fmtIsData k = .ok e) (ha : e.va % 64 ≠ 0) :
    s.sluiceIssue g c k perms amountOk o = s.faultNow (FaultInfo.atElem 0x36 e) := by
  unfold State.sluiceIssue
  rw [sluiceCheck_misaligned h ha]
  rfl

theorem sluiceIssue_amount (h : check c s.sl.cmpt perms fmtIsData k = .ok e) (ha : e.va % 64 = 0) :
    s.sluiceIssue g c k perms false o = s.faultNow (FaultInfo.atElem 0x36 e) := by
  unfold State.sluiceIssue
  rw [sluiceCheck_ok h ha]
  rfl

/-- An operation whose operand is checked and placed joins the deferred effects, or enters the store queue. -/
theorem sluiceIssue_placed (h : check c s.sl.cmpt perms fmtIsData k = .ok e) (ha : e.va % 64 = 0) (hp : s.placeAt .atomic e = .ok p) :
    s.sluiceIssue g c k perms true o =
      if s.sl.committed.isNone && c.f.life != 0 then s.defer g (.sluice o e) none 0
      else match s.reserve (s.who s.cur) s.sl.seq p with
        | none => s.faultNow (spillFault e)
        | some s1 => (s1.enqueue none [(.sluice e o, p)]).done g := by
  unfold State.sluiceIssue
  rw [sluiceCheck_ok h ha]
  simp only [causeAt, if_true, hp, Bind.bind, Except.bind, Pure.pure, Except.pure]
  rfl

end

/-! ## The fields of a line -/

/-- The fields of a Sluice fit their bits. -/
structure SluiceF.Fits (f : SluiceF) : Prop where
  flips : f.flips < 2 ^ 32
  eb : f.eb < 2 ^ 64
  ab : f.ab < 2 ^ 64
  ea : f.ea < 2 ^ 64
  aa : f.aa < 2 ^ 64

/-- The fields of a Sluice line with their widths, from bit 0 up: the phase bit's word is the first, zeros the last (R194). -/
def SluiceF.fields (f : SluiceF) : List (Nat × Nat) :=
  [(32, f.flips % 2), (32, f.flips), (64, f.eb), (64, f.ab), (64, f.ea), (64, f.aa), (192, 0)]

theorem SluiceF.fields_fit {f : SluiceF} (h : f.Fits) : ∀ x ∈ f.fields, x.2 < 2 ^ x.1 := by
  have hph : f.flips % 2 < 2 ^ 32 := by omega
  simp only [SluiceF.fields, List.forall_mem_cons]
  exact ⟨hph, h.flips, h.eb, h.ab, h.ea, h.aa, Nat.two_pow_pos _, fun _ hx => nomatch hx⟩

theorem SluiceF.line_toNat {f : SluiceF} (h : f.Fits) : f.line.toNat = packed f.fields := by
  obtain ⟨h1, h2, h3, h4, h5⟩ := h
  unfold SluiceF.line
  rw [Nat.mod_eq_of_lt h1, Nat.mod_eq_of_lt h2, Nat.mod_eq_of_lt h3, Nat.mod_eq_of_lt h4, Nat.mod_eq_of_lt h5, BitVec.toNat_ofNat]
  have hbits : fieldBits f.fields = 512 := by simp [fieldBits, SluiceF.fields]
  have hlt := packed_lt f.fields (SluiceF.fields_fit ⟨h1, h2, h3, h4, h5⟩)
  rw [hbits] at hlt
  refine Eq.trans (congrArg (· % 2 ^ 512) ?_) (Nat.mod_eq_of_lt hlt)
  simp only [packed, SluiceF.fields]
  ring

/-- What each field of the line of a Sluice holds, with its phase bit, and zeros above them (R194). -/
theorem SluiceF.line_fields {f : SluiceF} (h : f.Fits) :
    f.line.toNat / 2 ^ 0 % 2 ^ 32 = f.flips % 2 ∧ f.line.toNat / 2 ^ 32 % 2 ^ 32 = f.flips ∧ f.line.toNat / 2 ^ 64 % 2 ^ 64 = f.eb
    ∧ f.line.toNat / 2 ^ 128 % 2 ^ 64 = f.ab ∧ f.line.toNat / 2 ^ 192 % 2 ^ 64 = f.ea ∧ f.line.toNat / 2 ^ 256 % 2 ^ 64 = f.aa
    ∧ f.line.toNat / 2 ^ 320 % 2 ^ 192 = 0 := by
  rw [SluiceF.line_toNat h]
  have field (i n : Nat) {w x : Nat} (hi : f.fields[i]? = some (w, x)) (hn : fieldBits (f.fields.take i) = n) :
      packed f.fields / 2 ^ n % 2 ^ w = x := hn ▸ packed_field f.fields i w x (SluiceF.fields_fit h) hi
  refine ⟨field 0 0 rfl ?_, field 1 32 rfl ?_, field 2 64 rfl ?_, field 3 128 rfl ?_, field 4 192 rfl ?_, field 5 256 rfl ?_,
    field 6 320 rfl ?_⟩ <;> simp [fieldBits, SluiceF.fields]

theorem SluiceF.of_fits (l : Line) : (SluiceF.of l).Fits := by
  constructor <;> exact Nat.mod_lt _ (Nat.two_pow_pos _)

/-- A Sluice with its flip fits its line. -/
theorem SluiceF.flip_fits {f : SluiceF} (h : f.Fits) : f.flip.Fits := by
  unfold SluiceF.flip
  split
  · exact ⟨Nat.mod_lt _ (Nat.two_pow_pos _), Nat.two_pow_pos _, Nat.two_pow_pos _, h.ea, Nat.two_pow_pos _⟩
  · exact h

/-- A Sluice that has met its expectations flips (R194). -/
theorem SluiceF.flip_due {f : SluiceF} (h : f.ea ≤ f.aa ∧ f.eb ≤ f.ab) :
    f.flip = { f with flips := (f.flips + 1) % 2 ^ 32, aa := 0, ab := 0, eb := 0 } := if_pos h

theorem SluiceF.flip_undue {f : SluiceF} (h : ¬ (f.ea ≤ f.aa ∧ f.eb ≤ f.ab)) : f.flip = f := if_neg h

/-! ## At the home -/

theorem arrive_untied {s : State} {a : Arrival} (h : s.rival a = none) : s.arrive a = s.serve a := by
  unfold State.arrive
  rw [h]

theorem applyOut_refused {s : State} {key : Nat} {o : Out} {e : Elem} {op : SluiceOp} (ho : o.op = .sluice e op)
    (h : s.refusesOut key o = true) : s.applyOut key o = s.refuseOut key o := by
  unfold State.applyOut
  rw [ho]
  exact if_pos h

theorem applyOut_applied {s t : State} {key : Nat} {o : Out} {e : Elem} {op : SluiceOp} (ho : o.op = .sluice e op)
    (h : s.refusesOut key o = false) (ht : s.applySluice (s.who key) op e = .ok t) :
    s.applyOut key o = (t.unreserve (s.who key) o.seq o.place.la).updOut key o fun x => { x with lvl := 3 } := by
  unfold State.applyOut
  rw [ho]
  dsimp only
  rw [h, if_neg Bool.false_ne_true, ht]

/-! ## The line that an operation leaves -/

theorem memWrite_line (s : State) (k : Nat) (v : CapReg) : s.memWrite k (.line v) = s.putLine k v := rfl

/-- A write of a line to memory of the core's own die, which no proxy keeps from the home. -/
theorem rootWrite_near {s : State} {core : Nat} {p : Place} (op : WOp) (h : dieOf core = p.home / 64) :
    s.rootWrite core p op = s.memWrite p.key op := by
  unfold State.rootWrite State.atProxy
  rw [if_neg]
  simp [h]

/-- A line of the local window, or of the core's own die, reads as it was written. -/
theorem lineAt_placeWrite {s : State} {w : Who} {p : Place} (v : CapReg)
    (h : (p.kind = .dev ∧ dieOf w.core = p.home / 64) ∨ p.kind = .win) : (s.placeWrite w p (.line v)).lineAt p.key = v := by
  unfold State.placeWrite
  obtain ⟨hk, hd⟩ | hk := h
  · rw [hk]
    dsimp only
    rw [rootWrite_near _ hd]
    exact lineAt_putLine_self s p.key v
  · rw [hk]
    exact lineAt_putLine_self s p.key v

/-- A write of a slot outside the revisions is one of its place, after the update round that it makes. -/
theorem writeNow_rootless {s t : State} {w : Who} {p : Place} {op : WOp} (hw : w.rev = none)
    (h : s.writeNow w p op = some t) : ∃ u : State, t = u.placeWrite w p op := by
  unfold State.writeNow at h
  split at h
  · exact ⟨s, (Option.some.inj h).symm⟩
  · rw [hw, show s.targetOf none p.la = none from rfl] at h
    exact ⟨_, (Option.some.inj h).symm⟩

theorem applySluice_lost {s : State} {w : Who} {op : SluiceOp} {e : Elem} {p : Place} (h : s.xlate w .atomic false e.va = .ok p)
    (hl : (s.readied w e p).placePoisoned w { p with key := 64 * lineKey p.key } 0 512 = true) :
    s.applySluice w op e = .error (FaultInfo.atElem 0x23 { e with va := e.va / 64 * 64, nib := 0, bits := 512 }) := by
  unfold State.applySluice State.atomicLine
  rw [h]
  exact congrArg (Except.map _) (if_pos hl)

theorem applySluice_read {s : State} {w : Who} {op : SluiceOp} {e : Elem} {p : Place} (h : s.xlate w .atomic false e.va = .ok p)
    (hl : ¬ (s.readied w e p).placePoisoned w { p with key := 64 * lineKey p.key } 0 512 = true) {r : Option State}
    (hr : (s.readied w e p).writeNow w p (.line { bits := op.apply ((s.readied w e p).viewLine w p).bits, tag := false }) = r) :
    s.applySluice w op e = r.elim (.error (spillFault e)) .ok := by
  unfold State.readied at hl hr
  subst hr
  unfold State.applySluice State.atomicLine
  rw [h]
  dsimp only
  rw [if_neg hl]
  generalize State.writeNow _ _ _ _ = r
  cases r <;> rfl

end Sys2Proof.Machine
end

section

open Sys2Proof Sys2Proof.Machine Sys2Proof.Safety

theorem sluiceIssue : Parts.SluiceIssue := by
  unfold Parts.SluiceIssue
  intro s g d m r n e p hg x issues
  have hissues : ∀ {i : Instr} {c : CReg} {k : Coords} {perms : List Nat} {amountOk : Prop} {o : SluiceOp} (b : Bool),
      Issues i g → exec i s = guarded g s (s.sluiceIssue g (s.sl.cr c) k perms b o) → (b = true ↔ amountOk) →
      issues i c k perms amountOk o := by
    intro i c k perms amountOk o b hi he hb hc
    rw [guarded_true g s _ hg] at he
    have hdef : (s.sl.committed.isNone && (s.sl.cr c).f.life != 0) = true ↔ s.sl.committed = none ∧ (s.sl.cr c).f.life ≠ 0 := by
      simp only [Bool.and_eq_true, Option.isNone_iff_eq_none, bne_iff_ne]
    refine ⟨fun ha => he.trans (congrArg _ (sluiceIssue_misaligned b hc ha)), fun ha hbad => ?_, fun ha hok hp => ?_⟩
    · rw [Bool.eq_false_of_not_eq_true (mt hb.mp hbad)] at he
      exact he.trans (congrArg _ (sluiceIssue_amount hc ha))
    · rw [hb.mpr hok, sluiceIssue_placed hc ha hp] at he
      refine ⟨fun hd hr => ?_, fun hd hroom => ?_, fun hd hfull => ?_⟩
      · obtain ⟨s1, h1⟩ := Option.isSome_iff_exists.mp hr
        rw [if_neg (mt hdef.mp hd), h1] at he
        exact queues_done hi (reserve_revs h1) he
      · rw [if_pos (hdef.mpr hd)] at he
        exact defers_done hi he hroom
      · rw [if_pos (hdef.mpr hd), defer_full g _ _ _ hfull] at he
        exact he
  exact ⟨hissues _ (issues_mk rfl) rfl decide_eq_true_iff, hissues true (issues_mk rfl) rfl (by simp),
    hissues true (issues_mk rfl) rfl (by simp), hissues true (issues_mk rfl) rfl (by simp), hissues true (issues_mk rfl) rfl (by simp)⟩

theorem sluiceOperations : Parts.SluiceOperations := by
  unfold Parts.SluiceOperations
  constructor
  · intro l n field flips eb ab ea aa holds flipped
    have hl : (SluiceF.of l).Fits := SluiceF.of_fits l
    have hholds : ∀ {f : SluiceF}, f.Fits → holds f.line f.flips f.eb f.ab f.ea f.aa := fun h => SluiceF.line_fields h
    have hflip : ∀ {eb' ab' aa' : Nat}, eb' < 2 ^ 64 → ab' < 2 ^ 64 → aa' < 2 ^ 64 →
        flipped (SluiceF.flip { SluiceF.of l with eb := eb', ab := ab', aa := aa' }).line eb' ab' aa' := by
      intro eb' ab' aa' h1 h2 h3
      have hfit : SluiceF.Fits { SluiceF.of l with eb := eb', ab := ab', aa := aa' } := ⟨hl.flips, h1, h2, hl.ea, h3⟩
      have h := hholds (SluiceF.flip_fits hfit)
      by_cases hc : ea ≤ aa' ∧ eb' ≤ ab'
      · rw [SluiceF.flip_due hc] at h ⊢
        exact (if_pos hc).mpr h
      · rw [SluiceF.flip_undue hc] at h ⊢
        exact (if_neg hc).mpr h
    refine ⟨fun hn => ?_, ?_, fun haa => ?_, ?_⟩
    · have hea : n < 2 ^ 64 := by omega
      exact hholds (f := { flips := 0, eb := 0, ab := 0, ea := n, aa := 0 })
        ⟨Nat.two_pow_pos _, Nat.two_pow_pos _, Nat.two_pow_pos _, hea, Nat.two_pow_pos _⟩
    · exact hflip (Nat.mod_lt _ (Nat.two_pow_pos _)) hl.ab hl.aa
    · exact hflip hl.eb (Nat.mod_lt _ (Nat.two_pow_pos _)) haa
    · exact hflip hl.eb (Nat.mod_lt _ (Nat.two_pow_pos _)) hl.aa
  · intro s c k o e op t key hfirst hop hr
    have hexec : exec (.sluiceOperationApply c k) s = .next (if s.outReady key o then s.applyOut key o else s) := by
      refine (congrArg _ (arrive_untied hr)).trans (congrArg _ ?_)
      show (match (s.slotAt key).sluiceOut with
        | some o => if s.outReady key o then s.applyOut key o else s
        | none => s) = _
      rw [show (s.slotAt key).sluiceOut = some o from hfirst]
    refine ⟨fun hready href => ?_, fun hready href ht => ⟨_, hexec, ?_⟩, fun hready => ?_⟩
    · rw [hexec, if_pos hready, applyOut_refused hop href]
    · rw [if_pos hready, applyOut_applied hop href ht]
      rfl
    · rw [hexec, if_neg (Bool.eq_false_iff.mp hready)]

theorem sluiceLines : Parts.SluiceLines := by
  unfold Parts.SluiceLines
  intro s w op e p h s1 lost new near stored
  refine ⟨fun hl => applySluice_lost h hl, fun hl hw => applySluice_read h hl hw, fun hl t ht => ⟨applySluice_read h hl ht, ?_⟩⟩
  intro _ hrev hplace
  obtain ⟨u, rfl⟩ := writeNow_rootless hrev ht
  exact lineAt_placeWrite new hplace

/-- Settles O24, by the cases at issue, the fields of a Sluice line, and what the home stores. -/
theorem sluices : Obligations.Sluices := ⟨sluiceIssue, sluiceOperations, sluiceLines⟩

end

section
/-!
Fences and wide releases at issue (R148, R304 … R306, R310, R311), and the hints (R149, R150).
-/

namespace Sys2Proof.Machine
open Sys2Proof.Safety

/-! ## What a release waits for -/

theorem acked_iff (sl : Slot) (seq sc : Nat) : sl.acked seq sc = true ↔
    (∀ o ∈ sl.out, o.seq < seq → ackLevel sc ≤ o.got) ∧ ∀ o ∈ sl.owed, o.seq < seq → o.res = none → o.flight.elems = [] := by
  simp only [Slot.acked, Owed.open_, Bool.and_eq_true, List.all_eq_true, Bool.or_eq_true, decide_eq_true_eq, Bool.not_eq_true',
    Option.isNone_eq_false_iff, Option.isSome_iff_ne_none, beq_iff_eq]
  refine and_congr (forall₂_congr fun o _ => ?_) (forall₂_congr fun o _ => ?_)
  · rw [← Nat.not_lt, imp_iff_not_or]
  · rw [← Nat.not_lt, imp_iff_not_or, imp_iff_not_or, or_assoc]

theorem cumulative_iff (s : State) (die stamp : Nat) : s.cumulative die stamp = true ↔
    ∀ c ∈ s.coh, ∀ x ∈ c.2.inval, dieOf x.1 = die → stamp ≤ x.2.2.2 := by
  simp only [State.cumulative, List.all_eq_true, Bool.not_eq_true', Bool.and_eq_false_iff, beq_eq_false_iff_ne,
    decide_eq_false_iff_not, Nat.not_lt]
  refine forall₂_congr fun c _ => forall₂_congr fun x _ => ?_
  rw [imp_iff_not_or]

theorem releaseOk_iff (s : State) (key seq sc stamp : Nat) : s.releaseOk key seq sc stamp = true ↔
    (s.slotAt key).acked seq sc = true ∧ (6 ≤ sc → s.cumulative (dieOf (key / 4)) stamp = true) := by
  unfold State.releaseOk
  rw [Bool.and_eq_true, Bool.or_eq_true, decide_eq_true_eq, ← Nat.not_le, imp_iff_not_or]

/-- A scope holds a device beside this package (R296, R310). -/
theorem hasPeers_iff (s : State) (w : Who) (sc : Nat) : s.hasPeers w sc = true ↔
    s.pathsOf w.world ≠ [] ∧ (sc = 7 → ∃ n, n < 16 ∧ (s.memberOf w.part n).isSome = true
      ∧ ∃ k, k < min 8 (s.stripeSet w.part n).1 ∧ (s.stripeSet w.part n).2 k ≠ s.pkg) := by
  simp only [State.hasPeers, State.stripePeers, Bool.and_eq_true, bne_iff_ne, Bool.or_eq_true, List.any_eq_true, List.mem_range,
    imp_iff_not_or, ne_eq]

theorem any_round_iff (l : List Round) (p : Round → Bool) (key : Nat) :
    (l.any fun r => r.of key && p r) = true ↔ ∃ q ∈ l, q.of key = true ∧ p q = true := by
  simp only [List.any_eq_true, Bool.and_eq_true]

/-- The stamp of a release is drawn once, and its slot's rounds are dropped then: nothing else changes. -/
theorem stampOf_spec (s : State) : ∃ pr fr, s.stampOf.2 = { s with ports := pr, fresh := fr } := by
  unfold State.stampOf
  split
  · exact ⟨s.ports, s.fresh, rfl⟩
  · exact ⟨s.ports, s.fresh, rfl⟩
  · exact ⟨(s.dropRounds s.cur).ports, s.fresh + 1, rfl⟩

/-- A release waits: its earlier accesses are acknowledged and its scope holds a peer, and no round of its slot is under way. -/
def State.beginsRound (s : State) (sc st : Nat) : Bool :=
  (decide (7 ≤ sc) && s.hasPeers (s.who s.cur) sc) && s.releaseOk s.cur s.sl.seq 6 st && !s.hasRound s.cur

/-- The state in which a waiting release has begun its round, if it begins one. -/
def State.roundBegun (s : State) (sc st : Nat) : State := if s.beginsRound sc st then s.beginRound s.cur (s.who s.cur).world else s

theorem roundBegun_spec (s : State) (sc st : Nat) :
    s.roundBegun sc st = { s with ports := (s.roundBegun sc st).ports }
    ∧ (s.beginsRound sc st = false → (s.roundBegun sc st).ports = s.ports)
    ∧ (s.beginsRound sc st = true → ∃ q, (s.roundBegun sc st).ports =
          { s.ports with nround := (s.roundBegun sc st).ports.nround, rounds := s.ports.rounds ++ [q] }
        ∧ q.of s.cur = true ∧ q.world = (s.who s.cur).world ∧ q.paths = s.pathsOf (s.who s.cur).world ∧ q.got = [] ∧ q.done = false) := by
  unfold State.roundBegun
  refine ⟨?_, fun h => ?_, fun h => ?_⟩
  · split <;> rfl
  · rw [h]; rfl
  · rw [if_pos h]
    exact ⟨_, rfl, by simp [Round.of], rfl, rfl, rfl, rfl⟩

theorem awaitScope_ready {s : State} {sc : Nat} (f : State → State) (h : s.stampOf.2.scopeReady s.stampOf.2.cur sc s.stampOf.1 = true) :
    s.awaitScope sc f = f (s.stampOf.2.dropRounds s.stampOf.2.cur) := if_pos h

theorem awaitScope_waits {s : State} {sc : Nat} (f : State → State)
    (h : ¬ s.stampOf.2.scopeReady s.stampOf.2.cur sc s.stampOf.1 = true) : s.awaitScope sc f =
      let t := s.stampOf.2.roundBegun sc s.stampOf.1
      if t.ports.rounds.any fun r => r.of t.cur && !r.done then t.holdTimed (.release sc s.stampOf.1)
      else (t.updSl fun sl => { sl with timer := none }).hold (.release sc s.stampOf.1) := if_neg h

/-- A release beyond package scope whose store passes its checks waits for its scope at issue. -/
theorem execStRel_wide {s : State} {g : Ctl} {t : IType} {d : XReg} {r : MemReg} {sc : ScopeCode} {e : Elem} {p : Place}
    (hg : s.sl.guard g = true) (hsc : 7 ≤ sc.val)
    (hc : check (s.sl.cr r.c) s.sl.cmpt [permST] (fmtOfWidth t.width) (s.sl.coordsR r) = .ok e) (hp : s.placeAt .store e = .ok p)
    (hr : (s.reserve (s.who s.cur) s.sl.seq p).isSome = true) :
    exec (.stRel g t d r sc) s = .next (s.awaitScope sc.val fun u => u.storeAll g .store (some 6) (s.sl.cr r.c) (fmtOfWidth t.width)
      [(s.sl.coordsR r, BitVec.ofNat 64 (uval t (s.sl.xr d).toNat))]) := by
  obtain ⟨s1, h1⟩ := Option.isSome_iff_exists.mp hr
  refine (guarded_true g s _ hg).trans (congrArg _ ((if_neg (Nat.not_lt.mpr hsc)).trans ?_))
  rw [checkStores_cons_ok _ [] hc hp h1]
  rfl

/-! ## Hints -/

theorem execSunlock_placed {s : State} {g : Ctl} {m : MemOp} {e : Elem} {p : Place} (hg : s.sl.guard g = true)
    (hc : check (s.sl.cr m.c) s.sl.cmpt [permLD] fmtIsData (s.sl.coords m) = .ok e)
    (hx : s.xlate (s.who s.cur) .load false e.va = .ok p) :
    exec (.sunlock g m) s = .next ((s.unpinLine (s.who s.cur) (lineKey p.key) e.va).doneStall g 0) := by
  refine (guarded_checked g s _ _ _ _ e _ hg hc).trans (congrArg _ ?_)
  rw [hx]
  rfl

/-- The line's copy with the team's pin in a set of the L1 (R149). -/
def Mine (team lk : Nat) (ways : List L1Line) : Prop := ∃ x ∈ ways, x.key = lk ∧ x.pin = some team

theorem mine_iff (team lk : Nat) (ways : List L1Line) :
    (ways.any fun x => x.key == lk && x.pin == some team) = true ↔ Mine team lk ways := by
  simp only [Mine, List.any_eq_true, Bool.and_eq_true, beq_iff_eq]

theorem unpinLine_none {s : State} {w : Who} {lk va : Nat}
    (h : ¬ Mine w.team lk (SMap.look [] (s.coreAt w.core).l1 (va / 64 % 1024))) : s.unpinLine w lk va = s :=
  if_neg (mt (mine_iff _ _ _).mp h)

/-- A set of the L1 whose copies of a line are unpinned: a copy that was invalid goes (R149). -/
def unpinnedWays (lk : Nat) (ways : List L1Line) : List L1Line :=
  ways.flatMap fun x => if x.key ≠ lk then [x] else if x.valid = true then [{ x with pin := none }] else []

theorem unpinnedWays_eq (lk : Nat) (ways : List L1Line) :
    (ways.filterMap fun y => if y.key = lk then (if y.valid then some { y with pin := none } else none) else some y) =
      unpinnedWays lk ways := by
  unfold unpinnedWays
  induction ways with
  | nil => rfl
  | cons x t ih =>
    rw [List.filterMap_cons, List.flatMap_cons, ih]
    by_cases hk : x.key = lk
    · by_cases hv : x.valid = true
      · simp [hk, hv]
      · simp [hk, hv]
    · simp [hk]

theorem unpinLine_mine {s : State} {w : Who} {lk va : Nat}
    (h : Mine w.team lk (SMap.look [] (s.coreAt w.core).l1 (va / 64 % 1024))) : s.unpinLine w lk va =
      (s.updCore w.core fun c => { c with
        l1 := SMap.put [] c.l1 (va / 64 % 1024) (unpinnedWays lk (SMap.look [] (s.coreAt w.core).l1 (va / 64 % 1024))) }).updTeam w.team
          fun t => { t with pins := t.pins - 1 } := by
  rw [← unpinnedWays_eq]
  exact if_pos ((mine_iff _ _ _).mpr h)

/-- What a prefetch that may go on does at the place of its element (R150). -/
def State.prefetched (s : State) (l : PrefLevel) (va : Nat) (p : Place) : State :=
  let w := s.who s.cur
  match p.kind with
  | .dev => if s.noRecord w va then s.dropPrefetch else s.prefetch l w p
  | .host => if s.noRecord w va then s.dropPrefetch else match l with
    | .l1 => s
    | .l2 => s.makeReadable w.core p
    | .stash => s
  | .peer => s
  | .win => s.dropPrefetch
  | .ctr => s.dropPrefetch
  | .mint => s.dropPrefetch

section
variable {s : State} {g : Ctl} {l : PrefLevel} {m : MemOp}

theorem pref_unchecked {n : Nat} (hg : s.sl.guard g = true)
    (hc : check (s.sl.cr m.c) s.sl.cmpt [permLD] fmtIsData (s.sl.coords m) = .error n) :
    ActsVia (.pref g l m) s s.dropPrefetch := by
  refine actsVia_doneStall _ s _ g 0 (issues_mk rfl) ((guarded_true g s _ hg).trans (congrArg _ ?_))
  rw [checkAt_error hc]
  rfl

theorem pref_unplaced {e : Elem} {n : Nat} (hg : s.sl.guard g = true)
    (hc : check (s.sl.cr m.c) s.sl.cmpt [permLD] fmtIsData (s.sl.coords m) = .ok e)
    (hx : s.xlate (s.who s.cur) .load false e.va = .error n) : ActsVia (.pref g l m) s s.dropPrefetch := by
  refine actsVia_doneStall _ s _ g 0 (issues_mk rfl) ((guarded_true g s _ hg).trans (congrArg _ ?_))
  rw [checkAt_ok hc]
  dsimp only
  rw [hx]
  rfl

theorem execPref_placed {e : Elem} {p : Place} (hg : s.sl.guard g = true)
    (hc : check (s.sl.cr m.c) s.sl.cmpt [permLD] fmtIsData (s.sl.coords m) = .ok e)
    (hx : s.xlate (s.who s.cur) .load false e.va = .ok p) :
    exec (.pref g l m) s = .next ((s.prefetched l e.va p).doneStall g 0) := by
  refine (guarded_true g s _ hg).trans (congrArg _ ?_)
  rw [checkAt_ok hc]
  dsimp only
  rw [hx]
  rfl

/-- A prefetch acts as its place and level say. -/
theorem pref_via {t : State} {e : Elem} {p : Place} (hg : s.sl.guard g = true)
    (hc : check (s.sl.cr m.c) s.sl.cmpt [permLD] fmtIsData (s.sl.coords m) = .ok e)
    (hx : s.xlate (s.who s.cur) .load false e.va = .ok p) (ht : s.prefetched l e.va p = t) : ActsVia (.pref g l m) s t :=
  actsVia_doneStall _ s t g 0 (issues_mk rfl) (ht ▸ execPref_placed hg hc hx)

theorem pref_not {e : Elem} {p : Place} (hg : s.sl.guard g = true)
    (hc : check (s.sl.cr m.c) s.sl.cmpt [permLD] fmtIsData (s.sl.coords m) = .ok e)
    (hx : s.xlate (s.who s.cur) .load false e.va = .ok p) (ht : s.prefetched l e.va p = s) : ActsNot (.pref g l m) s :=
  actsNot_done _ s g 0 (issues_mk rfl) ((execPref_placed hg hc hx).trans (by rw [ht]))

end

/-! ## Where a prefetch goes -/

section
variable {s : State} {l : PrefLevel} {va : Nat} {p : Place}

theorem prefetched_peer (hk : p.kind = .peer) : s.prefetched l va p = s := by
  unfold State.prefetched
  rw [hk]

theorem prefetched_aperture (hk : p.kind = .win ∨ p.kind = .ctr ∨ p.kind = .mint) : s.prefetched l va p = s.dropPrefetch := by
  unfold State.prefetched
  obtain hk | hk | hk := hk <;> rw [hk]

theorem prefetched_unrecorded (hk : p.kind = .host ∨ p.kind = .dev) (hr : s.noRecord (s.who s.cur) va = true) :
    s.prefetched l va p = s.dropPrefetch := by
  unfold State.prefetched
  obtain hk | hk := hk <;> rw [hk] <;> exact if_pos hr

theorem prefetched_host (hk : p.kind = .host) (hr : s.noRecord (s.who s.cur) va = false) : s.prefetched l va p = match l with
    | .l1 => s
    | .l2 => s.makeReadable (s.cur / 4) p
    | .stash => s := by
  unfold State.prefetched
  rw [hk]
  dsimp only
  rw [if_neg (Bool.eq_false_iff.mp hr)]
  rfl

theorem prefetched_dev (hk : p.kind = .dev) (hr : s.noRecord (s.who s.cur) va = false) :
    s.prefetched l va p = s.prefetch l (s.who s.cur) p := by
  unfold State.prefetched
  rw [hk]
  exact if_neg (Bool.eq_false_iff.mp hr)

end

end Sys2Proof.Machine
end

section

open Sys2Proof Sys2Proof.Machine Sys2Proof.Safety

theorem fencesAndReleases : Parts.FencesAndReleases := by
  unfold Parts.FencesAndReleases
  intro s g sc t d r e p hg st s1 part peers acked ready begins holds
  obtain ⟨pr, fr, hs1⟩ := stampOf_spec s
  have hs1 : s1 = { s with ports := pr, fresh := fr } := hs1
  have hcur : s1.cur = s.cur := by rw [hs1]
  have hsl : s1.sl = s.sl := by rw [hs1]; rfl
  have hslot : s1.slotAt s1.cur = s.sl := by rw [hs1]; rfl
  have hcoh : s1.coh = s.coh := by rw [hs1]
  have hworld : (s1.who s1.cur).world = s.sl.world := congrArg Slot.world hslot
  have hpart : (s1.who s1.cur).part = part := congrArg Slot.part hslot
  have hacked : s1.releaseOk s1.cur s.sl.seq (min sc.val 6) st = true ↔ acked := by
    rw [releaseOk_iff, hslot, acked_iff, cumulative_iff, hcoh, hcur, Nat.le_min, and_iff_left (le_refl 6), and_assoc]
  have hpeers : (decide (7 ≤ sc.val) && s1.hasPeers (s1.who s1.cur) sc.val) = true ↔ peers := by
    rw [Bool.and_eq_true, decide_eq_true_eq, hasPeers_iff, hworld, hpart]
  have hrounds : (s1.ports.rounds.any fun q => q.of s1.cur && q.done) = true ↔
      ∃ q ∈ s1.ports.rounds, q.of s.cur = true ∧ q.done = true := by
    rw [any_round_iff, hcur]
  have hready : s1.scopeReady s1.cur sc.val st = true ↔ ready := by
    have hround : (decide (sc.val < 7) || !s1.hasPeers (s1.who s1.cur) sc.val
        || s1.ports.rounds.any fun q => q.of s1.cur && q.done) = true ↔
        (peers → ∃ q ∈ s1.ports.rounds, q.of s.cur = true ∧ q.done = true) := by
      rw [← hpeers, ← hrounds, imp_iff_not_or, Bool.and_eq_true, not_and_or, Bool.or_eq_true, Bool.or_eq_true, decide_eq_true_eq,
        decide_eq_true_eq, Nat.not_le, Bool.not_eq_true', Bool.not_eq_true]
    have hhost : (decide (sc.val < 9) || (s1.slotAt s1.cur).hostDirty == []) = true ↔ (9 ≤ sc.val → s.sl.hostDirty = []) := by
      rw [hslot, Bool.or_eq_true, decide_eq_true_eq, beq_iff_eq, ← Nat.not_le, imp_iff_not_or]
    unfold State.scopeReady State.roundReady
    rw [Bool.and_eq_true, Bool.and_eq_true, hhost, hround, hslot, hacked, and_assoc]
  have hbegins : s1.beginsRound sc.val st = true ↔ begins := by
    have hno : (!s1.hasRound s1.cur) = true ↔ ∀ q ∈ s1.ports.rounds, q.of s.cur = false := by
      rw [Bool.not_eq_true', State.hasRound, List.any_eq_false, hcur]
      simp only [Bool.not_eq_true]
    have hwide : peers → (s1.releaseOk s1.cur s.sl.seq 6 st = true ↔ acked) := by
      intro ⟨hsc, _⟩
      rw [← hacked, Nat.min_eq_right (by omega : 6 ≤ sc.val)]
    rw [State.beginsRound, Bool.and_eq_true, Bool.and_eq_true, hpeers, hno, hsl, and_assoc]
    exact ⟨fun ⟨hp, hr, hn⟩ => ⟨(hwide hp).mp hr, hp, hn⟩, fun ⟨ha, hp, hn⟩ => ⟨hp, (hwide hp).mpr ha, hn⟩⟩
  have hholds : ∀ {i : Instr} {f : State → State}, exec i s = .next (s.awaitScope sc.val f) → ¬ ready → holds i := by
    intro i f hi hn
    have hi : exec i s = .next
        (if ((s1.roundBegun sc.val st).ports.rounds.any fun q => q.of (s1.roundBegun sc.val st).cur && !q.done) = true then
          (s1.roundBegun sc.val st).holdTimed (.release sc.val st)
        else ((s1.roundBegun sc.val st).updSl fun sl => { sl with timer := none }).hold (.release sc.val st)) :=
      hi.trans (congrArg _ (awaitScope_waits f (mt hready.mp hn)))
    obtain ⟨hports, hidle, hround⟩ := roundBegun_spec s1 sc.val st
    have hsame : ∀ (h : Slot → Slot), Elsewhere { s1 with ports := (s1.roundBegun sc.val st).ports } ((s1.roundBegun sc.val st).updSl h) :=
      fun h => by rw [← hports]; exact elsewhere_updSl _ h
    have hrsl : (s1.roundBegun sc.val st).sl = s.sl := by rw [hports, ← hsl]; rfl
    have hrcur : (s1.roundBegun sc.val st).cur = s.cur := by rw [hports, ← hcur]
    have hnow : (s1.roundBegun sc.val st).now = s.now := by rw [hports, hs1]
    have hcore : (s1.roundBegun sc.val st).core = s.core := by rw [hports, hs1]; rfl
    have hno : ¬ begins → (s1.roundBegun sc.val st).ports = s1.ports := fun hb => hidle (Bool.eq_false_of_not_eq_true (mt hbegins.mp hb))
    have hyes : begins → ∃ q, (s1.roundBegun sc.val st).ports =
          { s1.ports with nround := (s1.roundBegun sc.val st).ports.nround, rounds := s1.ports.rounds ++ [q] }
          ∧ q.of s.cur = true ∧ q.world = s.sl.world ∧ q.paths = s1.pathsOf s.sl.world ∧ q.got = [] ∧ q.done = false := by
      intro hb
      rw [← hworld, ← hcur]
      exact hround (hbegins.mpr hb)
    have hwaits : ((s1.roundBegun sc.val st).ports.rounds.any fun q => q.of (s1.roundBegun sc.val st).cur && !q.done) = true ↔
        ∃ q ∈ (s1.roundBegun sc.val st).ports.rounds, q.of s.cur = true ∧ q.done = false := by
      rw [any_round_iff, hrcur]
      simp only [Bool.not_eq_true']
    by_cases hw : ((s1.roundBegun sc.val st).ports.rounds.any fun q => q.of (s1.roundBegun sc.val st).cur && !q.done) = true
    · refine ⟨_, hi.trans (congrArg _ (if_pos hw)), ?_, fun _ => ?_, fun h => absurd (hwaits.mp hw) h, hsame _, hno, hyes⟩
      · rw [State.holdTimed, State.sl_updSl, hrsl]
      · rw [State.holdTimed, State.sl_updSl, hrsl, hnow, hcore]
    · refine ⟨_, hi.trans (congrArg _ (if_neg hw)), ?_, fun h => absurd (hwaits.mpr h) hw, fun _ => ?_, ?_, hno, hyes⟩
      · simp only [State.hold, State.sl_updSl, hrsl]
      · rw [State.hold, State.sl_updSl, State.sl_updSl]
      · exact elsewhere_trans (hsame _) (elsewhere_updSl _ _)
  refine ⟨fun hr => ?_, fun hr => ?_, fun hsc hc hp hres => ⟨fun hr => ?_, fun hr => ?_⟩⟩
  · exact actsVia_doneStall _ s _ g 0 (issues_mk rfl)
      ((guarded_true g s _ hg).trans (congrArg _ ((awaitScope_ready _ (hready.mpr hr)).trans (congrArg (fun k => (s1.dropRounds k).done g) hcur))))
  · exact hholds (guarded_true g s _ hg) hr
  · have hexec := execStRel_wide (d := d) hg hsc hc hp hres
    have hg1 : (s1.dropRounds s.cur).sl.guard g = true := by rw [hs1]; exact hg
    refine hexec.trans (Eq.trans (congrArg _ ?_) (guarded_true g (s1.dropRounds s.cur) _ hg1).symm)
    rw [awaitScope_ready _ (hready.mpr hr), hcur, if_pos (by decide)]
    have hsl2 : (s1.dropRounds s.cur).sl = s.sl := hsl
    rw [hsl2]
    rfl
  · exact hholds (execStRel_wide hg hsc hc hp hres) hr

theorem prefetchAndUnlock : Parts.PrefetchAndUnlock := by
  unfold Parts.PrefetchAndUnlock
  intro s g l m e p n hg w core dropped checks set_ lk ways mine free
  refine ⟨fun hc => ⟨pref_unchecked hg hc, ?_⟩, fun hc => ⟨fun hx => ⟨pref_unplaced hg hc hx, ?_⟩, fun hx =>
    ⟨fun hm => ?_, fun hm => ?_, fun hk => ?_, fun hk => ?_, fun hk hr => ?_, fun hk hr => ?_, fun hk hr => ?_⟩⟩⟩
  · refine (guarded_true g s _ hg).trans (congrArg _ ?_)
    rw [checkAt_error hc]
    rfl
  · refine actsNot_done _ s g 0 (issues_mk rfl) ((guarded_checked g s _ _ _ _ e _ hg hc).trans (congrArg _ ?_))
    rw [hx]
    rfl
  · exact actsNot_done _ s g 0 (issues_mk rfl) ((execSunlock_placed hg hc hx).trans
      (congrArg (fun u : State => Host.Outcome.next (u.doneStall g 0)) (unpinLine_none (w := w) (lk := lk) hm)))
  · refine actsVia_doneStall _ s _ g 0 (issues_mk rfl) ((execSunlock_placed hg hc hx).trans ?_)
    rw [unpinLine_mine (w := w) (lk := lk) hm]
    rfl
  · exact pref_not hg hc hx (prefetched_peer hk)
  · exact pref_via hg hc hx (prefetched_aperture hk)
  · exact pref_via hg hc hx (prefetched_unrecorded hk hr)
  · exact ⟨pref_not hg hc hx (prefetched_host hk hr), pref_not hg hc hx (prefetched_host hk hr), pref_via hg hc hx (prefetched_host hk hr)⟩
  · refine ⟨fun hno => pref_not hg hc hx ((prefetched_dev hk hr).trans (if_pos ?_)),
      fun hl1 hp => pref_via hg hc hx ((prefetched_dev hk hr).trans (if_neg ?_)), pref_via hg hc hx (prefetched_dev hk hr),
      fun hb => pref_via hg hc hx ((prefetched_dev hk hr).trans (if_neg ?_)),
      fun hb ho => pref_not hg hc hx ((prefetched_dev hk hr).trans ((if_pos ?_).trans (if_neg ?_))),
      fun hb ho hp => pref_via hg hc hx ((prefetched_dev hk hr).trans ((if_pos ?_).trans (if_pos ?_)))⟩
    · exact Bool.or_eq_true_iff.mpr hno
    · rw [Bool.or_eq_true, not_or, Bool.not_eq_true, Bool.not_eq_true]
      exact ⟨hl1, hp⟩
    · exact Nat.not_lt.mpr (Nat.le_of_eq hb)
    · exact Nat.pos_of_ne_zero hb
    · rw [Bool.and_eq_true, Option.isNone_iff_eq_none, Option.isNone_iff_eq_none]
      exact fun ⟨h1, h2⟩ => ho.elim (fun h => Option.isSome_iff_ne_none.mp h h1) fun h => Option.isSome_iff_ne_none.mp h h2
    · exact Nat.pos_of_ne_zero hb
    · rw [Bool.and_eq_true, Option.isNone_iff_eq_none, Option.isNone_iff_eq_none]
      exact ⟨ho, hp⟩

/-- Settles O11, by what a release waits for and the cases of a prefetch. -/
theorem fencesAndHints : Obligations.FencesAndHints := ⟨fencesAndReleases, prefetchAndUnlock⟩

end

section
/-!
What making a line ready for an access leaves alone (R285 … R323, R337): everything but memory, coherence, the slices, the
counters, the records of first touches, and of each core its slots and caches.
-/

namespace Sys2Proof.Machine
open Sys2Proof.Safety

/-- A core without its slots, its caches and their banks. -/
def offBanks (c : Core) : Core := { offCache c with gated := [] }

/-- The state without what a cache, a home or a counter holds, and without the records of first touches; and its cores. -/
def offReady (s : State) : State × (Nat → Core) := ({ offLine s with touch := [] }, fun c => offBanks (s.coreAt c))

theorem LineWork.offReady {s u : State} (h : LineWork s u) : offReady u = offReady s :=
  Prod.ext (congrArg (fun t : State => { t with touch := [] }) h.rest)
    (funext fun c => congrArg (fun x : Core => { x with gated := [] }) (h.cores c))

/-! ## The shared steps -/

@[simp] theorem offReady_updCoh (s : State) (l : Nat) (f : LineCoh → LineCoh) : offReady (s.updCoh l f) = offReady s := rfl

@[simp] theorem offReady_updSlice (s : State) (n : Nat) (f : Slice → Slice) : offReady (s.updSlice n f) = offReady s := rfl

theorem offReady_updCore (s : State) (c : Nat) {f : Core → Core} (hf : ∀ x, offBanks (f x) = offBanks x) :
    offReady (s.updCore c f) = offReady s := by
  refine Prod.ext rfl (funext fun d => ?_)
  change offBanks ((s.updCore c f).coreAt d) = offBanks (s.coreAt d)
  rw [State.coreAt_updCore]
  split
  · next h => rw [hf, h]
  · rfl

@[simp] theorem offReady_count (s : State) (k u n a : Nat) : offReady (s.count k u n a) = offReady s := rfl

@[simp] theorem offReady_updLine (s : State) (p : Place) (f : LineCoh → LineCoh) : offReady (s.updLine p f) = offReady s := rfl

@[simp] theorem offReady_dropDie (s : State) (die lk : Nat) : offReady (s.dropDie die lk) = offReady s :=
  (dropDie_lineWork s die lk).offReady

@[simp] theorem offReady_leaveSlice (s : State) (slice lk : Nat) : offReady (s.leaveSlice slice lk) = offReady s :=
  (leaveSlice_lineWork s slice lk).offReady

@[simp] theorem offReady_doInvalidate (s : State) (lk : Nat) : offReady (s.doInvalidate lk) = offReady s :=
  (doInvalidate_lineWork s lk).offReady

@[simp] theorem offReady_doSnoopInval (s : State) (lk : Nat) : offReady (s.doSnoopInval lk) = offReady s :=
  (doSnoopInval_lineWork s lk).offReady

@[simp] theorem offReady_doSnoopRead (s : State) (lk : Nat) : offReady (s.doSnoopRead lk) = offReady s :=
  (doSnoopRead_lineWork s lk).offReady

@[simp] theorem offReady_settle (s : State) (lk : Nat) : offReady (s.settle lk) = offReady s := (settle_lineWork s lk).offReady

@[simp] theorem offReady_recallHost (s : State) (lk : Nat) (wr : Bool) : offReady (s.recallHost lk wr) = offReady s :=
  (recallHost_lineWork s lk wr).offReady

@[simp] theorem offReady_outsideReady (s : State) (lk : Nat) (wr : Bool) : offReady (s.outsideReady lk wr) = offReady s :=
  (outsideReady_lineWork s lk wr).offReady

@[simp] theorem offReady_freeRegion (s : State) (slice : Nat) (keep : Option Region) : offReady (s.freeRegion slice keep) = offReady s :=
  (freeRegion_lineWork s slice keep).offReady

@[simp] theorem offReady_drainChannel (s : State) (slice lk core : Nat) : offReady (s.drainChannel slice lk core) = offReady s :=
  (drainChannel_lineWork s slice lk core).offReady

@[simp] theorem offReady_dropStash (s : State) (core : Nat) (sel : StashLine → Bool) : offReady (s.dropStash core sel) = offReady s :=
  (dropStash_lineWork s core sel).offReady

@[simp] theorem offReady_updateRound (s : State) (slice lk : Nat) : offReady (s.updateRound slice lk) = offReady s :=
  (updateRound_lineWork s slice lk).offReady

@[simp] theorem offReady_touchPage (s : State) (w : Who) (va : Nat) : offReady (s.touchPage w va) = offReady s := by
  unfold State.touchPage State.noteTouch
  split
  · split <;> rfl
  · rfl

/-! ## Lines that enter and leave caches -/

@[simp] theorem offReady_evictProxy (s : State) (lk : Nat) : offReady (s.evictProxy lk) = offReady s := by
  unfold State.evictProxy
  dsimp only
  split <;> simp

@[simp] theorem offReady_evictLine (s : State) (slice lk : Nat) : offReady (s.evictLine slice lk) = offReady s := by
  unfold State.evictLine
  rw [offReady_leaveSlice]
  split
  · rfl
  · split <;> simp

@[simp] theorem offReady_enterSlice (s : State) (slice lk : Nat) : offReady (s.enterSlice slice lk) = offReady s := by
  unfold State.enterSlice
  dsimp only
  split
  · rfl
  · split <;> simp

@[simp] theorem offReady_sliceAccess (s : State) (slice lk : Nat) : offReady (s.sliceAccess slice lk) = offReady s := by
  unfold State.sliceAccess
  split <;> simp

@[simp] theorem offReady_noteFill (s : State) (slice lk : Nat) : offReady (s.noteFill slice lk) = offReady s := by
  unfold State.noteFill
  split
  · rfl
  · dsimp only
    rw [offReady_updSlice]
    split <;> simp

@[simp] theorem offReady_doReadShared (s : State) (lk : Nat) : offReady (s.doReadShared lk) = offReady s := by
  unfold State.doReadShared
  dsimp only
  split <;> simp

@[simp] theorem offReady_doOwn (s : State) (lk : Nat) : offReady (s.doOwn lk) = offReady s := by
  have harr : offReady (if (s.cohAt lk).snoop = some .invAck then s.doInvalidate lk else s) = offReady s := by
    split <;> simp
  unfold State.doOwn
  dsimp only
  split <;> simp [harr]

@[simp] theorem offReady_fillStash (s : State) (core : Nat) (p : Place) : offReady (s.fillStash core p) = offReady s := by
  unfold State.fillStash
  dsimp only
  rw [offReady_noteFill]
  split
  · refine (offReady_updCore _ _ ?_).trans (by simp)
    exact fun _ => rfl
  · split
    · refine (offReady_updCore _ _ ?_).trans (by simp)
      exact fun _ => rfl
    · simp

@[simp] theorem offReady_enterStash (s : State) (core : Nat) (p : Place) : offReady (s.enterStash core p) = offReady s := by
  unfold State.enterStash
  split <;> simp

@[simp] theorem offReady_hostLine (s : State) (p : Place) (wr : Bool) : offReady (s.hostLine p wr) = offReady s := by
  unfold State.hostLine
  simp

/-! ## Readiness -/

/-- One of two. -/
theorem offReady_ite {s t u : State} (p : Prop) [Decidable p] (ht : offReady t = offReady s) (hu : offReady u = offReady s) :
    offReady (if p then t else u) = offReady s := by
  split
  · exact ht
  · exact hu

theorem offBanks_useStash (c : Core) (lk : Nat) (wr : Bool) : offBanks (c.useStash lk wr) = offBanks c := by
  unfold Core.useStash
  split <;> rfl

theorem offBanks_fillL1 (c : Core) (va lk : Nat) : offBanks (c.fillL1 va lk) = offBanks c := by
  unfold Core.fillL1
  dsimp only
  split
  · rfl
  · split
    · rfl
    · split <;> rfl

/-- An access of a line that a stash owns. -/
theorem offReady_owned (s : State) (core k slice lk line : Nat) (wr : Bool) :
    offReady ((if k = core then s else s.sliceAccess slice lk).updCore k fun x => x.useStash line wr) = offReady s := by
  rw [offReady_updCore _ _ fun x => offBanks_useStash x line wr]
  split <;> simp

@[simp] theorem offReady_makeReadable (s : State) (core : Nat) (p : Place) : offReady (s.makeReadable core p) = offReady s := by
  unfold State.makeReadable
  split
  · simp
  · split
    · simp
    · split
      · rfl
      · dsimp only
        split
        · rw [offReady_owned]; simp
        · rw [offReady_noteFill, offReady_updCore _ _ fun x => offBanks_fillL1 x _ _]
          have current (t : State) (ht : offReady t = offReady s) : offReady
              (if decide (dieOf core = p.home / 64) then (t.doSnoopRead (lineKey p.key)).recallHost (lineKey p.key) false
               else if (t.cohAt (lineKey p.key)).proxy = .I then (t.sliceAccess p.home (lineKey p.key)).doReadShared (lineKey p.key)
               else t) = offReady s :=
            offReady_ite _ (by simp [ht]) (offReady_ite _ (by simp [ht]) ht)
          have hc := current (((s.updLine p id).settle (lineKey p.key)).enterStash core p) (by simp)
          exact offReady_ite _ hc (by rw [offReady_drainChannel, offReady_sliceAccess, hc])

@[simp] theorem offReady_makeWritable (s : State) (core : Nat) (p : Place) (whole : Bool) :
    offReady (s.makeWritable core p whole) = offReady s := by
  unfold State.makeWritable
  split
  · simp
  · split
    · simp
    · split
      · rfl
      · dsimp only
        split
        · rw [offReady_owned]; simp
        · split
          · split
            · simp
            · split <;> simp
            all_goals simp
          · simp

@[simp] theorem offReady_readyRead (s : State) (w : Who) (p : Place) : offReady (s.readyRead w p) = offReady s := by
  unfold State.readyRead
  split <;> simp

@[simp] theorem offReady_readyWrite (s : State) (w : Who) (p : Place) (whole : Bool) :
    offReady (s.readyWrite w p whole) = offReady s := by
  unfold State.readyWrite
  split <;> simp

@[simp] theorem offReady_readied (s : State) (w : Who) (e : Elem) (p : Place) : offReady (s.readied w e p) = offReady s := by
  unfold State.readied
  simp

theorem revs_of_offReady {s u : State} (h : offReady u = offReady s) : u.revs = s.revs := (congrArg (fun v => v.1.revs) h :)

end Sys2Proof.Machine
end

section
/-!
What happens to one line while others are looked up, filled and evicted: its bytes, its tag, its errors and its state at home
and proxy stay, but for the slice that is recorded as its home.
-/

namespace Sys2Proof.Machine
open Sys2Proof.Safety

/-! ## Lines that move home -/

theorem moveLine_lineAt (s : State) (l j : Nat) (v : CapReg) : (s.moveLine l v).lineAt j = (s.putLine (64 * l) v).lineAt j := by
  have hk : lineKey (64 * l) = l := by unfold lineKey; omega
  unfold State.moveLine State.putLine State.lineAt State.tagAt
  rw [hk]

theorem lineAt_moveLine_self (s : State) (l : Nat) (v : CapReg) : (s.moveLine l v).lineAt (64 * l) = v := by
  rw [moveLine_lineAt, lineAt_putLine_self]

theorem lineAt_moveLine_ne (s : State) {l lk : Nat} (v : CapReg) (h : l ≠ lk) :
    (s.moveLine l v).lineAt (64 * lk) = s.lineAt (64 * lk) := by
  rw [moveLine_lineAt]
  refine lineAt_putLine_ne s v ?_
  unfold lineKey
  omega

/-! ## A line beside the others -/

/-- The state of a line at its home and proxy, without the slice that is recorded as its home. -/
def LineCoh.unhomed (c : LineCoh) : LineCoh := { c with slice := 0 }

/-- A line stays as it is, but for the slice that is recorded as its home. -/
structure LineSame (lk : Nat) (s u : State) : Prop where
  line : u.lineAt (64 * lk) = s.lineAt (64 * lk)
  poison : u.poison = s.poison
  coh : (u.cohAt lk).unhomed = (s.cohAt lk).unhomed

namespace LineSame
variable {lk : Nat}

theorem refl (s : State) : LineSame lk s s := ⟨rfl, rfl, rfl⟩

theorem trans {s t u : State} (h : LineSame lk s t) (k : LineSame lk t u) : LineSame lk s u :=
  ⟨k.line.trans h.line, k.poison.trans h.poison, k.coh.trans h.coh⟩

/-- A change of neither memory nor coherence. -/
theorem of_same {s u : State} (hm : u.mem = s.mem) (ht : u.tags = s.tags) (hp : u.poison = s.poison) (hc : u.coh = s.coh) :
    LineSame lk s u := by
  refine ⟨?_, hp, ?_⟩
  · unfold State.lineAt State.tagAt
    rw [hm, ht]
  · unfold State.cohAt
    rw [hc]

theorem foldl {α : Type} (f : State → α → State) (hf : ∀ s a, LineSame lk s (f s a)) (l : List α) :
    ∀ s, LineSame lk s (l.foldl f s) := by
  induction l with
  | nil => exact refl
  | cons a l ih => exact fun s => (hf s a).trans (ih (f s a))

/-- A change of the state of another line. -/
theorem updCoh_ne (s : State) {l : Nat} (f : LineCoh → LineCoh) (h : l ≠ lk) : LineSame lk s (s.updCoh l f) :=
  ⟨rfl, rfl, by rw [State.cohAt_updCoh, if_neg (Ne.symm h)]⟩

/-- A change of the slice that is recorded as a line's home. -/
theorem updLine (s : State) (p : Place) : LineSame lk s (s.updLine p id) := by
  refine ⟨rfl, rfl, ?_⟩
  unfold State.updLine
  rw [State.cohAt_updCoh]
  split
  · next h => rw [h]; rfl
  · rfl

theorem moveLine_ne (s : State) {l : Nat} (v : CapReg) (h : l ≠ lk) : LineSame lk s (s.moveLine l v) :=
  ⟨lineAt_moveLine_ne s v h, rfl, rfl⟩

theorem updCore (s : State) (c : Nat) (f : Core → Core) : LineSame lk s (s.updCore c f) := of_same rfl rfl rfl rfl

theorem updSlot (s : State) (k : Nat) (f : Slot → Slot) : LineSame lk s (s.updSlot k f) := of_same rfl rfl rfl rfl

theorem updSlice (s : State) (n : Nat) (f : Slice → Slice) : LineSame lk s (s.updSlice n f) := of_same rfl rfl rfl rfl

theorem count (s : State) (k u n a : Nat) : LineSame lk s (s.count k u n a) := of_same rfl rfl rfl rfl

theorem dropDie (s : State) (die l : Nat) : LineSame lk s (s.dropDie die l) :=
  foldl _ (fun t c => updCore t c (·.dropL1 _)) _ s

theorem leaveSlice (s : State) (slice l : Nat) : LineSame lk s (s.leaveSlice slice l) := by
  unfold State.leaveSlice
  split
  · exact of_same rfl rfl rfl rfl
  · exact refl s

theorem doSnoopInval_ne (s : State) {l : Nat} (h : l ≠ lk) : LineSame lk s (s.doSnoopInval l) := by
  have home : LineSame lk s (match (s.cohAt l).proxy with
    | .M => s.moveLine l (s.cohAt l).pcopy
    | .O => s.moveLine l (s.cohAt l).pcopy
    | .I => s
    | .S => s
    | .E => s) := by
    split
    · exact moveLine_ne s _ h
    · exact moveLine_ne s _ h
    all_goals exact refl s
  exact ((home.trans (dropDie _ _ _)).trans (leaveSlice _ _ _)).trans (updCoh_ne _ _ h)

theorem ackInvalidated_ne (s : State) {l : Nat} (h : l ≠ lk) : LineSame lk s (s.ackInvalidated l) :=
  (foldl _ (fun t _ => updSlot t _ _) _ s).trans (updCoh_ne _ _ h)

theorem doInvalidate_ne (s : State) {l : Nat} (h : l ≠ lk) : LineSame lk s (s.doInvalidate l) :=
  ((doSnoopInval_ne s h).trans (ackInvalidated_ne _ h)).trans (updCoh_ne _ _ h)

theorem evictProxy_ne (s : State) {l : Nat} (h : l ≠ lk) : LineSame lk s (s.evictProxy l) := by
  have back (f : LineCoh → LineCoh) : LineSame lk s
      (((s.dropDie (1 - (s.cohAt l).slice / 64) l).leaveSlice ((s.cohAt l).slice ^^^ 64) l).updCoh l f) :=
    ((dropDie s _ _).trans (leaveSlice _ _ _)).trans (updCoh_ne _ _ h)
  unfold State.evictProxy
  dsimp only
  split
  · exact refl s
  · exact back _
  · exact back _
  · exact doInvalidate_ne s h
  · exact doInvalidate_ne s h

theorem evictLine_ne (s : State) (slice : Nat) {l : Nat} (h : l ≠ lk) : LineSame lk s (s.evictLine slice l) := by
  unfold State.evictLine
  refine LineSame.trans ?_ (leaveSlice _ _ _)
  split
  · exact updCoh_ne s _ h
  · split
    · exact refl s
    · exact evictProxy_ne s h

end LineSame

theorem mem_of_look_ne {α : Type} (d : α) (m : SMap α) (i : Nat) (h : SMap.look d m i ≠ d) : (i, SMap.look d m i) ∈ m := by
  induction m with
  | nil => exact absurd rfl h
  | cons x t ih =>
    obtain ⟨k, v⟩ := x
    rw [SMap.look] at h ⊢
    split at h
    · next hk => rw [if_pos hk, hk]; exact .head _
    · next hk => rw [if_neg hk]; exact .tail _ (ih h)

/-- No way of a slice that does not hold a line is the line's. -/
theorem way_ne_of_not_hasLine {d : Slice} {lk i : Nat} (h : d.hasLine lk = false) (hi : SMap.look 0 d.ways i ≠ 0) :
    SMap.look 0 d.ways i - 1 ≠ lk := by
  intro he
  refine List.any_eq_false.mp h _ (mem_of_look_ne 0 d.ways i hi) ?_
  rw [beq_iff_eq]
  change SMap.look 0 d.ways i = lk + 1
  omega

/-- A line that a slice does not hold stays as it is when it enters the slice: what is evicted is another. -/
theorem LineSame.enterSlice {lk : Nat} (s : State) (slice : Nat) (h : (s.sliceAt slice).hasLine lk = false) :
    LineSame lk s (s.enterSlice slice lk) := by
  unfold State.enterSlice
  dsimp only
  split
  · exact updSlice s _ _
  · next hfull =>
    split
    · next w hw =>
      refine ((updSlice s slice _).trans (evictLine_ne _ slice (way_ne_of_not_hasLine h ?_))).trans (updSlice _ _ _)
      obtain ⟨j, -, rfl⟩ := List.mem_map.mp (List.mem_of_find?_eq_some hw)
      simpa using List.find?_eq_none.mp hfull _ (List.mem_range.mpr (Nat.mod_lt _ (by decide)))
    · exact updSlice s _ _

theorem LineSame.sliceAccess {lk : Nat} (s : State) (slice : Nat) : LineSame lk s (s.sliceAccess slice lk) := by
  unfold State.sliceAccess
  split
  · exact count s _ _ _ _
  · next h => exact (count s _ _ _ _).trans (enterSlice _ slice (Bool.eq_false_of_not_eq_true h))

theorem LineSame.noteTouch {lk : Nat} (s : State) (world cluster va leaf : Nat) :
    LineSame lk s (s.noteTouch world cluster va leaf) := by
  unfold State.noteTouch
  split
  · exact of_same rfl rfl rfl rfl
  · exact refl s

/-- The access of an outside agent that reaches its page leaves its line as it is. -/
theorem LineSame.outsideTouch {lk : Nat} (s : State) (world : Nat) : LineSame lk s (s.outsideTouch world lk) := by
  unfold State.outsideTouch
  split
  · dsimp only
    split
    · exact ((noteTouch s _ _ _ _).trans (updLine _ _)).trans (sliceAccess _ _)
    · exact noteTouch s _ _ _ _
  · exact refl s

theorem lineErrors_of_poison {s u : State} (h : u.poison = s.poison) (lk : Nat) : u.lineErrors lk = s.lineErrors lk := by
  unfold State.lineErrors
  rw [h]

/-! ## A line ready for an outside agent -/

/-- What an outside agent finds of a line: a write-back on its way to the home, a modified copy of the proxy's that no stash
has taken, or memory. -/
def State.current (s : State) (lk : Nat) : CapReg :=
  match (s.cohAt lk).wback with
  | some v => v
  | none => if (s.cohAt lk).owner = none ∧ (s.cohAt lk).proxy = .M then (s.cohAt lk).pcopy else s.lineAt (64 * lk)

/-- No snoop of a line is under way, and a write-back only of a copy that its proxy has given up. -/
def Settled (c : LineCoh) : Prop := c.snoop = none ∧ (c.wback = none ∨ c.proxy = .I)

theorem current_of_same {lk : Nat} {s u : State} (h : LineSame lk s u) : u.current lk = s.current lk := by
  have hw : (u.cohAt lk).wback = (s.cohAt lk).wback := (congrArg LineCoh.wback h.coh :)
  have ho : (u.cohAt lk).owner = (s.cohAt lk).owner := (congrArg LineCoh.owner h.coh :)
  have hp : (u.cohAt lk).proxy = (s.cohAt lk).proxy := (congrArg LineCoh.proxy h.coh :)
  have hc : (u.cohAt lk).pcopy = (s.cohAt lk).pcopy := (congrArg LineCoh.pcopy h.coh :)
  unfold State.current
  rw [hw, ho, hp, hc, h.line]

theorem settled_of_same {lk : Nat} {s u : State} (h : LineSame lk s u) (hs : Settled (s.cohAt lk)) : Settled (u.cohAt lk) := by
  have hsn : (u.cohAt lk).snoop = (s.cohAt lk).snoop := (congrArg LineCoh.snoop h.coh :)
  have hw : (u.cohAt lk).wback = (s.cohAt lk).wback := (congrArg LineCoh.wback h.coh :)
  have hp : (u.cohAt lk).proxy = (s.cohAt lk).proxy := (congrArg LineCoh.proxy h.coh :)
  unfold Settled
  rw [hsn, hw, hp]
  exact hs

/-- The host's copy of every line stays as it is. -/
def HostSame (s u : State) : Prop := ∀ l, (u.cohAt l).host = (s.cohAt l).host

namespace HostSame

theorem refl (s : State) : HostSame s s := fun _ => rfl

theorem trans {s t u : State} (h : HostSame s t) (k : HostSame t u) : HostSame s u := fun l => (k l).trans (h l)

theorem of_coh {s u : State} (h : u.coh = s.coh) : HostSame s u := fun l => by rw [State.cohAt, h, ← State.cohAt]

theorem updCoh (s : State) (l : Nat) (f : LineCoh → LineCoh) (hf : ∀ c, (f c).host = c.host) : HostSame s (s.updCoh l f) := by
  intro k
  rw [State.cohAt_updCoh]
  split
  · next h => rw [hf, h]
  · rfl

theorem foldl {α : Type} (f : State → α → State) (hf : ∀ s a, HostSame s (f s a)) (l : List α) : ∀ s, HostSame s (l.foldl f s) := by
  induction l with
  | nil => exact refl
  | cons a l ih => exact fun s => (hf s a).trans (ih (f s a))

theorem updCore (s : State) (c : Nat) (f : Core → Core) : HostSame s (s.updCore c f) := of_coh rfl

theorem updSlot (s : State) (k : Nat) (f : Slot → Slot) : HostSame s (s.updSlot k f) := of_coh rfl

theorem updSlice (s : State) (n : Nat) (f : Slice → Slice) : HostSame s (s.updSlice n f) := of_coh rfl

theorem count (s : State) (k u n a : Nat) : HostSame s (s.count k u n a) := of_coh rfl

theorem dropDie (s : State) (die l : Nat) : HostSame s (s.dropDie die l) := foldl _ (fun t c => updCore t c (·.dropL1 _)) _ s

theorem leaveSlice (s : State) (slice l : Nat) : HostSame s (s.leaveSlice slice l) := by
  unfold State.leaveSlice
  split
  · exact updSlice s _ _
  · exact refl s

theorem doSnoopInval (s : State) (l : Nat) : HostSame s (s.doSnoopInval l) := by
  have home : HostSame s (match (s.cohAt l).proxy with
    | .M => s.moveLine l (s.cohAt l).pcopy
    | .O => s.moveLine l (s.cohAt l).pcopy
    | .I => s
    | .S => s
    | .E => s) := by
    split <;> exact of_coh rfl
  exact ((home.trans (dropDie _ _ _)).trans (leaveSlice _ _ _)).trans (updCoh _ _ _ fun _ => rfl)

theorem ackInvalidated (s : State) (l : Nat) : HostSame s (s.ackInvalidated l) :=
  (foldl _ (fun t _ => updSlot t _ _) _ s).trans (updCoh _ _ _ fun _ => rfl)

theorem doInvalidate (s : State) (l : Nat) : HostSame s (s.doInvalidate l) :=
  ((doSnoopInval s l).trans (ackInvalidated _ l)).trans (updCoh _ _ _ fun c => by split <;> rfl)

theorem dropStash (s : State) (core : Nat) (sel : StashLine → Bool) : HostSame s (s.dropStash core sel) := by
  unfold State.dropStash
  refine (updCore s core _).trans (foldl _ (fun t _ => ?_) _ _)
  exact updCoh t _ _ fun _ => rfl

theorem flushRegion (s : State) (slice : Nat) (r : Region) : HostSame s (s.flushRegion slice r) := by
  unfold State.flushRegion
  refine (foldl _ (fun t _ => (updCoh t _ _ ?_).trans (count _ _ _ _ _)) _ s).trans (foldl _ (fun t c => updCore t c _) _ _)
  exact fun _ => rfl

theorem freeRegion (s : State) (slice : Nat) (keep : Option Region) : HostSame s (s.freeRegion slice keep) := by
  unfold State.freeRegion
  split
  · exact refl s
  · next r _ =>
    exact ((flushRegion s slice r).trans (foldl _ (fun t c => (updCore t c _).trans (dropStash _ c _)) _ _)).trans (updSlice _ _ _)

theorem splitRegion (s : State) (slice lk : Nat) : HostSame s (s.splitRegion slice lk) := by
  unfold State.splitRegion
  split
  · exact refl s
  · next r _ =>
    split
    · exact refl s
    · have room : HostSame s (if 8192 ≤ (s.sliceAt slice).dir.length then s.freeRegion slice (some r) else s) := by
        split
        · exact freeRegion s slice _
        · exact refl s
      exact room.trans (of_coh rfl)

theorem takeReply (s : State) (slice lk : Nat) (r : Reply) : HostSame s (s.takeReply slice lk r) := by
  cases r with
  | none => exact splitRegion s slice lk
  | applied => exact refl s
  | gone => exact refl s

theorem drainChannel (s : State) (slice lk core : Nat) : HostSame s (s.drainChannel slice lk core) := by
  unfold State.drainChannel
  refine HostSame.trans ?_ (updCore _ core _)
  split
  · refine (updCoh s lk _ ?_).trans (foldl _ (fun t _ => takeReply t slice lk _) _ _)
    exact fun _ => rfl
  · exact refl s

theorem updateRound (s : State) (slice lk : Nat) : HostSame s (s.updateRound slice lk) :=
  (count s 2 slice 2 1).trans
    (foldl _ (fun t c => ((updCore t c (·.acksArrive lk)).trans (drainChannel _ slice lk c)).trans (takeReply _ slice lk _)) _ _)

theorem homeRound (s : State) (lk : Nat) : HostSame s (s.homeRound lk) := by
  unfold State.homeRound
  split
  · exact updateRound s _ lk
  · exact refl s

end HostSame

/-! ## Readiness for an outside agent -/

/-- The line after its write-back has reached the home. -/
theorem settle_spec {s : State} {lk : Nat} (h : Settled (s.cohAt lk)) :
    (s.settle lk).lineAt (64 * lk) = ((s.cohAt lk).wback.getD (s.lineAt (64 * lk))) ∧ (s.settle lk).poison = s.poison
    ∧ ((s.settle lk).cohAt lk).owner = (s.cohAt lk).owner ∧ ((s.settle lk).cohAt lk).proxy = (s.cohAt lk).proxy
    ∧ ((s.settle lk).cohAt lk).pcopy = (s.cohAt lk).pcopy ∧ ((s.settle lk).cohAt lk).host = (s.cohAt lk).host := by
  obtain ⟨hsn, -⟩ := h
  cases hw : (s.cohAt lk).wback with
  | none =>
    rw [settle_of_idle hw hsn]
    exact ⟨rfl, rfl, rfl, rfl, rfl, rfl⟩
  | some v =>
    have hset : s.settle lk = (s.moveLine lk v).updCoh lk fun c => { c with wback := none, wbAck := false, home := .I } := by
      have hf : s.finishWriteBack lk = (s.moveLine lk v).updCoh lk fun c => { c with wback := none, wbAck := false, home := .I } := by
        rw [State.finishWriteBack, hw]
      have hsn' : ((s.finishWriteBack lk).cohAt lk).snoop = none := by
        rw [hf, State.cohAt_updCoh_self]
        exact hsn
      rw [State.settle, hsn', hf]
    have hcoh : (s.moveLine lk v).cohAt lk = s.cohAt lk := rfl
    rw [hset, State.cohAt_updCoh_self, hcoh]
    exact ⟨lineAt_moveLine_self s lk v, rfl, rfl, rfl, rfl, rfl⟩

theorem recallHost_coh (s : State) (lk : Nat) (wr : Bool) : (s.recallHost lk wr).cohAt lk = { s.cohAt lk with
    host := if wr = true ∨ (s.cohAt lk).host = .M then .I else (s.cohAt lk).host } := by
  unfold State.recallHost
  split
  · exact State.cohAt_updCoh_self s lk _
  · rfl

theorem recallHost_memory (s : State) (lk : Nat) (wr : Bool) :
    (s.recallHost lk wr).mem = s.mem ∧ (s.recallHost lk wr).tags = s.tags ∧ (s.recallHost lk wr).poison = s.poison := by
  unfold State.recallHost
  split <;> exact ⟨rfl, rfl, rfl⟩

/-- The host's copy once an outside agent has been given a line. -/
theorem outsideReady_host {s : State} {lk : Nat} (wr : Bool) (h : Settled (s.cohAt lk)) :
    ((s.outsideReady lk wr).cohAt lk).host = if wr = true ∨ (s.cohAt lk).host = .M then .I else (s.cohAt lk).host := by
  obtain ⟨-, -, -, -, -, hhost⟩ := settle_spec h
  have hr : (((s.settle lk).recallHost lk wr).cohAt lk).host = if wr = true ∨ (s.cohAt lk).host = .M then .I else (s.cohAt lk).host := by
    rw [recallHost_coh, hhost]
  rw [← hr]
  unfold State.outsideReady
  dsimp only
  split
  · rfl
  · split
    · split
      · rfl
      · exact HostSame.doInvalidate _ lk lk
      all_goals exact HostSame.doSnoopInval _ lk lk
    · unfold State.doSnoopRead
      dsimp only
      split
      · rw [State.cohAt_updCoh_self]; rfl
      · rw [State.cohAt_updCoh_self]
      all_goals rfl

/-- The line in memory, when no modified copy of the proxy's is to be read in its place. -/
theorem current_memory {s : State} {lk : Nat}
    (hm : (s.cohAt lk).owner = none → (s.cohAt lk).proxy ≠ .M) : s.current lk = (s.cohAt lk).wback.getD (s.lineAt (64 * lk)) := by
  unfold State.current
  cases (s.cohAt lk).wback with
  | some v => rfl
  | none => exact if_neg fun hx => hm hx.1 hx.2

/-- A line that an outside agent reads stands in memory as it is (R309, R323). -/
theorem outsideReady_current {s : State} {lk : Nat} (h : Settled (s.cohAt lk)) :
    (s.outsideReady lk false).lineAt (64 * lk) = s.current lk ∧ (s.outsideReady lk false).poison = s.poison := by
  obtain ⟨hl, hp, ho, hx, hc, -⟩ := settle_spec h
  obtain ⟨hm, ht, hp'⟩ := recallHost_memory (s.settle lk) lk false
  have hcoh := recallHost_coh (s.settle lk) lk false
  have hline : ((s.settle lk).recallHost lk false).lineAt (64 * lk) = (s.settle lk).lineAt (64 * lk) := by
    unfold State.lineAt State.tagAt
    rw [hm, ht]
  have howner : (((s.settle lk).recallHost lk false).cohAt lk).owner = (s.cohAt lk).owner := by rw [hcoh, ← ho]
  have hproxy : (((s.settle lk).recallHost lk false).cohAt lk).proxy = (s.cohAt lk).proxy := by rw [hcoh, ← hx]
  have hpcopy : (((s.settle lk).recallHost lk false).cohAt lk).pcopy = (s.cohAt lk).pcopy := by rw [hcoh, ← hc]
  have hkept : ((s.settle lk).recallHost lk false).lineAt (64 * lk) = (s.cohAt lk).wback.getD (s.lineAt (64 * lk)) := hline.trans hl
  have hpois : ((s.settle lk).recallHost lk false).poison = s.poison := hp'.trans hp
  unfold State.outsideReady
  dsimp only
  rw [howner]
  cases hown : (s.cohAt lk).owner with
  | some k =>
    rw [current_memory fun hn => absurd (hown.symm.trans hn) (Option.some_ne_none k)]
    exact ⟨hkept, hpois⟩
  | none =>
    dsimp only
    rw [if_neg Bool.false_ne_true]
    unfold State.doSnoopRead
    dsimp only
    rw [hproxy, hpcopy]
    cases hprox : (s.cohAt lk).proxy with
    | M =>
      have hw : (s.cohAt lk).wback = none := h.2.resolve_right fun hi => by rw [hprox] at hi; cases hi
      have hcur : s.current lk = (s.cohAt lk).pcopy := by rw [State.current, hw]; exact if_pos ⟨hown, hprox⟩
      exact ⟨(lineAt_moveLine_self _ lk _).trans hcur.symm, hpois⟩
    | _ =>
      rw [current_memory fun _ hm => by rw [hprox] at hm; cases hm]
      exact ⟨hkept, hpois⟩

end Sys2Proof.Machine
end

section
/-!
The accesses of the host and of peers (R309, R311, R323, R340, R363, R364).
-/

namespace Sys2Proof.Machine
open Sys2Proof.Safety

/-! ## Bytes of a line -/

theorem leBytes_succ (n v : Nat) : leBytes (n + 1) v = BitVec.ofNat 8 v :: leBytes n (v / 256) := by
  unfold leBytes
  rw [List.range_succ_eq_map, List.map_cons, List.map_map]
  refine List.cons_eq_cons.mpr ⟨by simp, List.map_congr_left fun j _ => ?_⟩
  have hdiv : v / 2 ^ (8 * (j + 1)) = v / 256 / 2 ^ (8 * j) := by
    rw [Nat.div_div_eq_div_mul, Nat.mul_succ, Nat.pow_add, Nat.mul_comm]
  exact congrArg (BitVec.ofNat 8) hdiv

/-- The bytes of the number that bytes spell are these bytes. -/
theorem leBytes_leNum (l : List Byte) : leBytes l.length (leNum l) = l := by
  induction l with
  | nil => rfl
  | cons b t ih =>
    have hcons : leNum (b :: t) = b.toNat + 256 * leNum t := rfl
    have hb := b.isLt
    rw [List.length_cons, leBytes_succ, hcons, show (b.toNat + 256 * leNum t) / 256 = leNum t by omega, ih]
    refine List.cons_eq_cons.mpr ⟨BitVec.eq_of_toNat_eq ?_, rfl⟩
    rw [BitVec.toNat_ofNat]
    omega

/-- The bytes of memory of a line are those of the line as it reads. -/
theorem getBytes_line (s : State) (lk : Nat) :
    Memory.getBytes s.mem (64 * lk) 64 = leBytes 64 (s.lineAt (64 * lk)).bits.toNat := by
  have hk : lineKey (64 * lk) = lk := by unfold lineKey; omega
  have hlen : (Memory.getBytes s.mem (64 * lk) 64).length = 64 := by simp [Memory.getBytes]
  have hlt := leNum_leBytes 64 (leNum (Memory.getBytes s.mem (64 * lk) 64))
  have hback := leBytes_leNum (Memory.getBytes s.mem (64 * lk) 64)
  rw [hlen] at hback
  rw [hback] at hlt
  unfold State.lineAt Memory.num
  rw [hk, BitVec.toNat_ofNat, ← hlt, hback]

/-! ## What the firewall refuses -/

/-- An outside agent of a world may access a line (R340, R357, R269). -/
def Owned (s : State) (line w : Nat) (wr : Bool) : Prop :=
  w = 0xFF ∨ w ≠ 0xFE ∧ 64 * line < 2 ^ 37 ∧ 64 * line % 2 ^ 36 < 0xFF8000000
    ∧ s.chunkOwner (64 * line) = w ∧ (wr = true → SMap.look 0 s.frames (line / 64) = 0) ∧ s.spillLine line = false

theorem outsideRefused_false_iff (s : State) (w line : Nat) (wr : Bool) : s.outsideRefused w line wr = false ↔ Owned s line w wr := by
  have hwrite : (wr = false ∨ SMap.look 0 s.frames (line / 64) = 0) ↔ (wr = true → SMap.look 0 s.frames (line / 64) = 0) := by
    rw [imp_iff_not_or, Bool.not_eq_true]
  unfold State.outsideRefused Owned backed
  simp only [Bool.and_eq_false_iff, Bool.or_eq_false_iff, bne_eq_false_iff_eq, beq_eq_false_iff_ne, Bool.not_eq_false',
    Bool.and_eq_true, decide_eq_true_eq, and_assoc, hwrite]

theorem outsideRefused_iff (s : State) (w line : Nat) (wr : Bool) : s.outsideRefused w line wr = true ↔ ¬ Owned s line w wr := by
  rw [← outsideRefused_false_iff, Bool.not_eq_false]

/-! ## The access -/

theorem outsideAccess_refused {s : State} {w lk : Nat} {wr : Bool} (tagged : Bool) (bs : List Byte) (h : ¬ Owned s lk w wr) :
    s.outsideAccess w lk wr tagged bs =
      { s with unsupported := true, reply := if wr then s.reply else List.replicate 64 0xFF } :=
  if_pos ((outsideRefused_iff s w lk wr).mpr h)

/-- The line of an access that the firewall lets through, once it is ready for it. -/
def State.outsideReached (s : State) (w lk : Nat) (wr : Bool) : State :=
  ((s.finishPend lk).outsideTouch w lk).outsideReady lk wr

theorem outsideReached_eq (s : State) (w lk : Nat) (wr : Bool) :
    s.outsideReached w lk wr = ((s.finishPend lk).outsideTouch w lk).outsideReady lk wr := rfl

theorem outsideReached_host {s : State} {w lk : Nat} (wr : Bool) (h : Settled ((s.finishPend lk).cohAt lk)) :
    ((s.outsideReached w lk wr).cohAt lk).host =
      if wr = true ∨ ((s.finishPend lk).cohAt lk).host = .M then .I else ((s.finishPend lk).cohAt lk).host := by
  have hsame := LineSame.outsideTouch (lk := lk) (s.finishPend lk) w
  have hhost : (((s.finishPend lk).outsideTouch w lk).cohAt lk).host = ((s.finishPend lk).cohAt lk).host :=
    (congrArg LineCoh.host hsame.coh :)
  rw [State.outsideReached, outsideReady_host wr (settled_of_same hsame h), hhost]

theorem outsideReached_line {s : State} {w lk : Nat} (h : Settled ((s.finishPend lk).cohAt lk)) :
    (s.outsideReached w lk false).lineAt (64 * lk) = (s.finishPend lk).current lk
    ∧ (s.outsideReached w lk false).lineErrors lk = (s.finishPend lk).lineErrors lk := by
  have hsame := LineSame.outsideTouch (lk := lk) (s.finishPend lk) w
  obtain ⟨hline, hpois⟩ := outsideReady_current (settled_of_same hsame h)
  exact ⟨hline.trans (current_of_same hsame), lineErrors_of_poison (hpois.trans hsame.poison) lk⟩

theorem offReady_outsideTouch (s : State) (w lk : Nat) : offReady (s.outsideTouch w lk) = offReady s := by
  have touch (world cluster va leaf : Nat) : offReady (s.noteTouch world cluster va leaf) = offReady s := by
    unfold State.noteTouch
    split <;> rfl
  unfold State.outsideTouch
  split
  · dsimp only
    split
    · rw [offReady_sliceAccess, offReady_updLine, touch]
    · exact touch _ _ _ _
  · rfl

theorem outsideReached_revs (s : State) (w lk : Nat) (wr : Bool) : (s.outsideReached w lk wr).revs = (s.finishPend lk).revs := by
  refine revs_of_offReady ?_
  rw [State.outsideReached, offReady_outsideReady, offReady_outsideTouch]

/-- A read gives the line as it is, in bytes, and to an agent that carries tags its tag (R45, R47). -/
theorem outsideAccess_read {s : State} {w lk : Nat} {tagged : Bool} (bs : List Byte) (ho : Owned s lk w false)
    (h : Settled ((s.finishPend lk).cohAt lk)) : s.outsideAccess w lk false tagged bs =
      { (s.outsideReached w lk false).answered true with
        reply := leBytes 64 ((s.finishPend lk).current lk).bits.toNat ++
          if tagged then [if ((s.finishPend lk).current lk).tag && (s.finishPend lk).lineErrors lk == [] then 1 else 0] else [] } := by
  obtain ⟨hline, herr⟩ := outsideReached_line (w := w) h
  unfold State.outsideAccess
  rw [if_neg (mt (outsideRefused_iff s w lk false).mp (not_not.mpr ho)), ← outsideReached_eq]
  generalize s.outsideReached w lk false = u at hline herr ⊢
  rw [← herr, ← hline, ← getBytes_line]
  rfl

/-- The state in which the bytes of a write are put into memory, where no revision copies the line. -/
def State.outsideShared (s : State) (w lk : Nat) : State := ((s.outsideReached w lk true).answered true).homeRound lk

theorem shareEntries_no_revs {s : State} (h : s.revs = []) (w : Nat) (target : Option Nat) (la : Nat) (cur : CapReg) (err : List Nat) :
    s.shareEntries w target la cur err = s := by
  unfold State.shareEntries
  rw [h]
  rfl

theorem answered_revs (s : State) (ok : Bool) : (s.answered ok).revs = s.revs := rfl

theorem outsideAccess_write {s : State} {w lk : Nat} {tagged : Bool} {bs : List Byte} (ho : Owned s lk w true)
    (hr : (s.finishPend lk).revs = []) : s.outsideAccess w lk true tagged bs =
      if tagged ∧ bs.length = 65 then
        (s.outsideShared w lk).putLine (64 * lk)
          { bits := BitVec.ofNat 512 (leNum (bs.take 64)), tag := (bs.getD 64 0).toNat % 2 == 1 }
      else if bs.take 64 = [] then s.outsideShared w lk else (s.outsideShared w lk).putData (64 * lk) (bs.take 64) := by
  have hrevs : (s.outsideReached w lk true).revs = [] := (outsideReached_revs s w lk true).trans hr
  unfold State.outsideAccess State.outsideShared
  rw [if_neg (mt (outsideRefused_iff s w lk true).mp (not_not.mpr ho)), ← outsideReached_eq]
  generalize s.outsideReached w lk true = u at hrevs ⊢
  dsimp only
  rw [if_pos rfl]
  cases (u.answered true).virtualOf w lk with
  | none => rfl
  | some la =>
    dsimp only
    rw [shareEntries_no_revs ((answered_revs u true).trans hrevs)]

theorem answered_cohAt (s : State) (ok : Bool) (l : Nat) : (s.answered ok).cohAt l = s.cohAt l := rfl

theorem outsideShared_host {s : State} {w lk : Nat} (h : Settled ((s.finishPend lk).cohAt lk)) :
    ((s.outsideShared w lk).cohAt lk).host = .I := by
  have hround := HostSame.homeRound ((s.outsideReached w lk true).answered true) lk lk
  rw [answered_cohAt, outsideReached_host true h, if_pos (.inl rfl)] at hround
  exact hround

theorem unsupported_homeRound (s : State) (lk : Nat) : (s.homeRound lk).unsupported = s.unsupported :=
  (congrArg State.unsupported (homeRound_lineWork s lk).rest :)

theorem outsideShared_unsupported (s : State) (w lk : Nat) : (s.outsideShared w lk).unsupported = false :=
  unsupported_homeRound _ lk

/-- A write of bytes changes them and clears the tag of their line (R44). -/
theorem outsideAccess_wrote {s : State} {w lk : Nat} {tagged : Bool} {bs : List Byte} (ho : Owned s lk w true)
    (hr : (s.finishPend lk).revs = []) (hne : bs ≠ []) (ht : ¬ (tagged = true ∧ bs.length = 65)) :
    (s.outsideAccess w lk true tagged bs).unsupported = false ∧ (s.outsideAccess w lk true tagged bs).tagAt (64 * lk) = false
    ∧ (∀ j b, bs[j]? = some b → j < 64 → (s.outsideAccess w lk true tagged bs).byte (64 * lk + j) = b)
    ∧ (s.outsideAccess w lk true tagged bs).cohAt lk = (s.outsideShared w lk).cohAt lk := by
  have htake : bs.take 64 ≠ [] := fun h => hne ((List.take_eq_nil_iff.mp h).resolve_left (by decide))
  have huns := outsideShared_unsupported s w lk
  rw [outsideAccess_write ho hr, if_neg ht, if_neg htake]
  generalize s.outsideShared w lk = u at huns ⊢
  obtain ⟨hin, -, htag⟩ := putData_spec u (64 * lk) (bs.take 64)
  refine ⟨huns, htag, fun j b hb hj => hin j b ?_, rfl⟩
  rw [List.getElem?_take_of_lt hj]
  exact hb

/-- A peer's write of a line with its tag changes both (R45). -/
theorem outsideAccess_wroteLine {s : State} {w lk : Nat} {bs : List Byte} (ho : Owned s lk w true)
    (hr : (s.finishPend lk).revs = []) (ht : bs.length = 65) :
    (s.outsideAccess w lk true true bs).unsupported = false ∧ (s.outsideAccess w lk true true bs).lineAt (64 * lk) =
      { bits := BitVec.ofNat 512 (leNum (bs.take 64)), tag := (bs.getD 64 0).toNat % 2 == 1 } := by
  have huns := outsideShared_unsupported s w lk
  rw [outsideAccess_write ho hr, if_pos ⟨rfl, ht⟩]
  generalize s.outsideShared w lk = u at huns ⊢
  exact ⟨huns, lineAt_putLine_self u _ _⟩

/-- The host's copy of a line and the reply after a read. -/
theorem outsideAccess_read_fields {s : State} {w lk : Nat} {tagged : Bool} (bs : List Byte) (ho : Owned s lk w false)
    (h : Settled ((s.finishPend lk).cohAt lk)) :
    (s.outsideAccess w lk false tagged bs).unsupported = false
    ∧ (s.outsideAccess w lk false tagged bs).reply = leBytes 64 ((s.finishPend lk).current lk).bits.toNat ++
        (if tagged then [if ((s.finishPend lk).current lk).tag && (s.finishPend lk).lineErrors lk == [] then 1 else 0] else [])
    ∧ ((s.outsideAccess w lk false tagged bs).cohAt lk).host =
        if ((s.finishPend lk).cohAt lk).host = .M then .I else ((s.finishPend lk).cohAt lk).host := by
  have hhost := outsideReached_host (w := w) false h
  rw [outsideAccess_read bs ho h]
  simp only [Bool.false_eq_true, false_or] at hhost
  generalize s.outsideReached w lk false = u at hhost ⊢
  exact ⟨rfl, rfl, hhost⟩

/-! ## The events -/

theorem rival_of_request_none {s : State} {a : Arrival} (h : s.request a = none) : s.rival a = none := by
  unfold State.rival
  rw [h]
  cases s.script.head?.bind Arrival.of <;> rfl

theorem exec_hostAccess {s : State} {n line : Nat} {wr : Bool} {bs : List Byte} (h : s.rival (.host n line wr bs) = none) :
    exec (.hostAccess n line wr bs) s = .next (s.hostNow n line wr bs) := congrArg _ (arrive_untied h)

theorem exec_peerAccess {s : State} {n w line : Nat} {wr : Bool} {bs : List Byte} (h : s.rival (.peer n w line wr bs) = none) :
    exec (.peerAccess n w line wr bs) s = .next (s.peerNow n w line wr bs) := congrArg _ (arrive_untied h)

theorem request_host_refused {s : State} {n line : Nat} {wr : Bool} (bs : List Byte)
    (h : s.accepts = false ∨ ¬ Owned s line (s.streamWorld n) wr) : s.request (.host n line wr bs) = none := by
  refine if_neg ?_
  rw [Bool.and_eq_true, not_and_or, Bool.not_eq_true, Bool.not_eq_true, Bool.not_eq_false', outsideRefused_iff]
  exact h

theorem request_peer_refused {s : State} {n w line : Nat} {wr : Bool} (bs : List Byte)
    (h : s.peerHeard n w = false ∨ ¬ Owned s line w wr) : s.request (.peer n w line wr bs) = none := by
  refine if_neg ?_
  rw [Bool.and_eq_true, not_and_or, Bool.not_eq_true, Bool.not_eq_true, Bool.not_eq_false', outsideRefused_iff]
  exact h

/-- The host keeps a copy of what a CXL stream gave it, but not of a line that a stash owns (R311, R318). -/
def Keeps (s : State) (n line : Nat) : Prop := 32 ≤ n ∧ n < 64 ∧ (s.cohAt line).owner = none

theorem hostNow_deaf {s : State} {n line : Nat} {wr : Bool} {bs : List Byte} (h : s.accepts = false) : s.hostNow n line wr bs = s := by
  unfold State.hostNow
  rw [h]
  rfl

theorem keeps_iff {s : State} {n line : Nat} {wr : Bool} (ho : Owned s line (s.streamWorld n) wr) :
    (decide (32 ≤ n) && decide (n < 64) && !s.outsideRefused (s.streamWorld n) line wr && (s.cohAt line).owner.isNone) = true
      ↔ Keeps s n line := by
  rw [(outsideRefused_false_iff ..).mpr ho]
  simp only [Keeps, Bool.and_eq_true, decide_eq_true_eq, Option.isNone_iff_eq_none, Bool.not_false, and_true, and_assoc]

theorem hostNow_kept {s : State} {n line : Nat} {wr : Bool} (bs : List Byte) (ha : s.accepts = true)
    (ho : Owned s line (s.streamWorld n) wr) (hk : Keeps s n line) : s.hostNow n line wr bs =
      (s.outsideAccess (s.streamWorld n) line wr false bs).updCoh line fun x => { x with
        host := if wr then .M else if (s.cohAt line).host = .I then .S else (s.cohAt line).host } := by
  unfold State.hostNow
  rw [ha, if_neg (by decide)]
  exact if_pos ((keeps_iff ho).mpr hk)

theorem hostNow_uncached {s : State} {n line : Nat} {wr : Bool} (bs : List Byte) (ha : s.accepts = true)
    (ho : Owned s line (s.streamWorld n) wr) (hk : ¬ Keeps s n line) :
    s.hostNow n line wr bs = s.outsideAccess (s.streamWorld n) line wr false bs := by
  unfold State.hostNow
  rw [ha, if_neg (by decide)]
  exact if_neg (mt (keeps_iff ho).mp hk)

theorem hostNow_refused {s : State} {n line : Nat} {wr : Bool} (bs : List Byte) (ha : s.accepts = true)
    (ho : ¬ Owned s line (s.streamWorld n) wr) : s.hostNow n line wr bs =
      { s with unsupported := true, reply := if wr then s.reply else List.replicate 64 0xFF } := by
  unfold State.hostNow
  rw [ha, if_neg (by decide), (outsideRefused_iff ..).mpr ho]
  refine (if_neg ?_).trans (outsideAccess_refused false bs ho)
  simp

theorem peerHeard_iff {s : State} (h : s.accepts = true) (path w : Nat) : s.peerHeard path w = true ↔
    256 * (path % 2) + w % 256 ∈ s.ports.fkeys.keys ∧ SMap.look [] s.ports.resend (256 * path + w % 256) = [] := by
  simp only [State.peerHeard, State.pathClear, h, Bool.true_and, Bool.and_eq_true, List.contains_iff_mem, beq_iff_eq, pairKey, pathKey]

theorem peerNow_deaf {s : State} {path w line : Nat} {wr : Bool} {bs : List Byte} (h : s.peerHeard path w = false) :
    s.peerNow path w line wr bs = s := if_neg (Bool.eq_false_iff.mp h)

theorem peerNow_heard {s : State} {path w line : Nat} {wr : Bool} {bs : List Byte} (h : s.peerHeard path w = true) :
    s.peerNow path w line wr bs = s.outsideAccess w line wr true bs := if_pos h

end Sys2Proof.Machine
end

section

open Sys2Proof Sys2Proof.Machine Sys2Proof.Safety

/-- Settles O48, by what the firewall refuses and how a line is made ready for an outside agent. -/
theorem outsideAccesses : Obligations.OutsideAccesses := by
  unfold Obligations.OutsideAccesses
  intro s stream path world line bs c0 t c bound owned settled now key authentic wrote current keeps recalled quiet meets
  have hbound : s.streamWorld stream = bound := by
    unfold State.streamWorld
    refine ite_congr rfl (fun _ => rfl) fun _ => ?_
    cases SMap.look none s.ports.streams stream <;> rfl
  refine ⟨fun ha => ?_, fun ha => ?_, ⟨_, rfl, ?_⟩, fun hl hm => ?_, fun hn => ?_⟩
  · have hdeaf : s.peerHeard path world = false := by unfold State.peerHeard; rw [ha]; rfl
    have hhost : ∀ wr, Stays (.hostAccess stream line wr bs) s := fun wr =>
      (exec_hostAccess (rival_of_request_none (request_host_refused bs (.inl ha)))).trans (congrArg _ (hostNow_deaf ha))
    have hpeer : ∀ wr, Stays (.peerAccess path world line wr bs) s := fun wr =>
      (exec_peerAccess (rival_of_request_none (request_peer_refused bs (.inl hdeaf)))).trans (congrArg _ (peerNow_deaf hdeaf))
    exact ⟨hhost false, hhost true, hpeer false, hpeer true⟩
  · have hheard : s.peerHeard path world = true ↔ authentic := peerHeard_iff ha path world
    have hhost : ∀ wr, ¬ owned bound wr → exec (.hostAccess stream line wr bs) s =
        .next { s with unsupported := true, reply := if wr then s.reply else List.replicate 64 0xFF } := fun wr ho => by
      rw [← hbound] at ho
      exact (exec_hostAccess (rival_of_request_none (request_host_refused bs (.inr ho)))).trans (congrArg _ (hostNow_refused bs ha ho))
    have hpeer : ∀ wr, authentic → ¬ owned world wr → exec (.peerAccess path world line wr bs) s =
        .next { s with unsupported := true, reply := if wr then s.reply else List.replicate 64 0xFF } := fun wr hk ho =>
      (exec_peerAccess (rival_of_request_none (request_peer_refused bs (.inr ho)))).trans
        (congrArg _ ((peerNow_heard (hheard.mpr hk)).trans (outsideAccess_refused true bs ho)))
    refine ⟨fun ho => ⟨_, hhost false ho, rfl⟩, fun ho => ⟨_, hhost true ho, rfl⟩, fun hs ho hu => ?_, fun hs ho hq hne hu => ?_,
      fun hk => ?_, fun hk ho => ⟨_, hpeer false hk ho, rfl⟩, fun hk ho => ⟨_, hpeer true hk ho, rfl⟩, fun hk hs ho hu => ?_,
      fun hk hs ho hq hne hlen hu => ?_, fun hk hs ho hq hlen hu => ?_⟩
    · rw [← hbound] at ho
      have hexec := exec_hostAccess (not_not.mp hu)
      obtain ⟨huns, hreply, hhost'⟩ := outsideAccess_read_fields (tagged := false) bs ho hs
      rw [if_neg Bool.false_ne_true, List.append_nil] at hreply
      by_cases hk : Keeps s stream line
      · refine ⟨_, hexec.trans (congrArg _ (hostNow_kept bs ha ho hk)), hreply, huns, fun _ hi => ?_, fun _ hi => ?_, fun h => absurd hk h⟩
        · rw [State.cohAt_updCoh_self]
          exact if_pos hi
        · rw [State.cohAt_updCoh_self]
          exact if_neg hi
      · exact ⟨_, hexec.trans (congrArg _ (hostNow_uncached bs ha ho hk)), hreply, huns, fun h => absurd h hk, fun h => absurd h hk,
          fun _ => hhost'⟩
    · rw [← hbound] at ho
      have hexec := exec_hostAccess (not_not.mp hu)
      obtain ⟨huns, htag, hbyte, hcoh⟩ := outsideAccess_wrote (tagged := false) ho hq hne fun h => Bool.false_ne_true h.1
      by_cases hk : Keeps s stream line
      · refine ⟨_, hexec.trans (congrArg _ (hostNow_kept bs ha ho hk)), ⟨huns, htag, hbyte⟩, ?_⟩
        rw [State.cohAt_updCoh_self]
        exact (if_pos hk).symm
      · refine ⟨_, hexec.trans (congrArg _ (hostNow_uncached bs ha ho hk)), ⟨huns, htag, hbyte⟩, ?_⟩
        rw [hcoh]
        exact (outsideShared_host hs).trans (if_neg hk).symm
    · have hdeaf : s.peerHeard path world = false := Bool.eq_false_of_not_eq_true (mt hheard.mp hk)
      have hstays : ∀ wr, Stays (.peerAccess path world line wr bs) s := fun wr =>
        (exec_peerAccess (rival_of_request_none (request_peer_refused bs (.inl hdeaf)))).trans (congrArg _ (peerNow_deaf hdeaf))
      exact ⟨hstays false, hstays true⟩
    · obtain ⟨huns, hreply, hhost'⟩ := outsideAccess_read_fields (tagged := true) bs ho hs
      refine ⟨_, (exec_peerAccess (not_not.mp hu)).trans (congrArg _ (peerNow_heard (hheard.mpr hk))), huns, ?_, hhost'⟩
      rw [hreply, if_pos rfl]
      refine congrArg (current ++ [·]) (if_congr ?_ rfl rfl)
      rw [Bool.and_eq_true, beq_iff_eq]
      exact Iff.rfl
    · obtain ⟨huns, htag, hbyte, hcoh⟩ := outsideAccess_wrote (tagged := true) ho hq hne fun h => hlen h.2
      refine ⟨_, (exec_peerAccess (not_not.mp hu)).trans (congrArg _ (peerNow_heard (hheard.mpr hk))), ⟨huns, htag, hbyte⟩, ?_⟩
      rw [hcoh]
      exact outsideShared_host hs
    · exact ⟨_, (exec_peerAccess (not_not.mp hu)).trans (congrArg _ (peerNow_heard (hheard.mpr hk))),
        outsideAccess_wroteLine ho hq hlen⟩
  · refine ⟨⟨rfl, fun k hk => ?_⟩, State.cohAt_updCoh_self s line _⟩
    rw [State.cohAt_updCoh, if_neg hk]
  · refine ⟨_, if_pos ⟨hm, beq_iff_eq.mpr hl⟩, ⟨rfl, fun k hk => ?_⟩, State.cohAt_updCoh_self s line _⟩
    rw [State.cohAt_updCoh, if_neg hk]
  · exact if_neg fun h => hn ⟨beq_iff_eq.mp h.2, h.1⟩

end

section
/-!
Returns from a handler (R222, R235, R236): what the frame puts into the registers, what is owed again, and how a return goes on.
-/

namespace Sys2Proof.Machine
open Sys2Proof.Safety

/-! ## The registers of a frame -/

/-- A run of writes to distinct places leaves each value where it was written. -/
theorem look_foldl_put {α : Type} [DecidableEq α] (d : α) {key : Nat → Nat} (hkey : Function.Injective key) (val : Nat → α)
    (m : SMap α) {n j : Nat} (hj : j < n) :
    SMap.look d ((List.range n).foldl (fun m i => SMap.put d m (key i) (val i)) m) (key j) = val j := by
  induction n with
  | zero => exact absurd hj (Nat.not_lt_zero j)
  | succ n ih =>
    rw [List.range_succ, List.foldl_append, List.foldl_cons, List.foldl_nil, SMap.look_put]
    split
    · next h => rw [hkey h]
    · next h => exact ih (by rcases Nat.lt_succ_iff_lt_or_eq.mp hj with h' | rfl; exacts [h', absurd rfl h])

/-- A register other than the first, by its number from 1. -/
theorem exists_val_eq_succ {n : Nat} {q : Fin (n + 1)} (h : q ≠ 0) : ∃ i, q.val = i + 1 ∧ i < n := by
  have hq : q.val ≠ 0 := fun e => h (Fin.ext e)
  exact ⟨q.val - 1, by omega, by omega⟩

theorem succ_injective : Function.Injective fun i : Nat => i + 1 := fun _ _ h => Nat.succ.inj h

theorem restore_xr (sl : Slot) (fr : Nat → CapReg) (obj : Nat) (pc : Int) (cmpt : Nat) {q : XReg} (h : q ≠ 0) :
    (sl.restore fr obj pc cmpt).xr q = BitVec.ofNat 64 (lane 64 (q.val % 8) (fr (2 + q.val / 8)).bits) := by
  obtain ⟨i, hi, hn⟩ := exists_val_eq_succ h
  rw [Slot.xr, if_neg h, hi]
  exact look_foldl_put 0 succ_injective (fun i => BitVec.ofNat 64 (lane 64 ((i + 1) % 8) (fr (2 + (i + 1) / 8)).bits)) sl.x hn

theorem restore_vr (sl : Slot) (fr : Nat → CapReg) (obj : Nat) (pc : Int) (cmpt : Nat) (q : VReg) :
    (sl.restore fr obj pc cmpt).vr q = (fr (6 + q.val)).bits :=
  look_foldl_put 0 Function.injective_id (fun i => (fr (6 + i)).bits) sl.v q.isLt

theorem restore_cr (sl : Slot) (fr : Nat → CapReg) (obj : Nat) (pc : Int) (cmpt : Nat) {q : CReg} (h : q ≠ 0) :
    (sl.restore fr obj pc cmpt).cr q = fr (37 + q.val) := by
  obtain ⟨i, hi, hn⟩ := exists_val_eq_succ h
  rw [Slot.cr, if_neg h, hi, show 37 + (i + 1) = 38 + i by omega]
  exact look_foldl_put CapReg.null succ_injective (fun i => fr (38 + i)) sl.c hn

theorem restore_pr (sl : Slot) (fr : Nat → CapReg) (obj : Nat) (pc : Int) (cmpt : Nat) {q : PReg} (h : q ≠ 0) :
    (sl.restore fr obj pc cmpt).pr q = BitVec.ofNat 16 (bitsOf (fr 53).bits.toNat (384 + 16 * (q.val - 1)) 16) := by
  obtain ⟨i, hi, hn⟩ := exists_val_eq_succ h
  rw [Slot.pr, if_neg h, hi, Nat.add_sub_cancel]
  exact look_foldl_put 0 succ_injective (fun i => BitVec.ofNat 16 (bitsOf (fr 53).bits.toNat (384 + 16 * i) 16)) sl.p hn

/-- A slot holds the registers of a frame, in the interrupted object and compartment of its trap state, out of the handler; what
is committed and queued is as in the slot `a`. -/
def FrameRestored (fr : Nat → CapReg) (t : TrapState) (a b : Slot) : Prop :=
  (∀ q : XReg, q ≠ 0 → b.xr q = BitVec.ofNat 64 (lane 64 (q.val % 8) (fr (2 + q.val / 8)).bits))
  ∧ (∀ q : VReg, b.vr q = (fr (6 + q.val)).bits) ∧ (∀ q : CReg, q ≠ 0 → b.cr q = fr (37 + q.val))
  ∧ (∀ q : PReg, q ≠ 0 → b.pr q = BitVec.ofNat 16 (bitsOf (fr 53).bits.toNat (384 + 16 * (q.val - 1)) 16))
  ∧ b.ls = BitVec.ofNat 64 (bitsOf (fr 53).bits.toNat 128 64) ∧ b.le = BitVec.ofNat 64 (bitsOf (fr 53).bits.toNat 192 64)
  ∧ b.frm = BitVec.ofNat 64 (bitsOf (fr 53).bits.toNat 256 3) ∧ b.fflags = BitVec.ofNat 64 (bitsOf (fr 53).bits.toNat 320 5)
  ∧ b.obj = t.obj ∧ b.cmpt = t.cmpt ∧ b.handler = false ∧ b.trap = none ∧ b.committed = a.committed ∧ b.out = a.out

/-- The low bits of a field are those of a shorter field at the same place. -/
theorem bitsOf_mod (n lo w : Nat) {v : Nat} (h : v ≤ w) : bitsOf n lo w % 2 ^ v = bitsOf n lo v :=
  Nat.mod_mod_of_dvd _ (Nat.pow_dvd_pow 2 h)

theorem fflagsOf_field (n lo : Nat) : fflagsOf (BitVec.ofNat 64 (bitsOf n lo 64)) = BitVec.ofNat 64 (bitsOf n lo 5) := by
  unfold fflagsOf
  rw [BitVec.toNat_ofNat, bitsOf_mod n lo 64 (Nat.le_refl 64)]
  exact congrArg _ (bitsOf_mod n lo 64 (v := 5) (by decide))

theorem frameRestored_restore (sl : Slot) (fr : Nat → CapReg) (pc : Int) (t : TrapState) :
    FrameRestored fr t sl (sl.restore fr t.obj pc t.cmpt) :=
  ⟨fun _ h => restore_xr sl fr _ _ _ h, restore_vr sl fr _ _ _, fun _ h => restore_cr sl fr _ _ _ h, fun _ h => restore_pr sl fr _ _ _ h,
    rfl, rfl, rfl, fflagsOf_field _ _, rfl, rfl, rfl, rfl, rfl, rfl⟩

theorem frameRestored_restored (s : State) (t : TrapState) : FrameRestored (s.frameAt s.cur) t s.sl (s.restored t).sl := by
  unfold State.restored
  rw [State.sl_updSl]
  exact frameRestored_restore s.sl (s.frameAt s.cur) (bitsOf (s.frameAt s.cur 53).bits.toNat 0 32 : Nat) t

theorem frameRestored_calm {fr : Nat → CapReg} {t : TrapState} {a b c : Slot} (h : calm c = calm b) (hb : FrameRestored fr t a b) :
    FrameRestored fr t a c := by
  have hc : FrameRestored fr t a (calm c) := h ▸ hb
  exact hc

/-- A restored slot after the end-of-body test. -/
theorem frameRestored_fall {fr : Nat → CapReg} {t : TrapState} {a b : Slot} (hb : FrameRestored fr t a b) :
    FrameRestored fr t a (b.fall b.pc) := by
  rw [← fall_rest b] at hb
  exact hb

/-! ## The check of the frame -/

theorem frmOf_isSome (n lo : Nat) : (frmOf (BitVec.ofNat 64 (bitsOf n lo 64))).isSome = true ↔ bitsOf n lo 3 ≤ 4 := by
  have hmod : (BitVec.ofNat 64 (bitsOf n lo 64)).toNat % 8 = bitsOf n lo 3 := by
    rw [BitVec.toNat_ofNat, bitsOf_mod n lo 64 (Nat.le_refl 64)]
    exact bitsOf_mod n lo 64 (v := 3) (by decide)
  unfold frmOf
  rw [hmod]
  split <;> simp_all

theorem frameOk_iff (n : Nat) (t : TrapState) : frameOk n t = true ↔ bitsOf n 256 3 ≤ 4 ∧ bitsOf n 128 2 = 0 ∧ bitsOf n 192 2 = 0
    ∧ bitsOf n 0 2 = 0 ∧ (bitsOf n 32 32 = 0 ∨ bitsOf n 32 32 = t.obj) := by
  unfold frameOk
  rw [Bool.and_eq_true, Bool.and_eq_true, Bool.and_eq_true, Bool.and_eq_true, Bool.or_eq_true, frmOf_isSome]
  simp only [beq_iff_eq, and_assoc]

/-! ## What is owed again -/

/-- An owing that `tret` takes up again. -/
def Owed.renewed (o : Owed) (f : Flight) (r : Option Res) (seq : Nat) : Owed := { o with live := true, flight := f, res := r, seq := seq }

/-- A slot that owes one more result, as its next access. -/
def Slot.owesNext (sl : Slot) (e : Owed) : Slot := { sl with owed := sl.owed ++ [e], seq := sl.seq + 1 }

/-- The state parked for what it owes. -/
def State.parkedAgain (t : State) : State := if t.sl.stop = .park then t else t.parkIfOwing

theorem oweAgain_eq (s : State) (o : Owed) (f : Flight) (r : Option Res) :
    s.oweAgain o f r = (s.updSl fun sl => sl.owesNext (o.renewed f r sl.seq)).parkedAgain := rfl

theorem owes_owesNext (sl : Slot) (o : Owed) (f : Flight) (r : Option Res) (seq : Nat) :
    (sl.owesNext (o.renewed f r seq)).owes = true := by
  simp [Slot.owes, Slot.owesNext, Owed.renewed]

theorem parkedAgain_sl {t : State} (h : t.sl.owes = true) : t.parkedAgain.sl = { t.sl with stop := .park } := by
  unfold State.parkedAgain
  split
  · next hp => rw [← hp]
  · rw [State.parkIfOwing, if_pos h, State.sl_count, State.sl_updSl]

theorem core_updSl_barge (s : State) (f : Slot → Slot) : (s.updSl f).core.barge = s.core.barge := by
  simp only [State.core, State.updSl, State.coreAt_updSlot]
  rfl

theorem parkIfOwing_barge (t : State) : t.parkIfOwing.core.barge = t.core.barge := by
  unfold State.parkIfOwing
  split
  · simp only [State.core, State.coreAt_count, State.updSl, State.coreAt_updSlot]
    rfl
  · rfl

theorem parkedAgain_barge (t : State) : t.parkedAgain.core.barge = t.core.barge := by
  unfold State.parkedAgain
  split
  · rfl
  · exact parkIfOwing_barge t

theorem oweAgain_sl (s : State) (o : Owed) (f : Flight) (r : Option Res) :
    (s.oweAgain o f r).sl = { s.sl.owesNext (o.renewed f r s.sl.seq) with stop := .park } := by
  rw [oweAgain_eq, parkedAgain_sl] <;> rw [State.sl_updSl]
  exact owes_owesNext _ _ _ _ _

theorem oweAgain_barge (s : State) (o : Owed) (f : Flight) (r : Option Res) : (s.oweAgain o f r).core.barge = s.core.barge := by
  rw [oweAgain_eq, parkedAgain_barge, core_updSl_barge]

/-- A Barge instruction that `tret` enters again in its queue. -/
def State.bargeAgainOp (s : State) (o : Owed) (w : BargeWork) : BargeOp :=
  { num := s.core.bnum + 1, slot := s.cur % 4, work := w, iaddr := o.iaddr, dfield := o.dfield, defer := false, after := s.eng.num
    seq := s.sl.seq, first := 0, pos := 0, got := [] }

/-- After `commit` a copy or a resume record passes the checks of its repetition and takes no entry of the buffer. -/
theorem bargeAgainChecks_committed {s : State} {w : BargeWork} (hc : s.sl.committed ≠ none) (hw : ∀ x y z q, w ≠ .stage x y z q) :
    s.bargeAgainChecks w = .ok false := by
  have hnone : s.sl.committed.isNone = false := by cases h : s.sl.committed <;> simp_all
  cases w with
  | copy a b u t => simp [State.bargeAgainChecks, State.defersCount, hnone]
  | resume c b => simp [State.bargeAgainChecks, hnone]
  | stage t c u o => exact absurd rfl (hw t c u o)

/-- A core with one more instruction in the queue of its Barge. -/
def Core.enqueueBarge (c : Core) (op : BargeOp) : Core := { c with bnum := op.num, barge := c.barge ++ [op] }

theorem bargeAgain_eq {s : State} (o : Owed) {w : BargeWork} (hc : s.sl.committed ≠ none) (hw : ∀ x y z q, w ≠ .stage x y z q) :
    s.bargeAgain o w =
      (s.updMyCore (·.enqueueBarge (s.bargeAgainOp o w))).oweAgain o (.barge (s.core.bnum + 1) w) none := by
  unfold State.bargeAgain
  rw [bargeAgainChecks_committed hc hw]
  rfl

theorem bargeAgain_sl {s : State} (o : Owed) {w : BargeWork} (hc : s.sl.committed ≠ none) (hw : ∀ x y z q, w ≠ .stage x y z q) :
    (s.bargeAgain o w).sl = { s.sl.owesNext (o.renewed (.barge (s.core.bnum + 1) w) none s.sl.seq) with stop := .park } := by
  rw [bargeAgain_eq o hc hw, oweAgain_sl, sl_updMyCore s (·.enqueueBarge (s.bargeAgainOp o w)) fun _ => rfl]

theorem bargeAgain_queue {s : State} (o : Owed) {w : BargeWork} (hc : s.sl.committed ≠ none) (hw : ∀ x y z q, w ≠ .stage x y z q) :
    (s.bargeAgain o w).core.barge = s.core.barge ++ [s.bargeAgainOp o w] := by
  rw [bargeAgain_eq o hc hw, oweAgain_barge]
  exact (congrArg Core.barge (State.coreAt_updCore_self s _ (·.enqueueBarge (s.bargeAgainOp o w))) :)

theorem again_ne_stage {w : BargeWork} (hw : ∀ x y z q, w ≠ .stage x y z q) (r : Option Res) (slot cmpt : Nat) :
    ∀ x y z q, w.again r slot cmpt ≠ .stage x y z q := by
  intro x y z q h
  unfold BargeWork.again at h
  split at h
  · exact hw _ _ _ _ rfl
  · split at h
    · cases h
    · exact hw _ _ _ _ h
  · exact hw _ _ _ _ h

theorem again_eq {w : BargeWork} (hw : ∀ x y z q, w ≠ .stage x y z q) (r : Option Res) (slot cmpt : Nat) :
    w.again r slot cmpt = match r with
      | some (.fault f) => if f.resume then .resume (windowView (resumeOff slot) 0x20 8 [permLC] cmpt) true else w
      | _ => w := by
  cases w with
  | stage t c u o => exact absurd rfl (hw t c u o)
  | copy a b u t => rcases r with _ | ⟨_ | _⟩ <;> rfl
  | resume c b => rcases r with _ | ⟨_ | _⟩ <;> rfl

/-! ## The return -/

theorem frameAt_eq (s : State) : s.frameAt s.cur = fun j =>
    { s.lineAt (frameKey s.cur j) with
      tag := (s.lineAt (frameKey s.cur j)).tag && (s.lineErrors (lineKey (frameKey s.cur j))).isEmpty } := by
  funext j
  unfold State.frameAt
  cases s.lineErrors (lineKey (frameKey s.cur j)) with
  | nil => rw [if_pos rfl, List.isEmpty_nil, Bool.and_true]
  | cons e es => rw [if_neg (List.cons_ne_nil e es), List.isEmpty_cons, Bool.and_false]

theorem tretWith_refused {s : State} (f : TrapState → State) (h : s.sl.handler = false) :
    tretWith s f = .next (s.faultNow (FaultInfo.of 0x02)) := by
  unfold tretWith
  rw [h]

theorem tretWith_checked {s : State} {t : TrapState} (f : TrapState → State) (hh : s.sl.handler = true) (ht : s.sl.trap = some t)
    (ha : s.sl.acked s.sl.seq 6 = true) :
    tretWith s f = .next (if frameOk (s.frameAt s.cur 53).bits.toNat t then f t else s.badFrame) := by
  unfold tretWith
  rw [hh, ht]
  dsimp only
  rw [ha]
  rfl

/-- The place in the program that a frame resumes at. -/
def State.resumePc (s : State) : Int := ((bitsOf (s.frameAt s.cur 53).bits.toNat 0 32 : Nat) : Int)

/-- What every return to the interrupted program leaves, issued by `i`. -/
structure Returns (i : Instr) (t : TrapState) (s u : State) : Prop where
  frame : FrameRestored (s.frameAt s.cur) t s.sl u.sl
  kept  : MemoryKept s u
  paced : PacedBy i s u

theorem issued_memory (s : State) (g : Ctl) (n : Nat) : MemoryKept s (s.issued g n) := by
  obtain ⟨he, -⟩ := issued_spec s g n
  exact ⟨(congrArg State.mem he.rest :), (congrArg State.tags he.rest :), (congrArg State.poison he.rest :)⟩

theorem updSl_memory (s : State) (f : Slot → Slot) : MemoryKept s (s.updSl f) := ⟨rfl, rfl, rfl⟩

theorem restored_memory (s : State) (t : TrapState) : MemoryKept s (s.restored t) := updSl_memory s _

theorem restored_now (s : State) (t : TrapState) : (s.restored t).now = s.now := rfl

theorem restored_cur (s : State) (t : TrapState) : (s.restored t).cur = s.cur := rfl

theorem sl_restored (s : State) (t : TrapState) : (s.restored t).sl =
    { s.sl.restore (s.frameAt s.cur) t.obj s.resumePc t.cmpt with
      owed := s.sl.owed.map fun o => if o.dest.isSome then { o with dest := none, live := false } else o
      fetched := false } := State.sl_updSl s _

/-- A return from the restored state with a change of the slot that keeps the frame's registers. -/
theorem returns_updSl {i : Instr} {g : Ctl} (hi : Issues i g) {s : State} {t : TrapState} (f : Slot → Slot)
    (hf : FrameRestored (s.frameAt s.cur) t s.sl (f (s.restored t).sl)) : Returns i t s (((s.restored t).updSl f).issued g 0) := by
  obtain ⟨-, hcalm⟩ := issued_spec ((s.restored t).updSl f) g 0
  refine ⟨frameRestored_calm hcalm ?_, MemoryKept.trans (MemoryKept.trans (restored_memory s t) (updSl_memory _ f)) (issued_memory _ g 0),
    pacedBy_issued hi _ 0 (restored_now s t) (restored_cur s t)⟩
  rw [State.sl_updSl]
  exact hf

theorem returns_restored {i : Instr} {g : Ctl} (hi : Issues i g) (s : State) (t : TrapState) :
    Returns i t s ((s.restored t).issued g 0) := by
  obtain ⟨-, hcalm⟩ := issued_spec (s.restored t) g 0
  exact ⟨frameRestored_calm hcalm (frameRestored_restored s t), MemoryKept.trans (restored_memory s t) (issued_memory _ g 0),
    pacedBy_issued hi _ 0 (restored_now s t) (restored_cur s t)⟩

/-- The restored slot goes on at the resume point, with the loop count of the frame. -/
theorem issued_restored_sl (s : State) (t : TrapState) (g : Ctl) :
    ((s.restored t).issued g 0).sl.pc = s.resumePc
    ∧ ((s.restored t).issued g 0).sl.lc = BitVec.ofNat 64 (bitsOf (s.frameAt s.cur 53).bits.toNat 64 64)
    ∧ ((s.restored t).issued g 0).sl.deferred = s.sl.deferred ∧ ((s.restored t).issued g 0).sl.committed = s.sl.committed := by
  obtain ⟨-, hcalm⟩ := issued_spec (s.restored t) g 0
  have hsl := sl_restored s t
  generalize (s.restored t).sl = b at hcalm hsl
  have hpc : b.pc = s.resumePc := by rw [hsl]; rfl
  have hlc : b.lc = BitVec.ofNat 64 (bitsOf (s.frameAt s.cur 53).bits.toNat 64 64) := by rw [hsl]; rfl
  have hdef : b.deferred = s.sl.deferred := by rw [hsl]; rfl
  have hcom : b.committed = s.sl.committed := by rw [hsl]; rfl
  exact ⟨(calm_congr hcalm (·.pc) fun _ => rfl).trans hpc, (calm_congr hcalm (·.lc) fun _ => rfl).trans hlc,
    (calm_congr hcalm (·.deferred) fun _ => rfl).trans hdef, (calm_congr hcalm (·.committed) fun _ => rfl).trans hcom⟩

/-- Skipping a fault at issue: the end-of-body test of the restored slot. -/
theorem issued_fall_sl (s : State) (t : TrapState) (g : Ctl) :
    (((s.restored t).updSl fun sl => sl.fall sl.pc).issued g 0).sl.deferred = s.sl.deferred
    ∧ FallsThrough (s.restored t).sl (((s.restored t).updSl fun sl => sl.fall sl.pc).issued g 0).sl := by
  obtain ⟨-, hcalm⟩ := issued_spec ((s.restored t).updSl fun sl => sl.fall sl.pc) g 0
  rw [State.sl_updSl] at hcalm
  have hdef : (s.restored t).sl.deferred = s.sl.deferred := by rw [sl_restored]; rfl
  generalize (s.restored t).sl = b at hcalm hdef ⊢
  generalize (((s.restored t).updSl fun sl => sl.fall sl.pc).issued g 0).sl = c at hcalm ⊢
  have hfall := fall_spec b
  have hrest : (b.fall b.pc).deferred = b.deferred := (congrArg Slot.deferred (fall_rest b) :)
  refine ⟨((calm_congr hcalm (·.deferred) fun _ => rfl).trans hrest).trans hdef, ?_⟩
  unfold FallsThrough at hfall ⊢
  rw [calm_congr hcalm (·.obj) fun _ => rfl, calm_congr hcalm (·.lc) fun _ => rfl, calm_congr hcalm (·.pc) fun _ => rfl]
  exact hfall

/-- The slot without the effect that `commit` would have applied next. -/
def Slot.dropEffect (sl : Slot) : Slot := { sl with deferred := sl.deferred.tail, applied := sl.applied + 1 }

/-- Skipping a fault at `commit`: the effect is dropped, and the restored slot goes on at the resume point. -/
theorem issued_dropEffect_sl (s : State) (t : TrapState) (g : Ctl) :
    (((s.restored t).updSl Slot.dropEffect).issued g 0).sl.pc = s.resumePc
    ∧ (((s.restored t).updSl Slot.dropEffect).issued g 0).sl.deferred = s.sl.deferred.tail
    ∧ (((s.restored t).updSl Slot.dropEffect).issued g 0).sl.applied = s.sl.applied + 1 := by
  obtain ⟨-, hcalm⟩ := issued_spec ((s.restored t).updSl Slot.dropEffect) g 0
  rw [State.sl_updSl] at hcalm
  have hpc : (s.restored t).sl.pc = s.resumePc := by rw [sl_restored]; rfl
  have hdef : (s.restored t).sl.deferred = s.sl.deferred := by rw [sl_restored]; rfl
  have happ : (s.restored t).sl.applied = s.sl.applied := by rw [sl_restored]; rfl
  generalize (s.restored t).sl = b at hcalm hpc hdef happ
  rw [← hpc, ← hdef, ← happ]
  exact ⟨calm_congr hcalm (·.pc) fun _ => rfl, calm_congr hcalm (·.deferred) fun _ => rfl, calm_congr hcalm (·.applied) fun _ => rfl⟩

/-! ## What each MODE goes on with -/

/-- What `tret.skip` goes on with. -/
def State.skipReturn (s : State) (g : Ctl) (t : TrapState) : State :=
  (match s.frameMode with
   | 0 => (s.restored t).updSl fun sl => sl.fall sl.pc
   | 2 => (s.restored t).updSl Slot.dropEffect
   | _ => s.restored t).issued g 0

/-- What `tret.resume` goes on with. -/
def State.resumeReturn (s : State) (g : Ctl) (t : TrapState) : State :=
  if s.frameMode = 1 then s.resumeCarried g t else (s.restored t).issued g 0

theorem exec_tretSkip (g : Ctl) (s : State) : exec (.tretSkip g) s = tretWith s (s.skipReturn g) := rfl

theorem exec_tretResume (g : Ctl) (s : State) : exec (.tretResume g) s =
    tretWith s (s.resumeReturn g) := rfl

theorem resumeReturn_plain {s : State} (g : Ctl) (t : TrapState) (h : s.frameMode ≠ 1) :
    s.resumeReturn g t = (s.restored t).issued g 0 := if_neg h

theorem resumeReturn_carried {s : State} (g : Ctl) (t : TrapState) (h : s.frameMode = 1) :
    s.resumeReturn g t = s.resumeCarried g t := if_pos h

theorem skipReturn_issue {s : State} (g : Ctl) (t : TrapState) (h : s.frameMode = 0) :
    s.skipReturn g t = ((s.restored t).updSl fun sl => sl.fall sl.pc).issued g 0 := by
  rw [State.skipReturn, h]
  rfl

theorem skipReturn_carried {s : State} (g : Ctl) (t : TrapState) (h : s.frameMode = 1) :
    s.skipReturn g t = (s.restored t).issued g 0 := by
  rw [State.skipReturn, h]
  rfl

theorem skipReturn_commit {s : State} (g : Ctl) (t : TrapState) (h : s.frameMode = 2) :
    s.skipReturn g t = ((s.restored t).updSl Slot.dropEffect).issued g 0 := by
  rw [State.skipReturn, h]
  rfl

theorem resumeCarried_none (s : State) (g : Ctl) {t : TrapState} (h : t.redo = none) :
    s.resumeCarried g t = (s.restored t).issued g 0 := by rw [State.resumeCarried, h]

theorem resumeCarried_access (s : State) (g : Ctl) {t : TrapState} {o : Owed} (h : t.redo = some o)
    (hb : ∀ n w, o.flight ≠ .barge n w) :
    s.resumeCarried g t = ((s.restored t).issued g 0).oweAgain o o.flight.redo none := by
  unfold State.resumeCarried
  rw [h]
  dsimp only
  split
  · next n w hf => exact absurd hf (hb n w)
  · rfl

theorem resumeCarried_barge (s : State) (g : Ctl) {t : TrapState} {o : Owed} {n : Nat} {w : BargeWork} (h : t.redo = some o)
    (hb : o.flight = .barge n w) : s.resumeCarried g t =
      if s.bargeFull (s.cur / 4) then s.hold .barge
      else ((s.restored t).issued g 0).bargeAgain o (w.again o.res (s.cur % 4) t.cmpt) := by
  unfold State.resumeCarried
  rw [h]
  dsimp only
  rw [hb]

theorem redo_eq (f : Flight) : f.redo = match f with
    | .vload n all _ _ _ _ => .vload n all all [] none true
    | .ccas a b z _ => .ccas a b z true
    | f => f := by
  unfold Flight.redo
  cases f <;> rfl

/-- An issue keeps the queue of its core's Barge. -/
theorem issued_barge (s : State) (g : Ctl) (n : Nat) : (s.issued g n).core.barge = s.core.barge := by
  obtain ⟨he, -⟩ := issued_spec s g n
  unfold State.core
  rw [elsewhere_cur he]
  exact (congrArg Core.barge (he.cores (s.cur / 4)) :)

end Sys2Proof.Machine
end

section

open Sys2Proof Sys2Proof.Machine Sys2Proof.Safety

/-- Settles O34, by what the frame restores and how each MODE goes on from it. -/
theorem trapReturns : Obligations.TrapReturns := by
  unfold Obligations.TrapReturns
  intro s g t sl line
  have hline : s.frameAt s.cur = line := frameAt_eq s
  clear_value line
  subst hline
  intro part last mode ok restored resumes again refused
  have hreturn (f : TrapState → State) : s.sl.handler = true → s.sl.trap = some t → s.sl.acked s.sl.seq 6 = true → ok →
      tretWith s f = .next (f t) := fun hh ht ha ho =>
    (tretWith_checked f hh ht ha).trans (congrArg _ (if_pos ((frameOk_iff _ t).mpr ho)))
  have hbad (f : TrapState → State) : s.sl.handler = true → s.sl.trap = some t → s.sl.acked s.sl.seq 6 = true → ¬ ok →
      tretWith s f = .next s.badFrame := fun hh ht ha ho =>
    (tretWith_checked f hh ht ha).trans (congrArg _ (if_neg (mt (frameOk_iff _ t).mp ho)))
  have hskip {u : State} (hh : s.sl.handler = true) (ht : s.sl.trap = some t) (ha : s.sl.acked s.sl.seq 6 = true) (ho : ok)
      (hu : s.skipReturn g t = u) : exec (.tretSkip g) s = .next u :=
    (exec_tretSkip g s).trans ((hreturn (s.skipReturn g) hh ht ha ho).trans (congrArg _ hu))
  have hresume {u : State} (hh : s.sl.handler = true) (ht : s.sl.trap = some t) (ha : s.sl.acked s.sl.seq 6 = true) (ho : ok)
      (hu : s.resumeReturn g t = u) : exec (.tretResume g) s = .next u :=
    (exec_tretResume g s).trans ((hreturn (s.resumeReturn g) hh ht ha ho).trans (congrArg _ hu))
  have hplain (i : Instr) (hi : Issues i g) (he : exec i s = .next ((s.restored t).issued g 0)) : resumes i := by
    obtain ⟨hframe, hkept, hpaced⟩ := returns_restored hi s t
    obtain ⟨hpc, hlc, hdef, -⟩ := issued_restored_sl s t g
    exact ⟨_, he, hframe, hpc, hlc, hdef, hkept, hpaced⟩
  refine ⟨fun h => ⟨tretWith_refused _ h, tretWith_refused _ h⟩, fun hh ht ha => ⟨fun ho hm => ?_, fun ho hm hr => ?_, fun ho hm => ?_,
    fun ho hm => ?_, fun ho hm => ?_, fun ho hm o hr hb => ?_, fun ho hm o n w hr hb => ⟨fun hfull => ?_, fun hfull hc hw => ?_⟩,
    fun ho => ?_⟩⟩
  · exact hplain _ (issues_mk rfl) (hresume hh ht ha ho (resumeReturn_plain g t hm))
  · exact hplain _ (issues_mk rfl) (hresume hh ht ha ho ((resumeReturn_carried g t hm).trans (resumeCarried_none s g hr)))
  · exact hplain _ (issues_mk rfl) (hskip hh ht ha ho (skipReturn_carried g t hm))
  · obtain ⟨hframe, hkept, hpaced⟩ := returns_updSl (i := .tretSkip g) (issues_mk rfl) (fun sl => sl.fall sl.pc)
      (frameRestored_fall (frameRestored_restored s t))
    obtain ⟨hdef, hfall⟩ := issued_fall_sl s t g
    have hsl := sl_restored s t
    obtain ⟨-, -, -, -, hls, hle, -⟩ := id hframe
    refine ⟨_, hskip hh ht ha ho (skipReturn_issue g t hm), hframe, hdef, hkept, hpaced,
      (s.restored t).sl, ?_, ?_, ?_, ?_, ?_, hfall⟩
    · rw [hsl]; rfl
    · rw [hsl]; rfl
    · rw [hls, hsl]; rfl
    · rw [hle, hsl]; rfl
    · rw [hsl]; rfl
  · obtain ⟨hframe, hkept, hpaced⟩ := returns_updSl (i := .tretSkip g) (issues_mk rfl) Slot.dropEffect (frameRestored_restored s t)
    obtain ⟨hpc, hdef, happ⟩ := issued_dropEffect_sl s t g
    exact ⟨_, hskip hh ht ha ho (skipReturn_commit g t hm), hframe, hpc, hdef, happ, hkept, hpaced⟩
  · have hexec := hresume hh ht ha ho ((resumeReturn_carried g t hm).trans (resumeCarried_access s g hr hb))
    obtain ⟨hpc, -, -, -⟩ := issued_restored_sl s t g
    obtain ⟨hframe, -, -⟩ := returns_restored (i := .tretResume g) (issues_mk rfl) s t
    have hsl := oweAgain_sl ((s.restored t).issued g 0) o o.flight.redo none
    generalize ((s.restored t).issued g 0).oweAgain o o.flight.redo none = u at hexec hsl
    generalize ((s.restored t).issued g 0).sl = b at hpc hframe hsl
    refine ⟨u, hexec, ?_⟩
    dsimp only
    rw [hsl, redo_eq]
    exact ⟨hframe, hpc, rfl, _, _, rfl, rfl, rfl, rfl, rfl, rfl⟩
  · exact ⟨_, hresume hh ht ha ho (((resumeReturn_carried g t hm).trans (resumeCarried_barge s g hr hb)).trans (if_pos hfull)), rfl⟩
  · have hw' := again_ne_stage hw o.res (s.cur % 4) t.cmpt
    have hwork := again_eq hw o.res (s.cur % 4) t.cmpt
    have hexec := hresume hh ht ha ho (((resumeReturn_carried g t hm).trans
      (resumeCarried_barge s g hr hb)).trans (if_neg (Bool.eq_false_iff.mp hfull)))
    obtain ⟨-, -, -, hcom⟩ := issued_restored_sl s t g
    obtain ⟨hframe, -, -⟩ := returns_restored (i := .tretResume g) (issues_mk rfl) s t
    have hcur : ((s.restored t).issued g 0).cur = s.cur := by
      obtain ⟨he, -⟩ := issued_spec (s.restored t) g 0
      exact (elsewhere_cur he).trans (restored_cur s t)
    have hq : ((s.restored t).issued g 0).core.barge = s.core.barge := (issued_barge _ g 0).trans (core_updSl_barge s _)
    generalize (s.restored t).issued g 0 = b at hexec hcom hframe hcur hq
    have hc' : b.sl.committed ≠ none := hcom ▸ hc
    have hsl := bargeAgain_sl o hc' hw'
    have hqueue := bargeAgain_queue o hc' hw'
    generalize b.bargeAgain o (w.again o.res (s.cur % 4) t.cmpt) = u at hexec hsl hqueue
    refine ⟨u, hexec, ?_, (congrArg Slot.stop hsl :), b.bargeAgainOp o (w.again o.res (s.cur % 4) t.cmpt), hq ▸ hqueue,
      congrArg (· % 4) hcur, rfl, rfl, rfl, hwork⟩
    rw [hsl]
    exact hframe
  · exact ⟨⟨_, hbad _ hh ht ha ho, congrArg Slot.stop (State.sl_updSl s _)⟩,
      ⟨_, hbad _ hh ht ha ho, congrArg Slot.stop (State.sl_updSl s _)⟩⟩

end

section
/-!
A core's own stash that lists a line which no stash owns (R285, R299): when the stash is full and that line is its oldest, filling
it with the line evicts the line again, and the write goes to the home like any other.
-/

namespace Sys2Proof.Machine

/-- The place of the write: the first line of the device's memory, on a stash page. -/
def staleLinePlace : Place := { kind := .dev, key := 0, va := 0, untagged := false, stash := true, home := 0 }

/-- The queued write of a line. -/
def staleLineWrite : Out :=
  { op := .line { va := 0, nib := 0, bits := 512, coords := Coords.zero } CapReg.null, rel := none, seq := 0, actid := 0, iaddr := 0
    place := staleLinePlace, idx := 0, lvl := 0, got := 0, stamp := 0 }

/-- A full stash of one bank whose oldest line is line 0. -/
def staleStash : List StashLine :=
  (List.range 256).map fun n => { va := 64 * (255 - n), key := 255 - n, written := false, loc := n }

/-- A core whose team leaves it one stash bank, with the write in the queue of its first slot; no stash owns line 0. -/
def staleStashState : State :=
  { State.reset with
    cores := [(0, { Core.reset with slots := [(0, { Slot.reset with world := 0xFF, out := [staleLineWrite] })], stash := staleStash
                                    team := some 0 })]
    grids := [(0, { Grid.reset with named := 6 * 0x4000 })] }

theorem staleStashState_ready : staleStashState.outReady 0 staleLineWrite = true := by decide

theorem staleStashState_banks : staleStashState.stashBanks 0 = 1 := by decide

/-- The write is sent to its home: it is not performed at package scope at once. -/
theorem staleStashState_stored :
    ((staleStashState.storeNow 0 0 0).slotAt 0).out.all (fun o => o.lvl != 3) = true := by decide +kernel

end Sys2Proof.Machine
end

section

open Sys2Proof Sys2Proof.Machine Sys2Proof.Safety

/-- Refutes O45: a write to a stash page of a core with a bank need not perform at once. Where the full stash lists the line
already and no stash owns it, the line that makes room is the written one, and the write is only sent to its home. -/
theorem not_storePath : ¬ Obligations.StorePath := by
  rintro ⟨-, -, h⟩
  have hreq : staleStashState.rival (.store 0 0 0) = none := rfl
  obtain ⟨-, hqueued, -⟩ := h staleStashState 0 0 0 0 0 staleLineWrite
    { core := 0, slot := 0, seq := 0, idx := 0, proxy := false, op := staleLineWrite.op, whole := false, sent := [], held := [], replies := [] }
  obtain ⟨-, hgoes, -⟩ := hqueued rfl
  obtain ⟨-, hsent⟩ := hgoes rfl staleStashState_ready hreq
  obtain ⟨-, -, -, hown, -⟩ := hsent (by decide) rfl
  obtain ⟨u, hexec, home, hmem, -⟩ := hown rfl (.inr ⟨rfl, rfl, staleStashState_banks ▸ Nat.one_pos⟩)
  have hu : staleStashState.storeNow 0 0 0 = u := Host.Outcome.next.inj ((congrArg _ (arrive_untied hreq).symm).trans hexec)
  have hall := List.all_eq_true.mp staleStashState_stored _ (hu ▸ hmem)
  exact Bool.false_ne_true hall

end

section
/-!
A world whose compartment table is said to lie past the end of device memory's addresses (R342): the monitor writes its entries at
the address modulo 2⁶⁴, so that nothing is written where the table is said to be.
-/

namespace Sys2Proof.Machine

/-- The reset state with one live world, whose compartment table begins at 2⁶⁴. -/
def farTableState : State :=
  { State.reset with worlds := [(1, { World.reset with live := true, ctb := 2 ^ 64 })] }

/-- The state after compartment 0 of the world has been given its entry. -/
def farTableWritten : State :=
  (farTableState.updWorld 1 fun x =>
    { x with cmpts := SMap.put Cmpt.reset x.cmpts 0 { valid := true, used := true, priv := true, hnd := 0 } }).syncCmpt 1 0

theorem exec_farTableState : exec (.compartmentCreate 1 0 0 false) farTableState = .next farTableWritten := rfl

theorem farTableWritten_cmpt : SMap.look Cmpt.reset (farTableWritten.worldAt 1).cmpts 0 =
    { valid := true, used := true, priv := true, hnd := 0 } := by decide +kernel

/-- No byte is written at the table's own address. -/
theorem farTableWritten_byte : farTableWritten.byte (2 ^ 64) = 0 := by decide +kernel

end Sys2Proof.Machine
end

section

open Sys2Proof Sys2Proof.Machine Sys2Proof.Safety

/-- Refutes O52: for a world whose compartment table is said to begin at 2⁶⁴, the entry of a new compartment is written at address 0,
and the table's first byte does not show that the compartment is valid and privileged. -/
theorem not_worldsAndErrors : ¬ Obligations.WorldsAndErrors := by
  rintro ⟨h, -⟩
  obtain ⟨-, -, -, -, -, -, -, -, hcreate, -⟩ := h farTableState 1 0 0 0 0 [] false
  obtain ⟨u, hexec, -, htable, -⟩ := hcreate ⟨rfl, Nat.zero_le _, .inr rfl⟩
  obtain rfl : farTableWritten = u := Host.Outcome.next.inj (exec_farTableState.symm.trans hexec)
  have hbyte : farTableWritten.byte (2 ^ 64) = 3 := (htable 0 (by decide)).trans (by rw [farTableWritten_cmpt]; rfl)
  exact absurd (farTableWritten_byte.symm.trans hbyte) (by decide)

end

section
/-!
Code objects (R220, R354 … R361): the checks of `publish`, the image and its header, and what a publication makes.
-/

namespace Sys2Proof.Machine
open Sys2Proof.Safety

/-! ## The checks at issue (R220) -/

/-- The conditions of R220 on the operand's permission, shape and compartment. -/
def publishAllowed (c : CapF) (cmpt : Nat) : Prop :=
  c.has permLD = true ∧ c.fmt = 0 ∧ c.rank = 1 ∧ c.sd0 = 1 ∧ (c.life = 2 → c.cmpt = cmpt)

theorem publishAllowed_iff (c : CapF) (cmpt : Nat) :
    (c.has permLD && c.fmt == 0 && c.rank == 1 && c.sd0 == 1 && c.usableBy cmpt) = true ↔ publishAllowed c cmpt := by
  simp only [publishAllowed, CapF.usableBy, Bool.and_eq_true, Bool.or_eq_true, beq_iff_eq, bne_iff_ne, and_assoc, ne_eq,
    imp_iff_not_or]

theorem publishCheck_untagged {c : CapReg} (cmpt : Nat) (n : Word) (h : c.tag = false) : publishCheck c cmpt n = some 0x10 := by
  rw [publishCheck, h]
  rfl

theorem publishCheck_refused {c : CapReg} {cmpt : Nat} (n : Word) (ht : c.tag = true) (h : ¬ publishAllowed c.f cmpt) :
    publishCheck c cmpt n = some 0x12 := by
  unfold publishCheck
  dsimp only
  rw [ht, Bool.eq_false_iff.mpr (mt (publishAllowed_iff c.f cmpt).mp h)]
  rfl

theorem publishCheck_allowed {c : CapReg} {cmpt : Nat} (n : Word) (ht : c.tag = true) (h : publishAllowed c.f cmpt) :
    publishCheck c cmpt n = if c.f.seal_ ≠ 0 then some 0x14
      else if n = 0 ∨ min c.f.ext0 (2 ^ 32 - 1) < n.toNat then some 0x11 else none := by
  unfold publishCheck
  dsimp only
  rw [ht, (publishAllowed_iff c.f cmpt).mpr h]
  rfl

theorem exec_publish_fault {s : State} {g : Ctl} {a : CReg} {b : XReg} {n : Nat} (d : CReg) (hg : s.sl.guard g = true)
    (h : publishCheck (s.sl.cr a) s.sl.cmpt (s.sl.xr b) = some n) : FaultsWith (.publish g d a b) s (FaultInfo.of n) := by
  refine (guarded_true g s _ hg).trans ?_
  rw [h]

theorem exec_publish_owes {s : State} {g : Ctl} {a : CReg} {b : XReg} (d : CReg) (hg : s.sl.guard g = true)
    (h : publishCheck (s.sl.cr a) s.sl.cmpt (s.sl.xr b) = none) :
    Owes (.publish g d a b) s (some (.c d.val)) fullMask (.publish (s.sl.cr a) (s.sl.xr b).toNat) false := by
  refine owes_done _ s g _ _ _ _ (dField 3 0 d.val) (issues_mk rfl) ((guarded_true g s _ hg).trans ?_)
  rw [h]

theorem publishIssue (s : State) (g : Ctl) (d a : CReg) (b : XReg) (hg : s.sl.guard g = true) :
    let c := (s.sl.cr a).f
    let n := (s.sl.xr b).toNat
    let faults (k : Nat) : Prop := FaultsWith (.publish g d a b) s (FaultInfo.of k)
    let tagged := (s.sl.cr a).tag = true
    let allowed := publishAllowed c s.sl.cmpt
    let short := n = 0 ∨ min c.ext0 (2 ^ 32 - 1) < n
    (¬ tagged → faults 0x10) ∧ (tagged → ¬ allowed → faults 0x12) ∧ (tagged → allowed → c.seal_ ≠ 0 → faults 0x14)
    ∧ (tagged → allowed → c.seal_ = 0 → short → faults 0x11)
    ∧ (tagged → allowed → c.seal_ = 0 → ¬ short → Owes (.publish g d a b) s (some (.c d.val)) fullMask (.publish (s.sl.cr a) n) false) := by
  intro c n faults tagged allowed short
  have hshort : (s.sl.xr b = 0 ∨ min c.ext0 (2 ^ 32 - 1) < (s.sl.xr b).toNat) ↔ short :=
    or_congr_left (BitVec.toNat_inj (y := 0)).symm
  refine ⟨fun ht => exec_publish_fault d hg (publishCheck_untagged _ _ (Bool.eq_false_iff.mpr ht)),
    fun ht ha => exec_publish_fault d hg (publishCheck_refused _ ht ha), fun ht ha hs => ?_, fun ht ha hs hn => ?_, fun ht ha hs hn => ?_⟩
  · exact exec_publish_fault d hg ((publishCheck_allowed _ ht ha).trans (if_pos hs))
  · exact exec_publish_fault d hg ((publishCheck_allowed _ ht ha).trans ((if_neg (not_not.mpr hs)).trans (if_pos (hshort.mpr hn))))
  · exact exec_publish_owes d hg ((publishCheck_allowed _ ht ha).trans ((if_neg (not_not.mpr hs)).trans (if_neg (mt hshort.mp hn))))

/-! ## The header of an image (R354) -/

/-- A line holds MAGIC. -/
def hasMagic (l : Line) : Prop := bitsOf l.toNat 64 32 = 0x4E554947

/-- The first number that gives a result gives it. -/
theorem findSome?_range {α : Type} {f : Nat → Option α} {n k : Nat} {b : α} (hk : k < n) (hb : f k = some b)
    (hnone : ∀ j, j < k → f j = none) : (List.range n).findSome? f = some b := by
  induction n with
  | zero => exact absurd hk (Nat.not_lt_zero k)
  | succ n ih =>
    rw [List.range_succ, List.findSome?_append]
    rcases Nat.lt_succ_iff_lt_or_eq.mp hk with h | rfl
    · rw [ih h, Option.some_or]
    · rw [List.findSome?_eq_none_iff.mpr fun j hj => hnone j (List.mem_range.mp hj), Option.none_or, List.findSome?_singleton, hb]

/-- What a line of the image, counted from the last, makes of the search for the header. -/
def headerFrom (ls : List Line) (j : Nat) : Option (Nat × Line × List Line) :=
  match ls.drop (ls.length - 1 - j) with
  | l :: rest => if bitsOf l.toNat 64 32 = 0x4E554947 then some (ls.length - 1 - j, l, rest) else none
  | [] => none

theorem findHeader_eq (ls : List Line) : findHeader ls = (List.range (min ls.length 1025)).findSome? (headerFrom ls) := by
  unfold findHeader
  exact List.findSome?_map

/-- The line before `j` lines of the image's end. -/
theorem drop_from_last {ls : List Line} {j : Nat} (h : j < ls.length) :
    ∃ l es, ls.drop (ls.length - 1 - j) = l :: es ∧ es.length = j ∧ l = ls[ls.length - 1 - j] := by
  have hi : ls.length - 1 - j < ls.length := by omega
  exact ⟨_, _, List.drop_eq_getElem_cons hi, by rw [List.length_drop]; omega, rfl⟩

theorem headerFrom_none {ls : List Line} {j : Nat} (h : ∀ l es, ls.drop (ls.length - 1 - j) = l :: es → ¬ hasMagic l) :
    headerFrom ls j = none := by
  unfold headerFrom
  split
  · next l es hd => exact if_neg (h l es hd)
  · rfl

theorem findHeader_none {ls : List Line} (h : ∀ i l es, ls.drop i = l :: es → es.length < 1025 → ¬ hasMagic l) :
    findHeader ls = none := by
  rw [findHeader_eq, List.findSome?_eq_none_iff]
  intro j hj
  have hj := List.mem_range.mp hj
  obtain ⟨l, es, hd, hlen, -⟩ := drop_from_last (ls := ls) (j := j) (by omega)
  refine headerFrom_none fun l' es' hd' => h _ l' es' hd' ?_
  obtain ⟨-, rfl⟩ := List.cons.inj (hd.symm.trans hd')
  omega

/-- The header is the last line with MAGIC. -/
theorem findHeader_some {ls : List Line} {i : Nat} {l : Line} {es : List Line} (hd : ls.drop i = l :: es) (hlen : es.length < 1025)
    (hm : hasMagic l) (hlast : ∀ m ∈ es, ¬ hasMagic m) : findHeader ls = some (i, l, es) := by
  have hn : ls.length - i = es.length + 1 := by rw [← List.length_drop, hd, List.length_cons]
  have hi : ls.length - 1 - es.length = i := by omega
  rw [findHeader_eq]
  refine findSome?_range (k := es.length) (by omega) ?_ fun j hj => headerFrom_none fun l' es' hd' => hlast l' ?_
  · unfold headerFrom
    rw [hi, hd]
    exact if_pos hm
  · have hes : ls.drop (i + 1) = es := by rw [← List.drop_drop, hd, List.drop_one, List.tail_cons]
    have hsub : ls.drop (ls.length - 1 - j) = es.drop (ls.length - 1 - j - (i + 1)) := by
      rw [← hes, List.drop_drop]
      congr 1
      omega
    exact List.mem_of_mem_drop (hsub ▸ hd' ▸ List.mem_cons_self)

/-! ## The content checks (R355, R356) -/

/-- A bit field of a bit field. -/
theorem bitsOf_bitsOf (n lo w lo' w' : Nat) (h : lo' + w' ≤ w) : bitsOf (bitsOf n lo w) lo' w' = bitsOf n (lo + lo') w' := by
  have hw : 2 ^ w = 2 ^ lo' * 2 ^ (w - lo') := by rw [← Nat.pow_add]; congr 1; omega
  unfold bitsOf
  rw [hw, Nat.mod_mul_right_div_self, Nat.div_div_eq_div_mul, ← Nat.pow_add, Nat.mod_mod_of_dvd _ (Nat.pow_dvd_pow 2 (by omega))]

/-- An entry record is of a routine. -/
def isRoutine (e : Line) : Prop := bitsOf e.toNat 0 1 = 1

/-- An entry record obeys R355, for a text of `tl` bytes. -/
def entryObeys (tl : Nat) (e : Line) : Prop :=
  bitsOf e.toNat 256 256 = 0 ∧ bitsOf e.toNat 22 10 = 0 ∧ bitsOf e.toNat 32 32 % 4 = 0 ∧ bitsOf e.toNat 32 32 < tl
  ∧ (isRoutine e → bitsOf e.toNat 1 31 = 0 ∧ bitsOf e.toNat 64 128 = 0)
  ∧ (¬ isRoutine e → bitsOf e.toNat 9 13 ≤ 4096 ∧ bitsOf e.toNat 6 3 ≤ 4 ∧ bitsOf e.toNat 3 3 ≤ 4
      ∧ ∀ j, j < 4 → if j < bitsOf e.toNat 6 3 then bitsOf e.toNat (64 + 32 * j + 27) 5 = 0 else bitsOf e.toNat (64 + 32 * j) 32 = 0)

theorem entKind_cases (e : Line) : entKind e = 0 ∨ entKind e = 1 := by
  have h : entKind e < 2 := Nat.mod_lt _ (by decide)
  omega

/-- The capability arguments that an entry record names, and the rest, which is zero. -/
theorem cargsOk_iff (e : Line) : ((List.range 4).all fun i =>
      if i < entNc e then bitsOf (entCarg e i) 27 5 == 0 else entCarg e i == 0) = true
    ↔ ∀ j, j < 4 → if j < bitsOf e.toNat 6 3 then bitsOf e.toNat (64 + 32 * j + 27) 5 = 0 else bitsOf e.toNat (64 + 32 * j) 32 = 0 := by
  rw [List.all_eq_true]
  refine forall_congr' fun j => ?_
  rw [List.mem_range]
  refine imp_congr_right fun _ => ?_
  unfold entNc entCarg
  rw [bitsOf_bitsOf _ _ 32 27 5 (by decide)]
  split <;> exact beq_iff_eq

theorem entryOk_iff (tl : Nat) (e : Line) : entryOk tl e = true ↔ entryObeys tl e := by
  have hroutine : isRoutine e ↔ entKind e = 1 := Iff.rfl
  have hargs := cargsOk_iff e
  unfold entryOk entryObeys
  dsimp only
  rw [hroutine, ← hargs]
  rcases entKind_cases e with hk | hk
  · rw [hk, if_neg (by decide)]
    simp only [Bool.and_eq_true, beq_iff_eq, decide_eq_true_eq, and_assoc, Nat.zero_ne_one, false_imp_iff, true_and,
      not_false_eq_true, true_imp_iff]
    exact Iff.rfl
  · rw [hk, if_pos rfl]
    simp only [Bool.and_eq_true, beq_iff_eq, decide_eq_true_eq, and_assoc, not_true_eq_false, false_imp_iff, and_true, true_imp_iff]
    exact Iff.rfl

/-- No two entry records share a name hash or an offset. -/
def entriesApart (es : List Line) : Prop :=
  es.Pairwise fun x y => bitsOf x.toNat 192 64 ≠ bitsOf y.toNat 192 64 ∧ bitsOf x.toNat 32 32 ≠ bitsOf y.toNat 32 32

theorem entriesDistinct_iff (es : List Line) : entriesDistinct es = true ↔ entriesApart es := by
  induction es with
  | nil => simp [entriesDistinct, entriesApart]
  | cons e es ih =>
    unfold entriesDistinct
    rw [Bool.and_eq_true, ih, entriesApart, entriesApart, List.pairwise_cons, List.all_eq_true]
    refine and_congr_left fun _ => forall_congr' fun m => imp_congr_right fun _ => ?_
    rw [Bool.and_eq_true, bne_iff_ne, bne_iff_ne]
    exact and_congr ne_comm ne_comm

/-- The version and the reserved bits of a header. -/
def headerPlain (l : Line) : Prop := bitsOf l.toNat 48 16 = 1 ∧ bitsOf l.toNat 96 160 = 0

theorem headerOk_iff {l : Line} (h : hasMagic l) : headerOk l = true ↔ headerPlain l := by
  have h : bitsOf l.toNat 64 32 = 0x4E554947 := h
  simp [headerOk, headerPlain, h]

/-- The lengths of an image whose header is line `i`. -/
def sizesFit (l : Line) (i len : Nat) : Prop :=
  hdrTlen l % 4 = 0 ∧ 4 ≤ hdrTlen l ∧ hdrTlen l ≤ 2 ^ 26 ∧ 1 ≤ hdrNent l ∧ hdrNent l ≤ 1024 ∧ 64 * i = (hdrTlen l + 63) / 64 * 64
    ∧ len = 64 * i + 64 * (1 + hdrNent l)

theorem sizesFit_iff (l : Line) (i len : Nat) : ¬ (hdrTlen l % 4 ≠ 0 ∨ hdrTlen l < 4 ∨ 2 ^ 26 < hdrTlen l ∨ hdrNent l < 1 ∨ 1024 < hdrNent l
    ∨ i * 64 ≠ (hdrTlen l + 63) / 64 * 64 ∨ len ≠ i * 64 + 64 * (1 + hdrNent l)) ↔ sizesFit l i len := by
  unfold sizesFit
  rw [Nat.mul_comm i 64]
  simp only [not_or, not_lt, not_not, ne_eq]

theorem hdrDevh_iff (l : Line) : hdrDevh l = Config.deviceHash ↔ bitsOf l.toNat 256 256 = Config.deviceHash.toNat := by
  have hlt : bitsOf l.toNat 256 256 < 2 ^ 256 := Nat.mod_lt _ (Nat.two_pow_pos 256)
  rw [hdrDevh, ← BitVec.toNat_inj, BitVec.toNat_ofNat, Nat.mod_eq_of_lt hlt]

/-- The entry records obey R355, and one of them is a kernel's. -/
def entriesOk (tl : Nat) (es : List Line) : Prop := (∀ e ∈ es, entryObeys tl e) ∧ ∃ e ∈ es, ¬ isRoutine e

theorem entriesOk_iff (tl : Nat) (es : List Line) :
    (es.all (entryOk tl) && es.any fun e => entKind e == 0) = true ↔ entriesOk tl es := by
  rw [Bool.and_eq_true, List.all_eq_true, List.any_eq_true]
  refine and_congr (forall₂_congr fun e _ => entryOk_iff tl e) (exists_congr fun e => and_congr_right fun _ => ?_)
  rw [beq_iff_eq]
  have hcases := entKind_cases e
  have hr : isRoutine e ↔ entKind e = 1 := Iff.rfl
  rw [hr]
  omega

/-- A frame holds a byte of a text of `tl` bytes at `base`, as the activation reaches it. -/
def textFrame (s : State) (w : Who) (base tl k : Nat) : Prop :=
  ∃ j p, 4096 * j < tl ∧ s.xlate w .load false (base + 4096 * j) = .ok p ∧ k = p.key / 4096

theorem mem_textFrames (s : State) (w : Who) (base tl k : Nat) : k ∈ (s.textFrames w base tl).map (·.1) ↔ textFrame s w base tl k := by
  unfold State.textFrames textFrame
  simp only [List.mem_map, List.mem_filterMap, List.mem_range]
  constructor
  · rintro ⟨x, ⟨j, hj, hx⟩, rfl⟩
    cases hp : s.xlate w .load false (base + 4096 * j) with
    | error e => rw [hp] at hx; cases hx
    | ok p =>
      rw [hp] at hx
      cases hx
      exact ⟨j, p, by omega, hp, rfl⟩
  · rintro ⟨j, p, hj, hp, rfl⟩
    exact ⟨_, ⟨j, by omega, by rw [hp]⟩, rfl⟩

/-- No frame of the text is a code frame already. -/
def textFree (s : State) (w : Who) (base tl : Nat) : Prop := ∀ k, textFrame s w base tl k → SMap.look 0 s.frames k = 0

theorem textFree_iff (s : State) (w : Who) (base tl : Nat) :
    ¬ ((s.textFrames w base tl).any fun f => SMap.look 0 s.frames f.1 != 0) = true ↔ textFree s w base tl := by
  rw [List.any_eq_true, textFree]
  simp only [← mem_textFrames, List.mem_map, bne_iff_ne, not_exists, not_and, ne_eq, not_not, forall_exists_index, and_imp,
    forall_apply_eq_imp_iff₂]

/-- A check that passes goes on to what follows it. -/
theorem pass_check {α : Type} {p q : Prop} [Decidable p] {a b : α} (h : p ↔ ¬ q) (hq : q) : (if p then a else b) = b :=
  if_neg fun hp => h.mp hp hq

/-- The reason that the content checks answer, in their order (R356). -/
theorem imageReason_order (s : State) (w : Who) (c : CapF) {l : Line} {es : List Line} {i len : Nat} (hm : hasMagic l) :
    let r := s.imageReason w c len (some (i, l, es))
    let tl := hdrTlen l
    let header := headerPlain l
    let sizes := sizesFit l i len
    let device := bitsOf l.toNat 256 256 = Config.deviceHash.toNat
    let entries := entriesOk tl es
    let distinct := entriesApart es
    let n := (s.worldAt w.world).nextObj
    let free := textFree s w c.base tl
    (¬ header → r = some 2) ∧ (header → ¬ sizes → r = some 3) ∧ (header → sizes → ¬ device → r = some 4)
    ∧ (header → sizes → device → ¬ entries → r = some 5) ∧ (header → sizes → device → entries → ¬ distinct → r = some 6)
    ∧ (header → sizes → device → entries → distinct → 2 ^ 32 ≤ n → r = some 7)
    ∧ (header → sizes → device → entries → distinct → n < 2 ^ 32 → ¬ free → r = some 8)
    ∧ (header → sizes → device → entries → distinct → n < 2 ^ 32 → free → r = none) := by
  intro r tl header sizes device entries distinct n free
  have hheader : (!headerOk l) = true ↔ ¬ header := by rw [Bool.not_eq_true', ← Bool.not_eq_true, headerOk_iff hm]
  have hsizes := (not_iff_comm.mp (sizesFit_iff l i len)).symm
  have hdevice : hdrDevh l ≠ Config.deviceHash ↔ ¬ device := not_congr (hdrDevh_iff l)
  have hentries : (!(es.all (entryOk tl) && es.any fun e => entKind e == 0)) = true ↔ ¬ entries := by
    rw [Bool.not_eq_true', ← Bool.not_eq_true, entriesOk_iff]
  have hdistinct : (!entriesDistinct es) = true ↔ ¬ distinct := by rw [Bool.not_eq_true', ← Bool.not_eq_true, entriesDistinct_iff]
  have hfree := (not_iff_comm.mp (textFree_iff s w c.base tl)).symm
  refine ⟨fun h => if_pos (hheader.mpr h), fun h hs => (pass_check hheader h).trans (if_pos (hsizes.mpr hs)),
    fun h hs hd => (pass_check hheader h).trans ((pass_check hsizes hs).trans (if_pos (hdevice.mpr hd))),
    fun h hs hd he => ?_, fun h hs hd he hp => ?_, fun h hs hd he hp hn => ?_, fun h hs hd he hp hn hf => ?_,
    fun h hs hd he hp hn hf => ?_⟩
  all_goals refine (pass_check hheader h).trans ((pass_check hsizes hs).trans ((pass_check hdevice hd).trans ?_))
  · exact if_pos (hentries.mpr he)
  · exact (pass_check hentries he).trans (if_pos (hdistinct.mpr hp))
  · exact (pass_check hentries he).trans ((pass_check hdistinct hp).trans (if_pos hn))
  · exact (pass_check hentries he).trans ((pass_check hdistinct hp).trans ((if_neg (Nat.not_le.mpr hn)).trans (if_pos (hfree.mpr hf))))
  · exact (pass_check hentries he).trans ((pass_check hdistinct hp).trans ((if_neg (Nat.not_le.mpr hn)).trans (pass_check hfree hf)))

/-! ## The publication (R357) -/

theorem foldl_frames {α : Type} (key val : α → Nat) (l : List α) (s : State) :
    l.foldl (fun (t : State) f => { t with frames := SMap.put 0 t.frames (key f) (val f) }) s =
      { s with frames := l.foldl (fun m f => SMap.put 0 m (key f) (val f)) s.frames } := by
  induction l generalizing s with
  | nil => rfl
  | cons a l ih => exact ih _

theorem look_foldl_put_of_ne {α : Type} (key val : α → Nat) {l : List α} {k : Nat} (h : k ∉ l.map key) (m : SMap Nat) :
    SMap.look 0 (l.foldl (fun m f => SMap.put 0 m (key f) (val f)) m) k = SMap.look 0 m k := by
  induction l generalizing m with
  | nil => rfl
  | cons a l ih =>
    rw [List.map_cons, List.mem_cons, not_or] at h
    rw [List.foldl_cons, ih h.2, SMap.look_put_ne _ _ _ h.1]

theorem look_foldl_put_ne_zero {α : Type} (key val : α → Nat) (hval : ∀ a, val a ≠ 0) {l : List α} {k : Nat} (h : k ∈ l.map key)
    (m : SMap Nat) : SMap.look 0 (l.foldl (fun m f => SMap.put 0 m (key f) (val f)) m) k ≠ 0 := by
  induction l generalizing m with
  | nil => exact absurd h List.not_mem_nil
  | cons a l ih =>
    rw [List.foldl_cons]
    by_cases hl : k ∈ l.map key
    · exact ih hl _
    · obtain rfl : k = key a := (List.mem_cons.mp h).resolve_right hl
      rw [look_foldl_put_of_ne key val hl, SMap.look_put_self]
      exact hval a

theorem frameMark_ne_zero (world obj page : Nat) : frameMark world obj page ≠ 0 := by unfold frameMark; omega

/-- The object that a publication makes. -/
def publishedObj (cmpt base : Nat) (l : Line) (es ls : List Line) : CodeObj :=
  { base := base, tlen := hdrTlen l, cap := codeCap base (hdrTlen l) cmpt
    hashes := pageHashes ((lineBytes ls).take (hdrTlen l)) (textPages (hdrTlen l)), entries := es, cmpt := cmpt, quarantined := false
    verified := (List.range (textPages (hdrTlen l))).map fun i => (i, true) }

/-- The frames that hold code once the frames of a text have been marked as those of object `n`. -/
def State.textMarked (s : State) (w : Who) (base tl n : Nat) : SMap Nat :=
  (s.textFrames w base tl).foldl (fun m f => SMap.put 0 m f.1 (frameMark w.world n f.2)) s.frames

/-- A world with one more object. -/
def World.withObj (x : World) (n : Nat) (o : CodeObj) : World :=
  { x with objs := SMap.put CodeObj.reset x.objs n o, nextObj := n + 1 }

theorem makeObject_eq (s : State) (w : Who) (cmpt base : Nat) (l : Line) (es ls : List Line) :
    (s.makeObject w cmpt base l es ls).1 =
      ({ s with frames := s.textMarked w base (hdrTlen l) (s.worldAt w.world).nextObj }).updWorld w.world
        (·.withObj (s.worldAt w.world).nextObj (publishedObj cmpt base l es ls)) :=
  congrArg (State.updWorld · w.world (·.withObj (s.worldAt w.world).nextObj (publishedObj cmpt base l es ls)))
    (foldl_frames (·.1) (fun f => frameMark w.world (s.worldAt w.world).nextObj f.2) (s.textFrames w base (hdrTlen l)) s)

theorem look_map_true {l : List Nat} {p : Nat} (h : p ∈ l) : SMap.look false (l.map fun i => (i, true)) p = true := by
  induction l with
  | nil => exact absurd h List.not_mem_nil
  | cons i l ih =>
    rw [List.map_cons, SMap.look]
    split
    · rfl
    · next hi => exact ih ((List.mem_cons.mp h).resolve_left fun e => hi e.symm)

theorem pageHashes_getElem? (text : List Byte) {n p : Nat} (h : p < n) :
    (pageHashes text n)[p]? = some (sha3 ((text.drop (65536 * p)).take 65536)) := by
  rw [pageHashes, List.getElem?_map, List.getElem?_range h]
  rfl

theorem makeObject_spec (s : State) (w : Who) (cmpt base : Nat) (l : Line) (es ls : List Line) :
    let u := (s.makeObject w cmpt base l es ls).1
    let n := (s.worldAt w.world).nextObj
    MemoryKept s u ∧ (u.worldAt w.world).nextObj = n + 1 ∧ u.objAt w.world n = publishedObj cmpt base l es ls
    ∧ (∀ k, textFrame s w base (hdrTlen l) k → SMap.look 0 u.frames k ≠ 0)
    ∧ ∀ k, ¬ textFrame s w base (hdrTlen l) k → SMap.look 0 u.frames k = SMap.look 0 s.frames k := by
  intro u n
  have hu : u = _ := makeObject_eq s w cmpt base l es ls
  clear_value u
  subst hu
  refine ⟨⟨rfl, rfl, rfl⟩, ?_, ?_, fun k hk => ?_, fun k hk => ?_⟩
  · rw [State.worldAt_updWorld_self]
    rfl
  · rw [State.objAt, State.worldAt_updWorld_self]
    exact SMap.look_put_self _ _ _ _
  · exact look_foldl_put_ne_zero _ _ (fun _ => frameMark_ne_zero _ _ _) ((mem_textFrames s w base _ k).mpr hk) _
  · exact look_foldl_put_of_ne _ _ (mt (mem_textFrames s w base _ k).mp hk) _

/-! ## `publish` performs (R356, R357) -/

theorem doPublish_unaligned {s : State} {key seq len : Nat} {c : CapReg} (h : c.f.base % 65536 ≠ 0) :
    s.doPublish key seq c len = some (s, .val (reasonCap 1) 0) := if_pos h

theorem doPublish_waits {s : State} {key seq len : Nat} {c : CapReg} (hb : c.f.base % 65536 = 0)
    (ha : ¬ ((s.slotAt key).acked seq 6 = true ∧ s.bargeQuiet key seq = true)) : s.doPublish key seq c len = none := by
  refine (if_neg (not_not.mpr hb)).trans (if_pos ?_)
  rw [Bool.not_eq_true', ← Bool.not_eq_true, Bool.and_eq_true]
  exact ha

/-- What a `publish` whose activation's accesses are acknowledged makes of the image. -/
theorem doPublish_acked {s : State} {key seq len : Nat} {c : CapReg} (hb : c.f.base % 65536 = 0)
    (ha : (s.slotAt key).acked seq 6 = true ∧ s.bargeQuiet key seq = true) : s.doPublish key seq c len =
      match s.imageLines (s.who key) seq c.f 0 (len / 64) with
      | .error x => some (s, .fault x)
      | .ok (s1, ls) =>
        match s1.imageReason (s.who key) c.f len (findHeader ls), findHeader ls with
        | some r, _ => some (s1, .val (reasonCap r) 0)
        | none, none => some (s1, .val (reasonCap 2) 0)
        | none, some (_, l, es) =>
          if !s1.framesSettled ((s1.textFrames (s.who key) c.f.base (hdrTlen l)).map (·.1)) then none
          else some ((s1.makeObject (s.who key) (s.slotAt key).cmpt c.f.base l es ls).1,
            .val (s1.makeObject (s.who key) (s.slotAt key).cmpt c.f.base l es ls).2 0) := by
  refine (if_neg (not_not.mpr hb)).trans (if_neg ?_)
  rw [Bool.not_eq_true', ← Bool.not_eq_true, Bool.and_eq_true, not_not]
  exact ha

theorem framesSettled_iff (s : State) (fs : List Nat) :
    s.framesSettled fs = true ↔ ∀ x ∈ s.coh, x.2.pend ≠ none → x.1 / 64 ∉ fs := by
  unfold State.framesSettled
  rw [List.all_eq_true]
  refine forall₂_congr fun x _ => ?_
  rw [Bool.or_eq_true, Option.isNone_iff_eq_none, Bool.not_eq_true', ← Bool.not_eq_true, List.contains_iff_mem, or_iff_not_imp_left]

end Sys2Proof.Machine
end

section

open Sys2Proof Sys2Proof.Machine Sys2Proof.Safety

/-- `publish` checks its operand, owes its result, and performs what the image's content checks leave of it. -/
theorem publishResults : Sys2Proof.Parts.PublishResults := by
  refine ⟨fun s g d a b hg => publishIssue s g d a b hg, fun s key seq len c => ?_⟩
  intro b w acked part magic answers
  refine ⟨fun hb => doPublish_unaligned hb, fun hb ha => doPublish_waits hb ha, fun hb ha f hf => ?_, fun t ls hb ha hread => ⟨fun hm => ?_, ?_⟩⟩
  · rw [doPublish_acked hb ha, hf]
  · refine (doPublish_acked hb ha).trans ?_
    rw [hread]
    dsimp only
    rw [findHeader_none hm]
    rfl
  intro i l es hd hlen hm hlast tl nent header sizes device routine obeys entries distinct n frame free settled text
  have hhead := findHeader_some hd hlen hm hlast
  have hdo := doPublish_acked (len := len) hb ha
  rw [hread] at hdo
  dsimp only at hdo
  rw [hhead] at hdo
  have hreason {r : Nat} (hr : t.imageReason w c.f len (some (i, l, es)) = some r) : answers t r := by
    rw [hr] at hdo
    exact hdo
  obtain ⟨h2, h3, h4, h5, h6, h7, h8, hpass⟩ := imageReason_order t w c.f (es := es) (i := i) (len := len) hm
  refine ⟨fun h => hreason (h2 h), fun h hs => hreason (h3 h hs), fun h hs hv => hreason (h4 h hs hv),
    fun h hs hv he => hreason (h5 h hs hv he), fun h hs hv he hp => hreason (h6 h hs hv he hp),
    fun h hs hv he hp hn => hreason (h7 h hs hv he hp hn), fun h hs hv he hp hn hf => hreason (h8 h hs hv he hp hn hf),
    fun h hs hv he hp hn hf => ?_⟩
  rw [hpass h hs hv he hp hn hf] at hdo
  have hsettled : t.framesSettled ((t.textFrames w b tl).map (·.1)) = true ↔ settled :=
    (framesSettled_iff t _).trans (forall₂_congr fun x _ => imp_congr_right fun _ => not_congr (mem_textFrames t w b tl _))
  obtain ⟨hkept, hnext, hobj, hmarked, hother⟩ := makeObject_spec t w (s.slotAt key).cmpt b l es ls
  refine ⟨fun hu => hdo.trans (if_pos ?_), fun hu => ⟨_, hdo.trans (if_neg ?_), hkept, hnext, hmarked, hother, ?_⟩⟩
  · rw [Bool.not_eq_true', ← Bool.not_eq_true]
    exact mt hsettled.mp hu
  · rw [Bool.not_eq_true', ← Bool.not_eq_true, not_not]
    exact hsettled.mpr hu
  · intro q
    have hq : q = publishedObj (s.slotAt key).cmpt b l es ls := hobj
    rw [hq]
    refine ⟨rfl, rfl, rfl, rfl, rfl, fun p hp => ?_⟩
    have hpage : p < textPages tl := by unfold textPages; omega
    exact ⟨look_map_true (List.mem_range.mpr hpage), pageHashes_getElem? text hpage⟩
end

section
/-!
Instruction fetch (R87, R106, R335, R359): what the fetch of a slot comes to, and the words of code that it reads.
-/

namespace Sys2Proof.Machine
open Sys2Proof.Safety

/-! ## Words of code -/

/-- A word of code out of a line. -/
def codeWordOf (p : Place) (addr : Nat) (l : Line) : CodeWord :=
  { bytes := leBytes 4 (bitsOf l.toNat (8 * (p.key % 64)) 32), entry := addr, key := lineKey p.key, line := l }

/-- The bytes of a number's bit field. -/
theorem leBytes_bitsOf (v lo n : Nat) (m : Nat) (h : 8 * m ≤ n) :
    leBytes m (bitsOf v (8 * lo) n) = (List.range m).map fun j => BitVec.ofNat 8 (v / 2 ^ (8 * (lo + j))) := by
  refine List.map_congr_left fun j hj => BitVec.eq_of_toNat_eq ?_
  have hj := List.mem_range.mp hj
  rw [BitVec.toNat_ofNat, BitVec.toNat_ofNat, Nat.mul_add]
  have hbits := bitsOf_bitsOf v (8 * lo) n (8 * j) 8 (by omega)
  exact hbits

theorem codeWordOf_eq (p : Place) (addr : Nat) (l : Line) : codeWordOf p addr l =
    { bytes := (List.range 4).map fun j => BitVec.ofNat 8 (l.toNat / 2 ^ (8 * (p.key % 64 + j)))
      entry := addr, key := p.key / 64, line := l } := by
  unfold codeWordOf
  rw [leBytes_bitsOf _ _ 32 4 (by decide)]
  rfl

theorem codeWord_error {s : State} {w : Who} {e : Elem} {n : Nat} (cache : List (Nat × Line)) (h : s.codeByte w e.va = .error n) :
    s.codeWord w cache e = .error n := by
  rw [State.codeWord, h]

theorem codeWord_cached {s : State} {w : Who} {cache : List (Nat × Line)} {e : Elem} {p : Place} {addr : Nat} {x : Nat × Line}
    (h : s.codeByte w e.va = .ok (p, addr)) (hx : (cache.find? fun y => y.1 == lineKey p.key) = some x) :
    s.codeWord w cache e = .ok (codeWordOf p addr x.2) := by
  rw [State.codeWord, h]
  dsimp only
  rw [hx]
  rfl

theorem codeWord_read {s : State} {w : Who} {cache : List (Nat × Line)} {e : Elem} {p : Place} {addr : Nat}
    (h : s.codeByte w e.va = .ok (p, addr)) (hx : ∀ x ∈ cache, x.1 ≠ lineKey p.key) :
    s.codeWord w cache e = if s.poisoned (2 * p.key) 8 then .error 0x23 else .ok (codeWordOf p addr (s.codeLine w p)) := by
  have hfind : (cache.find? fun y => y.1 == lineKey p.key) = none :=
    List.find?_eq_none.mpr fun x hm => by rw [beq_iff_eq]; exact hx x hm
  rw [State.codeWord, h]
  dsimp only
  rw [hfind]
  rfl

/-! ## What a fetch comes to -/

theorem fetchWith_refused {s : State} {key : Nat} {f : FaultInfo}
    (h : fetchCheck (s.objAt (s.slotAt key).world (s.slotAt key).obj).cap (s.slotAt key).cmpt (s.slotAt key).pc [0, 1, 2] = .error f) :
    s.fetchWith key = (.fault (fetchFault f (s.slotAt key).pc) [], []) := by
  rw [State.fetchWith, h]

/-- A fetch whose check passes, by the first of its pages without its verified mark. -/
theorem fetchWith_checked {s : State} {key : Nat} {es : List Elem}
    (h : fetchCheck (s.objAt (s.slotAt key).world (s.slotAt key).obj).cap (s.slotAt key).cmpt (s.slotAt key).pc [0, 1, 2] = .ok es) :
    s.fetchWith key =
      match (fetchPages (s.slotAt key).pc).find?
          fun p => !SMap.look false (s.objAt (s.slotAt key).world (s.slotAt key).obj).verified p with
      | none =>
        (match s.codeWords (s.who key) (s.coreAt (key / 4)).icache es with
         | .error f => (.fault (fetchFault f (s.slotAt key).pc) (s.reached (s.who key) (s.coreAt (key / 4)).icache es), [])
         | .ok l => (.bytes (l.flatMap (·.bytes)), l))
      | some page =>
        if (s.objAt (s.slotAt key).world (s.slotAt key).obj).quarantined then
          (.fault (fetchFault { FaultInfo.of 0x3B with mode := 3 } (s.slotAt key).pc) [], [])
        else match s.codeWords (s.who key) [] ((s.objAt (s.slotAt key).world (s.slotAt key).obj).pageElems page) with
          | .error f => (.fault (fetchFault f (s.slotAt key).pc)
              (s.reached (s.who key) [] ((s.objAt (s.slotAt key).world (s.slotAt key).obj).pageElems page)), [])
          | .ok _ => (.unverified, []) := by
  rw [State.fetchWith, h] <;> rfl

/-- The lower page without its mark, then the upper, is the one that a fetch waits for. -/
theorem fetchPages_find (v : SMap Bool) (pc : Int) : (fetchPages pc).find? (fun p => !SMap.look false v p) =
    if SMap.look false v (pc.toNat / 65536) = true then
      (if SMap.look false v ((pc.toNat + 11) / 65536) = true then none else some ((pc.toNat + 11) / 65536))
    else some (pc.toNat / 65536) := by
  unfold fetchPages
  cases h : SMap.look false v (pc.toNat / 65536) <;> cases h' : SMap.look false v ((pc.toNat + 11) / 65536) <;> simp [h, h']

end Sys2Proof.Machine
end

section

open Sys2Proof Sys2Proof.Machine Sys2Proof.Safety

/-- What the fetch of a slot comes to, by its check, its pages and the walk of its words. -/
theorem fetchCases : Sys2Proof.Parts.FetchCases := by
  intro s key f es ws e p addr n cache sl w o marked first last offset words unmarked
  refine ⟨fun h => fetchWith_refused h, fun h => ?_, fun h => ?_, fun leaf lvl a h => ⟨fun c hc => ?_, fun x hx => ?_⟩,
    fun h => codeWord_error cache h, fun h => ?_⟩
  · have hpages := fetchPages_find o.verified sl.pc
    have hwith := fetchWith_checked h
    have hwaits (q : Nat) (hq : ((fetchPages sl.pc).find? fun p => !SMap.look false o.verified p) = some q) : unmarked q := by
      rw [hq] at hwith
      dsimp only at hwith
      refine ⟨fun hquar => hwith.trans (if_pos hquar), fun hquar hf => ?_, fun hquar hw => ?_⟩
      · have hf' : s.codeWords (s.who key) [] (o.pageElems q) = .error f := hf
        rw [hf'] at hwith
        exact hwith.trans (if_neg (Bool.eq_false_iff.mp hquar))
      · have hw' : s.codeWords (s.who key) [] (o.pageElems q) = .ok ws := hw
        rw [hw'] at hwith
        exact hwith.trans (if_neg (Bool.eq_false_iff.mp hquar))
    refine ⟨fun h1 => hwaits _ (hpages.trans (if_neg h1)), fun h1 h2 => hwaits _ (hpages.trans ((if_pos h1).trans (if_neg h2))),
      fun h1 h2 => ?_⟩
    rw [hpages.trans ((if_pos h1).trans (if_pos h2))] at hwith
    dsimp only at hwith
    intro own r
    refine ⟨fun hr => hwith.trans ?_, fun hr => hwith.trans ?_⟩
    · rw [show s.codeWords (s.who key) (s.coreAt (key / 4)).icache es = .error f from hr]
      rfl
    · rw [show s.codeWords (s.who key) (s.coreAt (key / 4)).icache es = .ok ws from hr]
  · rw [State.reached, h]
  · rw [State.reached, h]
    dsimp only
    rw [hc]
  · rw [State.reached, h]
    dsimp only
    rw [hx]
  · refine ⟨fun x hx => (codeWord_cached h hx).trans (congrArg _ (codeWordOf_eq p addr x.2)), fun hx => ?_⟩
    have hread := codeWord_read h hx
    refine ⟨fun hp => hread.trans (if_pos hp), fun hp => ?_⟩
    have hline := hread.trans (if_neg (Bool.eq_false_iff.mp hp))
    rw [codeWordOf_eq] at hline
    refine ⟨fun hk => hline.trans ?_, fun hk => hline.trans ?_⟩
    · rw [State.codeLine, if_pos hk]
    · rw [State.codeLine, if_neg hk]

end

section
/-!
The homes and caches of memory know nothing of the worlds: what the monitor writes into a fault log does not depend on the code
objects of a world (R234, R361).
-/

namespace Sys2Proof.Machine
open Sys2Proof.Safety

/-- The state with other worlds. -/
def State.withWorlds (s : State) (x : SMap World) : State := { s with worlds := x }

variable (s : State) (x : SMap World)

theorem foldl_withWorlds {α : Type} {f : State → α → State} (hf : ∀ (t : State) a, f (t.withWorlds x) a = (f t a).withWorlds x)
    (l : List α) : ∀ s : State, l.foldl f (s.withWorlds x) = (l.foldl f s).withWorlds x := by
  induction l with
  | nil => exact fun _ => rfl
  | cons a l ih => exact fun s => by rw [List.foldl_cons, List.foldl_cons, hf, ih]

theorem ite_withWorlds {p : Prop} [Decidable p] {a b : State} :
    (if p then a.withWorlds x else b.withWorlds x) = (if p then a else b).withWorlds x := by
  split <;> rfl

theorem cohAt_withWorlds (l : Nat) : (s.withWorlds x).cohAt l = s.cohAt l := rfl

theorem sliceAt_withWorlds (n : Nat) : (s.withWorlds x).sliceAt n = s.sliceAt n := rfl

theorem coreAt_withWorlds (c : Nat) : (s.withWorlds x).coreAt c = s.coreAt c := rfl

theorem now_withWorlds : (s.withWorlds x).now = s.now := rfl

theorem updCoh_withWorlds (l : Nat) (f : LineCoh → LineCoh) : (s.withWorlds x).updCoh l f = (s.updCoh l f).withWorlds x := rfl

theorem updSlice_withWorlds (n : Nat) (f : Slice → Slice) : (s.withWorlds x).updSlice n f = (s.updSlice n f).withWorlds x := rfl

theorem updCore_withWorlds (c : Nat) (f : Core → Core) : (s.withWorlds x).updCore c f = (s.updCore c f).withWorlds x := rfl

theorem updSlot_withWorlds (k : Nat) (f : Slot → Slot) : (s.withWorlds x).updSlot k f = (s.updSlot k f).withWorlds x := rfl

theorem count_withWorlds (k u n a : Nat) : (s.withWorlds x).count k u n a = (s.count k u n a).withWorlds x := rfl

/-! ## Copies -/

theorem dropDie_withWorlds (die lk : Nat) : (s.withWorlds x).dropDie die lk = (s.dropDie die lk).withWorlds x :=
  foldl_withWorlds x (fun _ _ => rfl) (s.holders die lk) s

theorem leaveSlice_withWorlds (slice lk : Nat) : (s.withWorlds x).leaveSlice slice lk = (s.leaveSlice slice lk).withWorlds x := by
  unfold State.leaveSlice
  rw [sliceAt_withWorlds, updSlice_withWorlds, ite_withWorlds]

theorem finishWriteBack_withWorlds (lk : Nat) : (s.withWorlds x).finishWriteBack lk = (s.finishWriteBack lk).withWorlds x := by
  have h : (s.withWorlds x).cohAt lk = s.cohAt lk := rfl
  unfold State.finishWriteBack
  rw [h]
  cases (s.cohAt lk).wback <;> rfl

theorem doSnoopRead_withWorlds (lk : Nat) : (s.withWorlds x).doSnoopRead lk = (s.doSnoopRead lk).withWorlds x := by
  have h : (s.withWorlds x).cohAt lk = s.cohAt lk := rfl
  unfold State.doSnoopRead
  rw [h]
  dsimp only
  cases (s.cohAt lk).proxy <;> rfl

theorem doSnoopInval_withWorlds (lk : Nat) : (s.withWorlds x).doSnoopInval lk = (s.doSnoopInval lk).withWorlds x := by
  have h : (s.withWorlds x).cohAt lk = s.cohAt lk := rfl
  have hmove (v : CapReg) : (s.withWorlds x).moveLine lk v = (s.moveLine lk v).withWorlds x := rfl
  have hupd (t : State) (f : LineCoh → LineCoh) : (t.withWorlds x).updCoh lk f = (t.updCoh lk f).withWorlds x := rfl
  unfold State.doSnoopInval
  rw [h]
  dsimp only
  cases (s.cohAt lk).proxy <;> simp only [hmove, dropDie_withWorlds, leaveSlice_withWorlds, hupd]

theorem settle_withWorlds (lk : Nat) : (s.withWorlds x).settle lk = (s.settle lk).withWorlds x := by
  have h (t : State) : (t.withWorlds x).cohAt lk = t.cohAt lk := rfl
  have hupd (t : State) (f : LineCoh → LineCoh) : (t.withWorlds x).updCoh lk f = (t.updCoh lk f).withWorlds x := rfl
  unfold State.settle
  rw [finishWriteBack_withWorlds]
  dsimp only
  rw [h]
  rcases ((s.finishWriteBack lk).cohAt lk).snoop with _ | ⟨_ | _ | _⟩ <;>
    simp only [doSnoopRead_withWorlds, doSnoopInval_withWorlds, hupd]

theorem recallHost_withWorlds (lk : Nat) (wr : Bool) : (s.withWorlds x).recallHost lk wr = (s.recallHost lk wr).withWorlds x := by
  unfold State.recallHost
  rw [cohAt_withWorlds, updCoh_withWorlds, ite_withWorlds]

theorem ackInvalidated_withWorlds (lk : Nat) : (s.withWorlds x).ackInvalidated lk = (s.ackInvalidated lk).withWorlds x := by
  unfold State.ackInvalidated
  dsimp only
  rw [cohAt_withWorlds, foldl_withWorlds x fun t a => updSlot_withWorlds t x _ _, updCoh_withWorlds]

theorem doInvalidate_withWorlds (lk : Nat) : (s.withWorlds x).doInvalidate lk = (s.doInvalidate lk).withWorlds x := by
  unfold State.doInvalidate
  rw [doSnoopInval_withWorlds, ackInvalidated_withWorlds, updCoh_withWorlds]

theorem outsideReady_withWorlds (lk : Nat) (wr : Bool) : (s.withWorlds x).outsideReady lk wr = (s.outsideReady lk wr).withWorlds x := by
  have h (t : State) : (t.withWorlds x).cohAt lk = t.cohAt lk := rfl
  unfold State.outsideReady
  rw [settle_withWorlds, recallHost_withWorlds]
  dsimp only
  rw [h]
  generalize (s.settle lk).recallHost lk wr = t
  cases (t.cohAt lk).owner with
  | some k => rfl
  | none =>
    dsimp only
    rw [doSnoopRead_withWorlds, doInvalidate_withWorlds, doSnoopInval_withWorlds]
    cases wr with
    | false => rfl
    | true => cases (t.cohAt lk).proxy <;> rfl

/-! ## Rounds of a home -/

theorem dropStash_withWorlds (core : Nat) (sel : StashLine → Bool) :
    (s.withWorlds x).dropStash core sel = (s.dropStash core sel).withWorlds x := by
  unfold State.dropStash
  rw [coreAt_withWorlds, updCore_withWorlds, foldl_withWorlds x fun t e => updCoh_withWorlds t x _ _]

theorem flushRegion_withWorlds (slice : Nat) (r : Region) : (s.withWorlds x).flushRegion slice r = (s.flushRegion slice r).withWorlds x := by
  have hmask : (s.withWorlds x).regionMask (slice / 64) r = s.regionMask (slice / 64) r := rfl
  have hcoh : (s.withWorlds x).coh = s.coh := rfl
  unfold State.flushRegion
  dsimp only
  rw [hmask, hcoh, foldl_withWorlds x fun t a => ?_, foldl_withWorlds x fun t a => updCore_withWorlds t x _ _]
  rw [updCoh_withWorlds, count_withWorlds]

theorem freeRegion_withWorlds (slice : Nat) (keep : Option Region) :
    (s.withWorlds x).freeRegion slice keep = (s.freeRegion slice keep).withWorlds x := by
  have hmask (r : Region) : (s.withWorlds x).regionMask (slice / 64) r = s.regionMask (slice / 64) r := rfl
  unfold State.freeRegion
  rw [sliceAt_withWorlds]
  cases oldestRegion ((s.sliceAt slice).dir.filter fun q => some q != keep) with
  | none => rfl
  | some r =>
    dsimp only
    rw [hmask, flushRegion_withWorlds, foldl_withWorlds x fun t c => ?_, updSlice_withWorlds]
    rw [updCore_withWorlds, dropStash_withWorlds]

theorem splitRegion_withWorlds (slice lk : Nat) : (s.withWorlds x).splitRegion slice lk = (s.splitRegion slice lk).withWorlds x := by
  unfold State.splitRegion
  rw [sliceAt_withWorlds]
  cases (s.sliceAt slice).regionOf lk with
  | none => rfl
  | some r =>
    dsimp only
    rw [freeRegion_withWorlds, ite_withWorlds, updSlice_withWorlds, count_withWorlds, ite_withWorlds, now_withWorlds]

theorem takeReply_withWorlds (slice lk : Nat) (r : Reply) : (s.withWorlds x).takeReply slice lk r = (s.takeReply slice lk r).withWorlds x := by
  cases r with
  | none => exact splitRegion_withWorlds s x slice lk
  | applied => rfl
  | gone => rfl

theorem drainChannel_withWorlds (slice lk core : Nat) :
    (s.withWorlds x).drainChannel slice lk core = (s.drainChannel slice lk core).withWorlds x := by
  unfold State.drainChannel
  rw [cohAt_withWorlds]
  cases (s.cohAt lk).pend with
  | none => rfl
  | some d =>
    dsimp only
    rw [updCoh_withWorlds, foldl_withWorlds x fun t a => takeReply_withWorlds t x slice lk _, updCore_withWorlds]

theorem updateRound_withWorlds (slice lk : Nat) : (s.withWorlds x).updateRound slice lk = (s.updateRound slice lk).withWorlds x := by
  have hsharers : (s.withWorlds x).sharersOf slice lk = s.sharersOf slice lk := rfl
  unfold State.updateRound
  rw [hsharers, count_withWorlds, foldl_withWorlds x fun t c => ?_]
  dsimp only
  rw [updCore_withWorlds, drainChannel_withWorlds, coreAt_withWorlds, takeReply_withWorlds]

theorem homeRound_withWorlds (lk : Nat) : (s.withWorlds x).homeRound lk = (s.homeRound lk).withWorlds x := by
  have hcoh : (s.withWorlds x).coh = s.coh := rfl
  unfold State.homeRound
  rw [cohAt_withWorlds, hcoh, updateRound_withWorlds, ite_withWorlds]

theorem homePut_withWorlds (k : Nat) (v : CapReg) : (s.withWorlds x).homePut k v = (s.homePut k v).withWorlds x := by
  unfold State.homePut
  rw [outsideReady_withWorlds, homeRound_withWorlds]
  rfl

theorem logAt_withWorlds (flog world : Nat) (f : FaultInfo) : (s.withWorlds x).logAt flog world f = (s.logAt flog world f).withWorlds x := by
  have hput (t : State) (k : Nat) (bs : List Byte) : (t.withWorlds x).putData k bs = (t.putData k bs).withWorlds x := rfl
  have hmem (t : State) : (t.withWorlds x).mem = t.mem := rfl
  unfold State.logAt
  simp only [outsideReady_withWorlds, hmem, homePut_withWorlds, homeRound_withWorlds, hput]

/-! ## Reports -/

/-- What a world describes of its fault log. -/
structure SameLogs (a b : World) : Prop where
  live   : b.live = a.live
  flog   : b.flog = a.flog
  policy : b.policy = a.policy

/-- A report in the world's own log. -/
def State.logOwn (s : State) (w : Nat) (f : FaultInfo) : State := if (s.worldAt w).live then s.logAt (s.worldAt w).flog w f else s

theorem report_eq (w : Nat) (f : FaultInfo) : s.report w f =
    if ((s.logOwn w f).worldAt 0).live then (s.logOwn w f).logAt ((s.logOwn w f).worldAt 0).flog w (f.coarsen (s.worldAt w).policy)
    else s.logOwn w f := rfl

theorem LineWork.worlds {s u : State} (h : LineWork s u) : u.worlds = s.worlds := (congrArg State.worlds h.rest :)

theorem logAt_worlds (flog w : Nat) (f : FaultInfo) : (s.logAt flog w f).worlds = s.worlds :=
  (logAt_lineWork s flog w f).worlds

theorem logOwn_worlds (w : Nat) (f : FaultInfo) : (s.logOwn w f).worlds = s.worlds := by
  unfold State.logOwn
  split
  · exact logAt_worlds s _ w f
  · rfl

theorem report_worlds (w : Nat) (f : FaultInfo) : (s.report w f).worlds = s.worlds :=
  (report_lineWork s w f).worlds

/-- Other worlds with the same logs: a report is written in the same way. -/
theorem report_withWorlds (w : Nat) (f : FaultInfo) (h : ∀ k, SameLogs (s.worldAt k) ((s.withWorlds x).worldAt k)) :
    (s.withWorlds x).report w f = (s.report w f).withWorlds x := by
  have hown : (s.withWorlds x).logOwn w f = (s.logOwn w f).withWorlds x := by
    unfold State.logOwn
    rw [(h w).live, (h w).flog, logAt_withWorlds, ite_withWorlds]
  have hzero : SameLogs ((s.logOwn w f).worldAt 0) (((s.logOwn w f).withWorlds x).worldAt 0) := by
    have hw : (s.logOwn w f).worldAt 0 = s.worldAt 0 := by rw [State.worldAt, logOwn_worlds, ← State.worldAt]
    rw [hw]
    exact h 0
  rw [report_eq, report_eq, hown, hzero.live, hzero.flog, (h w).policy, logAt_withWorlds, ite_withWorlds]

/-- A change of a world beside what describes its logs. -/
theorem report_updWorld (k : Nat) (g : World → World) (w : Nat) (f : FaultInfo) (hg : ∀ y, SameLogs y (g y)) :
    (s.updWorld k g).report w f = (s.report w f).updWorld k g := by
  have hx : (s.report w f).updWorld k g = (s.report w f).withWorlds (SMap.upd World.reset s.worlds k g) := by
    unfold State.updWorld
    rw [report_worlds]
    rfl
  rw [hx]
  refine report_withWorlds s _ w f fun j => ?_
  have hat : (s.withWorlds (SMap.upd World.reset s.worlds k g)).worldAt j = if j = k then g (s.worldAt k) else s.worldAt j :=
    State.worldAt_updWorld s k j g
  rw [hat]
  split
  · next e => rw [e]; exact hg _
  · exact ⟨rfl, rfl, rfl⟩

end Sys2Proof.Machine
end

section
/-!
The completion of a fetch and the verification of a page (R123, R357, R359, R361).
-/

namespace Sys2Proof.Machine
open Sys2Proof.Safety

/-! ## What marking the walks leaves -/

theorem markAccessed_lineWork (s : State) (a : Nat) : LineWork s (s.markAccessed a) := by
  unfold State.markAccessed
  extract_lets e k l l' c home proxied
  have hhome : LineWork s home := moveLine_lineWork s _ _
  have hproxied (t : State) (ht : LineWork s t) : LineWork s (proxied t) := ht.trans (updCoh_lineWork t _ _)
  split
  · exact .refl s
  · split
    · exact updCoh_lineWork s _ _
    · split
      · exact hproxied s (.refl s)
      · exact hproxied home hhome
      · exact hproxied home hhome
      · exact hproxied home hhome
      · exact hhome

theorem markWalks_lineWork (s : State) (l : List CodeWord) : LineWork s (s.markWalks l) :=
  LineWork.foldl State.markAccessed markAccessed_lineWork (l.map CodeWord.entry) s

theorem LineWork.now {s u : State} (h : LineWork s u) : u.now = s.now := (congrArg State.now h.rest :)

theorem LineWork.objAt {s u : State} (h : LineWork s u) (w n : Nat) : u.objAt w n = s.objAt w n := by
  unfold State.objAt
  rw [h.worldAt]

/-! ## The slot whose fetch waits -/

theorem exec_fetchComplete (core slot : Nat) (s : State) : exec (.fetchComplete core slot) s =
    .next (if (s.slotAt (4 * core + slot)).active && !(s.slotAt (4 * core + slot)).fetched
          && (s.fetchWith (4 * core + slot)).1 != .unverified then
        s.updSlot (4 * core + slot) fun x => { x with fetched := true }
      else s) := rfl

theorem awaits_iff (s : State) (world obj page k : Nat) : s.awaits world obj page k = true ↔
    (s.slotAt k).active = true ∧ (s.slotAt k).fetched = false ∧ (s.slotAt k).world = world ∧ (s.slotAt k).obj = obj
      ∧ (page = (s.slotAt k).pc.toNat / 65536 ∨ page = ((s.slotAt k).pc.toNat + 11) / 65536) := by
  simp [State.awaits, fetchPages, and_assoc]

theorem verifier_none {s : State} {world obj page : Nat} (h : ∀ j, j / 4 ∈ s.cores.keys → ¬ s.awaits world obj page j = true) :
    s.verifier world obj page = none := by
  refine List.find?_eq_none.mpr fun j hj => h j ?_
  obtain ⟨c, hc, hj⟩ := List.mem_flatMap.mp hj
  obtain ⟨i, hi, rfl⟩ := List.mem_map.mp hj
  have hi := List.mem_range.mp hi
  have hdiv : (4 * c + i) / 4 = c := by omega
  rw [hdiv]
  exact hc

/-! ## The verification -/

theorem exec_pageVerification_none {s : State} {world obj page : Nat} (h : s.verifier world obj page = none) :
    Stays (.pageVerification world obj page) s := by
  change execPageVerification world obj page s = .next s
  unfold execPageVerification
  rw [h]

/-- The page of an object has to be verified. -/
def verifyDue (o : CodeObj) (page : Nat) : Prop :=
  o.quarantined = false ∧ SMap.look false o.verified page = false ∧ o.pageBytes page ≠ 0

theorem verifyDue_iff (o : CodeObj) (page : Nat) :
    (o.quarantined || SMap.look false o.verified page || o.pageBytes page == 0) = true ↔ ¬ verifyDue o page := by
  rw [← Bool.not_eq_false, not_iff_not]
  simp only [verifyDue, Bool.or_eq_false_iff, beq_eq_false_iff_ne, and_assoc]

theorem exec_pageVerification_notDue {s : State} {world obj page : Nat} (h : ¬ verifyDue (s.objAt world obj) page) :
    Stays (.pageVerification world obj page) s := by
  change execPageVerification world obj page s = .next s
  unfold execPageVerification
  dsimp only
  cases s.verifier world obj page with
  | none => rfl
  | some k => exact if_pos ((verifyDue_iff _ _).mpr h)

theorem exec_pageVerification_unread {s : State} {world obj page k : Nat} {e : FaultInfo} (hk : s.verifier world obj page = some k)
    (he : s.codeWords (s.who k) [] ((s.objAt world obj).pageElems page) = .error e) : Stays (.pageVerification world obj page) s := by
  change execPageVerification world obj page s = .next s
  unfold execPageVerification
  rw [hk]
  dsimp only
  rw [he]
  exact ite_self _

/-- The frames of words of code. -/
def codeFrames (l : List CodeWord) : List Nat := (l.map fun x => x.key / 64).eraseDups

theorem mem_codeFrames (l : List CodeWord) (f : Nat) : f ∈ codeFrames l ↔ ∃ x ∈ l, f = x.key / 64 := by
  rw [codeFrames, List.mem_eraseDups, List.mem_map]
  exact exists_congr fun x => and_congr_right fun _ => eq_comm

/-- The page is read: it is marked or its object is quarantined once its frames are settled. -/
theorem exec_pageVerification_read {s : State} {world obj page k : Nat} {l : List CodeWord} (hk : s.verifier world obj page = some k)
    (hd : verifyDue (s.objAt world obj) page) (hl : s.codeWords (s.who k) [] ((s.objAt world obj).pageElems page) = .ok l) :
    exec (.pageVerification world obj page) s = if s.framesSettled (codeFrames l) then
        .next (if sha3 (l.flatMap (·.bytes)) = (s.objAt world obj).hashes.getD page 0 then
            (s.markWalks l).markVerified world obj page (codeFrames l)
          else (s.markWalks l).quarantine world obj page)
      else .next s := by
  change execPageVerification world obj page s = _
  unfold execPageVerification
  rw [hk]
  dsimp only
  rw [if_neg (mt (verifyDue_iff _ _).mp (not_not.mpr hd)), hl]
  dsimp only
  rw [← codeFrames]
  cases s.framesSettled (codeFrames l) <;> rfl

theorem objAt_updWorld_upd (s : State) (world obj : Nat) (f : CodeObj → CodeObj) (k : Nat) :
    (s.updWorld world fun x => { x with objs := SMap.upd CodeObj.reset x.objs obj f }).objAt world k =
      if k = obj then f (s.objAt world obj) else s.objAt world k := by
  rw [State.objAt, State.worldAt_updWorld_self]
  exact SMap.look_put CodeObj.reset _ obj k _

/-- The marked page, and the frames that hold it. -/
theorem markVerified_spec (s : State) (world obj page : Nat) (frames : List Nat) :
    let u := s.markVerified world obj page frames
    u.mem = s.mem ∧ (∀ f ∈ frames, SMap.look 0 u.frames f ≠ 0)
    ∧ ∀ k, u.objAt world k =
        if k = obj then { s.objAt world obj with verified := SMap.put false (s.objAt world obj).verified page true } else s.objAt world k := by
  intro u
  have hframes := foldl_frames id (fun _ => frameMark world obj page) frames s
  have hu : u = _ := congrArg (State.updWorld · world fun x =>
    { x with objs := SMap.upd CodeObj.reset x.objs obj fun c => { c with verified := SMap.put false c.verified page true } }) hframes
  clear_value u
  subst hu
  refine ⟨rfl, fun f hf => ?_, fun k => (objAt_updWorld_upd _ world obj _ k).trans rfl⟩
  exact look_foldl_put_ne_zero id _ (fun _ => frameMark_ne_zero _ _ _) (by rwa [List.map_id]) _

/-- The fault that a failed verification reports. -/
def quarantineReport (obj page now : Nat) : FaultInfo :=
  { FaultInfo.of 0x3B with mode := 3, iaddr := BitVec.ofNat 64 (obj * 2 ^ 32 + 65536 * page), time := BitVec.ofNat 64 now }

theorem quarantine_spec (s : State) (world obj page : Nat) :
    let u := s.quarantine world obj page
    u.mem = (s.report world (quarantineReport obj page s.now)).mem
    ∧ ∀ k, u.objAt world k = if k = obj then { s.objAt world obj with quarantined := true } else s.objAt world k := by
  intro u
  have hu : u = _ := report_updWorld s world
    (fun w => { w with objs := SMap.upd CodeObj.reset w.objs obj fun o => { o with quarantined := true } }) world
    (quarantineReport obj page s.now) fun _ => ⟨rfl, rfl, rfl⟩
  clear_value u
  subst hu
  refine ⟨rfl, fun k => (objAt_updWorld_upd _ world obj _ k).trans ?_⟩
  rw [(report_lineWork s world _).objAt, (report_lineWork s world _).objAt]

end Sys2Proof.Machine
end

section

open Sys2Proof Sys2Proof.Machine Sys2Proof.Safety

/-- When a fetch completes, and what the verification that it waits for does. -/
theorem fetchAndVerification : Sys2Proof.Parts.FetchAndVerification := by
  intro s core slot world obj page k key fetches o n awaits due
  have hawaits (j : Nat) : s.awaits world obj page j = true ↔ awaits j := awaits_iff s world obj page j
  have hfetches : ((s.slotAt key).active && !(s.slotAt key).fetched && (s.fetchWith key).1 != .unverified) = true ↔ fetches := by
    rw [Bool.and_eq_true, Bool.and_eq_true, Bool.not_eq_true', bne_iff_ne, and_assoc]
  refine ⟨fun h => ?_, fun h => ?_, fun h => exec_pageVerification_none (verifier_none fun j hj => mt (hawaits j).mp (h j hj)),
    fun h => exec_pageVerification_notDue h, fun hk => ⟨(hawaits k).mp (List.find?_some hk),
      fun e he => exec_pageVerification_unread hk he, fun l hd hl => ?_⟩⟩
  · exact ⟨_, (exec_fetchComplete core slot s).trans (congrArg _ (if_pos (hfetches.mpr h))), onlySlot_updSlot s key _,
      State.slotAt_updSlot_self s key _⟩
  · exact (exec_fetchComplete core slot s).trans (congrArg _ (if_neg (mt hfetches.mp h)))
  · intro frame settled hash others
    have hread := exec_pageVerification_read hk hd hl
    have hsettled : s.framesSettled (codeFrames l) = true ↔ settled :=
      (framesSettled_iff s _).trans (forall₂_congr fun x _ => imp_congr_right fun _ => not_congr (mem_codeFrames l _))
    have hwork := markWalks_lineWork s l
    refine ⟨fun hs => hread.trans (if_neg (mt hsettled.mp hs)), fun hs hh => ?_, fun hs hh => ?_⟩
    · obtain ⟨hmem, hframes, hobj⟩ := markVerified_spec (s.markWalks l) world obj page (codeFrames l)
      simp only [hwork.objAt] at hobj
      exact ⟨_, hread.trans ((if_pos (hsettled.mpr hs)).trans (congrArg _ (if_pos hh))), fun k hk => (hobj k).trans (if_neg hk),
        (hobj obj).trans (if_pos rfl), hmem, fun f hf => hframes f ((mem_codeFrames l f).mpr hf)⟩
    · obtain ⟨hmem, hobj⟩ := quarantine_spec (s.markWalks l) world obj page
      simp only [hwork.objAt, hwork.now] at hobj hmem
      exact ⟨_, hread.trans ((if_pos (hsettled.mpr hs)).trans (congrArg _ (if_neg hh))), fun k hk => (hobj k).trans (if_neg hk),
        (hobj obj).trans (if_pos rfl), hmem⟩

/-- Settles O36, by the checks of `publish` and of its image, the cases of a fetch, and the verification of a page. -/
theorem codeObjects : Obligations.CodeObjects := ⟨publishResults, fetchCases, fetchAndVerification⟩

end

section
/-!
The Barge's writes and the groups that it stages (R44, R57 … R60, R174, R301).
-/

namespace Sys2Proof.Machine
open Sys2Proof.Safety

/-! ## Writes of elements and lines -/

theorem leBytes_length (n v : Nat) : (leBytes n v).length = n := by simp [leBytes]

theorem leBytes_getElem? {n i : Nat} (v : Nat) (h : i < n) : (leBytes n v)[i]? = some (BitVec.ofNat 8 (v / 2 ^ (8 * i))) := by
  rw [leBytes, List.getElem?_map, List.getElem?_range h]
  rfl

theorem memWrite_nibble (s : State) (k nib v : Nat) : s.memWrite k (.data k nib 4 v) = s.putNibble k nib v := by
  change s.putElem k nib 4 v = _
  exact if_pos rfl

theorem memWrite_bytes (s : State) (k nib v : Nat) {bits : Nat} (h : bits ≠ 4) :
    s.memWrite k (.data k nib bits v) = s.putData k (leBytes (bits / 8) v) := by
  change s.putElem k nib bits v = _
  exact if_neg h

/-- The byte that a written nibble leaves. -/
theorem putNibble_byte (s : State) (k v : Nat) {nib : Nat} (h : nib < 2) : ((s.putNibble k nib v).byte k).toNat =
    (s.byte k).toNat % 16 ^ nib + 16 ^ nib * (v % 16) + if nib = 0 then (s.byte k).toNat / 16 * 16 else 0 := by
  have hb := (s.byte k).isLt
  have hget : (s.putNibble k nib v).byte k = BitVec.ofNat 8
      (if nib = 0 then (s.byte k).toNat / 16 * 16 + v % 16 else (s.byte k).toNat % 16 + 16 * (v % 16)) :=
    Memory.get_set_self _ _ _
  rw [hget, BitVec.toNat_ofNat]
  obtain rfl | rfl : nib = 0 ∨ nib = 1 := by omega
  · rw [if_pos rfl, if_pos rfl]
    omega
  · rw [if_neg (by decide), if_neg (by decide)]
    omega

theorem putNibble_byte_ne (s : State) {k j : Nat} (nib v : Nat) (h : j ≠ k) : (s.putNibble k nib v).byte j = s.byte j :=
  Memory.get_set_ne _ _ h

/-- A written element clears the tag of its line, and no other. -/
theorem memWrite_data_tagAt (s : State) (k nib bits v j : Nat) : (s.memWrite k (.data k nib bits v)).tagAt j =
    if j / 64 = k / 64 then false else s.tagAt j := by
  have htags : (s.memWrite k (.data k nib bits v)).tags = SMap.put false s.tags (lineKey k) false := by
    change (s.putElem k nib bits v).tags = _
    unfold State.putElem
    split <;> rfl
  rw [State.tagAt, htags, SMap.look_put]
  rfl

/-- The bytes of a written line. -/
theorem putLine_byte (s : State) (k : Nat) (c : CapReg) {i : Nat} (h : i < 64) :
    (s.putLine k c).byte (64 * (k / 64) + i) = BitVec.ofNat 8 (c.bits.toNat / 2 ^ (8 * i)) :=
  Memory.get_setBytes_in _ _ _ _ _ (leBytes_getElem? _ h)

theorem putLine_byte_ne (s : State) {k j : Nat} (c : CapReg) (h : j / 64 ≠ k / 64) : (s.putLine k c).byte j = s.byte j := by
  refine Memory.get_setBytes_out _ _ _ _ ?_
  rw [leBytes_length]
  unfold lineKey
  omega

theorem putLine_tagAt (s : State) (k : Nat) (c : CapReg) : (s.putLine k c).tagAt k = c.tag := SMap.look_put_self _ _ _ _

/-! ## Staged groups -/

/-- Rounding to nearest even at exponent 0, in integers: a quotient and what is left of it. -/
theorem roundQ_rne_zero (neg : Bool) (m : Nat) (e : Int) :
    let num := m * 2 ^ e.toNat
    let den := 2 ^ (-e).toNat
    let lo := num / den
    roundQ .rne neg m e 0 =
      (if den < 2 * (num % den) ∨ den = 2 * (num % den) ∧ lo % 2 = 1 then lo + 1 else lo, num % den != 0) := by
  intro num den lo
  unfold roundQ
  split
  · next h =>
    have hden : den = 1 := by
      have he : (-e).toNat = 0 := by omega
      exact congrArg (2 ^ ·) he
    have hlo : lo = num := by rw [show lo = num / den from rfl, hden, Nat.div_one]
    rw [hlo, hden, Nat.mod_one, if_neg (by omega), Int.sub_zero]
    rfl
  · next h =>
    have hm : num = m := by
      have he : e.toNat = 0 := by omega
      rw [show num = m * 2 ^ e.toNat from rfl, he, Nat.pow_zero, Nat.mul_one]
    have hsh : (0 - e).toNat = (-e).toNat := by rw [Int.zero_sub]
    have hhalf : den = 2 * 2 ^ ((-e).toNat - 1) := by
      rw [← Nat.pow_succ', Nat.succ_eq_add_one, show (-e).toNat - 1 + 1 = (-e).toNat by omega]
    have hup : (decide (2 ^ ((-e).toNat - 1) < m % den) || (m % den == 2 ^ ((-e).toNat - 1) && m / den % 2 == 1)) = true
        ↔ den < 2 * (m % den) ∨ den = 2 * (m % den) ∧ m / den % 2 = 1 := by
      rw [Bool.or_eq_true, Bool.and_eq_true, decide_eq_true_eq, beq_iff_eq, beq_iff_eq]
      generalize 2 ^ ((-e).toNat - 1) = half at hhalf
      omega
    dsimp only
    rw [hsh, hm, show lo = m / den from congrArg (· / den) hm]
    exact Prod.ext (if_congr hup rfl rfl) rfl

/-- The largest of a list that is not empty. -/
theorem foldl_max_spec (t : List Int) (e : Int) : t.foldl max e ∈ e :: t ∧ ∀ x ∈ e :: t, x ≤ t.foldl max e := by
  induction t generalizing e with
  | nil => exact ⟨List.mem_cons_self, fun x hx => (List.mem_singleton.mp hx).le⟩
  | cons a t ih =>
    obtain ⟨hmem, hle⟩ := ih (max e a)
    rw [List.foldl_cons]
    refine ⟨?_, fun x hx => ?_⟩
    · rcases List.mem_cons.mp hmem with h | h
      · rw [h]
        rcases max_choice e a with h' | h' <;> simp [h']
      · exact List.mem_cons_of_mem _ (List.mem_cons_of_mem _ h)
    · have hmax := hle _ List.mem_cons_self
      rcases List.mem_cons.mp hx with rfl | hx
      · exact (le_max_left _ _).trans hmax
      · rcases List.mem_cons.mp hx with rfl | hx
        · exact (le_max_right _ _).trans hmax
        · exact hle _ (List.mem_cons_of_mem _ hx)

/-- The integer that a value of a group becomes, and whether it was inexact (R59, R60). -/
def stageElem (np : Nat) (eg : Int) (v : FVal) : Int × Bool :=
  match v with
  | .fin n m e =>
    let (k, ix) := roundQ .rne n m (e + np - 2 - eg) 0
    let z : Int := if n then -(k : Int) else k
    if z = 2 ^ (np - 1) then (2 ^ (np - 1) - 1, true) else (z, ix)
  | .inf _ => (0, false)
  | .nan _ => (0, false)

/-- The exponent of a group: the largest of its nonzero elements'. -/
def groupExp (f : FpFmt) (es : List Int) : Int :=
  match es with
  | [] => 1 - (f.bias : Int)
  | e :: t => t.foldl max e

theorem stageGroup_special {f : FpFmt} (np : Nat) {xs : List Nat}
    (h : ∃ x ∈ xs, fvIsNan (f.value x) = true ∨ fvIsInf (f.value x) = true) :
    stageGroup f np xs = { marked := true, eg := 1 - (f.bias : Int), qs := xs.map fun _ => 0, inexact := false } := by
  obtain ⟨x, hx, hv⟩ := h
  exact if_pos (List.any_eq_true.mpr ⟨f.value x, List.mem_map_of_mem hx, Bool.or_eq_true_iff.mpr hv⟩)

theorem stageGroup_plain {f : FpFmt} (np : Nat) {xs : List Nat}
    (h : ¬ ∃ x ∈ xs, fvIsNan (f.value x) = true ∨ fvIsInf (f.value x) = true) :
    let eg := groupExp f ((xs.map f.value).filterMap (expOf f))
    stageGroup f np xs = { marked := false, eg := eg, qs := (xs.map f.value).map fun v => (stageElem np eg v).1
                           inexact := (xs.map f.value).any fun v => (stageElem np eg v).2 } := by
  refine if_neg fun hany => h ?_
  obtain ⟨v, hv, hs⟩ := List.any_eq_true.mp hany
  obtain ⟨x, hx, rfl⟩ := List.mem_map.mp hv
  exact ⟨x, hx, Bool.or_eq_true_iff.mp hs⟩

theorem filterMap_expOf (f : FpFmt) (xs : List Nat) :
    (xs.map f.value).filterMap (expOf f) = xs.filterMap fun x => match f.value x with
    | .fin _ m e => if m = 0 then none else some (e + (f.mBits : Int))
    | _ => none := by
  rw [List.filterMap_map]
  refine congrArg (List.filterMap · xs) (funext fun x => ?_)
  change expOf f (f.value x) = _
  cases f.value x <;> rfl

theorem groupExp_nil {f : FpFmt} {es : List Int} (h : es = []) : groupExp f es = 1 - (f.bias : Int) := by rw [h, groupExp]

theorem groupExp_max {f : FpFmt} {es : List Int} (h : es ≠ []) : groupExp f es ∈ es ∧ ∀ e ∈ es, e ≤ groupExp f es := by
  cases es with
  | nil => exact absurd rfl h
  | cons e t => exact foldl_max_spec t e

/-- A finite value scaled by the group's exponent, rounded to nearest even and clamped. -/
theorem stageElem_fin (np : Nat) (eg : Int) (n : Bool) (m : Nat) (e : Int) :
    let sh := e + np - 2 - eg
    let num := m * 2 ^ sh.toNat
    let den := 2 ^ (-sh).toNat
    let lo := num / den
    let k := if den < 2 * (num % den) ∨ den = 2 * (num % den) ∧ lo % 2 = 1 then lo + 1 else lo
    let z : Int := if n = true then -(k : Int) else k
    stageElem np eg (.fin n m e) = if z = 2 ^ (np - 1) then (2 ^ (np - 1) - 1, true) else (z, num % den != 0) := by
  intro sh num den lo k z
  unfold stageElem
  dsimp only
  rw [roundQ_rne_zero]

/-- The value rounds up to the first that does not fit only where it is inexact, or is that value. -/
theorem clamped_of_exact {np num den : Nat} {n : Bool} (hden : 0 < den) (hrem : num % den = 0) :
    let lo := num / den
    let k := if den < 2 * (num % den) ∨ den = 2 * (num % den) ∧ lo % 2 = 1 then lo + 1 else lo
    (if n = true then -(k : Int) else (k : Int)) = 2 ^ (np - 1) → n = false ∧ lo = 2 ^ (np - 1) := by
  intro lo k hz
  have hk : k = lo := if_neg (by omega)
  have hpos : (0 : Int) < 2 ^ (np - 1) := by positivity
  rw [hk] at hz
  cases n with
  | true =>
    rw [if_pos rfl] at hz
    omega
  | false =>
    rw [if_neg Bool.false_ne_true] at hz
    exact ⟨rfl, by exact_mod_cast hz⟩

end Sys2Proof.Machine
end

section

open Sys2Proof Sys2Proof.Machine Sys2Proof.Safety

/-- What a staging stores of a group of a float line. -/
theorem stagedGroups : Sys2Proof.Parts.StagedGroups := by
  intro f np xs hf hnp emin r special exps
  refine ⟨fun h => stageGroup_special np h, fun h => ?_⟩
  have hr : r = _ := stageGroup_plain np h
  have hexps : (xs.map f.value).filterMap (expOf f) = exps := filterMap_expOf f xs
  rw [hexps] at hr
  have helem (j : Nat) (n : Bool) (m : Nat) (e : Int) (hj : (xs[j]?.map f.value) = some (.fin n m e)) :
      r.qs[j]? = some (stageElem np r.eg (.fin n m e)).1 := by
    rw [hr]
    dsimp only
    rw [List.getElem?_map, List.getElem?_map, hj]
    rfl
  have hinexact : r.inexact = true ↔ ∃ v ∈ xs.map f.value, (stageElem np r.eg v).2 = true := by
    rw [hr]
    exact List.any_eq_true
  refine ⟨by rw [hr], fun he => ?_, fun he => ?_, ?_, fun j n m e hj => ?_, fun hi => ?_⟩
  · rw [hr]
    exact groupExp_nil he
  · rw [hr]
    exact groupExp_max he
  · rw [hr]
    simp
  · intro sh num den lo k z
    have hfin : stageElem np r.eg (.fin n m e) = if z = 2 ^ (np - 1) then (2 ^ (np - 1) - 1, true) else (z, num % den != 0) :=
      stageElem_fin np r.eg n m e
    refine ⟨(helem j n m e hj).trans (congrArg some ?_), fun hx => ?_⟩
    · rw [hfin, apply_ite Prod.fst]
    · obtain ⟨x, hx', hv⟩ := Option.map_eq_some_iff.mp hj
      refine hinexact.mpr ⟨_, List.mem_map_of_mem (List.mem_of_getElem? hx'), ?_⟩
      rw [hv, hfin, apply_ite Prod.snd]
      split
      · rfl
      · next hz => exact bne_iff_ne.mpr (hx.resolve_right hz)
  · obtain ⟨v, hv, hs⟩ := hinexact.mp hi
    obtain ⟨x, hx, rfl⟩ := List.mem_map.mp hv
    obtain ⟨j, hj⟩ := List.getElem?_of_mem hx
    cases hval : f.value x with
    | nan b => rw [hval] at hs; cases hs
    | inf b => rw [hval] at hs; cases hs
    | fin n m e =>
      refine ⟨j, n, m, e, by rw [hj, Option.map_some, hval], ?_⟩
      rw [hval, stageElem_fin, apply_ite Prod.snd] at hs
      intro sh
      by_cases hrem : m * 2 ^ sh.toNat % 2 ^ (-sh).toNat = 0
      · refine .inr (clamped_of_exact (Nat.two_pow_pos _) hrem ?_)
        by_contra hz
        exact bne_iff_ne.mp ((if_neg hz).symm.trans hs) hrem
      · exact .inl hrem

/-- What the writes of elements and lines change. -/
theorem writesChangeMemory : Sys2Proof.Parts.WritesChangeMemory := by
  intro s k nib bits v c j e l
  refine ⟨fun hb hn => ?_, fun hb => ?_, fun i hi => putLine_byte s k c hi, fun hj => putLine_byte_ne s c hj, ?_,
    putLine_tagAt s k c,
    fun hj => ⟨?_, tagAt_putLine_ne s c hj⟩⟩
  · subst hb
    have he : e = s.putNibble k nib v := memWrite_nibble s k nib v
    rw [he]
    exact ⟨putNibble_byte s k v hn, fun hj => putNibble_byte_ne s nib v hj⟩
  · have he : e = s.putData k (leBytes (bits / 8) v) := memWrite_bytes s k nib v fun h => by simp [h] at hb
    obtain ⟨hin, hout, -⟩ := putData_spec s k (leBytes (bits / 8) v)
    rw [he]
    rw [leBytes_length] at hout
    exact ⟨fun i hi => hin i _ (leBytes_getElem? v hi), hout j⟩
  · exact (memWrite_data_tagAt s k nib bits v k).trans (if_pos rfl)
  · exact (memWrite_data_tagAt s k nib bits v j).trans (if_neg hj)

end

section
/-!
The return of a Barge instruction's status (R184, R195, R196, R305, R308).
-/

namespace Sys2Proof.Machine
open Sys2Proof.Safety

/-- A change of a core depends on that core alone. -/
theorem updCore_congr (s : State) (c : Nat) {f f' : Core → Core} (h : f (s.coreAt c) = f' (s.coreAt c)) :
    s.updCore c f = s.updCore c f' := congrArg (s.setCore c) h

theorem who_congr {s u : State} {k : Nat} (h : u.slotAt k = s.slotAt k) : u.who k = s.who k := by
  unfold State.who
  rw [h]

theorem bargeAcked_iff (s : State) (c n : Nat) : s.bargeAcked c n = true ↔
    ∀ l ∈ s.coh, ∀ x ∈ l.2.inval, ¬ (x.1 = c ∧ x.2.1 = 4 ∧ x.2.2.1 = n) := by
  unfold State.bargeAcked
  simp only [List.all_eq_true, Bool.not_eq_true', Bool.and_eq_false_iff, beq_eq_false_iff_ne, not_and_or, ne_eq, or_assoc]

/-- A flight of the Barge instruction with a number. -/
def isBarge (n : Nat) (f : Flight) : Bool :=
  match f with
  | .barge k _ => k == n
  | _ => false

/-- A slot that has the result of a Barge instruction. -/
def Slot.hasReturned (sl : Slot) (n : Nat) (r : Res) : Slot :=
  { sl with owed := sl.owed.map fun o => if o.res = none ∧ isBarge n o.flight = true then { o with res := some r } else o }

theorem bargeReturns_eq (sl : Slot) (n : Nat) (r : Res) : sl.bargeReturns n r = sl.hasReturned n r := by
  unfold Slot.bargeReturns Slot.returnTo Slot.hasReturned
  have hopen (o : Owed) : (o.open_ && isBarge n o.flight) = true ↔ o.res = none ∧ isBarge n o.flight = true := by
    rw [Bool.and_eq_true, Owed.open_, Option.isNone_iff_eq_none]
  refine congrArg (fun l => { sl with owed := l }) (List.map_congr_left fun o _ => ?_)
  exact if_congr (hopen o) rfl rfl

/-- The status returns to its slot, from a state. -/
def State.bargeReturned (t : State) (key n : Nat) (r : Res) : State := t.updSlot key fun sl => sl.bargeReturns n r

theorem bargeReturned_spec (t : State) (key n : Nat) (r : Res) :
    OnlySlot key t (t.bargeReturned key n r) ∧ (t.bargeReturned key n r).slotAt key = (t.slotAt key).hasReturned n r :=
  ⟨onlySlot_updSlot t key _, (State.slotAt_updSlot_self t key _).trans (bargeReturns_eq _ n r)⟩

/-- A state whose core has forgotten the finished instruction at the head. -/
def State.bargeTaken (s : State) (c : Nat) : State := s.updCore c fun k => { k with bdone := k.bdone.tail }

/-- What a completion that may go on comes to. -/
theorem exec_bargeCompletion {s : State} {c : Nat} {d : BargeDone} {q : List BargeDone} (hq : (s.coreAt c).bdone = d :: q) :
    exec (.bargeCompletion c) s =
      if !s.bargeAcked c d.num then .next s
      else match d.count with
        | none => .next ((s.bargeTaken c).bargeReturned (4 * c + d.slot) d.num d.res)
        | some (slu, n) =>
          if d.defer then
            .next (((s.bargeTaken c).updCore c fun k =>
              { k with counts := k.counts ++ [{ num := d.num, slot := d.slot, slu := slu, bytes := n }] }).bargeReturned
              (4 * c + d.slot) d.num d.res)
          else if !s.cumulative (dieOf c) d.stamp
              || s.elemPending (s.who (4 * c + d.slot)) .atomic true (slu.f.elem Coords.zero) then .next s
          else
            match (s.bargeTaken c).applySluice ((s.bargeTaken c).who (4 * c + d.slot)) (.count n) (slu.f.elem Coords.zero) with
            | .ok s2 => .next (s2.bargeReturned (4 * c + d.slot) d.num d.res)
            | .error f => .next ((s.bargeTaken c).bargeReturned (4 * c + d.slot) d.num
                (.fault (partialFault f.cause f.at_ f.fva 0 false))) := by
  change execBargeCompletion c s = _
  unfold execBargeCompletion
  rw [hq] <;> rfl

end Sys2Proof.Machine
end

section

open Sys2Proof Sys2Proof.Machine Sys2Proof.Safety

/-- When a finished Barge instruction returns its status, and with what. -/
theorem bargeCompletes : Sys2Proof.Parts.BargeCompletes := by
  intro s c d q s2 f hq hslot key w s1 mine returns acked before
  have hexec := exec_bargeCompletion hq
  have hacked : s.bargeAcked c d.num = true ↔ acked := bargeAcked_iff s c d.num
  have htaken : s.bargeTaken c = s1 := updCore_congr s c (by rw [hq]; rfl)
  have hmine : isBarge d.num = mine := by
    funext x
    cases x <;> rfl
  have hreturns (t : State) (r : Res) (h : exec (.bargeCompletion c) s = .next (t.bargeReturned key d.num r)) : returns t r := by
    obtain ⟨honly, hat⟩ := bargeReturned_spec t key d.num r
    refine ⟨_, h, honly, hat.trans ?_⟩
    rw [Slot.hasReturned, hmine]
  have hwho : s1.who key = w := who_congr (State.slotAt_updCore s c key _ fun _ => rfl)
  rw [htaken] at hexec
  refine ⟨fun ha => hexec.trans (if_pos ?_), fun ha => ?_⟩
  · rw [Bool.not_eq_true', ← Bool.not_eq_true]
    exact mt hacked.mp ha
  rw [hacked.mpr ha] at hexec
  refine ⟨fun hc => hreturns s1 d.res (hexec.trans ?_), fun slu n hc => ?_⟩
  · rw [hc]
    rfl
  intro e counts
  rw [hc] at hexec
  have hcounts : (!s.cumulative (dieOf c) d.stamp || s.elemPending w .atomic true e) = true ↔ ¬ counts := by
    have hbefore : s.cumulative (dieOf c) d.stamp = true ↔ before := cumulative_iff s _ _
    rw [Bool.or_eq_true, Bool.not_eq_true', ← Bool.not_eq_true, hbefore, ← Bool.not_eq_false, ← not_and_or]
  refine ⟨fun hd => hreturns _ d.res (hexec.trans (if_pos hd)), fun hd hn => ?_, fun hd hn ha => hreturns s2 d.res ?_,
    fun hd hn ha => hreturns s1 _ ?_⟩
  all_goals rw [hd] at hexec
  · exact hexec.trans (if_pos (hcounts.mpr hn))
  · refine hexec.trans ((if_neg (mt hcounts.mp (not_not.mpr hn))).trans ?_)
    rw [hwho, ha]
  · refine hexec.trans ((if_neg (mt hcounts.mp (not_not.mpr hn))).trans ?_)
    rw [hwho, ha]
    rfl

end

section
/-!
What reading an element and writing one leave alone: the queues of the Barges.
-/

namespace Sys2Proof.Machine
open Sys2Proof.Safety

/-- The queue of each core's Barge. -/
def queues (s : State) : Nat → List BargeOp := fun c => (s.coreAt c).barge

theorem queues_of_offReady {s u : State} (h : offReady u = offReady s) : queues u = queues s :=
  funext fun c => (congrArg (fun v => (v.2 c).barge) h :)

theorem queues_updCore (s : State) (c : Nat) {f : Core → Core} (hf : ∀ x, (f x).barge = x.barge) :
    queues (s.updCore c f) = queues s := by
  funext d
  change ((s.updCore c f).coreAt d).barge = (s.coreAt d).barge
  rw [State.coreAt_updCore]
  split
  · next h => rw [hf, h]
  · rfl

theorem queues_foldl {α : Type} {f : State → α → State} (hf : ∀ s a, queues (f s a) = queues s) (l : List α) :
    ∀ s, queues (l.foldl f s) = queues s := by
  induction l with
  | nil => exact fun _ => rfl
  | cons a l ih => exact fun s => (ih (f s a)).trans (hf s a)

/-! ## Reads -/

@[simp] theorem queues_touchPage (s : State) (w : Who) (va : Nat) : queues (s.touchPage w va) = queues s :=
  queues_of_offReady (offReady_touchPage s w va)

@[simp] theorem queues_readyElem (s : State) (w : Who) (seq : Nat) (e : Elem) (p : Place) :
    queues (s.readyElem w seq e p) = queues s := by
  unfold State.readyElem
  split
  · rfl
  · exact (queues_of_offReady (offReady_readyRead _ w p)).trans (queues_touchPage s w e.va)

theorem queues_readElem {s u : State} {w : Who} {k : AKind} {seq : Nat} {e : Elem} {x : Nat × Place}
    (h : s.readElem w k seq e = .ok (u, x)) : queues u = queues s := by
  unfold State.readElem at h
  split at h
  · cases h
  · dsimp only at h
    split at h
    · cases h
    · cases h
      simp

theorem queues_readCap {s u : State} {w : Who} {k : AKind} {seq : Nat} {e : Elem} {v : CapReg}
    (h : s.readCap w k seq e = .ok (u, v)) : queues u = queues s := by
  unfold State.readCap at h
  split at h
  · cases h
  · next hr =>
    dsimp only at h
    split at h
    · cases h
    · cases h
      exact queues_readElem hr

theorem queues_readRecord {w : Who} {seq : Nat} {r : CapReg} (js : List Nat) : ∀ {s u : State} {l : List CapReg},
    s.readRecord w seq r js = .ok (u, l) → queues u = queues s := by
  induction js with
  | nil =>
    intro s u l h
    cases h
    rfl
  | cons j js ih =>
    intro s u l h
    unfold State.readRecord at h
    split at h
    · cases h
    · next hr =>
      split at h
      · cases h
      · next hs =>
        cases h
        exact (ih hs).trans (queues_readCap hr)

/-! ## Writes -/

@[simp] theorem queues_updLine (s : State) (p : Place) (f : LineCoh → LineCoh) : queues (s.updLine p f) = queues s := rfl

@[simp] theorem queues_updRev (s : State) (r : Nat) (f : Revision → Revision) : queues (s.updRev r f) = queues s := rfl

@[simp] theorem queues_putLine (s : State) (k : Nat) (v : CapReg) : queues (s.putLine k v) = queues s := rfl

@[simp] theorem queues_updateRound (s : State) (slice lk : Nat) : queues (s.updateRound slice lk) = queues s :=
  queues_of_offReady (offReady_updateRound s slice lk)

@[simp] theorem queues_outsideReady (s : State) (lk : Nat) (wr : Bool) : queues (s.outsideReady lk wr) = queues s :=
  queues_of_offReady (offReady_outsideReady s lk wr)

@[simp] theorem queues_memWrite (s : State) (k : Nat) (op : WOp) : queues (s.memWrite k op) = queues s := by
  cases op with
  | data k' nib bits v =>
    change queues (s.putElem k' nib bits v) = queues s
    unfold State.putElem
    split <;> rfl
  | line v => rfl

@[simp] theorem queues_rootWrite (s : State) (core : Nat) (p : Place) (op : WOp) : queues (s.rootWrite core p op) = queues s := by
  unfold State.rootWrite
  split
  · cases op <;> rfl
  · exact queues_memWrite s _ _

@[simp] theorem queues_markHost (s : State) (w : Who) : queues (s.markHost w) = queues s := by
  unfold State.markHost State.updSlot
  refine queues_updCore s _ ?_
  exact fun _ => rfl

@[simp] theorem queues_placeWrite (s : State) (w : Who) (p : Place) (op : WOp) : queues (s.placeWrite w p op) = queues s := by
  unfold State.placeWrite
  split
  · simp
  · rfl
  · simp
  · split <;> simp
  · simp
  · simp

@[simp] theorem queues_junctionPut (s : State) (y : Revision) (va : Nat) (v : CapReg) :
    queues (s.junctionPut y va v) = queues s := by
  unfold State.junctionPut
  dsimp only
  split
  · split
    · split
      · rfl
      · split
        · simp
        · simp
        · split <;> simp
        all_goals simp
    · rfl
  · rfl

@[simp] theorem queues_syncEntry (s : State) (r i : Nat) : queues (s.syncEntry r i) = queues s := by
  unfold State.syncEntry
  dsimp only
  split <;> simp

@[simp] theorem queues_syncHeader (s : State) (r : Nat) : queues (s.syncHeader r) = queues s := queues_junctionPut s _ _ _

@[simp] theorem queues_addEntry (s : State) (r la : Nat) (v : CapReg) (err : List Nat) :
    queues (s.addEntry r la v err) = queues s := by
  unfold State.addEntry
  simp

@[simp] theorem queues_breakRev (s : State) (r la : Nat) : queues (s.breakRev r la) = queues s := by
  unfold State.breakRev
  simp

@[simp] theorem queues_shareEntries (s : State) (world : Nat) (target : Option Nat) (la : Nat) (cur : CapReg) (err : List Nat) :
    queues (s.shareEntries world target la cur err) = queues s := by
  unfold State.shareEntries
  refine queues_foldl (fun t r => ?_) _ s
  dsimp only
  split
  · split <;> simp
  · rfl

@[simp] theorem queues_writeChild (s : State) (r la : Nat) (op : WOp) : queues (s.writeChild r la op) = queues s := by
  unfold State.writeChild
  simp

@[simp] theorem queues_roundOf (s : State) (core : Nat) (p : Place) : queues (s.roundOf core p) = queues s := by
  unfold State.roundOf
  split <;> simp

theorem queues_writeNow {s u : State} {w : Who} {p : Place} {op : WOp} (h : s.writeNow w p op = some u) : queues u = queues s := by
  unfold State.writeNow at h
  split at h
  · cases h
    simp
  · split at h
    · cases h
      simp
    · dsimp only at h
      obtain ⟨v, hv, rfl⟩ := Option.map_eq_some_iff.mp h
      have hown : queues v = queues s := by
        split at hv
        · cases hv
          rfl
        · split at hv
          · cases hv
            simp
          · cases hv
      simp [hown]

theorem queues_writeView {s u : State} {w : Who} {p : Place} {op : WOp} {whole : Bool} (h : s.writeView w p op whole = some u) :
    queues u = queues s :=
  (queues_writeNow h).trans (queues_of_offReady (offReady_readyWrite s w p whole))

@[simp] theorem queues_tellProxy (s : State) (lk core slot seq : Nat) : queues (s.tellProxy lk core slot seq).1 = queues s := by
  unfold State.tellProxy
  dsimp only
  split <;> rfl

theorem queues_bargeWrite {s u : State} {w : Who} {num : Nat} {p : Place} {op : WOp} {whole : Bool}
    (h : s.bargeWrite w num p op whole = some u) : queues u = queues s := by
  obtain ⟨v, hv, rfl⟩ := Option.map_eq_some_iff.mp h
  split
  · exact (queues_tellProxy v _ _ _ _).trans (queues_writeView hv)
  · exact queues_writeView hv

@[simp] theorem queues_putResume (s : State) (key j : Nat) (v : CapReg) : queues (s.putResume key j v) = queues s := rfl

@[simp] theorem queues_writeResume (s : State) (key : Nat) (head : Line) (dst src slu : CapReg) (n : Nat) :
    queues (s.writeResume key head dst src slu n) = queues s := by
  unfold State.writeResume
  rw [queues_foldl fun _ _ => queues_putResume _ _ _ _]
  simp

end Sys2Proof.Machine
end

section
/-!
The tuples of a copy (R185, R186, R190): the tuple at a position, the coordinates of its elements, and the position of a tuple.
-/

namespace Sys2Proof.Machine
open Sys2Proof.Safety

/-- The tuples of the levels inside level `l`. -/
def innerSize (ls : List Level) (l : Nat) : Nat := ((ls.take l).map (·.count)).prod

/-- The count of level `l`. -/
def countAt (ls : List Level) (l : Nat) : Nat := (ls.getD l { count := 0, ddlt := 0, sdlt := 0, dk := 0, sk := 0 }).count

theorem zip_map_range {α β : Type} (l : List α) (f : Nat → β) :
    l.zip ((List.range l.length).map f) = l.zipIdx.map fun x => (x.1, f x.2) := by
  refine List.ext_getElem (by simp) fun j _ _ => by simp

theorem foldl_add_zero {α M : Type} [AddCommMonoid M] (l : List α) (g : α → M) :
    l.foldl (fun a x => a + g x) 0 = (l.map g).sum := by
  rw [List.sum_eq_foldl, List.foldl_map]

theorem template_size (t : Template) : t.size = (t.levels.map (·.count)).prod := by
  rw [Template.size, List.prod_eq_foldl, List.foldl_map]

theorem tupleAt_eq (ls : List Level) : ∀ n,
    tupleAt ls n = (List.range ls.length).map fun l => n / innerSize ls l % countAt ls l := by
  induction ls with
  | nil => exact fun _ => rfl
  | cons x ls ih =>
    intro n
    rw [tupleAt, ih, List.length_cons, List.range_succ_eq_map, List.map_cons, List.map_map]
    refine congrArg₂ List.cons (by simp [innerSize, countAt]) (List.map_congr_left fun l _ => ?_)
    simp [innerSize, countAt, Nat.div_div_eq_div_mul]

theorem moved_eq (start : Coords) (k : Level → Nat) (dlt : Level → Int) (ls : List Level) (i : Nat → Nat) :
    moved start k dlt ls ((List.range ls.length).map i) = Coords.of fun a =>
      start.get a + (ls.zipIdx.map fun x => if k x.1 = a then (i x.2 : Int) * dlt x.1 else 0).sum := by
  unfold moved
  refine congrArg Coords.of (funext fun a => ?_)
  rw [zip_map_range, foldl_add_zero, List.map_map]
  rfl

theorem tuplePos_eq (ls : List Level) : ∀ i : Nat → Nat,
    tuplePos ls ((List.range ls.length).map i) = (ls.zipIdx.map fun x => i x.2 * innerSize ls x.2).sum := by
  induction ls with
  | nil => exact fun _ => rfl
  | cons x ls ih =>
    intro i
    have htail : (List.range (ls.length + 1)).map i = i 0 :: (List.range ls.length).map fun l => i (l + 1) := by
      rw [List.range_succ_eq_map, List.map_cons, List.map_map]
      rfl
    rw [tuplePos, List.length_cons, htail, List.headD_cons, List.tail_cons, ih, List.zipIdx_cons, List.zipIdx_succ,
      List.map_cons, List.map_map, List.sum_cons, ← List.sum_map_mul_left]
    simp [innerSize, Function.comp_def, Nat.mul_left_comm]

/-- A tuple is inside the counts of its levels. -/
theorem tuple_outside_iff (ls : List Level) (i : Nat → Nat) :
    ((ls.zip ((List.range ls.length).map i)).any fun x => decide (x.1.count ≤ x.2)) = true ↔
      ¬ ∀ x ∈ ls.zipIdx, i x.2 < x.1.count := by
  rw [zip_map_range]
  simp

end Sys2Proof.Machine
end

section
/-!
The end of a Barge instruction and the change of its entry (R184, R189, R195).
-/

namespace Sys2Proof.Machine
open Sys2Proof.Safety

/-! ## What an access is refused for -/

theorem walkFrom_cause {s : State} {world part va : Nat} (l : Nat) : ∀ {table n : Nat},
    s.walkFrom world part va l table = .error n → n < 0x23 := by
  induction l with
  | zero =>
    intro table n h
    cases h
    decide
  | succ l ih =>
    intro table n h
    unfold State.walkFrom at h
    dsimp only at h
    split at h
    · cases h; decide
    · split at h
      · cases h; decide
      · split at h
        · cases h; decide
        · split at h
          · split at h
            · cases h; decide
            · exact ih h
          · split at h
            · cases h; decide
            · split at h
              · cases h
              · cases h; decide

theorem placeRaw_cause {s : State} {w : Who} {va n : Nat} {l : Lease} (h : s.placeRaw w va l = .error n) : n < 0x23 := by
  unfold State.placeRaw at h
  dsimp only at h
  have slice {home : Option Nat} {kind : PKind} {key : Nat} {a b : Bool} (h : (match home with
      | none => (.error 0x22 : Except Nat Place)
      | some h =>
        if kind == PKind.dev && s.chunkOwner key != w.world then .error 0x22
        else if bitsOf (s.partAt w.part).sl h 1 == 0 || (s.sliceAt h).oos then .error 0x22
        else .ok { kind := kind, key := key, va := va, untagged := a, stash := b, home := h }) = .error n) : n < 0x23 := by
    split at h
    · cases h; decide
    · split at h
      · cases h; decide
      · split at h <;> cases h
        decide
  split at h
  · cases h
  · split at h <;> exact slice h

theorem xlate_cause {s : State} {w : Who} {k : AKind} {wr : Bool} {va n : Nat} (h : s.xlate w k wr va = .error n) : n < 0x23 := by
  unfold State.xlate at h
  dsimp only at h
  split at h
  · split at h <;> cases h
    decide
  · split at h
    · split at h <;> cases h
      decide
    · split at h
      · split at h <;> cases h
        decide
      · split at h
        · unfold State.placeOf at h
          split at h
          · next hp =>
            cases h
            exact placeRaw_cause hp
          · split at h
            · cases h; decide
            · split at h <;> cases h
              decide
        · split at h
          · cases h; decide
          · next hw =>
            cases h
            unfold State.walk at hw
            split at hw
            · cases hw; decide
            · exact walkFrom_cause _ hw

/-- An element that cannot be read is no fault of the Junction's. -/
theorem readElem_cause {s : State} {w : Who} {k : AKind} {seq : Nat} {e : Elem} {f : FaultInfo}
    (h : s.readElem w k seq e = .error f) : f.cause ≤ 0x23 := by
  unfold State.readElem at h
  split at h
  · next hx =>
    cases h
    exact (xlate_cause hx).le
  · dsimp only at h
    split at h
    · cases h
      exact le_rfl
    · cases h

/-! ## The event -/

theorem who_core {s : State} {c k : Nat} (hk : k < 4) : (s.who (4 * c + k)).core = c := by
  change (4 * c + k) / 4 = c
  omega

theorem exec_bargeExecute {s : State} {c : Nat} {op : BargeOp} {q : List BargeOp} (hq : (s.coreAt c).barge = op :: q) :
    exec (.bargeExecute c) s = .next (if s.bargeReady c op
      then s.bargeStep (s.who (4 * c + op.slot)) (s.slotAt (4 * c + op.slot)).cmpt op else s) := by
  change execBargeExecute c s = _
  unfold execBargeExecute
  rw [hq]

/-- What the end of a Barge instruction leaves. -/
structure BargeEnded (c : Nat) (op : BargeOp) (u : State) (r : Res) (n : Option (CapReg × Nat)) (q : List BargeOp) (v : State) :
    Prop where
  other : OnlyCore c { u with fresh := u.fresh + 1 } v
  done : ∃ b : BargeDone, v.coreAt c = { u.coreAt c with barge := q, bdone := (u.coreAt c).bdone ++ [b] }
        ∧ b.num = op.num ∧ b.slot = op.slot ∧ b.res = r ∧ b.count = n
        ∧ (b.defer = true ↔ op.defer = true ∧ ∃ x, n = some x ∧ x.1.f.life ≠ 0)

theorem onlyCore_updCore (s : State) (c : Nat) (f : Core → Core) : OnlyCore c s (s.updCore c f) :=
  ⟨rfl, fun k hk => (State.coreAt_updCore s c k f).trans (if_neg hk)⟩

/-- The record of a finished Barge instruction. -/
def BargeOp.finished (op : BargeOp) (r : Res) (n : Option (CapReg × Nat)) (stamp : Nat) : BargeDone where
  num := op.num
  slot := op.slot
  res := r
  count := n
  defer := op.defer && n.any fun x => x.1.f.life != 0
  stamp := stamp

theorem bargeEnd_ended (c : Nat) (op : BargeOp) (u : State) (r : Res) (n : Option (CapReg × Nat)) :
    BargeEnded c op u r n (u.coreAt c).barge.tail (u.bargeEnd c op r n) := by
  have hend : u.bargeEnd c op r n = { u with fresh := u.fresh + 1 }.updCore c fun x =>
      { x with barge := x.barge.tail, bdone := x.bdone ++ [op.finished r n u.fresh] } := rfl
  rw [hend]
  refine ⟨onlyCore_updCore _ c _, op.finished r n u.fresh, State.coreAt_updCore_self _ c _, rfl, rfl, rfl, rfl, ?_⟩
  change (op.defer && n.any fun x => x.1.f.life != 0) = true ↔ _
  rw [Bool.and_eq_true, Option.any_eq_true]
  simp

/-- The end of an instruction completes the event. -/
theorem completes_bargeEnd {s u : State} {c : Nat} {op : BargeOp} {r : Res} {n : Option (CapReg × Nat)}
    (h : exec (.bargeExecute c) s = .next (u.bargeEnd c op r n)) :
    Completes (.bargeExecute c) s (BargeEnded c op u r n (u.coreAt c).barge.tail) := ⟨_, h, bargeEnd_ended c op u r n⟩

theorem updHead_eq {u : State} {c : Nat} {op : BargeOp} {q : List BargeOp} (hq : (u.coreAt c).barge = op :: q)
    (f : BargeOp → BargeOp) :
    u.updHead c f = u.updCore c fun x => { x with barge := f op :: x.barge.tail } := by
  refine updCore_congr u c ?_
  rw [hq]
  rfl

theorem statusRes_eq (n : Nat) (mk nx : Bool) : statusRes n mk nx = .val
    { bits := BitVec.ofNat 512 (n % 2 ^ 48 + (if mk = true then 2 ^ 61 else 0) + (if nx = true then 2 ^ 62 else 0)), tag := false }
    (if nx = true then flagNX else 0) := by
  cases mk <;> cases nx <;> rfl

theorem partialFault_terminal {n : Nat} (h : n = 0x21 ∨ n = 0x22) (k : Coords) (fva prog : Nat) (resume : Bool) :
    partialFault n k fva prog resume = { FaultInfo.of n with agent := 1, at_ := k, fva := fva } := if_pos h

theorem partialFault_partial {n : Nat} (h : ¬ (n = 0x21 ∨ n = 0x22)) (k : Coords) (fva prog : Nat) (resume : Bool) :
    partialFault n k fva prog resume = { FaultInfo.of 0x30 with
      icause := n, agent := if n = 0x3A then 3 else 1, at_ := k, fva := fva, prog := BitVec.ofNat 64 prog, resume := resume } :=
  if_neg h

end Sys2Proof.Machine
end

section
/-!
One element of a copy (R184, R186, R189).
-/

namespace Sys2Proof.Machine
open Sys2Proof.Safety

section
variable {s u : State} {w : Who} {num seq : Nat} {dst src : CapReg} {sc dc : Coords}

theorem moveElem_source_outside (h : src.f.inBounds sc = false) :
    s.moveElem w num seq dst src sc dc = .error { side := false, cause := 0x11, at_ := sc, fva := 0 } := by
  simp [State.moveElem, h]

variable (hs : src.f.inBounds sc = true)
include hs

theorem moveElem_destination_outside (hd : dst.f.inBounds dc = false) :
    s.moveElem w num seq dst src sc dc = .error { side := true, cause := 0x11, at_ := dc, fva := 0 } := by
  simp [State.moveElem, hs, hd]

variable (hd : dst.f.inBounds dc = true)
include hd

theorem moveElem_source_unplaced {n : Nat} (hx : s.xlate w .copy false (src.f.elem sc).va = .error n) :
    s.moveElem w num seq dst src sc dc = .error { side := false, cause := n, at_ := sc, fva := (src.f.elem sc).va } := by
  simp [State.moveElem, hs, hd, hx]

variable {ps : Place} (hx : s.xlate w .copy false (src.f.elem sc).va = .ok ps)
include hx

theorem moveElem_destination_unplaced {n : Nat} (hy : s.xlate w .copy true (dst.f.elem dc).va = .error n) :
    s.moveElem w num seq dst src sc dc = .error { side := true, cause := n, at_ := dc, fva := (dst.f.elem dc).va } := by
  simp [State.moveElem, hs, hd, hx, hy]

variable {p : Place} (hy : s.xlate w .copy true (dst.f.elem dc).va = .ok p)
include hy

/-- The write of a copy's element. -/
def State.copyWrite (u : State) (w : Who) (num va : Nat) (p : Place) (dc : Coords) (op : WOp) (whole : Bool) :
    Except TupleFault State :=
  ((u.touchPage w va).bargeWrite w num p op whole).elim
    (.error { side := true, cause := 0x3A, at_ := dc, fva := va }) .ok

theorem moveElem_unread (hf : src.f.fmt ≠ 0x20) {f : FaultInfo} (hr : s.readElem w .copy seq (src.f.elem sc) = .error f) :
    s.moveElem w num seq dst src sc dc = .error { side := false, cause := f.cause, at_ := sc, fva := (src.f.elem sc).va } := by
  simp [State.moveElem, hs, hd, hx, hy, hf, hr]

theorem moveElem_read (hf : src.f.fmt ≠ 0x20) {v : Nat} {a : Place}
    (hr : s.readElem w .copy seq (src.f.elem sc) = .ok (u, v, a)) :
    s.moveElem w num seq dst src sc dc = u.copyWrite w num (dst.f.elem dc).va p dc
      (.data p.key (dst.f.elem dc).nib (dst.f.elem dc).bits v) false := by
  simp [State.moveElem, State.copyWrite, hs, hd, hx, hy, hf, hr]

theorem moveElem_line_unread (hf : src.f.fmt = 0x20) {f : FaultInfo} (hr : s.readCap w .copy seq (src.f.elem sc) = .error f) :
    s.moveElem w num seq dst src sc dc = .error { side := false, cause := f.cause, at_ := sc, fva := (src.f.elem sc).va } := by
  simp [State.moveElem, hs, hd, hx, hy, hf, hr]

variable (hf : src.f.fmt = 0x20) {v : CapReg} (hr : s.readCap w .copy seq (src.f.elem sc) = .ok (u, v))
include hf hr

theorem moveElem_line_refused {n : Nat} (hv : u.capValue w v dst p = some n) :
    s.moveElem w num seq dst src sc dc = .error { side := true, cause := n, at_ := dc, fva := (dst.f.elem dc).va } := by
  simp [State.moveElem, hs, hd, hx, hy, hf, hr, hv]

theorem moveElem_line_read (hv : u.capValue w v dst p = none) :
    s.moveElem w num seq dst src sc dc = u.copyWrite w num (dst.f.elem dc).va p dc (.line v) (u.revoking w.world) := by
  simp [State.moveElem, State.copyWrite, hs, hd, hx, hy, hf, hr, hv]

end

theorem copyWrite_written {u v : State} {w : Who} {num va : Nat} {p : Place} {op : WOp} {whole : Bool} (dc : Coords)
    (h : (u.touchPage w va).bargeWrite w num p op whole = some v) : u.copyWrite w num va p dc op whole = .ok v := by
  rw [State.copyWrite, h, Option.elim_some]

theorem copyWrite_full {u : State} {w : Who} {num va : Nat} {p : Place} {op : WOp} {whole : Bool} (dc : Coords)
    (h : (u.touchPage w va).bargeWrite w num p op whole = none) :
    u.copyWrite w num va p dc op whole = .error { side := true, cause := 0x3A, at_ := dc, fva := va } := by
  rw [State.copyWrite, h, Option.elim_none]

theorem queues_copyWrite {u v : State} {w : Who} {num va : Nat} {p : Place} {dc : Coords} {op : WOp} {whole : Bool}
    (h : u.copyWrite w num va p dc op whole = .ok v) : queues v = queues u := by
  unfold State.copyWrite at h
  cases hw : (u.touchPage w va).bargeWrite w num p op whole with
  | none => rw [hw] at h; cases h
  | some x =>
    rw [hw] at h
    cases h
    exact (queues_bargeWrite hw).trans (queues_touchPage u w va)

/-! ## A step of a copy -/

section
variable {s u : State} {w : Who} {op : BargeOp} {dst src slu : CapReg} {t : Template}

/-- The coordinates of the source's element at a copy's tuple. -/
def BargeOp.sourceAt (op : BargeOp) (t : Template) : Coords := moved t.sst Level.sk Level.sdlt t.levels (tupleAt t.levels op.pos)

/-- The coordinates of the destination's element at a copy's tuple. -/
def BargeOp.destinationAt (op : BargeOp) (t : Template) : Coords :=
  moved t.dst Level.dk Level.ddlt t.levels (tupleAt t.levels op.pos)

/-- The bytes of the elements that a copy has moved up to a position. -/
def BargeOp.bytesAt (op : BargeOp) (src : CapReg) (n : Nat) : Nat := copyBytes src.f.fmt (n - op.first)

/-- An access to either element of a copy's tuple is not its turn. -/
def State.tuplePending (s : State) (w : Who) (op : BargeOp) (dst src : CapReg) (t : Template) : Prop :=
  s.elemPending w .copy false (src.f.elem (op.sourceAt t)) = true
    ∨ s.elemPending w .copy true (dst.f.elem (op.destinationAt t)) = true

theorem copyStep_done (h : t.size ≤ op.pos) : s.copyStep w op dst src slu t =
    s.bargeEnd w.core op (statusRes (op.bytesAt src op.pos) false false)
      (if t.slu then some (slu, op.bytesAt src op.pos) else none) := if_pos h

variable (h : op.pos < t.size)
include h

theorem copyStep_pending (hp : s.tuplePending w op dst src t) : s.copyStep w op dst src slu t = s :=
  (if_neg h.not_ge).trans (if_pos (Bool.or_eq_true_iff.mpr hp))

variable (hp : ¬ s.tuplePending w op dst src t)
include hp

theorem copyStep_moves (hm : s.moveElem w op.num op.seq dst src (op.sourceAt t) (op.destinationAt t) = .ok u) :
    s.copyStep w op dst src slu t = (u.count 0 w.core 4 (op.bytesAt src (op.pos + 1) - op.bytesAt src op.pos)).updHead w.core
      fun x => { x with pos := op.pos + 1 } := by
  refine ((if_neg h.not_ge).trans (if_neg (mt Bool.or_eq_true_iff.mp hp))).trans ?_
  unfold BargeOp.sourceAt BargeOp.destinationAt at hm
  rw [hm] <;> rfl

theorem copyStep_stops {x : TupleFault} (hm : s.moveElem w op.num op.seq dst src (op.sourceAt t) (op.destinationAt t) = .error x) :
    s.copyStep w op dst src slu t =
      (if x.cause = 0x21 ∨ x.cause = 0x22 then s
        else s.writeResume w.key (resumeHeader x.cause x.side 0 op.pos (tupleAt t.levels op.pos)) dst src
          (if t.slu then slu else CapReg.null) t.bits).bargeEnd w.core op
        (.fault (partialFault x.cause x.at_ x.fva op.pos true)) none := by
  refine ((if_neg h.not_ge).trans (if_neg (mt Bool.or_eq_true_iff.mp hp))).trans ?_
  unfold BargeOp.sourceAt BargeOp.destinationAt at hm
  rw [hm]

end

end Sys2Proof.Machine
end

section

open Sys2Proof Sys2Proof.Machine Sys2Proof.Safety

/-- The Barge copies one element in each event, or ends the copy. -/
theorem bargeCopies : Sys2Proof.Parts.BargeCopies := by
  intro s c op q dst src slu t hq hwork key w count size i coords sc dc es ed bytes ends stops moves writes pending
  have hexec := exec_bargeExecute hq
  have htup : tupleAt t.levels op.pos = (List.range t.levels.length).map i := tupleAt_eq t.levels op.pos
  have hsc : op.sourceAt t = sc := by
    rw [BargeOp.sourceAt, htup, moved_eq]
  have hdc : op.destinationAt t = dc := by
    rw [BargeOp.destinationAt, htup, moved_eq]
  have hsize : t.size = size := template_size t
  refine ⟨fun hr => ?_, fun hr hslot => ?_⟩
  · rw [hr] at hexec
    exact hexec
  have hcore : w.core = c := who_core hslot
  have hstep : s.bargeStep w (s.slotAt key).cmpt op = s.copyStep w op dst src slu t := by
    rw [State.bargeStep, hwork]
  rw [hr, if_pos rfl, hstep] at hexec
  have hends (u : State) (r : Res) (n : Option (CapReg × Nat)) (hu : queues u = queues s)
      (h : s.copyStep w op dst src slu t = u.bargeEnd w.core op r n) : ends u r n := by
    have htail : (u.coreAt c).barge.tail = q := by
      rw [show (u.coreAt c).barge = op :: q from (congrFun hu c).trans hq, List.tail_cons]
    rw [h, hcore] at hexec
    obtain ⟨v, hv, honly, hdone⟩ := completes_bargeEnd hexec
    rw [htail] at hdone
    exact ⟨v, hv, honly, hdone⟩
  refine ⟨fun hpos => ?_, fun hpos hp => ?_, fun hpos hp => ?_⟩
  · refine hends s _ _ rfl ((copyStep_done (hsize.trans_le hpos)).trans ?_)
    rw [statusRes_eq]
    rfl
  · rw [copyStep_pending (hsize ▸ hpos) (by rw [State.tuplePending, hsc, hdc]; exact hp)] at hexec
    exact hexec
  have hlt : op.pos < t.size := hsize ▸ hpos
  have hturn : ¬ s.tuplePending w op dst src t := by
    rw [State.tuplePending, hsc, hdc]
    exact hp
  have hstops (side : Bool) (cause : Nat) (at_ : Coords) (fva : Nat)
      (hm : s.moveElem w op.num op.seq dst src sc dc = .error { side := side, cause := cause, at_ := at_, fva := fva }) :
      stops side cause at_ fva := by
    rw [← hsc, ← hdc] at hm
    have hstop := copyStep_stops (slu := slu) hlt hturn hm
    refine ⟨fun hcause => hends _ _ _ rfl ?_, fun h1 h2 => hends _ _ _ (queues_writeResume s _ _ _ _ _ _) ?_⟩
    · rw [hstop, if_pos hcause, partialFault_terminal hcause]
    · have hcause : ¬ (cause = 0x21 ∨ cause = 0x22) := not_or.mpr ⟨h1, h2⟩
      rw [hstop, if_neg hcause, partialFault_partial hcause, htup]
      rfl
  have hmoves (u : State) (hu : queues u = queues s) (hm : s.moveElem w op.num op.seq dst src sc dc = .ok u) : moves u := by
    rw [← hsc, ← hdc] at hm
    have hhead : ((u.count 0 c 4 (bytes (op.pos + 1) - bytes op.pos)).coreAt c).barge = op :: q := (congrFun hu c).trans hq
    rw [copyStep_moves hlt hturn hm, hcore] at hexec
    exact hexec.trans (congrArg Host.Outcome.next (updHead_eq hhead _))
  have hwrites (u : State) (p : Place) (o : WOp) (whole : Bool) (hu : queues u = queues s)
      (hm : s.moveElem w op.num op.seq dst src sc dc = u.copyWrite w op.num ed.va p dc o whole) : writes u p o whole := by
    refine ⟨fun v hv => ?_, fun hv => hstops _ _ _ _ (hm.trans (copyWrite_full dc hv))⟩
    have hwrite := copyWrite_written dc hv
    exact hmoves v ((queues_copyWrite hwrite).trans hu) (hm.trans hwrite)
  refine ⟨fun hs => hstops _ _ _ _ (moveElem_source_outside hs), fun hs hd =>
    hstops _ _ _ _ (moveElem_destination_outside hs hd), fun hs hd => ⟨fun n hx =>
    hstops _ _ _ _ (moveElem_source_unplaced hs hd hx), fun ps hx => ⟨fun n hy =>
    hstops _ _ _ _ (moveElem_destination_unplaced hs hd hx hy), fun p hy => ⟨fun hf => ?_, fun hf => ?_⟩⟩⟩⟩
  all_goals refine ⟨?_, ?_⟩
  · exact fun f hr => hstops _ _ _ _ (moveElem_unread hs hd hx hy hf hr)
  · exact fun u v a hr => hwrites u p _ _ (queues_readElem hr) (moveElem_read hs hd hx hy hf hr)
  · exact fun f hr => hstops _ _ _ _ (moveElem_line_unread hs hd hx hy hf hr)
  · exact fun u v hr => ⟨fun n hv => hstops _ _ _ _ (moveElem_line_refused hs hd hx hy hf hr hv), fun hv =>
      hwrites u p _ _ (queues_readCap hr) (moveElem_line_read hs hd hx hy hf hr hv)⟩

end

section
/-!
Resumptions and stagings (R190 … R193).
-/

namespace Sys2Proof.Machine
open Sys2Proof.Safety

/-! ## Resumptions -/

/-- The template's image in the lines of a resume record. -/
def recordImage (l : List CapReg) : Nat :=
  (List.range 4).foldl (fun a j => a + 2 ^ (512 * j) * (l.getD (4 + j) CapReg.null).bits.toNat) 0

theorem recordImage_eq (l0 l1 l2 l3 l4 l5 l6 l7 : CapReg) : recordImage [l0, l1, l2, l3, l4, l5, l6, l7] =
    l4.bits.toNat + 2 ^ 512 * l5.bits.toNat + 2 ^ 1024 * l6.bits.toNat + 2 ^ 1536 * l7.bits.toNat := by
  change 0 + 2 ^ (512 * 0) * l4.bits.toNat + 2 ^ (512 * 1) * l5.bits.toNat + 2 ^ (512 * 2) * l6.bits.toNat
    + 2 ^ (512 * 3) * l7.bits.toNat = _
  rw [Nat.zero_add, Nat.mul_zero, pow_zero, Nat.one_mul]

/-- What a resumption that has read its record comes to. -/
def State.resumeFrom (u : State) (core cmpt : Nat) (op : BargeOp) (h : Nat) (dst src slu : CapReg) (image : Nat) : State :=
  let bad (f : FaultInfo) : State := u.bargeEnd core op (.fault { f with agent := 1 }) none
  if bitsOf h 469 2 ≠ 0 then bad (FaultInfo.of 0x37)
  else match templateOf image with
    | none => bad (FaultInfo.of 0x37)
    | some t =>
      match copyCheck dst src cmpt with
      | some n => bad (FaultInfo.of n)
      | none =>
        match if t.slu then sluiceCheck slu cmpt [permAT, permLD, permST] Coords.zero else .ok noElem with
        | .error f => bad f
        | .ok _ =>
          let iter := (List.range t.levels.length).map fun k => bitsOf h (32 * k) 32
          if (t.levels.zip iter).any fun x => decide (x.1.count ≤ x.2) then
            u.bargeEnd core op (statusRes 0 false false) (if t.slu then some (slu, 0) else none)
          else u.updHead core fun x =>
            { x with work := .copy dst src slu t, first := tuplePos t.levels iter, pos := tuplePos t.levels iter }

section
variable {s u : State} {w : Who} {cmpt : Nat} {op : BargeOp} {r : CapReg}

theorem resumeStep_pending (h : s.recordPending w r = true) : s.resumeStep w cmpt op r = s := if_pos h

variable (h : s.recordPending w r = false)
include h

theorem resumeStep_unread {f : FaultInfo} (hr : s.readRecord w op.seq r [0, 1, 2, 3, 4, 5, 6, 7] = .error f) :
    s.resumeStep w cmpt op r = s.bargeEnd w.core op (.fault { f with agent := 1 }) none := by
  have hlines : s.readRecord w op.seq r (List.range 8) = .error f := hr
  rw [State.resumeStep, h, if_neg Bool.false_ne_true, hlines]

theorem resumeStep_read {l0 l1 l2 l3 l4 l5 l6 l7 : CapReg}
    (hr : s.readRecord w op.seq r [0, 1, 2, 3, 4, 5, 6, 7] = .ok (u, [l0, l1, l2, l3, l4, l5, l6, l7])) :
    s.resumeStep w cmpt op r =
      u.resumeFrom w.core cmpt op l0.bits.toNat l1 l2 l3 (recordImage [l0, l1, l2, l3, l4, l5, l6, l7]) := by
  have hlines : s.readRecord w op.seq r (List.range 8) = .ok (u, [l0, l1, l2, l3, l4, l5, l6, l7]) := hr
  rw [State.resumeStep, h, if_neg Bool.false_ne_true, hlines] <;> rfl

end

section
variable {u : State} {core cmpt : Nat} {op : BargeOp} {h : Nat} {dst src slu : CapReg} {image : Nat} {t : Template}

theorem resumeFrom_bad (hb : bitsOf h 469 2 ≠ 0 ∨ templateOf image = none) : u.resumeFrom core cmpt op h dst src slu image =
    u.bargeEnd core op (.fault { FaultInfo.of 0x37 with agent := 1 }) none := by
  unfold State.resumeFrom
  rcases hb with hb | hb
  · rw [if_pos hb]
  · rw [hb]
    exact ite_self _

variable (hk : bitsOf h 469 2 = 0) (ht : templateOf image = some t)
include hk ht

theorem resumeFrom_refused {n : Nat} (hc : copyCheck dst src cmpt = some n) : u.resumeFrom core cmpt op h dst src slu image =
    u.bargeEnd core op (.fault { FaultInfo.of n with agent := 1 }) none := by
  simp [State.resumeFrom, hk, ht, hc]

variable (hc : copyCheck dst src cmpt = none)
include hc

theorem resumeFrom_sluiceless {f : FaultInfo} (hs : t.slu = true)
    (he : sluiceCheck slu cmpt [permAT, permLD, permST] Coords.zero = .error f) :
    u.resumeFrom core cmpt op h dst src slu image = u.bargeEnd core op (.fault { f with agent := 1 }) none := by
  simp [State.resumeFrom, hk, ht, hc, hs, he]

/-- A resumption whose checks pass goes on, or has nothing to do. -/
theorem resumeFrom_passed (he : t.slu = true → ∃ e, sluiceCheck slu cmpt [permAT, permLD, permST] Coords.zero = .ok e) :
    u.resumeFrom core cmpt op h dst src slu image =
      if ∀ x ∈ t.levels.zipIdx, bitsOf h (32 * x.2) 32 < x.1.count then
        u.updHead core fun x =>
          { x with work := .copy dst src slu t
                   first := (t.levels.zipIdx.map fun x => bitsOf h (32 * x.2) 32 * innerSize t.levels x.2).sum
                   pos := (t.levels.zipIdx.map fun x => bitsOf h (32 * x.2) 32 * innerSize t.levels x.2).sum }
      else u.bargeEnd core op (statusRes 0 false false) (if t.slu then some (slu, 0) else none) := by
  have hsluice : ∃ e, (if t.slu then sluiceCheck slu cmpt [permAT, permLD, permST] Coords.zero else .ok noElem) = .ok e := by
    cases hs : t.slu with
    | false => exact ⟨_, rfl⟩
    | true => exact he hs
  obtain ⟨e, he⟩ := hsluice
  unfold State.resumeFrom
  dsimp only
  rw [if_neg (not_not.mpr hk), ht]
  dsimp only
  rw [hc]
  dsimp only
  rw [he]
  dsimp only
  rw [tuplePos_eq]
  have hout := tuple_outside_iff t.levels fun k => bitsOf h (32 * k) 32
  by_cases hin : ∀ x ∈ t.levels.zipIdx, bitsOf h (32 * x.2) 32 < x.1.count
  · rw [if_neg (mt hout.mp (not_not.mpr hin)), if_pos hin]
  · rw [if_pos (hout.mpr hin), if_neg hin]

end

/-! ## Stagings -/

section
variable {s u : State} {w : Who} {op : BargeOp} {tile : Word} {src slu : CapReg} {o : StageOpts}

/-- The elements of a staging. -/
def stageSize (tile : Word) (o : StageOpts) : Nat := ((TileF.of tile).nm + 1) * (o.kn.val + 1)

/-- The element that a staging reads next. -/
def BargeOp.stageElem (op : BargeOp) (src : CapReg) (o : StageOpts) : Elem :=
  src.f.elem (stageCoords o.kax (op.pos / (o.kn.val + 1)) (op.pos % (o.kn.val + 1)))

theorem stageStep_waits (h : stageSize tile o ≤ op.pos) (hw : (s.coreAt w.core).stagingWaits op (TileF.of tile) = true) :
    s.stageStep w op tile src slu o = s := (if_pos h).trans (if_pos hw)

theorem stageStep_ends (h : stageSize tile o ≤ op.pos) (hw : (s.coreAt w.core).stagingWaits op (TileF.of tile) = false) :
    s.stageStep w op tile src slu o = s.stageEnd w.core op (TileF.of tile) slu o :=
  (if_pos h).trans (if_neg (Bool.eq_false_iff.mp hw))

variable (h : op.pos < stageSize tile o)
include h

theorem stageStep_pending (hp : s.elemPending w .copy false (op.stageElem src o) = true) : s.stageStep w op tile src slu o = s :=
  (if_neg h.not_ge).trans (if_pos hp)

variable (hp : s.elemPending w .copy false (op.stageElem src o) = false)
include hp

theorem stageStep_reads {v : Nat} {p : Place} (hr : s.readElem w .copy op.seq (op.stageElem src o) = .ok (u, v, p)) :
    s.stageStep w op tile src slu o = u.updHead w.core fun x => { x with pos := op.pos + 1, got := x.got ++ [v] } := by
  refine ((if_neg h.not_ge).trans (if_neg (Bool.eq_false_iff.mp hp))).trans ?_
  unfold BargeOp.stageElem at hr
  rw [hr]

theorem stageStep_stops {f : FaultInfo} (hr : s.readElem w .copy op.seq (op.stageElem src o) = .error f) :
    s.stageStep w op tile src slu o =
      (if f.cause = 0x21 ∨ f.cause = 0x22 then s
        else s.writeResume w.key (resumeHeader f.cause false 1 0 [op.pos % (o.kn.val + 1), op.pos / (o.kn.val + 1)]) CapReg.null src
          (if o.slu then slu else CapReg.null) 0).bargeEnd w.core op (.fault (partialFault f.cause f.at_ f.fva 0 false)) none := by
  refine ((if_neg h.not_ge).trans (if_neg (Bool.eq_false_iff.mp hp))).trans ?_
  unfold BargeOp.stageElem at hr
  rw [hr]

end

theorem stagingWaits_iff (c : Core) (op : BargeOp) (t : TileF) : c.stagingWaits op t = true ↔
    ∃ y ∈ c.engine.queue, y.num ≤ op.after ∧ ∃ x ∈ y.work.tiles, t.off < x.off + x.bytes ∧ x.off < t.off + t.bytes := by
  simp [Core.stagingWaits, TileF.overlaps]

/-- The elements that a staging has read for a line. -/
def BargeOp.stagedLine (op : BargeOp) (t : TileF) (o : StageOpts) (r : Nat) : List Nat :=
  (List.range 64).map fun k => if r ≤ t.nm ∧ k < o.kn.val + 1 then op.got.getD ((o.kn.val + 1) * r + k) 0 else 0

/-- Group `g` of a line. -/
def BargeOp.stagedGroup (op : BargeOp) (t : TileF) (o : StageOpts) (r g : Nat) : SGroup :=
  stageGroup (fpOfCode t.fmt) t.np (((op.stagedLine t o r).drop (16 * g)).take 16)

/-- The integers of a line. -/
def BargeOp.stagedInts (op : BargeOp) (t : TileF) (o : StageOpts) (r : Nat) : List Int :=
  if groupFmt t.fmt = true then (List.range 4).flatMap fun g => (op.stagedGroup t o r g).qs
  else (op.stagedLine t o r).map (stageInt t.fmt)

/-- The planes of a staging are written. -/
def State.stagedPlanes (s : State) (core : Nat) (op : BargeOp) (t : TileF) (o : StageOpts) : State :=
  (List.range 32).foldl (fun u r => u.putLineOf core t r (op.stagedInts t o r)
    (if groupFmt t.fmt = true then (List.range 4).map (op.stagedGroup t o r) else [])) s

/-- Some group of a staging is so. -/
def BargeOp.stagedAny (op : BargeOp) (t : TileF) (o : StageOpts) (p : SGroup → Bool) : Bool :=
  decide (groupFmt t.fmt = true) && (List.range 32).any fun r => (List.range 4).any fun g => p (op.stagedGroup t o r g)

theorem stageEnd_eq (s : State) (core : Nat) (op : BargeOp) (t : TileF) (slu : CapReg) (o : StageOpts) :
    s.stageEnd core op t slu o = ((s.stagedPlanes core op t o).count 0 core 4 t.bytes).bargeEnd core op
      (statusRes (((t.nm + 1) * (o.kn.val + 1) * fmtBits t.fmt + 7) / 8) (op.stagedAny t o SGroup.marked)
        (op.stagedAny t o SGroup.inexact))
      (if o.slu then some (slu, ((t.nm + 1) * (o.kn.val + 1) * fmtBits t.fmt + 7) / 8) else none) := by
  have hints (r : Nat) : (if groupFmt t.fmt = true then
        (if groupFmt t.fmt = true then (List.range 4).map (op.stagedGroup t o r) else []).flatMap SGroup.qs
      else (op.stagedLine t o r).map (stageInt t.fmt)) = op.stagedInts t o r := by
    unfold BargeOp.stagedInts
    split
    · rw [List.flatMap_map]
    · rfl
  have hany (p : SGroup → Bool) :
      (groupFmt t.fmt && (List.range 32).any fun r => ((List.range 4).map (op.stagedGroup t o r)).any p) = op.stagedAny t o p := by
    unfold BargeOp.stagedAny
    rw [Bool.decide_eq_true]
    simp only [List.any_map]
    rfl
  unfold State.stagedPlanes
  rw [← hany, ← hany]
  simp only [← hints]
  rfl

end Sys2Proof.Machine
end

section

open Sys2Proof Sys2Proof.Machine Sys2Proof.Safety

/-- What a resumption and a staging come to in an event. -/
theorem bargeResumesAndStages : Sys2Proof.Parts.BargeResumesAndStages := by
  intro s c op q hq hslot hready key w cmpt ends heads status
  have hcore : w.core = c := who_core hslot
  have hexec := exec_bargeExecute hq
  rw [hready, if_pos rfl] at hexec
  have hstays (h : s.bargeStep w cmpt op = s) : Stays (.bargeExecute c) s := hexec.trans (congrArg Host.Outcome.next h)
  have hended {u : State} {r : Res} {n : Option (CapReg × Nat)} (h : s.bargeStep w cmpt op = u.bargeEnd c op r n) :
      ends u r n := by
    obtain ⟨v, hv, honly, hdone⟩ := completes_bargeEnd (hexec.trans (congrArg Host.Outcome.next h))
    exact ⟨v, hv, honly, hdone⟩
  have hends {u : State} {r : Res} {n : Option (CapReg × Nat)} (h : s.bargeStep w cmpt op = u.bargeEnd w.core op r n) :
      ends u r n := hended (h.trans (congrArg (fun k => u.bargeEnd k op r n) hcore))
  have hheads {u : State} {f : BargeOp → BargeOp} (hu : queues u = queues s) (h : s.bargeStep w cmpt op = u.updHead w.core f) :
      heads u (f op) := by
    rw [hcore, updHead_eq ((congrFun hu c).trans hq)] at h
    exact hexec.trans (congrArg Host.Outcome.next h)
  refine ⟨fun r own hwork => ?_, fun tile src slu o hwork => ?_⟩
  · have hstep : s.bargeStep w cmpt op = s.resumeStep w cmpt op r := by
      rw [State.bargeStep, hwork]
    refine ⟨fun hp => hstays (hstep.trans (resumeStep_pending hp)), fun hp => ⟨fun f hr =>
      hends (hstep.trans (resumeStep_unread hp hr)), fun u l0 dst src slu l4 l5 l6 l7 hr => ?_⟩⟩
    intro h image met
    have hread := hstep.trans (resumeStep_read hp hr)
    rw [recordImage_eq] at hread
    refine ⟨fun hb => hends (hread.trans (resumeFrom_bad hb)), fun t hk ht => ⟨fun n hc =>
      hends (hread.trans (resumeFrom_refused hk ht hc)), fun hc => ⟨fun f hs he =>
      hends (hread.trans (resumeFrom_sluiceless hk ht hc hs he)), fun he => ?_⟩⟩⟩
    intro iter inside n
    have hpassed := hread.trans (resumeFrom_passed hk ht hc he)
    refine ⟨fun hout => hends (hpassed.trans ((if_neg hout).trans ?_)), fun hin =>
      hheads (queues_readRecord _ hr) (hpassed.trans (if_pos hin))⟩
    rw [statusRes_eq]
  · intro t kn n co e busy
    have hstep : s.bargeStep w cmpt op = s.stageStep w op tile src slu o := by
      rw [State.bargeStep, hwork]
    have helem : op.stageElem src o = e := rfl
    have hbusy : (s.coreAt w.core).stagingWaits op t = true ↔ busy := by
      rw [stagingWaits_iff, hcore]
    refine ⟨fun hpos hp => hstays (hstep.trans (stageStep_pending hpos hp)), fun hpos hp => ⟨fun u v p hr =>
      hheads (queues_readElem hr) (hstep.trans (stageStep_reads hpos hp hr)), fun f hr => ?_⟩,
      fun hpos hb => hstays (hstep.trans (stageStep_waits hpos (hbusy.mpr hb))), fun hpos hb => ?_⟩
    · have hstop := hstep.trans (stageStep_stops hpos hp hr)
      refine ⟨fun hcause => hends (hstop.trans ?_), fun h1 h2 => hends (hstop.trans ?_)⟩
      · rw [if_pos hcause, partialFault_terminal hcause]
      · have hcause : ¬ (f.cause = 0x21 ∨ f.cause = 0x22) := not_or.mpr ⟨h1, h2⟩
        have hagent : f.cause ≠ 0x3A := ((readElem_cause hr).trans_lt (by decide)).ne
        rw [if_neg hcause, partialFault_partial hcause, if_neg hagent]
        rfl
    · intro line group floats ints planes any len
      have hend : s.bargeStep w cmpt op = s.stageEnd c op t slu o :=
        (hstep.trans (stageStep_ends hpos (Bool.eq_false_iff.mpr (mt hbusy.mp hb)))).trans
          (congrArg (fun k => s.stageEnd k op t slu o) hcore)
      rw [stageEnd_eq, statusRes_eq] at hend
      exact hended hend

/-- Settles O23: one element of a copy or of a staging in each event, the ends with their records, and the statuses. -/
theorem bargeWork : Obligations.BargeWork :=
  ⟨bargeCopies, bargeResumesAndStages, stagedGroups, writesChangeMemory, bargeCompletes⟩

end

section
/-!
Engine instructions: what a cell accumulates (R57, R60 … R62), and the commit of the instruction at the head of the queue
(R61 … R68, R171, R172).
-/

namespace Sys2Proof.Machine
open Sys2Proof.Safety

/-! ## Sums -/

theorem foldl_add_eq_sum (l : List Nat) (f : Nat → Int) : l.foldl (fun a n => a + f n) 0 = (l.map f).sum := by
  rw [List.sum_eq_foldl, List.foldl_map]

theorem dotRange_eq_sum (a b : List Int) (lo n : Nat) :
    dotRange a b lo n = ((List.range n).map fun i => a.getD (lo + i) 0 * b.getD (lo + i) 0).sum :=
  foldl_add_eq_sum _ _

/-! ## A cell of `mmf` -/

/-- What one group does to a cell and its flags (R62). -/
def mmfGroup (npa npb : Nat) (a b : List Int) (sa sb : Nat → Bool × Int) (st : Nat × Nat) (g : Nat) : Nat × Nat :=
  if (sa g).1 || (sb g).1 then (fpF32.qnan, st.2 ||| flagNV)
  else
    let z := dotRange a b (16 * g) 16
    let t := fpF32.deliver .rne (.fin (decide (z < 0)) z.natAbs ((sa g).2 - (npa : Int) + 2 + (sb g).2 - (npb : Int) + 2))
    let v := fpF32.add .rne st.1 (if z = 0 then 0 else t.1)
    (v.1, st.2 ||| t.2 ||| v.2)

theorem mmfCell_eq (npa npb : Nat) (a b : List Int) (sa sb : Nat → Bool × Int) (acc : Nat) :
    mmfCell npa npb a b sa sb acc = (List.range 4).foldl (mmfGroup npa npb a b sa sb) (acc, 0) := by
  unfold mmfCell
  refine congrArg (fun f => (List.range 4).foldl f (acc, 0)) (funext fun st => funext fun g => ?_)
  rw [mmfGroup]

section
variable {npa npb : Nat} {a b : List Int} {sa sb : Nat → Bool × Int} (st : Nat × Nat) {g : Nat}

theorem mmfGroup_marked (h : (sa g).1 = true ∨ (sb g).1 = true) :
    mmfGroup npa npb a b sa sb st g = (0x7FC00000, st.2 ||| flagNV) :=
  if_pos ((Bool.or_eq_true _ _).mpr h)

/-- The term of an unmarked group: +0 without a flag for a sum of zero, and otherwise the sum rounded once. -/
theorem mmfGroup_unmarked (ha : (sa g).1 = false) (hb : (sb g).1 = false) :
    let z := dotRange a b (16 * g) 16
    let t : Nat × Nat := if z = 0 then (0, 0)
      else fpF32.deliver .rne (.fin (decide (z < 0)) z.natAbs ((sa g).2 - npa + 2 + (sb g).2 - npb + 2))
    mmfGroup npa npb a b sa sb st g =
      ((fpF32.add .rne st.1 t.1).1, st.2 ||| t.2 ||| (fpF32.add .rne st.1 t.1).2) := by
  intro z t
  have hmark : ¬ ((sa g).1 || (sb g).1) = true := by rw [ha, hb]; decide
  rw [mmfGroup, if_neg hmark]
  dsimp only
  by_cases hz : z = 0
  · have hzero (e : Int) : fpF32.deliver .rne (.fin (decide (z < 0)) z.natAbs e) = (0, 0) := by rw [hz]; rfl
    simp only [t, z, if_pos hz, hzero]
  · simp only [t, z, if_neg hz]

end

/-! ## Staged integers -/

/-- The integer of a line's planes: each with its weight, the last one's negative (R57). -/
theorem stagedQ_planes (plane : Nat → Nat) (np k : Nat) :
    let bit (n : Nat) : Int := if plane n / 2 ^ k % 2 = 1 then 1 else 0
    stagedQ ((List.range np).map plane) k = ((List.range (np - 1)).map fun n => 2 ^ n * bit n).sum
      - (if np = 0 then 0 else 2 ^ (np - 1) * bit (np - 1)) := by
  intro bit
  have hterm (n : Nat) (hn : n < np) :
      (if ((List.range np).map plane).getD n 0 / 2 ^ k % 2 = 1 then (if n + 1 = np then -(2 ^ n : Int) else 2 ^ n) else 0)
        = (if n + 1 = np then -1 else 1) * (2 ^ n * bit n) := by
    have hget : ((List.range np).map plane).getD n 0 = plane n := by simp [List.getD, hn]
    rw [hget]
    simp only [bit]
    split_ifs <;> ring
  unfold stagedQ
  dsimp only
  rw [List.length_map, List.length_range, foldl_add_eq_sum,
    List.map_congr_left fun n hn => hterm n (List.mem_range.mp hn)]
  cases np with
  | zero => rfl
  | succ n =>
    have hlow : (List.range n).map (fun j => (if j + 1 = n + 1 then -1 else 1) * ((2 : Int) ^ j * bit j))
        = (List.range n).map fun j => 2 ^ j * bit j := by
      refine List.map_congr_left fun j hj => ?_
      rw [if_neg (by have := List.mem_range.mp hj; omega), one_mul]
    rw [List.range_succ, List.map_append, List.sum_append, hlow, if_neg n.succ_ne_zero]
    simp [sub_eq_add_neg]

end Sys2Proof.Machine
end

section

open Sys2Proof Sys2Proof.Machine Sys2Proof.Safety

/-- A cell of `mmf` group by group, and the staged integers of a tile. -/
theorem mmfCells : Sys2Proof.Parts.MmfCells := by
  refine ⟨fun npa npb a b sa sb acc => ?_, fun s core t r k hk => ?_⟩
  · intro sum term
    have hsum (g : Nat) : sum g = dotRange a b (16 * g) 16 := (dotRange_eq_sum a b (16 * g) 16).symm
    refine ⟨fun n => (List.range n).foldl (mmfGroup npa npb a b sa sb) (acc, 0), rfl, (mmfCell_eq ..).symm, fun g _ => ?_⟩
    dsimp only
    rw [List.range_succ, List.foldl_append, List.foldl_cons, List.foldl_nil]
    refine ⟨mmfGroup_marked _, fun ha hb => ?_⟩
    simp only [term, hsum]
    exact mmfGroup_unmarked _ ha hb
  · intro bit
    rw [State.tileLine, List.getElem?_map, List.getElem?_range hk, Option.map_some, stagedQ_planes]

end

section
/-!
The commit of the engine instruction at the head of the queue (R61 … R68, R171, R172), and the completion of a chain (R171).
-/

namespace Sys2Proof.Machine
open Sys2Proof.Safety

/-! ## Cells -/

theorem look_of_not_mem {α : Type} (d : α) {l : SMap α} {k : Nat} (h : k ∉ l.map (·.1)) : SMap.look d l k = d :=
  not_not.mp fun hne => h (List.mem_map_of_mem (mem_of_look_ne d l k hne))

theorem look_append_of_not_mem {α : Type} (d : α) {l : SMap α} (m : SMap α) {k : Nat} (h : k ∉ l.map (·.1)) :
    SMap.look d (l ++ m) k = SMap.look d m k := by
  induction l with
  | nil => rfl
  | cons x l ih =>
    obtain ⟨j, v⟩ := x
    rw [List.map_cons, List.mem_cons, not_or] at h
    rw [List.cons_append, SMap.look, if_neg (Ne.symm h.1), ih h.2]

theorem look_append_of_default {α : Type} (d : α) (l : SMap α) {m : SMap α} {k : Nat} (h : SMap.look d m k = d) :
    SMap.look d (l ++ m) k = SMap.look d l k := by
  induction l with
  | nil => exact h
  | cons x l ih =>
    obtain ⟨j, v⟩ := x
    rw [List.cons_append, SMap.look, SMap.look, ih]

/-- A filter by key keeps the entries of the keys that it lets pass. -/
theorem look_filter_key {α : Type} (d : α) (p : Nat → Bool) (l : SMap α) (k : Nat) :
    SMap.look d (l.filter fun x => p x.1) k = if p k = true then SMap.look d l k else d := by
  induction l with
  | nil => exact (ite_self d).symm
  | cons x l ih =>
    obtain ⟨j, v⟩ := x
    by_cases h : j = k
    · subst h
      by_cases hp : p j = true <;> simp [SMap.look, hp, ih]
    · by_cases hp : p j = true <;> simp [SMap.look, hp, h, ih]

/-- Leaving out the entries that hold the default changes no look, where every key stands once. -/
theorem look_filter_ne {α : Type} [DecidableEq α] (d : α) {l : SMap α} (hl : (l.map (·.1)).Nodup) (k : Nat) :
    SMap.look d (l.filter fun x => x.2 != d) k = SMap.look d l k := by
  induction l with
  | nil => rfl
  | cons x l ih =>
    obtain ⟨j, v⟩ := x
    rw [List.map_cons, List.nodup_cons] at hl
    by_cases hv : v = d
    · rw [List.filter_cons_of_neg (by simp [hv]), ih hl.2, SMap.look]
      split
      · next h => rw [hv, look_of_not_mem d (h ▸ hl.1)]
      · rfl
    · rw [List.filter_cons_of_pos (by simp [hv])]
      simp [SMap.look, ih hl.2]

/-- The entry of a key that no other entry of a list has. -/
theorem look_map_of_mem {α : Type} (d : α) {key : Nat → Nat} (hkey : Function.Injective key) (val : Nat → α) {l : List Nat} {n : Nat}
    (hn : n ∈ l) : SMap.look d (l.map fun m => (key m, val m)) (key n) = val n := by
  induction l with
  | nil => exact absurd hn List.not_mem_nil
  | cons m l ih =>
    rw [List.map_cons, SMap.look]
    split
    · next h => rw [hkey h]
    · next h => exact ih ((List.mem_cons.mp hn).resolve_left fun e => h (congrArg key e).symm)

/-- The entries that `setCells` writes. -/
def cellRun (d : Nat) (f : Nat → Nat → Word) : SMap Word :=
  ((List.range 1024).map fun n => (1024 * d + n, f (n / 32) (n % 32))).filter fun x => x.2 != 0

theorem look_cellRun (d : Nat) (f : Nat → Nat → Word) {i j : Nat} (hi : i < 32) (hj : j < 32) :
    SMap.look 0 (cellRun d f) (cellKey d i j) = f i j := by
  have hinj : Function.Injective (1024 * d + ·) := fun a b h => Nat.add_left_cancel h
  have hkey : cellKey d i j = 1024 * d + (32 * i + j) := Nat.add_assoc ..
  rw [cellRun, look_filter_ne 0 (by rw [List.map_map]; exact List.nodup_range.map hinj), hkey]
  refine (look_map_of_mem 0 hinj (fun n => f (n / 32) (n % 32)) (List.mem_range.mpr (show 32 * i + j < 1024 by omega))).trans ?_
  congr 1 <;> omega

theorem cellKey_not_mem_cellRun {d k : Nat} (f : Nat → Nat → Word) {i j : Nat} (hi : i < 32) (hj : j < 32) (h : k ≠ d) :
    cellKey k i j ∉ (cellRun d f).map (·.1) := by
  simp only [cellRun, List.mem_map, List.mem_filter, List.mem_range, cellKey]
  rintro ⟨x, ⟨⟨n, hn, rfl⟩, -⟩, hx⟩
  dsimp only at hx
  omega

theorem cellKey_not_mem_below {d k : Nat} (acc : SMap Word) (i j : Nat) (h : d ≤ k) :
    cellKey k i j ∉ (acc.filter fun x => decide (x.1 < 1024 * d)).map (·.1) := by
  simp only [List.mem_map, List.mem_filter, decide_eq_true_eq, cellKey]
  rintro ⟨x, ⟨-, hx⟩, hkey⟩
  omega

/-- The cells written are those of their slot, and the others stay. -/
theorem cell_setCells (e : Engine) (d : Nat) (f : Nat → Nat → Word) (k : Nat) {i j : Nat} (hi : i < 32) (hj : j < 32) :
    (e.setCells d f).cell k i j = if k = d then f i j else e.cell k i j := by
  change SMap.look 0 ((e.acc.filter fun x => decide (x.1 < 1024 * d)) ++ cellRun d f
    ++ e.acc.filter fun x => decide (1024 * d + 1024 ≤ x.1)) (cellKey k i j) = _
  have hbelow := look_filter_key 0 (fun n => decide (n < 1024 * d)) e.acc (cellKey k i j)
  have habove := look_filter_key 0 (fun n => decide (1024 * d + 1024 ≤ n)) e.acc (cellKey k i j)
  simp only [decide_eq_true_eq] at hbelow habove
  rcases Nat.lt_trichotomy k d with h | rfl | h
  · rw [if_neg (by unfold cellKey; omega)] at habove
    rw [look_append_of_default 0 _ habove, look_append_of_default 0 _ (look_of_not_mem 0 (cellKey_not_mem_cellRun f hi hj h.ne)),
      hbelow, if_pos (by unfold cellKey; omega), if_neg h.ne, Engine.cell]
  · rw [if_neg (by unfold cellKey; omega)] at habove
    rw [look_append_of_default 0 _ habove, look_append_of_not_mem 0 _ (cellKey_not_mem_below _ i j le_rfl), look_cellRun k f hi hj,
      if_pos rfl]
  · rw [if_pos (by unfold cellKey; omega)] at habove
    have hout : cellKey k i j ∉ ((e.acc.filter fun x => decide (x.1 < 1024 * d)) ++ cellRun d f).map (·.1) := by
      rw [List.map_append, List.mem_append, not_or]
      exact ⟨cellKey_not_mem_below _ i j h.le, cellKey_not_mem_cellRun f hi hj h.ne'⟩
    rw [look_append_of_not_mem 0 _ hout, habove, if_neg h.ne', Engine.cell]

/-- The cells of a run of slots, each slot written from its own place in the run. -/
theorem cell_setCells_run (e : Engine) (d : Nat) (f : Nat → Nat → Nat → Word) (n k : Nat) {i j : Nat} (hi : i < 32) (hj : j < 32) :
    ((List.range n).foldl (fun x m => x.setCells (d + m) (f m)) e).cell k i j
      = if d ≤ k ∧ k < d + n then f (k - d) i j else e.cell k i j := by
  induction n with
  | zero => exact (if_neg (by omega)).symm
  | succ n ih =>
    rw [List.range_succ, List.foldl_append, List.foldl_cons, List.foldl_nil, cell_setCells _ _ _ _ hi hj, ih]
    by_cases h : k = d + n
    · rw [if_pos h, if_pos (by omega), show k - d = n by omega]
    · rw [if_neg h]
      exact if_congr (by omega) rfl rfl

/-- An engine but for its cells, its queue and the flags of its chains. -/
def bareEngine (e : Engine) : Engine := { e with queue := [], acc := [], cflags := [] }

theorem setCells_rest (e : Engine) (d : Nat) (f : Nat → Nat → Word) :
    bareEngine (e.setCells d f) = bareEngine e ∧ (e.setCells d f).cflags = e.cflags := ⟨rfl, rfl⟩

theorem setCells_run_rest (e : Engine) (d : Nat) (f : Nat → Nat → Nat → Word) (n : Nat) :
    let x := (List.range n).foldl (fun x m => x.setCells (d + m) (f m)) e
    bareEngine x = bareEngine e ∧ x.cflags = e.cflags := by
  induction n with
  | zero => exact ⟨rfl, rfl⟩
  | succ n ih =>
    rw [List.range_succ, List.foldl_append]
    exact ih

/-- Cells computed one by one: each takes its own value. -/
theorem cell_mapCells (e : Engine) (d : Nat) (f : Nat → Nat → Word × Nat) (k : Nat) {i j : Nat} (hi : i < 32) (hj : j < 32) :
    (e.mapCells d f).1.cell k i j = if k = d then (f i j).1 else e.cell k i j := by
  rw [Engine.mapCells]
  dsimp only
  rw [cell_setCells _ _ _ _ hi hj]
  have hget : ((List.range 1024).map fun n => f (n / 32) (n % 32)).getD (32 * i + j) (0, 0) = f i j := by
    rw [List.getD, List.getElem?_map, List.getElem?_range (by omega)]
    exact congrArg₂ f (by omega) (by omega)
  rw [hget]

theorem mapCells_rest (e : Engine) (d : Nat) (f : Nat → Nat → Word × Nat) :
    bareEngine (e.mapCells d f).1 = bareEngine e ∧ (e.mapCells d f).1.cflags = e.cflags := by
  rw [Engine.mapCells]
  dsimp only
  exact setCells_rest _ _ _

theorem mapCells_flags (e : Engine) (d : Nat) (f : Nat → Nat → Word × Nat) :
    (e.mapCells d f).2 = (List.range 1024).foldl (fun x n => x ||| (f (n / 32) (n % 32)).2) 0 := by
  rw [Engine.mapCells]
  dsimp only
  rw [List.foldl_map]

/-! ## The commit -/

/-- An instruction that returns a line, and leaves its flags to no chain (R171). -/
def EngineWork.drains : EngineWork → Bool
  | .macld _ _ => true
  | _ => false

/-- The instruction at the head of the queue commits: the cells as given, its line and its flags returned, and nothing else
changed. -/
def CommitsAs (s : State) (c : Nat) (op : EngineOp) (q : List EngineOp) (cell : Nat → Nat → Nat → Word) (l : Line) (fl : Nat) : Prop :=
  let e := (s.coreAt c).engine
  let key := 4 * c + op.slot
  Completes (.engineInstructionCommit c) s fun u =>
    let f := (u.coreAt c).engine
    f.queue = q ∧ (∀ k i j, i < 32 → j < 32 → f.cell k i j = cell k i j)
    ∧ bareEngine f = bareEngine e
    ∧ (∀ n, SMap.look 0 f.cflags n = if op.chain = some n ∧ op.work.drains = false then SMap.look 0 e.cflags n ||| fl
        else SMap.look 0 e.cflags n)
    ∧ u.slotAt key = { s.slotAt key with owed := (s.slotAt key).owed.map fun o =>
        if o.res = none ∧ o.flight = .engine op.num then { o with res := some (.val { bits := l, tag := false } fl) } else o }
    ∧ (∀ k, k ≠ key → u.slotAt k = s.slotAt k) ∧ (∀ k, k ≠ c → u.coreAt k = s.coreAt k)
    ∧ { u with cores := [], perf := [] } = { s with cores := [], perf := [] }

/-- The flags that the instructions of a chain have raised, with those of one that commits. -/
theorem look_chainFlags (op : EngineOp) (m : SMap Nat) (fl n : Nat) :
    SMap.look 0 (match op.chain, op.work with
      | some _, .macld _ _ => m
      | some k, _ => SMap.upd 0 m k (· ||| fl)
      | none, _ => m) n = if op.chain = some n ∧ op.work.drains = false then SMap.look 0 m n ||| fl else SMap.look 0 m n := by
  have hadds (k : Nat) : SMap.look 0 (SMap.upd 0 m k (· ||| fl)) n = if some k = some n then SMap.look 0 m n ||| fl else SMap.look 0 m n := by
    rw [SMap.upd, SMap.look_put]
    by_cases h : n = k
    · rw [h, if_pos rfl, if_pos rfl]
    · rw [if_neg h, if_neg fun e => h (Option.some.inj e).symm]
  cases op.chain with
  | none => simp
  | some k => cases op.work <;> simp [EngineWork.drains, hadds]

/-- What returns to the slot: the open owings of the operation take their result. -/
theorem returnTo_eq (sl : Slot) (x : Flight) (r : Res) : sl.returnTo (· == x) r =
    { sl with owed := sl.owed.map fun o => if o.res = none ∧ o.flight = x then { o with res := some r } else o } := by
  unfold Slot.returnTo
  congr 2
  funext o
  exact if_congr (by simp [Owed.open_]) rfl rfl

/-- A change of a slot leaves the engine of every core alone. -/
theorem engine_updSlot (s : State) (k : Nat) (f : Slot → Slot) (c : Nat) :
    ((s.updSlot k f).coreAt c).engine = (s.coreAt c).engine := by rw [State.coreAt_updSlot]

section
variable {s : State} {c : Nat} {op : EngineOp} {q : List EngineOp}

theorem exec_engineInstructionCommit (hq : (s.coreAt c).engine.queue = op :: q) :
    exec (.engineInstructionCommit c) s = .next (if (s.coreAt c).interlocked op then s else s.commitEngine c op) := by
  change execEngineInstructionCommit c s = _
  rw [execEngineInstructionCommit, hq]

/-- A core whose engine has committed the instruction at its head, which computed the engine `e` and raised `fl`. -/
def Core.engineCommitted (x : Core) (op : EngineOp) (e : Engine) (fl : Nat) : Core :=
  { x with engine := { e with
      queue := x.engine.queue.tail
      cflags := match op.chain, op.work with
        | some _, .macld _ _ => e.cflags
        | some n, _ => SMap.upd 0 e.cflags n (· ||| fl)
        | none, _ => e.cflags } }

theorem commitEngine_eq {e : Engine} {l : Line} {fl cyc : Nat} (hrun : s.runEngine c op.work = (e, l, fl, cyc)) :
    s.commitEngine c op = ((s.updCore c (·.engineCommitted op e fl)).count 0 c 3 cyc).updSlot (4 * c + op.slot)
      (·.returnTo (· == .engine op.num) (.val { bits := l, tag := false } fl)) := by
  rw [State.commitEngine, hrun]
  rfl

/-- The commit of an instruction, given what it computes. -/
theorem commitsAs_runEngine (hq : (s.coreAt c).engine.queue = op :: q) (hslot : op.slot < 4)
    (hfree : ¬ (s.coreAt c).interlocked op = true) {e : Engine} {l : Line} {fl cyc : Nat} {cell : Nat → Nat → Nat → Word}
    (hrun : s.runEngine c op.work = (e, l, fl, cyc))
    (hrest : bareEngine e = bareEngine (s.coreAt c).engine ∧ e.cflags = (s.coreAt c).engine.cflags)
    (hcell : ∀ k i j, i < 32 → j < 32 → e.cell k i j = cell k i j) : CommitsAs s c op q cell l fl := by
  have hexec := exec_engineInstructionCommit hq
  rw [if_neg hfree, commitEngine_eq hrun] at hexec
  have hcore : (4 * c + op.slot) / 4 = c := by omega
  have hkeep (k : Nat) := State.slotAt_updCore s c k (·.engineCommitted op e fl) fun _ => rfl
  refine ⟨_, hexec, ?_⟩
  dsimp only
  rw [engine_updSlot, State.coreAt_count, State.coreAt_updCore_self]
  refine ⟨congrArg List.tail hq, hcell, hrest.1, fun n => ?_, ?_, fun k hk => ?_, fun k hk => ?_, ?_⟩
  · rw [← hrest.2]
    exact look_chainFlags op e.cflags fl n
  · rw [State.slotAt_updSlot_self, State.slotAt_count, hkeep, returnTo_eq]
  · rw [State.slotAt_updSlot_ne _ _ hk, State.slotAt_count, hkeep]
  · rw [State.coreAt_updSlot, if_neg (by rw [hcore]; exact hk), State.coreAt_count, State.coreAt_updCore, if_neg hk]
  · exact congrArg (fun u : State => { u with perf := [] }) (onlySlot_updSlot
      ((s.updCore c (·.engineCommitted op e fl)).count 0 c 3 cyc) (4 * c + op.slot)
      (·.returnTo (· == .engine op.num) (.val { bits := l, tag := false } fl))).rest

/-- The commit of an instruction that computes the cells of one slot one by one. -/
theorem commitsAs_mapCells (hq : (s.coreAt c).engine.queue = op :: q) (hslot : op.slot < 4)
    (hfree : ¬ (s.coreAt c).interlocked op = true) {d cyc : Nat} {g f : Nat → Nat → Word × Nat}
    (hrun : s.runEngine c op.work = (((s.coreAt c).engine.mapCells d g).1, 0, ((s.coreAt c).engine.mapCells d g).2, cyc))
    (hf : ∀ i j, i < 32 → j < 32 → g i j = f i j) :
    CommitsAs s c op q (fun k i j => if k = d then (f i j).1 else (s.coreAt c).engine.cell k i j) 0
      ((List.range 1024).foldl (fun x n => x ||| (f (n / 32) (n % 32)).2) 0) := by
  have hflags : ((s.coreAt c).engine.mapCells d g).2 = (List.range 1024).foldl (fun x n => x ||| (f (n / 32) (n % 32)).2) 0 := by
    rw [mapCells_flags]
    refine List.foldl_ext _ _ _ fun x n hn => ?_
    rw [List.mem_range] at hn
    rw [hf _ _ (by omega) (by omega)]
  rw [hflags] at hrun
  refine commitsAs_runEngine hq hslot hfree hrun (mapCells_rest _ _ _) fun k i j hi hj => ?_
  rw [cell_mapCells _ _ _ _ hi hj, hf i j hi hj]

end

/-! ## The completion of a chain -/

theorem chainDone_iff (x : Core) (n : Nat) : x.chainDone n = true ↔ ∀ o ∈ x.engine.queue, o.chain ≠ some n := by
  rw [Core.chainDone, List.all_eq_true]
  exact forall₂_congr fun o _ => bne_iff_ne

/-- A core from which the completion of a chain has returned, with its flags. -/
def Core.chainReturned (x : Core) (n : Nat) : Core :=
  { x with engine := { x.engine with cflags := SMap.put 0 x.engine.cflags n 0 } }

/-- What is found is an open owing of a chain that has committed whole. -/
theorem chainOwed_some {s : State} {c : Nat} {p : Nat × Nat} (h : s.chainOwed c = some p) :
    p.1 < 4 ∧ ∃ o ∈ (s.slotAt (4 * c + p.1)).owed, o.flight = .chain p.2 ∧ o.res = none := by
  obtain ⟨j, hj, h⟩ := List.exists_of_findSome?_eq_some h
  obtain ⟨o, ho, h⟩ := List.exists_of_findSome?_eq_some h
  split at h
  · next m hf hr =>
    split at h
    · obtain rfl := Option.some.inj h
      exact ⟨List.mem_range.mp hj, o, ho, hf, hr⟩
    · cases h
  · cases h

/-- An open owing of a chain that has committed whole is found, if no other is. -/
theorem chainOwed_ne_none {s : State} {c k n : Nat} (hk : k < 4)
    (howed : ∃ o ∈ (s.slotAt (4 * c + k)).owed, o.flight = .chain n ∧ o.res = none) (hdone : (s.coreAt c).chainDone n = true) :
    s.chainOwed c ≠ none := by
  intro h
  obtain ⟨o, ho, hf, hr⟩ := howed
  have hslot := List.findSome?_eq_none_iff.mp h k (List.mem_range.mpr hk)
  have hopen := List.findSome?_eq_none_iff.mp hslot o ho
  rw [hf, hr] at hopen
  dsimp only at hopen
  rw [if_pos hdone] at hopen
  cases hopen

/-- The owing of a chain's completion that the slots of a core have open, where there is but one. -/
theorem chainOwed_eq {s : State} {c k n : Nat} (hk : k < 4)
    (howed : ∃ o ∈ (s.slotAt (4 * c + k)).owed, o.flight = .chain n ∧ o.res = none)
    (honly : ∀ j, j < 4 → ∀ o ∈ (s.slotAt (4 * c + j)).owed, o.res = none → ∀ m, o.flight = .chain m → j = k ∧ m = n)
    (hdone : (s.coreAt c).chainDone n = true) : s.chainOwed c = some (k, n) := by
  obtain ⟨p, hp⟩ := Option.ne_none_iff_exists'.mp (chainOwed_ne_none hk howed hdone)
  obtain ⟨hlt, o, ho, hf, hr⟩ := chainOwed_some hp
  obtain ⟨h1, h2⟩ := honly p.1 hlt o ho hr p.2 hf
  rw [hp, ← h1, ← h2]

/-! ## What the instructions compute -/

theorem covers_iff (ta tb : TileF) (i j : Nat) : covers ta tb i j = true ↔ i ≤ ta.nm ∧ j ≤ tb.nm := by
  rw [covers, Bool.and_eq_true, decide_eq_true_iff, decide_eq_true_iff]

/-- The staged integers of a tile's lines. -/
theorem tileLines_getD (s : State) (c : Nat) (t : TileF) {r : Nat} (h : r < 32) :
    ((List.range 32).map (s.tileLine c t)).getD r [] = s.tileLine c t r := by
  rw [List.getD, List.getElem?_map, List.getElem?_range h]
  rfl

/-- A wide sum saturates, with OF (R67). -/
theorem wideSum_eq (w z : Int) : wideSum w z =
    (BitVec.ofInt 64 (max (-(2 ^ 63)) (min (2 ^ 63 - 1) (w + z))), if w + z < -(2 ^ 63) ∨ 2 ^ 63 ≤ w + z then flagOF else 0) := by
  unfold wideSum
  dsimp only
  split
  · next h => rw [if_pos (.inl h), min_eq_right (by omega), max_eq_left h.le]
  · next h =>
    split
    · next h' => rw [if_pos (.inr (by omega)), min_eq_left h'.le, max_eq_right (by decide)]
    · next h' => rw [if_neg (by omega), min_eq_right (by omega), max_eq_right (by omega)]

end Sys2Proof.Machine
end

section

open Sys2Proof Sys2Proof.Machine Sys2Proof.Safety

/-- The instruction at the head of the queue commits. -/
theorem engineCells : Sys2Proof.Parts.EngineCells := by
  intro s c op q e hq hslot held
  have hheld : held ↔ (s.coreAt c).interlocked op = true := (interlocked_iff _ _).symm
  refine ⟨fun h => ?_, fun h => ?_⟩
  · exact (exec_engineInstructionCommit hq).trans (congrArg Host.Outcome.next (if_pos (hheld.mp h)))
  have hfree := mt hheld.mpr h
  intro key lineOf covered drains commits slot wide
  have hslots {d cyc : Nat} {g f : Nat → Nat → Word × Nat} (hrun : s.runEngine c op.work = ((e.mapCells d g).1, 0, (e.mapCells d g).2, cyc))
      (hf : ∀ i j, i < 32 → j < 32 → g i j = f i j) : slot d f := commitsAs_mapCells hq hslot hfree hrun hf
  refine ⟨fun d ta tb hw => ?_, fun d ta tb hw hd => ?_, fun d ta tb hw hd => ?_, fun d ta tb len hw hlen => ?_, fun d a v hw => ?_,
    fun a n hw ha => ?_, fun a n hw ha => ?_, fun d hw => ?_⟩
  · refine hslots (by rw [hw]; rfl) fun i j hi hj => ?_
    rw [tileLines_getD _ _ _ hi, tileLines_getD _ _ _ hj]
    exact if_congr (covers_iff _ _ _ _) rfl rfl
  · refine hslots (by rw [hw]; rfl) fun i j hi hj => ?_
    rw [tileLines_getD _ _ _ hi, tileLines_getD _ _ _ hj, if_pos hd]
    exact if_congr (covers_iff _ _ _ _) rfl rfl
  · refine hslots (by rw [hw]; rfl) fun i j hi hj => ?_
    rw [tileLines_getD _ _ _ hi, tileLines_getD _ _ _ hj, if_neg (Nat.not_lt.mpr hd)]
    exact if_congr (covers_iff _ _ _ _) (wideSum_eq _ _) rfl
  · refine commitsAs_runEngine hq hslot hfree (by rw [hw]; rfl) (setCells_run_rest _ _ _ _) fun k i j hi hj => ?_
    rw [cell_setCells_run _ _ _ _ _ hi hj, tileLines_getD _ _ _ hi, tileLines_getD _ _ _ hj]
    exact if_congr Iff.rfl (if_congr (covers_iff _ _ _ _) rfl rfl) rfl
  · refine hslots (by rw [hw]; rfl) fun i j hi hj => ?_
    exact wideSum_eq _ _
  · refine commitsAs_runEngine hq hslot hfree (cyc := 4) ?_ ⟨rfl, rfl⟩ fun k i j _ _ => rfl
    rw [hw, State.runEngine, Engine.drain, if_pos ha]
  · refine commitsAs_runEngine hq hslot hfree (cyc := 4) ?_ ⟨rfl, rfl⟩ fun k i j _ _ => rfl
    rw [hw, State.runEngine, Engine.drain, if_neg (Nat.not_lt.mpr ha)]
  · exact commitsAs_runEngine hq hslot hfree (by rw [hw]; rfl) (setCells_rest _ _ _) fun k i j hi hj => cell_setCells _ _ _ _ hi hj

/-- The completion of a chain returns. -/
theorem chainCompletes : Sys2Proof.Parts.ChainCompletes := by
  intro s c k n hk key sl e howed honly hqueue
  have hexec : exec (.chainCompletion c) s = .next (((s.updSlot (4 * c + k) fun x => x.returnTo (· == .chain n)
      (.val CapReg.null (SMap.look 0 e.cflags n))).updCore c fun x => x.chainReturned n)) := by
    change execChainCompletion c s = _
    rw [execChainCompletion, chainOwed_eq hk howed honly ((chainDone_iff _ _).mpr hqueue)]
    rfl
  have hcore : (4 * c + k) / 4 = c := by omega
  have hkeep (t : State) (j : Nat) := State.slotAt_updCore t c j (·.chainReturned n) fun _ => rfl
  refine ⟨_, hexec, ?_, ?_, fun j hj => ?_, fun j hj => ?_, ?_⟩
  · rw [hkeep, State.slotAt_updSlot_self, returnTo_eq]
  · rw [State.coreAt_updCore_self, Core.chainReturned]
    dsimp only
    rw [engine_updSlot]
  · rw [hkeep, State.slotAt_updSlot_ne _ _ hj]
  · rw [State.coreAt_updCore, if_neg hj, State.coreAt_updSlot, if_neg (by rw [hcore]; exact hj)]
  · exact (onlyCore_updCore (s.updSlot (4 * c + k) (·.returnTo (· == .chain n) (.val CapReg.null (SMap.look 0 e.cflags n)))) c
      (·.chainReturned n)).rest.trans (onlySlot_updSlot s _ _).rest

/-- Settles O21: a cell of `mmf` group by group, the commit of each instruction by what it computes, and the one completion that
may return. -/
theorem engineCommits : Obligations.EngineCommits := ⟨mmfCells, engineCells, chainCompletes⟩

end

section
/-!
Lane-wise vector instructions and conversions (R151, R152, R159 … R161), and rounding to a multiple of a power of two (R53).
-/

namespace Sys2Proof.Machine
open Sys2Proof.Safety

/-! ## Vector instructions -/

/-- The positions of a line above its elements are zero (R160). -/
theorem lane_lanes_above {w n : Nat} (f : Nat → Nat) {i : Nat} (hi : n ≤ i) : lane w i (lanes w n f) = 0 := by
  have hfit : ∀ x ∈ laneFields w n f, x.2 < 2 ^ x.1 := by
    intro x hx
    obtain ⟨j, -, rfl⟩ := List.mem_map.mp hx
    exact Nat.mod_lt _ (Nat.two_pow_pos w)
  have hlt : packed (laneFields w n f) < 2 ^ (w * n) := fieldBits_laneFields w n f ▸ packed_lt _ hfit
  have hlow : (lanes w n f).toNat < 2 ^ (w * i) := by
    rw [lanes, foldr_lanes, Nat.add_zero, BitVec.toNat_ofNat]
    calc packed (laneFields w n f) % 2 ^ 512 ≤ packed (laneFields w n f) := Nat.mod_le _ _
      _ < 2 ^ (w * n) := hlt
      _ ≤ 2 ^ (w * i) := Nat.pow_le_pow_right (by decide) (Nat.mul_le_mul_left w hi)
  rw [lane, Nat.div_eq_of_lt hlow, Nat.zero_mod]

/-- A vector instruction that writes a v register and raises flags. -/
theorem acts_vecOp_writes {i : Instr} {s : State} {g : Ctl} {f : Slot → Slot} {d : VReg} {l : Line} {fl : Nat} {post : Slot → Prop}
    (hg : Issues i g) (hi : exec i s = vecOp g s f) (hf : f s.sl = (s.sl.setV d l).orFlags fl)
    (hpost : ∀ b : Slot, b.vr d = l → b.fflags = s.sl.fflags ||| BitVec.ofNat 64 (fl % 32) →
      OwesAsBefore s.sl b (some (.v d.val)) → post b) : Acts i s { v := some d } post := by
  refine acts_doneStall i s g 0 f _ _ hg (hi.trans (vecOp_eq g s f)) ?_ ?_ ?_
  · rw [hf]
    refine ⟨fun _ _ => rfl, fun r hr => ?_, fun _ _ => rfl, fun _ _ => rfl, rfl⟩
    exact (vr_setV s.sl d r l).trans (if_neg fun h => hr (congrArg some h.symm))
  · rw [hf]
    exact ⟨rfl, rfl, rfl, rfl, rfl⟩
  · rw [hf]
    intro b h
    exact hpost b ((h.v d).trans ((vr_setV s.sl d d l).trans (if_pos rfl))) h.fflags
      (owesAsBefore_cancel (t := (s.sl.setV d l).orFlags fl) h rfl rfl rfl rfl)

/-- A vector instruction that leaves its slot as it is, every guard being false. -/
theorem acts_vecOp_unguarded {i : Instr} {s : State} {g : Ctl} {f : Slot → Slot} {d : Dests} {post : Slot → Prop}
    (hg : Issues i g) (hi : exec i s = vecOp g s f) (hf : f s.sl = s.sl)
    (hpost : ∀ b : Slot, (∀ r, b.vr r = s.sl.vr r) → b.fflags = s.sl.fflags → OwesAsBefore s.sl b none → post b) :
    Acts i s d post := by
  refine acts_doneStall i s g 0 f _ _ hg (hi.trans (vecOp_eq g s f)) ?_ ?_ ?_
  · rw [hf]
    exact ⟨fun _ _ => rfl, fun _ _ => rfl, fun _ _ => rfl, fun _ _ => rfl, rfl⟩
  · rw [hf]
    exact ⟨rfl, rfl, rfl, rfl, rfl⟩
  · rw [hf]
    exact fun b h => hpost b h.v h.fflags ⟨h.out, h.seq, h.owed, h.deferred⟩

/-- No guard of a list of lanes is true. -/
theorem laneGuard_of_none {sl : Slot} {g : Ctl} {w n : Nat} (h : (List.range n).filter (sl.laneGuard g w) = []) {k : Nat} (hk : k < n) :
    sl.laneGuard g w k = false :=
  Bool.eq_false_iff.mpr (List.filter_eq_nil_iff.mp h k (List.mem_range.mpr hk))

/-- A vector instruction whose effect is the lane-wise outline (R151, R152). -/
theorem laneWise_vecOp {i : Instr} {s : State} {g : Ctl} {w : Nat} {d : VReg} {f : Slot → Slot} {res : Nat → Nat × Nat}
    (hg : Issues i g) (hi : exec i s = vecOp g s f) (hf : f s.sl = s.sl.lanewise g w d res) :
    LaneWise i s g w d (fun k => (res k).1) fun k => (res k).2 := by
  rw [Slot.lanewise] at hf
  rw [LaneWise]
  split at hf
  · next hon =>
    rw [hon]
    refine acts_vecOp_unguarded hg hi hf fun b hv hflags howes => ⟨fun k hk => ?_, ?_, howes⟩
    · rw [laneGuard_of_none hon hk, hv]
      rfl
    · rw [hflags]
      exact (BitVec.or_zero).symm
  · next hon =>
    rw [if_neg hon]
    refine acts_vecOp_writes hg hi hf fun b hv hflags howes => ⟨fun k hk => ?_, hflags, howes⟩
    rw [hv, lane_lanes _ (Nat.mul_div_le 512 w) hk]
    split
    · rfl
    · exact Nat.mod_mod _ _

/-! ## Conversions of integers -/

theorem intRange_le (w : Nat) (signed : Bool) : (intRange w signed).1 ≤ (intRange w signed).2 := by
  have h (n : Nat) : (0 : Int) < 2 ^ n := by positivity
  have hlow := h (w - 1)
  have hall := h w
  unfold intRange
  split
  · change -(2 ^ (w - 1) : Int) ≤ 2 ^ (w - 1) - 1
    omega
  · change (0 : Int) ≤ 2 ^ w - 1
    omega

theorem clampTo_below {r : Int × Int} {z : Int} (hr : r.1 ≤ r.2) (h : z < r.1) : clampTo r z = r.1 := by
  rw [clampTo, min_eq_right (h.le.trans hr), max_eq_left h.le]

theorem clampTo_above {r : Int × Int} {z : Int} (hr : r.1 ≤ r.2) (h : r.2 < z) : clampTo r z = r.2 := by
  rw [clampTo, min_eq_left h.le, max_eq_right hr]

theorem clampTo_inside {r : Int × Int} {z : Int} (h1 : r.1 ≤ z) (h2 : z ≤ r.2) : clampTo r z = z := by
  rw [clampTo, min_eq_right h2, max_eq_right h1]

/-- A float type is no integer type. -/
theorem eSigned_of_fpOfE {t : EType} {f : FpFmt} (h : fpOfE t = some f) : eSigned t = none := by
  have hfloat : fpOfE t ≠ none → eSigned t = none := by cases t <;> decide
  exact hfloat (h ▸ Option.some_ne_none f)

section
variable {r : RMode} {td ts : EType} {ss ds : Bool} {fs fd : FpFmt} (x : Nat)

theorem convert_int_int (hs : eSigned ts = some ss) (hd : eSigned td = some ds) :
    convert r td ts x = (unsignedOf (eWidth td) (clampTo (intRange (eWidth td) ds) (eInt (eWidth ts) ss x)), 0) := by
  rw [convert, hs, hd]

theorem convert_int_float (hs : eSigned ts = some ss) (hd : fpOfE td = some fd) :
    convert r td ts x = fd.deliver r (fvOfInt (eInt (eWidth ts) ss x)) := by
  rw [convert, hs, hd, eSigned_of_fpOfE hd]

theorem convert_float_int (hs : fpOfE ts = some fs) (hd : eSigned td = some ds) :
    convert r td ts x = fvToInt r (eWidth td) ds (fs.value x) := by
  rw [convert, hs, hd, eSigned_of_fpOfE hs]

theorem convert_float_float (hs : fpOfE ts = some fs) (hd : fpOfE td = some fd) (hne : ts ≠ td) :
    convert r td ts x = fd.deliver r (fs.value x) := by
  rw [convert, hs, hd, eSigned_of_fpOfE hs, eSigned_of_fpOfE hd]
  exact if_neg hne

end

/-- The same type keeps all but NaNs. -/
theorem convert_same {r : RMode} {td ts : EType} {fs : FpFmt} (x : Nat) (hs : fpOfE ts = some fs) (heq : td = ts) :
    (∀ sig, fs.value x = .nan sig → convert r td ts x = (fs.qnan, if sig = true then flagNV else 0))
    ∧ ((∀ sig, fs.value x ≠ .nan sig) → convert r td ts x = (x, 0)) := by
  subst heq
  rw [convert, hs, eSigned_of_fpOfE hs]
  dsimp only
  rw [if_pos rfl]
  cases fs.value x <;> simp

/-! ## Rounding to a multiple of a power of two -/

/-- Whether a mode takes a number that is no multiple of `den`, but leaves `rest`, to the next multiple above (R53). -/
def RoundsUp (r : RMode) (neg : Bool) (den rest : Nat) (odd : Prop) : Prop :=
  match r with
  | .rne => den < 2 * rest ∨ den = 2 * rest ∧ odd
  | .rna => den ≤ 2 * rest
  | .rtz => False
  | .rdn => neg = true
  | .rup => neg = false

/-- The comparison of a remainder with half the divisor keeps under a common factor. -/
theorem roundsUp_mul {r : RMode} {neg : Bool} {den rest g : Nat} {odd : Prop} (hg : 0 < g) :
    RoundsUp r neg (den * g) (rest * g) odd ↔ RoundsUp r neg den rest odd := by
  have hlt : den * g < 2 * (rest * g) ↔ den < 2 * rest := by rw [← Nat.mul_assoc, Nat.mul_lt_mul_right hg]
  have heq : den * g = 2 * (rest * g) ↔ den = 2 * rest := by rw [← Nat.mul_assoc, Nat.mul_left_inj hg.ne']
  have hle : den * g ≤ 2 * (rest * g) ↔ den ≤ 2 * rest := by rw [← Nat.mul_assoc, Nat.mul_le_mul_right_iff hg]
  cases r <;> simp only [RoundsUp, hlt, heq, hle]

/-- The choice that `roundQ` makes by a remainder and half the divisor. -/
def roundBit (r : RMode) (neg : Bool) (half rest lo : Nat) : Bool :=
  match r with
  | .rne => decide (half < rest) || (rest == half && lo % 2 == 1)
  | .rna => decide (half ≤ rest)
  | .rtz => false
  | .rdn => neg && rest != 0
  | .rup => !neg && rest != 0

theorem roundBit_iff {r : RMode} {neg : Bool} {half rest lo : Nat} (h : 0 < half) :
    roundBit r neg half rest lo = true ↔ rest ≠ 0 ∧ RoundsUp r neg (2 * half) rest (lo % 2 = 1) := by
  cases r with
  | rne =>
    simp only [roundBit, RoundsUp, Bool.or_eq_true, Bool.and_eq_true, decide_eq_true_eq, beq_iff_eq]
    omega
  | rna =>
    simp only [roundBit, RoundsUp, decide_eq_true_eq]
    omega
  | rtz => simp [roundBit, RoundsUp]
  | rdn => simp [roundBit, RoundsUp, and_comm]
  | rup => simp [roundBit, RoundsUp, and_comm]

theorem roundQ_drops (r : RMode) (neg : Bool) (m : Nat) {e q : Int} (h : e < q) :
    let den := 2 ^ (q - e).toNat
    roundQ r neg m e q =
      (if roundBit r neg (2 ^ ((q - e).toNat - 1)) (m % den) (m / den) then m / den + 1 else m / den, m % den != 0) := by
  rw [roundQ, if_neg (by omega)]
  rfl

/-- The rounding of m · 2^e to a multiple of 2^q, in units of a power of two that divides both: the value is `v`, the step `u`. -/
theorem roundQ_scaled (r : RMode) (neg : Bool) (m : Nat) {e q scale : Int} (he : scale ≤ e) (hq : scale ≤ q) :
    let v := m * 2 ^ (e - scale).toNat
    let u := 2 ^ (q - scale).toNat
    let up := v % u ≠ 0 ∧ RoundsUp r neg u (v % u) (v / u % 2 = 1)
    (up → roundQ r neg m e q = (v / u + 1, v % u != 0)) ∧ (¬ up → roundQ r neg m e q = (v / u, v % u != 0)) := by
  intro v u up
  by_cases h : q ≤ e
  · have hv : v = m * 2 ^ (e - q).toNat * u := by
      rw [Nat.mul_assoc, ← Nat.pow_add, show (e - q).toNat + (q - scale).toNat = (e - scale).toNat by omega]
    have hmod : v % u = 0 := by rw [hv, Nat.mul_mod_left]
    have hdiv : v / u = m * 2 ^ (e - q).toNat := by rw [hv, Nat.mul_div_cancel _ (Nat.two_pow_pos _)]
    refine ⟨fun hup => absurd hmod hup.1, fun _ => ?_⟩
    rw [hmod, hdiv, roundQ, if_pos h]
    rfl
  · have hg := Nat.two_pow_pos (e - scale).toNat
    have hu : u = 2 ^ (q - e).toNat * 2 ^ (e - scale).toNat := by
      rw [← Nat.pow_add, show (q - e).toNat + (e - scale).toNat = (q - scale).toNat by omega]
    have hdiv : v / u = m / 2 ^ (q - e).toNat := by rw [hu, Nat.mul_div_mul_right _ _ hg]
    have hmod : v % u = m % 2 ^ (q - e).toNat * 2 ^ (e - scale).toNat := by rw [hu, Nat.mul_mod_mul_right]
    have hzero : v % u ≠ 0 ↔ m % 2 ^ (q - e).toNat ≠ 0 := by rw [hmod, mul_ne_zero_iff, and_iff_left hg.ne']
    have hup : up ↔ m % 2 ^ (q - e).toNat ≠ 0 ∧ RoundsUp r neg (2 ^ (q - e).toNat) (m % 2 ^ (q - e).toNat)
        (m / 2 ^ (q - e).toNat % 2 = 1) := by
      refine and_congr hzero ?_
      rw [hmod, hdiv, hu, roundsUp_mul hg]
    have hne : (v % u != 0) = (m % 2 ^ (q - e).toNat != 0) := by
      rw [Bool.eq_iff_iff, bne_iff_ne, bne_iff_ne, hzero]
    have hbit : roundBit r neg (2 ^ ((q - e).toNat - 1)) (m % 2 ^ (q - e).toNat) (m / 2 ^ (q - e).toNat) = true ↔ up := by
      rw [hup, roundBit_iff (Nat.two_pow_pos _), ← Nat.pow_succ', Nat.succ_eq_add_one, Nat.sub_add_cancel (by omega)]
    rw [roundQ_drops r neg m (by omega), hdiv, hne]
    exact ⟨fun h => Prod.ext (if_pos (hbit.mpr h)) rfl, fun h => Prod.ext (if_neg (mt hbit.mp h)) rfl⟩

/-- Rounding to an integer, in integers: a quotient and what is left of it. -/
theorem roundQ_integer (r : RMode) (neg : Bool) (m : Nat) (e : Int) :
    let q := 2 ^ (-e).toNat
    let n := m * 2 ^ e.toNat
    let up := n % q ≠ 0 ∧ RoundsUp r neg q (n % q) (n / q % 2 = 1)
    (up → roundQ r neg m e 0 = (n / q + 1, n % q != 0)) ∧ (¬ up → roundQ r neg m e 0 = (n / q, n % q != 0)) := by
  have h := roundQ_scaled r neg m (min_le_left e 0) (min_le_right e 0)
  rwa [show (e - min e 0).toNat = e.toNat by omega, show (0 - min e 0).toNat = (-e).toNat by omega] at h

/-- The end of the range to which an infinity is converted (R56). -/
theorem fvToInt_inf (r : RMode) (w : Nat) (signed neg : Bool) : fvToInt r w signed (.inf neg) =
    (unsignedOf w (if neg = true then (intRange w signed).1 else (intRange w signed).2), flagNV) := rfl

/-! ## Conversions between float types -/

section
variable (f : FpFmt) (r : RMode)

/-- A NaN is delivered as the canonical one, or as zero where a format has none (R52, R54). -/
theorem deliver_nan (sig : Bool) : (f.kind = .numbers → f.deliver r (.nan sig) = (0, flagNV))
    ∧ (f.kind ≠ .numbers → f.deliver r (.nan sig) = (f.qnan, if sig = true then flagNV else 0)) := by
  rw [FpFmt.deliver]
  cases f.kind <;> simp

theorem deliver_inf (neg : Bool) :
    (f.kind = .ieee → f.deliver r (.inf neg) = ((if neg = true then f.signBit else 0) + (2 ^ f.eBits - 1) * 2 ^ f.mBits, 0))
    ∧ (f.kind ≠ .ieee → (neg = true → f.sign = true) → f.deliver r (.inf neg) = (f.maxBits neg, flagOF + flagNX))
    ∧ (f.kind = .numbers → neg = true → f.sign = false → f.deliver r (.inf neg) = (0, flagNV)) := by
  refine ⟨fun hk => ?_, fun hk hsign => ?_, fun hk hneg hsign => ?_⟩
  · rw [FpFmt.deliver, FpFmt.infBits, hk]
  · cases hc : f.kind with
    | ieee => exact absurd hc hk
    | oneNan => rw [FpFmt.deliver, hc]
    | numbers =>
      rw [FpFmt.deliver, hc]
      exact if_neg (by cases neg <;> simp_all)
  · rw [FpFmt.deliver, hk, hneg, hsign]
    rfl

theorem bits_zero (neg : Bool) : f.bits neg 0 0 = if neg = true ∧ f.sign = true then f.signBit else 0 := by
  rw [FpFmt.bits]
  cases neg <;> cases f.sign <;> simp

theorem deliver_zero (neg : Bool) (e : Int) :
    f.deliver r (.fin neg 0 e) = (if neg = true ∧ f.sign = true then f.signBit else 0, 0) := by
  rw [FpFmt.deliver, if_pos rfl, bits_zero]

theorem deliver_negative {m : Nat} (e : Int) (hm : m ≠ 0) (hf : f.sign = false) : f.deliver r (.fin true m e) = (0, flagNV) := by
  rw [FpFmt.deliver, if_neg hm, hf]
  rfl

end

/-- The one format without a sign holds numbers alone. -/
theorem kind_of_unsigned {t : EType} {f : FpFmt} (h : fpOfE t = some f) (hs : f.sign = false) : f.kind = .numbers := by
  have hall : (fpOfE t).all (fun f => f.sign || f.kind == .numbers) = true := by cases t <;> rfl
  rw [h, Option.all_some, hs, Bool.false_or, beq_iff_eq] at hall
  exact hall

/-- An integer that a finite value rounds to, in or beyond the range of its type (R56). -/
theorem fvToInt_fin {r : RMode} {w : Nat} {signed neg : Bool} {m k : Nat} {e : Int} {inexact : Bool}
    (h : roundQ r neg m e 0 = (k, inexact)) :
    let z : Int := if neg = true then -(k : Int) else k
    let rg := intRange w signed
    (z < rg.1 → fvToInt r w signed (.fin neg m e) = (unsignedOf w rg.1, flagNV))
    ∧ (rg.2 < z → fvToInt r w signed (.fin neg m e) = (unsignedOf w rg.2, flagNV))
    ∧ (rg.1 ≤ z → z ≤ rg.2 → fvToInt r w signed (.fin neg m e) = (unsignedOf w z, if inexact then flagNX else 0)) := by
  intro z rg
  have heq : fvToInt r w signed (.fin neg m e)
      = if z < rg.1 ∨ rg.2 < z then (unsignedOf w (clampTo rg z), flagNV) else (unsignedOf w z, if inexact then flagNX else 0) := by
    rw [fvToInt, h]
  have hr := intRange_le w signed
  refine ⟨fun hz => ?_, fun hz => ?_, fun h1 h2 => ?_⟩
  · rw [heq, if_pos (.inl hz), clampTo_below hr hz]
  · rw [heq, if_pos (.inr hz), clampTo_above hr hz]
  · rw [heq, if_neg (by omega)]

end Sys2Proof.Machine
end

section

open Sys2Proof Sys2Proof.Machine Sys2Proof.Safety

/-- `vcvt` element by element at the wider width. -/
theorem vectorConversion : Sys2Proof.Parts.VectorConversion := by
  intro s g td ts d a r wd ws wm on cv post
  have hexec : exec (.vcvt g td ts d a r) s = vecOp g s fun sl => sl.vcvt g td ts d a (sl.rmode r) := rfl
  have hfit : wd * (512 / wm) ≤ 512 :=
    (Nat.mul_le_mul_right _ (le_max_right ws wd)).trans (Nat.mul_div_le 512 wm)
  refine ⟨fun hon => ?_, fun hon => ?_⟩
  · exact acts_vecOp_unguarded (issues_mk rfl) hexec (if_pos hon) fun b _ hflags howes => ⟨hflags, howes⟩
  · refine acts_vecOp_writes (issues_mk rfl) hexec (if_neg hon) fun b hv hflags howes => ⟨howes, fun k hk => ?_, fun k hk _ => ?_, hflags⟩
    · rw [hv, lane_lanes _ hfit hk]
      split
      · rfl
      · exact Nat.mod_mod _ _
    · rw [hv, lane_lanes_above _ hk]

/-- A conversion of an integer to an integer takes the nearer end of the range. -/
theorem integerConversionSaturates : Sys2Proof.Parts.IntegerConversionSaturates := by
  intro r td ts ss ds x hs hd ws wd v lo hi
  have hconv := convert_int_int (r := r) x hs hd
  have hr := intRange_le wd ds
  have hrange : intRange wd ds = (lo, hi) := by cases ds <;> rfl
  have hv : eInt ws ss x = v := rfl
  rw [hrange] at hr
  rw [hrange, hv] at hconv
  exact ⟨fun h => by rw [hconv, clampTo_below hr h], fun h => by rw [hconv, clampTo_above hr h],
    fun h1 h2 => by rw [hconv, clampTo_inside h1 h2]⟩

/-- The conversions from and to float types. -/
theorem floatConversions : Sys2Proof.Parts.FloatConversions := by
  intro r td ts x ss ds fs fd neg m e cv wd toInt lo hi nan quiet
  refine ⟨fun hs hd => ?_, fun hs hd => ?_, fun hs hd hne => ?_, fun hs heq => ?_⟩
  · intro v
    have hcv : cv = fd.deliver r (.fin (decide (v < 0)) v.natAbs 0) := convert_int_float x hs hd
    refine ⟨fun hv => ?_, fun _ => hcv⟩
    rw [hcv, hv]
    exact deliver_zero fd r false 0
  · have hcv : cv = fvToInt r wd ds (fs.value x) := convert_float_int x hs hd
    have hrange : intRange wd ds = (lo, hi) := by cases ds <;> rfl
    refine ⟨fun sig hn => ?_, fun hi => ?_, fun hv => ?_⟩
    · rw [hcv, show fs.value x = .nan sig from hn]
      rfl
    · rw [hcv, hi, fvToInt_inf, hrange]
    · intro q n k up lands
      have hlands (k : Nat) (h : roundQ r neg m e 0 = (k, n % q != 0)) : lands k := by
        obtain ⟨hlow, hhigh, hin⟩ := fvToInt_fin (w := wd) (signed := ds) h
        rw [← hv, ← hcv, hrange] at hlow hhigh hin
        refine ⟨hlow, hhigh, fun h1 h2 => (hin h1 h2).trans ?_⟩
        by_cases hz : n % q = 0 <;> simp [hz]
      obtain ⟨hup, hdown⟩ := roundQ_integer r neg m e
      exact ⟨fun h => hlands _ (hup h), fun h => hlands _ (hdown h)⟩
  · have hcv : cv = fd.deliver r (fs.value x) := convert_float_float x hs hd hne
    refine ⟨fun sig hn => ?_, fun hv => ?_, fun hv => ?_⟩
    · rw [hcv, show fs.value x = .nan sig from hn]
      exact deliver_nan fd r sig
    · rw [hcv, hv]
      obtain ⟨h1, h2, h3⟩ := deliver_inf fd r neg
      exact ⟨h1, h2, fun hneg hsign => h3 (kind_of_unsigned hd hsign) hneg hsign⟩
    · rw [hcv, hv]
      refine ⟨fun hm => ?_, fun hm hneg hsign => ?_, fun _ _ => rfl⟩
      · rw [hm]
        exact deliver_zero fd r neg e
      · rw [hneg]
        exact deliver_negative fd r e hm hsign
  · have hcv := convert_same (r := r) x hs heq
    refine ⟨fun sig hn => ?_, fun hn => ?_⟩
    · exact hcv.1 sig hn
    · exact hcv.2 hn

/-- Settles O16: `vcvt` by its lanes, and each kind of pair by what `convert` delivers. -/
theorem vectorConversions : Obligations.VectorConversions := ⟨vectorConversion, integerConversionSaturates, floatConversions⟩

end

section
/-!
The magnitudes of a format (R50), and the rounding of an exact value to one of them (R53 … R55).
-/

namespace Sys2Proof.Machine

/-! ## The magnitudes -/

/-- The magnitude of a code without its sign, in units of the smallest subnormal, with `p` the width of the significand field. -/
def gridMag (p c : Nat) : Nat := if c < 2 ^ p then c else (2 ^ p + c % 2 ^ p) * 2 ^ (c / 2 ^ p - 1)

/-- A code and its magnitude: the exponent field counts the doublings of the unit. -/
theorem gridMag_code {p j k : Nat} (hk : k ≤ 2 ^ (p + 1)) (h : 2 ^ p ≤ k ∨ j = 0) : gridMag p (j * 2 ^ p + k) = k * 2 ^ j := by
  have hpos := Nat.two_pow_pos p
  have hdouble : 2 ^ (p + 1) = 2 * 2 ^ p := Nat.pow_succ'
  rcases lt_or_ge k (2 ^ p) with hlt | hge
  · obtain rfl : j = 0 := h.resolve_left (by omega)
    rw [gridMag, Nat.zero_mul, Nat.zero_add, if_pos hlt, Nat.pow_zero, Nat.mul_one]
  · have hout : ¬ j * 2 ^ p + k < 2 ^ p := by
      have := Nat.zero_le (j * 2 ^ p)
      omega
    rcases hk.lt_or_eq with hlt | rfl
    · have hcode : j * 2 ^ p + k = (k - 2 ^ p) + (j + 1) * 2 ^ p := by
        rw [Nat.add_mul]
        omega
      have hrest : k - 2 ^ p < 2 ^ p := by omega
      rw [gridMag, if_neg hout, hcode, Nat.add_mul_mod_self_right, Nat.add_mul_div_right _ _ hpos, Nat.mod_eq_of_lt hrest,
        Nat.div_eq_of_lt hrest, Nat.zero_add, Nat.add_sub_cancel, Nat.add_sub_cancel' hge]
    · have hcode : j * 2 ^ p + 2 ^ (p + 1) = 0 + (j + 2) * 2 ^ p := by rw [hdouble]; ring
      rw [gridMag, if_neg hout, hcode, Nat.add_mul_mod_self_right, Nat.add_mul_div_right _ _ hpos, Nat.zero_mod, Nat.zero_div,
        Nat.zero_add, Nat.add_zero, show j + 2 - 1 = j + 1 by omega, hdouble]
      ring

/-- Every code is one of a binade, or below the first. -/
theorem exists_code (p c : Nat) : ∃ j k, c = j * 2 ^ p + k ∧ k < 2 ^ (p + 1) ∧ (2 ^ p ≤ k ∨ j = 0) := by
  have hdouble : 2 ^ (p + 1) = 2 * 2 ^ p := Nat.pow_succ'
  rcases lt_or_ge c (2 ^ p) with h | h
  · exact ⟨0, c, by omega, by omega, .inr rfl⟩
  · have hrest := Nat.mod_lt c (Nat.two_pow_pos p)
    have hexp : 1 ≤ c / 2 ^ p := (Nat.one_le_div_iff (Nat.two_pow_pos p)).mpr h
    refine ⟨c / 2 ^ p - 1, 2 ^ p + c % 2 ^ p, ?_, by omega, .inl (Nat.le_add_right _ _)⟩
    have hsplit := Nat.div_add_mod' c (2 ^ p)
    have hone : (c / 2 ^ p - 1) * 2 ^ p + 2 ^ p = c / 2 ^ p * 2 ^ p := by
      rw [← Nat.succ_mul, Nat.succ_eq_add_one, Nat.sub_add_cancel hexp]
    omega

theorem gridMag_strictMono (p : Nat) : StrictMono (gridMag p) := by
  refine strictMono_nat_of_lt_succ fun c => ?_
  obtain ⟨j, k, rfl, hk, h⟩ := exists_code p c
  rw [gridMag_code hk.le h, Nat.add_assoc, gridMag_code hk (h.imp_left fun h => h.trans (Nat.le_succ k))]
  exact Nat.mul_lt_mul_of_pos_right (Nat.lt_succ_self k) (Nat.two_pow_pos j)

theorem gridMag_zero (p : Nat) : gridMag p 0 = 0 := if_pos (Nat.two_pow_pos p)

/-! ## The formats -/

/-- The exponent of the smallest subnormal. -/
def FpFmt.low (f : FpFmt) : Int := 1 - (f.bias : Int) - f.mBits

/-- The exponent field and the significand of the largest finite value, and the codes of a format that are no numbers (R50). -/
structure FpFmt.Regular (f : FpFmt) : Prop where
  mBits_pos : 0 < f.mBits
  largest_gt : 2 ^ f.mBits < f.largest.1
  largest_lt : f.largest.1 < 2 ^ (f.mBits + 1)
  low_le : f.low ≤ f.largest.2
  fits : f.maxBits false < 2 ^ (f.mBits + f.eBits)
  below_inf : f.kind = .ieee → f.maxBits false < (2 ^ f.eBits - 1) * 2 ^ f.mBits
  below_nan : f.kind = .oneNan → f.maxBits false < 2 ^ (f.mBits + f.eBits) - 1
  signed : f.kind = .ieee → f.sign = true

theorem regular_of_mem {f : FpFmt} (h : f ∈ [fpF32, fpBf16, fpF16, fpE5m2, fpE4m3, fpE2m1, fpE3m5]) : f.Regular := by
  have hall : ∀ f ∈ [fpF32, fpBf16, fpF16, fpE5m2, fpE4m3, fpE2m1, fpE3m5],
      0 < f.mBits ∧ 2 ^ f.mBits < f.largest.1 ∧ f.largest.1 < 2 ^ (f.mBits + 1) ∧ f.low ≤ f.largest.2
      ∧ f.maxBits false < 2 ^ (f.mBits + f.eBits) ∧ (f.kind = .ieee → f.maxBits false < (2 ^ f.eBits - 1) * 2 ^ f.mBits)
      ∧ (f.kind = .oneNan → f.maxBits false < 2 ^ (f.mBits + f.eBits) - 1) ∧ (f.kind = .ieee → f.sign = true) := by
    decide +kernel
  obtain ⟨h1, h2, h3, h4, h5, h6, h7, h8⟩ := hall f h
  exact ⟨h1, h2, h3, h4, h5, h6, h7, h8⟩

section
variable {f : FpFmt}

/-- What a sign adds to a code. -/
def FpFmt.signed (f : FpFmt) (neg : Bool) (c : Nat) : Nat := (if neg = true then f.signBit else 0) + c

/-- The code of a significand at an exponent of its own binade, or at the lowest. -/
theorem bits_code {neg : Bool} {k : Nat} {q : Int} (hneg : neg = true → f.sign = true) (hq : f.low ≤ q)
    (h : 2 ^ f.mBits ≤ k ∨ q = f.low) : f.bits neg k q = f.signed neg ((q - f.low).toNat * 2 ^ f.mBits + k) := by
  have hbody : (if k < 2 ^ f.mBits then k else (q + f.mBits + f.bias).toNat * 2 ^ f.mBits + (k - 2 ^ f.mBits))
      = (q - f.low).toNat * 2 ^ f.mBits + k := by
    split
    · next hlt =>
      rw [h.resolve_left (by omega), Int.sub_self]
      simp
    · next hge =>
      have hexp : (q + f.mBits + f.bias).toNat = (q - f.low).toNat + 1 := by
        unfold FpFmt.low at *
        omega
      rw [hexp, Nat.add_mul]
      omega
  have hsign : (f.sign && neg) = neg := by
    cases neg
    · exact Bool.and_false _
    · rw [hneg rfl]; rfl
  rw [FpFmt.bits, hbody, hsign, FpFmt.signed]
  cases neg
  · exact (Nat.zero_add _).symm
  · rfl

theorem maxBits_code (hf : f.Regular) {neg : Bool} (hneg : neg = true → f.sign = true) :
    f.maxBits neg = f.signed neg ((f.largest.2 - f.low).toNat * 2 ^ f.mBits + f.largest.1) :=
  bits_code hneg hf.low_le (.inl hf.largest_gt.le)

theorem maxBits_signed (hf : f.Regular) {neg : Bool} (hneg : neg = true → f.sign = true) :
    f.maxBits neg = f.signed neg (f.maxBits false) := by
  rw [maxBits_code hf hneg, maxBits_code hf (neg := false) nofun]
  congr 1
  exact (Nat.zero_add _).symm

theorem top_code (hf : f.Regular) : f.maxBits false = (f.largest.2 - f.low).toNat * 2 ^ f.mBits + f.largest.1 :=
  (maxBits_code hf (neg := false) nofun).trans (Nat.zero_add _)

/-- The value of a code without a sign that is a number. -/
theorem value_number {c : Nat} (hfit : c < 2 ^ (f.mBits + f.eBits)) (hinf : f.kind = .ieee → c < (2 ^ f.eBits - 1) * 2 ^ f.mBits)
    (hnan : f.kind = .oneNan → c < 2 ^ (f.mBits + f.eBits) - 1) :
    f.value c = if c < 2 ^ f.mBits then .fin false c f.low
      else .fin false (2 ^ f.mBits + c % 2 ^ f.mBits) (((c / 2 ^ f.mBits : Nat) : Int) - f.bias - f.mBits) := by
  have hpos := Nat.two_pow_pos f.mBits
  have hexp : c / 2 ^ f.mBits % 2 ^ f.eBits = c / 2 ^ f.mBits :=
    Nat.mod_eq_of_lt (Nat.div_lt_of_lt_mul (Nat.pow_add .. ▸ hfit))
  have hsign : (f.sign && c / 2 ^ (f.mBits + f.eBits) % 2 == 1) = false := by
    rw [Nat.div_eq_of_lt hfit]
    exact Bool.and_false _
  have hnum : (if c / 2 ^ f.mBits = 0 then FVal.fin false (c % 2 ^ f.mBits) (1 - (f.bias : Int) - f.mBits)
      else .fin false (2 ^ f.mBits + c % 2 ^ f.mBits) (((c / 2 ^ f.mBits : Nat) : Int) - f.bias - f.mBits))
      = if c < 2 ^ f.mBits then .fin false c f.low
        else .fin false (2 ^ f.mBits + c % 2 ^ f.mBits) (((c / 2 ^ f.mBits : Nat) : Int) - f.bias - f.mBits) := by
    by_cases h : c < 2 ^ f.mBits
    · rw [if_pos (Nat.div_eq_of_lt h), if_pos h, Nat.mod_eq_of_lt h]
      rfl
    · rw [if_neg ((Nat.div_pos (not_lt.mp h) hpos).ne'), if_neg h]
  have hone := Nat.two_pow_pos f.eBits
  rw [FpFmt.value, hexp, hsign, hnum]
  cases hk : f.kind with
  | ieee =>
    have htop : ¬ c / 2 ^ f.mBits = 2 ^ f.eBits - 1 := (Nat.div_lt_of_lt_mul (Nat.mul_comm .. ▸ hinf hk)).ne
    exact if_neg htop
  | oneNan =>
    refine if_neg ?_
    rintro ⟨htop, hrest⟩
    have hsplit := Nat.div_add_mod' c (2 ^ f.mBits)
    have hlt := hnan hk
    rw [htop, hrest, Nat.sub_mul, Nat.one_mul, ← Nat.pow_add, Nat.add_comm f.eBits] at hsplit
    have hle : 2 ^ f.mBits ≤ 2 ^ (f.mBits + f.eBits) := Nat.pow_le_pow_right (by decide) (Nat.le_add_right _ _)
    omega
  | numbers => rfl

/-- A number is its magnitude in units of the smallest subnormal. -/
theorem value_magnitude {c : Nat} (hfit : c < 2 ^ (f.mBits + f.eBits)) (hinf : f.kind = .ieee → c < (2 ^ f.eBits - 1) * 2 ^ f.mBits)
    (hnan : f.kind = .oneNan → c < 2 ^ (f.mBits + f.eBits) - 1) :
    ∃ k q, f.value c = .fin false k q ∧ f.low ≤ q ∧ k * 2 ^ (q - f.low).toNat = gridMag f.mBits c := by
  rw [value_number hfit hinf hnan]
  split
  · next h =>
    refine ⟨_, _, rfl, le_rfl, ?_⟩
    rw [gridMag, if_pos h, Int.sub_self]
    exact Nat.mul_one c
  · next h =>
    have hexp : 1 ≤ c / 2 ^ f.mBits := Nat.div_pos (not_lt.mp h) (Nat.two_pow_pos _)
    refine ⟨_, _, rfl, ?_, ?_⟩
    · unfold FpFmt.low
      omega
    · rw [gridMag, if_neg h]
      congr 2
      unfold FpFmt.low
      omega

/-- The value of a code up to the largest number's. -/
theorem value_code (hf : f.Regular) {c : Nat} (hc : c ≤ f.maxBits false) :
    ∃ k q, f.value c = .fin false k q ∧ f.low ≤ q ∧ k * 2 ^ (q - f.low).toNat = gridMag f.mBits c :=
  value_magnitude (hc.trans_lt hf.fits) (fun h => hc.trans_lt (hf.below_inf h)) fun h => hc.trans_lt (hf.below_nan h)

/-! ## Where an exact value lies among the magnitudes -/

theorem digits_spec {m : Nat} (h : 0 < m) : 0 < digits m ∧ 2 ^ (digits m - 1) ≤ m ∧ m < 2 ^ digits m := by
  rw [digits, if_neg h.ne']
  exact ⟨Nat.succ_pos _, Nat.log2_self_le h.ne', Nat.lt_log2_self⟩

/-- The exponent of the leading digit of m · 2^e. -/
def leadExp (m : Nat) (e : Int) : Int := e + digits m - 1

/-- The binade of a value, in units of a power of two. -/
theorem leadExp_spec {m : Nat} {e scale : Int} (hm : 0 < m) (he : scale ≤ e) :
    e ≤ leadExp m e ∧ 2 ^ (leadExp m e - scale).toNat ≤ m * 2 ^ (e - scale).toNat
      ∧ m * 2 ^ (e - scale).toNat < 2 ^ (leadExp m e + 1 - scale).toNat := by
  obtain ⟨hpos, hle, hlt⟩ := digits_spec hm
  have hg := Nat.two_pow_pos (e - scale).toNat
  unfold leadExp
  refine ⟨by omega, ?_, ?_⟩
  · rw [show (e + digits m - 1 - scale).toNat = (digits m - 1) + (e - scale).toNat by omega, Nat.pow_add]
    exact Nat.mul_le_mul_right _ hle
  · rw [show (e + digits m - 1 + 1 - scale).toNat = digits m + (e - scale).toNat by omega, Nat.pow_add]
    exact Nat.mul_lt_mul_of_pos_right hlt hg

/-- The quantum to which a value is rounded: that of its precision, or of the subnormals. -/
def FpFmt.quantum (f : FpFmt) (m : Nat) (e : Int) : Int := max (leadExp m e) (1 - f.bias) - f.mBits

theorem low_le_quantum (m : Nat) (e : Int) : f.low ≤ f.quantum m e := by
  unfold FpFmt.low FpFmt.quantum
  omega

/-- The significand of the lower neighbour. -/
theorem significand_spec {m : Nat} {e scale : Int} (hm : 0 < m) (he : scale ≤ e) (hl : scale ≤ f.low) :
    let v := m * 2 ^ (e - scale).toNat
    let u := 2 ^ (f.quantum m e - scale).toNat
    v / u < 2 ^ (f.mBits + 1) ∧ (2 ^ f.mBits ≤ v / u ∨ f.quantum m e = f.low) := by
  intro v u
  obtain ⟨hlead, hge, hlt⟩ := leadExp_spec hm he
  have hu : 0 < u := Nat.two_pow_pos _
  refine ⟨?_, ?_⟩
  · rw [Nat.div_lt_iff_lt_mul hu, ← Nat.pow_add]
    refine hlt.trans_le (Nat.pow_le_pow_right (by decide) ?_)
    unfold FpFmt.quantum FpFmt.low at *
    omega
  · by_cases h : f.quantum m e = f.low
    · exact .inr h
    · left
      rw [Nat.le_div_iff_mul_le hu, ← Nat.pow_add]
      refine (Nat.pow_le_pow_right (by decide) ?_).trans hge
      unfold FpFmt.quantum FpFmt.low at *
      omega

/-- The code of the lower neighbour of m · 2^e, in units of 2^scale. -/
def FpFmt.below (f : FpFmt) (scale : Int) (m : Nat) (e : Int) : Nat :=
  (f.quantum m e - f.low).toNat * 2 ^ f.mBits + m * 2 ^ (e - scale).toNat / 2 ^ (f.quantum m e - scale).toNat

/-- The magnitudes beside a value. -/
theorem gridMag_below {m : Nat} {e scale : Int} (hm : 0 < m) (he : scale ≤ e) (hl : scale ≤ f.low) :
    let v := m * 2 ^ (e - scale).toNat
    let u := 2 ^ (f.quantum m e - scale).toNat
    let unit := 2 ^ (f.low - scale).toNat
    gridMag f.mBits (f.below scale m e) * unit = v / u * u ∧ gridMag f.mBits (f.below scale m e + 1) * unit = (v / u + 1) * u := by
  intro v u unit
  obtain ⟨hlt, hor⟩ := significand_spec (f := f) hm he hl
  have hj : 2 ^ f.mBits ≤ v / u ∨ (f.quantum m e - f.low).toNat = 0 := hor.imp_right fun h => by rw [h, Int.sub_self]; rfl
  have hu : u = 2 ^ (f.quantum m e - f.low).toNat * unit := by
    have hlow := low_le_quantum (f := f) m e
    rw [← Nat.pow_add, show (f.quantum m e - f.low).toNat + (f.low - scale).toNat = (f.quantum m e - scale).toNat by omega]
  have hstep (k : Nat) (hk : k ≤ 2 ^ (f.mBits + 1)) (h : 2 ^ f.mBits ≤ k ∨ (f.quantum m e - f.low).toNat = 0) :
      gridMag f.mBits ((f.quantum m e - f.low).toNat * 2 ^ f.mBits + k) * unit = k * u := by
    rw [gridMag_code hk h, hu, Nat.mul_assoc]
  exact ⟨hstep _ hlt.le hj, hstep _ hlt (hj.imp_left fun h => h.trans (Nat.le_succ _))⟩

/-- The only code whose magnitude and the next one enclose a value. -/
theorem below_unique {m : Nat} {e scale : Int} (hm : 0 < m) (he : scale ≤ e) (hl : scale ≤ f.low) {c : Nat}
    (h1 : gridMag f.mBits c * 2 ^ (f.low - scale).toNat ≤ m * 2 ^ (e - scale).toNat)
    (h2 : m * 2 ^ (e - scale).toNat < gridMag f.mBits (c + 1) * 2 ^ (f.low - scale).toNat) : c = f.below scale m e := by
  obtain ⟨hb1, hb2⟩ := gridMag_below (f := f) hm he hl
  have hle := Nat.div_mul_le_self (m * 2 ^ (e - scale).toNat) (2 ^ (f.quantum m e - scale).toNat)
  have hlt := Nat.lt_mul_div_succ (m * 2 ^ (e - scale).toNat) (Nat.two_pow_pos (f.quantum m e - scale).toNat)
  rw [Nat.mul_comm _ (_ + 1)] at hlt
  have hmono {a b : Nat} (h : gridMag f.mBits a * 2 ^ (f.low - scale).toNat < gridMag f.mBits b * 2 ^ (f.low - scale).toNat) : a < b :=
    (gridMag_strictMono f.mBits).lt_iff_lt.mp (Nat.lt_of_mul_lt_mul_right h)
  have hc := hmono (h1.trans_lt (hlt.trans_eq hb2.symm))
  have hb := hmono ((hb1.trans_le hle).trans_lt h2)
  omega

/-! ## The rounding of an exact value -/

/-- Whether a value is tiny: below the normal numbers after rounding to the format's precision (R55). -/
abbrev FpFmt.Tiny (f : FpFmt) (r : RMode) (neg : Bool) (m : Nat) (e : Int) : Prop :=
  leadExp m e < 1 - f.bias
    ∧ ¬ (leadExp m e = 1 - f.bias - 1 ∧ (roundQ r neg m e (leadExp m e - f.mBits)).1 = 2 ^ (f.mBits + 1))

/-- The order of significands at exponents is the order of their codes. -/
theorem exceeds_largest_iff (hf : f.Regular) {k : Nat} {q : Int} (hq : f.low ≤ q) (hk : k < 2 ^ (f.mBits + 1))
    (h : 2 ^ f.mBits ≤ k ∨ q = f.low) : (f.largest.2 < q ∨ q = f.largest.2 ∧ f.largest.1 < k)
      ↔ f.maxBits false < (q - f.low).toNat * 2 ^ f.mBits + k := by
  have hgt := hf.largest_gt
  have hlt := hf.largest_lt
  have hlow := hf.low_le
  have hdouble : 2 ^ (f.mBits + 1) = 2 * 2 ^ f.mBits := Nat.pow_succ'
  rw [top_code hf]
  have hbinade {i j : Nat} (h : i < j) : i * 2 ^ f.mBits + 2 ^ f.mBits ≤ j * 2 ^ f.mBits := by
    rw [← Nat.succ_mul]
    exact Nat.mul_le_mul_right _ h
  rcases lt_trichotomy q f.largest.2 with hc | hc | hc
  · have := hbinade (show (q - f.low).toNat < (f.largest.2 - f.low).toNat by omega)
    omega
  · rw [hc]
    omega
  · have := hbinade (show (f.largest.2 - f.low).toNat < (q - f.low).toNat by omega)
    have hge := h.resolve_right (by omega)
    omega

/-- A carry out of the significand goes to the next exponent, and names the same code. -/
theorem carry_code {k : Nat} {q : Int} (hq : f.low ≤ q) (hk : k ≤ 2 ^ (f.mBits + 1)) (hor : 2 ^ f.mBits ≤ k ∨ q = f.low) :
    ∃ k' q', (if k = 2 ^ (f.mBits + 1) then (2 ^ f.mBits, q + 1) else (k, q)) = (k', q') ∧ f.low ≤ q' ∧ k' < 2 ^ (f.mBits + 1)
      ∧ (2 ^ f.mBits ≤ k' ∨ q' = f.low) ∧ (q' - f.low).toNat * 2 ^ f.mBits + k' = (q - f.low).toNat * 2 ^ f.mBits + k := by
  have hpos := Nat.two_pow_pos f.mBits
  have hdouble : 2 ^ (f.mBits + 1) = 2 * 2 ^ f.mBits := Nat.pow_succ'
  split
  · next h =>
    refine ⟨_, _, rfl, by omega, by omega, .inl le_rfl, ?_⟩
    rw [show (q + 1 - f.low).toNat = (q - f.low).toNat + 1 by omega, Nat.add_mul]
    omega
  · exact ⟨_, _, rfl, hq, by omega, hor, rfl⟩

/-- A value is rounded to the code of one of its neighbours, or beyond the largest number (R53, R54). -/
theorem roundFin_code (hf : f.Regular) {r : RMode} {neg : Bool} {m k : Nat} {e : Int} {inexact : Bool}
    (hneg : neg = true → f.sign = true) (hround : roundQ r neg m e (f.quantum m e) = (k, inexact))
    (hk : k ≤ 2 ^ (f.mBits + 1)) (hor : 2 ^ f.mBits ≤ k ∨ f.quantum m e = f.low) :
    let code := (f.quantum m e - f.low).toNat * 2 ^ f.mBits + k
    (code ≤ f.maxBits false → (f.roundFin r neg m e).1 = f.signed neg code
        ∧ (inexact = false → (f.roundFin r neg m e).2 = 0)
        ∧ (inexact = true → f.Tiny r neg m e → (f.roundFin r neg m e).2 = flagNX + flagUF)
        ∧ (inexact = true → ¬ f.Tiny r neg m e → (f.roundFin r neg m e).2 = flagNX))
    ∧ (f.maxBits false < code →
        f.roundFin r neg m e = (if overflowsToInf r neg = true then f.infBits neg else f.maxBits neg, flagOF + flagNX)) := by
  intro code
  obtain ⟨k', q', hkq, hq', hk', hor', hcode⟩ := carry_code (low_le_quantum m e) hk hor
  have hexceeds := exceeds_largest_iff hf hq' hk' hor'
  have hbits := bits_code hneg hq' hor'
  rw [hcode] at hexceeds hbits
  have heq : f.roundFin r neg m e = if q' > f.largest.2 ∨ (q' = f.largest.2 ∧ k' > f.largest.1) then
        (if overflowsToInf r neg then f.infBits neg else f.maxBits neg, flagOF + flagNX)
      else (f.bits neg k' q', if inexact then flagNX + (if f.Tiny r neg m e then flagUF else 0) else 0) := by
    unfold FpFmt.quantum leadExp at hround hkq
    rw [FpFmt.roundFin]
    dsimp only
    rw [hround]
    dsimp only
    rw [hkq]
    rfl
  rw [heq, hbits]
  refine ⟨fun hc => ?_, fun hc => if_pos (hexceeds.mpr hc)⟩
  rw [if_neg (mt hexceeds.mp (not_lt.mpr hc))]
  refine ⟨rfl, fun h => ?_, fun h ht => ?_, fun h ht => ?_⟩
  · rw [h]
    rfl
  · rw [if_pos h, if_pos ht]
  · rw [if_pos h, if_neg ht]
    rfl

/-- Whether a value below the normal numbers is so after rounding to the format's precision, `quarter` being a quarter of the
smallest subnormal (R55). -/
def StaysBelow (r : RMode) (neg : Bool) (x quarter normal : Nat) : Prop :=
  match r with
  | .rne => x + quarter < normal
  | .rna => x + quarter < normal
  | .rtz => True
  | .rdn => neg = true → x + 2 * quarter ≤ normal
  | .rup => neg = false → x + 2 * quarter ≤ normal

theorem staysBelow_of_le {r : RMode} {neg : Bool} {x quarter normal : Nat} (hq : 0 < quarter) (h : x + 2 * quarter ≤ normal) :
    StaysBelow r neg x quarter normal := by
  cases r with
  | rne | rna => exact Nat.lt_of_lt_of_le (by omega) h
  | rtz => trivial
  | rdn | rup => exact fun _ => h

/-- In the last step below the normal numbers, what stays below is what is not rounded up. -/
theorem staysBelow_iff {r : RMode} {neg : Bool} {x quarter normal rest : Nat} {odd : Prop} (hodd : odd)
    (h : x + 2 * quarter = normal + rest) (hrest : rest < 2 * quarter) :
    StaysBelow r neg x quarter normal ↔ ¬ (rest ≠ 0 ∧ RoundsUp r neg (2 * quarter) rest odd) := by
  cases r with
  | rne =>
    simp only [StaysBelow, RoundsUp, hodd, and_true]
    omega
  | rna =>
    simp only [StaysBelow, RoundsUp]
    omega
  | rtz => simp [StaysBelow, RoundsUp]
  | rdn =>
    simp only [StaysBelow, RoundsUp, not_and']
    exact forall_congr' fun _ => by omega
  | rup =>
    simp only [StaysBelow, RoundsUp, not_and']
    exact forall_congr' fun _ => by omega

/-- A value below an even number of steps is rounded to that number where it does not stay below. -/
theorem roundQ_ne_iff_staysBelow (r : RMode) (neg : Bool) (m : Nat) {e q scale : Int} (he : scale ≤ e) (hq : scale ≤ q)
    {quarter n : Nat} (hstep : 2 ^ (q - scale).toNat = 2 * quarter) (hn : n % 2 = 0)
    (hx : m * 2 ^ (e - scale).toNat < n * (2 * quarter)) :
    (roundQ r neg m e q).1 ≠ n ↔ StaysBelow r neg (m * 2 ^ (e - scale).toNat) quarter (n * (2 * quarter)) := by
  have hround := roundQ_scaled r neg m he hq
  rw [hstep] at hround
  obtain ⟨hup, hdown⟩ := hround
  generalize m * 2 ^ (e - scale).toNat = x at *
  have hquarter : 0 < 2 * quarter := hstep ▸ Nat.two_pow_pos _
  have hsplit := Nat.div_add_mod' x (2 * quarter)
  have hrest := Nat.mod_lt x hquarter
  have hlast : x / (2 * quarter) < n := Nat.div_lt_of_lt_mul (Nat.mul_comm .. ▸ hx)
  by_cases ha : x / (2 * quarter) + 1 = n
  · have hx' : x + 2 * quarter = n * (2 * quarter) + x % (2 * quarter) := by
      rw [← ha, Nat.add_mul, Nat.one_mul]
      omega
    rw [staysBelow_iff (show x / (2 * quarter) % 2 = 1 by omega) hx' hrest]
    constructor
    · exact fun hne hc => hne (by rw [hup hc]; exact ha)
    · exact fun hc hk => hlast.ne (by rw [← hk, hdown hc])
  · have hle : x + 2 * quarter ≤ n * (2 * quarter) := by
      have := Nat.mul_le_mul_right (2 * quarter) (show x / (2 * quarter) + 2 ≤ n by omega)
      rw [Nat.add_mul] at this
      omega
    refine iff_of_true ?_ (staysBelow_of_le (by omega) hle)
    by_cases hc : x % (2 * quarter) ≠ 0 ∧ RoundsUp r neg (2 * quarter) (x % (2 * quarter)) (x / (2 * quarter) % 2 = 1)
    · rw [hup hc]
      exact ha
    · rw [hdown hc]
      exact hlast.ne

/-- Tininess in units of a power of two. -/
theorem tiny_iff {r : RMode} {neg : Bool} {m : Nat} {e scale : Int} (hm : 0 < m) (he : scale ≤ e) (hl : scale ≤ f.low - 2) :
    let x := m * 2 ^ (e - scale).toNat
    let normal := 2 ^ (1 - (f.bias : Int) - scale).toNat
    f.Tiny r neg m e ↔ x < normal ∧ StaysBelow r neg x (2 ^ (f.low - 2 - scale).toNat) normal := by
  intro x normal
  obtain ⟨hlead, hge, hlt⟩ := leadExp_spec hm he
  have hquarter := Nat.two_pow_pos (f.low - 2 - scale).toNat
  have hemin : 1 - (f.bias : Int) = f.low + f.mBits := by unfold FpFmt.low; omega
  have hstep : 2 ^ (f.low - 1 - scale).toNat = 2 * 2 ^ (f.low - 2 - scale).toNat := by
    rw [← Nat.pow_succ', Nat.succ_eq_add_one, show (f.low - 2 - scale).toNat + 1 = (f.low - 1 - scale).toNat by omega]
  have hnormal : normal = 2 ^ (f.mBits + 1) * 2 ^ (f.low - 1 - scale).toNat := by
    rw [← Nat.pow_add, show f.mBits + 1 + (f.low - 1 - scale).toNat = (1 - (f.bias : Int) - scale).toNat by omega]
  generalize 2 ^ (f.low - 2 - scale).toNat = quarter at hquarter hstep
  rcases lt_trichotomy (leadExp m e) (1 - f.bias - 1) with h | h | h
  · -- below half the normal numbers
    have hhalf : x + 2 * quarter ≤ normal := by
      have hx : x < 2 ^ f.mBits * 2 ^ (f.low - 1 - scale).toNat := by
        rw [← Nat.pow_add]
        exact hlt.trans_le (Nat.pow_le_pow_right (by decide) (by omega))
      have hone : 2 ^ (f.low - 1 - scale).toNat ≤ 2 ^ f.mBits * 2 ^ (f.low - 1 - scale).toNat :=
        Nat.le_mul_of_pos_left _ (Nat.two_pow_pos _)
      rw [Nat.pow_succ', Nat.mul_assoc] at hnormal
      omega
    exact iff_of_true ⟨by omega, fun hc => h.ne hc.1⟩ ⟨by omega, staysBelow_of_le hquarter hhalf⟩
  · -- in the binade below them
    have hx : x < normal := by
      refine hlt.trans_eq ?_
      rw [h]
      congr 2
      omega
    have hprec : leadExp m e - f.mBits = f.low - 1 := by omega
    have htiny : f.Tiny r neg m e ↔ (roundQ r neg m e (f.low - 1)).1 ≠ 2 ^ (f.mBits + 1) := by
      rw [← hprec]
      exact ⟨fun ht hc => ht.2 ⟨h, hc⟩, fun hc => ⟨by omega, fun ht => hc ht.2⟩⟩
    rw [hstep] at hnormal
    rw [htiny, and_iff_right hx, hnormal]
    exact roundQ_ne_iff_staysBelow r neg m he (by omega) hstep (by rw [Nat.pow_succ', Nat.mul_mod_right]) (hnormal ▸ hx)
  · -- a normal number
    have hx : normal ≤ x := (Nat.pow_le_pow_right (by decide) (by omega)).trans hge
    exact iff_of_false (fun hc => by have := hc.1; omega) fun hc => by have := hc.1; omega

/-- Whether a mode takes a value between two neighbours to the upper one (R53). -/
def TakesUpper (r : RMode) (neg : Bool) (lower upper x : Nat) (odd : Prop) : Prop :=
  match r with
  | .rne => lower + upper < 2 * x ∨ lower + upper = 2 * x ∧ odd
  | .rna => lower + upper ≤ 2 * x
  | .rtz => False
  | .rdn => neg = true
  | .rup => neg = false

theorem takesUpper_iff {r : RMode} {neg : Bool} {lower u x : Nat} {odd : Prop} (h : lower ≤ x) :
    TakesUpper r neg lower (lower + u) x odd ↔ RoundsUp r neg u (x - lower) odd := by
  have hlt : lower + (lower + u) < 2 * x ↔ u < 2 * (x - lower) := by omega
  have heq : lower + (lower + u) = 2 * x ↔ u = 2 * (x - lower) := by omega
  have hle : lower + (lower + u) ≤ 2 * x ↔ u ≤ 2 * (x - lower) := by omega
  cases r <;> simp only [TakesUpper, RoundsUp, hlt, heq, hle]

/-- What an overflow delivers (R54). -/
theorem overflow_delivers (hf : f.Regular) {neg : Bool} (r : RMode) (hneg : neg = true → f.sign = true) :
    (f.kind = .ieee ∧ overflowsToInf r neg = true →
      (if overflowsToInf r neg = true then f.infBits neg else f.maxBits neg) = f.signed neg ((2 ^ f.eBits - 1) * 2 ^ f.mBits))
    ∧ (¬ (f.kind = .ieee ∧ overflowsToInf r neg = true) →
      (if overflowsToInf r neg = true then f.infBits neg else f.maxBits neg) = f.signed neg (f.maxBits false)) := by
  constructor
  · rintro ⟨hk, ho⟩
    rw [if_pos ho, FpFmt.infBits, hk]
    rfl
  · intro h
    rw [← maxBits_signed hf hneg]
    split
    · next ho =>
      have hk : f.kind ≠ .ieee := fun hk => h ⟨hk, ho⟩
      rw [FpFmt.infBits]
      cases hc : f.kind with
      | ieee => exact absurd hc hk
      | oneNan => rfl
      | numbers => rfl
    · rfl

theorem deliver_nonzero {r : RMode} {neg : Bool} {m : Nat} (e : Int) (hm : m ≠ 0) (hneg : neg = true → f.sign = true) :
    f.deliver r (.fin neg m e) = f.roundFin r neg m e := by
  rw [FpFmt.deliver, if_neg hm, if_neg]
  cases neg with
  | false => simp
  | true => simp [hneg rfl]

/-- What an inexact value becomes at a code: the code itself, or beyond the largest number what an overflow delivers. -/
def FpFmt.Lands (f : FpFmt) (r : RMode) (neg : Bool) (m : Nat) (e : Int) (c : Nat) : Prop :=
  (c ≤ f.maxBits false → (f.roundFin r neg m e).1 = f.signed neg c
      ∧ (f.Tiny r neg m e → (f.roundFin r neg m e).2 = flagNX + flagUF) ∧ (¬ f.Tiny r neg m e → (f.roundFin r neg m e).2 = flagNX))
  ∧ (f.maxBits false < c →
      f.roundFin r neg m e = (if overflowsToInf r neg = true then f.infBits neg else f.maxBits neg, flagOF + flagNX))

/-- The step above the largest number is as long as the one below it. -/
theorem gridMag_top (hf : f.Regular) :
    2 * gridMag f.mBits (f.maxBits false) - gridMag f.mBits (f.maxBits false - 1) = gridMag f.mBits (f.maxBits false + 1) := by
  have hgt := hf.largest_gt
  have hlt := hf.largest_lt
  rw [top_code hf, Nat.add_sub_assoc (by omega), Nat.add_assoc, gridMag_code hlt.le (.inl hgt.le),
    gridMag_code (by omega) (.inl (by omega)), gridMag_code hlt (.inl (by omega)), ← Nat.mul_assoc, ← Nat.sub_mul]
  congr 1
  omega

/-- The parity of a code is that of its significand. -/
theorem below_mod_two (hf : f.Regular) (scale : Int) (m : Nat) (e : Int) :
    f.below scale m e % 2 = m * 2 ^ (e - scale).toNat / 2 ^ (f.quantum m e - scale).toNat % 2 := by
  obtain ⟨n, hn⟩ := Nat.exists_eq_add_of_lt hf.mBits_pos
  have heven : (f.quantum m e - f.low).toNat * 2 ^ f.mBits = 2 * ((f.quantum m e - f.low).toNat * 2 ^ n) := by
    rw [hn, Nat.zero_add, Nat.pow_succ]
    ring
  rw [FpFmt.below, heven, Nat.mul_add_mod]

/-- An exact value is rounded to its lower neighbour or to the next code. -/
theorem roundFin_neighbours (hf : f.Regular) {r : RMode} {neg : Bool} {m : Nat} {e scale : Int} (hneg : neg = true → f.sign = true)
    (hm : 0 < m) (he : scale ≤ e) (hl : scale ≤ f.low) :
    let x := m * 2 ^ (e - scale).toNat
    let u := 2 ^ (f.quantum m e - scale).toNat
    let c := f.below scale m e
    (x % u = 0 → c ≤ f.maxBits false → f.roundFin r neg m e = (f.signed neg c, 0))
    ∧ (x % u ≠ 0 → (RoundsUp r neg u (x % u) (x / u % 2 = 1) → f.Lands r neg m e (c + 1))
      ∧ (¬ RoundsUp r neg u (x % u) (x / u % 2 = 1) → f.Lands r neg m e c))
    ∧ (f.maxBits false < c → f.Lands r neg m e (f.maxBits false + 1)) := by
  intro x u c
  obtain ⟨hlt, hor⟩ := significand_spec (f := f) hm he hl
  obtain ⟨hup, hdown⟩ := roundQ_scaled r neg m he (hl.trans (low_le_quantum m e))
  have hlower (inexact : Bool) (h : roundQ r neg m e (f.quantum m e) = (x / u, inexact)) := roundFin_code hf hneg h hlt.le hor
  have hupper (inexact : Bool) (h : roundQ r neg m e (f.quantum m e) = (x / u + 1, inexact)) :=
    roundFin_code hf hneg h hlt (hor.imp_left fun h => h.trans (Nat.le_succ _))
  refine ⟨fun hx hc => ?_, fun hx => ⟨fun hr => ?_, fun hr => ?_⟩, fun hc => ⟨fun h => by omega, fun _ => ?_⟩⟩
  · obtain ⟨hval, hflags, -⟩ := (hlower _ (hdown fun h => h.1 hx)).1 hc
    exact Prod.ext hval (hflags (by rw [bne_eq_false_iff_eq]; exact hx))
  · obtain ⟨hin, hout⟩ := hupper _ (hup ⟨hx, hr⟩)
    refine ⟨fun hc => ?_, hout⟩
    obtain ⟨hval, -, htiny, hnormal⟩ := hin hc
    exact ⟨hval, htiny (bne_iff_ne.mpr hx), hnormal (bne_iff_ne.mpr hx)⟩
  · obtain ⟨hin, hout⟩ := hlower _ (hdown fun h => hr h.2)
    refine ⟨fun hc => ?_, hout⟩
    obtain ⟨hval, -, htiny, hnormal⟩ := hin hc
    exact ⟨hval, htiny (bne_iff_ne.mpr hx), hnormal (bne_iff_ne.mpr hx)⟩
  · by_cases h : x % u ≠ 0 ∧ RoundsUp r neg u (x % u) (x / u % 2 = 1)
    · exact (hupper _ (hup h)).2 (hc.trans (Nat.lt_succ_self c))
    · exact (hlower _ (hdown h)).2 hc

end

end Sys2Proof.Machine
end

section

open Sys2Proof Sys2Proof.Machine

/-- The rounding of an exact value that is not zero. -/
theorem roundingRule : Sys2Proof.Parts.RoundingRule := by
  intro f r neg m e hmem hm hneg low scale x mag top v normal quarter tiny up signed infinite result lands
  have hf := regular_of_mem hmem
  have he : scale ≤ e := min_le_left _ _
  have hl : scale ≤ f.low - 2 := min_le_right _ _
  have hl' : scale ≤ f.low := by omega
  have hresult : result = f.roundFin r neg m e := deliver_nonzero e hm.ne' hneg
  have hmag (c : Nat) (hc : c ≤ top) : mag c = gridMag f.mBits c * 2 ^ (f.low - scale).toNat := by
    obtain ⟨k, q, hval, hq, hk⟩ := value_code hf hc
    simp only [mag, hval]
    rw [← hk, Nat.mul_assoc, ← Nat.pow_add, show (q - f.low).toNat + (f.low - scale).toNat = (q - scale).toNat by omega]
  have hv (c : Nat) (hc : c ≤ top + 1) : v c = gridMag f.mBits c * 2 ^ (f.low - scale).toNat := by
    rcases hc.lt_or_eq with h | rfl
    · exact (if_pos (Nat.le_of_lt_succ h)).trans (hmag c (Nat.le_of_lt_succ h))
    · refine (if_neg (by omega)).trans ?_
      rw [hmag top le_rfl, hmag (top - 1) (Nat.sub_le _ _), ← gridMag_top hf, ← Nat.mul_assoc, ← Nat.sub_mul]
  have htiny : f.Tiny r neg m e ↔ tiny := tiny_iff hm he hl
  have hinf : infinite ↔ f.kind = .ieee ∧ overflowsToInf r neg = true :=
    and_congr_right fun _ => by cases r <;> simp [overflowsToInf]
  have hlands (c : Nat) (h : f.Lands r neg m e c) : lands c := by
    obtain ⟨hin, hout⟩ := h
    obtain ⟨htoinf, htomax⟩ := overflow_delivers hf r hneg
    rw [← hinf] at htoinf htomax
    rw [htiny] at hin
    simp only [lands, hresult]
    exact ⟨hin, fun hc => ⟨fun h => by rw [hout hc, htoinf h]; rfl, fun h => by rw [hout hc, htomax h]; rfl⟩⟩
  obtain ⟨hb1, hb2⟩ := gridMag_below (f := f) hm he hl'
  obtain ⟨hexact, hinexact, hover⟩ := roundFin_neighbours hf (r := r) hneg hm he hl'
  have hsplit := Nat.div_add_mod' x (2 ^ (f.quantum m e - scale).toNat)
  have hmono {a b : Nat} (h : a < b) : gridMag f.mBits a * 2 ^ (f.low - scale).toNat < gridMag f.mBits b * 2 ^ (f.low - scale).toNat :=
    Nat.mul_lt_mul_of_pos_right (gridMag_strictMono _ h) (Nat.two_pow_pos _)
  refine ⟨fun c hc hx => ?_, fun c hc h1 h2 => ?_, fun hx => hlands _ (hover ?_)⟩
  · rw [hv c (by omega)] at hx
    obtain rfl := below_unique hm he hl' hx.le (hx.symm.trans_lt (hmono (Nat.lt_succ_self c)))
    rw [hresult]
    rw [hb1] at hx
    exact hexact (Nat.mod_eq_zero_of_dvd (Dvd.intro_left _ hx)) hc
  · rw [hv c (by omega)] at h1
    rw [hv (c + 1) (by omega)] at h2
    obtain rfl := below_unique hm he hl' h1.le h2
    rw [hb1] at h1
    have hup : up (f.below scale m e) ↔ RoundsUp r neg (2 ^ (f.quantum m e - scale).toNat) (x % 2 ^ (f.quantum m e - scale).toNat)
        (x / 2 ^ (f.quantum m e - scale).toNat % 2 = 1) := by
      have htakes : up (f.below scale m e) ↔ TakesUpper r neg (v (f.below scale m e)) (v (f.below scale m e + 1)) x
        (f.below scale m e % 2 = 1) := Iff.rfl
      rw [htakes, hv _ (by omega), hv _ (by omega), hb1, hb2, Nat.add_mul, Nat.one_mul, takesUpper_iff h1.le, below_mod_two hf,
        ← Nat.mod_eq_sub_div_mul]
    obtain ⟨hupper, hlower⟩ := hinexact fun hz => h1.ne (by rw [hz, Nat.add_zero] at hsplit; exact hsplit)
    rw [hup]
    exact ⟨fun h => hlands _ (hupper h), fun h => hlands _ (hlower h)⟩
  · rw [hv _ le_rfl] at hx
    have hlt : x < gridMag f.mBits (f.below scale m e + 1) * 2 ^ (f.low - scale).toNat := by
      rw [hb2, Nat.mul_comm]
      exact Nat.lt_mul_div_succ _ (Nat.two_pow_pos _)
    have hcodes := (gridMag_strictMono f.mBits).lt_iff_lt.mp (Nat.lt_of_mul_lt_mul_right (hx.trans_lt hlt))
    exact Nat.lt_of_succ_lt_succ hcodes

end

section
/-!
Float operations: their special cases, and the order of the numbers (R52 … R55, R155 … R158, R166).
-/

namespace Sys2Proof.Machine
open Sys2Proof.Safety

/-! ## Lane-wise float instructions -/

/-- A lane-wise float instruction of two operands (R155, R157). -/
theorem laneWise_vFlt {i : Instr} {s : State} {g : Ctl} {t : FType} {d a : VReg} {b : Slot → Nat → Nat} {f : Slot → Nat → Nat → Nat × Nat}
    (hg : Issues i g) (hi : exec i s = vFlt g t d a b s f) :
    LaneWise i s g t.width d (fun k => (f s.sl (lane t.width k (s.sl.vr a)) (b s.sl k)).1)
      fun k => (f s.sl (lane t.width k (s.sl.vr a)) (b s.sl k)).2 :=
  laneWise_vecOp (res := fun k => f s.sl (lane t.width k (s.sl.vr a)) (b s.sl k)) hg hi rfl

/-- `vfma` adds the destination (R156). -/
theorem laneWise_vFma {i : Instr} {s : State} {g : Ctl} {t : FType} {d a : VReg} {b : Slot → Nat → Nat} {r : RSel}
    (hg : Issues i g) (hi : exec i s = vFma g t d a b r s) :
    let res (k : Nat) : Nat × Nat :=
      (fpOf t).fma (s.sl.rmode r) (lane t.width k (s.sl.vr a)) (b s.sl k) (lane t.width k (s.sl.vr d))
    LaneWise i s g t.width d (fun k => (res k).1) fun k => (res k).2 :=
  laneWise_vecOp hg hi rfl

/-! ## The kinds of values -/

theorem fvIsInf_iff (v : FVal) : fvIsInf v = true ↔ v = .inf (fvSign v) := by cases v <;> simp [fvIsInf, fvSign]

theorem not_nan_of_inf {v : FVal} (h : fvIsInf v = true) : ¬ fvIsNan v = true := by
  rw [(fvIsInf_iff v).mp h]
  exact Bool.false_ne_true

/-- A value that is neither a NaN nor an infinity. -/
theorem finite_of_not {v : FVal} (hi : ¬ fvIsInf v = true) (hn : ¬ fvIsNan v = true) : ∃ m e, v = .fin (fvSign v) m e := by
  cases v with
  | nan s => exact absurd rfl hn
  | inf n => exact absurd rfl hi
  | fin n m e => exact ⟨m, e, rfl⟩

theorem zeroTimesInf_iff (x y : FVal) : zeroTimesInf x y = true
    ↔ (fvIsInf x = true ∧ fvIsZero y = true) ∨ (fvIsZero x = true ∧ fvIsInf y = true) := by
  rw [zeroTimesInf, Bool.or_eq_true, Bool.and_eq_true, Bool.and_eq_true]

theorem kinds_of_nan {v : FVal} (h : fvIsNan v = true) : fvIsInf v = false ∧ fvIsZero v = false := by
  cases v with
  | nan s => exact ⟨rfl, rfl⟩
  | inf n => cases h
  | fin n m e => cases h

/-- A NaN is no factor of 0 · ∞. -/
theorem zeroTimesInf_nan {x y : FVal} (h : fvIsNan x = true ∨ fvIsNan y = true) : zeroTimesInf x y = false := by
  rcases h with h | h
  all_goals
    obtain ⟨hi, hz⟩ := kinds_of_nan h
    simp [zeroTimesInf, hi, hz]

/-- The product with an infinity (R155). -/
theorem fvMul_inf {x y : FVal} (hx : ¬ fvIsNan x = true) (hy : ¬ fvIsNan y = true) (h : fvIsInf x = true ∨ fvIsInf y = true) :
    fvMul x y = .inf (fvSign x != fvSign y) := by
  rcases h with h | h
  · rw [(fvIsInf_iff x).mp h]
    cases y with
    | nan s => exact absurd rfl hy
    | inf k => rfl
    | fin k m e => rfl
  · rw [(fvIsInf_iff y).mp h]
    cases x with
    | nan s => exact absurd rfl hx
    | inf n => rfl
    | fin n m e => rfl

/-! ## Special cases -/

section
variable {f : FpFmt}

/-- NV where an operand is a signalling NaN (R52). -/
theorem snanFlag_eq (l : List Nat) :
    snanFlag (l.map f.value) = if ∃ x ∈ l, f.value x = .nan true then flagNV else 0 := by
  refine if_congr ?_ rfl rfl
  rw [List.any_map, List.any_eq_true]
  refine exists_congr fun x => and_congr_right fun _ => ?_
  cases h : f.value x <;> simp [fvIsSnan, h]

variable (r : RMode) {a b c : Nat}

theorem add_nan (h : fvIsNan (f.value a) = true ∨ fvIsNan (f.value b) = true) :
    f.add r a b = (f.qnan, snanFlag [f.value a, f.value b]) := by
  rw [FpFmt.add]
  exact if_pos ((Bool.or_eq_true _ _).mpr h)

theorem sub_nan (h : fvIsNan (f.value a) = true ∨ fvIsNan (f.value b) = true) :
    f.sub r a b = (f.qnan, snanFlag [f.value a, f.value b]) := by
  rw [FpFmt.sub]
  exact if_pos ((Bool.or_eq_true _ _).mpr h)

theorem mul_nan (h : fvIsNan (f.value a) = true ∨ fvIsNan (f.value b) = true) :
    f.mul r a b = (f.qnan, snanFlag [f.value a, f.value b]) := by
  rw [FpFmt.mul]
  exact (if_neg (by rw [zeroTimesInf_nan h]; decide)).trans (if_pos ((Bool.or_eq_true _ _).mpr h))

theorem mul_invalid (h : zeroTimesInf (f.value a) (f.value b) = true) : f.mul r a b = (f.qnan, flagNV) := by
  rw [FpFmt.mul]
  exact if_pos h

theorem fma_invalid (h : zeroTimesInf (f.value a) (f.value b) = true) : f.fma r a b c = (f.qnan, flagNV) := by
  rw [FpFmt.fma]
  exact if_pos h

theorem fma_nan (h : ¬ zeroTimesInf (f.value a) (f.value b) = true)
    (hn : fvIsNan (f.value a) = true ∨ fvIsNan (f.value b) = true ∨ fvIsNan (f.value c) = true) :
    f.fma r a b c = (f.qnan, snanFlag [f.value a, f.value b, f.value c]) := by
  rw [FpFmt.fma]
  refine (if_neg h).trans (if_pos ?_)
  rw [Bool.or_eq_true, Bool.or_eq_true]
  exact or_assoc.mpr hn

theorem add_sum (ha : ¬ fvIsNan (f.value a) = true) (hb : ¬ fvIsNan (f.value b) = true) :
    f.add r a b = f.sum r (f.value a) (f.value b) := by
  rw [FpFmt.add]
  exact if_neg (by rw [Bool.or_eq_true]; exact not_or.mpr ⟨ha, hb⟩)

theorem sub_sum (ha : ¬ fvIsNan (f.value a) = true) (hb : ¬ fvIsNan (f.value b) = true) :
    f.sub r a b = f.sum r (f.value a) (fvNeg (f.value b)) := by
  rw [FpFmt.sub]
  exact if_neg (by rw [Bool.or_eq_true]; exact not_or.mpr ⟨ha, hb⟩)

theorem mul_product (h : ¬ zeroTimesInf (f.value a) (f.value b) = true) (ha : ¬ fvIsNan (f.value a) = true)
    (hb : ¬ fvIsNan (f.value b) = true) : f.mul r a b = f.deliver r (fvMul (f.value a) (f.value b)) := by
  rw [FpFmt.mul]
  exact (if_neg h).trans (if_neg (by rw [Bool.or_eq_true]; exact not_or.mpr ⟨ha, hb⟩))

theorem fma_sum (h : ¬ zeroTimesInf (f.value a) (f.value b) = true) (ha : ¬ fvIsNan (f.value a) = true)
    (hb : ¬ fvIsNan (f.value b) = true) (hc : ¬ fvIsNan (f.value c) = true) :
    f.fma r a b c = f.sum r (fvMul (f.value a) (f.value b)) (f.value c) := by
  rw [FpFmt.fma]
  refine (if_neg h).trans (if_neg ?_)
  rw [Bool.or_eq_true, Bool.or_eq_true]
  exact not_or.mpr ⟨not_or.mpr ⟨ha, hb⟩, hc⟩

theorem pick_nan_left (larger : Bool) (ha : fvIsNan (f.value a) = true) (hb : ¬ fvIsNan (f.value b) = true) :
    f.pick larger a b = (b, snanFlag [f.value a]) := by
  rw [FpFmt.pick]
  exact (if_neg (by rw [Bool.and_eq_true]; exact fun h => hb h.2)).trans (if_pos ha)

theorem pick_nan_right (larger : Bool) (ha : ¬ fvIsNan (f.value a) = true) (hb : fvIsNan (f.value b) = true) :
    f.pick larger a b = (a, snanFlag [f.value b]) := by
  rw [FpFmt.pick]
  exact (if_neg (by rw [Bool.and_eq_true]; exact fun h => ha h.1)).trans ((if_neg ha).trans (if_pos hb))

theorem pick_nan_both (larger : Bool) (ha : fvIsNan (f.value a) = true) (hb : fvIsNan (f.value b) = true) :
    f.pick larger a b = (f.qnan, snanFlag [f.value a, f.value b]) := by
  rw [FpFmt.pick]
  exact if_pos ((Bool.and_eq_true _ _).mpr ⟨ha, hb⟩)

theorem abs_nan (h : fvIsNan (f.value a) = true) : f.abs a = (f.qnan, snanFlag [f.value a]) := by
  rw [FpFmt.abs]
  exact if_pos h

theorem neg_nan (h : fvIsNan (f.value a) = true) : f.neg a = (f.qnan, snanFlag [f.value a]) := by
  rw [FpFmt.neg]
  exact if_pos h

theorem abs_number (h : ¬ fvIsNan (f.value a) = true) : f.abs a = (a % f.signBit, 0) := by
  rw [FpFmt.abs]
  exact if_neg h

theorem neg_number (ha : a < 2 * f.signBit) (h : ¬ fvIsNan (f.value a) = true) :
    f.neg a = ((a + f.signBit) % (2 * f.signBit), 0) := by
  have hpos : 0 < f.signBit := Nat.two_pow_pos _
  rw [FpFmt.neg]
  refine (if_neg h).trans (congrArg (·, 0) ?_)
  rcases lt_or_ge a f.signBit with hlt | hge
  · rw [Nat.div_eq_of_lt hlt, if_neg (by decide), Nat.mod_eq_of_lt hlt, Nat.mod_eq_of_lt (by omega)]
  · have hdiv : a / f.signBit = 1 := Nat.div_eq_of_lt_le (by omega) (by omega)
    have hmod : a % f.signBit = a - f.signBit := by rw [Nat.mod_eq_sub_mod hge, Nat.mod_eq_of_lt (by omega)]
    rw [hdiv, if_pos (by decide), hmod, Nat.mod_eq_sub_mod (by omega), Nat.mod_eq_of_lt (by omega)]
    omega

theorem sum_inf_inf (n k : Bool) : f.sum r (.inf n) (.inf k) = if n = k then (f.infBits n, 0) else (f.qnan, flagNV) := by
  cases n <;> cases k <;> rfl

theorem sum_inf_fin (n k : Bool) (m : Nat) (e : Int) : f.sum r (.inf n) (.fin k m e) = (f.infBits n, 0) := rfl

theorem sum_fin_inf (n k : Bool) (m : Nat) (e : Int) : f.sum r (.fin k m e) (.inf n) = (f.infBits n, 0) := rfl

end

/-! ## Codes with a sign, infinities and NaNs -/

/-- A format of Tf: one with a sign, infinities and NaNs (R50). -/
structure FpFmt.Ieee (f : FpFmt) : Prop where
  sign : f.sign = true
  kind : f.kind = .ieee
  eBits_pos : 0 < f.eBits

theorem ieee_fpOf (t : FType) : (fpOf t).Ieee := by cases t <;> exact ⟨rfl, rfl, by decide⟩

/-- The sign is the highest bit of an element. -/
theorem signBit_fpOf (t : FType) : 2 ^ (t.width - 1) = (fpOf t).signBit ∧ 2 ^ t.width = 2 * (fpOf t).signBit := by
  cases t <;> decide

section
variable {f : FpFmt}

/-- The code of the infinities, without a sign. -/
def FpFmt.infCode (f : FpFmt) : Nat := (2 ^ f.eBits - 1) * 2 ^ f.mBits

theorem infCode_lt : f.infCode < f.signBit := by
  have hpos := Nat.two_pow_pos f.eBits
  rw [FpFmt.infCode, FpFmt.signBit, Nat.add_comm, Nat.pow_add]
  exact Nat.mul_lt_mul_of_pos_right (by omega) (Nat.two_pow_pos _)

theorem infCode_pos (hf : f.Ieee) : 0 < f.infCode := by
  have htwo : 2 ^ 1 ≤ 2 ^ f.eBits := Nat.pow_le_pow_right (by decide) hf.eBits_pos
  exact Nat.mul_pos (by omega) (Nat.two_pow_pos _)

theorem infBits_eq (hf : f.Ieee) (neg : Bool) : f.infBits neg = f.signed neg f.infCode := by
  rw [FpFmt.infBits, hf.kind]
  rfl

/-- The sign bit of a code negates its value. -/
theorem value_signed (hf : f.Ieee) (neg : Bool) {c : Nat} (hc : c < f.signBit) :
    f.value (f.signed neg c) = if neg = true then fvNeg (f.value c) else f.value c := by
  cases neg with
  | false => exact congrArg f.value (Nat.zero_add c)
  | true =>
    have hsplit : f.signBit = 2 ^ f.mBits * 2 ^ f.eBits := Nat.pow_add ..
    have hpos := Nat.two_pow_pos f.mBits
    have hmod : (f.signBit + c) % 2 ^ f.mBits = c % 2 ^ f.mBits := by rw [hsplit, Nat.mul_add_mod]
    have hdiv : (f.signBit + c) / 2 ^ f.mBits % 2 ^ f.eBits = c / 2 ^ f.mBits % 2 ^ f.eBits := by
      rw [hsplit, Nat.mul_add_div hpos, Nat.add_mod_left]
    have hhigh : (f.signBit + c) / 2 ^ (f.mBits + f.eBits) = 1 := by
      change (f.signBit + c) / f.signBit = 1
      rw [Nat.add_div_left _ (show 0 < f.signBit from Nat.two_pow_pos _), Nat.div_eq_of_lt hc]
    have hlow : c / 2 ^ (f.mBits + f.eBits) = 0 := Nat.div_eq_of_lt hc
    rw [if_pos rfl, FpFmt.signed, if_pos rfl, FpFmt.value, FpFmt.value, hmod, hdiv, hhigh, hlow, hf.sign, hf.kind]
    dsimp only
    split_ifs <;> rfl

theorem value_infCode (hf : f.Ieee) : f.value f.infCode = .inf false := by
  have hpos := Nat.two_pow_pos f.eBits
  have hdiv : f.infCode / 2 ^ f.mBits = 2 ^ f.eBits - 1 := Nat.mul_div_cancel _ (Nat.two_pow_pos _)
  have hmod : f.infCode % 2 ^ f.mBits = 0 := Nat.mul_mod_left _ _
  have hhigh : f.infCode / 2 ^ (f.mBits + f.eBits) = 0 := Nat.div_eq_of_lt infCode_lt
  rw [FpFmt.value, hdiv, hmod, hhigh, hf.kind, hf.sign, Nat.mod_eq_of_lt (by omega)]
  dsimp only
  rw [if_pos rfl, if_pos rfl]
  rfl

theorem value_above_infCode (hf : f.Ieee) {c : Nat} (h : f.infCode < c) (hc : c < f.signBit) : fvIsNan (f.value c) = true := by
  have hpos := Nat.two_pow_pos f.mBits
  have hone := Nat.two_pow_pos f.eBits
  have hdiv : c / 2 ^ f.mBits = 2 ^ f.eBits - 1 := by
    refine Nat.le_antisymm ?_ ((Nat.le_div_iff_mul_le hpos).mpr h.le)
    have := Nat.div_lt_of_lt_mul (show c < 2 ^ f.mBits * 2 ^ f.eBits from hc.trans_eq (Nat.pow_add ..))
    omega
  have hmod : c % 2 ^ f.mBits ≠ 0 := by
    intro hz
    have hsplit := Nat.div_add_mod' c (2 ^ f.mBits)
    rw [hdiv, hz] at hsplit
    exact h.ne hsplit
  rw [FpFmt.value, hdiv, hf.kind, Nat.mod_eq_of_lt (by omega)]
  dsimp only
  rw [if_pos rfl, if_neg hmod]
  rfl

/-- An element that is no NaN: its sign and its code, and the infinity or the number that it is. -/
theorem number_cases (hf : f.Ieee) {x : Nat} (hx : x < 2 * f.signBit) (hn : ¬ fvIsNan (f.value x) = true) :
    ∃ n c, x = f.signed n c ∧ c < f.signBit ∧ ((c = f.infCode ∧ f.value x = .inf n)
      ∨ (c < f.infCode ∧ ∃ k q, f.value x = .fin n k q ∧ f.low ≤ q ∧ k * 2 ^ (q - f.low).toNat = gridMag f.mBits c)) := by
  obtain ⟨n, c, rfl, hc⟩ : ∃ n c, x = f.signed n c ∧ c < f.signBit := by
    by_cases h : x < f.signBit
    · exact ⟨false, x, (Nat.zero_add x).symm, h⟩
    · exact ⟨true, x - f.signBit, (Nat.add_sub_cancel' (not_lt.mp h)).symm, by omega⟩
  refine ⟨n, c, rfl, hc, ?_⟩
  have hval := value_signed hf n hc
  rcases lt_trichotomy c f.infCode with h | h | h
  · obtain ⟨k, q, hk, hq, hmag⟩ := value_magnitude (f := f) hc (fun _ => h) fun h => by rw [hf.kind] at h; cases h
    refine .inr ⟨h, k, q, ?_, hq, hmag⟩
    rw [hval, hk]
    cases n <;> rfl
  · refine .inl ⟨h, ?_⟩
    rw [hval, h, value_infCode hf]
    cases n <;> rfl
  · refine absurd ?_ hn
    have hnan := value_above_infCode hf h hc
    rw [hval]
    cases hv : f.value c with
    | nan s => cases n <;> rfl
    | inf k => rw [hv] at hnan; cases hnan
    | fin k m e => rw [hv] at hnan; cases hnan

theorem signed_mod (n : Bool) {c : Nat} (hc : c < f.signBit) : f.signed n c % f.signBit = c := by
  cases n with
  | false => exact (congrArg (· % _) (Nat.zero_add c)).trans (Nat.mod_eq_of_lt hc)
  | true => exact (Nat.add_mod_left _ _).trans (Nat.mod_eq_of_lt hc)

/-- An infinity of a sign, from one of any sign. -/
theorem infBits_of_inf (hf : f.Ieee) {x : Nat} (hx : x < 2 * f.signBit) (h : fvIsInf (f.value x) = true) (neg : Bool) :
    f.infBits neg = f.signed neg (x % f.signBit) := by
  obtain ⟨n, c, rfl, hc, ⟨rfl, -⟩ | ⟨-, k, q, hv, -⟩⟩ := number_cases hf hx (not_nan_of_inf h)
  · rw [signed_mod n hc, infBits_eq hf]
  · rw [hv] at h
    cases h

theorem infBits_self (hf : f.Ieee) {x : Nat} (hx : x < 2 * f.signBit) (h : fvIsInf (f.value x) = true) :
    f.infBits (fvSign (f.value x)) = x := by
  obtain ⟨n, c, rfl, hc, ⟨rfl, hv⟩ | ⟨-, k, q, hv, -⟩⟩ := number_cases hf hx (not_nan_of_inf h)
  · rw [hv, infBits_eq hf]
    rfl
  · rw [hv] at h
    cases h

end

end Sys2Proof.Machine
end

section

open Sys2Proof Sys2Proof.Machine Sys2Proof.Safety

/-- The lane-wise float instructions. -/
theorem vectorFloats : Sys2Proof.Parts.VectorFloats := by
  intro s g t d a b x r w f m e y gives forms
  have hforms {vv vx : Instr} (op : Slot → Nat → Nat → Nat × Nat) (gv : Issues vv g) (hv : exec vv s = vFlt g t d a (bvv w b) s op)
      (gx : Issues vx g) (hx : exec vx s = vFlt g t d a (bvx w x) s op) : forms vv vx (op s.sl) :=
    ⟨laneWise_vFlt gv hv, laneWise_vFlt gx hx⟩
  refine ⟨hforms (fun sl => f.add (sl.rmode r)) (issues_mk rfl) rfl (issues_mk rfl) rfl,
    hforms (fun sl => f.sub (sl.rmode r)) (issues_mk rfl) rfl (issues_mk rfl) rfl,
    hforms (fun sl => f.mul (sl.rmode r)) (issues_mk rfl) rfl (issues_mk rfl) rfl,
    hforms (fun _ => f.pick false) (issues_mk rfl) rfl (issues_mk rfl) rfl,
    hforms (fun _ => f.pick true) (issues_mk rfl) rfl (issues_mk rfl) rfl, ?_, ?_, ?_, ?_⟩
  · exact laneWise_vFma (b := bvv w b) (issues_mk rfl) rfl
  · exact laneWise_vFma (b := bvx w x) (issues_mk rfl) rfl
  · exact laneWise_vFlt (b := fun _ _ => 0) (f := fun _ z _ => f.abs z) (issues_mk rfl) rfl
  · exact laneWise_vFlt (b := fun _ _ => 0) (f := fun _ z _ => f.neg z) (issues_mk rfl) rfl

/-- NaNs, infinities and signs in the float operations. -/
theorem floatSpecialCases : Sys2Proof.Parts.FloatSpecialCases := by
  intro t r a b c ha hb f nan nv inf zero neg invalid top
  have hf : f.Ieee := ieee_fpOf t
  obtain ⟨hhalf, hall⟩ : top = f.signBit ∧ 2 ^ t.width = 2 * f.signBit := signBit_fpOf t
  rw [hall] at ha hb
  have hnv (l : List Nat) : snanFlag (l.map f.value) = nv l := (snanFlag_eq l).trans (if_congr Iff.rfl rfl rfl)
  have hinvalid : zeroTimesInf (f.value a) (f.value b) = true ↔ invalid := zeroTimesInf_iff _ _
  have hsame {x : Nat} (h : inf x) : f.value x = .inf (neg x) := (fvIsInf_iff _).mp h
  have hnotNan {x : Nat} (h : inf x) : ¬ nan x := not_nan_of_inf h
  refine ⟨fun h => ?_, fun h => ?_, fun h hn => ?_, fun h1 h2 hne => ?_, fun h1 h2 heq => ?_, ?_, fun h1 h2 => ?_, fun h1 h2 => ?_,
    fun h1 h2 => ?_, fun h => ?_, fun h => ?_⟩
  · rw [← hnv]
    exact ⟨add_nan r h, sub_nan r h, mul_nan r h⟩
  · exact ⟨mul_invalid r (hinvalid.mpr h), fma_invalid r (hinvalid.mpr h)⟩
  · rw [← hnv]
    exact fma_nan r (mt hinvalid.mp h) hn
  · rw [add_sum r (hnotNan h1) (hnotNan h2), hsame h1, hsame h2, sum_inf_inf, if_neg hne]
  · rw [add_sum r (hnotNan h1) (hnotNan h2), sub_sum r (hnotNan h1) (hnotNan h2), hsame h1, hsame h2, sum_inf_inf, if_pos heq,
      infBits_self hf ha h1, fvNeg, sum_inf_inf, if_neg (by rw [heq]; simp)]
    exact ⟨rfl, rfl⟩
  · intro num signed product
    have hfin {x : Nat} (h : num x) : ∃ m e, f.value x = .fin (neg x) m e := finite_of_not h.1 h.2
    have hsigned {x : Nat} (hx : x < 2 * f.signBit) (h : inf x) (n : Bool) : f.infBits n = signed n x := by
      rw [infBits_of_inf hf hx h]
      simp only [signed, hhalf]
      rfl
    refine ⟨fun h1 h2 => ?_, fun h1 h2 => ?_, fun h1 h2 h3 hc => ?_, fun hi hor h1 h2 => ?_⟩
    · obtain ⟨m, e, hm⟩ := hfin h2
      rw [add_sum r (hnotNan h1) h2.2, sub_sum r (hnotNan h1) h2.2, hsame h1, hm, fvNeg, sum_inf_fin, sum_inf_fin, infBits_self hf ha h1]
      exact ⟨rfl, rfl⟩
    · obtain ⟨m, e, hm⟩ := hfin h1
      rw [add_sum r h1.2 (hnotNan h2), sub_sum r h1.2 (hnotNan h2), hsame h2, hm, fvNeg, sum_fin_inf, sum_fin_inf, infBits_self hf hb h2,
        hsigned hb h2]
      exact ⟨rfl, rfl⟩
    · rw [hall] at hc
      have hi : ¬ invalid := fun h => h.elim (fun h => h1.1 h.1) fun h => h2.1 h.2
      obtain ⟨m1, e1, hm1⟩ := hfin h1
      obtain ⟨m2, e2, hm2⟩ := hfin h2
      rw [fma_sum r (mt hinvalid.mp hi) h1.2 h2.2 (hnotNan h3), hsame h3, hm1, hm2, fvMul, sum_fin_inf, infBits_self hf hc h3]
    · have hproduct : f.infBits (neg a != neg b) = product := by
        simp only [product]
        split
        · next h => exact hsigned ha h _
        · next h => exact hsigned hb (hor.resolve_left h) _
      have hmul := fvMul_inf h1 h2 hor
      refine ⟨?_, fun h3 => ?_, fun h3 hc => ?_⟩
      · rw [mul_product r (mt hinvalid.mp hi) h1 h2, hmul, FpFmt.deliver, hf.kind]
        exact congrArg (·, 0) hproduct
      · obtain ⟨m, e, hm⟩ := hfin h3
        rw [fma_sum r (mt hinvalid.mp hi) h1 h2 h3.2, hmul, hm, sum_inf_fin]
        exact congrArg (·, 0) hproduct
      · rw [hall] at hc
        rw [fma_sum r (mt hinvalid.mp hi) h1 h2 (hnotNan h3), hmul, hsame h3, sum_inf_inf]
        by_cases heq : neg c = (neg a != neg b)
        · rw [if_pos heq, if_pos heq.symm]
          exact congrArg (·, 0) ((congrArg f.infBits heq.symm).trans (infBits_self hf hc h3))
        · rw [if_neg heq, if_neg (Ne.symm heq)]
  · rw [← hnv]
    exact ⟨pick_nan_left true h1 h2, pick_nan_left false h1 h2⟩
  · rw [← hnv]
    exact ⟨pick_nan_right true h1 h2, pick_nan_right false h1 h2⟩
  · rw [← hnv]
    exact ⟨pick_nan_both true h1 h2, pick_nan_both false h1 h2⟩
  · rw [← hnv]
    exact ⟨abs_nan h, neg_nan h⟩
  · rw [hhalf, hall]
    exact ⟨abs_number h, neg_number ha h⟩

end

section
/-!
The float operations on numbers (R53, R155 … R158, R166).
-/

namespace Sys2Proof.Machine

section
variable {f : FpFmt}

/-! ## Sums and products -/

/-- A significand with its sign, in units of a power of two. -/
theorem fvScaled_fin (neg : Bool) (m : Nat) (e l : Int) :
    fvScaled l (.fin neg m e) = (if neg = true then -1 else 1) * ((m * 2 ^ (e - l).toNat : Nat) : Int) := rfl

/-- The sum of two finite values: rounded once, and an exact zero with its sign (R53). -/
theorem sum_fin_fin (hf : f.sign = true) (r : RMode) (n1 n2 : Bool) (m1 m2 : Nat) (e1 e2 : Int) :
    let z := fvScaled (min e1 e2) (.fin n1 m1 e1) + fvScaled (min e1 e2) (.fin n2 m2 e2)
    let x := f.sum r (.fin n1 m1 e1) (.fin n2 m2 e2)
    (z ≠ 0 → x = f.deliver r (.fin (decide (z < 0)) z.natAbs (min e1 e2)))
    ∧ (z = 0 → x = (f.bits (if m1 = 0 ∧ m2 = 0 ∧ n1 = n2 then n1 else decide (r = .rdn)) 0 0, 0)) := by
  intro z x
  have hx : x = if z = 0 then
      (f.bits (if (m1 == 0 && m2 == 0 && n1 == n2) = true then n1 else r == .rdn) 0 0, 0)
      else f.roundFin r (decide (z < 0)) z.natAbs (min e1 e2) := rfl
  refine ⟨fun hz => ?_, fun hz => ?_⟩
  · rw [hx, if_neg hz, deliver_nonzero _ (Int.natAbs_ne_zero.mpr hz) fun _ => hf]
  · rw [hx, if_pos hz]
    refine congrArg (fun n => (f.bits n 0 0, 0)) (if_congr ?_ rfl ?_)
    · rw [Bool.and_eq_true, Bool.and_eq_true, beq_iff_eq, beq_iff_eq, beq_iff_eq, and_assoc]
    · cases r <;> rfl

theorem zeroTimesInf_fin (n1 n2 : Bool) (m1 m2 : Nat) (e1 e2 : Int) : zeroTimesInf (.fin n1 m1 e1) (.fin n2 m2 e2) = false := by
  simp [zeroTimesInf, fvIsInf]

/-- The product of two finite values (R155). -/
theorem mul_fin {r : RMode} {a b : Nat} {n1 n2 : Bool} {m1 m2 : Nat} {e1 e2 : Int} (ha : f.value a = .fin n1 m1 e1)
    (hb : f.value b = .fin n2 m2 e2) : f.mul r a b = f.deliver r (.fin (n1 != n2) (m1 * m2) (e1 + e2)) := by
  rw [mul_product r, ha, hb]
  · rfl
  · rw [ha, hb, zeroTimesInf_fin]
    exact Bool.false_ne_true
  · rw [ha]
    exact Bool.false_ne_true
  · rw [hb]
    exact Bool.false_ne_true

/-! ## The order of the numbers -/

/-- A code and its sign, as an integer. -/
def sInt (neg : Bool) (n : Nat) : Int := if neg = true then -(n : Int) else n

/-- Magnitudes with signs are ordered as their codes with signs. -/
theorem sInt_gridMag_lt (p : Nat) (n k : Bool) (c d : Nat) :
    sInt n (gridMag p c) < sInt k (gridMag p d) ↔ sInt n c < sInt k d := by
  have hmono {a b : Nat} : gridMag p a < gridMag p b ↔ a < b := (gridMag_strictMono p).lt_iff_lt
  have hpos (a : Nat) : 0 < gridMag p a ↔ 0 < a := by
    have h := hmono (a := 0) (b := a)
    rwa [gridMag_zero] at h
  have hcd := hmono (a := c) (b := d)
  have hdc := hmono (a := d) (b := c)
  have hc := hpos c
  have hd := hpos d
  unfold sInt
  split <;> split <;> omega

/-- A finite value, in units of the smallest subnormal. -/
theorem fvScaled_low {n : Bool} {k : Nat} {q l : Int} (hl : f.low ≤ l) (hq : l ≤ q) :
    fvScaled l (.fin n k q) * 2 ^ (l - f.low).toNat = sInt n (k * 2 ^ (q - f.low).toNat) := by
  have hpow : 2 ^ (q - f.low).toNat = 2 ^ (q - l).toNat * 2 ^ (l - f.low).toNat := by
    rw [← Nat.pow_add, show (q - l).toNat + (l - f.low).toNat = (q - f.low).toNat by omega]
  rw [fvScaled_fin, hpow, ← Nat.mul_assoc, sInt]
  push_cast
  split <;> ring

/-- The order of two finite values. -/
theorem fvLt_fin_iff {n k : Bool} {m1 m2 : Nat} {q1 q2 : Int} (h1 : f.low ≤ q1) (h2 : f.low ≤ q2) :
    fvLt (.fin n m1 q1) (.fin k m2 q2) = true ↔ sInt n (m1 * 2 ^ (q1 - f.low).toNat) < sInt k (m2 * 2 ^ (q2 - f.low).toNat) := by
  have hl : f.low ≤ min q1 q2 := le_min h1 h2
  have hpos : (0 : Int) < 2 ^ (min q1 q2 - f.low).toNat := by positivity
  rw [← fvScaled_low hl (min_le_left q1 q2), ← fvScaled_low hl (min_le_right q1 q2), mul_lt_mul_iff_of_pos_right hpos]
  exact decide_eq_true_iff

/-- An element as a signed code: the order of numbers, −0 equal to +0. -/
def FpFmt.key (f : FpFmt) (x : Nat) : Int := if f.signBit ≤ x then -((x - f.signBit : Nat) : Int) else x

theorem key_signed (n : Bool) {c : Nat} (hc : c < f.signBit) : f.key (f.signed n c) = sInt n c := by
  cases n with
  | false => exact (if_neg (by rw [FpFmt.signed]; simpa using hc)).trans (congrArg _ (Nat.zero_add c))
  | true =>
    refine (if_pos (Nat.le_add_right _ _)).trans ?_
    exact congrArg (fun m : Nat => -(m : Int)) (Nat.add_sub_cancel_left ..)

/-- The sign of a number is that of its code. -/
theorem fvSign_signed (hf : f.Ieee) {x : Nat} (hx : x < 2 * f.signBit) (hn : ¬ fvIsNan (f.value x) = true) :
    fvSign (f.value x) = decide (f.signBit ≤ x) := by
  obtain ⟨n, c, rfl, hc, ⟨-, hv⟩ | ⟨-, k, q, hv, -⟩⟩ := number_cases hf hx hn
  all_goals
    rw [hv]
    cases n <;> simp [fvSign, FpFmt.signed, hc]

/-- The order of two elements that are no NaN. -/
theorem fvLt_iff (hf : f.Ieee) {a b : Nat} (ha : a < 2 * f.signBit) (hb : b < 2 * f.signBit) (hna : ¬ fvIsNan (f.value a) = true)
    (hnb : ¬ fvIsNan (f.value b) = true) : fvLt (f.value a) (f.value b) = true ↔ f.key a < f.key b := by
  obtain ⟨n, c, rfl, hc, hca⟩ := number_cases hf ha hna
  obtain ⟨k, d, rfl, hd, hdb⟩ := number_cases hf hb hnb
  rw [key_signed n hc, key_signed k hd]
  have hpos := infCode_pos hf
  obtain ⟨rfl, hva⟩ | ⟨hlt, m1, q1, hva, hq1, hm1⟩ := hca
  · obtain ⟨rfl, hvb⟩ | ⟨hlt', m2, q2, hvb, hq2, hm2⟩ := hdb
    · rw [hva, hvb]
      cases n <;> cases k <;> simp [fvLt, sInt]
      omega
    · rw [hva, hvb]
      cases n <;> cases k <;> simp [fvLt, sInt] <;> omega
  · obtain ⟨rfl, hvb⟩ | ⟨hlt', m2, q2, hvb, hq2, hm2⟩ := hdb
    · rw [hva, hvb]
      cases n <;> cases k <;> simp [fvLt, sInt] <;> omega
    · rw [hva, hvb, fvLt_fin_iff hq1 hq2, hm1, hm2, sInt_gridMag_lt]

theorem fvEq_iff (hf : f.Ieee) {a b : Nat} (ha : a < 2 * f.signBit) (hb : b < 2 * f.signBit) (hna : ¬ fvIsNan (f.value a) = true)
    (hnb : ¬ fvIsNan (f.value b) = true) : fvEq (f.value a) (f.value b) = true ↔ f.key a = f.key b := by
  have hlt := fvLt_iff hf ha hb hna hnb
  have hgt := fvLt_iff hf hb ha hnb hna
  rw [fvEq, Bool.eq_false_iff.mpr hna, Bool.eq_false_iff.mpr hnb]
  simp only [Bool.not_false, Bool.true_and, Bool.and_eq_true, Bool.not_eq_true', Bool.eq_false_iff, ne_eq, hlt, hgt]
  omega

/-- The order of `vmin` and `vmax`: −0 below +0 (R157). -/
def FpFmt.order (f : FpFmt) (x : Nat) : Int := if f.signBit ≤ x then -((x - f.signBit : Nat) : Int) - 1 else x

/-- `vmin` and `vmax` of two elements that are no NaN. -/
theorem pick_numbers (hf : f.Ieee) {a b : Nat} (ha : a < 2 * f.signBit) (hb : b < 2 * f.signBit) (hna : ¬ fvIsNan (f.value a) = true)
    (hnb : ¬ fvIsNan (f.value b) = true) : f.pick true a b = (if f.order a < f.order b then b else a, 0)
      ∧ f.pick false a b = (if f.order b < f.order a then b else a, 0) := by
  have hlt := fvLt_iff hf ha hb hna hnb
  have heq := fvEq_iff hf ha hb hna hnb
  have hsa := fvSign_signed hf ha hna
  have hsb := fvSign_signed hf hb hnb
  have hpick (larger : Bool) : f.pick larger a b =
      (let below := fvLt (f.value a) (f.value b) || (fvEq (f.value a) (f.value b) && fvSign (f.value a) && !fvSign (f.value b))
       if larger then (if below then b else a)
       else if below then a else if fvEq (f.value a) (f.value b) && fvSign (f.value a) == fvSign (f.value b) then a else b, 0) := by
    rw [FpFmt.pick]
    exact (if_neg (by rw [Bool.and_eq_true]; exact fun h => hna h.1)).trans ((if_neg hna).trans (if_neg hnb))
  have hbelow : (fvLt (f.value a) (f.value b) || (fvEq (f.value a) (f.value b) && fvSign (f.value a) && !fvSign (f.value b))) = true
      ↔ f.order a < f.order b := by
    simp only [Bool.or_eq_true, Bool.and_eq_true, Bool.not_eq_true', hlt, heq, hsa, hsb, decide_eq_true_eq, decide_eq_false_iff_not]
    unfold FpFmt.key FpFmt.order
    split <;> split <;> omega
  have hsame : (fvEq (f.value a) (f.value b) && fvSign (f.value a) == fvSign (f.value b)) = true ↔ f.order a = f.order b := by
    rw [Bool.and_eq_true, beq_iff_eq, heq, hsa, hsb, decide_eq_decide]
    unfold FpFmt.key FpFmt.order
    split <;> split <;> omega
  rw [hpick, hpick]
  dsimp only
  refine ⟨congrArg (·, 0) ((if_pos rfl).trans (if_congr hbelow rfl rfl)), congrArg (·, 0) ?_⟩
  rw [if_neg Bool.false_ne_true]
  by_cases h1 : f.order a < f.order b
  · rw [if_pos (hbelow.mpr h1), if_neg (by omega)]
  · rw [if_neg (mt hbelow.mp h1)]
    by_cases h2 : f.order a = f.order b
    · rw [if_pos (hsame.mpr h2), if_neg (by omega)]
    · rw [if_neg (mt hsame.mp h2), if_pos (by omega)]

end

end Sys2Proof.Machine
end

section

open Sys2Proof Sys2Proof.Machine

/-- The float operations on numbers, and the conditions. -/
theorem floatFiniteCases : Sys2Proof.Parts.FloatFiniteCases := by
  intro t r a b c na nb nc ma mb mc ea eb ec ha hb f at_ adds top key order nan quiet loud holds num
  have hf : f.Ieee := ieee_fpOf t
  obtain ⟨hhalf, hall⟩ : top = f.signBit ∧ 2 ^ t.width = 2 * f.signBit := signBit_fpOf t
  rw [hall] at ha hb
  have hkey (x : Nat) : key x = f.key x := by
    simp only [key, hhalf]
    rfl
  have horder (x : Nat) : order x = f.order x := by
    simp only [order, hhalf]
    rfl
  refine ⟨fun hva hvb => ?_, fun h => ?_, ?_⟩
  · have hna : ¬ fvIsNan (f.value a) = true := by rw [hva]; exact Bool.false_ne_true
    have hnb : ¬ fvIsNan (f.value b) = true := by rw [hvb]; exact Bool.false_ne_true
    have hmul := mul_fin (r := r) hva hvb
    refine ⟨?_, ?_, hmul, fun hz => ?_, fun hvc => ?_⟩
    · rw [add_sum r hna hnb, hva, hvb]
      exact sum_fin_fin hf.sign r na nb ma mb ea eb
    · rw [sub_sum r hna hnb, hva, hvb]
      exact sum_fin_fin hf.sign r na (!nb) ma mb ea eb
    · rw [hmul, hz, deliver_zero, hf.sign, hhalf]
      cases na <;> cases nb <;> rfl
    · rw [fma_sum r (by rw [hva, hvb, zeroTimesInf_fin]; exact Bool.false_ne_true) hna hnb (by rw [hvc]; exact Bool.false_ne_true),
        hva, hvb, hvc]
      exact sum_fin_fin hf.sign r (na != nb) nc (ma * mb) mc (ea + eb) ec
  · rw [horder, horder]
    exact pick_numbers hf ha hb h.1 h.2
  · have hun : (fvIsNan (f.value a) || fvIsNan (f.value b)) = true ↔ ¬ num := by
      rw [Bool.or_eq_true, not_and_or, not_not, not_not]
    have hquiet : snanFlag [f.value a, f.value b] = quiet := by
      refine (snanFlag_eq [a, b]).trans (if_congr ?_ rfl rfl)
      simp
    have hloud : (if (fvIsNan (f.value a) || fvIsNan (f.value b)) = true then flagNV else 0) = loud :=
      if_congr (Bool.or_eq_true _ _).to_iff rfl rfl
    have hlt (h : num) := fvLt_iff hf ha hb h.1 h.2
    have hgt (h : num) := fvLt_iff hf hb ha h.2 h.1
    have heq (h : num) := fvEq_iff hf ha hb h.1 h.2
    have hordered {p : Bool} {P : Prop} (h : num → (p = true ↔ P)) :
        (!(fvIsNan (f.value a) || fvIsNan (f.value b)) && p) = true ↔ num ∧ P := by
      rw [Bool.and_eq_true, Bool.not_eq_true', Bool.eq_false_iff, ne_eq, hun, not_not]
      exact and_congr_right h
    have hnot {p : Bool} {P : Prop} (h : num → (p = true ↔ P)) (hn : num) : (!p) = true ↔ ¬ P := by
      rw [Bool.not_eq_true', Bool.eq_false_iff, ne_eq, h hn]
    rw [hkey, hkey]
    refine ⟨⟨hordered heq, hquiet⟩, ⟨?_, hquiet⟩, ⟨hordered hlt, hloud⟩, ⟨?_, hloud⟩, ⟨hordered hgt, hloud⟩, ⟨?_, hloud⟩,
      ⟨?_, hquiet⟩, hun, hquiet⟩
    · change (fvIsNan (f.value a) || fvIsNan (f.value b) || !fvEq (f.value a) (f.value b)) = true ↔ _
      rw [Bool.or_eq_true, hun, ← imp_iff_not_or, ← imp_iff_not_or]
      exact forall_congr' (hnot heq)
    · rw [← not_lt]
      exact hordered (hnot hgt)
    · rw [← not_lt]
      exact hordered (hnot hlt)
    · change (!(fvIsNan (f.value a) || fvIsNan (f.value b))) = true ↔ num
      rw [Bool.not_eq_true', Bool.eq_false_iff, ne_eq, hun, not_not]

/-- Settles O15: the lane-wise instructions by their outline, the special cases by the kinds of their operands, the rounding by the
codes beside a value, and the numbers by the order of their codes. -/
theorem vectorFloatResults : Obligations.VectorFloatResults :=
  ⟨vectorFloats, floatSpecialCases, roundingRule, floatFiniteCases⟩

end
